-- ==== Sys2Proof/Word.lean ====
section
/-!
DEFINITION. Word.lean: the word types of the G9 (00 R5, 05 R95) and their plainest arithmetic: bytes, 32-bit and 64-bit
words, the value of a run of bytes in little-endian order, and a bit field of a natural number.
-/

namespace Sys2Proof

/-- A byte of memory. -/
abbrev Byte := BitVec 8

/-- A 32-bit word: a v, w or s register, an instruction word. -/
abbrev Word := BitVec 32

/-- A 64-bit word: a pair, a y slot, an address operand. -/
abbrev DWord := BitVec 64

/-- The number whose bytes, lowest first, are given (R5). -/
def leNat : List Byte → Nat
  | [] => 0
  | b :: bs => b.toNat + 256 * leNat bs

/-- The n bytes of a number, lowest first (R5). -/
def leBytes : Nat → Nat → List Byte
  | 0, _ => []
  | n + 1, x => BitVec.ofNat 8 x :: leBytes n (x / 256)

/-- Bits [lo + len - 1 : lo] of x. -/
def bitsOf (x lo len : Nat) : Nat := x / 2 ^ lo % 2 ^ len

/-- Bit i of x. -/
def bitAt (x i : Nat) : Bool := x / 2 ^ i % 2 == 1

end Sys2Proof
end

