-- ==== Sys2Proof/Config.lean ====
section
/-!
DEFINITION. Config.lean: what the spec leaves to the implementation or to chance, as free values: constants without a body,
of which no proof can see the value.
-/

namespace Sys2Proof

/-- Where the spec allows one of several outcomes and does not say which (R58: the byte that stays when two cores wrote it
in one phase; R80, R81: engine transfers that meet; R253; R133): the n-th choice is freePick n modulo the number of
outcomes. DESIGN CHOICE, log entry 3. -/
opaque Config.freePick : Nat → Nat

/-- The byte that the memory of another module returns at a peer address that this module has not written itself (R11,
R150): the contents of another machine. DESIGN CHOICE, log entry 4. -/
opaque Config.remoteByte : Nat → BitVec 8

/-- Microcode words, sealed firmware and counts that the spec says exist and gives no value: the n-th such value. DESIGN CHOICE, log
entry 5. -/
opaque Config.freeWord : Nat → BitVec 64

/-- The set of a die's TLB that a translation belongs to, by address space and page: 2,048 sets of 8 (R42). DESIGN CHOICE, log
entry 12. -/
opaque Config.tlbSet : Nat → Nat

/-- The set of a core's L1 data cache that a line belongs to: 1,024 sets of 16 (R2, R56). DESIGN CHOICE, log entry 115. -/
opaque Config.l1Set : Nat → Nat

/-- The set of an L2 slice that a line belongs to: 2,048 sets of 16 (R52). DESIGN CHOICE, log entry 115. -/
opaque Config.l2Set : Nat → Nat

/-- Which of n lanes' values a team's s register keeps in a deterministic launch (R100, R410). DESIGN CHOICE, log entry 14. -/
opaque Config.detPick : Nat → Nat

/-- The UALink port that the data of an endpoint take (R18, R20). DESIGN CHOICE, log entry 27. -/
opaque Config.fabricPort : Nat → Nat

/-- Does the throttle controller withhold a slot of a core at a tick, where its die has an issue limit (R434)? UNVERIFIED, log entry 90. -/
opaque Config.withheld : Nat → Nat → Bool

/-- How many sectors the carry store that Gondola reserves in DRAM takes (R138). DESIGN CHOICE, log entry 116. -/
opaque Config.carryStore : Nat

end Sys2Proof
end

