-- ==== Sys2Proof/Syntax.lean ====
section
/-!
DEFINITION. Syntax.lean: the instructions of the G9. Instr has one constructor for each row of the opcode table: the
instructions of a program (09 R172 to R178) and the operations of the module that are no slot of a clause (95).
Operand codes are already names here: a source or a destination is what it reaches, not a number of a field (R169).
-/

namespace Sys2Proof

/-- The class of the instructions of a clause (R163). -/
inductive Cls where
  | int | flt | xl | mem | mat | ctl | sys
  deriving DecidableEq, Repr

/-- The TYPE codes (R171). -/
inductive Ty where
  | i8 | i16 | i32 | i64 | n8 | n16 | n32 | n64 | f64 | f32 | f16 | bf16 | e4m3 | e5m2 | e2m1 | b128
  deriving DecidableEq, Repr

/-- The rounding modes (R113). -/
inductive Rm where
  | rne | rtz | rup | rdn
  deriving DecidableEq, Repr

/-- The scopes of immediate operations, phases and fences; a rectangle has 2^a rows by 2^b columns (R127, R171). -/
inductive Scope where
  | wg | rect (a b : Nat) | launch | sys
  deriving DecidableEq, Repr

/-- The orderings (R171). -/
inductive Ord where
  | relaxed | acq | rel | acqrel | sc
  deriving DecidableEq, Repr

/-- The conditions of icmp (R172). -/
inductive ICond where
  | eq | ne | lt | le | gt | ge
  deriving DecidableEq, Repr

/-- The conditions of fcmp (R173). -/
inductive FCond where
  | eq | ne | lt | le | gt | ge | un | or
  deriving DecidableEq, Repr

/-- The operations of red and scan (R174). -/
inductive RedOp where
  | add | and | or | xor | min | max
  deriving DecidableEq, Repr

/-- The operations of atom (R175). -/
inductive AtomOp where
  | add | and | or | xor | swap | min | max
  deriving DecidableEq, Repr

/-- The operations of atomf (R175). -/
inductive AtomFOp where
  | add | min | max
  deriving DecidableEq, Repr

/-- The guard of an instruction: none, or a predicate, possibly negated (R168). -/
inductive Guard where
  | always
  | on (p : Nat) (neg : Bool)
  deriving DecidableEq, Repr

/-- What a source code names (R96, R97, R102, R169). -/
inductive Src where
  | v (n : Nat) | w (n : Nat) | y (n : Nat) | tid | lane | gpc | tick | one | zero | s (n : Nat) | pm (n : Nat)
  | imm (k : Int)
  deriving DecidableEq, Repr

/-- What a destination code names; discard is code 0x4F (R96, R169). -/
inductive Dst where
  | v (n : Nat) | w (n : Nat) | s (n : Nat) | pm (n : Nat) | discard
  deriving DecidableEq, Repr

/-- A queue selector: the ENGINE code of R71 and the queue (R178). -/
structure QSel where
  eng : Nat
  q   : Nat
  deriving DecidableEq, Repr

/-- The atomic requests that a peer or a host may send (R150). -/
inductive RemoteOp where
  | add | and | or | xor | swap | min | max | umin | umax | cas
  deriving DecidableEq, Repr

/-- Who sends a write over the fabric: a host, or another G9 module, whose data bring their seal, matching or not on arrival (R16,
R17, R21). -/
inductive Sender where
  | host
  | g9 (sealOk : Bool)
  deriving DecidableEq, Repr

/-- How a write comes over the fabric: whether it is a release, and from whom (R20, R21). -/
structure FabricWrite where
  rel : Bool
  src : Sender
  deriving DecidableEq, Repr

/-- A request of the fabric directory for a line of 128 bytes: a recall, or a downgrade, which leaves the line held (R23). -/
structure Recall where
  line      : Nat
  downgrade : Bool
  deriving DecidableEq, Repr

/-- A firmware image that is loaded into a die, and whether its load succeeds (R28, R426). -/
structure FirmwareImage where
  die : Nat
  ok  : Bool
  deriving DecidableEq, Repr

/-- A request of a PCIe host at one of the base address registers (R27). -/
inductive PcieReq where
  | read (bar off n : Nat)
  | write (bar off : Nat) (bytes : List Byte)
  deriving DecidableEq, Repr

/-- A change that a throttle controller makes: the new clock in MHz, core voltage in mV and issue limit in slots per 8 cycles, and
its cause: 0 thermal, 1 current, 2 droop, 3 budget (R424, R434). -/
structure Throttle where
  clock   : Nat
  voltage : Nat
  limit   : Nat
  cause   : Nat
  deriving DecidableEq, Repr

/-- A register of a core or of a die that the mesh or a window reaches by number. -/
structure RegRef where
  number : Nat
  deriving DecidableEq, Repr

/-- A workgroup: its launch and its id. -/
structure WgRef where
  launch : Nat
  wg     : Nat
  deriving DecidableEq, Repr

/-- A thread: its launch, its workgroup, its team (the value of s3 at creation) and its lane. -/
structure ThreadRef where
  launch : Nat
  wg     : Nat
  team   : Nat
  lane   : Nat
  deriving DecidableEq, Repr

/-- An item of a replay buffer: its core and its place in the buffer. -/
structure ReplayRef where
  core : Nat
  idx  : Nat
  deriving DecidableEq, Repr

/-- The object of a policy action: a thread with a record, or a record without a thread by its place in the order of arrival. -/
inductive PolicyRef where
  | thread (r : ThreadRef) | unit (i : Nat)
  deriving DecidableEq, Repr

/-- A boundary in progress: its launch, its scope and the workgroup or rectangle that stands for it. -/
structure BoundaryRef where
  launch : Nat
  scope  : Scope
  wg     : Nat
  deriving DecidableEq, Repr

/-- A queue of a workgroup. -/
structure QueueRef where
  launch : Nat
  wg     : Nat
  sel    : QSel
  deriving DecidableEq, Repr

/-- The entry in flight of a queue, and which one of the sectors that it has still to write it writes now; none means all (R78). -/
structure EntryStep where
  queue : QueueRef
  part  : Option Nat := none
  deriving DecidableEq, Repr


/-- One constructor per row of the opcode table: the instructions of a program by class, then the
operations of the module (spec/95). -/
inductive Instr where
  -- INT class (R172, R183 to R204)
  | iaddI32 (g : Guard) (d : Dst) (a b : Src)
  | isubI32 (g : Guard) (d : Dst) (a b : Src)
  | iaddI64 (g : Guard) (d : Dst) (a b : Src)
  | isubI64 (g : Guard) (d : Dst) (a b : Src)
  | imulI32 (g : Guard) (d : Dst) (a b : Src)
  | imulhiI32 (g : Guard) (d : Dst) (a b : Src)
  | imulhiN32 (g : Guard) (d : Dst) (a b : Src)
  | iminI32 (g : Guard) (d : Dst) (a b : Src)
  | imaxI32 (g : Guard) (d : Dst) (a b : Src)
  | iminN32 (g : Guard) (d : Dst) (a b : Src)
  | imaxN32 (g : Guard) (d : Dst) (a b : Src)
  | andB32 (g : Guard) (d : Dst) (a b : Src)
  | orB32 (g : Guard) (d : Dst) (a b : Src)
  | xorB32 (g : Guard) (d : Dst) (a b : Src)
  | andnB32 (g : Guard) (d : Dst) (a b : Src)
  | shl (g : Guard) (d : Dst) (a b : Src)
  | shr (g : Guard) (d : Dst) (a b : Src)
  | sar (g : Guard) (d : Dst) (a b : Src)
  | rotl (g : Guard) (d : Dst) (a b : Src)
  | popc (g : Guard) (d : Dst) (a : Src)
  | clz (g : Guard) (d : Dst) (a : Src)
  | ctz (g : Guard) (d : Dst) (a : Src)
  | brev (g : Guard) (d : Dst) (a : Src)
  | iabsI32 (g : Guard) (d : Dst) (a : Src)
  | inegI32 (g : Guard) (d : Dst) (a : Src)
  | mov (g : Guard) (d : Dst) (a : Src)
  | pand (g : Guard) (d a b : Nat)
  | por (g : Guard) (d a b : Nat)
  | pxor (g : Guard) (d a b : Nat)
  | pnot (g : Guard) (d a : Nat)
  | movi (g : Guard) (d : Dst) (k : BitVec 32)
  | iaddi (g : Guard) (d : Dst) (a : Src) (k : BitVec 32)
  | andi (g : Guard) (d : Dst) (a : Src) (k : BitVec 32)
  | ori (g : Guard) (d : Dst) (a : Src) (k : BitVec 32)
  | xori (g : Guard) (d : Dst) (a : Src) (k : BitVec 32)
  | imad (g : Guard) (ty : Ty) (d : Dst) (a b c : Src)
  | idiv (g : Guard) (ty : Ty) (d : Dst) (a b : Src)
  | irem (g : Guard) (ty : Ty) (d : Dst) (a b : Src)
  | icmp (g : Guard) (ty : Ty) (cc : ICond) (d : Nat) (a b : Src)
  | sel (g : Guard) (ty : Ty) (d : Dst) (a b : Src) (c : Nat)
  | lea (g : Guard) (ty : Ty) (sh : Nat) (d : Dst) (a b : Src)
  | iaddc (g : Guard) (ty : Ty) (d : Dst) (a b : Src) (c : Nat)
  | isubb (g : Guard) (ty : Ty) (d : Dst) (a b : Src) (c : Nat)
  | bfe (g : Guard) (ty : Ty) (d : Dst) (a b : Src)
  | bfi (g : Guard) (ty : Ty) (d : Dst) (a b c : Src)
  | iaddL (g : Guard) (ty : Ty) (sat : Bool) (d : Dst) (a b : Src)
  | shf (g : Guard) (ty : Ty) (right : Bool) (d : Dst) (a b c : Src)
  | setix (g : Guard) (ix : Nat) (a : Src)
  | movx (g : Guard) (ty : Ty) (ix : Nat) (d : Dst) (a : Src)
  | stx (g : Guard) (ty : Ty) (ix : Nat) (a b : Src)
  | pmovTo (g : Guard) (d : Nat) (a : Src)
  | pmovFrom (g : Guard) (d : Dst) (a : Nat)
  | icvt (g : Guard) (ty sty : Ty) (sat : Bool) (d : Dst) (a : Src)
  -- FLT class (R173, R205 to R223)
  | faddF64 (g : Guard) (d : Dst) (a b : Src)
  | faddF32 (g : Guard) (d : Dst) (a b : Src)
  | fsubF64 (g : Guard) (d : Dst) (a b : Src)
  | fsubF32 (g : Guard) (d : Dst) (a b : Src)
  | fmulF64 (g : Guard) (d : Dst) (a b : Src)
  | fmulF32 (g : Guard) (d : Dst) (a b : Src)
  | fminF64 (g : Guard) (d : Dst) (a b : Src)
  | fminF32 (g : Guard) (d : Dst) (a b : Src)
  | fmaxF64 (g : Guard) (d : Dst) (a b : Src)
  | fmaxF32 (g : Guard) (d : Dst) (a b : Src)
  | fabsF64 (g : Guard) (d : Dst) (a : Src)
  | fabsF32 (g : Guard) (d : Dst) (a : Src)
  | fnegF64 (g : Guard) (d : Dst) (a : Src)
  | fnegF32 (g : Guard) (d : Dst) (a : Src)
  | faddH2 (g : Guard) (d : Dst) (a b : Src)
  | fmulH2 (g : Guard) (d : Dst) (a b : Src)
  | faddB2 (g : Guard) (d : Dst) (a b : Src)
  | fmulB2 (g : Guard) (d : Dst) (a b : Src)
  | frcpF32 (g : Guard) (d : Dst) (a : Src)
  | frsqF32 (g : Guard) (d : Dst) (a : Src)
  | fexp2F32 (g : Guard) (d : Dst) (a : Src)
  | flog2F32 (g : Guard) (d : Dst) (a : Src)
  | fsinpiF32 (g : Guard) (d : Dst) (a : Src)
  | fcospiF32 (g : Guard) (d : Dst) (a : Src)
  | ftanhF32 (g : Guard) (d : Dst) (a : Src)
  | fclassF64 (g : Guard) (d : Dst) (a : Src)
  | fclassF32 (g : Guard) (d : Dst) (a : Src)
  | fma (g : Guard) (ty : Ty) (rm : Rm) (ftz pk : Bool) (d : Dst) (a b c : Src)
  | faddL (g : Guard) (ty : Ty) (rm : Rm) (ftz pk : Bool) (d : Dst) (a b : Src)
  | fmulL (g : Guard) (ty : Ty) (rm : Rm) (ftz pk : Bool) (d : Dst) (a b : Src)
  | fdiv (g : Guard) (ty : Ty) (rm : Rm) (ftz : Bool) (d : Dst) (a b : Src)
  | fsqrt (g : Guard) (ty : Ty) (rm : Rm) (ftz : Bool) (d : Dst) (a : Src)
  | fcmp (g : Guard) (ty : Ty) (cc : FCond) (d : Nat) (a b : Src)
  | fcvt (g : Guard) (ty sty : Ty) (rm : Rm) (sat : Bool) (d : Dst) (a : Src)
  | frnd (g : Guard) (ty : Ty) (rm : Rm) (d : Dst) (a : Src)
  | fcvti (g : Guard) (ty sty : Ty) (rm : Rm) (d : Dst) (a : Src)
  | icvtf (g : Guard) (ty sty : Ty) (rm : Rm) (d : Dst) (a : Src)
  | fscale (g : Guard) (ty : Ty) (rm : Rm) (d : Dst) (a b : Src)
  | ffrexp (g : Guard) (ty : Ty) (d : Dst) (a : Src) (c : Dst)
  | fpack (g : Guard) (ty sty : Ty) (rm : Rm) (sat : Bool) (d : Dst) (a b : Src)
  | funpack (g : Guard) (ty sty : Ty) (d : Dst) (a b : Src)
  | fdot2 (g : Guard) (ty : Ty) (rm : Rm) (d : Dst) (a b c : Src)
  -- XL class (R174, R224 to R250)
  | shflIdx (g : Guard) (d : Dst) (a b : Src)
  | shflUp (g : Guard) (d : Dst) (a b : Src)
  | shflDn (g : Guard) (d : Dst) (a b : Src)
  | shflXor (g : Guard) (d : Dst) (a b : Src)
  | voteAll (g : Guard) (d a : Nat)
  | voteAny (g : Guard) (d a : Nat)
  | voteBallot (g : Guard) (d : Dst) (a : Nat)
  | voteEq (g : Guard) (d : Nat) (a : Src)
  | lbcast (g : Guard) (d : Dst) (a b : Src)
  | matchLanes (g : Guard) (d : Dst) (a : Src)
  | redAddI32 (g : Guard) (d : Dst) (a : Src)
  | redAddF32 (g : Guard) (d : Dst) (a : Src)
  | scanAddI32 (g : Guard) (d : Dst) (a : Src)
  | wadd (g : Guard) (d : Dst) (a b : Src)
  | wsub (g : Guard) (d : Dst) (a b : Src)
  | wneg (g : Guard) (d : Dst) (a : Src)
  | wshl (g : Guard) (d : Dst) (a b : Src)
  | wshr (g : Guard) (d : Dst) (a b : Src)
  | wsign (g : Guard) (d : Dst) (a : Src)
  | wcmp (g : Guard) (d : Dst) (a b : Src)
  | wclr (g : Guard) (d : Dst)
  | zip (g : Guard) (ty : Ty) (k : Nat) (d : Dst) (a : Src)
  | unzip (g : Guard) (ty : Ty) (k : Nat) (d : Dst) (a : Src)
  | bind (g : Guard) (ty : Ty) (n : Nat)
  | unbind (g : Guard)
  | wmacF64 (g : Guard) (d : Dst) (a b : Src)
  | wnorm (g : Guard) (rm : Rm) (d : Dst) (a : Src)
  | wwin (g : Guard) (a : Src) (c : Int)
  | red (g : Guard) (op : RedOp) (ty : Ty) (rm : Rm) (d : Dst) (a : Src)
  | scan (g : Guard) (op : RedOp) (ty : Ty) (rm : Rm) (excl : Bool) (d : Dst) (a : Src)
  -- MEM class (R175, R251 to R274)
  | ldW (g : Guard) (d : Dst) (a b : Src)
  | ldD (g : Guard) (d : Dst) (a b : Src)
  | ldQ (g : Guard) (d : Dst) (a b : Src)
  | stW (g : Guard) (x a b : Src)
  | stD (g : Guard) (x a b : Src)
  | stQ (g : Guard) (x a b : Src)
  | ldsW (g : Guard) (d : Dst) (a b : Src)
  | stsW (g : Guard) (x a b : Src)
  | ldiWWg (g : Guard) (d : Dst) (a b : Src)
  | stiWWg (g : Guard) (x a b : Src)
  | qpop (g : Guard) (d : Dst) (a : Src)
  | qpush (g : Guard) (a b : Src)
  | prefetch (g : Guard) (a b : Src)
  | ldK (g : Guard) (wd : Nat) (d : Dst) (a : Src) (k : BitVec 32)
  | stK (g : Guard) (wd : Nat) (x a : Src) (k : BitVec 32)
  | ldL (g : Guard) (ty : Ty) (d : Dst) (a b : Src)
  | stL (g : Guard) (ty : Ty) (x a b : Src)
  | ldi (g : Guard) (ty : Ty) (sc : Scope) (ord : Ord) (d : Dst) (a b : Src)
  | sti (g : Guard) (ty : Ty) (sc : Scope) (ord : Ord) (x a b : Src)
  | atom (g : Guard) (op : AtomOp) (ty : Ty) (sc : Scope) (ord : Ord) (d : Dst) (a b : Src)
  | atomcas (g : Guard) (ty : Ty) (sc : Scope) (ord : Ord) (d : Dst) (a b : Src)
  | atomf (g : Guard) (op : AtomFOp) (ty : Ty) (sc : Scope) (ord : Ord) (d : Dst) (a b : Src)
  | phase (sc : Scope)
  | fence (g : Guard) (sc : Scope) (ord : Ord)
  | tfill (g : Guard) (t : Nat) (a b : Src)
  | tdrain (g : Guard) (t : Nat) (a b : Src)
  | twait (g : Guard) (t : Nat)
  | tstate (g : Guard) (t : Nat) (d : Dst)
  | tfree (g : Guard) (t : Nat)
  | halloc (g : Guard) (tr : Bool) (d : Dst) (a b : Src)
  | hfree (g : Guard) (a b : Src)
  | cinv (g : Guard) (l2 : Bool) (a b : Src)
  | cwb (g : Guard) (l2 : Bool) (a b : Src)
  -- MAT class (R176, R275 to R295)
  | mma (g : Guard) (ty : Ty) (x : Src) (ma mb : Nat) (c : Src)
  | mmasc (g : Guard) (ty : Ty) (bs k : Nat) (x : Src) (ma mb : Nat) (c : Src)
  | accld (g : Guard) (ty : Ty) (d : Dst) (a b : Src)
  | accst (g : Guard) (x a b : Src)
  | acczero (g : Guard) (a b : Src)
  | accwin (g : Guard) (a b : Src)
  | opmap (g : Guard) (m : Nat) (a : Src)
  | mwait (g : Guard)
  | accldBand (g : Guard) (d : Dst) (a b c : Src)
  | mmaprogRd (g : Guard) (q : Nat) (d : Dst) (a : Src)
  | mmaprogWr (g : Guard) (q : Nat) (a b : Src)
  -- CTL class (R177, R315 to R338)
  | bra (g : Guard) (off : Int)
  | jmp (off : Int)
  | jmpi (g : Guard) (a : Src)
  | call (g : Guard) (off : Int)
  | calli (g : Guard) (a : Src)
  | ret (g : Guard)
  | exit (g : Guard)
  | nop (g : Guard)
  | dispatch (g : Guard) (d : Dst) (a b : Nat)
  | gpcadd (g : Guard) (a : Src)
  | gpcset (g : Guard) (a : Src)
  | loop (n k : Nat) (off : Int)
  | barWg
  | join
  | sleep (g : Guard) (a : Src)
  | wait (g : Guard) (a : Src)
  | spawn (g : Guard) (a b : Src)
  | spawnTry (g : Guard) (a b : Src)
  | brk (g : Guard)
  | yield (g : Guard)
  | gmode (g : Guard) (m : Nat)
  -- SYS class (R178, R361, R362, R370 to R391)
  | engCopy (g : Guard) (q : Nat) (d : Dst) (a : Src)
  | engColl (g : Guard) (q : Nat) (d : Dst) (a : Src)
  | engPost (g : Guard) (qs : QSel) (a : Src)
  | engSeq (g : Guard) (qs : QSel) (d : Dst)
  | reelGo (g : Guard) (a b : Src)
  | reelCondWrite (g : Guard) (sc : Nat) (a b : Src)
  | svc (g : Guard) (code : Nat) (a : Src)
  | svcwait (g : Guard) (d : Dst)
  | trieStep (g : Guard) (d : Dst) (a b : Src)
  | trieScan (g : Guard) (d : Dst) (a b : Src)
  | trieChild (g : Guard) (d : Dst) (a b : Src)
  | trieInfo (g : Guard) (d : Dst) (a : Src)
  | covpt (g : Guard) (d : Dst)
  | covst (g : Guard) (a b : Src)
  | mark (g : Guard) (a : Src)
  | ctrTick (g : Guard) (d : Dst)
  | ctrMode (g : Guard) (d : Dst)
  | ctrSetmode (g : Guard) (b : Src)
  | ctrVote (g : Guard) (d : Dst)
  | ctrWindsock (g : Guard) (k : Nat) (d : Dst)
  | trap (g : Guard) (n : Nat)
  | tretRetry (g : Guard)
  | tretSkip (g : Guard)
  | sysr (g : Guard) (ty : Ty) (d : Dst) (a : Src)
  | sysw (g : Guard) (ty : Ty) (a b : Src)
  | msig (g : Guard) (tgt : Nat) (a : Src)
  | mpost (g : Guard) (tgt : Nat) (a b : Src)
  | tlbinvPage (g : Guard) (a b : Src)
  | tlbinvAsid (g : Guard) (a b : Src)
  | tlbinvAll (g : Guard) (a b : Src)
  | cflush (g : Guard) (a b : Src)
  | fltrd (g : Guard) (d : Dst) (a : Src)
  -- operations of the module that are no slot of a clause (spec/95)
  | powerGood
  | moduleReset
  | memoryRegionInit
  | firmwareLoad (die : FirmwareImage)
  | flitCrcRetry (link : Nat)
  | linkRetrain (link : Nat)
  | linkFailed (link : Nat)
  | fabricRemoteRead (pa n : Nat) (acq : Bool)
  | fabricRemoteWrite (pa : Nat) (bytes : List (BitVec 8)) (rel : FabricWrite)
  | fabricRemoteAtomic (op : RemoteOp) (pa n : Nat) (x y : BitVec 64) (ord : Ord)
  | directoryRecall (line : Recall)
  | directoryUnreachable
  | pcieBarRequest (r : PcieReq)
  | createAs (m : Nat)
  | destroyAs (m : Nat)
  | registerSq (m : Nat)
  | unregisterSq (m : Nat)
  | configWq (m : Nat)
  | mmioWrite (m : Nat)
  | mmioRead (m : Nat)
  | status (m : Nat)
  | setBudget (m : Nat)
  | mailboxUnknownOp (m : Nat)
  | sqDoorbell (sq : Nat) (v : BitVec 32)
  | throttleChange (die : Nat) (t : Throttle)
  | thermalShutdown (die : Nat)
  | coreSelfCheckFail (core : Nat)
  | spareSubstitution (die : Nat)
  | stopTickWrite (v : BitVec 64)
  | stopTickMatch
  | registerWrite (core : Nat) (r : RegRef) (v : BitVec 64)
  | tileEntryWrite (pa : Nat) (v : BitVec 64)
  | debugWindowAccess (pa : Nat) (wr : Option (BitVec 32))
  | l2ModeChange (v : BitVec 32)
  | mpostpopRead (core : Nat)
  | l2Writeback (sector : Nat)
  | replayResolve (r : ReplayRef)
  | replayReject (r : ReplayRef)
  | outstandingResultReturn (t : ThreadRef)
  | sliceIssueTurn (core slice : Nat)
  | agePromotion (entry : Nat)
  | convergenceHang (entry : Nat)
  | barrierHang (b : BoundaryRef)
  | workgroupBoundaryComplete (w : WgRef)
  | phaseBoundaryComplete (b : BoundaryRef)
  | policyKill (t : PolicyRef)
  | policyStop (t : PolicyRef)
  | policySkip (t : PolicyRef)
  | policyRetry (t : PolicyRef)
  | policyForward (t : PolicyRef)
  | engineTakeEntry (q : QueueRef)
  | copyEntry (q : EntryStep)
  | collEntry (q : EntryStep)
  | nopEntry (q : QueueRef)
  | entryCompletion (q : QueueRef)
  | reelEnd (core cursor : Nat)
  | reelCopy (core cursor : Nat)
  | reelColl (core cursor : Nat)
  | reelWaitseq (core cursor : Nat)
  | reelWake (core cursor : Nat)
  | reelCond (core cursor : Nat)
  | reelWhile (core cursor : Nat)
  | matrixPass (core : Nat)
  | matrixPassComplete (core : Nat)
  | launch (sq pos : Nat)
  | feed (sq pos : Nat)
  | close (sq pos : Nat)
  | nopPacket (sq pos : Nat)
  | workgroupPlace (launch : Nat)
  | workgroupRetire (w : WgRef)
  | launchComplete (launch : Nat)
  | preemptMaskWrite (launch : Nat) (mask : List Nat)
  | workgroupSave (w : WgRef)
  | workgroupRestore (w : WgRef)
  | serviceReply (die : Nat) (replies : List (BitVec 32))
  | serviceReject (die : Nat)
  | tileReconstruction (w : WgRef)
  | auditWindowClose (launch : Nat)
  | stopArrival (core : Nat)
  | dbgHalt (die : Nat) (v : BitVec 64)
  | dbgResume (die : Nat) (v : BitVec 64)
  | dbgStep (die : Nat) (v : BitVec 64)
  | linkTrainedAgain (link : Nat)
  | fabricPortFailed (port : Nat)
  deriving DecidableEq, Repr

end Sys2Proof
end

