-- ==== Sys2Proof/Machine/State.lean ====
section
/-!
DEFINITION. Machine/State.lean: everything the spec gives the module, as plain data: threads and teams (05, 16), workgroups
and launches (18, 19), the convergence tables (16), memory, views and translation (01, 02, 03, 07), the engines and the Reel
(04), the matrix queue and the accumulator store (05, 15), mailboxes and links (01), debug and health registers (23, 24); and
the module right after reset.

Names by number: a die is 0 to 7; a physical core is die * 36 + row * 6 + column; a launch is the number given when its
packet starts; an entry of a convergence table is the number given when it is allocated.
-/

namespace Sys2Proof.Machine

/-- Why the module itself stops. -/
inductive Fault where
  /-- Raised by step alone: every clock domain is gated after a tick equal to STOP_TICK, and only a module reset leaves
  that state (R414). Safe: the hardware does nothing there. -/
  | clocksGated
  deriving DecidableEq, Repr

/-- Why an instruction has no meaning in the model. -/
inductive Refusal where
  /-- Raised by exec for an instruction that has no meaning yet. Safe: nothing is claimed of it. -/
  | notModelled (mnemonic : String)
  deriving DecidableEq, Repr

/-! ## Memory -/

/-- Bytes by address, in rising order of address. -/
abbrev ByteMap := List Host.Cell

/-- One byte of a map, none where it is not listed. -/
def ByteMap.get? : ByteMap → Nat → Option Byte
  | [], _ => none
  | (k, v) :: m, a => if k = a then some v else if a < k then none else ByteMap.get? m a

/-- Lists a byte. -/
def ByteMap.put : ByteMap → Nat → Byte → ByteMap
  | [], a, b => [(a, b)]
  | (k, v) :: m, a, b =>
    if a < k then (a, b) :: (k, v) :: m else if a = k then (a, b) :: m else (k, v) :: ByteMap.put m a b

/-- Unlists a byte. -/
def ByteMap.del : ByteMap → Nat → ByteMap
  | [], _ => []
  | (k, v) :: m, a => if a < k then (k, v) :: m else if a = k then m else (k, v) :: ByteMap.del m a

/-- Addresses strictly rising, all above a bound. -/
def ByteMap.risingFrom : Nat → ByteMap → Bool
  | _, [] => true
  | lo, (k, _) :: m => decide (lo ≤ k) && ByteMap.risingFrom (k + 1) m

/-- What a byte of memory that nothing has written reads as: memory initialisation leaves zeros (R427). -/
def Memory.unlisted : Byte := 0

/-- The bytes that have a home in this module: DRAM and the scratchpads, by physical address (R34). -/
abbrev Memory := ByteMap

/-- The canonical form: addresses strictly rising, no byte listed that reads as unlisted. -/
def Memory.wf (m : Memory) : Bool := ByteMap.risingFrom 0 m && m.all (fun c => c.2 != Memory.unlisted)

/-- One byte of memory. -/
def Memory.read (m : Memory) (a : Nat) : Byte := (ByteMap.get? m a).getD Memory.unlisted

/-- Writes one byte of memory, keeping the canonical form. -/
def Memory.write (m : Memory) (a : Nat) (b : Byte) : Memory :=
  if b = Memory.unlisted then ByteMap.del m a else ByteMap.put m a b

/-! ## Fault records -/

/-- A fault record (R393). -/
structure Record where
  cause  : Nat := 0
  sub    : Nat := 0
  slot   : Nat := 0
  lane   : Nat := 0
  team   : Nat := 0
  mc     : Bool := false
  bound  : Bool := false
  grp    : Bool := false
  nl     : Bool := false
  nest   : Bool := false
  defd   : Bool := false
  clause : BitVec 64 := 0
  gpc    : BitVec 32 := 0
  gop    : BitVec 8 := 0
  addr   : BitVec 64 := 0
  tick   : BitVec 64 := 0
  tid    : BitVec 32 := 0
  wg     : Nat := 0
  paddr  : BitVec 64 := 0
  asid   : Nat := 0
  /-- The model's own: the tick at which a watchpoint was hit (R417, R419). -/
  hit    : BitVec 64 := 0
  /-- The model's own: it tells of a stopped matrix operation, whose exits are those of R288. -/
  matrix : Bool := false
  /-- The model's own: the destination and the width of the outstanding result that ended in it (R241). -/
  dst    : Option (Dst × Nat) := none
  deriving DecidableEq, Repr

/-- The fault states of a thread (R395), and whether it has exited. -/
inductive Status where
  | running | parked | handler | stopped | exited
  deriving DecidableEq, Repr

/-! ## Threads -/

/-- A slot of the last-result file: a value and the tag of the result it waits for (R98, R99). -/
structure YSlot where
  val : BitVec 64 := 0
  tag : Option Nat := none
  deriving DecidableEq, Repr

/-- A return entry (R321, R323). -/
structure RetEntry where
  ret : BitVec 64
  gpc : BitVec 32
  gop : BitVec 8
  deriving DecidableEq, Repr

/-- A live loop level (R324). -/
structure Level where
  n     : Nat
  l     : BitVec 64
  e     : BitVec 64
  x     : BitVec 64
  depth : Nat
  deriving DecidableEq, Repr

/-- A handler frame (R396). -/
structure Frame where
  w      : List (BitVec 32)
  y0     : BitVec 64
  y1     : BitVec 64
  p      : BitVec 12
  depth  : Nat
  levels : Nat
  /-- The clause, the slot and whether inside it, at which the thread parked, and its record (R397). -/
  clause : BitVec 64
  slot   : Nat
  inside : Bool
  recd   : Record
  /-- The thread was sent to its parking place for one instruction alone, after which it goes on here (R397). -/
  oneShot : Option (BitVec 64 × Nat × Bool) := none
  deriving DecidableEq, Repr

/-- Which producer an outstanding result comes from: WAIT.LOAD covers the MEM class only (R99, R165). -/
inductive Producer where
  | mem | sys | acc | arith
  deriving DecidableEq, Repr

/-- An outstanding result (R99): where it goes, what it brings, the exceptions it raises (R119, R207) and a deferred fault
(R394). -/
structure Pending where
  tag    : Nat
  dst    : Dst
  bits   : Nat
  val    : Nat
  prod   : Producer
  exc    : BitVec 5 := 0
  fault  : Option Record := none
  clause : BitVec 64
  slot   : Nat
  /-- The tick of its instruction, which names the instruction: its lanes write an s destination once (R100). -/
  since  : BitVec 64 := 0
  deriving DecidableEq, Repr

/-- What holds a thread at its slot. -/
inductive Hold where
  /-- Nothing. -/
  | none
  /-- It waits and executes the instruction again at its entry's next turn, counting a windsock reason (R334, R425). -/
  | at (reason : Nat)
  /-- It sleeps on an event of its workgroup (R332). -/
  | asleep (event : Nat)
  /-- It has arrived at a boundary (R129, R130). -/
  | arrived
  /-- The wait is over: executing the instruction again completes it. -/
  | passed
  deriving DecidableEq, Repr

/-- A memory access of a thread as data: what is done at the place the address leads to, now or when it replays (R44). -/
inductive AccKind where
  | load (sext : Bool)
  | store
  | ldi (sc : Scope) (ord : Ord)
  | sti (sc : Scope) (ord : Ord)
  | atom (op : AtomOp) (ty : Ty) (sc : Scope) (ord : Ord)
  | cas (ty : Ty) (sc : Scope) (ord : Ord)
  | atomf (op : AtomFOp) (ty : Ty) (sc : Scope) (ord : Ord)
  /-- The descriptor of an operand map of the thread's team (R279). -/
  | opmap (m : Nat)
  /-- An access that holds its lane at the slot and is made again by the instruction itself. -/
  | again (write : Bool)
  /-- The read of a clause at an address, which holds the whole group at its slot (R181, R324). -/
  | fetch (clause : BitVec 64)
  /-- A dirty sector of a launch's view that replacement moves to a slot of the launch's phase overflow area (R57). -/
  | spill (launch sec slot : Nat)
  deriving DecidableEq, Repr

/-- One access: n bytes at a virtual address; the operand values of a store or an atomic; where the result goes. -/
structure Access where
  kind : AccKind
  va   : BitVec 64
  n    : Nat
  x    : Nat := 0
  y    : Nat := 0
  dst  : Dst := .discard
  bits : Nat := 32
  tag  : Nat := 0
  clause : BitVec 64 := 0
  slot : Nat := 0
  /-- The tick of its instruction. -/
  since : BitVec 64 := 0
  /-- Where it lies, while it waits to be performed after its turn (R453). -/
  loc : Nat := 0
  /-- The stores of its instruction cover its whole sector together: they are one write of it (R16, R56). -/
  whole : Bool := false
  deriving DecidableEq, Repr

/-- A thread (R95). -/
structure Thread where
  /-- Its position in its team. -/
  lane    : Nat
  tid     : BitVec 32 := 0
  /-- v0 up to its block's size (R92). -/
  v       : List (BitVec 32) := []
  /-- w0 to w7. -/
  w       : List (BitVec 32) := List.replicate 8 0
  y0      : YSlot := {}
  y1      : YSlot := {}
  p       : BitVec 12 := 0
  ix      : List (BitVec 32) := List.replicate 4 0
  lc      : List (BitVec 32) := List.replicate 3 0
  gpc     : BitVec 32 := 0
  gop     : BitVec 8 := 0
  mode    : BitVec 32 := 0
  vote    : BitVec 2 := 0
  /-- On-chip return entries, newest first, at most 8 (R322). -/
  rstack  : List RetEntry := []
  /-- Entries spilled to the Ballast area (R322). -/
  bc      : Nat := 0
  /-- Live loop levels, innermost first, at most 3 (R324). -/
  loops   : List Level := []
  /-- The clause it runs or runs next (R317). -/
  clause  : BitVec 64 := 0
  /-- The slot it stands at, and whether that lies inside its clause (R309, R402). -/
  slot    : Nat := 0
  inside  : Bool := false
  /-- The next clause address that a transfer has set (R317). -/
  next    : Option (BitVec 64) := none
  /-- Its convergence-table entry, none while it waits for one, is parked or has exited (R299, R300). -/
  entry   : Option Nat := none
  /-- It has finished the slot that its group issues. -/
  slotDone : Bool := false
  hold    : Hold := .none
  status  : Status := .running
  /-- The record of the pending fault, its resume point and whether it was raised for a deferred access (R393, R394). -/
  record  : Option Record := none
  /-- The handler frame, while the thread runs the in-kernel handler (R396). -/
  frame   : Option Frame := none
  outst   : List Pending := []
  /-- Deferred faults to be taken at clause boundaries, in the order in which they were met (R394). -/
  defer   : List Record := []
  nextTag : Nat := 0
  /-- A service call is pending (R378). -/
  svc     : Bool := false
  /-- The next dispatch does not match guest breakpoints (R327). -/
  skipGbp : Bool := false
  /-- The qpop slots it owns: queue and position (R267). -/
  qslots  : List (Nat × BitVec 32) := []
  /-- The position that its instruction has claimed or reserved while it waits to complete (R75, R267, R268). -/
  claim   : Option (BitVec 32) := none
  /-- Registers of its own that hold an uncorrectable error, by 9-bit code (R400). -/
  ecc     : List Nat := []
  /-- It was sent to retry only one instruction, after which it goes on at its parking point (R397). -/
  oneShot : Option (BitVec 64 × Nat × Bool) := none
  /-- The fault record last delivered to it, where it is privileged (R391). -/
  delivered : Option Record := none
  /-- The age that its entry had when its workgroup was saved, and the promotion (R407, R413). -/
  age     : Nat := 0
  promo   : Option Nat := none
  /-- The entry that it stood in inside a clause when its workgroup was saved: the threads of one entry stand in one again, under the TAG that
  it had (R309). The model's own field, DEDUCED, log entry 42. -/
  regroup : Option (Nat × BitVec 32) := none
  deriving DecidableEq, Repr

/-- A matrix operation that stopped at a row: its words, bases, scale address, scales and maps (R287, R402). -/
structure StoppedOp where
  quarter : Nat
  instr   : Instr
  /-- The byte selects of an mmasc and of those merged with it; none for an mma. -/
  bs      : List Nat
  cb      : Nat
  ao      : Nat
  bscale  : BitVec 64
  /-- The eight lanes' A scales of each issue. -/
  ascales : List (List (BitVec 32))
  ma      : BitVec 512
  mb      : BitVec 512
  /-- Its first row that has not received the whole operation. -/
  row     : Nat
  clause  : BitVec 64
  slot    : Nat
  /-- The tick of its issue, which tells the issues of one slot apart. The model's own. -/
  since   : BitVec 64 := 0
  deriving DecidableEq, Repr

/-- A team (R95, R296). -/
structure Team where
  launch  : Nat
  wg      : Nat
  /-- Its index in the workgroup as s3 was loaded: 0 to 31, or 32 + spawn slot (R101). -/
  idx     : Nat
  width   : Nat
  core    : Nat
  slice   : Nat
  /-- Its first physical lane and its block's offset and size (R91, R92). -/
  span    : Nat
  block   : Nat
  bsize   : Nat
  /-- Creation order, for the rotation of R302. -/
  born    : Nat := 0
  s       : List (BitVec 32) := List.replicate 64 0
  /-- m0 to m15, as 64-byte descriptors (R277). -/
  maps    : List (BitVec 512) := List.replicate 16 0
  windsock : List (BitVec 64) := List.replicate 16 0
  /-- RowProg of quarters 0 to 7 (R288). -/
  rowprog : List (BitVec 32) := List.replicate 8 0
  /-- RowProg as it stood at the team's last clause boundary (R289). -/
  rowSeen : List (BitVec 32) := List.replicate 8 0
  stoppedOps : List StoppedOp := []
  blc     : BitVec 32 := 0
  accwin  : BitVec 32 := 0
  tagmode : Nat := 0
  tickd   : BitVec 64 := 0
  halted  : Bool := false
  /-- A stop that has arrived and that the team takes at its next clause boundary: the tick and the cause (R419). -/
  stopReq : Option (BitVec 64 × Nat) := none
  /-- The ticks at which it issued slots while a stop was on its way to it (R419). -/
  recent  : List (BitVec 64) := []
  /-- It is stepping one clause: the tick of the command, and the entry chosen for it with the team's lanes in it (R420). -/
  stepping : Option (BitVec 64 × Option (Nat × List Nat)) := none
  /-- Votes uniformly taken, uniformly not taken, divergent (R424). -/
  votes   : List Nat := [0, 0, 0]
  /-- Its s registers that hold an uncorrectable error, by 9-bit code (R400). -/
  ecc     : List Nat := []
  threads : List Thread := []
  deriving DecidableEq, Repr

/-! ## The convergence tables -/

/-- A team as it stood when the instruction began at which lanes of it wait: every lane reads its sources as they stood then (R10), and a fault of
a bound team leaves its registers so (R249). The model's own. -/
structure Before where
  launch  : Nat
  wg      : Nat
  team    : Nat
  s       : List (BitVec 32)
  ecc     : List Nat
  threads : List Thread
  deriving DecidableEq, Repr

/-- The states of an entry (R299). FREE entries are not listed. -/
inductive EState where
  | open | hold | issuing | parked
  deriving DecidableEq, Repr

/-- An entry of a convergence table (R298, R299). -/
structure Entry where
  id     : Nat
  core   : Nat
  slice  : Nat
  launch : Nat
  tag    : BitVec 32
  addr   : BitVec 64
  /-- The team part of the key: workgroup and team. -/
  team   : Option (Nat × Nat)
  /-- The physical lanes of its threads. -/
  mask   : List Nat := []
  state  : EState := .open
  slot   : Nat := 0
  age    : Nat := 0
  /-- Promotion order, none while not promoted (R302). -/
  promo  : Option Nat := none
  /-- Ticks that its hold has counted, one count for each quarter whose scope is the quarter, else the first (R306). -/
  counts : List Nat := List.replicate 8 0
  /-- Its slot has been reached and counted (R408). -/
  begun  : Bool := false
  /-- The tick at which its instruction began. -/
  since  : Option (BitVec 64) := none
  /-- The words of its clause in the clause buffer, empty before they are fetched (R164). -/
  words  : List (BitVec 32) := []
  /-- Teams whose next turn it passes over after a yield: workgroup and team (R338). -/
  skips  : List (Nat × Nat) := []
  /-- The entry before a save whose threads stand in it again (R309). The model's own field, DEDUCED, log entry 42. -/
  regroup : Option (Nat × BitVec 32) := none
  /-- Its clause was known to be a convergence point when it was allocated, or its threads resume inside it (R305, R308). -/
  point  : Bool := false
  /-- Its teams as they stood when its slot began, where lanes wait at it. -/
  before : List Before := []
  deriving DecidableEq, Repr

/-- The group that is issuing: its entry and the slot of the clause it stands at. -/
structure Cur where
  entry : Nat
  slot  : Nat
  deriving DecidableEq, Repr

/-! ## Workgroups -/

/-- The states of a workgroup (R349). -/
inductive WgState where
  | queued | placed | running | evicting | saved | retired
  deriving DecidableEq, Repr

/-- A queue of an engine as a workgroup sees it (R70, R71, R83). -/
structure EQueue where
  sel     : QSel
  /-- The hardware queue it is bound to. -/
  hw      : Nat := 0
  qtail   : BitVec 32 := 0
  /-- COUNT of its sequence register. -/
  count   : Nat := 0
  /-- The descriptor failed its checks at binding. -/
  bad     : Bool := false
  /-- The SCOPE of the entry that last set the register. -/
  scope   : Nat := 0
  deriving DecidableEq, Repr

/-- A source byte of an appended entry as the appending view saw it (R79). -/
structure Snapshot where
  launch : Nat
  wg     : Nat
  sel    : QSel
  /-- The ring position. -/
  pos    : Nat
  /-- The view's own bytes at the append, by location. -/
  bytes  : ByteMap
  /-- The other bytes of the source as it saw them at the append, where they differ from what an unlisted byte reads as. -/
  seen   : ByteMap := []
  /-- The source as locations, where it translated at the append: start and length. -/
  locs   : List (Nat × Nat) := []
  /-- The source range, by virtual address. -/
  va     : BitVec 64
  len    : Nat
  /-- The core whose view appended it; none once the view has been evicted. -/
  core   : Option Nat
  /-- The eviction sets that the view's workgroups have formed since. -/
  sets   : List Nat := []
  deriving DecidableEq, Repr

/-- The walker and the staging of a coverage tile (R361 to R364). -/
structure Cover where
  tile      : Nat
  pattern   : Nat
  /-- The place in the point sequence of the next point. -/
  nextPt    : Nat := 0
  delivered : List Nat := []
  /-- Stored values by local index. -/
  staged    : List (Nat × BitVec 64) := []
  done      : Bool := false
  /-- The output sectors that the unit owns (R85). -/
  owned     : List Nat := []
  deriving DecidableEq, Repr

/-- A scratchpad partition (R62). -/
structure Partition where
  launch : Nat
  /-- The home logical core, row * 32 + column. -/
  home   : Nat
  /-- The physical core that holds it, none while its image is saved. -/
  core   : Option Nat
  base   : Nat
  size   : Nat
  tbase  : Nat
  tiles  : Nat
  /-- Its saved bytes, by offset, while its workgroups are evicted. -/
  image  : ByteMap := []
  /-- The sectors of the saved image whose seal does not match, by number in it: the seals travel with them (R17). -/
  bad    : List Nat := []
  /-- The class 0x8 leaves that name it, while it is on no core: the place of each, its level and its distance from the partition's first byte (R40). -/
  leaves : List (Nat × Nat × Int) := []
  deriving DecidableEq, Repr

/-- A cursor of a Reel (R86, R88). -/
structure Cursor where
  id     : Nat
  node   : Nat
  counts : List (Nat × Nat) := []
  inWait : Bool := false
  stopped : Bool := false
  /-- It ends after its current node, since the owner's last team has exited (R376). -/
  last   : Bool := false
  deriving DecidableEq, Repr

/-- The Reel of a core (R86, R375). -/
structure Reel where
  owner   : Option WgRef := none
  graph   : BitVec 64 := 0
  cursors : List Cursor := []
  deriving DecidableEq, Repr

/-- The context area of a workgroup as Gondola has mapped it (R401): its 8 MiB, by virtual address, in an address space, and the physical address
of their first byte. The model's own form of its leaves. -/
structure CtxMap where
  launch : Nat
  wg     : Nat
  asid   : Nat
  base   : Nat
  frame  : Nat
  deriving DecidableEq, Repr

/-- A workgroup of a launch. -/
structure Wg where
  launch : Nat
  id     : Nat
  state  : WgState := .placed
  core   : Nat := 0
  /-- The home logical core, row * 32 + column (R347). -/
  home   : Nat := 0
  /-- Its resident-workgroup slot on the core (R346). -/
  slot   : Nat := 0
  /-- The 8 MiB slot of its context area: virtual address (R401). -/
  ctx    : BitVec 64 := 0
  ev     : BitVec 64 := 0
  accblk : BitVec 32 := 0
  /-- Accumulator rows while it is saved. -/
  accSaved : List (Nat × BitVec 32) := []
  /-- The tile entries it owns, by tile number, while it is saved (R68). -/
  tilesSaved : List (Nat × BitVec 128) := []
  queues : List EQueue := []
  /-- Spawn slots in use (R335). -/
  spawn  : List Nat := []
  /-- Register block reserved for each spawn slot: slice, span, offset (R346). -/
  spawnBlocks : List (Nat × Nat × Nat) := []
  /-- The banks of spawned teams that have completed, where their slot serves another team: index, votes, windsock (R425). -/
  banks  : List (Nat × List Nat × List (BitVec 64)) := []
  /-- Scope of the first thread that arrived at the pending boundary (R129). -/
  pend   : Option Scope := none
  /-- Ticks that its pending workgroup boundary has counted (R331). -/
  barCount : Nat := 0
  cover  : Option Cover := none
  /-- The eviction sets whose carried bytes it reads, latest first (R138). -/
  carry  : List Nat := []
  /-- The eviction sets that it has been a member of, for the store hold of R79. -/
  sets   : List Nat := []
  /-- The Reel it owns, while it is saved (R90). -/
  reelSaved : Option Reel := none
  /-- Deterministic rotation: the team whose turn is next and whether the turn has begun (R405, R407). -/
  turn   : Nat := 0
  turnBegun : Bool := false
  /-- Claims made and granted (R412). -/
  claims : Nat := 0
  noPiece : Bool := false
  /-- Pieces of its own range that have been granted, by index (R412). -/
  granted : List Nat := []
  /-- While it is saved, the runs of its context as they were written, by offset in its area. The model's own. -/
  image  : List (Nat × List Byte) := []
  deriving DecidableEq, Repr

/-- A pending boundary above workgroup scope: its instance, and the ticks it has counted (R130, R132). -/
structure Boundary where
  scope : Scope
  node  : Nat
  count : Nat := 0
  deriving DecidableEq, Repr

/-- The launch record (R344), every field. -/
structure LaunchRec where
  tiles : Nat := 0
  splog : Nat := 0
  cmplarm : BitVec 32 := 0
  kind : Nat := 0
  det : Bool := false
  phased : Bool := false
  orow : Nat := 0
  ocol : Nat := 0
  h : Nat := 1
  wd : Nat := 1
  entries : Nat := 1
  spawnslots : Nat := 0
  accrows : Nat := 0
  regs : Nat := 16
  teams : Nat := 1
  width : Nat := 0
  cq : Nat := 0
  kq : Nat := 0
  auxptr : BitVec 64 := 0
  iters : Nat := 0
  qprod : BitVec 64 := 0
  qcons : BitVec 64 := 0
  barlimit : Nat := 0
  holdlimit : Nat := 0
  cmplbase : BitVec 64 := 0
  ballastLimit : Nat := 0
  ballastStride : Nat := 0
  ballastBase : BitVec 64 := 0
  ovflen : Nat := 0
  wgcount : Nat := 1
  ovfbase : BitVec 64 := 0
  qdescBase : BitVec 64 := 0
  handler : BitVec 64 := 0
  args : BitVec 64 := 0
  entrytab : BitVec 64 := 0
  deriving DecidableEq, Repr

/-- The coverage block and the controller of a coverage launch (R357, R366, R367). -/
structure Controller where
  outbase : BitVec 64 := 0
  target  : BitVec 64 := 0
  logbase : BitVec 64 := 0
  tx : Nat := 1
  ty : Nat := 1
  tz : Nat := 1
  audit : Nat := 0
  window : Nat := 1
  start : Nat := 0
  dense : Nat := 0
  sparse : Nat := 0
  etype : Nat := 8
  audits : Nat := 0
  windows : Nat := 0
  curpat : Nat := 0
  /-- The open window: its f64 sum and the audits in it. -/
  sum : BitVec 64 := 0
  inWin : Nat := 0
  /-- The tile of the audit that it took last. -/
  lastTile : Nat := 0
  /-- The closed windows that no instant has used yet: the tile of the audit that closed each, and its sum. -/
  closed : List (Nat × BitVec 64) := []
  /-- Audits that wait their turn: tile and difference, in the order they reach the controller. -/
  queue : List (Nat × BitVec 64) := []
  /-- Tiles that have completed reconstruction (R368). -/
  tilesDone : List Nat := []
  deriving DecidableEq, Repr

/-- A launch. -/
structure Launch where
  id    : Nat
  /-- The home die, of the rectangle's origin, and the die whose front end serves its queue. -/
  die   : Nat := 0
  fe    : Nat := 0
  sq    : Nat := 0
  /-- Ring position of its packet. -/
  pos   : Nat := 0
  asid  : Nat := 0
  prio  : Nat := 0
  policy : BitVec 64 := 0
  recd  : LaunchRec := {}
  /-- It runs in privileged mode: it is firmware, on the Gondola core or the service core of a die (R182). -/
  priv  : Bool := false
  /-- The core mask: logical cores, row * 32 + column (R353). -/
  mask  : List Nat := []
  nextWg : Nat := 0
  /-- First clause address: entry 0 of ENTRYTAB as read at start (R345). -/
  entry0 : BitVec 64 := 0
  bounds : List Boundary := []
  /-- Workgroups whose retirement has completed. -/
  retired : List Nat := []
  /-- Nodes that have completed: level (0 team, 1 workgroup, 2 to 5 squares, 6 launch) and number (R311). -/
  nodes : List (Nat × Nat) := []
  /-- Completion words that are still to be written: level, address and value, oldest first (R313, R455). -/
  words : List (Nat × BitVec 64 × BitVec 64) := []
  /-- The record with NL = 1 with which Gondola is to kill the launch (R455, R138). -/
  doom  : Option Record := none
  /-- The launch word could not be written: the packet completes with this cause and sub-code (R455). -/
  wordFail : Option (Nat × Nat) := none
  /-- Pages of the phase overflow area that Gondola has rejected for carried bytes (R138). -/
  areaBad : List (BitVec 64) := []
  ctrl  : Option Controller := none
  /-- The launch has completed or was killed; the cause it was killed with. -/
  done  : Bool := false
  killed : Option (Nat × Nat) := none
  /-- The pre-emption requests that wait for their acknowledgement, each with its eviction set (R355). -/
  preempts : List (List Nat) := []
  /-- Bytes of its coverage block and pattern log that are still to be written, oldest first (R357, R363). -/
  coverOut : List (BitVec 64 × List Byte) := []
  acks  : Nat := 0
  deriving DecidableEq, Repr

/-! ## Views -/

/-- The view of a core for a launch (R125, R133): bytes held dirty (in L1, held or in overflow), clean copies, held stores to
uncached targets. -/
structure View where
  core   : Nat
  launch : Nat
  dirty  : ByteMap := []
  clean  : ByteMap := []
  uncached : ByteMap := []
  /-- Dirty sectors that replacement has moved to their home slice as held sectors (R57). -/
  held   : List Nat := []
  /-- Dirty sectors that it has moved to a slot of the launch's phase overflow area: sector and slot (R57). -/
  spilled : List (Nat × Nat) := []
  deriving DecidableEq, Repr

/-- The carried bytes of an eviction set (R138). -/
structure Carry where
  id     : Nat
  launch : Nat
  /-- The core whose view it was. -/
  core   : Nat := 0
  bytes  : ByteMap := []
  uncached : ByteMap := []
  /-- Where each carried sector lies: a slot of the phase overflow area, or none in Gondola's carry store. -/
  slots  : List (Nat × Option Nat) := []
  written : Bool := false
  deriving DecidableEq, Repr

/-! ## Translation -/

/-- Which TLB holds a translation: the L1 TLB of a core, or the TLB that a die's agents share (R42). -/
inductive TlbPlace where
  | core (c : Nat)
  | die (d : Nat)
  deriving DecidableEq, Repr

/-- A translation in a TLB (R42): an address space, a virtual page, its physical page and the leaf's attributes. -/
structure TlbEntry where
  asid  : Nat
  vpn   : Nat
  /-- The page size: 4, 64, 2048 or 1048576 KiB, as a power of two of bytes. -/
  bits  : Nat
  ppn   : Nat
  glob  : Bool
  w     : Bool
  u     : Bool
  nx    : Bool
  sh    : Nat
  place : TlbPlace := .die 0
  /-- The physical address of its leaf, for 64 KiB of the first leaf of its group. -/
  leaf  : Nat := 0
  /-- The leaves, by place in the group, in which no access has yet set A, and no write D (R39). -/
  noA   : List Nat := []
  noD   : List Nat := []
  deriving DecidableEq, Repr

/-- An upper-level entry that the walkers of a die have cached (R42): the address space, the level, the address bits that lead to
it and the table that it names. -/
structure Upper where
  die   : Nat
  asid  : Nat
  level : Nat
  tag   : Nat
  table : Nat
  deriving DecidableEq, Repr

/-- Who waits for a translation (R44, R78, R287, R345, R455). -/
inductive Requester where
  | threads (accs : List (ThreadRef × Access))
  | engine (launch wg : Nat) (sel : QSel)
  | cursor (launch wg cursor : Nat)
  /-- A stalled matrix pass: the row and the quarter at which a read failed (R287). -/
  | pass (launch wg row quarter : Nat)
  | packet (sq pos : Nat)
  | seqWord (sq : Nat)
  | word (launch : Nat)
  /-- Gondola's own save or restore of a workgroup. -/
  | context (launch wg : Nat)
  deriving DecidableEq, Repr

/-- An entry of a replay buffer, or a translation request of a unit (R44, R46). -/
structure Request where
  core  : Nat
  /-- The tick of its instruction: the lanes of one instruction share an entry (R44). -/
  tick  : BitVec 64 := 0
  asid  : Nat
  page  : BitVec 64
  cause : Nat
  who   : Requester
  /-- Gondola has released it, and its accesses wait to be performed (R46). -/
  released : Bool := false
  /-- Its accesses have been issued and are performed after their turn: nothing orders them yet (R453). -/
  late : Bool := false
  deriving DecidableEq, Repr

/-! ## Engines -/

/-- A place that an engine has reached: its bytes lie in one sector; own tells whether the sector is owned while it is written (R80). -/
structure Spot where
  va  : BitVec 64
  loc : Nat
  pa  : Nat
  n   : Nat
  own : Bool
  deriving DecidableEq, Repr

/-- An entry that an engine has taken (R77, R78). -/
structure InFlight where
  launch : Nat
  wg     : Nat
  sel    : QSel
  pos    : Nat
  /-- The 512 bits of the entry. -/
  bits   : BitVec 512
  /-- The sectors it owns (R80). -/
  owned  : List Nat := []
  /-- Its source has been read, and what it has still to write: each sector with its bytes (R78). -/
  read   : Bool := false
  todo   : List (Spot × List Byte) := []
  /-- Its work has been done, with this cause and sub-code. -/
  result : Option (Nat × Nat) := none
  deriving DecidableEq, Repr

/-- A quarter's part of a matrix pass: its team, its operands as read at issue and the rows it owns (R275, R284). -/
structure PassPart where
  launch  : Nat
  wg      : Nat
  team    : Nat
  quarter : Nat
  instr   : Instr
  /-- The byte selects of an mmasc and of those merged with it (R285); none for an mma. -/
  bs      : List Nat
  cb      : Nat
  ao      : Nat
  /-- First row still to be done. -/
  row     : Nat
  bscale  : BitVec 64
  /-- The eight lanes' A scales of each issue. -/
  ascales : List (List (BitVec 32))
  ma      : BitVec 512
  mb      : BitVec 512
  /-- The bytes that the issuing core's view saw at issue: those of issue k of a merged operation by k * 2^64 + virtual address (R286). -/
  seen    : ByteMap := []
  /-- Its team's creation order: a later team may have the same number (R335). -/
  born    : Nat := 0
  /-- Where the bytes it reads lie, as far as they translated at issue: location and length. -/
  locs    : List (Nat × Nat) := []
  clause  : BitVec 64
  slot    : Nat
  /-- The tick of its issue. The model's own. -/
  since   : BitVec 64 := 0
  deriving DecidableEq, Repr

/-- A pass of the matrix queue (R284): its parts, whether it has started, and how it ended. -/
structure Pass where
  parts   : List PassPart
  started : Bool := false
  done    : Bool := false
  deriving DecidableEq, Repr

/-! ## Cores, dies and the module -/

/-- A physical core. -/
structure Core where
  id      : Nat
  gbp     : List (BitVec 64) := List.replicate 8 0
  wpBase  : List (BitVec 64) := List.replicate 4 0
  wpMask  : List (BitVec 64) := List.replicate 4 0
  wpCtl   : List (BitVec 32) := List.replicate 4 0
  msignal : BitVec 32 := 0
  mpost   : List (BitVec 64 × BitVec 32) := []
  mpostval : BitVec 32 := 0
  /-- The tile table: 128 entries of 16 bytes (R63). -/
  tiles   : List (BitVec 128) := List.replicate 128 0
  /-- Accumulator rows that hold an uncorrectable error (R400). -/
  eccRows : List Nat := []
  /-- The accumulator store: word row * 32 + column, listed where not zero (R104). -/
  acc     : List (Nat × BitVec 32) := []
  reel    : Reel := {}
  passes  : List Pass := []
  /-- Reconstruction unit: COUNT of its sequence register (R71, R85). -/
  recon   : Nat := 0
  reconErr : Option (Nat × Nat × Nat) := none
  /-- Instruction-fetch copies of the core, by location (R390). -/
  icache  : ByteMap := []
  /-- A halt is in force (R419). -/
  halt    : Bool := false
  /-- Stops on their way to the core: their tick and the cause of their records (R414, R419). -/
  stopIn  : List (BitVec 64 × Nat) := []
  /-- It failed its self-check (R432). -/
  failed  : Bool := false
  /-- Each slice's rotation: the first lane and the creation order of the team that had the last turn, the order counted from 1 (R302). -/
  rot     : List (Nat × Nat) := [(0, 0), (0, 0)]
  deriving DecidableEq, Repr

/-- A compute die. -/
structure Die where
  /-- MESH_MAP (R48): entry n names position n of the die in raster order until spares are substituted. DESIGN CHOICE, log entry 21. -/
  meshMap : List (BitVec 8) := (List.range 34).map (fun n => BitVec.ofNat 8 (0x80 + n / 6 * 8 + n % 6))
  peerMap : List (BitVec 64) := List.replicate 192 0
  feStat  : BitVec 64 := 0
  traceBase : BitVec 64 := 0
  traceSize : BitVec 64 := 0
  traceWr : BitVec 64 := 0
  traceRd : BitVec 64 := 0
  traceDrop : BitVec 64 := 0
  traceCtl : BitVec 64 := 0
  /-- Records dropped since the last DROP record. -/
  dropped : Nat := 0
  /-- Records whose slots still have to be written, oldest first: their memory has to be waited for (R14, R429). -/
  traceOut : List (List Byte) := []
  /-- Clock in MHz, core voltage in mV, issue limit (R434). -/
  clock   : Nat := 1000
  voltage : Nat := 650
  issueLimit : Nat := 0
  /-- Spare cores used, and user cores that have failed (R431, R432). -/
  spares  : Nat := 0
  failures : Nat := 0
  /-- The SQID that its front end served last in each priority (R343). -/
  served  : List Nat := [1023, 1023, 1023, 1023]
  deriving DecidableEq, Repr

/-- The states of a work queue (R351). -/
inductive WqState where
  | unconfigured | open | closed | broken
  deriving DecidableEq, Repr

/-- A hardware work queue of a die (R351). -/
structure WorkQueue where
  die  : Nat
  q    : Nat
  state : WqState := .unconfigured
  ringbase : BitVec 64 := 0
  ringlen : Nat := 64
  asid : Nat := 0
  head : BitVec 32 := 0
  tail : BitVec 32 := 0
  reserve : BitVec 32 := 0
  free : BitVec 32 := 0
  /-- Positions whose slots have been released out of order (R267). -/
  freed : List (BitVec 32) := []
  /-- Producers registered and live, and whether any ever was. -/
  producers : List Nat := []
  everProduced : Bool := false
  consumers : List Nat := []
  deriving DecidableEq, Repr

/-- A packet the front end has taken (R341). -/
structure Packet where
  pos    : Nat
  bits   : BitVec 512
  started : Bool := false
  /-- Completed: cause and sub-code. -/
  result : Option (Nat × Nat) := none
  /-- Its words have been written, or their write was dropped. -/
  written : Bool := false
  deriving DecidableEq, Repr

/-- A submission queue (R339). -/
structure SubQueue where
  id    : Nat
  asid  : Nat
  die   : Nat
  desc  : BitVec 64
  policy : BitVec 64
  ctxBase : BitVec 64
  ctxLen : BitVec 64
  prio  : Nat := 0
  ringbase : BitVec 64 := 0
  loglen : Nat := 6
  tail  : BitVec 32 := 0
  /-- The next position to take. -/
  taken : Nat := 0
  /-- COUNT of SEQ, and the COUNT that the descriptor shows. -/
  seq   : Nat := 0
  seqOut : Nat := 0
  packets : List Packet := []
  /-- The launch record of the packet at the next position, once its start has read it (R344). -/
  record : Option (BitVec 2048) := none
  /-- Completion of every position done: cause by position. -/
  causes : List (Nat × Nat) := []
  /-- A completion write was dropped: no further packet is taken (R455). -/
  dead  : Bool := false
  deriving DecidableEq, Repr

/-- A mailbox (R28). -/
structure Mailbox where
  req    : ByteMap := []
  rsp    : ByteMap := []
  result : Nat := 0
  done   : Bool := false
  busy   : Bool := false
  deriving DecidableEq, Repr

/-- A Stoland link (R14). -/
inductive LinkState where
  | untrained | up | retraining | failed
  deriving DecidableEq, Repr

/-- A link and its error counter. -/
structure Link where
  state  : LinkState := .untrained
  errors : Nat := 0
  since  : Nat := 0
  deriving DecidableEq, Repr

/-- An address space: its number and its root table (R42). -/
structure AddrSpace where
  asid : Nat
  root : Nat
  deriving DecidableEq, Repr

/-- A batch of a service call, as the service blocks know it (R356). -/
structure Batch where
  core : Nat
  launch : Nat
  wg   : Nat
  team : Nat
  slots : BitVec 64
  mask : BitVec 64
  code : Nat
  /-- The resident-workgroup slot of its workgroup as it issued. -/
  slot : Nat := 0
  /-- Its record has been pushed: it has left the Basket. -/
  pushed : Bool := false
  /-- The answers of piece claims of its lanes that are decided (R412). -/
  got : List Nat := []
  deriving DecidableEq, Repr

/-- What the spec says of bring-up (R426 to R428). -/
structure BringUp where
  powered : Bool := false
  /-- The step of R426 reached. -/
  step    : Nat := 0
  cause   : Nat := 0
  named   : Nat := 0
  /-- Capacity of a DIMM in GiB: 64, 128 or 256, and a channel with none or another capacity (R12). -/
  dimm    : Nat := 256
  badDimm : Option Nat := none
  /-- A Stoland link that does not train (R427). -/
  badLink : Option Nat := none
  regions : Nat := 0
  compute : BitVec 8 := 0
  gondola : BitVec 8 := 0
  svc     : BitVec 8 := 0
  host    : Bool := false
  fabric  : Bool := false
  stoland : Bool := false
  deriving DecidableEq, Repr

/-- A kernel that the loader has placed (R49, R50, R162): the address space and the address of its code section, the lengths of its code and its data
section, its `.meshreloc` and `.datareloc` records, and the locations of its 4 KiB runs, those of the code first. -/
structure CodeImage where
  asid : Nat := 0
  base : Nat := 0
  len  : Nat
  dlen : Nat := 0
  recs : List (BitVec 64)
  drecs : List (BitVec 64) := []
  runs : List Nat
  deriving DecidableEq, Repr

/-- What happens to the module's memories and links without an operation of the opcode table. DESIGN CHOICE, log entry 109. -/
inductive EnvEvent where
  /-- The Stoland buffer corrects a symbol error of a read of a sector (R11). -/
  | corrected (sec : Nat)
  /-- A DIMM reports an uncorrectable error of a sector, or a sector's bytes are damaged on their way (R11, R15). -/
  | damaged (sec : Nat)
  /-- A corrected soft error of a register file or an accumulator store (R400). -/
  | softError (core : Nat)
  /-- An uncorrectable error of a register of a thread, by 9-bit code (R400). -/
  | badReg (t : ThreadRef) (code : Nat)
  /-- An uncorrectable error of a row of an accumulator store (R400). -/
  | badRow (core row : Nat)
  /-- An engine, a walker or a matrix cell of a die fails its self-check (R400). -/
  | unitFailed (die unit : Nat)
  /-- The loader places a code image, or takes one away (R50). -/
  | loaded (image : CodeImage)
  | unloaded (n : Nat)
  /-- Firmware starts a team at a clause on the Gondola core or the service core of a die (R182, R426). -/
  | firmware (core asid : Nat) (clause : BitVec 64)
  /-- The DIMMs that stand in the module before it has power (R12). -/
  | fitted (dimm : Nat) (badDimm : Option Nat)
  /-- From now on this Stoland link does not train, or every link does (R427). -/
  | badLink (n : Option Nat)
  /-- The directory answers again, and Gondola clears the condition (R24). -/
  | directoryBack
  deriving DecidableEq, Repr

/-- The module. -/
structure State where
  tick    : BitVec 64
  stopTick : BitVec 64
  /-- Every clock domain is gated (R414). -/
  gated   : Bool
  bring   : BringUp
  deviceHealth : BitVec 64
  l2cfg   : BitVec 32
  fabricCaps : BitVec 32
  budget  : Nat
  /-- Homes: DRAM and scratchpads. -/
  mem     : Memory
  /-- Bytes of other endpoints as this module has written them, by location (R20, R36). -/
  remote  : ByteMap
  /-- The directory became unreachable (R24). -/
  dirLost : Bool
  /-- Lines of other endpoints held under the directory (R22, R23). -/
  shared  : List Nat
  /-- Sectors whose stored seal does not match their bytes (R15 to R18). -/
  badSeals : List Nat
  /-- Sectors dirty in L2 (R52). -/
  l2Dirty : List Nat
  /-- Sectors valid in L2, each with its slice, die * 16 + slice: the directory of what each partition holds (R52, R53). -/
  l2Valid : List (Nat × Nat)
  pinned  : List Nat
  /-- In partitioned mode, the slice in which a dirty or pinned sector lies: sector and die * 16 + slice (R53). -/
  l2Home  : List (Nat × Nat)
  poison  : List Nat
  links   : List Link
  ports   : List Bool
  dies    : List Die
  cores   : List Core
  spaces  : List AddrSpace
  tlb     : List TlbEntry
  /-- Upper-level entries that the walkers have cached (R42). -/
  upper   : List Upper
  requests : List Request
  /-- The context areas that are mapped (R401). -/
  ctxMaps : List CtxMap
  views   : List View
  carries : List Carry
  nextCarry : Nat
  launches : List Launch
  nextLaunch : Nat
  wgs     : List Wg
  parts   : List Partition
  teams   : List Team
  nextBorn : Nat
  entries : List Entry
  nextEntry : Nat
  nextPromo : Nat
  /-- Threads that wait for an entry, in arrival order (R300). -/
  overflow : List ThreadRef
  cur     : Option Cur
  inflight : List InFlight
  snaps   : List Snapshot
  queues  : List WorkQueue
  sqs     : List SubQueue
  nextSq  : Nat
  mailboxes : List Mailbox
  /-- The firmware staging area of BAR2, by offset (R28). -/
  staging : ByteMap
  msix    : List Nat
  /-- Management messages and interrupts to Gondola and to hosts: cause and argument, oldest first. -/
  notices : List (Nat × Nat)
  batches : List Batch
  /-- Watchpoint hits of Gondola's own accesses (R418). -/
  wpLog   : List Record
  /-- Records with NL = 1 that wait for the policy, with their launch (R398). -/
  nlRecords : List (Nat × Record)
  /-- Records with NL = 1 to which the policy applied STOP, with their launch (R398). -/
  nlStopped : List (Nat × Record)
  /-- Remote answers: what the last fabric or PCIe request returned. -/
  answer  : List Byte
  /-- The operations of the module that come next: inputs of hosts and events of its own units, in an order that nothing
  here limits; an instruction of a program among them stands for a step that the module takes by itself. DESIGN CHOICE, log entry 2. -/
  agenda  : List Instr
  /-- What the memory, the fabric and the loader have still to report by themselves, oldest first (R11, R15, R50, R400). -/
  env     : List EnvEvent
  /-- The code images that are resident (R50). -/
  images  : List CodeImage
  /-- Which of the accesses that come next, and that nothing orders, are performed after their turn. The model's own free value: log entry 28. -/
  unordered : List Bool
  /-- How many free values have been used. The model's own field. -/
  freeCount : Nat
  deriving DecidableEq, Repr

/-- The module right after reset (R7, R426): nothing is powered up, no memory is listed, no launch exists. What the
spec gives no reset value for is 0, the power budget 7000. DESIGN CHOICE, log entry 9. -/
def State.reset : State where
  tick := 0
  stopTick := 0
  gated := false
  bring := {}
  deviceHealth := 0
  l2cfg := 0
  fabricCaps := 0
  budget := 7000
  mem := []
  remote := []
  dirLost := false
  shared := []
  badSeals := []
  l2Dirty := []
  l2Valid := []
  pinned := []
  l2Home := []
  poison := []
  links := List.replicate 48 {}
  ports := List.replicate 16 false
  dies := List.replicate 8 {}
  cores := []
  spaces := []
  tlb := []
  upper := []
  requests := []
  ctxMaps := []
  views := []
  carries := []
  nextCarry := 0
  launches := []
  nextLaunch := 0
  wgs := []
  parts := []
  teams := []
  nextBorn := 0
  entries := []
  nextEntry := 0
  nextPromo := 0
  overflow := []
  cur := none
  inflight := []
  snaps := []
  queues := []
  sqs := []
  nextSq := 0
  mailboxes := List.replicate 16 {}
  staging := []
  msix := []
  notices := []
  batches := []
  wpLog := []
  nlRecords := []
  nlStopped := []
  answer := []
  agenda := []
  env := []
  images := []
  unordered := []
  freeCount := 0

end Sys2Proof.Machine
end

