-- ==== Sys2Proof/Machine/Float.lean ====
section
/-!
DEFINITION. Machine/Float.lean: the floating formats, rounding, overflow and conversions (06 R107 to R120), by exact integer
arithmetic: a finite value is m * 2^e, a quotient or a root a fraction with a sticky bit.
-/

namespace Sys2Proof.Machine

/-- A floating format (R107). -/
structure Fmt where
  ebits : Nat
  tbits : Nat
  bias  : Nat
  deriving DecidableEq, Repr

/-- The format of a type; that of f64 for the types that are no floating type. -/
def fmtOf : Ty → Fmt
  | .f32 => ⟨8, 23, 127⟩
  | .f16 => ⟨5, 10, 15⟩
  | .bf16 => ⟨8, 7, 127⟩
  | .e4m3 => ⟨4, 3, 7⟩
  | .e5m2 => ⟨5, 2, 15⟩
  | .e2m1 => ⟨2, 1, 1⟩
  | _ => ⟨11, 52, 1023⟩

/-- The bits of a format. -/
def Fmt.bits (f : Fmt) : Nat := 1 + f.ebits + f.tbits

/-- A number as a format reads it. -/
inductive FVal where
  | nan (signalling : Bool)
  | inf (neg : Bool)
  | fin (neg : Bool) (m : Nat) (e : Int)
  deriving DecidableEq, Repr

/-- Has the format infinities (R107)? -/
def hasInf (t : Ty) : Bool := t != .e4m3 && t != .e2m1

/-- The canonical NaN (R107); +0 for e2m1, which has none (R120). -/
def canonNan : Ty → Nat
  | .f32 => 0x7fc00000 | .f16 => 0x7e00 | .bf16 => 0x7fc0 | .e4m3 => 0x7f | .e5m2 => 0x7e | .e2m1 => 0
  | _ => 0x7ff8000000000000

/-- The largest finite encoding, without its sign (R107). -/
def maxFinite : Ty → Nat
  | .f32 => 0x7f7fffff | .f16 => 0x7bff | .bf16 => 0x7f7f | .e4m3 => 0x7e | .e5m2 => 0x7b | .e2m1 => 7
  | _ => 0x7fefffffffffffff

/-- The encoding of +infinity, for the formats that have one. -/
def infBits : Ty → Nat
  | .f32 => 0x7f800000 | .f16 => 0x7c00 | .bf16 => 0x7f80 | .e5m2 => 0x7c | _ => 0x7ff0000000000000

/-- The sign bit of a format. -/
def signBit (t : Ty) : Nat := 2 ^ ((fmtOf t).bits - 1)

/-- A sign put on an encoding. -/
def withSign (t : Ty) (neg : Bool) (b : Nat) : Nat := if neg then signBit t + b else b

/-- Reads an encoding (R107, R108, R110). -/
def fval (t : Ty) (b : Nat) : FVal :=
  let f := fmtOf t
  let neg := b / signBit t % 2 == 1
  let e := b / 2 ^ f.tbits % 2 ^ f.ebits
  let m := b % 2 ^ f.tbits
  let fin : FVal :=
    if e = 0 then .fin (neg && !(t = .e2m1 && m = 0)) m (1 - (f.bias : Int) - f.tbits)
    else .fin neg (2 ^ f.tbits + m) ((e : Int) - f.bias - f.tbits)
  match t with
  | .e2m1 => fin
  | .e4m3 => if e = 15 && m = 7 then .nan false else fin
  | _ =>
    if e = 2 ^ f.ebits - 1 then
      if m = 0 then .inf neg else .nan (t != .e5m2 && decide (m < 2 ^ (f.tbits - 1)))
    else fin

/-- The exceptions, as the low bits of MODE number them (R118): invalid, divide by zero, overflow, underflow, inexact. -/
abbrev Exc := BitVec 5

def excV : Exc := 1
def excZ : Exc := 2
def excO : Exc := 4
def excU : Exc := 8
def excX : Exc := 16

/-- A result: its encoding and the exceptions raised. -/
structure FRes where
  bits : Nat
  exc  : Exc := 0
  deriving DecidableEq, Repr

/-- The largest k with 2^k at most num / den, both nonzero. -/
def ilog2 (num den : Nat) : Int :=
  let k : Int := (num.log2 : Int) - (den.log2 : Int)
  let le : Bool := if 0 ≤ k then decide (den * 2 ^ k.toNat ≤ num) else decide (den ≤ num * 2 ^ (-k).toNat)
  if le then k else k - 1

/-- num / den divided by 2^k, as a fraction. -/
def scaleFrac (num den : Nat) (k : Int) : Nat × Nat :=
  if 0 ≤ k then (num, den * 2 ^ k.toNat) else (num * 2 ^ (-k).toNat, den)

/-- The magnitude num / den, a little more where more is set, rounded to an integer (R114). -/
def roundMag (rm : Rm) (neg more : Bool) (num den : Nat) : Nat :=
  let lo := num / den
  let r := num % den
  if r = 0 && !more then lo
  else match rm with
  | .rne => if den < 2 * r || (den = 2 * r && (more || lo % 2 = 1)) then lo + 1 else lo
  | .rtz => lo
  | .rup => if neg then lo else lo + 1
  | .rdn => if neg then lo + 1 else lo

/-- Overflow (R115). -/
def overflow (t : Ty) (rm : Rm) (sat neg : Bool) : FRes :=
  let mx := withSign t neg (maxFinite t)
  let beyond : Nat := if t = .e4m3 then 0x7f else withSign t neg (infBits t)
  let b :=
    if t = .e2m1 || sat then mx
    else match rm with
      | .rne => beyond
      | .rtz => mx
      | .rup => if neg then mx else beyond
      | .rdn => if neg then beyond else mx
  ⟨b, excO ||| excX⟩

/-- A zero of a format: e2m1 has no negative one (R110, R114). -/
def zeroBits (t : Ty) (neg : Bool) : Nat := if t = .e2m1 then 0 else withSign t neg 0

/-- Rounds the nonzero real of sign neg and magnitude num / den, a little more where more is set (R114, R115, R117). -/
def roundFrac (t : Ty) (rm : Rm) (sat ftz neg more : Bool) (num den : Nat) : FRes :=
  let f := fmtOf t
  let emin : Int := 1 - (f.bias : Int)
  let l := ilog2 num den
  let e := max l emin
  let q := e - f.tbits
  let (n', d') := scaleFrac num den q
  let m := roundMag rm neg more n' d'
  let exact := n' % d' = 0 && !more
  let tiny :=
    if emin ≤ l then false
    else if l < emin - 1 then true
    else
      let (n2, d2) := scaleFrac num den (l - f.tbits)
      decide (roundMag rm neg more n2 d2 < 2 ^ (f.tbits + 1))
  if ftz && tiny then ⟨zeroBits t neg, excU ||| excX⟩
  else
    let exc : Exc := (if exact then 0 else excX) ||| (if tiny && !exact then excU else 0)
    if m = 0 then ⟨zeroBits t neg, exc⟩
    else
      let (m, e) := if m = 2 ^ (f.tbits + 1) then (2 ^ f.tbits, e + 1) else (m, e)
      let b := if m < 2 ^ f.tbits then m else (e - emin + 1).toNat * 2 ^ f.tbits + (m - 2 ^ f.tbits)
      if maxFinite t < b then overflow t rm sat neg
      else ⟨withSign t neg b, exc⟩

/-- Rounds n * 2^e; an exact zero takes the sign given. -/
def roundDyadic (t : Ty) (rm : Rm) (sat ftz : Bool) (zneg : Bool) (n : Int) (e : Int) : FRes :=
  if n = 0 then ⟨zeroBits t zneg, 0⟩
  else
    let (num, den) := if 0 ≤ e then (n.natAbs * 2 ^ e.toNat, 1) else (n.natAbs, 2 ^ (-e).toNat)
    roundFrac t rm sat ftz (n < 0) false num den

/-- The signed mantissa of a finite value. -/
def smant (neg : Bool) (m : Nat) : Int := if neg then -(m : Int) else (m : Int)

/-- The exact sum of two dyadics, on their common exponent. -/
def addDy (n1 : Int) (e1 : Int) (n2 : Int) (e2 : Int) : Int × Int :=
  let e := min e1 e2
  (n1 * 2 ^ (e1 - e).toNat + n2 * 2 ^ (e2 - e).toNat, e)

/-- The sign of an exact zero sum (R116). -/
def zeroSumNeg (rm : Rm) (neg1 neg2 : Bool) : Bool := if neg1 = neg2 then neg1 else rm == .rdn

/-- Reads an operand, flushing a subnormal f32 under .ftz (R117). -/
def fread (t : Ty) (ftz : Bool) (b : Nat) : FVal :=
  match fval t b with
  | .fin neg m e => if ftz && t = .f32 && decide (m < 2 ^ 23) then .fin neg 0 e else .fin neg m e
  | v => v

/-- Is the value a signalling NaN? -/
def FVal.sig : FVal → Bool
  | .nan s => s
  | _ => false

/-- Is the value a NaN? -/
def FVal.isNan : FVal → Bool
  | .nan _ => true
  | _ => false

/-- The sign of a value. -/
def FVal.neg : FVal → Bool
  | .nan _ => false
  | .inf n => n
  | .fin n _ _ => n

/-- Is the value a zero? -/
def FVal.isZero : FVal → Bool
  | .fin _ m _ => m == 0
  | _ => false

/-- A canonical NaN with invalid where some operand signals (R108). -/
def nanRes (t : Ty) (vs : List FVal) : FRes := ⟨canonNan t, if vs.any FVal.sig then excV else 0⟩

/-- An invalid operation. -/
def invalidRes (t : Ty) : FRes := ⟨canonNan t, excV⟩

/-- The exact x + y, rounded (R114, R116). -/
def faddV (t : Ty) (rm : Rm) (ftz : Bool) (x y : FVal) : FRes :=
  match x, y with
  | .nan _, _ | _, .nan _ => nanRes t [x, y]
  | .inf a, .inf b => if a = b then ⟨withSign t a (infBits t), 0⟩ else invalidRes t
  | .inf a, _ => ⟨withSign t a (infBits t), 0⟩
  | _, .inf b => ⟨withSign t b (infBits t), 0⟩
  | .fin n1 m1 e1, .fin n2 m2 e2 =>
    let (n, e) := addDy (smant n1 m1) e1 (smant n2 m2) e2
    roundDyadic t rm false ftz (zeroSumNeg rm n1 n2) n e

/-- The negated value. -/
def FVal.negate : FVal → FVal
  | .nan s => .nan s
  | .inf n => .inf (!n)
  | .fin n m e => .fin (!n) m e

/-- The exact x * y, rounded (R114, R116). -/
def fmulV (t : Ty) (rm : Rm) (ftz : Bool) (x y : FVal) : FRes :=
  match x, y with
  | .nan _, _ | _, .nan _ => nanRes t [x, y]
  | .inf a, v | v, .inf a => if v.isZero then invalidRes t else ⟨withSign t (a != v.neg) (infBits t), 0⟩
  | .fin n1 m1 e1, .fin n2 m2 e2 => roundDyadic t rm false ftz (n1 != n2) (smant (n1 != n2) (m1 * m2)) (e1 + e2)

/-- The exact x * y + z, rounded once (R114, R116). -/
def fmaV (t : Ty) (rm : Rm) (ftz : Bool) (x y z : FVal) : FRes :=
  let prodInvalid := match x, y with
    | .inf _, v | v, .inf _ => v.isZero
    | _, _ => false
  if x.isNan || y.isNan || z.isNan then
    ⟨canonNan t, if x.sig || y.sig || z.sig || (prodInvalid && z.isNan) then excV else 0⟩
  else if prodInvalid then invalidRes t
  else match x, y, z with
    | .fin n1 m1 e1, .fin n2 m2 e2, .fin n3 m3 e3 =>
      let (n, e) := addDy (smant (n1 != n2) (m1 * m2)) (e1 + e2) (smant n3 m3) e3
      roundDyadic t rm false ftz (zeroSumNeg rm (n1 != n2) n3) n e
    | .fin _ _ _, .fin _ _ _, .inf c => ⟨withSign t c (infBits t), 0⟩
    | a, b, .inf c => if (a.neg != b.neg) = c then ⟨withSign t c (infBits t), 0⟩ else invalidRes t
    | a, b, _ => ⟨withSign t (a.neg != b.neg) (infBits t), 0⟩

/-- The exact x / y, rounded (R210). -/
def fdivV (t : Ty) (rm : Rm) (ftz : Bool) (x y : FVal) : FRes :=
  match x, y with
  | .nan _, _ | _, .nan _ => nanRes t [x, y]
  | .inf _, .inf _ => invalidRes t
  | .inf a, v => ⟨withSign t (a != v.neg) (infBits t), 0⟩
  | v, .inf b => ⟨zeroBits t (v.neg != b), 0⟩
  | .fin n1 m1 e1, .fin n2 m2 e2 =>
    if m2 = 0 then (if m1 = 0 then invalidRes t else ⟨withSign t (n1 != n2) (infBits t), excZ⟩)
    else if m1 = 0 then ⟨zeroBits t (n1 != n2), 0⟩
    else
      let (num, den) := scaleFrac m1 m2 (e2 - e1)
      roundFrac t rm false ftz (n1 != n2) false num den

/-- The integer square root, by digits. -/
def isqrt (n : Nat) : Nat :=
  (List.range (n.log2 / 2 + 1)).reverse.foldl (fun r k => if (r + 2 ^ k) * (r + 2 ^ k) ≤ n then r + 2 ^ k else r) 0

/-- The exact root of x, rounded (R210). -/
def fsqrtV (t : Ty) (rm : Rm) (ftz : Bool) (x : FVal) : FRes :=
  match x with
  | .nan _ => nanRes t [x]
  | .inf false => ⟨infBits t, 0⟩
  | .inf true => invalidRes t
  | .fin neg m e =>
    if m = 0 then ⟨zeroBits t neg, 0⟩
    else if neg then invalidRes t
    else
      -- 64 more bits of the root than any format holds, then the sticky rest
      let e' := e - 2 * 64 - (e - 2 * 64) % 2
      let big := m * 2 ^ (e - e').toNat
      let r := isqrt big
      let h := e' / 2
      let (num, den) := if 0 ≤ h then (r * 2 ^ h.toNat, 1) else (r, 2 ^ (-h).toNat)
      roundFrac t rm false ftz false (r * r != big) num den

/-- Orders two values that are no NaN: x less than y as reals, infinities at the ends. -/
def FVal.lt (x y : FVal) : Bool :=
  match x, y with
  | .inf a, .inf b => a && !b
  | .inf a, _ => a
  | _, .inf b => !b
  | .fin n1 m1 e1, .fin n2 m2 e2 =>
    let e := min e1 e2
    decide (smant n1 m1 * 2 ^ (e1 - e).toNat < smant n2 m2 * 2 ^ (e2 - e).toNat)
  | _, _ => false

/-- Equality of two values that are no NaN. -/
def FVal.eqv (x y : FVal) : Bool := !x.lt y && !y.lt x

/-- fmin and fmax on encodings (R109). -/
def fminmax (t : Ty) (isMax : Bool) (a b : Nat) : FRes :=
  let x := fval t a
  let y := fval t b
  let exc := if x.sig || y.sig then excV else 0
  match x.isNan, y.isNan with
  | true, true => ⟨canonNan t, exc⟩
  | true, false => ⟨b, exc⟩
  | false, true => ⟨a, exc⟩
  | false, false =>
    -- -0 is less than +0
    let less := x.lt y || (x.isZero && y.isZero && x.neg && !y.neg)
    ⟨if less != isMax then a else b, exc⟩

/-- A value rounded into a format: the conversions between floating types (R120). -/
def fconvert (d : Ty) (rm : Rm) (sat : Bool) (x : FVal) : FRes :=
  match x with
  | .nan s => if d = .e2m1 then ⟨0, excV⟩ else ⟨canonNan d, if s then excV else 0⟩
  | .inf neg =>
    if d = .e2m1 then ⟨withSign d neg 7, excO ||| excX⟩
    else if sat then ⟨withSign d neg (maxFinite d), excO ||| excX⟩
    else if d = .e4m3 then ⟨0x7f, excV⟩
    else ⟨withSign d neg (infBits d), 0⟩
  | .fin neg m e => if m = 0 then ⟨zeroBits d neg, 0⟩ else roundDyadic d rm sat false neg (smant neg m) e

/-- A finite value rounded to an integer. -/
def finToInt (rm : Rm) (neg : Bool) (m : Nat) (e : Int) : Int × Bool :=
  let (num, den) := if 0 ≤ e then (m * 2 ^ e.toNat, 1) else (m, 2 ^ (-e).toNat)
  (smant neg (roundMag rm neg false num den), num % den != 0)

/-- The encoding of an integer that a format holds exactly, none otherwise: a constant operand (R97). -/
def exactInt? (t : Ty) (k : Int) : Option Nat :=
  let r := roundDyadic t .rne false false false k 0
  if r.exc = 0 then some r.bits else none

end Sys2Proof.Machine
end

