-- ==== Sys2Proof/WellFormed.lean ====
section
/-!
DEFINITION. WellFormed.lean: which instructions of a program have an encoding: the operand widths, the register
codes that each field reaches and the field values of R167 to R178.
-/

namespace Sys2Proof

/-- The width of an operand of a type: narrow types stand in one register (R170, R183). -/
def Ty.opBits : Ty → Nat
  | .i64 | .n64 | .f64 => 64
  | .b128 => 128
  | _ => 32

/-- The floating types. -/
def Ty.isFloat : Ty → Bool
  | .f64 | .f32 | .f16 | .bf16 | .e4m3 | .e5m2 | .e2m1 => true
  | _ => false

/-- The types of red and scan: any but b128 (R174). -/
def redTys : List Ty :=
  [.i8, .i16, .i32, .i64, .n8, .n16, .n32, .n64, .f64, .f32, .f16, .bf16, .e4m3, .e5m2, .e2m1]

/-- The operations that red and scan have on a type, and RM zero for integers (R231). -/
def redOk (op : RedOp) (ty : Ty) (rm : Rm) : Bool :=
  if ty.isFloat then op == .add || op == .min || op == .max else rm == .rne

/-- The number of ways of zip and unzip (R234). -/
def waysOk (k : Nat) : Bool := decide (2 ≤ k ∧ k ≤ 4)

/-- The width of the data of a K-form load or store (R175). -/
def kWidth (wd : Nat) : Nat := if wd = 0 then 32 else if wd = 1 then 64 else 128

/-- The width of the values of fpack (R218). -/
def packBits (ty sty : Ty) : Nat :=
  if ty = .e2m1 then (if sty = .f32 then 256 else 128) else (if sty = .f32 then 128 else 64)

/-- The width of the result of funpack (R219). -/
def unpackBits (ty sty : Ty) : Nat :=
  if sty = .e2m1 then (if ty = .f32 then 256 else 128) else (if ty = .f32 then 128 else 64)

/-- The register alignment of an operand of w bits: pairs even, quads to 4, groups of 8 to 8 (R170). -/
def alignedTo (n w : Nat) : Bool := n % (w / 32) == 0

/-- A source that has a code of w bits, with v registers below lim, s registers below slim and inline constants
from lo to hi (R169, R170). -/
def Src.okIn (v s : Nat) (lo hi : Int) (pms : Bool) (w : Nat) : Src → Bool
  | .v n => decide (n < v)
  | .w n => decide (n < 8) && decide (w ≤ 128)
  | .y n => decide (n < 2) && decide (w ≤ 64)
  | .tid | .lane | .gpc | .tick => decide (w ≤ 64)
  | .one | .zero => decide (w ≤ 128)
  | .s n => decide (n < s ∧ n ≠ 7) && decide (w ≤ 64)
  | .pm n => pms && decide (n < 12) && decide (w ≤ 64)
  | .imm k => decide (lo ≤ k ∧ k ≤ hi) && decide (w ≤ 128)

/-- A destination that has a code of w bits (R96, R169, R170). -/
def Dst.okIn (v s : Nat) (pms : Bool) (w : Nat) : Dst → Bool
  | .v n => decide (n < v)
  | .w n => decide (n < 8) && decide (w ≤ 128)
  | .s n => decide (n < s ∧ n ≠ 7) && decide (w ≤ 64)
  | .pm n => pms && decide (n < 12) && decide (w ≤ 64)
  | .discard => decide (w ≤ 64)

/-- The alignment of a source operand (R170). -/
def Src.aligned (w : Nat) : Src → Bool
  | .v n | .w n | .s n => alignedTo n w
  | _ => true

/-- The alignment of a destination operand (R170). -/
def Dst.aligned (w : Nat) : Dst → Bool
  | .v n | .w n | .s n => alignedTo n w
  | _ => true

/-- A source of a 7-bit field. -/
def Src.ok7 (x : Src) (w : Nat) : Bool := x.okIn 64 16 (-16) 15 false w && x.aligned w

/-- A source of a 9-bit field. -/
def Src.ok9 (x : Src) (w : Nat) : Bool := x.okIn 256 64 (-32) 31 true w && x.aligned w

/-- A destination of a 7-bit field. -/
def Dst.ok7 (x : Dst) (w : Nat) : Bool := x.okIn 64 16 false w && x.aligned w

/-- A destination of a 9-bit field. -/
def Dst.ok9 (x : Dst) (w : Nat) : Bool := x.okIn 256 64 true w && x.aligned w

/-- The first register of a group of k that zip and unzip write (R234). -/
def Dst.okGroup (k : Nat) : Dst → Bool
  | .v n => decide (n < 256)
  | .w n => decide (n + k ≤ 8)
  | _ => false

/-- The first register of a group of k that zip and unzip read (R234). -/
def Src.okGroup (k : Nat) : Src → Bool
  | .v n => decide (n < 256)
  | .w n => decide (n + k ≤ 8)
  | _ => false

/-- A guard names p0 to p11 (R168). -/
def Guard.ok : Guard → Bool
  | .always => true
  | .on p _ => decide (p < 12)

/-- A guard that names a predicate: spawn.try needs one (R336). -/
def Guard.guarded : Guard → Bool
  | .always => false
  | .on _ _ => true

/-- A rectangle has at most 2^3 by 2^7 positions in its fields (R171). -/
def Scope.ok : Scope → Bool
  | .rect a b => decide (a < 4 ∧ b < 8)
  | _ => true

/-- The selectors of eng.post: engine codes 0 and 1 (R178). -/
def QSel.okPost (q : QSel) : Bool := decide (q.eng < 2 ∧ q.q < 4)

/-- The selectors of eng.seq: engine codes 0, 1 and 2 (R178). -/
def QSel.okSeq (q : QSel) : Bool := decide (q.eng < 2 ∧ q.q < 4 ∨ q.eng = 2 ∧ q.q = 0)


/-- The checks that decoding makes on each instruction: exactly the instructions that have an encoding
(R167 to R178). The operations of the module have none and need none. -/
def Instr.wellFormed : Instr → Bool
  | .iaddI32 g d a b => g.ok && d.ok7 32 && a.ok7 32 && b.ok7 32
  | .isubI32 g d a b => g.ok && d.ok7 32 && a.ok7 32 && b.ok7 32
  | .iaddI64 g d a b => g.ok && d.ok7 64 && a.ok7 64 && b.ok7 64
  | .isubI64 g d a b => g.ok && d.ok7 64 && a.ok7 64 && b.ok7 64
  | .imulI32 g d a b => g.ok && d.ok7 32 && a.ok7 32 && b.ok7 32
  | .imulhiI32 g d a b => g.ok && d.ok7 32 && a.ok7 32 && b.ok7 32
  | .imulhiN32 g d a b => g.ok && d.ok7 32 && a.ok7 32 && b.ok7 32
  | .iminI32 g d a b => g.ok && d.ok7 32 && a.ok7 32 && b.ok7 32
  | .imaxI32 g d a b => g.ok && d.ok7 32 && a.ok7 32 && b.ok7 32
  | .iminN32 g d a b => g.ok && d.ok7 32 && a.ok7 32 && b.ok7 32
  | .imaxN32 g d a b => g.ok && d.ok7 32 && a.ok7 32 && b.ok7 32
  | .andB32 g d a b => g.ok && d.ok7 32 && a.ok7 32 && b.ok7 32
  | .orB32 g d a b => g.ok && d.ok7 32 && a.ok7 32 && b.ok7 32
  | .xorB32 g d a b => g.ok && d.ok7 32 && a.ok7 32 && b.ok7 32
  | .andnB32 g d a b => g.ok && d.ok7 32 && a.ok7 32 && b.ok7 32
  | .shl g d a b => g.ok && d.ok7 32 && a.ok7 32 && b.ok7 32
  | .shr g d a b => g.ok && d.ok7 32 && a.ok7 32 && b.ok7 32
  | .sar g d a b => g.ok && d.ok7 32 && a.ok7 32 && b.ok7 32
  | .rotl g d a b => g.ok && d.ok7 32 && a.ok7 32 && b.ok7 32
  | .popc g d a => g.ok && d.ok7 32 && a.ok7 32
  | .clz g d a => g.ok && d.ok7 32 && a.ok7 32
  | .ctz g d a => g.ok && d.ok7 32 && a.ok7 32
  | .brev g d a => g.ok && d.ok7 32 && a.ok7 32
  | .iabsI32 g d a => g.ok && d.ok7 32 && a.ok7 32
  | .inegI32 g d a => g.ok && d.ok7 32 && a.ok7 32
  | .mov g d a => g.ok && d.ok7 32 && a.ok7 32
  | .pand g d a b => g.ok && decide (d < 12) && decide (a < 12) && decide (b < 12)
  | .por g d a b => g.ok && decide (d < 12) && decide (a < 12) && decide (b < 12)
  | .pxor g d a b => g.ok && decide (d < 12) && decide (a < 12) && decide (b < 12)
  | .pnot g d a => g.ok && decide (d < 12) && decide (a < 12)
  | .movi g d _ => g.ok && d.ok7 32
  | .iaddi g d a _ => g.ok && d.ok7 32 && a.ok7 32
  | .andi g d a _ => g.ok && d.ok7 32 && a.ok7 32
  | .ori g d a _ => g.ok && d.ok7 32 && a.ok7 32
  | .xori g d a _ => g.ok && d.ok7 32 && a.ok7 32
  | .imad g ty d a b c => g.ok && ([.i32, .n32, .i64, .n64]).contains ty && d.ok9 ty.opBits && a.ok9 ty.opBits && b.ok9 ty.opBits && c.ok9 ty.opBits
  | .idiv g ty d a b => g.ok && ([.i32, .n32, .i64, .n64]).contains ty && d.ok9 ty.opBits && a.ok9 ty.opBits && b.ok9 ty.opBits
  | .irem g ty d a b => g.ok && ([.i32, .n32, .i64, .n64]).contains ty && d.ok9 ty.opBits && a.ok9 ty.opBits && b.ok9 ty.opBits
  | .icmp g ty _ d a b => g.ok && ([.i8, .i16, .i32, .i64, .n8, .n16, .n32, .n64]).contains ty && decide (d < 12) && a.ok9 ty.opBits && b.ok9 ty.opBits
  | .sel g ty d a b c => g.ok && ([.n32, .n64, .b128]).contains ty && d.ok9 ty.opBits && a.ok9 ty.opBits && b.ok9 ty.opBits && decide (c < 12)
  | .lea g ty sh d a b => g.ok && ([.i32, .n32]).contains ty && decide (sh < 5) && d.ok9 64 && a.ok9 64 && b.ok9 32
  | .iaddc g ty d a b c => g.ok && ([.n32, .n64]).contains ty && d.ok9 ty.opBits && a.ok9 ty.opBits && b.ok9 ty.opBits && decide (c < 12)
  | .isubb g ty d a b c => g.ok && ([.n32, .n64]).contains ty && d.ok9 ty.opBits && a.ok9 ty.opBits && b.ok9 ty.opBits && decide (c < 12)
  | .bfe g ty d a b => g.ok && ([.i32, .n32, .i64, .n64]).contains ty && d.ok9 ty.opBits && a.ok9 ty.opBits && b.ok9 32
  | .bfi g ty d a b c => g.ok && ([.n32, .n64]).contains ty && d.ok9 ty.opBits && a.ok9 ty.opBits && b.ok9 ty.opBits && c.ok9 32
  | .iaddL g ty _ d a b => g.ok && ([.i8, .i16, .i32, .i64, .n8, .n16, .n32, .n64]).contains ty && d.ok9 ty.opBits && a.ok9 ty.opBits && b.ok9 ty.opBits
  | .shf g ty _ d a b c => g.ok && ([.n32, .n64]).contains ty && d.ok9 ty.opBits && a.ok9 ty.opBits && b.ok9 ty.opBits && c.ok9 32
  | .setix g ix a => g.ok && decide (ix < 4) && a.ok9 32
  | .movx g ty ix d a => g.ok && ([.n32, .n64]).contains ty && decide (ix < 4) && d.ok9 ty.opBits && a.ok9 32
  | .stx g ty ix a b => g.ok && ([.n32, .n64]).contains ty && decide (ix < 4) && a.ok9 32 && b.ok9 ty.opBits
  | .pmovTo g d a => g.ok && decide (d < 12) && a.ok9 32
  | .pmovFrom g d a => g.ok && d.ok9 32 && decide (a < 12)
  | .icvt g ty sty _ d a => g.ok && ([.i8, .i16, .i32, .i64, .n8, .n16, .n32, .n64]).contains ty && ([.i8, .i16, .i32, .i64, .n8, .n16, .n32, .n64]).contains sty && d.ok9 ty.opBits && a.ok9 sty.opBits
  | .faddF64 g d a b => g.ok && d.ok7 64 && a.ok7 64 && b.ok7 64
  | .faddF32 g d a b => g.ok && d.ok7 32 && a.ok7 32 && b.ok7 32
  | .fsubF64 g d a b => g.ok && d.ok7 64 && a.ok7 64 && b.ok7 64
  | .fsubF32 g d a b => g.ok && d.ok7 32 && a.ok7 32 && b.ok7 32
  | .fmulF64 g d a b => g.ok && d.ok7 64 && a.ok7 64 && b.ok7 64
  | .fmulF32 g d a b => g.ok && d.ok7 32 && a.ok7 32 && b.ok7 32
  | .fminF64 g d a b => g.ok && d.ok7 64 && a.ok7 64 && b.ok7 64
  | .fminF32 g d a b => g.ok && d.ok7 32 && a.ok7 32 && b.ok7 32
  | .fmaxF64 g d a b => g.ok && d.ok7 64 && a.ok7 64 && b.ok7 64
  | .fmaxF32 g d a b => g.ok && d.ok7 32 && a.ok7 32 && b.ok7 32
  | .fabsF64 g d a => g.ok && d.ok7 64 && a.ok7 64
  | .fabsF32 g d a => g.ok && d.ok7 32 && a.ok7 32
  | .fnegF64 g d a => g.ok && d.ok7 64 && a.ok7 64
  | .fnegF32 g d a => g.ok && d.ok7 32 && a.ok7 32
  | .faddH2 g d a b => g.ok && d.ok7 32 && a.ok7 32 && b.ok7 32
  | .fmulH2 g d a b => g.ok && d.ok7 32 && a.ok7 32 && b.ok7 32
  | .faddB2 g d a b => g.ok && d.ok7 32 && a.ok7 32 && b.ok7 32
  | .fmulB2 g d a b => g.ok && d.ok7 32 && a.ok7 32 && b.ok7 32
  | .frcpF32 g d a => g.ok && d.ok7 32 && a.ok7 32
  | .frsqF32 g d a => g.ok && d.ok7 32 && a.ok7 32
  | .fexp2F32 g d a => g.ok && d.ok7 32 && a.ok7 32
  | .flog2F32 g d a => g.ok && d.ok7 32 && a.ok7 32
  | .fsinpiF32 g d a => g.ok && d.ok7 32 && a.ok7 32
  | .fcospiF32 g d a => g.ok && d.ok7 32 && a.ok7 32
  | .ftanhF32 g d a => g.ok && d.ok7 32 && a.ok7 32
  | .fclassF64 g d a => g.ok && d.ok7 32 && a.ok7 64
  | .fclassF32 g d a => g.ok && d.ok7 32 && a.ok7 32
  | .fma g ty _ ftz pk d a b c => g.ok && ([.f64, .f32, .f16, .bf16]).contains ty && d.ok9 ty.opBits && a.ok9 ty.opBits && b.ok9 ty.opBits && c.ok9 ty.opBits && (!ftz || ty == .f32) && (!pk || (ty == .f16 || ty == .bf16))
  | .faddL g ty _ ftz pk d a b => g.ok && ([.f64, .f32, .f16, .bf16]).contains ty && d.ok9 ty.opBits && a.ok9 ty.opBits && b.ok9 ty.opBits && (!ftz || ty == .f32) && (!pk || (ty == .f16 || ty == .bf16))
  | .fmulL g ty _ ftz pk d a b => g.ok && ([.f64, .f32, .f16, .bf16]).contains ty && d.ok9 ty.opBits && a.ok9 ty.opBits && b.ok9 ty.opBits && (!ftz || ty == .f32) && (!pk || (ty == .f16 || ty == .bf16))
  | .fdiv g ty _ ftz d a b => g.ok && ([.f64, .f32]).contains ty && d.ok9 ty.opBits && a.ok9 ty.opBits && b.ok9 ty.opBits && (!ftz || ty == .f32)
  | .fsqrt g ty _ ftz d a => g.ok && ([.f64, .f32]).contains ty && d.ok9 ty.opBits && a.ok9 ty.opBits && (!ftz || ty == .f32)
  | .fcmp g ty _ d a b => g.ok && ([.f64, .f32, .f16, .bf16]).contains ty && decide (d < 12) && a.ok9 ty.opBits && b.ok9 ty.opBits
  | .fcvt g ty sty _ _ d a => g.ok && ([.f64, .f32, .f16, .bf16, .e4m3, .e5m2, .e2m1]).contains ty && ([.f64, .f32, .f16, .bf16, .e4m3, .e5m2, .e2m1]).contains sty && d.ok9 ty.opBits && a.ok9 sty.opBits && (ty != sty)
  | .frnd g ty _ d a => g.ok && ([.f64, .f32, .f16, .bf16]).contains ty && d.ok9 ty.opBits && a.ok9 ty.opBits
  | .fcvti g ty sty _ d a => g.ok && ([.i8, .i16, .i32, .i64, .n8, .n16, .n32, .n64]).contains ty && ([.f64, .f32, .f16, .bf16]).contains sty && d.ok9 ty.opBits && a.ok9 sty.opBits
  | .icvtf g ty sty _ d a => g.ok && ([.f64, .f32, .f16, .bf16]).contains ty && ([.i8, .i16, .i32, .i64, .n8, .n16, .n32, .n64]).contains sty && d.ok9 ty.opBits && a.ok9 sty.opBits
  | .fscale g ty _ d a b => g.ok && ([.f64, .f32]).contains ty && d.ok9 ty.opBits && a.ok9 ty.opBits && b.ok9 32
  | .ffrexp g ty d a c => g.ok && ([.f64, .f32]).contains ty && d.ok9 ty.opBits && a.ok9 ty.opBits && c.ok9 32
  | .fpack g ty sty _ _ d a b => g.ok && ([.e4m3, .e5m2, .e2m1]).contains ty && ([.f32, .bf16]).contains sty && d.ok9 32 && a.ok9 (packBits ty sty) && b.ok9 32
  | .funpack g ty sty d a b => g.ok && ([.f32, .bf16]).contains ty && ([.e4m3, .e5m2, .e2m1]).contains sty && d.ok9 (unpackBits ty sty) && a.ok9 32 && b.ok9 32
  | .fdot2 g ty _ d a b c => g.ok && ([.f16, .bf16]).contains ty && d.ok9 32 && a.ok9 32 && b.ok9 32 && c.ok9 32
  | .shflIdx g d a b => g.ok && d.ok7 32 && a.ok7 32 && b.ok7 32
  | .shflUp g d a b => g.ok && d.ok7 32 && a.ok7 32 && b.ok7 32
  | .shflDn g d a b => g.ok && d.ok7 32 && a.ok7 32 && b.ok7 32
  | .shflXor g d a b => g.ok && d.ok7 32 && a.ok7 32 && b.ok7 32
  | .voteAll g d a => g.ok && decide (d < 12) && decide (a < 12)
  | .voteAny g d a => g.ok && decide (d < 12) && decide (a < 12)
  | .voteBallot g d a => g.ok && d.ok7 32 && decide (a < 12)
  | .voteEq g d a => g.ok && decide (d < 12) && a.ok7 32
  | .lbcast g d a b => g.ok && d.ok7 32 && a.ok7 32 && b.ok7 32
  | .matchLanes g d a => g.ok && d.ok7 32 && a.ok7 32
  | .redAddI32 g d a => g.ok && d.ok7 32 && a.ok7 32
  | .redAddF32 g d a => g.ok && d.ok7 32 && a.ok7 32
  | .scanAddI32 g d a => g.ok && d.ok7 32 && a.ok7 32
  | .wadd g d a b => g.ok && d.ok7 32 && a.ok7 32 && b.ok7 32
  | .wsub g d a b => g.ok && d.ok7 32 && a.ok7 32 && b.ok7 32
  | .wneg g d a => g.ok && d.ok7 32 && a.ok7 32
  | .wshl g d a b => g.ok && d.ok7 32 && a.ok7 32 && b.ok7 32
  | .wshr g d a b => g.ok && d.ok7 32 && a.ok7 32 && b.ok7 32
  | .wsign g d a => g.ok && d.ok7 32 && a.ok7 32
  | .wcmp g d a b => g.ok && d.ok7 32 && a.ok7 32 && b.ok7 32
  | .wclr g d => g.ok && d.ok7 32
  | .zip g ty k d a => g.ok && ([.n8, .n16, .n32]).contains ty && waysOk k && d.okGroup k && a.okGroup k
  | .unzip g ty k d a => g.ok && ([.n8, .n16, .n32]).contains ty && waysOk k && d.okGroup k && a.okGroup k
  | .bind g ty n => g.ok && ([.n32, .n64]).contains ty && decide (n < 3)
  | .unbind g => g.ok
  | .wmacF64 g d a b => g.ok && d.ok9 32 && a.ok9 64 && b.ok9 64
  | .wnorm g _ d a => g.ok && d.ok9 64 && a.ok9 32
  | .wwin g a c => g.ok && a.ok9 32 && decide (-256 ≤ c ∧ c ≤ 255)
  | .red g op ty rm d a => g.ok && (redTys).contains ty && d.ok9 ty.opBits && a.ok9 ty.opBits && redOk op ty rm
  | .scan g op ty rm _ d a => g.ok && (redTys).contains ty && d.ok9 ty.opBits && a.ok9 ty.opBits && redOk op ty rm
  | .ldW g d a b => g.ok && d.ok7 32 && a.ok7 64 && b.ok7 32
  | .ldD g d a b => g.ok && d.ok7 64 && a.ok7 64 && b.ok7 32
  | .ldQ g d a b => g.ok && d.ok7 128 && a.ok7 64 && b.ok7 32
  | .stW g x a b => g.ok && x.ok7 32 && a.ok7 64 && b.ok7 32
  | .stD g x a b => g.ok && x.ok7 64 && a.ok7 64 && b.ok7 32
  | .stQ g x a b => g.ok && x.ok7 128 && a.ok7 64 && b.ok7 32
  | .ldsW g d a b => g.ok && d.ok7 32 && a.ok7 32 && b.ok7 32
  | .stsW g x a b => g.ok && x.ok7 32 && a.ok7 32 && b.ok7 32
  | .ldiWWg g d a b => g.ok && d.ok7 32 && a.ok7 64 && b.ok7 32
  | .stiWWg g x a b => g.ok && x.ok7 32 && a.ok7 64 && b.ok7 32
  | .qpop g d a => g.ok && d.ok7 64 && a.ok7 32
  | .qpush g a b => g.ok && a.ok7 32 && b.ok7 64
  | .prefetch g a b => g.ok && a.ok7 64 && b.ok7 32
  | .ldK g wd d a _ => g.ok && decide (wd < 3) && d.ok7 (kWidth wd) && a.ok7 64
  | .stK g wd x a _ => g.ok && decide (wd < 3) && x.ok7 (kWidth wd) && a.ok7 64
  | .ldL g ty d a b => g.ok && ([.i8, .n8, .i16, .n16, .n32, .n64, .b128]).contains ty && d.ok9 ty.opBits && a.ok9 64 && b.ok9 32
  | .stL g ty x a b => g.ok && ([.n8, .n16, .n32, .n64, .b128]).contains ty && x.ok9 ty.opBits && a.ok9 64 && b.ok9 32
  | .ldi g ty sc ord d a b => g.ok && ([.n32, .n64]).contains ty && sc.ok && ([.relaxed, .acq, .sc]).contains ord && d.ok9 ty.opBits && a.ok9 64 && b.ok9 32
  | .sti g ty sc ord x a b => g.ok && ([.n32, .n64]).contains ty && sc.ok && ([.relaxed, .rel, .sc]).contains ord && x.ok9 ty.opBits && a.ok9 64 && b.ok9 32
  | .atom g _ ty sc ord d a b => g.ok && ([.i32, .n32, .i64, .n64]).contains ty && sc.ok && ([.relaxed, .acq, .rel, .acqrel, .sc]).contains ord && d.ok9 ty.opBits && a.ok9 64 && b.ok9 ty.opBits
  | .atomcas g ty sc ord d a b => g.ok && ([.i32, .n32, .i64, .n64]).contains ty && sc.ok && ([.relaxed, .acq, .rel, .acqrel, .sc]).contains ord && d.ok9 ty.opBits && a.ok9 64 && b.ok9 (2 * ty.opBits)
  | .atomf g _ ty sc ord d a b => g.ok && ([.f64, .f32]).contains ty && sc.ok && ([.relaxed, .acq, .rel, .acqrel, .sc]).contains ord && d.ok9 ty.opBits && a.ok9 64 && b.ok9 ty.opBits
  | .phase sc => sc.ok
  | .fence g sc ord => g.ok && sc.ok && ([.acq, .rel, .acqrel, .sc]).contains ord
  | .tfill g t a b => g.ok && decide (t < 128) && a.ok9 64 && b.ok9 32
  | .tdrain g t a b => g.ok && decide (t < 128) && a.ok9 64 && b.ok9 32
  | .twait g t => g.ok && decide (t < 128)
  | .tstate g t d => g.ok && decide (t < 128) && d.ok9 32
  | .tfree g t => g.ok && decide (t < 128)
  | .halloc g _ d a b => g.ok && d.ok9 64 && a.ok9 32 && b.ok9 64
  | .hfree g a b => g.ok && a.ok9 64 && b.ok9 64
  | .cinv g _ a b => g.ok && a.ok9 64 && b.ok9 32
  | .cwb g _ a b => g.ok && a.ok9 64 && b.ok9 32
  | .mma g ty x ma mb c => g.ok && ([.bf16, .f16, .e4m3, .e5m2]).contains ty && x.ok9 32 && decide (ma < 16) && decide (mb < 16) && c.ok9 32
  | .mmasc g ty bs k x ma mb c => g.ok && ([.e4m3, .e5m2, .e2m1]).contains ty && decide (bs < 4) && decide (k < 8) && x.ok9 32 && decide (ma < 16) && decide (mb < 16) && c.ok9 64
  | .accld g ty d a b => g.ok && ([.f32, .bf16]).contains ty && d.ok9 32 && a.ok9 32 && b.ok9 32
  | .accst g x a b => g.ok && x.ok9 32 && a.ok9 32 && b.ok9 32
  | .acczero g a b => g.ok && a.ok9 32 && b.ok9 32
  | .accwin g a b => g.ok && a.ok9 32 && b.ok9 32
  | .opmap g m a => g.ok && decide (m < 16) && a.ok9 64
  | .mwait g => g.ok
  | .accldBand g d a b c => g.ok && d.ok9 32 && a.ok9 32 && b.ok9 32 && c.ok9 32
  | .mmaprogRd g q d a => g.ok && decide (q < 8) && d.ok9 32 && a.ok9 32
  | .mmaprogWr g q a b => g.ok && decide (q < 8) && a.ok9 32 && b.ok9 32
  | .bra g off => g.ok && decide (-1048576 ≤ off ∧ off < 1048576)
  | .jmp off => decide (-1048576 ≤ off ∧ off < 1048576)
  | .jmpi g a => g.ok && a.ok7 64
  | .call g off => g.ok && decide (-1048576 ≤ off ∧ off < 1048576)
  | .calli g a => g.ok && a.ok7 64
  | .ret g => g.ok
  | .exit g => g.ok
  | .nop g => g.ok
  | .dispatch g d a b => g.ok && d.ok7 32 && ([0, 2, 4, 8, 10, 12, 14]).contains a && ([0, 2, 4, 8, 10, 12]).contains b
  | .gpcadd g a => g.ok && a.ok7 32
  | .gpcset g a => g.ok && a.ok7 32
  | .loop n k off => decide (n < 3) && decide (k < 8) && decide (-1048576 ≤ off ∧ off < 1048576)
  | .barWg => true
  | .join => true
  | .sleep g a => g.ok && a.ok7 32
  | .wait g a => g.ok && a.ok7 64
  | .spawn g a b => g.ok && a.ok7 32 && b.ok7 32
  | .spawnTry g a b => g.ok && g.guarded && a.ok7 32 && b.ok7 32
  | .brk g => g.ok
  | .yield g => g.ok
  | .gmode g m => g.ok && decide (m < 3)
  | .engCopy g q d a => g.ok && decide (q < 4) && d.ok7 64 && a.ok7 256
  | .engColl g q d a => g.ok && decide (q < 4) && d.ok7 64 && a.ok7 256
  | .engPost g qs a => g.ok && qs.okPost && a.ok7 32
  | .engSeq g qs d => g.ok && qs.okSeq && d.ok7 64
  | .reelGo g a b => g.ok && a.ok7 64 && b.ok7 32
  | .reelCondWrite g sc a b => g.ok && decide (sc < 3) && a.ok7 64 && b.ok7 32
  | .svc g code a => g.ok && decide (code < 128) && a.ok7 32
  | .svcwait g d => g.ok && d.ok7 32
  | .trieStep g d a b => g.ok && d.ok7 64 && a.ok7 64 && b.ok7 32
  | .trieScan g d a b => g.ok && d.ok7 64 && a.ok7 64 && b.ok7 32
  | .trieChild g d a b => g.ok && d.ok7 64 && a.ok7 64 && b.ok7 32
  | .trieInfo g d a => g.ok && d.ok7 32 && a.ok7 64
  | .covpt g d => g.ok && d.ok7 64
  | .covst g a b => g.ok && a.ok7 32 && b.ok7 32
  | .mark g a => g.ok && a.ok7 32
  | .ctrTick g d => g.ok && d.ok7 64
  | .ctrMode g d => g.ok && d.ok7 32
  | .ctrSetmode g b => g.ok && b.ok7 32
  | .ctrVote g d => g.ok && d.ok7 32
  | .ctrWindsock g k d => g.ok && decide (k < 16) && d.ok7 64
  | .trap g n => g.ok && decide (n < 32)
  | .tretRetry g => g.ok
  | .tretSkip g => g.ok
  | .sysr g ty d a => g.ok && ([.n32, .n64]).contains ty && d.ok9 ty.opBits && a.ok9 32
  | .sysw g ty a b => g.ok && ([.n32, .n64]).contains ty && a.ok9 32 && b.ok9 ty.opBits
  | .msig g tgt a => g.ok && decide (tgt < 512) && a.ok9 32
  | .mpost g tgt a b => g.ok && decide (tgt < 512) && a.ok9 64 && b.ok9 32
  | .tlbinvPage g a b => g.ok && a.ok9 64 && b.ok9 32
  | .tlbinvAsid g a b => g.ok && a.ok9 64 && b.ok9 32
  | .tlbinvAll g a b => g.ok && a.ok9 64 && b.ok9 32
  | .cflush g a b => g.ok && a.ok9 64 && b.ok9 32
  | .fltrd g d a => g.ok && d.ok9 32 && a.ok9 32
  | .powerGood => true
  | .moduleReset => true
  | .memoryRegionInit => true
  | .firmwareLoad _ => true
  | .flitCrcRetry _ => true
  | .linkRetrain _ => true
  | .linkFailed _ => true
  | .fabricRemoteRead _ _ _ => true
  | .fabricRemoteWrite _ _ _ => true
  | .fabricRemoteAtomic _ _ _ _ _ _ => true
  | .directoryRecall _ => true
  | .directoryUnreachable => true
  | .pcieBarRequest _ => true
  | .createAs _ => true
  | .destroyAs _ => true
  | .registerSq _ => true
  | .unregisterSq _ => true
  | .configWq _ => true
  | .mmioWrite _ => true
  | .mmioRead _ => true
  | .status _ => true
  | .setBudget _ => true
  | .mailboxUnknownOp _ => true
  | .sqDoorbell _ _ => true
  | .throttleChange _ _ => true
  | .thermalShutdown _ => true
  | .coreSelfCheckFail _ => true
  | .spareSubstitution _ => true
  | .stopTickWrite _ => true
  | .stopTickMatch => true
  | .registerWrite _ _ _ => true
  | .tileEntryWrite _ _ => true
  | .debugWindowAccess _ _ => true
  | .l2ModeChange _ => true
  | .mpostpopRead _ => true
  | .l2Writeback _ => true
  | .replayResolve _ => true
  | .replayReject _ => true
  | .outstandingResultReturn _ => true
  | .sliceIssueTurn _ _ => true
  | .agePromotion _ => true
  | .convergenceHang _ => true
  | .barrierHang _ => true
  | .workgroupBoundaryComplete _ => true
  | .phaseBoundaryComplete _ => true
  | .policyKill _ => true
  | .policyStop _ => true
  | .policySkip _ => true
  | .policyRetry _ => true
  | .policyForward _ => true
  | .engineTakeEntry _ => true
  | .copyEntry _ => true
  | .collEntry _ => true
  | .nopEntry _ => true
  | .entryCompletion _ => true
  | .reelEnd _ _ => true
  | .reelCopy _ _ => true
  | .reelColl _ _ => true
  | .reelWaitseq _ _ => true
  | .reelWake _ _ => true
  | .reelCond _ _ => true
  | .reelWhile _ _ => true
  | .matrixPass _ => true
  | .matrixPassComplete _ => true
  | .launch _ _ => true
  | .feed _ _ => true
  | .close _ _ => true
  | .nopPacket _ _ => true
  | .workgroupPlace _ => true
  | .workgroupRetire _ => true
  | .launchComplete _ => true
  | .preemptMaskWrite _ _ => true
  | .workgroupSave _ => true
  | .workgroupRestore _ => true
  | .serviceReply _ _ => true
  | .serviceReject _ => true
  | .tileReconstruction _ => true
  | .auditWindowClose _ => true
  | .stopArrival _ => true
  | .dbgHalt _ _ => true
  | .dbgResume _ _ => true
  | .dbgStep _ _ => true
  | .linkTrainedAgain _ => true
  | .fabricPortFailed _ => true

end Sys2Proof
end

