-- ==== Sys2Proof/Decode.lean ====
section
/-!
DEFINITION. Decode.lean: the decoder of the words of a clause (09 R163 to R180), total on any words, with the fault it
reports for each word that is no instruction, in the order of R180; and after it the encoder of a well-formed instruction.
Whether a register lies beyond the thread's block (R93) is a question about the thread, asked when the instruction runs.
-/

namespace Sys2Proof

/-- Why a word is no instruction, in the order of R180. -/
inductive DecodeFault where
  /-- 0x008: it does not end within the clause's 16 words (R164). -/
  | tooLong
  /-- 0x004: its opcode is assigned in another class only. -/
  | otherClass
  /-- 0x001: its opcode is assigned in no class. -/
  | unassigned
  /-- 0x007: a privileged form in user mode. -/
  | privileged
  /-- 0x005: the guard field (R168). -/
  | guard
  /-- 0x002: a reserved field or a value outside the tables. -/
  | field
  /-- 0x001: a register code (R170). -/
  | register
  /-- 0x006: register alignment (R170). -/
  | alignment
  deriving DecidableEq, Repr

/-- The cause of a decode fault (R180, R392). -/
def DecodeFault.cause : DecodeFault → Nat
  | .tooLong => 0x008
  | .otherClass => 0x004
  | .unassigned => 0x001
  | .privileged => 0x007
  | .guard => 0x005
  | .field => 0x002
  | .register => 0x001
  | .alignment => 0x006

/-- The two's complement reading of an n-bit number. -/
def signed (n x : Nat) : Int := if 2 * x < 2 ^ n then (x : Int) else (x : Int) - (2 ^ n : Nat)

/-- The n-bit two's complement form of an integer. -/
def unsigned (n : Nat) (k : Int) : Nat := (k % ((2 ^ n : Nat) : Int)).toNat

/-- TYPE (R171). -/
def tyOf : Nat → Ty
  | 0 => .i8 | 1 => .i16 | 2 => .i32 | 3 => .i64 | 4 => .n8 | 5 => .n16 | 6 => .n32 | 7 => .n64
  | 8 => .f64 | 9 => .f32 | 10 => .f16 | 11 => .bf16 | 12 => .e4m3 | 13 => .e5m2 | 14 => .e2m1 | _ => .b128

/-- The code of a type (R171). -/
def Ty.code : Ty → Nat
  | .i8 => 0 | .i16 => 1 | .i32 => 2 | .i64 => 3 | .n8 => 4 | .n16 => 5 | .n32 => 6 | .n64 => 7
  | .f64 => 8 | .f32 => 9 | .f16 => 10 | .bf16 => 11 | .e4m3 => 12 | .e5m2 => 13 | .e2m1 => 14 | .b128 => 15

/-- RM (R113). -/
def rmOf : Nat → Rm
  | 0 => .rne | 1 => .rtz | 2 => .rup | _ => .rdn

/-- The code of a rounding mode. -/
def Rm.code : Rm → Nat
  | .rne => 0 | .rtz => 1 | .rup => 2 | .rdn => 3

/-- The conditions of fcmp (R173). -/
def fcondOf : Nat → FCond
  | 0 => .eq | 1 => .ne | 2 => .lt | 3 => .le | 4 => .gt | 5 => .ge | 6 => .un | _ => .or

/-- The code of a condition of fcmp. -/
def FCond.code : FCond → Nat
  | .eq => 0 | .ne => 1 | .lt => 2 | .le => 3 | .gt => 4 | .ge => 5 | .un => 6 | .or => 7

/-- The code of a condition of icmp. -/
def ICond.code : ICond → Nat
  | .eq => 0 | .ne => 1 | .lt => 2 | .le => 3 | .gt => 4 | .ge => 5

/-- The code of an operation of red and scan. -/
def RedOp.code : RedOp → Nat
  | .add => 0 | .and => 1 | .or => 2 | .xor => 3 | .min => 5 | .max => 6

/-- The code of an operation of atom. -/
def AtomOp.code : AtomOp → Nat
  | .add => 0 | .and => 1 | .or => 2 | .xor => 3 | .swap => 4 | .min => 5 | .max => 6

/-- The code of an operation of atomf. -/
def AtomFOp.code : AtomFOp → Nat
  | .add => 0 | .min => 5 | .max => 6

/-- The code of a scope (R171). -/
def Scope.code : Scope → Nat
  | .wg => 0 | .rect _ _ => 1 | .launch => 2 | .sys => 3

/-- The shape bits of a scope in C (R171). -/
def Scope.shape : Scope → Nat
  | .rect a b => a * 64 + b * 8
  | _ => 0

/-- The code of an ordering (R171). -/
def Ord.code : Ord → Nat
  | .relaxed => 0 | .acq => 1 | .rel => 2 | .acqrel => 3 | .sc => 4

/-- The five bits PG and PS of a guard (R168). -/
def Guard.code : Guard → Nat
  | .always => 30
  | .on p neg => 2 * p + neg.toNat

/-- The 7-bit code of a source (R169). -/
def Src.code7 : Src → Nat
  | .v n => n | .w n => 0x40 + n | .y n => 0x48 + n | .tid => 0x4a | .lane => 0x4b | .gpc => 0x4c | .tick => 0x4d
  | .one => 0x4e | .zero => 0x4f | .s n => 0x50 + n | .pm n => 0x150 + n | .imm k => (k + 0x70).toNat

/-- The 9-bit code of a source (R169). -/
def Src.code9 : Src → Nat
  | .v n => n | .w n => 0x100 + n | .y n => 0x108 + n | .tid => 0x10a | .lane => 0x10b | .gpc => 0x10c | .tick => 0x10d
  | .one => 0x10e | .zero => 0x10f | .s n => 0x110 + n | .pm n => 0x150 + n | .imm k => (k + 0x1a0).toNat

/-- The 7-bit code of a destination (R169). -/
def Dst.code7 : Dst → Nat
  | .v n => n | .w n => 0x40 + n | .s n => 0x50 + n | .pm n => 0x150 + n | .discard => 0x4f

/-- The 9-bit code of a destination (R169). -/
def Dst.code9 : Dst → Nat
  | .v n => n | .w n => 0x100 + n | .s n => 0x110 + n | .pm n => 0x150 + n | .discard => 0x10f

/-- The source of a 7-bit code (R169). -/
def src7Of (c : Nat) : Src :=
  if c < 0x40 then .v c
  else if c < 0x48 then .w (c - 0x40)
  else if c < 0x4a then .y (c - 0x48)
  else if c = 0x4a then .tid
  else if c = 0x4b then .lane
  else if c = 0x4c then .gpc
  else if c = 0x4d then .tick
  else if c = 0x4e then .one
  else if c = 0x4f then .zero
  else if c < 0x60 then .s (c - 0x50)
  else .imm ((c : Int) - 0x70)

/-- The source of a 9-bit code, none for a reserved code or a map (R169). DEDUCED, log entry 93. -/
def src9Of (c : Nat) : Option Src :=
  if c < 0x100 then some (.v c)
  else if c < 0x110 then some (src7Of (c - 0xc0))
  else if c < 0x150 then some (.s (c - 0x110))
  else if c < 0x15c then some (.pm (c - 0x150))
  else if c < 0x180 then none
  else if c < 0x1c0 then some (.imm ((c : Int) - 0x1a0))
  else none

/-- The destination of a 7-bit code, none for a source-only code (R96, R169). -/
def dst7Of (c : Nat) : Option Dst :=
  if c < 0x40 then some (.v c)
  else if c < 0x48 then some (.w (c - 0x40))
  else if c = 0x4f then some .discard
  else if 0x50 ≤ c ∧ c < 0x60 then some (.s (c - 0x50))
  else none

/-- The destination of a 9-bit code (R96, R169). -/
def dst9Of (c : Nat) : Option Dst :=
  if c < 0x100 then some (.v c)
  else if c < 0x110 then dst7Of (c - 0xc0)
  else if c < 0x150 then some (.s (c - 0x110))
  else if c < 0x15c then some (.pm (c - 0x150))
  else none

/-- The words of one slot, and the class under which they are read. -/
structure Fields where
  cls : Cls
  w0  : Nat
  w1  : Nat
  deriving DecidableEq, Repr

namespace Fields

/-- OP6 (R167). -/
def op (f : Fields) : Nat := f.w0 / 0x200000 % 64
/-- XOP (R167). -/
def xop (f : Fields) : Nat := f.w1 / 0x1000000 % 256
/-- The 7-bit field D (R167). -/
def d (f : Fields) : Nat := f.w0 / 0x4000 % 128
/-- The 7-bit field A (R167). -/
def a (f : Fields) : Nat := f.w0 / 0x80 % 128
/-- The 7-bit field B (R167). -/
def b (f : Fields) : Nat := f.w0 % 128
/-- The 9-bit field D of the L form (R167). -/
def d9 (f : Fields) : Nat := f.w1 / 0x2000 % 4 * 128 + f.d
/-- The 9-bit field A of the L form (R167). -/
def a9 (f : Fields) : Nat := f.w1 / 0x800 % 4 * 128 + f.a
/-- The 9-bit field B of the L form (R167). -/
def b9 (f : Fields) : Nat := f.w1 / 0x200 % 4 * 128 + f.b
/-- The 9-bit field C (R167). -/
def c (f : Fields) : Nat := f.w1 / 0x8000 % 512
/-- TYPE (R167). -/
def ty (f : Fields) : Nat := f.w1 / 0x20 % 16
/-- RM (R167). -/
def rm (f : Fields) : Nat := f.w1 / 8 % 4
/-- FLAGS (R167). -/
def fl (f : Fields) : Nat := f.w1 % 8
/-- MOD, the group of TYPE, RM and FLAGS (R167). -/
def mod (f : Fields) : Nat := f.w1 % 512
/-- PG and PS, five bits (R168). -/
def pg (f : Fields) : Nat := f.w0 / 0x8000000 % 32
/-- The loop counter of loop (R177). -/
def loopN (f : Fields) : Nat := f.w0 / 0x40000000 % 4
/-- The count register of loop (R177). -/
def loopK (f : Fields) : Nat := f.w0 / 0x8000000 % 8
/-- Bit i of FLAGS. -/
def flag (f : Fields) (i : Nat) : Bool := f.fl / 2 ^ i % 2 == 1

/-- A check that raises 0x002. -/
def field (_ : Fields) (ok : Bool) : Except DecodeFault Unit := if ok then .ok () else .error .field

/-- The guard (R168). -/
def guard (f : Fields) : Except DecodeFault Guard :=
  if f.pg < 24 then .ok (.on (f.pg / 2) (f.pg % 2 == 1))
  else if f.pg = 30 then .ok .always
  else .error .guard

/-- An instruction that must be unguarded (R262, R320, R330). -/
def noGuard (f : Fields) : Except DecodeFault Unit := if f.pg = 30 then .ok () else .error .guard

/-- A TYPE that the tables allow. -/
def tyIn (_ : Fields) (code : Nat) (allowed : List Ty) : Except DecodeFault Ty :=
  if allowed.contains (tyOf code) then .ok (tyOf code) else .error .field

/-- The condition of icmp (R172). -/
def icond (f : Fields) : Except DecodeFault ICond :=
  match f.fl with
  | 0 => .ok .eq | 1 => .ok .ne | 2 => .ok .lt | 3 => .ok .le | 4 => .ok .gt | 5 => .ok .ge
  | _ => .error .field

/-- The ways of zip and unzip (R234). -/
def ways (f : Fields) : Except DecodeFault Nat := if f.fl < 3 then .ok (f.fl + 2) else .error .field

/-- The operation of red and scan: C[2:0], the rest of C zero (R231). -/
def redOp (f : Fields) : Except DecodeFault RedOp :=
  match f.c with
  | 0 => .ok .add | 1 => .ok .and | 2 => .ok .or | 3 => .ok .xor | 5 => .ok .min | 6 => .ok .max
  | _ => .error .field

/-- The operation of atom: C[2:0] (R175). -/
def atomOp (f : Fields) : Except DecodeFault AtomOp :=
  match f.c % 8 with
  | 0 => .ok .add | 1 => .ok .and | 2 => .ok .or | 3 => .ok .xor | 4 => .ok .swap | 5 => .ok .min | 6 => .ok .max
  | _ => .error .field

/-- The operation of atomf: C[2:0] (R175). -/
def atomFOp (f : Fields) : Except DecodeFault AtomFOp :=
  match f.c % 8 with
  | 0 => .ok .add | 5 => .ok .min | 6 => .ok .max
  | _ => .error .field

/-- The scope in RM and its shape in C[7:3]; C[8] is zero, and C[2:0] too where the form has no operation there
(R171). -/
def scope (f : Fields) (opInC : Bool) : Except DecodeFault Scope :=
  if f.c / 256 ≠ 0 ∨ (opInC = false ∧ f.c % 8 ≠ 0) then .error .field
  else if f.rm = 1 then .ok (.rect (f.c / 64 % 4) (f.c / 8 % 8))
  else if f.c / 8 ≠ 0 then .error .field
  else match f.rm with
    | 0 => .ok .wg
    | 2 => .ok .launch
    | _ => .ok .sys

/-- The ordering in FLAGS (R171). -/
def ord (f : Fields) (allowed : List Ord) : Except DecodeFault Ord :=
  let o : Option Ord := match f.fl with
    | 0 => some .relaxed | 1 => some .acq | 2 => some .rel | 3 => some .acqrel | 4 => some .sc | _ => none
  match o with
  | some x => if allowed.contains x then .ok x else .error .field
  | none => .error .field

/-- A source of a 7-bit field (R170). -/
def src7 (_ : Fields) (w code : Nat) : Except DecodeFault Src :=
  if (src7Of code).okIn 64 16 (-16) 15 false w then .ok (src7Of code) else .error .register

/-- A source of a 9-bit field (R170). -/
def src9 (_ : Fields) (w code : Nat) : Except DecodeFault Src :=
  match src9Of code with
  | some x => if x.okIn 256 64 (-32) 31 true w then .ok x else .error .register
  | none => .error .register

/-- A destination of a 7-bit field (R170). DEDUCED, log entry 10. -/
def dst7 (_ : Fields) (w code : Nat) : Except DecodeFault Dst :=
  match dst7Of code with
  | some x => if x.okIn 64 16 false w then .ok x else .error .register
  | none => .error .register

/-- A destination of a 9-bit field (R170). -/
def dst9 (_ : Fields) (w code : Nat) : Except DecodeFault Dst :=
  match dst9Of code with
  | some x => if x.okIn 256 64 true w then .ok x else .error .register
  | none => .error .register

/-- A predicate number (R170). -/
def pred (_ : Fields) (code : Nat) : Except DecodeFault Nat := if code < 12 then .ok code else .error .register

/-- A map operand m0 to m15 (R169, R170). -/
def map (_ : Fields) (code : Nat) : Except DecodeFault Nat :=
  if 0x160 ≤ code ∧ code < 0x170 then .ok (code - 0x160) else .error .register

/-- The destination group of zip and unzip (R234). -/
def dstGroup (f : Fields) (k : Nat) : Except DecodeFault Dst :=
  match dst9Of f.d9 with
  | some x => if x.okGroup k then .ok x else .error .register
  | none => .error .register

/-- The source group of zip and unzip (R234). -/
def srcGroup (f : Fields) (k : Nat) : Except DecodeFault Src :=
  match src9Of f.a9 with
  | some x => if x.okGroup k then .ok x else .error .register
  | none => .error .register

/-- An s register of dispatch, one of a list; any other code, that of an odd register too, raises 0x001 (R315). -/
def sIdx (_ : Fields) (code : Nat) (allowed : List Nat) : Except DecodeFault Nat :=
  if 0x50 ≤ code ∧ code < 0x60 ∧ allowed.contains (code - 0x50) then .ok (code - 0x50) else .error .register

/-- A check that raises 0x006. -/
def align (_ : Fields) (ok : Bool) : Except DecodeFault Unit := if ok then .ok () else .error .alignment

end Fields

/-- The one-word and literal opcodes of each class (R172 to R178). -/
def opAssigned : Cls → Nat → Bool
  | .int, n => n < 0x1e || (0x30 ≤ n && n < 0x35)
  | .flt, n => n < 0x1b
  | .xl, n => n < 0x0d || (0x10 ≤ n && n < 0x18)
  | .mem, n => n < 0x0d || n == 0x30 || n == 0x31
  | .mat, _ => false
  | .ctl, n => n < 0x14
  | .sys, n => n < 0x12

/-- The extended opcodes of each class (R172 to R178). -/
def xopAssigned : Cls → Nat → Bool
  | .int, n => n < 0x12
  | .flt, n => n < 0x0f
  | .xl, n => n < 0x09
  | .mem, n => n < 0x12
  | .mat, n => n < 0x0a
  | .ctl, _ => false
  | .sys, n => n < 0x07

/-- All classes. -/
def Cls.all : List Cls := [.int, .flt, .xl, .mem, .mat, .ctl, .sys]

/-- The fault of an opcode that its class does not have: 0x004 if another class has it, 0x001 otherwise (R180). -/
def unassignedOp (op : Nat) : DecodeFault := if Cls.all.any (opAssigned · op) then .otherClass else .unassigned

/-- The same for an extended opcode. -/
def unassignedXop (xop : Nat) : DecodeFault := if Cls.all.any (xopAssigned · xop) then .otherClass else .unassigned


/-- INT class (R172, R183 to R204): the one-word forms and the literal forms by OP6. -/
def decodeInt (f : Fields) (op : Nat) : Except DecodeFault Instr :=
  match op with
  | 0x00 => do
    let g ← f.guard
    let d ← f.dst7 32 f.d
    let a ← f.src7 32 f.a
    let b ← f.src7 32 f.b
    pure (.iaddI32 g d a b)
  | 0x01 => do
    let g ← f.guard
    let d ← f.dst7 32 f.d
    let a ← f.src7 32 f.a
    let b ← f.src7 32 f.b
    pure (.isubI32 g d a b)
  | 0x02 => do
    let g ← f.guard
    let d ← f.dst7 64 f.d
    let a ← f.src7 64 f.a
    let b ← f.src7 64 f.b
    f.align (d.aligned 64 && a.aligned 64 && b.aligned 64)
    pure (.iaddI64 g d a b)
  | 0x03 => do
    let g ← f.guard
    let d ← f.dst7 64 f.d
    let a ← f.src7 64 f.a
    let b ← f.src7 64 f.b
    f.align (d.aligned 64 && a.aligned 64 && b.aligned 64)
    pure (.isubI64 g d a b)
  | 0x04 => do
    let g ← f.guard
    let d ← f.dst7 32 f.d
    let a ← f.src7 32 f.a
    let b ← f.src7 32 f.b
    pure (.imulI32 g d a b)
  | 0x05 => do
    let g ← f.guard
    let d ← f.dst7 32 f.d
    let a ← f.src7 32 f.a
    let b ← f.src7 32 f.b
    pure (.imulhiI32 g d a b)
  | 0x06 => do
    let g ← f.guard
    let d ← f.dst7 32 f.d
    let a ← f.src7 32 f.a
    let b ← f.src7 32 f.b
    pure (.imulhiN32 g d a b)
  | 0x07 => do
    let g ← f.guard
    let d ← f.dst7 32 f.d
    let a ← f.src7 32 f.a
    let b ← f.src7 32 f.b
    pure (.iminI32 g d a b)
  | 0x08 => do
    let g ← f.guard
    let d ← f.dst7 32 f.d
    let a ← f.src7 32 f.a
    let b ← f.src7 32 f.b
    pure (.imaxI32 g d a b)
  | 0x09 => do
    let g ← f.guard
    let d ← f.dst7 32 f.d
    let a ← f.src7 32 f.a
    let b ← f.src7 32 f.b
    pure (.iminN32 g d a b)
  | 0x0a => do
    let g ← f.guard
    let d ← f.dst7 32 f.d
    let a ← f.src7 32 f.a
    let b ← f.src7 32 f.b
    pure (.imaxN32 g d a b)
  | 0x0b => do
    let g ← f.guard
    let d ← f.dst7 32 f.d
    let a ← f.src7 32 f.a
    let b ← f.src7 32 f.b
    pure (.andB32 g d a b)
  | 0x0c => do
    let g ← f.guard
    let d ← f.dst7 32 f.d
    let a ← f.src7 32 f.a
    let b ← f.src7 32 f.b
    pure (.orB32 g d a b)
  | 0x0d => do
    let g ← f.guard
    let d ← f.dst7 32 f.d
    let a ← f.src7 32 f.a
    let b ← f.src7 32 f.b
    pure (.xorB32 g d a b)
  | 0x0e => do
    let g ← f.guard
    let d ← f.dst7 32 f.d
    let a ← f.src7 32 f.a
    let b ← f.src7 32 f.b
    pure (.andnB32 g d a b)
  | 0x0f => do
    let g ← f.guard
    let d ← f.dst7 32 f.d
    let a ← f.src7 32 f.a
    let b ← f.src7 32 f.b
    pure (.shl g d a b)
  | 0x10 => do
    let g ← f.guard
    let d ← f.dst7 32 f.d
    let a ← f.src7 32 f.a
    let b ← f.src7 32 f.b
    pure (.shr g d a b)
  | 0x11 => do
    let g ← f.guard
    let d ← f.dst7 32 f.d
    let a ← f.src7 32 f.a
    let b ← f.src7 32 f.b
    pure (.sar g d a b)
  | 0x12 => do
    let g ← f.guard
    let d ← f.dst7 32 f.d
    let a ← f.src7 32 f.a
    let b ← f.src7 32 f.b
    pure (.rotl g d a b)
  | 0x13 => do
    let g ← f.guard
    f.field (f.b = 0)
    let d ← f.dst7 32 f.d
    let a ← f.src7 32 f.a
    pure (.popc g d a)
  | 0x14 => do
    let g ← f.guard
    f.field (f.b = 0)
    let d ← f.dst7 32 f.d
    let a ← f.src7 32 f.a
    pure (.clz g d a)
  | 0x15 => do
    let g ← f.guard
    f.field (f.b = 0)
    let d ← f.dst7 32 f.d
    let a ← f.src7 32 f.a
    pure (.ctz g d a)
  | 0x16 => do
    let g ← f.guard
    f.field (f.b = 0)
    let d ← f.dst7 32 f.d
    let a ← f.src7 32 f.a
    pure (.brev g d a)
  | 0x17 => do
    let g ← f.guard
    f.field (f.b = 0)
    let d ← f.dst7 32 f.d
    let a ← f.src7 32 f.a
    pure (.iabsI32 g d a)
  | 0x18 => do
    let g ← f.guard
    f.field (f.b = 0)
    let d ← f.dst7 32 f.d
    let a ← f.src7 32 f.a
    pure (.inegI32 g d a)
  | 0x19 => do
    let g ← f.guard
    f.field (f.b = 0)
    let d ← f.dst7 32 f.d
    let a ← f.src7 32 f.a
    pure (.mov g d a)
  | 0x1a => do
    let g ← f.guard
    let d ← f.pred f.d
    let a ← f.pred f.a
    let b ← f.pred f.b
    pure (.pand g d a b)
  | 0x1b => do
    let g ← f.guard
    let d ← f.pred f.d
    let a ← f.pred f.a
    let b ← f.pred f.b
    pure (.por g d a b)
  | 0x1c => do
    let g ← f.guard
    let d ← f.pred f.d
    let a ← f.pred f.a
    let b ← f.pred f.b
    pure (.pxor g d a b)
  | 0x1d => do
    let g ← f.guard
    f.field (f.b = 0)
    let d ← f.pred f.d
    let a ← f.pred f.a
    pure (.pnot g d a)
  | 0x30 => do
    let g ← f.guard
    f.field (f.a = 0 ∧ f.b = 0)
    let k := BitVec.ofNat 32 f.w1
    let d ← f.dst7 32 f.d
    pure (.movi g d k)
  | 0x31 => do
    let g ← f.guard
    f.field (f.b = 0)
    let k := BitVec.ofNat 32 f.w1
    let d ← f.dst7 32 f.d
    let a ← f.src7 32 f.a
    pure (.iaddi g d a k)
  | 0x32 => do
    let g ← f.guard
    f.field (f.b = 0)
    let k := BitVec.ofNat 32 f.w1
    let d ← f.dst7 32 f.d
    let a ← f.src7 32 f.a
    pure (.andi g d a k)
  | 0x33 => do
    let g ← f.guard
    f.field (f.b = 0)
    let k := BitVec.ofNat 32 f.w1
    let d ← f.dst7 32 f.d
    let a ← f.src7 32 f.a
    pure (.ori g d a k)
  | 0x34 => do
    let g ← f.guard
    f.field (f.b = 0)
    let k := BitVec.ofNat 32 f.w1
    let d ← f.dst7 32 f.d
    let a ← f.src7 32 f.a
    pure (.xori g d a k)
  | _ => .error (unassignedOp op)

/-- FLT class (R173, R205 to R223): the one-word forms and the literal forms by OP6. -/
def decodeFlt (f : Fields) (op : Nat) : Except DecodeFault Instr :=
  match op with
  | 0x00 => do
    let g ← f.guard
    let d ← f.dst7 64 f.d
    let a ← f.src7 64 f.a
    let b ← f.src7 64 f.b
    f.align (d.aligned 64 && a.aligned 64 && b.aligned 64)
    pure (.faddF64 g d a b)
  | 0x01 => do
    let g ← f.guard
    let d ← f.dst7 32 f.d
    let a ← f.src7 32 f.a
    let b ← f.src7 32 f.b
    pure (.faddF32 g d a b)
  | 0x02 => do
    let g ← f.guard
    let d ← f.dst7 64 f.d
    let a ← f.src7 64 f.a
    let b ← f.src7 64 f.b
    f.align (d.aligned 64 && a.aligned 64 && b.aligned 64)
    pure (.fsubF64 g d a b)
  | 0x03 => do
    let g ← f.guard
    let d ← f.dst7 32 f.d
    let a ← f.src7 32 f.a
    let b ← f.src7 32 f.b
    pure (.fsubF32 g d a b)
  | 0x04 => do
    let g ← f.guard
    let d ← f.dst7 64 f.d
    let a ← f.src7 64 f.a
    let b ← f.src7 64 f.b
    f.align (d.aligned 64 && a.aligned 64 && b.aligned 64)
    pure (.fmulF64 g d a b)
  | 0x05 => do
    let g ← f.guard
    let d ← f.dst7 32 f.d
    let a ← f.src7 32 f.a
    let b ← f.src7 32 f.b
    pure (.fmulF32 g d a b)
  | 0x06 => do
    let g ← f.guard
    let d ← f.dst7 64 f.d
    let a ← f.src7 64 f.a
    let b ← f.src7 64 f.b
    f.align (d.aligned 64 && a.aligned 64 && b.aligned 64)
    pure (.fminF64 g d a b)
  | 0x07 => do
    let g ← f.guard
    let d ← f.dst7 32 f.d
    let a ← f.src7 32 f.a
    let b ← f.src7 32 f.b
    pure (.fminF32 g d a b)
  | 0x08 => do
    let g ← f.guard
    let d ← f.dst7 64 f.d
    let a ← f.src7 64 f.a
    let b ← f.src7 64 f.b
    f.align (d.aligned 64 && a.aligned 64 && b.aligned 64)
    pure (.fmaxF64 g d a b)
  | 0x09 => do
    let g ← f.guard
    let d ← f.dst7 32 f.d
    let a ← f.src7 32 f.a
    let b ← f.src7 32 f.b
    pure (.fmaxF32 g d a b)
  | 0x0a => do
    let g ← f.guard
    f.field (f.b = 0)
    let d ← f.dst7 64 f.d
    let a ← f.src7 64 f.a
    f.align (d.aligned 64 && a.aligned 64)
    pure (.fabsF64 g d a)
  | 0x0b => do
    let g ← f.guard
    f.field (f.b = 0)
    let d ← f.dst7 32 f.d
    let a ← f.src7 32 f.a
    pure (.fabsF32 g d a)
  | 0x0c => do
    let g ← f.guard
    f.field (f.b = 0)
    let d ← f.dst7 64 f.d
    let a ← f.src7 64 f.a
    f.align (d.aligned 64 && a.aligned 64)
    pure (.fnegF64 g d a)
  | 0x0d => do
    let g ← f.guard
    f.field (f.b = 0)
    let d ← f.dst7 32 f.d
    let a ← f.src7 32 f.a
    pure (.fnegF32 g d a)
  | 0x0e => do
    let g ← f.guard
    let d ← f.dst7 32 f.d
    let a ← f.src7 32 f.a
    let b ← f.src7 32 f.b
    pure (.faddH2 g d a b)
  | 0x0f => do
    let g ← f.guard
    let d ← f.dst7 32 f.d
    let a ← f.src7 32 f.a
    let b ← f.src7 32 f.b
    pure (.fmulH2 g d a b)
  | 0x10 => do
    let g ← f.guard
    let d ← f.dst7 32 f.d
    let a ← f.src7 32 f.a
    let b ← f.src7 32 f.b
    pure (.faddB2 g d a b)
  | 0x11 => do
    let g ← f.guard
    let d ← f.dst7 32 f.d
    let a ← f.src7 32 f.a
    let b ← f.src7 32 f.b
    pure (.fmulB2 g d a b)
  | 0x12 => do
    let g ← f.guard
    f.field (f.b = 0)
    let d ← f.dst7 32 f.d
    let a ← f.src7 32 f.a
    pure (.frcpF32 g d a)
  | 0x13 => do
    let g ← f.guard
    f.field (f.b = 0)
    let d ← f.dst7 32 f.d
    let a ← f.src7 32 f.a
    pure (.frsqF32 g d a)
  | 0x14 => do
    let g ← f.guard
    f.field (f.b = 0)
    let d ← f.dst7 32 f.d
    let a ← f.src7 32 f.a
    pure (.fexp2F32 g d a)
  | 0x15 => do
    let g ← f.guard
    f.field (f.b = 0)
    let d ← f.dst7 32 f.d
    let a ← f.src7 32 f.a
    pure (.flog2F32 g d a)
  | 0x16 => do
    let g ← f.guard
    f.field (f.b = 0)
    let d ← f.dst7 32 f.d
    let a ← f.src7 32 f.a
    pure (.fsinpiF32 g d a)
  | 0x17 => do
    let g ← f.guard
    f.field (f.b = 0)
    let d ← f.dst7 32 f.d
    let a ← f.src7 32 f.a
    pure (.fcospiF32 g d a)
  | 0x18 => do
    let g ← f.guard
    f.field (f.b = 0)
    let d ← f.dst7 32 f.d
    let a ← f.src7 32 f.a
    pure (.ftanhF32 g d a)
  | 0x19 => do
    let g ← f.guard
    f.field (f.b = 0)
    let d ← f.dst7 32 f.d
    let a ← f.src7 64 f.a
    f.align (a.aligned 64)
    pure (.fclassF64 g d a)
  | 0x1a => do
    let g ← f.guard
    f.field (f.b = 0)
    let d ← f.dst7 32 f.d
    let a ← f.src7 32 f.a
    pure (.fclassF32 g d a)
  | _ => .error (unassignedOp op)

/-- XL class (R174, R224 to R250): the one-word forms and the literal forms by OP6. -/
def decodeXl (f : Fields) (op : Nat) : Except DecodeFault Instr :=
  match op with
  | 0x00 => do
    let g ← f.guard
    let d ← f.dst7 32 f.d
    let a ← f.src7 32 f.a
    let b ← f.src7 32 f.b
    pure (.shflIdx g d a b)
  | 0x01 => do
    let g ← f.guard
    let d ← f.dst7 32 f.d
    let a ← f.src7 32 f.a
    let b ← f.src7 32 f.b
    pure (.shflUp g d a b)
  | 0x02 => do
    let g ← f.guard
    let d ← f.dst7 32 f.d
    let a ← f.src7 32 f.a
    let b ← f.src7 32 f.b
    pure (.shflDn g d a b)
  | 0x03 => do
    let g ← f.guard
    let d ← f.dst7 32 f.d
    let a ← f.src7 32 f.a
    let b ← f.src7 32 f.b
    pure (.shflXor g d a b)
  | 0x04 => do
    let g ← f.guard
    f.field (f.b = 0)
    let d ← f.pred f.d
    let a ← f.pred f.a
    pure (.voteAll g d a)
  | 0x05 => do
    let g ← f.guard
    f.field (f.b = 0)
    let d ← f.pred f.d
    let a ← f.pred f.a
    pure (.voteAny g d a)
  | 0x06 => do
    let g ← f.guard
    f.field (f.b = 0)
    let d ← f.dst7 32 f.d
    let a ← f.pred f.a
    pure (.voteBallot g d a)
  | 0x07 => do
    let g ← f.guard
    f.field (f.b = 0)
    let d ← f.pred f.d
    let a ← f.src7 32 f.a
    pure (.voteEq g d a)
  | 0x08 => do
    let g ← f.guard
    let d ← f.dst7 32 f.d
    let a ← f.src7 32 f.a
    let b ← f.src7 32 f.b
    pure (.lbcast g d a b)
  | 0x09 => do
    let g ← f.guard
    f.field (f.b = 0)
    let d ← f.dst7 32 f.d
    let a ← f.src7 32 f.a
    pure (.matchLanes g d a)
  | 0x0a => do
    let g ← f.guard
    f.field (f.b = 0)
    let d ← f.dst7 32 f.d
    let a ← f.src7 32 f.a
    pure (.redAddI32 g d a)
  | 0x0b => do
    let g ← f.guard
    f.field (f.b = 0)
    let d ← f.dst7 32 f.d
    let a ← f.src7 32 f.a
    pure (.redAddF32 g d a)
  | 0x0c => do
    let g ← f.guard
    f.field (f.b = 0)
    let d ← f.dst7 32 f.d
    let a ← f.src7 32 f.a
    pure (.scanAddI32 g d a)
  | 0x10 => do
    let g ← f.guard
    let d ← f.dst7 32 f.d
    let a ← f.src7 32 f.a
    let b ← f.src7 32 f.b
    pure (.wadd g d a b)
  | 0x11 => do
    let g ← f.guard
    let d ← f.dst7 32 f.d
    let a ← f.src7 32 f.a
    let b ← f.src7 32 f.b
    pure (.wsub g d a b)
  | 0x12 => do
    let g ← f.guard
    f.field (f.b = 0)
    let d ← f.dst7 32 f.d
    let a ← f.src7 32 f.a
    pure (.wneg g d a)
  | 0x13 => do
    let g ← f.guard
    let d ← f.dst7 32 f.d
    let a ← f.src7 32 f.a
    let b ← f.src7 32 f.b
    pure (.wshl g d a b)
  | 0x14 => do
    let g ← f.guard
    let d ← f.dst7 32 f.d
    let a ← f.src7 32 f.a
    let b ← f.src7 32 f.b
    pure (.wshr g d a b)
  | 0x15 => do
    let g ← f.guard
    f.field (f.b = 0)
    let d ← f.dst7 32 f.d
    let a ← f.src7 32 f.a
    pure (.wsign g d a)
  | 0x16 => do
    let g ← f.guard
    let d ← f.dst7 32 f.d
    let a ← f.src7 32 f.a
    let b ← f.src7 32 f.b
    pure (.wcmp g d a b)
  | 0x17 => do
    let g ← f.guard
    f.field (f.a = 0 ∧ f.b = 0)
    let d ← f.dst7 32 f.d
    pure (.wclr g d)
  | _ => .error (unassignedOp op)

/-- MEM class (R175, R251 to R274): the one-word forms and the literal forms by OP6. -/
def decodeMem (f : Fields) (op : Nat) : Except DecodeFault Instr :=
  match op with
  | 0x00 => do
    let g ← f.guard
    let d ← f.dst7 32 f.d
    let a ← f.src7 64 f.a
    let b ← f.src7 32 f.b
    f.align (a.aligned 64)
    pure (.ldW g d a b)
  | 0x01 => do
    let g ← f.guard
    let d ← f.dst7 64 f.d
    let a ← f.src7 64 f.a
    let b ← f.src7 32 f.b
    f.align (d.aligned 64 && a.aligned 64)
    pure (.ldD g d a b)
  | 0x02 => do
    let g ← f.guard
    let d ← f.dst7 128 f.d
    let a ← f.src7 64 f.a
    let b ← f.src7 32 f.b
    f.align (d.aligned 128 && a.aligned 64)
    pure (.ldQ g d a b)
  | 0x03 => do
    let g ← f.guard
    let x ← f.src7 32 f.d
    let a ← f.src7 64 f.a
    let b ← f.src7 32 f.b
    f.align (a.aligned 64)
    pure (.stW g x a b)
  | 0x04 => do
    let g ← f.guard
    let x ← f.src7 64 f.d
    let a ← f.src7 64 f.a
    let b ← f.src7 32 f.b
    f.align (x.aligned 64 && a.aligned 64)
    pure (.stD g x a b)
  | 0x05 => do
    let g ← f.guard
    let x ← f.src7 128 f.d
    let a ← f.src7 64 f.a
    let b ← f.src7 32 f.b
    f.align (x.aligned 128 && a.aligned 64)
    pure (.stQ g x a b)
  | 0x06 => do
    let g ← f.guard
    let d ← f.dst7 32 f.d
    let a ← f.src7 32 f.a
    let b ← f.src7 32 f.b
    pure (.ldsW g d a b)
  | 0x07 => do
    let g ← f.guard
    let x ← f.src7 32 f.d
    let a ← f.src7 32 f.a
    let b ← f.src7 32 f.b
    pure (.stsW g x a b)
  | 0x08 => do
    let g ← f.guard
    let d ← f.dst7 32 f.d
    let a ← f.src7 64 f.a
    let b ← f.src7 32 f.b
    f.align (a.aligned 64)
    pure (.ldiWWg g d a b)
  | 0x09 => do
    let g ← f.guard
    let x ← f.src7 32 f.d
    let a ← f.src7 64 f.a
    let b ← f.src7 32 f.b
    f.align (a.aligned 64)
    pure (.stiWWg g x a b)
  | 0x0a => do
    let g ← f.guard
    f.field (f.b = 0)
    let d ← f.dst7 64 f.d
    let a ← f.src7 32 f.a
    f.align (d.aligned 64)
    pure (.qpop g d a)
  | 0x0b => do
    let g ← f.guard
    f.field (f.d = 0)
    let a ← f.src7 32 f.a
    let b ← f.src7 64 f.b
    f.align (b.aligned 64)
    pure (.qpush g a b)
  | 0x0c => do
    let g ← f.guard
    f.field (f.d = 0)
    let a ← f.src7 64 f.a
    let b ← f.src7 32 f.b
    f.align (a.aligned 64)
    pure (.prefetch g a b)
  | 0x30 => do
    let g ← f.guard
    f.field (f.b < 3)
    let wd := f.b
    let k := BitVec.ofNat 32 f.w1
    let d ← f.dst7 (kWidth wd) f.d
    let a ← f.src7 64 f.a
    f.align (d.aligned (kWidth wd) && a.aligned 64)
    pure (.ldK g wd d a k)
  | 0x31 => do
    let g ← f.guard
    f.field (f.b < 3)
    let wd := f.b
    let k := BitVec.ofNat 32 f.w1
    let x ← f.src7 (kWidth wd) f.d
    let a ← f.src7 64 f.a
    f.align (x.aligned (kWidth wd) && a.aligned 64)
    pure (.stK g wd x a k)
  | _ => .error (unassignedOp op)

/-- CTL class (R177, R315 to R338): the one-word forms and the literal forms by OP6. -/
def decodeCtl (f : Fields) (op : Nat) : Except DecodeFault Instr :=
  match op with
  | 0x00 => do
    let g ← f.guard
    let off := signed 21 (f.d * 16384 + f.a * 128 + f.b)
    pure (.bra g off)
  | 0x01 => do
    f.noGuard
    let off := signed 21 (f.d * 16384 + f.a * 128 + f.b)
    pure (.jmp off)
  | 0x02 => do
    let g ← f.guard
    f.field (f.d = 0 ∧ f.b = 0)
    let a ← f.src7 64 f.a
    f.align (a.aligned 64)
    pure (.jmpi g a)
  | 0x03 => do
    let g ← f.guard
    let off := signed 21 (f.d * 16384 + f.a * 128 + f.b)
    pure (.call g off)
  | 0x04 => do
    let g ← f.guard
    f.field (f.d = 0 ∧ f.b = 0)
    let a ← f.src7 64 f.a
    f.align (a.aligned 64)
    pure (.calli g a)
  | 0x05 => do
    let g ← f.guard
    f.field (f.d = 0 ∧ f.a = 0 ∧ f.b = 0)
    pure (.ret g)
  | 0x06 => do
    let g ← f.guard
    f.field (f.d = 0 ∧ f.a = 0 ∧ f.b = 0)
    pure (.exit g)
  | 0x07 => do
    let g ← f.guard
    f.field (f.d = 0 ∧ f.a = 0 ∧ f.b = 0)
    pure (.nop g)
  | 0x08 => do
    let g ← f.guard
    let d ← f.dst7 32 f.d
    let a ← f.sIdx f.a [0, 2, 4, 8, 10, 12, 14]
    let b ← f.sIdx f.b [0, 2, 4, 8, 10, 12]
    pure (.dispatch g d a b)
  | 0x09 => do
    let g ← f.guard
    f.field (f.d = 0 ∧ f.b = 0)
    let a ← f.src7 32 f.a
    pure (.gpcadd g a)
  | 0x0a => do
    let g ← f.guard
    f.field (f.d = 0 ∧ f.b = 0)
    let a ← f.src7 32 f.a
    pure (.gpcset g a)
  | 0x0b => do
    f.field (f.loopN < 3)
    let n := f.loopN
    let k := f.loopK
    let off := signed 21 (f.d * 16384 + f.a * 128 + f.b)
    pure (.loop n k off)
  | 0x0c => do
    f.noGuard
    f.field (f.d = 0 ∧ f.a = 0 ∧ f.b = 0)
    pure (.barWg)
  | 0x0d => do
    f.noGuard
    f.field (f.d = 0 ∧ f.a = 0 ∧ f.b = 0)
    pure (.join)
  | 0x0e => do
    let g ← f.guard
    f.field (f.d = 0 ∧ f.b = 0)
    let a ← f.src7 32 f.a
    pure (.sleep g a)
  | 0x0f => do
    let g ← f.guard
    f.field (f.d = 0 ∧ f.b = 0)
    let a ← f.src7 64 f.a
    f.align (a.aligned 64)
    pure (.wait g a)
  | 0x10 => do
    if f.d = 0 then do
      let g ← f.guard
      f.field (f.d = 0)
      let a ← f.src7 32 f.a
      let b ← f.src7 32 f.b
      pure (.spawn g a b)
    else do
      let g ← f.guard
      f.field (f.d = 1)
      f.field (g.guarded)
      let a ← f.src7 32 f.a
      let b ← f.src7 32 f.b
      pure (.spawnTry g a b)
  | 0x11 => do
    let g ← f.guard
    f.field (f.d = 0 ∧ f.a = 0 ∧ f.b = 0)
    pure (.brk g)
  | 0x12 => do
    let g ← f.guard
    f.field (f.d = 0 ∧ f.a = 0 ∧ f.b = 0)
    pure (.yield g)
  | 0x13 => do
    let g ← f.guard
    f.field (f.d = 0 ∧ f.b = 0 ∧ f.a < 3)
    let m := f.a
    pure (.gmode g m)
  | _ => .error (unassignedOp op)

/-- SYS class (R178, R361, R362, R370 to R391): the one-word forms and the literal forms by OP6. -/
def decodeSys (f : Fields) (op : Nat) : Except DecodeFault Instr :=
  match op with
  | 0x00 => do
    let g ← f.guard
    f.field (f.b / 4 = 0)
    let q := f.b % 4
    let d ← f.dst7 64 f.d
    let a ← f.src7 256 f.a
    f.align (d.aligned 64 && a.aligned 256)
    pure (.engCopy g q d a)
  | 0x01 => do
    let g ← f.guard
    f.field (f.b / 4 = 1)
    let q := f.b % 4
    let d ← f.dst7 64 f.d
    let a ← f.src7 256 f.a
    f.align (d.aligned 64 && a.aligned 256)
    pure (.engColl g q d a)
  | 0x02 => do
    let g ← f.guard
    f.field (f.d = 0)
    let qs : QSel := ⟨f.b / 4, f.b % 4⟩
    f.field (qs.okPost)
    let a ← f.src7 32 f.a
    pure (.engPost g qs a)
  | 0x03 => do
    let g ← f.guard
    f.field (f.a = 0)
    let qs : QSel := ⟨f.b / 4, f.b % 4⟩
    f.field (qs.okSeq)
    let d ← f.dst7 64 f.d
    f.align (d.aligned 64)
    pure (.engSeq g qs d)
  | 0x04 => do
    let g ← f.guard
    f.field (f.d = 0)
    let a ← f.src7 64 f.a
    let b ← f.src7 32 f.b
    f.align (a.aligned 64)
    pure (.reelGo g a b)
  | 0x05 => do
    let g ← f.guard
    f.field (f.d < 3)
    let sc := f.d
    let a ← f.src7 64 f.a
    let b ← f.src7 32 f.b
    f.align (a.aligned 64)
    pure (.reelCondWrite g sc a b)
  | 0x06 => do
    let g ← f.guard
    f.field (f.b = 0 ∧ f.d < 128)
    let code := f.d
    let a ← f.src7 32 f.a
    pure (.svc g code a)
  | 0x07 => do
    let g ← f.guard
    f.field (f.a = 0 ∧ f.b = 0)
    let d ← f.dst7 32 f.d
    pure (.svcwait g d)
  | 0x08 => do
    let g ← f.guard
    let d ← f.dst7 64 f.d
    let a ← f.src7 64 f.a
    let b ← f.src7 32 f.b
    f.align (d.aligned 64 && a.aligned 64)
    pure (.trieStep g d a b)
  | 0x09 => do
    let g ← f.guard
    let d ← f.dst7 64 f.d
    let a ← f.src7 64 f.a
    let b ← f.src7 32 f.b
    f.align (d.aligned 64 && a.aligned 64)
    pure (.trieScan g d a b)
  | 0x0b => do
    let g ← f.guard
    let d ← f.dst7 64 f.d
    let a ← f.src7 64 f.a
    let b ← f.src7 32 f.b
    f.align (d.aligned 64 && a.aligned 64)
    pure (.trieChild g d a b)
  | 0x0a => do
    let g ← f.guard
    f.field (f.b = 0)
    let d ← f.dst7 32 f.d
    let a ← f.src7 64 f.a
    f.align (a.aligned 64)
    pure (.trieInfo g d a)
  | 0x0c => do
    let g ← f.guard
    f.field (f.a = 0 ∧ f.b = 0)
    let d ← f.dst7 64 f.d
    f.align (d.aligned 64)
    pure (.covpt g d)
  | 0x0d => do
    let g ← f.guard
    f.field (f.d = 0)
    let a ← f.src7 32 f.a
    let b ← f.src7 32 f.b
    pure (.covst g a b)
  | 0x0e => do
    let g ← f.guard
    f.field (f.d = 0 ∧ f.b = 0)
    let a ← f.src7 32 f.a
    pure (.mark g a)
  | 0x0f => do
    if f.a = 0 then do
      let g ← f.guard
      f.field (f.b = 0 ∧ f.a = 0)
      let d ← f.dst7 64 f.d
      f.align (d.aligned 64)
      pure (.ctrTick g d)
    else if f.a = 1 then do
      let g ← f.guard
      f.field (f.b = 0 ∧ f.a = 1)
      let d ← f.dst7 32 f.d
      pure (.ctrMode g d)
    else if f.a = 2 then do
      let g ← f.guard
      f.field (f.d = 0 ∧ f.a = 2)
      let b ← f.src7 32 f.b
      pure (.ctrSetmode g b)
    else if f.a = 3 then do
      let g ← f.guard
      f.field (f.b = 0 ∧ f.a = 3)
      let d ← f.dst7 32 f.d
      pure (.ctrVote g d)
    else do
      let g ← f.guard
      f.field (f.b = 0 ∧ 16 ≤ f.a ∧ f.a < 32)
      let k := f.a - 16
      let d ← f.dst7 64 f.d
      f.align (d.aligned 64)
      pure (.ctrWindsock g k d)
  -- trap has its code in D, as R385 and its worked word have it; the table of R178 puts it into A. DEDUCED, log entry 126.
  | 0x10 => do
    let g ← f.guard
    f.field (f.a = 0 ∧ f.b = 0 ∧ f.d < 32)
    let n := f.d
    pure (.trap g n)
  | 0x11 => do
    if f.a = 0 then do
      let g ← f.guard
      f.field (f.d = 0 ∧ f.b = 0 ∧ f.a = 0)
      pure (.tretRetry g)
    else do
      let g ← f.guard
      f.field (f.d = 0 ∧ f.b = 0 ∧ f.a = 1)
      pure (.tretSkip g)
  | _ => .error (unassignedOp op)

/-- INT class (R172, R183 to R204): the two-word L forms by XOP. -/
def decodeIntL (f : Fields) (op : Nat) : Except DecodeFault Instr :=
  match op with
  | 0x00 => do
    let g ← f.guard
    f.field (f.rm = 0 ∧ f.fl = 0)
    let ty ← f.tyIn f.ty [.i32, .n32, .i64, .n64]
    let d ← f.dst9 ty.opBits f.d9
    let a ← f.src9 ty.opBits f.a9
    let b ← f.src9 ty.opBits f.b9
    let c ← f.src9 ty.opBits f.c
    f.align (d.aligned ty.opBits && a.aligned ty.opBits && b.aligned ty.opBits && c.aligned ty.opBits)
    pure (.imad g ty d a b c)
  | 0x01 => do
    let g ← f.guard
    f.field (f.c = 0 ∧ f.rm = 0 ∧ f.fl = 0)
    let ty ← f.tyIn f.ty [.i32, .n32, .i64, .n64]
    let d ← f.dst9 ty.opBits f.d9
    let a ← f.src9 ty.opBits f.a9
    let b ← f.src9 ty.opBits f.b9
    f.align (d.aligned ty.opBits && a.aligned ty.opBits && b.aligned ty.opBits)
    pure (.idiv g ty d a b)
  | 0x02 => do
    let g ← f.guard
    f.field (f.c = 0 ∧ f.rm = 0 ∧ f.fl = 0)
    let ty ← f.tyIn f.ty [.i32, .n32, .i64, .n64]
    let d ← f.dst9 ty.opBits f.d9
    let a ← f.src9 ty.opBits f.a9
    let b ← f.src9 ty.opBits f.b9
    f.align (d.aligned ty.opBits && a.aligned ty.opBits && b.aligned ty.opBits)
    pure (.irem g ty d a b)
  | 0x03 => do
    let g ← f.guard
    f.field (f.c = 0 ∧ f.rm = 0)
    let ty ← f.tyIn f.ty [.i8, .i16, .i32, .i64, .n8, .n16, .n32, .n64]
    let cc ← f.icond
    let d ← f.pred f.d9
    let a ← f.src9 ty.opBits f.a9
    let b ← f.src9 ty.opBits f.b9
    f.align (a.aligned ty.opBits && b.aligned ty.opBits)
    pure (.icmp g ty cc d a b)
  | 0x04 => do
    let g ← f.guard
    f.field (f.rm = 0 ∧ f.fl = 0)
    let ty ← f.tyIn f.ty [.n32, .n64, .b128]
    let d ← f.dst9 ty.opBits f.d9
    let a ← f.src9 ty.opBits f.a9
    let b ← f.src9 ty.opBits f.b9
    let c ← f.pred f.c
    f.align (d.aligned ty.opBits && a.aligned ty.opBits && b.aligned ty.opBits)
    pure (.sel g ty d a b c)
  | 0x05 => do
    let g ← f.guard
    f.field (f.c = 0 ∧ f.rm = 0 ∧ f.fl < 5)
    let ty ← f.tyIn f.ty [.i32, .n32]
    let sh := f.fl
    let d ← f.dst9 64 f.d9
    let a ← f.src9 64 f.a9
    let b ← f.src9 32 f.b9
    f.align (d.aligned 64 && a.aligned 64)
    pure (.lea g ty sh d a b)
  | 0x06 => do
    let g ← f.guard
    f.field (f.rm = 0 ∧ f.fl = 0)
    let ty ← f.tyIn f.ty [.n32, .n64]
    let d ← f.dst9 ty.opBits f.d9
    let a ← f.src9 ty.opBits f.a9
    let b ← f.src9 ty.opBits f.b9
    let c ← f.pred f.c
    f.align (d.aligned ty.opBits && a.aligned ty.opBits && b.aligned ty.opBits)
    pure (.iaddc g ty d a b c)
  | 0x07 => do
    let g ← f.guard
    f.field (f.rm = 0 ∧ f.fl = 0)
    let ty ← f.tyIn f.ty [.n32, .n64]
    let d ← f.dst9 ty.opBits f.d9
    let a ← f.src9 ty.opBits f.a9
    let b ← f.src9 ty.opBits f.b9
    let c ← f.pred f.c
    f.align (d.aligned ty.opBits && a.aligned ty.opBits && b.aligned ty.opBits)
    pure (.isubb g ty d a b c)
  | 0x08 => do
    let g ← f.guard
    f.field (f.c = 0 ∧ f.rm = 0 ∧ f.fl = 0)
    let ty ← f.tyIn f.ty [.i32, .n32, .i64, .n64]
    let d ← f.dst9 ty.opBits f.d9
    let a ← f.src9 ty.opBits f.a9
    let b ← f.src9 32 f.b9
    f.align (d.aligned ty.opBits && a.aligned ty.opBits)
    pure (.bfe g ty d a b)
  | 0x09 => do
    let g ← f.guard
    f.field (f.rm = 0 ∧ f.fl = 0)
    let ty ← f.tyIn f.ty [.n32, .n64]
    let d ← f.dst9 ty.opBits f.d9
    let a ← f.src9 ty.opBits f.a9
    let b ← f.src9 ty.opBits f.b9
    let c ← f.src9 32 f.c
    f.align (d.aligned ty.opBits && a.aligned ty.opBits && b.aligned ty.opBits)
    pure (.bfi g ty d a b c)
  | 0x0a => do
    let g ← f.guard
    f.field (f.c = 0 ∧ f.rm = 0 ∧ f.fl < 2)
    let ty ← f.tyIn f.ty [.i8, .i16, .i32, .i64, .n8, .n16, .n32, .n64]
    let sat := f.flag 0
    let d ← f.dst9 ty.opBits f.d9
    let a ← f.src9 ty.opBits f.a9
    let b ← f.src9 ty.opBits f.b9
    f.align (d.aligned ty.opBits && a.aligned ty.opBits && b.aligned ty.opBits)
    pure (.iaddL g ty sat d a b)
  | 0x0b => do
    let g ← f.guard
    f.field (f.rm = 0 ∧ f.fl < 2)
    let ty ← f.tyIn f.ty [.n32, .n64]
    let right := f.flag 0
    let d ← f.dst9 ty.opBits f.d9
    let a ← f.src9 ty.opBits f.a9
    let b ← f.src9 ty.opBits f.b9
    let c ← f.src9 32 f.c
    f.align (d.aligned ty.opBits && a.aligned ty.opBits && b.aligned ty.opBits)
    pure (.shf g ty right d a b c)
  | 0x0c => do
    let g ← f.guard
    f.field (f.d9 = 0 ∧ f.b9 = 0 ∧ f.mod = 0 ∧ f.c < 4)
    let ix := f.c
    let a ← f.src9 32 f.a9
    pure (.setix g ix a)
  | 0x0d => do
    let g ← f.guard
    f.field (f.b9 = 0 ∧ f.rm = 0 ∧ f.fl = 0 ∧ f.c < 4)
    let ty ← f.tyIn f.ty [.n32, .n64]
    let ix := f.c
    let d ← f.dst9 ty.opBits f.d9
    let a ← f.src9 32 f.a9
    f.align (d.aligned ty.opBits)
    pure (.movx g ty ix d a)
  | 0x0e => do
    let g ← f.guard
    f.field (f.d9 = 0 ∧ f.rm = 0 ∧ f.fl = 0 ∧ f.c < 4)
    let ty ← f.tyIn f.ty [.n32, .n64]
    let ix := f.c
    let a ← f.src9 32 f.a9
    let b ← f.src9 ty.opBits f.b9
    f.align (b.aligned ty.opBits)
    pure (.stx g ty ix a b)
  | 0x0f => do
    let g ← f.guard
    f.field (f.b9 = 0 ∧ f.c = 0 ∧ f.mod = 0)
    let d ← f.pred f.d9
    let a ← f.src9 32 f.a9
    pure (.pmovTo g d a)
  | 0x10 => do
    let g ← f.guard
    f.field (f.b9 = 0 ∧ f.c = 0 ∧ f.mod = 0)
    let d ← f.dst9 32 f.d9
    let a ← f.pred f.a9
    pure (.pmovFrom g d a)
  | 0x11 => do
    let g ← f.guard
    f.field (f.b9 = 0 ∧ f.rm = 0 ∧ f.fl < 2 ∧ f.c < 16)
    let ty ← f.tyIn f.ty [.i8, .i16, .i32, .i64, .n8, .n16, .n32, .n64]
    let sty ← f.tyIn (f.c % 16) [.i8, .i16, .i32, .i64, .n8, .n16, .n32, .n64]
    let sat := f.flag 0
    let d ← f.dst9 ty.opBits f.d9
    let a ← f.src9 sty.opBits f.a9
    f.align (d.aligned ty.opBits && a.aligned sty.opBits)
    pure (.icvt g ty sty sat d a)
  | _ => .error (unassignedXop op)

/-- FLT class (R173, R205 to R223): the two-word L forms by XOP. -/
def decodeFltL (f : Fields) (op : Nat) : Except DecodeFault Instr :=
  match op with
  | 0x00 => do
    let g ← f.guard
    f.field (f.fl / 2 % 2 = 0)
    let ty ← f.tyIn f.ty [.f64, .f32, .f16, .bf16]
    let rm := rmOf f.rm
    let ftz := f.flag 0
    let pk := f.flag 2
    f.field ((!ftz || ty == .f32) && (!pk || (ty == .f16 || ty == .bf16)))
    let d ← f.dst9 ty.opBits f.d9
    let a ← f.src9 ty.opBits f.a9
    let b ← f.src9 ty.opBits f.b9
    let c ← f.src9 ty.opBits f.c
    f.align (d.aligned ty.opBits && a.aligned ty.opBits && b.aligned ty.opBits && c.aligned ty.opBits)
    pure (.fma g ty rm ftz pk d a b c)
  | 0x01 => do
    let g ← f.guard
    f.field (f.c = 0 ∧ f.fl / 2 % 2 = 0)
    let ty ← f.tyIn f.ty [.f64, .f32, .f16, .bf16]
    let rm := rmOf f.rm
    let ftz := f.flag 0
    let pk := f.flag 2
    f.field ((!ftz || ty == .f32) && (!pk || (ty == .f16 || ty == .bf16)))
    let d ← f.dst9 ty.opBits f.d9
    let a ← f.src9 ty.opBits f.a9
    let b ← f.src9 ty.opBits f.b9
    f.align (d.aligned ty.opBits && a.aligned ty.opBits && b.aligned ty.opBits)
    pure (.faddL g ty rm ftz pk d a b)
  | 0x02 => do
    let g ← f.guard
    f.field (f.c = 0 ∧ f.fl / 2 % 2 = 0)
    let ty ← f.tyIn f.ty [.f64, .f32, .f16, .bf16]
    let rm := rmOf f.rm
    let ftz := f.flag 0
    let pk := f.flag 2
    f.field ((!ftz || ty == .f32) && (!pk || (ty == .f16 || ty == .bf16)))
    let d ← f.dst9 ty.opBits f.d9
    let a ← f.src9 ty.opBits f.a9
    let b ← f.src9 ty.opBits f.b9
    f.align (d.aligned ty.opBits && a.aligned ty.opBits && b.aligned ty.opBits)
    pure (.fmulL g ty rm ftz pk d a b)
  | 0x03 => do
    let g ← f.guard
    f.field (f.c = 0 ∧ f.fl < 2)
    let ty ← f.tyIn f.ty [.f64, .f32]
    let rm := rmOf f.rm
    let ftz := f.flag 0
    f.field ((!ftz || ty == .f32))
    let d ← f.dst9 ty.opBits f.d9
    let a ← f.src9 ty.opBits f.a9
    let b ← f.src9 ty.opBits f.b9
    f.align (d.aligned ty.opBits && a.aligned ty.opBits && b.aligned ty.opBits)
    pure (.fdiv g ty rm ftz d a b)
  | 0x04 => do
    let g ← f.guard
    f.field (f.b9 = 0 ∧ f.c = 0 ∧ f.fl < 2)
    let ty ← f.tyIn f.ty [.f64, .f32]
    let rm := rmOf f.rm
    let ftz := f.flag 0
    f.field ((!ftz || ty == .f32))
    let d ← f.dst9 ty.opBits f.d9
    let a ← f.src9 ty.opBits f.a9
    f.align (d.aligned ty.opBits && a.aligned ty.opBits)
    pure (.fsqrt g ty rm ftz d a)
  | 0x05 => do
    let g ← f.guard
    f.field (f.c = 0 ∧ f.rm = 0)
    let ty ← f.tyIn f.ty [.f64, .f32, .f16, .bf16]
    let cc := fcondOf f.fl
    let d ← f.pred f.d9
    let a ← f.src9 ty.opBits f.a9
    let b ← f.src9 ty.opBits f.b9
    f.align (a.aligned ty.opBits && b.aligned ty.opBits)
    pure (.fcmp g ty cc d a b)
  | 0x06 => do
    let g ← f.guard
    f.field (f.b9 = 0 ∧ (f.fl = 0 ∨ f.fl = 2) ∧ f.c < 16)
    let ty ← f.tyIn f.ty [.f64, .f32, .f16, .bf16, .e4m3, .e5m2, .e2m1]
    let sty ← f.tyIn (f.c % 16) [.f64, .f32, .f16, .bf16, .e4m3, .e5m2, .e2m1]
    let rm := rmOf f.rm
    let sat := f.flag 1
    f.field ((ty != sty))
    let d ← f.dst9 ty.opBits f.d9
    let a ← f.src9 sty.opBits f.a9
    f.align (d.aligned ty.opBits && a.aligned sty.opBits)
    pure (.fcvt g ty sty rm sat d a)
  | 0x07 => do
    let g ← f.guard
    f.field (f.b9 = 0 ∧ f.c = 0 ∧ f.fl = 0)
    let ty ← f.tyIn f.ty [.f64, .f32, .f16, .bf16]
    let rm := rmOf f.rm
    let d ← f.dst9 ty.opBits f.d9
    let a ← f.src9 ty.opBits f.a9
    f.align (d.aligned ty.opBits && a.aligned ty.opBits)
    pure (.frnd g ty rm d a)
  | 0x08 => do
    let g ← f.guard
    f.field (f.b9 = 0 ∧ f.fl = 0 ∧ f.c < 16)
    let ty ← f.tyIn f.ty [.i8, .i16, .i32, .i64, .n8, .n16, .n32, .n64]
    let sty ← f.tyIn (f.c % 16) [.f64, .f32, .f16, .bf16]
    let rm := rmOf f.rm
    let d ← f.dst9 ty.opBits f.d9
    let a ← f.src9 sty.opBits f.a9
    f.align (d.aligned ty.opBits && a.aligned sty.opBits)
    pure (.fcvti g ty sty rm d a)
  | 0x09 => do
    let g ← f.guard
    f.field (f.b9 = 0 ∧ f.fl = 0 ∧ f.c < 16)
    let ty ← f.tyIn f.ty [.f64, .f32, .f16, .bf16]
    let sty ← f.tyIn (f.c % 16) [.i8, .i16, .i32, .i64, .n8, .n16, .n32, .n64]
    let rm := rmOf f.rm
    let d ← f.dst9 ty.opBits f.d9
    let a ← f.src9 sty.opBits f.a9
    f.align (d.aligned ty.opBits && a.aligned sty.opBits)
    pure (.icvtf g ty sty rm d a)
  | 0x0a => do
    let g ← f.guard
    f.field (f.c = 0 ∧ f.fl = 0)
    let ty ← f.tyIn f.ty [.f64, .f32]
    let rm := rmOf f.rm
    let d ← f.dst9 ty.opBits f.d9
    let a ← f.src9 ty.opBits f.a9
    let b ← f.src9 32 f.b9
    f.align (d.aligned ty.opBits && a.aligned ty.opBits)
    pure (.fscale g ty rm d a b)
  | 0x0b => do
    let g ← f.guard
    f.field (f.b9 = 0 ∧ f.rm = 0 ∧ f.fl = 0)
    let ty ← f.tyIn f.ty [.f64, .f32]
    let d ← f.dst9 ty.opBits f.d9
    let a ← f.src9 ty.opBits f.a9
    let c ← f.dst9 32 f.c
    f.align (d.aligned ty.opBits && a.aligned ty.opBits)
    pure (.ffrexp g ty d a c)
  | 0x0c => do
    let g ← f.guard
    f.field ((f.fl = 0 ∨ f.fl = 2) ∧ f.c < 16)
    let ty ← f.tyIn f.ty [.e4m3, .e5m2, .e2m1]
    let sty ← f.tyIn (f.c % 16) [.f32, .bf16]
    let rm := rmOf f.rm
    let sat := f.flag 1
    let d ← f.dst9 32 f.d9
    let a ← f.src9 (packBits ty sty) f.a9
    let b ← f.src9 32 f.b9
    f.align (a.aligned (packBits ty sty))
    pure (.fpack g ty sty rm sat d a b)
  | 0x0d => do
    let g ← f.guard
    f.field (f.rm = 0 ∧ f.fl = 0 ∧ f.c < 16)
    let ty ← f.tyIn f.ty [.f32, .bf16]
    let sty ← f.tyIn (f.c % 16) [.e4m3, .e5m2, .e2m1]
    let d ← f.dst9 (unpackBits ty sty) f.d9
    let a ← f.src9 32 f.a9
    let b ← f.src9 32 f.b9
    f.align (d.aligned (unpackBits ty sty))
    pure (.funpack g ty sty d a b)
  | 0x0e => do
    let g ← f.guard
    f.field (f.fl = 0)
    let ty ← f.tyIn f.ty [.f16, .bf16]
    let rm := rmOf f.rm
    let d ← f.dst9 32 f.d9
    let a ← f.src9 32 f.a9
    let b ← f.src9 32 f.b9
    let c ← f.src9 32 f.c
    pure (.fdot2 g ty rm d a b c)
  | _ => .error (unassignedXop op)

/-- XL class (R174, R224 to R250): the two-word L forms by XOP. -/
def decodeXlL (f : Fields) (op : Nat) : Except DecodeFault Instr :=
  match op with
  | 0x00 => do
    let g ← f.guard
    f.field (f.b9 = 0 ∧ f.c = 0 ∧ f.rm = 0)
    let ty ← f.tyIn f.ty [.n8, .n16, .n32]
    let k ← f.ways
    let d ← f.dstGroup k
    let a ← f.srcGroup k
    pure (.zip g ty k d a)
  | 0x01 => do
    let g ← f.guard
    f.field (f.b9 = 0 ∧ f.c = 0 ∧ f.rm = 0)
    let ty ← f.tyIn f.ty [.n8, .n16, .n32]
    let k ← f.ways
    let d ← f.dstGroup k
    let a ← f.srcGroup k
    pure (.unzip g ty k d a)
  | 0x02 => do
    let g ← f.guard
    f.field (f.d9 = 0 ∧ f.a9 = 0 ∧ f.b9 = 0 ∧ f.rm = 0 ∧ f.fl = 0 ∧ f.c < 3)
    let ty ← f.tyIn f.ty [.n32, .n64]
    let n := f.c
    pure (.bind g ty n)
  | 0x03 => do
    let g ← f.guard
    f.field (f.d9 = 0 ∧ f.a9 = 0 ∧ f.b9 = 0 ∧ f.c = 0 ∧ f.mod = 0)
    pure (.unbind g)
  | 0x04 => do
    let g ← f.guard
    f.field (f.c = 0 ∧ f.rm = 0 ∧ f.fl = 0 ∧ tyOf f.ty = .f64)
    let d ← f.dst9 32 f.d9
    let a ← f.src9 64 f.a9
    let b ← f.src9 64 f.b9
    f.align (a.aligned 64 && b.aligned 64)
    pure (.wmacF64 g d a b)
  | 0x05 => do
    let g ← f.guard
    f.field (f.b9 = 0 ∧ f.c = 0 ∧ f.fl = 0 ∧ tyOf f.ty = .f64)
    let rm := rmOf f.rm
    let d ← f.dst9 64 f.d9
    let a ← f.src9 32 f.a9
    f.align (d.aligned 64)
    pure (.wnorm g rm d a)
  | 0x06 => do
    let g ← f.guard
    f.field (f.d9 = 0 ∧ f.b9 = 0 ∧ f.mod = 0)
    let c := signed 9 f.c
    let a ← f.src9 32 f.a9
    pure (.wwin g a c)
  | 0x07 => do
    let g ← f.guard
    f.field (f.b9 = 0 ∧ f.fl = 0)
    let op ← f.redOp
    let ty ← f.tyIn f.ty redTys
    let rm := rmOf f.rm
    f.field (redOk op ty rm)
    let d ← f.dst9 ty.opBits f.d9
    let a ← f.src9 ty.opBits f.a9
    f.align (d.aligned ty.opBits && a.aligned ty.opBits)
    pure (.red g op ty rm d a)
  | 0x08 => do
    let g ← f.guard
    f.field (f.b9 = 0 ∧ f.fl < 2)
    let op ← f.redOp
    let ty ← f.tyIn f.ty redTys
    let rm := rmOf f.rm
    let excl := f.flag 0
    f.field (redOk op ty rm)
    let d ← f.dst9 ty.opBits f.d9
    let a ← f.src9 ty.opBits f.a9
    f.align (d.aligned ty.opBits && a.aligned ty.opBits)
    pure (.scan g op ty rm excl d a)
  | _ => .error (unassignedXop op)

/-- MEM class (R175, R251 to R274): the two-word L forms by XOP. -/
def decodeMemL (f : Fields) (op : Nat) : Except DecodeFault Instr :=
  match op with
  | 0x00 => do
    let g ← f.guard
    f.field (f.c = 0 ∧ f.rm = 0 ∧ f.fl = 0)
    let ty ← f.tyIn f.ty [.i8, .n8, .i16, .n16, .n32, .n64, .b128]
    let d ← f.dst9 ty.opBits f.d9
    let a ← f.src9 64 f.a9
    let b ← f.src9 32 f.b9
    f.align (d.aligned ty.opBits && a.aligned 64)
    pure (.ldL g ty d a b)
  | 0x01 => do
    let g ← f.guard
    f.field (f.c = 0 ∧ f.rm = 0 ∧ f.fl = 0)
    let ty ← f.tyIn f.ty [.n8, .n16, .n32, .n64, .b128]
    let x ← f.src9 ty.opBits f.d9
    let a ← f.src9 64 f.a9
    let b ← f.src9 32 f.b9
    f.align (x.aligned ty.opBits && a.aligned 64)
    pure (.stL g ty x a b)
  | 0x02 => do
    let g ← f.guard
    let ty ← f.tyIn f.ty [.n32, .n64]
    let sc ← f.scope false
    let ord ← f.ord [.relaxed, .acq, .sc]
    let d ← f.dst9 ty.opBits f.d9
    let a ← f.src9 64 f.a9
    let b ← f.src9 32 f.b9
    f.align (d.aligned ty.opBits && a.aligned 64)
    pure (.ldi g ty sc ord d a b)
  | 0x03 => do
    let g ← f.guard
    let ty ← f.tyIn f.ty [.n32, .n64]
    let sc ← f.scope false
    let ord ← f.ord [.relaxed, .rel, .sc]
    let x ← f.src9 ty.opBits f.d9
    let a ← f.src9 64 f.a9
    let b ← f.src9 32 f.b9
    f.align (x.aligned ty.opBits && a.aligned 64)
    pure (.sti g ty sc ord x a b)
  | 0x04 => do
    let g ← f.guard
    let op ← f.atomOp
    let ty ← f.tyIn f.ty [.i32, .n32, .i64, .n64]
    let sc ← f.scope true
    let ord ← f.ord [.relaxed, .acq, .rel, .acqrel, .sc]
    let d ← f.dst9 ty.opBits f.d9
    let a ← f.src9 64 f.a9
    let b ← f.src9 ty.opBits f.b9
    f.align (d.aligned ty.opBits && a.aligned 64 && b.aligned ty.opBits)
    pure (.atom g op ty sc ord d a b)
  | 0x05 => do
    let g ← f.guard
    let ty ← f.tyIn f.ty [.i32, .n32, .i64, .n64]
    let sc ← f.scope false
    let ord ← f.ord [.relaxed, .acq, .rel, .acqrel, .sc]
    let d ← f.dst9 ty.opBits f.d9
    let a ← f.src9 64 f.a9
    let b ← f.src9 (2 * ty.opBits) f.b9
    f.align (d.aligned ty.opBits && a.aligned 64 && b.aligned (2 * ty.opBits))
    pure (.atomcas g ty sc ord d a b)
  | 0x06 => do
    let g ← f.guard
    let op ← f.atomFOp
    let ty ← f.tyIn f.ty [.f64, .f32]
    let sc ← f.scope true
    let ord ← f.ord [.relaxed, .acq, .rel, .acqrel, .sc]
    let d ← f.dst9 ty.opBits f.d9
    let a ← f.src9 64 f.a9
    let b ← f.src9 ty.opBits f.b9
    f.align (d.aligned ty.opBits && a.aligned 64 && b.aligned ty.opBits)
    pure (.atomf g op ty sc ord d a b)
  | 0x07 => do
    f.noGuard
    f.field (f.d9 = 0 ∧ f.a9 = 0 ∧ f.b9 = 0 ∧ f.ty = 0 ∧ f.fl = 0)
    let sc ← f.scope false
    pure (.phase sc)
  | 0x08 => do
    let g ← f.guard
    f.field (f.d9 = 0 ∧ f.a9 = 0 ∧ f.b9 = 0 ∧ f.ty = 0)
    let sc ← f.scope false
    let ord ← f.ord [.acq, .rel, .acqrel, .sc]
    pure (.fence g sc ord)
  | 0x09 => do
    let g ← f.guard
    f.field (f.d9 = 0 ∧ f.mod = 0 ∧ f.c < 128)
    let t := f.c
    let a ← f.src9 64 f.a9
    let b ← f.src9 32 f.b9
    f.align (a.aligned 64)
    pure (.tfill g t a b)
  | 0x0a => do
    let g ← f.guard
    f.field (f.d9 = 0 ∧ f.mod = 0 ∧ f.c < 128)
    let t := f.c
    let a ← f.src9 64 f.a9
    let b ← f.src9 32 f.b9
    f.align (a.aligned 64)
    pure (.tdrain g t a b)
  | 0x0b => do
    let g ← f.guard
    f.field (f.d9 = 0 ∧ f.a9 = 0 ∧ f.b9 = 0 ∧ f.mod = 0 ∧ f.c < 128)
    let t := f.c
    pure (.twait g t)
  | 0x0c => do
    let g ← f.guard
    f.field (f.a9 = 0 ∧ f.b9 = 0 ∧ f.mod = 0 ∧ f.c < 128)
    let t := f.c
    let d ← f.dst9 32 f.d9
    pure (.tstate g t d)
  | 0x0d => do
    let g ← f.guard
    f.field (f.d9 = 0 ∧ f.a9 = 0 ∧ f.b9 = 0 ∧ f.mod = 0 ∧ f.c < 128)
    let t := f.c
    pure (.tfree g t)
  | 0x0e => do
    let g ← f.guard
    f.field (f.c = 0 ∧ f.ty = 0 ∧ f.rm = 0 ∧ f.fl < 2)
    let tr := f.flag 0
    let d ← f.dst9 64 f.d9
    let a ← f.src9 32 f.a9
    let b ← f.src9 64 f.b9
    f.align (d.aligned 64 && b.aligned 64)
    pure (.halloc g tr d a b)
  | 0x0f => do
    let g ← f.guard
    f.field (f.d9 = 0 ∧ f.c = 0 ∧ f.mod = 0)
    let a ← f.src9 64 f.a9
    let b ← f.src9 64 f.b9
    f.align (a.aligned 64 && b.aligned 64)
    pure (.hfree g a b)
  | 0x10 => do
    let g ← f.guard
    f.field (f.d9 = 0 ∧ f.c = 0 ∧ f.ty = 0 ∧ f.rm = 0 ∧ f.fl < 2)
    let l2 := f.flag 0
    let a ← f.src9 64 f.a9
    let b ← f.src9 32 f.b9
    f.align (a.aligned 64)
    pure (.cinv g l2 a b)
  | 0x11 => do
    let g ← f.guard
    f.field (f.d9 = 0 ∧ f.c = 0 ∧ f.ty = 0 ∧ f.rm = 0 ∧ f.fl < 2)
    let l2 := f.flag 0
    let a ← f.src9 64 f.a9
    let b ← f.src9 32 f.b9
    f.align (a.aligned 64)
    pure (.cwb g l2 a b)
  | _ => .error (unassignedXop op)

/-- MAT class (R176, R275 to R295): the two-word L forms by XOP. -/
def decodeMatL (f : Fields) (op : Nat) : Except DecodeFault Instr :=
  match op with
  | 0x00 => do
    let g ← f.guard
    f.field (f.rm = 0 ∧ f.fl = 0)
    let ty ← f.tyIn f.ty [.bf16, .f16, .e4m3, .e5m2]
    let x ← f.src9 32 f.d9
    let ma ← f.map f.a9
    let mb ← f.map f.b9
    let c ← f.src9 32 f.c
    pure (.mma g ty x ma mb c)
  | 0x01 => do
    let g ← f.guard
    f.field (f.rm < 4 ∧ f.fl < 8)
    let ty ← f.tyIn f.ty [.e4m3, .e5m2, .e2m1]
    let bs := f.rm
    let k := f.fl
    let x ← f.src9 32 f.d9
    let ma ← f.map f.a9
    let mb ← f.map f.b9
    let c ← f.src9 64 f.c
    f.align (c.aligned 64)
    pure (.mmasc g ty bs k x ma mb c)
  | 0x02 => do
    let g ← f.guard
    f.field (f.c = 0 ∧ f.rm = 0 ∧ f.fl = 0)
    let ty ← f.tyIn f.ty [.f32, .bf16]
    let d ← f.dst9 32 f.d9
    let a ← f.src9 32 f.a9
    let b ← f.src9 32 f.b9
    pure (.accld g ty d a b)
  | 0x03 => do
    let g ← f.guard
    f.field (f.c = 0 ∧ f.rm = 0 ∧ f.fl = 0 ∧ tyOf f.ty = .f32)
    let x ← f.src9 32 f.d9
    let a ← f.src9 32 f.a9
    let b ← f.src9 32 f.b9
    pure (.accst g x a b)
  | 0x04 => do
    let g ← f.guard
    f.field (f.d9 = 0 ∧ f.c = 0 ∧ f.mod = 0)
    let a ← f.src9 32 f.a9
    let b ← f.src9 32 f.b9
    pure (.acczero g a b)
  | 0x05 => do
    let g ← f.guard
    f.field (f.d9 = 0 ∧ f.c = 0 ∧ f.mod = 0)
    let a ← f.src9 32 f.a9
    let b ← f.src9 32 f.b9
    pure (.accwin g a b)
  | 0x06 => do
    let g ← f.guard
    f.field (f.b9 = 0 ∧ f.c = 0 ∧ f.mod = 0)
    let m ← f.map f.d9
    let a ← f.src9 64 f.a9
    f.align (a.aligned 64)
    pure (.opmap g m a)
  | 0x07 => do
    let g ← f.guard
    f.field (f.d9 = 0 ∧ f.a9 = 0 ∧ f.b9 = 0 ∧ f.c = 0 ∧ f.mod = 0)
    pure (.mwait g)
  | 0x08 => do
    let g ← f.guard
    f.field (f.rm = 0 ∧ f.fl = 0 ∧ tyOf f.ty = .f32)
    let d ← f.dst9 32 f.d9
    let a ← f.src9 32 f.a9
    let b ← f.src9 32 f.b9
    let c ← f.src9 32 f.c
    pure (.accldBand g d a b c)
  | 0x09 => do
    if f.fl = 0 then do
      let g ← f.guard
      f.field (f.b9 = 0 ∧ f.ty = 0 ∧ f.rm = 0 ∧ f.fl = 0 ∧ f.c < 8)
      let q := f.c
      let d ← f.dst9 32 f.d9
      let a ← f.src9 32 f.a9
      pure (.mmaprogRd g q d a)
    else do
      let g ← f.guard
      f.field (f.d9 = 0 ∧ f.ty = 0 ∧ f.rm = 0 ∧ f.fl = 1 ∧ f.c < 8)
      let q := f.c
      let a ← f.src9 32 f.a9
      let b ← f.src9 32 f.b9
      pure (.mmaprogWr g q a b)
  | _ => .error (unassignedXop op)

/-- SYS class (R178, R361, R362, R370 to R391): the two-word L forms by XOP. -/
def decodeSysL (f : Fields) (op : Nat) : Except DecodeFault Instr :=
  match op with
  | 0x00 => do
    let g ← f.guard
    f.field (f.b9 = 0 ∧ f.c = 0 ∧ f.rm = 0 ∧ f.fl = 0)
    let ty ← f.tyIn f.ty [.n32, .n64]
    let d ← f.dst9 ty.opBits f.d9
    let a ← f.src9 32 f.a9
    f.align (d.aligned ty.opBits)
    pure (.sysr g ty d a)
  | 0x01 => do
    let g ← f.guard
    f.field (f.d9 = 0 ∧ f.c = 0 ∧ f.rm = 0 ∧ f.fl = 0)
    let ty ← f.tyIn f.ty [.n32, .n64]
    let a ← f.src9 32 f.a9
    let b ← f.src9 ty.opBits f.b9
    f.align (b.aligned ty.opBits)
    pure (.sysw g ty a b)
  | 0x02 => do
    let g ← f.guard
    f.field (f.d9 = 0 ∧ f.b9 = 0 ∧ f.mod = 0 ∧ f.c < 512)
    let tgt := f.c
    let a ← f.src9 32 f.a9
    pure (.msig g tgt a)
  | 0x03 => do
    let g ← f.guard
    f.field (f.d9 = 0 ∧ f.mod = 0 ∧ f.c < 512)
    let tgt := f.c
    let a ← f.src9 64 f.a9
    let b ← f.src9 32 f.b9
    f.align (a.aligned 64)
    pure (.mpost g tgt a b)
  | 0x04 => do
    if f.fl = 0 then do
      let g ← f.guard
      f.field (f.d9 = 0 ∧ f.c = 0 ∧ f.ty = 0 ∧ f.rm = 0 ∧ f.fl = 0)
      let a ← f.src9 64 f.a9
      let b ← f.src9 32 f.b9
      f.align (a.aligned 64)
      pure (.tlbinvPage g a b)
    else if f.fl = 1 then do
      let g ← f.guard
      f.field (f.d9 = 0 ∧ f.c = 0 ∧ f.ty = 0 ∧ f.rm = 0 ∧ f.fl = 1)
      let a ← f.src9 64 f.a9
      let b ← f.src9 32 f.b9
      f.align (a.aligned 64)
      pure (.tlbinvAsid g a b)
    else do
      let g ← f.guard
      f.field (f.d9 = 0 ∧ f.c = 0 ∧ f.ty = 0 ∧ f.rm = 0 ∧ f.fl = 2)
      let a ← f.src9 64 f.a9
      let b ← f.src9 32 f.b9
      f.align (a.aligned 64)
      pure (.tlbinvAll g a b)
  | 0x05 => do
    let g ← f.guard
    f.field (f.d9 = 0 ∧ f.c = 0 ∧ f.mod = 0)
    let a ← f.src9 64 f.a9
    let b ← f.src9 32 f.b9
    f.align (a.aligned 64)
    pure (.cflush g a b)
  | 0x06 => do
    let g ← f.guard
    f.field (f.b9 = 0 ∧ f.c = 0 ∧ f.mod = 0)
    let d ← f.dst9 32 f.d9
    let a ← f.src9 32 f.a9
    pure (.fltrd g d a)
  | _ => .error (unassignedXop op)

/-- Is this a privileged form: the L forms of the SYS class, and mmaprog (R180)? -/
def privilegedForm (cls : Cls) (op xop : Nat) : Bool :=
  op == 0x3f && (cls == .sys || (cls == .mat && xop == 0x09))

/-- The instruction of one slot from its words, once it is known to end within its clause (R180). In the CTL class OP6 0x3F is another class's
opcode, whatever its XOP (R315). -/
def decodeFields (priv : Bool) (f : Fields) : Except DecodeFault Instr :=
  if f.op = 0x3f && f.cls == .ctl then .error .otherClass
  else if f.op = 0x3f then
    if xopAssigned f.cls f.xop then
      if privilegedForm f.cls f.op f.xop && !priv then .error .privileged
      else match f.cls with
        | .int => decodeIntL f f.xop
        | .flt => decodeFltL f f.xop
        | .xl => decodeXlL f f.xop
        | .mem => decodeMemL f f.xop
        | .mat => decodeMatL f f.xop
        | .sys => decodeSysL f f.xop
        | .ctl => .error (unassignedXop f.xop)
    else .error (unassignedXop f.xop)
  else if opAssigned f.cls f.op then
    match f.cls with
    | .int => decodeInt f f.op
    | .flt => decodeFlt f f.op
    | .xl => decodeXl f f.op
    | .mem => decodeMem f f.op
    | .ctl => decodeCtl f f.op
    | .sys => decodeSys f f.op
    | .mat => .error (unassignedOp f.op)
  else .error (unassignedOp f.op)

/-- How many words the instruction that begins with this word has: one in the S form, two in the K and L forms
(R167). -/
def wordCount (w0 : Nat) : Nat := if w0 / 0x200000 % 64 < 0x30 then 1 else 2

/-- The instruction at the head of the words that are left of a clause, and the number of its words (R164, R180). -/
def decodeWords (cls : Cls) (priv : Bool) (ws : List (BitVec 32)) : Except DecodeFault (Instr × Nat) :=
  match ws with
  | [] => .error .tooLong
  | w0 :: rest =>
    if wordCount w0.toNat = 1 then (decodeFields priv ⟨cls, w0.toNat, 0⟩).map (·, 1)
    else match rest with
      | [] => .error .tooLong
      | w1 :: _ => (decodeFields priv ⟨cls, w0.toNat, w1.toNat⟩).map (·, 2)

/-- A clause header (R163). -/
structure Header where
  cls  : Cls
  cnt  : Nat
  wait : Nat
  swm  : Nat
  deriving DecidableEq, Repr

/-- The class of a CLASS code (R163). -/
def classOf : Nat → Option Cls
  | 0 => some .int | 1 => some .flt | 2 => some .xl | 3 => some .mem | 4 => some .mat | 5 => some .ctl | 6 => some .sys
  | _ => none

/-- The CLASS code of a class (R163). -/
def Cls.code : Cls → Nat
  | .int => 0 | .flt => 1 | .xl => 2 | .mem => 3 | .mat => 4 | .ctl => 5 | .sys => 6

/-- The header of a clause, none where it raises 0x003 (R164). -/
def decodeHeader (h : BitVec 32) : Option Header :=
  let n := h.toNat
  match classOf (n / 16 % 8) with
  | none => none
  | some c =>
    if n % 16 = 0 ∨ n / 128 % 2 ≠ 0 ∨ n / 0x4000 % 8 ≠ 0 ∨ n / 0x20000 / 2 ^ (n % 16) ≠ 0 then none
    else some ⟨c, n % 16, n / 256 % 64, n / 0x20000⟩

/-- The word of a header (R163). -/
def encodeHeader (h : Header) : BitVec 32 :=
  BitVec.ofNat 32 (h.swm * 0x20000 + h.wait * 256 + h.cls.code * 16 + h.cnt)

/-- A one-word instruction, and word 0 of the others (R167). -/
def wordS (g op d a b : Nat) : BitVec 32 :=
  BitVec.ofNat 32 (g * 0x8000000 + op * 0x200000 + d * 0x4000 + a * 0x80 + b)

/-- The two words of the L form (R167). -/
def wordsL (g xop d a b c ty rm fl : Nat) : List (BitVec 32) :=
  [wordS g 0x3f (d % 128) (a % 128) (b % 128),
   BitVec.ofNat 32 (xop * 0x1000000 + c * 0x8000 + d / 128 * 0x2000 + a / 128 * 0x800 + b / 128 * 0x200 + ty * 0x20
     + rm * 8 + fl)]

/-- A word with an offset in D:A:B (R177). -/
def offWord (g op : Nat) (off : Int) : BitVec 32 :=
  BitVec.ofNat 32 (g * 0x8000000 + op * 0x200000 + unsigned 21 off)

/-- The word of loop (R177). -/
def loopWord (n k : Nat) (off : Int) : BitVec 32 :=
  BitVec.ofNat 32 (n * 0x40000000 + k * 0x8000000 + 0x0b * 0x200000 + unsigned 21 off)

/-- The words of a well-formed instruction of a program and the class of its clause (R167 to R178); none
for the operations of the module, which have no encoding. -/
def encode : Instr → Option (Cls × List (BitVec 32))
  | .iaddI32 g d a b => some (.int, [wordS g.code 0x00 (d.code7) (a.code7) (b.code7)])
  | .isubI32 g d a b => some (.int, [wordS g.code 0x01 (d.code7) (a.code7) (b.code7)])
  | .iaddI64 g d a b => some (.int, [wordS g.code 0x02 (d.code7) (a.code7) (b.code7)])
  | .isubI64 g d a b => some (.int, [wordS g.code 0x03 (d.code7) (a.code7) (b.code7)])
  | .imulI32 g d a b => some (.int, [wordS g.code 0x04 (d.code7) (a.code7) (b.code7)])
  | .imulhiI32 g d a b => some (.int, [wordS g.code 0x05 (d.code7) (a.code7) (b.code7)])
  | .imulhiN32 g d a b => some (.int, [wordS g.code 0x06 (d.code7) (a.code7) (b.code7)])
  | .iminI32 g d a b => some (.int, [wordS g.code 0x07 (d.code7) (a.code7) (b.code7)])
  | .imaxI32 g d a b => some (.int, [wordS g.code 0x08 (d.code7) (a.code7) (b.code7)])
  | .iminN32 g d a b => some (.int, [wordS g.code 0x09 (d.code7) (a.code7) (b.code7)])
  | .imaxN32 g d a b => some (.int, [wordS g.code 0x0a (d.code7) (a.code7) (b.code7)])
  | .andB32 g d a b => some (.int, [wordS g.code 0x0b (d.code7) (a.code7) (b.code7)])
  | .orB32 g d a b => some (.int, [wordS g.code 0x0c (d.code7) (a.code7) (b.code7)])
  | .xorB32 g d a b => some (.int, [wordS g.code 0x0d (d.code7) (a.code7) (b.code7)])
  | .andnB32 g d a b => some (.int, [wordS g.code 0x0e (d.code7) (a.code7) (b.code7)])
  | .shl g d a b => some (.int, [wordS g.code 0x0f (d.code7) (a.code7) (b.code7)])
  | .shr g d a b => some (.int, [wordS g.code 0x10 (d.code7) (a.code7) (b.code7)])
  | .sar g d a b => some (.int, [wordS g.code 0x11 (d.code7) (a.code7) (b.code7)])
  | .rotl g d a b => some (.int, [wordS g.code 0x12 (d.code7) (a.code7) (b.code7)])
  | .popc g d a => some (.int, [wordS g.code 0x13 (d.code7) (a.code7) 0])
  | .clz g d a => some (.int, [wordS g.code 0x14 (d.code7) (a.code7) 0])
  | .ctz g d a => some (.int, [wordS g.code 0x15 (d.code7) (a.code7) 0])
  | .brev g d a => some (.int, [wordS g.code 0x16 (d.code7) (a.code7) 0])
  | .iabsI32 g d a => some (.int, [wordS g.code 0x17 (d.code7) (a.code7) 0])
  | .inegI32 g d a => some (.int, [wordS g.code 0x18 (d.code7) (a.code7) 0])
  | .mov g d a => some (.int, [wordS g.code 0x19 (d.code7) (a.code7) 0])
  | .pand g d a b => some (.int, [wordS g.code 0x1a d a b])
  | .por g d a b => some (.int, [wordS g.code 0x1b d a b])
  | .pxor g d a b => some (.int, [wordS g.code 0x1c d a b])
  | .pnot g d a => some (.int, [wordS g.code 0x1d d a 0])
  | .movi g d k => some (.int, [wordS g.code 0x30 (d.code7) 0 0, BitVec.ofNat 32 (k.toNat)])
  | .iaddi g d a k => some (.int, [wordS g.code 0x31 (d.code7) (a.code7) 0, BitVec.ofNat 32 (k.toNat)])
  | .andi g d a k => some (.int, [wordS g.code 0x32 (d.code7) (a.code7) 0, BitVec.ofNat 32 (k.toNat)])
  | .ori g d a k => some (.int, [wordS g.code 0x33 (d.code7) (a.code7) 0, BitVec.ofNat 32 (k.toNat)])
  | .xori g d a k => some (.int, [wordS g.code 0x34 (d.code7) (a.code7) 0, BitVec.ofNat 32 (k.toNat)])
  | .imad g ty d a b c => some (.int, wordsL g.code 0x00 (d.code9) (a.code9) (b.code9) (c.code9) ty.code 0 0)
  | .idiv g ty d a b => some (.int, wordsL g.code 0x01 (d.code9) (a.code9) (b.code9) 0 ty.code 0 0)
  | .irem g ty d a b => some (.int, wordsL g.code 0x02 (d.code9) (a.code9) (b.code9) 0 ty.code 0 0)
  | .icmp g ty cc d a b => some (.int, wordsL g.code 0x03 d (a.code9) (b.code9) 0 ty.code 0 cc.code)
  | .sel g ty d a b c => some (.int, wordsL g.code 0x04 (d.code9) (a.code9) (b.code9) c ty.code 0 0)
  | .lea g ty sh d a b => some (.int, wordsL g.code 0x05 (d.code9) (a.code9) (b.code9) 0 ty.code 0 sh)
  | .iaddc g ty d a b c => some (.int, wordsL g.code 0x06 (d.code9) (a.code9) (b.code9) c ty.code 0 0)
  | .isubb g ty d a b c => some (.int, wordsL g.code 0x07 (d.code9) (a.code9) (b.code9) c ty.code 0 0)
  | .bfe g ty d a b => some (.int, wordsL g.code 0x08 (d.code9) (a.code9) (b.code9) 0 ty.code 0 0)
  | .bfi g ty d a b c => some (.int, wordsL g.code 0x09 (d.code9) (a.code9) (b.code9) (c.code9) ty.code 0 0)
  | .iaddL g ty sat d a b => some (.int, wordsL g.code 0x0a (d.code9) (a.code9) (b.code9) 0 ty.code 0 (sat.toNat * 1))
  | .shf g ty right d a b c => some (.int, wordsL g.code 0x0b (d.code9) (a.code9) (b.code9) (c.code9) ty.code 0 (right.toNat * 1))
  | .setix g ix a => some (.int, wordsL g.code 0x0c 0 (a.code9) 0 ix 0 0 0)
  | .movx g ty ix d a => some (.int, wordsL g.code 0x0d (d.code9) (a.code9) 0 ix ty.code 0 0)
  | .stx g ty ix a b => some (.int, wordsL g.code 0x0e 0 (a.code9) (b.code9) ix ty.code 0 0)
  | .pmovTo g d a => some (.int, wordsL g.code 0x0f d (a.code9) 0 0 0 0 0)
  | .pmovFrom g d a => some (.int, wordsL g.code 0x10 (d.code9) a 0 0 0 0 0)
  | .icvt g ty sty sat d a => some (.int, wordsL g.code 0x11 (d.code9) (a.code9) 0 sty.code ty.code 0 (sat.toNat * 1))
  | .faddF64 g d a b => some (.flt, [wordS g.code 0x00 (d.code7) (a.code7) (b.code7)])
  | .faddF32 g d a b => some (.flt, [wordS g.code 0x01 (d.code7) (a.code7) (b.code7)])
  | .fsubF64 g d a b => some (.flt, [wordS g.code 0x02 (d.code7) (a.code7) (b.code7)])
  | .fsubF32 g d a b => some (.flt, [wordS g.code 0x03 (d.code7) (a.code7) (b.code7)])
  | .fmulF64 g d a b => some (.flt, [wordS g.code 0x04 (d.code7) (a.code7) (b.code7)])
  | .fmulF32 g d a b => some (.flt, [wordS g.code 0x05 (d.code7) (a.code7) (b.code7)])
  | .fminF64 g d a b => some (.flt, [wordS g.code 0x06 (d.code7) (a.code7) (b.code7)])
  | .fminF32 g d a b => some (.flt, [wordS g.code 0x07 (d.code7) (a.code7) (b.code7)])
  | .fmaxF64 g d a b => some (.flt, [wordS g.code 0x08 (d.code7) (a.code7) (b.code7)])
  | .fmaxF32 g d a b => some (.flt, [wordS g.code 0x09 (d.code7) (a.code7) (b.code7)])
  | .fabsF64 g d a => some (.flt, [wordS g.code 0x0a (d.code7) (a.code7) 0])
  | .fabsF32 g d a => some (.flt, [wordS g.code 0x0b (d.code7) (a.code7) 0])
  | .fnegF64 g d a => some (.flt, [wordS g.code 0x0c (d.code7) (a.code7) 0])
  | .fnegF32 g d a => some (.flt, [wordS g.code 0x0d (d.code7) (a.code7) 0])
  | .faddH2 g d a b => some (.flt, [wordS g.code 0x0e (d.code7) (a.code7) (b.code7)])
  | .fmulH2 g d a b => some (.flt, [wordS g.code 0x0f (d.code7) (a.code7) (b.code7)])
  | .faddB2 g d a b => some (.flt, [wordS g.code 0x10 (d.code7) (a.code7) (b.code7)])
  | .fmulB2 g d a b => some (.flt, [wordS g.code 0x11 (d.code7) (a.code7) (b.code7)])
  | .frcpF32 g d a => some (.flt, [wordS g.code 0x12 (d.code7) (a.code7) 0])
  | .frsqF32 g d a => some (.flt, [wordS g.code 0x13 (d.code7) (a.code7) 0])
  | .fexp2F32 g d a => some (.flt, [wordS g.code 0x14 (d.code7) (a.code7) 0])
  | .flog2F32 g d a => some (.flt, [wordS g.code 0x15 (d.code7) (a.code7) 0])
  | .fsinpiF32 g d a => some (.flt, [wordS g.code 0x16 (d.code7) (a.code7) 0])
  | .fcospiF32 g d a => some (.flt, [wordS g.code 0x17 (d.code7) (a.code7) 0])
  | .ftanhF32 g d a => some (.flt, [wordS g.code 0x18 (d.code7) (a.code7) 0])
  | .fclassF64 g d a => some (.flt, [wordS g.code 0x19 (d.code7) (a.code7) 0])
  | .fclassF32 g d a => some (.flt, [wordS g.code 0x1a (d.code7) (a.code7) 0])
  | .fma g ty rm ftz pk d a b c => some (.flt, wordsL g.code 0x00 (d.code9) (a.code9) (b.code9) (c.code9) ty.code rm.code (ftz.toNat * 1 + pk.toNat * 4))
  | .faddL g ty rm ftz pk d a b => some (.flt, wordsL g.code 0x01 (d.code9) (a.code9) (b.code9) 0 ty.code rm.code (ftz.toNat * 1 + pk.toNat * 4))
  | .fmulL g ty rm ftz pk d a b => some (.flt, wordsL g.code 0x02 (d.code9) (a.code9) (b.code9) 0 ty.code rm.code (ftz.toNat * 1 + pk.toNat * 4))
  | .fdiv g ty rm ftz d a b => some (.flt, wordsL g.code 0x03 (d.code9) (a.code9) (b.code9) 0 ty.code rm.code (ftz.toNat * 1))
  | .fsqrt g ty rm ftz d a => some (.flt, wordsL g.code 0x04 (d.code9) (a.code9) 0 0 ty.code rm.code (ftz.toNat * 1))
  | .fcmp g ty cc d a b => some (.flt, wordsL g.code 0x05 d (a.code9) (b.code9) 0 ty.code 0 cc.code)
  | .fcvt g ty sty rm sat d a => some (.flt, wordsL g.code 0x06 (d.code9) (a.code9) 0 sty.code ty.code rm.code (sat.toNat * 2))
  | .frnd g ty rm d a => some (.flt, wordsL g.code 0x07 (d.code9) (a.code9) 0 0 ty.code rm.code 0)
  | .fcvti g ty sty rm d a => some (.flt, wordsL g.code 0x08 (d.code9) (a.code9) 0 sty.code ty.code rm.code 0)
  | .icvtf g ty sty rm d a => some (.flt, wordsL g.code 0x09 (d.code9) (a.code9) 0 sty.code ty.code rm.code 0)
  | .fscale g ty rm d a b => some (.flt, wordsL g.code 0x0a (d.code9) (a.code9) (b.code9) 0 ty.code rm.code 0)
  | .ffrexp g ty d a c => some (.flt, wordsL g.code 0x0b (d.code9) (a.code9) 0 (c.code9) ty.code 0 0)
  | .fpack g ty sty rm sat d a b => some (.flt, wordsL g.code 0x0c (d.code9) (a.code9) (b.code9) sty.code ty.code rm.code (sat.toNat * 2))
  | .funpack g ty sty d a b => some (.flt, wordsL g.code 0x0d (d.code9) (a.code9) (b.code9) sty.code ty.code 0 0)
  | .fdot2 g ty rm d a b c => some (.flt, wordsL g.code 0x0e (d.code9) (a.code9) (b.code9) (c.code9) ty.code rm.code 0)
  | .shflIdx g d a b => some (.xl, [wordS g.code 0x00 (d.code7) (a.code7) (b.code7)])
  | .shflUp g d a b => some (.xl, [wordS g.code 0x01 (d.code7) (a.code7) (b.code7)])
  | .shflDn g d a b => some (.xl, [wordS g.code 0x02 (d.code7) (a.code7) (b.code7)])
  | .shflXor g d a b => some (.xl, [wordS g.code 0x03 (d.code7) (a.code7) (b.code7)])
  | .voteAll g d a => some (.xl, [wordS g.code 0x04 d a 0])
  | .voteAny g d a => some (.xl, [wordS g.code 0x05 d a 0])
  | .voteBallot g d a => some (.xl, [wordS g.code 0x06 (d.code7) a 0])
  | .voteEq g d a => some (.xl, [wordS g.code 0x07 d (a.code7) 0])
  | .lbcast g d a b => some (.xl, [wordS g.code 0x08 (d.code7) (a.code7) (b.code7)])
  | .matchLanes g d a => some (.xl, [wordS g.code 0x09 (d.code7) (a.code7) 0])
  | .redAddI32 g d a => some (.xl, [wordS g.code 0x0a (d.code7) (a.code7) 0])
  | .redAddF32 g d a => some (.xl, [wordS g.code 0x0b (d.code7) (a.code7) 0])
  | .scanAddI32 g d a => some (.xl, [wordS g.code 0x0c (d.code7) (a.code7) 0])
  | .wadd g d a b => some (.xl, [wordS g.code 0x10 (d.code7) (a.code7) (b.code7)])
  | .wsub g d a b => some (.xl, [wordS g.code 0x11 (d.code7) (a.code7) (b.code7)])
  | .wneg g d a => some (.xl, [wordS g.code 0x12 (d.code7) (a.code7) 0])
  | .wshl g d a b => some (.xl, [wordS g.code 0x13 (d.code7) (a.code7) (b.code7)])
  | .wshr g d a b => some (.xl, [wordS g.code 0x14 (d.code7) (a.code7) (b.code7)])
  | .wsign g d a => some (.xl, [wordS g.code 0x15 (d.code7) (a.code7) 0])
  | .wcmp g d a b => some (.xl, [wordS g.code 0x16 (d.code7) (a.code7) (b.code7)])
  | .wclr g d => some (.xl, [wordS g.code 0x17 (d.code7) 0 0])
  | .zip g ty k d a => some (.xl, wordsL g.code 0x00 (d.code9) (a.code9) 0 0 ty.code 0 (k - 2))
  | .unzip g ty k d a => some (.xl, wordsL g.code 0x01 (d.code9) (a.code9) 0 0 ty.code 0 (k - 2))
  | .bind g ty n => some (.xl, wordsL g.code 0x02 0 0 0 n ty.code 0 0)
  | .unbind g => some (.xl, wordsL g.code 0x03 0 0 0 0 0 0 0)
  | .wmacF64 g d a b => some (.xl, wordsL g.code 0x04 (d.code9) (a.code9) (b.code9) 0 (Ty.code .f64) 0 0)
  | .wnorm g rm d a => some (.xl, wordsL g.code 0x05 (d.code9) (a.code9) 0 0 (Ty.code .f64) rm.code 0)
  | .wwin g a c => some (.xl, wordsL g.code 0x06 0 (a.code9) 0 (unsigned 9 c) 0 0 0)
  | .red g op ty rm d a => some (.xl, wordsL g.code 0x07 (d.code9) (a.code9) 0 op.code ty.code rm.code 0)
  | .scan g op ty rm excl d a => some (.xl, wordsL g.code 0x08 (d.code9) (a.code9) 0 op.code ty.code rm.code (excl.toNat * 1))
  | .ldW g d a b => some (.mem, [wordS g.code 0x00 (d.code7) (a.code7) (b.code7)])
  | .ldD g d a b => some (.mem, [wordS g.code 0x01 (d.code7) (a.code7) (b.code7)])
  | .ldQ g d a b => some (.mem, [wordS g.code 0x02 (d.code7) (a.code7) (b.code7)])
  | .stW g x a b => some (.mem, [wordS g.code 0x03 (x.code7) (a.code7) (b.code7)])
  | .stD g x a b => some (.mem, [wordS g.code 0x04 (x.code7) (a.code7) (b.code7)])
  | .stQ g x a b => some (.mem, [wordS g.code 0x05 (x.code7) (a.code7) (b.code7)])
  | .ldsW g d a b => some (.mem, [wordS g.code 0x06 (d.code7) (a.code7) (b.code7)])
  | .stsW g x a b => some (.mem, [wordS g.code 0x07 (x.code7) (a.code7) (b.code7)])
  | .ldiWWg g d a b => some (.mem, [wordS g.code 0x08 (d.code7) (a.code7) (b.code7)])
  | .stiWWg g x a b => some (.mem, [wordS g.code 0x09 (x.code7) (a.code7) (b.code7)])
  | .qpop g d a => some (.mem, [wordS g.code 0x0a (d.code7) (a.code7) 0])
  | .qpush g a b => some (.mem, [wordS g.code 0x0b 0 (a.code7) (b.code7)])
  | .prefetch g a b => some (.mem, [wordS g.code 0x0c 0 (a.code7) (b.code7)])
  | .ldK g wd d a k => some (.mem, [wordS g.code 0x30 (d.code7) (a.code7) wd, BitVec.ofNat 32 (k.toNat)])
  | .stK g wd x a k => some (.mem, [wordS g.code 0x31 (x.code7) (a.code7) wd, BitVec.ofNat 32 (k.toNat)])
  | .ldL g ty d a b => some (.mem, wordsL g.code 0x00 (d.code9) (a.code9) (b.code9) 0 ty.code 0 0)
  | .stL g ty x a b => some (.mem, wordsL g.code 0x01 (x.code9) (a.code9) (b.code9) 0 ty.code 0 0)
  | .ldi g ty sc ord d a b => some (.mem, wordsL g.code 0x02 (d.code9) (a.code9) (b.code9) (sc.shape) ty.code sc.code ord.code)
  | .sti g ty sc ord x a b => some (.mem, wordsL g.code 0x03 (x.code9) (a.code9) (b.code9) (sc.shape) ty.code sc.code ord.code)
  | .atom g op ty sc ord d a b => some (.mem, wordsL g.code 0x04 (d.code9) (a.code9) (b.code9) (op.code + sc.shape) ty.code sc.code ord.code)
  | .atomcas g ty sc ord d a b => some (.mem, wordsL g.code 0x05 (d.code9) (a.code9) (b.code9) (sc.shape) ty.code sc.code ord.code)
  | .atomf g op ty sc ord d a b => some (.mem, wordsL g.code 0x06 (d.code9) (a.code9) (b.code9) (op.code + sc.shape) ty.code sc.code ord.code)
  | .phase sc => some (.mem, wordsL 30 0x07 0 0 0 (sc.shape) 0 sc.code 0)
  | .fence g sc ord => some (.mem, wordsL g.code 0x08 0 0 0 (sc.shape) 0 sc.code ord.code)
  | .tfill g t a b => some (.mem, wordsL g.code 0x09 0 (a.code9) (b.code9) t 0 0 0)
  | .tdrain g t a b => some (.mem, wordsL g.code 0x0a 0 (a.code9) (b.code9) t 0 0 0)
  | .twait g t => some (.mem, wordsL g.code 0x0b 0 0 0 t 0 0 0)
  | .tstate g t d => some (.mem, wordsL g.code 0x0c (d.code9) 0 0 t 0 0 0)
  | .tfree g t => some (.mem, wordsL g.code 0x0d 0 0 0 t 0 0 0)
  | .halloc g tr d a b => some (.mem, wordsL g.code 0x0e (d.code9) (a.code9) (b.code9) 0 0 0 (tr.toNat * 1))
  | .hfree g a b => some (.mem, wordsL g.code 0x0f 0 (a.code9) (b.code9) 0 0 0 0)
  | .cinv g l2 a b => some (.mem, wordsL g.code 0x10 0 (a.code9) (b.code9) 0 0 0 (l2.toNat * 1))
  | .cwb g l2 a b => some (.mem, wordsL g.code 0x11 0 (a.code9) (b.code9) 0 0 0 (l2.toNat * 1))
  | .mma g ty x ma mb c => some (.mat, wordsL g.code 0x00 (x.code9) (0x160 + ma) (0x160 + mb) (c.code9) ty.code 0 0)
  | .mmasc g ty bs k x ma mb c => some (.mat, wordsL g.code 0x01 (x.code9) (0x160 + ma) (0x160 + mb) (c.code9) ty.code bs k)
  | .accld g ty d a b => some (.mat, wordsL g.code 0x02 (d.code9) (a.code9) (b.code9) 0 ty.code 0 0)
  | .accst g x a b => some (.mat, wordsL g.code 0x03 (x.code9) (a.code9) (b.code9) 0 (Ty.code .f32) 0 0)
  | .acczero g a b => some (.mat, wordsL g.code 0x04 0 (a.code9) (b.code9) 0 0 0 0)
  | .accwin g a b => some (.mat, wordsL g.code 0x05 0 (a.code9) (b.code9) 0 0 0 0)
  | .opmap g m a => some (.mat, wordsL g.code 0x06 (0x160 + m) (a.code9) 0 0 0 0 0)
  | .mwait g => some (.mat, wordsL g.code 0x07 0 0 0 0 0 0 0)
  | .accldBand g d a b c => some (.mat, wordsL g.code 0x08 (d.code9) (a.code9) (b.code9) (c.code9) (Ty.code .f32) 0 0)
  | .mmaprogRd g q d a => some (.mat, wordsL g.code 0x09 (d.code9) (a.code9) 0 q 0 0 0)
  | .mmaprogWr g q a b => some (.mat, wordsL g.code 0x09 0 (a.code9) (b.code9) q 0 0 1)
  | .bra g off => some (.ctl, [offWord g.code 0x00 off])
  | .jmp off => some (.ctl, [offWord 30 0x01 off])
  | .jmpi g a => some (.ctl, [wordS g.code 0x02 0 (a.code7) 0])
  | .call g off => some (.ctl, [offWord g.code 0x03 off])
  | .calli g a => some (.ctl, [wordS g.code 0x04 0 (a.code7) 0])
  | .ret g => some (.ctl, [wordS g.code 0x05 0 0 0])
  | .exit g => some (.ctl, [wordS g.code 0x06 0 0 0])
  | .nop g => some (.ctl, [wordS g.code 0x07 0 0 0])
  | .dispatch g d a b => some (.ctl, [wordS g.code 0x08 (d.code7) (0x50 + a) (0x50 + b)])
  | .gpcadd g a => some (.ctl, [wordS g.code 0x09 0 (a.code7) 0])
  | .gpcset g a => some (.ctl, [wordS g.code 0x0a 0 (a.code7) 0])
  | .loop n k off => some (.ctl, [loopWord n k off])
  | .barWg => some (.ctl, [wordS 30 0x0c 0 0 0])
  | .join => some (.ctl, [wordS 30 0x0d 0 0 0])
  | .sleep g a => some (.ctl, [wordS g.code 0x0e 0 (a.code7) 0])
  | .wait g a => some (.ctl, [wordS g.code 0x0f 0 (a.code7) 0])
  | .spawn g a b => some (.ctl, [wordS g.code 0x10 0 (a.code7) (b.code7)])
  | .spawnTry g a b => some (.ctl, [wordS g.code 0x10 1 (a.code7) (b.code7)])
  | .brk g => some (.ctl, [wordS g.code 0x11 0 0 0])
  | .yield g => some (.ctl, [wordS g.code 0x12 0 0 0])
  | .gmode g m => some (.ctl, [wordS g.code 0x13 0 m 0])
  | .engCopy g q d a => some (.sys, [wordS g.code 0x00 (d.code7) (a.code7) q])
  | .engColl g q d a => some (.sys, [wordS g.code 0x01 (d.code7) (a.code7) (4 + q)])
  | .engPost g qs a => some (.sys, [wordS g.code 0x02 0 (a.code7) (qs.eng * 4 + qs.q)])
  | .engSeq g qs d => some (.sys, [wordS g.code 0x03 (d.code7) 0 (qs.eng * 4 + qs.q)])
  | .reelGo g a b => some (.sys, [wordS g.code 0x04 0 (a.code7) (b.code7)])
  | .reelCondWrite g sc a b => some (.sys, [wordS g.code 0x05 sc (a.code7) (b.code7)])
  | .svc g code a => some (.sys, [wordS g.code 0x06 code (a.code7) 0])
  | .svcwait g d => some (.sys, [wordS g.code 0x07 (d.code7) 0 0])
  | .trieStep g d a b => some (.sys, [wordS g.code 0x08 (d.code7) (a.code7) (b.code7)])
  | .trieScan g d a b => some (.sys, [wordS g.code 0x09 (d.code7) (a.code7) (b.code7)])
  | .trieChild g d a b => some (.sys, [wordS g.code 0x0b (d.code7) (a.code7) (b.code7)])
  | .trieInfo g d a => some (.sys, [wordS g.code 0x0a (d.code7) (a.code7) 0])
  | .covpt g d => some (.sys, [wordS g.code 0x0c (d.code7) 0 0])
  | .covst g a b => some (.sys, [wordS g.code 0x0d 0 (a.code7) (b.code7)])
  | .mark g a => some (.sys, [wordS g.code 0x0e 0 (a.code7) 0])
  | .ctrTick g d => some (.sys, [wordS g.code 0x0f (d.code7) 0 0])
  | .ctrMode g d => some (.sys, [wordS g.code 0x0f (d.code7) 1 0])
  | .ctrSetmode g b => some (.sys, [wordS g.code 0x0f 0 2 (b.code7)])
  | .ctrVote g d => some (.sys, [wordS g.code 0x0f (d.code7) 3 0])
  | .ctrWindsock g k d => some (.sys, [wordS g.code 0x0f (d.code7) (16 + k) 0])
  | .trap g n => some (.sys, [wordS g.code 0x10 n 0 0])
  | .tretRetry g => some (.sys, [wordS g.code 0x11 0 0 0])
  | .tretSkip g => some (.sys, [wordS g.code 0x11 0 1 0])
  | .sysr g ty d a => some (.sys, wordsL g.code 0x00 (d.code9) (a.code9) 0 0 ty.code 0 0)
  | .sysw g ty a b => some (.sys, wordsL g.code 0x01 0 (a.code9) (b.code9) 0 ty.code 0 0)
  | .msig g tgt a => some (.sys, wordsL g.code 0x02 0 (a.code9) 0 tgt 0 0 0)
  | .mpost g tgt a b => some (.sys, wordsL g.code 0x03 0 (a.code9) (b.code9) tgt 0 0 0)
  | .tlbinvPage g a b => some (.sys, wordsL g.code 0x04 0 (a.code9) (b.code9) 0 0 0 0)
  | .tlbinvAsid g a b => some (.sys, wordsL g.code 0x04 0 (a.code9) (b.code9) 0 0 0 1)
  | .tlbinvAll g a b => some (.sys, wordsL g.code 0x04 0 (a.code9) (b.code9) 0 0 0 2)
  | .cflush g a b => some (.sys, wordsL g.code 0x05 0 (a.code9) (b.code9) 0 0 0 0)
  | .fltrd g d a => some (.sys, wordsL g.code 0x06 (d.code9) (a.code9) 0 0 0 0 0)
  | .powerGood => none
  | .moduleReset => none
  | .memoryRegionInit => none
  | .firmwareLoad _ => none
  | .flitCrcRetry _ => none
  | .linkRetrain _ => none
  | .linkFailed _ => none
  | .fabricRemoteRead _ _ _ => none
  | .fabricRemoteWrite _ _ _ => none
  | .fabricRemoteAtomic _ _ _ _ _ _ => none
  | .directoryRecall _ => none
  | .directoryUnreachable => none
  | .pcieBarRequest _ => none
  | .createAs _ => none
  | .destroyAs _ => none
  | .registerSq _ => none
  | .unregisterSq _ => none
  | .configWq _ => none
  | .mmioWrite _ => none
  | .mmioRead _ => none
  | .status _ => none
  | .setBudget _ => none
  | .mailboxUnknownOp _ => none
  | .sqDoorbell _ _ => none
  | .throttleChange _ _ => none
  | .thermalShutdown _ => none
  | .coreSelfCheckFail _ => none
  | .spareSubstitution _ => none
  | .stopTickWrite _ => none
  | .stopTickMatch => none
  | .registerWrite _ _ _ => none
  | .tileEntryWrite _ _ => none
  | .debugWindowAccess _ _ => none
  | .l2ModeChange _ => none
  | .mpostpopRead _ => none
  | .l2Writeback _ => none
  | .replayResolve _ => none
  | .replayReject _ => none
  | .outstandingResultReturn _ => none
  | .sliceIssueTurn _ _ => none
  | .agePromotion _ => none
  | .convergenceHang _ => none
  | .barrierHang _ => none
  | .workgroupBoundaryComplete _ => none
  | .phaseBoundaryComplete _ => none
  | .policyKill _ => none
  | .policyStop _ => none
  | .policySkip _ => none
  | .policyRetry _ => none
  | .policyForward _ => none
  | .engineTakeEntry _ => none
  | .copyEntry _ => none
  | .collEntry _ => none
  | .nopEntry _ => none
  | .entryCompletion _ => none
  | .reelEnd _ _ => none
  | .reelCopy _ _ => none
  | .reelColl _ _ => none
  | .reelWaitseq _ _ => none
  | .reelWake _ _ => none
  | .reelCond _ _ => none
  | .reelWhile _ _ => none
  | .matrixPass _ => none
  | .matrixPassComplete _ => none
  | .launch _ _ => none
  | .feed _ _ => none
  | .close _ _ => none
  | .nopPacket _ _ => none
  | .workgroupPlace _ => none
  | .workgroupRetire _ => none
  | .launchComplete _ => none
  | .preemptMaskWrite _ _ => none
  | .workgroupSave _ => none
  | .workgroupRestore _ => none
  | .serviceReply _ _ => none
  | .serviceReject _ => none
  | .tileReconstruction _ => none
  | .auditWindowClose _ => none
  | .stopArrival _ => none
  | .dbgHalt _ _ => none
  | .dbgResume _ _ => none
  | .dbgStep _ _ => none
  | .linkTrainedAgain _ => none
  | .fabricPortFailed _ => none

/-- The words of a run of bytes, four bytes a word, lowest first (R5). -/
def wordsOfBytes : List Byte → List (BitVec 32)
  | b0 :: b1 :: b2 :: b3 :: bs => BitVec.ofNat 32 (leNat [b0, b1, b2, b3]) :: wordsOfBytes bs
  | _ => []

/-- The instruction at the head of the bytes that are left of a clause. -/
def decodeBytes (cls : Cls) (priv : Bool) (bs : List Byte) : Except DecodeFault (Instr × Nat) :=
  decodeWords cls priv (wordsOfBytes bs)

/-- The words of an instruction whose bits are w, the first word in the low 32 bits; two words in every case, the bits
above nbits zero. -/
def tableWords (nbits w : Nat) : List (BitVec 32) :=
  wordsOfBytes (leBytes 8 (w % 2 ^ nbits))

/-- The first class, in the order INT, FLT, XL, MEM, MAT, CTL, SYS, in which these words are an instruction, with the
instruction and the number of its words. A word of the table carries no class: the header of its clause does (R163).
DESIGN CHOICE, log entry 6. -/
def firstClass (ws : List (BitVec 32)) : List Cls → Option (Cls × Instr × Nat)
  | [] => none
  | c :: cs =>
    match decodeWords c true ws with
    | .ok (i, n) => some (c, i, n)
    | .error _ => firstClass ws cs

/-- The instruction that the decoder reads from an instruction word of the table, privileged forms included. -/
def decodeTableWord (nbits w : Nat) : Option Instr :=
  (firstClass (tableWords nbits w) Cls.all).map (·.2.1)

end Sys2Proof
end

