-- ==== Sys2Proof/Machine/Ops.lean ====
section
/-!
DEFINITION. Machine/Ops.lean: the named operations over State: looking up and updating its parts, the issue group (16 R299,
R301), raising a fault, parking (21 R393 to R395), entering the in-kernel handler and returning from it (R396, R397), and
applying an instruction to the lanes of the group (00 R9, R10).
-/

namespace Sys2Proof.Machine

/-! ## Parts of the state -/

/-- The die of a physical core. -/
def dieOf (core : Nat) : Nat := core / 36

/-- The core of a team or a workgroup that is on none: its context is saved. -/
def noCore : Nat := 0xffff

/-- Replaces the n-th element of a list. -/
def setAt {α : Type} : List α → Nat → α → List α
  | [], _, _ => []
  | _ :: l, 0, a => a :: l
  | x :: l, n + 1, a => x :: setAt l n a

/-- Puts an element before the first one that it does not follow. -/
def insertBy {α : Type} (le : α → α → Bool) (x : α) : List α → List α
  | [] => [x]
  | y :: l => if le x y then x :: y :: l else y :: insertBy le x l

/-- A list in rising order, equal elements in their old order. -/
def sortBy {α : Type} (le : α → α → Bool) : List α → List α
  | [] => []
  | x :: l => insertBy le x (sortBy le l)

/-- A core; one that nothing has written stands at its reset values. -/
def State.core (s : State) (c : Nat) : Core := (s.cores.find? (·.id == c)).getD { id := c }

/-- Writes a core back. -/
def State.setCore (s : State) (k : Core) : State :=
  { s with cores := if s.cores.any (·.id == k.id) then s.cores.map (fun x => if x.id == k.id then k else x) else k :: s.cores }

/-- A die. -/
def State.die (s : State) (d : Nat) : Die := s.dies.getD d {}

/-- Writes a die back. -/
def State.setDie (s : State) (d : Nat) (k : Die) : State := { s with dies := setAt s.dies d k }

/-- A launch by number. -/
def State.launch? (s : State) (l : Nat) : Option Launch := s.launches.find? (·.id == l)

/-- A launch by number, an empty one where there is none. -/
def State.launch (s : State) (l : Nat) : Launch := (s.launch? l).getD { id := l }

/-- Writes a launch back. -/
def State.setLaunch (s : State) (k : Launch) : State :=
  { s with launches := s.launches.map (fun x => if x.id == k.id then k else x) }

/-- A workgroup. -/
def State.wg? (s : State) (l w : Nat) : Option Wg := s.wgs.find? (fun x => x.launch == l && x.id == w)

/-- A workgroup, an empty one where there is none. -/
def State.wg (s : State) (l w : Nat) : Wg := (s.wg? l w).getD { launch := l, id := w }

/-- Writes a workgroup back. -/
def State.setWg (s : State) (k : Wg) : State :=
  { s with wgs := s.wgs.map (fun x => if x.launch == k.launch && x.id == k.id then k else x) }

/-- Is this the team of these numbers? -/
def Team.is (T : Team) (l w t : Nat) : Bool := T.launch == l && T.wg == w && T.idx == t

/-- A team. -/
def State.team? (s : State) (l w t : Nat) : Option Team := s.teams.find? (·.is l w t)

/-- Applies a function to every team. -/
def State.mapTeams (s : State) (f : Team → Team) : State := { s with teams := s.teams.map f }

/-- Applies a function to one team. -/
def State.updTeam (s : State) (l w t : Nat) (f : Team → Team) : State :=
  s.mapTeams (fun T => if T.is l w t then f T else T)

/-- Applies a function to every thread of a team. -/
def Team.mapThreads (T : Team) (f : Thread → Thread) : Team := { T with threads := T.threads.map f }

/-- Applies a function to one thread. -/
def State.updThread (s : State) (r : ThreadRef) (f : Thread → Thread) : State :=
  s.updTeam r.launch r.wg r.team (fun T => T.mapThreads (fun th => if th.lane == r.lane then f th else th))

/-- A thread with its team. -/
def State.thread? (s : State) (r : ThreadRef) : Option (Team × Thread) :=
  match s.team? r.launch r.wg r.team with
  | none => none
  | some T => (T.threads.find? (·.lane == r.lane)).map (fun th => (T, th))

/-- The name of a thread. -/
def Team.ref (T : Team) (th : Thread) : ThreadRef := ⟨T.launch, T.wg, T.idx, th.lane⟩

/-- An entry of a convergence table. -/
def State.entry? (s : State) (e : Nat) : Option Entry := s.entries.find? (·.id == e)

/-- Writes an entry back. -/
def State.setEntry (s : State) (k : Entry) : State :=
  { s with entries := s.entries.map (fun x => if x.id == k.id then k else x) }

/-- The partition of a launch homed at a logical core (R62). -/
def State.partition? (s : State) (l home : Nat) : Option Partition := s.parts.find? (fun p => p.launch == l && p.home == home)

/-- Writes a partition back. -/
def State.setPartition (s : State) (k : Partition) : State :=
  { s with parts := s.parts.map (fun p => if p.launch == k.launch && p.home == k.home then k else p) }

/-- The view of a core for a launch (R125). -/
def State.view (s : State) (c l : Nat) : View :=
  (s.views.find? (fun v => v.core == c && v.launch == l)).getD { core := c, launch := l }

/-- Writes a view back. -/
def State.setView (s : State) (v : View) : State :=
  { s with views :=
      if s.views.any (fun x => x.core == v.core && x.launch == v.launch)
      then s.views.map (fun x => if x.core == v.core && x.launch == v.launch then v else x) else v :: s.views }

/-- The next free choice among n alternatives (n at least 1), and the counter advanced. -/
def State.pick (s : State) (n : Nat) : Nat × State :=
  (Config.freePick s.freeCount % n, { s with freeCount := s.freeCount + 1 })

/-! ## The bound state of a team (R235) -/

/-- BOUND. -/
def Team.bound (T : Team) : Bool := T.blc.getLsbD 31

/-- Threads that have not exited. -/
def Team.live (T : Team) : List Thread := T.threads.filter (·.status != .exited)

/-! ## The issue group (R299, R301) -/

/-- A thread of the group of entry e that has still to finish the slot. -/
def Thread.issuing (th : Thread) (e : Nat) : Bool :=
  th.entry == some e && (th.status == .running || th.status == .handler) && !th.slotDone

/-- The guard of an instruction in a thread (R168). -/
def Thread.passes (th : Thread) (g : Guard) : Bool :=
  match g with
  | .always => true
  | .on p neg => th.p.getLsbD p != neg

/-- The lanes of a team that are in the group. -/
def Team.group (T : Team) (e : Nat) : List Thread := T.threads.filter (·.issuing e)

/-- The lanes of a team that execute an instruction with guard g. -/
def Team.executing (T : Team) (e : Nat) (g : Guard) : List Thread := T.threads.filter (fun th => th.issuing e && th.passes g)

/-- The teams that have a lane in the group. -/
def State.groupTeams (s : State) (e : Nat) : List Team := s.teams.filter (fun T => T.threads.any (·.issuing e))

/-- The executing lanes of the whole group, team by team. -/
def State.executing (s : State) (e : Nat) (g : Guard) : List (Team × Thread) :=
  s.teams.flatMap (fun T => (T.executing e g).map (fun th => (T, th)))

/-- G: the participating lanes of a team (R224). -/
def State.lanesOf (s : State) (T : Team) (g : Guard) : List Thread :=
  match s.cur with
  | none => []
  | some c => T.executing c.entry g

/-! ## Faults (R392 to R395) -/

/-- The machine checks (R392). -/
def isMachineCheck (cause : Nat) : Bool := cause == 0x090 || cause == 0x091 || (0x1e0 ≤ cause && cause ≤ 0x1ff)

/-- The handler classes (R392). -/
def isHandlerClass (cause : Nat) : Bool :=
  (0x040 ≤ cause && cause ≤ 0x07f) || (0x100 ≤ cause && cause ≤ 0x13f) || (0x140 ≤ cause && cause ≤ 0x15f)
    || (0x1c0 ≤ cause && cause ≤ 0x1df)

/-- What a lane reports when it faults. -/
structure Trap where
  cause : Nat
  sub   : Nat := 0
  addr  : BitVec 64 := 0
  paddr : BitVec 64 := 0
  deriving DecidableEq, Repr

/-- Does a cause belong to the memory class or to the seals (R392, R393)? DEDUCED, log entry 47. -/
def isMemoryCause (cause : Nat) : Bool := 0x080 ≤ cause && cause ≤ 0x0bf

/-- ADDR and PADDR of a record: of memory causes and seals; 0x150 names a workgroup and 0x182 the access that hit (R393, R418). -/
def Trap.named (x : Trap) : Trap :=
  { x with
    addr := if isMemoryCause x.cause || x.cause == 0x150 || x.cause == 0x182 then x.addr else 0
    paddr := if isMemoryCause x.cause || x.cause == 0x182 then x.paddr else 0 }

/-- The record of a fault of a thread (R393). -/
def State.record (s : State) (T : Team) (th : Thread) (clause : BitVec 64) (slot : Nat) (grp : Bool) (x : Trap) : Record where
  cause := x.cause
  sub := x.sub % 0x10000
  slot := slot
  lane := th.lane
  team := T.idx
  mc := isMachineCheck x.cause
  bound := T.bound
  grp := grp
  nest := th.status == .handler
  clause := clause
  gpc := th.gpc
  gop := th.gop
  addr := x.named.addr
  tick := s.tick
  hit := s.tick
  tid := th.tid
  wg := T.wg
  paddr := x.named.paddr
  asid := (s.launch T.launch).asid

/-- The physical core of a MESH_MAP entry of a die, none where VALID is 0. -/
def State.meshCore (s : State) (d n : Nat) : Option Nat :=
  let e := ((s.die d).meshMap.getD n 0).toNat
  if e / 128 = 1 then some (d * 36 + e / 8 % 8 * 6 + e % 8) else none

/-- A record is delivered to a privileged thread of the Gondola core of a die; which of several is free, and without one nobody reads it (R391). DESIGN
CHOICE, log entry 140. -/
def State.deliver (s : State) (die : Nat) (r : Record) : State :=
  let ths := (s.teams.filter (fun T => s.meshCore die 32 == some T.core && (s.launch T.launch).priv)).flatMap (fun T => T.live.map T.ref)
  match ths with
  | [] => s
  | [t] => s.updThread t (fun th => { th with delivered := some r })
  | t :: _ =>
    let (k, s1) := s.pick ths.length
    s1.updThread (ths.getD k t) (fun th => { th with delivered := some r })

/-- Parks a thread with a record at a place of its clause: it leaves its entry; a fault in the handler has NEST set, also where an earlier
instruction's result brings it (R395). -/
def Thread.park (th : Thread) (r : Record) (slot : Nat) (inside : Bool) : Thread :=
  { th with status := .parked, record := some { r with nest := r.nest || th.frame.isSome }, entry := none, slotDone := false, hold := .none, slot := slot, inside := inside,
            next := none, claim := none }

/-- Parks every thread of a team that stands in an entry with one record (a bound team: R249). -/
def Team.parkAll (T : Team) (e slot : Nat) (r : Record) (inside : Bool := true) : Team :=
  T.mapThreads (fun th => if th.entry == some e && th.status != .exited then th.park r slot inside else th)

/-- A fault of the whole issue group, before any effect: every lane parks with a record of its own, GRP set (R10, R393); the
lanes of a bound team with the record of the lowest (R249). f puts into each record what the instruction's rule says of it; a group that has
not begun its clause parks at its boundary (R308). -/
def State.groupFaultWith (s : State) (x : Trap) (f : Record → Record) (inside : Bool := true) : State :=
  match s.cur with
  | none => s
  | some c =>
    s.mapTeams (fun T => match T.bound, T.group c.entry with
      | true, th0 :: _ => T.parkAll c.entry c.slot (f (s.record T th0 th0.clause c.slot true x)) inside
      | _, _ => T.mapThreads (fun th =>
          if th.issuing c.entry then th.park (f (s.record T th th.clause c.slot true x)) c.slot inside else th))

/-- The plain fault of the group. -/
def State.groupFault (s : State) (x : Trap) : State := s.groupFaultWith x id

/-- The same with the lane that the record names (R240, R291). DEDUCED, log entry 25. -/
def State.groupFaultAt (s : State) (x : Trap) (lane : Nat) : State := s.groupFaultWith x (fun r => { r with lane := lane })

/-! ## The in-kernel handler (R396, R397) -/

/-- Words 0 to 15 of a record (R393). -/
def Record.word (r : Record) : Nat → BitVec 32
  | 0 => BitVec.ofNat 32 (r.sub * 0x10000 + r.cause)
  | 1 => BitVec.ofNat 32 (r.slot + r.lane * 0x10 + r.team * 0x400 + r.mc.toNat * 0x20000 + r.bound.toNat * 0x40000
      + r.grp.toNat * 0x80000 + r.nl.toNat * 0x100000 + r.nest.toNat * 0x200000 + r.defd.toNat * 0x400000)
  | 2 => r.clause.extractLsb' 0 32
  | 3 => r.clause.extractLsb' 32 32
  | 4 => r.gpc
  | 5 => r.gop.zeroExtend 32
  | 6 => r.addr.extractLsb' 0 32
  | 7 => r.addr.extractLsb' 32 32
  | 8 => r.tick.extractLsb' 0 32
  | 9 => r.tick.extractLsb' 32 32
  | 10 => r.tid
  | 11 => BitVec.ofNat 32 r.wg
  | 12 => r.paddr.extractLsb' 0 32
  | 13 => r.paddr.extractLsb' 32 32
  | 14 => BitVec.ofNat 32 r.asid
  | _ => 0

/-- The depth of a thread's return stack (R322). -/
def Thread.depth (th : Thread) : Nat := th.rstack.length + th.bc

/-- TAKING AN EXCEPTION in the kernel's handler: the frame is saved, the record goes to w0 to w7, and the thread goes on at the
clause at HANDLER (R396). -/
def Thread.enterHandler (th : Thread) (handler : BitVec 64) : Thread :=
  match th.record with
  | none => th
  | some r =>
    { th with
      status := .handler
      frame := some { w := th.w, y0 := th.y0.val, y1 := th.y1.val, p := th.p, depth := th.depth, levels := th.loops.length,
                      clause := th.clause, slot := th.slot, inside := th.inside, recd := r, oneShot := th.oneShot }
      oneShot := none
      w := (List.range 8).map r.word
      clause := handler, slot := 0, inside := false, next := none, hold := .none, entry := none, slotDone := false }

/-- Does a parked thread's fault go to the kernel's own handler (R395)? -/
def Thread.handled (th : Thread) (handler : BitVec 64) : Bool :=
  match th.record with
  | none => false
  | some r => th.status == .parked && handler != 0 && isHandlerClass r.cause && !r.mc && !r.nest && !r.nl

/-- Where a thread goes on after its fault (R397, R398): .retry at the faulting slot, .skip at the next; brk and trap always
at the next; a deferred fault at the place where it parked, .retry performing only the originating instruction first; a
watchpoint hit always after its instruction (R418); a loop-end fault makes the loop-end check again (R239). A thread that was sent to its
parking place for that one instruction goes on at one afterwards. -/
def resumeAt (r : Record) (clause : BitVec 64) (slot : Nat) (inside : Bool) (retry : Bool) (one : Option (BitVec 64 × Nat × Bool) := none) :
    BitVec 64 × Nat × Bool × Option (BitVec 64 × Nat × Bool) :=
  if r.defd then
    if retry && r.cause != 0x182 && !r.matrix then (r.clause, r.slot, true, some (clause, slot, inside)) else (clause, slot, inside, none)
  else if r.cause == 0x180 || (0x1a0 ≤ r.cause && r.cause ≤ 0x1bf) then (clause, slot + 1, true, none)
  else if retry then (clause, slot, inside, one)
  else match one with
    | some p => (p.1, p.2.1, p.2.2, none)
    | none => (clause, slot + 1, true, none)

/-- Resumes a parked or stopped thread as tret would (R397, R398). -/
def Thread.resume (th : Thread) (retry : Bool) : Thread :=
  match th.record with
  | none => { th with status := if th.frame.isSome then .handler else .running }
  | some r =>
    let p := resumeAt r th.clause th.slot th.inside retry th.oneShot
    { th with status := if th.frame.isSome then .handler else .running, record := none
              clause := p.1, slot := p.2.1, inside := p.2.2.1, oneShot := p.2.2.2
              skipGbp := (r.cause == 0x181 && retry), hold := .none, slotDone := false, entry := none }

/-- The return from the handler (R397): return entries and levels above the frame's are dropped, w, y and p are restored, and
the thread goes on at its fault. -/
def Thread.leaveHandler (th : Thread) (f : Frame) (retry : Bool) : Thread :=
  let extra := th.depth - f.depth
  let onChip := min extra th.rstack.length
  let p := resumeAt f.recd f.clause f.slot f.inside retry f.oneShot
  { th with
    status := .running, frame := none, record := none
    rstack := th.rstack.drop onChip
    bc := th.bc - (extra - onChip),
    loops := th.loops.drop (th.loops.length - f.levels)
    w := f.w, y0 := { val := f.y0 }, y1 := { val := f.y1 }, p := f.p,
    clause := p.1, slot := p.2.1, inside := p.2.2.1, oneShot := p.2.2.2
    skipGbp := (f.recd.cause == 0x181 && retry), next := none, hold := .none, slotDone := false, entry := none }

/-! ## Applying an instruction to the lanes of the group (R9, R10) -/

/-- What an instruction does in one lane: it is done, with the values for the team's s destinations if it has any; it
faults, keeping what its text keeps; or it waits, counting a windsock reason. -/
inductive Lane where
  | done (th : Thread) (svals : List Nat)
  | trap (th : Thread) (x : Trap)
  | wait (th : Thread) (reason : Nat)
  deriving DecidableEq, Repr

/-- Writes the value of an instruction with an s destination once for the team (R100). DEDUCED, log entry 22. -/
def Team.writeS (T : Team) (n bits : Nat) (val : Nat) : Team :=
  let put := fun l k => if n + k = 7 then l else setAt l (n + k) (BitVec.ofNat 32 (val / 2 ^ (32 * k)))
  { T with s := (List.range (bits / 32)).foldl put T.s
           ecc := T.ecc.filter (fun k => !(0x110 + n ≤ k && k < 0x110 + n + bits / 32)) }

/-- The s register of a destination. -/
def sRegOf : Dst → Option Nat
  | .s n => some n
  | _ => none

/-- What one team does in an instruction: each executing lane by itself; a fault in a bound team parks the whole team and
undoes the other lanes (R249), except where the instruction's text keeps their writes (R233, R247). -/
def State.runTeam (s : State) (c : Cur) (g : Guard) (keep : Bool) (f : Team → Thread → Lane) (T : Team) :
    Team × List (List Nat) :=
  let rs : List (Thread × Option Lane) :=
    T.threads.map (fun th => (th, if th.issuing c.entry && th.passes g then some (f T th) else none))
  let fault? := rs.findSome? (fun q => match q.2 with
    | some (.trap th x) => some (s.record T th th.clause c.slot false x)
    | _ => none)
  match T.bound, fault? with
  | true, some r =>
    (({ T with threads := rs.map (fun (q : Thread × Option Lane) => match q.2 with
        | some (.trap th _) => th
        | some (.done th _) => if keep then th else q.1
        | _ => q.1) }).parkAll c.entry c.slot r
      , if keep then rs.filterMap (fun q => match q.2 with | some (.done _ vs) => some vs | _ => none) else [])
  | _, _ =>
    ({ T with threads := rs.map (fun q =>
        match q.2 with
        | none => q.1
        | some (.done th _) => { th with hold := .passed }
        | some (.trap th x) => th.park (s.record T q.1 q.1.clause c.slot false x) c.slot true
        | some (.wait th r) => { th with hold := .at r }) },
      rs.filterMap (fun q => match q.2 with | some (.done _ vs) => some vs | _ => none))

/-- The value that an s destination takes from the lanes: theirs where they agree, else one of them, which one is free; in a deterministic
launch it is the same one each time (R410). -/
def State.oneOf (s : State) (det : Bool) (vs : List Nat) : Option Nat × State :=
  match vs with
  | [] => (none, s)
  | v :: rest => if rest.all (· == v) then (some v, s) else
    let (k, s') := if det then (Config.detPick vs.length % vs.length, s) else s.pick vs.length
    ((vs.getD k v), s')

/-- The s destinations of a team after its lanes: each takes one of the lanes' values. DESIGN CHOICE, log entry 14. -/
def State.writeSAll (s : State) (vs : List (List Nat)) : List (Nat × Nat) → Nat → Team → State × Team
  | [], _, T => (s, T)
  | (n, bits) :: sd, k, T =>
    match s.oneOf (s.launch T.launch).recd.det (vs.filterMap (·[k]?)) with
    | (none, s') => State.writeSAll s' vs sd (k + 1) T
    | (some v, s') => State.writeSAll s' vs sd (k + 1) (T.writeS n bits v)

/-- The first lane of the group that has to wait, with what it keeps and its reason. -/
def State.firstWait (s : State) (c : Cur) (g : Guard) (f : Team → Thread → Lane) : Option Nat :=
  s.teams.findSome? (fun T => (T.executing c.entry g).findSome? (fun th => match f T th with | .wait _ n => some n | _ => none))

/-- The same, marked with what each lane that waits keeps; the others wait with them: no lane writes before every lane has read (R10). -/
def State.allWait (s : State) (c : Cur) (g : Guard) (n : Nat) (f : Team → Thread → Lane) : State :=
  s.mapTeams (fun T => T.mapThreads (fun th =>
    if th.issuing c.entry && th.passes g then
      match f T th with
      | .wait t k => { t with hold := .at k }
      | _ => { th with hold := .at n }
    else th))

/-- An instruction whose lanes act each on its own thread alone; sd are its s destinations with their widths. Where a lane has to wait, all do
(R10, R334). -/
def State.perLane (s : State) (g : Guard) (sd : List (Nat × Nat)) (f : Team → Thread → Lane) (keep : Bool := false) : State :=
  match s.cur with
  | none => s
  | some c =>
    match s.firstWait c g f with
    | some n => s.allWait c g n f
    | none => s.teams.foldl (fun (a : State) T =>
      let (T', vs) := s.runTeam c g keep f T
      let (a', T'') := a.writeSAll vs sd 0 T'
      { a' with teams := a'.teams ++ [T''] }) { s with teams := [] }

/-- The block check of every register an instruction names (R93): the first of them, in the order of the instruction's fields, that lies at or
beyond some thread's block. DESIGN CHOICE, log entry 134. -/
def State.blockCheck (s : State) (regs : List Nat) : Option Trap :=
  match s.cur with
  | none => none
  | some c => regs.findSome? (fun k =>
      if s.teams.any (fun T => decide (T.bsize ≤ k) && T.threads.any (·.issuing c.entry)) then some { cause := 0x04b, sub := k }
      else none)

/-- The lanes' accesses in one total order that keeps each team's lane order: which team comes next where several have lanes
left is a free choice (R253). -/
def interleave : Nat → State → List (List (Team × Thread)) → State × List (Team × Thread)
  | 0, s, _ => (s, [])
  | n + 1, s, ls =>
    match ls.filter (fun l => !l.isEmpty) with
    | [] => (s, [])
    | [l] => (s, l)
    | ls' =>
      let (k, s1) := s.pick ls'.length
      match ls'.getD k [] with
      | [] => (s1, [])
      | x :: xs =>
        let (s2, rest) := interleave n s1 (setAt ls' k xs)
        (s2, x :: rest)

/-- The executing lanes in the order in which they are performed (R253). -/
def State.laneOrder (s : State) (e : Nat) (g : Guard) : State × List (Team × Thread) :=
  let ls := (s.groupTeams e).map (fun T => (T.executing e g).map (fun th => (T, th)))
  interleave (ls.map List.length).sum s ls

/-- What an instruction does in one lane when it acts on more than its thread: it answers the state after, and done, a fault or
a wait. -/
inductive LaneOut where
  | done (s : State)
  | trap (s : State) (x : Trap)
  | wait (s : State) (reason : Nat)
  deriving DecidableEq, Repr

/-- The reason for which a lower lane of a team waits at the slot, none where none does. -/
def Team.heldBack (T : Team) (e lane : Nat) : Option Nat :=
  T.threads.findSome? (fun th => if th.lane < lane && th.issuing e then (match th.hold with | .at n => some n | _ => none) else none)

/-- A team as an instruction that begins now finds it. -/
def Team.asBefore (T : Team) : Before := { launch := T.launch, wg := T.wg, team := T.idx, s := T.s, ecc := T.ecc, threads := T.threads }

/-- A team as it stood when the instruction at which an entry stands began: s is the state in which it is tried. -/
def State.before (s : State) (e : Nat) (T : Team) : Before :=
  ((s.entry? e).bind (fun E => E.before.find? (fun b => T.is b.launch b.wg b.team))).getD
    (((s.team? T.launch T.wg T.idx).map Team.asBefore).getD T.asBefore)

/-- What the lanes of a team read of each other: its s registers and predicates as they stood when the instruction began (R10). -/
def Team.readsAs (T : Team) (b : Before) : Team :=
  { T with s := b.s, threads := T.threads.map (fun th => match b.threads.find? (·.lane == th.lane) with
      | some t0 => { th with p := t0.p }
      | none => th) }

/-- The tick that names the instruction at which the group of an entry stands: that of its first attempt. -/
def State.sinceOf (s : State) (e : Nat) : BitVec 64 :=
  match s.entry? e with
  | some E => if E.begun then E.since.getD s.tick else s.tick
  | none => s.tick

/-- The same of the group that issues. -/
def State.slotSince (s : State) : BitVec 64 :=
  match s.cur with
  | some c => s.sinceOf c.entry
  | none => s.tick

/-- A fault in a lane of a bound team, in an instruction that is tried in a state s0: the team's registers are as they stood before the instruction
began, what its lanes put into the replay buffer is taken out, and the whole team parks (R249). What queues and memory have been given stays.
DEDUCED, log entry 24. -/
def State.parkBound (s0 s : State) (c : Cur) (T : Team) (r : Record) (inside : Bool := true) : State :=
  let b := s0.before c.entry T
  let back := fun (U : Team) => { U with s := b.s, ecc := b.ecc, threads := U.threads.map (fun (th : Thread) =>
    match b.threads.find? (fun (x : Thread) => x.lane == th.lane) with
    | some t0 => { t0 with qslots := th.qslots }
    | none => th) }
  let since := s0.sinceOf c.entry
  let s1 : State := { s with requests := s.requests.filterMap (fun q => match q.who with
    | .threads accs =>
      let keep := accs.filter (fun x => !(T.is x.1.launch x.1.wg x.1.team && x.2.since == since))
      if keep.isEmpty then none else some { q with who := .threads keep }
    | _ => some q) }
  s1.updTeam T.launch T.wg T.idx (fun U => (back U).parkAll c.entry c.slot r inside)

/-- Applies to a thread what an instruction of an earlier tick brings it, also to the thread as the instruction at which its team's lanes wait
found it. -/
def State.updEarlier (s : State) (r : ThreadRef) (since : BitVec 64) (f : Thread → Thread) : State :=
  let s1 := s.updThread r f
  if s1.entries.all (·.before.isEmpty) then s1
  else { s1 with entries := s1.entries.map (fun E => if E.since == some since then E else
    { E with before := E.before.map (fun b =>
        if b.launch == r.launch && b.wg == r.wg && b.team == r.team then
          { b with threads := b.threads.map (fun th => if th.lane == r.lane then f th else th) } else b) }) }

/-- Performs one lane of an instruction that is tried in a state s0 and records how it ended; in order, a lane waits as long as a lower lane of its
team does (R253). -/
def State.performLane (s : State) (s0 : State) (c : Cur) (f : State → Team → Thread → LaneOut) (r : ThreadRef) (ordered : Bool := false) : State :=
  match s.thread? r with
  | none => s
  | some (T, th) =>
    if th.issuing c.entry then
      match (match (if ordered then T.heldBack c.entry th.lane else none) with
        | some n => LaneOut.wait s n
        | none => f s (T.readsAs (s0.before c.entry T)) th) with
      | .done s' => s'.updThread r (fun th => if th.issuing c.entry then { th with hold := .passed } else th)
      | .wait s' n => s'.updThread r (fun th => { th with hold := .at n })
      | .trap s' x =>
        let rec_ := s.record T th th.clause c.slot false x
        if T.bound then s0.parkBound s' c T rec_ else s'.updThread r (fun th => th.park rec_ c.slot true)
    else s

/-- Where lanes of the group wait at the slot that it has tried first in a state s0, its teams are remembered as they stood then. -/
def State.noteBefore (s s0 : State) (c : Cur) : State :=
  match s.entry? c.entry with
  | none => s
  | some E =>
    if !E.begun && s.teams.any (fun T => T.threads.any (fun th => th.issuing c.entry && (match th.hold with | .at _ => true | _ => false))) then
      s.setEntry { E with before := (s0.groupTeams c.entry).map Team.asBefore }
    else s

/-- An instruction whose lanes act one after another; in order, none of a team before a lower one (R253). -/
def State.foldLanes (s : State) (g : Guard) (f : State → Team → Thread → LaneOut) (ordered : Bool := false) : State :=
  match s.cur with
  | none => s
  | some c =>
    let (s1, ls) := s.laneOrder c.entry g
    (ls.foldl (fun a q => a.performLane s c f (q.1.ref q.2) ordered) s1).noteBefore s c

/-- Once per team of the group, in ascending team index, by its first executing lane (R332, R375). -/
def State.perTeam (s : State) (g : Guard) (f : State → Team → List Thread → State) : State :=
  match s.cur with
  | none => s
  | some c =>
    let ts := sortBy (fun (a b : Team) => decide (a.idx ≤ b.idx)) ((s.groupTeams c.entry).filter (fun T => !(T.executing c.entry g).isEmpty))
    ts.foldl (fun a T =>
      match a.team? T.launch T.wg T.idx with
      | none => a
      | some T' => f a T' (T'.executing c.entry g)) s

/-- Marks the executing lanes of a team: done, or waiting. -/
def State.markTeam (s : State) (T : Team) (e : Nat) (g : Guard) (h : Hold) : State :=
  s.updTeam T.launch T.wg T.idx (·.mapThreads (fun th => if th.issuing e && th.passes g then { th with hold := h } else th))

/-- Marks the executing lanes of the whole group. -/
def State.markGroup (s : State) (c : Cur) (g : Guard) (h : Hold) : State :=
  s.mapTeams (·.mapThreads (fun th => if th.issuing c.entry && th.passes g then { th with hold := h } else th))

/-- Parks the executing lanes of a team, each with a record of its own; all lanes of a bound team with one (R249). DEDUCED, log entry 24. -/
def State.trapTeam (s : State) (T : Team) (c : Cur) (g : Guard) (x : Trap) : State :=
  s.updTeam T.launch T.wg T.idx (fun T =>
    if T.bound then
      match T.executing c.entry g with
      | [] => T
      | th :: _ => T.parkAll c.entry c.slot (s.record T th th.clause c.slot false x)
    else T.mapThreads (fun th =>
      if th.issuing c.entry && th.passes g then th.park (s.record T th th.clause c.slot false x) c.slot true else th))

end Sys2Proof.Machine
end

