-- ==== Sys2Proof/Machine/Operands.lean ====
section
/-!
DEFINITION. Machine/Operands.lean: what each operand code reads and writes (05 R91 to R103): register groups, the last-result
file with its tags, the team's s registers, predicate masks, the special registers and the constants in the format of the
instruction's operands.
-/

namespace Sys2Proof.Machine

/-- The format in which a constant is delivered (R97): a sign-extended integer, or a floating value. -/
inductive OpFmt where
  | int
  | flt (t : Ty)
  deriving DecidableEq, Repr

/-- The format of an operand of a type. -/
def fmtOfTy (t : Ty) : OpFmt :=
  match t with
  | .f64 | .f32 | .f16 | .bf16 | .e4m3 | .e5m2 | .e2m1 => .flt t
  | _ => .int

/-- An integer constant as w bits of a format (R97). A value that the format does not hold exactly has no stated encoding: a free
value. DESIGN CHOICE, log entry 7. -/
def constBits (f : OpFmt) (w : Nat) (k : Int) : Nat :=
  match f with
  | .int => unsigned w k
  | .flt t =>
    match exactInt? t k with
    | some b => b
    | none => (Config.freeWord k.natAbs).toNat % 2 ^ (fmtOf t).bits

/-- The number in a run of registers, the lowest register lowest. -/
def regsNat (get : Nat → BitVec 32) : Nat → Nat → Nat
  | _, 0 => 0
  | n, k + 1 => (get n).toNat + 2 ^ 32 * regsNat get (n + 1) k

/-- Writes a number into a run of registers. -/
def putRegs (l : List (BitVec 32)) (n : Nat) : Nat → Nat → List (BitVec 32)
  | 0, _ => l
  | k + 1, x => putRegs (setAt l n (BitVec.ofNat 32 x)) (n + 1) k (x / 2 ^ 32)

/-- An s register; s7 is not one and reads 0 (R96). -/
def Team.sReg (T : Team) (n : Nat) : BitVec 32 := if n = 7 then 0 else T.s.getD n 0

/-- The mask of predicate n over the lanes of a team, of exited threads too (R102). -/
def Team.pMask (T : Team) (n : Nat) : Nat :=
  T.threads.foldl (fun a th => if th.p.getLsbD n then a + 2 ^ th.lane else a) 0

/-- What the tick operand delivers: the tick, or in a deterministic launch TICKD as it stood before the slot, which has been counted where it is
tried again (R97, R408). -/
def State.tickOf (s : State) (T : Team) : BitVec 64 :=
  if (s.launch T.launch).recd.det then
    (if (s.cur.bind (fun c => s.entry? c.entry)).any (·.begun) then T.tickd - 1 else T.tickd)
  else s.tick

/-- A source operand of w bits, as a number (R96, R97, R169). -/
def readSrc (tick : BitVec 64) (f : OpFmt) (w : Nat) (T : Team) (th : Thread) : Src → Nat
  | .v n => regsNat (fun k => th.v.getD k 0) n (w / 32)
  | .w n => regsNat (fun k => th.w.getD k 0) n (w / 32)
  | .y n => (if n = 0 then th.y0.val else th.y1.val).toNat % 2 ^ w
  | .tid => th.tid.toNat
  | .lane => th.lane
  | .gpc => th.gpc.toNat
  | .tick => tick.toNat % 2 ^ w
  | .one => constBits f w 1
  | .zero => constBits f w 0
  | .s n => regsNat T.sReg n (w / 32)
  | .pm n => T.pMask n % 2 ^ w
  | .imm k => constBits f w k

/-- A source operand as a bit vector. -/
def readBv (tick : BitVec 64) (f : OpFmt) (w : Nat) (T : Team) (th : Thread) (x : Src) : BitVec w :=
  BitVec.ofNat w (readSrc tick f w T th x)

/-- The marks of uncorrectable errors after the last-result shift: y1 takes that of y0, and y0 its own again where it keeps its value. -/
def shiftMarks (ecc : List Nat) (kept : Bool) : List Nat :=
  if ecc.isEmpty then ecc
  else
    let y0 := ecc.contains 0x108
    ecc.filter (fun k => k != 0x109 && (kept || k != 0x108)) ++ (if y0 then [0x109] else [])

/-- The last-result shift with a value that is present (R98). -/
def Thread.shiftY (th : Thread) (val : Nat) : Thread :=
  { th with y1 := th.y0, y0 := { val := BitVec.ofNat 64 val, tag := none }, ecc := shiftMarks th.ecc false }

/-- The last-result shift of an outstanding result: y0 keeps its value and takes the tag (R99). -/
def Thread.shiftTag (th : Thread) (tag : Nat) : Thread :=
  { th with y1 := th.y0, y0 := { val := th.y0.val, tag := some tag }, ecc := shiftMarks th.ecc true }

/-- The bit of predicate n. -/
def predBit (n : Nat) : BitVec 12 := BitVec.ofNat 12 (2 ^ n)

/-- Writes a predicate of a thread. -/
def Thread.setP (th : Thread) (n : Nat) (b : Bool) : Thread :=
  { th with p := if b then th.p ||| predBit n else th.p &&& ~~~(predBit n), ecc := th.ecc.filter (· != 0x150 + n) }

/-- Writes a per-lane destination of w bits; an s destination is written by the team (R100, R102). -/
def Thread.put (th : Thread) (d : Dst) (w val : Nat) : Thread :=
  match d with
  | .v n => { th with v := putRegs th.v n (w / 32) val, ecc := th.ecc.filter (fun k => !(n ≤ k && k < n + w / 32)) }
  | .w n => { th with w := putRegs th.w n (w / 32) val, ecc := th.ecc.filter (fun k => !(0x100 + n ≤ k && k < 0x100 + n + w / 32)) }
  | .pm n => th.setP n (val / 2 ^ th.lane % 2 == 1)  -- 32 bits in a team of 64: lanes 32 to 63 take 0. DESIGN CHOICE, log entry 135
  | .s _ => th
  | .discard => th

/-- Does the destination shift y? One that is a predicate does not (R98, R184). -/
def dstShifts : Dst → Bool
  | .pm _ => false
  | _ => true

/-- WriteDest (R9): the destination and the last-result shift. -/
def Thread.writeDest (th : Thread) (d : Dst) (w val : Nat) : Thread :=
  if dstShifts d then (th.put d w val).shiftY val else th.put d w val

/-- The s destination of an instruction, if it has one, with its width. -/
def sDest (d : Dst) (w : Nat) : List (Nat × Nat) := ((sRegOf d).map (·, w)).toList

/-- A lane that writes one destination of w bits. -/
def laneWrite (th : Thread) (d : Dst) (w val : Nat) : Lane :=
  .done (th.writeDest d w val) (if (sRegOf d).isSome then [val] else [])

/-- Is the source a per-lane one (R100)? -/
def perLaneSrc : Src → Bool
  | .v _ | .w _ | .y _ | .tid | .lane | .gpc => true
  | _ => false

/-- The v registers that a source of w bits names (R93). -/
def srcRegs (w : Nat) : Src → List Nat
  | .v n => (List.range (w / 32)).map (n + ·)
  | _ => []

/-- The v registers that a destination of w bits names (R93). -/
def dstRegs (w : Nat) : Dst → List Nat
  | .v n => (List.range (w / 32)).map (n + ·)
  | _ => []

/-- A field of an instruction that a record of 0x041 names (R291). -/
structure Field where
  code : Nat
  src  : Src
  w    : Nat
  deriving DecidableEq, Repr

/-- The first executing lanes of a team that disagree on a source: the lowest lane and the lowest that differs (R100,
R291). DEDUCED, log entry 26. -/
def Team.disagree (T : Team) (tick : BitVec 64) (lanes : List Thread) (x : Field) : Option (Nat × Nat) :=
  match lanes with
  | [] => none
  | th0 :: rest =>
    (rest.find? (fun th => readSrc tick .int x.w T th x.src != readSrc tick .int x.w T th0 x.src)).map (fun th => (th0.lane, th.lane))

/-- 0x041: a source that must be uniform over each team differs (R100, R291). -/
def State.uniformCheck (s : State) (g : Guard) (xs : List Field) : Option (Trap × Nat) :=
  match s.cur with
  | none => none
  | some c =>
    s.teams.findSome? (fun T => xs.findSome? (fun x =>
      (T.disagree (s.tickOf T) (T.executing c.entry g) x).map (fun q =>
        ({ cause := 0x041, sub := q.2 * 256 + x.code }, q.1))))

/-- An instruction's checks before any lane reads a source, in the order of R180 and R10: the block limit of its registers, then
the sources that must be uniform. What it does when they pass is k. -/
def State.checked (s : State) (g : Guard) (regs : List Nat) (uni : List Field) (k : State → State) : State :=
  match s.blockCheck regs with
  | some x => s.groupFault x
  | none =>
    match s.uniformCheck g uni with
    | some (x, lane) => s.groupFaultAt x lane
    | none => k s

/-- The per-lane sources that an s destination makes uniform (R100). -/
def uniformFor (d : Dst) (xs : List Field) : List Field :=
  if (sRegOf d).isSome then xs.filter (fun x => perLaneSrc x.src) else []

/-- The 9-bit codes of the register-file entries that a lane reads for a source. -/
def srcCodes (w : Nat) : Src → List Nat
  | .v n => (List.range (w / 32)).map (n + ·)
  | .w n => (List.range (w / 32)).map (0x100 + n + ·)
  | .s n => (List.range (w / 32)).map (0x110 + n + ·)
  | .y n => [0x108 + n]
  | .pm n => [0x150 + n]
  | _ => []

/-- Has a register that a lane reads by its code an uncorrectable error: of its own, of its team, or, of a predicate mask, of any of its lanes? -/
def Thread.marked (th : Thread) (T : Team) (k : Nat) : Bool :=
  th.ecc.contains k || T.ecc.contains k || (0x150 ≤ k && T.threads.any (·.ecc.contains k))

/-- The machine check of a lane that reads a register with an uncorrectable error (R400). -/
def Thread.eccTrap (th : Thread) (T : Team) (xs : List Field) : Option Trap :=
  if T.ecc.isEmpty && T.threads.all (·.ecc.isEmpty) && th.ecc.isEmpty then none
  else ((xs.flatMap (fun x => srcCodes x.w x.src)).find? (th.marked T)).map (fun k => { cause := 0x1e0, sub := k })

/-- The machine check of lanes that read predicates of their own with an uncorrectable error (R400). -/
def predTrap (ths : List Thread) (ps : List Nat) : Option Trap :=
  (ps.find? (fun n => ths.any (·.ecc.contains (0x150 + n)))).map (fun n => { cause := 0x1e0, sub := 0x150 + n })

/-- A lane that first reads predicates of its own. -/
def withPreds (ps : List Nat) (f : Team → Thread → Lane) (T : Team) (th : Thread) : Lane :=
  match predTrap [th] ps with
  | some x => .trap th x
  | none => f T th

/-- A lane that first reads its sources. DESIGN CHOICE, log entry 15. -/
def withEcc (xs : List Field) (f : Team → Thread → Lane) (T : Team) (th : Thread) : Lane :=
  match th.eccTrap T xs with
  | some x => .trap th x
  | none => f T th

/-- An instruction that acts for a team or a group as one: first each lane that reads a register with an uncorrectable error takes its machine
check (R400), then the others go on. -/
def State.afterEcc (s : State) (g : Guard) (xs : List Field) (k : State → State) : State :=
  match s.cur with
  | none => k s
  | some c =>
    k ((s.executing c.entry g).foldl (fun a q => match q.2.eccTrap q.1 xs with
      | some x => a.performLane s c (fun s _ _ => .trap s x) (q.1.ref q.2)
      | none => a) s)

/-- An instruction whose lanes act each on its own thread, with its sources xs, the registers regs it names besides, and the
destination d. -/
def State.issueWith (s : State) (g : Guard) (d : Dst) (wd : Nat) (xs : List Field) (regs : List Nat)
    (f : Team → Thread → Lane) : State :=
  s.checked g (dstRegs wd d ++ xs.flatMap (fun x => srcRegs x.w x.src) ++ regs) (uniformFor d xs)
    (fun s => s.perLane g (sDest d wd) (withEcc xs f))

/-- The same without other registers. -/
def State.issue (s : State) (g : Guard) (d : Dst) (wd : Nat) (xs : List Field) (f : Team → Thread → Lane) : State :=
  s.issueWith g d wd xs [] f

/-- An instruction whose lanes act one after another on the state, with its sources xs, its destination d and the sources uni
that must be uniform; those of the MEM and SYS classes act in lane order (R253, R371). -/
def State.issueMem (s : State) (g : Guard) (d : Dst) (wd : Nat) (xs uni : List Field) (f : State → Team → Thread → LaneOut)
    (ordered : Bool := true) : State :=
  s.checked g (dstRegs wd d ++ xs.flatMap (fun x => srcRegs x.w x.src)) (uniformFor d xs ++ uni)
    (fun s => s.foldLanes g (fun s T th =>
      match th.eccTrap T xs with
      | some x => .trap s x
      | none => f s T th) ordered)

/-! ## Outstanding results (R99) -/

/-- An outstanding result is issued: it takes the next tag, and the last-result shift takes place where its destination shifts (R98). -/
def Thread.issued (th : Thread) (d : Dst) : Thread :=
  if dstShifts d then { th.shiftTag th.nextTag with nextTag := th.nextTag + 1 } else { th with nextTag := th.nextTag + 1 }

/-- Makes a result outstanding, with the exceptions that it raises when it returns (R99, R207). -/
def Thread.await (th : Thread) (d : Dst) (w val : Nat) (prod : Producer) (clause : BitVec 64) (slot : Nat) (since : BitVec 64)
    (exc : BitVec 5 := 0) : Thread :=
  { th.issued d with
    outst := th.outst ++ [{ tag := th.nextTag, dst := d, bits := w, val := val, prod := prod, exc := exc, clause := clause, slot := slot
                            since := since }] }

/-- Puts a result into the y slot that holds its tag (R99). -/
def Thread.satisfy (th : Thread) (tag val : Nat) : Thread :=
  let f := fun (y : YSlot) => if y.tag = some tag then { val := BitVec.ofNat 64 val, tag := none } else y
  let fresh := fun (k : Nat) => (k == 0x108 && th.y0.tag == some tag) || (k == 0x109 && th.y1.tag == some tag)
  { th with y0 := f th.y0, y1 := f th.y1, ecc := th.ecc.filter (fun k => !fresh k) }

end Sys2Proof.Machine
end

