-- ==== Sys2Proof/Machine/Flags.lean ====
section
/-!
DEFINITION. Machine/Flags.lean: the floating-point mode word: sticky flags and trap enables (06 R118, R119), and the lanes of
the instructions that raise exceptions.
-/

namespace Sys2Proof.Machine

/-- The sticky flags of a mode word: invalid, divide by zero, overflow, underflow, inexact from bit 0 (R118). -/
def modeFlags (m : BitVec 32) : Exc := m.extractLsb' 0 5

/-- The trap enables of a mode word, in the same order (R118). -/
def modeEnables (m : BitVec 32) : Exc := m.extractLsb' 8 5

/-- A mode word as ctr.setmode may write it: its reserved bits are zero (R118). -/
def modeOk (m : BitVec 32) : Bool := m &&& 0xffffe0e0#32 == 0

/-- The sticky flags of the exceptions raised are set (R119, step 1). -/
def Thread.stick (th : Thread) (e : Exc) : Thread := { th with mode := th.mode ||| e.zeroExtend 32 }

/-- The fault of the lowest-numbered raised exception that is enabled (R119, step 2). -/
def Thread.excTrap (th : Thread) (e : Exc) : Option Trap :=
  ((List.range 5).find? (fun k => (e &&& modeEnables th.mode).getLsbD k)).map (fun k => { cause := 0x100 + k })

/-- A lane that raises exceptions e and, where none of them is enabled, does what k says (R119). -/
def raising (th : Thread) (e : Exc) (k : Thread → Lane) : Lane :=
  match th.excTrap e with
  | some x => .trap (th.stick e) x
  | none => k (th.stick e)

/-- A lane that writes a floating result (R119). -/
def floatWrite (th : Thread) (d : Dst) (w : Nat) (r : FRes) : Lane := raising th r.exc (fun th => laneWrite th d w r.bits)

/-- A source of a floating type: the low bits of its register, or a constant in the format (R206). -/
def readFlt (tick : BitVec 64) (t : Ty) (T : Team) (th : Thread) (x : Src) : Nat :=
  readSrc tick (.flt t) t.opBits T th x % 2 ^ (fmtOf t).bits

/-- A source of a packed pair: a constant goes to both elements (R206). -/
def readPair (tick : BitVec 64) (t : Ty) (T : Team) (th : Thread) (x : Src) : Nat × Nat :=
  match x with
  | .one | .zero | .imm _ => let b := readFlt tick t T th x; (b, b)
  | _ => let n := readSrc tick .int 32 T th x; (n % 0x10000, n / 0x10000 % 0x10000)

/-- A packed result: the two elements and the union of their exceptions (R206). -/
def packPair (lo hi : FRes) : FRes := ⟨lo.bits + 0x10000 * hi.bits, lo.exc ||| hi.exc⟩

/-- A floating instruction of one source. -/
def State.flt1 (s : State) (t : Ty) (g : Guard) (d : Dst) (a : Src) (f : Nat → FRes) : State :=
  s.issue g d t.opBits [⟨2, a, t.opBits⟩] (fun T th => floatWrite th d t.opBits (f (readFlt (s.tickOf T) t T th a)))

/-- A floating instruction of two sources. -/
def State.flt2 (s : State) (t : Ty) (g : Guard) (d : Dst) (a b : Src) (f : Nat → Nat → FRes) : State :=
  s.issue g d t.opBits [⟨2, a, t.opBits⟩, ⟨3, b, t.opBits⟩] (fun T th =>
    let rd := readFlt (s.tickOf T) t T th
    floatWrite th d t.opBits (f (rd a) (rd b)))

/-- A packed instruction of two sources. -/
def State.fltPair2 (s : State) (t : Ty) (g : Guard) (d : Dst) (a b : Src) (f : Nat → Nat → FRes) : State :=
  s.issue g d 32 [⟨2, a, 32⟩, ⟨3, b, 32⟩] (fun T th =>
    let x := readPair (s.tickOf T) t T th a
    let y := readPair (s.tickOf T) t T th b
    floatWrite th d 32 (packPair (f x.1 y.1) (f x.2 y.2)))

/-- An outstanding floating result with its exceptions (R207). -/
def Thread.awaitFlt (th : Thread) (d : Dst) (w : Nat) (r : FRes) (clause : BitVec 64) (slot : Nat) (since : BitVec 64) : Thread :=
  th.await d w r.bits .arith clause slot since r.exc

end Sys2Proof.Machine
end

