-- ==== Sys2Proof/Machine/Frozen.lean ====
section
/-!
DEFINITION. Machine/Frozen.lean: the seven special functions (11 R220 to R223). The table entries of R222 are computed here from
the functions themselves, in fixed point with 256 fraction bits, far beyond the precision at which any entry could round
otherwise.
-/

namespace Sys2Proof.Machine

/-! ## Fixed-point reals with 256 fraction bits -/

/-- One. -/
def fx1 : Int := 2 ^ 256

/-- A fraction. -/
def fxFrac (n d : Nat) : Int := (n * 2 ^ 256 / d : Nat)

/-- The product. -/
def fxMul (a b : Int) : Int := a * b / fx1

/-- The quotient. -/
def fxDiv (a b : Int) : Int := a * fx1 / b

/-- The root. -/
def fxSqrt (a : Int) : Int := isqrt (a.toNat * 2 ^ 256)

/-- The sum of the first n terms of a series: each is the last times a factor that depends on its index. -/
def fxSeries (step : Nat → Int → Int) : Nat → Nat → Int → Int
  | 0, _, _ => 0
  | n + 1, k, term => term + fxSeries step n (k + 1) (step k term)

/-- atanh x for small x = n / d: the sum of x^(2k+1) / (2k+1). -/
def fxAtanh (n d : Nat) : Int :=
  let x := fxFrac n d
  let x2 := fxMul x x
  ((List.range 140).foldl (fun (a : Int × Int) k => (a.1 + a.2 / (2 * k + 1 : Nat), fxMul a.2 x2)) (0, x)).1

/-- atan (1/n): the alternating sum. -/
def fxAtanInv (n : Nat) : Int :=
  ((List.range 140).foldl (fun (a : Int × Int) k => (a.1 + (if k % 2 = 0 then 1 else -1) * (a.2 / (2 * k + 1 : Nat)), a.2 / (n * n : Nat)))
    (0, fxFrac 1 n)).1

/-- The natural logarithm of 2. -/
def fxLn2 : Int := 2 * fxAtanh 1 3

/-- Pi. -/
def fxPi : Int := 4 * (4 * fxAtanInv 5 - fxAtanInv 239)

/-- e^x. -/
def fxExp (x : Int) : Int := fxSeries (fun k t => fxMul t x / (k + 1 : Nat)) 160 0 fx1

/-- sin x. -/
def fxSin (x : Int) : Int := fxSeries (fun k t => -(fxMul (fxMul t x) x / ((2 * k + 2) * (2 * k + 3) : Nat))) 60 0 x

/-- cos x. -/
def fxCos (x : Int) : Int := fxSeries (fun k t => -(fxMul (fxMul t x) x / ((2 * k + 1) * (2 * k + 2) : Nat))) 60 0 fx1

/-- RoundInt of x * 2^k: the nearest integer, ties to even (R222). -/
def fxRound (x : Int) (k : Nat) : Int :=
  let y := x * 2 ^ k
  let lo := y / fx1
  let r := y % fx1
  if fx1 < 2 * r ∨ (2 * r = fx1 ∧ lo % 2 = 1) then lo + 1 else lo

/-! ## The tables (R220, R222) -/

/-- The frozen tables: fsinpi and fcospi share S and C. -/
inductive Frozen where
  | rcp | rsq | exp2 | log2 | sin | cos | tanh
  deriving DecidableEq, Repr

/-- g, g' and g''/2 at the centre of segment j, with the segment width as a power of two. -/
def frozenTaylor : Frozen → Nat → Int × Int × Int × Nat
  | .rcp, j =>
    let r := fxFrac 512 (513 + 2 * j)
    (r, -fxMul r r, fxMul r (fxMul r r), 8)
  | .rsq, j =>
    -- v = 2^eps * (257 + 2 (j mod 128)) / 256
    let eps := j / 128
    let inv := fxFrac 256 (2 ^ eps * (257 + 2 * (j % 128)))
    let r := fxSqrt inv
    (r, -(fxMul r inv / 2), fxMul r (fxMul inv inv) * 3 / 8, 7 - eps)
  | .exp2, j =>
    let e := fxExp (fxMul fxLn2 (fxFrac (2 * j + 1) 512))
    (e, fxMul e fxLn2, fxMul e (fxMul fxLn2 fxLn2) / 2, 8)
  | .log2, j =>
    let r := fxFrac 512 (513 + 2 * j)
    (fxDiv (2 * fxAtanh (2 * j + 1) (1025 + 2 * j)) fxLn2, fxDiv r fxLn2, -(fxDiv (fxMul r r) fxLn2 / 2), 8)
  | .sin, j =>
    let x := fxMul fxPi (fxFrac (2 * j + 1) 1024)
    (fxSin x, fxMul fxPi (fxCos x), -(fxMul (fxMul fxPi fxPi) (fxSin x) / 2), 9)
  | .cos, j =>
    let x := fxMul fxPi (fxFrac (2 * j + 1) 1024)
    (fxCos x, -fxMul fxPi (fxSin x), -(fxMul (fxMul fxPi fxPi) (fxCos x) / 2), 9)
  | .tanh, j =>
    let e := fxExp (fxFrac (2 * j + 1) 32)
    let t := fxDiv (e - fx1) (e + fx1)
    let d := fx1 - fxMul t t
    (t, d, -fxMul t d, 5)

/-- The entry (c0, c1, c2) of segment j (R222). -/
def frozenEntry (t : Frozen) (j : Nat) : Int × Int × Int :=
  let (g0, g1, g2, w) := frozenTaylor t j
  (fxRound g0 30, fxRound g1 (28 - w), if 2 * w ≤ 26 then fxRound g2 (26 - 2 * w) else 0)

/-- FrozenEval: E in units of 2^-30 (R221). -/
def frozenEval (c : Int × Int × Int) (f : Nat) : Int :=
  let d : Int := (f : Int) - 0x8000
  let p1 := c.2.1 * d / 2 ^ 14
  let q := d * d / 2 ^ 16
  let p2 := c.2.2 * q / 2 ^ 12
  c.1 + p1 + p2

/-- E with the exact left end of each interval (R221). -/
def frozenE (t : Frozen) (j f : Nat) : Int :=
  if j = 0 ∧ f = 0 ∧ t ≠ .tanh then (if t = .log2 ∨ t = .sin then 0 else 2 ^ 30) else frozenEval (frozenEntry t j) f

/-! ## The functions (R220, R223) -/

/-- A finite nonzero f32 as 2^e * (1 + f / 2^23): e and f, subnormals normalised. -/
def normF32 (m : Nat) (e : Int) : Int × Nat :=
  let k := m.log2
  ((e + k : Int), m * 2 ^ (23 - k) - 2 ^ 23)

/-- The final Round, to f32; the result raises inexact (R220, R223). -/
def frozenRound (n : Int) (e : Int) (zneg : Bool) : FRes :=
  let r := roundDyadic .f32 .rne false false zneg n e
  { r with exc := r.exc ||| excX }

/-- An exact result. -/
def exactRes (b : Nat) : FRes := ⟨b, 0⟩

/-- 1.0 of f32. -/
def oneF32 : Nat := 0x3f800000

/-- frcp. -/
def frcp (a : Nat) : FRes :=
  match fval .f32 a with
  | .nan sg => nanRes .f32 [.nan sg]
  | .inf neg => exactRes (withSign .f32 neg 0)
  | .fin neg 0 _ => ⟨withSign .f32 neg (infBits .f32), excZ⟩
  | .fin neg m e =>
    let (k, f) := normF32 m e
    frozenRound (smant neg (frozenE .rcp (f / 2 ^ 15) (f % 2 ^ 15 * 2)).toNat) (-k - 30) false

/-- frsq. -/
def frsq (a : Nat) : FRes :=
  match fval .f32 a with
  | .nan sg => nanRes .f32 [.nan sg]
  | .inf false => exactRes 0
  | .inf true => invalidRes .f32
  | .fin neg 0 _ => ⟨withSign .f32 neg (infBits .f32), excZ⟩
  | .fin true _ _ => invalidRes .f32
  | .fin false m e =>
    let (k, f) := normF32 m e
    let eps := (k % 2).toNat
    frozenRound (frozenE .rsq (eps * 128 + f / 2 ^ 16) (f % 2 ^ 16)) (-((k - eps) / 2) - 30) false

/-- floor (x * 2^k) of a dyadic x = n * 2^e. -/
def floorDy (n : Int) (e : Int) (k : Nat) : Int :=
  let j := e + k
  if 0 ≤ j then n * 2 ^ j.toNat else n / 2 ^ (-j).toNat

/-- fexp2. A power of two beyond the range of f32 rounds as its bound does. -/
def fexp2 (a : Nat) : FRes :=
  match fval .f32 a with
  | .nan sg => nanRes .f32 [.nan sg]
  | .inf neg => exactRes (if neg then 0 else infBits .f32)
  | .fin _ 0 _ => exactRes oneF32
  | .fin neg m e =>
    let x := smant neg m
    let n := floorDy x e 0
    let u := (floorDy x e 24 - n * 2 ^ 24).toNat
    frozenRound (frozenE .exp2 (u / 2 ^ 16) (u % 2 ^ 16)) (max (-1000) (min 1000 n) - 30) false

/-- flog2. -/
def flog2 (a : Nat) : FRes :=
  match fval .f32 a with
  | .nan sg => nanRes .f32 [.nan sg]
  | .inf false => exactRes (infBits .f32)
  | .inf true => invalidRes .f32
  | .fin _ 0 _ => ⟨withSign .f32 true (infBits .f32), excZ⟩
  | .fin true _ _ => invalidRes .f32
  | .fin false m e =>
    let (k, f) := normF32 m e
    frozenRound (k * 2 ^ 30 + frozenE .log2 (f / 2 ^ 15) (f % 2 ^ 15 * 2)) (-30) false

/-- The reduction of fsinpi and fcospi: the quadrant and U. -/
def quadrant (x : Int) (e : Int) : Nat × Nat :=
  -- v0 in units of 2^-k
  let k := (-e).toNat
  let v0 := (x * 2 ^ e.toNat) % (2 ^ (k + 1) : Int)
  let q := 2 * v0 / (2 ^ k : Int)
  let a2 := 2 * v0 - q * 2 ^ k
  (q.toNat, (a2 * 2 ^ 24 / (2 ^ k : Int)).toNat)

/-- The value of fsinpi or fcospi by quadrant. -/
def sinpiBy (isCos : Bool) (q u : Nat) : Int :=
  let own : Frozen := if isCos then .cos else .sin
  let other : Frozen := if isCos then .sin else .cos
  let e := frozenE (if q % 2 = 0 then own else other) (u / 2 ^ 16) (u % 2 ^ 16)
  let minus := if isCos then q = 1 ∨ q = 2 else q = 2 ∨ q = 3
  if minus then -e else e

/-- Is a finite value less than 2^-k in magnitude? -/
def below (m : Nat) (e : Int) (k : Nat) : Bool := decide (floorDy m e k = 0)

/-- fsinpi. -/
def fsinpi (a : Nat) : FRes :=
  match fval .f32 a with
  | .nan sg => nanRes .f32 [.nan sg]
  | .inf _ => invalidRes .f32
  | .fin neg 0 _ => exactRes (withSign .f32 neg 0)
  | .fin neg m e =>
    if below m e 14 then
      -- pi * x with pi to 256 places: no f32 lies so near a tie that the rest could count
      frozenRound (smant neg (m * fxPi.toNat)) (e - 256) neg
    else
      let (q, u) := quadrant (smant neg m) e
      frozenRound (sinpiBy false q u) (-30) neg

/-- fcospi. -/
def fcospi (a : Nat) : FRes :=
  match fval .f32 a with
  | .nan sg => nanRes .f32 [.nan sg]
  | .inf _ => invalidRes .f32
  | .fin _ 0 _ => exactRes oneF32
  | .fin neg m e =>
    let (q, u) := quadrant (smant neg m) e
    frozenRound (sinpiBy true q u) (-30) false

/-- The polynomial of ftanh for a small argument x = m * 2^e, over the denominator 315. -/
def tanhSmall (neg : Bool) (m : Nat) (e : Int) : FRes :=
  -- 315 x - 105 x^3 + 42 x^5 - 17 x^7, in units of 2^(7 e), with e negative
  let k := (-e).toNat
  let x : Int := m
  let n := 315 * x * 2 ^ (6 * k) - 105 * x ^ 3 * 2 ^ (4 * k) + 42 * x ^ 5 * 2 ^ (2 * k) - 17 * x ^ 7
  let r := roundFrac .f32 .rne false false neg false n.toNat (315 * 2 ^ (7 * k))
  { r with exc := r.exc ||| excX }

/-- ftanh. -/
def ftanh (a : Nat) : FRes :=
  match fval .f32 a with
  | .nan sg => nanRes .f32 [.nan sg]
  | .inf neg => exactRes (withSign .f32 neg oneF32)
  | .fin neg 0 _ => exactRes (withSign .f32 neg 0)
  | .fin neg m e =>
    if below m e 5 then tanhSmall neg m e
    else
      let j := floorDy m e 5
      if 256 ≤ j then ⟨withSign .f32 neg oneF32, excX⟩
      else
        let f := (floorDy m e 21 - j * 2 ^ 16).toNat % 2 ^ 16
        frozenRound (smant neg (frozenE .tanh j.toNat f).toNat) (-30) neg

end Sys2Proof.Machine
end

