-- ==== Sys2Proof/Machine/Int.lean ====
section
/-!
DEFINITION. Machine/Int.lean: the INT class: integer, bit, predicate and move instructions (10 R183 to R204).
-/

namespace Sys2Proof.Machine

/-! ## Shared operations -/

/-- One source and one destination of w bits. -/
def State.alu1 (s : State) (w : Nat) (g : Guard) (d : Dst) (a : Src) (f : BitVec w → BitVec w) : State :=
  s.issue g d w [⟨2, a, w⟩] (fun T th => laneWrite th d w (f (readBv (s.tickOf T) .int w T th a)).toNat)

/-- Two sources and one destination of w bits. -/
def State.alu2 (s : State) (w : Nat) (g : Guard) (d : Dst) (a b : Src) (f : BitVec w → BitVec w → BitVec w) : State :=
  s.issue g d w [⟨2, a, w⟩, ⟨3, b, w⟩] (fun T th =>
    laneWrite th d w (f (readBv (s.tickOf T) .int w T th a) (readBv (s.tickOf T) .int w T th b)).toNat)

/-- One source, a literal and one destination of 32 bits (R190). -/
def State.aluK (s : State) (g : Guard) (d : Dst) (a : Src) (k : BitVec 32) (f : BitVec 32 → BitVec 32 → BitVec 32) : State :=
  s.alu1 32 g d a (fun x => f x k)

/-- A predicate from the predicates ps (R189). -/
def State.predOp (s : State) (g : Guard) (ps : List Nat) (f : Thread → Thread) : State :=
  s.perLane g [] (withPreds ps (fun _ th => .done (f th) []))

/-- Predicate n of a thread. -/
def Thread.pred (th : Thread) (n : Nat) : Bool := th.p.getLsbD n

/-- The width of an integer type (R106). -/
def intBits : Ty → Nat
  | .i8 | .n8 => 8
  | .i16 | .n16 => 16
  | .i64 | .n64 => 64
  | _ => 32

/-- Is the integer type signed? -/
def isSigned : Ty → Bool
  | .i8 | .i16 | .i32 | .i64 => true
  | _ => false

/-- The value of an operand of an integer type (R183). -/
def intVal (t : Ty) (x : Nat) : Int :=
  if isSigned t then signed (intBits t) (x % 2 ^ intBits t) else (x % 2 ^ intBits t : Nat)

/-- The register image of a result of an integer type (R183). -/
def intReg (t : Ty) (x : Int) : Nat :=
  let n := unsigned (intBits t) x
  if isSigned t then unsigned (max 32 (intBits t)) (signed (intBits t) n) else n

/-- The least and the greatest value of an integer type (R106). -/
def intMin (t : Ty) : Int := if isSigned t then -(2 ^ (intBits t - 1) : Nat) else 0
def intMax (t : Ty) : Int := if isSigned t then (2 ^ (intBits t - 1) : Nat) - 1 else (2 ^ intBits t : Nat) - 1

/-- Clamps to the range of a type (R106). -/
def intClamp (t : Ty) (x : Int) : Int := max (min x (intMax t)) (intMin t)

/-! ## S forms: arithmetic and logic (R186) -/

def execIaddI32 (g : Guard) (d : Dst) (a b : Src) (s : State) : Host.Outcome State Fault Refusal := .next (s.alu2 32 g d a b (· + ·))
def execIsubI32 (g : Guard) (d : Dst) (a b : Src) (s : State) : Host.Outcome State Fault Refusal := .next (s.alu2 32 g d a b (· - ·))
def execIaddI64 (g : Guard) (d : Dst) (a b : Src) (s : State) : Host.Outcome State Fault Refusal := .next (s.alu2 64 g d a b (· + ·))
def execIsubI64 (g : Guard) (d : Dst) (a b : Src) (s : State) : Host.Outcome State Fault Refusal := .next (s.alu2 64 g d a b (· - ·))
def execImulI32 (g : Guard) (d : Dst) (a b : Src) (s : State) : Host.Outcome State Fault Refusal := .next (s.alu2 32 g d a b (· * ·))

/-- Bits [63:32] of the signed product. -/
def mulHiS (a b : BitVec 32) : BitVec 32 := (BitVec.ofInt 64 (a.toInt * b.toInt)).extractLsb' 32 32
/-- Bits [63:32] of the unsigned product. -/
def mulHiU (a b : BitVec 32) : BitVec 32 := (BitVec.ofNat 64 (a.toNat * b.toNat)).extractLsb' 32 32

def execImulhiI32 (g : Guard) (d : Dst) (a b : Src) (s : State) : Host.Outcome State Fault Refusal := .next (s.alu2 32 g d a b mulHiS)
def execImulhiN32 (g : Guard) (d : Dst) (a b : Src) (s : State) : Host.Outcome State Fault Refusal := .next (s.alu2 32 g d a b mulHiU)
def execIminI32 (g : Guard) (d : Dst) (a b : Src) (s : State) : Host.Outcome State Fault Refusal :=
  .next (s.alu2 32 g d a b (fun x y => if x.toInt ≤ y.toInt then x else y))
def execImaxI32 (g : Guard) (d : Dst) (a b : Src) (s : State) : Host.Outcome State Fault Refusal :=
  .next (s.alu2 32 g d a b (fun x y => if x.toInt ≤ y.toInt then y else x))
def execIminN32 (g : Guard) (d : Dst) (a b : Src) (s : State) : Host.Outcome State Fault Refusal :=
  .next (s.alu2 32 g d a b (fun x y => if x.toNat ≤ y.toNat then x else y))
def execImaxN32 (g : Guard) (d : Dst) (a b : Src) (s : State) : Host.Outcome State Fault Refusal :=
  .next (s.alu2 32 g d a b (fun x y => if x.toNat ≤ y.toNat then y else x))
def execAndB32 (g : Guard) (d : Dst) (a b : Src) (s : State) : Host.Outcome State Fault Refusal := .next (s.alu2 32 g d a b (· &&& ·))
def execOrB32 (g : Guard) (d : Dst) (a b : Src) (s : State) : Host.Outcome State Fault Refusal := .next (s.alu2 32 g d a b (· ||| ·))
def execXorB32 (g : Guard) (d : Dst) (a b : Src) (s : State) : Host.Outcome State Fault Refusal := .next (s.alu2 32 g d a b (· ^^^ ·))
def execAndnB32 (g : Guard) (d : Dst) (a b : Src) (s : State) : Host.Outcome State Fault Refusal :=
  .next (s.alu2 32 g d a b (fun x y => x &&& ~~~y))

/-! ## Shifts (R187) -/

/-- shl: a count of 32 or more gives 0. -/
def shl32 (a b : BitVec 32) : BitVec 32 := if 32 ≤ b.toNat then 0 else a <<< b.toNat
/-- shr: a count of 32 or more gives 0. -/
def shr32 (a b : BitVec 32) : BitVec 32 := if 32 ≤ b.toNat then 0 else a >>> b.toNat
/-- sar: a count of 32 or more gives copies of the sign. -/
def sar32 (a b : BitVec 32) : BitVec 32 := if 32 ≤ b.toNat then (if a.msb then BitVec.allOnes 32 else 0) else a.sshiftRight b.toNat
/-- rotl: the count modulo 32. -/
def rotl32 (a b : BitVec 32) : BitVec 32 := a.rotateLeft (b.toNat % 32)

def execShl (g : Guard) (d : Dst) (a b : Src) (s : State) : Host.Outcome State Fault Refusal := .next (s.alu2 32 g d a b shl32)
def execShr (g : Guard) (d : Dst) (a b : Src) (s : State) : Host.Outcome State Fault Refusal := .next (s.alu2 32 g d a b shr32)
def execSar (g : Guard) (d : Dst) (a b : Src) (s : State) : Host.Outcome State Fault Refusal := .next (s.alu2 32 g d a b sar32)
def execRotl (g : Guard) (d : Dst) (a b : Src) (s : State) : Host.Outcome State Fault Refusal := .next (s.alu2 32 g d a b rotl32)

/-! ## One operand (R188) -/

/-- The number of 1 bits. -/
def popc32 (a : BitVec 32) : BitVec 32 := BitVec.ofNat 32 ((List.range 32).countP a.getLsbD)
/-- The number of 0 bits above the highest 1 bit. -/
def clz32 (a : BitVec 32) : BitVec 32 := BitVec.ofNat 32 (if a = 0 then 32 else 31 - a.toNat.log2)
/-- The number of 0 bits below the lowest 1 bit. -/
def ctz32 (a : BitVec 32) : BitVec 32 := BitVec.ofNat 32 (((List.range 32).find? a.getLsbD).getD 32)
/-- The bits in reverse order. -/
def brev32 (a : BitVec 32) : BitVec 32 := a.reverse
/-- The magnitude; that of the most negative number is itself. -/
def iabs32 (a : BitVec 32) : BitVec 32 := if 0 ≤ a.toInt then a else 0 - a

def execPopc (g : Guard) (d : Dst) (a : Src) (s : State) : Host.Outcome State Fault Refusal := .next (s.alu1 32 g d a popc32)
def execClz (g : Guard) (d : Dst) (a : Src) (s : State) : Host.Outcome State Fault Refusal := .next (s.alu1 32 g d a clz32)
def execCtz (g : Guard) (d : Dst) (a : Src) (s : State) : Host.Outcome State Fault Refusal := .next (s.alu1 32 g d a ctz32)
def execBrev (g : Guard) (d : Dst) (a : Src) (s : State) : Host.Outcome State Fault Refusal := .next (s.alu1 32 g d a brev32)
def execIabsI32 (g : Guard) (d : Dst) (a : Src) (s : State) : Host.Outcome State Fault Refusal := .next (s.alu1 32 g d a iabs32)
def execInegI32 (g : Guard) (d : Dst) (a : Src) (s : State) : Host.Outcome State Fault Refusal := .next (s.alu1 32 g d a (fun x => 0 - x))
def execMov (g : Guard) (d : Dst) (a : Src) (s : State) : Host.Outcome State Fault Refusal := .next (s.alu1 32 g d a id)

/-! ## Predicates (R189) -/

def execPand (g : Guard) (d a b : Nat) (s : State) : Host.Outcome State Fault Refusal :=
  .next (s.predOp g [a, b] (fun th => th.setP d (th.pred a && th.pred b)))
def execPor (g : Guard) (d a b : Nat) (s : State) : Host.Outcome State Fault Refusal :=
  .next (s.predOp g [a, b] (fun th => th.setP d (th.pred a || th.pred b)))
def execPxor (g : Guard) (d a b : Nat) (s : State) : Host.Outcome State Fault Refusal :=
  .next (s.predOp g [a, b] (fun th => th.setP d (th.pred a != th.pred b)))
def execPnot (g : Guard) (d a : Nat) (s : State) : Host.Outcome State Fault Refusal :=
  .next (s.predOp g [a] (fun th => th.setP d (!th.pred a)))

/-! ## Literal forms (R190) -/

def execMovi (g : Guard) (d : Dst) (k : BitVec 32) (s : State) : Host.Outcome State Fault Refusal :=
  .next (s.issue g d 32 [] (fun _ th => laneWrite th d 32 k.toNat))
def execIaddi (g : Guard) (d : Dst) (a : Src) (k : BitVec 32) (s : State) : Host.Outcome State Fault Refusal := .next (s.aluK g d a k (· + ·))
def execAndi (g : Guard) (d : Dst) (a : Src) (k : BitVec 32) (s : State) : Host.Outcome State Fault Refusal := .next (s.aluK g d a k (· &&& ·))
def execOri (g : Guard) (d : Dst) (a : Src) (k : BitVec 32) (s : State) : Host.Outcome State Fault Refusal := .next (s.aluK g d a k (· ||| ·))
def execXori (g : Guard) (d : Dst) (a : Src) (k : BitVec 32) (s : State) : Host.Outcome State Fault Refusal := .next (s.aluK g d a k (· ^^^ ·))

/-! ## L forms: arithmetic (R191 to R196, R199) -/

/-- imad. -/
def execImad (g : Guard) (ty : Ty) (d : Dst) (a b c : Src) (s : State) : Host.Outcome State Fault Refusal :=
  let w := ty.opBits
  .next (s.issue g d w [⟨2, a, w⟩, ⟨3, b, w⟩, ⟨4, c, w⟩] (fun T th =>
    let rd := readBv (s.tickOf T) .int w T th
    laneWrite th d w (rd a * rd b + rd c).toNat))

/-- The quotient and the remainder of idiv and irem (R192). -/
def divRem (t : Ty) (x y : Nat) : Nat × Nat :=
  let w := intBits t
  let a := intVal t x
  let b := intVal t y
  if b = 0 then (2 ^ w - 1, x % 2 ^ w)
  else if isSigned t && a == intMin t && b == -1 then (x % 2 ^ w, 0)
  else (unsigned w (a.tdiv b), unsigned w (a.tmod b))

/-- An outstanding result of two integer operands (R185, R192). -/
def State.divOp (s : State) (g : Guard) (ty : Ty) (d : Dst) (a b : Src) (f : Nat → Nat → Nat) : State :=
  let w := ty.opBits
  s.checked g (dstRegs w d ++ srcRegs w a ++ srcRegs w b) (uniformFor d [⟨2, a, w⟩, ⟨3, b, w⟩])
    (fun s => s.perLane g [] (withEcc [⟨2, a, w⟩, ⟨3, b, w⟩] (fun T th =>
      let rd := readSrc (s.tickOf T) .int w T th
      .done (th.await d w (f (rd a) (rd b)) .arith th.clause ((s.cur.map (·.slot)).getD 0) s.slotSince) [])))

def execIdiv (g : Guard) (ty : Ty) (d : Dst) (a b : Src) (s : State) : Host.Outcome State Fault Refusal :=
  .next (s.divOp g ty d a b (fun x y => (divRem ty x y).1))
def execIrem (g : Guard) (ty : Ty) (d : Dst) (a b : Src) (s : State) : Host.Outcome State Fault Refusal :=
  .next (s.divOp g ty d a b (fun x y => (divRem ty x y).2))

/-- A condition of icmp on two integers (R193). -/
def icondHolds (cc : ICond) (x y : Int) : Bool :=
  match cc with
  | .eq => x == y
  | .ne => x != y
  | .lt => decide (x < y)
  | .le => decide (x ≤ y)
  | .gt => decide (y < x)
  | .ge => decide (y ≤ x)

/-- An instruction that sets predicates of a lane from register sources. -/
def State.predFrom (s : State) (g : Guard) (xs : List Field) (f : Team → Thread → Thread) : State :=
  s.checked g (xs.flatMap (fun x => srcRegs x.w x.src)) []
    (fun s => s.perLane g [] (withEcc xs (fun T th => .done (f T th) [])))

/-- icmp. -/
def execIcmp (g : Guard) (ty : Ty) (cc : ICond) (d : Nat) (a b : Src) (s : State) : Host.Outcome State Fault Refusal :=
  let w := ty.opBits
  .next (s.predFrom g [⟨2, a, w⟩, ⟨3, b, w⟩] (fun T th =>
    let rd := fun x => intVal ty (readSrc (s.tickOf T) .int w T th x)
    th.setP d (icondHolds cc (rd a) (rd b))))

/-- sel: mask reads come from the lane's own predicate (R194). -/
def execSel (g : Guard) (ty : Ty) (d : Dst) (a b : Src) (c : Nat) (s : State) : Host.Outcome State Fault Refusal :=
  let w := ty.opBits
  .next (s.issue g d w [⟨2, a, w⟩, ⟨3, b, w⟩] (withPreds [c] (fun T th =>
    laneWrite th d w (readSrc (s.tickOf T) .int w T th (if th.pred c then a else b)))))

/-- lea (R195). -/
def execLea (g : Guard) (ty : Ty) (sh : Nat) (d : Dst) (a b : Src) (s : State) : Host.Outcome State Fault Refusal :=
  .next (s.issue g d 64 [⟨2, a, 64⟩, ⟨3, b, 32⟩] (fun T th =>
    let x := readBv (s.tickOf T) .int 64 T th a
    let y := readBv (s.tickOf T) .int 32 T th b
    let ext := if ty = .i32 then y.signExtend 64 else y.zeroExtend 64
    laneWrite th d 64 (x + ext <<< sh).toNat))

/-- The carry chain of iaddc and isubb: the sum and the carry out (R196). -/
def carryOp (sub : Bool) (w x y : Nat) (cin : Bool) : Nat × Bool :=
  if sub then
    (unsigned w ((x : Int) - y - cin.toNat), decide ((x : Int) - y - cin.toNat < 0))
  else ((x + y + cin.toNat) % 2 ^ w, decide (2 ^ w ≤ x + y + cin.toNat))

/-- iaddc and isubb. -/
def State.carryChain (s : State) (sub : Bool) (g : Guard) (ty : Ty) (d : Dst) (a b : Src) (c : Nat) : State :=
  let w := ty.opBits
  s.issue g d w [⟨2, a, w⟩, ⟨3, b, w⟩] (withPreds [c] (fun T th =>
    let rd := readSrc (s.tickOf T) .int w T th
    let r := carryOp sub w (rd a % 2 ^ w) (rd b % 2 ^ w) (th.pred c)
    laneWrite (th.setP c r.2) d w r.1))

def execIaddc (g : Guard) (ty : Ty) (d : Dst) (a b : Src) (c : Nat) (s : State) : Host.Outcome State Fault Refusal :=
  .next (s.carryChain false g ty d a b c)
def execIsubb (g : Guard) (ty : Ty) (d : Dst) (a b : Src) (c : Nat) (s : State) : Host.Outcome State Fault Refusal :=
  .next (s.carryChain true g ty d a b c)

/-- The L form of iadd, saturating or not (R199). -/
def execIaddL (g : Guard) (ty : Ty) (sat : Bool) (d : Dst) (a b : Src) (s : State) : Host.Outcome State Fault Refusal :=
  let w := ty.opBits
  .next (s.issue g d w [⟨2, a, w⟩, ⟨3, b, w⟩] (fun T th =>
    let rd := fun x => intVal ty (readSrc (s.tickOf T) .int w T th x)
    let r := rd a + rd b
    laneWrite th d w (intReg ty (if sat then intClamp ty r else r))))

/-! ## Bit fields and funnel shifts (R197, R198, R200) -/

/-- bfe: offset [7:0] and length [15:8] of the control word. -/
def bfeOp (sg : Bool) (w a ctl : Nat) : Nat :=
  let off := ctl % 256
  let len := ctl / 256 % 256
  if w ≤ off ∨ len = 0 then 0
  else
    let n := min len (w - off)
    let f := a / 2 ^ off % 2 ^ n
    if sg then unsigned w (signed n f) else f

/-- bfi: the low bits of b placed into a. -/
def bfiOp (w a b ctl : Nat) : Nat :=
  let off := ctl % 256
  let len := ctl / 256 % 256
  if w ≤ off ∨ len = 0 then a
  else
    let n := min len (w - off)
    a % 2 ^ off + b % 2 ^ n * 2 ^ off + a / 2 ^ (off + n) * 2 ^ (off + n)

/-- shf: the 2w-bit value a : b shifted by the count modulo w. -/
def shfOp (right : Bool) (w a b c : Nat) : Nat :=
  let k := c % w
  let x := a * 2 ^ w + b
  if right then x / 2 ^ k % 2 ^ w else x * 2 ^ k / 2 ^ w % 2 ^ w

def execBfe (g : Guard) (ty : Ty) (d : Dst) (a b : Src) (s : State) : Host.Outcome State Fault Refusal :=
  let w := ty.opBits
  .next (s.issue g d w [⟨2, a, w⟩, ⟨3, b, 32⟩] (fun T th =>
    laneWrite th d w (bfeOp (isSigned ty) w (readSrc (s.tickOf T) .int w T th a) (readSrc (s.tickOf T) .int 32 T th b))))
def execBfi (g : Guard) (ty : Ty) (d : Dst) (a b c : Src) (s : State) : Host.Outcome State Fault Refusal :=
  let w := ty.opBits
  .next (s.issue g d w [⟨2, a, w⟩, ⟨3, b, w⟩, ⟨4, c, 32⟩] (fun T th =>
    let rd := readSrc (s.tickOf T) .int w T th
    laneWrite th d w (bfiOp w (rd a) (rd b) (readSrc (s.tickOf T) .int 32 T th c))))
def execShf (g : Guard) (ty : Ty) (right : Bool) (d : Dst) (a b c : Src) (s : State) : Host.Outcome State Fault Refusal :=
  let w := ty.opBits
  .next (s.issue g d w [⟨2, a, w⟩, ⟨3, b, w⟩, ⟨4, c, 32⟩] (fun T th =>
    let rd := readSrc (s.tickOf T) .int w T th
    laneWrite th d w (shfOp right w (rd a) (rd b) (readSrc (s.tickOf T) .int 32 T th c))))

/-! ## Index registers (R103, R201, R202) -/

/-- BASE and LIMIT of an index register (R103). -/
def ixBase (x : BitVec 32) : Nat := x.toNat % 256
def ixLimit (x : BitVec 32) : Nat := x.toNat / 0x10000 % 512

/-- setix. -/
def execSetix (g : Guard) (i : Nat) (a : Src) (s : State) : Host.Outcome State Fault Refusal :=
  .next (s.checked g (srcRegs 32 a) [] (fun s => s.perLane g [] (withEcc [⟨2, a, 32⟩] (fun T th =>
    let x := readBv (s.tickOf T) .int 32 T th a
    if x.toNat / 0x2000000 ≠ 0 ∨ x.toNat / 0x100 % 0x100 ≠ 0 then .trap th { cause := 0x042, sub := 0x03 }
    else if T.bsize < ixBase x + ixLimit x ∨ 256 < ixLimit x then .trap th { cause := 0x042, sub := 0x02 }
    else .done { th with ix := setAt th.ix i x } []))))

/-- The entry at an offset of an index register (R103). -/
def Thread.indexed (th : Thread) (i off : Nat) : Option Nat :=
  let x := th.ix.getD i 0
  if ixLimit x ≤ off then none else some (ixBase x + off)

/-- Does a destination lie among the entries of an index register, which are none where LIMIT is 0 (R202)? -/
def ixCovers (x : BitVec 32) (d : Dst) (bits : Nat) : Bool :=
  match d with
  | .v n => decide (ixLimit x ≠ 0) && decide (n < ixBase x + ixLimit x) && decide (ixBase x < n + bits / 32)
  | _ => false

/-- Is a result outstanding whose destination lies in the range of an index register (R202)? -/
def Thread.ixPending (th : Thread) (i : Nat) : Bool := th.outst.any (fun q => ixCovers (th.ix.getD i 0) q.dst q.bits)

/-- The destinations of accesses that wait in the replay buffer for a thread. -/
def State.replayDsts (s : State) (r : ThreadRef) : List (Dst × Nat) :=
  s.requests.flatMap (fun q => match q.who with
    | .threads accs => (accs.filter (·.1 == r)).map (fun a => (a.2.dst, a.2.bits))
    | _ => [])

/-- Must a lane's movx or stx wait (R202)? -/
def State.ixWaits (s : State) (T : Team) (th : Thread) (i : Nat) : Bool :=
  th.ixPending i || (s.replayDsts (T.ref th)).any (fun q => ixCovers (th.ix.getD i 0) q.1 q.2)

/-- movx or stx, naming the registers regs: the group waits before the instruction issues, so before any lane reads a source, as long as one of
its lanes must (R202). -/
def State.afterIndex (s : State) (g : Guard) (regs : List Nat) (i : Nat) (k : State → State) : State :=
  s.checked g regs [] (fun s =>
    match s.cur with
    | none => s
    | some c => if (s.executing c.entry g).any (fun q => s.ixWaits q.1 q.2 i) then s.markGroup c g (.at 1) else k s)

/-- The entry that movx and stx name, with the checks of the 64-bit forms (R202). -/
def Thread.indexEntry (th : Thread) (ty : Ty) (i off : Nat) : Except Nat Nat :=
  match th.indexed i off with
  | none => .error 0x01
  | some e =>
    if ty.opBits = 64 then
      if e % 2 = 1 then .error 0x04
      else match th.indexed i ((off + 1) % 2 ^ 32) with
        | none => .error 0x01
        | some _ => .ok e
    else .ok e

/-- movx. -/
def execMovx (g : Guard) (ty : Ty) (i : Nat) (d : Dst) (a : Src) (s : State) : Host.Outcome State Fault Refusal :=
  let w := ty.opBits
  .next (s.afterIndex g (dstRegs w d ++ srcRegs 32 a) i (fun s => s.issue g d w [⟨2, a, 32⟩] (fun T th =>
    match th.indexEntry ty i (readSrc (s.tickOf T) .int 32 T th a) with
    | .error k => .trap th { cause := 0x042, sub := k }
    | .ok e => withEcc [⟨2, .v e, w⟩] (fun _ th => laneWrite th d w (regsNat (fun k => th.v.getD k 0) e (w / 32))) T th)))

/-- stx. -/
def execStx (g : Guard) (ty : Ty) (i : Nat) (a b : Src) (s : State) : Host.Outcome State Fault Refusal :=
  let w := ty.opBits
  .next (s.afterIndex g (srcRegs 32 a ++ srcRegs w b) i (fun s => s.perLane g [] (withEcc [⟨2, a, 32⟩, ⟨3, b, w⟩] (fun T th =>
    match th.indexEntry ty i (readSrc (s.tickOf T) .int 32 T th a) with
    | .error k => .trap th { cause := 0x042, sub := k }
    | .ok e => .done (th.writeDest (.v e) w (readSrc (s.tickOf T) .int w T th b)) []))))

/-! ## Predicates as values and conversions (R203, R204) -/

def execPmovTo (g : Guard) (d : Nat) (a : Src) (s : State) : Host.Outcome State Fault Refusal :=
  .next (s.predFrom g [⟨2, a, 32⟩] (fun T th => th.setP d (readSrc (s.tickOf T) .int 32 T th a != 0)))
def execPmovFrom (g : Guard) (d : Dst) (a : Nat) (s : State) : Host.Outcome State Fault Refusal :=
  .next (s.issue g d 32 [] (withPreds [a] (fun _ th => laneWrite th d 32 (th.pred a).toNat)))

/-- icvt. -/
def execIcvt (g : Guard) (ty sty : Ty) (sat : Bool) (d : Dst) (a : Src) (s : State) : Host.Outcome State Fault Refusal :=
  .next (s.issue g d ty.opBits [⟨2, a, sty.opBits⟩] (fun T th =>
    let x := intVal sty (readSrc (s.tickOf T) .int sty.opBits T th a)
    laneWrite th d ty.opBits (intReg ty (if sat then intClamp ty x else x))))

end Sys2Proof.Machine
end

