-- ==== Sys2Proof/Machine/Flt.lean ====
section
/-!
DEFINITION. Machine/Flt.lean: the FLT class: floating-point and special-function instructions (11 R205 to R223).
-/

namespace Sys2Proof.Machine

/-! ## Arithmetic (R208 to R210) -/

/-- a + b, a - b and a * b on encodings, rounded (R208). -/
def faddBits (t : Ty) (rm : Rm) (ftz : Bool) (a b : Nat) : FRes := faddV t rm ftz (fread t ftz a) (fread t ftz b)
def fsubBits (t : Ty) (a b : Nat) : FRes := faddV t .rne false (fval t a) (fval t b).negate
def fmulBits (t : Ty) (rm : Rm) (ftz : Bool) (a b : Nat) : FRes := fmulV t rm ftz (fread t ftz a) (fread t ftz b)
def fmaBits (t : Ty) (rm : Rm) (ftz : Bool) (a b c : Nat) : FRes :=
  fmaV t rm ftz (fread t ftz a) (fread t ftz b) (fread t ftz c)

/-- a with its sign bit cleared, or inverted (R208). -/
def fabsBits (t : Ty) (a : Nat) : FRes := exactRes (a % signBit t)
def fnegBits (t : Ty) (a : Nat) : FRes := exactRes (if a / signBit t % 2 = 1 then a % signBit t else a + signBit t)

def execFaddF64 (g : Guard) (d : Dst) (a b : Src) (s : State) : Host.Outcome State Fault Refusal := .next (s.flt2 .f64 g d a b (faddBits .f64 .rne false))
def execFaddF32 (g : Guard) (d : Dst) (a b : Src) (s : State) : Host.Outcome State Fault Refusal := .next (s.flt2 .f32 g d a b (faddBits .f32 .rne false))
def execFsubF64 (g : Guard) (d : Dst) (a b : Src) (s : State) : Host.Outcome State Fault Refusal := .next (s.flt2 .f64 g d a b (fsubBits .f64))
def execFsubF32 (g : Guard) (d : Dst) (a b : Src) (s : State) : Host.Outcome State Fault Refusal := .next (s.flt2 .f32 g d a b (fsubBits .f32))
def execFmulF64 (g : Guard) (d : Dst) (a b : Src) (s : State) : Host.Outcome State Fault Refusal := .next (s.flt2 .f64 g d a b (fmulBits .f64 .rne false))
def execFmulF32 (g : Guard) (d : Dst) (a b : Src) (s : State) : Host.Outcome State Fault Refusal := .next (s.flt2 .f32 g d a b (fmulBits .f32 .rne false))
def execFminF64 (g : Guard) (d : Dst) (a b : Src) (s : State) : Host.Outcome State Fault Refusal := .next (s.flt2 .f64 g d a b (fminmax .f64 false))
def execFminF32 (g : Guard) (d : Dst) (a b : Src) (s : State) : Host.Outcome State Fault Refusal := .next (s.flt2 .f32 g d a b (fminmax .f32 false))
def execFmaxF64 (g : Guard) (d : Dst) (a b : Src) (s : State) : Host.Outcome State Fault Refusal := .next (s.flt2 .f64 g d a b (fminmax .f64 true))
def execFmaxF32 (g : Guard) (d : Dst) (a b : Src) (s : State) : Host.Outcome State Fault Refusal := .next (s.flt2 .f32 g d a b (fminmax .f32 true))
def execFabsF64 (g : Guard) (d : Dst) (a : Src) (s : State) : Host.Outcome State Fault Refusal := .next (s.flt1 .f64 g d a (fabsBits .f64))
def execFabsF32 (g : Guard) (d : Dst) (a : Src) (s : State) : Host.Outcome State Fault Refusal := .next (s.flt1 .f32 g d a (fabsBits .f32))
def execFnegF64 (g : Guard) (d : Dst) (a : Src) (s : State) : Host.Outcome State Fault Refusal := .next (s.flt1 .f64 g d a (fnegBits .f64))
def execFnegF32 (g : Guard) (d : Dst) (a : Src) (s : State) : Host.Outcome State Fault Refusal := .next (s.flt1 .f32 g d a (fnegBits .f32))
def execFaddH2 (g : Guard) (d : Dst) (a b : Src) (s : State) : Host.Outcome State Fault Refusal := .next (s.fltPair2 .f16 g d a b (faddBits .f16 .rne false))
def execFmulH2 (g : Guard) (d : Dst) (a b : Src) (s : State) : Host.Outcome State Fault Refusal := .next (s.fltPair2 .f16 g d a b (fmulBits .f16 .rne false))
def execFaddB2 (g : Guard) (d : Dst) (a b : Src) (s : State) : Host.Outcome State Fault Refusal := .next (s.fltPair2 .bf16 g d a b (faddBits .bf16 .rne false))
def execFmulB2 (g : Guard) (d : Dst) (a b : Src) (s : State) : Host.Outcome State Fault Refusal := .next (s.fltPair2 .bf16 g d a b (fmulBits .bf16 .rne false))

/-! ## The special functions (R220 to R223) -/

def execFrcpF32 (g : Guard) (d : Dst) (a : Src) (s : State) : Host.Outcome State Fault Refusal := .next (s.flt1 .f32 g d a frcp)
def execFrsqF32 (g : Guard) (d : Dst) (a : Src) (s : State) : Host.Outcome State Fault Refusal := .next (s.flt1 .f32 g d a frsq)
def execFexp2F32 (g : Guard) (d : Dst) (a : Src) (s : State) : Host.Outcome State Fault Refusal := .next (s.flt1 .f32 g d a fexp2)
def execFlog2F32 (g : Guard) (d : Dst) (a : Src) (s : State) : Host.Outcome State Fault Refusal := .next (s.flt1 .f32 g d a flog2)
def execFsinpiF32 (g : Guard) (d : Dst) (a : Src) (s : State) : Host.Outcome State Fault Refusal := .next (s.flt1 .f32 g d a fsinpi)
def execFcospiF32 (g : Guard) (d : Dst) (a : Src) (s : State) : Host.Outcome State Fault Refusal := .next (s.flt1 .f32 g d a fcospi)
def execFtanhF32 (g : Guard) (d : Dst) (a : Src) (s : State) : Host.Outcome State Fault Refusal := .next (s.flt1 .f32 g d a ftanh)

/-! ## Classification (R214) -/

/-- The class of an encoding, as the number of its bit. -/
def fclassOf (t : Ty) (a : Nat) : Nat :=
  match fval t a with
  | .nan true => 0
  | .nan false => 1
  | .inf true => 2
  | .inf false => 9
  | .fin neg m _ =>
    if m = 0 then (if neg then 5 else 6)
    else if m < 2 ^ (fmtOf t).tbits then (if neg then 4 else 7)
    else (if neg then 3 else 8)

/-- fclass. -/
def State.fclass (s : State) (t : Ty) (g : Guard) (d : Dst) (a : Src) : State :=
  s.issue g d 32 [⟨2, a, t.opBits⟩] (fun T th => laneWrite th d 32 (2 ^ fclassOf t (readFlt (s.tickOf T) t T th a)))

def execFclassF64 (g : Guard) (d : Dst) (a : Src) (s : State) : Host.Outcome State Fault Refusal := .next (s.fclass .f64 g d a)
def execFclassF32 (g : Guard) (d : Dst) (a : Src) (s : State) : Host.Outcome State Fault Refusal := .next (s.fclass .f32 g d a)

/-! ## L forms (R209 to R213) -/

/-- fma. -/
def execFma (g : Guard) (ty : Ty) (rm : Rm) (ftz pk : Bool) (d : Dst) (a b c : Src) (s : State) : Host.Outcome State Fault Refusal :=
  let w := ty.opBits
  .next (s.issue g d w [⟨2, a, w⟩, ⟨3, b, w⟩, ⟨4, c, w⟩] (fun T th =>
    let f := fmaBits ty rm ftz
    if pk then
      let rd := readPair (s.tickOf T) ty T th
      floatWrite th d w (packPair (f (rd a).1 (rd b).1 (rd c).1) (f (rd a).2 (rd b).2 (rd c).2))
    else
      let rd := readFlt (s.tickOf T) ty T th
      floatWrite th d w (f (rd a) (rd b) (rd c))))

/-- The L forms of fadd and fmul. -/
def execFaddL (g : Guard) (ty : Ty) (rm : Rm) (ftz pk : Bool) (d : Dst) (a b : Src) (s : State) : Host.Outcome State Fault Refusal :=
  .next (if pk then s.fltPair2 ty g d a b (faddBits ty rm ftz) else s.flt2 ty g d a b (faddBits ty rm ftz))
def execFmulL (g : Guard) (ty : Ty) (rm : Rm) (ftz pk : Bool) (d : Dst) (a b : Src) (s : State) : Host.Outcome State Fault Refusal :=
  .next (if pk then s.fltPair2 ty g d a b (fmulBits ty rm ftz) else s.flt2 ty g d a b (fmulBits ty rm ftz))

/-- An outstanding floating result (R207). -/
def State.fltOut (s : State) (g : Guard) (d : Dst) (w : Nat) (xs : List Field) (f : Team → Thread → FRes) : State :=
  s.checked g (dstRegs w d ++ xs.flatMap (fun x => srcRegs x.w x.src)) (uniformFor d xs)
    (fun s => s.perLane g [] (withEcc xs (fun T th =>
      .done (th.awaitFlt d w (f T th) th.clause ((s.cur.map (·.slot)).getD 0) s.slotSince) [])))

/-- fdiv. -/
def execFdiv (g : Guard) (ty : Ty) (rm : Rm) (ftz : Bool) (d : Dst) (a b : Src) (s : State) : Host.Outcome State Fault Refusal :=
  let w := ty.opBits
  .next (s.fltOut g d w [⟨2, a, w⟩, ⟨3, b, w⟩] (fun T th =>
    let rd := fun x => fread ty ftz (readFlt (s.tickOf T) ty T th x)
    fdivV ty rm ftz (rd a) (rd b)))

/-- fsqrt. -/
def execFsqrt (g : Guard) (ty : Ty) (rm : Rm) (ftz : Bool) (d : Dst) (a : Src) (s : State) : Host.Outcome State Fault Refusal :=
  let w := ty.opBits
  .next (s.fltOut g d w [⟨2, a, w⟩] (fun T th => fsqrtV ty rm ftz (fread ty ftz (readFlt (s.tickOf T) ty T th a))))

/-- The answer of a condition of fcmp, with the exceptions raised (R213). -/
def fcondHolds (cc : FCond) (x y : FVal) : Bool × Exc :=
  let sig : Exc := if x.sig || y.sig then excV else 0
  if x.isNan || y.isNan then
    match cc with
    | .eq | .or => (false, sig)
    | .ne | .un => (true, sig)
    | .lt | .le | .gt | .ge => (false, excV)
  else
    match cc with
    | .eq => (x.eqv y, 0)
    | .ne => (!x.eqv y, 0)
    | .lt => (x.lt y, 0)
    | .le => (!y.lt x, 0)
    | .gt => (y.lt x, 0)
    | .ge => (!x.lt y, 0)
    | .un => (false, 0)
    | .or => (true, 0)

/-- fcmp. -/
def execFcmp (g : Guard) (ty : Ty) (cc : FCond) (d : Nat) (a b : Src) (s : State) : Host.Outcome State Fault Refusal :=
  let w := ty.opBits
  .next (s.checked g (srcRegs w a ++ srcRegs w b) [] (fun s => s.perLane g [] (withEcc [⟨2, a, w⟩, ⟨3, b, w⟩] (fun T th =>
    let rd := fun x => fval ty (readFlt (s.tickOf T) ty T th x)
    let r := fcondHolds cc (rd a) (rd b)
    raising th r.2 (fun th => .done (th.setP d r.1) [])))))

/-! ## Conversions (R215 to R217) -/

/-- Is a format wider than another? A conversion to it is exact, and .sat has nothing to change (R120). DEDUCED, log entry 46. -/
def widens (sty ty : Ty) : Bool := decide ((fmtOf sty).bits < (fmtOf ty).bits)

/-- fcvt. -/
def execFcvt (g : Guard) (ty sty : Ty) (rm : Rm) (sat : Bool) (d : Dst) (a : Src) (s : State) : Host.Outcome State Fault Refusal :=
  .next (s.issue g d ty.opBits [⟨2, a, sty.opBits⟩] (fun T th =>
    floatWrite th d ty.opBits (fconvert ty rm (sat && !widens sty ty) (fval sty (readFlt (s.tickOf T) sty T th a)))))

/-- Rounds to an integral value of the same format (R216). -/
def frndBits (t : Ty) (rm : Rm) (a : Nat) : FRes :=
  match fval t a with
  | .nan sg => nanRes t [.nan sg]
  | .inf _ => exactRes a
  | .fin neg m e => exactRes (roundDyadic t .rne false false neg (finToInt rm neg m e).1 0).bits

/-- frnd. -/
def execFrnd (g : Guard) (ty : Ty) (rm : Rm) (d : Dst) (a : Src) (s : State) : Host.Outcome State Fault Refusal :=
  .next (s.flt1 ty g d a (frndBits ty rm))

/-- A float converted to an integer type, always clamped (R120, R217). -/
def floatToInt (t sty : Ty) (rm : Rm) (a : Nat) : FRes :=
  match fval sty a with
  | .nan _ => ⟨0, excV⟩
  | .inf neg => ⟨intReg t (if neg then intMin t else intMax t), excV⟩
  | .fin neg m e =>
    let (k, inexact) := finToInt rm neg m e
    if intClamp t k ≠ k then ⟨intReg t (intClamp t k), excV⟩ else ⟨intReg t k, if inexact then excX else 0⟩

/-- fcvti. -/
def execFcvti (g : Guard) (ty sty : Ty) (rm : Rm) (d : Dst) (a : Src) (s : State) : Host.Outcome State Fault Refusal :=
  .next (s.issue g d ty.opBits [⟨2, a, sty.opBits⟩] (fun T th =>
    floatWrite th d ty.opBits (floatToInt ty sty rm (readFlt (s.tickOf T) sty T th a))))

/-- icvtf. -/
def execIcvtf (g : Guard) (ty sty : Ty) (rm : Rm) (d : Dst) (a : Src) (s : State) : Host.Outcome State Fault Refusal :=
  .next (s.issue g d ty.opBits [⟨2, a, sty.opBits⟩] (fun T th =>
    floatWrite th d ty.opBits (roundDyadic ty rm false false false (intVal sty (readSrc (s.tickOf T) .int sty.opBits T th a)) 0)))

/-! ## Scaling (R212) -/

/-- fscale; an exponent beyond the range of every format rounds as its bound does. -/
def fscaleBits (t : Ty) (rm : Rm) (a : Nat) (k : Int) : FRes :=
  match fval t a with
  | .nan sg => nanRes t [.nan sg]
  | .inf _ => exactRes a
  | .fin neg m e => if m = 0 then exactRes a else roundDyadic t rm false false neg (smant neg m) (e + max (-8192) (min 8192 k))

/-- fscale. -/
def execFscale (g : Guard) (ty : Ty) (rm : Rm) (d : Dst) (a b : Src) (s : State) : Host.Outcome State Fault Refusal :=
  let w := ty.opBits
  .next (s.issue g d w [⟨2, a, w⟩, ⟨3, b, 32⟩] (fun T th =>
    floatWrite th d w (fscaleBits ty rm (readFlt (s.tickOf T) ty T th a) (readBv (s.tickOf T) .int 32 T th b).toInt)))

/-- The fraction and the exponent of ffrexp (R212). -/
def frexpBits (t : Ty) (a : Nat) : FRes × Nat :=
  match fval t a with
  | .nan sg => (nanRes t [.nan sg], 0)
  | .inf _ => (exactRes a, 0)
  | .fin neg m e =>
    if m = 0 then (exactRes a, 0)
    else
      let k := m.log2
      (exactRes (roundDyadic t .rne false false neg (smant neg m) (-(k : Int) - 1)).bits, unsigned 32 (e + k + 1))

/-- ffrexp: two results, one shift; where D and C name one register it holds the exponent. -/
def execFfrexp (g : Guard) (ty : Ty) (d : Dst) (a : Src) (c : Dst) (s : State) : Host.Outcome State Fault Refusal :=
  let w := ty.opBits
  .next (s.checked g (dstRegs w d ++ srcRegs w a ++ dstRegs 32 c) (uniformFor d [⟨2, a, w⟩] ++ uniformFor c [⟨2, a, w⟩])
    (fun s => s.perLane g (sDest d w ++ sDest c 32) (withEcc [⟨2, a, w⟩] (fun T th =>
      let r := frexpBits ty (readFlt (s.tickOf T) ty T th a)
      raising th r.1.exc (fun th =>
        let th1 := (th.put d w r.1.bits).put c 32 r.2
        .done (if dstShifts d || dstShifts c then th1.shiftY r.1.bits else th1)
          ((sDest d w).map (fun _ => r.1.bits) ++ (sDest c 32).map (fun _ => r.2)))))))

/-! ## Packing (R218, R219) -/

/-- The elements of width w of a number. -/
def elems (w n x : Nat) : List Nat := (List.range n).map (fun i => x / 2 ^ (w * i) % 2 ^ w)

/-- The number whose elements of width w are given. -/
def joinElems (w : Nat) : List Nat → Nat
  | [] => 0
  | x :: xs => x + 2 ^ w * joinElems w xs

/-- x / s, s positive and finite, rounded once into a narrow format by the conversion rules (R218, R120). -/
def packElem (d : Ty) (rm : Rm) (sat : Bool) (x sc : FVal) : FRes :=
  match x, sc with
  | .fin neg m e, .fin _ m2 e2 =>
    if m = 0 then ⟨zeroBits d neg, 0⟩
    else
      let (num, den) := scaleFrac m m2 (e2 - e)
      roundFrac d rm sat false neg false num den
  | _, _ => fconvert d rm sat x

/-- Is a scale positive and finite? -/
def scaleOk : FVal → Bool
  | .fin neg m _ => !neg && m != 0
  | _ => false

/-- The bits that an element of a format takes in a packed register. -/
def elemBits (t : Ty) : Nat := if t = .e2m1 then 4 else 8

/-- fpack on the values and the scale. -/
def fpackBits (d sty : Ty) (rm : Rm) (sat : Bool) (xs : Nat) (sc : Nat) : FRes :=
  let n := if d = .e2m1 then 8 else 4
  let rs := if scaleOk (fval .f32 sc) then (elems (fmtOf sty).bits n xs).map (fun x => packElem d rm sat (fval sty x) (fval .f32 sc))
    else List.replicate n ⟨canonNan d, excV⟩
  ⟨joinElems (elemBits d) (rs.map (·.bits)), rs.foldl (fun e r => e ||| r.exc) 0⟩

/-- The values of fpack: a constant in a pair of b2 registers goes to every element (R206), a constant quad is sign-extended
(R170). -/
def readPack (tick : BitVec 64) (sty : Ty) (w : Nat) (T : Team) (th : Thread) (x : Src) : Nat :=
  match x with
  | .one | .zero | .imm _ =>
    if w = 64 then joinElems 16 (List.replicate 4 (readFlt tick sty T th x)) else readSrc tick .int w T th x
  | _ => readSrc tick .int w T th x

/-- fpack. -/
def execFpack (g : Guard) (ty sty : Ty) (rm : Rm) (sat : Bool) (d : Dst) (a b : Src) (s : State) : Host.Outcome State Fault Refusal :=
  let w := packBits ty sty
  .next (s.issue g d 32 [⟨2, a, w⟩, ⟨3, b, 32⟩] (fun T th =>
    floatWrite th d 32 (fpackBits ty sty rm sat (readPack (s.tickOf T) sty w T th a) (readFlt (s.tickOf T) .f32 T th b))))

/-- funpack on a packed register and the scale. -/
def funpackBits (d sty : Ty) (x sc : Nat) : FRes :=
  let n := if sty = .e2m1 then 8 else 4
  let rs := (elems (elemBits sty) n x).map (fun e => fmulV d .rne false (fval sty e) (fval .f32 sc))
  ⟨joinElems (fmtOf d).bits (rs.map (·.bits)), rs.foldl (fun e r => e ||| r.exc) 0⟩

/-- The packed elements of funpack: a constant goes to every element (R97, R206). -/
def readUnpack (tick : BitVec 64) (sty : Ty) (T : Team) (th : Thread) (x : Src) : Nat :=
  match x with
  | .one | .zero | .imm _ => joinElems (elemBits sty) (List.replicate (32 / elemBits sty) (readFlt tick sty T th x))
  | _ => readSrc tick .int 32 T th x

/-- funpack. -/
def execFunpack (g : Guard) (ty sty : Ty) (d : Dst) (a b : Src) (s : State) : Host.Outcome State Fault Refusal :=
  let w := unpackBits ty sty
  .next (s.issue g d w [⟨2, a, 32⟩, ⟨3, b, 32⟩] (fun T th =>
    floatWrite th d w (funpackBits ty sty (readUnpack (s.tickOf T) sty T th a) (readFlt (s.tickOf T) .f32 T th b))))

/-! ## fdot2 (R211) -/

/-- a0 * b0 + a1 * b1 + c, exact, with one rounding. DEDUCED, log entry 19. -/
def fdot2Bits (t : Ty) (rm : Rm) (a b : Nat × Nat) (c : Nat) : FRes :=
  let vs := [fval t a.1, fval t b.1, fval t a.2, fval t b.2, fval .f32 c]
  let prods := [(fval t a.1, fval t b.1), (fval t a.2, fval t b.2)]
  let isInf := fun (v : FVal) => match v with | .inf _ => true | _ => false
  let badProd := prods.any (fun p => (isInf p.1 && p.2.isZero) || (p.1.isZero && isInf p.2))
  -- the infinite terms of the sum, by sign
  let infs := prods.filterMap (fun p =>
      if (isInf p.1 || isInf p.2) && !p.1.isNan && !p.2.isNan && !p.1.isZero && !p.2.isZero then some (p.1.neg != p.2.neg) else none)
    ++ (match fval .f32 c with | .inf n => [n] | _ => [])
  let clash := infs.contains true && infs.contains false
  if vs.any FVal.isNan then ⟨canonNan .f32, if vs.any FVal.sig || badProd || clash then excV else 0⟩
  else if badProd || clash then invalidRes .f32
  else match infs with
  | n :: _ => exactRes (withSign .f32 n (infBits .f32))
  | [] =>
    let mulD := fun (p : FVal × FVal) => match p.1, p.2 with
      | .fin n1 m1 e1, .fin n2 m2 e2 => (n1 != n2, m1 * m2, e1 + e2)
      | _, _ => (false, 0, 0)
    let cD := match fval .f32 c with
      | .fin n m e => (n, m, e)
      | _ => (false, 0, 0)
    let ts : List (Bool × Nat × Int) := prods.map mulD ++ [cD]
    let sum := ts.foldl (fun acc t => addDy acc.1 acc.2 (smant t.1 t.2.1) t.2.2) (0, 0)
    let zneg := if ts.all (fun t => t.2.1 == 0 && t.1) then true
      else if ts.all (fun t => t.2.1 == 0 && !t.1) then false else rm == .rdn
    roundDyadic .f32 rm false false zneg sum.1 sum.2

/-- fdot2. -/
def execFdot2 (g : Guard) (ty : Ty) (rm : Rm) (d : Dst) (a b c : Src) (s : State) : Host.Outcome State Fault Refusal :=
  .next (s.issue g d 32 [⟨2, a, 32⟩, ⟨3, b, 32⟩, ⟨4, c, 32⟩] (fun T th =>
    let rd := readPair (s.tickOf T) ty T th
    floatWrite th d 32 (fdot2Bits ty rm (rd a) (rd b) (readFlt (s.tickOf T) .f32 T th c))))

end Sys2Proof.Machine
end

