-- ==== Sys2Proof/Machine/Memory.lean ====
section
/-!
DEFINITION. Machine/Memory.lean: addresses, places and translation (02), the homes of bytes, seals, ownership and views
(01, 03, 04 R80, 07). A location is a number: the physical address of a byte of this module, or
(endpoint + 1) * 2^52 + remote address for a byte of another endpoint.
-/

namespace Sys2Proof.Machine

/-- DRAM_TOP: 192 channels of the populated capacity (R12). -/
def State.dramTop (s : State) : Nat := 192 * s.bring.dimm * 2 ^ 30

/-- The Stoland link of a DRAM address (R13). -/
def linkOf (pa : Nat) : Nat := pa / 4096 % 48

/-- Where a DRAM address lies: its link, its page on that link, the channel of the link's buffer and the address there (R13). -/
structure DramPlace where
  link      : Nat
  localPage : Nat
  channel   : Nat
  localAddr : Nat
  deriving DecidableEq, Repr

/-- The interleaving of DRAM over the links and their channels (R13). -/
def dramPlace (pa : Nat) : DramPlace where
  link := linkOf pa
  localPage := pa / 4096 / 48
  channel := pa / 256 % 4
  localAddr := pa / 4096 / 48 * 4096 + pa % 4096

/-- The sector of a location (R15). -/
def sectorOf (loc : Nat) : Nat := loc / 64

/-- Is the location in this module? -/
def isLocal (loc : Nat) : Bool := decide (loc < 2 ^ 52)

/-- The place class of a physical address (R34). -/
def placeClass (pa : Nat) : Nat := pa / 2 ^ 48 % 16

/-- One byte at its home: memory of this module, or of another endpoint (R51). -/
def State.homeByte (s : State) (loc : Nat) : Byte :=
  if loc < 2 ^ 52 then Memory.read s.mem loc else (ByteMap.get? s.remote loc).getD (Config.remoteByte loc)

/-- n bytes at their home. -/
def State.homeBytes (s : State) (loc n : Nat) : List Byte := (List.range n).map (fun k => s.homeByte (loc + k))

/-- A number of n bytes at its home (R5). -/
def State.homeNat (s : State) (loc n : Nat) : Nat := leNat (s.homeBytes loc n)

/-- Writes one byte at its home. -/
def State.putHome (s : State) (loc : Nat) (b : Byte) : State :=
  if loc < 2 ^ 52 then { s with mem := Memory.write s.mem loc b } else { s with remote := ByteMap.put s.remote loc b }

/-- Writes bytes at their home. -/
def State.putBytes : State → Nat → List Byte → State
  | s, _, [] => s
  | s, loc, b :: bs => State.putBytes (s.putHome loc b) (loc + 1) bs

/-! ## Seals (R15 to R19) -/

/-- One bit of the seal's register. -/
def sealBit (crc bit : Nat) : Nat :=
  let top := crc / 0x8000 % 2
  let crc := crc * 2 % 0x10000
  if (top + bit) % 2 = 1 then crc ^^^ 0x8bb7 else crc

/-- One byte, most significant bit first. -/
def sealByte (crc : Nat) (b : Byte) : Nat :=
  [7, 6, 5, 4, 3, 2, 1, 0].foldl (fun c j => sealBit c (b.toNat / 2 ^ j % 2)) crc

/-- The seal of a run of bytes (R15). -/
def sealOf (bs : List Byte) : Nat := bs.foldl sealByte 0

/-- Does a consumer of the sector meet a mismatch (R17 to R19)? -/
def State.sealBad (s : State) (loc : Nat) : Bool :=
  s.badSeals.contains (sectorOf loc) || s.pinned.contains (sectorOf loc) || s.poison.contains (sectorOf loc)

/-- Does a run of bytes touch a sector with a bad seal? -/
def State.sealBadRange (s : State) (loc n : Nat) : Bool :=
  (List.range (sectorOf (loc + n - 1) + 1 - sectorOf loc)).any (fun k => s.sealBad ((sectorOf loc + k) * 64))

/-- A write of a whole sector gives a fresh seal and clears its flags (R16, R19). -/
def State.freshSeal (s : State) (sector : Nat) : State :=
  { s with badSeals := s.badSeals.filter (· != sector), pinned := s.pinned.filter (· != sector)
           poison := s.poison.filter (· != sector) }

/-- The home slice of a line for a requester on a die: die * 16 + slice (R52). -/
def State.homeSlice (s : State) (die pa : Nat) : Nat :=
  let f := fun k n => pa / 2 ^ k % 2 ^ n
  let h := f 7 7 ^^^ f 14 7 ^^^ f 21 7 ^^^ f 28 7 ^^^ f 35 7 ^^^ f 42 7 ^^^ f 49 3
  let k := s.l2cfg.toNat / 4 % 4
  let home := if s.l2cfg.getLsbD 1 then die - die % 2 ^ k + h / 16 % 8 % 2 ^ k else h / 16 % 8
  home * 16 + h % 16

/-- Does L2 hold a sector: one of DRAM, or of a line of another endpoint that is held under the directory (R51)? -/
def State.l2Holds (s : State) (sector : Nat) : Bool := decide (sector * 64 < 2 ^ 51) || s.shared.contains (sector / 2)

/-- The ways that held sectors fill in the L2 set of a line: one for each core, launch and line (R57). -/
def State.heldIn (s : State) (slice line : Nat) : Nat :=
  ((s.views.flatMap (fun v => ((v.held.filter (fun sec => v.dirty.any (fun c => sectorOf c.1 == sec))).map (fun sec => (v.core, v.launch, sec / 2))).dedup)).filter
    (fun x => s.homeSlice (x.1 / 36) (x.2.2 * 128) == slice && Config.l2Set x.2.2 % 2048 == Config.l2Set line % 2048)).length

/-- A sector becomes valid in a slice; where its line's set of 16 ways is full, a line that is free leaves it, and its dirty sectors go to their
homes: one that fails its egress check stays (R19, R52). Which set a line belongs to, and what is replaced, is free. DESIGN CHOICE, log
entry 115. -/
def State.l2Put (s : State) (slice sector : Nat) : State :=
  let here := ((s.l2Valid.filter (·.2 == slice)).map (·.1 / 2)).dedup
  let add := fun (s : State) => { s with l2Valid := (sector, slice) :: s.l2Valid }
  if s.l2Valid.contains (sector, slice) then s
  else if here.contains (sector / 2) || here.length < 12 then add s
  else
    let set := here.filter (fun l => Config.l2Set l % 2048 == Config.l2Set (sector / 2) % 2048)
    if set.length + s.heldIn slice (sector / 2) < 16 then add s
    else
      let (k, s1) := s.pick set.length
      match set[k]? with
      | none => add s1
      | some l =>
        let stays := fun (sec : Nat) => s1.sealBad (sec * 64) && s1.l2Dirty.contains sec
        let goes := fun (sec : Nat) => sec / 2 == l && !stays sec
        add { s1 with l2Valid := s1.l2Valid.filter (fun x => !(x.2 == slice && goes x.1)), l2Dirty := s1.l2Dirty.filter (fun sec => !goes sec)
                      l2Home := s1.l2Home.filter (fun x => !(x.2 == slice && goes x.1)) }

/-- A requester on a die reads a sector at its home: it is valid in the slice of its partition afterwards, and one that is dirty in another
partition is recalled from there (R52, R53). DEDUCED, log entry 138. -/
def State.touchL2 (s : State) (die sector : Nat) : State :=
  if !s.l2Holds sector then s
  else
    let slice := s.homeSlice die (sector * 64)
    let s1 : State := if s.l2Home.any (fun x => x.1 == sector && x.2 != slice) && !s.pinned.contains sector then
        { s with l2Home := (sector, slice) :: s.l2Home.filter (·.1 != sector), l2Valid := s.l2Valid.filter (·.1 != sector) }
      else s
    s1.l2Put slice sector

/-- A sector that a requester on a die writes is dirty in L2 (R52), in the slice of the requester's partition, and in no other (R53). -/
def State.markL2 (s : State) (die sector : Nat) : State :=
  if s.l2Holds sector then
    let slice := s.homeSlice die (sector * 64)
    State.l2Put { s with
      l2Dirty := if s.l2Dirty.contains sector then s.l2Dirty else sector :: s.l2Dirty
      l2Home := if s.l2cfg.getLsbD 1 then (sector, slice) :: s.l2Home.filter (·.1 != sector) else s.l2Home
      l2Valid := if s.l2cfg.getLsbD 1 then s.l2Valid.filter (fun x => x.1 != sector || x.2 == slice) else s.l2Valid } slice sector
  else s

/-- The slice in which a sector lies: that of its last writer's partition, else the one of the die given (R52, R53). -/
def State.sliceOf (s : State) (die sector : Nat) : Nat :=
  ((s.l2Home.find? (·.1 == sector)).map (·.2)).getD (s.homeSlice die (sector * 64))

/-- The sectors that n bytes at a location touch. -/
def sectorsOf (loc n : Nat) : List Nat := (List.range (sectorOf (loc + n - 1) + 1 - sectorOf loc)).map (sectorOf loc + ·)

/-- Writes bytes into sectors that a requester on a die has read: their seals follow the bytes. -/
def State.putMarked (s : State) (die loc : Nat) (bs : List Byte) : State :=
  (sectorsOf loc bs.length).foldl (fun a sec => a.markL2 die sec) (s.putBytes loc bs)

/-- A write of n bytes at a home by a requester on a die: whole sectors take fresh seals; a partial sector checks the old seal
first, and a mismatch leaves memory unchanged (R16). A request of another endpoint comes from die 0. DESIGN CHOICE, log entry 143. -/
def State.writeHome (s : State) (loc : Nat) (bs : List Byte) (die : Nat := 0) : Option State :=
  let whole := fun sec => decide (loc ≤ sec * 64) && decide (sec * 64 + 64 ≤ loc + bs.length)
  if (sectorsOf loc bs.length).any (fun sec => !whole sec && s.sealBad (sec * 64)) then none
  else some ((sectorsOf loc bs.length).foldl (fun a sec => (if whole sec then a.freshSeal sec else a).markL2 die sec) (s.putBytes loc bs))

/-! ## Links and regions (R14, R429) -/

/-- Whether the home of a location can be reached: yes, not yet, or never again. -/
inductive Reach where
  | yes | wait | failed (n : Nat)
  deriving DecidableEq, Repr

/-- Reaching a location: a DRAM region that is ready, over a link that is up; a peer over a trained port (R14, R24,
R429). Where no port is trained, 0x1E2 names port 0x30. DESIGN CHOICE, log entry 110. -/
def State.reach (s : State) (loc : Nat) : Reach :=
  if loc < 2 ^ 51 then
    match (s.links.getD (linkOf loc) {}).state with
    | .failed => .failed (linkOf loc)
    | .up => if loc / 2 ^ 40 < s.bring.regions then .yes else .wait
    | _ => .wait
  else if loc < 2 ^ 52 then .yes
  else if s.ports.any id then .yes
  else .failed 0x30

/-- The same for an access with the sharing of its leaf: a shared range of the fabric is out of reach while the directory is
(R24). DESIGN CHOICE, log entry 110. -/
def State.reachAs (s : State) (loc sh : Nat) : Reach :=
  if sh = 2 && !isLocal loc && s.fabricCaps.getLsbD 31 && s.dirLost then .failed 0x30 else s.reach loc

/-! ## Translation (R31 to R43) -/

/-- Who translates: a core, a launch, a workgroup, its address space and home, and whether it is privileged. -/
structure Agent where
  core   : Nat
  launch : Nat
  wg     : Nat
  asid   : Nat
  home   : Nat
  priv   : Bool
  /-- It translates through its core's L1 TLB before the die's: a thread, and no engine or matrix pipe (R42, R43). -/
  l1     : Bool := false
  deriving DecidableEq, Repr

/-- The agent that a thread of a team is. -/
def State.agent (s : State) (T : Team) : Agent :=
  let L := s.launch T.launch
  { core := T.core, launch := T.launch, wg := T.wg, asid := L.asid, home := (s.wg T.launch T.wg).home, priv := L.priv, l1 := true }

/-- The direction of an access. -/
inductive Dir where
  | rd | wr | fetch
  deriving DecidableEq, Repr

/-- The outcome of a translation: a location with the leaf's sharing and the physical address; a fault; a miss that enters the
replay buffer; a wait. -/
inductive Xlat where
  | ok (loc pa sh : Nat)
  | trap (x : Trap)
  | miss (cause : Nat)
  | wait
  deriving DecidableEq, Repr

/-- The root table of an address space (R42). -/
def State.rootOf (s : State) (asid : Nat) : Option Nat := (s.spaces.find? (·.asid == asid)).map (·.root)

/-- What a walk finds (R37 to R39). -/
inductive Walk where
  | leaf (pte level addr : Nat)
  | absent
  | bad (sub : Nat)
  | mismatch (pa : Nat)
  | link (n : Nat)
  | wait
  deriving DecidableEq, Repr

/-- The reserved bits of a table entry (R38). -/
def pteReserved (e : Nat) : Bool := e / 2 ^ 60 % 8 != 0 || e / 2 ^ 52 % 64 != 0 || e / 2 ^ 8 % 16 != 0

/-- The checks of a leaf (R39). Where one leaf fails several, the first in this order is reported. DESIGN CHOICE, log entry 111. -/
def leafCheck (e level : Nat) : Option Nat :=
  let sh := e / 2 ^ 58 % 4
  let cls := e / 2 ^ 48 % 16
  let fabric := 0xc ≤ cls && cls ≤ 0xe
  if sh = 3 then some 0x05
  else if sh = 2 && !fabric then some 0x06
  else if sh = 0 && fabric then some 0x07
  else if e / 2 ^ 12 % 2 ^ (9 * level) ≠ 0 then some 0x08
  else if e / 4 % 2 = 1 && (0x9 ≤ cls && cls ≤ 0xb) then some 0x09
  else none

/-- The table that the walkers of a die have cached for an upper level of an address (R42). -/
def State.upperFind (s : State) (die asid level tag : Nat) : Option Nat :=
  (s.upper.find? (fun u => u.die == die && u.asid == asid && u.level == level && u.tag == tag)).map (·.table)

/-- Caches an upper-level entry. -/
def State.upperPut (s : State) (u : Upper) : State :=
  { s with upper := u :: s.upper.filter (fun x => !(x.die == u.die && x.asid == u.asid && x.level == u.level && x.tag == u.tag)) }

/-- What a walker finds in one table entry (R37, R39): a leaf, a table, or the end of the walk. An entry with V = 0 ends it with 0x080
whatever else it holds. DESIGN CHOICE, log entry 111. -/
def State.walkEntry (s : State) (level addr : Nat) : Except Walk (Nat × Bool) :=
  let e := s.homeNat addr 8
  if s.dramTop ≤ addr then .error (.bad 0x0b)
  else match s.reach addr with
  | .failed n => .error (.link n)
  | .wait => .error .wait
  | .yes =>
    if s.sealBad addr then .error (.mismatch addr)
    else if e % 2 = 0 then .error .absent
    else if pteReserved e then .error (.bad (level * 256 + 0x02))
    else if e / 64 % 2 = 1 then
      if level ≥ 3 then .error (.bad (level * 256 + 0x03))
      else match leafCheck e level with
        | some k => .error (.bad (level * 256 + k))
        | none =>
          -- the group of a level-0 leaf with CH = 1 is read too (R40), and its seals are checked (R17)
          if level = 0 && e / 128 % 2 = 1 && s.sealBadRange (addr / 128 * 128) 128 then .error (.mismatch (addr / 128 * 128)) else .ok (e, true)
    else if level = 0 then .error (.bad 0x03)
    else if e / 2 ^ 51 % 2 = 1 then .error (.bad (level * 256 + 0x04))
    else .ok (e, false)

/-- A walker of a die reads a table entry at its home, where it can be reached (R53). -/
def State.walkTouch (s : State) (die addr : Nat) : State :=
  if addr < s.dramTop && s.reach addr = .yes then s.touchL2 die (sectorOf addr) else s

/-- A walk from a table at a level by the walkers of a die (R37, R39). A cached upper-level entry is used as long as it stays; one
that differs from memory may have been replaced, which is free (R42). -/
def State.walk (s : State) (die asid va : Nat) : Nat → Nat → State × Walk
  | 0, table =>
    let addr := table + va / 2 ^ 12 % 512 * 8
    match s.walkEntry 0 addr with
    | .error w => (s.walkTouch die addr, w)
    | .ok (e, _) => (s.walkTouch die addr, .leaf e 0 addr)
  | l + 1, table =>
    let tag := va / 2 ^ (12 + 9 * (l + 1))
    let addr := table + tag % 512 * 8
    let found := s.walkEntry (l + 1) addr
    -- the level's outcome from memory
    let fresh := fun (s : State) => match found with
      | .error w => (s.walkTouch die addr, w)
      | .ok (e, true) => (s.walkTouch die addr, .leaf e (l + 1) addr)
      | .ok (e, false) =>
        let t := e / 2 ^ 12 % 2 ^ 40 * 4096
        State.walk ((s.walkTouch die addr).upperPut { die := die, asid := asid, level := l + 1, tag := tag, table := t }) die asid va l t
    match s.upperFind die asid (l + 1) tag with
    | none => fresh s
    | some t =>
      if found.toOption = some ((found.toOption.map (·.1)).getD 0, false) && (found.toOption.map (·.1)).getD 0 / 2 ^ 12 % 2 ^ 40 * 4096 = t then
        State.walk s die asid va l t
      else
        let (k, s1) := s.pick 2
        if k = 0 then State.walk s1 die asid va l t else fresh s1

/-- The layout check of a physical address by place class (R34, R36, R12): the check of 0x085 it fails. -/
def State.layoutBad (s : State) (die pa : Nat) : Option Nat :=
  let c := placeClass pa
  if c < 8 then (if s.dramTop ≤ pa then some 0x0b else none)
  else if c = 8 then (if pa / 2 ^ 39 % 64 ≥ 36 ∨ pa / 2 ^ 20 % 2 ^ 19 ≠ 0 then some 0x0a else none)
  else if c = 9 then (if pa / 2 ^ 39 % 64 ≥ 36 ∨ pa / 2 ^ 11 % 2 ^ 28 ≠ 0 then some 0x0a else none)
  else if c = 0xa then
    (if pa / 2 ^ 39 % 64 ≥ 36 ∨ pa / 2 ^ 21 % 2 ^ 18 ≠ 0 ∨ (pa / 2 ^ 20 % 2 = 0 ∧ pa / 2 ^ 19 % 2 ≠ 0) then some 0x0a else none)
  else if c = 0xb then
    (if pa / 2 ^ 44 % 16 ≥ 12 then some 0x0c else if pa / 2 ^ 24 % 2 ^ 20 ≠ 0 then some 0x0a else none)
  else if c < 0xf then
    (if ((s.die die).peerMap.getD ((c - 0xc) * 64 + pa / 2 ^ 42 % 64) 0).getLsbD 63 then none else some 0x0d)
  else some 0x0c

/-- The peer map entry of a fabric-class address (R36). -/
def State.peerEntry (s : State) (die pa : Nat) : Nat :=
  ((s.die die).peerMap.getD ((placeClass pa - 0xc) * 64 + pa / 2 ^ 42 % 64) 0).toNat

/-- The remote physical address of a fabric-class address (R36). -/
def State.remotePa (s : State) (die pa : Nat) : Nat := s.peerEntry die pa / 2 ^ 42 % 2 ^ 10 * 2 ^ 42 + pa % 2 ^ 42

/-- Does the address name this module's own endpoint (R36)? -/
def State.ownEndpoint (s : State) (die pa : Nat) : Bool :=
  decide (0xc ≤ placeClass pa) && decide (placeClass pa < 0xf) && s.peerEntry die pa % 1024 == s.fabricCaps.toNat / 0x10000 % 1024

/-- The layout check of an access: an address of the own endpoint meets that of the address it is carried out at, where a user
reaches DRAM and scratchpads only. DEDUCED, log entry 112. -/
def State.placeBad (s : State) (a : Agent) (pa : Nat) : Option Nat :=
  match s.layoutBad (dieOf a.core) pa with
  | some k => some k
  | none =>
    if s.ownEndpoint (dieOf a.core) pa then
      let at_ := s.remotePa (dieOf a.core) pa
      if 0xc ≤ placeClass at_ || (9 ≤ placeClass at_ && !a.priv) then some 0x0c else s.layoutBad (dieOf a.core) at_
    else none

/-- The location of a physical address: a peer window names a byte of another endpoint, or of this module where the endpoint is
its own (R36). -/
def State.locOf (s : State) (die pa : Nat) : Nat :=
  if 0xc ≤ placeClass pa ∧ placeClass pa < 0xf then
    if s.ownEndpoint die pa then s.remotePa die pa else (s.peerEntry die pa % 1024 + 1) * 2 ^ 52 + s.remotePa die pa
  else pa

/-- The place class at which an access is carried out: that of its location in this module, else the fabric's. -/
def classAt (loc pa : Nat) : Nat := if isLocal loc then placeClass loc else placeClass pa

/-- The scratchpad address of a core (R34). -/
def scratchPa (core off : Nat) : Nat := 8 * 2 ^ 48 + dieOf core * 2 ^ 45 + core % 36 * 2 ^ 39 + off

/-- A window access: offset o of the partition of the launch homed at a logical core (R32, R33); of a launch with SPLOG 15 none has a
partition (R62). While the image is saved the access waits; until the save takes the image away it reaches it. DESIGN CHOICE, log
entry 113. -/
def State.window (s : State) (l home o : Nat) : Xlat :=
  let L := s.launch l
  let row := home / 32
  let col := home % 32
  let inRect := decide (L.recd.orow ≤ row) && decide (row < L.recd.orow + L.recd.h) && decide (L.recd.ocol ≤ col)
    && decide (col < L.recd.ocol + L.recd.wd)
  if L.recd.splog = 15 then .trap { cause := 0x086, sub := 0x02 }
  else if !inRect then .trap { cause := 0x086, sub := 0x01 }
  else match s.partition? l home with
    | none => .trap { cause := 0x086, sub := 0x02 }
    | some p =>
      if p.size ≤ o then .trap { cause := 0x086, sub := 0x01 }
      else match p.core with
        | none => .wait
        | some c => .ok (scratchPa c (p.base + o)) (scratchPa c (p.base + o)) 0

/-- The translation that a leaf gives, 64 KiB where the hint of a whole group holds (R40). -/
def State.leafEntry (s : State) (asid va e level addr : Nat) : TlbEntry :=
  let group := addr / 128 * 128
  let es := (List.range 16).map (fun k => s.homeNat (group + 8 * k) 8)
  let e0 := es.getD 0 0
  let same := fun (k x : Nat) => decide (x % 2 = 1) && decide (x / 128 % 2 = 1) && decide (x / 2 ^ 52 = e0 / 2 ^ 52)
    && decide (x % 256 = e0 % 256) && decide (x / 2 ^ 12 % 2 ^ 40 = e0 / 2 ^ 12 % 2 ^ 40 + k)
  let big := level = 0 && decide (e / 128 % 2 = 1) && decide (e0 / 2 ^ 12 % 16 = 0)
    && ((List.range 16).all (fun k => same k (es.getD k 0)))
  let bits := if big then 16 else 12 + 9 * level
  let pages := List.range (if big then 16 else 1)
  { asid := asid, vpn := va / 2 ^ bits, bits := bits, ppn := e % 2 ^ 52 / 2 ^ bits, glob := decide (e / 32 % 2 = 1) && decide (e / 4 % 2 = 0)
    w := decide (e / 2 % 2 = 1), u := decide (e / 4 % 2 = 1), nx := decide (e / 2 ^ 63 % 2 = 1), sh := e / 2 ^ 58 % 4
    leaf := if big then group else addr
    noA := if e / 8 % 2 = 1 then [] else pages, noD := if e / 16 % 2 = 1 then [] else pages }

/-- Does a TLB that an agent translates through hold an entry: its core's L1 TLB, or its die's (R42)? -/
def Agent.sees (a : Agent) (t : TlbEntry) : Bool :=
  match t.place with
  | .core c => a.l1 && c == a.core
  | .die d => d == dieOf a.core

/-- Does a translation serve an address of an address space? -/
def TlbEntry.serves (t : TlbEntry) (asid va : Nat) : Bool := (t.asid == asid || t.glob) && t.vpn == va / 2 ^ t.bits

/-- The translation that an agent's TLBs hold for an address, its core's before its die's (R42). DESIGN CHOICE, log entry 12. -/
def State.tlbFind (s : State) (a : Agent) (va : Nat) : Option TlbEntry :=
  (s.tlb.find? (fun t => a.sees t && t.place == .core a.core && t.serves a.asid va)).or
    (s.tlb.find? (fun t => a.sees t && t.serves a.asid va))

/-- Makes room for one more entry of n that share a set: where they fill it, one of them goes, which is free. -/
def State.tlbRoom (s : State) (n : Nat) (set : List TlbEntry) : State :=
  if set.length < n then s
  else
    let (k, s1) := s.pick set.length
    match set[k]? with
    | some t => { s1 with tlb := s1.tlb.erase t }
    | none => s1

/-- Installs a translation: 128 entries of a core's L1 TLB, and sets of 8 of the 16,384 of a die's TLB (R42). Which set an entry belongs
to, and what is replaced, is free. DESIGN CHOICE, log entry 12. -/
def State.tlbPut (s : State) (t : TlbEntry) : State :=
  let here := s.tlb.filter (fun x => x.place == t.place)
  let s1 := match t.place with
    | .core _ => s.tlbRoom 128 here
    | .die _ =>
      if here.length < 8 then s
      else
        let set := fun (x : TlbEntry) => Config.tlbSet (x.asid + 1024 * x.vpn) % 2048
        s.tlbRoom 8 (here.filter (fun x => set x == set t))
  { s1 with tlb := t :: s1.tlb }

/-- The place in its group of the page that an address lies in. -/
def TlbEntry.pageAt (t : TlbEntry) (va : Nat) : Nat := if t.bits = 16 then va / 4096 % 16 else 0

/-- Steps 4 to 6 of R41 on a translation. -/
def State.leafUse (s : State) (a : Agent) (va : Nat) (dir : Dir) (noUser : Bool) (t : TlbEntry) : Xlat :=
  let pa := t.ppn * 2 ^ t.bits + va % 2 ^ t.bits
  if !t.u && !a.priv && !noUser then .trap { cause := 0x083 }
  else if dir = .fetch && (t.nx || placeClass pa ≥ 8) then .trap { cause := 0x082 }
  else if dir = .wr && !t.w then .miss 0x081
  else match s.placeBad a pa with
    | some k => .trap { cause := 0x085, sub := k, paddr := BitVec.ofNat 64 pa }
    | none => .ok (s.locOf (dieOf a.core) pa) pa t.sh

/-- Do steps 4 and 5 of R41 pass, so that the walker sets A and D (R39)? -/
def leafPasses (a : Agent) (dir : Dir) (noUser : Bool) (t : TlbEntry) : Bool :=
  (t.u || a.priv || noUser) && !(dir = .fetch && (t.nx || t.ppn * 2 ^ t.bits / 2 ^ 51 % 2 = 1)) && !(dir = .wr && !t.w)

/-- The walker sets A, and D for a write, in the leaf of an access that passes steps 1 to 5, where the translation has not had it set
yet (R39): one byte of the leaf at its L2 home. DESIGN CHOICE, log entry 12. -/
def State.setAD (s : State) (a : Agent) (va : Nat) (wr : Bool) (t : TlbEntry) : State :=
  let k := t.pageAt va
  let needA := t.noA.contains k
  let needD := wr && t.noD.contains k
  if !needA && !needD then s
  else
    let at_ := t.leaf + 8 * k
    let old := (s.homeByte at_).toNat
    let s1 := s.putMarked (dieOf a.core) at_ [BitVec.ofNat 8 (old ||| (if needD then 0x18 else 0x08))]
    let same := fun (x : TlbEntry) => a.sees x && x.asid == t.asid && x.vpn == t.vpn && x.bits == t.bits && x.leaf == t.leaf
    { s1 with tlb := s1.tlb.map (fun x => if same x then
        { x with noA := x.noA.filter (· != k), noD := if needD then x.noD.filter (· != k) else x.noD } else x) }

/-- Uses a translation that an agent's TLBs hold. -/
def State.useTlb (s : State) (a : Agent) (va : Nat) (dir : Dir) (noUser : Bool) (t : TlbEntry) : State × Xlat :=
  (if leafPasses a dir noUser t then s.setAD a va (dir = .wr) t else s, s.leafUse a va dir noUser t)

/-- Is a page of a context area mapped? Of the team and thread records, those of existing threads (R402). -/
def State.ctxPage (s : State) (m : CtxMap) (off : Nat) : Bool :=
  let team := fun (k : Nat) (f : Team → Bool) => s.teams.any (fun T => T.is m.launch m.wg k && f T)
  if off < 0x30000 then true
  else if off < 0x90000 then team ((off - 0x30000) / 0x1000) (fun _ => true)
  else if off < 0x100000 then false
  else if off < 0x280000 then true
  else let k := (off - 0x280000) / 0x1000; decide (off < 0x800000) && team (k / 32) (fun T => decide (k % 32 * 2 < T.width))

/-- The leaf of a page of a context area: U = 0, and neither executable nor shared (R401). -/
def State.ctxLeaf (s : State) (a : Agent) (va : Nat) : Option TlbEntry :=
  (s.ctxMaps.find? (fun m => m.asid == a.asid && decide (m.base ≤ va) && decide (va < m.base + 2 ^ 23) && s.ctxPage m (va - m.base))).map (fun m =>
    { asid := a.asid, vpn := va / 4096, bits := 12, ppn := (m.frame + (va - m.base)) / 4096, glob := false, w := true, u := false, nx := true, sh := 0 })

/-- Translates an address of the translated region (R37 to R42): through the agent's TLBs, else by a walk. -/
def State.translateTable (s : State) (a : Agent) (va : Nat) (dir : Dir) (noUser : Bool) : State × Xlat :=
  let die := dieOf a.core
  let l1 := fun (s : State) (t : TlbEntry) => if a.l1 then s.tlbPut { t with place := .core a.core } else s
  match s.tlbFind a va with
  | some t => (if t.place = .die die then l1 s t else s).useTlb a va dir noUser t
  | none =>
    match s.rootOf a.asid with
    | none => (s, .miss 0x080)
    | some root =>
      match s.walk die a.asid va 4 root with
      | (s1, .absent) => (s1, .miss 0x080)
      | (s1, .bad k) => (s1, .trap { cause := 0x085, sub := k })
      | (s1, .mismatch pa) => (s1, .trap { cause := 0x090, sub := s1.homeSlice die pa, paddr := BitVec.ofNat 64 pa })
      | (s1, .link n) => (s1, .trap { cause := 0x1e2, sub := n })
      | (s1, .wait) => (s1, .wait)
      | (s1, .leaf e level addr) =>
        let t := { s1.leafEntry a.asid va e level addr with place := .die die }
        if leafPasses a dir noUser t then (l1 (s1.tlbPut t) t).useTlb a va dir noUser t else (s1, s1.leafUse a va dir noUser t)

/-- The same, with the context areas, whose leaves Gondola keeps by itself (R401). DESIGN CHOICE, log entry 137. -/
def State.translatePage (s : State) (a : Agent) (va : Nat) (dir : Dir) (noUser : Bool) : State × Xlat :=
  match s.ctxLeaf a va with
  | some t => (s, s.leafUse a va dir noUser t)
  | none => s.translateTable a va dir noUser

/-- Fills the virtual address into a fault. -/
def Xlat.at (x : Xlat) (va : BitVec 64) : Xlat :=
  match x with
  | .trap t => .trap { t with addr := va }
  | x => x

/-- A window's part of a translation: its own checks, then that of a fetch (R32, R41). -/
def Xlat.forFetch (dir : Dir) (x : Xlat) : Xlat :=
  match dir, x with
  | .fetch, .ok _ _ _ => .trap { cause := 0x082 }
  | .fetch, .wait => .trap { cause := 0x082 }
  | _, x => x

/-- Translation of any virtual address: the checks of R41 in their order, up to step 6. noUser: an access that the Basket makes
for a thread meets every check but the user check (R378). An address with bit 56 set outside the windows raises 0x086 with
sub-code 0x01. DESIGN CHOICE, log entry 114. -/
def State.translate (s : State) (a : Agent) (va : BitVec 64) (dir : Dir) (noUser : Bool := false) : State × Xlat :=
  let n := va.toNat
  if n / 2 ^ 57 ≠ 0 then (s, Xlat.at (.trap { cause := 0x085, sub := 0x01 }) va)
  else if n / 2 ^ 56 = 1 then
    if n / 2 ^ 20 = 2 ^ 36 then
      (s, Xlat.at (Xlat.forFetch dir (s.window a.launch a.home (n % 0x100000))) va)
    else if n / 2 ^ 28 = 0x10000010 then
      (s, Xlat.at (Xlat.forFetch dir (s.window a.launch (n / 0x100000 % 256) (n % 0x100000))) va)
    else (s, Xlat.at (.trap { cause := 0x086, sub := 0x01 }) va)
  else
    let (s', x) := s.translatePage a n dir noUser
    (s', Xlat.at x va)

/-! ## Invalidation (R42, R389) -/

/-- Does a translation cover an address? -/
def TlbEntry.covers (t : TlbEntry) (va : Nat) : Bool := t.vpn == va / 2 ^ t.bits

/-- Removes translations of every TLB and cached upper-level entries; the acknowledgements come at once. -/
def State.tlbDrop (s : State) (p : TlbEntry → Bool) (u : Upper → Bool) : State :=
  { s with tlb := s.tlb.filter (fun t => !p t), upper := s.upper.filter (fun x => !u x) }

/-- Invalidates the translations of an address in an address space, global ones included, and the upper-level entries on its path (R389). -/
def State.tlbPage (s : State) (asid va : Nat) : State :=
  s.tlbDrop (fun t => t.covers va && (t.asid == asid || t.glob)) (fun x => x.asid == asid && x.tag == va / 2 ^ (12 + 9 * x.level))

/-- Invalidates every entry of an address space (R389, R42). -/
def State.tlbSpace (s : State) (asid : Nat) : State := s.tlbDrop (·.asid == asid) (·.asid == asid)

/-! ## Ownership (R67, R79, R80) -/

/-- Does an engine entry or a reconstruction unit own a sector (R80, R85)? -/
def State.ownedSector (s : State) (sec : Nat) : Bool :=
  s.inflight.any (fun i => i.owned.contains sec) || s.wgs.any (fun w => match w.cover with | some k => k.owned.contains sec | none => false)

/-- Do n bytes at a location touch an owned sector? -/
def State.owned (s : State) (loc n : Nat) : Bool :=
  (List.range (sectorOf (loc + n - 1) + 1 - sectorOf loc)).any (fun k => s.ownedSector (sectorOf loc + k))

/-- The fields of a tile entry (R63). -/
def tileV (e : BitVec 128) : Bool := e.getLsbD 63
def tileState (e : BitVec 128) : Nat := (e.extractLsb' 61 2).toNat
def tileErr (e : BitVec 128) : Bool := e.getLsbD 60
def tileOwner (e : BitVec 128) : Nat := (e.extractLsb' 48 8).toNat
def tileLen (e : BitVec 128) : Nat := (e.extractLsb' 34 14).toNat
def tileBase (e : BitVec 128) : Nat := (e.extractLsb' 7 13).toNat
def tileSeq (e : BitVec 128) : BitVec 64 := e.extractLsb' 64 64

/-- A tile entry from its fields. -/
def mkTile (seq : BitVec 64) (st : Nat) (err : Bool) (owner len base : Nat) : BitVec 128 :=
  BitVec.ofNat 128 (seq.toNat * 2 ^ 64 + 2 ^ 63 + st * 2 ^ 61 + err.toNat * 2 ^ 60 + owner * 2 ^ 48 + len * 2 ^ 34 + base * 2 ^ 7)

/-- Does a tile in one of these states cover one of n bytes of a scratchpad (R67)? -/
def State.tileCovers (s : State) (core off n : Nat) (states : List Nat) : Bool :=
  s.parts.any (fun p => p.core == some core && (List.range p.tiles).any (fun t =>
    let e := (s.core core).tiles.getD (p.tbase + t) 0
    let lo := p.base + tileBase e * 128
    tileV e && states.contains (tileState e) && decide (off < lo + tileLen e * 128) && decide (lo < off + n)))

/-- The core and the offset of a scratchpad location. -/
def scratchOf (loc : Nat) : Option (Nat × Nat) :=
  if loc / 2 ^ 48 = 8 then some (loc / 2 ^ 45 % 8 * 36 + loc / 2 ^ 39 % 64, loc % 2 ^ 20) else none

/-- Must an access to n bytes wait for an engine (R67, R80)? -/
def State.engineHolds (s : State) (loc n : Nat) (store : Bool) : Bool :=
  s.owned loc n ||
  (match scratchOf loc with
   | some (core, off) => s.tileCovers core off n (if store then [1, 3] else [1])
   | none => false)

/-- Must a store of a view wait for an entry that has still to read its source (R79)? The source bytes are met by whatever address the
store uses. DEDUCED, log entry 18. -/
def State.sourceHolds (s : State) (core l wg : Nat) (va : BitVec 64) (loc n : Nat) : Bool :=
  let W := s.wg l wg
  s.snaps.any (fun q => q.launch == l && (q.core == some core || W.sets.any q.sets.contains)
    && ((decide (q.va.toNat < va.toNat + n) && decide (va.toNat < q.va.toNat + q.len))
      || q.locs.any (fun x => decide (x.1 < loc + n) && decide (loc < x.1 + x.2))))

/-! ## Views (R125 to R138) -/

/-- How a target is held (R51): cached in L1, uncached at its home, or a scratchpad. -/
inductive Holding where
  | cached | uncached | scratch
  deriving DecidableEq, Repr

/-- The holding of a location that an access reaches at a physical address with the leaf's sharing (R51, R24); the own endpoint's
memory is uncached (R36). -/
def State.holding (s : State) (loc pa sh : Nat) : Holding :=
  if placeClass pa < 8 then (if sh = 0 then .cached else .uncached)
  else if classAt loc pa = 8 then .scratch
  else if isLocal loc then .uncached
  else if sh = 2 && s.fabricCaps.getLsbD 31 then .cached else .uncached

/-- Lays the bytes of one map over another. -/
def ByteMap.over (m top : ByteMap) : ByteMap := top.foldl (fun a c => ByteMap.put a c.1 c.2) m

/-- The carried bytes that a workgroup reads: of its latest set first (R138). -/
def State.carried (s : State) (l wg : Nat) : Carry :=
  (s.wg l wg).carry.foldr (fun k (a : Carry) =>
    match s.carries.find? (·.id == k) with
    | none => a
    | some c => { a with bytes := ByteMap.over a.bytes c.bytes, uncached := ByteMap.over a.uncached c.uncached }) { id := 0, launch := l }

/-- One byte as a plain load of a view reads it (R133, R136). DEDUCED, log entry 23. -/
def State.viewByte (s : State) (core l wg : Nat) (h : Holding) (loc : Nat) : Byte :=
  let v := s.view core l
  match h with
  | .scratch => s.homeByte loc
  | .uncached => ((ByteMap.get? v.uncached loc).or (ByteMap.get? (s.carried l wg).uncached loc)).getD (s.homeByte loc)
  | .cached =>
    (((ByteMap.get? v.dirty loc).or (ByteMap.get? (s.carried l wg).bytes loc)).or (ByteMap.get? v.clean loc)).getD (s.homeByte loc)

/-- n bytes as a plain load of a view reads them. -/
def State.viewBytes (s : State) (core l wg : Nat) (h : Holding) (loc n : Nat) : List Byte :=
  (List.range n).map (fun k => s.viewByte core l wg h (loc + k))

/-- Are all n bytes the view's own (R80)? -/
def State.ownBytes (s : State) (core l : Nat) (loc n : Nat) : Bool :=
  (List.range n).all (fun k => (ByteMap.get? (s.view core l).dirty (loc + k)).isSome)

/-- Puts a run of bytes into a map. -/
def ByteMap.putAll : ByteMap → Nat → List Byte → ByteMap
  | m, _, [] => m
  | m, a, b :: bs => ByteMap.putAll (ByteMap.put m a b) (a + 1) bs

/-- Removes a run of bytes from a map. -/
def ByteMap.delAll : ByteMap → Nat → Nat → ByteMap
  | m, _, 0 => m
  | m, a, n + 1 => ByteMap.delAll (ByteMap.del m a) (a + 1) n

/-- Does a view hold the byte of a load itself, so that no sector is read from the home (R133, R136)? -/
def State.holds (s : State) (core l wg : Nat) (h : Holding) (loc : Nat) : Bool :=
  let v := s.view core l
  match h with
  | .scratch => false
  | .uncached => ((ByteMap.get? v.uncached loc).or (ByteMap.get? (s.carried l wg).uncached loc)).isSome
  | .cached => ((ByteMap.get? v.dirty loc).or (ByteMap.get? (s.carried l wg).bytes loc)).isSome

/-- Is the clean copy of a location's sector one that a fill would bring again? -/
def View.freshCopy (v : View) (s : State) (loc : Nat) : Bool :=
  let base := sectorOf loc * 64
  !s.sealBad loc && (List.range 64).all (fun k => ByteMap.get? v.clean (base + k) = some (s.homeByte (base + k)))

/-- A load miss fills its sector clean, with its seal checked; none where it is bad (R56, R18). The L1 may drop a clean copy at
any time, or keep it (R52, R133): which is a free choice, made where it makes a difference. DESIGN CHOICE, log entry 13. -/
def State.fill (s : State) (core l : Nat) (loc : Nat) : Option State :=
  let v := s.view core l
  let base := sectorOf loc * 64
  let get := fun (s : State) =>
    if s.sealBad loc then none else
      some ((s.setView { v with clean := ByteMap.putAll v.clean base (s.homeBytes base 64) }).touchL2 (core / 36) (sectorOf loc))
  match ByteMap.get? v.clean loc with
  | none => get s
  | some _ =>
    if v.freshCopy s loc then some s
    else
      let (k, s1) := s.pick 2
      if k = 0 then some s1 else get s1

/-- A line of another endpoint comes to be held under the directory (R22). -/
def State.noteShared (s : State) (loc : Nat) : State :=
  if isLocal loc || s.shared.contains (loc / 128) then s else { s with shared := loc / 128 :: s.shared }

/-- Clean copies of a sector leave every L1 (R80). -/
def State.dropClean (s : State) (sec : Nat) : State :=
  { s with views := s.views.map (fun v => { v with clean := ByteMap.delAll v.clean (sec * 64) 64 }) }

/-- Does the seal of a slot of a launch's phase overflow area not match any more (R17, R57)? -/
def State.slotLost (s : State) (core l slot : Nat) : Bool :=
  let L := s.launch l
  let a : Agent := { core := core, launch := l, wg := 0, asid := L.asid, home := 0, priv := true }
  match (s.translate a (L.recd.ovfbase + BitVec.ofNat 64 (slot * 64)) .rd).2 with
  | .ok at_ _ _ => s.sealBad at_
  | _ => false

/-- Does a view keep bytes of a location's sector, its own or carried ones, in such a slot? -/
def State.slotDamaged (s : State) (core l wg : Nat) (loc : Nat) : Bool :=
  let sec := sectorOf loc
  let slots := ((s.view core l).spilled.filter (·.1 == sec)).map (·.2)
    ++ (s.wg l wg).carry.flatMap (fun k => (s.carries.filter (·.id == k)).flatMap (fun c => (c.slots.filter (·.1 == sec)).filterMap (·.2)))
  slots.any (s.slotLost core l)

/-- Has a view a sector whole in L1: a clean copy, or every byte dirty (R56)? -/
def View.valid (v : View) (loc : Nat) : Bool :=
  let base := sectorOf loc * 64
  (ByteMap.get? v.clean loc).isSome || (List.range 64).all (fun k => (ByteMap.get? v.dirty (base + k)).isSome)

/-- A plain store of bytes into a view, at a scratchpad port, or held for an uncached home; none for a seal mismatch at a
partial sector (R16, R56, R60, R136). whole: the stores of its instruction cover the sector together. -/
def State.viewStore (s : State) (core l : Nat) (h : Holding) (loc : Nat) (bs : List Byte) (whole : Bool := false) : Option State :=
  match h with
  | .scratch => (if whole then s.freshSeal (sectorOf loc) else s).writeHome loc bs (dieOf core)
  | .uncached => let v := s.view core l; some (s.setView { v with uncached := ByteMap.putAll v.uncached loc bs })
  | .cached =>
    let v := s.view core l
    let sec := sectorOf loc
    let put := fun (v : View) => s.setView { v with
      dirty := ByteMap.putAll v.dirty loc bs, held := v.held.filter (· != sec), spilled := v.spilled.filter (·.1 != sec) }
    if whole || v.valid loc then some (put v)
    else if s.sealBad loc then none
    else some ((put { v with clean := ByteMap.putAll v.clean (sec * 64) (s.homeBytes (sec * 64) 64) }).touchL2 (dieOf core) sec)

/-- Runs of a byte map by sector. -/
def ByteMap.sectors (m : ByteMap) : List Nat := (m.map (fun c => sectorOf c.1)).dedup

/-! ## Health counters and pinned sectors (R19, R52, R431) -/

/-- DEVICE_HEALTH with a saturating 8-bit field at a bit raised by one. -/
def bumpHealth (h : BitVec 64) (lo : Nat) : BitVec 64 :=
  let n := h.toNat
  let f := n / 2 ^ lo % 256
  if f = 255 then h else BitVec.ofNat 64 (n + 2 ^ lo)

/-- An interrupt or a message to Gondola or to the hosts. -/
def State.notify (s : State) (cause arg : Nat) : State := { s with notices := s.notices ++ [(cause, arg)] }

/-- DEVICE_HEALTH.SERVICE_REQ is set, a management message and MSI-X vector 0 are sent (R433). -/
def State.serviceReq (s : State) : State :=
  { s with deviceHealth := s.deviceHealth ||| (1#64 <<< 63), msix := s.msix ++ [0], notices := s.notices ++ [(0x500, 0)] }

/-- A link is declared failed: what L2 still held for it is discarded (R14, R19, R431). UNVERIFIED, log entry 54. -/
def State.failLink (s : State) (n : Nat) : State :=
  ({ s with links := s.links.set n { (s.links.getD n {}) with state := .failed }
            l2Dirty := s.l2Dirty.filter (fun sec => !(decide (sec * 64 < 2 ^ 51) && linkOf (sec * 64) == n))
            l2Valid := s.l2Valid.filter (fun x => !(decide (x.1 * 64 < 2 ^ 51) && linkOf (x.1 * 64) == n))
            deviceHealth := bumpHealth s.deviceHealth 8 }).serviceReq

/-- A machine-check interrupt to Gondola for a sector: its physical address in [51:0], and from bit 52 on one more than the core
that wrote it, where one is named (R19, R58). -/
def State.sealNotice (s : State) (sec : Nat) (core : Option Nat) : State :=
  s.notify 0x090 (sec * 64 + ((core.map (· + 1)).getD 0) * 2 ^ 52)

/-- A unit of a die can no longer work: 0x1E1 is raised to Gondola in a record without a thread, and the module asks for service (R400, R433). -/
def State.unitFails (s : State) (die sub : Nat) : State :=
  ((s.notify 0x1e1 sub).deliver die { cause := 0x1e1, sub := sub % 0x10000, nl := true, mc := true, tick := s.tick }).serviceReq

/-- A sector that fails its egress check is pinned in its slice, no longer dirty; the seventeenth of a slice goes to the poison list of
its I/O die, with zeros in DRAM; where that is full too, its link is declared failed (R19). -/
def State.pinSector (s : State) (die sec : Nat) : State :=
  let s := { s with l2Dirty := s.l2Dirty.filter (· != sec) }
  let slice := s.sliceOf die sec
  if s.pinned.contains sec || s.poison.contains sec then s
  else if (s.pinned.filter (fun p => s.sliceOf die p == slice)).length < 16 then
    { s with pinned := sec :: s.pinned, deviceHealth := bumpHealth s.deviceHealth 0 }
  else
    let io := linkOf (sec * 64) / 12
    if (s.poison.filter (fun p => linkOf (p * 64) / 12 == io)).length < 256 then
      ({ s.putBytes (sec * 64) (List.replicate 64 0) with poison := sec :: s.poison }).unitFails (slice / 16) slice
    else s.failLink (linkOf (sec * 64))

/-- Writes the masked bytes of one sector back to its home: a full mask replaces it; a partial one checks the old seal, and a
mismatch pins the sector and drops the bytes (R58, R19, R14). bad: the bytes come from a damaged slot of the phase overflow area, and are
treated so too. DESIGN CHOICE, log entry 116. -/
def State.writeBackSector (s : State) (m : ByteMap) (core sec : Nat) (bad : Bool := false) : State :=
  let bytes := m.filter (fun c => sectorOf c.1 == sec)
  match s.reach (sec * 64) with
  | .failed _ => s
  | _ =>
    if bad || (bytes.length < 64 && s.sealBad (sec * 64)) then (s.pinSector (dieOf core) sec).sealNotice sec (some core)
    else
      let s1 := bytes.foldl (fun a c => a.putHome c.1 c.2) s
      (if bytes.length = 64 then s1.freshSeal sec else s1).markL2 (dieOf core) sec

/-- Bytes on their way home: a view's dirty or held uncached bytes, or carried ones, by the core that wrote them; for carried bytes the set's
number, and the sets whose bytes are older for the same workgroups (R58, R138). -/
structure WriteBack where
  core  : Nat
  bytes : ByteMap
  carry : Option Nat := none
  after : List Nat := []
  /-- The sectors whose slots in the phase overflow area are damaged (R17, R57). -/
  bad   : List Nat := []
  deriving DecidableEq, Repr

/-- The sectors that a write-back touches. -/
def WriteBack.has (w : WriteBack) (sec : Nat) : Bool := w.bytes.any (fun c => sectorOf c.1 == sec)

/-- Must one write-back of a sector come after another that is still to come? -/
def WriteBack.behind (w : WriteBack) (all_ : List WriteBack) : Bool :=
  all_.any (fun x => match x.carry with | some k => w.after.contains k | none => false)

/-- Writes one sector of several write-backs home: which comes next, of those that need not come after another, is free (R58). -/
def State.writeSectorBacks (s : State) (sec : Nat) : Nat → List WriteBack → State
  | 0, _ => s
  | _ + 1, [] => s
  | _ + 1, [w] => s.writeBackSector w.bytes w.core sec (w.bad.contains sec)
  | n + 1, ws =>
    let can := ws.filter (fun w => !w.behind ws)
    let (k, s1) := if can.length = 1 then (0, s) else s.pick can.length
    match can[k]? with
    | none => s1
    | some w => State.writeSectorBacks (s1.writeBackSector w.bytes w.core sec (w.bad.contains sec)) sec n (ws.erase w)

/-- Writes bytes home, sector by sector; where several write-backs hold bytes of one sector, whose bytes come last is free (R58). -/
def State.writeBackAll (s : State) (ws : List WriteBack) : State :=
  ((ws.flatMap (fun w => w.bytes.map (fun c => sectorOf c.1))).dedup).foldl (fun a sec =>
    let here := ws.filter (·.has sec)
    a.writeSectorBacks sec here.length here) s

/-- The sectors of a view that lie in damaged slots. -/
def State.lostSectors (s : State) (v : View) : List Nat := (v.spilled.filter (fun x => s.slotLost v.core v.launch x.2)).map (·.1)

/-- The write-backs of a view: its dirty bytes and its held uncached stores, behind the carried bytes that the launch's workgroups on its
core read, and those that retired ones took with them (R138). -/
def State.viewBacks (s : State) (core l : Nat) : List WriteBack :=
  let v := s.view core l
  let old := ((s.wgs.filter (fun W => W.launch == l && (W.core == core || W.state == .retired))).flatMap (·.carry)).dedup
  [{ core := core, bytes := v.dirty, after := old, bad := s.lostSectors v }, { core := core, bytes := v.uncached, after := old }]

/-- The write-backs of a set's carried bytes, which are made once (R138). -/
def State.carryBacks (s : State) (k : Carry) : List WriteBack :=
  if k.written then []
  else
    let old := (s.wgs.filter (fun W => W.launch == k.launch && W.carry.contains k.id)).flatMap (fun W => (W.carry.dropWhile (· != k.id)).drop 1)
    let bad := (k.slots.filter (fun x => (x.2.map (s.slotLost k.core k.launch)).getD false)).map (·.1)
    [{ core := k.core, bytes := k.bytes, carry := some k.id, after := old.dedup, bad := bad }
    , { core := k.core, bytes := k.uncached, carry := some k.id, after := old.dedup }]

/-- The actions of R58 and R138 on views and carried sets of a launch: their bytes go home, the views are empty, the sets are written. -/
def State.bytesHome (s : State) (l : Nat) (cores : List Nat) (sets : List Carry) : State :=
  let s1 := s.writeBackAll (sets.flatMap s.carryBacks ++ cores.flatMap (fun c => s.viewBacks c l))
  let s2 : State := { s1 with carries := s1.carries.map (fun x => if sets.any (·.id == x.id) then { x with written := true } else x) }
  cores.foldl (fun a c => a.setView { core := c, launch := l }) s2

/-- Items in an order that nothing states: each next one is a free choice among those left. -/
def shuffle {α : Type} : Nat → State → List α → State × List α
  | 0, s, l => (s, l)
  | _ + 1, s, [] => (s, [])
  | _ + 1, s, [x] => (s, [x])
  | n + 1, s, l =>
    let (k, s1) := s.pick l.length
    match l[k]? with
    | none => (s1, l)
    | some x =>
      let (s2, rest) := shuffle n s1 (l.eraseIdx k)
      (s2, x :: rest)

/-- Clean lines of a core's L1 go, whatever their view (R58, R125). -/
def State.cleanCore (s : State) (core : Nat) : State :=
  { s with views := s.views.map (fun v => if v.core == core then { v with clean := [] } else v) }

end Sys2Proof.Machine
end

