-- ==== Sys2Proof/Machine/MatMap.lean ====
section
/-!
DEFINITION. Machine/MatMap.lean: operand maps (15 R277, R278) and the bytes that a matrix operation reads, which a store of its
core must not overtake (R286).
-/

namespace Sys2Proof.Machine

/-- Bits [hi:lo] of a descriptor. -/
def bitsAt (x : Nat) (hi lo : Nat) : Nat := x / 2 ^ lo % 2 ^ (hi - lo + 1)

/-- The fields of an operand map (R277). -/
structure MapView where
  scale   : Nat
  sstride : Nat
  base    : Nat
  stride  : Nat
  rows    : Nat
  klen    : Nat
  tilev   : Bool
  tile    : Nat
  geom    : Nat
  fmt     : Nat
  layout  : Nat
  deriving DecidableEq, Repr

/-- Reads the fields of a descriptor. -/
def mapView (m : BitVec 512) : MapView :=
  let x := m.toNat
  { scale := bitsAt x 511 448, sstride := bitsAt x 447 416, base := bitsAt x 383 320, stride := bitsAt x 319 288
    rows := bitsAt x 287 272, klen := bitsAt x 271 256, tilev := bitsAt x 23 23 = 1, tile := bitsAt x 22 16
    geom := bitsAt x 11 8, fmt := bitsAt x 7 4, layout := bitsAt x 0 0 }

/-- Does a descriptor fail the checks of opmap (R279)? -/
def mapBad (m : BitVec 512) : Bool :=
  let x := m.toNat
  let v := mapView m
  bitsAt x 415 384 != 0 || bitsAt x 255 24 != 0 || bitsAt x 15 12 != 0 || bitsAt x 3 1 != 0
    || v.base % 16 != 0 || v.stride % 16 != 0 || v.rows == 0 || v.klen == 0 || v.klen % 16 != 0

/-- The bits of an element of a format code. -/
def fmtBits (fmt : Nat) : Nat := if fmt = 0xa ∨ fmt = 0xb then 16 else if fmt = 0xe then 4 else 8

/-- The virtual address of the byte that holds element (r, k), and the element's place in it in bits (R278). -/
def MapView.elem (v : MapView) (r k : Nat) : Nat × Nat :=
  let b := fmtBits v.fmt
  if v.layout = 0 then ((v.base + r * v.stride + k * b / 8) % 2 ^ 64, k * b % 8)
  else ((v.base + k * v.stride + r * b / 8) % 2 ^ 64, r * b % 8)

/-- The virtual address of the scale of grid cell (a, b) (R278). -/
def MapView.cell (v : MapView) (a b : Nat) : Nat := (v.scale + a * v.sstride + b) % 2 ^ 64

/-- The grid cell of row r and K block blk of 16 elements (R122). -/
def MapView.gridCell (v : MapView) (r blk : Nat) : Nat × Nat :=
  match v.geom with
  | 2 => (r, blk / 2)
  | 3 => (r / 16, blk)
  | _ => (r / 32, blk / 2)

/-- The K blocks of 16 elements that an operation sums: all of an mma's, two of each byte select of an mmasc (R281). -/
def passBlocks (bs : List Nat) (v : MapView) : List Nat :=
  if bs.isEmpty then List.range (v.klen / 16) else bs.flatMap (fun n => [2 * n, 2 * n + 1])

/-- The same issue by issue: an mma is one, each byte select of an mmasc is one (R285). -/
def issueBlocks (bs : List Nat) (v : MapView) : List (List Nat) :=
  if bs.isEmpty then [List.range (v.klen / 16)] else bs.map (fun n => [2 * n, 2 * n + 1])

/-- The bytes of some runs as issue k reads them: k * 2^64 + virtual address. -/
def issueKeys (k : Nat) (rs : List (Nat × Nat)) : List Nat :=
  rs.flatMap (fun (r : Nat × Nat) => (List.range r.2).map (fun j => k * 2 ^ 64 + (r.1 + j) % 2 ^ 64))

/-- The bytes of the elements and scales of rows r0 to r0 + n - 1 of a map over some K blocks. -/
def MapView.bytes (v : MapView) (r0 n : Nat) (blocks : List Nat) : List (Nat × Nat) :=
  (List.range n).flatMap (fun i => blocks.flatMap (fun blk =>
    (if 2 ≤ v.geom ∧ v.geom ≤ 4 then [(v.cell (v.gridCell (r0 + i) blk).1 (v.gridCell (r0 + i) blk).2, 1)] else [])
    ++ (List.range 16).map (fun k => ((v.elem (r0 + i) (16 * blk + k)).1, max 1 (fmtBits v.fmt / 8)))))

/-- The bytes that a part of a pass reads. -/
def PassPart.bytes (p : PassPart) : List (Nat × Nat) :=
  let a := mapView p.ma
  let b := mapView p.mb
  a.bytes p.ao 16 (passBlocks p.bs a) ++ b.bytes 0 32 (passBlocks p.bs b)
    ++ (if b.geom = 1 then [(p.bscale.toNat, 64)] else [])

/-- The agent as which the matrix pipes of a core read for a part: they use the TLB of the die (R43). -/
def State.partAgent (s : State) (core : Nat) (p : PassPart) : Agent :=
  let L := s.launch p.launch
  { core := core, launch := p.launch, wg := p.wg, asid := L.asid, home := (s.wg p.launch p.wg).home, priv := L.priv }

/-- Does a part read one of n bytes at a location: where its bytes lay at issue, and those that did not translate then, where they lie now? -/
def State.partMeets (s : State) (core : Nat) (p : PassPart) (loc n : Nat) : Bool :=
  p.locs.any (fun r => decide (r.1 < loc + n) && decide (loc < r.1 + r.2))
    || (decide (p.locs.length < (p.bytes.map (·.2)).sum) && p.bytes.any (fun r =>
        match (s.translate (s.partAgent core p) (BitVec.ofNat 64 r.1) .rd).2 with
        | .ok at_ _ _ => decide (at_ < loc + n) && decide (loc < at_ + r.2)
        | _ => false))

/-- Must a store on a core wait for a matrix operation of the core that reads the byte (R286), by whatever address and launch? -/
def State.matrixHolds (s : State) (core l : Nat) (va : BitVec 64) (loc n : Nat) : Bool :=
  (s.core core).passes.any (fun q => !q.done && q.parts.any (fun p =>
    (p.launch == l && p.bytes.any (fun r => decide (r.1 < va.toNat + n) && decide (va.toNat < r.1 + r.2)))
      || s.partMeets core p loc n))

/-- Does an operation in the queue still read a tile of a partition (R66)? -/
def State.tileRead (s : State) (core l home t : Nat) : Bool :=
  (s.core core).passes.any (fun q => !q.done && q.parts.any (fun p =>
    p.launch == l && (s.wg l p.wg).home == home
      && [p.ma, p.mb].any (fun m => (mapView m).tilev && (mapView m).tile == t)))

end Sys2Proof.Machine
end

