-- ==== Sys2Proof/Machine/Debug.lean ====
section
/-!
DEFINITION. Machine/Debug.lean: the logical mesh (02 R48), trace records (23 R422 to R424), halts, stops and single steps (R414,
R419, R420), and a change of the L2 mode (03 R54, R55).
-/

namespace Sys2Proof.Machine

/-! ## The logical mesh (R48) -/

/-- The physical core of a logical core, row * 32 + column. -/
def State.physOf (s : State) (c : Nat) : Option Nat :=
  s.meshCore (c / 32 / 4 * 4 + c % 32 / 8) (c / 32 % 4 * 8 + c % 8)

/-- The logical core of a physical core, row * 32 + column. -/
def State.logicalOf (s : State) (core : Nat) : Option Nat :=
  let d := dieOf core
  ((List.range 32).find? (fun n => s.meshCore d n == some core)).map (fun n =>
    (d / 4 * 4 + n / 8) * 32 + (d % 4 * 8 + n % 8))

/-- A logical core as trace records name it: row in [15:8], column in [7:0]; 0xFFFF where there is none. -/
def State.traceCore (s : State) (core : Nat) : Nat :=
  match s.logicalOf core with
  | some c => c / 32 * 256 + c % 32
  | none => 0xffff

/-! ## Trace (R422 to R424) -/

/-- A slot of the stream, as bytes. -/
def traceSlot (payload tick kind slots asid die core q : Nat) : List Byte :=
  leBytes 32 (payload % 2 ^ 128 * 2 ^ 128 + tick % 2 ^ 64 * 2 ^ 64 + kind * 2 ^ 56 + slots * 2 ^ 52 + asid % 1024 * 2 ^ 42
    + die % 8 * 2 ^ 39 + core % 65536 * 2 ^ 16 + q % 65536)

/-- Writes the slots of the oldest records that wait into the ring, and advances TRACE_WR, as far as their memory can be reached; over a failed link
they are lost (R14, R429). The ring address is physical. DEDUCED, log entry 20. -/
def State.traceFlush (s : State) (d : Nat) : Nat → State
  | 0 => s
  | n + 1 =>
    let D := s.die d
    match D.traceOut with
    | [] => s
    | bs :: rest =>
      let slots := (List.range (bs.length / 32)).map (fun k =>
        (D.traceBase.toNat + (D.traceWr.toNat + 32 * k) % D.traceSize.toNat, (bs.drop (32 * k)).take 32))
      if slots.any (fun x => s.reach x.1 == .wait) then s
      else
        let s1 := slots.foldl (fun (a : State) x => if a.reach x.1 = .yes then (a.writeHome x.1 x.2 d).getD a else a) s
        State.traceFlush (s1.setDie d { s1.die d with traceWr := D.traceWr + BitVec.ofNat 64 bs.length, traceOut := rest }) d n

/-- Puts a record into the ring. -/
def State.tracePut (s : State) (d : Nat) (bs : List Byte) : State :=
  let D := s.die d
  (s.setDie d { D with traceOut := D.traceOut ++ [bs] }).traceFlush d (D.traceOut.length + 1)

/-- Does room remain? -/
def Die.traceRoom (D : Die) : Bool := decide ((D.traceWr - D.traceRd).toNat + (D.traceOut.map (·.length)).sum + 160 ≤ D.traceSize.toNat)

/-- Writes a record, or drops it whole; when room returns a DROP record goes first. -/
def State.trace (s : State) (d kind asid core q payload : Nat) (extra : List Byte) : State :=
  let D := s.die d
  let enabled := kind = 4 || D.traceCtl.getLsbD (kind - 1)
  if D.traceSize = 0 || !enabled then s
  else
    let s1 := if D.dropped ≠ 0 && D.traceRoom then
        let s2 := s.tracePut d (traceSlot (D.dropped % 2 ^ 32) s.tick.toNat 5 1 0 d 0xffff 0)
        s2.setDie d { s2.die d with dropped := 0 }
      else s
    if (s1.die d).traceRoom then
      s1.tracePut d (traceSlot payload s.tick.toNat kind (1 + extra.length / 32) asid d core q ++ extra)
    else
      let D1 := s1.die d
      s1.setDie d { D1 with dropped := D1.dropped + 1
                            traceDrop := if D1.traceDrop = BitVec.allOnes 64 then D1.traceDrop else D1.traceDrop + 1 }

/-- The Q field of a record of a team: workgroup slot and team index. -/
def State.traceQ (s : State) (T : Team) : Nat := (s.wg T.launch T.wg).slot % 256 * 256 + T.idx % 128

/-! ## Halts (R419, R420) -/

/-- A HALT record of a team. -/
def State.haltRecord (s : State) (T : Team) (tick : BitVec 64) (skid cause : Nat) (held : Bool) : State :=
  s.trace (dieOf T.core) 4 (s.launch T.launch).asid (s.traceCore T.core) (s.traceQ T)
    (tick.toNat + skid % 2 ^ 32 * 2 ^ 64 + cause * 2 ^ 96 + held.toNat * 2 ^ 105) []

/-- May a thread stop where it stands: at a clause boundary, or at a sleep, wait, qpop or svcwait slot (R419)? An append that has claimed its place in a
ring waits for room at a slot that is none of these. -/
def Thread.atRest (th : Thread) : Bool :=
  th.status == .exited || th.status == .parked || th.status == .stopped || !th.inside
    || (match th.hold with
        | .asleep _ | .arrived => true
        | .at r => r == 9 || r == 10 || (r == 11 && th.claim.isNone)
        | _ => false)

/-- Threads of a team that has halted at a boundary leave their entries, and join again when the halt ends. -/
def Team.release (T : Team) : Team :=
  T.mapThreads (fun th => if th.inside || th.status == .exited then th else { th with entry := none, slotDone := false })

/-- A team with a stop pending halts once all its threads are at rest; one whose last thread has exited does not (R419). -/
def State.settleHalt (s : State) (T : Team) : State :=
  match T.stopReq with
  | none => s
  | some (tick, cause) =>
    if T.live.isEmpty then s
    else if T.threads.all Thread.atRest then
      let skid := (T.recent.filter (fun t => decide (tick.toNat < t.toNat))).length
      (s.haltRecord T tick skid cause false).updTeam T.launch T.wg T.idx (fun T => { T.release with halted := true, stopReq := none, recent := [] })
    else s

/-- Every team with a stop pending. -/
def State.settleHalts (s : State) : State := s.teams.foldl State.settleHalt s

/-- A stop arrives at a core (R419). -/
def State.stopArrives (s : State) (core : Nat) : State :=
  let K := s.core core
  match K.stopIn with
  | [] => s
  | st :: _ =>
    let s1 := s.setCore { K with stopIn := [], halt := true }
    (s1.mapTeams (fun T => if T.core == core && !T.halted && T.stopReq.isNone then { T with stopReq := some st } else T)).settleHalts

/-- The physical cores of the aligned block of 2^ca rows and 2^cb columns of the logical mesh that holds a logical core. -/
def State.cluster (s : State) (c ca cb : Nat) : List Nat :=
  let r0 := c / 32 - c / 32 % 2 ^ ca
  let c0 := c % 32 - c % 32 % 2 ^ cb
  (List.range (2 ^ ca)).flatMap (fun i => (List.range (2 ^ cb)).filterMap (fun j =>
    if r0 + i < 8 && c0 + j < 32 then s.physOf ((r0 + i) * 32 + c0 + j) else none))

/-- A stop is broadcast to a cluster: it is on its way to each core, and arrives as an event of that core (R414, R419). DESIGN CHOICE, log entry 40. -/
def State.broadcastStop (s : State) (cores : List Nat) (tick : BitVec 64) (cause : Nat) : State :=
  cores.foldl (fun a c => let K := a.core c; a.setCore { K with stopIn := K.stopIn ++ [(tick, cause)] }) s

/-- The logical core that a DBG_CMD names, where it lies on the die (R423). -/
def dbgCore (die : Nat) (v : BitVec 64) : Option Nat :=
  let row := v.toNat / 256 % 256
  let col := v.toNat % 256
  if row < 8 && col < 32 && row / 4 * 4 + col / 8 == die then some (row * 32 + col) else none

/-- The cluster that a DBG_CMD names. -/
def State.dbgCluster (s : State) (die : Nat) (v : BitVec 64) : List Nat :=
  match dbgCore die v with
  | some c => s.cluster c (v.toNat / 2 ^ 28 % 4) (min 5 (v.toNat / 2 ^ 25 % 8))
  | none => []

/-- DBG_CMD HALT. -/
def State.dbgHaltCmd (s : State) (die : Nat) (v : BitVec 64) : State := s.broadcastStop (s.dbgCluster die v) s.tick 0x184

/-- The RowProg value of a quarter: PEND and ROW (R288). -/
def rowProgVal (pend : Bool) (row : Nat) : BitVec 32 := BitVec.ofNat 32 (pend.toNat * 2 ^ 31 + row % 32)

/-- Sets RowProg of a quarter. -/
def Team.setRowProg (T : Team) (q : Nat) (v : BitVec 32) : Team := { T with rowprog := setAt T.rowprog q v }

/-- RowProg of a quarter after its first stopped operation has gone: that of the next one, or zero with the row given. -/
def Team.nextStopped (T : Team) (q row : Nat) : Team :=
  match T.stoppedOps.find? (·.quarter == q) with
  | some op => T.setRowProg q (rowProgVal true op.row)
  | none => T.setRowProg q (rowProgVal false row)

/-- The operation that a record stopped in a quarter, if it is a matrix operation's. -/
def Team.stoppedOf (T : Team) (r : Record) (q : Nat) : Option StoppedOp :=
  if r.defd then T.stoppedOps.find? (fun o => o.quarter == q && o.clause == r.clause && o.slot == r.slot) else none

/-- Discards the operation that stopped in a quarter (R288). -/
def Team.dropStopped (T : Team) (r : Record) (q : Nat) : Team :=
  match T.stoppedOf r q with
  | none => T
  | some o => Team.nextStopped { T with stoppedOps := T.stoppedOps.erase o } q o.row

/-- A debugger resumes the STOPPED threads of a team, with the effect of SKIP (R448). -/
def Team.resumeStopped (T : Team) : Team :=
  let ths := T.threads.filter (·.status == .stopped)
  let T1 := (List.range 8).foldl (fun (T : Team) q =>
    match (ths.find? (fun th => th.lane / 8 == q)).bind (·.record) with
    | some r => if r.matrix then T.dropStopped r q else T
    | none => T) T
  T1.mapThreads (fun th => if th.status == .stopped then th.resume false else th)

/-- DBG_CMD RESUME: the halts of the cluster end, its STOPPED threads go on, and the hang watchdogs of its holds start again (R420,
R421, R448). -/
def State.dbgResumeCmd (s : State) (die : Nat) (v : BitVec 64) : State :=
  let cs := s.dbgCluster die v
  let s1 := cs.foldl (fun a c => a.setCore { a.core c with halt := false, stopIn := [] }) s
  let s2 := s1.mapTeams (fun T =>
    if cs.contains T.core then Team.resumeStopped { T with halted := false, stopReq := none, recent := [], stepping := none } else T)
  { s2 with entries := s2.entries.map (fun e => if cs.contains e.core then { e with counts := List.replicate 8 0 } else e) }

/-- DBG_CMD STEP: a halted team may issue one clause; the scheduler takes it (R420). -/
def State.dbgStepCmd (s : State) (die : Nat) (v : BitVec 64) : State :=
  match (dbgCore die v).bind s.physOf with
  | none => s
  | some core =>
    s.mapTeams (fun T =>
      if T.core == core && T.halted && (s.wg T.launch T.wg).slot == v.toNat / 2 ^ 40 % 256 && T.idx == v.toNat / 2 ^ 32 % 128
      then { T with stepping := some (s.tick, none) } else T)

/-- A write of DBG_CMD (R423). -/
def State.dbgCommand (s : State) (die : Nat) (v : BitVec 64) : State :=
  match v.toNat / 2 ^ 60 with
  | 1 => s.dbgHaltCmd die v
  | 2 => s.dbgResumeCmd die v
  | 3 => s.dbgStepCmd die v
  | _ => s

/-! ## The L2 mode (R54, R55) -/

/-- Does an engine hold an uncompleted entry? Entries that a saved workgroup has posted lie in its rings (R83). -/
def State.engineBusy (s : State) : Bool :=
  !s.inflight.isEmpty
    || s.wgs.any (fun w => w.state != .saved && w.queues.any (fun q => decide (q.count % 2 ^ 32 ≠ q.qtail.toNat)))

/-- Does a user core hold a resident workgroup: firmware's run on cores of their own (R55, R182)? -/
def State.userResident (s : State) : Bool :=
  s.wgs.any (fun w => (w.state == .placed || w.state == .running || w.state == .evicting) && !(s.launch w.launch).priv)

/-- A write of L2_CFG. FAIL is cleared by writing 1 (R54). A change runs to its end at once: no access of another agent falls into it;
the order in which its dirty sectors go back is free (R55). DESIGN CHOICE, log entry 118. A write with GO = 0 writes MODE and PSIZE and
moves no line. DESIGN CHOICE, log entry 117. -/
def State.l2Write (s : State) (v : BitVec 32) : State :=
  let cfg := if v.getLsbD 30 then s.l2cfg &&& ~~~(1#32 <<< 30) else s.l2cfg
  let fail := { s with l2cfg := cfg ||| (1#32 <<< 30) }
  let set := (cfg &&& 0x40000000#32) ||| (v &&& 0xe#32)
  if !v.getLsbD 0 then { s with l2cfg := set }
  else if s.userResident || s.engineBusy then fail
  else if v.getLsbD 1 && v.toNat / 4 % 4 = 3 then fail
  else if !s.pinned.isEmpty then fail
  else if s.l2Dirty.all (fun sec => !s.sealBad (sec * 64)) then
    { s with l2cfg := set, l2Dirty := [], l2Valid := [], l2Home := [], shared := [], views := s.views.map (fun w => { w with clean := [] }) }
  else
    -- the sectors before the first that fails its egress check have gone back; that one is pinned and ends the change
    let (s1, order) := shuffle s.l2Dirty.length s s.l2Dirty
    let rest := order.dropWhile (fun sec => !s.sealBad (sec * 64))
    let f := { s1 with l2cfg := cfg ||| (1#32 <<< 30), l2Dirty := rest }
    match rest with
    | [] => f
    | sec :: _ => (f.pinSector 0 sec).sealNotice sec none

end Sys2Proof.Machine
end

