-- ==== Sys2Proof/Machine/Regs.lean ====
section
/-!
DEFINITION. Machine/Regs.lean: the system registers (20 R387), the MMIO registers of the dies (02 R34, R35; 03 R54; 23 R423;
28 R445), the tile table and the debug windows as place classes 0x9 and 0xA reach them (R34, R35, R64).
-/

namespace Sys2Proof.Machine

/-! ## Health and capability registers (R428, R430) -/

/-- A flag at a bit. -/
def flagAt (b : Bool) (n : Nat) : Nat := if b then 2 ^ n else 0

/-- FUNC_READY (R428). -/
def State.funcReady (s : State) : BitVec 64 :=
  let b := s.bring
  let all := b.host && b.fabric && b.stoland && b.svc == 0xff#8 && b.gondola == 0xff#8 && b.compute == 0xff#8
    && b.regions == s.dramTop / 2 ^ 40
  BitVec.ofNat 64 (flagAt all 63 + flagAt b.host 62 + flagAt b.fabric 61 + flagAt b.stoland 60
    + b.svc.toNat * 2 ^ 48 + b.gondola.toNat * 2 ^ 40 + b.compute.toNat * 2 ^ 32 + b.regions % 64)

/-- Does a die run a reduced mesh (R432)? -/
def Die.reducedMesh (D : Die) : Bool := (D.meshMap.take 32).any (fun e => !e.getLsbD 7)

/-- The capability registers (R430). -/
def State.capability (s : State) : Nat → Nat
  | 0 => 1 + 9 * 2 ^ 16
  | 1 => 8 + 32 * 2 ^ 8 + 128 * 2 ^ 16
  | 2 => s.dramTop
  | 3 => 48 + 16 * 2 ^ 8
  | 4 => 1000
  | 5 => ((List.range 8).map (fun d => flagAt (s.die d).reducedMesh d)).sum
  | _ => 0

/-! ## System registers (R387, R388) -/

/-- Removes the oldest entry of a core's post FIFO: its address with bit 0 set; its value is latched (R388). -/
def State.mpostPop (s : State) (core : Nat) : State × BitVec 64 :=
  let K := s.core core
  match K.mpost with
  | [] => (s, 0)
  | (a, v) :: rest => (s.setCore { K with mpost := rest, mpostval := v }, a ||| 1)

/-- Reads a system register of a core or its die; a number that names none reads 0. -/
def State.sysRead (s : State) (core n : Nat) : State × BitVec 64 :=
  let K := s.core core
  let D := s.die (dieOf core)
  if n < 0x10 then (s, BitVec.ofNat 64 (s.capability n))
  else if n = 0x10 then (s, s.fabricCaps.zeroExtend 64)
  else if n = 0x18 then (s, s.funcReady)
  else if n = 0x19 then (s, s.deviceHealth)
  else if 0x100 ≤ n ∧ n ≤ 0x121 then (s, (D.meshMap.getD (n - 0x100) 0).zeroExtend 64)
  else if 0x200 ≤ n ∧ n ≤ 0x2bf then (s, D.peerMap.getD (n - 0x200) 0)
  else if n = 0x300 then (s, D.feStat)
  else if n = 0x400 then (s, K.msignal.zeroExtend 64)
  else if n = 0x401 then s.mpostPop core
  else if n = 0x402 then (s, K.mpostval.zeroExtend 64)
  else if 0x500 ≤ n ∧ n ≤ 0x507 then (s, K.gbp.getD (n - 0x500) 0)
  else if 0x510 ≤ n ∧ n ≤ 0x513 then (s, K.wpBase.getD (n - 0x510) 0)
  else if 0x514 ≤ n ∧ n ≤ 0x517 then (s, K.wpMask.getD (n - 0x514) 0)
  else if 0x518 ≤ n ∧ n ≤ 0x51b then (s, (K.wpCtl.getD (n - 0x518) 0).zeroExtend 64)
  else if n = 0x600 then (s, s.stopTick)
  else (s, 0)

/-- A write of STOP_TICK: a value above the tick arms it, any other disarms it (R414). -/
def State.armStop (s : State) (v : BitVec 64) : State := { s with stopTick := if s.tick.toNat < v.toNat then v else 0 }

/-- Writes a system register; read-only registers and reserved fields ignore it. DEDUCED, log entry 33. -/
def State.sysWrite (s : State) (core n : Nat) (v : BitVec 64) : State :=
  let K := s.core core
  let d := dieOf core
  let D := s.die d
  if 0x200 ≤ n ∧ n ≤ 0x2bf then s.setDie d { D with peerMap := D.peerMap.set (n - 0x200) (v &&& 0x800ffc00000003ff#64) }
  else if n = 0x400 then s.setCore { K with msignal := K.msignal &&& ~~~(v.truncate 32) }
  else if 0x500 ≤ n ∧ n ≤ 0x507 then s.setCore { K with gbp := K.gbp.set (n - 0x500) (v &&& 0xc00003ffffffffff#64) }
  else if 0x510 ≤ n ∧ n ≤ 0x513 then s.setCore { K with wpBase := K.wpBase.set (n - 0x510) v }
  else if 0x514 ≤ n ∧ n ≤ 0x517 then s.setCore { K with wpMask := K.wpMask.set (n - 0x514) v }
  else if 0x518 ≤ n ∧ n ≤ 0x51b then s.setCore { K with wpCtl := K.wpCtl.set (n - 0x518) (v.truncate 32 &&& 0xffc003ff#32) }
  else if n = 0x600 then s.armStop v
  else s

/-! ## MMIO registers (R35, R54, R423, R445) -/

/-- The watchpoint register that an offset of a die's block names: the core and its system register number (R445). -/
def State.wpBlock (s : State) (d off : Nat) : Option (Nat × Nat) :=
  let k := (off - 0x9000) % 0x80 / 8
  if 0x9000 ≤ off ∧ off < 0xa000 ∧ k < 12 then (s.meshCore d ((off - 0x9000) / 0x80)).map (fun c => (c, 0x510 + k)) else none

/-- The 8-byte MMIO register at an aligned offset of a unit; an offset that holds none reads 0. -/
def State.mmioWord (s : State) (unit off : Nat) : BitVec 64 :=
  let D := s.die unit
  if unit = 8 then (if off = 0x100 then s.l2cfg.zeroExtend 64 else 0)
  else if 8 ≤ unit then 0
  else if off = 0x8000 then D.traceBase
  else if off = 0x8008 then D.traceSize
  else if off = 0x8010 then D.traceWr
  else if off = 0x8018 then D.traceRd
  else if off = 0x8020 then D.traceDrop
  else if off = 0x8028 then D.traceCtl
  else match s.wpBlock unit off with
    | some (c, n) => (s.sysRead c n).2
    | none => 0

/-- Is the value one that TRACE_SIZE takes? -/
def traceSizeOk (v : Nat) : Bool := v = 0 || (List.range 19).any (fun k => v == 2 ^ (12 + k))

/-- Writes the 8-byte MMIO register at an aligned offset. DESIGN CHOICE, log entry 34. -/
def State.mmioPut (s : State) (unit off : Nat) (v : BitVec 64) : State :=
  let D := s.die unit
  if unit = 8 then (if off = 0x100 then s.l2Write (v.truncate 32) else s)
  else if 8 ≤ unit then s
  else if off = 0x8000 then (if D.traceCtl = 0 then s.setDie unit { D with traceBase := v } else s)
  else if off = 0x8008 then (if D.traceCtl = 0 && traceSizeOk v.toNat then s.setDie unit { D with traceSize := v } else s)
  else if off = 0x8018 then s.setDie unit { D with traceRd := v }
  else if off = 0x8028 then s.setDie unit { D with traceCtl := v &&& 7 }
  else if off = 0x8100 then s.dbgCommand unit v
  else match s.wpBlock unit off with
    | some (c, n) => s.sysWrite c n v
    | none => s

/-- An MMIO read of 4 or 8 bytes. -/
def State.mmioLoad (s : State) (unit off n : Nat) : Nat :=
  (s.mmioWord unit (off / 8 * 8)).toNat / 2 ^ (8 * (off % 8)) % 2 ^ (8 * n)

/-- An MMIO write of 4 or 8 bytes: the other half of an 8-byte register keeps its value. L2_CFG has 4 bytes, beside which there is no
register (R54). -/
def State.mmioStore (s : State) (unit off n v : Nat) : State :=
  let base := off / 8 * 8
  let sh := 2 ^ (8 * (off % 8))
  if unit = 8 then (if off = 0x100 then s.l2Write (BitVec.ofNat 32 v) else s)
  else
    let old := (s.mmioWord unit base).toNat
    s.mmioPut unit base (BitVec.ofNat 64 (old - old / sh % 2 ^ (8 * n) * sh + v % 2 ^ (8 * n) * sh))

/-! ## The tile table (R63, R64) -/

/-- Reads 8 bytes of an entry. -/
def State.tileLoad (s : State) (core entry hi : Nat) : Nat := ((s.core core).tiles.getD entry 0).toNat / 2 ^ (64 * hi) % 2 ^ 64

/-- Writes 8 bytes of an entry; one in FILLING or DRAINING ignores it, and so does a value with reserved bits. -/
def State.tileStore (s : State) (core entry hi v : Nat) : State :=
  let K := s.core core
  let old := K.tiles.getD entry 0
  let new := if hi = 1 then v % 2 ^ 64 * 2 ^ 64 + old.toNat % 2 ^ 64 else old.toNat / 2 ^ 64 * 2 ^ 64 + v % 2 ^ 64
  if tileV old && (tileState old = 1 || tileState old = 3) then s
  else if hi = 0 && (v / 2 ^ 56 % 16 != 0 || v / 2 ^ 20 % 2 ^ 14 != 0 || v % 128 != 0) then s
  else s.setCore { K with tiles := K.tiles.set entry (BitVec.ofNat 128 new) }

/-! ## The debug windows (R34, R35, R105) -/

/-- A word of the accumulator store: row * 32 + column (R104). -/
def Core.accWord (K : Core) (i : Nat) : BitVec 32 := ((K.acc.find? (·.1 == i)).map (·.2)).getD 0

/-- Writes a word of the accumulator store; a word that is zero is not listed. -/
def Core.setAcc (K : Core) (i : Nat) (v : BitVec 32) : Core :=
  let rest := K.acc.filter (·.1 != i)
  { K with acc := if v = 0 then rest else (i, v) :: rest, eccRows := K.eccRows.filter (· != i / 32) }

/-- The thread that owns an entry of a lane of the register file, and which of its registers it is. -/
def State.regOwner (s : State) (core lane entry : Nat) : Option (ThreadRef × Nat) :=
  s.teams.findSome? (fun T =>
    if T.core == core && T.slice == lane / 64 && decide (T.span ≤ lane % 64) && decide (lane % 64 < T.span + T.width)
        && decide (T.block ≤ entry) && decide (entry < T.block + T.bsize)
    then some (⟨T.launch, T.wg, T.idx, lane % 64 - T.span⟩, entry - T.block) else none)

/-- The threads that own a location of a debug window stand at a clause boundary (R35). DEDUCED, log entry 38. -/
def State.windowReady (s : State) (core off : Nat) : Bool :=
  if off / 2 ^ 20 % 2 = 1 then
    match s.regOwner core (off / 8192 % 128) (off % 8192 / 4) with
    | some (r, _) => ((s.thread? r).map (fun q => !q.2.inside)).getD true
    | none => true
  else
    let row := off / 128
    s.teams.all (fun T => T.core != core || (let b := (s.wg T.launch T.wg).accblk
      !(decide (b.toNat % 4096 ≤ row) && decide (row < b.toNat / 2 ^ 16 % 8192)) || T.threads.all (fun th => !th.inside || th.status == .exited)))

/-- Reads a word of a debug window; an entry of the register file that no team owns has no stated contents. DESIGN CHOICE, log entry 35. -/
def State.windowWord (s : State) (core off : Nat) : BitVec 32 :=
  if off / 2 ^ 20 % 2 = 1 then
    match s.regOwner core (off / 8192 % 128) (off % 8192 / 4) with
    | some (r, k) => ((s.thread? r).map (fun q => q.2.v.getD k 0)).getD 0
    | none => (Config.freeWord (s.freeCount + off / 4)).truncate 32
  else (s.core core).accWord (off / 128 * 32 + off / 4 % 32)

/-- Writes a word of a debug window. -/
def State.windowPut (s : State) (core off : Nat) (v : BitVec 32) : State :=
  if off / 2 ^ 20 % 2 = 1 then
    match s.regOwner core (off / 8192 % 128) (off % 8192 / 4) with
    | some (r, k) => s.updThread r (fun th => { th with v := setAt th.v k v, ecc := th.ecc.filter (· != k) })
    | none => s
  else s.setCore ((s.core core).setAcc (off / 128 * 32 + off / 4 % 32) v)

/-- Reads n bytes of a debug window. -/
def State.windowLoad (s : State) (core off n : Nat) : Nat :=
  leNat ((List.range n).map (fun k =>
    let o := off + k
    BitVec.ofNat 8 ((s.windowWord core (o / 4 * 4)).toNat / 2 ^ (8 * (o % 4)))))

/-- Writes n bytes of a debug window. -/
def State.windowStore (s : State) (core off n v : Nat) : State :=
  (List.range n).foldl (fun a k =>
    let o := off + k
    let old := (a.windowWord core (o / 4 * 4)).toNat
    let sh := 2 ^ (8 * (o % 4))
    a.windowPut core (o / 4 * 4) (BitVec.ofNat 32 (old - old / sh % 256 * sh + v / 2 ^ (8 * k) % 256 * sh))) s

/-! ## One access to a place class 0x9 to 0xB (R34, R35, R64) -/

/-- The core that a physical address of class 0x8 to 0xA names. -/
def coreOfPa (pa : Nat) : Nat := pa / 2 ^ 45 % 8 * 36 + pa / 2 ^ 39 % 64

/-- Is the size and alignment of an access right for its class? -/
def placeAligned (pa n : Nat) : Bool :=
  match placeClass pa with
  | 0x9 => n = 8 && pa % 8 = 0
  | 0xb => (n = 4 || n = 8) && pa % n = 0
  | _ => pa % n = 0

/-- Reads n bytes at a place of class 0x9 to 0xB. -/
def State.placeLoad (s : State) (pa n : Nat) : Nat :=
  match placeClass pa with
  | 0x9 => s.tileLoad (coreOfPa pa) (pa / 16 % 128) (pa / 8 % 2)
  | 0xa => s.windowLoad (coreOfPa pa) (pa % 2 ^ 21) n
  | _ => s.mmioLoad (pa / 2 ^ 44 % 16) (pa % 2 ^ 24) n

/-- Writes n bytes at a place of class 0x9 to 0xB. -/
def State.placeStore (s : State) (pa n v : Nat) : State :=
  match placeClass pa with
  | 0x9 => s.tileStore (coreOfPa pa) (pa / 16 % 128) (pa / 8 % 2) v
  | 0xa => s.windowStore (coreOfPa pa) (pa % 2 ^ 21) n v
  | _ => s.mmioStore (pa / 2 ^ 44 % 16) (pa % 2 ^ 24) n v

end Sys2Proof.Machine
end

