-- ==== Sys2Proof/Machine/Access.lean ====
section
/-!
DEFINITION. Machine/Access.lean: performing one memory access of a thread, now or when it replays: the checks of 14 R252 in their
order, the place it reaches, its value, and the watchpoints it hits (23 R416 to R418); the replay buffer (02 R44 to R47).
-/

namespace Sys2Proof.Machine

/-! ## Kinds of access -/

/-- Does an access write (R41: an atomic counts as a write)? -/
def AccKind.writes : AccKind → Bool
  | .store | .sti _ _ | .atom _ _ _ _ | .cas _ _ _ | .atomf _ _ _ _ | .spill _ _ _ => true
  | .again w => w
  | _ => false

/-- Does an access read? -/
def AccKind.reads : AccKind → Bool
  | .store | .sti _ _ | .spill _ _ _ => false
  | .again w => !w
  | .fetch _ => false
  | _ => true

/-- Is an access an immediate operation or an atomic (R140)? -/
def AccKind.immediate : AccKind → Bool
  | .ldi _ _ | .sti _ _ | .atom _ _ _ _ | .cas _ _ _ | .atomf _ _ _ _ => true
  | _ => false

/-- Is an access an atomic (R259)? -/
def AccKind.atomic : AccKind → Bool
  | .atom _ _ _ _ | .cas _ _ _ | .atomf _ _ _ _ => true
  | _ => false

/-- What an atomic writes, from the old value (R259, R260). -/
def AccKind.newValue (k : AccKind) (old x y : Nat) : Nat :=
  match k with
  | .atom op ty _ _ =>
    let w := intBits ty
    match op with
    | .add => (old + x) % 2 ^ w
    | .and => old &&& x
    | .or => old ||| x
    | .xor => old ^^^ x
    | .swap => x
    | .min => if intVal ty old ≤ intVal ty x then old else x
    | .max => if intVal ty old ≤ intVal ty x then x else old
  | .cas _ _ _ => if old = x then y else old
  | .atomf op ty _ _ =>
    match op with
    | .add => (faddV ty .rne false (fval ty old) (fval ty x)).bits
    | .min => (fminmax ty false old x).bits
    | .max => (fminmax ty true old x).bits
  | _ => x

/-! ## Watchpoints (R416, R417) -/

/-- Does a run of bytes hit a watchpoint's address pattern? -/
def wpMatch (base mask : BitVec 64) (a n : Nat) : Bool :=
  (List.range n).any (fun k => BitVec.ofNat 64 (a + k) &&& mask == base &&& mask)

/-- The watchpoints of a core that an access hits: by virtual address in its address space, or by offset in the core's own
scratchpad. -/
def Core.wpHits (K : Core) (space : Bool) (asid a n : Nat) (rd wr : Bool) : List Nat :=
  (List.range 4).filter (fun i =>
    let ctl := K.wpCtl.getD i 0
    ctl.getLsbD 31 && ((rd && ctl.getLsbD 30) || (wr && ctl.getLsbD 29)) && ctl.getLsbD 22 == space
      && (!space || ctl.toNat % 1024 == asid) && wpMatch (K.wpBase.getD i 0) (K.wpMask.getD i 0) a n)

/-- The hits of an access of a core's thread or of another agent: the core of each watchpoint and its number. -/
def State.wpAll (s : State) (core : Option Nat) (asid va loc n : Nat) (rd wr : Bool) : List (Nat × Nat) :=
  (match core with
   | some c => ((s.core c).wpHits true asid va n rd wr).map (c, ·)
   | none => [])
  ++ (match scratchOf loc with
      | some (c, off) => ((s.core c).wpHits false 0 off n rd wr).map (c, ·)
      | none => [])

/-- Broadcasts the stops of the watchpoints that were hit with STOP set (R418, R419). -/
def State.wpStops (s : State) (hits : List (Nat × Nat)) : State :=
  hits.foldl (fun a h =>
    let ctl := ((a.core h.1).wpCtl.getD h.2 0)
    if ctl.getLsbD 28 then
      match a.logicalOf h.1 with
      | some c => a.broadcastStop (a.cluster c (ctl.toNat / 2 ^ 26 % 4) (min 5 (ctl.toNat / 2 ^ 23 % 8))) a.tick 0x184
      | none => a
    else a) s

/-- The deferred fault of a thread that hit watchpoints: the lowest of them and its core's s4 value (R418). -/
def State.wpTrap (s : State) (hits : List (Nat × Nat)) (va : BitVec 64) (pa : Nat) : Option Trap :=
  match hits with
  | [] => none
  | h :: rest =>
    let low := rest.foldl (fun b x => if x.2 < b.2 then x else b) h
    some { cause := 0x182, sub := low.2 + s.traceCore low.1 % 4096 * 16, addr := va, paddr := BitVec.ofNat 64 pa }

/-- The record of a deferred fault: it names the originating clause and slot (R394). -/
def State.deferred (s : State) (T : Team) (th : Thread) (clause : BitVec 64) (slot : Nat) (x : Trap) : Record :=
  { s.record T th clause slot false x with defd := true }

/-- Takes note of a deferred fault. -/
def Thread.deferFault (th : Thread) (r : Record) : Thread := { th with defer := th.defer ++ [r] }

/-- The slot at which the group stands. -/
def State.slotNow (s : State) : Nat := (s.cur.map (·.slot)).getD 0

/-- A performed access of a thread other than a load or a store of its own hits watchpoints: the stops, and the deferred fault (R417, R418). -/
def State.noteHit (s : State) (T : Team) (th : Thread) (va : BitVec 64) (pa loc n : Nat) (rd : Bool) : State :=
  let hits := s.wpAll (some T.core) (s.launch T.launch).asid va.toNat loc n rd (!rd)
  match s.wpTrap hits va pa with
  | none => s
  | some x => (s.wpStops hits).updEarlier (T.ref th) s.slotSince (fun t => t.deferFault (s.deferred T t th.clause s.slotNow x))

/-- The same, once the instruction that makes the access has ended. -/
def LaneOut.hit (o : LaneOut) (f : State → State) : LaneOut :=
  match o with
  | .done s => .done (f s)
  | .trap s x => .trap (f s) x
  | .wait s r => .wait s r

/-- An access of Gondola's hits watchpoints: they are logged, and the stops broadcast (R418). -/
def State.gondolaHit (s : State) (asid : Nat) (va : BitVec 64) (pa loc n : Nat) (rd : Bool) : State :=
  let hits := s.wpAll none asid va.toNat loc n rd (!rd)
  match s.wpTrap hits va pa with
  | none => s
  | some x => State.wpStops { s with wpLog := s.wpLog ++
      [{ cause := x.cause, sub := x.sub, nl := true, addr := x.addr, paddr := x.paddr, tick := s.tick, hit := s.tick, asid := asid }] } hits

/-! ## One access -/

/-- How an access ends: with a value and a fault that is taken later; with a fault; a miss that enters the replay buffer; or it
must wait. -/
inductive AccRes where
  | ok (s : State) (val : Nat) (late : Option Trap)
  | trap (s : State) (x : Trap)
  | miss (s : State) (cause : Nat)
  | wait (s : State) (reason : Nat)
  deriving DecidableEq, Repr

/-- Does the location lie in the partition of a workgroup (R409)? -/
def State.ownPartition (s : State) (l wg loc : Nat) : Bool :=
  match s.partition? l (s.wg l wg).home with
  | none => false
  | some p => match p.core with
    | none => false
    | some c => decide (scratchPa c p.base ≤ loc) && decide (loc < scratchPa c (p.base + p.size))

/-- The seal fault of a sector: the place that found it is its home slice (R18), for a scratchpad too the slice that its physical address gives; for
data over the fabric the port and the peer's endpoint, as port * 1024 + endpoint. DESIGN CHOICE, log entry 27. -/
def State.sealTrap (s : State) (core loc pa : Nat) (va : BitVec 64) : Trap :=
  let endpoint := loc / 2 ^ 52 - 1
  { cause := if isLocal loc then 0x090 else 0x091
    sub := if isLocal loc then s.sliceOf (dieOf core) (sectorOf loc) else Config.fabricPort endpoint % 16 * 1024 + endpoint
    addr := va &&& ~~~(63#64), paddr := BitVec.ofNat 64 pa }

/-- Performs an access at its place; late is a seal mismatch that a returning result brings (R394). DESIGN CHOICE, log entry 28. -/
def State.perform (s : State) (T : Team) (a : Access) (loc pa sh : Nat) : AccRes :=
  let h := s.holding loc pa sh
  let sealX := s.sealTrap T.core loc pa a.va
  -- the state after a read of the home
  let s2 := s.touchL2 (dieOf T.core) (sectorOf loc)
  -- the state in which a plain read finds its bytes, none for a seal mismatch of a sector that it reads
  let read :=
    if s.slotDamaged T.core T.launch T.wg loc then none
    else if (List.range a.n).all (fun k => s.holds T.core T.launch T.wg h (loc + k)) then some s
    else if h = .cached then s.fill T.core T.launch loc
    else if s.sealBadRange loc a.n then none else some s2
  match a.kind with
  | .opmap m =>
    match read with
    | none => .trap s sealX
    | some s1 =>
      let d : BitVec 512 := BitVec.ofNat 512 (leNat (s1.viewBytes T.core T.launch T.wg h loc a.n))
      if mapBad d then .trap s1 { cause := 0x04c, sub := 0x01 }
      else .ok (s1.updTeam T.launch T.wg T.idx (fun T => { T with maps := setAt T.maps m d })) 0 none
  | .load sext =>
    match read with
    | none => .ok s 0 (some sealX)
    | some s1 =>
      let val := leNat (s1.viewBytes T.core T.launch T.wg h loc a.n)
      .ok s1 (if sext then unsigned 32 (signed (8 * a.n) val) else val) none
  | .store =>
    match s.viewStore T.core T.launch h loc (leBytes a.n a.x) a.whole with
    | some s1 => .ok s1 0 none
    | none => .trap s sealX
  | .ldi _ _ => if s.sealBadRange loc a.n then .ok s 0 (some sealX) else .ok s2 (s.homeNat loc a.n) none
  | .sti _ _ =>
    match s.writeHome loc (leBytes a.n a.x) (dieOf T.core) with
    | some s1 => .ok s1 0 none
    | none => .trap s sealX
  | .atom _ _ _ _ | .cas _ _ _ | .atomf _ _ _ _ =>
    let old := s.homeNat loc a.n
    if s.sealBadRange loc a.n then .ok s 0 (some sealX)
    else
      match s.writeHome loc (leBytes a.n (a.kind.newValue old a.x a.y)) (dieOf T.core) with
      | some s1 => .ok s1 old none
      | none => .trap s sealX
  | .spill l sec _ =>
    -- the sector's dirty bytes go to their places in the slot; where its mask lies is not stated
    let bytes := (s.view T.core l).dirty.filter (fun c => sectorOf c.1 == sec)
    .ok (bytes.foldl (fun b c => b.putMarked (dieOf T.core) (sectorOf loc * 64 + c.1 % 64) [c.2]) (s.freshSeal (sectorOf loc))) 0 none
  | .again _ | .fetch _ => .ok s 0 none

/-! ## The replay buffer's entries (R44) -/

/-- Puts an access into the replay buffer of a core: lanes of one instruction that miss on one page share an entry. -/
def State.addReplay (s : State) (q : Request) (x : ThreadRef × Access) : State :=
  let mine := fun (p : Request) => p.core == q.core && p.tick == q.tick && p.asid == q.asid && p.page == q.page && p.cause == q.cause
    && !p.released && (match p.who with | .threads _ => true | _ => false)
  if s.requests.any mine then
    { s with requests := s.requests.map (fun p => if mine p then
        (match p.who with | .threads l => { p with who := .threads (l ++ [x]) } | _ => p) else p) }
  else { s with requests := s.requests ++ [{ q with who := .threads [x] }] }

/-- The entry that an access of a thread needs. -/
def State.replayFor (s : State) (T : Team) (a : Access) (cause : Nat) : Request where
  core := T.core
  tick := a.since
  asid := match a.kind with
    | .spill l _ _ => (s.launch l).asid
    | _ => (s.launch T.launch).asid
  page := a.va &&& ~~~(0xfff#64)
  cause := cause
  who := .threads []

/-- Are the 128 entries of a core's replay buffer in use? -/
def State.replayFull (s : State) (core : Nat) : Bool :=
  decide (128 ≤ (s.requests.filter (fun q => q.core == core && !q.released && (match q.who with | .threads _ => true | _ => false))).length)

/-- Is there an entry, or room for one, for an access that misses? -/
def State.replayRoom (s : State) (T : Team) (a : Access) (cause : Nat) : Bool :=
  let q := s.replayFor T a cause
  !s.replayFull T.core || s.requests.any (fun p => p.core == q.core && p.tick == q.tick && p.asid == q.asid && p.page == q.page
    && p.cause == q.cause && !p.released && (match p.who with | .threads _ => true | _ => false))

/-- An access of a thread enters its core's replay buffer. -/
def State.enterReplay (s : State) (T : Team) (r : ThreadRef) (a : Access) (cause : Nat) : State :=
  s.addReplay (s.replayFor T a cause) (r, a)

/-! ## Room in L1 (R2, R52, R57) -/

/-- Has replacement moved a dirty sector of a view out of L1? -/
def View.away (v : View) (sec : Nat) : Bool := v.held.contains sec || v.spilled.any (·.1 == sec)

/-- The lines that a view has in L1. -/
def View.lines (v : View) : List Nat :=
  (((v.dirty.filter (fun c => !v.away (sectorOf c.1))) ++ v.clean).map (·.1 / 128)).dedup

/-- The ways that held sectors of other lines fill in the L2 set of a line: one for each core, launch and line (R57). -/
def State.heldWays (s : State) (core l line : Nat) : Nat :=
  let held := (s.views.flatMap (fun v => ((v.held.filter (fun sec => v.dirty.any (fun c => sectorOf c.1 == sec))).map
    (fun sec => (v.core, v.launch, sec / 2))).dedup)).filter (fun x => !(x == (core, l, line)))
  if held.length < 4 then held.length
  else (held.filter (fun x => s.homeSlice (dieOf x.1) (x.2.2 * 128) == s.homeSlice (dieOf core) (line * 128)
    && Config.l2Set x.2.2 % 2048 == Config.l2Set line % 2048)).length

/-- Has Gondola rejected the page of a slot of the area (R138)? -/
def State.slotBad (s : State) (l slot : Nat) : Bool :=
  let L := s.launch l
  L.areaBad.contains ((L.recd.ovfbase + BitVec.ofNat 64 (slot * 64)) &&& ~~~(0xfff#64))

/-- The slots of a launch's phase overflow area that hold sectors (R57, R138). -/
def State.slotsUsed (s : State) (l : Nat) : List Nat :=
  (s.views.filter (·.launch == l)).flatMap (fun v => v.spilled.map (·.2))
    ++ (s.carries.filter (·.launch == l)).flatMap (fun c => c.slots.filterMap (·.2))

/-- A free slot of 64 bytes of a launch's phase overflow area, none where it is full; which one is free. DESIGN CHOICE, log entry 116. -/
def State.areaSlot (s : State) (l : Nat) : State × Option Nat :=
  let n := (s.launch l).recd.ovflen * 64
  let used := s.slotsUsed l
  if n ≤ used.length then (s, none)
  else
    let (k, s1) := s.pick n
    (s1, ((List.range (min n (used.length + 64 * (s.launch l).areaBad.length + 1))).map (fun i => (k + i) % n)).find? (fun i =>
      !used.contains i && !s.slotBad l i))

/-- The virtual address of a slot. -/
def State.slotVa (s : State) (l slot : Nat) : BitVec 64 := (s.launch l).recd.ovfbase + BitVec.ofNat 64 (slot * 64)

/-- How making room ends. -/
inductive MoveOut where
  | ok (s : State)
  | trap (s : State) (x : Trap)
  | wait (s : State)
  deriving DecidableEq, Repr

/-- The core, the launch and the workgroup as which a sector of a view reaches its overflow area. -/
def State.spillAgent (s : State) (T : Team) (l : Nat) : Agent := { s.agent T with launch := l, asid := (s.launch l).asid }

/-- A dirty sector leaves L1: to its home slice as a held sector, past 4 ways of the set to the launch's phase overflow area, where a
translation fault is a replay entry of the thread whose access forced the move (R57). A full area is exhausted. DESIGN CHOICE, log
entry 116. -/
def State.moveSector (s : State) (T : Team) (r : ThreadRef) (a : Access) (l sec : Nat) : MoveOut :=
  let v := s.view T.core l
  if s.heldWays T.core l (sec / 2) < 4 then .ok (s.setView { v with held := sec :: v.held })
  else match s.areaSlot l with
    | (s1, none) => .trap s1 { cause := 0x080, sub := 0x01, addr := s.slotVa l 0 }
    | (s1, some slot) =>
      let b : Access := { kind := .spill l sec slot, va := s1.slotVa l slot, n := 64, clause := a.clause, slot := a.slot, since := a.since }
      let note := fun (s : State) => let v := s.view T.core l; s.setView { v with spilled := (sec, slot) :: v.spilled }
      match s1.translate (s1.spillAgent T l) b.va .wr with
      | (s2, .trap x) => .trap s2 x
      | (s2, .wait) => .wait s2
      | (s2, .miss c) => if s2.replayRoom T b c then .ok ((note s2).enterReplay T r b c) else .wait s2
      | (s2, .ok loc pa sh) =>
        match s2.reachAs loc sh with
        | .failed n => .trap s2 { cause := 0x1e2, sub := n, addr := b.va, paddr := BitVec.ofNat 64 pa }
        | .wait => .wait s2
        | .yes =>
          match s2.perform T b loc pa sh with
          | .ok s3 _ _ => .ok (note s3)
          | _ => .wait s2

/-- A line of a view leaves L1: its clean bytes go, its dirty sectors move. -/
def State.evictLine (s : State) (T : Team) (r : ThreadRef) (a : Access) (l line : Nat) : MoveOut :=
  let v := s.view T.core l
  let s1 := s.setView { v with clean := ByteMap.delAll v.clean (line * 128) 128 }
  [2 * line, 2 * line + 1].foldl (fun (o : MoveOut) sec => match o with
    | .ok b =>
      let w := b.view T.core l
      if w.dirty.any (fun c => sectorOf c.1 == sec) && !w.away sec then b.moveSector T r a l sec else .ok b
    | o => o) (.ok s1)

/-- Room for a line in the L1 of a thread's core: 16 ways of a set, in which each view has lines of its own (R2, R56, R125). Which set a
line belongs to, and what is replaced, is free. DESIGN CHOICE, log entry 115. -/
def State.l1Room (s : State) (T : Team) (r : ThreadRef) (a : Access) (loc : Nat) : MoveOut :=
  if (s.view T.core T.launch).lines.contains (loc / 128) then .ok s
  else
    let all_ := (s.views.filter (·.core == T.core)).flatMap (fun v => v.lines.map (v.launch, ·))
    if all_.length < 16 then .ok s
    else
      let set := all_.filter (fun x => Config.l1Set x.2 % 1024 == Config.l1Set (loc / 128) % 1024)
      if set.length < 16 then .ok s
      else
        let (k, s1) := s.pick set.length
        match set[k]? with
        | some x => s1.evictLine T r a x.1 x.2
        | none => .ok s1

/-- Does an access bring its line into L1: a store, or a load of bytes that the view has not got? -/
def State.allocates (s : State) (T : Team) (a : Access) (loc pa sh : Nat) : Bool :=
  s.holding loc pa sh = .cached && (match a.kind with
    | .store => true
    | .load _ | .opmap _ => !(List.range a.n).all (fun k => s.holds T.core T.launch T.wg .cached (loc + k))
        && (ByteMap.get? (s.view T.core T.launch).clean loc).isNone
    | _ => false)

/-- What a performed access comes to, with the watchpoints that it hits (R417, R418). A sector that replacement moves is no access of a thread. -/
def State.hitAccess (s : State) (T : Team) (a : Access) (loc pa : Nat) (s2 : State) (v : Nat) (late : Option Trap) : AccRes :=
  let hits := match a.kind with
    | .spill _ _ _ => []
    | _ => s2.wpAll (some T.core) (s.launch T.launch).asid a.va.toNat loc a.n a.kind.reads a.kind.writes
  .ok (s2.wpStops hits) v (late.or (s2.wpTrap hits a.va pa))

/-- The checks of an access after its translation (R252, steps 5 to 8), then the access. -/
def State.accessAt (s : State) (T : Team) (r : ThreadRef) (a : Access) (loc pa sh : Nat) : AccRes :=
  let c := classAt loc pa
  let L := s.launch T.launch
  let at_ : Trap := { cause := 0x084, addr := a.va, paddr := BitVec.ofNat 64 pa }
  if (if 9 ≤ c ∧ c ≤ 0xb then !placeAligned loc a.n else a.va.toNat % a.n != 0) then .trap s at_
  else if L.recd.det && a.kind.immediate && c = 8 && !s.ownPartition T.launch T.wg loc then .trap s { at_ with cause := 0x160, sub := 0x02 }
  else if a.kind.atomic && ((9 ≤ c && c ≤ 0xb) || (0xc ≤ placeClass pa && (match a.kind with | .atomf _ _ _ _ => true | _ => false))) then
    .trap s { at_ with cause := 0x088 }
  else if 9 ≤ c ∧ c ≤ 0xb then
    if c = 0xa && !s.windowReady (coreOfPa loc) (loc % 2 ^ 21) then .wait s 4
    else if a.kind.writes then s.hitAccess T a loc pa (s.placeStore loc a.n a.x) 0 none
    else s.hitAccess T a loc pa s (s.placeLoad loc a.n) none
  else match s.reachAs loc sh with
    | .failed n => .trap s { at_ with cause := 0x1e2, sub := n }
    | .wait => .wait s 4
    | .yes =>
      let own := (match a.kind with | .load _ | .opmap _ => s.ownBytes T.core T.launch loc a.n | _ => false)
      if s.engineHolds loc a.n a.kind.writes && !own then .wait s 4
      else if a.kind.writes && (s.sourceHolds T.core T.launch T.wg a.va loc a.n || s.matrixHolds T.core T.launch a.va loc a.n) then .wait s 4
      else match (if s.allocates T a loc pa sh then s.l1Room T r a loc else .ok s) with
        | .trap s0 x => .trap s0 x
        | .wait s0 => .wait s0 4
        | .ok s0 =>
          match s0.perform T a loc pa sh with
          | .ok s1 v late => s.hitAccess T a loc pa (if s1.holding loc pa sh = .cached then s1.noteShared loc else s1) v late
          | o => o

/-- One access of a thread: translation, checks, performance (R252, R41). -/
def State.access (s : State) (T : Team) (r : ThreadRef) (a : Access) : AccRes :=
  let agent := match a.kind with
    | .spill l _ _ => s.spillAgent T l
    | _ => s.agent T
  match s.translate agent a.va (if a.kind.writes then .wr else .rd) with
  | (s1, .trap x) => .trap s1 x
  | (s1, .miss c) => .miss s1 c
  | (s1, .wait) => .wait s1 4
  | (s1, .ok loc pa sh) => s1.accessAt T r a loc pa sh

/-! ## Waiting on the replay buffer (R44 to R46) -/

/-- Has a thread an access that is not performed: in a replay buffer, or one that nothing has ordered yet (R453)? -/
def State.replays (s : State) (r : ThreadRef) : Bool :=
  s.requests.any (fun q => match q.who with
    | .threads accs => accs.any (fun a => a.1 == r)
    | _ => false)

/-- Has a thread an access that missed and is not performed (R45)? -/
def State.missing (s : State) (r : ThreadRef) : Bool :=
  s.requests.any (fun q => !q.late && (match q.who with
    | .threads accs => accs.any (fun a => a.1 == r)
    | _ => false))

/-- Has an opmap of a team not yet returned for a map (R279)? -/
def State.opmapPending (s : State) (T : Team) (m : Nat) : Bool :=
  s.requests.any (fun q => match q.who with
    | .threads accs => accs.any (fun a => T.is a.1.launch a.1.wg a.1.team && (match a.2.kind with | .opmap k => k == m | _ => false))
    | _ => false)

/-- Is a thread of a bound team in the replay buffer, which holds back the whole team's next memory clause (R239)? -/
def State.boundReplays (s : State) (T : Team) : Bool := T.bound && T.live.any (fun th => s.replays (T.ref th))

/-- Must a thread's next memory instruction wait: an access of the thread is in the buffer, or the buffer is full (R45, R239)? -/
def State.memWaits (s : State) (T : Team) (th : Thread) : Bool := s.replays (T.ref th) || s.replayFull T.core || s.boundReplays T

/-- A lane of a memory instruction: it waits while an access of its thread is in the buffer, and where the buffer was full when the
instruction began (R45); one that is more than an access waits for the accesses that nothing has ordered yet too. -/
def State.memLane (s0 : State) (f : State → Team → Thread → LaneOut) (s : State) (T : Team) (th : Thread) (access : Bool := false) : LaneOut :=
  if s0.replayFull T.core || s0.boundReplays T || (if access then s.missing (T.ref th) else s.replays (T.ref th)) then .wait s 4 else f s T th

/-- The same for an instruction whose lanes act each on its own thread. -/
def State.memOwn (s : State) (f : Team → Thread → Lane) (T : Team) (th : Thread) : Lane :=
  if s.memWaits T th then .wait th 4 else f T th

/-- The destination that a record of an access or a result has kept waiting. -/
def Record.forDst (r : Record) (d : Dst) (bits : Nat) : Record := { r with dst := some (d, bits) }

/-- Does an access return a value to a register (R254)? -/
def AccKind.returns : AccKind → Bool
  | .load _ | .ldi _ _ | .atom _ _ _ _ | .cas _ _ _ | .atomf _ _ _ _ => true
  | _ => false

/-- The result of an access that a thread awaits: its last-result shift has taken place (R99). A seal mismatch or a watchpoint's
fault comes back with it; that of an access without a result is noted at once (R394, R418). -/
def State.giveResult (s : State) (T : Team) (r : ThreadRef) (a : Access) (val : Nat) (late : Option Trap) : State :=
  s.updEarlier r a.since (fun th =>
    let rec_ := late.map (s.deferred T th a.clause a.slot)
    if a.kind.returns then
      { th with outst := th.outst ++ [{ tag := a.tag, dst := a.dst, bits := a.bits, val := val, prod := .mem, fault := rec_
                                        clause := a.clause, slot := a.slot, since := a.since }] }
    else match rec_ with
      | some q => th.deferFault q
      | none => th)

/-! ## Accesses that nothing orders (R135, R137, R140, R453)

A thread's accesses to different locations, plain ones and relaxed immediate ones, may be performed in any order; State.unordered says of the
accesses that come next which are performed after their turn. DESIGN CHOICE, log entry 28. -/

/-- Are two accesses of a thread performed in program order: do they meet, or lie in one scratchpad (R135, R137, R140)? -/
def inOrder (l n l' n' : Nat) : Bool :=
  (decide (l < l' + n') && decide (l' < l + n))
    || (match scratchOf l, scratchOf l' with
        | some x, some y => x.1 == y.1
        | _, _ => false)

/-- May an access be performed after its turn? The launch is not a deterministic one and the team not bound. -/
def State.mayBeLate (s : State) (T : Team) (a : Access) : Bool :=
  !(s.launch T.launch).recd.det && !T.bound && (match a.kind with
    | .load _ | .store => true
    | .ldi _ o | .sti _ o | .atom _ _ _ o | .cas _ _ o | .atomf _ _ _ o => o == .relaxed
    | _ => false)

/-- Has a team an access of an instruction, named by its tick, that is to be performed later? -/
def State.lateOf (s : State) (T : Team) (since : BitVec 64) : Bool :=
  s.requests.any (fun q => q.late && (match q.who with
    | .threads accs => accs.any (fun x => T.is x.1.launch x.1.wg x.1.team && x.2.since == since)
    | _ => false))

/-- Must an access wait until earlier ones of its thread are performed? -/
def State.mustFollow (s : State) (T : Team) (r : ThreadRef) (a : Access) : Bool :=
  s.requests.any (fun q => q.late && (match q.who with
    | .threads accs => accs.any (fun x => x.1 == r && (!s.mayBeLate T a
        || (match (s.translate (s.agent T) a.va (if a.kind.writes then .wr else .rd)).2 with
            | .ok loc _ _ => inOrder x.2.loc x.2.n loc a.n
            | _ => true)))
    | _ => false))

/-- An access of a lane that is performed later; those of one instruction's lanes stay in their order (R253). -/
def State.putLate (s : State) (T : Team) (r : ThreadRef) (a : Access) : State :=
  let loc := match (s.translate (s.agent T) a.va (if a.kind.writes then .wr else .rd)).2 with
    | .ok loc _ _ => loc
    | _ => 0
  let x : ThreadRef × Access := (r, { a with loc := loc })
  let mine := fun (q : Request) => q.late && (match q.who with
    | .threads accs => accs.any (fun y => T.is y.1.launch y.1.wg y.1.team && y.2.since == a.since)
    | _ => false)
  if s.requests.any mine then
    { s with requests := s.requests.map (fun q => if mine q then
        (match q.who with | .threads l => { q with who := .threads (l ++ [x]) } | _ => q) else q) }
  else { s with requests := s.requests ++ [{ s.replayFor T a 0 with who := .threads [x], released := true, late := true }] }

/-- A lane issues an access: it is performed, now or later, or enters the replay buffer, and the lane goes on; or it faults or waits. -/
def State.issueAccess (s : State) (T : Team) (th : Thread) (a : Access) : LaneOut :=
  let r := T.ref th
  let slot := s.slotNow
  let a := { a with tag := th.nextTag, clause := th.clause, slot := slot, since := s.slotSince }
  let shift := fun (s : State) => if a.kind.returns then
      s.updThread r (·.issued a.dst) else s
  if s.missing r || s.mustFollow T r a then .wait s 4
  else match s.access T r a with
    | .ok s1 v late =>
      if s.mayBeLate T a then
        let s2 := { s1 with unordered := s.unordered.tail }
        if s.unordered.headD false || s.lateOf T a.since then .done ((shift { s with unordered := s.unordered.tail }).putLate T r a)
        else .done ((shift s2).giveResult T r a v late)
      else .done ((shift s1).giveResult T r a v late)
    | .trap s1 x => .trap s1 x
    | .wait s1 n => .wait s1 n
    | .miss s1 c => if s1.replayRoom T a c then .done ((shift s1).enterReplay T r a c) else .wait s1 4

/-- An access of an instruction that cannot go on without it: a miss holds the lane at its slot. DEDUCED, log entry 104. -/
def State.mustReach (s : State) (T : Team) (th : Thread) (va : BitVec 64) (write : Bool) (cause : Nat) : LaneOut :=
  .wait (s.enterReplay T (T.ref th) { kind := .again write, va := va, n := 1, clause := th.clause, slot := s.slotNow, since := s.slotSince } cause) 4

end Sys2Proof.Machine
end

