-- ==== Sys2Proof/Machine/Engine.lean ====
section
/-!
DEFINITION. Machine/Engine.lean: what threads do with the engines: command chains, appending and posting (04 R70 to R77), the
snapshot of a source (R79), sequence numbers and waits on them (R71, R82).
-/

namespace Sys2Proof.Machine

/-! ## Reaching a home on behalf of a thread -/

/-- Goes on with the location of an immediate access that an instruction makes for a thread: the translation faults, the
replays and the waits come first (R41, R44, R371). A write of whole sectors checks no seal (R16). rd: it meets the watchpoints of reads, else
those of writes (R417). -/
def State.toHome (s : State) (T : Team) (th : Thread) (va : BitVec 64) (n : Nat) (write : Bool) (k : State → Nat → LaneOut)
    (noUser : Bool := false) (whole : Bool := false) (rd : Bool := !write) : LaneOut :=
  if s.memWaits T th then .wait s 4
  else match s.translate (s.agent T) va (if write then .wr else .rd) noUser with
    | (s1, .trap x) => .trap s1 x
    | (s1, .miss c) => s1.mustReach T th va write c
    | (s1, .wait) => .wait s1 4
    | (s1, .ok loc pa sh) =>
      match s1.reachAs loc sh with
      | .failed m => .trap s1 { cause := 0x1e2, sub := m, addr := va, paddr := BitVec.ofNat 64 pa }
      | .wait => .wait s1 4
      | .yes =>
        if s1.engineHolds loc n write then .wait s1 4
        else if !whole && s1.sealBadRange loc n then .trap s1 (s1.sealTrap T.core loc pa va)
        else (k (s1.touchL2 (dieOf T.core) (sectorOf loc)) loc).hit (fun s => s.noteHit T th va pa loc n rd)

/-! ## Chain descriptors and entries (R70, R72, R73) -/

/-- The virtual address of the descriptor of a queue (R70). -/
def State.descVa (s : State) (l wg : Nat) (sel : QSel) : BitVec 64 :=
  (s.launch l).recd.qdescBase + BitVec.ofNat 64 ((wg * 8 + (if sel.eng = 1 then 4 else 0) + sel.q) * 64)

/-- Does a descriptor fail its checks (R72)? -/
def descBad (d : Nat) : Bool :=
  bitsAt d 511 288 != 0 || bitsAt d 271 265 != 0 || bitsAt d 95 69 != 0 || decide (bitsAt d 68 64 < 6) || decide (16 < bitsAt d 68 64)
    || d % 4096 != 0

/-- A queue of a workgroup. -/
def Wg.queue? (W : Wg) (sel : QSel) : Option EQueue := W.queues.find? (fun q => q.sel == sel)

/-- Writes a queue of a workgroup back. -/
def Wg.setQueue (W : Wg) (q : EQueue) : Wg := { W with queues := W.queues.map (fun x => if x.sel == q.sel then q else x) }

/-- The sequence number of an engine's queue (R71). -/
def seqOf (sel : QSel) (count : Nat) : BitVec 64 := BitVec.ofNat 64 (sel.eng % 4 * 2 ^ 62 + sel.q % 4 * 2 ^ 60 + count % 2 ^ 60)

/-- Newer (R76). -/
def newer (a b : BitVec 32) : Bool := decide (1 ≤ (a - b).toNat) && decide ((a - b).toNat < 0x80000000)

/-- MergeTail (R76). -/
def mergeTail (tail v : BitVec 32) : BitVec 32 := if newer v tail then v else tail

/-- The bytes that a view adds to the homes of a source: its own, its uncached stores and its carried ones (R79). DESIGN CHOICE, log entry 29. -/
def State.ownMap (s : State) (core l wg : Nat) : ByteMap :=
  let v := s.view core l
  let c := s.carried l wg
  let put := fun (m : ByteMap) (x : ByteMap) => x.foldl (fun m b => ByteMap.put m b.1 b.2) m
  put (put (put (put [] c.bytes) c.uncached) v.uncached) v.dirty

/-- The checks of a command on a queue: the queue is one of the workgroup's, and its descriptor is right (R70, R72). It goes on
with the descriptor's location and bits. -/
def State.withQueue (s : State) (T : Team) (th : Thread) (sel : QSel) (k : State → EQueue → Nat → Nat → LaneOut)
    (write : Bool := true) : LaneOut :=
  match (s.wg T.launch T.wg).queue? sel with
  | none => .trap s { cause := 0x04a, sub := 0x01 }
  | some q =>
    if q.bad then .trap s { cause := 0x04a, sub := 0x02 }
    else s.toHome T th (s.descVa T.launch T.wg sel) 64 write (fun s loc =>
      let d := s.homeNat loc 64
      if descBad d then .trap s { cause := 0x04a, sub := 0x02 } else k s q loc d) false false true

/-- Is a sector of a location owned while an engine writes it: not that of an uncached fabric destination (R80)? -/
def State.ownable (s : State) (loc sh : Nat) : Bool := isLocal loc || (sh == 2 && s.fabricCaps.getLsbD 31)

/-- The locations of a virtual range, page by page, as far as they translate: start, length and whether an engine may own them. -/
def State.pagesOf (s : State) (a : Agent) (va len : Nat) (dir : Dir) : List (Nat × Nat × Bool) :=
  if len = 0 then []
  else (List.range ((va + len - 1) / 4096 + 1 - va / 4096)).filterMap (fun k =>
    let lo := max va ((va / 4096 + k) * 4096)
    match (s.translate a (BitVec.ofNat 64 lo) dir).2 with
    | .ok loc _ sh => some (loc, min (va + len) ((va / 4096 + k + 1) * 4096) - lo, s.ownable loc sh)
    | _ => none)

/-- The locations of a source. -/
def State.rangesOf (s : State) (a : Agent) (va len : Nat) : List (Nat × Nat) :=
  (s.pagesOf a va len .rd).map (fun x => (x.1, x.2.1))

/-- Does a location lie in one of some ranges? -/
def inRanges (locs : List (Nat × Nat)) (a : Nat) : Bool := locs.any (fun x => decide (x.1 ≤ a) && decide (a < x.1 + x.2))

/-- The source of an entry as the appending view sees it at the append (R79): its own bytes; of the others its clean copies, which it may also have
dropped, and the homes. DESIGN CHOICE, log entry 29. -/
def State.snapshot (s : State) (T : Team) (sel : QSel) (pos : Nat) (va : BitVec 64) (len : Nat) : State × Snapshot :=
  let locs := s.rangesOf (s.agent T) va.toNat len
  let home := (s.mem ++ s.remote).filter (fun c => inRanges locs c.1)
  let copies := (s.view T.core T.launch).clean.filter (fun c => inRanges locs c.1)
  let (k, s1) := if copies.all (fun c => s.homeByte c.1 == c.2) then (0, s) else s.pick 2
  (s1, { launch := T.launch, wg := T.wg, sel := sel, pos := pos, bytes := s.ownMap T.core T.launch T.wg
         seen := if k = 0 then ByteMap.over [] home else ByteMap.over (ByteMap.over [] home) copies
         locs := locs, va := va, len := len, core := some T.core })

/-- A byte of a snapshot's source, none where the snapshot has not seen it. -/
def Snapshot.byte (q : Snapshot) (a : Nat) : Option Byte :=
  (ByteMap.get? q.bytes a).or (if inRanges q.locs a then some ((ByteMap.get? q.seen a).getD (if a < 2 ^ 52 then Memory.unlisted else Config.remoteByte a)) else none)
/-- Appends one entry to a queue for a thread (R75); it goes on with the position and the sequence number. -/
def State.append (s : State) (T : Team) (th : Thread) (sel : QSel) (e : Nat) (k : State → BitVec 32 → BitVec 64 → LaneOut) : LaneOut :=
  s.withQueue T th sel (fun s q loc d =>
    let r := T.ref th
    let p : BitVec 32 := th.claim.getD (BitVec.ofNat 32 (bitsAt d 127 96))
    let s1 := match th.claim with
      | some _ => s
      | none => ((s.putMarked (dieOf T.core) (loc + 12) (leBytes 4 (p.toNat + 1))).noteHit T th (s.descVa T.launch T.wg sel + 12)
          (loc % 2 ^ 52 + 12) (loc + 12) 4 false).updThread r (fun t => { t with claim := some p })
    let ring := 2 ^ bitsAt d 68 64
    if ring ≤ (p - BitVec.ofNat 32 q.count).toNat then .wait s1 11
    else
      s1.toHome T th (BitVec.ofNat 64 (bitsAt d 63 0 + 64 * (p.toNat % ring))) 64 true (fun s2 slot =>
        let s3 := (s2.writeHome slot (leBytes 64 (e % 2 ^ 480 + p.toNat * 2 ^ 480)) (dieOf T.core)).getD s2
        let (s4, snap) := s3.snapshot T sel (q.count + (p - BitVec.ofNat 32 q.count).toNat) (BitVec.ofNat 64 (bitsAt e 63 0)) (bitsAt e 159 128)
        let seq := seqOf sel (q.count + (p - BitVec.ofNat 32 q.count).toNat + 1)
        k ({ s4 with snaps := s4.snaps ++ [snap] }.updThread r (fun t => { t with claim := none })) p seq) false true)

/-- Posts a position on a queue of a workgroup (R76). -/
def State.post (s : State) (l wg : Nat) (sel : QSel) (v : BitVec 32) : State :=
  let W := s.wg l wg
  match W.queue? sel with
  | none => s
  | some q => s.setWg (W.setQueue { q with qtail := mergeTail q.qtail v })

/-! ## Sequence numbers (R71, R82) -/

/-- The engine and the queue that a sequence number names. -/
def seqSel (x : BitVec 64) : QSel := ⟨x.toNat / 2 ^ 62, x.toNat / 2 ^ 60 % 4⟩

/-- COUNT of a sequence number. -/
def seqCount (x : BitVec 64) : Nat := x.toNat % 2 ^ 60

/-- The COUNT of the sequence register that a workgroup reads for a queue. -/
def State.countOf (s : State) (l wg : Nat) (sel : QSel) : Option Nat :=
  let W := s.wg l wg
  if sel.eng = 2 then (if sel.q = 0 then some (s.core W.core).recon else none)
  else (W.queue? sel).map (·.count)

/-- Does a recorded error meet a wait on a number (R82)? -/
def errMeets (errSeq : Nat) (seq : BitVec 64) : Bool := errSeq != 0 && decide (errSeq % 2 ^ 60 ≤ seqCount seq)

/-- WaitSeq for a thread (R82). -/
def State.waitSeq (s : State) (T : Team) (th : Thread) (seq : BitVec 64) (k : State → LaneOut) : LaneOut :=
  let sel := seqSel seq
  match s.countOf T.launch T.wg sel with
  | none => .trap s { cause := 0x04a, sub := 0x01 }
  | some c =>
    if c < seqCount seq then .wait s 11
    else if sel.eng = 2 then
      match (s.core (s.wg T.launch T.wg).core).reconErr with
      | some (n, cause, sub) => if n ≤ seqCount seq then .trap s { cause := cause, sub := sub } else k s
      | none => k s
    else
      s.toHome T th (s.descVa T.launch T.wg sel) 64 false (fun s loc =>
        let d := s.homeNat loc 64
        if errMeets (bitsAt d 255 192) seq then .trap s { cause := bitsAt d 264 256, sub := bitsAt d 287 272 } else k s)

end Sys2Proof.Machine
end

