-- ==== Sys2Proof/Machine/Fetch.lean ====
section
/-!
DEFINITION. Machine/Fetch.lean: fetching a clause into its entry's buffer (09 R163, R164; 17 R181, R317), and what its header
and its words say.
-/

namespace Sys2Proof.Machine

/-- How reading words at clause addresses ends. -/
inductive Fetched where
  | ok (s : State) (words : List (BitVec 32))
  | trap (s : State) (x : Trap)
  | miss (s : State) (va : BitVec 64) (cause : Nat)
  | wait (s : State)
  deriving DecidableEq, Repr

/-- One byte of an instruction word at its home, or the core's fetch copy of it. A copy that differs may have been dropped, or
may still be there, until cflush takes it: which is free (R390). -/
def State.fetchBytes (s : State) (core loc : Nat) : State × List Byte :=
  let K := s.core core
  let home := s.homeBytes loc 4
  match ByteMap.get? K.icache loc with
  | none => (s.setCore { K with icache := ByteMap.putAll K.icache loc home }, home)
  | some _ =>
    let copy := (List.range 4).map (fun k => (ByteMap.get? K.icache (loc + k)).getD (s.homeByte (loc + k)))
    if copy = home then (s, home)
    else
      let (k, s1) := s.pick 2
      if k = 0 then (s1, copy) else (s1.setCore { K with icache := ByteMap.putAll K.icache loc home }, home)

/-- Reads one word for an agent: the translation of a fetch, its alignment, its place and its seal (R18, R35, R41, R181). DESIGN CHOICE, log entry 100. -/
def State.fetchWord (s : State) (a : Agent) (va : BitVec 64) : Fetched :=
  match s.translate a va .fetch with
  | (s1, .trap x) => .trap s1 x
  | (s1, .miss c) => .miss s1 va c
  | (s1, .wait) => .wait s1
  | (s1, .ok loc pa _) =>
    let at_ : Trap := { cause := 0x084, addr := va, paddr := BitVec.ofNat 64 pa }
    if va.toNat % 4 ≠ 0 then .trap s1 at_
    else match s1.reach loc with
      | .failed n => .trap s1 { at_ with cause := 0x1e2, sub := n }
      | .wait => .wait s1
      | .yes =>
        if s1.engineHolds loc 4 false then .wait s1
        else if s1.sealBad loc then .trap s1 (s1.sealTrap a.core loc pa va)
        else
          let (s2, bs) := s1.fetchBytes a.core loc
          .ok s2 (wordsOfBytes bs)

/-- Reads n words. -/
def State.fetchWords (s : State) (a : Agent) : BitVec 64 → Nat → List (BitVec 32) → Fetched
  | _, 0, acc => .ok s acc
  | va, n + 1, acc =>
    match s.fetchWord a va with
    | .ok s1 ws => State.fetchWords s1 a (va + 4) n (acc ++ ws)
    | r => r

/-- Reads the instructions of a clause: n more of them, within the 16 words (R164). -/
def State.fetchSlots (s : State) (a : Agent) (base : BitVec 64) : Nat → List (BitVec 32) → Fetched
  | 0, acc => .ok s acc
  | n + 1, acc =>
    if 16 ≤ acc.length then .ok s acc
    else match s.fetchWord a (base + BitVec.ofNat 64 (4 * acc.length)) with
      | .ok s1 ws =>
        let acc1 := acc ++ ws
        if wordCount (ws.headD 0).toNat = 2 && acc1.length < 16 then
          match s1.fetchWord a (base + BitVec.ofNat 64 (4 * acc1.length)) with
          | .ok s2 ws2 => State.fetchSlots s2 a base n (acc1 ++ ws2)
          | r => r
        else State.fetchSlots s1 a base n acc1
      | r => r

/-- Reads a whole clause: its header and, where the header is right, its words. DEDUCED, log entry 101. -/
def State.fetchClause (s : State) (a : Agent) (base : BitVec 64) : Fetched :=
  match s.fetchWord a base with
  | .ok s1 ws =>
    match decodeHeader (ws.headD 0) with
    | none => .ok s1 ws
    | some h => State.fetchSlots s1 a base h.cnt ws
  | r => r

/-- The place in a clause of the words of slot n, walking from the first slot. -/
def slotOffset (ws : List (BitVec 32)) : Nat → Nat → Nat
  | 0, at_ => at_
  | n + 1, at_ => slotOffset ws n (at_ + wordCount (ws.getD at_ 0).toNat)

/-- The length in bytes of a clause with its words: its header and its instruction words (R317). -/
def clauseBytes (ws : List (BitVec 32)) : Nat :=
  match decodeHeader (ws.headD 0) with
  | none => 4
  | some h => 4 * min 16 (slotOffset ws h.cnt 1)

/-- The fall-through address of a clause. -/
def fallThrough (base : BitVec 64) (ws : List (BitVec 32)) : BitVec 64 := base + BitVec.ofNat 64 (clauseBytes ws)

/-- The entry of the issue group. -/
def State.curEntry (s : State) : Option Entry := s.cur.bind (fun c => s.entry? c.entry)

/-- The words of the clause that the group issues. -/
def State.curWords (s : State) : List (BitVec 32) := (s.curEntry.map (·.words)).getD []

/-- The fall-through address of the clause that the group issues. -/
def State.fallNow (s : State) (th : Thread) : BitVec 64 := fallThrough th.clause s.curWords

/-- Is the instruction a transfer (R315, R386)? -/
def isTransfer : Instr → Bool
  | .bra _ _ | .jmp _ | .jmpi _ _ | .call _ _ | .calli _ _ | .ret _ | .exit _ | .dispatch _ _ _ _ | .loop _ _ _
  | .tretRetry _ | .tretSkip _ => true
  | _ => false

/-- Must the instruction stand in slot 0 (R316)? -/
def isFirst : Instr → Bool
  | .barWg | .join => true
  | _ => false

/-- The instruction of a slot of a clause, decoded. -/
def slotInstr (ws : List (BitVec 32)) (priv : Bool) (slot : Nat) : Except Trap Instr :=
  match decodeHeader (ws.headD 0) with
  | none => .error { cause := 0x003 }
  | some h =>
    match decodeWords h.cls priv ((ws.take 16).drop (slotOffset ws slot 1)) with
    | .error f => .error { cause := f.cause }
    | .ok (i, _) => .ok i

/-- The fault of an instruction that stands in a slot of a clause of cnt slots in which R316 does not allow it. -/
def misplaced (cnt slot : Nat) (i : Instr) : Option Trap :=
  if isTransfer i && slot + 1 != cnt then some { cause := 0x04f, sub := 0x01 }
  else if isFirst i && slot != 0 then some { cause := 0x04f, sub := 0x02 }
  else none

/-- The checks of R180 and R100 that come before the place of a transfer: its guard, the v registers it names and the sources that must be
uniform. -/
def transferChecks : Instr → Guard × List Nat × List Field
  | .jmpi g a | .calli g a => (g, srcRegs 64 a, [])
  | .dispatch g d a b => (g, dstRegs 32 d, uniformFor d [⟨0, .gpc, 32⟩, ⟨2, .s a, 64⟩, ⟨3, .s b, 96⟩])
  | _ => (.always, [], [])

/-- The group takes the fault of an instruction that is not in its place: after the block limit of its registers and after 0x041 (R180). -/
def State.misplacedFault (s : State) (i : Instr) (x : Trap) : State :=
  let q := transferChecks i
  s.checked q.1 q.2.1 q.2.2 (fun s => s.groupFault x)

/-- Every lane of the group waits for a translation that the fetch of a clause needs. -/
def State.fetchMiss (s : State) (c : Cur) (clause va : BitVec 64) (cause reason : Nat) : State :=
  let rs := (s.executing c.entry .always)
  let s1 := rs.foldl (fun a q => a.enterReplay q.1 (q.1.ref q.2)
    { kind := .fetch clause, va := va, n := 4, clause := q.2.clause, slot := c.slot, since := s.slotSince } cause) s
  s1.mapTeams (·.mapThreads (fun th => if th.issuing c.entry then { th with hold := .at reason } else th))

end Sys2Proof.Machine
end

