-- ==== Sys2Proof/Machine/Mem.lean ====
section
/-!
DEFINITION. Machine/Mem.lean: the MEM class: loads, stores, immediate operations, atomics, phases and fences, tiles, work queues,
the heap and cache maintenance (14 R251 to R274; 07).
-/

namespace Sys2Proof.Machine

/-! ## Addresses and the checks of the whole group (R251, R252) -/

/-- The address of the S and L forms. -/
def memVa (tick : BitVec 64) (T : Team) (th : Thread) (a b : Src) : BitVec 64 :=
  readBv tick .int 64 T th a + (readBv tick .int 32 T th b).signExtend 64

/-- The address of the K forms. -/
def memVaK (tick : BitVec 64) (T : Team) (th : Thread) (a : Src) (k : BitVec 32) : BitVec 64 :=
  readBv tick .int 64 T th a + k.signExtend 64

/-- The address of lds.w and sts.w: an offset of the local window. -/
def localVa (tick : BitVec 64) (T : Team) (th : Thread) (a b : Src) : Except Trap (BitVec 64) :=
  let o : Int := ((readBv tick .int 32 T th a).toNat : Int) + (readBv tick .int 32 T th b).toInt
  if o < 0 ∨ 0xfffff < o then .error { cause := 0x086, sub := 0x01 } else .ok (BitVec.ofNat 64 (2 ^ 56 + o.toNat))

/-- The teams that have a lane in the group. -/
def State.curTeams (s : State) : List Team :=
  match s.cur with
  | none => []
  | some c => s.groupTeams c.entry

/-- A rectangle larger than the launch rectangle (R127, R252). -/
def State.shapeBad (s : State) (sc : Scope) : Option Trap :=
  match sc with
  | .rect a b =>
    if s.curTeams.any (fun T => let L := (s.launch T.launch).recd; decide (L.h < 2 ^ a) || decide (L.wd < 2 ^ b)) then
      some { cause := 0x152, sub := 0x03 }
    else none
  | _ => none

/-- A scope wider than the workgroup in a deterministic launch (R409). -/
def State.detScope (s : State) (T : Team) (sc : Scope) : Bool := (s.launch T.launch).recd.det && sc != .wg

/-- The stores of one instruction that cover a whole sector together: which of its accesses lie in such a sector (R16, R56). -/
def coversSector (stores : List Access) (a : Access) : Bool :=
  let mine := ((stores.filter (fun b => b.va.toNat / 64 == a.va.toNat / 64 && b.va.toNat % b.n == 0)).map (fun b => (b.va.toNat, b.n))).dedup
  a.va.toNat % a.n == 0 && decide ((mine.map (·.2)).sum = 64)

/-- The plain stores that the lanes of an instruction make, of those too that have made theirs while others wait. -/
def State.storesOf (s : State) (g : Guard) (mk : State → Team → Thread → Except Trap Access) : List Access :=
  match s.cur with
  | none => []
  | some c => (s.teams.flatMap (fun T => (T.threads.filter (fun th => th.entry == some c.entry && (th.status == .running || th.status == .handler)
      && th.passes g)).map (fun th => (T, th)))).filterMap (fun q => match mk s q.1 q.2 with
      | .ok a => if a.kind = .store then some a else none
      | .error _ => none)

/-- A memory instruction: its register checks, the check of its scope, then each lane's access in lane order. -/
def State.memory (s : State) (g : Guard) (d : Dst) (wd : Nat) (xs : List Field) (sc : Option Scope)
    (mk : State → Team → Thread → Except Trap Access) : State :=
  s.checked g (dstRegs wd d ++ xs.flatMap (fun x => srcRegs x.w x.src)) (uniformFor d xs) (fun s =>
    match sc.bind s.shapeBad with
    | some x => s.groupFault x
    | none =>
      let stores := s.storesOf g mk
      s.foldLanes g (s.memLane (fun s T th =>
        match th.eccTrap T xs with
        | some x => .trap s x
        | none =>
          if (sc.map (s.detScope T)).getD false then .trap s { cause := 0x160, sub := 0x01 }
          else match mk s T th with
            | .error x => .trap s x
            | .ok a => s.issueAccess T th { a with whole := a.kind = .store && coversSector stores a }) (access := true)) true)

/-! ## Plain loads and stores (R255, R256) -/

/-- A plain load of n bytes into w bits. -/
def State.loadOp (s : State) (g : Guard) (d : Dst) (w n : Nat) (sext : Bool) (a b : Src) : State :=
  s.memory g d w [⟨2, a, 64⟩, ⟨3, b, 32⟩] none (fun s T th =>
    .ok { kind := .load sext, va := memVa (s.tickOf T) T th a b, n := n, dst := d, bits := w })

/-- A plain store of n bytes of a w-bit source. -/
def State.storeOp (s : State) (g : Guard) (x : Src) (w n : Nat) (a b : Src) : State :=
  s.memory g .discard 32 [⟨1, x, w⟩, ⟨2, a, 64⟩, ⟨3, b, 32⟩] none (fun s T th =>
    .ok { kind := .store, va := memVa (s.tickOf T) T th a b, n := n, x := readSrc (s.tickOf T) .int w T th x })

def execLdW (g : Guard) (d : Dst) (a b : Src) (s : State) : Host.Outcome State Fault Refusal := .next (s.loadOp g d 32 4 false a b)
def execLdD (g : Guard) (d : Dst) (a b : Src) (s : State) : Host.Outcome State Fault Refusal := .next (s.loadOp g d 64 8 false a b)
def execLdQ (g : Guard) (d : Dst) (a b : Src) (s : State) : Host.Outcome State Fault Refusal := .next (s.loadOp g d 128 16 false a b)
def execStW (g : Guard) (x a b : Src) (s : State) : Host.Outcome State Fault Refusal := .next (s.storeOp g x 32 4 a b)
def execStD (g : Guard) (x a b : Src) (s : State) : Host.Outcome State Fault Refusal := .next (s.storeOp g x 64 8 a b)
def execStQ (g : Guard) (x a b : Src) (s : State) : Host.Outcome State Fault Refusal := .next (s.storeOp g x 128 16 a b)

def execLdsW (g : Guard) (d : Dst) (a b : Src) (s : State) : Host.Outcome State Fault Refusal :=
  .next (s.memory g d 32 [⟨2, a, 32⟩, ⟨3, b, 32⟩] none (fun s T th =>
    (localVa (s.tickOf T) T th a b).map (fun va => { kind := .load false, va := va, n := 4, dst := d, bits := 32 })))
def execStsW (g : Guard) (x a b : Src) (s : State) : Host.Outcome State Fault Refusal :=
  .next (s.memory g .discard 32 [⟨1, x, 32⟩, ⟨2, a, 32⟩, ⟨3, b, 32⟩] none (fun s T th =>
    (localVa (s.tickOf T) T th a b).map (fun va =>
      { kind := .store, va := va, n := 4, x := readSrc (s.tickOf T) .int 32 T th x })))

/-- The K forms, by width code. -/
def execLdK (g : Guard) (wd : Nat) (d : Dst) (a : Src) (k : BitVec 32) (s : State) : Host.Outcome State Fault Refusal :=
  let w := kWidth wd
  .next (s.memory g d w [⟨2, a, 64⟩] none (fun s T th =>
    .ok { kind := .load false, va := memVaK (s.tickOf T) T th a k, n := w / 8, dst := d, bits := w }))
def execStK (g : Guard) (wd : Nat) (x a : Src) (k : BitVec 32) (s : State) : Host.Outcome State Fault Refusal :=
  let w := kWidth wd
  .next (s.memory g .discard 32 [⟨1, x, w⟩, ⟨2, a, 64⟩] none (fun s T th =>
    .ok { kind := .store, va := memVaK (s.tickOf T) T th a k, n := w / 8, x := readSrc (s.tickOf T) .int w T th x }))

/-- The bytes of an access of a type (R255). -/
def memBytes (t : Ty) : Nat := if t = .b128 then 16 else intBits t / 8

def execLdL (g : Guard) (ty : Ty) (d : Dst) (a b : Src) (s : State) : Host.Outcome State Fault Refusal :=
  .next (s.loadOp g d ty.opBits (memBytes ty) (ty = .i8 || ty = .i16) a b)
def execStL (g : Guard) (ty : Ty) (x a b : Src) (s : State) : Host.Outcome State Fault Refusal :=
  .next (s.storeOp g x ty.opBits (memBytes ty) a b)

/-- One lane of prefetch: a translation that succeeds sets A (R39), and a sector of an L1-cached target that can be reached, whose
seal is right and that no engine owns comes into L1 clean (R18, R257). Whether it does is not stated: it does where L1 has room.
DESIGN CHOICE, log entry 119. -/
def State.prefetchLane (s : State) (T : Team) (th : Thread) (va : BitVec 64) : State :=
  match s.translate (s.agent T) va .rd with
  | (s1, .ok loc pa sh) =>
    let a : Access := { kind := .load false, va := va, n := 1, since := s.slotSince }
    if s1.reachAs loc sh = .yes && !s1.engineHolds loc 1 false && !s1.sealBad loc && s1.allocates T a loc pa sh then
      match s1.l1Room T (T.ref th) a loc with
      | .ok s2 => ((s2.fill T.core T.launch loc).getD s2).noteShared loc
      | _ => s1
    else s1
  | (s1, _) => s1

/-- prefetch: it changes no value that a load returns, and never faults after decode (R257). -/
def execPrefetch (g : Guard) (a b : Src) (s : State) : Host.Outcome State Fault Refusal :=
  .next (s.issueMem g .discard 32 [⟨2, a, 64⟩, ⟨3, b, 32⟩] [] (s.memLane (fun s T th =>
    .done (s.prefetchLane T th (memVa (s.tickOf T) T th a b)))) true)

/-! ## Immediate operations and atomics (R258 to R261) -/

/-- ldi. -/
def State.ldiOp (s : State) (g : Guard) (ty : Ty) (sc : Scope) (ord : Ord) (d : Dst) (a b : Src) : State :=
  s.memory g d ty.opBits [⟨2, a, 64⟩, ⟨3, b, 32⟩] (some sc) (fun s T th =>
    .ok { kind := .ldi sc ord, va := memVa (s.tickOf T) T th a b, n := memBytes ty, dst := d, bits := ty.opBits })

/-- sti. -/
def State.stiOp (s : State) (g : Guard) (ty : Ty) (sc : Scope) (ord : Ord) (x a b : Src) : State :=
  s.memory g .discard 32 [⟨1, x, ty.opBits⟩, ⟨2, a, 64⟩, ⟨3, b, 32⟩] (some sc) (fun s T th =>
    .ok { kind := .sti sc ord, va := memVa (s.tickOf T) T th a b, n := memBytes ty
          x := readSrc (s.tickOf T) .int ty.opBits T th x })

def execLdiWWg (g : Guard) (d : Dst) (a b : Src) (s : State) : Host.Outcome State Fault Refusal := .next (s.ldiOp g .n32 .wg .relaxed d a b)
def execStiWWg (g : Guard) (x a b : Src) (s : State) : Host.Outcome State Fault Refusal := .next (s.stiOp g .n32 .wg .relaxed x a b)
def execLdi (g : Guard) (ty : Ty) (sc : Scope) (ord : Ord) (d : Dst) (a b : Src) (s : State) : Host.Outcome State Fault Refusal :=
  .next (s.ldiOp g ty sc ord d a b)
def execSti (g : Guard) (ty : Ty) (sc : Scope) (ord : Ord) (x a b : Src) (s : State) : Host.Outcome State Fault Refusal :=
  .next (s.stiOp g ty sc ord x a b)

/-- An atomic: A is the 64-bit address; B the operand of wb bits, split into the access's values by mk. -/
def State.atomOp (s : State) (g : Guard) (ty : Ty) (sc : Scope) (d : Dst) (a b : Src) (wb : Nat)
    (mk : State → Team → Thread → Access) : State :=
  s.memory g d ty.opBits [⟨2, a, 64⟩, ⟨3, b, wb⟩] (some sc) (fun s T th =>
    .ok { mk s T th with va := readBv (s.tickOf T) .int 64 T th a, n := ty.opBits / 8, dst := d, bits := ty.opBits })

def execAtom (g : Guard) (op : AtomOp) (ty : Ty) (sc : Scope) (ord : Ord) (d : Dst) (a b : Src) (s : State) : Host.Outcome State Fault Refusal :=
  .next (s.atomOp g ty sc d a b ty.opBits (fun s T th =>
    { kind := .atom op ty sc ord, va := 0, n := 1, x := readSrc (s.tickOf T) .int ty.opBits T th b }))
def execAtomcas (g : Guard) (ty : Ty) (sc : Scope) (ord : Ord) (d : Dst) (a b : Src) (s : State) : Host.Outcome State Fault Refusal :=
  let w := ty.opBits
  .next (s.atomOp g ty sc d a b (2 * w) (fun s T th =>
    let v := readSrc (s.tickOf T) .int (2 * w) T th b
    { kind := .cas ty sc ord, va := 0, n := 1, x := v % 2 ^ w, y := v / 2 ^ w % 2 ^ w }))
def execAtomf (g : Guard) (op : AtomFOp) (ty : Ty) (sc : Scope) (ord : Ord) (d : Dst) (a b : Src) (s : State) : Host.Outcome State Fault Refusal :=
  .next (s.atomOp g ty sc d a b ty.opBits (fun s T th =>
    { kind := .atomf op ty sc ord, va := 0, n := 1, x := readFlt (s.tickOf T) ty T th b }))

/-! ## Boundaries and fences (R129, R130, R262, R263) -/

/-- A thread arrives at a boundary of its workgroup, or has passed it (R129, R130). -/
def State.arrive (s : State) (T : Team) (th : Thread) (sc : Scope) : LaneOut :=
  let W := s.wg T.launch T.wg
  if th.hold = .passed then .done s
  else if sc ≠ .wg ∧ !(s.launch T.launch).recd.phased then .trap s { cause := 0x152, sub := 0x02 }
  else
    let go := fun (s : State) => LaneOut.done (s.updThread (T.ref th) (fun th => { th with hold := .arrived }))
    match W.pend with
    | none => go (s.setWg { W with pend := some sc })
    | some sc' => if sc' = sc then go s else .trap s { cause := 0x152, sub := 0x01 }

/-- Marks an arrival: performLane leaves the hold as the lane has set it. -/
def State.arrivals (s : State) (f : State → Team → Thread → LaneOut) : State :=
  match s.cur with
  | none => s
  | some c =>
    let (s1, ls) := s.laneOrder c.entry .always
    ls.foldl (fun a q =>
      match a.thread? (q.1.ref q.2) with
      | none => a
      | some (T, th) =>
        if th.issuing c.entry then
          match (if th.hold = .passed then f a T th else s.memLane f a T th) with
          | .done a' => a'
          | r => a.performLane a c (fun _ _ _ => r) (T.ref th)
        else a) s1

/-- phase (R262): its scope's shape is checked first. -/
def execPhase (sc : Scope) (s : State) : Host.Outcome State Fault Refusal :=
  .next (match s.shapeBad sc with
    | some x => s.groupFault x
    | none => s.arrivals (fun s T th => s.arrive T th sc))

/-- fence (R146, R263): accesses are performed in program order here, so that its orders hold. -/
def execFence (g : Guard) (sc : Scope) (_ : Ord) (s : State) : Host.Outcome State Fault Refusal :=
  .next (match s.shapeBad sc with
    | some x => s.groupFault x
    | none => s.perLane g [] (s.memOwn (fun T th => if s.detScope T sc then .trap th { cause := 0x160, sub := 0x01 } else .done th [])))

/-! ## Tiles (R63 to R66, R264 to R266) -/

/-- A tile of a team's workgroup: its partition, its core and its entry number; 0x087 where there is none or it is another
workgroup's (R62, R65). -/
def State.tileOf (s : State) (T : Team) (t : Nat) : Except Trap (Partition × Nat × Nat) :=
  let W := s.wg T.launch T.wg
  match s.partition? T.launch W.home with
  | none => .error { cause := 0x087, sub := 0x06 }
  | some p =>
    if p.tiles ≤ t then .error { cause := 0x087, sub := 0x06 }
    else match p.core with
      | none => .error { cause := 0x087, sub := 0x06 }
      | some c =>
        let e := (s.core c).tiles.getD (p.tbase + t) 0
        if tileV e && tileOwner e != W.slot then .error { cause := 0x087, sub := 0x02 } else .ok (p, c, p.tbase + t)

/-- An entry of a core's tile table. -/
def State.tile (s : State) (core n : Nat) : BitVec 128 := (s.core core).tiles.getD n 0

/-- Writes an entry of a core's tile table. -/
def State.setTile (s : State) (core n : Nat) (e : BitVec 128) : State :=
  let K := s.core core
  s.setCore { K with tiles := setAt K.tiles n e }

/-- The fields of a tile descriptor (R264). -/
def tdBad (b : Nat) : Bool := bitsAt b 29 27 != 0

/-- What tfill and tdrain do for a tile with a descriptor and an address: a wait, a fault, or the transition with its copy
(R64 to R66, R264). An entry that tfill allocates has ERR 0. DESIGN CHOICE, log entry 144. -/
def State.tileMove (s : State) (T : Team) (th : Thread) (fill : Bool) (t : Nat) (va : BitVec 64) (b : Nat) : LaneOut :=
  match s.tileOf T t with
  | .error x => .trap s x
  | .ok (p, c, n) =>
    let e := s.tile c n
    let v := tileV e
    let st := tileState e
    let bad := fun (k : Nat) => LaneOut.trap s { cause := 0x087, sub := k }
    let len := bitsAt b 13 0
    let base := bitsAt b 26 14
    let meetsOther := (List.range p.tiles).any (fun k => p.tbase + k != n && (let o := s.tile c (p.tbase + k)
      tileV o && decide (base < tileBase o + tileLen o) && decide (tileBase o < base + len)))
    if v && (st = 1 || st = 3) then .wait s 5
    else if !fill && (!v || st = 0) then bad 0x01
    else if fill && v && st = 2 && s.tileRead c T.launch p.home t then .wait s 5
    else if tdBad b then bad 0x04
    else if v && !(base == tileBase e && len == tileLen e) then bad 0x05
    else if len = 0 || p.size < base * 128 + len * 128 then bad 0x04
    else if fill && meetsOther then bad 0x03
    else if va.toNat % 4 ≠ 0 then .trap s { cause := 0x084, addr := va }
    else
      let sel : QSel := ⟨0, bitsAt b 31 30⟩
      let local_ := 2 ^ 56 + base * 128
      let entry := (if fill then va.toNat + local_ * 2 ^ 64 else local_ + va.toNat * 2 ^ 64) + len * 128 * 2 ^ 128
      s.append T th sel entry (fun s pos seq =>
        let s1 := s.post T.launch T.wg sel (pos + 1)
        .done (s1.setTile c n (mkTile seq (if fill then 1 else 3) (v && tileErr e) (s.wg T.launch T.wg).slot len base)))

/-- An instruction that the first executing lane of each team performs for the team (R264); one that reaches memory waits while an access
of the team's is in the replay buffer, or the buffer is full (R45). -/
def State.teamLane (s : State) (g : Guard) (xs uni : List Field) (f : State → Team → Thread → LaneOut) (mem : Bool := true) : State :=
  s.checked g (xs.flatMap (fun x => srcRegs x.w x.src)) uni (fun s =>
    s.perTeam g (fun s T lanes =>
      match s.cur, lanes with
      | some c, th :: _ =>
        match th.eccTrap T xs with
        | some x => s.performLane s c (fun s _ _ => .trap s x) (T.ref th)
        | none =>
          match (if mem && (lanes.any (fun x => s.replays (T.ref x)) || s.replayFull T.core || s.boundReplays T) then .wait s 4 else f s T th) with
          | .done s' => s'.markTeam T c.entry g .passed
          | .wait s' r => s'.markTeam T c.entry g (.at r)
          | .trap s' x => s'.trapTeam T c g x
      | _, _ => s))

/-- tfill and tdrain. -/
def State.tileOp (s : State) (fill : Bool) (g : Guard) (t : Nat) (a b : Src) : State :=
  s.teamLane g [⟨2, a, 64⟩, ⟨3, b, 32⟩] [⟨2, a, 64⟩, ⟨3, b, 32⟩] (fun s T th =>
    s.tileMove T th fill t (readBv (s.tickOf T) .int 64 T th a) (readSrc (s.tickOf T) .int 32 T th b))

def execTfill (g : Guard) (t : Nat) (a b : Src) (s : State) : Host.Outcome State Fault Refusal := .next (s.tileOp true g t a b)
def execTdrain (g : Guard) (t : Nat) (a b : Src) (s : State) : Host.Outcome State Fault Refusal := .next (s.tileOp false g t a b)

/-- twait (R265). -/
def execTwait (g : Guard) (t : Nat) (s : State) : Host.Outcome State Fault Refusal :=
  .next (s.perLane g [] (s.memOwn (fun T th =>
    match s.tileOf T t with
    | .error x => .trap th x
    | .ok (_, c, n) =>
      let e := s.tile c n
      if !tileV e then .trap th { cause := 0x087, sub := 0x01 }
      else if tileState e = 1 || tileState e = 3 then .wait th 5
      else .done th [])))

/-- tstate (R266): an outstanding result (R254). -/
def execTstate (g : Guard) (t : Nat) (d : Dst) (s : State) : Host.Outcome State Fault Refusal :=
  .next (s.checked g (dstRegs 32 d) [] (fun s => s.perLane g [] (s.memOwn (fun T th =>
    match s.tileOf T t with
    | .error x => .trap th x
    | .ok (_, c, n) =>
      let e := s.tile c n
      let v := if tileV e then 8 + (if tileErr e then 4 else 0) + tileState e else 0
      .done (th.await d 32 v .mem th.clause s.slotNow s.slotSince) []))))

/-- tfree (R66): once for each team, by its first executing lane, as tfill and tdrain are (R264). DEDUCED, log entry 120. -/
def execTfree (g : Guard) (t : Nat) (s : State) : Host.Outcome State Fault Refusal :=
  .next (s.teamLane g [] [] (fun s T _ =>
    match s.tileOf T t with
    | .error x => .trap s x
    | .ok (_, c, n) =>
      let e := s.tile c n
      if !tileV e then .trap s { cause := 0x087, sub := 0x01 }
      else if tileState e = 1 || tileState e = 3 then .wait s 5
      else .done (s.setTile c n (e &&& ~~~(1#128 <<< 63)))))

/-! ## Work queues (R267 to R269) -/

/-- 8 MiB of DRAM that Gondola takes for itself, by number: some that hold no byte but zeros, and that it has not taken before; which is free. -/
def State.freeFrame (s : State) : Nat × State :=
  let n := s.dramTop / 2 ^ 23
  let (k, s1) := s.pick n
  let used := fun (f : Nat) => s.ctxMaps.any (fun m => m.frame == f * 2 ^ 23) || s.mem.any (fun c => c.1 / 2 ^ 23 == f)
    || s.queues.any (fun Q => Q.q == 63 && Q.ringbase.toNat / 2 ^ 23 == f)
  let f := ((List.range (s.ctxMaps.length + s.mem.length + s.queues.length + 1)).map (fun j => (k + j) % n)).find? (fun f => !used f)
  (f.getD k, s1)

/-- A work queue of a die. -/
def State.workq (s : State) (die q : Nat) : WorkQueue := (s.queues.find? (fun x => x.die == die && x.q == q)).getD { die := die, q := q }

/-- Writes a work queue back. -/
def State.setWorkq (s : State) (k : WorkQueue) : State :=
  { s with queues :=
      if s.queues.any (fun x => x.die == k.die && x.q == k.q) then s.queues.map (fun x => if x.die == k.die && x.q == k.q then k else x)
      else k :: s.queues }

/-- FREE advances over released positions in order (R267). -/
def advanceFree : Nat → BitVec 32 → List (BitVec 32) → BitVec 32 × List (BitVec 32)
  | 0, f, l => (f, l)
  | n + 1, f, l => if l.contains f then advanceFree n (f + 1) (l.filter (· != f)) else (f, l)

/-- Releases a slot of a queue. -/
def WorkQueue.release (Q : WorkQueue) (p : BitVec 32) : WorkQueue :=
  let (f, l) := advanceFree (Q.freed.length + 1) Q.free (p :: Q.freed)
  { Q with free := f, freed := l }

/-- Releases the slots of one queue that a thread owns. -/
def State.releaseSlots (s : State) (die : Nat) (r : ThreadRef) (th : Thread) (q : Nat) : State :=
  ((th.qslots.filter (·.1 == q)).foldl (fun a x => a.setWorkq ((a.workq die q).release x.2)) s).updThread r (fun t =>
    { t with qslots := t.qslots.filter (·.1 != q) })

/-- The address of a slot (R267). -/
def WorkQueue.slotVa (Q : WorkQueue) (p : BitVec 32) : BitVec 64 := Q.ringbase + BitVec.ofNat 64 (64 * (p.toNat % Q.ringlen))

/-- The guard's predicate takes the value that makes it false (R267, R271). -/
def Thread.guardFalse (th : Thread) (g : Guard) : Thread :=
  match g with
  | .always => th
  | .on p neg => th.setP p neg

/-- Gives a 64-bit result to a lane as an outstanding one. -/
def State.give64 (s : State) (r : ThreadRef) (d : Dst) (v : Nat) (slot : Nat) (f : Thread → Thread) : State :=
  s.updThread r (fun t => f (t.await d 64 v .mem t.clause slot s.slotSince))

/-- A deterministic launch of several workgroups uses no work queue (R409). -/
def State.detQueue (s : State) (T : Team) : Bool := let L := (s.launch T.launch).recd; L.det && decide (1 < L.wgcount)

/-- One lane of qpop. DEDUCED, log entry 32. -/
def State.qpopLane (s : State) (g : Guard) (d : Dst) (T : Team) (th : Thread) (q : Nat) : LaneOut :=
  let L := s.launch T.launch
  let r := T.ref th
  if s.memWaits T th then .wait s 4
  else if s.detQueue T then .trap s { cause := 0x160, sub := 0x03 }
  else if !(decide (q < 64) && L.recd.qcons.getLsbD q) then .trap s { cause := 0x04a, sub := 0x06 }
  else
    let s := if th.claim.isSome then s else s.releaseSlots L.die r th q
    let Q := s.workq L.die q
    let take := fun (s : State) (p : BitVec 32) =>
      s.toHome T th (Q.slotVa p + 60) 4 false (fun s loc =>
        if s.homeNat loc 4 = p.toNat then
          .done (s.give64 r d (Q.slotVa p).toNat s.slotNow (fun t => { t with claim := none, qslots := (q, p) :: t.qslots }))
        else .wait s 9)
    match th.claim with
    | some p => take s p
    | none =>
      if Q.state = .broken then .trap s { cause := 0x141, sub := 0x01 }
      else if newer Q.tail Q.head then
        take ((s.setWorkq { Q with head := Q.head + 1 }).updThread r (fun t => { t with claim := some Q.head })) Q.head
      else if Q.state = .closed then .done (s.give64 r d 0xffffffff s.slotNow (fun t => t.guardFalse g))
      else .wait s 9

/-- qpop. -/
def execQpop (g : Guard) (d : Dst) (a : Src) (s : State) : Host.Outcome State Fault Refusal :=
  .next (s.issueMem g d 64 [⟨2, a, 32⟩] [⟨2, a, 32⟩] (fun s T th => s.qpopLane g d T th (readSrc (s.tickOf T) .int 32 T th a)) true)

/-- The record that qpush reads: as the issuing core sees it, with its seals checked (R79, R268), at an address that is a multiple of
its size, which is the last of the checks of its translation (R41). -/
def State.readSeen (s : State) (T : Team) (th : Thread) (va : BitVec 64) (n : Nat) (k : State → List Byte → LaneOut) : LaneOut :=
  if s.memWaits T th then .wait s 4
  else match s.translate (s.agent T) va .rd with
    | (s1, .trap x) => .trap s1 x
    | (s1, .miss c) => s1.mustReach T th va false c
    | (s1, .wait) => .wait s1 4
    | (s1, .ok loc pa sh) =>
      if va.toNat % n ≠ 0 then .trap s1 { cause := 0x084, addr := va, paddr := BitVec.ofNat 64 pa }
      else match s1.reachAs loc sh with
      | .failed m => .trap s1 { cause := 0x1e2, sub := m, addr := va, paddr := BitVec.ofNat 64 pa }
      | .wait => .wait s1 4
      | .yes =>
        let h := s1.holding loc pa sh
        let own := (List.range n).all (fun k => s1.holds T.core T.launch T.wg h (loc + k))
        let s2 := if own then s1 else s1.touchL2 (dieOf T.core) (sectorOf loc)
        if s1.engineHolds loc n false && !s1.ownBytes T.core T.launch loc n then .wait s1 4
        else if (s1.sealBadRange loc n && !own) || s1.slotDamaged T.core T.launch T.wg loc then .trap s1 (s1.sealTrap T.core loc pa va)
        else (k s2 (s1.viewBytes T.core T.launch T.wg h loc n)).hit (fun s => s.noteHit T th va pa loc n true)

/-- One lane of qpush: the record's address is checked before a position is reserved. DEDUCED, log entry 32. -/
def State.qpushLane (s : State) (T : Team) (th : Thread) (q : Nat) (va : BitVec 64) : LaneOut :=
  let L := s.launch T.launch
  let r := T.ref th
  let Q := s.workq L.die q
  let go := fun (s : State) (p : BitVec 32) =>
    if Q.ringlen ≤ (p - Q.free).toNat then .wait s 15
    else s.readSeen T th va 64 (fun s2 bs =>
      s2.toHome T th (Q.slotVa p) 64 true (fun s3 loc =>
        let s4 := (s3.writeHome loc (bs.take 60 ++ leBytes 4 p.toNat) (dieOf T.core)).getD s3
        let Q4 := s4.workq L.die q
        .done ((s4.setWorkq { Q4 with tail := mergeTail Q4.tail (p + 1) }).updThread r (fun t => { t with claim := none }))) false true)
  if s.memWaits T th then .wait s 4
  else if s.detQueue T then .trap s { cause := 0x160, sub := 0x03 }
  else if !(decide (q < 64) && L.recd.qprod.getLsbD q) then .trap s { cause := 0x04a, sub := 0x06 }
  else match th.claim with
  | some p => go s p
  | none =>
    if Q.state = .closed then .trap s { cause := 0x141, sub := 0x02 }
    else if Q.state = .broken then .trap s { cause := 0x141, sub := 0x01 }
    else s.readSeen T th va 64 (fun s1 _ =>
      go ((s1.setWorkq { Q with reserve := Q.reserve + 1 }).updThread r (fun t => { t with claim := some Q.reserve })) Q.reserve)

/-- qpush. -/
def execQpush (g : Guard) (a b : Src) (s : State) : Host.Outcome State Fault Refusal :=
  .next (s.issueMem g .discard 32 [⟨2, a, 32⟩, ⟨3, b, 64⟩] [⟨2, a, 32⟩] (fun s T th =>
    s.qpushLane T th (readSrc (s.tickOf T) .int 32 T th a) (readBv (s.tickOf T) .int 64 T th b)) true)

/-! ## The heap (R270 to R273) -/

/-- A heap as its descriptor gives it. -/
structure Heap where
  base   : Nat
  chunks : Nat
  metaBase : Nat
  deriving DecidableEq, Repr

/-- The heap of a descriptor of 64 bytes, none where it fails its checks (R270). -/
def heapOf (d : Nat) : Option Heap :=
  let h : Heap := ⟨bitsAt d 63 0, bitsAt d 95 64, bitsAt d 191 128⟩
  if bitsAt d 511 192 ≠ 0 ∨ bitsAt d 127 96 ≠ 0 ∨ h.base % 65536 ≠ 0 ∨ h.metaBase % 4096 ≠ 0 ∨ h.chunks = 0 then none else some h

/-- Goes on with the heap that a descriptor's address names. DEDUCED, log entry 31. -/
def State.withHeap (s : State) (T : Team) (th : Thread) (va : BitVec 64) (k : State → Heap → LaneOut) : LaneOut :=
  if s.memWaits T th then .wait s 4
  else if va.toNat % 64 ≠ 0 then .trap s { cause := 0x1c1, sub := 0x04 }
  else s.toHome T th va 64 false (fun s loc =>
    match heapOf (s.homeNat loc 64) with
    | none => .trap s { cause := 0x1c1, sub := 0x04 }
    | some h => k s h)

/-- The virtual address of a byte of a chunk's metadata (R270). -/
def Heap.metaVa (h : Heap) (n off : Nat) : BitVec 64 := BitVec.ofNat 64 (h.metaBase + n * 1024 + off)

/-- Goes on with the locations of the metadata of chunks n, n + 1, ... of a heap. -/
def State.metaLocs (s : State) (T : Team) (th : Thread) (h : Heap) : Nat → Nat → List Nat → (State → List Nat → LaneOut) → LaneOut
  | 0, _, acc, k => k s acc.reverse
  | m + 1, n, acc, k =>
    match s.translate (s.agent T) (h.metaVa n 0) .wr with
    | (s1, .trap x) => .trap s1 x
    | (s1, .miss c) => s1.mustReach T th (h.metaVa n 0) true c
    | (s1, .wait) => .wait s1 4
    | (s1, .ok loc pa sh) =>
      match s1.reachAs loc sh with
      | .failed q => .trap s1 { cause := 0x1e2, sub := q, addr := h.metaVa n 0, paddr := BitVec.ofNat 64 pa }
      | .wait => .wait s1 4
      | .yes =>
        if s1.engineHolds loc 1024 true then .wait s1 4
        else match (List.range 16).find? (fun k => s1.sealBad (loc + 64 * k)) with
        | some k => .trap s1 (s1.sealTrap T.core (loc + 64 * k) (pa + 64 * k) (h.metaVa n (64 * k)))
        | none =>
          let s2 := (sectorsOf loc 1024).foldl (fun a sec => a.touchL2 (dieOf T.core) sec) s1
          (State.metaLocs s2 T th h m (n + 1) (loc :: acc) k).hit (fun s => s.noteHit T th (h.metaVa n 0) pa loc 1024 true)

/-- The size class of a request (R271). -/
def heapClass (size : Nat) : Nat := ((List.range 13).find? (fun c => decide (size ≤ 16 * 2 ^ c))).getD 13

/-- The lowest free slot of a chunk of class c (R270, R271). -/
def State.freeSlot (s : State) (loc c : Nat) : Option Nat :=
  (List.range (4096 / 2 ^ c)).find? (fun i => !(s.homeByte (loc + 512 + i / 8)).getLsbD (i % 8))

/-- Sets or clears the bit of a slot. -/
def State.setSlot (s : State) (die loc i : Nat) (v : Bool) : State :=
  let old := (s.homeByte (loc + 512 + i / 8)).toNat
  let bit := 2 ^ (i % 8)
  s.putMarked die (loc + 512 + i / 8) [BitVec.ofNat 8 (if v then old ||| bit else old - old / bit % 2 * bit)]

/-- A byte of a chunk's metadata has been written for a thread: the watchpoints that this meets (R417). -/
def State.metaHit (s : State) (T : Team) (th : Thread) (h : Heap) (n loc off : Nat) : State :=
  s.noteHit T th (h.metaVa n off) (loc % 2 ^ 52 + off) (loc + off) 1 false

/-- One lane of halloc. Which chunk of the class serves a request is free, and the lowest in a deterministic launch (R411). DESIGN CHOICE, log entry 30. -/
def State.hallocLane (s : State) (g : Guard) (try_ : Bool) (d : Dst) (T : Team) (th : Thread) (size : Nat) (va : BitVec 64) : LaneOut :=
  let r := T.ref th
  s.withHeap T th va (fun s h =>
    if 65536 < size then .trap s { cause := 0x1c0, sub := 0x02 }
    else s.metaLocs T th h h.chunks 0 [] (fun s locs =>
      let c := heapClass size
      let cands := locs.zipIdx.filterMap (fun q =>
        if (s.homeByte q.1).toNat = c then (s.freeSlot q.1 c).map (fun i => (q.1, q.2, i)) else none)
      let give := fun (s : State) (q : Nat × Nat × Nat) =>
        LaneOut.done (((s.setSlot (dieOf T.core) q.1 q.2.2 true).metaHit T th h q.2.1 q.1 (512 + q.2.2 / 8)).give64 r d (h.base + q.2.1 * 65536 + q.2.2 * (16 * 2 ^ c)) s.slotNow id)
      match cands with
      | [] =>
        match locs.zipIdx.find? (fun q => s.homeByte q.1 == 0xff#8) with
        | some (loc, n) => give ((s.putMarked (dieOf T.core) loc [BitVec.ofNat 8 c]).metaHit T th h n loc 0) (loc, n, 0)
        | none =>
          if try_ then .done (s.give64 r d 0 s.slotNow (fun t => t.guardFalse g)) else .trap s { cause := 0x1c0, sub := 0x01 }
      | q :: rest =>
        if rest.isEmpty || (s.launch T.launch).recd.det then give s q
        else let (k, s1) := s.pick cands.length; give s1 (cands.getD k q)))

/-- halloc. -/
def execHalloc (g : Guard) (tr : Bool) (d : Dst) (a b : Src) (s : State) : Host.Outcome State Fault Refusal :=
  .next (s.issueMem g d 64 [⟨2, a, 32⟩, ⟨3, b, 64⟩] [⟨3, b, 64⟩] (fun s T th =>
    s.hallocLane g tr d T th (readSrc (s.tickOf T) .int 32 T th a) (readBv (s.tickOf T) .int 64 T th b)) true)

/-- One lane of hfree. -/
def State.hfreeLane (s : State) (T : Team) (th : Thread) (va hv : BitVec 64) : LaneOut :=
  s.withHeap T th hv (fun s h =>
    let bad := fun (k : Nat) => LaneOut.trap s { cause := 0x1c1, sub := k }
    let n := (va.toNat - h.base) / 65536
    if va.toNat < h.base ∨ h.chunks ≤ n then bad 0x01
    else s.metaLocs T th h 1 n [] (fun s locs =>
      let loc := locs.headD 0
      let c := (s.homeByte loc).toNat
      let off := (va.toNat - h.base) % 65536
      if 12 < c then bad 0x01
      else if off % (16 * 2 ^ c) ≠ 0 then bad 0x03
      else
        let i := off / (16 * 2 ^ c)
        if !(s.homeByte (loc + 512 + i / 8)).getLsbD (i % 8) then bad 0x02
        else .done ((s.setSlot (dieOf T.core) loc i false).metaHit T th h n loc (512 + i / 8))))

/-- hfree. -/
def execHfree (g : Guard) (a b : Src) (s : State) : Host.Outcome State Fault Refusal :=
  .next (s.issueMem g .discard 32 [⟨2, a, 64⟩, ⟨3, b, 64⟩] [⟨3, b, 64⟩] (fun s T th =>
    s.hfreeLane T th (readBv (s.tickOf T) .int 64 T th a) (readBv (s.tickOf T) .int 64 T th b)) true)

/-! ## Cache maintenance (R274) -/

/-- The L2 sectors of a line that are dirty go to DRAM; one that fails its egress check is pinned (R19, R274). -/
def State.writeLineL2 (s : State) (die line : Nat) : State :=
  [2 * line, 2 * line + 1].foldl (fun a sec =>
    if a.l2Dirty.contains sec then
      (if a.sealBad (sec * 64) then (a.pinSector die sec).sealNotice sec none else { a with l2Dirty := a.l2Dirty.filter (· != sec) })
    else a) s

/-- cwb and cinv on one line of 128 bytes: the view's dirty bytes of the line, those of held and overflow sectors among them, go home and
stay, clean; cinv takes the line out; .l2 writes its dirty L2 sectors to DRAM. Lines that do not translate and targets that L1
does not hold are skipped. -/
def State.maintainLine (s : State) (T : Team) (inv l2 : Bool) (va : BitVec 64) : State :=
  match s.translate (s.agent T) va .rd with
  | (s1, .ok loc pa sh) =>
    if s1.holding loc pa sh ≠ .cached then s1
    else
      let line := loc / 128
      let base := line * 128
      let v := s1.view T.core T.launch
      let mine := v.dirty.filter (fun c => decide (base ≤ c.1) && decide (c.1 < base + 128))
      let s2 := s1.writeBackAll [{ core := T.core, bytes := mine }]
      let clean := if inv then ByteMap.delAll v.clean base 128 else mine.foldl (fun m c => ByteMap.put m c.1 c.2) v.clean
      let s3 := s2.setView { v with dirty := ByteMap.delAll v.dirty base 128, clean := clean
                                    held := v.held.filter (· / 2 != line), spilled := v.spilled.filter (·.1 / 2 != line) }
      if l2 then s3.writeLineL2 (dieOf T.core) line else s3
  | (s1, _) => s1

/-- cwb and cinv over a byte range. -/
def State.maintain (s : State) (T : Team) (inv l2 : Bool) (a : BitVec 64) (n : Nat) : State :=
  if n = 0 then s
  else
    let first := a.toNat / 128
    (List.range ((a.toNat + n - 1) / 128 + 1 - first)).foldl (fun s k => s.maintainLine T inv l2 (BitVec.ofNat 64 ((first + k) * 128))) s

/-- cinv and cwb in each lane. -/
def State.maintainOp (s : State) (inv : Bool) (g : Guard) (l2 : Bool) (a b : Src) : State :=
  s.issueMem g .discard 32 [⟨2, a, 64⟩, ⟨3, b, 32⟩] [] (s.memLane (fun s T th =>
    .done (s.maintain T inv l2 (readBv (s.tickOf T) .int 64 T th a) (readSrc (s.tickOf T) .int 32 T th b)))) true

def execCinv (g : Guard) (l2 : Bool) (a b : Src) (s : State) : Host.Outcome State Fault Refusal := .next (s.maintainOp true g l2 a b)
def execCwb (g : Guard) (l2 : Bool) (a b : Src) (s : State) : Host.Outcome State Fault Refusal := .next (s.maintainOp false g l2 a b)

end Sys2Proof.Machine
end

