-- ==== Sys2Proof/Machine/Create.lean ====
section
/-!
DEFINITION. Machine/Create.lean: how teams begin and end: the registers of a new team (05 R94, R101; 17 R336), the exit of a
thread (R337), the completion tree and its words (16 R311 to R314), and the front end's own reads and writes (18 R345, R455).
-/

namespace Sys2Proof.Machine

/-! ## The front end's accesses (R345, R455) -/

/-- How an access of the front end ends. -/
inductive FrontOut where
  | ok (s : State) (bytes : List Byte)
  | fail (s : State) (x : Trap)
  /-- A translation of the address misses with this cause. -/
  | miss (s : State) (va : BitVec 64) (cause : Nat)
  | wait (s : State)
  deriving DecidableEq, Repr

/-- The front end of a die in an address space. DEDUCED, log entry 106. -/
def frontAgent (die asid : Nat) : Agent := { core := die * 36, launch := 0, wg := 0, asid := asid, home := 0, priv := false }

/-- Reaches n bytes that lie in one page. whole: they are whole sectors that are written, whose old seals are not checked (R16). -/
def State.frontReach (s : State) (die asid : Nat) (va : BitVec 64) (n : Nat) (write : Bool) (k : State → Nat → FrontOut) (whole : Bool := false) :
    FrontOut :=
  match s.translate (frontAgent die asid) va (if write then .wr else .rd) with
  | (s1, .trap x) => .fail s1 x
  | (s1, .miss c) => .miss s1 va c
  | (s1, .wait) => .wait s1
  | (s1, .ok loc pa sh) =>
    match s1.reachAs loc sh with
    | .failed m => .fail s1 { cause := 0x1e2, sub := m, addr := va, paddr := BitVec.ofNat 64 pa }
    | .wait => .wait s1
    | .yes =>
      if s1.engineHolds loc n write then .wait s1
      else if !whole && s1.sealBadRange loc n then .fail s1 (s1.sealTrap (die * 36) loc pa va)
      else k ((s1.touchL2 die (sectorOf loc)).gondolaHit asid va pa loc n (!write)) loc

/-- Reads n bytes of one page. -/
def State.frontRead (s : State) (die asid : Nat) (va : BitVec 64) (n : Nat) : FrontOut :=
  s.frontReach die asid va n false (fun s loc => .ok s (s.homeBytes loc n))

/-- Writes bytes into one page. -/
def State.frontWrite (s : State) (die asid : Nat) (va : BitVec 64) (bs : List Byte) : FrontOut :=
  s.frontReach die asid va bs.length true (fun s loc => .ok ((s.writeHome loc bs die).getD s) [])
    (va.toNat % 64 = 0 && bs.length % 64 = 0)

/-- Reads n runs of 64 bytes. -/
def State.frontRuns (s : State) (die asid : Nat) : BitVec 64 → Nat → List Byte → FrontOut
  | _, 0, acc => .ok s acc
  | va, n + 1, acc =>
    match s.frontRead die asid va 64 with
    | .ok s1 bs => State.frontRuns s1 die asid (va + 64) n (acc ++ bs)
    | r => r

/-- A translation request of the front end. -/
def State.frontRequest (s : State) (die asid : Nat) (va : BitVec 64) (cause : Nat) (who : Requester) : State :=
  if s.requests.any (fun q => q.who == who) then s
  else { s with requests := s.requests ++
    [{ core := die * 36, tick := s.tick, asid := asid, page := va &&& ~~~(0xfff#64), cause := cause, who := who }] }

/-! ## The completion tree (R311 to R314) -/

/-- The action that CMPLARM gives a level: 0 team, 1 workgroup, 2 to 5 squares, 6 launch. -/
def LaunchRec.action (R : LaunchRec) (level : Nat) : Nat := R.cmplarm.toNat / 4 ^ level % 4

/-- The offset of a node's word. -/
def wordOffset (level wg n : Nat) : Nat :=
  match level with
  | 0 => 0x2800 + wg * 0x200 + 0x100 + n * 8
  | 1 => 0x2800 + n * 0x200
  | 6 => 0
  | k => 0x800 + (k - 2) * 0x800 + n * 8

/-- A record with NL = 1 of a workgroup of a launch, for a trap (R393, R398). -/
def Launch.unitRecord (L : Launch) (x : Trap) (wg : Nat) (tick : BitVec 64) : Record :=
  { cause := x.cause, sub := x.sub, nl := true, mc := isMachineCheck x.cause, addr := x.addr, paddr := x.paddr, tick := tick, wg := wg, asid := L.asid }

/-- The workgroup that a node's word is about: its own, a team's, and 0 for a square, which has none. DESIGN CHOICE, log entry 124. -/
def wordWg (level : Nat) (va base : BitVec 64) : Nat := if level < 2 then ((va - base).toNat - 0x2800) / 0x200 else 0

/-- A word cannot be written: the launch word's cause goes to the packet; any other kills the launch, with a record with NL = 1. -/
def Launch.failWord (L : Launch) (level : Nat) (x : Trap) (va tick : BitVec 64) : Launch :=
  if level = 6 then { L with wordFail := some (x.cause, x.sub) }
  else { L with doom := L.doom.or (some (L.unitRecord x (wordWg level va L.recd.cmplbase) tick)) }

/-- Writes the words that wait, in order. -/
def State.writeWords (s : State) (l : Nat) : List (Nat × BitVec 64 × BitVec 64) → State
  | [] => s.setLaunch { s.launch l with words := [] }
  | w :: ws =>
    let L := s.launch l
    match s.frontWrite L.fe L.asid w.2.1 (leBytes 8 w.2.2.toNat) with
    | .ok s1 _ => State.writeWords s1 l ws
    | .fail s1 x => State.writeWords (s1.setLaunch ((s1.launch l).failWord w.1 x w.2.1 s1.tick)) l ws
    | .miss s1 _ c => (s1.setLaunch { s1.launch l with words := w :: ws }).frontRequest L.fe L.asid w.2.1 c (.word l)
    | .wait s1 => s1.setLaunch { s1.launch l with words := w :: ws }

/-- Writes the words of a launch that wait, unless a request of theirs is pending. -/
def State.flushWords (s : State) (l : Nat) : State :=
  if s.requests.any (fun q => q.who == .word l) then s else s.writeWords l (s.launch l).words

/-- A node completes: its word, its interrupt, which names a team by workgroup * 32 + team (R312, R313). -/
def State.nodeDone (s : State) (l level wg n : Nat) : State :=
  let L := s.launch l
  let act := L.recd.action level
  let val : BitVec 64 := if L.recd.det then 1 else s.tick
  let L1 := { L with nodes := L.nodes ++ [(level, if level = 0 then wg * 32 + n else n)]
                     words := L.words ++ (if act % 2 = 1 then
                       [(level, L.recd.cmplbase + BitVec.ofNat 64 (wordOffset level wg n), val)] else []) }
  let s1 := s.setLaunch L1
  (if act / 2 = 1 then s1.notify (0x200 + level) (if level = 0 then wg * 32 + n else n) else s1).flushWords l

/-! ## Creating a team (R94, R101) -/

/-- A new thread: every register zero. -/
def newThread (lane tid bsize : Nat) (clause : BitVec 64) : Thread :=
  { lane := lane, tid := BitVec.ofNat 32 tid, v := List.replicate bsize 0, clause := clause }

/-- The s registers of a new team. -/
def loadS (xs : List (BitVec 32)) : List (BitVec 32) := xs ++ List.replicate (64 - xs.length) 0

/-- The information of s6 (R101). DEDUCED, log entry 105. -/
def Launch.s6 (L : Launch) (w : Nat) : BitVec 32 :=
  let R := L.recd
  let n := R.wgcount
  let q := R.iters / n
  let m := R.iters % n
  let t := R.auxptr.toNat % 2 ^ 32
  let first := w * q + min w m
  let count := q + (if w < m then 1 else 0)
  let fix := if R.kind = 2 then (if first % t ≠ 0 then 2 ^ 29 else 0) + (if (first + count) % t ≠ 0 then 2 ^ 28 else 0) else 0
  let info := if R.kind = 1 then ((List.range 64).find? R.qcons.getLsbD).getD 0 else if R.kind = 3 then w else 0
  BitVec.ofNat 32 (R.kind * 2 ^ 30 + fix + info % 2 ^ 24)

/-- The width of a launch's teams. -/
def LaunchRec.lanes (R : LaunchRec) : Nat := 16 * 2 ^ R.width

/-- The block of a thread (R92). -/
def LaunchRec.blockSize (R : LaunchRec) : Nat := (R.regs + 15) / 16 * 16

/-- s0 to s6 of a team created at placement. -/
def Launch.sregs (L : Launch) (w team home : Nat) : List (BitVec 32) :=
  [L.recd.args.extractLsb' 0 32, L.recd.args.extractLsb' 32 32, BitVec.ofNat 32 w, BitVec.ofNat 32 team
  , BitVec.ofNat 32 (home / 32 * 256 + home % 32), BitVec.ofNat 32 L.recd.wgcount, L.s6 w]

/-- Adds a team of a workgroup. -/
def State.addTeam (s : State) (T : Team) : State := { s with teams := s.teams ++ [{ T with born := s.nextBorn }], nextBorn := s.nextBorn + 1 }

/-- Is a physical core the Gondola core or the service core of a die, whose threads run in privileged mode (R182)? -/
def State.privCore (s : State) (c : Nat) : Bool := (List.range 8).any (fun d => s.meshCore d 32 == some c || s.meshCore d 33 == some c)

/-- Firmware starts a team of 16 on a Gondola or service core. Its shape is the model's. DESIGN CHOICE, log entry 129. -/
def State.startFirmware (s : State) (core asid : Nat) (clause : BitVec 64) : State :=
  if !s.privCore core || s.teams.any (·.core == core) then s
  else
    let l := s.nextLaunch
    State.addTeam { s with
      launches := s.launches ++ [{ id := l, die := dieOf core, fe := dieOf core, sq := 1024, asid := asid, priv := true, nextWg := 1, entry0 := clause }]
      nextLaunch := l + 1
      wgs := s.wgs ++ [{ launch := l, id := 0, core := core }] }
      { launch := l, wg := 0, idx := 0, width := 16, core := core, slice := 0, span := 0, block := 0, bsize := 256
        threads := (List.range 16).map (fun i => newThread i i 256 clause) }

/-! ## The exit of a thread (R337, R376) -/

/-- The Reel of a workgroup whose last team has exited: a cursor ends after its node, or at once where it waits in a WAITSEQ (R376). -/
def Reel.wind (R : Reel) : Reel :=
  let cs := (R.cursors.filter (fun c => !c.stopped && !c.inWait)).map (fun c => { c with last := true })
  if cs.isEmpty then {} else { R with cursors := cs }

/-- Has a cursor of a workgroup a translation request pending? -/
def State.cursorStalled (s : State) (l w c : Nat) : Bool := s.requests.any (fun q => q.who == .cursor l w c)

/-- Does every team of a workgroup consist of exited threads? -/
def State.wgExited (s : State) (l w : Nat) : Bool := s.teams.all (fun T => !(T.launch == l && T.wg == w) || T.live.isEmpty)

/-- What follows when a team's last thread has exited. -/
def State.teamEnds (s : State) (l w t : Nat) : State :=
  match s.team? l w t with
  | none => s
  | some T =>
    if !T.live.isEmpty then s
    else
      let W := s.wg l w
      let s1 := if t < 32 then s.nodeDone l 0 w t else s.setWg { W with spawn := W.spawn.filter (· != t - 32) }
      if s1.wgExited l w then
        let K := s1.core T.core
        if K.reel.owner == some ⟨l, w⟩ then s1.setCore { K with reel := K.reel.wind } else s1
      else s1

/-- A thread exits: its slots are released, it leaves every scope. -/
def State.exitThread (s : State) (T : Team) (th : Thread) : State :=
  let r := T.ref th
  let die := (s.launch T.launch).die
  let s1 := ((th.qslots.map (·.1)).dedup).foldl (fun a q => a.releaseSlots die r th q) s
  let s2 := s1.updThread r (fun t =>
    { t with status := .exited, entry := none, slotDone := false, hold := .none, rstack := [], bc := 0, loops := [], claim := none })
  let s3 := s2.updTeam T.launch T.wg T.idx (fun T => if T.live.isEmpty then { T with blc := 0 } else T)
  s3.teamEnds T.launch T.wg T.idx

end Sys2Proof.Machine
end

