-- ==== Sys2Proof/Machine/Cover.lean ====
section
/-!
DEFINITION. Machine/Cover.lean: the points of a coverage tile (19 R359 to R361), the reconstruction of those that are skipped
(R360, R365), audits (R366) and the controller of the patterns (R367).
-/

namespace Sys2Proof.Machine

/-! ## Points and patterns (R359, R360) -/

/-- Is a pattern code one of the table? -/
def patternOk (c : Nat) : Bool := c < 5 || (8 ≤ c && c < 12)

/-- Is a pattern 3D? -/
def pattern3d (c : Nat) : Bool := decide (8 ≤ c)

/-- The points of a tile. -/
def tilePoints (c : Nat) : Nat := if pattern3d c then 4096 else 256

/-- The local coordinates of a local index. -/
def pointX (i : Nat) : Nat := i % 16
def pointY (i : Nat) : Nat := i / 16 % 16
def pointZ (i : Nat) : Nat := i / 256 % 16

/-- A boundary point. -/
def boundaryPoint (c i : Nat) : Bool :=
  let edge := fun (k : Nat) => k == 0 || k == 15
  edge (pointX i) || edge (pointY i) || (pattern3d c && edge (pointZ i))

/-- Does the pattern compute a point? -/
def computedPoint (c i : Nat) : Bool :=
  let x := pointX i
  let y := pointY i
  let z := pointZ i
  boundaryPoint c i ||
  (match c with
   | 0 | 8 => true
   | 1 => (x + y) % 2 == 0
   | 2 => x % 2 == 0 && y % 2 == 0
   | 3 => x % 2 == 0 && y % 2 == 0 && (x + y) / 2 % 2 == 0
   | 4 => x % 4 == 0 && y % 4 == 0
   | 9 => (x + y + z) % 2 == 0
   | 10 => x % 2 == 0 && y % 2 == 0 && z % 2 == 0
   | _ => x % 4 == 0 && y % 4 == 0 && z % 4 == 0)

/-- The point sequence of a tile: local indices, with the audited ones marked (R361). -/
def pointSeq (c audit : Nat) : List (Nat × Bool) :=
  ((List.range (tilePoints c)).foldl (fun (a : List (Nat × Bool) × Nat) i =>
    if computedPoint c i then ((i, false) :: a.1, a.2)
    else if audit ≠ 0 && a.2 % audit = 0 then ((i, true) :: a.1, a.2 + 1)
    else (a.1, a.2 + 1)) ([], 0)).1.reverse

/-! ## Arithmetic (R365) -/

/-- The format in which means and interpolations of a floating type are computed. -/
def workTy (t : Ty) : Ty := if t = .f64 then .f64 else .f32

/-- An element widened exactly. -/
def widenEl (t : Ty) (b : Nat) : Nat := (fconvert (workTy t) .rne false (fval t b)).bits

/-- A result rounded once to the type. -/
def narrowEl (t : Ty) (b : Nat) : Nat := (fconvert t .rne false (fval (workTy t) b)).bits

/-- Sum, difference, product and quotient in the working format. -/
def wkAdd (w : Ty) (a b : Nat) : Nat := (faddV w .rne false (fval w a) (fval w b)).bits
def wkSub (w : Ty) (a b : Nat) : Nat := (faddV w .rne false (fval w a) (fval w b).negate).bits
def wkMul (w : Ty) (a b : Nat) : Nat := (fmulV w .rne false (fval w a) (fval w b)).bits
def wkQuot (w : Ty) (m n : Nat) : Nat := (fdivV w .rne false (.fin false m 0) (.fin false n 0)).bits

/-- The mean of floating values in the order of their stencil. -/
def meanFlt (t : Ty) (vs : List Nat) : Nat :=
  let w := workTy t
  let sum := match vs.map (widenEl t) with
    | [a, b, c] => wkAdd w (wkAdd w a b) c
    | [a, b, c, d] => wkAdd w (wkAdd w a b) (wkAdd w c d)
    | [a, b, c, d, e, f] => wkAdd w (wkAdd w (wkAdd w a b) (wkAdd w c d)) (wkAdd w e f)
    | _ => 0
  narrowEl t (fdivV w .rne false (fval w sum) (.fin false vs.length 0)).bits

/-- Lerp in the working format, u = m / n. -/
def lerpFlt (w : Ty) (a b m n : Nat) : Nat := if n = 0 then a else wkAdd w a (wkMul w (wkQuot w m n) (wkSub w b a))

/-- One axis of an interpolation: the two members of the lattice and how far the point lies from the first. -/
structure Axis where
  lo : Nat
  hi : Nat
  at_ : Nat
  deriving DecidableEq, Repr

/-- The axis of a coordinate on the lattice of a stride (R360). -/
def axisOf (stride x : Nat) : Axis :=
  if x = 15 then ⟨15, 15, 0⟩
  else if x % stride = 0 then ⟨x, x, 0⟩
  else ⟨x / stride * stride, min 15 (x / stride * stride + stride), x % stride⟩

/-- The length of an axis. -/
def Axis.len (a : Axis) : Nat := a.hi - a.lo

/-- The interpolation of eight corners, x first, then y, then z; v gives the corner at the low or high end of each axis. -/
def interpolate (t : Ty) (ax ay az : Axis) (v : Bool → Bool → Bool → Nat) : Nat :=
  match t with
  | .i32 =>
    -- the nearest corner; a tie goes to the lowest
    v (decide (ax.len < 2 * ax.at_)) (decide (ay.len < 2 * ay.at_)) (decide (az.len < 2 * az.at_))
  | .n8 =>
    let one := fun (a : Axis) (x y : Nat) => if a.len = 0 then x else x * (a.len - a.at_) + y * a.at_
    let den := max 1 ax.len * max 1 ay.len * max 1 az.len
    let row := fun (hy hz : Bool) => one ax (v false hy hz) (v true hy hz)
    let face := fun (hz : Bool) => one ay (row false hz) (row true hz)
    (2 * one az (face false) (face true) + den) / (2 * den)
  | t =>
    let w := workTy t
    let lerp := fun (a : Axis) (x y : Nat) => lerpFlt w x y a.at_ a.len
    let row := fun (hy hz : Bool) => lerp ax (widenEl t (v false hy hz)) (widenEl t (v true hy hz))
    let face := fun (hz : Bool) => lerp ay (row false hz) (row true hz)
    narrowEl t (lerp az (face false) (face true))

/-- The mean of a stencil, with its points' local indices. -/
def meanOf (t : Ty) (ps : List (Nat × Nat)) : Nat :=
  match t with
  | .i32 => (ps.foldl (fun (a : Option (Nat × Nat)) p => match a with
      | some q => if p.1 < q.1 then some p else some q
      | none => some p) none |>.map (·.2)).getD 0
  | .n8 => let s := (ps.map (·.2)).sum; (2 * s + ps.length) / (2 * ps.length)
  | t => meanFlt t (ps.map (·.2))

/-! ## Reconstruction (R360, R364) -/

/-- The axial neighbours of a point at a distance, inside the tile, in the order of R365. -/
def axial (c i dist : Nat) : List Nat :=
  let step := fun (k stride : Nat) => (if dist ≤ k then [i - dist * stride] else []) ++ (if k + dist ≤ 15 then [i + dist * stride] else [])
  step (pointX i) 1 ++ step (pointY i) 16 ++ (if pattern3d c then step (pointZ i) 256 else [])

/-- The values of a stencil, none where one is missing. -/
def stencil (get : Nat → Option Nat) : List Nat → Option (List (Nat × Nat))
  | [] => some []
  | i :: is =>
    match get i, stencil get is with
    | some v, some r => some ((i, v) :: r)
    | _, _ => none

/-- The mean of the axial neighbours. -/
def meanAt (t : Ty) (c dist : Nat) (get : Nat → Option Nat) (i : Nat) : Option Nat := (stencil get (axial c i dist)).map (meanOf t)

/-- The interpolation of a point from the lattice of a stride. -/
def lerpAt (t : Ty) (c stride : Nat) (get : Nat → Option Nat) (i : Nat) : Option Nat :=
  let ax := axisOf stride (pointX i)
  let ay := axisOf stride (pointY i)
  let az := if pattern3d c then axisOf stride (pointZ i) else ⟨0, 0, 0⟩
  let idx := fun (hx hy hz : Bool) => (if hx then ax.hi else ax.lo) + 16 * (if hy then ay.hi else ay.lo) + 256 * (if hz then az.hi else az.lo)
  let corner := fun (hx hy hz : Bool) => get (idx hx hy hz)
  let all := [false, true].flatMap (fun hz => [false, true].flatMap (fun hy => [false, true].map (fun hx => corner hx hy hz)))
  if all.any (·.isNone) then none else some (interpolate t ax ay az (fun hx hy hz => (corner hx hy hz).getD 0))

/-- Is the point one that the first stage of the quincunx of stride 2 reconstructs? -/
def stageOne (c i : Nat) : Bool := c == 3 && pointX i % 2 == 0 && pointY i % 2 == 0

/-- The value that a point would be given if it were skipped; get is the value that goes to the output of a point of the
sequence. -/
def reconstruct (t : Ty) (c audit : Nat) (get : Nat → Option Nat) (i : Nat) : Option Nat :=
  match c with
  | 1 | 9 => meanAt t c 1 get i
  | 2 | 10 => lerpAt t c 2 get i
  | 4 | 11 => lerpAt t c 4 get i
  | 3 =>
    if stageOne c i then meanAt t c 2 get i
    else
      let seq := pointSeq c audit
      lerpAt t c 2 (fun k => if seq.any (·.1 == k) || !stageOne c k then get k else meanAt t c 2 get k) i
  | _ => get i

/-- The output of a tile: each point's value, none where it stays unwritten. -/
def Cover.output (k : Cover) (t : Ty) (audit : Nat) : List (Option Nat) :=
  let seq := pointSeq k.pattern audit
  let get := fun (i : Nat) => (k.staged.find? (·.1 == i)).map (·.2.toNat)
  (List.range (tilePoints k.pattern)).map (fun i =>
    if seq.any (·.1 == i) then get i else reconstruct t k.pattern audit get i)

/-- Has every point of the sequence been stored? -/
def Cover.full (k : Cover) (audit : Nat) : Bool := (pointSeq k.pattern audit).all (fun p => k.staged.any (·.1 == p.1))

/-! ## Audits and the controller (R366, R367) -/

/-- The difference of an audit, as f64: none for equal infinities, for which the spec states no value. DESIGN CHOICE, log entry 49. -/
def auditDiff (t : Ty) (r c : Nat) : Option Nat :=
  match t with
  | .i32 | .n8 => some (if r = c then 0 else 0x3ff0000000000000)
  | t =>
    let x := fval .f64 (fconvert .f64 .rne false (fval t r)).bits
    let y := fval .f64 (fconvert .f64 .rne false (fval t c)).bits
    if x.isNan || y.isNan then some (infBits .f64)
    else
      let d := (faddV .f64 .rne false x y.negate).bits
      if (fval .f64 d).isNan then none else some (d % signBit .f64)

/-- The audits of a tile: differences in ascending local index. -/
def Cover.audits (k : Cover) (t : Ty) (audit : Nat) : List (Option Nat) :=
  let get := fun (i : Nat) => (k.staged.find? (·.1 == i)).map (·.2.toNat)
  (pointSeq k.pattern audit).filterMap (fun p =>
    if p.2 then (match reconstruct t k.pattern audit get p.1, get p.1 with
      | some r, some c => some (auditDiff t r c)
      | _, _ => none)
    else none)

/-- Takes one audit of a tile: the window's sum grows. -/
def Controller.take (C : Controller) (a : Nat × BitVec 64) : Controller :=
  { C with audits := C.audits + 1, inWin := C.inWin + 1, lastTile := a.1
           sum := BitVec.ofNat 64 (faddV .f64 .rne false (fval .f64 C.sum.toNat) (fval .f64 a.2.toNat)).bits }

/-- Takes the audits that wait, of tiles below a bound, until the window is full. -/
def Controller.drain (bound : Nat) : Nat → Controller → Controller
  | 0, C => C
  | n + 1, C =>
    match C.queue with
    | [] => C
    | a :: rest => if C.inWin < C.window && a.1 < bound then Controller.drain bound n ({ C with queue := rest }.take a) else C

/-- A full window closes: its sum is kept, and a new window starts at zero. -/
def Controller.close (C : Controller) : Controller :=
  { C with windows := C.windows + 1, sum := 0, inWin := 0, closed := C.closed ++ [(C.lastTile, C.sum)] }

/-- Takes and closes until the audits of the tiles below a bound are used up. -/
def Controller.settle (bound : Nat) : Nat → Controller → Controller
  | 0, C => C
  | n + 1, C =>
    let C1 := C.drain bound C.queue.length
    if C1.inWin = C1.window then Controller.settle bound n C1.close else C1

/-- The audits that wait are taken, and windows that they fill close: in a deterministic launch by tile, as far as all lower tiles have completed (R366,
R368). DEDUCED, log entry 48. -/
def Controller.settleNow (C : Controller) (det : Bool) : Controller :=
  if det then
    let whole := ((List.range (C.tilesDone.length + 1)).find? (fun k => !C.tilesDone.contains k)).getD 0
    { C with queue := sortBy (fun a b => decide (a.1 ≤ b.1)) C.queue }.settle whole (C.queue.length + 1)
  else C.settle (2 ^ 64) (C.queue.length + 1)

/-- The exact comparison of the mean of closed windows, given by their sums, with TARGET / den: is the mean greater, is it less? DEDUCED, log
entry 50. -/
def Controller.compare (C : Controller) (sums : List (BitVec 64)) (den : Nat) : Bool × Bool :=
  let vs := sums.map (fun b => fval .f64 b.toNat)
  match fval .f64 C.target.toNat with
  | .fin n m e =>
    if vs.any FVal.isNan then (false, false)
    else if vs.any (fun v => match v with | .inf _ => true | _ => false) then (true, false)
    else
      let q := exactSum' vs
      let t := addDy (smant n m * (C.window * sums.length : Nat)) e 0 e
      let lo := min q.2 t.2
      let a := q.1 * 2 ^ (q.2 - lo).toNat * den
      let b := t.1 * 2 ^ (t.2 - lo).toNat
      (decide (b < a), decide (a < b))
  | _ => (false, false)
where
  /-- The exact sum of finite values. -/
  exactSum' (vs : List FVal) : Int × Int :=
    vs.foldl (fun a v => match v with
      | .fin n m e => addDy a.1 a.2 (smant n m) e
      | _ => a) (0, 0)

/-- An instant: the mean of the windows closed since the last one, by audits of tiles below a bound, moves CURPAT one step at most. -/
def Controller.instant (C : Controller) (bound : Nat) : Controller :=
  let sums := (C.closed.filter (fun x => decide (x.1 < bound))).map (·.2)
  if sums.isEmpty then C
  else
    let p := if (C.compare sums 1).1 then max C.dense (C.curpat - 1)
      else if (C.compare sums 4).2 then min C.sparse (C.curpat + 1) else C.curpat
    { C with curpat := p, closed := C.closed.filter (fun x => !decide (x.1 < bound)) }

end Sys2Proof.Machine
end

