-- ==== Sys2Proof/Machine/MatSum.lean ====
section
/-!
DEFINITION. Machine/MatSum.lean: the arithmetic of matrix instructions: scales (06 R111, R122), block results and the summation
order (R124).
-/

namespace Sys2Proof.Machine

/-! ## Scales (R111) -/

/-- A scale as m * 2^e, none for the NaN of E8M0. -/
abbrev Scale := Option (Nat × Int)

/-- The scale 1 of geometry NONE. -/
def scaleOne : Scale := some (1, 0)

/-- An E8M0 code. -/
def e8m0 (c : Nat) : Scale := if c % 256 = 255 then none else some (1, (c % 256 : Nat) - 127)

/-- An E3M5 code. -/
def e3m5 (c : Nat) : Scale :=
  let x := c / 32 % 8
  if x = 0 then some (c % 32, -7) else some (32 + c % 32, (x : Int) - 8)

/-! ## One block of 16 products (R124) -/

/-- The exact product of two elements: a NaN for a NaN and for 0 * infinity. A zero takes the XOR of the signs (R116), also one that the e2m1 code 0x8
makes, which reads as +0 (R110): times a negative element it gives -0. DESIGN CHOICE, log entry 136. -/
def elemProduct (x y : FVal) : FVal :=
  match x, y with
  | .nan _, _ | _, .nan _ => .nan false
  | .inf a, v | v, .inf a => if v.isZero then .nan false else .inf (a != v.neg)
  | .fin n1 m1 e1, .fin n2 m2 e2 => .fin (n1 != n2) (m1 * m2) (e1 + e2)

/-- The exact sum of finite values. -/
def exactSum (vs : List FVal) : Int × Int :=
  vs.foldl (fun a v => match v with
    | .fin n m e => addDy a.1 a.2 (smant n m) e
    | _ => a) (0, 0)

/-- BlockResult: the sum of the products of a block, scaled and rounded once to f32. -/
def blockResult (as bs : List FVal) (sa sb : Scale) : Nat :=
  let ps := List.zipWith elemProduct as bs
  let infs := ps.filterMap (fun p => match p with | .inf n => some n | _ => none)
  match sa, sb with
  | some (m1, e1), some (m2, e2) =>
    if ps.any FVal.isNan then canonNan .f32
    else match infs with
      | n :: rest => if rest.any (· != n) || m1 * m2 = 0 then canonNan .f32 else withSign .f32 n (infBits .f32)
      | [] =>
        let q := exactSum ps
        let n := q.1 * (m1 * m2 : Nat)
        if n = 0 then (if ps.all (fun p => p.isZero && p.neg) then 0x80000000 else 0)
        else (roundDyadic .f32 .rne false false false n (q.2 + e1 + e2)).bits
  | _, _ => canonNan .f32

/-- F32Add. -/
def f32Add (a b : Nat) : Nat := (faddV .f32 .rne false (fval .f32 a) (fval .f32 b)).bits

/-- MatSum: block results accumulated in ascending order. -/
def matSum (c : Nat) (ts : List Nat) : Nat := ts.foldl f32Add c

/-! ## Elements and scales of a map (R278, R282) -/

/-- Element (r, k) of a map whose bytes are given by virtual address. -/
def MapView.element (v : MapView) (ty : Ty) (get : Nat → Nat) (r k : Nat) : FVal :=
  let p := v.elem r k
  let b := fmtBits v.fmt
  if b = 16 then fval ty (get p.1 + 256 * get (p.1 + 1)) else if b = 4 then fval ty (get p.1 / 2 ^ p.2 % 16) else fval ty (get p.1)

/-- The elements of block blk of a row. -/
def MapView.block (v : MapView) (ty : Ty) (get : Nat → Nat) (r blk : Nat) : List FVal :=
  (List.range 16).map (fun k => v.element ty get r (16 * blk + k))

/-- The scale of block blk of a row that a grid gives. -/
def MapView.gridScale (v : MapView) (get : Nat → Nat) (r blk : Nat) : Scale :=
  e8m0 (get (v.cell (v.gridCell r blk).1 (v.gridCell r blk).2))

end Sys2Proof.Machine
end

