-- ==== Sys2Proof/Machine/Mat.lean ====
section
/-!
DEFINITION. Machine/Mat.lean: the MAT class: matrix operations and the passes that perform them, the accumulator instructions,
operand maps and RowProg (15 R275 to R295; 05 R104, R105).
-/

namespace Sys2Proof.Machine

/-! ## Accumulator rows (R104, R105, R292) -/

/-- BASE of an ACCBLK or ACCWIN value. -/
def accBase (x : BitVec 32) : Nat := x.toNat % 4096

/-- LIMIT of an ACCBLK or ACCWIN value. -/
def accLimit (x : BitVec 32) : Nat := x.toNat / 2 ^ 16 % 8192

/-- The absolute row of a row that a team names. DEDUCED, log entry 95. -/
def State.accRow (s : State) (T : Team) (r : Nat) : Nat := accBase (s.wg T.launch T.wg).accblk + r

/-- Does an absolute row lie in a team's window? -/
def Team.inWindow (T : Team) (r : Nat) : Bool := decide (accBase T.accwin ≤ r) && decide (r < accLimit T.accwin)

/-- The absolute rows that a part of a pass owns. -/
def State.partRows (s : State) (p : PassPart) : List Nat :=
  (List.range 16).filterMap (fun i => if p.row ≤ i then some (accBase (s.wg p.launch p.wg).accblk + p.cb + i) else none)

/-- Does a pass of the core own a row (R105)? -/
def State.rowOwned (s : State) (core r : Nat) : Bool := (s.core core).passes.any (fun q => q.parts.any (fun p => (s.partRows p).contains r))

/-- Word column c of an absolute row. -/
def State.accAt (s : State) (core r c : Nat) : Nat := ((s.core core).accWord (r * 32 + c)).toNat

/-- Writes a word of the accumulator store. -/
def State.accPut (s : State) (core r c v : Nat) : State := s.setCore ((s.core core).setAcc (r * 32 + c) (BitVec.ofNat 32 v))

/-! ## Issuing mma and mmasc (R276, R280 to R285) -/

/-- The lanes of quarter q of a list of threads (R275). -/
def quarterOf (ths : List Thread) (q : Nat) : List Thread := ths.filter (fun th => th.lane / 8 == q)

/-- The quarters of a team. -/
def Team.quarters (T : Team) : List Nat := List.range (T.width / 8)

/-- A quarter that takes part: its team, its number and its eight lanes. -/
structure Part where
  team : Team
  q    : Nat
  lanes : List Thread
  deriving DecidableEq, Repr

/-- The quarters that take part in a matrix instruction, or 0x04E (R276). -/
def State.takePart (s : State) (c : Cur) (g : Guard) : Except Trap (List Part) :=
  let all : List (Team × Nat × List Thread) := (s.groupTeams c.entry).flatMap (fun T =>
    T.quarters.filterMap (fun q => let l := quarterOf (T.group c.entry) q; if l.isEmpty then none else some (T, q, l)))
  if all.any (fun x => x.2.2.length != 8) then .error { cause := 0x04e, sub := 0x01 }
  else if all.any (fun x => x.2.2.any (·.passes g) && x.2.2.any (fun th => !th.passes g)) then .error { cause := 0x04e, sub := 0x02 }
  else .ok ((all.filter (fun x => x.2.2.all (·.passes g))).map (fun x => ⟨x.1, x.2.1, x.2.2⟩))

/-- 0x041 of a quarter: the field that differs, with the lanes of the record (R291). -/
def Part.differs (p : Part) (tick : BitVec 64) (xs : List Field) : Option (Trap × Nat) :=
  xs.findSome? (fun x => (p.team.disagree tick p.lanes x).map (fun l => ({ cause := 0x041, sub := l.2 * 256 + x.code }, l.1)))

/-- A geometry that the opcode does not allow (R121). -/
def geomBad (ty : Ty) (bs : Option Nat) (geom : Nat) : Bool :=
  match bs with
  | none => geom != 0
  | some _ => !(geom == 1 || geom == 3 || geom == 4 || (geom == 2 && ty == .e2m1))

/-- The value that a part names in an operand of 32 bits. -/
def Part.value (p : Part) (tick : BitVec 64) (x : Src) : Nat :=
  match p.lanes with
  | [] => 0
  | th :: _ => readSrc tick .int 32 p.team th x

/-- The low register of a source of two. -/
def lowHalf (tick : BitVec 64) (p : Part) (w : Nat) (c : Src) : Nat :=
  match p.lanes with
  | [] => 0
  | th :: _ => readSrc tick .int w p.team th c % 2 ^ 32

/-- The faults of steps 4 and 5 of R280 for a part, and the alignment of the B scales (R282), by the step at which they are taken; none
where the part passes a step. DEDUCED, log entry 94. -/
def State.partFault (s : State) (ty : Ty) (bs : Option Nat) (k ma mb : Nat) (cb ao : Nat) (T : Team) (step : Nat) : Option Trap :=
  let a := mapView (T.maps.getD ma 0)
  let b := mapView (T.maps.getD mb 0)
  let extent := decide (a.rows < ao + 16) || decide (b.rows < 32) || (match bs with
    | none => a.klen != b.klen
    | some n => decide (a.klen < 32 * n + 32) || decide (b.klen < 32 * n + 32))
  match step with
  | 0 => if a.fmt != ty.code || b.fmt != ty.code || geomBad ty bs a.geom || geomBad ty bs b.geom then some { cause := 0x04c, sub := 0x02 } else none
  | 1 => if extent then some { cause := 0x04c, sub := 0x03 } else none
  | 2 => if (List.range 16).all (fun i => T.inWindow (s.accRow T (cb + i))) then none else some { cause := 0x043, sub := 0x01 }
  | _ =>
    if bs.isSome && b.geom = 1 && (T.sReg (8 + 2 * k)).toNat % 64 ≠ 0 then
      some { cause := 0x084, addr := T.sReg (9 + 2 * k) ++ T.sReg (8 + 2 * k) }
    else none

/-- The tile rows of R66 for a map: a fault, or whether to wait. -/
def State.tileUse (s : State) (T : Team) (v : MapView) : Except Trap Bool :=
  if !v.tilev then .ok false
  else match s.tileOf T v.tile with
    | .error x => .error x
    | .ok (_, c, n) =>
      let e := s.tile c n
      if !tileV e || tileState e = 0 then .error { cause := 0x087, sub := 0x01 } else .ok (tileState e != 2)

/-- The agent as which the matrix pipes of a team's core read: they use the TLB of the die (R43). -/
def State.matAgent (s : State) (T : Team) : Agent := { s.agent T with l1 := false }

/-- The bytes that a part reads, as the issuing core's view sees them now: those that translate, that no engine owns and whose
seals are right (R286); and where the bytes that translate lie. DEDUCED, log entry 96. -/
def State.seenBytes (s : State) (T : Team) (keys : List Nat) : State × ByteMap × List (Nat × Nat) :=
  keys.foldl (fun (acc : State × ByteMap × List (Nat × Nat)) key =>
    let (s, m, locs) := acc
    match s.translate (s.matAgent T) (BitVec.ofNat 64 (key % 2 ^ 64)) .rd with
    | (s1, .ok loc pa sh) =>
      let h := s1.holding loc pa sh
      let c := classAt loc pa
      let ok := s1.reachAs loc sh = .yes && !s1.engineHolds loc 1 false && (!s1.sealBad loc || s1.holds T.core T.launch T.wg h loc)
        && !(9 ≤ c && c ≤ 0xb) && !s1.slotDamaged T.core T.launch T.wg loc
      let s2 := if ok && !s1.holds T.core T.launch T.wg h loc then s1.touchL2 (dieOf T.core) (sectorOf loc) else s1
      (s2, if ok then ByteMap.put m key (s1.viewByte T.core T.launch T.wg h loc) else m, (loc, 1) :: locs)
    | (s1, _) => (s1, m, locs)) (s, [], [])

/-- Does a new operation join the pass before it (R285)? -/
def Pass.merges (p : Pass) (new : List PassPart) : Bool :=
  !p.started && !p.done && p.parts.length == new.length && p.parts.all (·.row == 0)
    && (p.parts.zip new).all (fun x =>
      let a := x.1
      let b := x.2
      a.launch == b.launch && a.wg == b.wg && a.team == b.team && a.quarter == b.quarter && a.cb == b.cb && a.ao == b.ao
        && a.ma == b.ma && a.mb == b.mb && a.bscale == b.bscale && !a.bs.isEmpty && decide (a.bs.length < 4)
        && b.bs == [a.bs.getLastD 0 + 1]
        && (match a.instr, b.instr with
          | .mmasc _ t _ k _ _ _ _, .mmasc _ t' _ k' _ _ _ _ => t == t' && k == k'
          | _, _ => false))

/-- The bytes of issue 0, as those of issue k. -/
def ByteMap.asIssue (m : ByteMap) (k : Nat) : ByteMap := m.map (fun c => (k * 2 ^ 64 + c.1, c.2))

/-- The merged pass. -/
def Pass.merge (p : Pass) (new : List PassPart) : Pass :=
  { p with parts := (p.parts.zip new).map (fun x =>
      { x.1 with bs := x.1.bs ++ x.2.bs, ascales := x.1.ascales ++ x.2.ascales
                 seen := x.1.seen ++ x.2.seen.asIssue x.1.bs.length
                 locs := x.1.locs ++ x.2.locs }) }

/-- Puts the parts of one team into the matrix queue: into the last pass where they merge with it, else as a pass of their
own. DEDUCED, log entry 97. -/
def State.enqueue (s : State) (core : Nat) (parts : List PassPart) : State :=
  let K := s.core core
  match K.passes.getLast? with
  | some l =>
    if l.merges parts then s.setCore { K with passes := K.passes.dropLast ++ [l.merge parts] }
    else s.setCore { K with passes := K.passes ++ [{ parts := parts }] }
  | none => s.setCore { K with passes := [{ parts := parts }] }

/-- The bytes of the B operand: its elements and its scales (R282), by issue. -/
def PassPart.bBytes (p : PassPart) : List Nat :=
  let b := mapView p.mb
  (issueBlocks p.bs b).zipIdx.flatMap (fun x => issueKeys x.2 (b.bytes 0 32 x.1 ++ (if b.geom = 1 then [(p.bscale.toNat, 64)] else [])))

/-- The bytes of row i of the A operand, by issue. -/
def PassPart.aBytes (p : PassPart) (i : Nat) : List Nat :=
  let a := mapView p.ma
  (issueBlocks p.bs a).zipIdx.flatMap (fun x => issueKeys x.2 (a.bytes (p.ao + i) 1 x.1))

/-- Every byte that a part reads, by issue. -/
def PassPart.keys (p : PassPart) : List Nat := (List.range 16).flatMap p.aBytes ++ p.bBytes

/-- The part of a pass that a quarter forms. -/
def State.mkPart (s : State) (i : Instr) (bs : Option Nat) (k ma mb : Nat) (x c : Src) (w : Nat) (p : Part) (slot : Nat) : State × PassPart :=
  let T := p.team
  let q : PassPart :=
    { launch := T.launch, wg := T.wg, team := T.idx, quarter := p.q, instr := i, bs := bs.toList
      cb := p.value (s.tickOf T) x, ao := lowHalf (s.tickOf T) p w c, row := 0
      bscale := T.sReg (9 + 2 * k) ++ T.sReg (8 + 2 * k)
      ascales := if bs.isSome then [p.lanes.map (fun th => BitVec.ofNat 32 (readSrc (s.tickOf T) .int w T th c / 2 ^ 32))] else []
      ma := T.maps.getD ma 0, mb := T.maps.getD mb 0, born := T.born
      clause := (p.lanes.head?.map (·.clause)).getD 0, slot := slot, since := s.slotSince }
  let (s1, m, locs) := s.seenBytes T q.keys
  (s1, { q with seen := m, locs := locs })

/-- The parts of the quarters of a team. -/
def State.mkParts (s : State) (mk : State → Part → State × PassPart) : List Part → State × List PassPart
  | [] => (s, [])
  | p :: ps =>
    let (s1, q) := mk s p
    let (s2, qs) := State.mkParts s1 mk ps
    (s2, q :: qs)

/-- What a lane reads for an operation: its own operands, and the scale pair of a NATIVE B (R282). -/
def matFields (bs : Option Nat) (k : Nat) (x c : Src) (mb : BitVec 512) : List Field :=
  [⟨1, x, 32⟩, ⟨4, c, if bs.isSome then 64 else 32⟩] ++ (if bs.isSome && (mapView mb).geom = 1 then [⟨3, .s (8 + 2 * k), 64⟩] else [])

/-- Lanes that read a register with an uncorrectable error take their machine check (R400). Their quarters do no operation: what is left of them is
done with the slot, and the others go on. DEDUCED, log entry 122. -/
def State.matrixEcc (s : State) (c : Cur) (bs : Option Nat) (k : Nat) (x y : Src) (mb : Nat) (ps : List Part) : State × List Part :=
  if ps.all (fun p => p.lanes.all (fun th => (th.eccTrap p.team (matFields bs k x y (p.team.maps.getD mb 0))).isNone)) then (s, ps) else
  let s1 := ps.foldl (fun a p => p.lanes.foldl (fun a th =>
    match th.eccTrap p.team (matFields bs k x y (p.team.maps.getD mb 0)) with
    | some t => a.performLane s c (fun s _ _ => .trap s t) (p.team.ref th)
    | none => a) a) s
  let whole := fun (p : Part) => p.lanes.all (fun th => ((s1.thread? (p.team.ref th)).map (·.2.issuing c.entry)).getD false)
  ((ps.filter (fun p => !whole p)).foldl (fun a p => p.lanes.foldl (fun a th =>
    a.updThread (p.team.ref th) (fun t => if t.issuing c.entry then { t with slotDone := true, hold := .none } else t)) a) s1, ps.filter whole)

/-- mma and mmasc. -/
def State.matrixOp (s : State) (i : Instr) (g : Guard) (ty : Ty) (bs : Option Nat) (k : Nat) (x : Src) (ma mb : Nat) (c : Src) : State :=
  let w := if bs.isSome then 64 else 32
  s.checked g (srcRegs 32 x ++ srcRegs w c) [] (fun s =>
    match s.cur with
    | none => s
    | some cu =>
      match s.takePart cu g with
      | .error t => s.groupFault t
      | .ok ps =>
        let low : Src := match c with | .v n => .v n | .w n => .w n | c => c
        let (s, ps) := s.matrixEcc cu bs k x c mb ps
        match ps.findSome? (fun p => p.differs (s.tickOf p.team) [⟨1, x, 32⟩, ⟨4, low, 32⟩]) with
        | some (t, lane) => s.groupFaultAt t lane
        | none =>
        if ps.any (fun p => s.opmapPending p.team ma || s.opmapPending p.team mb) then s.markGroup cu g (.at 6)
        else match [0, 1, 2, 3].findSome? (fun n => ps.findSome? (fun p =>
          s.partFault ty bs k ma mb (p.value (s.tickOf p.team) x) (lowHalf (s.tickOf p.team) p w c) p.team n)) with
        | some t => s.groupFault t
        | none =>
        match ps.foldl (fun (r : Except Trap Bool) p => do
            let a ← r
            let b ← s.tileUse p.team (mapView (p.team.maps.getD ma 0))
            let c ← s.tileUse p.team (mapView (p.team.maps.getD mb 0))
            pure (a || b || c)) (.ok false) with
        | .error t => s.groupFault t
        | .ok true => s.markGroup cu g (.at 5)
        | .ok false =>
          let (s1, byTeam) := (s.groupTeams cu.entry).foldl (fun (acc : State × List (Nat × List PassPart)) T =>
            match ps.filter (fun p => p.team.is T.launch T.wg T.idx) with
            | [] => acc
            | l =>
              let (a, qs) := acc.1.mkParts (fun s p => s.mkPart i bs k ma mb x c w p cu.slot) l
              (a, acc.2 ++ [(T.core, qs)])) (s, [])
          let room := byTeam.all (fun t => let K := s.core t.1
            decide (K.passes.length + byTeam.length ≤ 16) || (byTeam.length == 1 && (K.passes.getLast?.map (·.merges t.2)).getD false))
          if room then (byTeam.foldl (fun a t => a.enqueue t.1 t.2) s1).markGroup cu g .passed else s.markGroup cu g (.at 6))

def execMma (g : Guard) (ty : Ty) (x : Src) (ma mb : Nat) (c : Src) (s : State) : Host.Outcome State Fault Refusal :=
  .next (s.matrixOp (.mma g ty x ma mb c) g ty none 0 x ma mb c)
def execMmasc (g : Guard) (ty : Ty) (bs k : Nat) (x : Src) (ma mb : Nat) (c : Src) (s : State) : Host.Outcome State Fault Refusal :=
  .next (s.matrixOp (.mmasc g ty bs k x ma mb c) g ty (some bs) k x ma mb c)

/-! ## Performing a pass (R280 to R287) -/

/-- The element type of an operation. -/
def PassPart.ty (p : PassPart) : Ty :=
  match p.instr with
  | .mma _ t _ _ _ _ => t
  | .mmasc _ t _ _ _ _ _ _ => t
  | _ => .bf16

/-- What reading a byte for a pass gives. -/
inductive PassRead where
  | ok (s : State) (b : Byte)
  | stop (s : State) (x : Trap)
  | stall (s : State) (va : BitVec 64) (cause : Nat)
  | wait (s : State)
  deriving DecidableEq, Repr

/-- Reads one byte for a part of a pass (R286, R287). -/
def State.passByte (s : State) (T : Team) (p : PassPart) (key : Nat) : PassRead :=
  let v : BitVec 64 := BitVec.ofNat 64 (key % 2 ^ 64)
  match ByteMap.get? p.seen key with
  | some b => .ok s b
  | none =>
    match s.translate (s.matAgent T) v .rd with
    | (s1, .trap x) => .stop s1 x
    | (s1, .miss c) => .stall s1 v c
    | (s1, .wait) => .wait s1
    | (s1, .ok loc pa sh) =>
      let h := s1.holding loc pa sh
      if 9 ≤ classAt loc pa ∧ classAt loc pa ≤ 0xb then
        if placeAligned loc 1 then .ok s1 (BitVec.ofNat 8 (s1.placeLoad loc 1)) else .stop s1 { cause := 0x084, addr := v, paddr := BitVec.ofNat 64 pa }
      else match s1.reachAs loc sh with
        | .failed n => .stop s1 { cause := 0x1e2, sub := n, addr := v, paddr := BitVec.ofNat 64 pa }
        | .wait => .wait s1
        | .yes =>
          if s1.engineHolds loc 1 false && !s1.ownBytes T.core T.launch loc 1 then .wait s1
          else if (s1.sealBad loc && !s1.holds T.core T.launch T.wg h loc) || s1.slotDamaged T.core T.launch T.wg loc then
            .stop s1 (s1.sealTrap T.core loc pa v)
          else
            .ok (if s1.holds T.core T.launch T.wg h loc then s1 else s1.touchL2 (dieOf T.core) (sectorOf loc)) (s1.viewByte T.core T.launch T.wg h loc)

/-- What reading a list of bytes gives: all of them by issue and virtual address, or how it ends. -/
inductive PassBytes where
  | ok (s : State) (m : ByteMap)
  | stop (s : State) (x : Trap)
  | stall (s : State) (va : BitVec 64) (cause : Nat)
  | wait (s : State)
  deriving DecidableEq, Repr

/-- Reads bytes for a part of a pass. -/
def State.passBytes (s : State) (T : Team) (p : PassPart) : List Nat → ByteMap → PassBytes
  | [], m => .ok s m
  | key :: keys, m =>
    match s.passByte T p key with
    | .ok s1 b => State.passBytes s1 T p keys (ByteMap.put m key b)
    | .stop s1 x => .stop s1 x
    | .stall s1 v c => .stall s1 v c
    | .wait s1 => .wait s1

/-- A byte of a map of bytes, as a number: that of issue k at an address. -/
def byteAt (m : ByteMap) (k va : Nat) : Nat := ((ByteMap.get? m (k * 2 ^ 64 + va)).getD 0).toNat

/-- The issue to which the block at a place among those summed belongs: two blocks for each byte select. -/
def PassPart.issueOf (p : PassPart) (idx : Nat) : Nat := if p.bs.isEmpty then 0 else idx / 2

/-- The scale of block n of row i of A: one of the registers' bytes for NATIVE (R282). idx is the place of the block among those
summed. -/
def PassPart.aScale (p : PassPart) (m : ByteMap) (i blk idx : Nat) : Scale :=
  let a := mapView p.ma
  match a.geom with
  | 0 => scaleOne
  | 1 => e3m5 (((p.ascales.getD (idx / 2) []).getD (i / 2) 0).toNat / 2 ^ (16 * (i % 2) + 8 * (idx % 2)) % 256)
  | _ => a.gridScale (byteAt m (p.issueOf idx)) (p.ao + i) blk

/-- The scale of block n of column j of B. -/
def PassPart.bScale (p : PassPart) (m : ByteMap) (j blk idx : Nat) : Scale :=
  let b := mapView p.mb
  match b.geom with
  | 0 => scaleOne
  | 1 => e3m5 (byteAt m (p.issueOf idx) (p.bscale.toNat + 32 * (idx % 2) + j))
  | _ => b.gridScale (byteAt m (p.issueOf idx)) j blk

/-- Row i of a part: the new words of its 32 columns. -/
def PassPart.rowWords (p : PassPart) (old : Nat → Nat) (ma mb : ByteMap) (i : Nat) : List Nat :=
  let a := mapView p.ma
  let b := mapView p.mb
  let blocks := (passBlocks p.bs a).zipIdx
  (List.range 32).map (fun j => matSum (old j) (blocks.map (fun x =>
    blockResult (a.block p.ty (byteAt ma (p.issueOf x.2)) (p.ao + i) x.1) (b.block p.ty (byteAt mb (p.issueOf x.2)) j x.1)
      (p.aScale ma i x.1 x.2) (p.bScale mb j x.1 x.2))))

/-- How a pass, or a row of it, ends. -/
inductive PassOut where
  | ok (s : State)
  | stop (s : State) (row quarter : Nat) (x : Trap)
  | stall (s : State) (row quarter : Nat) (va : BitVec 64) (cause : Nat)
  | wait (s : State) (row : Nat)
  deriving DecidableEq, Repr

/-- Reads row i of every part of a pass. -/
def State.rowReads (s : State) (T : Team) (i : Nat) : List PassPart → List (PassPart × ByteMap) → PassOut ⊕ (State × List (PassPart × ByteMap))
  | [], acc => .inr (s, acc.reverse)
  | p :: ps, acc =>
    if i < p.row then State.rowReads s T i ps acc
    else match s.passBytes T p (p.aBytes i) [] with
      | .ok s1 m => State.rowReads s1 T i ps ((p, m) :: acc)
      | .stop s1 x => .inl (.stop s1 i p.quarter x)
      | .stall s1 v c => .inl (.stall s1 i p.quarter v c)
      | .wait s1 => .inl (.wait s1 i)

/-- Writes row i of the parts read. -/
def State.rowWrites (s : State) (core i : Nat) (mb : ByteMap) (ps : List (PassPart × ByteMap)) : State :=
  ps.foldl (fun a x =>
    let r := accBase (a.wg x.1.launch x.1.wg).accblk + x.1.cb + i
    ((x.1.rowWords (a.accAt core r) x.2 mb i).zipIdx).foldl (fun a w => a.accPut core r w.2 w.1) a) s

/-- Performs rows in ascending order. An accumulator row with an uncorrectable error stops the pass there. -/
def State.passRows (s : State) (core : Nat) (T : Team) (mb : ByteMap) (ps : List PassPart) : List Nat → PassOut
  | [] => .ok s
  | i :: is =>
    match ps.find? (fun p => decide (p.row ≤ i) && (s.core core).eccRows.contains (accBase (s.wg p.launch p.wg).accblk + p.cb + i)) with
    | some p => .stop s i p.quarter { cause := 0x1e0 }
    | none =>
      match s.rowReads T i ps [] with
      | .inl r => r
      | .inr (s1, rs) => State.passRows (s1.rowWrites core i mb rs) core T mb ps is

/-- The first row that some part has still to do, and the lowest quarter. -/
def passRow0 (ps : List PassPart) : Nat := ps.foldl (fun r p => min r p.row) 16
def passQuarter0 (ps : List PassPart) : Nat := ps.foldl (fun r p => min r p.quarter) 8

/-- Performs a whole pass: its B operand is read first, since every row needs it (R287). -/
def State.runPass (s : State) (core : Nat) (ps : List PassPart) : PassOut :=
  match ps with
  | [] => .ok s
  | p :: _ =>
    match s.team? p.launch p.wg p.team with
    | none => .ok s
    | some T =>
      match s.passBytes T p p.bBytes [] with
      | .stop s1 x => .stop s1 (passRow0 ps) (passQuarter0 ps) x
      | .stall s1 v c => .stall s1 (passRow0 ps) (passQuarter0 ps) v c
      | .wait s1 => .wait s1 (passRow0 ps)
      | .ok s1 mb => s1.passRows core T mb ps (List.range 16)

/-- The sub-code of the fault at which a pass stops: the quarter and the row (R287); a 0x085 keeps the check that failed (R454), and an
accumulator row with an uncorrectable error has 0x3FF (R400). DEDUCED, log entry 122. -/
def stopSub (x : Trap) (row quarter : Nat) : Nat :=
  if x.cause = 0x085 then x.sub else if x.cause = 0x1e0 then 0x3ff else quarter * 256 + row

/-- A pass stops at a row: its quarters keep the operation, and their threads take the record as a deferred fault (R287). -/
def State.stopPass (s : State) (core : Nat) (ps : List PassPart) (row quarter : Nat) (x : Trap) : State :=
  let K := s.core core
  let s0 := s.setCore { K with passes := K.passes.drop 1 }
  match ps with
  | [] => s0
  | p0 :: _ =>
    s0.updTeam p0.launch p0.wg p0.team (fun T =>
      if T.born != p0.born then T else
      let th := (T.threads.find? (fun th => th.lane / 8 == quarter)).getD { lane := 8 * quarter }
      let r := { s.deferred T th p0.clause p0.slot { x with sub := stopSub x row quarter } with matrix := true }
      let T1 := ps.foldl (fun T p =>
        let at_ := max row p.row
        let first := !(T.stoppedOps.any (·.quarter == p.quarter))
        let op : StoppedOp :=
          { quarter := p.quarter, instr := p.instr, bs := p.bs, cb := p.cb, ao := p.ao, bscale := p.bscale, ascales := p.ascales
            ma := p.ma, mb := p.mb, row := at_, clause := p.clause, slot := p.slot, since := p.since }
        let T := { T with stoppedOps := T.stoppedOps ++ [op] }
        if first then T.setRowProg p.quarter (rowProgVal true at_) else T) T
      T1.mapThreads (fun th =>
        if th.status != .exited && ps.any (fun p => p.quarter == th.lane / 8) then th.deferFault r else th))

/-- A stalled or waiting pass keeps the rows it has done. -/
def State.keepPass (s : State) (core : Nat) (p : Pass) (row : Nat) : State :=
  let K := s.core core
  let ps := p.parts.map (fun q => { q with row := max row q.row })
  let s1 := s.setCore { K with passes := { p with parts := ps, started := true } :: K.passes.drop 1 }
  ps.foldl (fun a q => a.updTeam q.launch q.wg q.team (fun T =>
    if T.born != q.born || T.stoppedOps.any (·.quarter == q.quarter) then T else T.setRowProg q.quarter (rowProgVal false q.row))) s1

/-- Does the front pass of a core wait for a translation? -/
def State.passStalled (s : State) (core : Nat) : Bool :=
  s.requests.any (fun q => q.core == core && (match q.who with | .pass _ _ _ _ => true | _ => false))

/-- MATRIX_PASS: the front pass of a core's queue is performed, as far as its operands can be read (R284 to R287). -/
def State.matrixStep (s : State) (core : Nat) : State :=
  match (s.core core).passes with
  | [] => s
  | p :: _ =>
    if p.done || s.passStalled core then s
    else match s.runPass core p.parts with
      | .ok s1 =>
        let K := s1.core core
        s1.setCore { K with passes := { p with started := true, done := true } :: K.passes.drop 1 }
      | .stop s1 row q x => s1.stopPass core p.parts row q x
      | .wait s1 row => s1.keepPass core p row
      | .stall s1 row q va cause =>
        match p.parts with
        | [] => s1
        | p0 :: _ =>
          let s2 := s1.keepPass core p row
          { s2 with requests := s2.requests ++
              [{ core := core, tick := s.tick, asid := (s.launch p0.launch).asid, page := va &&& ~~~(0xfff#64), cause := cause
                 who := .pass p0.launch p0.wg row q }] }

def execMatrixPass (core : Nat) (s : State) : Host.Outcome State Fault Refusal := .next (s.matrixStep core)

/-- MATRIX_PASS_COMPLETE: the last accumulation releases the rows (R280, R105). -/
def State.matrixEnd (s : State) (core : Nat) : State :=
  let K := s.core core
  match K.passes with
  | [] => s
  | p :: rest =>
    if p.done then
      p.parts.foldl (fun a q => a.updTeam q.launch q.wg q.team (fun T =>
        if T.born != q.born || T.stoppedOps.any (·.quarter == q.quarter) then T else T.setRowProg q.quarter 0)) (s.setCore { K with passes := rest })
    else s

def execMatrixPassComplete (core : Nat) (s : State) : Host.Outcome State Fault Refusal := .next (s.matrixEnd core)

/-! ## The exits from a matrix fault (R288, R289) -/

/-- A stopped operation as a part of a new pass. -/
def StoppedOp.part (o : StoppedOp) (T : Team) : PassPart :=
  { launch := T.launch, wg := T.wg, team := T.idx, quarter := o.quarter, instr := o.instr, bs := o.bs, cb := o.cb, ao := o.ao
    row := o.row, bscale := o.bscale, ascales := o.ascales, ma := o.ma, mb := o.mb, born := T.born, clause := o.clause, slot := o.slot
    since := o.since }

/-- Must the retry of the stopped operation of a record wait for room in the matrix queue (R284, R288)? -/
def State.retryBlocked (s : State) (T : Team) (r : Record) : Bool :=
  r.matrix && decide (16 ≤ (s.core T.core).passes.length) && T.quarters.any (fun q => (T.stoppedOf r q).isSome)

/-- Retry: the operation is performed again from its row, for every quarter that keeps it, as a new pass; what one slot issued at another tick is
another operation. Skip: it is discarded. -/
def State.leaveMatrix (s : State) (T : Team) (o : StoppedOp) (retry : Bool) : State :=
  let same := fun (x : StoppedOp) => x.clause == o.clause && x.slot == o.slot && x.since == o.since
  let gone := fun (x : StoppedOp) => if retry then same x else same x && x.quarter == o.quarter
  let ops := T.stoppedOps.filter gone
  let s1 := s.updTeam T.launch T.wg T.idx (fun T =>
    (ops.map (·.quarter)).foldl (fun T q => T.nextStopped q (if retry then 0 else o.row)) { T with stoppedOps := T.stoppedOps.filter (fun x => !gone x) })
  if retry then
    let K := s1.core T.core
    s1.setCore { K with passes := K.passes ++ [{ parts := ops.map (·.part T) }] }
  else s1

/-! ## Operand maps (R279) -/

def execOpmap (g : Guard) (m : Nat) (a : Src) (s : State) : Host.Outcome State Fault Refusal :=
  .next (s.teamLane g [⟨2, a, 64⟩] [⟨2, a, 64⟩] (fun s T th =>
    s.issueAccess T th { kind := .opmap m, va := readBv (s.tickOf T) .int 64 T th a, n := 64 }))

/-! ## The accumulator instructions (R292 to R294) -/

/-- accwin: a window with its end at or below its start is empty. DEDUCED, log entry 98. -/
def execAccwin (g : Guard) (a b : Src) (s : State) : Host.Outcome State Fault Refusal :=
  .next (s.checked g (srcRegs 32 a ++ srcRegs 32 b) [⟨2, a, 32⟩, ⟨3, b, 32⟩] (fun s =>
    let val := fun (T : Team) (x : Src) => ((s.lanesOf T g).head?.map (fun th => readSrc (s.tickOf T) .int 32 T th x)).getD 0
    let blk := fun (T : Team) => (s.wg T.launch T.wg).accblk
    match s.curTeams.find? (fun T => decide (accLimit (blk T) - accBase (blk T) < val T b)) with
    | some _ => s.groupFault { cause := 0x043, sub := 0x02 }
    | none => s.afterEcc g [⟨2, a, 32⟩, ⟨3, b, 32⟩] (fun s => s.perTeam g (fun s T _ =>
        let base := accBase (blk T) + val T a
        let limit := accBase (blk T) + val T b
        let lo := min base 4095
        let hi := if val T b ≤ val T a then min limit lo else limit
        s.updTeam T.launch T.wg T.idx (fun T => { T with accwin := BitVec.ofNat 32 (hi * 2 ^ 16 + lo) })))))

/-- acczero. -/
def execAcczero (g : Guard) (a b : Src) (s : State) : Host.Outcome State Fault Refusal :=
  .next (s.checked g (srcRegs 32 a ++ srcRegs 32 b) [⟨2, a, 32⟩, ⟨3, b, 32⟩] (fun s =>
    match s.cur with
    | none => s
    | some c =>
      let rows := fun (T : Team) =>
        match s.lanesOf T g with
        | [] => (0, 0)
        | th :: _ => (s.accRow T (readSrc (s.tickOf T) .int 32 T th a), readSrc (s.tickOf T) .int 32 T th b)
      let outside := fun (T : Team) => let r := rows T
        r.2 != 0 && !(decide (accBase T.accwin ≤ r.1) && decide (r.1 + r.2 ≤ accLimit T.accwin))
      if s.curTeams.any outside then s.groupFault { cause := 0x043, sub := 0x01 }
      else s.afterEcc g [⟨2, a, 32⟩, ⟨3, b, 32⟩] (fun s => s.perTeam g (fun s T _ =>
        let r := rows T
        let rs := (List.range (min r.2 4096)).map (r.1 + ·)
        if rs.any (s.rowOwned T.core) then s.markTeam T c.entry g (.at 6)
        else (rs.foldl (fun a k => (List.range 32).foldl (fun a j => a.accPut T.core k j 0) a) s).markTeam T c.entry g .passed))))

/-- The row and the column of a lane's accumulator access: a fault, a wait, or the place (R293). -/
def State.accPlace (s : State) (T : Team) (th : Thread) (a b : Src) : Except Trap (Option (Nat × Nat)) :=
  let r := s.accRow T (readSrc (s.tickOf T) .int 32 T th a)
  let c := readSrc (s.tickOf T) .int 32 T th b
  if !T.inWindow r then .error { cause := 0x043, sub := 0x01 }
  else if 31 < c then .error { cause := 0x043, sub := 0x03 }
  else if s.rowOwned T.core r then .ok none
  else .ok (some (r, c))

/-- accld and accld.band: an outstanding result made from the element (R99). -/
def State.accLoad (s : State) (g : Guard) (d : Dst) (xs : List Field) (a b : Src) (f : Team → Thread → Nat → Nat) : State :=
  s.issueWith g d 32 xs [] (fun T th =>
    match s.accPlace T th a b with
    | .error x => .trap th x
    | .ok none => .wait th 6
    | .ok (some (r, c)) =>
      if (s.core T.core).eccRows.contains r then .trap th { cause := 0x1e0, sub := 0x3ff }
      else .done (th.await d 32 (f T th (s.accAt T.core r c)) .acc th.clause s.slotNow s.slotSince) [])

/-- The f32 bits, or the element rounded to bf16. -/
def execAccld (g : Guard) (ty : Ty) (d : Dst) (a b : Src) (s : State) : Host.Outcome State Fault Refusal :=
  .next (s.accLoad g d [⟨2, a, 32⟩, ⟨3, b, 32⟩] a b (fun _ _ x =>
    if ty = .bf16 then (fconvert .bf16 .rne false (fval .f32 x)).bits else x))
def execAccldBand (g : Guard) (d : Dst) (a b c : Src) (s : State) : Host.Outcome State Fault Refusal :=
  .next (s.accLoad g d [⟨2, a, 32⟩, ⟨3, b, 32⟩, ⟨4, c, 32⟩] a b (fun T th x =>
    (fmulV .f32 .rne false (fval .f32 x) (fval .bf16 (readFlt (s.tickOf T) .bf16 T th c))).bits))

/-- accst. -/
def execAccst (g : Guard) (x a b : Src) (s : State) : Host.Outcome State Fault Refusal :=
  .next (s.issueMem g .discard 32 [⟨1, x, 32⟩, ⟨2, a, 32⟩, ⟨3, b, 32⟩] [] (fun s T th =>
    match s.accPlace T th a b with
    | .error t => .trap s t
    | .ok none => .wait s 6
    | .ok (some (r, c)) => .done (s.accPut T.core r c (readSrc (s.tickOf T) (.flt .f32) 32 T th x))))

/-- Has every matrix operation of a quarter made its last accumulation (R165)? -/
def State.matrixIdle (s : State) (T : Team) (q : Nat) : Bool :=
  (s.core T.core).passes.all (fun p => p.parts.all (fun x => !(x.launch == T.launch && x.wg == T.wg && x.team == T.idx && x.born == T.born && x.quarter == q)))

/-- mwait. -/
def execMwait (g : Guard) (s : State) : Host.Outcome State Fault Refusal :=
  .next (s.perLane g [] (fun T th => if s.matrixIdle T (th.lane / 8) then .done th [] else .wait th 6))

/-! ## mmaprog (R289) -/

/-- The physical core of a die-local logical core of a die. -/
def State.localCore (s : State) (die n : Nat) : Option Nat := s.meshCore die n

/-- The team that a target word names: die-local logical core, workgroup slot, team index. -/
def State.targetTeam (s : State) (die x : Nat) : Option Team :=
  if x / 2 ^ 29 ≠ 0 ∨ x / 2 ^ 7 % 2 ^ 9 ≠ 0 then none
  else match s.localCore die (x / 2 ^ 24 % 32) with
    | none => none
    | some core => s.teams.find? (fun T => T.core == core && (s.wg T.launch T.wg).slot == x / 2 ^ 16 % 256 && T.idx == x % 128)

/-- RowProg as it stands at the team's last clause boundary. -/
def Team.rowProgNow (T : Team) (q : Nat) : BitVec 32 :=
  (if T.threads.any (fun th => th.inside && th.status != .exited) then T.rowSeen else T.rowprog).getD q 0

/-- 0x04E: a lane names a quarter that its target team has not. -/
def State.quarterBad (s : State) (g : Guard) (q : Nat) (a : Src) : Bool :=
  match s.cur with
  | none => false
  | some c => (s.executing c.entry g).any (fun x =>
      match s.targetTeam (dieOf x.1.core) (readSrc (s.tickOf x.1) .int 32 x.1 x.2 a) with
      | some T => decide (T.width / 8 ≤ q)
      | none => false)

def execMmaprogRd (g : Guard) (q : Nat) (d : Dst) (a : Src) (s : State) : Host.Outcome State Fault Refusal :=
  .next (s.checked g (dstRegs 32 d ++ srcRegs 32 a) (uniformFor d [⟨2, a, 32⟩]) (fun s =>
    if s.quarterBad g q a then s.groupFault { cause := 0x04e, sub := 0x03 }
    else s.perLane g (sDest d 32) (withEcc [⟨2, a, 32⟩] (fun T th =>
      let v := ((s.targetTeam (dieOf T.core) (readSrc (s.tickOf T) .int 32 T th a)).map (·.rowProgNow q)).getD 0
      laneWrite th d 32 v.toNat))))

/-- A write of RowProg of a team that does not run. DEDUCED, log entry 99. -/
def State.rowProgPut (s : State) (T : Team) (q : Nat) (v : BitVec 32) : State :=
  match T.stoppedOps.find? (·.quarter == q) with
  | none => s
  | some o =>
    if !(T.rowprog.getD q 0).getLsbD 31 || v.toNat / 32 % 2 ^ 26 ≠ 0 || 16 < v.toNat % 32 then s
    else if v.getLsbD 31 then
      s.updTeam T.launch T.wg T.idx (fun T =>
        { T.setRowProg q v with
          stoppedOps := T.stoppedOps.map (fun x => if x == o then { x with row := v.toNat % 32 } else x) })
    else s.leaveMatrix T o false

/-- mmaprog.wr: it takes effect while the team's threads are parked, stopped or halted (R289). -/
def State.rowProgWrite (s : State) (T : Team) (q : Nat) (v : BitVec 32) : State :=
  if T.halted || T.threads.all (fun th => th.status == .parked || th.status == .stopped || th.status == .exited) then s.rowProgPut T q v else s

def execMmaprogWr (g : Guard) (q : Nat) (a b : Src) (s : State) : Host.Outcome State Fault Refusal :=
  .next (s.checked g (srcRegs 32 a ++ srcRegs 32 b) [] (fun s =>
    if s.quarterBad g q a then s.groupFault { cause := 0x04e, sub := 0x03 }
    else s.foldLanes g (fun s T th =>
      match th.eccTrap T [⟨2, a, 32⟩, ⟨3, b, 32⟩] with
      | some x => .trap s x
      | none =>
        match s.targetTeam (dieOf T.core) (readSrc (s.tickOf T) .int 32 T th a) with
        | none => .done s
        | some U => .done (s.rowProgWrite U q (readBv (s.tickOf T) .int 32 T th b)))))

end Sys2Proof.Machine
end

