-- ==== Sys2Proof/Machine/Ctl.lean ====
section
/-!
DEFINITION. Machine/Ctl.lean: the CTL class: branches, calls and the return stack, hardware loops, guest dispatch, barriers,
events and waits, spawn, exit (17 R315 to R338; 13 R239).
-/

namespace Sys2Proof.Machine

/-! ## Transfers (R317 to R320, R326) -/

/-- The target of an offset form. -/
def Thread.offTarget (th : Thread) (off : Int) : BitVec 64 := th.clause + BitVec.ofInt 64 (4 * off)

/-- Does a level's range contain an address? -/
def Level.holds (v : Level) (a : BitVec 64) : Bool := decide (v.l.toNat ≤ a.toNat) && decide (a.toNat < v.x.toNat)

/-- A taken transfer removes the levels of the current depth that it leaves (R326). -/
def Thread.goTo (th : Thread) (t : BitVec 64) : Thread :=
  { th with next := some t, loops := th.loops.dropWhile (fun v => v.depth == th.depth && !v.holds t) }

/-- The reason for which a lane of a team waits at the slot. -/
def Team.waitReason (T : Team) (e : Nat) : Nat :=
  ((T.group e).findSome? (fun th => match th.hold with | .at n => some n | _ => none)).getD 15

/-- An instruction that would leave the threads of a bound team at different next clause addresses faults before any effect; one
whose lanes still wait is done again by all of them (R239). -/
def State.together (s : State) (f : State → State) : State :=
  match s.cur with
  | none => f s
  | some c =>
    let s1 := f s
    match (s.groupTeams c.entry).find? Team.bound with
    | none => s1
    | some T =>
      match s1.team? T.launch T.wg T.idx with
      | none => s1
      | some T1 =>
        let lanes := T1.group c.entry
        let nexts := lanes.map (fun th => th.next.getD (s.fallNow th))
        if T1.live.any (fun th => th.status == .parked) then s1
        else if lanes.any (fun th => match th.hold with | .at _ => true | _ => false) then
          State.markGroup { s1 with teams := s.teams } c .always (.at (T1.waitReason c.entry))
        else if nexts.any (fun n => n != nexts.headD 0) then s.groupFaultAt { cause := 0x044, sub := 0x01 } 0
        else s1

/-- An instruction with an s destination: no lane writes it while another has still to read its sources; where one waits, all wait and do it
again (R10). -/
def State.atOnce (s : State) (d : Dst) (f : State → State) : State :=
  let s1 := f s
  match s.cur, sRegOf d with
  | some c, some _ =>
    match (s1.groupTeams c.entry).findSome? (fun T => (T.group c.entry).findSome? (fun th => match th.hold with | .at n => some n | _ => none)) with
    | some n => State.markGroup { s1 with teams := s.teams } c .always (.at n)
    | none => s1
  | _, _ => s1

/-- A vote of the whole issue group (R318). -/
def voteOf (all taken : Nat) : Nat := if taken = all then 1 else if taken = 0 then 2 else 3

/-- The place of an outcome among a team's vote counters. -/
def countVote (l : List Nat) (o : Nat) : List Nat := setAt l (o - 1) (l.getD (o - 1) 0 + 1)

/-- bra. -/
def State.branch (s : State) (g : Guard) (off : Int) : State :=
  match s.cur with
  | none => s
  | some c =>
    if g = .always then s.perLane .always [] (fun _ th => .done (th.goTo (th.offTarget off)) [])
    else
      let all := (s.executing c.entry .always).length
      let o := voteOf all (s.executing c.entry g).length
      if o = 3 && (s.groupTeams c.entry).any Team.bound then s.groupFaultAt { cause := 0x044, sub := 0x01 } 0
      else
        let s1 := s.perLane .always [] (fun _ th =>
          let th1 := { th with vote := BitVec.ofNat 2 o }
          .done (if th.passes g then th1.goTo (th.offTarget off) else th1) [])
        s1.mapTeams (fun T => if T.threads.any (·.issuing c.entry) then { T with votes := countVote T.votes o } else T)

def execBra (g : Guard) (off : Int) (s : State) : Host.Outcome State Fault Refusal := .next (s.branch g off)
def execJmp (off : Int) (s : State) : Host.Outcome State Fault Refusal :=
  .next (s.perLane .always [] (fun _ th => .done (th.goTo (th.offTarget off)) []))
def execJmpi (g : Guard) (a : Src) (s : State) : Host.Outcome State Fault Refusal :=
  .next (s.together (fun s => s.issue g .discard 32 [⟨2, a, 64⟩] (fun T th => .done (th.goTo (readBv (s.tickOf T) .int 64 T th a)) [])))

/-! ## Calls, returns and the Ballast (R321 to R323) -/

/-- The number of a return entry in memory (R323). -/
def RetEntry.number (e : RetEntry) : Nat := e.ret.toNat * 2 ^ 64 + e.gpc.toNat * 2 ^ 32 + e.gop.toNat

/-- A return entry from memory. -/
def retEntryOf (n : Nat) : RetEntry :=
  { ret := BitVec.ofNat 64 (n / 2 ^ 64), gpc := BitVec.ofNat 32 (n / 2 ^ 32), gop := BitVec.ofNat 8 n }

/-- The address of spilled entry n of a thread. -/
def State.ballastVa (s : State) (T : Team) (th : Thread) (n : Nat) : BitVec 64 :=
  let R := (s.launch T.launch).recd
  R.ballastBase + BitVec.ofNat 64 (th.tid.toNat * R.ballastStride + 16 * n)

/-- A plain access that an instruction makes and cannot go on without: a miss holds the lane, counting a reason; a seal mismatch
is the lane's own fault. -/
def State.plainNow (s : State) (T : Team) (th : Thread) (a : Access) (reason : Nat) (k : State → Nat → LaneOut) : LaneOut :=
  let r := T.ref th
  let a := { a with clause := th.clause, slot := s.slotNow, since := s.slotSince }
  if s.replays r || s.replayFull T.core then .wait s reason
  else match s.access T r a with
    | .trap s1 x => .trap s1 x
    | .wait s1 n => .wait s1 n
    | .miss s1 c => .wait (s1.enterReplay T r { kind := .again a.kind.writes, va := a.va, n := a.n, clause := a.clause, slot := a.slot, since := a.since } c) reason
    | .ok s1 v late =>
      match late with
      | none => k s1 v
      | some x =>
        if x.cause = 0x182 then k (s1.updThread r (·.deferFault (s1.deferred T th a.clause a.slot x))) v else .trap s1 x

/-- One lane of a call: Push, then the transfer. -/
def State.callLane (s : State) (T : Team) (th : Thread) (target : BitVec 64) : LaneOut :=
  let r := T.ref th
  let e : RetEntry := { ret := s.fallNow th, gpc := th.gpc, gop := th.gop }
  let go := fun (s : State) (old : List RetEntry) (bc : Nat) =>
    LaneOut.done (s.updThread r (fun t => { t with rstack := e :: old, bc := bc, next := some target }))
  if th.rstack.length < 8 then go s th.rstack th.bc
  else if (s.launch T.launch).recd.ballastLimit ≤ th.bc then .trap s { cause := 0x047, sub := 0x01 }
  else
    let oldest := th.rstack.getLastD e
    s.plainNow T th { kind := .store, va := s.ballastVa T th th.bc, n := 16, x := oldest.number } 15 (fun s _ =>
      go s th.rstack.dropLast (th.bc + 1))

def execCall (g : Guard) (off : Int) (s : State) : Host.Outcome State Fault Refusal :=
  .next (s.together (fun s => s.foldLanes g (fun s T th => s.callLane T th (th.offTarget off))))
def execCalli (g : Guard) (a : Src) (s : State) : Host.Outcome State Fault Refusal :=
  .next (s.together (fun s => s.issueMem g .discard 32 [⟨2, a, 64⟩] [] (fun s T th =>
    s.callLane T th (readBv (s.tickOf T) .int 64 T th a)) false))

/-- A thread goes to the address of a popped entry; levels of a greater depth go (R326). -/
def Thread.returnTo (th : Thread) (e : RetEntry) (rs : List RetEntry) (bc : Nat) : Thread :=
  { th with rstack := rs, bc := bc, next := some e.ret, loops := th.loops.filter (fun v => decide (v.depth ≤ rs.length + bc)) }

/-- One lane of ret: Pop. -/
def State.retLane (s : State) (T : Team) (th : Thread) : LaneOut :=
  let r := T.ref th
  match th.rstack with
  | e :: rs => .done (s.updThread r (fun t => t.returnTo e rs th.bc))
  | [] =>
    if th.bc = 0 then .trap s { cause := 0x04f, sub := 0x03 }
    else s.plainNow T th { kind := .load false, va := s.ballastVa T th (th.bc - 1), n := 16 } 15 (fun s v =>
      .done (s.updThread r (fun t => t.returnTo (retEntryOf v) [] (th.bc - 1))))

def execRet (g : Guard) (s : State) : Host.Outcome State Fault Refusal := .next (s.together (fun s => s.foldLanes g (fun s T th => s.retLane T th)))

/-! ## exit, nop (R337, R338) -/

/-- Does a thread still await a result or a store? -/
def State.awaits (s : State) (r : ThreadRef) (th : Thread) : Bool := !th.outst.isEmpty || s.replays r

/-- Does a thread await a register result (R99, R166)? -/
def State.resultsDue (s : State) (r : ThreadRef) (th : Thread) : Bool :=
  !th.outst.isEmpty || s.requests.any (fun q => match q.who with
    | .threads accs => accs.any (fun a => a.1 == r && a.2.kind.returns)
    | _ => false)

/-- One lane of exit. A deferred fault found by then parks the thread at its exit. DEDUCED, log entry 103. -/
def State.exitLane (s : State) (T : Team) (th : Thread) : LaneOut :=
  if s.awaits (T.ref th) th then .wait s (if s.replays (T.ref th) then 4 else 15)
  else match th.defer with
    | q :: rest => .done (s.updThread (T.ref th) (fun t => { t with defer := rest }.park q s.slotNow true))
    | [] => .done (s.exitThread T th)

/-- exit: some threads of a bound team alone may not (R239); a deferred fault of one of them parks it whole (R249). -/
def execExit (g : Guard) (s : State) : Host.Outcome State Fault Refusal :=
  .next (match s.cur with
    | none => s
    | some c =>
      if (s.groupTeams c.entry).any (fun T => T.bound && !(T.executing c.entry g).isEmpty && (T.executing c.entry g).length != T.live.length) then
        s.groupFaultAt { cause := 0x044, sub := 0x01 } 0
      else if (s.groupTeams c.entry).any (fun T => T.bound && (T.executing c.entry g).any (fun th => s.awaits (T.ref th) th)) then
        s.markGroup c g (.at 15)
      else match (s.groupTeams c.entry).findSome? (fun T => if T.bound then (T.executing c.entry g).findSome? (fun th => th.defer.head?.map (T, ·)) else none) with
        | some (T, q) => s.updTeam T.launch T.wg T.idx (fun U =>
            (U.mapThreads (fun th => { th with defer := th.defer.erase q })).parkAll c.entry c.slot q)
        | none => s.foldLanes g (fun s T th => s.exitLane T th))

def execNop (g : Guard) (s : State) : Host.Outcome State Fault Refusal := .next (s.perLane g [] (fun _ th => .done th []))

/-! ## Guest control (R327, R328) -/

/-- The guest breakpoint that a gpc meets (R415). -/
def State.gbpHit (s : State) (T : Team) (gpc : BitVec 32) : Option Nat :=
  let asid := (s.launch T.launch).asid
  (List.range 8).find? (fun i =>
    let e := ((s.core T.core).gbp.getD i 0).toNat
    e / 2 ^ 63 = 1 && (e / 2 ^ 62 % 2 = 1 || e / 2 ^ 32 % 1024 = asid) && e % 2 ^ 32 = gpc.toNat)

/-- Writes a destination of a lane whose team may take it in an s register: of lanes that differ, which one stays is free, and the same each time
in a deterministic launch (R410). DESIGN CHOICE, log entry 14. -/
def State.laneDest (s : State) (T : Team) (r : ThreadRef) (g : Guard) (d : Dst) (w val : Nat) : State :=
  let s1 := s.updThread r (·.writeDest d w val)
  match d with
  | .s n =>
    -- no other lane that executes has written yet
    let e := s.cur.map (·.entry)
    let first := !T.threads.any (fun t => t.lane != r.lane && t.entry == e && t.passes g && (t.slotDone || t.hold == .passed))
    if first then s1.updTeam T.launch T.wg T.idx (·.writeS n w val)
    else if regsNat ((s.team? T.launch T.wg T.idx).getD T).sReg n (w / 32) = val then s1
    else
      let (k, s2) := if (s.launch T.launch).recd.det then (Config.detPick w % 2, s1) else s1.pick 2
      if k = 0 then s2 else s2.updTeam T.launch T.wg T.idx (·.writeS n w val)
  | _ => s1

/-- One lane of dispatch. -/
def State.dispatchLane (s : State) (g : Guard) (d : Dst) (a b : Nat) (T : Team) (th : Thread) : LaneOut :=
  let r := T.ref th
  let code := T.sReg (a + 1) ++ T.sReg a
  let tbl := T.sReg (b + 1) ++ T.sReg b
  let len := (T.sReg (b + 2)).toNat
  match (if th.skipGbp then none else s.gbpHit T th.gpc) with
  | some i => .trap s { cause := 0x181, sub := i }
  | none =>
    s.plainNow T th { kind := .load false, va := code + BitVec.ofNat 64 (th.gpc.toNat * 4), n := 4 } 4 (fun s w =>
      let op := w % 256
      if len ≤ op then .trap s { cause := 0x049, sub := op }
      else s.plainNow T th { kind := .load false, va := tbl + BitVec.ofNat 64 (op * 8), n := 8 } 4 (fun s h =>
        let s1 := s.laneDest T r g d 32 (unsigned 32 (signed 24 (w / 256)))
        .done (s1.updThread r (fun t =>
          { t with gop := BitVec.ofNat 8 op, gpc := t.gpc + 1, skipGbp := false }.goTo (BitVec.ofNat 64 h)))))

/-- dispatch. gpc is a source of it, which an s destination makes uniform; a 0x041 names operand 0 for it. DESIGN CHOICE, log entry 125. -/
def execDispatch (g : Guard) (d : Dst) (a b : Nat) (s : State) : Host.Outcome State Fault Refusal :=
  .next (s.together (fun s => s.atOnce d (fun s => s.issueMem g d 32 [⟨0, .gpc, 32⟩, ⟨2, .s a, 64⟩, ⟨3, .s b, 96⟩] [] (fun s T th => s.dispatchLane g d a b T th) false)))

def execGpcadd (g : Guard) (a : Src) (s : State) : Host.Outcome State Fault Refusal :=
  .next (s.issue g .discard 32 [⟨2, a, 32⟩] (fun T th => .done { th with gpc := th.gpc + readBv (s.tickOf T) .int 32 T th a } []))
def execGpcset (g : Guard) (a : Src) (s : State) : Host.Outcome State Fault Refusal :=
  .next (s.issue g .discard 32 [⟨2, a, 32⟩] (fun T th => .done { th with gpc := readBv (s.tickOf T) .int 32 T th a } []))

/-! ## Hardware loops (R324) -/

/-- One lane of loop, with E and X known. -/
def loopLane (n k : Nat) (e x : BitVec 64) (f : BitVec 64) (T : Team) (th : Thread) : Lane :=
  if 3 ≤ th.loops.length then .trap th { cause := 0x048, sub := 0x01 }
  else if th.loops.any (·.n == n) then .trap th { cause := 0x048, sub := 0x02 }
  else withEcc [⟨4, .s (8 + k), 32⟩] (fun T th =>
    let cnt := T.sReg (8 + k)
    if cnt = 0 then .done { th with next := some x } []
    else .done { th with lc := setAt th.lc n cnt, next := some f
                         loops := { n := n, l := f, e := e, x := x, depth := th.depth } :: th.loops } []) T th

/-- loop: E and X are read first, from E's header. -/
def State.loopOp (s : State) (n k : Nat) (off : Int) : State :=
  match s.cur with
  | none => s
  | some c =>
    match s.executing c.entry .always with
    | [] => s
    | (T, th) :: _ =>
      let e := th.offTarget off
      let f := s.fallNow th
      if e.toNat < f.toNat then s.groupFault { cause := 0x048, sub := 0x03 }
      else match s.fetchClause (s.agent T) e with
        | .trap s1 x => s1.groupFaultWith x (fun r => { r with clause := e })
        | .miss s1 va cause => s1.fetchMiss c e va cause 4
        | .wait s1 => s1.markGroup c .always (.at 4)
        | .ok s1 ws => s1.perLane .always [] (loopLane n k e (fallThrough e ws) f)

def execLoop (n k : Nat) (off : Int) (s : State) : Host.Outcome State Fault Refusal := .next (s.loopOp n k off)

/-! ## Convergence points and the barrier (R329, R330) -/

/-- bar.wg: the hold has resolved, and the workgroup's boundary follows. -/
def execBarWg (s : State) : Host.Outcome State Fault Refusal := .next (s.arrivals (fun s T th => s.arrive T th .wg))
/-- join: the hold has resolved. -/
def execJoin (s : State) : Host.Outcome State Fault Refusal := .next (s.perLane .always [] (fun _ th => .done th []))

def execGmode (g : Guard) (m : Nat) (s : State) : Host.Outcome State Fault Refusal :=
  .next (s.perTeam g (fun s T _ => s.updTeam T.launch T.wg T.idx (fun T => { T with tagmode := m })))

/-! ## Sleeping and waiting (R332, R333) -/

/-- The value of a uniform operand in a team of the group. -/
def State.uniformVal (s : State) (g : Guard) (w : Nat) (T : Team) (x : Src) : Nat :=
  match s.lanesOf T g with
  | [] => 0
  | th :: _ => readSrc (s.tickOf T) .int w T th x

/-- The teams of the group that have an executing lane. -/
def State.activeTeams (s : State) (g : Guard) : List Team := s.curTeams.filter (fun T => !(s.lanesOf T g).isEmpty)

/-- sleep. -/
def execSleep (g : Guard) (a : Src) (s : State) : Host.Outcome State Fault Refusal :=
  .next (s.checked g (srcRegs 32 a) [⟨2, a, 32⟩] (fun s =>
    match s.cur with
    | none => s
    | some c =>
      if (s.activeTeams g).any (fun T => decide (63 < s.uniformVal g 32 T a)) then s.groupFault { cause := 0x04f, sub := 0x04 }
      else s.afterEcc g [⟨2, a, 32⟩] (fun s => s.perTeam g (fun s T lanes =>
        let e := s.uniformVal g 32 T a
        let W := s.wg T.launch T.wg
        if lanes.all (·.hold == .passed) then s
        else if W.ev.getLsbD e then (s.setWg { W with ev := W.ev &&& ~~~(1#64 <<< e) }).markTeam T c.entry g .passed
        else s.markTeam T c.entry g (.asleep e)))))

/-- Wakes the threads of a workgroup that sleep on an event, or sets the event (R332). -/
def State.wake (s : State) (l w e : Nat) : State :=
  let sleeps := fun (th : Thread) => th.hold == .asleep e && (th.status == .running || th.status == .handler)
  let mine := fun (T : Team) => T.launch == l && T.wg == w
  if s.teams.any (fun T => mine T && T.threads.any sleeps) then
    s.mapTeams (fun T => if mine T then T.mapThreads (fun th => if sleeps th then { th with hold := .passed } else th) else T)
  else
    let W := s.wg l w
    s.setWg { W with ev := W.ev ||| (1#64 <<< e) }

/-- wait. -/
def execWait (g : Guard) (a : Src) (s : State) : Host.Outcome State Fault Refusal :=
  .next (s.issueMem g .discard 32 [⟨2, a, 64⟩] [] (fun s T th => s.waitSeq T th (readBv (s.tickOf T) .int 64 T th a) (fun s => .done s)) false)

/-! ## Spawn (R335, R336) -/

/-- Chunks of n. -/
def chunksOf {α : Type} (n : Nat) : Nat → List α → List (List α)
  | 0, _ => []
  | m + 1, l => if l.isEmpty then [] else l.take n :: chunksOf n m (l.drop n)

/-- The free spawn slots of a workgroup, lowest first. -/
def State.freeSpawn (s : State) (W : Wg) : List Nat :=
  (List.range (s.launch W.launch).recd.spawnslots).filter (fun k => !W.spawn.contains k)

/-- A spawned team that has completed leaves its slot to another; its bank stays (R425). -/
def State.bankTeam (s : State) (l w t : Nat) : State :=
  match s.team? l w t with
  | none => s
  | some T =>
    let W := s.wg l w
    { s with teams := s.teams.filter (fun T => !T.is l w t) }.setWg { W with banks := W.banks ++ [(t, T.votes, T.windsock)] }

/-- A parent of a child thread: its team, itself and the entry point that it names. -/
abbrev Parent := Team × Thread × BitVec 64

/-- Creates the child team of a chunk in a slot. The s registers are those of the team of its first parent. DEDUCED, log entry 102. -/
def State.spawnTeam (s : State) (l w slot : Nat) (b : Src) (ps : List Parent) : State :=
  match ps with
  | [] => s
  | (P, _, _) :: _ =>
    let W := s.wg l w
    let L := s.launch l
    let R := L.recd
    let n := R.wgcount * R.teams * R.lanes
    let blk := W.spawnBlocks.getD slot (0, 0, 0)
    let threads := ps.zipIdx.map (fun x =>
      let (U, parent, clause) := x.1
      let th := newThread x.2 (n + (w * 64 + slot) * R.lanes + x.2) R.blockSize clause
      { th with v := setAt (setAt th.v 0 (readBv (s.tickOf U) .int 32 U parent b)) 1 parent.tid })
    let sregs := ((List.range 7).map P.sReg).set 3 (BitVec.ofNat 32 (32 + slot))
    let s := s.bankTeam l w (32 + slot)
    let W := s.wg l w
    (s.addTeam { launch := l, wg := w, idx := 32 + slot, width := R.lanes, core := P.core, slice := blk.1, span := blk.2.1
                 block := blk.2.2, bsize := R.blockSize, s := loadS sregs, threads := threads
                 halted := (s.core P.core).halt }).setWg { W with spawn := slot :: W.spawn }

/-- The lanes of a group in the order in which spawn packs them: by parent tid in a deterministic launch, else by lane. -/
def spawnOrder (det : Bool) (ps : List Parent) : List Parent :=
  sortBy (fun (x y : Parent) => if det then decide (x.2.1.tid.toNat ≤ y.2.1.tid.toNat) else decide (x.1.span + x.2.1.lane ≤ y.1.span + y.2.1.lane)) ps

/-- The chunks of the lanes of a workgroup, in order. -/
def State.spawnChunks (s : State) (ps : List Parent) (l w : Nat) : List (List Parent) :=
  let R := (s.launch l).recd
  let mine := spawnOrder R.det (ps.filter (fun x => x.1.launch == l && x.1.wg == w))
  chunksOf R.lanes (mine.length + 1) mine

/-- The children of one workgroup's lanes: as many leading chunks as there are free slots; the lanes of a chunk that gets none take a false
guard. -/
def State.spawnWg (s : State) (g : Guard) (b : Src) (ps : List Parent) (l w : Nat) : State :=
  let chunks := s.spawnChunks ps l w
  let free := s.freeSpawn (s.wg l w)
  let mark := fun (s : State) (xs : List Parent) (f : Thread → Thread) => xs.foldl (fun a x => a.updThread (x.1.ref x.2.1) f) s
  let s1 := (chunks.zip free).foldl (fun a x => a.spawnTeam l w x.2 b x.1) s
  mark (mark s1 chunks.flatten (fun t => { t with hold := .passed })) ((chunks.drop free.length).flatten) (·.guardFalse g)

/-- Goes on with the executing lanes of teams and the entry points that they name, read from ENTRYTAB in the launch's address space. DEDUCED,
log entry 102. -/
def State.spawnEntries (g : Guard) (a : Src) (k : State → List Parent → LaneOut) : List Team → List Parent → State → LaneOut
  | [], acc, s => k s acc
  | T :: ts, acc, s =>
    match s.lanesOf T g with
    | [] => State.spawnEntries g a k ts acc s
    | th :: rest =>
      let va := (s.launch T.launch).recd.entrytab + BitVec.ofNat 64 (8 * s.uniformVal g 32 T a)
      s.toHome T th va 8 false (fun s1 loc =>
        State.spawnEntries g a k ts (acc ++ (th :: rest).map (fun x => (T, x, BitVec.ofNat 64 (s1.homeNat loc 8)))) s1)

/-- spawn and spawn.try: every earlier access of a parent has been performed, which makes the release (R336); plain spawn waits for a slot for
every chunk, and everything is created at once (R335). -/
def State.spawnOp (s : State) (try_ : Bool) (g : Guard) (a b : Src) : State :=
  s.checked g (srcRegs 32 a ++ srcRegs 32 b) [⟨2, a, 32⟩] (fun s =>
    match s.cur with
    | none => s
    | some c =>
      if (s.activeTeams g).any (fun T => decide ((s.launch T.launch).recd.entries ≤ s.uniformVal g 32 T a)) then
        s.groupFault { cause := 0x04f, sub := 0x05 }
      else s.afterEcc g [⟨2, a, 32⟩, ⟨3, b, 32⟩] (fun s =>
      let ts := s.activeTeams g
      let wgs := (ts.map (fun T => (T.launch, T.wg))).dedup
      if (s.executing c.entry g).any (fun x => s.replays (x.1.ref x.2)) then s.markGroup c g (.at 4)
      else
        match State.spawnEntries g a (fun s ps =>
            if !try_ && wgs.any (fun q => decide ((s.freeSpawn (s.wg q.1 q.2)).length < (s.spawnChunks ps q.1 q.2).length)) then .wait s 15
            else .done (wgs.foldl (fun a q => a.spawnWg g b ps q.1 q.2) s)) ts [] s with
        | .done s1 => s1
        | .wait s1 n => s1.markGroup c g (.at n)
        | .trap s1 x => s1.groupFault x))

def execSpawn (g : Guard) (a b : Src) (s : State) : Host.Outcome State Fault Refusal := .next (s.spawnOp false g a b)
def execSpawnTry (g : Guard) (a b : Src) (s : State) : Host.Outcome State Fault Refusal := .next (s.spawnOp true g a b)

/-! ## brk and yield (R338) -/

def execBrk (g : Guard) (s : State) : Host.Outcome State Fault Refusal := .next (s.perLane g [] (fun _ th => .trap th { cause := 0x180 }))

/-- yield: the group's issue ends at the slot, and the entry passes over its teams' next turn. -/
def execYield (g : Guard) (s : State) : Host.Outcome State Fault Refusal :=
  .next (match s.cur with
    | none => s
    | some c =>
      let ts := s.activeTeams g
      if ts.isEmpty then s
      else
        let s1 := s.perLane g [] (fun _ th => .done th [])
        { s1 with entries := s1.entries.map (fun e => if e.id == c.entry then { e with skips := (s.groupTeams c.entry).map (fun T => (T.wg, T.idx)) } else e) })

end Sys2Proof.Machine
end

