-- ==== Sys2Proof/Machine/Trie.lean ====
section
/-!
DEFINITION. Machine/Trie.lean: the trie instructions (20 R380 to R382): nodes, labels and child tables in memory, the transition
of one symbol, and the scan with its failure hops.
-/

namespace Sys2Proof.Machine

/-! ## Nodes and states (R380, R381) -/

/-- A node as read: its address and its 128 bits. -/
structure TrieNode where
  va  : BitVec 64
  num : Nat
  deriving DecidableEq, Repr

/-- The fields of a node. -/
def TrieNode.fail (n : TrieNode) : Int := signed 20 (bitsOf n.num 108 20)
def TrieNode.child (n : TrieNode) : Int := signed 20 (bitsOf n.num 88 20)
def TrieNode.bm (n : TrieNode) : Nat := bitsOf n.num 80 8
def TrieNode.val (n : TrieNode) : Nat := bitsOf n.num 56 24
def TrieNode.long (n : TrieNode) : Bool := bitAt n.num 52
def TrieNode.tok (n : TrieNode) : Bool := bitAt n.num 51
def TrieNode.term (n : TrieNode) : Bool := bitAt n.num 50
def TrieNode.label (n : TrieNode) : Nat := bitsOf n.num 0 48

/-- The length of a node's label. -/
def TrieNode.len (n : TrieNode) : Nat := if n.long then bitsOf n.num 40 8 else bitsOf n.num 53 3

/-- The check of 0x051 that a node fails; child: it was reached as a child, so that it is no root. -/
def TrieNode.bad (n : TrieNode) (child : Bool) : Option Nat :=
  if bitsOf n.num 48 2 ≠ 0 ∨ (n.long ∧ 31 < n.len) ∨ (!n.long ∧ (6 < n.len ∨ (n.tok ∧ 1 < n.len))) then some 0x03
  else if n.len = 0 && (n.long || child || n.fail != 0) then some 0x01
  else none

/-- The address at an offset of 16-byte units from a node. -/
def TrieNode.off (n : TrieNode) (k : Int) : BitVec 64 := n.va + BitVec.ofInt 64 (16 * k)

/-- NODE and POS of a state. -/
def trieVa (x : BitVec 64) : BitVec 64 := x &&& 0x01fffffffffffff0#64
def triePos (x : BitVec 64) : Nat := bitsOf x.toNat 57 5

/-- A state of a node, with CNT and MATCH zero. -/
def trieState (va : BitVec 64) (pos : Nat) : BitVec 64 := (va &&& 0x01fffffffffffff0#64) ||| BitVec.ofNat 64 (pos * 2 ^ 57)

/-- A symbol of a node's alphabet, and its class. -/
def TrieNode.symbol (n : TrieNode) (b : Nat) : Nat := if n.tok then b else b % 256
def TrieNode.cls (n : TrieNode) (sym : Nat) : Nat := if n.tok then sym % 8 else sym / 32 % 8

/-- The set bits of BM below a class. -/
def bmBelow (bm c : Nat) : Nat := ((List.range c).filter (bitAt bm ·)).length

/-- Malformed data. -/
def trieTrap (s : State) (sub : Nat) : LaneOut := .trap s { cause := 0x051, sub := sub }

/-! ## Reads (R381): plain loads -/

/-- A plain load of n bytes. -/
def State.trieLoad (s : State) (T : Team) (th : Thread) (va : BitVec 64) (n : Nat) (k : State → Nat → LaneOut) : LaneOut :=
  s.plainNow T th { kind := .load false, va := va, n := n } 4 k

/-- Reads a node and checks it. DEDUCED, log entry 52. -/
def State.trieNode (s : State) (T : Team) (th : Thread) (va : BitVec 64) (child : Bool) (k : State → TrieNode → LaneOut) : LaneOut :=
  s.trieLoad T th va 16 (fun s v =>
    let n : TrieNode := ⟨va, v⟩
    match n.bad child with
    | some e => trieTrap s e
    | none => k s n)

/-- Reads symbol i of a node's label. -/
def State.trieLabel (s : State) (T : Team) (th : Thread) (n : TrieNode) (i : Nat) (k : State → Nat → LaneOut) : LaneOut :=
  let side := n.va + BitVec.ofInt 64 (signed 40 (bitsOf n.num 0 40))
  match n.long, n.tok with
  | false, false => k s (n.label / 256 ^ i % 256)
  | false, true => k s (n.label % 2 ^ 32)
  | true, false => s.trieLoad T th (side + BitVec.ofNat 64 i) 1 k
  | true, true => s.trieLoad T th (side + BitVec.ofNat 64 (4 * i)) 4 k

/-- Reads the slot of a class that BM has: the index of its first child and how many there are. -/
def State.trieSlot (s : State) (T : Team) (th : Thread) (n : TrieNode) (c : Nat) (k : State → Nat → Nat → LaneOut) : LaneOut :=
  s.trieLoad T th (n.off n.child + BitVec.ofNat 64 (4 * bmBelow n.bm c)) 4 (fun s v => k s (v / 2 ^ 16) (v % 2 ^ 16))

/-- The address of child i of a node: the slots come first, padded to 16 bytes. -/
def TrieNode.childVa (n : TrieNode) (i : Nat) : BitVec 64 :=
  n.off n.child + BitVec.ofNat 64 (16 * ((bmBelow n.bm 8 + 3) / 4 + i))

/-- The lowest-indexed of m children from index i whose label begins with a symbol. -/
def State.trieFind (s : State) (T : Team) (th : Thread) (n : TrieNode) (sym : Nat) (k : State → Option TrieNode → LaneOut) :
    Nat → Nat → LaneOut
  | 0, _ => k s none
  | m + 1, i =>
    s.trieNode T th (n.childVa i) true (fun s ch =>
      s.trieLabel T th ch 0 (fun s v => if v = sym then k s (some ch) else State.trieFind s T th n sym k m (i + 1)))

/-! ## Step (R381) -/

/-- Goes on with the node and the position of a state. -/
def State.trieAt (s : State) (T : Team) (th : Thread) (x : BitVec 64) (k : State → TrieNode → Nat → LaneOut) : LaneOut :=
  if trieVa x = 0 then trieTrap s 0x02
  else s.trieNode T th (trieVa x) false (fun s n =>
    if triePos x ≠ 0 ∧ n.len ≤ triePos x then trieTrap s 0x02 else k s n (triePos x))

/-- Step of a node at a position with a symbol: the next state, or none for FAIL. -/
def State.trieStep (s : State) (T : Team) (th : Thread) (n : TrieNode) (pos sym : Nat) (k : State → Option (BitVec 64) → LaneOut) : LaneOut :=
  if pos ≠ 0 then
    s.trieLabel T th n pos (fun s v =>
      k s (if v = sym then some (trieState n.va (if pos + 1 = n.len then 0 else pos + 1)) else none))
  else if !bitAt n.bm (n.cls sym) then k s none
  else s.trieSlot T th n (n.cls sym) (fun s first count =>
    s.trieFind T th n sym (fun s ch => k s (ch.map (fun ch => trieState ch.va (if ch.len = 1 then 0 else 1)))) count first)

/-! ## The instructions (R382) -/

/-- A result of a SYS instruction: outstanding (R371). -/
def State.giveSys (s : State) (r : ThreadRef) (d : Dst) (w v : Nat) (f : Thread → Thread := id) : State :=
  s.updThread r (fun t => f (t.await d w v .sys t.clause s.slotNow s.slotSince))

/-- trie.step. -/
def State.trieStepLane (s : State) (d : Dst) (T : Team) (th : Thread) (x : BitVec 64) (b : Nat) : LaneOut :=
  s.trieAt T th x (fun s n pos =>
    s.trieStep T th n pos (n.symbol b) (fun s t => .done (s.giveSys (T.ref th) d 64 (t.getD 0).toNat)))

/-- One symbol of a scan from a node, with the hops that are left: the node that it ends at. -/
def State.trieHops (s : State) (T : Team) (th : Thread) (sym : Nat) (k : State → TrieNode → LaneOut) : Nat → TrieNode → LaneOut
  | 0, _ => trieTrap s 0x06
  | m + 1, n =>
    if 1 < n.len then trieTrap s 0x07
    else s.trieStep T th n 0 sym (fun s t =>
      match t with
      | some y => s.trieNode T th (trieVa y) true (fun s ch => if 1 < ch.len then trieTrap s 0x07 else k s ch)
      | none =>
        if n.fail = 0 then k s n
        else match m with
          | 0 => trieTrap s 0x06
          | m' + 1 => s.trieNode T th (n.off n.fail) false (fun s f => State.trieHops s T th sym k (m' + 1) f))

/-- The symbols of a scan in turn. -/
def State.trieScan (s : State) (T : Team) (th : Thread) (k : State → TrieNode → Nat → LaneOut) : List Nat → Nat → Nat → TrieNode → LaneOut
  | [], _, hits, n => k s n hits
  | sym :: syms, i, hits, n =>
    s.trieHops T th sym (fun s n' => State.trieScan s T th k syms (i + 1) (hits + (if n'.term then 2 ^ i else 0)) n') 65 n

/-- trie.scan. -/
def State.trieScanLane (s : State) (d : Dst) (T : Team) (th : Thread) (x : BitVec 64) (b : Nat) : LaneOut :=
  s.trieAt T th x (fun s n _ =>
    let cnt := if x.toNat / 2 ^ 62 = 0 then 4 else x.toNat / 2 ^ 62
    let syms := if n.tok then [b] else (List.range cnt).map (fun k => b / 256 ^ k % 256)
    s.trieScan T th (fun s m hits => .done (s.giveSys (T.ref th) d 64 ((trieState m.va 0).toNat + hits))) syms 0 0 n)

/-- The children of a node: the sum of the counts of its slots. -/
def State.trieCount (s : State) (T : Team) (th : Thread) (n : TrieNode) (k : State → Nat → LaneOut) : List Nat → Nat → LaneOut
  | [], acc => k s acc
  | c :: cs, acc =>
    if bitAt n.bm c then s.trieSlot T th n c (fun s _ m => State.trieCount s T th n k cs (acc + m))
    else State.trieCount s T th n k cs acc

/-- VAL and TERM of a node as trie.child and trie.info give them. -/
def TrieNode.info (n : TrieNode) : Nat := n.val + (if n.term then 2 ^ 24 else 0)

/-- trie.child: children are counted in table order. -/
def State.trieChildLane (s : State) (d : Dst) (T : Team) (th : Thread) (x : BitVec 64) (i : Nat) : LaneOut :=
  let give := fun (s : State) (sym info : Nat) => LaneOut.done (s.giveSys (T.ref th) d 64 (sym + info * 2 ^ 32))
  let none_ := fun (s : State) => give s 0xffffffff 0x80000000
  s.trieAt T th x (fun s n pos =>
    if pos ≠ 0 then (if i = 0 then s.trieLabel T th n pos (fun s v => give s v n.info) else none_ s)
    else s.trieCount T th n (fun s total =>
      if total ≤ i then none_ s
      else s.trieNode T th (n.childVa i) true (fun s ch => s.trieLabel T th ch 0 (fun s v => give s v ch.info))) (List.range 8) 0)

/-- trie.info. -/
def State.trieInfoLane (s : State) (d : Dst) (T : Team) (th : Thread) (x : BitVec 64) : LaneOut :=
  s.trieAt T th x (fun s n pos =>
    .done (s.giveSys (T.ref th) d 32 (n.info + (if n.tok then 2 ^ 25 else 0) + (if pos ≠ 0 then 2 ^ 26 else 0))))

/-- A trie instruction with a second operand of 32 bits. -/
def State.trieOp (s : State) (g : Guard) (d : Dst) (a b : Src) (f : State → Team → Thread → BitVec 64 → Nat → LaneOut) : State :=
  s.issueMem g d 64 [⟨2, a, 64⟩, ⟨3, b, 32⟩] [] (fun s T th =>
    f s T th (readBv (s.tickOf T) .int 64 T th a) (readSrc (s.tickOf T) .int 32 T th b))

def execTrieStep (g : Guard) (d : Dst) (a b : Src) (s : State) : Host.Outcome State Fault Refusal :=
  .next (s.trieOp g d a b (fun s T th x v => s.trieStepLane d T th x v))
def execTrieScan (g : Guard) (d : Dst) (a b : Src) (s : State) : Host.Outcome State Fault Refusal :=
  .next (s.trieOp g d a b (fun s T th x v => s.trieScanLane d T th x v))
def execTrieChild (g : Guard) (d : Dst) (a b : Src) (s : State) : Host.Outcome State Fault Refusal :=
  .next (s.trieOp g d a b (fun s T th x v => s.trieChildLane d T th x v))
def execTrieInfo (g : Guard) (d : Dst) (a : Src) (s : State) : Host.Outcome State Fault Refusal :=
  .next (s.issueMem g d 32 [⟨2, a, 64⟩] [] (fun s T th => s.trieInfoLane d T th (readBv (s.tickOf T) .int 64 T th a)))

end Sys2Proof.Machine
end

