-- ==== Sys2Proof/Machine/Sys.lean ====
section
/-!
DEFINITION. Machine/Sys.lean: the SYS class (20 R370 to R391; 19 R361, R362): engines and the Reel, service calls, coverage points,
marks and counters, traps and the return from the handler, and the privileged instructions.
-/

namespace Sys2Proof.Machine

/-! ## Engines (R372 to R374) -/

/-- The low half of an entry with its KIND (R372). -/
def entryOf (regs kind : Nat) : Nat := regs - regs / 2 ^ 160 % 16 * 2 ^ 160 + kind * 2 ^ 160

/-- eng.copy and eng.coll: one entry for each executing lane. -/
def State.engAppend (s : State) (g : Guard) (eng q : Nat) (d : Dst) (a : Src) : State :=
  s.issueMem g d 64 [⟨2, a, 256⟩] [] (fun s T th =>
    s.append T th ⟨eng, q⟩ (entryOf (readSrc (s.tickOf T) .int 256 T th a) eng) (fun s _ seq =>
      .done (s.giveSys (T.ref th) d 64 seq.toNat)))

def execEngCopy (g : Guard) (q : Nat) (d : Dst) (a : Src) (s : State) : Host.Outcome State Fault Refusal := .next (s.engAppend g 0 q d a)
def execEngColl (g : Guard) (q : Nat) (d : Dst) (a : Src) (s : State) : Host.Outcome State Fault Refusal := .next (s.engAppend g 1 q d a)

/-- eng.post: once per executing lane, after the entries of the thread. -/
def execEngPost (g : Guard) (qs : QSel) (a : Src) (s : State) : Host.Outcome State Fault Refusal :=
  .next (s.issueMem g .discard 32 [⟨2, a, 32⟩] [] (fun s T th =>
    s.withQueue T th qs (fun s _ _ _ => .done (s.post T.launch T.wg qs (readBv (s.tickOf T) .int 32 T th a))) false))

/-- eng.seq: the readable sequence register; it raises no recorded error. -/
def execEngSeq (g : Guard) (qs : QSel) (d : Dst) (s : State) : Host.Outcome State Fault Refusal :=
  .next (s.issueMem g d 64 [] [] (fun s T th =>
    let give := fun (s : State) => LaneOut.done (s.giveSys (T.ref th) d 64 (seqOf qs ((s.countOf T.launch T.wg qs).getD 0)).toNat)
    if qs.eng = 2 then give s else s.withQueue T th qs (fun s _ _ _ => give s) false))

/-! ## The Reel (R375, R377) -/

/-- The lowest number that no live cursor has: one that has stopped leaves its number free. DEDUCED, log entry 66. -/
def freeCursor (cs : List Cursor) : Option Nat := (List.range 4).find? (fun k => cs.all (fun c => c.id != k || c.stopped))

/-- reel.go, once per team. -/
def execReelGo (g : Guard) (a b : Src) (s : State) : Host.Outcome State Fault Refusal :=
  .next (s.teamLane g [⟨2, a, 64⟩, ⟨3, b, 32⟩] [⟨2, a, 64⟩, ⟨3, b, 32⟩] (fun s T th =>
    let w := readBv (s.tickOf T) .int 64 T th a
    let start := readSrc (s.tickOf T) .int 32 T th b
    let K := s.core T.core
    let R := K.reel
    let go := fun (cs : List Cursor) =>
      match freeCursor cs with
      | none => LaneOut.wait s 15
      | some k => .done (s.setCore { K with reel := { owner := some ⟨T.launch, T.wg⟩, graph := w, cursors := cs.filter (·.id != k) ++ [{ id := k, node := start }] } })
    if bitsOf w.toNat 8 5 ≠ 0 ∨ w.toNat % 256 < start then .trap s { cause := 0x04a, sub := 0x07 }
    else match R.owner with
      | none => go []
      | some o => if o ≠ ⟨T.launch, T.wg⟩ then .wait s 15
      else if R.graph = w then go R.cursors else if R.cursors.all (·.stopped) then go [] else .wait s 15) false)

/-- The scope codes of reel.cond. -/
def condScope : Nat → Scope
  | 0 => .wg
  | 1 => .launch
  | _ => .sys

/-- reel.cond: an immediate store with release. -/
def execReelCondWrite (g : Guard) (sc : Nat) (a b : Src) (s : State) : Host.Outcome State Fault Refusal :=
  .next (s.memory g .discard 32 [⟨2, a, 64⟩, ⟨3, b, 32⟩] (some (condScope sc)) (fun s T th =>
    .ok { kind := .sti (condScope sc) .rel, va := readBv (s.tickOf T) .int 64 T th a, n := 8
          x := readSrc (s.tickOf T) .int 32 T th b }))

/-! ## Service calls (R356, R378, R379) -/

/-- The reply slot of a lane (R378, R401). -/
def State.replySlots (s : State) (T : Team) : BitVec 64 := (s.wg T.launch T.wg).ctx + BitVec.ofNat 64 (0xc000 + 0x400 * T.idx)

/-- Batches in the Basket of a core: those whose record has not been pushed. -/
def State.basket (s : State) (core : Nat) : Nat := (s.batches.filter (fun b => b.core == core && !b.pushed)).length

/-- Writes the argument of one lane, on the way to a batch: the state after, the lanes accepted so far and the reason for which
one waits. -/
def State.svcLane (c : Cur) (a : Src) (T : Team) (x : State × List Nat × Option Nat) (th : Thread) : State × List Nat × Option Nat :=
  let s := x.1
  let v := readSrc (s.tickOf T) .int 32 T th a
  if x.2.2.isSome then x
  else match s.toHome T th (s.replySlots T + BitVec.ofNat 64 (16 * th.lane)) 16 true (fun s loc =>
      .done (s.putMarked (dieOf T.core) loc (leBytes 4 v ++ List.replicate 12 0))) true with
  | .done s' => (s', x.2.1 ++ [th.lane], x.2.2)
  | .wait s' n => (s', x.2.1, some n)
  | .trap s' t => (s'.performLane s' c (fun s _ _ => .trap s t) (T.ref th), x.2.1, x.2.2)

/-- svc for one team: lanes with a call pending fault; the others form one batch. -/
def State.svcTeam (s : State) (c : Cur) (g : Guard) (code : Nat) (a : Src) (T : Team) (lanes : List Thread) : State :=
  let bad := fun (th : Thread) => th.svc || (th.eccTrap T [⟨2, a, 32⟩]).isSome
  let s1 := (lanes.filter bad).foldl (fun s th =>
    s.performLane s c (fun s _ _ => .trap s ((th.eccTrap T [⟨2, a, 32⟩]).getD { cause := 0x1c2, sub := 0x02 })) (T.ref th)) s
  let ok := lanes.filter (fun th => !bad th)
  let hold := fun (s : State) (h : Hold) (f : Thread → Thread) =>
    s.updTeam T.launch T.wg T.idx (·.mapThreads (fun th => if th.issuing c.entry && th.passes g then { f th with hold := h } else th))
  if ok.isEmpty || (T.bound && ok.length < lanes.length) then s1
  else if 16 ≤ s1.basket T.core then hold s1 (.at 15) id
  else
    match ok.foldl (State.svcLane c a T) (s1, [], none) with
    | (s2, _, some n) => hold s2 (.at n) id
    | (s2, accepted, none) =>
      if accepted.isEmpty || (T.bound && accepted.length < ok.length) then s2
      else
        let mask := accepted.foldl (fun m l => m + 2 ^ l) 0
        let b : Batch := { core := T.core, launch := T.launch, wg := T.wg, team := T.idx, slots := s2.replySlots T
                           mask := BitVec.ofNat 64 mask, code := code, slot := (s2.wg T.launch T.wg).slot }
        hold { s2 with batches := s2.batches ++ [b] } .passed (fun th => { th with svc := true })

/-- svc: one batch per team. -/
def execSvc (g : Guard) (code : Nat) (a : Src) (s : State) : Host.Outcome State Fault Refusal :=
  .next (s.checked g (srcRegs 32 a) [] (fun s =>
    match s.cur with
    | none => s
    | some c => s.perTeam g (fun s T lanes => s.svcTeam c g code a T lanes)))

/-- svcwait. -/
def execSvcwait (g : Guard) (d : Dst) (s : State) : Host.Outcome State Fault Refusal :=
  .next (s.issueMem g d 32 [] [] (fun s T th =>
    let r := T.ref th
    if !th.svc then .trap s { cause := 0x1c2, sub := 0x03 }
    else s.toHome T th (s.replySlots T + BitVec.ofNat 64 (16 * th.lane)) 16 false (fun s loc =>
      let v := s.homeNat loc 16
      let ends := fun (s : State) => s.updThread r (fun t => { t with svc := false })
      if bitAt v 65 then .trap (ends s) { cause := 0x1c2, sub := 0x01 }
      else if bitAt v 64 then .done ((ends s).giveSys r d 32 (bitsOf v 32 32))
      else .wait s 10) true))

/-! ## Coverage points (R361, R362) -/

/-- One lane of covpt: the next point of the workgroup's sequence. -/
def State.covptLane (s : State) (g : Guard) (d : Dst) (T : Team) (th : Thread) : LaneOut :=
  let r := T.ref th
  let W := s.wg T.launch T.wg
  match W.cover, (s.launch T.launch).ctrl with
  | some k, some C =>
    match (pointSeq k.pattern C.audit)[k.nextPt]? with
    | some (i, aud) =>
      let s1 := s.setWg { W with cover := some { k with nextPt := k.nextPt + 1, delivered := k.delivered ++ [i] } }
      .done (s1.giveSys r d 64 (i + (if aud then 2 ^ 30 else 0) + k.tile * 2 ^ 32))
    | none => .done (s.giveSys r d 64 (2 ^ 31 + k.tile * 2 ^ 32) (·.guardFalse g))
  | _, _ => .trap s { cause := 0x050, sub := 0x01 }

def execCovpt (g : Guard) (d : Dst) (s : State) : Host.Outcome State Fault Refusal :=
  .next (s.issueMem g d 64 [] [] (fun s T th => s.covptLane g d T th))

/-- The bits of an element of a type. -/
def elBits (t : Ty) : Nat :=
  match t with
  | .f64 => 64
  | .f32 | .i32 => 32
  | .f16 | .bf16 => 16
  | _ => 8

/-- The reconstruction unit takes the output sectors of its tile, as far as their pages translate (R85, R364). DEDUCED, log entry 83. -/
def State.coverOwn (s : State) (l w : Nat) : State :=
  let W := s.wg l w
  let L := s.launch l
  match W.cover, L.ctrl with
  | some k, some C =>
    let n := tilePoints k.pattern * (elBits (tyOf C.etype) / 8)
    let a : Agent := { core := W.core, launch := l, wg := w, asid := L.asid, home := W.home, priv := L.priv }
    let pages := (s.pagesOf a (C.outbase.toNat + k.tile * n) n .wr).filter (·.2.2)
    let secs := (pages.flatMap (fun x => sectorsOf x.1 x.2.1)).filter (fun sec => !k.owned.contains sec)
    secs.foldl State.dropClean (s.setWg { W with cover := some { k with owned := k.owned ++ secs } })
  | _, _ => s

/-- The stencil of a tile may be complete: then the unit owns its output (R85). -/
def State.stencilDone (s : State) (l w : Nat) : State :=
  match (s.wg l w).cover, (s.launch l).ctrl with
  | some k, some C => if k.full C.audit then s.coverOwn l w else s
  | _, _ => s

/-- One lane of covst. DEDUCED, log entry 11. -/
def State.covstLane (s : State) (t : Ty) (v b : Nat) (T : Team) : LaneOut :=
  let W := s.wg T.launch T.wg
  let bad := fun (k : Nat) => LaneOut.trap s { cause := 0x050, sub := k }
  match W.cover with
  | none => bad 0x01
  | some k =>
    let i := b % 4096
    if b / 2 ^ 31 = 1 ∨ bitsOf b 12 18 ≠ 0 then bad 0x02
    else if k.staged.any (·.1 == i) then bad 0x03
    else if !k.delivered.contains i then bad 0x04
    else .done ((s.setWg { W with cover := some { k with staged := k.staged ++ [(i, BitVec.ofNat 64 (v % 2 ^ elBits t))] } }).stencilDone T.launch T.wg)

/-- The element type of the coverage launch that the group belongs to. -/
def State.coverTy (s : State) : Option Ty :=
  (s.curTeams.head?.bind (fun T => (s.launch T.launch).ctrl)).map (fun C => tyOf C.etype)

/-- covst: with f64, A must be a 64-bit operand. -/
def execCovst (g : Guard) (a b : Src) (s : State) : Host.Outcome State Fault Refusal :=
  .next (
    let t := s.coverTy.getD .f32
    let w := if t = .f64 then 64 else 32
    if !(a.okIn 64 16 (-16) 15 false w) then s.groupFault { cause := 0x001 }
    else if !(a.aligned w) then s.groupFault { cause := 0x006 }
    else s.issueMem g .discard 32 [⟨2, a, w⟩, ⟨3, b, 32⟩] [] (fun s T th =>
      s.covstLane t (readSrc (s.tickOf T) (fmtOfTy t) w T th a) (readSrc (s.tickOf T) .int 32 T th b) T))

/-! ## Marks and counters (R383, R384) -/

/-- mark. -/
def execMark (g : Guard) (a : Src) (s : State) : Host.Outcome State Fault Refusal :=
  .next (s.teamLane g [⟨2, a, 32⟩] [⟨2, a, 32⟩] (fun s T th =>
    .done (s.trace (dieOf T.core) 1 (s.launch T.launch).asid (s.traceCore T.core) (s.traceQ T) (readSrc (s.tickOf T) .int 32 T th a) [])) false)

/-- A counter read: an outstanding result. -/
def State.ctrRead (s : State) (g : Guard) (d : Dst) (w : Nat) (f : Team → Thread → Nat) : State :=
  s.issueWith g d w [] [] (fun T th => .done (th.await d w (f T th) .sys th.clause s.slotNow s.slotSince) [])

def execCtrTick (g : Guard) (d : Dst) (s : State) : Host.Outcome State Fault Refusal := .next (s.ctrRead g d 64 (fun T _ => (s.tickOf T).toNat))
def execCtrMode (g : Guard) (d : Dst) (s : State) : Host.Outcome State Fault Refusal := .next (s.ctrRead g d 32 (fun _ th => th.mode.toNat))
def execCtrVote (g : Guard) (d : Dst) (s : State) : Host.Outcome State Fault Refusal := .next (s.ctrRead g d 32 (fun _ th => th.vote.toNat))

/-- MODE takes b, reserved bits as zero; y does not shift. -/
def execCtrSetmode (g : Guard) (b : Src) (s : State) : Host.Outcome State Fault Refusal :=
  .next (s.issue g .discard 32 [⟨3, b, 32⟩] (fun T th => .done { th with mode := readBv (s.tickOf T) .int 32 T th b &&& 0x00001f1f#32 } []))

/-- A windsock counter of the team; a deterministic launch has none. -/
def execCtrWindsock (g : Guard) (k : Nat) (d : Dst) (s : State) : Host.Outcome State Fault Refusal :=
  .next (s.issueWith g d 64 [] [] (fun T th =>
    if (s.launch T.launch).recd.det then .trap th { cause := 0x160, sub := 0x04 }
    else .done (th.await d 64 (T.windsock.getD k 0).toNat .sys th.clause s.slotNow s.slotSince) []))

/-! ## Traps and the return from the handler (R385, R386, R397, R288) -/

def execTrap (g : Guard) (n : Nat) (s : State) : Host.Outcome State Fault Refusal :=
  .next (s.perLane g [] (fun _ th => .trap th { cause := 0x1a0 + n }))

/-- One lane of tret. The first thread of a quarter lets its stopped matrix operation go, or start again. -/
def State.tretLane (s : State) (retry : Bool) (T : Team) (th : Thread) : LaneOut :=
  match th.status, th.frame with
  | .handler, some f =>
    if th.depth < f.depth then .trap s { cause := 0x04f, sub := 0x07 }
    else if retry && s.retryBlocked T f.recd then .wait s 6
    else
      let q := th.lane / 8
      let leader := (T.live.find? (fun x => x.lane / 8 == q)).map (·.lane) == some th.lane
      let s1 := s.updThread (T.ref th) (·.leaveHandler f retry)
      match (if f.recd.matrix && leader then T.stoppedOf f.recd q else none) with
      | some o => .done (s1.leaveMatrix T o retry)
      | none => .done s1
  | _, _ => .trap s { cause := 0x04f, sub := 0x06 }

/-- tret: a bound team returns as a whole or not at all. -/
def State.tret (s : State) (g : Guard) (retry : Bool) : State :=
  match s.cur with
  | none => s
  | some c =>
    if (s.groupTeams c.entry).any (fun T => T.bound && !(T.executing c.entry g).isEmpty && (T.executing c.entry g).length != T.live.length) then
      s.groupFaultAt { cause := 0x044, sub := 0x01 } 0
    else s.foldLanes g (fun s T th => s.tretLane retry T th)

def execTretRetry (g : Guard) (s : State) : Host.Outcome State Fault Refusal := .next (s.tret g true)
def execTretSkip (g : Guard) (s : State) : Host.Outcome State Fault Refusal := .next (s.tret g false)

/-! ## System registers and messages (R387, R388) -/

/-- The width of sysr and sysw: n32 or n64. -/
def sysBits (ty : Ty) : Nat := if ty = .n64 then 64 else 32

/-- A release of a lane: it comes after every earlier access of its thread, one that is still in the replay buffer too (R142). DEDUCED, log
entry 131. -/
def State.afterOwn (f : State → Team → Thread → LaneOut) (s : State) (T : Team) (th : Thread) : LaneOut :=
  if s.replays (T.ref th) then .wait s 4 else f s T th

def execSysr (g : Guard) (ty : Ty) (d : Dst) (a : Src) (s : State) : Host.Outcome State Fault Refusal :=
  .next (s.issueMem g d (sysBits ty) [⟨2, a, 32⟩] [] (fun s T th =>
    let (s1, v) := s.sysRead T.core (readSrc (s.tickOf T) .int 32 T th a)
    .done (s1.giveSys (T.ref th) d (sysBits ty) (v.toNat % 2 ^ sysBits ty))))
def execSysw (g : Guard) (ty : Ty) (a b : Src) (s : State) : Host.Outcome State Fault Refusal :=
  .next (s.issueMem g .discard 32 [⟨2, a, 32⟩, ⟨3, b, sysBits ty⟩] [] (State.afterOwn fun s T th =>
    .done (s.sysWrite T.core (readSrc (s.tickOf T) .int 32 T th a) (BitVec.ofNat 64 (readSrc (s.tickOf T) .int (sysBits ty) T th b)))))

/-- The physical core of a target field (R48, R388): 0x085 where its position does not exist or no map entry names it. -/
def State.meshTarget (s : State) (tgt : Nat) : Except Trap Nat :=
  let d := tgt / 64 % 8
  let row := tgt / 8 % 8
  let col := tgt % 8
  if 6 ≤ row ∨ 6 ≤ col then .error { cause := 0x085, sub := 0x10 }
  else
    let core := d * 36 + row * 6 + col
    if (List.range 34).any (fun n => s.meshCore d n == some core) then .ok core else .error { cause := 0x085, sub := 0x11 }

/-- msig: a nonzero result raises the signal interrupt of the core. -/
def execMsig (g : Guard) (tgt : Nat) (a : Src) (s : State) : Host.Outcome State Fault Refusal :=
  .next (s.issueMem g .discard 32 [⟨2, a, 32⟩] [] (State.afterOwn fun s T th =>
    match s.meshTarget tgt with
    | .error x => .trap s x
    | .ok core =>
      let K := s.core core
      let v := K.msignal ||| readBv (s.tickOf T) .int 32 T th a
      let s1 := s.setCore { K with msignal := v }
      .done (if v = 0 then s1 else s1.notify 0x400 core)))

/-- mpost. -/
def execMpost (g : Guard) (tgt : Nat) (a b : Src) (s : State) : Host.Outcome State Fault Refusal :=
  .next (s.issueMem g .discard 32 [⟨2, a, 64⟩, ⟨3, b, 32⟩] [] (State.afterOwn fun s T th =>
    let va := readBv (s.tickOf T) .int 64 T th a
    match s.meshTarget tgt with
    | .error x => .trap s x
    | .ok core =>
      let K := s.core core
      if va.toNat % 4 ≠ 0 then .trap s { cause := 0x084, addr := va }
      else if 16 ≤ K.mpost.length then .wait s 15
      else .done (s.setCore { K with mpost := K.mpost ++ [(va, readBv (s.tickOf T) .int 32 T th b)] })))

/-! ## Invalidation (R389, R390) and the fault record (R391) -/

/-- A tlbinv in each lane. -/
def State.tlbinvOp (s : State) (g : Guard) (a b : Src) (f : State → Nat → Nat → State) : State :=
  s.issueMem g .discard 32 [⟨2, a, 64⟩, ⟨3, b, 32⟩] [] (fun s T th =>
    .done (f s (readSrc (s.tickOf T) .int 64 T th a) (readSrc (s.tickOf T) .int 32 T th b % 1024)))

def execTlbinvPage (g : Guard) (a b : Src) (s : State) : Host.Outcome State Fault Refusal :=
  .next (s.tlbinvOp g a b (fun s va asid => s.tlbPage asid va))
def execTlbinvAsid (g : Guard) (a b : Src) (s : State) : Host.Outcome State Fault Refusal := .next (s.tlbinvOp g a b (fun s _ asid => s.tlbSpace asid))
def execTlbinvAll (g : Guard) (a b : Src) (s : State) : Host.Outcome State Fault Refusal := .next (s.tlbinvOp g a b (fun s _ _ => s.tlbDrop (fun _ => true) (fun _ => true)))

/-- The lines, by location, that an address range reaches. -/
def State.linesOf (s : State) (T : Team) (va n : Nat) : List Nat :=
  if n = 0 then []
  else (List.range ((va + n - 1) / 128 + 1 - va / 128)).filterMap (fun k =>
    match (s.translate (s.agent T) (BitVec.ofNat 64 ((va / 128 + k) * 128)) .rd).2 with
    | .ok loc _ _ => some (loc / 128)
    | _ => none)

/-- The lines, by location, that the clause of an entry may stand in; none where its address does not translate now. -/
def State.entryLines (s : State) (e : Entry) : Option (List Nat) :=
  let a : Agent := { core := e.core, launch := e.launch, wg := 0, asid := (s.launch e.launch).asid, home := 0, priv := false, l1 := true }
  let at_ := fun (k : Nat) =>
    let va := (e.addr.toNat + k) % 2 ^ 64
    (s.tlbFind a va).map (fun t => s.locOf (dieOf e.core) (t.ppn * 2 ^ t.bits + va % 2 ^ t.bits) / 128)
  match at_ 0, at_ 63 with
  | some a, some b => some [a, b]
  | _, _ => none

/-- The instruction copies of lines go, in every core and in the clause buffers. -/
def State.dropFetch (s : State) (lines : List Nat) : State :=
  { s with
    cores := s.cores.map (fun K => { K with icache := lines.foldl (fun m l => ByteMap.delAll m (l * 128) 128) K.icache })
    entries := s.entries.map (fun e => match s.entryLines e with
      | some ls => if ls.any (lines.contains ·) then { e with words := [] } else e
      | none => { e with words := [] }) }

/-- cflush. -/
def execCflush (g : Guard) (a b : Src) (s : State) : Host.Outcome State Fault Refusal :=
  .next (s.issueMem g .discard 32 [⟨2, a, 64⟩, ⟨3, b, 32⟩] [] (fun s T th =>
    let va := readBv (s.tickOf T) .int 64 T th a
    let n := readSrc (s.tickOf T) .int 32 T th b
    .done ((s.maintain T true true va n).dropFetch (s.linesOf T va.toNat n))))

/-- fltrd. -/
def execFltrd (g : Guard) (d : Dst) (a : Src) (s : State) : Host.Outcome State Fault Refusal :=
  .next (s.issueWith g d 32 [⟨2, a, 32⟩] [] (fun T th =>
    let k := readSrc (s.tickOf T) .int 32 T th a
    let v := match th.delivered with
      | some r => if k < 16 then (r.word k).toNat else 0
      | none => 0
    .done (th.await d 32 v .sys th.clause s.slotNow s.slotSince) []))

end Sys2Proof.Machine
end

