-- ==== Sys2Proof/Machine/Move.lean ====
section
/-!
DEFINITION. Machine/Move.lean: what Gondola and the loader rewrite when an image moves: the class 0x8 leaves that name a core's scratchpad
(02 R40), and the C fields of msig and mpost in resident code images (02 R48 to R50).
-/

namespace Sys2Proof.Machine

/-! ## Leaves that name a scratchpad (R40) -/

/-- The places of a table's entries that are not zero. -/
def State.tableEntries (s : State) (table : Nat) : List Nat :=
  ((s.mem.filter (fun c => decide (table ≤ c.1) && decide (c.1 < table + 4096))).map (fun c => c.1 / 8 * 8)).dedup

/-- The places and the levels of the valid leaves under a table of a level. -/
def State.leavesUnder (s : State) : Nat → Nat → List (Nat × Nat)
  | 0, table => ((s.tableEntries table).filter (fun a => s.homeNat a 8 % 2 == 1)).map (·, 0)
  | l + 1, table => (s.tableEntries table).flatMap (fun a =>
      let e := s.homeNat a 8
      if e % 2 = 0 then [] else if e / 64 % 2 = 1 then [(a, l + 1)]
      else if e / 2 ^ 51 % 2 = 1 then [] else State.leavesUnder s l (e / 2 ^ 12 % 2 ^ 40 * 4096))

/-- The bytes that a leaf of a level maps. -/
def leafBytes (level : Nat) : Nat := 2 ^ (12 + 9 * level)

/-- The page frame of a leaf. -/
def leafFrame (e : Nat) : Nat := e / 2 ^ 12 % 2 ^ 40

/-- The class 0x8 leaves of every address space that name some of n bytes of a core's scratchpad from an offset on: the place of each, its level and its
distance from that offset. -/
def State.scratchLeaves (s : State) (core off n : Nat) : List (Nat × Nat × Int) :=
  let lo := scratchPa core off
  ((s.spaces.flatMap (fun x => s.leavesUnder 4 x.root)).dedup).filterMap (fun a =>
    let pa := leafFrame (s.homeNat a.1 8) * 4096
    if placeClass pa = 8 ∧ pa < lo + n ∧ lo < pa + leafBytes a.2 then some (a.1, a.2, (pa : Int) - lo) else none)

/-- Writes a leaf that Gondola owns. -/
def State.putLeaf (s : State) (core a e : Nat) : State := s.putMarked (dieOf core) a (leBytes 8 e)

/-- The translations of n bytes of a core's scratchpad go (tlbinv). -/
def State.dropScratch (s : State) (core off n : Nat) : State :=
  let lo := scratchPa core off
  s.tlbDrop (fun t => decide (t.ppn * 2 ^ t.bits < lo + n) && decide (lo < (t.ppn + 1) * 2 ^ t.bits)) (fun _ => false)

/-- The image leaves its core: the leaves that name it are taken out until it lies on a core again. DESIGN CHOICE, log entry 128. -/
def State.unmapScratch (s : State) (core off n : Nat) : State :=
  ((s.scratchLeaves core off n).foldl (fun a x => a.putLeaf core x.1 (a.homeNat x.1 8 / 2 * 2)) s).dropScratch core off n

/-- The image lies on a core: leaves, given by their places, levels and distances, name it. One that would not be aligned to its size can name it
nowhere, and stays taken out. DESIGN CHOICE, log entry 128. -/
def State.mapScratch (s : State) (core off : Nat) (leaves : List (Nat × Nat × Int)) : State :=
  leaves.foldl (fun a x =>
    let e := a.homeNat x.1 8
    let pa := ((scratchPa core off : Int) + x.2.2).toNat
    if pa % leafBytes x.2.1 = 0 ∧ placeClass pa = 8 then a.putLeaf core x.1 (e % 2 ^ 12 / 2 * 2 + 1 + pa + e / 2 ^ 52 * 2 ^ 52)
    else a.putLeaf core x.1 (e / 2 * 2)) s

/-- A core's whole scratchpad is another core's from now on. -/
def State.renameScratch (s : State) (old new : Nat) : State :=
  let ls := s.scratchLeaves old 0 0x100000
  (s.mapScratch new 0 ls).dropScratch old 0 0x100000

/-! ## Code with mesh coordinates (R49, R50) -/

/-- The location of a byte of a code image. -/
def CodeImage.at (im : CodeImage) (off : Nat) : Option Nat := (im.runs[off / 4096]?).map (· + off % 4096)

/-- The fields of a `.meshreloc` record: OFFSET, and the die and the MESH_MAP entry it names; none where it is reserved. -/
def relocTarget (r : BitVec 64) : Option (Nat × Nat × Nat) :=
  let n := r.toNat
  let kind := n / 2 ^ 24 % 256
  if n / 2 ^ 11 % 2 ^ 13 ≠ 0 ∨ n % 8 ≠ 0 ∨ 2 < kind then none
  else some (n / 2 ^ 32, n / 256 % 8, if kind = 0 then n / 64 % 4 * 8 + n / 8 % 8 else 31 + kind)

/-- Must the loader refuse a record of an image? -/
def State.relocBad (s : State) (im : CodeImage) (r : BitVec 64) : Bool :=
  match relocTarget r with
  | none => true
  | some (off, die, n) => decide (im.len < off + 4) || (s.meshCore die n).isNone

/-- Writes the physical target of a record into the C field of its word 1. -/
def State.relocate (s : State) (im : CodeImage) (r : BitVec 64) : State :=
  match relocTarget r with
  | none => s
  | some (off, die, n) =>
    match s.meshCore die n with
    | none => s
    | some core =>
      let places := (List.range 4).filterMap (fun k => im.at (off + k))
      let w := leNat (places.map s.homeByte)
      let c := die * 64 + core % 36 / 6 * 8 + core % 36 % 6
      let w1 := w % 2 ^ 15 + c * 2 ^ 15 + w / 2 ^ 24 * 2 ^ 24
      let s1 := (places.zip (leBytes 4 w1)).foldl (fun a x => a.putMarked die x.1 [x.2]) s
      s1.dropFetch ((places.map (· / 128)).dedup)

/-- Applies every `.meshreloc` record of an image. -/
def State.relocateAll (s : State) (im : CodeImage) : State := im.recs.foldl (fun a r => a.relocate im r) s

/-! ## Data sections (R162) -/

/-- The pages of a section. -/
def sectionPages (n : Nat) : Nat := (n + 4095) / 4096

/-- The address of the data section: the first 4 KiB boundary after the code section. -/
def CodeImage.dataBase (im : CodeImage) : Nat := (im.base + im.len + 4095) / 4096 * 4096

/-- The place and the level of the leaf that maps an address, or of the level 0 entry where it would stand. -/
def State.leafPlace (s : State) (va : Nat) : Nat → Nat → Option (Nat × Nat)
  | 0, table => some (table + va / 4096 % 512 * 8, 0)
  | l + 1, table =>
    let a := table + va / leafBytes (l + 1) % 512 * 8
    let e := s.homeNat a 8
    if e % 2 = 0 then none else if e / 64 % 2 = 1 then some (a, l + 1) else State.leafPlace s va l (e / 2 ^ 12 % 2 ^ 40 * 4096)

/-- A page of the data section is mapped with NX = 1 and W = 1, where the tables have a place for its leaf. DEDUCED, log entry 141. -/
def State.mapData (s : State) (im : CodeImage) (k : Nat) : State :=
  match (s.rootOf im.asid).bind (s.leafPlace (im.dataBase + 4096 * k) 4), im.runs[sectionPages im.len + k]? with
  | some (a, 0), some run =>
    let t := s.putLeaf 0 a (2 ^ 63 + run / 4096 * 4096 + s.homeNat a 8 % 2 ^ 12 / 8 % 4 * 8 + 0x47)
    t.tlbDrop (fun x => x.asid == im.asid && x.vpn * 2 ^ x.bits / 4096 == (im.dataBase + 4096 * k) / 4096) (fun _ => false)
  | _, _ => s

/-- The fields of a `.datareloc` record: OFFSET, whether the high word is written, and the address it names; none where the loader refuses it: a
reserved value, an OFFSET that is no place of the code section or a TARGET outside its section. DEDUCED, log entry 141. -/
def CodeImage.literal (im : CodeImage) (r : BitVec 64) : Option (Nat × Bool × Nat) :=
  let n := r.toNat
  let off := n / 2 ^ 32
  let kind := n / 2 ^ 30 % 4
  let sect := n / 2 ^ 28 % 4
  let target := n % 2 ^ 28
  if 1 < kind ∨ 1 < sect ∨ off % 4 ≠ 0 ∨ im.len < off + 4 ∨ (if sect = 0 then im.len else im.dlen) ≤ target then none
  else some (off, kind == 1, (if sect = 0 then im.base else im.dataBase) + target)

/-- Writes bits [31:0] or [63:32] of a label's address into a literal. -/
def State.putLiteral (s : State) (im : CodeImage) (r : BitVec 64) : State :=
  match im.literal r with
  | none => s
  | some (off, hi, va) =>
    let places := (List.range 4).filterMap (fun k => im.at (off + k))
    let s1 := (places.zip (leBytes 4 (if hi then va / 2 ^ 32 else va))).foldl (fun a x => a.putMarked 0 x.1 [x.2]) s
    s1.dropFetch ((places.map (· / 128)).dedup)

/-- The loader places a kernel, or refuses it whole (R50, R162). -/
def State.load (s : State) (im : CodeImage) : State :=
  if im.recs.any (s.relocBad im) || im.drecs.any (fun r => (im.literal r).isNone) then s
  else
    let s1 := (List.range (sectionPages im.dlen)).foldl (fun a k => a.mapData im k) s
    let s2 := im.drecs.foldl (fun a r => a.putLiteral im r) s1
    let s3 := s2.relocateAll im
    { s3 with images := s3.images ++ [im] }

end Sys2Proof.Machine
end

