-- ==== Sys2Proof/Machine/Module.lean ====
section
/-!
DEFINITION. Machine/Module.lean: operations of the module as a whole: bring-up and reset (24 R426 to R429), the Stoland links
(01 R14), requests from other endpoints (R20 to R25; 07 R150), the directory (R23, R24), fabric ports (R431), accesses to
registers from outside the cores, L2 write-backs (R19) and the throttle controllers (24 R434). An operation whose condition does
not hold, or whose request must still wait, leaves the state as it is.
-/

namespace Sys2Proof.Machine

/-- A free 64-bit value, and the counter advanced. -/
def State.free64 (s : State) : BitVec 64 × State := (Config.freeWord s.freeCount, { s with freeCount := s.freeCount + 1 })

/-! ## Bring-up (R426 to R428) -/

/-- All state that programs can see is discarded; the populated DIMMs and the links of the platform, the other endpoints and what is still to come stay. -/
def State.fresh (s : State) : State :=
  { State.reset with
    remote := s.remote, agenda := s.agenda, env := s.env, freeCount := s.freeCount
    bring := { powered := true, step := 1, dimm := s.bring.dimm, badDimm := s.bring.badDimm, badLink := s.bring.badLink } }

/-- The links train and the ticks are aligned, steps 2 and 3; which fabric ports have a partner, this module's endpoint id and
whether a directory answers is free. A link that does not train is reported, and leaves every region not ready (R427); empty or
mixed DIMM channels are reported (R12). DESIGN CHOICE, log entry 53. -/
def State.train (s : State) : State :=
  let (w, s1) := s.free64
  let untrained := s1.bring.badLink
  let all_ : List Link := List.replicate 48 { state := .up }
  { s1 with
    tick := 0
    links := match untrained with
      | some n => setAt all_ n {}
      | none => all_
    ports := (List.range 16).map (w.getLsbD ·)
    fabricCaps := w.truncate 32 &&& 0x83ffffff#32
    bring := { s1.bring with
      step := if untrained.isSome then 2 else 4, host := true, fabric := true, stoland := untrained.isNone
      cause := if untrained.isSome then 2 else if s1.bring.badDimm.isSome then 1 else s1.bring.cause
      named := (untrained.or s1.bring.badDimm).getD s1.bring.named } }

def execPowerGood (s : State) : Host.Outcome State Fault Refusal := .next s.fresh.train
def execModuleReset (s : State) : Host.Outcome State Fault Refusal := .next s.fresh.train

/-- The number of regions of the module. -/
def State.allRegions (s : State) : Nat := s.dramTop / 2 ^ 40

/-- The next region is zeroed with seals of zero (R427). -/
def State.regionInit (s : State) : State :=
  let k := s.bring.regions
  if !s.bring.stoland || s.bring.badDimm.isSome || s.allRegions ≤ k then s
  else
    let inside := fun (a : Nat) => a / 2 ^ 40 == k
    let out := fun (l : List Nat) => l.filter (fun sec => !inside (sec * 64))
    { s with
      mem := s.mem.filter (fun c => !inside c.1)
      badSeals := out s.badSeals, pinned := out s.pinned, poison := out s.poison
      bring := { s.bring with regions := k + 1, step := if k + 1 = s.allRegions then 5 else s.bring.step } }

def execMemoryRegionInit (s : State) : Host.Outcome State Fault Refusal := .next s.regionInit

/-- Step 5 for a die: its Gondola core runs the firmware that has been loaded, once the memory has been initialised; a load that fails is reported
(R28). Its user cores and its service blocks start afterwards. -/
def State.firmware (s : State) (d : Nat) (ok : Bool) : State :=
  if !s.bring.host || 8 ≤ d || !s.bring.stoland || s.bring.regions < s.allRegions then s
  else if !ok then (if s.bring.gondola.getLsbD d then s else { s with bring := { s.bring with cause := 4, named := d } })
  else { s with bring := { s.bring with gondola := s.bring.gondola ||| BitVec.ofNat 8 (2 ^ d) } }

/-- The user cores of a die whose Gondola runs can take workgroups (R428). When is free. DESIGN CHOICE, log entry 142. -/
def State.startCompute (s : State) (d : Nat) : State :=
  if s.bring.gondola.getLsbD d then { s with bring := { s.bring with compute := s.bring.compute ||| BitVec.ofNat 8 (2 ^ d) } } else s

/-- The service blocks of a die start to serve queue 63, the last act of step 5; its ring lies where Gondola has put it (R351, R356, R426). When, and
where the ring lies, is free. DESIGN CHOICE, log entry 142. -/
def State.startService (s : State) (d : Nat) : State :=
  if !s.bring.gondola.getLsbD d || s.bring.svc.getLsbD d then s
  else
    let (f, s1) := s.freeFrame
    State.setWorkq { s1 with bring := { s1.bring with svc := s1.bring.svc ||| BitVec.ofNat 8 (2 ^ d) } }
      { s1.workq d 63 with state := .open, ringbase := BitVec.ofNat 64 (f * 2 ^ 23), ringlen := 1024 }

def execFirmwareLoad (f : FirmwareImage) (s : State) : Host.Outcome State Fault Refusal := .next (s.firmware f.die f.ok)

/-- A junction beyond its shutdown limit: the module resets itself and says why (R434, R28). -/
def execThermalShutdown (d : Nat) (s : State) : Host.Outcome State Fault Refusal :=
  .next (let t := s.fresh; State.train { t with bring := { t.bring with cause := 3, named := d } })

/-! ## Links (R14) -/

/-- A link. -/
def State.link (s : State) (n : Nat) : Link := s.links.getD n {}

/-- Writes a link back. -/
def State.setLink (s : State) (n : Nat) (k : Link) : State := { s with links := setAt s.links n k }

def execFlitCrcRetry (n : Nat) (s : State) : Host.Outcome State Fault Refusal :=
  .next (s.setLink n { s.link n with errors := (s.link n).errors + 1 })
def execLinkRetrain (n : Nat) (s : State) : Host.Outcome State Fault Refusal :=
  .next (if (s.link n).state = .up then s.setLink n { s.link n with state := .retraining, since := s.tick.toNat } else s)
def execLinkFailed (n : Nat) (s : State) : Host.Outcome State Fault Refusal :=
  .next (if (s.link n).state = .retraining then s.failLink n else s)
def execLinkTrainedAgain (n : Nat) (s : State) : Host.Outcome State Fault Refusal :=
  .next (if (s.link n).state = .retraining then s.setLink n { s.link n with state := .up } else s)

/-! ## Requests of other endpoints (R20, R21, R150) -/

/-- Does a remote request of n bytes reach bytes of this module: DRAM below DRAM_TOP, or a scratchpad? -/
def State.remoteOk (s : State) (pa n : Nat) : Bool :=
  (s.layoutBad 0 pa).isNone && (s.layoutBad 0 (pa + n - 1)).isNone && (decide (placeClass pa < 8) || placeClass pa == 8)
    && placeClass pa == placeClass (pa + n - 1)

/-- May a remote request be performed now: its home can be reached and no engine owns it? DEDUCED, log entry 56. -/
def State.remoteReady (s : State) (pa n : Nat) (wr : Bool) : Bool := s.reach pa = .yes && !s.engineHolds pa n wr

/-- The sizes of fabric reads and writes. -/
def fabricSize (pa n : Nat) : Bool := (n == 64 || n == 128 || n == 192 || n == 256) && pa % n == 0

/-- A machine-check interrupt to Gondola for a sector that fails its check on a fabric hop: its address. DESIGN CHOICE, log entry 27. -/
def State.hopNotice (s : State) (loc : Nat) : State := s.notify 0x091 (sectorOf loc * 64)

/-- A read: the seals are checked at egress; data with a bad one do not leave. -/
def execFabricRemoteRead (pa n : Nat) (_ : Bool) (s : State) : Host.Outcome State Fault Refusal :=
  .next (
    if !fabricSize pa n || !s.remoteOk pa n || !s.remoteReady pa n false then s
    else if s.sealBadRange pa n then State.hopNotice { s with answer := [] } pa
    else { s with answer := s.homeBytes pa n })

/-- A write: a host's sectors take fresh seals at the ingress port; the seals of another module's travel with them, and are checked at the
receiving port, where one that is bad ends the write (R16, R17, R21). DEDUCED, log entry 92. In partitioned mode a request of another endpoint works
through the partition of die 0. DESIGN CHOICE, log entry 143. -/
def execFabricRemoteWrite (pa : Nat) (bytes : List (BitVec 8)) (w : FabricWrite) (s : State) : Host.Outcome State Fault Refusal :=
  .next (
    if !fabricSize pa bytes.length || !s.remoteOk pa bytes.length || !s.remoteReady pa bytes.length true then s
    else if w.src = .g9 false then s.hopNotice pa
    else (s.writeHome pa bytes).getD s)

/-- What a remote atomic of n bytes writes over an old value (R25). -/
def RemoteOp.newValue (op : RemoteOp) (n old x y : Nat) : Nat :=
  let m := 2 ^ (8 * n)
  let sx := signed (8 * n)
  match op with
  | .add => (old + x) % m
  | .and => old &&& x % m
  | .or => old ||| x % m
  | .xor => old ^^^ x % m
  | .swap => x % m
  | .min => if sx old ≤ sx (x % m) then old else x % m
  | .max => if sx (x % m) ≤ sx old then old else x % m
  | .umin => min old (x % m)
  | .umax => max old (x % m)
  | .cas => if old = x % m then y % m else old

/-- An atomic: the old value is the answer. -/
def execFabricRemoteAtomic (op : RemoteOp) (pa n : Nat) (x y : BitVec 64) (_ : Ord) (s : State) : Host.Outcome State Fault Refusal :=
  .next (
    if !(n == 4 || n == 8) || pa % n != 0 || !s.remoteOk pa n || !s.remoteReady pa n true then s
    else if s.sealBadRange pa n then State.hopNotice { s with answer := [] } pa
    else
      let old := s.homeNat pa n
      let s1 := (s.writeHome pa (leBytes n (RemoteOp.newValue op n old x.toNat y.toNat))).getD s
      { s1 with answer := leBytes n old })

/-- A recall or a downgrade of a line: it is answered with the L2 data, after an owning engine's write; dirty bytes of a core are no part
of the answer (R23). The seals are checked at egress (R17). A downgraded line stays held, and is no longer dirty. -/
def execDirectoryRecall (r : Recall) (s : State) : Host.Outcome State Fault Refusal :=
  let line := r.line
  .next (if s.owned (line * 128) 128 then s
    else if s.sealBadRange (line * 128) 128 then State.hopNotice { s with answer := [] } (line * 128)
    else { s with
      answer := s.homeBytes (line * 128) 128
      shared := if r.downgrade then s.shared else s.shared.filter (· != line)
      l2Valid := if r.downgrade || !s.shared.contains line then s.l2Valid else s.l2Valid.filter (·.1 / 2 != line)
      l2Dirty := if s.shared.contains line then s.l2Dirty.filter (· / 2 != line) else s.l2Dirty })

/-- The directory is lost: the shared lines go, their bytes being at their home (R24). -/
def execDirectoryUnreachable (s : State) : Host.Outcome State Fault Refusal :=
  .next (
    if !s.fabricCaps.getLsbD 31 then s
    else { s.shared.foldl (fun a line => (a.dropClean (2 * line)).dropClean (2 * line + 1)) s with
        dirLost := true
        shared := []
        l2Valid := s.l2Valid.filter (fun x => !s.shared.contains (x.1 / 2))
        l2Dirty := s.l2Dirty.filter (fun sec => !s.shared.contains (sec / 2)) })

/-- A fabric port fails: engine writes over the fabric that are in progress fail with it (R78, R431),
with sub-code 0x30 + port. DESIGN CHOICE, log entry 110. -/
def execFabricPortFailed (port : Nat) (s : State) : Host.Outcome State Fault Refusal :=
  .next (if !(s.ports.getD port false) then s
    else
      { s with
        ports := setAt s.ports port false
        fabricCaps := s.fabricCaps &&& ~~~(1#32 <<< port)
        deviceHealth := bumpHealth s.deviceHealth 8
        inflight := s.inflight.map (fun i =>
          if i.result.isNone && i.owned.any (fun sec => !isLocal (sec * 64)) then { i with result := some (0x1e2, 0x30 + port) } else i) })

/-! ## PCIe (R27, R28) -/

/-- A mailbox. -/
def State.mailbox (s : State) (m : Nat) : Mailbox := s.mailboxes.getD m {}

/-- Writes a mailbox back. -/
def State.setMailbox (s : State) (m : Nat) (k : Mailbox) : State := { s with mailboxes := setAt s.mailboxes m k }

/-- STATUS of a mailbox. -/
def Mailbox.status (k : Mailbox) : Nat := k.result * 256 + k.done.toNat * 2 + k.busy.toNat

/-- One byte of BAR2. -/
def State.barByte (s : State) (off : Nat) : Byte :=
  if 0x1000000 ≤ off then (ByteMap.get? s.staging off).getD 0
  else if 0x10000 ≤ off then 0
  else
    let k := s.mailbox (off / 4096)
    let o := off % 4096
    if o < 0x100 then (ByteMap.get? k.req o).getD 0
    else if o < 0x200 then (ByteMap.get? k.rsp (o - 0x100)).getD 0
    else if 0x208 ≤ o ∧ o < 0x210 then BitVec.ofNat 8 (k.status / 256 ^ (o - 0x208))
    else 0

/-- Writes one byte of BAR2: a doorbell submits REQ unless the mailbox is busy or done; DONE is cleared by writing 1. -/
def State.barPut (s : State) (off : Nat) (b : Byte) : State :=
  if 0x1000000 ≤ off then { s with staging := ByteMap.put s.staging off b }
  else if 0x10000 ≤ off then s
  else
    let m := off / 4096
    let k := s.mailbox m
    let o := off % 4096
    if o < 0x100 then s.setMailbox m { k with req := ByteMap.put k.req o b }
    else if o = 0x200 then (if b.getLsbD 0 && !k.busy && !k.done then s.setMailbox m { k with busy := true } else s)
    else if o = 0x208 then (if b.getLsbD 1 then s.setMailbox m { k with done := false } else s)
    else s

/-- n free bytes, eight for each free value. -/
def State.freeBytes (s : State) (n : Nat) : List Byte × State :=
  let k := (n + 7) / 8
  (((List.range k).flatMap (fun i => leBytes 8 (Config.freeWord (s.freeCount + i)).toNat)).take n, { s with freeCount := s.freeCount + k })

/-- A request at the two BARs; any other completes as Unsupported Request, with no answer. What the management registers of BAR0
hold is not stated: a read of one is free, a write changes nothing that is described. DESIGN CHOICE, log entry 55. -/
def State.pcie (s : State) (r : PcieReq) : State :=
  if !s.bring.host then { s with answer := [] }
  else match r with
    | .read 0 off n =>
      if 2 ^ 25 < off + n then { s with answer := [] }
      else
        let (bs, s1) := s.freeBytes n
        { s1 with answer := bs }
    | .read 2 off n => { s with answer := if 2 ^ 28 < off + n then [] else (List.range n).map (fun k => s.barByte (off + k)) }
    | .write 2 off bs =>
      if 2 ^ 28 < off + bs.length then { s with answer := [] }
      else (bs.zipIdx).foldl (fun a x => a.barPut (off + x.2) x.1) { s with answer := [] }
    | _ => { s with answer := [] }

def execPcieBarRequest (r : PcieReq) (s : State) : Host.Outcome State Fault Refusal := .next (s.pcie r)

/-- Must an operation wait: a request of another endpoint whose home cannot be reached yet or is owned by an engine, a recall of an owned line, or an
access to a debug window whose owners do not stand at a boundary (R14, R23, R35, R80, R429)? -/
def State.mustWait (s : State) : Instr → Bool
  | .fabricRemoteRead pa n _ => fabricSize pa n && s.remoteOk pa n && !s.remoteReady pa n false
  | .fabricRemoteWrite pa bs _ => fabricSize pa bs.length && s.remoteOk pa bs.length && !s.remoteReady pa bs.length true
  | .fabricRemoteAtomic _ pa n _ _ _ => (n == 4 || n == 8) && pa % n == 0 && s.remoteOk pa n && !s.remoteReady pa n true
  | .directoryRecall r => s.owned (r.line * 128) 128
  | .debugWindowAccess pa _ => placeClass pa == 0xa && (s.layoutBad 0 pa).isNone && pa % 4 == 0 && !s.windowReady (coreOfPa pa) (pa % 2 ^ 21)
  | _ => false

/-! ## Registers from outside a program -/

def execStopTickWrite (v : BitVec 64) (s : State) : Host.Outcome State Fault Refusal := .next (s.armStop v)

/-- The tick reaches STOP_TICK: every clock domain is gated (R414). -/
def State.stopMatch (s : State) : State := if s.stopTick ≠ 0 ∧ s.tick = s.stopTick then { s with gated := true } else s

def execStopTickMatch (s : State) : Host.Outcome State Fault Refusal := .next s.stopMatch

/-- A write of a register by number: a system register below 2^16; from 2^28 on, offset [23:0] of MMIO unit [27:24] (R34, R387). -/
def execRegisterWrite (core : Nat) (r : RegRef) (v : BitVec 64) (s : State) : Host.Outcome State Fault Refusal :=
  .next (if r.number < 2 ^ 16 then s.sysWrite core r.number v
    else if r.number / 2 ^ 28 = 1 then s.mmioPut (r.number / 2 ^ 24 % 16) (r.number % 2 ^ 24 / 8 * 8) v else s)

/-- A write of 8 bytes of a tile entry (R64). -/
def execTileEntryWrite (pa : Nat) (v : BitVec 64) (s : State) : Host.Outcome State Fault Refusal :=
  .next (if placeClass pa = 9 ∧ (s.layoutBad 0 pa).isNone ∧ pa % 8 = 0 then s.placeStore pa 8 v.toNat else s)

/-- An access to a debug window: it is carried out when its owners stand at a clause boundary (R35). -/
def execDebugWindowAccess (pa : Nat) (wr : Option (BitVec 32)) (s : State) : Host.Outcome State Fault Refusal :=
  .next (
    if placeClass pa ≠ 0xa ∨ (s.layoutBad 0 pa).isSome ∨ pa % 4 ≠ 0 ∨ !s.windowReady (coreOfPa pa) (pa % 2 ^ 21) then s
    else match wr with
      | none => { s with answer := leBytes 4 (s.placeLoad pa 4) }
      | some v => s.placeStore pa 4 v.toNat)

def execL2ModeChange (v : BitVec 32) (s : State) : Host.Outcome State Fault Refusal := .next (s.l2Write v)

def execMpostpopRead (core : Nat) (s : State) : Host.Outcome State Fault Refusal :=
  .next (let (s1, v) := s.mpostPop core; { s1 with answer := leBytes 8 v.toNat })

/-- A dirty L2 sector goes to its DIMM: the egress check pins a bad one; over a failed link it is discarded (R14, R19). DEDUCED, log entry 57. -/
def State.l2Back (s : State) (sec : Nat) : State :=
  if !s.l2Dirty.contains sec then s
  else
    let gone := { s with l2Dirty := s.l2Dirty.filter (· != sec) }
    match s.reach (sec * 64) with
    | .wait => s
    | .failed _ => gone
    | .yes => if s.sealBad (sec * 64) then (s.pinSector 0 sec).sealNotice sec none else gone

def execL2Writeback (sec : Nat) (s : State) : Host.Outcome State Fault Refusal := .next (s.l2Back sec)

/-! ## Errors of memories and units (R11, R15, R400, R431) -/

/-- A corrected soft error is counted; at 0x8000 of them the module asks for service (R431, R433). -/
def State.countCe (s : State) : State :=
  let n := s.deviceHealth.toNat / 2 ^ 16 % 2 ^ 16
  if n = 0xffff then s
  else
    let s1 := { s with deviceHealth := s.deviceHealth + 0x10000#64 }
    if n + 1 = 0x8000 then s1.serviceReq else s1

/-- What an error does when it comes about. DESIGN CHOICE, log entry 109. -/
def State.meet (s : State) : EnvEvent → State
  | .corrected _ | .softError _ => s.countCe
  | .damaged sec => { s with badSeals := if s.badSeals.contains sec then s.badSeals else sec :: s.badSeals }
  | .badReg t code =>
    let add := fun (l : List Nat) => if l.contains code then l else code :: l
    if 0x110 ≤ code && code < 0x150 then s.updTeam t.launch t.wg t.team (fun T => { T with ecc := add T.ecc })
    else s.updThread t (fun th => { th with ecc := add th.ecc })
  | .badRow core row => let K := s.core core; s.setCore { K with eccRows := if K.eccRows.contains row then K.eccRows else row :: K.eccRows }
  | .unitFailed die unit => s.unitFails die unit
  | .loaded im => s.load im
  | .firmware core asid clause => s.startFirmware core asid clause
  | .unloaded n => { s with images := s.images.eraseIdx n }
  | .fitted n bad => if !s.bring.powered && [64, 128, 256].contains n then { s with bring := { s.bring with dimm := n, badDimm := bad } } else s
  | .badLink n => { s with bring := { s.bring with badLink := n } }
  | .directoryBack => { s with dirLost := false }

/-- The next error that is still to come. -/
def State.envStep (s : State) : State :=
  match s.env with
  | [] => s
  | e :: rest => State.meet { s with env := rest } e

/-! ## Power (R434, R424) -/

/-- A throttle controller changes its die's clock, voltage or issue limit, and writes a THROTTLE record. -/
def execThrottleChange (d : Nat) (t : Throttle) (s : State) : Host.Outcome State Fault Refusal :=
  .next (
    let s1 := s.setDie d { s.die d with clock := t.clock, voltage := t.voltage, issueLimit := t.limit }
    s1.trace d 2 0 0xffff 0
      (t.clock % 2 ^ 16 + t.voltage % 2 ^ 16 * 2 ^ 16 + t.limit % 256 * 2 ^ 32 + t.cause % 4 * 2 ^ 40) [])

end Sys2Proof.Machine
end

