-- ==== Sys2Proof/Machine/Chain.lean ====
section
/-!
DEFINITION. Machine/Chain.lean: the engines at work: taking an entry of a command chain and checking it, copies, collectives, and
completion (04 R74 to R82; 01 R29; 03 R66).
-/

namespace Sys2Proof.Machine

/-! ## Accesses of an engine (R43, R69, R78) -/

/-- How an access of an engine ends: a value, a failure, a translation that Gondola must end, or a wait. -/
inductive EngOut (α : Type) where
  | ok (s : State) (a : α)
  | fail (s : State) (x : Trap)
  | stall (s : State) (va : BitVec 64) (cause : Nat)
  | wait (s : State)

/-- Goes on where an access has ended well. -/
def EngOut.then {α β : Type} (x : EngOut α) (k : State → α → EngOut β) : EngOut β :=
  match x with
  | .ok s a => k s a
  | .fail s t => .fail s t
  | .stall s v c => .stall s v c
  | .wait s => .wait s

/-- The engines of a workgroup translate through its launch's address space and its core's windows (R69). -/
def State.engineAgent (s : State) (l w : Nat) : Agent :=
  let W := s.wg l w
  let L := s.launch l
  { core := W.core, launch := l, wg := w, asid := L.asid, home := W.home, priv := L.priv }

/-- Reaches n bytes that lie in one page. DEDUCED, log entry 58. -/
def State.engReach (s : State) (a : Agent) (va : BitVec 64) (n : Nat) (write : Bool) : EngOut Spot :=
  match s.translate a va (if write then .wr else .rd) with
  | (s1, .trap x) => .fail s1 x
  | (s1, .miss c) => .stall s1 va c
  | (s1, .wait) => .wait s1
  | (s1, .ok loc pa sh) =>
    if 9 ≤ classAt loc pa ∧ classAt loc pa ≤ 0xb then .fail s1 { cause := 0x084, addr := va, paddr := BitVec.ofNat 64 pa }
    else match s1.reachAs loc sh with
      | .failed m => .fail s1 { cause := 0x1e2, sub := m, addr := va, paddr := BitVec.ofNat 64 pa }
      | .wait => .wait s1
      | .yes => .ok (s1.touchL2 (dieOf a.core) (sectorOf loc)) { va := va, loc := loc, pa := pa, n := n, own := s1.ownable loc sh }

/-- The pieces of a byte range by sector: address and length. -/
def pieces (va len : Nat) : List (Nat × Nat) :=
  if len = 0 then []
  else (List.range ((va + len - 1) / 64 + 1 - va / 64)).map (fun k =>
    let lo := max va ((va / 64 + k) * 64)
    (lo, min (va + len) ((va / 64 + k + 1) * 64) - lo))

/-- Reaches every piece of a range; in the case of a stall, what has been reached so far is kept. -/
def State.engRange (s : State) (a : Agent) (write : Bool) : List (Nat × Nat) → List Spot → EngOut (List Spot) × List Spot
  | [], acc => (.ok s acc.reverse, acc)
  | p :: ps, acc =>
    match s.engReach a (BitVec.ofNat 64 p.1) p.2 write with
    | .ok s1 x => State.engRange s1 a write ps (x :: acc)
    | .fail s1 t => (.fail s1 t, acc)
    | .stall s1 v c => (.stall s1 v c, acc)
    | .wait s1 => (.wait s1, acc)

/-- The bytes of a source spot: as its append has seen them, else the home's (R79). A bad seal at the home fails where a byte is not the appending
view's own (R17). -/
def State.engSource (s : State) (core : Nat) (snap : Option Snapshot) (x : Spot) : Except Trap (List Byte) :=
  let at_ := (List.range x.n).map (x.loc + ·)
  if at_.any (fun k => (snap.bind (fun q => ByteMap.get? q.bytes k)).isNone) && s.sealBad x.loc then .error (s.sealTrap core x.loc x.pa x.va)
  else .ok (at_.map (fun k => (snap.bind (·.byte k)).getD (s.homeByte k)))

/-- The bytes of a list of source spots. -/
def State.engSources (s : State) (core : Nat) (snap : Option Snapshot) : List Spot → Except Trap (List Byte)
  | [] => .ok []
  | x :: xs =>
    match s.engSource core snap x with
    | .error t => .error t
    | .ok a => (State.engSources s core snap xs).map (a ++ ·)

/-- Records a watchpoint's hit by an engine: a record without a thread, and the stop if there is one (R418). -/
def State.engHit (s : State) (l w : Nat) (x : Spot) (rd : Bool) : State :=
  match s.wpAll none 0 0 x.loc x.n rd (!rd) with
  | [] => s
  | h :: rest =>
    let low := rest.foldl (fun b y => if y.2 < b.2 then y else b) h
    let r : Record := { cause := 0x182, sub := low.2 + s.traceCore low.1 % 4096 * 16, nl := true, addr := x.va, tick := s.tick, hit := s.tick, wg := w, asid := (s.launch l).asid }
    State.wpStops { s with nlRecords := s.nlRecords ++ [(l, r)] } (h :: rest)

/-- Writes the sector of a destination spot as one action, with a fresh seal (R78, R81). -/
def State.engPut (s : State) (l w : Nat) (x : Spot) (bs : List Byte) : State :=
  (((s.putBytes (sectorOf x.loc * 64) bs).freshSeal (sectorOf x.loc)).markL2 (dieOf (s.wg l w).core) (sectorOf x.loc)).engHit l w x false

/-- Destination spots with the bytes of their sectors, in order: those of a part of a sector are merged into the sector's old bytes (R78). -/
def State.spotBytes (s : State) : List Spot → List Byte → List (Spot × List Byte)
  | [], _ => []
  | x :: xs, bs =>
    let k := x.loc % 64
    let old := s.homeBytes (sectorOf x.loc * 64) 64
    (x, old.take k ++ bs.take x.n ++ old.drop (k + x.n)) :: State.spotBytes s xs (bs.drop x.n)

/-- Does a destination that is covered in part have a bad seal? -/
def State.engDest (s : State) (core : Nat) (xs : List Spot) : Option Trap :=
  (xs.find? (fun x => x.n < 64 && s.sealBad x.loc)).map (fun x => s.sealTrap core x.loc x.pa x.va)

/-! ## Taking an entry (R74, R77) -/

/-- The fields of an entry (R73). -/
def entSrc (e : Nat) : Nat := bitsAt e 63 0
def entDst (e : Nat) : Nat := bitsAt e 127 64
def entLen (e : Nat) : Nat := bitsAt e 159 128
def entKind (e : Nat) : Nat := bitsAt e 163 160
def entOp (e : Nat) : Nat := bitsAt e 167 164
def entTy (e : Nat) : Nat := bitsAt e 171 168
def entScope (e : Nat) : Nat := bitsAt e 175 174
def entLogg (e : Nat) : Nat := bitsAt e 179 176
def entDies (e : Nat) : Nat := bitsAt e 187 180
def entAux (e : Nat) : Nat := bitsAt e 255 192
def entStamp (e : Nat) : Nat := bitsAt e 511 480

/-- The element types of a collective (R29). -/
def collTy (t : Nat) : Bool := [8, 9, 11, 2, 3, 6, 7].contains t

/-- The bytes of an element of a collective. -/
def collBytes (t : Nat) : Nat := if [8, 3, 7].contains t then 8 else if t = 11 then 2 else 4

/-- The checks of an entry in their order, but for the group table. -/
def entryBad (eng die e : Nat) : Option Nat :=
  let k := entKind e
  let reserved := bitsAt e 173 172 != 0 || bitsAt e 191 188 != 0 || bitsAt e 335 329 != 0 || bitsAt e 479 352 != 0
    || (k != 1 && (entOp e != 0 || entTy e != 0 || entLogg e != 0 || entDies e != 0 || entAux e != 0))
    || (k == 2 && (entSrc e != 0 || entDst e != 0 || entLen e != 0))
  if 2 < k ∨ (k = 1 ∧ 3 < entOp e) ∨ entScope e = 3 ∨ reserved then some 0x02
  else if (k = 1 ∧ eng ≠ 1) ∨ (k = 0 ∧ eng ≠ 0) ∨
      (k = 1 ∧ (10 < entLogg e ∨ entDies e = 0 ∨ !collTy (entTy e) ∨ entDies e / 2 ^ die % 2 = 0)) then some 0x03
  else if k ≠ 2 ∧ (entLen e = 0 ∨ 0x100000 < entLen e ∨ entLen e % 4 ≠ 0 ∨ entSrc e % 4 ≠ 0 ∨ entDst e % 4 ≠ 0 ∨
      (k = 1 ∧ entLen e % collBytes (entTy e) ≠ 0)) then some 0x04
  else none

/-- A group table that lists endpoints. -/
def State.groupTable (s : State) (a : Agent) (e : Nat) : EngOut (List Nat) :=
  match (s.engRange a false (pieces (entAux e) (2 * 2 ^ entLogg e)) []).1 with
  | .ok s1 xs =>
    match s1.engSources a.core none xs with
    | .error t => .fail s1 t
    | .ok bs => .ok s1 ((List.range (2 ^ entLogg e)).map (fun i => leNat ((bs.drop (2 * i)).take 2) % 1024))
  | .fail s1 t => .fail s1 t
  | .stall s1 v c => .stall s1 v c
  | .wait s1 => .wait s1

/-- This module's endpoint id (R26). -/
def State.endpoint (s : State) : Nat := s.fabricCaps.toNat / 0x10000 % 1024

/-- The checks of an entry when it is taken: the sub-code of the one it fails. -/
def State.entryCheck (s : State) (l w eng e : Nat) : EngOut (Option Nat) :=
  let a := s.engineAgent l w
  match entryBad eng (dieOf a.core) e with
  | some 0x04 =>
    -- the group table comes before the lengths
    if entKind e = 1 then (s.groupTable a e).then (fun s t => .ok s (some (if t.count s.endpoint = 1 then 0x04 else 0x03)))
    else .ok s (some 0x04)
  | some k => .ok s (some k)
  | none =>
    if entKind e = 1 then (s.groupTable a e).then (fun s t => .ok s (if t.count s.endpoint = 1 then none else some 0x03))
    else .ok s none

/-- A translation request of an engine: the entry waits for it. -/
def State.engRequest (s : State) (l w : Nat) (sel : QSel) (va : BitVec 64) (cause : Nat) : State :=
  { s with requests := s.requests ++
      [{ core := (s.wg l w).core, tick := s.tick, asid := (s.launch l).asid, page := va &&& ~~~(0xfff#64), cause := cause, who := .engine l w sel }] }

/-- Does an engine's queue wait for a translation? -/
def State.engStalled (s : State) (l w : Nat) (sel : QSel) : Bool := s.requests.any (fun q => q.who == .engine l w sel)

/-- The entry that a queue has in flight. -/
def State.flight? (s : State) (l w : Nat) (sel : QSel) : Option InFlight :=
  s.inflight.find? (fun i => i.launch == l && i.wg == w && i.sel == sel)

/-- Writes an entry in flight back. -/
def State.setFlight (s : State) (k : InFlight) : State :=
  { s with inflight := s.inflight.map (fun i => if i.launch == k.launch && i.wg == k.wg && i.sel == k.sel then k else i) }

/-- The descriptor of a queue at its home, as its engine reaches it. DEDUCED, log entry 60. -/
def State.engDesc (s : State) (l w : Nat) (sel : QSel) : EngOut Nat :=
  (s.engReach (s.engineAgent l w) (s.descVa l w sel) 64 true).then (fun s x => .ok s x.loc)

/-- The ring slot of a position, from the descriptor's bits. -/
def State.engSlot (s : State) (l w d pos : Nat) : EngOut Nat :=
  (s.engReach (s.engineAgent l w) (BitVec.ofNat 64 (bitsAt d 63 0 + 64 * (pos % 2 ^ bitsAt d 68 64))) 64 true).then (fun s x => .ok s x.loc)

/-- Is a workgroup on a core, so that its engines take entries? -/
def Wg.active (W : Wg) : Bool := W.state == .placed || W.state == .running || W.state == .evicting

/-- ENGINE_TAKE_ENTRY. DEDUCED, log entry 59. -/
def State.takeEntry (s : State) (l w : Nat) (sel : QSel) : State :=
  match s.wg? l w with
  | none => s
  | some W =>
    match W.queue? sel with
    | none => s
    | some q =>
      let stop := fun (a : State) (va : BitVec 64) (c : Nat) => a.engRequest l w sel va c
      if !W.active || q.bad || (s.flight? l w sel).isSome || s.engStalled l w sel || !newer q.qtail (BitVec.ofNat 32 q.count) then s
      else match s.engDesc l w sel with
        | .fail s1 _ => s1
        | .wait s1 => s1
        | .stall s1 va c => stop s1 va c
        | .ok s1 loc =>
          let takeAs := fun (s : State) (e : Nat) (r : Option (Nat × Nat)) =>
            { s with inflight := s.inflight ++ [{ launch := l, wg := w, sel := sel, pos := q.count, bits := BitVec.ofNat 512 e, result := r }] }
          let sealed := fun (s : State) (at_ e : Nat) => let t := s.sealTrap W.core at_ at_ 0; takeAs s e (some (t.cause, t.sub))
          if s1.sealBad loc then sealed s1 loc 0
          else match s1.engSlot l w (s1.homeNat loc 64) q.count with
          | .fail s2 _ => s2
          | .wait s2 => s2
          | .stall s2 va c => stop s2 va c
          | .ok s2 slot =>
            let e := s2.homeNat slot 64
            if s2.sealBad slot then sealed s2 slot e
            else if entStamp e ≠ q.count % 2 ^ 32 then s2
            else
              let take := fun (s : State) (r : Option (Nat × Nat)) => takeAs s e r
              match s2.entryCheck l w sel.eng e with
              | .ok s3 k => take s3 (k.map (fun k => (0x04a, k)))
              | .fail s3 t => take s3 (some (t.cause, t.sub))
              | .stall s3 va c => stop s3 va c
              | .wait s3 => s3

def execEngineTakeEntry (q : QueueRef) (s : State) : Host.Outcome State Fault Refusal := .next (s.takeEntry q.launch q.wg q.sel)

/-! ## Running an entry (R78 to R81) -/

/-- Takes ownership of sectors: their clean copies leave every L1 (R80). -/
def State.takeOwnership (s : State) (i : InFlight) (xs : List Spot) : State :=
  let secs := ((xs.filter (·.own)).map (fun x => sectorOf x.loc)).filter (fun sec => !i.owned.contains sec)
  secs.foldl State.dropClean (s.setFlight { i with owned := i.owned ++ secs })

/-- What the append of an entry has seen of its source (R79). -/
def State.snapOf (s : State) (i : InFlight) : Option Snapshot :=
  s.snaps.find? (fun q => q.launch == i.launch && q.wg == i.wg && q.sel == i.sel && q.pos == i.pos)

/-- The entry has ended with a cause; the first one stays. -/
def State.endFlight (s : State) (i : InFlight) (cause sub : Nat) : State :=
  match s.flight? i.launch i.wg i.sel with
  | some k => if k.result.isSome then s else s.setFlight { k with result := some (cause, sub) }
  | none => s

/-- Does a destination lie in a tile that is being drained, whose bytes no agent may write before the drain has ended (R67)? -/
def State.drains (s : State) (xs : List Spot) : Bool :=
  xs.any (fun x => match scratchOf x.loc with
    | some (core, off) => s.tileCovers core off x.n [3]
    | none => false)

/-- Issue of a destination: every page is translated and its sectors become owned; a stall keeps what has been taken. -/
def State.engIssue (s : State) (i : InFlight) (va len : Nat) : EngOut (List Spot) :=
  let r := s.engRange (s.engineAgent i.launch i.wg) true (pieces va len) []
  let take := fun (s : State) (xs : List Spot) => match s.flight? i.launch i.wg i.sel with
    | some k => s.takeOwnership k xs
    | none => s
  match r.1 with
  | .ok s1 xs => if s1.drains xs then .wait (take s1 xs) else .ok (take s1 xs) xs
  | .fail s1 t => .fail s1 t
  | .stall s1 v c => .stall (take s1 r.2) v c
  | .wait s1 => .wait (take s1 r.2)

/-- Reads the source of an entry. -/
def State.engRead (s : State) (i : InFlight) (va len : Nat) : EngOut (List Byte) :=
  match (s.engRange (s.engineAgent i.launch i.wg) false (pieces va len) []).1 with
  | .ok s1 xs =>
    match s1.engSources (s1.wg i.launch i.wg).core (s1.snapOf i) xs with
    | .error t => .fail s1 t
    | .ok bs => .ok (xs.foldl (fun a x => a.engHit i.launch i.wg x true) s1) bs
  | .fail s1 t => .fail s1 t
  | .stall s1 v c => .stall s1 v c
  | .wait s1 => .wait s1

/-- Writes sectors that an entry has still to write, in the order given: one whose home has failed since ends it, and the bytes already
written stay (R78). -/
def State.writeSectors (s : State) (i : InFlight) : List (Spot × List Byte) → EngOut Unit
  | [] => .ok s ()
  | x :: xs =>
    match s.reachAs x.1.loc (if x.1.own then 2 else 1) with
    | .failed n => .fail s { cause := 0x1e2, sub := n, addr := x.1.va }
    | .wait => .wait s
    | .yes =>
      if s.drains [x.1] then .wait s else
      let s1 := s.engPut i.launch i.wg x.1 x.2
      match s1.flight? i.launch i.wg i.sel with
      | some k => State.writeSectors (s1.setFlight { k with todo := k.todo.erase x }) i xs
      | none => .ok s1 ()

/-- Step 3 of an entry that has been read: all its sectors, or the one named, which is the last where no other is left (R78, R81). -/
def State.writeTodo (s : State) (l w : Nat) (sel : QSel) (part : Option Nat) : State :=
  match s.flight? l w sel with
  | none => s
  | some i =>
    let now := match part with
      | some k => (i.todo[k]?).toList
      | none => i.todo
    if i.result.isSome then s
    else match s.writeSectors i now with
    | .ok s1 _ => if ((s1.flight? l w sel).map (fun k => k.todo.isEmpty)).getD true then s1.endFlight i 0 0 else s1
    | .fail s1 t => s1.endFlight i t.cause t.sub
    | .stall s1 _ _ => s1
    | .wait s1 => s1

/-- An entry has been read: what it has to write is known. -/
def State.setTodo (s : State) (i : InFlight) (xs : List (Spot × List Byte)) : State :=
  match s.flight? i.launch i.wg i.sel with
  | some k => s.setFlight { k with read := true, todo := xs }
  | none => s

/-- Steps 1 and 2 of a copy: its destination is issued, its source is read, and what it covers in part is checked (R78). -/
def State.copyRead (s : State) (i : InFlight) : EngOut (List (Spot × List Byte)) :=
  let e := i.bits.toNat
  (s.engIssue i (entDst e) (entLen e)).then (fun s ds =>
    (s.engRead i (entSrc e) (entLen e)).then (fun s bs =>
      match s.engDest (s.wg i.launch i.wg).core ds with
      | some t => .fail s t
      | none => .ok s (s.spotBytes ds bs)))

/-- COPY_ENTRY: the entry runs; part names the one sector of those left that it writes now, none all of them. DESIGN CHOICE, log
entry 121. -/
def State.copyEntry (s : State) (l w : Nat) (sel : QSel) (part : Option Nat := none) : State :=
  match s.flight? l w sel with
  | none => s
  | some i =>
    if i.result.isSome || entKind i.bits.toNat != 0 || s.engStalled l w sel then s
    else if i.read then s.writeTodo l w sel part
    else match s.copyRead i with
      | .ok s1 xs => (s1.setTodo i xs).writeTodo l w sel part
      | .fail s1 t => s1.endFlight i t.cause t.sub
      | .stall s1 v c => s1.engRequest l w sel v c
      | .wait s1 => s1

def execCopyEntry (q : EntryStep) (s : State) : Host.Outcome State Fault Refusal :=
  .next (s.copyEntry q.queue.launch q.queue.wg q.queue.sel q.part)

/-- NOP_ENTRY. -/
def State.nopEntry (s : State) (l w : Nat) (sel : QSel) : State :=
  match s.flight? l w sel with
  | none => s
  | some i => if i.result.isSome || entKind i.bits.toNat != 2 then s else s.endFlight i 0 0

def execNopEntry (q : QueueRef) (s : State) : Host.Outcome State Fault Refusal := .next (s.nopEntry q.launch q.wg q.sel)

/-! ## Collectives (R29) -/

/-- One combination of two elements, in the working form of the type: bf16 as f32. -/
def collComb (op t a b : Nat) : Nat :=
  let ty := tyOf t
  let w : Ty := if ty = .bf16 then .f32 else ty
  match op, ty.isFloat with
  | 0, true => (faddV w .rne false (fval w a) (fval w b)).bits
  | 0, false => (a + b) % 2 ^ (8 * collBytes t)
  | 1, true => (fminmax w false a b).bits
  | _, true => (fminmax w true a b).bits
  | 1, false => if intVal ty a ≤ intVal ty b then a else b
  | _, false => if intVal ty a ≤ intVal ty b then b else a

/-- An element in the working form, and back. -/
def collIn (t b : Nat) : Nat := if t = 11 then (fconvert .f32 .rne false (fval .bf16 b)).bits else b
def collOut (t b : Nat) : Nat := if t = 11 then (fconvert .bf16 .rne false (fval .f32 b)).bits else b

/-- Combines what is there of two parts. -/
def collPair (f : Nat → Nat → Nat) : Option Nat → Option Nat → Option Nat
  | some a, some b => some (f a b)
  | some a, none => some a
  | none, b => b

/-- The dies of a module, ((d0 + d1) + (d2 + d3)) + ((d4 + d5) + (d6 + d7)), absent ones left out. -/
def collDies (f : Nat → Nat → Nat) (d : Nat → Option Nat) : Option Nat :=
  let p := collPair f
  p (p (p (d 0) (d 1)) (p (d 2) (d 3))) (p (p (d 4) (d 5)) (p (d 6) (d 7)))

/-- The combination of the ranks of a block of 2^k: the lower half is the left operand. -/
def collRanks (f : Nat → Nat → Nat) (v : Nat → Nat) : Nat → Nat → Nat
  | 0, b => v b
  | k + 1, b => f (collRanks f v k (2 * b)) (collRanks f v k (2 * b + 1))

/-- The entries of a collective: the one in flight on the collective engine of each die named in DIES that has the same table,
operation, type, length and size; none while one is missing. DESIGN CHOICE, log entry 62. -/
def State.collMembers (s : State) (e : Nat) : Option (List (Nat × InFlight)) :=
  let ds := (List.range 8).filter (fun d => entDies e / 2 ^ d % 2 == 1)
  let found := ds.filterMap (fun d => (s.inflight.find? (fun i =>
    let x := i.bits.toNat
    i.sel.eng == 1 && i.result.isNone && !i.read && entKind x == 1 && dieOf (s.wg i.launch i.wg).core == d && !s.engStalled i.launch i.wg i.sel
      && entAux x == entAux e && entOp x == entOp e && entTy x == entTy e && entLen x == entLen e && entLogg x == entLogg e
      && entDies x == entDies e)).map (d, ·))
  if found.length = ds.length then some found else none

/-- Reads every member's contribution; the failure of one is its own and that of the whole collective. -/
def State.collSources (s : State) : List (Nat × InFlight) → List (Nat × List Byte) → EngOut (List (Nat × List Byte)) × Option InFlight
  | [], acc => (.ok s acc.reverse, none)
  | (d, i) :: rest, acc =>
    match s.engRead i (entSrc i.bits.toNat) (entLen i.bits.toNat) with
    | .ok s1 bs => State.collSources s1 rest ((d, bs) :: acc)
    | .fail s1 t => (.fail s1 t, some i)
    | .stall s1 v c => (.stall s1 v c, some i)
    | .wait s1 => (.wait s1, some i)

/-- The result of a collective from the dies' contributions. What the other endpoints contribute is free, for bf16 the f32 value that their
dies have reduced to, and so is this module's own block of an all-gather to which several dies contribute. DESIGN CHOICE, log entry 63. -/
def State.collResult (s : State) (e rank : Nat) (cs : List (Nat × List Byte)) : List Byte :=
  let t := entTy e
  let n := collBytes t
  let len := entLen e
  let other := fun (r k : Nat) => (Config.freeWord (s.freeCount + r * 2 ^ 20 + k)).toNat
  if entOp e = 3 then
    (List.range (2 ^ entLogg e)).flatMap (fun r =>
      match (if r = rank then cs else []) with
      | [(_, bs)] => bs
      | _ => (List.range len).map (fun k => BitVec.ofNat 8 (other r k)))
  else
    (List.range (len / n)).flatMap (fun k =>
      let own := collDies (collComb (entOp e) t) (fun d =>
        ((cs.find? (·.1 == d)).map (fun c => collIn t (leNat ((c.2.drop (n * k)).take n)))))
      let v := fun (r : Nat) => if r = rank then own.getD 0 else other r k % 2 ^ (if t = 11 then 32 else 8 * n)
      leBytes n (collOut t (collRanks (collComb (entOp e) t) v (entLogg e) 0)))

/-- The destinations of a collective's members are issued, before anything is read. -/
def State.collIssue (s : State) (len : Nat) : List (Nat × InFlight) → List (InFlight × List Spot) → EngOut (List (InFlight × List Spot)) × Option InFlight
  | [], acc => (.ok s acc.reverse, none)
  | (_, i) :: rest, acc =>
    match s.engIssue i (entDst i.bits.toNat) len with
    | .ok s1 xs => State.collIssue s1 len rest ((i, xs) :: acc)
    | .fail s1 t => (.fail s1 t, some i)
    | .stall s1 v c => (.stall s1 v c, some i)
    | .wait s1 => (.wait s1, some i)

/-- What a member of a collective has to write; a destination that is covered in part is checked first. -/
def State.collReady (s : State) (bs : List Byte) (m : InFlight × List Spot) : State :=
  match s.engDest (s.wg m.1.launch m.1.wg).core m.2 with
  | some t => s.endFlight m.1 t.cause t.sub
  | none => s.setTodo m.1 (s.spotBytes m.2 bs)

/-- A step of a collective ends it for every member, or makes a member wait for a translation. -/
def State.collStop {α : Type} (ms : List (Nat × InFlight)) (r : EngOut α × Option InFlight) (k : State → α → State) : State :=
  match r with
  | (.ok s1 a, _) => k s1 a
  | (.fail s1 t, _) => ms.foldl (fun a m => a.endFlight m.2 t.cause t.sub) s1
  | (.stall s1 v c, some m) => s1.engRequest m.launch m.wg m.sel v c
  | (.stall s1 _ _, none) => s1
  | (.wait s1, _) => s1

/-- COLL_ENTRY: once every die named has its entry in flight, all of them are issued, read and combined; each then writes its destination
as a copy does. Without a trained port a collective over several endpoints ends with 0x1E2, sub-code 0x30. DESIGN CHOICE, log entry
110. -/
def State.collEntry (s : State) (l w : Nat) (sel : QSel) (part : Option Nat := none) : State :=
  match s.flight? l w sel with
  | none => s
  | some i =>
    let e := i.bits.toNat
    if i.result.isSome || entKind e != 1 || s.engStalled l w sel then s
    else if i.read then s.writeTodo l w sel part
    else match s.collMembers e with
      | none => s
      | some ms =>
        let len := entLen e * (if entOp e = 3 then 2 ^ entLogg e else 1)
        State.collStop ms (s.collIssue len ms []) (fun s1 ds =>
          State.collStop ms (s1.collSources ms []) (fun s2 cs =>
            if 0 < entLogg e && !s2.ports.any id then ms.foldl (fun a m => a.endFlight m.2 0x1e2 0x30) s2
            else State.collStop ms (s2.groupTable (s2.engineAgent l w) e, some i) (fun s3 tbl =>
              let bs := s3.collResult e (tbl.idxOf s3.endpoint) cs
              let s4 := ds.foldl (fun a m => a.collReady bs m) { s3 with freeCount := s3.freeCount + 2 ^ 30 }
              match part with
              | none => ms.foldl (fun a m => a.writeTodo m.2.launch m.2.wg m.2.sel none) s4
              | some _ => s4.writeTodo l w sel part)))

def execCollEntry (q : EntryStep) (s : State) : Host.Outcome State Fault Refusal :=
  .next (s.collEntry q.queue.launch q.queue.wg q.queue.sel q.part)

/-! ## Completion (R82, R66) -/

/-- A completed fill or drain moves its tile (R66). -/
def tileAfter (seq : BitVec 64) (good : Bool) (e : BitVec 128) : BitVec 128 :=
  if !tileV e || tileSeq e != seq then e
  else if tileState e = 1 then mkTile seq (if good then 2 else 0) (!good) (tileOwner e) (tileLen e) (tileBase e)
  else if tileState e = 3 then mkTile seq (if good then 0 else 2) (!good) (tileOwner e) (tileLen e) (tileBase e)
  else e

/-- The tiles of a workgroup that wait for a sequence number. -/
def State.tilesAfter (s : State) (l w : Nat) (seq : BitVec 64) (good : Bool) : State :=
  let W := s.wg l w
  let K := s.core W.core
  s.setCore { K with tiles := K.tiles.map (fun e => if tileOwner e == W.slot then tileAfter seq good e else e) }

/-- ENTRY_COMPLETION: the entry's own words, the first error of the descriptor, the sequence register; ownership ends. DEDUCED, log entry 61. -/
def State.completeEntry (s : State) (l w : Nat) (sel : QSel) : State :=
  match s.flight? l w sel, s.wg? l w with
  | some i, some W =>
    match i.result, W.queue? sel with
    | some (cause, sub), some q =>
      let seq := seqOf sel (i.pos + 1)
      let put := fun (s : State) (loc n v : Nat) => (s.writeHome loc (leBytes n v) (dieOf W.core)).getD s
      let s1 := match s.engDesc l w sel with
        | .ok s1 loc =>
          let d := s1.homeNat loc 64
          let s2 := match s1.engSlot l w d i.pos with
            | .ok s2 slot => put s2 (slot + 32) 12 (seq.toNat + cause * 2 ^ 64 + sub % 2 ^ 16 * 2 ^ 80)
            | _ => s1
          let s3 := if cause ≠ 0 ∧ bitsAt d 255 192 = 0 then put s2 (loc + 24) 12 (seq.toNat + cause * 2 ^ 64 + sub % 2 ^ 16 * 2 ^ 80) else s2
          put s3 (loc + 16) 8 seq.toNat
        | _ => s
      let s2 := s1.setWg ((s1.wg l w).setQueue { q with count := i.pos + 1, scope := entScope i.bits.toNat })
      let s3 := { s2 with
        inflight := s2.inflight.filter (fun k => !(k.launch == l && k.wg == w && k.sel == sel))
        snaps := s2.snaps.filter (fun k => !(k.launch == l && k.wg == w && k.sel == sel && k.pos == i.pos)) }
      if sel.eng = 0 then s3.tilesAfter l w seq (cause == 0) else s3
    | _, _ => s
  | _, _ => s

/-- Does one of n bytes lie in a tile that is being drained, by another entry than the one of a sequence number (R67)? -/
def State.otherDrain (s : State) (seq : BitVec 64) (loc n : Nat) : Bool :=
  match scratchOf loc with
  | none => false
  | some (core, off) => s.parts.any (fun p => p.core == some core && (List.range p.tiles).any (fun t =>
      let e := (s.core core).tiles.getD (p.tbase + t) 0
      let lo := p.base + tileBase e * 128
      tileV e && tileState e == 3 && tileSeq e != seq && decide (off < lo + tileLen e * 128) && decide (lo < off + n)))

/-- Must the words that an entry's completion writes wait: for a link (R14), or in a tile that another entry drains (R67)? DEDUCED, log entry 61. -/
def State.wordsHeld (s : State) (l w : Nat) (sel : QSel) : Bool :=
  match s.flight? l w sel with
  | none => false
  | some i =>
    match s.engDesc l w sel with
    | .ok s1 loc => s.otherDrain (seqOf sel (i.pos + 1)) loc 64
        || (match s1.engSlot l w (s1.homeNat loc 64) i.pos with
          | .ok _ slot => s.otherDrain (seqOf sel (i.pos + 1)) slot 64
          | .wait _ => true
          | _ => false)
    | .wait _ => true
    | _ => false

/-- An entry completes once its words can be written. -/
def State.completion (s : State) (l w : Nat) (sel : QSel) : State := if s.wordsHeld l w sel then s else s.completeEntry l w sel

def execEntryCompletion (q : QueueRef) (s : State) : Host.Outcome State Fault Refusal := .next (s.completion q.launch q.wg q.sel)

end Sys2Proof.Machine
end

