-- ==== Sys2Proof/Machine/Reel.lean ====
section
/-!
DEFINITION. Machine/Reel.lean: the nodes that the cursors of a Reel execute (04 R86 to R90; 20 R376).
-/

namespace Sys2Proof.Machine

/-- The fields of a node (R87). -/
def nodeKind (n : Nat) : Nat := bitsAt n 131 128
def nodeNext (n : Nat) : Nat := bitsAt n 159 152
def nodeAlt (n : Nat) : Nat := bitsAt n 151 144
def nodeScope (n : Nat) : Nat := bitsAt n 143 142
def nodeQueue (n : Nat) : Nat := bitsAt n 141 140
def nodeLimit (n : Nat) : Nat := bitsAt n 191 160
def nodeArg (n : Nat) : Nat := bitsAt n 127 64
def nodeAddr (n : Nat) : Nat := bitsAt n 63 0

/-- A node with a reserved kind or field, SCOPE 3, or a NEXT or ALT beyond the graph (R89). DEDUCED, log entry 65. -/
def nodeBad (n last : Nat) : Bool :=
  let k := nodeKind n
  bitsAt n 255 192 != 0 || bitsAt n 139 132 != 0 || decide (6 < k) || (decide (k = 4) && nodeArg n / 64 != 0)
    || nodeScope n == 3 || decide (last < nodeNext n) || decide (last < nodeAlt n)

/-- A cursor of a core's Reel. -/
def Reel.cursor? (R : Reel) (c : Nat) : Option Cursor := R.cursors.find? (fun k => k.id == c && !k.stopped)

/-- Changes a cursor of a core's Reel. -/
def State.updCursor (s : State) (core c : Nat) (f : Cursor → Cursor) : State :=
  let K := s.core core
  s.setCore { K with reel := { K.reel with cursors := K.reel.cursors.map (fun k => if k.id == c && !k.stopped then f k else k) } }

/-- A Reel whose cursors have ended is free again once its workgroup has exited (R86, R376). -/
def State.settleReel (s : State) (core : Nat) : State :=
  let K := s.core core
  match K.reel.owner with
  | some o => if s.wgExited o.launch o.wg && K.reel.cursors.all (·.stopped) then s.setCore { K with reel := {} } else s
  | none => s

/-- A cursor ends. -/
def State.endCursor (s : State) (core c : Nat) : State :=
  let K := s.core core
  (s.setCore { K with reel := { K.reel with cursors := K.reel.cursors.filter (fun k => k.id != c || k.stopped) } }).settleReel core

/-- A cursor goes on at a node; one whose owner has exited ends instead (R376). -/
def State.moveCursor (s : State) (core c next : Nat) : State :=
  match (s.core core).reel.cursor? c with
  | none => s
  | some k => if k.last then s.endCursor core c else s.updCursor core c (fun k => { k with node := next, inWait := false })

/-- A cursor stops: the owning workgroup's fault goes to Gondola, with the node in its sub-code (R89). DEDUCED, log entry 64. -/
def State.stopCursor (s : State) (core c : Nat) (x : Trap) : State :=
  match (s.core core).reel.cursor? c, (s.core core).reel.owner with
  | some k, some o =>
    let r : Record := { cause := x.cause, sub := k.node * 256 + x.sub % 256, nl := true, mc := isMachineCheck x.cause, addr := x.named.addr
                        tick := s.tick, wg := o.wg, paddr := x.named.paddr, asid := (s.launch o.launch).asid }
    let s1 := s.updCursor core c (fun k => { k with stopped := true })
    State.settleReel { s1 with nlRecords := s1.nlRecords ++ [(o.launch, r)] } core
  | _, _ => s

/-- Goes on with an access of a cursor: a failure stops it, a translation request holds it at its node. -/
def State.reelThen {α : Type} (core c : Nat) (o : WgRef) (x : EngOut α) (k : State → α → State) : State :=
  match x with
  | .ok s a => k s a
  | .fail s t => s.stopCursor core c t
  | .wait s => s
  | .stall s va cause =>
    { s with requests := s.requests ++
        [{ core := core, tick := s.tick, asid := (s.launch o.launch).asid, page := va &&& ~~~(0xfff#64), cause := cause, who := .cursor o.launch o.wg c }] }

/-- An immediate read of n bytes at their home for a cursor: checked for seals, waiting for an engine that owns it. -/
def State.reelRead (s : State) (o : WgRef) (va : BitVec 64) (n : Nat) : EngOut Nat :=
  let a := s.engineAgent o.launch o.wg
  (s.engReach a va n false).then (fun s x =>
      if va.toNat % n ≠ 0 then .fail s { cause := 0x084, addr := va, paddr := BitVec.ofNat 64 x.pa }
      else if s.engineHolds x.loc n false then .wait s
      else if s.sealBadRange x.loc n then .fail s (s.sealTrap a.core x.loc x.pa va)
      else .ok (s.engHit o.launch o.wg x true) (s.homeNat x.loc n))

/-- Executes the node of a cursor where it is of a kind, or stops at a bad one. -/
def State.reelNode (s : State) (core c kind : Nat) (k : State → WgRef → Cursor → Nat → State) : State :=
  let R := (s.core core).reel
  match R.cursor? c, R.owner with
  | some cu, some o =>
    if !(s.wg o.launch o.wg).active || s.cursorStalled o.launch o.wg c then s
    else
      State.reelThen core c o (s.reelRead o ((R.graph &&& ~~~(0x1fff#64)) + BitVec.ofNat 64 (32 * cu.node)) 32) (fun s n =>
        if nodeBad n (R.graph.toNat % 256) then s.stopCursor core c { cause := 0x04a, sub := 0x05 }
        else if nodeKind n ≠ kind then s
        else k s o cu n)
  | _, _ => s

/-- REEL_END. -/
def execReelEnd (core c : Nat) (s : State) : Host.Outcome State Fault Refusal := .next (s.reelNode core c 0 (fun s _ _ _ => s.endCursor core c))

/-- Appends a template and posts it, where the ring has room: whole or not at all (R88, R90). -/
def State.reelAppend (s : State) (core c : Nat) (o : WgRef) (sel : QSel) (e next : Nat) : State :=
  match (s.wg o.launch o.wg).queue? sel with
  | none => s.stopCursor core c { cause := 0x04a, sub := 0x01 }
  | some q =>
    let at_ := (s.wg o.launch o.wg).core
    let die := dieOf at_
    let va := s.descVa o.launch o.wg sel
    if q.bad then s.stopCursor core c { cause := 0x04a, sub := 0x02 }
    else State.reelThen core c o (s.engReach (s.engineAgent o.launch o.wg) va 64 true) (fun s x =>
      let loc := x.loc
      let d := s.homeNat loc 64
      if s.engineHolds loc 64 true then s
      else if s.sealBad loc then s.stopCursor core c (s.sealTrap at_ loc x.pa va)
      else if descBad d then s.stopCursor core c { cause := 0x04a, sub := 0x02 }
      else
        let p : BitVec 32 := BitVec.ofNat 32 (bitsAt d 127 96)
        if 2 ^ bitsAt d 68 64 ≤ (p - BitVec.ofNat 32 q.count).toNat then s
        else State.reelThen core c o (s.engSlot o.launch o.wg d p.toNat) (fun s slot =>
          if s.engineHolds slot 64 true then s
          else
            let s1 := s.putMarked die (loc + 12) (leBytes 4 (p.toNat + 1))
            let s2 := (s1.writeHome slot (leBytes 64 (e % 2 ^ 480 + p.toNat * 2 ^ 480)) die).getD s1
            (s2.post o.launch o.wg sel (p + 1)).moveCursor core c next))

/-- REEL_COPY and REEL_COLL: the template is checked as an engine would check the entry. -/
def State.reelEntry (s : State) (core c eng : Nat) : State :=
  s.reelNode core c (if eng = 0 then 1 else 2) (fun s o _ n =>
    State.reelThen core c o (s.reelRead o (BitVec.ofNat 64 (nodeAddr n)) 64) (fun s e =>
      State.reelThen core c o (s.entryCheck o.launch o.wg eng e) (fun s k =>
        match k with
        | some _ => s.stopCursor core c { cause := 0x04a, sub := 0x05 }
        | none => s.reelAppend core c o ⟨eng, nodeQueue n⟩ e (nodeNext n))))

def execReelCopy (core c : Nat) (s : State) : Host.Outcome State Fault Refusal := .next (s.reelEntry core c 0)
def execReelColl (core c : Nat) (s : State) : Host.Outcome State Fault Refusal := .next (s.reelEntry core c 1)

/-- REEL_WAITSEQ: WaitSeq of the owning workgroup (R82). A cursor whose descriptor is still to be translated waits in it too (R376). -/
def State.reelWait (s : State) (core c : Nat) : State :=
  s.reelNode core c 3 (fun s o cu n =>
    let seq : BitVec 64 := BitVec.ofNat 64 (nodeArg n)
    let sel := seqSel seq
    if cu.last then s.endCursor core c
    else match s.countOf o.launch o.wg sel with
    | none => s.stopCursor core c { cause := 0x04a, sub := 0x01 }
    | some cnt =>
      if cnt < seqCount seq then s.updCursor core c (fun k => { k with inWait := true })
      else if sel.eng = 2 then
        match (s.core (s.wg o.launch o.wg).core).reconErr with
        | some (m, cause, sub) => if m ≤ seqCount seq then s.stopCursor core c { cause := cause, sub := sub } else s.moveCursor core c (nodeNext n)
        | none => s.moveCursor core c (nodeNext n)
      else State.reelThen core c o ((s.updCursor core c (fun k => { k with inWait := true })).engDesc o.launch o.wg sel) (fun s loc =>
        let d := s.homeNat loc 64
        if errMeets (bitsAt d 255 192) seq then s.stopCursor core c { cause := bitsAt d 264 256, sub := bitsAt d 287 272 }
        else s.moveCursor core c (nodeNext n)))

def execReelWaitseq (core c : Nat) (s : State) : Host.Outcome State Fault Refusal := .next (s.reelWait core c)

/-- REEL_WAKE (R332). -/
def execReelWake (core c : Nat) (s : State) : Host.Outcome State Fault Refusal :=
  .next (s.reelNode core c 4 (fun s o _ n => (s.wake o.launch o.wg (nodeArg n % 64)).moveCursor core c (nodeNext n)))

/-- REEL_COND. -/
def execReelCond (core c : Nat) (s : State) : Host.Outcome State Fault Refusal :=
  .next (s.reelNode core c 5 (fun s o _ n =>
    State.reelThen core c o (s.reelRead o (BitVec.ofNat 64 (nodeAddr n)) 8) (fun s v =>
      s.moveCursor core c (if v ≠ 0 then nodeAlt n else nodeNext n))))

/-- The count of a cursor for a node. -/
def Cursor.countAt (k : Cursor) (n : Nat) : Nat := ((k.counts.find? (·.1 == n)).map (·.2)).getD 0

/-- Sets the count of a cursor for a node; none is listed for zero. -/
def Cursor.setCount (k : Cursor) (n v : Nat) : Cursor :=
  { k with counts := (k.counts.filter (·.1 != n)) ++ (if v = 0 then [] else [(n, v)]) }

/-- REEL_WHILE. -/
def execReelWhile (core c : Nat) (s : State) : Host.Outcome State Fault Refusal :=
  .next (s.reelNode core c 6 (fun s o cu n =>
    State.reelThen core c o (s.reelRead o (BitVec.ofNat 64 (nodeAddr n)) 8) (fun s v =>
      let cnt := cu.countAt cu.node + 1
      if v ≠ 0 ∧ (nodeLimit n = 0 ∨ cnt ≤ nodeLimit n) then
        (s.updCursor core c (·.setCount cu.node cnt)).moveCursor core c (nodeAlt n)
      else (s.updCursor core c (·.setCount cu.node 0)).moveCursor core c (nodeNext n))))

end Sys2Proof.Machine
end

