-- ==== Sys2Proof/Machine/Mailbox.lean ====
section
/-!
DEFINITION. Machine/Mailbox.lean: the requests that a PCIe host makes through the management mailboxes of BAR2 (01 R28), and the
doorbell of a submission queue (18 R339). An operation serves mailbox m when a request for it waits there; it leaves any other
state as it is.
-/

namespace Sys2Proof.Machine

/-! ## Requests (R28) -/

/-- Word k of a request. -/
def Mailbox.word (k : Mailbox) (n : Nat) : Nat := leNat ((List.range 8).map (fun i => (ByteMap.get? k.req (8 * n + i)).getD 0))

/-- The fields of the header. -/
def Mailbox.op (k : Mailbox) : Nat := k.word 0 % 256
def Mailbox.dieOf (k : Mailbox) : Nat := k.word 0 / 256 % 8
def Mailbox.headerBad (k : Mailbox) : Bool := k.word 0 / 2048 % 2 ^ 21 != 0

/-- Is an OP listed? -/
def opListed (op : Nat) : Bool := 1 ≤ op && op ≤ 9

/-- A request completes: RSP and RESULT are written, DONE is set, and its interrupt is raised. DESIGN CHOICE, log entry 108. -/
def State.mailboxDone (s : State) (m result : Nat) (words : List Nat) : State :=
  let k := s.mailbox m
  let bs := ((k.word 0 / 2 ^ 32 * 2 ^ 32 + result) :: words).flatMap (leBytes 8)
  { s.setMailbox m { k with rsp := ByteMap.putAll [] 0 bs, result := result, done := true, busy := false } with msix := s.msix ++ [1 + m] }

/-- How an operation ends once its request has passed the first checks: with a result other than 0; with response words; or
it must still wait. -/
inductive MailOut where
  | result (n : Nat)
  | done (s : State) (words : List Nat)
  | wait (s : State)
  deriving DecidableEq, Repr

/-- Serves a mailbox that holds a request for op. fields has, for each request word, the bits that the operation lists in it;
bad says of the request that a field has a value it cannot act on; die is the die whose Gondola acts, if the operation needs
one. DEDUCED, log entry 68. -/
def State.serve (s : State) (m op : Nat) (fields : List Nat) (bad : Mailbox → Bool) (die : Mailbox → Option Nat)
    (k : State → Mailbox → MailOut) : State :=
  let b := s.mailbox m
  if !b.busy || b.headerBad || b.op != op then s
  else if (List.range 31).any (fun n => b.word (n + 1) &&& fields.getD n 0 != b.word (n + 1)) then s.mailboxDone m 2 []
  else if bad b then s.mailboxDone m 2 []
  else if (match die b with | some d => !(s.bring.gondola.getLsbD d && s.bring.gondola.getLsbD 0) | none => false) then s.mailboxDone m 4 []
  else match k s b with
    | .result n => s.mailboxDone m n []
    | .done s1 ws => s1.mailboxDone m 0 ws
    | .wait s1 => s1

/-- A word that is listed whole, and one of 10 bits. -/
def allBits : Nat := 2 ^ 64 - 1
def asidBits : Nat := 1023

/-- Is an ASID live? -/
def State.asidLive (s : State) (a : Nat) : Bool := s.spaces.any (·.asid == a)

/-- A request with a malformed header or an unlisted OP. -/
def execMailboxUnknownOp (m : Nat) (s : State) : Host.Outcome State Fault Refusal :=
  .next (
    let b := s.mailbox m
    if !b.busy then s
    else if b.headerBad then s.mailboxDone m 2 []
    else if !opListed b.op then s.mailboxDone m 1 []
    else s)

/-! ## Address spaces -/

/-- A number that is free below a bound, none where all are used; which one is not stated. -/
def State.pickFree (s : State) (bound : Nat) (used : Nat → Bool) : Option (Nat × State) :=
  let free := (List.range bound).filter (fun k => !used k)
  let (k, s1) := s.pick free.length
  free[k]?.map (·, s1)

/-- CREATE_AS: an ASID that is not live. -/
def execCreateAs (m : Nat) (s : State) : Host.Outcome State Fault Refusal :=
  .next (s.serve m 0x01 [allBits] (fun b => b.word 1 % 4096 != 0 || decide (8 ≤ placeClass (b.word 1)) || decide (2 ^ 52 ≤ b.word 1) || decide (s.dramTop ≤ b.word 1))
    (fun _ => some 0) (fun s b =>
      match s.pickFree 1024 s.asidLive with
      | none => .result 3
      | some (a, s) => .done { s with spaces := { asid := a, root := b.word 1 } :: s.spaces } [a]))

/-- Does a queue or a launch use an ASID? -/
def State.asidUsed (s : State) (a : Nat) : Bool :=
  s.sqs.any (·.asid == a) || s.launches.any (fun L => L.asid == a && !L.done) || s.queues.any (fun q => q.asid == a && q.state != .unconfigured)

/-- DESTROY_AS: its translations go first (R42). -/
def execDestroyAs (m : Nat) (s : State) : Host.Outcome State Fault Refusal :=
  .next (s.serve m 0x02 [asidBits] (fun b => !s.asidLive (b.word 1)) (fun _ => some 0) (fun s b =>
    let a := b.word 1
    if s.asidUsed a then .result 5
    else .done { s.tlbSpace a with spaces := s.spaces.filter (·.asid != a) } []))

/-! ## Queues (R339, R351) -/

/-- Does a submission queue's descriptor fail its checks? -/
def sqDescBad (d : Nat) : Bool :=
  bitsAt d 511 192 != 0 || bitsAt d 127 106 != 0 || bitsAt d 95 71 != 0 || decide (bitsAt d 68 64 < 6) || decide (16 < bitsAt d 68 64)
    || d % 4096 != 0

/-- 8 MiB. -/
def ctxSlotBytes : Nat := 0x800000

/-- Do the context ranges of two queues overlap? -/
def rangesMeet (a n b k : Nat) : Bool := decide (a < b + k) && decide (b < a + n)

/-- A descriptor's ring and priority, as the front end holds them. -/
def SubQueue.takeDesc (q : SubQueue) (d : Nat) : SubQueue :=
  { q with ringbase := BitVec.ofNat 64 d, loglen := bitsAt d 68 64, prio := bitsAt d 70 69 }

/-- REGISTER_SQ: the descriptor is read in the queue's address space and takes its SQID; where the doorbell stands is free. DESIGN CHOICE, log entry 69. DEDUCED, log entry 70. DEDUCED, log entry 71. -/
def State.registerSq (s : State) (b : Mailbox) : MailOut :=
  let asid := b.word 1
  let ctx := b.word 4
  let len := b.word 5
  if ctx % ctxSlotBytes ≠ 0 ∨ len = 0 ∨ len % ctxSlotBytes ≠ 0 ∨ 2 ^ 64 < ctx + len then .result 2
  else if s.sqs.any (fun q => q.asid == asid && rangesMeet q.ctxBase.toNat q.ctxLen.toNat ctx len) then .result 2
  else if b.word 2 % 64 ≠ 0 then .result 2
  else match s.pickFree 1024 (fun k => s.sqs.any (·.id == k)) with
    | none => .result 3
    | some (id, s) =>
      match s.frontReach b.dieOf asid (BitVec.ofNat 64 (b.word 2)) 64 true (fun s loc =>
        if loc < 2 ^ 51 && !sqDescBad (s.homeNat loc 64) then
          .ok (s.putMarked b.dieOf (loc + 12) (leBytes 4 (bitsAt (s.homeNat loc 64) 127 106 * 1024 + id) ++ leBytes 8 0)) (s.homeBytes loc 64)
        else .fail s { cause := 0x04a, sub := 0x02 }) with
      | .ok s1 bs =>
        let (bell, s2) := s1.free64
        let q : SubQueue := { id := id, asid := asid, die := b.dieOf, desc := BitVec.ofNat 64 (b.word 2), policy := BitVec.ofNat 64 (b.word 3)
                              ctxBase := BitVec.ofNat 64 ctx, ctxLen := BitVec.ofNat 64 len }
        .done { s2 with sqs := s2.sqs ++ [q.takeDesc (leNat bs)] } [id, bell.toNat]
      | .wait s1 => .wait s1
      | _ => .result 2

def execRegisterSq (m : Nat) (s : State) : Host.Outcome State Fault Refusal :=
  .next (s.serve m 0x03 [asidBits, allBits, allBits, allBits, allBits] (fun b => !s.asidLive (b.word 1)) (fun b => some b.dieOf)
    (fun s b => s.registerSq b))

/-- UNREGISTER_SQ. -/
def execUnregisterSq (m : Nat) (s : State) : Host.Outcome State Fault Refusal :=
  .next (s.serve m 0x04 [asidBits] (fun b => !s.sqs.any (·.id == b.word 1)) (fun _ => some 0) (fun s b =>
    if s.sqs.any (fun q => q.id == b.word 1 && q.packets.any (fun p => p.started && p.result.isNone)) then .result 5
    else .done { s with sqs := s.sqs.filter (·.id != b.word 1) } []))

/-- CONFIG_WQ: the queue becomes open and empty (R351). -/
def execConfigWq (m : Nat) (s : State) : Host.Outcome State Fault Refusal :=
  .next (s.serve m 0x05 [63, allBits, allBits, asidBits]
    (fun b => !s.asidLive (b.word 4))
    (fun b => some b.dieOf) (fun s b =>
      let Q := s.workq b.dieOf (b.word 1)
      let live := fun (l : Nat) => (s.launch? l).any (fun L => !L.done)
      if b.word 1 = 63 || !((List.range 11).any (fun k => b.word 3 == 64 * 2 ^ k)) then .result 2
      else if Q.producers.any live || Q.consumers.any live then .result 5
      else .done (s.setWorkq { die := b.dieOf, q := b.word 1, state := .open, ringbase := BitVec.ofNat 64 (b.word 2)
                               ringlen := b.word 3, asid := b.word 4 }) []))

/-! ## Registers, status and the budget -/

/-- A physical address that Gondola cannot access with a size. -/
def State.mmioBad (s : State) (pa n : Nat) : Bool :=
  !(n == 4 || n == 8) || placeClass pa != 0xb || decide (2 ^ 52 ≤ pa) || (s.layoutBad 0 pa).isSome || pa % n != 0

def execMmioWrite (m : Nat) (s : State) : Host.Outcome State Fault Refusal :=
  .next (s.serve m 0x06 [allBits, allBits, allBits] (fun b => s.mmioBad (b.word 1) (b.word 3)) (fun _ => some 0) (fun s b =>
    .done (s.placeStore (b.word 1) (b.word 3) (b.word 2)) []))
def execMmioRead (m : Nat) (s : State) : Host.Outcome State Fault Refusal :=
  .next (s.serve m 0x07 [allBits, allBits] (fun b => s.mmioBad (b.word 1) (b.word 2)) (fun _ => some 0) (fun s b =>
    .done s [s.placeLoad (b.word 1) (b.word 2)]))

/-- The bring-up status word. -/
def State.bringWord (s : State) : Nat :=
  (if s.funcReady.getLsbD 63 then 6 else s.bring.step) + s.bring.cause % 256 * 256 + s.bring.named % 65536 * 65536

/-- STATUS is answered whatever is ready. -/
def execStatus (m : Nat) (s : State) : Host.Outcome State Fault Refusal :=
  .next (s.serve m 0x08 [] (fun _ => false) (fun _ => none) (fun s _ =>
    .done s [s.bringWord, s.funcReady.toNat, s.deviceHealth.toNat]))

/-- SET_BUDGET. -/
def execSetBudget (m : Nat) (s : State) : Host.Outcome State Fault Refusal :=
  .next (s.serve m 0x09 [allBits] (fun b => b.word 1 == 0 || decide (7000 < b.word 1)) (fun _ => some 0) (fun s b =>
    .done { s with budget := b.word 1 } []))

/-! ## The doorbell (R76, R339) -/

/-- A write to a doorbell. Software may set the descriptor's ring and priority up to the first one. -/
def State.doorbell (s : State) (sq : Nat) (v : BitVec 32) : State :=
  match s.sqs.find? (·.id == sq) with
  | none => s
  | some q =>
    let put := fun (s : State) (k : SubQueue) => { s with sqs := s.sqs.map (fun x => if x.id == sq then k else x) }
    let rung := { q with tail := mergeTail q.tail v }
    if q.taken = 0 && q.tail = 0 then
      match s.frontRead q.die q.asid q.desc 64 with
      | .ok s1 bs => put s1 (if sqDescBad (leNat bs) then rung else rung.takeDesc (leNat bs))
      | _ => put s rung
    else put s rung

def execSqDoorbell (sq : Nat) (v : BitVec 32) (s : State) : Host.Outcome State Fault Refusal := .next (s.doorbell sq v)

end Sys2Proof.Machine
end

