-- ==== Sys2Proof/Machine/Launch.lean ====
section
/-!
DEFINITION. Machine/Launch.lean: the front ends: taking and completing packets (18 R340 to R343, R455), FEED and CLOSE (R351, R352),
and the start of a launch: its record, its checks, its split ranges (R344, R345, R350; 19 R357, R358; 16 R312).
-/

namespace Sys2Proof.Machine

/-! ## Packets (R340 to R342, R455) -/

/-- A submission queue. -/
def State.sq? (s : State) (sq : Nat) : Option SubQueue := s.sqs.find? (·.id == sq)

/-- Writes a submission queue back. -/
def State.setSq (s : State) (k : SubQueue) : State := { s with sqs := s.sqs.map (fun q => if q.id == k.id then k else q) }

/-- The ring slot of a position. -/
def SubQueue.slotVa (q : SubQueue) (pos : Nat) : BitVec 64 := q.ringbase + BitVec.ofNat 64 (64 * (pos % 2 ^ q.loglen))

/-- A submission sequence number. -/
def sqSeq (id count : Nat) : Nat := id % 1024 * 2 ^ 54 + count % 2 ^ 54

/-- Has a requester a translation request pending? -/
def State.asks (s : State) (who : Requester) : Bool := s.requests.any (fun q => q.who == who)

/-- Changes one packet of a queue. -/
def State.updPacket (s : State) (sq pos : Nat) (f : Packet → Packet) : State :=
  match s.sq? sq with
  | none => s
  | some q => s.setSq { q with packets := q.packets.map (fun p => if p.pos == pos then f p else p) }

/-- No further packet is taken from a queue (R455). -/
def State.killSq (s : State) (sq : Nat) : State :=
  match s.sq? sq with
  | none => s
  | some q => s.setSq { q with dead := true }

/-- Writes DONESEQ, CAUSE and SUB of a packet that has ended; a write that cannot be made is dropped. -/
def State.writePacket (s : State) (sq pos : Nat) : State :=
  match s.sq? sq with
  | none => s
  | some q =>
    match q.packets.find? (·.pos == pos) with
    | none => s
    | some p =>
      match p.result with
      | none => s
      | some (cause, sub) =>
        if p.written || s.asks (.packet sq pos) then s
        else match s.frontWrite q.die q.asid (q.slotVa pos + 32) (leBytes 12 (sqSeq sq (pos + 1) + cause % 512 * 2 ^ 64 + sub % 2 ^ 16 * 2 ^ 80)) with
          | .ok s1 _ => s1.updPacket sq pos (fun p => { p with written := true })
          | .fail s1 _ => (s1.updPacket sq pos (fun p => { p with written := true })).killSq sq
          | .miss s1 va c => s1.frontRequest q.die q.asid va c (.packet sq pos)
          | .wait s1 => s1

/-- SEQ advances over the positions that have completed, in order. -/
def SubQueue.advance : Nat → SubQueue → SubQueue
  | 0, q => q
  | n + 1, q =>
    if q.packets.any (fun p => p.pos == q.seq && p.written) then
      SubQueue.advance n { q with seq := q.seq + 1, packets := q.packets.filter (·.pos != q.seq) }
    else q

/-- Writes SEQ of the descriptor. -/
def State.writeSeq (s : State) (sq : Nat) : State :=
  match s.sq? sq with
  | none => s
  | some q =>
    if q.seqOut = q.seq || s.asks (.seqWord sq) then s
    else match s.frontWrite q.die q.asid (q.desc + 16) (leBytes 8 (sqSeq sq q.seq)) with
      | .ok s1 _ => s1.setSq { q with seqOut := q.seq }
      | .fail s1 _ => s1.setSq { q with seqOut := q.seq, dead := true }
      | .miss s1 va c => s1.frontRequest q.die q.asid va c (.seqWord sq)
      | .wait s1 => s1

/-- Writes what waits to be written of a queue's completed packets. -/
def State.flushSq (s : State) (sq : Nat) : State :=
  match s.sq? sq with
  | none => s
  | some q =>
    let s1 := q.packets.foldl (fun a p => a.writePacket sq p.pos) s
    match s1.sq? sq with
    | none => s1
    | some q1 => (s1.setSq (q1.advance (q1.packets.length))).writeSeq sq

/-- A packet completes. -/
def State.endPacket (s : State) (sq pos cause sub : Nat) : State :=
  match s.sq? sq with
  | none => s
  | some q =>
    if q.packets.any (fun p => p.pos == pos && p.result.isNone) then
      (s.setSq { q with packets := q.packets.map (fun p => if p.pos == pos then { p with result := some (cause, sub) } else p)
                        causes := (pos, cause) :: q.causes }).flushSq sq
    else s

/-! ## Which packet starts (R341, R343) -/

/-- What stands at the next position of a queue: nothing that can start; a packet that can; one that completes at once with a
cause and a sub-code; or a slot that has still to be translated. -/
inductive NextPacket where
  | none
  | ready (bits : Nat)
  | fails (bits cause sub : Nat)
  | miss (va : BitVec 64) (cause : Nat)
  deriving DecidableEq, Repr

/-- The fields of a packet. -/
def pktKind (b : Nat) : Nat := bitsAt b 3 0
def pktArg0 (b : Nat) : Nat := bitsAt b 127 64
def pktArg1 (b : Nat) : Nat := bitsAt b 191 128

/-- A reserved KIND or a nonzero reserved field. DEDUCED, log entry 72. -/
def pktBad (b : Nat) : Bool :=
  let k := pktKind b
  decide (3 < k) || bitsAt b 63 4 != 0 || bitsAt b 335 329 != 0 || bitsAt b 255 192 != 0
    || (k != 1 && pktArg1 b != 0) || (k == 3 && pktArg0 b != 0)
    || (k == 1 && (bitsAt b 191 171 != 0 || bitsAt b 167 166 != 0))
    || (k == 2 && (bitsAt b 127 107 != 0 || bitsAt b 103 70 != 0))

/-- What a WAIT says: none where it is met, some none where it must wait, some some of the sub-code with which the packet
completes. -/
def State.waitState (s : State) (asid x : Nat) : Option (Option Nat) :=
  if x = 0 then none
  else match s.sq? (x / 2 ^ 54) with
    | none => some (some 0x18)
    | some q =>
      let n := x % 2 ^ 54
      if q.asid ≠ asid then some (some 0x18)
      else if q.causes.any (fun c => c.1 + 1 == n && c.2 != 0) then some (some 0x1b)
      else if n ≤ q.seq then none else some none

/-- The next packet of a queue. -/
def State.nextPacket (s : State) (q : SubQueue) : NextPacket :=
  if q.dead || !s.bring.gondola.getLsbD q.die || s.asks (.packet q.id q.taken) || !newer q.tail (BitVec.ofNat 32 q.taken) then .none
  else match s.frontRead q.die q.asid (q.slotVa q.taken) 64 with
    | .ok _ bs =>
      let b := leNat bs
      if entStamp b ≠ q.taken % 2 ^ 32 then .none
      else if pktBad b then .fails b 0x04a 0x10
      else match s.waitState q.asid (bitsAt b 479 416), s.waitState q.asid (bitsAt b 415 352) with
        | some (some k), _ => .fails b 0x04a k
        | _, some (some k) => .fails b 0x04a k
        | none, none => .ready b
        | _, _ => .none
    | .miss _ va c => .miss va c
    | _ => .none

/-- The work queue that a FEED or a CLOSE names. -/
def State.pktQueue (s : State) (b : Nat) : WorkQueue :=
  if pktKind b = 1 then s.workq (bitsAt b 170 168) (bitsAt b 165 160) else s.workq (bitsAt b 106 104) (bitsAt b 69 64)

/-- Must a FEED wait for room (R352)? -/
def State.feedWaits (s : State) (b : Nat) : Bool :=
  let Q := s.pktQueue b
  let c := bitsAt b 159 128
  pktKind b == 1 && c != 0 && decide (c ≤ Q.ringlen) && Q.state == .open && decide (Q.ringlen < ((Q.reserve - Q.free).toNat + c) % 2 ^ 32)

/-- Can a queue's next packet start? -/
def State.sqReady (s : State) (q : SubQueue) : Bool :=
  match s.nextPacket q with
  | .ready b => !s.feedWaits b
  | .fails _ _ _ => true
  | _ => false

/-- The queue whose packet the front end of a die serves next: the highest priority first, in rotation within one. -/
def State.served (s : State) (die : Nat) : Option Nat :=
  let ready := s.sqs.filter (fun q => q.die == die && s.sqReady q)
  let top := ready.foldl (fun m q => max m q.prio) 0
  let same := ready.filter (·.prio == top)
  let last := (s.die die).served.getD top 1023
  let turn := fun (q : SubQueue) => (q.id + 1023 - last) % 1024
  (same.foldl (fun (b : Option SubQueue) q => match b with
    | none => some q
    | some x => if turn q < turn x then some q else b) none).map (·.id)

/-- How the start of a packet ends: it completes; it runs on; it needs a translation; it waits. -/
inductive StartOut where
  | ends (s : State) (cause sub : Nat)
  | runs (s : State)
  | ask (s : State) (asid : Nat) (va : BitVec 64) (cause : Nat)
  | wait (s : State)
  deriving DecidableEq, Repr

/-- The front end takes a packet: its queue's turn of the priority is over. -/
def State.takePacket (s : State) (q : SubQueue) (b : Nat) : State :=
  let s1 := s.setSq { q with taken := q.taken + 1, record := none, packets := q.packets ++ [{ pos := q.taken, bits := BitVec.ofNat 512 b, started := true }] }
  let D := s1.die q.die
  s1.setDie q.die { D with served := setAt D.served q.prio q.id }

/-- The start of a packet of one KIND. A packet with a reserved KIND or field completes whatever operation meets it. -/
def State.frontOp (s : State) (sq pos kind : Nat) (k : State → SubQueue → Nat → StartOut) : State :=
  match s.sq? sq with
  | none => s
  | some q =>
    if q.taken ≠ pos then s
    else match s.nextPacket q with
      | .none => s
      | .miss va c => s.frontRequest q.die q.asid va c (.packet sq pos)
      | .fails b cause sub =>
        if s.served q.die = some sq && (pktKind b = kind || 3 < pktKind b) then (s.takePacket q b).endPacket sq pos cause sub else s
      | .ready b =>
        if pktKind b ≠ kind || s.served q.die ≠ some sq then s
        else match k s q b with
          | .ends s1 cause sub => (s1.takePacket ((s1.sq? sq).getD q) b).endPacket sq pos cause sub
          | .runs s1 => s1.takePacket ((s1.sq? sq).getD q) b
          | .ask s1 asid va c => s1.frontRequest q.die asid va c (.packet sq pos)
          | .wait s1 => s1

/-- NOP. -/
def execNopPacket (sq pos : Nat) (s : State) : Host.Outcome State Fault Refusal := .next (s.frontOp sq pos 3 (fun s _ _ => .ends s 0 0))

/-! ## FEED and CLOSE (R351, R352) -/

/-- Writes the records of a FEED into the ring, from a position on. DEDUCED, log entry 73. -/
def State.feedWrite (s : State) (Q : WorkQueue) : BitVec 32 → List (List Byte) → FrontOut
  | _, [] => .ok s []
  | p, r :: rs =>
    match s.frontWrite Q.die Q.asid (Q.slotVa p) (r.take 60 ++ leBytes 4 p.toNat) with
    | .ok s1 _ => State.feedWrite s1 Q (p + 1) rs
    | x => x

/-- Is a work queue configured, and not the service queue? -/
def WorkQueue.usable (Q : WorkQueue) : Bool := Q.state != .unconfigured && Q.q != 63

/-- FEED. The reservation and the writes are made together, once there is room and every record has been read. -/
def State.feedStart (s : State) (q : SubQueue) (b : Nat) : StartOut :=
  let Q := s.pktQueue b
  let c := bitsAt b 159 128
  let va : BitVec 64 := BitVec.ofNat 64 (pktArg0 b)
  if !Q.usable then .ends s 0x04a 0x16
  else if c = 0 then .ends s 0 0
  else if Q.ringlen < c then .ends s 0x04a 0x19
  else if Q.state = .closed then .ends s 0x141 0x02
  else if Q.state = .broken then .ends s 0x141 0x01
  else if va.toNat % 64 ≠ 0 then .ends s 0x084 0
  else match s.frontRuns q.die q.asid va c [] with
    | .fail s1 x => .ends s1 x.cause x.sub
    | .miss s1 va k => .ask s1 q.asid va k
    | .wait s1 => .wait s1
    | .ok s1 bs =>
      let recs := (List.range c).map (fun i => (bs.drop (64 * i)).take 64)
      match s1.feedWrite Q Q.reserve recs with
      | .fail _ x => .ends s1 x.cause x.sub
      | .miss _ va k => .ask s1 Q.asid va k
      | .wait _ => .wait s1
      | .ok s2 _ =>
        let p := Q.reserve + BitVec.ofNat 32 c
        .ends (s2.setWorkq { Q with reserve := p, tail := mergeTail Q.tail p }) 0 0

def execFeed (sq pos : Nat) (s : State) : Host.Outcome State Fault Refusal := .next (s.frontOp sq pos 1 (fun s q b => s.feedStart q b))

/-- Closes a queue that is open; sleeping qpops look at it again by themselves. -/
def WorkQueue.close (Q : WorkQueue) : WorkQueue := if Q.state = .open then { Q with state := .closed } else Q

/-- CLOSE. -/
def execClose (sq pos : Nat) (s : State) : Host.Outcome State Fault Refusal :=
  .next (s.frontOp sq pos 2 (fun s _ b =>
    let Q := s.pktQueue b
    if !Q.usable then .ends s 0x04a 0x16 else .ends (s.setWorkq Q.close) 0 0))

/-! ## The launch record (R344, R345) -/

/-- The record from its bits. -/
def launchRecOf (n : Nat) : LaunchRec :=
  let f := bitsAt n
  { tiles := f 1035 1028, splog := f 1027 1024, cmplarm := BitVec.ofNat 32 (f 1023 992), kind := f 985 984, det := bitAt n 983
    phased := bitAt n 982, orow := f 981 979, ocol := f 978 974, h := f 973 970, wd := f 969 964, entries := f 951 944
    spawnslots := f 943 936, accrows := f 935 923, regs := f 922 914, teams := f 913 908, width := f 907 906, cq := f 905 903
    kq := f 902 900, auxptr := BitVec.ofNat 64 (f 895 832), iters := f 831 768, qprod := BitVec.ofNat 64 (f 767 704)
    qcons := BitVec.ofNat 64 (f 703 640), barlimit := f 639 608, holdlimit := f 607 576, cmplbase := BitVec.ofNat 64 (f 575 512)
    ballastLimit := f 511 480, ballastStride := f 479 448, ballastBase := BitVec.ofNat 64 (f 447 384), ovflen := f 383 352
    wgcount := f 351 320, ovfbase := BitVec.ofNat 64 (f 319 256), qdescBase := BitVec.ofNat 64 (f 255 192)
    handler := BitVec.ofNat 64 (f 191 128), args := BitVec.ofNat 64 (f 127 64), entrytab := BitVec.ofNat 64 (f 63 0) }

/-- Nonzero reserved bits of a record. -/
def recReserved (n : Nat) : Bool :=
  bitsAt n 2047 1036 != 0 || bitsAt n 991 986 != 0 || bitsAt n 963 952 != 0 || bitsAt n 899 896 != 0

/-- A number within bounds. -/
def within (lo hi x : Nat) : Bool := decide (lo ≤ x) && decide (x ≤ hi)

/-- Is some field outside its range? DEDUCED, log entry 74. -/
def LaunchRec.outOfRange (R : LaunchRec) : Bool :=
  R.width == 3 || within 9 14 R.splog || decide (128 < R.tiles) || !within 1 8 R.h || !within 1 32 R.wd || R.entries == 0
    || decide (64 < R.spawnslots) || decide (4096 < R.accrows) || !within 1 256 R.regs || !within 1 32 R.teams || decide (4 < R.cq)
    || decide (4 < R.kq) || R.wgcount == 0
    || (if R.kind = 2 then decide (2 ^ 32 ≤ R.auxptr.toNat) else (R.kind != 3 && R.auxptr != 0) || R.iters != 0)

/-- Would thread ids reach 2^32? -/
def LaunchRec.idsOver (R : LaunchRec) : Bool :=
  let n := R.wgcount * R.teams * R.lanes
  decide (2 ^ 32 < (if R.spawnslots = 0 then n else n + ((R.wgcount - 1) * 64 + R.spawnslots) * R.lanes))

/-- The logical cores of the rectangle in raster order (R347). -/
def LaunchRec.cores (R : LaunchRec) : List Nat :=
  (List.range R.h).flatMap (fun i => (List.range R.wd).map (fun j => (R.orow + i) * 32 + R.ocol + j))

/-- The die of a logical core. -/
def dieOfLogical (c : Nat) : Nat := c / 32 / 4 * 4 + c % 32 / 8

/-- Is the rectangle refused? -/
def State.rectBad (s : State) (R : LaunchRec) : Bool :=
  decide (8 < R.orow + R.h) || decide (32 < R.ocol + R.wd) || R.cores.any (fun c => (s.physOf c).isNone)
    || (s.l2cfg.getLsbD 1 && (let k := s.l2cfg.toNat / 4 % 4
        R.cores.any (fun c => dieOfLogical c / 2 ^ k != dieOfLogical (R.orow * 32 + R.ocol) / 2 ^ k)))

/-- The alignment of a block's offset: the smallest power of two that is at least its size (R92). -/
def blockAlign (b : Nat) : Nat := ((List.range 9).map (16 * 2 ^ ·)).find? (fun p => decide (b ≤ p)) |>.getD 4096

/-- The teams of a launch that fit an empty slice (R92). -/
def LaunchRec.perSlice (R : LaunchRec) : Nat := 64 / R.lanes * min 32 (2048 / blockAlign R.blockSize)

/-- Accumulator rows of a workgroup. -/
def LaunchRec.accBlock (R : LaunchRec) : Nat := (R.accrows + 15) / 16 * 16

/-- Does one workgroup not fit an empty core? -/
def LaunchRec.tooBig (R : LaunchRec) : Bool :=
  decide (2048 < R.teams * R.lanes) || decide (2 * R.perSlice < R.teams) || decide (4096 < R.accBlock) || decide (4 < R.cq) || decide (4 < R.kq)

/-- n div k, without limit for k = 0. -/
def divOr (big n k : Nat) : Nat := if k = 0 then big else n / k

/-- The workgroups of a launch that an empty core can hold, but for its die's collective engine (R346, R404). -/
def LaunchRec.perCore (R : LaunchRec) : Nat :=
  let teams := R.teams + R.spawnslots
  let blocks := if R.det then 2 * (R.perSlice / teams) else 2 * R.perSlice / teams
  min (min 256 blocks) (min (divOr 256 64 R.spawnslots) (min (divOr 256 4096 R.accBlock) (divOr 256 16 R.cq)))

/-- Can the empty rectangle hold all workgroups at once? -/
def LaunchRec.holdsAll (R : LaunchRec) (ctxLen : Nat) : Bool :=
  let die := fun (d : Nat) => min (divOr (2 ^ 32) 64 R.kq) ((R.cores.filter (fun c => dieOfLogical c == d)).length * R.perCore)
  decide (R.wgcount ≤ min (ctxLen / ctxSlotBytes) ((List.range 8).map die).sum)

/-- Do CMPLARM or CMPLBASE fail R312? -/
def LaunchRec.cmplBad (R : LaunchRec) : Bool := R.cmplarm.toNat / 2 ^ 14 != 0 || (R.cmplarm != 0 && R.cmplbase.toNat % 4096 != 0)

/-- Does the record name a queue that it may not? -/
def State.queuesBad (s : State) (R : LaunchRec) (home : Nat) : Bool :=
  (List.range 64).any (fun n => (R.qprod.getLsbD n || R.qcons.getLsbD n) && !(s.workq home n).usable) || (R.kind == 1 && R.qcons == 0)

/-- Is something in the record unaligned? -/
def LaunchRec.unaligned (R : LaunchRec) : Bool :=
  R.entrytab.toNat % 8 != 0 || R.ballastBase.toNat % 16 != 0 || R.ballastStride % 16 != 0 || R.ovfbase.toNat % 4096 != 0
    || R.qdescBase.toNat % 64 != 0

/-! ## The coverage block (R357, R358) -/

/-- The controller of a coverage block. -/
def controllerOf (d : Nat) : Controller :=
  let f := bitsAt d
  { outbase := BitVec.ofNat 64 (f 511 448), target := BitVec.ofNat 64 (f 447 384), logbase := BitVec.ofNat 64 (f 383 320), tx := f 319 304
    ty := f 303 288, tz := f 287 272, audit := f 271 256, window := f 255 240, start := f 239 236, dense := f 235 232
    sparse := f 231 228, etype := f 227 224, curpat := f 239 236 }

/-- Is the block refused? -/
def coverBad (R : LaunchRec) (d : Nat) : Bool :=
  let C := controllerOf d
  let finite := match fval .f64 C.target.toNat with
    | .fin n m _ => !(n && decide (0 < m))
    | _ => false
  bitsAt d 223 0 != 0 || C.outbase.toNat % 64 != 0 || !finite || C.tx == 0 || C.ty == 0 || C.tz == 0 || C.window == 0
    || !([8, 9, 10, 11, 2, 4].contains C.etype)
    || !(patternOk C.start && patternOk C.dense && patternOk C.sparse)
    || pattern3d C.start != pattern3d C.dense || pattern3d C.start != pattern3d C.sparse
    || !(decide (C.dense ≤ C.start) && decide (C.start ≤ C.sparse))
    || (!pattern3d C.start && C.tz != 1) || R.wgcount != C.tx * C.ty * C.tz || R.phased

/-- Writes what the controller still has to write, in order, as far as it can; a store that cannot be made is left out, one that has to wait holds those
behind it (R357, R80, R429). DEDUCED, log entry 77. -/
def State.flushCover (s : State) (l : Nat) : State :=
  let L := s.launch l
  let r := L.coverOut.foldl (fun (x : State × List (BitVec 64 × List Byte)) o =>
    if !x.2.isEmpty then (x.1, x.2 ++ [o])
    else match x.1.frontWrite L.die L.asid o.1 o.2 with
      | .ok s1 _ | .fail s1 _ | .miss s1 _ _ => (s1, [])
      | .wait s1 => (s1, [o])) (s, [])
  r.1.setLaunch { r.1.launch l with coverOut := r.2 }

/-- The controller stores bytes: an immediate store with release at system scope (R357). -/
def State.coverStore (s : State) (l : Nat) (va : BitVec 64) (bs : List Byte) : State :=
  let L := s.launch l
  (s.setLaunch { L with coverOut := L.coverOut ++ [(va, bs)] }).flushCover l

/-- Shows the controller's words in the coverage block. -/
def State.coverWords (s : State) (l : Nat) : State :=
  let L := s.launch l
  match L.ctrl with
  | none => s
  | some C => s.coverStore l (L.recd.auxptr + 12) (leBytes 12 (C.curpat % 16 * 2 ^ 28 + C.windows % 2 ^ 32 * 2 ^ 32 + C.audits % 2 ^ 32 * 2 ^ 64))

/-- Changes the controller of a launch and shows its words. -/
def State.setCtrl (s : State) (l : Nat) (C : Controller) : State := (s.setLaunch { s.launch l with ctrl := some C }).coverWords l

/-- The first check that a launch fails; block is the coverage block, where the launch has one that may be read. -/
def State.launchCheck (s : State) (q : SubQueue) (n : Nat) (block : Option Nat) : Option Nat :=
  let R := launchRecOf n
  let home := dieOfLogical (R.orow * 32 + R.ocol)
  if recReserved n || R.outOfRange || R.idsOver then some 0x10
  else if s.rectBad R then some 0x11
  else if R.tooBig then some 0x12
  else if (R.phased || R.kind = 2) && !R.holdsAll q.ctxLen.toNat then some 0x13
  else if R.cmplBad then some 0x14
  else if R.kind = 2 && (R.iters = 0 || R.auxptr = 0 || R.iters % R.auxptr.toNat ≠ 0) then some 0x15
  else if R.kind = 3 && (match block with | some d => coverBad R d | none => true) then some 0x15
  else if s.queuesBad R home then some 0x16
  else if R.unaligned then some 0x17
  else none

/-! ## LAUNCH (R345, R350, R351) -/

/-- The bytes of the range table (R350). -/
def LaunchRec.ranges (R : LaunchRec) : List (List Byte) :=
  let n := R.wgcount
  let q := R.iters / n
  let m := R.iters % n
  let t := R.auxptr.toNat
  (List.range n).map (fun w =>
    let first := w * q + min w m
    let count := q + (if w < m then 1 else 0)
    leBytes 16 (first * 2 ^ 64 + count % 2 ^ 32 * 2 ^ 32 + (if first % t ≠ 0 then 2 else 0) + (if (first + count) % t ≠ 0 then 1 else 0)))

/-- Writes the range table. -/
def State.writeRanges (s : State) (die asid : Nat) : BitVec 64 → List (List Byte) → FrontOut
  | _, [] => .ok s []
  | va, r :: rs =>
    match s.frontWrite die asid va r with
    | .ok s1 _ => State.writeRanges s1 die asid (va + 16) rs
    | x => x

/-- The launch is registered as a producer and as a consumer (R351). -/
def State.registerQueues (s : State) (l : Nat) (R : LaunchRec) (home : Nat) : State :=
  (List.range 64).foldl (fun a n =>
    let Q := a.workq home n
    let Q1 := if R.qprod.getLsbD n then { Q with producers := Q.producers ++ [l], everProduced := true } else Q
    let Q2 := if R.qcons.getLsbD n then { Q1 with consumers := Q1.consumers ++ [l] } else Q1
    if R.qprod.getLsbD n || R.qcons.getLsbD n then a.setWorkq Q2 else a) s

/-- The launch joins those that wait for placement; a coverage block shows the pattern of its first tile from here on (R357, R367). -/
def State.addLaunch (s : State) (q : SubQueue) (R : LaunchRec) (entry0 : BitVec 64) (block : Option Nat) : State :=
  let home := dieOfLogical (R.orow * 32 + R.ocol)
  let L : Launch := { id := s.nextLaunch, die := home, fe := q.die, sq := q.id, pos := q.taken, asid := q.asid, prio := q.prio
                      policy := q.policy, recd := R, mask := R.cores, entry0 := entry0
                      ctrl := if R.kind = 3 then block.map controllerOf else none }
  ({ s with launches := s.launches ++ [L], nextLaunch := s.nextLaunch + 1 }.registerQueues s.nextLaunch R home).coverWords s.nextLaunch

/-- The coverage block of a record, where it may be read: it lies aligned in a DRAM class. -/
def State.readBlock (s : State) (q : SubQueue) (R : LaunchRec) (k : State → Option Nat → StartOut) : StartOut :=
  if R.kind ≠ 3 || R.auxptr.toNat % 64 ≠ 0 then k s none
  else
    let class_ := match (s.translate (frontAgent q.die q.asid) R.auxptr .rd).2 with
      | .ok _ pa _ => placeClass pa
      | _ => 0
    if 8 ≤ class_ then k s none
    else match s.frontRead q.die q.asid R.auxptr 64 with
      | .ok s1 bs => k s1 (some (leNat bs))
      | .fail s1 x => .ends s1 x.cause x.sub
      | .miss s1 va c => .ask s1 q.asid va c
      | .wait s1 => .wait s1

/-- Entry 0 of ENTRYTAB. -/
def State.readEntry0 (s : State) (q : SubQueue) (R : LaunchRec) (k : State → BitVec 64 → StartOut) : StartOut :=
  if R.entrytab.toNat % 8 ≠ 0 then k s 0
  else match s.frontRead q.die q.asid R.entrytab 8 with
    | .ok s1 bs => k s1 (BitVec.ofNat 64 (leNat bs))
    | .fail s1 x => .ends s1 x.cause x.sub
    | .miss s1 va c => .ask s1 q.asid va c
    | .wait s1 => .wait s1

/-- The record of a LAUNCH packet, read once: what waits afterwards starts again with the record as it was read (R344). -/
def State.readRecord (s : State) (q : SubQueue) (va : BitVec 64) (k : State → Nat → StartOut) : StartOut :=
  match q.record with
  | some n => k s n.toNat
  | none =>
    match s.frontRuns q.die q.asid va 4 [] with
    | .fail s1 x => .ends s1 x.cause x.sub
    | .miss s1 va c => .ask s1 q.asid va c
    | .wait s1 => .wait s1
    | .ok s1 bs => k (s1.setSq { q with record := some (BitVec.ofNat 2048 (leNat bs)) }) (leNat bs)

/-- A record that has been read: the other reads of R345, its checks, and its range table. -/
def State.launchFrom (s : State) (q : SubQueue) (va : BitVec 64) (n : Nat) : StartOut :=
  let R := launchRecOf n
  s.readBlock q R (fun s1 block => s1.readEntry0 q R (fun s2 entry0 =>
    match s2.launchCheck q n block with
    | some k => .ends s2 0x04a k
    | none =>
      match s2.writeRanges q.die q.asid (va + 256) (if R.kind = 2 then R.ranges else []) with
      | .ok s3 _ => .runs (s3.addLaunch q R entry0 block)
      | .fail s3 x => .ends s3 x.cause x.sub
      | .miss _ va c => .ask s2 q.asid va c
      | .wait _ => .wait s2))

/-- The start of a LAUNCH packet. -/
def State.launchStart (s : State) (q : SubQueue) (b : Nat) : StartOut :=
  let va : BitVec 64 := BitVec.ofNat 64 (pktArg0 b)
  if va.toNat % 64 ≠ 0 then .ends s 0x04a 0x17 else s.readRecord q va (fun s n => s.launchFrom q va n)

def execLaunch (sq pos : Nat) (s : State) : Host.Outcome State Fault Refusal := .next (s.frontOp sq pos 0 (fun s q b => s.launchStart q b))

end Sys2Proof.Machine
end

