-- ==== Sys2Proof/Machine/Place.lean ====
section
/-!
DEFINITION. Machine/Place.lean: the dispatcher: what a workgroup needs of a core and what of it is free (18 R346; 05 R92; 03 R62; 22
R404), where it goes (R347), what its placement sets (R61, R70, R94, R101, R104), the tile of a coverage workgroup (19 R363, R367,
R368), and the counts of launches that wait (R348).
-/

namespace Sys2Proof.Machine

/-! ## What is in use -/

/-- The workgroups that hold resources of a core. -/
def State.onCore (s : State) (c : Nat) : List Wg :=
  s.wgs.filter (fun W => W.core == c && (W.state == .placed || W.state == .running || W.state == .evicting))

/-- A block of registers: slice, first lane, lanes, offset, entries (R91, R92). -/
structure Block where
  slice : Nat
  span  : Nat
  width : Nat
  off   : Nat
  size  : Nat
  deriving DecidableEq, Repr

/-- The blocks in use on a core: those of teams, and those reserved with spawn slots. -/
def State.blocks (s : State) (c : Nat) : List Block :=
  (s.teams.filter (fun T => T.core == c && T.idx < 32)).map (fun T => ⟨T.slice, T.span, T.width, T.block, T.bsize⟩)
  ++ (s.onCore c).flatMap (fun W =>
    let R := (s.launch W.launch).recd
    W.spawnBlocks.map (fun b => ⟨b.1, b.2.1, R.lanes, b.2.2, R.blockSize⟩))

/-- Does a block leave another alone? -/
def Block.apart (a b : Block) : Bool :=
  a.slice != b.slice || decide (a.span + a.width ≤ b.span) || decide (b.span + b.width ≤ a.span)
    || decide (a.off + a.size ≤ b.off) || decide (b.off + b.size ≤ a.off)

/-- May a block be given: aligned, inside the file, apart from the others, and at most 32 threads on a lane? -/
def Block.free (b : Block) (used : List Block) : Bool :=
  decide (b.off + b.size ≤ 2048) && used.all b.apart
    && (List.range b.width).all (fun i =>
      decide ((used.filter (fun u => u.slice == b.slice && decide (u.span ≤ b.span + i) && decide (b.span + i < u.span + u.width))).length < 32))

/-- The places a block of a width and a size may take in some slices. -/
def blockPlaces (slices : List Nat) (width size : Nat) : List Block :=
  slices.flatMap (fun sl => (List.range (64 / width)).flatMap (fun k =>
    (List.range (2048 / blockAlign size)).map (fun o => ⟨sl, k * width, width, o * blockAlign size, size⟩)))

/-- Gives n blocks, none where one of them finds no room. Each is the first free one, by slice, span and offset: R92 does not say which. DESIGN CHOICE,
log entry 123. -/
def allocBlocks (slices : List Nat) (width size : Nat) : Nat → List Block → Option (List Block)
  | 0, _ => some []
  | n + 1, used =>
    match (blockPlaces slices width size).find? (·.free used) with
    | none => none
    | some b => (allocBlocks slices width size n (b :: used)).map (b :: ·)

/-- The blocks of all a launch's teams and spawn slots: of a deterministic launch, in one slice (R404). -/
def LaunchRec.alloc (R : LaunchRec) (used : List Block) : Option (List Block) :=
  let n := R.teams + R.spawnslots
  if R.det then ([[0], [1]].findSome? (fun sl => allocBlocks sl R.lanes R.blockSize n used))
  else allocBlocks [0, 1] R.lanes R.blockSize n used

/-- The first base of an aligned run of accumulator rows that is free (R104). DESIGN CHOICE, log entry 123. -/
def State.accRoom (s : State) (c n : Nat) : Option Nat :=
  if n = 0 then some 0
  else
    let used := (s.onCore c).map (fun W => (W.accblk.toNat % 4096, W.accblk.toNat / 2 ^ 16 % 8192))
    ((List.range 256).map (· * 16)).find? (fun b => decide (b + n ≤ 4096) && used.all (fun u => decide (b + n ≤ u.1) || decide (u.2 ≤ b)))

/-- The first n free numbers below a bound. -/
def freeNumbers (bound n : Nat) (used : List Nat) : Option (List Nat) :=
  let free := (List.range bound).filter (fun k => !used.contains k)
  if free.length < n then none else some (free.take n)

/-- The hardware queues of an engine in use: of a core's copy engine, or of a die's collective engine. -/
def State.hwUsed (s : State) (c eng : Nat) : List Nat :=
  (s.wgs.filter (fun W => (if eng = 0 then W.core == c else dieOf W.core == dieOf c)
      && (W.state == .placed || W.state == .running || W.state == .evicting))).flatMap (fun W =>
    (W.queues.filter (·.sel.eng == eng)).map (·.hw))

/-- The size of a launch's partitions, none for SPLOG 15 (R62). -/
def LaunchRec.partSize (R : LaunchRec) : Option Nat := if R.splog = 15 then none else some (2 ^ 20 / 2 ^ R.splog)

/-- Free space for a partition on a core: the lowest base and the lowest first tile entry. DESIGN CHOICE, log entry 123. -/
def State.partRoom (s : State) (c size tiles : Nat) : Option (Nat × Nat) :=
  let ps := s.parts.filter (fun p => p.core == some c)
  let base := ((List.range (2 ^ 20 / size)).map (· * size)).find? (fun b =>
    ps.all (fun p => decide (b + size ≤ p.base) || decide (p.base + p.size ≤ b)))
  let run := (List.range (129 - tiles)).find? (fun t => tiles = 0 || ps.all (fun p => decide (t + tiles ≤ p.tbase) || decide (p.tbase + p.tiles ≤ t)))
  match base, run with
  | some b, some t => some (b, t)
  | _, _ => none

/-- What a workgroup is given on a core. -/
structure Room where
  core  : Nat
  slot  : Nat
  blocks : List Block
  acc   : Nat
  cq    : List Nat
  kq    : List Nat
  /-- Base and first tile entry of a new partition; none where it joins one, or has none. -/
  part  : Option (Nat × Nat)
  deriving DecidableEq, Repr

/-- May Gondola place a workgroup on a core at all: it works, no halt is in force, and a coverage tile finds its unit free (R363,
R419, R432)? DEDUCED, log entry 75. -/
def State.coreOpen (s : State) (L : Launch) (c : Nat) : Bool :=
  !(s.core c).failed && !(s.core c).halt && (L.recd.kind != 3 || !(s.onCore c).any (fun W => W.cover.isSome))

/-- What of R346 but the register blocks a core lacks. -/
def State.roomBut (s : State) (L : Launch) (c : Nat) (newPart : Bool) (bs : List Block) : Option Room :=
  let R := L.recd
  let ws := s.onCore c
  let spawn := (ws.map (fun W => (s.launch W.launch).recd.spawnslots)).sum
  let part : Option (Option (Nat × Nat)) := match R.partSize, newPart with
    | some n, true => (s.partRoom c n R.tiles).map some
    | _, _ => some none
  match (List.range 256).find? (fun k => !ws.any (·.slot == k)), s.accRoom c R.accBlock, freeNumbers 16 R.cq (s.hwUsed c 0),
      freeNumbers 64 R.kq (s.hwUsed c 1), part with
  | some slot, some acc, some cq, some kq, some p =>
    if s.coreOpen L c && spawn + R.spawnslots ≤ 64 then some { core := c, slot := slot, blocks := bs, acc := acc, cq := cq, kq := kq, part := p }
    else none
  | _, _, _, _, _ => none

/-- What a core gives a workgroup of a launch, none where it lacks something. -/
def State.room (s : State) (L : Launch) (c : Nat) (newPart : Bool) : Option Room :=
  match L.recd.alloc (s.blocks c) with
  | none => none
  | some bs => s.roomBut L c newPart bs

/-- The lowest free slot of the context range of a launch's queue (R401). -/
def State.ctxRoom (s : State) (L : Launch) : Option (BitVec 64) :=
  match s.sqs.find? (·.id == L.sq) with
  | none => none
  | some q =>
    let used := (s.wgs.filter (fun W => W.state != .retired && (s.launch W.launch).sq == q.id)).map (·.ctx)
    ((List.range (q.ctxLen.toNat / ctxSlotBytes)).map (fun k => q.ctxBase + BitVec.ofNat 64 (k * ctxSlotBytes))).find? (fun a => !used.contains a)

/-! ## Where a workgroup goes (R347) -/

/-- Does a physical core lie in a launch's core mask? -/
def State.inMask (s : State) (L : Launch) (c : Nat) : Bool := (s.logicalOf c).any L.mask.contains

/-- The target of a home: the core that holds the launch's partition homed there, or the home's own core, where a partition is
new; it lies in the launch's core mask (R346). -/
def State.target (s : State) (L : Launch) (h : Nat) : Option (Nat × Bool) :=
  match s.partition? L.id h with
  | some p => (p.core.filter (s.inMask L)).map (fun c => (c, false))
  | none => if L.mask.contains h then (s.physOf h).map (fun c => (c, true)) else none

/-- The first home whose target has room, from that of a workgroup's number on. -/
def State.findHome (s : State) (L : Launch) (w : Nat) : Option (Nat × Room) :=
  let cs := L.recd.cores
  let k := w % max 1 cs.length
  (cs.drop k ++ cs.take k).findSome? (fun h =>
    match s.target L h with
    | none => none
    | some (c, new) => (s.room L c new).map (fun r => (h, r)))

/-! ## The tile of a coverage workgroup (R363, R367, R368) -/

/-- Must the placement of a tile wait for others (R368)? -/
def Launch.tileWaits (L : Launch) (t : Nat) : Bool :=
  match L.ctrl with
  | none => false
  | some C => L.recd.det && (List.range (t - 2 * (L.recd.h * L.recd.wd))).any (fun k => !C.tilesDone.contains k)

/-- The instant of a tile: its pattern, with the pattern log's byte. -/
def State.tileStart (s : State) (l t : Nat) : State × Option Cover :=
  let L := s.launch l
  match L.ctrl with
  | none => (s, none)
  | some C =>
    let C1 := C.instant (if L.recd.det then t - 2 * (L.recd.h * L.recd.wd) else 2 ^ 64)
    let s1 := if C1.curpat = C.curpat then s.setLaunch { L with ctrl := some C1 } else s.setCtrl l C1
    let s2 := if C1.logbase = 0 then s1 else s1.coverStore l (C1.logbase + BitVec.ofNat 64 t) [BitVec.ofNat 8 C1.curpat]
    (s2, some { tile := t, pattern := C1.curpat })

/-! ## The squares of the completion tree (R311) -/

/-- The node of a square level that holds a logical core. -/
def LaunchRec.square (R : LaunchRec) (k home : Nat) : Nat :=
  (home / 32 - R.orow) / 2 ^ k * ((R.wd + 2 ^ k - 1) / 2 ^ k) + (home % 32 - R.ocol) / 2 ^ k

/-- Does a square complete: nothing of the launch is unplaced, and every workgroup homed in it has completed? DEDUCED, log entry 78. -/
def State.squareReady (s : State) (L : Launch) (k n : Nat) : Bool :=
  L.nextWg == L.recd.wgcount && !L.nodes.contains (k + 2, n)
    && (s.wgs.filter (fun W => W.launch == L.id && L.recd.square k W.home == n)).all (fun W => L.retired.contains W.id)

/-- The squares that complete now, in tree order (R314). -/
def State.squaresDone (s : State) (l : Nat) : State :=
  let R := (s.launch l).recd
  [0, 1, 2, 3].foldl (fun a k =>
    (sortBy (fun (a b : Nat) => decide (a ≤ b)) (R.cores.map (R.square k)).dedup).foldl (fun a n =>
      if a.squareReady (a.launch l) k n then a.nodeDone l (k + 2) 0 n else a) a) s

/-! ## Placement -/

/-- A new partition is zero and its tile entries are INVALID (R61). -/
def State.newPartition (s : State) (L : Launch) (home c : Nat) (size base tbase : Nat) : State :=
  let lo := scratchPa c base
  let inside := fun (a : Nat) => decide (lo ≤ a) && decide (a < lo + size)
  let out := fun (l : List Nat) => l.filter (fun sec => !inside (sec * 64))
  let K := s.core c
  let s1 := s.setCore { K with tiles := K.tiles.zipIdx.map (fun x => if tbase ≤ x.2 ∧ x.2 < tbase + L.recd.tiles then 0 else x.1) }
  { s1 with mem := s1.mem.filter (fun x => !inside x.1), badSeals := out s1.badSeals, pinned := out s1.pinned, poison := out s1.poison
            parts := s1.parts ++ [{ launch := L.id, home := home, core := some c, base := base, size := size, tbase := tbase, tiles := L.recd.tiles }] }

/-- ACCBLK of a block of rows (R104). -/
def accblkOf (base n : Nat) : BitVec 32 := BitVec.ofNat 32 (base % 4096 + (base + n) * 2 ^ 16)

/-- Binds one queue: it starts at APPENDPOS; one whose descriptor cannot be read or is refused starts at 0 (R70, R72). None where the descriptor has to
be waited for (R14, R80, R429). DEDUCED, log entry 76. -/
def State.bindQueue (s : State) (l w : Nat) (sel : QSel) (hw : Nat) : Option (State × EQueue) :=
  match s.engReach (s.engineAgent l w) (s.descVa l w sel) 64 true with
  | .ok s1 x =>
    let d := s1.homeNat x.loc 64
    if descBad d || x.va.toNat % 64 ≠ 0 || s1.sealBad x.loc then some (s1, { sel := sel, hw := hw, bad := true })
    else
      let p := bitsAt d 127 96
      some ((s1.writeHome (x.loc + 16) (leBytes 8 (seqOf sel p).toNat) (dieOf (s1.wg l w).core)).getD s1
        , { sel := sel, hw := hw, qtail := BitVec.ofNat 32 p, count := p })
  | .wait _ => none
  | _ => some (s, { sel := sel, hw := hw, bad := true })

/-- Binds the queues of a workgroup that is being placed. -/
def State.bindQueues (s : State) (l w : Nat) : List (QSel × Nat) → Option State
  | [] => some s
  | (sel, hw) :: rest =>
    (s.bindQueue l w sel hw).bind (fun r =>
      let W := r.1.wg l w
      State.bindQueues (r.1.setWg { W with queues := W.queues ++ [r.2] }) l w rest)

/-- Gondola maps the context area of a workgroup onto 8 MiB of DRAM that nothing uses (R401). DESIGN CHOICE, log entry 137. -/
def State.mapContext (s : State) (L : Launch) (w : Nat) (ctx : BitVec 64) : State :=
  let (f, s1) := s.freeFrame
  { s1 with ctxMaps := s1.ctxMaps ++ [{ launch := L.id, wg := w, asid := L.asid, base := ctx.toNat, frame := f * 2 ^ 23 }] }

/-- The teams of a new workgroup (R94, R101). -/
def Launch.newTeams (L : Launch) (w home c : Nat) (halted : Bool) (bs : List Block) : List Team :=
  let R := L.recd
  bs.zipIdx.map (fun x =>
    let t := x.2
    { launch := L.id, wg := w, idx := t, width := R.lanes, core := c, slice := x.1.slice, span := x.1.span, block := x.1.off, bsize := R.blockSize
      s := loadS (L.sregs w t home), halted := halted
      threads := (List.range R.lanes).map (fun i => newThread i ((w * R.teams + t) * R.lanes + i) R.blockSize L.entry0) })

/-- Places workgroup w of a launch at a home, with what the core gives it; none where the binding of a queue has to wait. -/
def State.placeAt (s : State) (L : Launch) (w home : Nat) (ctx : BitVec 64) (r : Room) : Option State :=
  let R := L.recd
  let s1 := match r.part, R.partSize with
    | some (b, t), some n => s.newPartition L home r.core n b t
    | _, _ => s
  let (s2, cover) := if R.kind = 3 then s1.tileStart L.id w else (s1, none)
  let W : Wg := { launch := L.id, id := w, core := r.core, home := home, slot := r.slot, ctx := ctx, accblk := accblkOf r.acc R.accBlock
                  spawnBlocks := (r.blocks.drop R.teams).map (fun b => (b.slice, b.span, b.off)), cover := cover }
  let s3 := { s2 with wgs := s2.wgs ++ [W] }.mapContext L w ctx
  let inAcc := fun (i : Nat) => decide (r.acc ≤ i / 32) && decide (i / 32 < r.acc + R.accBlock)
  (s3.bindQueues L.id w (r.cq.zipIdx.map (fun x => (⟨0, x.2⟩, x.1)) ++ r.kq.zipIdx.map (fun x => (⟨1, x.2⟩, x.1)))).map (fun s4 =>
    let K := s4.core r.core
    let s4 := s4.setCore { K with acc := K.acc.filter (fun x => !inAcc x.1), eccRows := K.eccRows.filter (fun i => !inAcc (32 * i)) }
    let s5 := (L.newTeams w home r.core (s4.core r.core).halt (r.blocks.take R.teams)).foldl State.addTeam s4
    s5.setLaunch { s5.launch L.id with nextWg := w + 1 })

/-- Places the next workgroup of a launch, none where no core has room for it. -/
def State.placeNext (s : State) (l : Nat) : Option State :=
  match s.launch? l with
  | none => none
  | some L =>
    let w := L.nextWg
    if L.recd.wgcount ≤ w || L.tileWaits w then none
    else match s.ctxRoom L, s.findHome L w with
      | some ctx, some (h, r) => s.placeAt L w h ctx r
      | _, _ => none

/-- Places n workgroups, all of them or none. -/
def State.placeMany (s : State) (l : Nat) : Nat → Option State
  | 0 => some s
  | n + 1 => (s.placeNext l).bind (fun s1 => State.placeMany s1 l n)

/-- Has a launch a workgroup that is still to be placed? -/
def Launch.unplaced (L : Launch) : Bool := !L.done && L.nextWg < L.recd.wgcount && L.doom.isNone

/-- Does a launch have a workgroup that may be placed now? Saved workgroups are restored first (R354). -/
def State.wantsPlace (s : State) (L : Launch) : Bool :=
  L.unplaced && !s.wgs.any (fun W => W.launch == L.id && W.state == .saved)

/-- Do all dies of a launch's rectangle compute (R429)? -/
def State.computes (s : State) (L : Launch) : Bool := L.recd.cores.all (fun c => s.bring.compute.getLsbD (dieOfLogical c))

/-- WORKGROUP_PLACE: a phased or split launch is placed all at once. Squares whose workgroups have all completed complete with the last
placement (R311). -/
def State.place (s : State) (l : Nat) : State :=
  match s.launch? l with
  | none => s
  | some L =>
    if !s.wantsPlace L || !s.computes L then s
    else ((s.placeMany l (if L.recd.phased || L.recd.kind = 2 then L.recd.wgcount - L.nextWg else 1)).map (·.squaresDone l)).getD s

def execWorkgroupPlace (l : Nat) (s : State) : Host.Outcome State Fault Refusal := .next (s.place l)

/-! ## FE_STAT (R348) -/

/-- Are register blocks alone what stops the placement on some core: enough free entries in a slice, but no aligned runs? -/
def State.fragBlocked (s : State) (L : Launch) : Bool :=
  let R := L.recd
  (s.ctxRoom L).isSome && s.computes L && s.wantsPlace L && R.cores.any (fun h =>
    match s.target L h with
    | none => false
    | some (c, new) =>
      (s.roomBut L c new []).isSome && (R.alloc (s.blocks c)).isNone && [0, 1].any (fun sl =>
        let used := (((s.blocks c).filter (·.slice == sl)).map (fun b => b.width * b.size)).sum
        decide (R.teams * R.lanes * R.blockSize ≤ 64 * 2048 - used)))

/-- One field of FE_STAT counts a tick; it stops at all ones. -/
def feCount (v : BitVec 64) (frag : Bool) : BitVec 64 :=
  if frag then (if v.toNat / 2 ^ 32 = 2 ^ 32 - 1 then v else v + 0x100000000)
  else (if v.toNat % 2 ^ 32 = 2 ^ 32 - 1 then v else v + 1)

/-- A tick of the launches whose next workgroup waits, counted by their home dies. DEDUCED, log entry 132. -/
def State.feTick (s : State) : State :=
  (s.launches.filter Launch.unplaced).foldl (fun a L =>
    let D := a.die L.die
    a.setDie L.die { D with feStat := feCount D.feStat (a.fragBlocked L) }) s

end Sys2Proof.Machine
end

