-- ==== Sys2Proof/Machine/Retire.lean ====
section
/-!
DEFINITION. Machine/Retire.lean: the retirement of a workgroup (04 R84; 16 R311, R314; 07 R139; 03 R62; 23 R425), the end of a launch (R311,
R313; 18 R342, R351, R355), and its end by a kill (21 R399; 17 R269).
-/

namespace Sys2Proof.Machine

/-! ## WORKGROUP_RETIRE (R84, R311) -/

/-- Has a workgroup's engine, tile, Reel, matrix and coverage work finished (R84)? -/
def State.workDone (s : State) (W : Wg) : Bool :=
  let K := s.core W.core
  W.queues.all (fun q => q.bad || !newer q.qtail (BitVec.ofNat 32 q.count))
    && !s.inflight.any (fun i => i.launch == W.launch && i.wg == W.id)
    && !K.tiles.any (fun e => tileV e && tileOwner e == W.slot && (tileState e == 1 || tileState e == 3))
    && K.reel.owner != some ⟨W.launch, W.id⟩
    && !K.passes.any (fun p => p.parts.any (fun x => x.launch == W.launch && x.wg == W.id))
    && (match W.cover with | some k => k.done | none => true)

/-- The payload of a BLOCK record: the workgroup and three vote counts, which saturate (R424). -/
def blockPayload (w : Nat) (votes : List Nat) : Nat :=
  let v := fun (k : Nat) => min (votes.getD k 0) (2 ^ 32 - 1)
  w % 2 ^ 32 + v 0 * 2 ^ 32 + v 1 * 2 ^ 64 + v 2 * 2 ^ 96

/-- The BLOCK records of a workgroup, one for each team that ran in it (R425). -/
def State.blockRecords (s : State) (W : Wg) : State :=
  let now := (s.teams.filter (fun T => T.launch == W.launch && T.wg == W.id)).map (fun T => (T.idx, T.votes, T.windsock))
  (W.banks ++ now).foldl (fun a b =>
    a.trace (dieOf W.core) 3 (a.launch W.launch).asid (a.traceCore W.core) (W.slot % 256 * 256 + b.1 % 128) (blockPayload W.id b.2.1)
      (b.2.2.flatMap (fun x => leBytes 8 x.toNat))) s

/-- The sets whose carried bytes workgroups that have retired took with them: they are older than what those workgroups stored
since, so they go home with a view, and before it (R138, R139). DEDUCED, log entry 41. -/
def State.carriesHome (s : State) (l : Nat) : List Carry :=
  s.carries.filter (fun k => k.launch == l && s.wgs.any (fun W => W.launch == l && W.state == .retired && W.carry.contains k.id))

/-- The last workgroup of a launch on a core leaves: its view is written back (R139). -/
def State.viewLeaves (s : State) (l c : Nat) : State :=
  if (s.onCore c).any (fun W => W.launch == l) then s
  else
    let s1 := (s.bytesHome l [c] (s.carriesHome l)).cleanCore c
    { s1 with views := s1.views.filter (fun v => !(v.core == c && v.launch == l)) }

/-- A partition without workgroups is freed (R62). -/
def State.partLeaves (s : State) (l home : Nat) : State :=
  if s.wgs.any (fun W => W.launch == l && W.home == home && W.state != .retired) then s
  else { s with parts := s.parts.filter (fun p => !(p.launch == l && p.home == home)) }

/-- Takes a workgroup out of everything that holds it. -/
def State.dropWg (s : State) (W : Wg) : State :=
  let mine := fun (l w : Nat) => l == W.launch && w == W.id
  { s with
    teams := s.teams.filter (fun T => !mine T.launch T.wg)
    snaps := s.snaps.filter (fun q => !mine q.launch q.wg)
    ctxMaps := s.ctxMaps.filter (fun m => !mine m.launch m.wg)
    overflow := s.overflow.filter (fun r => !mine r.launch r.wg)
    requests := s.requests.filter (fun q => match q.who with
      | .engine l w _ | .cursor l w _ | .pass l w _ _ | .context l w => !mine l w
      | _ => true) }

/-- The tile entries that a workgroup owns are INVALID again. -/
def State.freeTiles (s : State) (W : Wg) : State :=
  let K := s.core W.core
  s.setCore { K with tiles := K.tiles.map (fun e => if tileV e && tileOwner e == W.slot then 0 else e) }

/-- A workgroup retires. -/
def State.retire (s : State) (W : Wg) : State :=
  let L := s.launch W.launch
  let s1 := (s.blockRecords W).freeTiles W
  let s2 := (s1.setWg { W with state := .retired, core := noCore, queues := [], cover := none, image := [] }).dropWg W
  let s3 := ((s2.viewLeaves W.launch W.core).partLeaves W.launch W.home)
  let s4 := (s3.setLaunch { s3.launch L.id with retired := L.retired ++ [W.id] }).nodeDone L.id 1 W.id W.id
  s4.squaresDone L.id

/-- Can a workgroup retire now? -/
def State.canRetire (s : State) (W : Wg) : Bool :=
  (W.state == .placed || W.state == .running) && s.wgExited W.launch W.id && s.workDone W && (s.launch W.launch).doom.isNone

def execWorkgroupRetire (r : WgRef) (s : State) : Host.Outcome State Fault Refusal :=
  .next (match s.wg? r.launch r.wg with
    | none => s
    | some W => if s.canRetire W then s.retire W else s)

/-! ## LAUNCH_COMPLETE (R139, R311, R313, R342, R351, R355) -/

/-- A producer or consumer launch ends: its queues close with their last producer, or break (R269, R351). -/
def State.leaveQueues (s : State) (l : Nat) (broken : Bool) : State :=
  { s with queues := s.queues.map (fun Q =>
      let was := Q.producers.contains l
      let ps := Q.producers.filter (· != l)
      { Q with
        producers := ps, consumers := Q.consumers.filter (· != l)
        state := if was && broken && Q.state != .unconfigured then (if Q.state = .open then .broken else Q.state)
          else if was && ps.isEmpty && Q.state = .open then .closed else Q.state }) }

/-- Is a launch over as its host sees it: its packet's words have been written, or their write was dropped (R342, R455)? -/
def State.launchOver (s : State) (L : Launch) : Bool :=
  L.done && (s.sqs.find? (·.id == L.sq)).all (fun q => !q.packets.any (fun p => p.pos == L.pos && !p.written))

/-- Pre-emption requests are acknowledged, each once no workgroup of its eviction set is still to be saved; where the last workgroup of the launch has
retired, only once the launch is over (R355). -/
def State.preemptAck (s : State) (l : Nat) : State :=
  let L := s.launch l
  let waits := fun (set : List Nat) => set.any (fun w => (s.wg l w).state == .evicting)
  if (L.done || L.retired.length == L.recd.wgcount) && !s.launchOver L then s
  else s.setLaunch { L with preempts := L.preempts.filter waits, acks := L.acks + (L.preempts.filter (fun set => !waits set)).length }

/-- The boundary of the launch's end, its word and its interrupt; then, once the words are written, its packet. -/
def State.completeLaunch (s : State) (l : Nat) : State :=
  match s.launch? l with
  | none => s
  | some L =>
    if L.done || L.doom.isSome || L.retired.length < L.recd.wgcount then s
    else
      let s1 := if L.nodes.contains (6, 0) then s.flushWords l else
        let cores := (s.views.filter (·.launch == l)).map (·.core)
        let b := cores.foldl State.cleanCore (s.bytesHome l cores (s.carries.filter (·.launch == l)))
        { b with views := b.views.filter (·.launch != l), carries := b.carries.filter (·.launch != l) }.nodeDone l 6 0 0
      let L1 := s1.launch l
      if !L1.words.isEmpty || !L1.coverOut.isEmpty || L1.doom.isSome then s1
      else
        let (cause, sub) := L1.wordFail.getD (0, 0)
        let s2 := (s1.setLaunch { L1 with done := true }).leaveQueues l false
        (s2.endPacket L1.sq L1.pos cause sub).preemptAck l

def execLaunchComplete (l : Nat) (s : State) : Host.Outcome State Fault Refusal := .next (s.completeLaunch l)

/-! ## KILL (R399) -/

/-- The engine entries of a launch that are between issue and completion complete: first run what has not yet run. DEDUCED, log entry 82. -/
def State.drainEngines (s : State) (l : Nat) : State :=
  (s.inflight.filter (·.launch == l)).foldl (fun a i =>
    let b := if entKind i.bits.toNat = 0 then a.copyEntry l i.wg i.sel
      else if entKind i.bits.toNat = 1 then a.collEntry l i.wg i.sel else a.nopEntry l i.wg i.sel
    -- an entry whose translation Gondola will not end, or whose members will not come, fails
    let c := match b.flight? l i.wg i.sel with
      | some k => if k.result.isNone then b.endFlight k 0x080 0 else b
      | none => b
    c.completeEntry l i.wg i.sel) s

/-- A launch is killed: threads stop at once, its views and carried bytes are discarded, its resources are released, its producer
queues break, and its packet completes with the cause. -/
def State.kill (s : State) (l cause sub : Nat) : State :=
  match s.launch? l with
  | none => s
  | some L =>
    if L.done then s
    else
      let s0 := s.drainEngines l
      let s1 := (s0.teams.filter (·.launch == l)).foldl (fun a T => T.threads.foldl (fun a th =>
        ((th.qslots.map (·.1)).dedup).foldl (fun a q => a.releaseSlots L.die (T.ref th) th q) a) a) s0
      let ws := s1.wgs.filter (fun W => W.launch == l && W.state != .retired)
      let s2 := ws.foldl (fun a W =>
        let K := a.core W.core
        let b := a.setCore { K with
          reel := if K.reel.owner == some ⟨l, W.id⟩ then {} else K.reel
          passes := K.passes.filter (fun p => !p.parts.any (fun x => x.launch == l && x.wg == W.id)) }
        ((b.freeTiles W).setWg { W with state := .retired, core := noCore, queues := [], cover := none, image := [] }).dropWg W) s1
      let s3 := { s2 with
        views := s2.views.filter (·.launch != l)
        carries := s2.carries.filter (·.launch != l)
        parts := s2.parts.filter (·.launch != l)
        inflight := s2.inflight.filter (·.launch != l)
        entries := s2.entries.filter (·.launch != l)
        cur := if (s2.cur.bind (fun (c : Cur) => s2.entry? c.entry)).any (fun (e : Entry) => e.launch == l) then none else s2.cur
        requests := s2.requests.filter (fun q => match q.who with
          | .word k => k != l
          | .threads accs => accs.any (fun a => a.1.launch != l)
          | .engine k _ _ | .cursor k _ _ | .pass k _ _ _ | .context k _ => k != l
          | _ => true) }
      let L3 := s3.launch l
      let s4 := (s3.setLaunch { L3 with done := true, killed := some (cause, sub), words := [], coverOut := [], doom := none }).leaveQueues l true
      (s4.endPacket L.sq L.pos cause sub).preemptAck l

/-- Gondola kills a launch with a record with NL = 1, and no policy is asked (R455, R138). -/
def State.killWith (s : State) (l : Nat) (r : Record) : State := (s.deliver (s.launch l).die r).kill l r.cause r.sub

end Sys2Proof.Machine
end

