-- ==== Sys2Proof/Machine/Tile.lean ====
section
/-!
DEFINITION. Machine/Tile.lean: the reconstruction unit at work on a coverage tile (19 R364, R366; 04 R85), and the windows of the
controller (19 R366, R368).
-/

namespace Sys2Proof.Machine

/-- The controller, changed, takes the audits that it may take, and shows its words where that has changed them. -/
def State.takeAudits (s : State) (l : Nat) (C : Controller) : State :=
  let C1 := C.settleNow (s.launch l).recd.det
  if C1.audits = C.audits ∧ C1.windows = C.windows then s.setLaunch { s.launch l with ctrl := some C1 } else s.setCtrl l C1

/-- A tile has completed, well or with a cause: the unit's COUNT rises (R71, R85). The unit has no descriptor: its first error stays with the core.
DESIGN CHOICE, log entry 139. -/
def State.coverEnd (s : State) (l w cause sub : Nat) : State :=
  let W := s.wg l w
  match W.cover with
  | none => s
  | some k =>
    let K := s.core W.core
    let s1 := s.setCore { K with recon := K.recon + 1, reconErr := if cause = 0 then K.reconErr else K.reconErr.or (some (K.recon + 1, cause, sub)) }
    let s2 := s1.setWg { W with cover := some { k with done := true, owned := [] } }
    match (s2.launch l).ctrl with
    | none => s2
    | some C => s2.takeAudits l { C with tilesDone := k.tile :: C.tilesDone }

/-- The bytes of a tile's region, none where a point stays unwritten. -/
def regionBytes (n : Nat) (vs : List (Option Nat)) : List (Option Byte) :=
  vs.flatMap (fun v => match v with
    | some x => (leBytes n x).map some
    | none => List.replicate n none)

/-- The sectors of a region that have something to write, as pieces with their bytes. -/
def regionSectors (va : Nat) (bs : List (Option Byte)) : List ((Nat × Nat) × List (Option Byte)) :=
  (List.range (bs.length / 64)).filterMap (fun k =>
    let b := (bs.drop (64 * k)).take 64
    if b.all (·.isNone) then none else some ((va + 64 * k, 64), b))

/-- Writes a sector as one action with a fresh seal: the bytes that there are, over its old ones. -/
def State.writeSector (s : State) (l w : Nat) (x : Spot) (bs : List (Option Byte)) : State :=
  let old := s.homeBytes x.loc 64
  (s.dropClean (sectorOf x.loc)).engPut l w x ((bs.zip old).map (fun b => b.1.getD b.2))

/-- The audits of a tile, in order; a difference for which nothing is stated is free. -/
def State.auditList (s : State) (tile : Nat) : List (Option Nat) → State × List (Nat × BitVec 64)
  | [] => (s, [])
  | d :: ds =>
    let (v, s1) := match d with
      | some n => (BitVec.ofNat 64 n, s)
      | none => s.free64
    let (s2, r) := State.auditList s1 tile ds
    (s2, (tile, v) :: r)

/-- Passes a tile's audits to the controller, which takes them as the tile completes (R364, R366, R368). -/
def State.passAudits (s : State) (l : Nat) (k : Cover) : State :=
  match (s.launch l).ctrl with
  | none => s
  | some C =>
    let (s1, as) := s.auditList k.tile (k.audits (tyOf C.etype) C.audit)
    s1.setLaunch { s1.launch l with ctrl := some { C with queue := C.queue ++ as } }

/-- AUDIT_WINDOW_CLOSE: a full window closes, and the audits that wait are taken. -/
def State.windowClose (s : State) (l : Nat) : State :=
  match (s.launch l).ctrl with
  | none => s
  | some C => if C.inWin < C.window then s else s.takeAudits l C

/-- TILE_RECONSTRUCTION: once every point is stored, or the workgroup's last team has exited; it waits while a tile that it would write to is
drained (R67). DEDUCED, log entry 83. -/
def State.reconstruction (s : State) (l w : Nat) : State :=
  let W := s.wg l w
  match W.cover, (s.launch l).ctrl with
  | some k, some C =>
    let full := k.full C.audit
    if k.done || !W.active || s.engStalled l w ⟨2, 0⟩ || !(full || s.wgExited l w) then s
    else
      let s := s.coverOwn l w
      let t := tyOf C.etype
      let sz := elBits t / 8
      let va := C.outbase.toNat + k.tile * tilePoints k.pattern * sz
      let secs := regionSectors va (regionBytes sz (k.output t C.audit))
      match (s.engRange (s.engineAgent l w) true (secs.map (·.1)) []).1 with
      | .stall s1 v c => s1.engRequest l w ⟨2, 0⟩ v c
      | .wait s1 => s1
      | .fail s1 x => s1.coverEnd l w x.cause x.sub
      | .ok s1 xs =>
        if s1.drains xs then s1
        else match (xs.zip secs).find? (fun p => p.2.2.any (·.isNone) && s1.sealBad p.1.loc) with
        | some p => let x := s1.sealTrap W.core p.1.loc p.1.pa p.1.va; s1.coverEnd l w x.cause x.sub
        | none =>
          let s2 := (xs.zip secs).foldl (fun a p => a.writeSector l w p.1 p.2.2) s1
          if full then (s2.passAudits l k).coverEnd l w 0 0 else s2.coverEnd l w 0x04a 0x1a
  | _, _ => s

def execTileReconstruction (r : WgRef) (s : State) : Host.Outcome State Fault Refusal := .next (s.reconstruction r.launch r.wg)

def execAuditWindowClose (l : Nat) (s : State) : Host.Outcome State Fault Refusal := .next (s.windowClose l)

end Sys2Proof.Machine
end

