-- ==== Sys2Proof/Machine/Replay.lean ====
section
/-!
DEFINITION. Machine/Replay.lean: how outstanding results return (05 R99; 11 R119, R207; 21 R394) and how Gondola ends translation requests
(02 R44 to R47; 15 R287; 18 R345, R455).
-/

namespace Sys2Proof.Machine

/-! ## Outstanding results (R99, R207) -/

/-- A y slot that waits for a tag takes a value; without one it only stops waiting. -/
def YSlot.resolve (y : YSlot) (tag : Nat) (val : Option Nat) : YSlot :=
  if y.tag = some tag then { val := (val.map (BitVec.ofNat 64)).getD y.val, tag := none } else y

/-- The tag of a result is satisfied, or its result will never come. -/
def Thread.resolveTag (th : Thread) (tag : Nat) (val : Option Nat) : Thread :=
  { th with y0 := th.y0.resolve tag val, y1 := th.y1.resolve tag val, outst := th.outst.filter (·.tag != tag) }

/-- An outstanding result for an s register is written, once for the team: what other lanes of its instruction still bring goes to their y alone
(R100). -/
def State.writeOnce (s : State) (T : Team) (n : Nat) (p : Pending) : State :=
  let s1 : State := { s with requests := s.requests.map (fun q => match q.who with
    | .threads accs => { q with who := .threads (accs.map (fun x =>
        if T.is x.1.launch x.1.wg x.1.team && x.2.since == p.since && x.2.kind.returns then (x.1, { x.2 with dst := .discard }) else x)) }
    | _ => q) }
  s1.updTeam T.launch T.wg T.idx (fun U => (U.writeS n p.bits p.val).mapThreads (fun th =>
    { th with outst := th.outst.map (fun o => if o.since == p.since then { o with dst := .discard } else o) }))

/-- A result returns: it brings a deferred fault, or sets exception flags and may trap, or goes to its destination and its y slot. With
a watchpoint's fault it is delivered (R418). A record tells of the thread as it stands when the fault is raised (R393). -/
def State.returnResult (s : State) (r : ThreadRef) (p : Pending) : State :=
  match s.thread? r with
  | none => s
  | some (T, th) =>
    let now := fun (q : Record) => { q with tick := s.tick, gpc := th.gpc, gop := th.gop, nest := th.status == .handler, bound := T.bound }
    let defers := fun (q : Record) =>
      s.updEarlier r p.since (fun t => ((t.resolveTag p.tag none).stick p.exc).deferFault ((now q).forDst p.dst p.bits))
    let gives := fun (f : Thread → Thread) =>
      let s1 := s.updEarlier r p.since (fun t => f (((t.resolveTag p.tag (some p.val)).stick p.exc).put p.dst p.bits p.val))
      match sRegOf p.dst with
      | some n => s1.writeOnce T n p
      | none => s1
    match p.fault, th.excTrap p.exc with
    | some q, _ => if q.cause = 0x182 then gives (·.deferFault (now q)) else defers q
    | none, some x => defers (s.deferred T th p.clause p.slot x)
    | none, none => gives id

/-- May a result return? One that the whole team reads, in an s register or a predicate mask, stays out until every lane of its instruction has
read its sources (R10). -/
def Team.mayReturn (T : Team) (th : Thread) (p : Pending) : Bool :=
  match p.dst with
  | .s _ | .pm _ => !(th.slotDone && T.threads.any (fun o => o.lane != th.lane && o.entry == th.entry && !o.slotDone && o.status != .exited
      && o.clause == p.clause && o.slot == p.slot))
  | _ => true

/-- Has a thread still a result to come that an access brings, and that f tells of? -/
def State.comes (s : State) (r : ThreadRef) (f : Access → Bool) : Bool :=
  s.requests.any (fun q => match q.who with
    | .threads accs => accs.any (fun x => x.1 == r && x.2.kind.returns && f x.2)
    | _ => false)

/-- In a deterministic launch a thread's results return in their order, and the lowest lane's goes to an s register (R410). DESIGN CHOICE, log
entry 39. -/
def State.detReturn (s : State) (T : Team) (th : Thread) (p : Pending) : Bool :=
  !th.outst.any (fun o => decide (o.tag < p.tag)) && !s.comes (T.ref th) (fun a => decide (a.tag < p.tag))
    && (match p.dst with
        | .s _ => !T.threads.any (fun o => decide (o.lane < th.lane)
            && (o.outst.any (fun q => q.since == p.since) || s.comes (T.ref o) (fun a => a.since == p.since)))
        | _ => true)

/-- The results of a thread that may return. -/
def State.returnable (s : State) (T : Team) (th : Thread) : List Pending :=
  th.outst.filter (fun p => T.mayReturn th p && (!(s.launch T.launch).recd.det || s.detReturn T th p))

/-- OUTSTANDING_RESULT_RETURN: which of a thread's results returns next is free. DESIGN CHOICE, log entry 39. -/
def State.returnOne (s : State) (r : ThreadRef) : State :=
  match s.thread? r with
  | none => s
  | some (T, th) =>
    match s.returnable T th with
    | [] => s
    | [p] => s.returnResult r p
    | ps =>
      let (k, s1) := s.pick ps.length
      match ps[k]? with
      | none => s1
      | some p => s1.returnResult r p

def execOutstandingResultReturn (r : ThreadRef) (s : State) : Host.Outcome State Fault Refusal := .next (s.returnOne r)

/-! ## Requests -/

/-- The requests of a core that Gondola has not ended, oldest first; those of saved workgroups are at no core. -/
def State.request? (s : State) (q : ReplayRef) : Option Request := (s.requests.filter (fun x => x.core == q.core && !x.released))[q.idx]?

/-- Removes a request. -/
def State.dropRequest (s : State) (q : Request) : State := { s with requests := s.requests.erase q }

/-- A fault that an access brings after its thread has issued later slots. -/
def State.deferAccess (s : State) (r : ThreadRef) (a : Access) (x : Trap) : State :=
  match s.thread? r with
  | none => s
  | some (T, th) =>
    let q := s.deferred T th a.clause a.slot x
    s.updEarlier r a.since (fun t => if a.kind.returns then (t.resolveTag a.tag none).deferFault (q.forDst a.dst a.bits) else t.deferFault q)

/-- A fault of an access that still holds its lane at its slot: the lane parks there; a bound team as a whole, its registers as they stood before
the instruction (R249). The fault of a clause's fetch is one of the whole group and names that clause (R324); threads that have not begun it park
at their boundary (R308). -/
def State.parkAccess (s : State) (r : ThreadRef) (a : Access) (x : Trap) : State :=
  match s.thread? r with
  | none => s
  | some (T, th) =>
    let rec_ := match a.kind with
      | .fetch clause => s.record T th clause a.slot true x
      | _ => s.record T th a.clause a.slot false x
    let begun := (th.entry.bind s.entry?).any (·.begun)
    let inside := match a.kind with
      | .fetch _ => a.slot != 0 || begun
      | _ => true
    if th.status == .parked || th.status == .stopped then s
    else match th.entry with
      | some e => if T.bound then s.parkBound s ⟨e, a.slot⟩ T rec_ inside else s.updThread r (·.park rec_ a.slot inside)
      | none => s.updThread r (·.park rec_ a.slot inside)

/-! ## REPLAY_RESOLVE (R46) -/

/-- Performs one access of a replay entry afresh: one that misses again enters the buffer again, one that must wait is given back. -/
def State.replayAccess (s : State) (q : Request) (x : ThreadRef × Access) : State × List (ThreadRef × Access) :=
  match s.thread? x.1 with
  | none => (s, [])
  | some (T, _) =>
    match x.2.kind with
    | .again _ | .fetch _ => (s, [])
    | _ =>
      match s.access T x.1 x.2 with
      | .ok s1 v late => (s1.giveResult T x.1 x.2 v late, [])
      | .trap s1 t => (s1.deferAccess x.1 x.2 t, [])
      | .miss s1 c => (s1.addReplay { q with cause := c, released := false, late := false } x, [])
      | .wait s1 _ => (s1, [x])

/-- The accesses of an entry, in their order; of one instruction's lanes that nothing has ordered yet, none before a lower one (R253). -/
def State.replayAll (s : State) (q : Request) : List (ThreadRef × Access) → State × List (ThreadRef × Access)
  | [] => (s, [])
  | x :: xs =>
    let (s1, a) := s.replayAccess q x
    if q.late && !a.isEmpty then (s1, x :: xs)
    else
      let (s2, b) := State.replayAll s1 q xs
      (s2, a ++ b)

/-- The entry is released and its accesses are made as if first issued now; those that must wait are made again later, and no end of a
request concerns them. -/
def State.replayEntry (s : State) (q : Request) : State :=
  match q.who with
  | .threads accs =>
    let (s1, left) := (s.dropRequest q).replayAll q accs
    if left.isEmpty then s1 else { s1 with requests := s1.requests ++ [{ q with who := .threads left, released := true }] }
  | _ => s.dropRequest q

/-- Gondola has changed the tables; tlbinv of the page, and the entry is released. A unit makes its access again by itself. DESIGN CHOICE, log entry 107. -/
def State.resolve (s : State) (q : Request) : State := (s.tlbPage q.asid q.page.toNat).replayEntry q

/-- REPLAY_RESOLVE. The entry of a saved workgroup is in no buffer: only the page tables and the TLBs change (R47). -/
def execReplayResolve (r : ReplayRef) (s : State) : Host.Outcome State Fault Refusal :=
  .next (match s.request? r with
    | none => s
    | some q => if q.core = noCore then s.tlbPage q.asid q.page.toNat else s.resolve q)

/-! ## REPLAY_REJECT (R46, R78, R89, R287, R345, R455) -/

/-- An entry whose own checks could not be made is taken as failed, where its slot can be read. -/
def State.takeFailed (s : State) (l w : Nat) (sel : QSel) (cause : Nat) : State :=
  match (s.wg l w).queue? sel, s.engDesc l w sel with
  | some q, .ok s1 loc =>
    match s1.engSlot l w (s1.homeNat loc 64) q.count with
    | .ok s2 slot =>
      { s2 with inflight := s2.inflight ++ [{ launch := l, wg := w, sel := sel, pos := q.count, bits := BitVec.ofNat 512 (s2.homeNat slot 64), result := some (cause, 0) }] }
    | _ => s
  | _, _ => s

/-- The front end's packet that waits for a rejected read or write. -/
def State.rejectPacket (s : State) (sq pos cause : Nat) : State :=
  match s.sq? sq with
  | none => s
  | some q =>
    if q.packets.any (·.pos == pos) then
      -- the words of a packet that has ended: they are dropped
      ((s.updPacket sq pos (fun p => { p with written := true })).killSq sq).flushSq sq
    else if q.taken = pos then
      match s.nextPacket q with
      | .ready b => (s.takePacket q b).endPacket sq pos cause 0
      | _ => s
    else s

/-- The oldest completion word of a launch cannot be written. -/
def State.rejectWord (s : State) (l : Nat) (x : Trap) : State :=
  let L := s.launch l
  match L.words with
  | [] => s
  | w :: ws => (s.setLaunch ({ L with words := ws }.failWord w.1 x w.2.1 s.tick)).flushWords l

/-- A request is rejected: 0x080 or 0x081 goes to whoever made it. -/
def State.reject (s : State) (q : Request) : State :=
  let s0 := s.dropRequest q
  let x : Trap := { cause := q.cause, addr := q.page }
  match q.who with
  | .threads accs =>
    accs.foldl (fun a y =>
      let t : Trap := { cause := q.cause, addr := y.2.va }
      match y.2.kind with
      | .again _ | .fetch _ => a.parkAccess y.1 y.2 t
      | .spill _ _ _ => a.deferAccess y.1 y.2 { t with cause := 0x080, sub := 0x01 }
      | _ => a.deferAccess y.1 y.2 t) s0
  | .engine l w sel =>
    if sel.eng = 2 then s0.coverEnd l w q.cause 0
    else match s0.flight? l w sel with
    | some i => s0.endFlight i q.cause 0
    | none => s0.takeFailed l w sel q.cause
  | .cursor _ _ c => s0.stopCursor q.core c x
  | .pass _ _ row quarter =>
    match (s0.core q.core).passes with
    | p :: _ => s0.stopPass q.core p.parts row quarter x
    | [] => s0
  | .packet sq pos => s0.rejectPacket sq pos q.cause
  | .seqWord sq => match s0.sq? sq with
    | some k => s0.setSq { k with seqOut := k.seq, dead := true }
    | none => s0
  | .word l => s0.rejectWord l x
  | .context l _ => let L := s0.launch l; s0.setLaunch { L with areaBad := q.page :: L.areaBad }

/-- REPLAY_REJECT. The entry of a saved workgroup is in no buffer (R47). -/
def execReplayReject (r : ReplayRef) (s : State) : Host.Outcome State Fault Refusal :=
  .next (match s.request? r with
    | none => s
    | some q => if q.core = noCore then s else s.reject q)

end Sys2Proof.Machine
end

