-- ==== Sys2Proof/Machine/Context.lean ====
section
/-!
DEFINITION. Machine/Context.lean: the context save area of a workgroup (21 R401, R402; 02 R47; 04 R83, R90; 19 R363): what an eviction writes
there, and what of it a restore finds changed.
-/

namespace Sys2Proof.Machine

/-! ## The context image (R401, R402) -/

/-- A record as the 64 bytes of R393. -/
def Record.image (r : Record) : List Byte := (List.range 16).flatMap (fun k => leBytes 4 (r.word k).toNat)

/-- The code of a fault state (R402). -/
def Status.code : Status → Nat
  | .parked => 1
  | .handler => 2
  | .stopped => 3
  | _ => 0

/-- Does a thread sleep in sleep, wait, qpop or svcwait (R306, R402)? A claimed or reserved position waits for its slot, which is no sleep. -/
def Thread.sleeps (th : Thread) : Bool :=
  match th.hold with
  | .asleep _ => true
  | .at 11 => th.claim.isNone
  | .at r => r == 9 || r == 10
  | _ => false

/-- Pads a run of bytes with zeros. -/
def padTo (n : Nat) (bs : List Byte) : List Byte := bs ++ List.replicate (n - bs.length) 0

/-- Words as bytes. -/
def wordBytes (ws : List (BitVec 32)) : List Byte := ws.flatMap (fun w => leBytes 4 w.toNat)

/-- k words of a number, from word i on. -/
def wordsOf (n i k : Nat) : List (BitVec 32) := (List.range k).map (fun j => BitVec.ofNat 32 (n / 2 ^ (32 * (i + j))))

/-- A loop level's 32 bytes. -/
def Level.image (v : Level) : List Byte :=
  leBytes 8 v.l.toNat ++ leBytes 8 v.e.toNat ++ leBytes 8 v.x.toNat ++ leBytes 4 (v.n % 4 + 4) ++ leBytes 4 v.depth

/-- The live levels of the 96 bytes of a thread's, innermost first. -/
def levelsOf (n : Nat) : List Level :=
  ((List.range 3).filterMap (fun k =>
    let x := n / 2 ^ (256 * k)
    if bitAt x 194 then some { n := bitsOf x 192 2, l := BitVec.ofNat 64 x, e := BitVec.ofNat 64 (x / 2 ^ 64), x := BitVec.ofNat 64 (x / 2 ^ 128)
                               depth := bitsOf x 224 32 } else none)).reverse

/-- A handler frame's 64 bytes. -/
def Frame.image (f : Frame) : List Byte :=
  padTo 64 (wordBytes f.w ++ leBytes 8 f.y0.toNat ++ leBytes 8 f.y1.toNat ++ leBytes 4 f.p.toNat ++ leBytes 4 f.depth ++ leBytes 4 f.levels)

/-- A record from its 64 bytes; what R393 gives no place in them stays. -/
def Record.ofBytes (r : Record) (n : Nat) : Record :=
  { r with
    cause := bitsOf n 0 9, sub := bitsOf n 16 16, slot := bitsOf n 32 4, lane := bitsOf n 36 6, team := bitsOf n 42 7, mc := bitAt n 49
    bound := bitAt n 50, grp := bitAt n 51, nl := bitAt n 52, nest := bitAt n 53, defd := bitAt n 54, clause := BitVec.ofNat 64 (n / 2 ^ 64)
    gpc := BitVec.ofNat 32 (n / 2 ^ 128), gop := BitVec.ofNat 8 (n / 2 ^ 160), addr := BitVec.ofNat 64 (n / 2 ^ 192)
    tick := BitVec.ofNat 64 (n / 2 ^ 256), tid := BitVec.ofNat 32 (n / 2 ^ 320), wg := bitsOf n 352 32, paddr := BitVec.ofNat 64 (n / 2 ^ 384)
    asid := bitsOf n 448 10 }

/-- A fault state from its code. -/
def Status.ofCode (old : Status) (k : Nat) : Status :=
  if k = 1 then .parked else if k = 2 then .handler else if k = 3 then .stopped else if old = .exited then .exited else .running

/-- The parts of a record of the save area: their offsets, what is written there, and what a changed value does. -/
abbrev RecPart (α : Type) := Nat × (α → List Byte) × (Nat → α → α)

/-- A thread record (R402). -/
def threadParts : List (RecPart Thread) :=
  [ (0x000, fun th => padTo 0x400 (wordBytes th.v), fun n th => { th with v := wordsOf n 0 th.v.length })
  , (0x400, fun th => wordBytes th.w ++ leBytes 8 th.y0.val.toNat ++ leBytes 8 th.y1.val.toNat
      , fun n th => { th with w := wordsOf n 0 8, y0 := { th.y0 with val := BitVec.ofNat 64 (n / 2 ^ 256) }, y1 := { th.y1 with val := BitVec.ofNat 64 (n / 2 ^ 320) } })
  , (0x430, fun th => leBytes 4 th.p.toNat ++ leBytes 4 th.vote.toNat ++ leBytes 4 th.mode.toNat ++ leBytes 4 th.status.code
      , fun n th => { th with p := BitVec.ofNat 12 n, vote := BitVec.ofNat 2 (n / 2 ^ 32), mode := BitVec.ofNat 32 (n / 2 ^ 64), status := th.status.ofCode (bitsOf n 96 2) })
  , (0x440, fun th => wordBytes th.ix ++ wordBytes th.lc ++ leBytes 4 th.gpc.toNat
      , fun n th => { th with ix := wordsOf n 0 4, lc := wordsOf n 4 3, gpc := BitVec.ofNat 32 (n / 2 ^ 224) })
  , (0x460, fun th => leBytes 8 th.clause.toNat ++ leBytes 4 ((th.slot + th.slotDone.toNat) % 16 + th.inside.toNat * 16 + (th.sleeps && th.hold != .at 9).toNat * 32)
        ++ leBytes 4 (th.gop.toNat + th.rstack.length * 256 + th.bc % 2 ^ 20 * 4096)
      , fun n th => { th with clause := BitVec.ofNat 64 n, slot := bitsOf n 64 4, slotDone := false, inside := bitAt n 68, gop := BitVec.ofNat 8 (n / 2 ^ 96)
                              rstack := ((List.range (bitsOf n 104 4)).map (fun k => th.rstack.reverse.getD k ⟨0, 0, 0⟩)).reverse, bc := bitsOf n 108 20 })
  , (0x470, fun th => padTo 0x60 (th.loops.reverse.flatMap Level.image), fun n th => { th with loops := levelsOf n })
  , (0x4d0, fun th => padTo 0x80 (th.rstack.reverse.flatMap (fun e => leBytes 16 e.number))
      , fun n th => { th with rstack := ((List.range th.rstack.length).map (fun k => retEntryOf (n / 2 ^ (128 * k) % 2 ^ 128))).reverse })
  , (0x550, fun th => (th.record.map Record.image).getD (List.replicate 64 0)
      , fun n th => { th with record := if n = 0 then none else some ((th.record.getD { cause := 0 }).ofBytes n) })
  , (0x590, fun th => (th.frame.map Frame.image).getD (List.replicate 64 0)
      , fun n th => { th with frame := th.frame.map (fun f => { f with w := wordsOf n 0 8, y0 := BitVec.ofNat 64 (n / 2 ^ 256), y1 := BitVec.ofNat 64 (n / 2 ^ 320)
                                                                       p := BitVec.ofNat 12 (n / 2 ^ 384), depth := bitsOf n 416 32, levels := bitsOf n 448 32 }) })
  , (0x5d0, fun th => leBytes 4 (min th.age 63), fun n th => { th with age := n % 64 }) ]

/-- A stopped operation's 256 bytes. -/
def StoppedOp.image (o : StoppedOp) : List Byte :=
  let ws := match encode o.instr with
    | some (_, ws) => ws
    | none => []
  padTo 0x100 (padTo 8 (wordBytes ws) ++ leBytes 4 o.cb ++ leBytes 4 o.ao ++ leBytes 8 o.bscale.toNat
    ++ padTo 32 (wordBytes (o.ascales.headD [])) ++ leBytes 64 o.ma.toNat ++ leBytes 64 o.mb.toNat)

/-- A stopped operation's bases, scales and maps from its 256 bytes. -/
def StoppedOp.ofBytes (o : StoppedOp) (n : Nat) : StoppedOp :=
  { o with cb := bitsOf n 64 32, ao := bitsOf n 96 32, bscale := BitVec.ofNat 64 (n / 2 ^ 128), ascales := wordsOf n 6 8 :: o.ascales.tail
           ma := BitVec.ofNat 512 (n / 2 ^ 448), mb := BitVec.ofNat 512 (n / 2 ^ 960) }

/-- A team record (R402); RowProg is read by itself (R289). -/
def teamParts : List (RecPart Team) :=
  [ (0x000, fun T => wordBytes ((List.range 64).map T.sReg), fun n T => { T with s := wordsOf n 0 64 })
  , (0x100, fun T => T.maps.flatMap (fun m => leBytes 64 m.toNat), fun n T => { T with maps := (List.range 16).map (fun k => BitVec.ofNat 512 (n / 2 ^ (512 * k))) })
  , (0x500, fun T => T.windsock.flatMap (fun x => leBytes 8 x.toNat), fun n T => { T with windsock := (List.range 16).map (fun k => BitVec.ofNat 64 (n / 2 ^ (64 * k))) })
  , (0x580, fun T => wordBytes T.rowprog, fun _ T => T)
  , (0x5a0, fun T => leBytes 4 T.blc.toNat ++ leBytes 4 T.accwin.toNat ++ leBytes 4 T.tagmode
      , fun n T => { T with blc := BitVec.ofNat 32 n, accwin := BitVec.ofNat 32 (n / 2 ^ 32), tagmode := bitsOf n 64 2 })
  , (0x5b0, fun T => leBytes 8 ((T.live.map (fun th => 2 ^ th.lane)).sum), fun _ T => T)
  , (0x5b8, fun T => leBytes 8 T.tickd.toNat, fun n T => { T with tickd := BitVec.ofNat 64 n })
  , (0x5c0, fun T => leBytes 4 T.halted.toNat, fun n T => { T with halted := bitAt n 0 })
  , (0x5c8, fun T => T.votes.flatMap (fun v => leBytes 4 (min v (2 ^ 32 - 1))), fun n T => { T with votes := (List.range 3).map (fun k => n / 2 ^ (32 * k) % 2 ^ 32) }) ]
  ++ (List.range 8).map (fun q => (0x800 + 0x100 * q
      , fun (T : Team) => ((T.stoppedOps.find? (·.quarter == q)).map StoppedOp.image).getD (List.replicate 0x100 0)
      , fun n T => match T.stoppedOps.find? (·.quarter == q) with
        | some o => { T with stoppedOps := T.stoppedOps.map (fun x => if x == o then o.ofBytes n else x) }
        | none => T))

/-- A bitmap of local indices. -/
def bitmapOf (n : Nat) (is : List Nat) : List Byte :=
  (List.range (n / 8)).map (fun k => BitVec.ofNat 8 (((List.range 8).filter (fun b => is.contains (8 * k + b))).map (2 ^ ·)).sum)

/-- The coverage walker's part (R363). -/
def Cover.image (k : Cover) (elem : Nat) : List (Nat × List Byte) :=
  let n := tilePoints k.pattern
  [ (0x3000, leBytes 4 k.tile ++ leBytes 4 k.pattern ++ leBytes 4 k.nextPt ++ leBytes 4 k.delivered.length)
  , (0x3200, bitmapOf n (k.staged.map (·.1))), (0x3400, bitmapOf n k.delivered) ]
  ++ k.staged.map (fun x => (0x4000 + x.1 * elem, leBytes elem x.2.toNat))

/-- A replay entry's 32 bytes (R47), for the lanes of one team. -/
def replayImage (page : BitVec 64) (accs : List (ThreadRef × Access)) (ths : ThreadRef → Option Thread) : List Byte :=
  match accs with
  | [] => List.replicate 32 0
  | (r, a) :: _ =>
    let y := fun (f : Thread → YSlot) => ((ths r).map (fun th => (f th).tag == some a.tag && a.kind.returns)).getD false
    let ballast := a.n == 16 && (match a.kind with | .again _ => true | _ => false)
    leBytes 8 page.toNat ++ leBytes 8 ((accs.map (fun x => 2 ^ x.1.lane)).sum) ++ leBytes 8 a.clause.toNat
      ++ leBytes 8 (a.slot % 16 + r.team % 128 * 16 + a.kind.writes.toNat * 2 ^ 11 + ballast.toNat * 2 ^ 12
        + (y (·.y0)).toNat * 2 ^ 13 + (y (·.y1)).toNat * 2 ^ 14)

/-- The replay accesses of a workgroup, entry by entry. -/
def State.wgReplays (s : State) (W : Wg) : List (BitVec 64 × List (ThreadRef × Access)) :=
  s.requests.filterMap (fun q => match q.who with
    | .threads accs =>
      let mine := accs.filter (fun x => x.1.launch == W.launch && x.1.wg == W.id)
      if mine.isEmpty then none else some (q.page, mine)
    | _ => none)

/-- The age of a thread's entry. -/
def State.ageOf (s : State) (th : Thread) : Nat := ((th.entry.bind s.entry?).map (·.age)).getD th.age

/-- The lowest workgroup that shares a partition, and its run. -/
def State.imageHolder (s : State) (W : Wg) : Nat :=
  (s.wgs.filter (fun x => x.launch == W.launch && x.home == W.home && x.state != .retired)).foldl (fun m x => min m x.id) W.id

/-- The header and the engine part of a context area. -/
def State.headImage (s : State) (W : Wg) (carry area store : BitVec 64) : List (Nat × List Byte) :=
  let L := s.launch W.launch
  let p := s.partition? W.launch W.home
  let q := fun (sel : QSel) => match W.queue? sel with
    | some x => leBytes 4 x.qtail.toNat ++ leBytes 4 0 ++ leBytes 8 (seqOf sel x.count).toNat
    | none => List.replicate 16 0
  let R := (s.core W.core).reel
  let mine := R.owner == some ⟨W.launch, W.id⟩
  [ (0x000, leBytes 4 1 ++ leBytes 4 W.id ++ leBytes 4 4
      ++ leBytes 4 (L.recd.teams + W.spawn.length * 256 + L.recd.width * 2 ^ 16) ++ leBytes 4 L.recd.blockSize ++ leBytes 4 W.accblk.toNat
      ++ leBytes 8 W.ev.toNat ++ leBytes 8 ((W.spawn.map (2 ^ ·)).sum) ++ leBytes 8 carry.toNat ++ leBytes 8 area.toNat
      ++ leBytes 4 W.turn ++ leBytes 4 W.turnBegun.toNat ++ leBytes 8 store.toNat ++ leBytes 4 (s.imageHolder W)
      ++ leBytes 4 (L.recd.splog + L.recd.tiles * 256 + ((p.map (·.tbase)).getD 0) * 2 ^ 16))
  , (0x200, (List.range 8).flatMap (fun k => q ⟨k / 4, k % 4⟩))
  , (0x280, leBytes 8 (if mine then R.graph.toNat else 0)
      ++ (List.range 4).flatMap (fun c => match (if mine then R.cursor? c else none) with
        | some k => leBytes 8 (k.node % 256 + 256 + k.inWait.toNat * 512)
        | none => List.replicate 8 0)) ]
  ++ (if mine then R.cursors.flatMap (fun k => k.counts.map (fun c => (0x400 + 0x400 * k.id + 4 * c.1, leBytes 4 c.2))) else [])

/-- The parts of a record, written at an offset of the area. -/
def partsImage {α : Type} (base : Nat) (ps : List (RecPart α)) (x : α) : List (Nat × List Byte) := ps.map (fun p => (base + p.1, p.2.1 x))

/-- The whole context of a workgroup, by offset in its area; the image of its partition and the tile entries where it holds them. DESIGN CHOICE, log entry 16. -/
def State.contextImage (s : State) (W : Wg) (carry area store : BitVec 64) : List (Nat × List Byte) :=
  let K := s.core W.core
  let L := s.launch W.launch
  let ts := s.teams.filter (fun T => T.launch == W.launch && T.wg == W.id)
  let base := W.accblk.toNat % 4096
  let rows := W.accblk.toNat / 2 ^ 16 % 8192 - base
  let elem := match L.ctrl with
    | some C => elBits (tyOf C.etype) / 8
    | none => 8
  s.headImage W carry area store
  ++ (match W.cover with | some k => k.image elem | none => [])
  ++ (s.wgReplays W).zipIdx.map (fun x => (0x1c00 + 32 * x.2, replayImage x.1.1 x.1.2 (fun r => (s.thread? r).map (·.2))))
  ++ ts.flatMap (fun T => partsImage (0x30000 + 0x1000 * T.idx) teamParts T)
  ++ (List.range rows).map (fun r => (0x200000 + 128 * r, (List.range 32).flatMap (fun c => leBytes 4 (K.accWord ((base + r) * 32 + c)).toNat)))
  ++ ts.flatMap (fun T => T.threads.flatMap (fun th => partsImage (0x280000 + 0x800 * (64 * T.idx + th.lane)) threadParts { th with age := s.ageOf th }))
  ++ (match s.partition? W.launch W.home with
    | some p =>
      if s.imageHolder W ≠ W.id then []
      else (0x1400, (List.range p.tiles).flatMap (fun t => leBytes 16 (K.tiles.getD (p.tbase + t) 0).toNat))
        :: (List.range (p.size / 64)).map (fun k => (0x100000 + 64 * k, s.homeBytes (scratchPa W.core (p.base + 64 * k)) 64))
    | none => [])

/-- The sectors of the partition whose image a workgroup's area takes. -/
def State.imageSectors (s : State) (W : Wg) : List (Nat × Nat) :=
  match s.partition? W.launch W.home with
  | some p => if s.imageHolder W ≠ W.id then [] else (List.range (p.size / 64)).map (fun k => (0x100000 + 64 * k, sectorOf (scratchPa W.core (p.base + 64 * k))))
  | none => []

/-- Gondola's own access to an area. -/
def State.areaAgent (s : State) (W : Wg) : Agent := { s.engineAgent W.launch W.id with priv := true }

/-- Every mapped page of an area but those of the reply slots becomes zero, with fresh seals: what no record fills is zero (R401, R402). -/
def State.areaZero (s : State) (W : Wg) : State :=
  match s.ctxMaps.find? (fun m => m.launch == W.launch && m.wg == W.id) with
  | none => s
  | some m =>
    let gone := fun (a : Nat) => decide (m.frame ≤ a) && decide (a < m.frame + 2 ^ 23) && !(decide (m.frame + 0xc000 ≤ a) && decide (a < m.frame + 0x24000))
      && s.ctxPage m (a - m.frame)
    let secs := ((s.mem.filter (fun c => gone c.1)).map (fun c => sectorOf c.1)).dedup
    secs.foldl (fun a sec => a.markL2 (dieOf W.core) sec) { s with
      mem := s.mem.filter (fun c => !gone c.1)
      badSeals := s.badSeals.filter (fun sec => !gone (sec * 64)), pinned := s.pinned.filter (fun sec => !gone (sec * 64))
      poison := s.poison.filter (fun sec => !gone (sec * 64)) }

/-- How a run of bytes of a context is written: it is, or the write waits. A page outside the area's own 8 MiB, or a link that has failed, takes
nothing. -/
def State.ctxWrite (s : State) (W : Wg) (x : Nat × List Byte) : Option State :=
  ((pieces (W.ctx.toNat + x.1) x.2.length).foldl (fun (r : Option (State × List Byte)) p => r.bind (fun q =>
    match q.1.engReach (q.1.areaAgent W) (BitVec.ofNat 64 p.1) p.2 true with
    | .ok s1 y => some ((s1.writeHome y.loc (q.2.take p.2) (dieOf W.core)).getD s1, q.2.drop p.2)
    | .wait _ => none
    | _ => some (q.1, q.2.drop p.2))) (some (s, x.2))).map (·.1)

/-- Writes the whole context, none where a write has to wait. The seals of a partition's image travel with its sectors (R17). -/
def State.writeContext (s : State) (W : Wg) (image : List (Nat × List Byte)) : Option State :=
  let bad := s.imageSectors W
  (image.foldl (fun (a : Option State) x => a.bind (fun s => s.ctxWrite W x)) (some (s.areaZero W))).map (fun s1 =>
    (bad.filter (fun x => s.sealBad (x.2 * 64))).foldl (fun a x =>
      match a.engReach (a.areaAgent W) (W.ctx + BitVec.ofNat 64 x.1) 64 true with
      | .ok a1 y => { a1 with badSeals := sectorOf y.loc :: a1.badSeals }
      | _ => a) s1)

/-! ## What a restore finds (R354) -/

/-- n bytes of an area, none where they cannot be read. -/
def State.areaBytes (s : State) (W : Wg) (off n : Nat) : Option (List Byte) :=
  ((pieces (W.ctx.toNat + off) n).foldl (fun (r : Option (List Byte)) p => r.bind (fun bs =>
    match s.engReach (s.areaAgent W) (BitVec.ofNat 64 p.1) p.2 false with
    | .ok s1 y => some (bs ++ s1.homeBytes y.loc p.2)
    | _ => none)) (some []))

/-- What a changed part of a record does. -/
def partChange {α : Type} (ps : List (RecPart α)) (off n : Nat) (x : α) : α :=
  match ps.find? (·.1 == off) with
  | some p => p.2.2 n x
  | none => x

/-- What a changed run of a header, of the engine's part or of the walker's part does to its workgroup (R401, R407, R83, R90, R363). -/
def Wg.areaChange (W : Wg) (off n : Nat) (bs : List Byte) : Wg :=
  if off = 0x000 then { W with ev := BitVec.ofNat 64 (n / 2 ^ 192), turn := bitsOf n 448 32, turnBegun := bitAt n 480 }
  else if off = 0x200 then
    { W with queues := W.queues.map (fun q => let x := n / 2 ^ (128 * (q.sel.eng * 4 + q.sel.q))
        { q with qtail := BitVec.ofNat 32 x, count := bitsOf x 64 60 }) }
  else if off = 0x280 then
    { W with reelSaved := W.reelSaved.map (fun R => { R with
        graph := BitVec.ofNat 64 n
        cursors := (R.cursors.filter (fun k => bitAt n (64 * k.id + 72))).map (fun k =>
          { k with node := bitsOf n (64 * k.id + 64) 8, inWait := bitAt n (64 * k.id + 73) }) }) }
  else if 0x400 ≤ off ∧ off < 0x1400 then
    { W with reelSaved := W.reelSaved.map (fun R => { R with cursors := R.cursors.map (fun k =>
        if k.id = (off - 0x400) / 0x400 then { k with counts := k.counts.map (fun c => if c.1 = (off - 0x400) % 0x400 / 4 then (c.1, n % 2 ^ 32) else c) } else k) }) }
  else if off = 0x1400 then
    { W with tilesSaved := W.tilesSaved.map (fun e => (e.1, BitVec.ofNat 128 (n / 2 ^ (128 * e.1)))) }
  else if 0x3000 ≤ off ∧ off < 0xc000 then
    { W with cover := W.cover.map (fun k =>
        let set := fun (i : Nat) => (bs.getD (i / 8) 0).getLsbD (i % 8)
        if off = 0x3000 then { k with tile := bitsOf n 0 32, pattern := bitsOf n 32 32, nextPt := bitsOf n 64 32 }
        else if off = 0x3200 then { k with staged := k.staged.filter (fun x => set x.1) }
        else if off = 0x3400 then { k with delivered := (List.range (tilePoints k.pattern)).filter set }
        else { k with staged := k.staged.map (fun x => if off = 0x4000 + x.1 * bs.length then (x.1, BitVec.ofNat 64 n) else x) }) }
  else if 0x200000 ≤ off ∧ off < 0x280000 then
    let r := (off - 0x200000) / 128
    { W with accSaved := W.accSaved.filter (fun x => x.1 / 32 != r)
        ++ ((List.range 32).map (fun c => (r * 32 + c, BitVec.ofNat 32 (n / 2 ^ (32 * c))))).filter (fun x => x.2 != 0) }
  else W

/-- What a changed run of an area does to a saved workgroup. -/
def State.areaChange (s : State) (W : Wg) (off : Nat) (bs : List Byte) : State :=
  let n := leNat bs
  if 0x280000 ≤ off then
    let k := (off - 0x280000) / 0x800
    s.updThread ⟨W.launch, W.id, k / 64, k % 64⟩ (partChange threadParts ((off - 0x280000) % 0x800) n)
  else if 0x30000 ≤ off ∧ off < 0x90000 then
    s.updTeam W.launch W.id ((off - 0x30000) / 0x1000) (partChange teamParts ((off - 0x30000) % 0x1000) n)
  else if 0x100000 ≤ off ∧ off < 0x200000 then
    match s.partition? W.launch W.home with
    | some p =>
      let o := off - 0x100000
      let keep := p.image.filter (fun c => !(decide (o ≤ c.1) && decide (c.1 < o + bs.length)))
      s.setPartition { p with image := ByteMap.over keep (bs.zipIdx.filterMap (fun x => if x.1 = 0 then none else some (o + x.2, x.1))) }
    | none => s
  else if off = 0x1400 then
    { s with wgs := s.wgs.map (fun V => if V.launch == W.launch && V.home == W.home then V.areaChange off n bs else V) }
  else s.setWg ((s.wg W.launch W.id).areaChange off n bs)

/-- The runs of a saved context that its area no longer holds as they were written are read from there (R354). DESIGN CHOICE, log entry 16. -/
def State.readContext (s : State) (W : Wg) : State :=
  W.image.foldl (fun a x => match a.areaBytes W x.1 x.2.length with
    | some bs => if bs == x.2 then a else a.areaChange W x.1 bs
    | none => a) s

end Sys2Proof.Machine
end

