-- ==== Sys2Proof/Machine/Save.lean ====
section
/-!
DEFINITION. Machine/Save.lean: pre-emption: the new core mask (18 R353, R355), the save of a workgroup (R354; 07 R138; 03 R62, R68; 04 R83,
R90; 16 R309; 21 R401, R402, R407) and its restore (R354; 16 R310; 02 R33, R47; 15 R292).
-/

namespace Sys2Proof.Machine

/-! ## Eviction begins (R353, R355) -/

/-- The physical cores of a launch's mask. -/
def State.maskCores (s : State) (L : Launch) : List Nat := L.mask.filterMap s.physOf

/-- The workgroups of a launch that run on a core form one eviction set and begin to settle. -/
def State.evictCore (s : State) (l c : Nat) : State :=
  { s with wgs := s.wgs.map (fun W => if W.launch == l && W.core == c && W.state == .running then { W with state := .evicting } else W) }

/-- The running workgroups of a launch on cores outside its mask begin to settle. DEDUCED, log entry 80. -/
def State.evictRemoved (s : State) (l : Nat) : State :=
  let keep := s.maskCores (s.launch l)
  (((s.wgs.filter (fun W => W.launch == l && W.state == .running && !keep.contains W.core)).map (·.core)).dedup).foldl
    (fun a c => a.evictCore l c) s

/-- Does a launch need cores: it has workgroups that are still to be placed or to be restored? -/
def State.needsCores (s : State) (L : Launch) : Bool :=
  L.unplaced || (!L.done && s.wgs.any (fun W => W.launch == L.id && W.state == .saved))

/-- May Gondola leave a launch this mask (R353)? It takes cores for a launch of higher priority that needs them, once those of lower priority that
started later have none of that launch's rectangle left. DEDUCED, log entry 133. -/
def State.mayTake (s : State) (L : Launch) (mask : List Nat) : Bool :=
  let gone := L.mask.filter (fun c => !mask.contains c)
  gone.isEmpty || s.launches.any (fun N =>
    decide (L.prio < N.prio) && s.needsCores N && gone.all N.recd.cores.contains
      && s.launches.all (fun M => decide (N.prio ≤ M.prio) || decide (M.id ≤ L.id) || M.done || !M.mask.any N.recd.cores.contains))

/-- PREEMPT_MASK_WRITE: a subset of the rectangle. A workgroup that can retire now retires, and is not evicted. -/
def State.preemptMask (s : State) (l : Nat) (mask : List Nat) : State :=
  match s.launch? l with
  | none => s
  | some L =>
    if L.done then (s.setLaunch { L with preempts := L.preempts ++ [[]] }).preemptAck l
    else if !mask.all L.recd.cores.contains || !s.mayTake L mask then s
    else
      let s1 := s.setLaunch { L with mask := mask }
      let keep := s1.maskCores (s1.launch l)
      let s2 := s1.wgs.foldl (fun a W =>
        match a.wg? W.launch W.id with
        | some W => if W.launch == l && !keep.contains W.core && a.canRetire W then a.retire W else a
        | none => a) s1
      let s3 := s2.evictRemoved l
      let evicts := fun (s : State) => (s.wgs.filter (fun W => W.launch == l && W.state == .evicting)).map (·.id)
      let L3 := s3.launch l
      (s3.setLaunch { L3 with preempts := L3.preempts ++ [(evicts s3).filter (fun w => !(evicts s).contains w)] }).preemptAck l

def execPreemptMaskWrite (l : Nat) (mask : List Nat) (s : State) : Host.Outcome State Fault Refusal := .next (s.preemptMask l mask)

/-! ## Settling (R309, R354) -/

/-- Does a thread sleep or wait in a slot, so that it is saved there and executes the instruction again (R334)? -/
def Thread.waitsInSlot (s : State) (T : Team) (th : Thread) : Bool :=
  !th.slotDone && (match th.hold with
    | .asleep _ | .arrived => true
    | .at 5 | .at 9 | .at 10 => true
    | .at 11 => th.claim.isNone
    | .at 15 => !s.replays (T.ref th)
    | _ => false)

/-- Does a lane of an entry sleep or wait in its slot, which holds the whole group there (R334)? -/
def State.entryWaits (s : State) (e : Nat) : Bool :=
  s.teams.any (fun T => T.threads.any (fun th => th.entry == some e && th.waitsInSlot s T))

/-- Has an entry of a deterministic team been resumed after a fault inside its clause, and not issued since? Its clause is not that of the current
turn, which alone can be mid-way (R407). -/
def State.resumedIdle (s : State) (T : Team) (th : Thread) : Bool :=
  (s.launch T.launch).recd.det && th.hold == .none && (match th.entry.bind s.entry? with
    | some E => E.state == .issuing && !E.begun && s.cur.all (·.entry != E.id)
    | none => false)

/-- Can a thread be saved where it stands (R309, R334, R250)? Its results have returned or wait in the replay buffer, and it stands at a clause
boundary; or it is parked or stopped by a fault, or resumed after one; or, in a team that is not bound, at the slot after a marker, at a
slot in which it sleeps or waits, or at one that it has done and that holds its group. DEDUCED, log entry 42. -/
def State.threadSettled (s : State) (T : Team) (th : Thread) : Bool :=
  th.status == .exited || (th.outst.isEmpty && (!th.inside || th.status == .parked || th.status == .stopped || s.resumedIdle T th || (!T.bound &&
    (match th.entry with
      | none => true
      | some e => (match s.entry? e with | some E => E.state == .parked | none => true)
          || th.waitsInSlot s T || (th.slotDone && s.entryWaits e)))))

/-- Does a request of a workgroup's units wait for Gondola? -/
def State.unitStalled (s : State) (W : Wg) : Bool :=
  s.requests.any (fun q => match q.who with
    | .engine l w _ | .cursor l w _ | .pass l w _ _ => l == W.launch && w == W.id
    | _ => false)

/-- Is an evicting workgroup settled (R68, R83, R90, R290)? -/
def State.wgSettled (s : State) (W : Wg) : Bool :=
  let K := s.core W.core
  (s.teams.filter (fun T => T.launch == W.launch && T.wg == W.id)).all (fun T => T.threads.all (s.threadSettled T))
    && !s.inflight.any (fun i => i.launch == W.launch && i.wg == W.id)
    && !K.tiles.any (fun e => tileV e && tileOwner e == W.slot && (tileState e == 1 || tileState e == 3))
    && !K.passes.any (fun p => p.parts.any (fun x => x.launch == W.launch && x.wg == W.id))
    && !s.unitStalled W

/-! ## WORKGROUP_SAVE (R354) -/

/-- The sectors of which a view holds bytes that are not at their homes. -/
def View.sectors (v : View) : List Nat := ((v.dirty ++ v.uncached).map (fun c => sectorOf c.1)).dedup

/-- Each of the sectors that has no slot of the phase overflow area takes one, as long as there are free ones whose pages Gondola has not
rejected; the others stay without (R138). -/
def State.giveSlots (s : State) (l c : Nat) : List Nat → State
  | [] => s
  | sec :: rest =>
    if (s.view c l).spilled.any (·.1 == sec) then State.giveSlots s l c rest
    else match s.areaSlot l with
      | (s1, some slot) =>
        let v := s1.view c l
        State.giveSlots (s1.setView { v with spilled := (sec, slot) :: v.spilled }) l c rest
      | (s1, none) => State.giveSlots s1 l c rest

/-- Moves one sector of a view to its slot; a translation fault is a request of Gondola's own, and a page that another fault meets is as one
that it has rejected (R138). The answer tells whether the sector lies in the area. -/
def State.areaWrite (s : State) (l c w sec slot : Nat) : State × Bool :=
  let va := s.slotVa l slot
  let a := { s.engineAgent l w with priv := true, core := c }
  let page := va &&& ~~~(0xfff#64)
  let bad := fun (s : State) => let L := s.launch l; s.setLaunch { L with areaBad := page :: L.areaBad }
  match s.translate a va .wr with
  | (s1, .ok loc _ sh) =>
    match s1.reachAs loc sh with
    | .yes =>
      let v := s1.view c l
      let bytes := (ByteMap.over v.dirty v.uncached).filter (fun x => sectorOf x.1 == sec)
      (bytes.foldl (fun b x => b.putMarked (dieOf c) (sectorOf loc * 64 + x.1 % 64) [x.2]) (s1.freshSeal (sectorOf loc)), true)
    | .wait => (s1, false)
    | .failed _ => (bad s1, false)
  | (s1, .miss cause) =>
    let q : Request := { core := c, tick := s1.tick, asid := a.asid, page := page, cause := cause, who := .context l w }
    (if s1.requests.any (fun x => x.page == q.page && x.who == q.who) then s1 else { s1 with requests := s1.requests ++ [q] }, false)
  | (s1, .wait) => (s1, false)
  | (s1, .trap _) => (bad s1, false)

/-- How the bytes of an evicted view are put away. -/
inductive CarryOut where
  | done (s : State)
  | wait (s : State)
  /-- The carry store is exhausted: the launch has been killed. -/
  | killed (s : State)
  deriving DecidableEq, Repr

/-- The sectors that Gondola's carry store holds. -/
def State.storeUsed (s : State) : Nat := (s.carries.map (fun k => (k.slots.filter (·.2.isNone)).length)).sum

/-- The view's bytes become the carried bytes of the set: of every workgroup of the launch that is evicted from the core. Each of their
sectors lies in a slot of the launch's phase overflow area, where it can be reached, else in Gondola's carry store (R138). DESIGN CHOICE, log
entry 116. DEDUCED, log entries 17 and 79. -/
def State.carryView (s : State) (l c : Nat) : CarryOut :=
  -- a view that holds nothing still has the store hold of what it has appended (R79, R83)
  let v? := (s.views.find? (fun v => v.core == c && v.launch == l)).or
    (if s.snaps.any (fun q => q.launch == l && q.core == some c) then some { core := c, launch := l } else none)
  match v? with
  | none => .done s
  | some v0 =>
    let set := s.wgs.filter (fun W => W.launch == l && W.core == c && W.state == .evicting)
    let w := set.foldl (fun m W => min m W.id) ((set.head?.map (·.id)).getD 0)
    -- moves that replacement had begun are part of this one
    let s0 : State := { s.setView { v0 with spilled := v0.spilled.filter (fun x => !s.slotBad l x.2) } with
      requests := s.requests.filterMap (fun q => match q.who with
        | .threads accs =>
          let keep := accs.filter (fun x => !(q.core == c && (match x.2.kind with | .spill k _ _ => k == l | _ => false)))
          if keep.isEmpty then none else some { q with who := .threads keep }
        | _ => some q) }
    let secs := v0.sectors
    let s1 := s0.giveSlots l c secs
    let slotOf := fun (s : State) (sec : Nat) => ((s.view c l).spilled.find? (·.1 == sec)).map (·.2)
    if Config.carryStore < s1.storeUsed + (secs.filter (fun sec => (slotOf s1 sec).isNone)).length then
      .killed (s1.killWith l ((s1.launch l).unitRecord { cause := 0x080, sub := 0x01, addr := s1.slotVa l 0 } w s1.tick))
    else
      let (s2, all_) := secs.foldl (fun (x : State × Bool) sec => match slotOf x.1 sec with
        | some slot => let (t, ok) := x.1.areaWrite l c w sec slot; (t, x.2 && ok)
        | none => x) (s1, true)
      if !all_ then .wait s2
      else
        let v := s2.view c l
        let k := s2.nextCarry
        .done { s2 with
          views := s2.views.filter (fun v => !(v.core == c && v.launch == l))
          carries := s2.carries ++ [{ id := k, launch := l, core := c, bytes := v.dirty, uncached := v.uncached
                                      slots := secs.map (fun sec => (sec, slotOf s2 sec)) }]
          nextCarry := k + 1
          snaps := s2.snaps.map (fun q => if q.launch == l && q.core == some c then { q with core := none, sets := k :: q.sets } else q)
          wgs := s2.wgs.map (fun W => if W.launch == l && W.core == c && W.state == .evicting then
              { W with carry := k :: W.carry, sets := k :: W.sets } else W) }

/-- A partition whose workgroups are all evicted leaves its core with its image (R62), and no leaf names it until it lies on a core again (R40):
from here on accesses to it wait (R33). DESIGN CHOICE, log entries 113, 128. -/
def State.partSaved (s : State) (W : Wg) : State :=
  match s.partition? W.launch W.home with
  | none => s
  | some p =>
    match p.core with
    | none => s
    | some c =>
      if s.wgs.any (fun x => x.launch == W.launch && x.home == W.home && (x.state == .placed || x.state == .running || x.state == .evicting)) then s
      else
        let lo := scratchPa c p.base
        let inside := fun (a : Nat) => decide (lo ≤ a) && decide (a < lo + p.size)
        let s1 := (s.unmapScratch c p.base p.size).gondolaHit 0 0 lo lo p.size true
        State.setPartition { s1 with mem := s1.mem.filter (fun x => !inside x.1), badSeals := s1.badSeals.filter (fun sec => !inside (sec * 64)) }
          { p with core := none, image := (s1.mem.filter (fun x => inside x.1)).map (fun x => (x.1 - lo, x.2))
                   bad := (s1.badSeals.filter (fun sec => inside (sec * 64))).map (fun sec => sec - lo / 64)
                   leaves := s.scratchLeaves c p.base p.size }

/-- A thread of a saved workgroup stands in no entry; one at a marker, after a yield or at a wait goes on at its slot, with those that stood in its
entry, of which some may have done that slot; it keeps the TAG, the age and the promotion of its entry (R309, R334, R407, R413). -/
def State.threadLeaves (s : State) (th : Thread) : Thread :=
  let E := th.entry.bind s.entry?
  { th with age := s.ageOf th, promo := (E.map (·.promo)).getD th.promo, regroup := if th.inside then E.map (fun e => (e.id, e.tag)) else none
            entry := none, slotDone := th.slotDone && th.inside
            hold := if th.hold == .at 3 && E.any (·.state == .parked) then .at 1 else th.hold }

/-- The team of a saved workgroup is on no core. -/
def State.teamLeaves (s : State) (T : Team) : Team := { T.mapThreads s.threadLeaves with core := noCore }

/-- The save of one workgroup, whose view has been put away, and whose context has been written in state s1. Its tile entries are INVALID while it is
saved, and a restore puts them back over whatever was allocated there meanwhile. DESIGN CHOICE, log entry 127. -/
def State.leaveWg (s3 : State) (W : Wg) (image : List (Nat × List Byte)) : State :=
  let l := W.launch
  let c := W.core
  let W := s3.wg l W.id
  let K := s3.core c
  let p := s3.partition? l W.home
  let mineT := fun (e : BitVec 128) => tileV e && tileOwner e == W.slot
  let tiles := match p with
    | some p => (List.range p.tiles).filterMap (fun t => let e := K.tiles.getD (p.tbase + t) 0; if mineT e then some (t, e) else none)
    | none => []
  let base := W.accblk.toNat % 4096
  let lim := W.accblk.toNat / 2 ^ 16 % 8192
  let mineA := fun (i : Nat) => decide (base ≤ i / 32) && decide (i / 32 < lim)
  let reel := K.reel.owner == some ⟨l, W.id⟩
  let s4 := s3.setCore { K with
    tiles := K.tiles.map (fun e => if mineT e then 0 else e)
    acc := K.acc.filter (fun x => !mineA x.1)
    reel := if reel then {} else K.reel }
  let s5 : State := s4.setWg { W with
    state := .saved, core := noCore, tilesSaved := tiles, reelSaved := if reel then some K.reel else none, image := image
    accSaved := (K.acc.filter (fun x => mineA x.1)).map (fun x => (x.1 - base * 32, x.2)) }
  let mine := fun (r : ThreadRef) => r.launch == l && r.wg == W.id
  let s6 : State := { s5 with
    teams := s5.teams.map (fun T => if T.launch == l && T.wg == W.id then s3.teamLeaves T else T)
    overflow := s5.overflow.filter (fun r => !mine r)
    entries := s5.entries.filter (fun e => s5.teams.any (fun T => !(T.launch == l && T.wg == W.id) && T.threads.any (fun th => th.entry == some e.id)))
    requests := s5.requests.flatMap (fun q => match q.who with
      | .threads accs =>
        let a := accs.filter (fun x => !mine x.1)
        let b := accs.filter (fun x => mine x.1)
        (if a.isEmpty then [] else [{ q with who := .threads a }]) ++ (if b.isEmpty then [] else [{ q with core := noCore, who := .threads b }])
      | _ => [q]) }
  (s6.partSaved W).preemptAck l

/-- The context of a workgroup whose view has been put away. Where the carried list and Gondola's store lie is free. DESIGN CHOICE, log entry 16. -/
def State.saveImage (s1 : State) (W : Wg) : State × List (Nat × List Byte) :=
  let l := W.launch
  let W := s1.wg l W.id
  let mineC := s1.carries.filter (fun k => W.carry.contains k.id)
  let lowest := fun (k : Nat) => (s1.wgs.filter (fun x => x.launch == l && x.carry.contains k)).all (fun x => decide (W.id ≤ x.id))
  let inArea := mineC.any (fun k => k.slots.any (·.2.isSome))
  let inStore := mineC.any (fun k => k.slots.any (·.2.isNone) && lowest k.id)
  let R := (s1.launch l).recd
  let (f, s1a) := s1.free64
  let (g, s2) := s1a.free64
  (s2, s2.contextImage W (if inArea then f else 0) (if R.ovflen = 0 then 0 else BitVec.ofNat 64 (R.ovflen * 4096)) (if inStore then g else 0))

/-- The save of one workgroup, whose view has been put away: its context is written, which may have to wait; then it leaves its core. -/
def State.saveWg (s1 : State) (W : Wg) : State :=
  let (s2, image) := s1.saveImage W
  match s2.writeContext (s1.wg W.launch W.id) image with
  | none => s2
  | some s3 => s3.leaveWg (s1.wg W.launch W.id) image

/-- WORKGROUP_SAVE: once all of its set on the core have settled, and the set's bytes are put away. -/
def execWorkgroupSave (r : WgRef) (s : State) : Host.Outcome State Fault Refusal :=
  .next (match s.wg? r.launch r.wg with
    | none => s
    | some W =>
      if W.state == .evicting && (s.wgs.filter (fun x => x.launch == W.launch && x.core == W.core && x.state == .evicting)).all s.wgSettled then
        match s.carryView W.launch W.core with
        | .done s1 => s1.saveWg W
        | .wait s1 | .killed s1 => s1
      else s)

/-! ## WORKGROUP_RESTORE (R354, R310) -/

/-- The workgroups that are restored together with one: those that share its saved partition image (R62). -/
def State.restoreGroup (s : State) (W : Wg) : List Wg :=
  match s.partition? W.launch W.home with
  | some p =>
    if p.core.isNone then sortBy (fun (a b : Wg) => decide (a.id ≤ b.id)) (s.wgs.filter (fun x => x.launch == W.launch && x.home == W.home && x.state == .saved))
    else [W]
  | none => [W]

/-- The cores that may take a group: the one that holds its partition, or those of the mask. DESIGN CHOICE, log entry 81. -/
def State.restoreCores (s : State) (W : Wg) : List Nat :=
  match s.partition? W.launch W.home with
  | some p => match p.core with
    | some c => if (s.maskCores (s.launch W.launch)).contains c then [c] else []
    | none => s.maskCores (s.launch W.launch)
  | none => s.maskCores (s.launch W.launch)

/-- Moves an accumulator window with its block, so that the rows it names are the same ones; an empty window names none and stays (R292). -/
def moveWindow (win : BitVec 32) (old new : Nat) : BitVec 32 :=
  if win.toNat / 2 ^ 16 % 8192 ≤ win.toNat % 4096 then win
  else BitVec.ofNat 32 ((win.toNat % 4096 + new - old) % 4096 + (win.toNat / 2 ^ 16 % 8192 + new - old) % 8192 * 2 ^ 16)

/-- RowProg of a saved team as its record has it, into which Gondola may have written (R289). -/
def State.readRowProg (s : State) (T : Team) : State :=
  let W := s.wg T.launch T.wg
  let a := { s.engineAgent W.launch W.id with priv := true }
  match s.engReach a (W.ctx + BitVec.ofNat 64 (0x30000 + 0x1000 * T.idx + 0x580)) 32 false with
  | .ok s1 y => (List.range 8).foldl (fun b q =>
      match b.team? T.launch T.wg T.idx with
      | some U => let v := BitVec.ofNat 32 (s1.homeNat (y.loc + 4 * q) 4); if v = U.rowprog.getD q 0 then b else b.rowProgPut U q v
      | none => b) s1
  | _ => s

/-- Puts a workgroup back on a core with what the core gives it. DEDUCED, log entry 17. -/
def State.restoreAt (s : State) (L : Launch) (W : Wg) (r : Room) : State :=
  let R := L.recd
  let old := W.accblk.toNat % 4096
  let place := fun (T : Team) =>
    let b := if T.idx < 32 then r.blocks.getD T.idx ⟨0, 0, 0, 0, 0⟩ else r.blocks.getD (R.teams + (T.idx - 32)) ⟨0, 0, 0, 0, 0⟩
    { T with core := r.core, slice := b.slice, span := b.span, block := b.off, accwin := moveWindow T.accwin old r.acc }
  -- a new partition takes the saved image
  let s1 : State := match r.part, s.partition? W.launch W.home with
    | some (b, t), some p =>
      let lo := scratchPa r.core b
      let s0 := State.newPartition { s with parts := s.parts.filter (fun x => !(x.launch == L.id && x.home == W.home)) } L W.home r.core p.size b t
      (State.mapScratch { s0 with mem := p.image.foldl (fun m x => Memory.write m (lo + x.1) x.2) s0.mem
                                  badSeals := p.bad.map (· + lo / 64) ++ s0.badSeals } r.core b p.leaves).gondolaHit 0 0 lo lo p.size false
    | _, _ => s
  let tbase := ((s1.partition? W.launch W.home).map (·.tbase)).getD 0
  let K := s1.core r.core
  let newE := fun (e : BitVec 128) => mkTile (tileSeq e) (tileState e) (tileErr e) r.slot (tileLen e) (tileBase e)
  let s2 := s1.setCore { K with
    tiles := W.tilesSaved.foldl (fun l x => setAt l (tbase + x.1) (newE x.2)) K.tiles
    acc := (K.acc.filter (fun x => !(decide (r.acc ≤ x.1 / 32) && decide (x.1 / 32 < r.acc + R.accBlock)))) ++ W.accSaved.map (fun x => (x.1 + r.acc * 32, x.2))
    reel := W.reelSaved.getD K.reel }
  let hw := fun (q : EQueue) => { q with hw := (if q.sel.eng = 0 then r.cq else r.kq).getD q.sel.q 0 }
  let s3 := s2.setWg { W with
    state := .running, core := r.core, slot := r.slot, accblk := accblkOf r.acc R.accBlock, accSaved := [], tilesSaved := [], reelSaved := none, image := []
    spawnBlocks := (r.blocks.drop R.teams).map (fun b => (b.slice, b.span, b.off)), queues := W.queues.map hw }
  let mine := fun (l w : Nat) => l == W.launch && w == W.id
  -- clean copies of the launch that the core still has may be older than what the workgroup has read
  let v := s3.view r.core L.id
  { s3.setView { v with clean := [] } with
    teams := s3.teams.map (fun T => if mine T.launch T.wg then place T else T)
    requests := s3.requests.map (fun q => match q.who with
      | .threads accs => if q.core == noCore && accs.any (fun x => mine x.1.launch x.1.wg) then { q with core := r.core } else q
      | _ => q) }

/-- Restores a group onto a core, one workgroup after another; none where the core lacks room for one of them. -/
def State.restoreOn (s : State) (L : Launch) (c : Nat) : List Wg → Option State
  | [] => some s
  | W :: ws =>
    let newPart := match s.partition? W.launch W.home with
      | some p => p.core.isNone
      | none => false
    if W.reelSaved.isSome && (s.core c).reel.owner.isSome then none
    else match s.room L c newPart with
      | none => none
      | some r =>
        -- what its area no longer holds as it was written is read from there (R354)
        let s0 := s.readContext W
        let s1 := s0.restoreAt L (s0.wg W.launch W.id) r
        ((s1.teams.filter (fun T => T.launch == W.launch && T.wg == W.id)).foldl State.readRowProg s1).restoreOn L c ws

/-- The replay entries of a restored workgroup are re-issued before its threads resume (R47). -/
def State.reissue (s : State) (W : Wg) : State :=
  (s.requests.filter (fun q => match q.who with
    | .threads accs => accs.any (fun x => x.1.launch == W.launch && x.1.wg == W.id)
    | _ => false)).foldl State.replayEntry s

/-- Rule 4 of R310: the resident workgroups on the core of the highest id above a saved one are evicted. -/
def State.makeRoom (s : State) (W : Wg) : State :=
  if s.wgs.any (fun x => x.launch == W.launch && x.state == .evicting) then s
  else
    match (s.wgs.filter (fun x => x.launch == W.launch && x.state == .running && decide (W.id < x.id))).foldl
        (fun (b : Option Wg) x => match b with | none => some x | some y => if y.id < x.id then some x else some y) none with
    | none => s
    | some x => s.evictCore W.launch x.core

/-- WORKGROUP_RESTORE: saved workgroups come back in ascending id; which core of several takes them is free. -/
def State.restoreWg (s : State) (W : Wg) : State :=
  let L := s.launch W.launch
  if W.state != .saved || L.done || s.wgs.any (fun x => x.launch == W.launch && x.state == .saved && decide (x.id < W.id)) then s
  else
    let g := s.restoreGroup W
    let fits := (s.restoreCores W).filterMap (fun c => (s.restoreOn L c g).map (fun t => (c, t)))
    match fits with
    | [] => s.makeRoom W
    | [(_, t)] => g.foldl State.reissue t
    | _ =>
      let (k, s1) := s.pick fits.length
      match (fits[k]?).bind (fun x => s1.restoreOn L x.1 g) with
      | some t => g.foldl State.reissue t
      | none => s1

def execWorkgroupRestore (r : WgRef) (s : State) : Host.Outcome State Fault Refusal :=
  .next (match s.wg? r.launch r.wg with
    | none => s
    | some W => s.restoreWg W)

end Sys2Proof.Machine
end

