-- ==== Sys2Proof/Machine/Table.lean ====
section
/-!
DEFINITION. Machine/Table.lean: the convergence tables (16 R298 to R305, R308, R309): keys, joining and allocating entries, the
overflow list, holds, parks at markers, and the handler entries and deferred faults that are met there (21 R394 to R396).
-/

namespace Sys2Proof.Machine

/-! ## What a key depends on (R298, R305) -/

/-- A clause as its first words show it: whether it is a convergence point, and whether its scope is the quarter. -/
structure ClauseKind where
  point   : Bool := false
  quarter : Bool := false
  deriving DecidableEq, Repr

/-- What slot 0 says. -/
def kindOfFirst : Instr → ClauseKind
  | .barWg | .join | .bind _ _ _ => { point := true }
  | .mma _ _ _ _ _ _ | .mmasc _ _ _ _ _ _ _ _ => { point := true, quarter := true }
  | _ => {}

/-- The kind of a clause from its words. -/
def clauseKind (ws : List (BitVec 32)) (priv : Bool) : ClauseKind :=
  match decodeHeader (ws.headD 0) with
  | none => {}
  | some h =>
    let k := match slotInstr ws priv 0 with
      | .ok i => if (misplaced h.cnt 0 i).isNone then kindOfFirst i else {}
      | .error _ => {}
    if h.cls = .xl then { k with point := true } else k

/-- The words of a clause as a team's core would fetch them now, none while it cannot. -/
def State.clauseAt (s : State) (T : Team) (a : BitVec 64) : Option (List (BitVec 32)) :=
  match s.fetchClause (s.agent T) a with
  | .ok _ ws => some ws
  | _ => none

/-- The kind of the clause at an address; one that cannot be read yet counts as no convergence point until it is fetched. DEDUCED, log entry 88. -/
def State.kindAt (s : State) (T : Team) (a : BitVec 64) : ClauseKind :=
  match s.clauseAt T a with
  | some ws => clauseKind ws (s.launch T.launch).priv
  | none => {}

/-- A key. -/
structure Key where
  launch : Nat
  tag    : BitVec 32
  addr   : BitVec 64
  team   : Option (Nat × Nat)
  deriving DecidableEq, Repr

/-- The key of an entry. -/
def Entry.key (e : Entry) : Key := ⟨e.launch, e.tag, e.addr, e.team⟩

/-- The TAG of a thread under its team's tag mode (R303). -/
def Team.tagOf (T : Team) (th : Thread) : BitVec 32 :=
  if T.bound then 0
  else if T.tagmode = 1 then th.gpc
  else if T.tagmode = 2 then th.gop.zeroExtend 32
  else 0

/-- The key of a thread at a clause boundary, with its clause's kind. -/
def State.keyOf (s : State) (T : Team) (th : Thread) (k : ClauseKind) : Key where
  launch := T.launch
  tag := T.tagOf th
  addr := th.clause
  team := if k.point || T.bound || (s.launch T.launch).recd.det then some (T.wg, T.idx) else none

/-- Do keys come in this order (R302)? -/
def Key.least (a b : Key) : Bool := decide (a.tag.toNat < b.tag.toNat) || (a.tag == b.tag && decide (a.addr.toNat ≤ b.addr.toNat))

/-! ## Entries and their threads (R299, R300) -/

/-- The threads of an entry, with their teams. -/
def State.members (s : State) (e : Nat) : List (Team × Thread) :=
  s.teams.flatMap (fun T => (T.threads.filter (·.entry == some e)).map (fun th => (T, th)))

/-- The physical lane of a thread. -/
def Team.laneAt (T : Team) (th : Thread) : Nat := T.span + th.lane

/-- The entries of a slice. -/
def State.sliceEntries (s : State) (core slice : Nat) : List Entry := s.entries.filter (fun e => e.core == core && e.slice == slice)

/-- Is an entry of a slice's table FREE? -/
def State.tableRoom (s : State) (core slice : Nat) : Bool := decide ((s.sliceEntries core slice).length < 256)

/-- Puts a thread into an entry. -/
def State.putIn (s : State) (e : Entry) (T : Team) (th : Thread) : State :=
  (s.setEntry { e with mask := e.mask ++ [T.laneAt th] }).updThread (T.ref th) (fun t => { t with entry := some e.id, regroup := none, age := 0, promo := none })

/-- Where a thread that needs an entry enters the table: its key, whether its clause is a convergence point, and the state and slot of an entry
of its own. Inside a clause the entry issues, or is parked where the thread stood at a marker when it was saved; it is one for the team
alone, but for threads that stood in one entry before a save (R308, R309). -/
structure Place where
  key   : Key
  point : Bool
  state : EState
  slot  : Nat
  deriving DecidableEq, Repr

/-- The place of a thread. -/
def State.placeOf (s : State) (T : Team) (th : Thread) : Place :=
  if th.inside then
    { key := match th.regroup with
        | some (_, tag) => { s.keyOf T th (s.kindAt T th.clause) with tag := tag }
        | none => { s.keyOf T th {} with team := some (T.wg, T.idx) }
      point := true
      state := if th.hold = .at 1 then .parked else .issuing, slot := th.slot }
  else
    let kind := s.kindAt T th.clause
    let point := kind.point || T.bound
    { key := s.keyOf T th kind, point := point, state := if point then .hold else .open, slot := 0 }

/-- Allocates an entry for a thread; one in which a thread has begun its slot or done it has been reached (R334, R408). -/
def State.allocEntry (s : State) (T : Team) (th : Thread) (p : Place) : State :=
  let e : Entry := { id := s.nextEntry, core := T.core, slice := T.slice, launch := p.key.launch, tag := p.key.tag, addr := p.key.addr
                     team := p.key.team, state := p.state, slot := p.slot, regroup := th.regroup, point := p.point
                     begun := th.regroup.isSome && p.state == .issuing && (th.slotDone || th.hold != .none)
                     age := if (s.launch T.launch).recd.det then th.age else 0
                     promo := if (s.launch T.launch).recd.det then th.promo else none }
  State.putIn { s with entries := s.entries ++ [e], nextEntry := s.nextEntry + 1 } e T th

/-- The entry that a thread may join: at a boundary one with an equal key, a free lane and a state that is joined; inside a clause
only a bound team's own, where its other threads resume with it (R308, R249), or that of the threads that stood in one entry with it
before a save (R309). -/
def State.joinable (s : State) (T : Team) (th : Thread) (p : Place) : Option Entry :=
  s.entries.find? (fun e =>
    e.core == T.core && e.slice == T.slice && !e.mask.contains (T.laneAt th) && e.key == p.key
      && (if th.inside then
            e.state == p.state && e.slot == th.slot && ((T.bound && !e.begun) || (th.regroup.isSome && e.regroup == th.regroup))
          else e.state == p.state))

/-- A thread joins an entry or takes a FREE one; none where it has to wait for one. -/
def State.enter (s : State) (T : Team) (th : Thread) : Option State :=
  let p := s.placeOf T th
  match s.joinable T th p with
  | some e => some (s.putIn e T th)
  | none => if s.tableRoom T.core T.slice then some (s.allocEntry T th p) else none

/-- Does a thread need an entry: it runs, it has none, and its team is not about to halt at the boundary (R419)? -/
def State.wantsEntry (s : State) (T : Team) (th : Thread) : Bool :=
  (th.status == .running || th.status == .handler) && th.entry.isNone
    && (th.inside || T.stepping.isSome || (!T.halted && T.stopReq.isNone)) && (s.wg T.launch T.wg).active

/-- The threads of a slice's teams. -/
def State.sliceThreads (s : State) (core slice : Nat) : List (Team × Thread) :=
  (s.teams.filter (fun T => T.core == core && T.slice == slice)).flatMap (fun T => T.threads.map (fun th => (T, th)))

/-- Threads that have come to need an entry take their keys, or wait in arrival order. -/
def State.enterNew (s : State) (core slice : Nat) : State :=
  (s.sliceThreads core slice).foldl (fun a x =>
    let r := x.1.ref x.2
    match a.thread? r with
    | none => a
    | some (T, th) =>
      if !a.wantsEntry T th || a.overflow.contains r then a
      else (a.enter T th).getD { a with overflow := a.overflow ++ [r] }) s

/-- Entries that no thread stands in are FREE; the masks of the others name their threads. -/
def State.dropEmpty (s : State) (core slice : Nat) : State :=
  { s with entries := s.entries.filterMap (fun e =>
      if e.core == core && e.slice == slice then
        let xs := s.members e.id
        if xs.isEmpty then none else some { e with mask := xs.map (fun x => x.1.laneAt x.2) }
      else some e) }

/-- While an entry is FREE the oldest waiting thread takes it, and those with an equal key join it. -/
def State.serveOverflow (s : State) (core slice : Nat) : Nat → State
  | 0 => s
  | n + 1 =>
    let here := fun (r : ThreadRef) => (s.thread? r).bind (fun x =>
      if x.1.core == core && x.1.slice == slice && s.wantsEntry x.1 x.2 then some x else none)
    match s.overflow.find? (fun r => (here r).isSome) with
    | none => s
    | some r =>
      match here r with
      | none => s
      | some (T, th) =>
        if !s.tableRoom core slice then s
        else
          let s1 := State.allocEntry { s with overflow := s.overflow.erase r } T th (s.placeOf T th)
          let s2 := s1.overflow.foldl (fun a q =>
            match a.thread? q with
            | none => a
            | some (U, tu) =>
              if U.core == core && U.slice == slice && a.wantsEntry U tu then
                match a.joinable U tu (a.placeOf U tu) with
                | some e => if e.id = s.nextEntry then State.putIn { a with overflow := a.overflow.erase q } e U tu else a
                | none => a
              else a) s1
          State.serveOverflow s2 core slice n

/-- Threads at a boundary take their entries, after those that have waited for one (R300). -/
def State.boundary (s : State) (core slice : Nat) : State :=
  let s1 := s.dropEmpty core slice
  (s1.serveOverflow core slice s1.overflow.length).enterNew core slice

/-! ## Holds (R305) -/

/-- The threads of an entry whose hold is resolved: every non-exited thread of their scope holds in it. DEDUCED, log entry 87. -/
def State.resolved (s : State) (e : Entry) : List (Team × Thread) :=
  match s.members e.id with
  | [] => []
  | (T, t0) :: rest =>
    let xs := (T, t0) :: rest
    let in_ := fun (q : Thread → Bool) => (T.live.filter q).all (·.entry == some e.id)
    if (s.kindAt T e.addr).quarter then xs.filter (fun x => in_ (fun t => t.lane / 8 == x.2.lane / 8))
    else if in_ (fun _ => true) then xs else []

/-- Resolves the hold of an entry: it becomes ready with exactly those threads. The others hold on in an entry of their own; where none is FREE
they wait for one. -/
def State.resolveHold (s : State) (e : Entry) : State :=
  let xs := s.resolved e
  let lanes := xs.map (fun x => x.1.laneAt x.2)
  if e.state != .hold || xs.isEmpty then s
  else if xs.length = (s.members e.id).length then s.setEntry { e with state := .open, counts := List.replicate 8 0 }
  else if !s.tableRoom e.core e.slice then
    let rest := (s.members e.id).filter (fun x => !lanes.contains (x.1.laneAt x.2))
    let s1 := s.setEntry { e with state := .open, mask := lanes, counts := List.replicate 8 0 }
    rest.foldl (fun a x => { a.updThread (x.1.ref x.2) (fun t => { t with entry := none }) with overflow := a.overflow ++ [x.1.ref x.2] }) s1
  else
    let e1 : Entry := { e with id := s.nextEntry, state := .open, mask := lanes, counts := List.replicate 8 0 }
    let s0 := s.setEntry { e with mask := e.mask.filter (fun l => !lanes.contains l) }
    let s1 : State := { s0 with entries := s0.entries ++ [e1], nextEntry := s0.nextEntry + 1 }
    xs.foldl (fun a x => a.updThread (x.1.ref x.2) (fun t => { t with entry := some e1.id })) s1

/-- The scopes of a hold: quarters, or the team, each with its held and its missing threads (R305, R306). -/
def State.holdScopes (s : State) (e : Entry) : List (Nat × Team × List Thread × List Thread) :=
  match s.members e.id with
  | [] => []
  | (T, _) :: _ =>
    if (s.kindAt T e.addr).quarter then
      (List.range 8).filterMap (fun q =>
        let ths := T.live.filter (fun th => th.lane / 8 == q)
        let held := ths.filter (·.entry == some e.id)
        if held.isEmpty then none else some (q, T, held, ths.filter (·.entry != some e.id)))
    else [(0, T, T.live.filter (·.entry == some e.id), T.live.filter (·.entry != some e.id))]

/-- The holds of a slice. -/
def State.resolveHolds (s : State) (core slice : Nat) : State := (s.sliceEntries core slice).foldl State.resolveHold s

/-! ## The end of a clause (R325, R394) -/

/-- The loop-end check: the next address and the levels and counters after it. -/
def loopEnd (clause : BitVec 64) (next : BitVec 64) : List Level → List (BitVec 32) → BitVec 64 × List Level × List (BitVec 32)
  | [], lc => (next, [], lc)
  | v :: vs, lc =>
    if v.e = clause ∧ next = v.x then
      let c := lc.getD v.n 0 - 1
      let lc1 := setAt lc v.n c
      if c ≠ 0 then (v.l, v :: vs, lc1) else loopEnd clause next vs lc1
    else (next, v :: vs, lc)

/-- A thread finishes its clause, of which f is the fall-through address. -/
def Thread.finishClause (th : Thread) (f : BitVec 64) : Thread :=
  let r := loopEnd th.clause (th.next.getD f) th.loops th.lc
  { th with clause := r.1, loops := r.2.1, lc := r.2.2, next := none, slot := 0, inside := false, entry := none, slotDone := false
            hold := .none, age := 0 }

/-- A thread with a deferred fault parks at the boundary; the later ones wait. -/
def Thread.takeDeferred (th : Thread) : Thread :=
  match th.defer with
  | [] => th
  | r :: rest => { th with defer := rest }.park r 0 false

/-- The threads of a team that stand in an entry finish its clause. A bound team whose threads would part faults and keeps its loop state
(R239); one with a deferred fault parks as a whole (R249). -/
def State.finishTeam (s : State) (e cnt : Nat) (ws : List (BitVec 32)) (T : Team) : Team :=
  let mine := fun (th : Thread) => th.entry == some e && th.status != .exited
  let ends := T.threads.map (fun th => if mine th then th.finishClause (fallThrough th.clause ws) else th)
  let T1 := { T with threads := ends, rowSeen := T.rowprog }
  if !T.threads.any mine then T
  else if !T.bound then T1.mapThreads (fun th => if th.entry.isNone && (T.threads.any (fun x => x.lane == th.lane && mine x)) then th.takeDeferred else th)
  else
    let nexts := (ends.filter (·.status != .exited)).map (·.clause)
    if nexts.any (· != nexts.headD 0) then
      let r := { s.record T (T.live.headD { lane := 0 }) ((T.live.headD { lane := 0 }).clause) cnt true { cause := 0x044, sub := 0x01 } with lane := 0 }
      T.mapThreads (fun th => if mine th then { th.park r cnt true with next := th.next } else th)
    else match ends.findSome? (fun th => th.defer.head?) with
      | some r => T1.mapThreads (fun th => if th.status == .exited then th else { th with defer := th.defer.erase r }.park r 0 false)
      | none => T1

/-! ## Settling before a turn -/

/-- Threads whose fault goes to the kernel's own handler enter it: a bound team, or a quarter with a stopped matrix operation, as a
whole (R395, R396). -/
def State.enterHandlers (s : State) (core slice : Nat) : State :=
  s.mapTeams (fun T =>
    let h := (s.launch T.launch).recd.handler
    if T.core == core && T.slice == slice then
      T.mapThreads (fun th =>
        let unit := if T.bound then T.live
          else if (th.record.map (·.matrix)).getD false then T.live.filter (fun x => x.lane / 8 == th.lane / 8) else [th]
        if th.handled h && unit.all (·.handled h) then th.enterHandler h else th)
    else T)

/-- A thread that stands at a clause boundary, or is parked at a switch marker, takes a deferred fault at once (R394), a bound team as a
whole. -/
def State.deferAtMarkers (s : State) (core slice : Nat) : State :=
  let marked := fun (th : Thread) => (th.hold == .at 1 || !th.inside) && (th.status == .running || th.status == .handler)
  s.mapTeams (fun T =>
    if T.core == core && T.slice == slice then
      match (if T.bound then T.live.findSome? (fun th => if marked th then th.defer.head? else none) else none) with
      | some r => T.mapThreads (fun th => if th.status == .exited then th
          else { ({ th with defer := th.defer.erase r }.park r th.slot th.inside) with next := th.next })
      | none => T.mapThreads (fun th =>
          if marked th then match th.defer with
            | r :: rest => { ({ th with defer := rest }.park r th.slot th.inside) with next := th.next }
            | [] => th
          else th)
    else T)

/-- The team of a deterministic workgroup after a given one in the rotation (R405). -/
def State.nextTurn (s : State) (W : Wg) (t : Nat) : Nat :=
  let ids := sortBy (fun (a b : Nat) => decide (a ≤ b)) ((s.teams.filter (fun T => T.launch == W.launch && T.wg == W.id && !T.live.isEmpty)).map (·.idx))
  (ids.find? (fun i => decide (t < i))).getD (ids.headD 0)

/-- The turns of the deterministic workgroups of these teams end with their clause (R406). -/
def State.endTurns (s : State) (ran : List Team) : State :=
  ((ran.map (fun T => (T.launch, T.wg))).dedup).foldl (fun (a : State) q =>
    let W := a.wg q.1 q.2
    if (a.launch q.1).recd.det && ran.any (fun T => T.launch == q.1 && T.wg == q.2 && T.idx == W.turn) then
      a.setWg { W with turn := a.nextTurn W W.turn, turnBegun := false }
    else a) s

/-- Entries whose threads have all left the park go on, after a yield once their teams' turns have passed (R166, R338); one whose clause is
over ends it, and its turn (R406). -/
def State.leaveMarker (s : State) (e : Entry) : State :=
  let xs := s.members e.id
  let stays := fun (x : Team × Thread) => x.2.hold == .at 1
    && (s.resultsDue (x.1.ref x.2) x.2 || (s.wg x.1.launch x.1.wg).state == .evicting)
  if e.state != .parked || !e.skips.isEmpty || xs.any stays then s
  else
    let s1 := (s.setEntry { e with state := .issuing }).mapTeams (·.mapThreads (fun th => if th.entry == some e.id then { th with hold := .none } else th))
    match decodeHeader (e.words.headD 0) with
    | some h => if h.cnt ≤ e.slot then (s1.mapTeams (s1.finishTeam e.id h.cnt e.words)).endTurns (xs.map (·.1)) else s1
    | none => s1

/-- Candidates whose age has reached 64 are promoted, in the order in which they were allocated (R302). -/
def State.promote (s : State) (e : Entry) : State :=
  if 64 ≤ e.age && e.promo.isNone then { s.setEntry { e with promo := some s.nextPromo } with nextPromo := s.nextPromo + 1 } else s

/-- AGE_PROMOTION. -/
def execAgePromotion (entry : Nat) (s : State) : Host.Outcome State Fault Refusal :=
  .next (match s.entry? entry with
    | some e => s.promote e
    | none => s)

/-- Everything that comes about at a slice between two of its turns. -/
def State.settle (s : State) (core slice : Nat) : State :=
  let s1 := ((s.enterHandlers core slice).deferAtMarkers core slice).settleHalts
  let s2 := (s1.sliceEntries core slice).foldl State.leaveMarker s1
  let s3 := (s2.boundary core slice).resolveHolds core slice
  (s3.sliceEntries core slice).foldl State.promote s3

end Sys2Proof.Machine
end

