-- ==== Sys2Proof/Machine/Turn.lean ====
section
/-!
DEFINITION. Machine/Turn.lean: the turns of a slice (16 R301, R302; 22 R405 to R407), and how the issue group moves from slot to slot (09
R165, R166; 16 R299; 17 R338; 22 R408; 23 R419, R420).
-/

namespace Sys2Proof.Machine

/-! ## Readiness (R301, R165) -/

/-- Does an access of a thread that meets a test wait in a replay buffer? -/
def State.replaying (s : State) (r : ThreadRef) (p : AccKind → Bool) : Bool :=
  s.requests.any (fun q => match q.who with
    | .threads accs => accs.any (fun a => a.1 == r && p a.2.kind)
    | _ => false)

/-- Does a thread meet the WAIT field of its clause? Appends, posts, tile instructions and service calls have taken effect once they
have issued. -/
def State.waitMet (s : State) (T : Team) (th : Thread) (wait : Nat) : Bool :=
  let r := T.ref th
  (!bitAt wait 0 || (th.outst.all (·.prod != .mem) && !s.replaying r AccKind.returns))
    && (!bitAt wait 1 || !s.replaying r AccKind.writes)
    && (!bitAt wait 2 || s.matrixIdle T (th.lane / 8))

/-- Does every thread of a boundary entry meet the WAIT field? -/
def State.waitsMet (s : State) (e : Entry) (xs : List (Team × Thread)) : Bool :=
  match xs with
  | [] => true
  | (T, _) :: _ =>
    match (s.clauseAt T e.addr).bind (fun ws => decodeHeader (ws.headD 0)) with
    | none => true
    | some h => xs.all (fun x => s.waitMet x.1 x.2 h.wait)

/-- May a team that is halted or about to halt issue with an entry: only the one that it steps (R419, R420)? -/
def Team.mayIssue (T : Team) (e : Entry) : Bool :=
  match T.stepping with
  | some (_, none) => true
  | some (_, some k) => k.1 == e.id
  | none => !T.halted && (e.state != .open || T.stopReq.isNone)

/-- Is an entry ready? -/
def State.ready (s : State) (e : Entry) : Bool :=
  let xs := s.members e.id
  !xs.isEmpty && (e.state == .open || e.state == .issuing)
    && xs.all (fun x => (x.2.status == .running || x.2.status == .handler) && (x.2.hold == .none || x.2.hold == .passed) && x.1.mayIssue e
        && !(e.state == .open && (s.wg x.1.launch x.1.wg).state == .evicting))
    && (e.state != .open || s.waitsMet e xs)

/-! ## The choice (R302) -/

/-- The promoted entry that waits longest, else the one of least key, the older of equals. -/
def bestEntry (es : List Entry) : Option Entry :=
  es.foldl (fun (b : Option Entry) e => match b with
    | none => some e
    | some x =>
      match x.promo, e.promo with
      | some p, some q => if q < p then some e else b
      | some _, none => b
      | none, some _ => some e
      | none, none => if x.key.least e.key then b else some e) none

/-- Does an entry hold a thread of a team? -/
def State.holdsTeam (s : State) (e : Entry) (T : Team) : Bool := (s.members e.id).any (fun x => x.1.is T.launch T.wg T.idx)

/-- A slice's resident teams that have live threads, in the order of R302. -/
def State.sliceTeams (s : State) (core slice : Nat) : List Team :=
  sortBy (fun (a b : Team) => decide (a.span < b.span) || (a.span == b.span && decide (a.born ≤ b.born)))
    (s.teams.filter (fun T => T.core == core && T.slice == slice && !T.live.isEmpty))

/-- The teams that come after the one that had the last turn, which may be gone, and then the others. -/
def afterLast (last : Nat × Nat) (ts : List Team) : List Team :=
  let after := fun (T : Team) => decide (last.1 < T.span) || (T.span == last.1 && decide (last.2 < T.born + 1))
  ts.filter after ++ ts.filter (fun T => !after T)

/-! ## Deterministic workgroups (R405, R406) -/

/-- Does a team's turn pass at once: all its threads are held, parked, stopped or halted, or it has completed? -/
def State.turnPasses (s : State) (T : Team) : Bool :=
  (T.halted && T.stepping.isNone) || T.live.all (fun th =>
    th.status == .parked || th.status == .stopped || th.hold == .arrived
      || (match th.entry.bind s.entry? with | some e => e.state == .hold | none => false))

/-- Has a team begun a clause that is not over? DEDUCED, log entry 44. -/
def State.midClause (s : State) (T : Team) : Bool :=
  s.entries.any (fun e => (e.state == .issuing || e.state == .parked) && s.holdsTeam e T)

/-- The first team of a workgroup, from the one whose turn it is, whose turn does not pass; n is how many are looked at. -/
def State.turnAt (s : State) (W : Wg) : Nat → Nat → Option Nat
  | 0, _ => none
  | n + 1, t =>
    match s.team? W.launch W.id t with
    | some T => if s.turnPasses T then State.turnAt s W n (s.nextTurn W t) else some t
    | none => State.turnAt s W n (s.nextTurn W t)

/-- The rotation goes on past a turn whose clause is over, and past teams whose turn passes; where every team's does it stays at its place, so
that what follows depends on no other workgroup (R406, R413). DEDUCED, log entry 44. -/
def State.passTurns (s : State) (l w : Nat) : State :=
  let W := s.wg l w
  let gone := match s.team? l w W.turn with
    | some T => s.turnPasses T || (W.turnBegun && !s.midClause T)
    | none => true
  let W1 := if gone && W.turnBegun then { W with turn := s.nextTurn W W.turn, turnBegun := false } else W
  if !gone then s
  else
    match s.turnAt W1 ((s.teams.filter (fun T => T.launch == l && T.wg == w)).length + 1) W1.turn with
    | some t => s.setWg { W1 with turn := t, turnBegun := false }
    | none => s.setWg W1

/-- The entry of a deterministic team at its turn: the clause that it has begun, else the candidate of R302, ready or not. -/
def State.detEntry (s : State) (T : Team) : Option Entry :=
  let es := s.entries.filter (fun e => s.holdsTeam e T)
  let begun := es.filter (fun e => (e.state == .issuing || e.state == .parked) && !(s.members e.id).all (·.2.hold == .arrived))
  match begun with
  | e :: _ => some e
  | [] => bestEntry (es.filter (·.state == .open))

/-- The entry that a team may issue at its turn, and the entries that age by the choice. The turn of a deterministic team is one whole clause:
going on after a marker is the same turn, and ages nothing again; what ages by it does so once the clause has been read (R406, R407). DEDUCED, log
entry 43. -/
def State.candidate (s : State) (T : Team) : Option (Entry × List Entry) :=
  let W := s.wg T.launch T.wg
  if (s.launch T.launch).recd.det then
    if W.turn != T.idx then none
    else match s.detEntry T with
      | none => none
      | some e =>
        if s.ready e then
          some (e, [])
        else none
  else
    let cs := (s.sliceEntries T.core T.slice).filter (fun e => s.holdsTeam e T && s.ready e)
    (bestEntry cs).map (fun e => (e, cs.filter (·.id != e.id)))

/-! ## A turn begins -/

/-- The node of a boundary's instance that holds a home core (R127, R128): phase.launch and phase.sys name one. -/
def LaunchRec.nodeOf (R : LaunchRec) (sc : Scope) (home : Nat) : Nat :=
  match sc with
  | .rect a b => (home / 32 - R.orow) / 2 ^ a * ((R.wd + 2 ^ b - 1) / 2 ^ b) + (home % 32 - R.ocol) / 2 ^ b
  | _ => 0

/-- The hang counts that start again when a thread issues a clause: those of the scopes that it is missing from (R306, R132). -/
def State.resetHangs (s : State) (xs : List (Team × Thread)) : State :=
  let es := s.entries.map (fun e =>
    if e.state != .hold then e
    else { e with counts := (s.holdScopes e).foldl (fun cs q =>
      if xs.any (fun x => x.1.is q.2.1.launch q.2.1.wg q.2.1.idx && q.2.2.2.any (·.lane == x.2.lane)) then setAt cs q.1 0 else cs) e.counts })
  { s with
    entries := es
    wgs := s.wgs.map (fun W => if xs.any (fun x => x.1.launch == W.launch && x.1.wg == W.id) then { W with barCount := 0 } else W)
    launches := s.launches.map (fun L =>
      { L with bounds := L.bounds.map (fun b =>
          if xs.any (fun x => x.1.launch == L.id && L.recd.nodeOf b.scope (s.wg L.id x.1.wg).home == b.node) then { b with count := 0 } else b) }) }

/-- A chosen entry issues: it leaves its boundary, the others age, and its workgroups run. The age of an OPEN one returns to 0 once its clause
has been read. -/
def State.commit (s : State) (T : Team) (e : Entry) (others : List Entry) : State :=
  let xs := s.members e.id
  let K := s.core T.core
  let e1 := if e.state = .open then { e with state := .issuing, slot := 0, begun := false, words := [], skips := [] }
    else { e with age := 0, promo := none, skips := [] }
  let s1 := (s.setCore { K with rot := setAt K.rot T.slice (T.span, T.born + 1) }).resetHangs xs
  let s2 : State := { s1 with
    entries := s1.entries.map (fun x => if x.id == e.id then e1 else if others.any (·.id == x.id) then { x with age := x.age + 1 } else x)
    wgs := s1.wgs.map (fun W =>
      if xs.any (fun x => x.1.launch == W.launch && x.1.wg == W.id) then
        { W with state := if W.state = .placed then .running else W.state
                 turnBegun := W.turnBegun || (s.launch W.launch).recd.det }
      else W)
    cur := some ⟨e.id, e1.slot⟩ }
  let s3 := s2.mapTeams (fun U =>
    let V := if U.stepping.isSome && xs.any (fun x => x.1.is U.launch U.wg U.idx) then
        { U with stepping := U.stepping.map (fun q => (q.1, some (e.id, (U.threads.filter (·.entry == some e.id)).map (·.lane)))) } else U
    V.mapThreads (fun th => if th.entry == some e.id then { th with inside := true } else th))
  ((xs.map (·.1.launch)).dedup).foldl State.evictRemoved s3

/-- A step of R420 ends: the team halts again with a record. DEDUCED, log entry 91. -/
def State.endStep (s : State) (T : Team) (held : Bool) : State :=
  match T.stepping with
  | none => s
  | some (tick, _) => (s.haltRecord T tick 1 0x183 held).updTeam T.launch T.wg T.idx (fun T => { T.release with stepping := none })

/-- Steps whose clause has ended, has come to a boundary, or never found a ready entry are over; HELD tells of the threads that issued it (R420). -/
def State.endSteps (s : State) (T : Team) : State :=
  match T.stepping with
  | none => s
  | some (_, none) => if (s.candidate T).isSome then s else s.endStep T true
  | some (_, some (k, lanes)) =>
    let mine := T.live.filter (·.entry == some k)
    let holds := T.live.any (fun th => lanes.contains th.lane && (th.hold == .arrived || match th.entry.bind s.entry? with | some e => e.state == .hold | none => false))
    if mine.isEmpty then s.endStep T holds
    else if mine.all (·.hold == .arrived) then s.endStep T true
    else s

/-- A team's turn comes: entries that pass it over after a yield have done so (R338). -/
def State.dropSkips (s : State) (T : Team) : State :=
  { s with entries := s.entries.map (fun e =>
      if e.launch == T.launch && e.skips.contains (T.wg, T.idx) then { e with skips := e.skips.erase (T.wg, T.idx) } else e) }

/-- The first team in the order that has a candidate takes the turn; one without gives its turn up. -/
def State.choose (s : State) : List Team → State
  | [] => s
  | T :: ts =>
    match s.candidate T with
    | some (e, others) => (s.dropSkips T).commit T e others
    | none => State.choose (s.dropSkips T) ts

/-- SLICE_ISSUE_TURN: what has come about since is settled, and the next team's chosen entry begins its issue. -/
def State.sliceTurn (s : State) (core slice : Nat) : State :=
  if s.cur.isSome then s
  else
    let s1 := s.settle core slice
    let ts := s1.sliceTeams core slice
    let s2 := ((ts.map (fun T => (T.launch, T.wg))).dedup).foldl (fun (a : State) q =>
      if (a.launch q.1).recd.det then a.passTurns q.1 q.2 else a) s1
    let s3 := ts.foldl (fun (a : State) T => match a.team? T.launch T.wg T.idx with
      | some T => a.endSteps T
      | none => a) s2
    s3.choose (afterLast ((s3.core core).rot.getD slice (0, 0)) (s3.sliceTeams core slice))

def execSliceIssueTurn (core slice : Nat) (s : State) : Host.Outcome State Fault Refusal := .next (s.sliceTurn core slice)

/-! ## From slot to slot -/

/-- The teams of a group count a slot in TICKD, and remember it while a stop is on its way or a fault may lead to one (R408, R419). -/
def State.countTeams (s : State) (ran : List Team) : State :=
  s.mapTeams (fun T =>
    if ran.any (fun U => T.is U.launch U.wg U.idx) then
      let late := !(s.core T.core).stopIn.isEmpty || T.stopReq.isSome || s.nlRecords.any (fun x => x.1 == T.launch && x.2.wg == T.wg)
        || T.threads.any (fun th => th.status == .parked || !th.defer.isEmpty || th.outst.any (·.fault.isSome))
      { T with tickd := T.tickd + 1, recent := if late then T.recent ++ [s.tick] else [] }
    else T)

/-- A slot that its group has reached counts once. -/
def State.countSlot (s : State) (e : Nat) (ran : List Team) : State :=
  match s.entry? e with
  | some E => if E.begun then s else (s.setEntry { E with begun := true, since := some s.tick }).countTeams ran
  | none => s.countTeams ran

/-- A lane that has executed its slot is done with it. -/
def Thread.slotEnds (th : Thread) (e : Nat) : Thread :=
  if th.issuing e && (th.hold == .none || th.hold == .passed) then { th with slotDone := true, hold := .none } else th

/-- A thread that was sent to its slot for one instruction alone, and is done with it, goes back to its place (R397). -/
def Thread.goBack (th : Thread) (e : Nat) : Thread :=
  match th.oneShot with
  | some (cl, sl, ins) =>
    if th.entry == some e && th.slotDone then
      { th with clause := cl, slot := sl, inside := ins, oneShot := none, entry := none, slotDone := false, hold := .none, next := none }
    else th
  | none => th

/-- The lanes of a team that have executed the slot are done with it; the threads of a bound team go back together (R239). -/
def Team.slotEnds (T : Team) (e : Nat) : Team :=
  let T1 := T.mapThreads (·.slotEnds e)
  if T1.bound && T1.threads.any (·.issuing e) then T1 else T1.mapThreads (·.goBack e)

/-- What follows when no thread of an entry is left in its clause: halts, the next keys, the end of a turn and of a step. -/
def State.afterClause (s : State) (core slice : Nat) (ran : List Team) : State :=
  let s1 := (((s.settleHalts).boundary core slice).endTurns ran).resolveHolds core slice
  ran.foldl (fun (a : State) T => match a.team? T.launch T.wg T.idx with
    | some T => a.endSteps T
    | none => a) { s1 with cur := none }

/-- The group finishes its clause. -/
def State.leaveClause (s : State) (E : Entry) (cnt : Nat) (ws : List (BitVec 32)) (ran : List Team) : State :=
  (s.mapTeams (s.finishTeam E.id cnt ws)).afterClause E.core E.slice ran

/-- Every lane has finished the slot: the group parks at a marker or after a yield (R338), ends its clause, or goes on to the next slot. -/
def State.goOn (s : State) (E : Entry) (slot : Nat) (h : Header) (ws : List (BitVec 32)) (ran : List Team) : State :=
  let k := slot + 1
  let set := fun (hold : Hold) => s.mapTeams (·.mapThreads (fun th =>
    if th.entry == some E.id then { th with slotDone := false, slot := k, hold := hold } else th))
  if bitAt h.swm slot || !E.skips.isEmpty then
    { (set (.at (if bitAt h.swm slot then 1 else 3))).setEntry { E with state := .parked, slot := k, begun := false, before := [] } with cur := none }
  else if h.cnt ≤ k then s.leaveClause E h.cnt ws ran
  else { (set .none).setEntry { E with slot := k, begun := false, before := [] } with cur := some ⟨E.id, k⟩ }

/-- After an instruction of a slot: a group with a lane that waits stays at the slot; a group that is gone leaves the table. -/
def State.afterSlot (s : State) (c : Cur) (h : Header) (ws : List (BitVec 32)) (ran : List Team) : State :=
  let s1 := (s.countSlot c.entry ran).mapTeams (·.slotEnds c.entry)
  match s1.entry? c.entry with
  | none => { s1 with cur := none }
  | some E =>
    if s1.teams.any (fun T => T.threads.any (·.issuing c.entry)) then { s1 with cur := none }
    else if (s1.members c.entry).isEmpty then s1.afterClause E.core E.slice ran
    else s1.goOn E c.slot h ws ran

/-! ## The clause buffer (R164, R181) -/

/-- The group of an entry has not begun its clause after all: its threads stand at their boundary, and its turn has not begun. -/
def State.unissue (s : State) (E : Entry) : State :=
  { s with
    cur := none
    wgs := s.wgs.map (fun (W : Wg) =>
      if (s.members E.id).any (fun x => x.1.launch == W.launch && x.1.wg == W.id) then { W with turnBegun := false } else W) }.mapTeams
    (·.mapThreads (fun th => if th.entry == some E.id then { th with inside := false, slotDone := false, hold := .none } else th))

/-- A group whose clause turns out to be a convergence point once it is read takes its keys again. -/
def State.rekey (s : State) (E : Entry) : State :=
  ((s.unissue E).mapTeams (·.mapThreads (fun th => if th.entry == some E.id then { th with entry := none } else th))).boundary E.core E.slice

/-- A group begins its clause, which has been read: in a deterministic launch the other OPEN entries of its team age by it (R407). -/
def State.startAges (s : State) (T : Team) (E E1 : Entry) : State :=
  let starts := (s.launch T.launch).recd.det && E.since.isNone && !E.begun && E.regroup.isNone
  { s with entries := s.entries.map (fun x =>
      if x.id == E.id then E1 else if starts && x.state == .open && s.holdsTeam x T then { x with age := x.age + 1 } else x) }

/-- Fetches the clause of the group; the words are there afterwards, or the group faults or waits. A clause that is read only now shows whether it
is a convergence point, and what its threads have still to wait for (R165, R301). DEDUCED, log entry 88. -/
def State.fetchGroup (s : State) (c : Cur) (E : Entry) : State :=
  match s.members E.id with
  | [] => { s with cur := none }
  | (T, _) :: _ =>
    match s.fetchClause (s.agent T) E.addr with
    | .ok s1 ws =>
      let first := c.slot = 0 && !E.begun
      if first && !E.point && (clauseKind ws (s.launch T.launch).priv).point then s1.rekey E
      else if first && !s1.waitsMet E (s1.members E.id) then (s1.setEntry { E with state := .open }).unissue E
      else s1.startAges T E (if first then { E with words := ws, age := 0, promo := none } else { E with words := ws })
    | .trap s1 x => (s1.groupFaultWith x id (c.slot != 0 || E.begun)).afterClause E.core E.slice (s.groupTeams c.entry)
    | .miss s1 va cause => { s1.fetchMiss c E.addr va cause 0 with cur := none }
    | .wait s1 => { s1.markGroup c .always (.at 0) with cur := none }

end Sys2Proof.Machine
end

