-- ==== Sys2Proof/Machine/Bound.lean ====
section
/-!
DEFINITION. Machine/Bound.lean: the completion of boundaries (07 R129 to R131, R138; 23 R447), the hang watchdogs (07 R132; 16 R306; 17 R331; 23
R421), stops that arrive and the debugger's commands (23 R419 to R423), and what a tick counts (00 R4; 23 R414, R425).
-/

namespace Sys2Proof.Machine

/-! ## Boundaries (R129 to R131) -/

/-- The live threads of a workgroup, with their teams. -/
def State.wgThreads (s : State) (l w : Nat) : List (Team × Thread) :=
  (s.teams.filter (fun T => T.launch == l && T.wg == w)).flatMap (fun T => T.live.map (fun th => (T, th)))

/-- phase.launch and phase.sys name one instance (R128). -/
def Scope.instance_ : Scope → Scope
  | .sys => .launch
  | sc => sc

/-- Has a workgroup arrived at a boundary of a scope, with every access that its threads issued performed? DEDUCED, log entry 89. -/
def State.wgArrived (s : State) (W : Wg) (sc : Scope) : Bool :=
  let xs := s.wgThreads W.launch W.id
  W.pend.map Scope.instance_ == some sc && xs.any (·.2.hold == .arrived) && xs.all (fun x => x.2.hold == .arrived && !s.replays (x.1.ref x.2))

/-- Has a workgroup a halted team (R447)? -/
def State.wgHalted (s : State) (W : Wg) : Bool := s.teams.any (fun T => T.launch == W.launch && T.wg == W.id && T.halted && !T.live.isEmpty)

/-- The participants of an instance: the workgroups homed in it that have not retired. -/
def State.participants (s : State) (L : Launch) (sc : Scope) (node : Nat) : List Wg :=
  s.wgs.filter (fun W => W.launch == L.id && W.state != .retired && L.recd.nodeOf sc W.home == node)

/-- The arrived threads of a workgroup pass its boundary. -/
def State.passWg (s : State) (W : Wg) : State :=
  (s.mapTeams (fun T => if T.launch == W.launch && T.wg == W.id then
    T.mapThreads (fun th => if th.hold == .arrived then { th with hold := .passed } else th) else T)).setWg
    { s.wg W.launch W.id with pend := none, barCount := 0 }

/-- WORKGROUP_BOUNDARY_COMPLETE. -/
def State.wgBoundary (s : State) (l w : Nat) : State :=
  let W := s.wg l w
  if s.wgArrived W .wg && !s.wgHalted W then s.passWg W else s

def execWorkgroupBoundaryComplete (w : WgRef) (s : State) : Host.Outcome State Fault Refusal := .next (s.wgBoundary w.launch w.wg)

/-- The sets whose carried bytes participants read. -/
def State.setsOf (s : State) (ws : List Wg) : List Carry := s.carries.filter (fun k => ws.any (·.carry.contains k.id))

/-- The cores on which participants run. -/
def coresOf (ws : List Wg) : List Nat := ((ws.map (·.core)).dedup).filter (· != noCore)

/-- Do the homes of the bytes that a boundary writes back all answer: is no link of theirs being trained again (R14, R131)? -/
def State.homesAnswer (s : State) (l : Nat) (ws : List Wg) : Bool :=
  ((s.setsOf ws).flatMap s.carryBacks ++ (coresOf ws).flatMap (fun c => s.viewBacks c l)).all (fun w =>
    w.bytes.all (fun c => match s.reach c.1 with | .wait => false | _ => true))

/-- Can the boundary of an instance complete? -/
def State.boundaryReady (s : State) (L : Launch) (sc : Scope) (node : Nat) : Bool :=
  let ws := s.participants L sc node
  sc != .wg && !ws.isEmpty && ws.all (fun W => s.wgArrived W sc && !s.wgHalted W) && s.homesAnswer L.id ws

/-- Carried bytes that no workgroup reads any more, and that have been written back, are freed. -/
def State.freeCarries (s : State) : State :=
  { s with carries := s.carries.filter (fun k => !k.written || s.wgs.any (fun W => W.carry.contains k.id)) }

/-- The bytes of the participants' views and carried sets go home and every clean line of their cores goes (R58, R125); then every participant
passes, and reads no carried bytes any more (R131, R138). A workgroup that is saved meanwhile acquires when it is restored. -/
def State.passInstance (s : State) (L : Launch) (sc : Scope) (node : Nat) : State :=
  let ws := s.participants L sc node
  let s2 := (coresOf ws).foldl State.cleanCore (s.bytesHome L.id (coresOf ws) (s.setsOf ws))
  let s3 := ws.foldl (fun (a : State) W => (a.passWg W).setWg { (a.passWg W).wg L.id W.id with carry := [] }) s2
  let L3 := s3.launch L.id
  (s3.setLaunch { L3 with bounds := L3.bounds.filter (fun b => !(b.scope == sc && b.node == node)) }).freeCarries

/-- PHASE_BOUNDARY_COMPLETE. -/
def State.phaseBoundary (s : State) (b : BoundaryRef) : State :=
  let L := s.launch b.launch
  let sc := Scope.instance_ b.scope
  let node := L.recd.nodeOf sc (s.wg b.launch b.wg).home
  if s.boundaryReady L sc node then s.passInstance L sc node else s

def execPhaseBoundaryComplete (b : BoundaryRef) (s : State) : Host.Outcome State Fault Refusal := .next (s.phaseBoundary b)

/-! ## The hang watchdogs (R132, R306, R331, R421) -/

/-- A limit of the launch record: 0 stands for 2^32 (R344). -/
def hangLimit (n : Nat) : Nat := if n = 0 then 2 ^ 32 else n

/-- Is a thread in a pause: parked or stopped, sleeping or waiting, saved, or in a halted team? -/
def State.paused (s : State) (T : Team) (th : Thread) : Bool :=
  th.status == .parked || th.status == .stopped || th.sleeps || T.halted || (s.wg T.launch T.wg).state == .saved

/-- Does the turn of a deterministic workgroup wait (R406)? -/
def State.detWaits (s : State) (l w : Nat) : Bool :=
  (s.launch l).recd.det && (match s.team? l w (s.wg l w).turn with
    | some T => !s.turnPasses T && (match s.detEntry T with | some e => !s.ready e | none => false)
    | none => false)

/-- A count one tick later. DEDUCED, log entry 86. -/
def hangCount (n : Nat) (missing : Bool) (pause waits : Bool) : Nat :=
  if pause then 0 else if missing && !waits then n + 1 else n

/-- The counts of a hold one tick later. -/
def State.tickHold (s : State) (e : Entry) : Entry :=
  if e.state != .hold then e
  else { e with counts := (s.holdScopes e).foldl (fun cs x =>
      let (q, T, held, miss) := x
      setAt cs q (hangCount (cs.getD q 0) (!miss.isEmpty) (miss.any (s.paused T) || (T.halted && !held.isEmpty)) (s.detWaits T.launch T.wg))) e.counts }

/-- Is a workgroup's pending boundary one of this scope? -/
def Wg.pends (W : Wg) (sc : Scope) : Bool := W.pend.map Scope.instance_ == some sc

/-- The threads of a workgroup that have not arrived at a boundary of a scope: where another boundary of it is pending, all. -/
def State.missingOf (s : State) (sc : Scope) (W : Wg) : List (Team × Thread) :=
  (s.wgThreads W.launch W.id).filter (fun x => !(W.pends sc && x.2.hold == .arrived))

/-- The count of a boundary one tick later. -/
def State.tickBoundary (s : State) (sc : Scope) (ws : List Wg) (n : Nat) : Nat :=
  let miss := ws.flatMap (s.missingOf sc)
  hangCount n (!miss.isEmpty) (miss.any (fun x => s.paused x.1 x.2) || ws.any s.wgHalted) (ws.any (fun W => s.detWaits W.launch W.id))

/-- The pending boundaries of a launch above workgroup scope: their instances. -/
def State.pending (s : State) (L : Launch) : List (Scope × Nat) :=
  ((s.wgs.filter (fun W => W.launch == L.id)).filterMap (fun W => match W.pend with
    | some .wg => none
    | some sc => some (Scope.instance_ sc, L.recd.nodeOf (Scope.instance_ sc) W.home)
    | none => none)).dedup

/-- The hang counts one tick later. -/
def State.tickHangs (s : State) : State :=
  { s with
    entries := s.entries.map s.tickHold
    wgs := s.wgs.map (fun W => if W.pend == some .wg then { W with barCount := s.tickBoundary .wg [W] W.barCount } else W)
    launches := s.launches.map (fun L => { L with bounds := (s.pending L).map (fun i =>
      let n := ((L.bounds.find? (fun b => b.scope == i.1 && b.node == i.2)).map (·.count)).getD 0
      { scope := i.1, node := i.2, count := s.tickBoundary i.1 (s.participants L i.1 i.2) n }) }) }

/-- CONVERGENCE_HANG: the held threads of each scope whose count has reached the limit fault. DEDUCED, log entry 85. -/
def State.convHang (s : State) (e : Entry) : State :=
  if e.state != .hold then s
  else (s.holdScopes e).foldl (fun (a : State) x =>
    let (q, T, held, miss) := x
    match miss with
    | [] => a
    | m :: _ =>
      if e.counts.getD q 0 < hangLimit (s.launch T.launch).recd.holdlimit then a
      else
        let low := miss.foldl (fun n th => min n th.lane) m.lane
        let one := s.record T (held.headD { lane := 0 }) e.addr 0 false { cause := 0x151, sub := low }
        held.foldl (fun (a : State) th =>
          a.updThread (T.ref th) (fun t => t.park (if T.bound then one else a.record T th e.addr 0 false { cause := 0x151, sub := low }) 0 false)) a) s

def execConvergenceHang (entry : Nat) (s : State) : Host.Outcome State Fault Refusal :=
  .next (match s.entry? entry with
    | some e => (s.convHang e).dropEmpty e.core e.slice
    | none => s)

/-- Every thread of the participants that has arrived at the boundary faults, and its arrival is withdrawn. -/
def State.barFault (s : State) (sc : Scope) (ws : List Wg) : State :=
  match (sortBy (fun (a b : Wg) => decide (a.id ≤ b.id)) ws).find? (fun W => !(s.missingOf sc W).isEmpty) with
  | none => s
  | some G =>
    let low := (s.missingOf sc G).foldl (fun n x => min n x.1.idx) 0xff
    let x : Trap := { cause := 0x150, sub := low, addr := BitVec.ofNat 64 G.id }
    (ws.filter (·.pends sc)).foldl (fun (a : State) W =>
      let xs := (s.wgThreads W.launch W.id).filter (·.2.hold == .arrived)
      let b := xs.foldl (fun (a : State) y =>
        let lead := if y.1.bound then y.1.live.headD y.2 else y.2
        a.updThread (y.1.ref y.2) (fun t => t.park (a.record y.1 lead t.clause t.slot false x) t.slot true)) a
      b.setWg { b.wg W.launch W.id with pend := none, barCount := 0 }) s

/-- BARRIER_HANG. -/
def State.barHang (s : State) (b : BoundaryRef) : State :=
  let L := s.launch b.launch
  let W := s.wg b.launch b.wg
  let limit := hangLimit L.recd.barlimit
  if b.scope = .wg then (if W.pend == some .wg && limit ≤ W.barCount then s.barFault .wg [W] else s)
  else
    let sc := Scope.instance_ b.scope
    let node := L.recd.nodeOf sc W.home
    match L.bounds.find? (fun k => k.scope == sc && k.node == node) with
    | some k => if limit ≤ k.count then s.barFault sc (s.participants L sc node) else s
    | none => s

def execBarrierHang (b : BoundaryRef) (s : State) : Host.Outcome State Fault Refusal := .next (s.barHang b)

/-! ## Stops and the debugger (R419 to R423) -/

/-- STOP_ARRIVAL: a stop that was broadcast arrives at a core. -/
def execStopArrival (core : Nat) (s : State) : Host.Outcome State Fault Refusal := .next (s.stopArrives core)

/-- DBG_HALT: a write of DBG_CMD with the HALT code. -/
def execDbgHalt (die : Nat) (v : BitVec 64) (s : State) : Host.Outcome State Fault Refusal :=
  .next (if v.toNat / 2 ^ 60 = 1 then s.dbgHaltCmd die v else s)

/-- DBG_RESUME: a write of DBG_CMD with the RESUME code. -/
def execDbgResume (die : Nat) (v : BitVec 64) (s : State) : Host.Outcome State Fault Refusal :=
  .next (if v.toNat / 2 ^ 60 = 2 then s.dbgResumeCmd die v else s)

/-- DBG_STEP: a write of DBG_CMD with the STEP code. -/
def execDbgStep (die : Nat) (v : BitVec 64) (s : State) : Host.Outcome State Fault Refusal :=
  .next (if v.toNat / 2 ^ 60 = 3 then s.dbgStepCmd die v else s)

/-! ## The windsock (R425) -/

/-- The reason of a ready entry that does not issue: another team's turn, or the issue limit of its die (R425, R434). UNVERIFIED, log entry 90. -/
def State.readyReason (s : State) (T : Team) : Nat :=
  if (s.die (dieOf T.core)).issueLimit != 0 && Config.withheld s.tick.toNat T.core then 13 else 3

/-- The reasons that a thread of a team gives in a cycle in which its team issues nothing. DEDUCED, log entry 37. -/
def State.reasonsOf (s : State) (T : Team) (th : Thread) : List Nat :=
  let own :=
    if T.halted || th.status == .stopped then 14
    else if th.status == .parked then 12
    else match th.hold with
      | .at r => if r = 1 && !s.resultsDue (T.ref th) th && ((th.entry.bind s.entry?).map (fun e => !e.skips.isEmpty)).getD false then 3 else r
      | .asleep _ => 15
      | .arrived => 7
      | _ =>
        match th.entry.bind s.entry? with
        | none => 15
        | some e =>
          match e.state with
          | .hold => 8
          | .parked => 1
          | .issuing => s.readyReason T
          | .open => if s.waitsMet e (s.members e.id) then s.readyReason T else 2
  if s.replays (T.ref th) then [own, 4] else [own]

/-- The order in which reasons are looked for. -/
def windsockOrder : List Nat := [14, 12, 13, 10, 9, 11, 7, 8, 5, 6, 4, 2, 1, 0, 15, 3]

/-- A team's windsock one cycle later. -/
def State.tickWindsock (s : State) (ran : List Team) (T : Team) : Team :=
  if T.core == noCore || T.live.isEmpty || ran.any (fun U => T.is U.launch U.wg U.idx) then T
  else
    let rs := T.live.flatMap (s.reasonsOf T)
    match windsockOrder.find? rs.contains with
    | some r => { T with windsock := setAt T.windsock r (T.windsock.getD r 0 + 1) }
    | none => T

/-! ## A tick -/

/-- One tick passes, in which these teams have issued a slot: the counters rise, and a tick equal to STOP_TICK gates every clock (R414). -/
def State.clock (s : State) (ran : List Team) : State :=
  let s1 := (s.mapTeams (s.tickWindsock ran)).tickHangs.feTick
  let t := s1.tick + 1
  { s1 with tick := t, gated := s1.gated || (s1.stopTick != 0 && t == s1.stopTick) }

end Sys2Proof.Machine
end

