-- ==== Sys2Proof/Machine/Xl.lean ====
section
/-!
DEFINITION. Machine/Xl.lean: the XL class: shuffles, votes, reductions, scans, zip and unzip (12 R224 to R234). An XL clause is
team-scoped, so its group is one team's.
-/

namespace Sys2Proof.Machine

/-! ## Shared operations -/

/-- The machine check of a lane that reads an entry with an uncorrectable error, of its own or of another lane (R225, R400). -/
def readsTrap (T : Team) (rs : List (Thread × Field)) : Option Trap := rs.findSome? (fun q => q.1.eccTrap T [q.2])

/-- An instruction whose lanes read each other: its sources xs, its destination d of wd bits, a check of the team before any
effect (R226), which entries each lane reads, and what it does, given G. -/
def State.xl (s : State) (g : Guard) (d : Dst) (wd : Nat) (xs uni : List Field) (pre : Team → List Thread → Option Trap)
    (reads : Team → List Thread → Thread → List (Thread × Field)) (f : Team → List Thread → Thread → Lane) (keep : Bool := false) : State :=
  s.checked g (dstRegs wd d ++ xs.flatMap (fun x => srcRegs x.w x.src)) (uniformFor d xs ++ uni) (fun s =>
    match (s.teams.filter (fun T => (s.cur.map (fun c => !(T.group c.entry).isEmpty)).getD false)).findSome?
        (fun T => pre T (s.lanesOf T g)) with
    | some x => s.groupFault x
    | none => s.perLane g (sDest d wd) (fun T th =>
        match readsTrap T (reads T (s.lanesOf T g) th) with
        | some x => .trap th x
        | none => f T (s.lanesOf T g) th) keep)

/-- No check before the effect. -/
def noPre (_ : Team) (_ : List Thread) : Option Trap := none

/-- Each lane reads a field of every lane of G. -/
def readsAll (x : Field) (_ : Team) (lanes : List Thread) (_ : Thread) : List (Thread × Field) := lanes.map (fun o => (o, x))

/-- No lane reads a register. -/
def readsNone (_ : Team) (_ : List Thread) (_ : Thread) : List (Thread × Field) := []

/-! ## Shuffles (R227) -/

/-- A shuffle: the source lane of each lane from its own number and its B. -/
def State.shuffle (s : State) (g : Guard) (d : Dst) (a b : Src) (src : Nat → Nat → Int) : State :=
  let from_ := fun (T : Team) (lanes : List Thread) (th : Thread) =>
    let k := src th.lane (readSrc (s.tickOf T) .int 32 T th b)
    (lanes.find? (fun o => 0 ≤ k && k < T.width && (o.lane : Int) == k)).getD th
  s.xl g d 32 [⟨2, a, 32⟩, ⟨3, b, 32⟩] [] noPre (fun T lanes th => [(th, ⟨3, b, 32⟩), (from_ T lanes th, ⟨2, a, 32⟩)])
    (fun T lanes th => laneWrite th d 32 (readSrc (s.tickOf T) .int 32 T (from_ T lanes th) a))

def execShflIdx (g : Guard) (d : Dst) (a b : Src) (s : State) : Host.Outcome State Fault Refusal := .next (s.shuffle g d a b (fun _ k => k))
def execShflUp (g : Guard) (d : Dst) (a b : Src) (s : State) : Host.Outcome State Fault Refusal := .next (s.shuffle g d a b (fun l k => (l : Int) - k))
def execShflDn (g : Guard) (d : Dst) (a b : Src) (s : State) : Host.Outcome State Fault Refusal := .next (s.shuffle g d a b (fun l k => (l : Int) + k))
def execShflXor (g : Guard) (d : Dst) (a b : Src) (s : State) : Host.Outcome State Fault Refusal := .next (s.shuffle g d a b (fun l k => (l ^^^ k : Nat)))

/-! ## Votes, broadcast and match (R228 to R230) -/

/-- What a lane does after the predicates ps of the lanes of G have been read (R225, R400). -/
def afterPreds (ps : List Nat) (f : Team → List Thread → Thread → Lane) (T : Team) (lanes : List Thread) (th : Thread) : Lane :=
  match predTrap lanes ps with
  | some x => .trap th x
  | none => f T lanes th

/-- A vote that sets a predicate of each lane of G, from the fields xs or the predicates ps of all of them. -/
def State.voteP (s : State) (g : Guard) (d : Nat) (xs : List Field) (ps : List Nat) (f : Team → List Thread → Bool) : State :=
  s.xl g .discard 32 xs [] noPre (fun _ lanes _ => xs.flatMap (fun x => lanes.map (fun o => (o, x))))
    (afterPreds ps (fun T lanes th => .done (th.setP d (f T lanes)) []))

def execVoteAll (g : Guard) (d a : Nat) (s : State) : Host.Outcome State Fault Refusal :=
  .next (s.voteP g d [] [a] (fun _ lanes => lanes.all (·.pred a)))
def execVoteAny (g : Guard) (d a : Nat) (s : State) : Host.Outcome State Fault Refusal :=
  .next (s.voteP g d [] [a] (fun _ lanes => lanes.any (·.pred a)))

/-- The mask of the lanes of G whose predicate is true. -/
def ballotMask (lanes : List Thread) (a : Nat) : Nat := lanes.foldl (fun m th => if th.pred a then m + 2 ^ th.lane else m) 0

/-- vote.ballot: the half of the mask that holds the lane's own bit. -/
def execVoteBallot (g : Guard) (d : Dst) (a : Nat) (s : State) : Host.Outcome State Fault Refusal :=
  .next (s.xl g d 32 [] [] noPre readsNone (afterPreds [a] (fun _ lanes th => laneWrite th d 32 (ballotMask lanes a / 2 ^ (32 * (th.lane / 32)) % 2 ^ 32))))

/-- vote.eq. -/
def execVoteEq (g : Guard) (d : Nat) (a : Src) (s : State) : Host.Outcome State Fault Refusal :=
  .next (s.voteP g d [⟨2, a, 32⟩] [] (fun T lanes =>
    let vs := lanes.map (fun th => readSrc (s.tickOf T) .int 32 T th a)
    vs.all (· == vs.headD 0)))

/-- lbcast. -/
def execLbcast (g : Guard) (d : Dst) (a b : Src) (s : State) : Host.Outcome State Fault Refusal :=
  let rd := fun T th x => readSrc (s.tickOf T) .int 32 T th x
  .next (s.xl g d 32 [⟨2, a, 32⟩, ⟨3, b, 32⟩] [⟨3, b, 32⟩]
    (fun T lanes => match lanes with
      | [] => none
      | th :: _ => if lanes.any (·.lane == rd T th b) then none else some { cause := 0x04d, sub := 0x01 })
    (fun T lanes th => [(th, ⟨3, b, 32⟩), ((lanes.find? (·.lane == rd T th b)).getD th, ⟨2, a, 32⟩)])
    (fun T lanes th => laneWrite th d 32 (rd T ((lanes.find? (·.lane == rd T th b)).getD th) a)))

/-- match. -/
def execMatchLanes (g : Guard) (d : Dst) (a : Src) (s : State) : Host.Outcome State Fault Refusal :=
  .next (s.xl g d 32 [⟨2, a, 32⟩] [] noPre (readsAll ⟨2, a, 32⟩) (fun T lanes th =>
    let rd := fun th => readSrc (s.tickOf T) .int 32 T th a
    let same := lanes.filter (fun o => rd o == rd th)
    let rank := (same.filter (·.lane < th.lane)).length
    laneWrite th d 32 (rank * 0x10000 + same.length * 0x100 + ((same.map (·.lane)).min?.getD 0))))

/-! ## Reductions and scans (R231 to R233) -/

/-- The bits of a value of a type. -/
def typeBits (t : Ty) : Nat :=
  match fmtOfTy t with
  | .flt t => (fmtOf t).bits
  | .int => intBits t

/-- Combine (R232). -/
def redCombine (op : RedOp) (t : Ty) (rm : Rm) (x y : FRes) : FRes :=
  let exc := x.exc ||| y.exc
  match fmtOfTy t, op with
  | .flt _, .add => let r := faddV t rm false (fval t x.bits) (fval t y.bits); ⟨r.bits, exc ||| r.exc⟩
  | .flt _, .min => let r := fminmax t false x.bits y.bits; ⟨r.bits, exc ||| r.exc⟩
  | .flt _, .max => let r := fminmax t true x.bits y.bits; ⟨r.bits, exc ||| r.exc⟩
  | _, .add => ⟨(x.bits + y.bits) % 2 ^ intBits t, exc⟩
  | _, .and => ⟨x.bits &&& y.bits, exc⟩
  | _, .or => ⟨x.bits ||| y.bits, exc⟩
  | _, .xor => ⟨x.bits ^^^ y.bits, exc⟩
  | _, .min => ⟨if intVal t x.bits ≤ intVal t y.bits then x.bits else y.bits, exc⟩
  | _, .max => ⟨if intVal t x.bits ≤ intVal t y.bits then y.bits else x.bits, exc⟩

/-- One level of the tree: neighbours combined, the lower lane on the left; an absent one passes the other unchanged. -/
def treeLevel (f : FRes → FRes → FRes) : List (Option FRes) → List (Option FRes)
  | some x :: some y :: l => some (f x y) :: treeLevel f l
  | x :: y :: l => x.or y :: treeLevel f l
  | l => l

/-- TreeReduce over 2^n lane positions (R232). -/
def treeReduce (f : FRes → FRes → FRes) : Nat → List (Option FRes) → Option FRes
  | 0, l => l.headD none
  | n + 1, l => treeReduce f n (treeLevel f l)

/-- The largest value of a floating type as R232 has it: +inf for f64, f32, f16 and bf16, the largest finite one otherwise. -/
def redTop : Ty → Nat
  | .f64 => infBits .f64
  | .f32 => infBits .f32
  | .f16 => infBits .f16
  | .bf16 => infBits .bf16
  | t => maxFinite t

/-- The identity of an operation (R232). -/
def redIdentity (op : RedOp) (t : Ty) : Nat :=
  match fmtOfTy t, op with
  | .flt t, .min => redTop t
  | .flt t, .max => withSign t true (redTop t)
  | .flt _, _ => 0
  | .int, .add | .int, .or | .int, .xor => 0
  | .int, .and => 2 ^ intBits t - 1
  | .int, .min => unsigned (intBits t) (intMax t)
  | .int, .max => unsigned (intBits t) (intMin t)

/-- The value of A in a lane, in the bits of its type; code 8 of e2m1 reads as +0 (R110). -/
def redRead (tick : BitVec 64) (t : Ty) (T : Team) (a : Src) (th : Thread) : Nat :=
  let x := readSrc tick (fmtOfTy t) t.opBits T th a % 2 ^ typeBits t
  if t = .e2m1 ∧ x = 8 then 0 else x

/-- The register image of a result. -/
def redReg (t : Ty) (x : Nat) : Nat :=
  match fmtOfTy t with
  | .flt _ => x
  | .int => intReg t (intVal t x)

/-- red and scan: set says which lanes each lane's result covers. -/
def State.reduce (s : State) (g : Guard) (op : RedOp) (t : Ty) (rm : Rm) (d : Dst) (a : Src) (set : Nat → Nat → Bool) : State :=
  let w := t.opBits
  s.xl g d w [⟨2, a, w⟩] [] noPre (fun _ lanes th => (lanes.filter (fun o => set th.lane o.lane)).map (fun o => (o, ⟨2, a, w⟩))) (fun T lanes th =>
    let vs := (List.range T.width).map (fun j =>
      if set th.lane j then (lanes.find? (·.lane == j)).map (fun o => (⟨redRead (s.tickOf T) t T a o, 0⟩ : FRes)) else none)
    let r := (treeReduce (redCombine op t rm) T.width.log2 vs).getD ⟨redIdentity op t, 0⟩
    raising th r.exc (fun th => laneWrite th d w (redReg t r.bits))) true

def execRedAddI32 (g : Guard) (d : Dst) (a : Src) (s : State) : Host.Outcome State Fault Refusal :=
  .next (s.reduce g .add .i32 .rne d a (fun _ _ => true))
def execRedAddF32 (g : Guard) (d : Dst) (a : Src) (s : State) : Host.Outcome State Fault Refusal :=
  .next (s.reduce g .add .f32 .rne d a (fun _ _ => true))
def execScanAddI32 (g : Guard) (d : Dst) (a : Src) (s : State) : Host.Outcome State Fault Refusal :=
  .next (s.reduce g .add .i32 .rne d a (fun l j => decide (j ≤ l)))
def execRed (g : Guard) (op : RedOp) (ty : Ty) (rm : Rm) (d : Dst) (a : Src) (s : State) : Host.Outcome State Fault Refusal :=
  .next (s.reduce g op ty rm d a (fun _ _ => true))
def execScan (g : Guard) (op : RedOp) (ty : Ty) (rm : Rm) (excl : Bool) (d : Dst) (a : Src) (s : State) : Host.Outcome State Fault Refusal :=
  .next (s.reduce g op ty rm d a (fun l j => if excl then decide (j < l) else decide (j ≤ l)))

/-! ## zip and unzip (R234) -/

/-- Element n of register group k registers long that starts at A, of b-bit elements over a team (R234). -/
def zipElem (tick : BitVec 64) (b k : Nat) (T : Team) (a : Src) (n : Nat) : Nat :=
  let e := 32 / b
  let w := T.width * e
  match T.threads.find? (·.lane == n % w / e) with
  | none => 0
  | some th => readSrc tick .int (32 * k) T th a / 2 ^ (32 * (n / w) + b * (n % e)) % 2 ^ b

/-- The place in the source group of the element that goes to place n of the destination group. -/
def zipPlace (unzip : Bool) (k w n : Nat) : Nat :=
  if unzip then k * (n % w) + n / w else n % k * w + n / k

/-- The register a number of places after a source's first. -/
def srcPlus : Src → Nat → Src
  | .v n, k => .v (n + k)
  | .w n, k => .w (n + k)
  | x, _ => x

/-- The entries that hold the elements a lane's results are made of. -/
def zipReads (unzip : Bool) (b k : Nat) (a : Src) (T : Team) (_ : List Thread) (th : Thread) : List (Thread × Field) :=
  let e := 32 / b
  let w := T.width * e
  (List.range k).flatMap (fun r => (List.range e).filterMap (fun i =>
    let n := zipPlace unzip k w (r * w + th.lane * e + i)
    (T.threads.find? (·.lane == n % w / e)).map (fun o => (o, ⟨2, srcPlus a (n / w), 32⟩))))

/-- zip and unzip. -/
def State.zipOp (s : State) (unzip : Bool) (g : Guard) (ty : Ty) (k : Nat) (d : Dst) (a : Src) : State :=
  let b := intBits ty
  s.xl g d (32 * k) [⟨2, a, 32 * k⟩] []
    (fun T lanes => if lanes.length = T.width then none else some { cause := 0x04d, sub := 0x02 })
    (zipReads unzip b k a) (fun T _ th =>
      let e := 32 / b
      let w := T.width * e
      let reg := fun r => joinElems b ((List.range e).map (fun i =>
        zipElem (s.tickOf T) b k T a (zipPlace unzip k w (r * w + th.lane * e + i))))
      let val := joinElems 32 ((List.range k).map reg)
      .done ((th.put d (32 * k) val).shiftY (val % 2 ^ 32)) [])

def execZip (g : Guard) (ty : Ty) (k : Nat) (d : Dst) (a : Src) (s : State) : Host.Outcome State Fault Refusal := .next (s.zipOp false g ty k d a)
def execUnzip (g : Guard) (ty : Ty) (k : Nat) (d : Dst) (a : Src) (s : State) : Host.Outcome State Fault Refusal := .next (s.zipOp true g ty k d a)

end Sys2Proof.Machine
end

