-- ==== Sys2Proof/Machine/Limb.lean ====
section
/-!
DEFINITION. Machine/Limb.lean: Bridle mode: binding a team and the bound-limb instructions (13 R235 to R250).
-/

namespace Sys2Proof.Machine

/-! ## The binding state (R235, R236) -/

/-- The limb width b. -/
def Team.limbBits (T : Team) : Nat := if T.blc.getLsbD 23 then 64 else 32

/-- The window exponent. -/
def Team.wexp (T : Team) : Int := (T.blc.extractLsb' 0 13).toInt

/-- The bits of a bound number, N = L * b. -/
def Team.boundBits (T : Team) : Nat := T.width * T.limbBits

/-- The source that names what a destination names. -/
def Dst.asSrc : Dst → Src
  | .v n => .v n
  | .w n => .w n
  | .s n => .s n
  | .pm n => .pm n
  | .discard => .zero

/-- May a field name a bound number of b-bit limbs (R240)? -/
def limbField (b : Nat) : Src → Bool
  | .v n | .w n => b = 32 || n % 2 == 0
  | _ => false

/-- LimbValue (R236). -/
def Team.limbValue (T : Team) (x : Src) : Int :=
  let b := T.limbBits
  let u := joinElems b ((List.range T.width).map (fun i => match T.threads.find? (·.lane == i) with
    | some th => readSrc 0 .int b T th x
    | none => 0))
  if 2 ^ (T.boundBits - 1) ≤ u then (u : Int) - (2 ^ T.boundBits : Nat) else u

/-- Does a value fit a bound number? -/
def Team.fits (T : Team) (x : Int) : Bool :=
  decide (-(2 ^ (T.boundBits - 1) : Nat) ≤ x) && decide (x < (2 ^ (T.boundBits - 1) : Nat))

/-- WriteLimbs in one lane (R236): its own limb with the last-result shift; lane 0 holds the overflow flag. -/
def writeLimb (T : Team) (th : Thread) (d : Dst) (x : Int) : Lane :=
  let b := T.limbBits
  let th1 := if th.lane = 0 && !T.fits x then th.setP 11 true else th
  .done (th1.writeDest d b (unsigned T.boundBits x / 2 ^ (b * th.lane) % 2 ^ b)) []

/-! ## bind and unbind (R237, R238) -/

/-- Applies an effect to the one team of the group, or a fault to the group, naming lane 0 (R240). -/
def State.teamOp (s : State) (g : Guard) (f : Team → List Thread → Except Trap (Team → Team)) : State :=
  match s.cur with
  | none => s
  | some c =>
    match s.groupTeams c.entry with
    | [] => s
    | T :: _ =>
      match f T (T.executing c.entry g) with
      | .error x => s.groupFaultAt x 0
      | .ok k => s.updTeam T.launch T.wg T.idx k

/-- bind. -/
def execBind (g : Guard) (ty : Ty) (n : Nat) (s : State) : Host.Outcome State Fault Refusal :=
  .next (s.teamOp g (fun T lanes =>
    if lanes.isEmpty then .ok id
    else if 16 * 2 ^ n ≠ T.width then .error { cause := 0x045, sub := 0x03 }
    else if T.bound || lanes.length != T.width then .error { cause := 0x045, sub := 0x04 }
    else .ok (fun T =>
      { T.mapThreads (fun th => if th.lane = 0 then th.setP 11 false else th) with
        blc := BitVec.ofNat 32 (2 ^ 31 + n * 2 ^ 24 + (if ty = .n64 then 2 ^ 23 else 0)) })))

/-- unbind. -/
def execUnbind (g : Guard) (s : State) : Host.Outcome State Fault Refusal :=
  .next (s.teamOp g (fun T lanes =>
    if !T.bound || lanes.isEmpty then .ok id
    else if lanes.length ≠ T.live.length then .error { cause := 0x044, sub := 0x02 }
    else .ok (fun T => { T with blc := 0 })))

/-! ## The steps of a limb instruction (R239, R241) -/

/-- Do a destination and a source meet: two runs of registers of one file, or one predicate mask? -/
def meets (d : Dst) (wd : Nat) (x : Src) (w : Nat) : Bool :=
  let touch := fun (n m : Nat) => decide (n < m + w / 32) && decide (m < n + wd / 32)
  match d, x with
  | .v n, .v m => touch n m
  | .w n, .w m => touch n m
  | .s n, .s m => touch n m
  | .pm n, .pm m => n == m
  | _, _ => false

/-- Is a result outstanding in some thread of the team whose destination the instruction reads (R241)? DEDUCED, log entry 36. -/
def State.limbWaits (s : State) (T : Team) (xs : List Field) : Bool :=
  T.live.any (fun th =>
    ((th.outst.map (fun q => (q.dst, q.bits))) ++ s.replayDsts (T.ref th)).any (fun q => xs.any (fun x => meets q.1 q.2 x.src x.w)))

/-- The deferred fault in which a result that the instruction reads has ended (R241). DEDUCED, log entry 36. -/
def Team.limbFault (T : Team) (xs : List Field) : Option Record :=
  T.live.findSome? (fun th => th.defer.find? (fun r => match r.dst with
    | some q => xs.any (fun x => meets q.1 q.2 x.src x.w)
    | none => false))

/-- A bound team parks with a deferred fault in place of an instruction that it does not perform (R241, R249). -/
def State.parkLimb (s : State) (T : Team) (c : Cur) (r : Record) : State :=
  s.updTeam T.launch T.wg T.idx (fun U =>
    (U.mapThreads (fun th => { th with defer := th.defer.erase r })).parkAll c.entry c.slot r)

/-- The checks of R239 to R241 after 0x041: the fault of the group, nothing to do, or go on. -/
def limbCheck (T : Team) (lanes : List Thread) (named : List Src) : Except Trap Bool :=
  if lanes.isEmpty then .ok false
  else if !T.bound then .error { cause := 0x045, sub := 0x01 }
  else if !(named.all (limbField T.limbBits)) then .error { cause := 0x045, sub := 0x02 }
  else if lanes.length ≠ T.live.length then .error { cause := 0x044, sub := 0x02 }
  else .ok true

/-- The limb width of the group's team, 32 where there is none. -/
def State.groupLimbBits (s : State) : Nat :=
  match s.cur with
  | none => 32
  | some c => ((s.groupTeams c.entry).head?.map Team.limbBits).getD 32

/-- A limb instruction: the bound number it writes if any, the fields it reads that name bound numbers, the other sources, those
that must be uniform, the destination with its width where it is an ordinary one, and what each lane does once nothing it reads
is outstanding. -/
def State.limb (s : State) (g : Guard) (dn : List Src) (named : List (Nat × Src)) (others uni : List Field) (d : Dst) (wd : Nat)
    (f : Team → Thread → Lane) (keep : Bool := false) : State :=
  let b := s.groupLimbBits
  let xs : List Field := named.map (fun q => ⟨q.1, q.2, b⟩) ++ others
  s.checked g (dstRegs wd d ++ dn.flatMap (srcRegs b) ++ xs.flatMap (fun x => srcRegs x.w x.src)) (uniformFor d xs ++ uni) (fun s =>
    match s.cur with
    | none => s
    | some c =>
      match s.groupTeams c.entry with
      | [] => s
      | T :: _ =>
        match limbCheck T (T.executing c.entry g) (dn ++ named.map (·.2)) with
        | .error x => s.groupFaultAt x 0
        | .ok false => s
        | .ok true =>
          if s.limbWaits T xs then s.perLane g [] (fun _ th => .wait th 1)
          else match T.limbFault xs with
            | some r => s.parkLimb T c r
            | none => s.perLane g (sDest d wd) (withEcc xs f) keep)

/-! ## Arithmetic on the number (R242 to R244) -/

/-- A limb instruction that writes a bound number. -/
def State.limbWrite (s : State) (g : Guard) (d : Dst) (srcs : List (Nat × Src)) (f : Team → Int) : State :=
  s.limb g [Dst.asSrc d] srcs [] [] .discard 32 (fun T th => writeLimb T th d (f T))

def execWadd (g : Guard) (d : Dst) (a b : Src) (s : State) : Host.Outcome State Fault Refusal :=
  .next (s.limbWrite g d [(2, a), (3, b)] (fun T => T.limbValue a + T.limbValue b))
def execWsub (g : Guard) (d : Dst) (a b : Src) (s : State) : Host.Outcome State Fault Refusal :=
  .next (s.limbWrite g d [(2, a), (3, b)] (fun T => T.limbValue a - T.limbValue b))
def execWneg (g : Guard) (d : Dst) (a : Src) (s : State) : Host.Outcome State Fault Refusal :=
  .next (s.limbWrite g d [(2, a)] (fun T => -T.limbValue a))
def execWclr (g : Guard) (d : Dst) (s : State) : Host.Outcome State Fault Refusal :=
  .next (s.limbWrite g d [] (fun _ => 0))

/-- A shift of a bound number by a uniform count. -/
def State.limbShift (s : State) (g : Guard) (d : Dst) (a b : Src) (f : Team → Int → Nat → Int) : State :=
  s.limb g [Dst.asSrc d] [(2, a)] [⟨3, b, 32⟩] [⟨3, b, 32⟩] .discard 32 (fun T th =>
    writeLimb T th d (f T (T.limbValue a) (readSrc (s.tickOf T) .int 32 T th b)))

/-- wshl: a shift by N or more leaves nothing, and does not fit unless the number is 0. -/
def wshlValue (T : Team) (x : Int) (k : Nat) : Int := if x = 0 then 0 else x * 2 ^ min k T.boundBits
/-- wshr: the floor; a shift by N or more leaves the sign. -/
def wshrValue (T : Team) (x : Int) (k : Nat) : Int := x / 2 ^ min k T.boundBits

def execWshl (g : Guard) (d : Dst) (a b : Src) (s : State) : Host.Outcome State Fault Refusal := .next (s.limbShift g d a b wshlValue)
def execWshr (g : Guard) (d : Dst) (a b : Src) (s : State) : Host.Outcome State Fault Refusal := .next (s.limbShift g d a b wshrValue)

/-- A limb instruction that writes a sign to an ordinary 32-bit destination. -/
def State.limbSign (s : State) (g : Guard) (d : Dst) (srcs : List (Nat × Src)) (f : Team → Int) : State :=
  s.limb g [] srcs [] [] d 32 (fun T th => laneWrite th d 32 (unsigned 32 (f T).sign))

def execWsign (g : Guard) (d : Dst) (a : Src) (s : State) : Host.Outcome State Fault Refusal :=
  .next (s.limbSign g d [(2, a)] (fun T => T.limbValue a))
def execWcmp (g : Guard) (d : Dst) (a b : Src) (s : State) : Host.Outcome State Fault Refusal :=
  .next (s.limbSign g d [(2, a), (3, b)] (fun T => T.limbValue a - T.limbValue b))

/-! ## wwin, wmac.f64 and wnorm.f64 (R245 to R247) -/

/-- wwin. -/
def execWwin (g : Guard) (a : Src) (c : Int) (s : State) : Host.Outcome State Fault Refusal :=
  .next (s.checked g (srcRegs 32 a) [⟨2, a, 32⟩] (fun s =>
    match s.cur with
    | none => s
    | some cu =>
      match s.groupTeams cu.entry with
      | [] => s
      | T :: _ =>
        let lanes := T.executing cu.entry g
        match limbCheck T lanes [] with
        | .error x => s.groupFaultAt x 0
        | .ok false => s
        | .ok true =>
          if s.limbWaits T [⟨2, a, 32⟩] then s.perLane g [] (fun _ th => .wait th 1)
          else match T.limbFault [⟨2, a, 32⟩] with
          | some r => s.parkLimb T cu r
          | none =>
            let e : Int := ((lanes.head?.map (fun th => (readBv (s.tickOf T) .int 32 T th a).toInt)).getD 0) + c
            let bad := decide (e < -4096) || decide (4095 < e)
            let s1 := s.perLane g [] (withEcc [⟨2, a, 32⟩] (fun _ th =>
              if bad then .trap th { cause := 0x046, sub := 0x04 } else .done th []))
            if bad || lanes.any (fun th => (th.eccTrap T [⟨2, a, 32⟩]).isSome) then s1
            else s1.updTeam T.launch T.wg T.idx (fun T =>
              { T with blc := BitVec.ofNat 32 (T.blc.toNat / 2 ^ 13 * 2 ^ 13 + unsigned 13 e) })))

/-- Is the operand uniform for wmac.f64 (R246)? -/
def macUniform : Src → Bool
  | .s _ | .one | .zero | .imm _ => true
  | _ => false

/-- The product of two finite f64 values in units of 2^WEXP: none where one is not finite, none within where a part lies
below. -/
def macProduct (wexp : Int) (x y : FVal) : Option (Option Int) :=
  match x, y with
  | .fin n1 m1 e1, .fin n2 m2 e2 =>
    let n := smant (n1 != n2) (m1 * m2)
    let e := e1 + e2 - wexp
    if 0 ≤ e then some (some (n * 2 ^ e.toNat))
    else some (if n % 2 ^ (-e).toNat = 0 then some (n / 2 ^ (-e).toNat) else none)
  | _, _ => none

/-- wmac.f64. -/
def execWmacF64 (g : Guard) (d : Dst) (a b : Src) (s : State) : Host.Outcome State Fault Refusal :=
  .next (s.limb g [] [(1, Dst.asSrc d)] [⟨2, a, 64⟩, ⟨3, b, 64⟩] [] .discard 32 (fun T th =>
    let rd := fun th x => fval .f64 (readFlt (s.tickOf T) .f64 T th x)
    let prod := fun th => macProduct T.wexp (rd th a) (rd th b)
    match prod th with
    | none => .trap th { cause := 0x046, sub := 0x03 }
    | some none => .trap th { cause := 0x046, sub := 0x01 }
    | some (some own) =>
      let all := T.live.map (fun th => match prod th with | some (some k) => k | _ => 0)
      let k := if macUniform a && macUniform b then own else all.sum
      if T.live.all (fun th => match prod th with | some (some _) => true | _ => false) && !(decide (k.natAbs < 2 ^ (T.boundBits - 1))) then
        .trap th { cause := 0x046, sub := 0x02 }
      else writeLimb T th d (T.limbValue (Dst.asSrc d) + k)))

/-- wnorm.f64. -/
def execWnorm (g : Guard) (rm : Rm) (d : Dst) (a : Src) (s : State) : Host.Outcome State Fault Refusal :=
  .next (s.limb g [] [(2, a)] [] [] d 64 (fun T th =>
    floatWrite th d 64 (roundDyadic .f64 rm false false false (T.limbValue a) T.wexp)) true)

end Sys2Proof.Machine
end

