-- ==== Sys2Proof/Machine/Policy.lean ====
section
/-!
DEFINITION. Machine/Policy.lean: Gondola's policy for faults (21 R395, R398, R399; 15 R288; 23 R419, R448), and user cores that fail (24 R431 to R433;
02 R48, R50).
-/

namespace Sys2Proof.Machine

/-! ## The POLICY word (R398) -/

/-- The actions. -/
inductive Action where
  | kill | stop | skip | retry | forward
  deriving DecidableEq, Repr

/-- The lowest bit of the field that a cause reads; none for a cause of no field. -/
def policyField (r : Record) : Option Nat :=
  let c := r.cause
  if isMachineCheck c then some 32
  else if 0x1c0 ≤ c ∧ c ≤ 0x1df then some 28
  else if 0x1a0 ≤ c ∧ c ≤ 0x1bf then some 24
  else if 0x180 ≤ c ∧ c ≤ 0x19f then some 20
  else if 0x140 ≤ c ∧ c ≤ 0x17f then some 16
  else if 0x100 ≤ c ∧ c ≤ 0x13f then some 12
  else if 0x080 ≤ c ∧ c ≤ 0x0bf then some 8
  else if 0x040 ≤ c ∧ c ≤ 0x07f then some 4
  else if 0x001 ≤ c ∧ c ≤ 0x03f then some 0
  else none

/-- The action that a policy gives a record of a launch with this handler. -/
def policyAction (policy handler : BitVec 64) (r : Record) : Action :=
  match policyField r with
  | none => .kill
  | some lo =>
    match policy.toNat / 2 ^ lo % 16 with
    | 1 => .stop
    | 2 => if lo = 32 ∨ r.nl then .kill else .skip
    | 3 => if r.nl then .kill else .retry
    | 4 => if lo = 32 ∨ r.nl ∨ r.nest ∨ handler = 0 then .kill else .forward
    | _ => .kill

/-- The action for a record of a launch. -/
def Launch.action (L : Launch) (r : Record) : Action := policyAction L.policy L.recd.handler r

/-! ## The threads that an action covers (R249, R287, R395) -/

/-- The lanes that stand or fall with a thread: its whole team while bound, its quarter for a stopped matrix operation. -/
def Team.unitOf (T : Team) (th : Thread) (r : Record) : List Thread :=
  if T.bound then T.live
  else if r.matrix then T.live.filter (fun x => x.lane / 8 == th.lane / 8)
  else [th]

/-- Does a thread wait for an action: the policy's own, or a debugger's for a STOPPED thread? -/
def State.awaitsAction (s : State) (T : Team) (th : Thread) (r : Record) (act : Action) : Bool :=
  let L := s.launch T.launch
  let all_ := (T.unitOf th r).all (fun x => x.status == th.status && (x.record.map (·.matrix)) == some r.matrix)
  !L.done && all_ && !(r.matrix && T.core == noCore) && !(act == .retry && s.retryBlocked T r)
    && ((th.status == .parked && !th.handled L.recd.handler && L.action r == act)
      || (th.status == .stopped && (act == .kill || act == .skip || act == .retry)))

/-- Changes the threads of a list in their team. -/
def Team.mapLanes (T : Team) (xs : List Thread) (f : Thread → Thread) : Team :=
  T.mapThreads (fun th => if xs.any (·.lane == th.lane) then f th else th)

/-- The stopped matrix operations of the quarters of a unit are let go, or start again. -/
def State.leaveUnit (s : State) (T : Team) (xs : List Thread) (r : Record) (retry : Bool) : State :=
  if !r.matrix then s
  else ((xs.map (fun th => th.lane / 8)).dedup).foldl (fun a q =>
    match (a.team? T.launch T.wg T.idx).bind (fun T => (T.stoppedOf r q).map (fun o => (T, o))) with
    | some (T, o) => a.leaveMatrix T o retry
    | none => a) s

/-- The tick that a HALT record of the policy's names: that of the hit, for a watchpoint (R419). DEDUCED, log entry 84. -/
def Record.haltTick (r : Record) : BitVec 64 := if r.cause = 0x182 then r.hit else r.tick

/-- Performs an action on the unit of a thread. The record of a STOPPED thread has been delivered before; a team that is halted already stays so. -/
def State.actThread (s : State) (T : Team) (th : Thread) (r : Record) (act : Action) : State :=
  let xs := T.unitOf th r
  let s0 := if th.status == .parked then s.deliver (s.launch T.launch).die r else s
  let upd := fun (a : State) (f : Team → Team) => a.updTeam T.launch T.wg T.idx f
  match act with
  | .kill => s0.kill T.launch r.cause r.sub
  | .stop => (upd s0 (fun T =>
      { T.mapLanes xs (fun x => { x with status := .stopped }) with stopReq := if T.halted then T.stopReq else T.stopReq.or (some (r.haltTick, r.cause)) })).settleHalts
  | .skip => upd (s0.leaveUnit T xs r false) (fun T => T.mapLanes xs (·.resume false))
  | .retry => upd (s0.leaveUnit T xs r true) (fun T => T.mapLanes xs (·.resume true))
  | .forward => upd s0 (fun T => T.mapLanes xs (·.enterHandler (s.launch T.launch).recd.handler))

/-- Performs an action on a record without a thread (R398). -/
def State.actUnit (s : State) (i : Nat) (act : Action) : State :=
  let n := s.nlRecords.length
  match (s.nlRecords ++ s.nlStopped)[i]? with
  | none => s
  | some (l, r) =>
    let L := s.launch l
    if L.done then { s with nlRecords := s.nlRecords.erase (l, r), nlStopped := s.nlStopped.erase (l, r) }
    else if i < n then
      if L.action r != act then s
      else
        let s1 := { s.deliver L.die r with nlRecords := s.nlRecords.eraseIdx i }
        match act with
        | .stop =>
          let s2 := { s1 with nlStopped := s1.nlStopped ++ [(l, r)] }
          (s2.mapTeams (fun T =>
            if T.launch == l && T.wg == r.wg && !T.halted then { T with stopReq := T.stopReq.or (some (r.haltTick, r.cause)) } else T)).settleHalts
        | _ => s1.kill l r.cause r.sub
    else if act == .kill then State.kill { s with nlStopped := s.nlStopped.eraseIdx (i - n) } l r.cause r.sub
    else s

/-- An action on the object that a policy operation names. -/
def State.act (s : State) (t : PolicyRef) (act : Action) : State :=
  match t with
  | .unit i => s.actUnit i act
  | .thread ref =>
    match s.thread? ref with
    | none => s
    | some (T, th) =>
      match th.record with
      | none => s
      | some r => if s.awaitsAction T th r act then s.actThread T th r act else s

def execPolicyKill (t : PolicyRef) (s : State) : Host.Outcome State Fault Refusal := .next (s.act t .kill)
def execPolicyStop (t : PolicyRef) (s : State) : Host.Outcome State Fault Refusal := .next (s.act t .stop)
def execPolicySkip (t : PolicyRef) (s : State) : Host.Outcome State Fault Refusal := .next (s.act t .skip)
def execPolicyRetry (t : PolicyRef) (s : State) : Host.Outcome State Fault Refusal := .next (s.act t .retry)
def execPolicyForward (t : PolicyRef) (s : State) : Host.Outcome State Fault Refusal := .next (s.act t .forward)

/-! ## Cores that fail (R432, R433) -/

/-- SPARES of a die in DEVICE_HEALTH: one more, at most 3 (R431). -/
def bumpSpares (h : BitVec 64) (die : Nat) : BitVec 64 :=
  let lo := 32 + 2 * die
  if h.toNat / 2 ^ lo % 4 = 3 then h else h + (1#64 <<< lo)

/-- CORE_SELF_CHECK_FAIL: 0x1E1, raised to Gondola without a thread; of a user core, the failures count, and the launches with workgroups on it are
killed (R400, R431, R432). The sub-code is the physical core. DESIGN CHOICE, log entry 130. -/
def State.coreFails (s : State) (core : Nat) : State :=
  let K := s.core core
  let d := dieOf core
  let s1 := (s.setCore { K with failed := true }).unitFails d core
  if K.failed then s
  else if !(List.range 32).any (fun n => s.meshCore d n == some core) then s1
  else
    let D := s1.die d
    let s2 : State := { s1.setDie d { D with failures := D.failures + 1 } with deviceHealth := bumpSpares s1.deviceHealth d }
    let s3 := if s2.deviceHealth.toNat / 2 ^ (32 + 2 * d) % 4 = 2 then s2.serviceReq else s2
    (((s.wgs.filter (fun W => W.core == core && W.state != .retired && W.state != .saved)).map (·.launch)).dedup).foldl
      (fun a l => a.killWith l ((a.launch l).unitRecord { cause := 0x1e1, sub := core } 0 a.tick)) s3

def execCoreSelfCheckFail (core : Nat) (s : State) : Host.Outcome State Fault Refusal := .next (s.coreFails core)

/-- Is this a device context boundary: no user core holds a resident workgroup, and no engine holds an entry (R55)? -/
def State.contextBoundary (s : State) : Bool := !s.userResident && !s.engineBusy

/-- The MESH_MAP entry of a physical core of a die. -/
def meshEntry (core : Nat) : BitVec 8 := BitVec.ofNat 8 (0x80 + core % 36 / 6 * 8 + core % 36 % 6)

/-- The spares of a die: the positions that MESH_MAP does not name before any is used (R50). -/
def spareCore (die n : Nat) : Nat := die * 36 + 34 + n

/-- The next spare of a die that works. -/
def State.nextSpare (s : State) (die : Nat) : Option Nat :=
  (List.range 2).find? (fun n => decide ((s.die die).spares ≤ n) && !(s.core (spareCore die n)).failed)

/-- SPARE_SUBSTITUTION: the lowest failed position of a die's user cores takes the next spare that works; without one its VALID bit is cleared. Leaves that name the old
core name the new one (R40), and every resident image's records are applied again (R50). -/
def State.substitute (s : State) (die : Nat) : State :=
  if !s.contextBoundary then s
  else
    let D := s.die die
    match (List.range 32).find? (fun n => ((s.meshCore die n).map (fun c => (s.core c).failed)).getD false) with
    | none => s
    | some n =>
      match s.nextSpare die with
      | some k =>
        let new := spareCore die k
        let s1 := s.setDie die { D with meshMap := setAt D.meshMap n (meshEntry new), spares := k + 1 }
        let s2 := match s.meshCore die n with
          | some old => s1.renameScratch old new
          | none => s1
        s2.images.foldl State.relocateAll s2
      | none => { s.setDie die { D with meshMap := setAt D.meshMap n (D.meshMap.getD n 0 &&& 0x7f#8) } with deviceHealth := s.deviceHealth ||| (1#64 <<< 62) }

def execSpareSubstitution (die : Nat) (s : State) : Host.Outcome State Fault Refusal := .next (s.substitute die)

end Sys2Proof.Machine
end

