-- ==== Sys2Proof/Machine/Service.lean ====
section
/-!
DEFINITION. Machine/Service.lean: the service blocks of a die answer batches of service calls (18 R356; 20 R378, R379; 21 R403), the piece
claim service among them (22 R412).
-/

namespace Sys2Proof.Machine

/-- The lanes of a batch. -/
def Batch.lanes (b : Batch) : List Nat := (List.range 64).filter b.mask.getLsbD

/-- The locations of the reply slots of lanes, none where one cannot be reached. -/
def State.slotLocs (s : State) (b : Batch) : List Nat → List Nat → Option (State × List Nat)
  | [], acc => some (s, acc.reverse)
  | j :: js, acc =>
    match s.engReach { s.engineAgent b.launch b.wg with priv := true } (b.slots + BitVec.ofNat 64 (16 * j)) 16 true with
    | .ok s1 x => State.slotLocs s1 b js (x.loc :: acc)
    | _ => none

/-- Writes every calling lane's slot and forgets the batch: REPLY with DONE, or REJ. -/
def State.answerBatch (s : State) (b : Batch) (vals : Option (List Nat)) : State :=
  match s.slotLocs b b.lanes [] with
  | none => s
  | some (s1, locs) =>
    let s2 := locs.zipIdx.foldl (fun a x =>
      match vals with
      | some vs => a.putMarked (s.launch b.launch).die (x.1 + 4) (leBytes 4 (vs.getD x.2 0) ++ leBytes 8 1)
      | none => a.putMarked (s.launch b.launch).die (x.1 + 8) (leBytes 8 2)) s1
    -- the slot of its record is released
    let Q := s2.workq (s.launch b.launch).die 63
    let s3 := if Q.state = .unconfigured then s2 else s2.setWorkq { Q with head := Q.head + 1, free := Q.free + 1 }
    { s3 with batches := s3.batches.erase b }

/-- The batches whose record has been pushed to the service queue of a die, in the order in which they were. DEDUCED, log entry 67. -/
def State.serviceQueue (s : State) (die : Nat) : List Batch :=
  if s.bring.svc.getLsbD die then s.batches.filter (fun b => b.pushed && (s.launch b.launch).die == die) else []

/-! ## Piece claims (R412) -/

/-- The range of a workgroup of a split launch: FIRST and COUNT (R350). -/
def LaunchRec.range (R : LaunchRec) (w : Nat) : Nat × Nat :=
  let q := R.iters / R.wgcount
  let m := R.iters % R.wgcount
  (w * q + min w m, q + (if w < m then 1 else 0))

/-- The number of its pieces. -/
def LaunchRec.pieces (R : LaunchRec) (w : Nat) : Nat :=
  let (f, c) := R.range w
  let t := R.auxptr.toNat
  if c = 0 then 0 else (f + c - 1) / t - f / t + 1

/-- Must the service reject the batch: a nonzero argument, another KIND, or numbers that do not fit the reply? -/
def State.claimBad (s : State) (b : Batch) : Bool :=
  let R := (s.launch b.launch).recd
  R.kind != 2 || decide (65535 < R.wgcount) || (List.range R.wgcount).any (fun w => decide (65535 < R.pieces w))
    || (match s.slotLocs b b.lanes [] with
        | some (s1, locs) => locs.any (fun loc => s1.homeNat loc 4 != 0)
        | none => false)

/-- Has every claim before claim m of workgroup w been decided? -/
def State.claimReady (s : State) (l m w : Nat) : Bool :=
  let L := s.launch l
  !L.recd.det || (s.wg l w).noPiece || (List.range L.recd.wgcount).all (fun v =>
    let V := s.wg l v
    v == w || V.state == .retired || V.noPiece || decide ((if v < w then m + 1 else m) ≤ V.claims))

/-- The pieces of a workgroup that have not been granted. -/
def State.openPieces (s : State) (l v : Nat) : List Nat := (List.range ((s.launch l).recd.pieces v)).filter (fun k => !(s.wg l v).granted.contains k)

/-- Decides the next claim of a workgroup: its lowest open piece, else the highest of another; 0xFFFFFFFF when there is none. -/
def State.decide1 (s : State) (l w : Nat) : State × Nat :=
  let n := (s.launch l).recd.wgcount
  let W := s.wg l w
  let m := W.claims
  let s1 := s.setWg { W with claims := m + 1 }
  let grant := fun (v k : Nat) => let V := s1.wg l v; (s1.setWg { V with granted := k :: V.granted }, v * 2 ^ 16 + k)
  if W.noPiece then (s1, 0xffffffff)
  else match s1.openPieces l w with
    | k :: _ => grant w k
    | [] =>
      match ((List.range n).map (fun i => (w + m + i) % n)).find? (fun v => v != w && !(s1.openPieces l v).isEmpty) with
      | some v => grant v ((s1.openPieces l v).getLastD 0)
      | none => (s1.setWg { s1.wg l w with noPiece := true }, 0xffffffff)

/-- Decides the claims of a batch, one lane after another, as far as they can be decided now. -/
def State.decideBatch (s : State) (b : Batch) : Nat → State × List Nat
  | 0 => (s, b.got)
  | n + 1 =>
    let (s1, got) := State.decideBatch s b n
    if got.length < b.lanes.length && s1.claimReady b.launch (s1.wg b.launch b.wg).claims b.wg then
      let (s2, v) := s1.decide1 b.launch b.wg
      (s2, got ++ [v])
    else (s1, got)

/-- Decides what can be decided of every claim batch of a die. -/
def State.decideClaims (s : State) (die : Nat) : State :=
  (s.serviceQueue die).foldl (fun a b =>
    if b.code != 127 || a.claimBad b || !((a.serviceQueue die).takeWhile (· != b)).all (fun x => !(x.code == 127 && x.launch == b.launch && x.wg == b.wg)) then a
    else
      let (a1, got) := a.decideBatch b b.lanes.length
      { a1 with batches := a1.batches.map (fun x => if x == b then { b with got := got } else x) }) s

/-- The batch that is answered next: the oldest one, where claims that are still undecided wait. -/
def State.nextBatch (s : State) (die : Nat) : Option Batch :=
  (s.serviceQueue die).find? (fun b => b.code != 127 || s.claimBad b || b.got.length == b.lanes.length)

/-- Decides claims as long as one more is decided. -/
def State.decideAll (s : State) (die : Nat) : Nat → State
  | 0 => s
  | n + 1 => State.decideAll (s.decideClaims die) die n

/-- SERVICE_REPLY: the replies of the oldest batch, one for each calling lane; of a claim, what was decided, or its rejection. -/
def State.serviceReply (s : State) (die : Nat) (replies : List (BitVec 32)) : State :=
  let s1 := s.decideAll die (((s.serviceQueue die).map (fun b => b.lanes.length)).sum)
  match s1.nextBatch die with
  | none => s1
  | some b =>
    if b.code = 127 then s1.answerBatch b (if s1.claimBad b then none else some b.got)
    else s1.answerBatch b (some (replies.map BitVec.toNat))

def execServiceReply (die : Nat) (replies : List (BitVec 32)) (s : State) : Host.Outcome State Fault Refusal :=
  .next (s.serviceReply die replies)

/-- SERVICE_REJECT: the service does not serve the oldest batch. -/
def execServiceReject (die : Nat) (s : State) : Host.Outcome State Fault Refusal :=
  .next (match s.nextBatch die with
    | none => s
    | some b => if b.code = 127 && !s.claimBad b then s else s.answerBatch b none)

/-- The record of a batch, with its stamp (R356). -/
def State.batchRecord (s : State) (b : Batch) (stamp : BitVec 32) : Nat :=
  b.code % 2 ^ 7 + b.team % 2 ^ 7 * 2 ^ 327 + b.slot % 2 ^ 8 * 2 ^ 334 + (s.launch b.launch).asid % 2 ^ 10 * 2 ^ 342 + b.mask.toNat * 2 ^ 352
    + b.slots.toNat * 2 ^ 416 + stamp.toNat * 2 ^ 480

/-- The batch that a core's Basket pushes next: its oldest, behind those of the same workgroup in other Baskets, so that a workgroup's batches keep
their order (R412). -/
def State.nextPush (s : State) (core : Nat) : Option Batch :=
  s.batches.find? (fun b => b.core == core && !b.pushed
    && (s.batches.find? (fun x => !x.pushed && x.launch == b.launch && x.wg == b.wg)) == some b)

/-- A record leaves the Basket of a core: it is pushed into the ring of queue 63 of its launch's die, once the queue is served, has room and can be
reached (R356, R429). -/
def State.pushBatch (s : State) (core : Nat) : State :=
  match s.nextPush core with
  | none => s
  | some b =>
    let die := (s.launch b.launch).die
    let Q := s.workq die 63
    let loc := Q.ringbase.toNat + 64 * (Q.reserve.toNat % Q.ringlen)
    if Q.state = .unconfigured || decide (Q.ringlen ≤ (Q.reserve - Q.free).toNat) || s.reach loc == .wait then s
    else
      let s1 := if s.reach loc = .yes then (s.writeHome loc (leBytes 64 (s.batchRecord b Q.reserve)) die).getD s else s
      let s2 := s1.setWorkq { Q with reserve := Q.reserve + 1, tail := mergeTail Q.tail (Q.reserve + 1) }
      { s2 with batches := s2.batches.erase b ++ [{ b with pushed := true }] }

end Sys2Proof.Machine
end

