-- ==== Sys2Proof/Machine/Dispatch.lean ====
section
/-!
DEFINITION. Machine/Dispatch.lean: one arm for each constructor of Instr: a direct call of its meaning.
-/

namespace Sys2Proof.Machine

/-- The meaning of an instruction or an operation of the module. -/
def exec (i : Instr) (s : State) : Host.Outcome State Fault Refusal :=
  match i with
  | .iaddI32 g d a b => Sys2Proof.Machine.execIaddI32 g d a b s
  | .isubI32 g d a b => Sys2Proof.Machine.execIsubI32 g d a b s
  | .iaddI64 g d a b => Sys2Proof.Machine.execIaddI64 g d a b s
  | .isubI64 g d a b => Sys2Proof.Machine.execIsubI64 g d a b s
  | .imulI32 g d a b => Sys2Proof.Machine.execImulI32 g d a b s
  | .imulhiI32 g d a b => Sys2Proof.Machine.execImulhiI32 g d a b s
  | .imulhiN32 g d a b => Sys2Proof.Machine.execImulhiN32 g d a b s
  | .iminI32 g d a b => Sys2Proof.Machine.execIminI32 g d a b s
  | .imaxI32 g d a b => Sys2Proof.Machine.execImaxI32 g d a b s
  | .iminN32 g d a b => Sys2Proof.Machine.execIminN32 g d a b s
  | .imaxN32 g d a b => Sys2Proof.Machine.execImaxN32 g d a b s
  | .andB32 g d a b => Sys2Proof.Machine.execAndB32 g d a b s
  | .orB32 g d a b => Sys2Proof.Machine.execOrB32 g d a b s
  | .xorB32 g d a b => Sys2Proof.Machine.execXorB32 g d a b s
  | .andnB32 g d a b => Sys2Proof.Machine.execAndnB32 g d a b s
  | .shl g d a b => Sys2Proof.Machine.execShl g d a b s
  | .shr g d a b => Sys2Proof.Machine.execShr g d a b s
  | .sar g d a b => Sys2Proof.Machine.execSar g d a b s
  | .rotl g d a b => Sys2Proof.Machine.execRotl g d a b s
  | .popc g d a => Sys2Proof.Machine.execPopc g d a s
  | .clz g d a => Sys2Proof.Machine.execClz g d a s
  | .ctz g d a => Sys2Proof.Machine.execCtz g d a s
  | .brev g d a => Sys2Proof.Machine.execBrev g d a s
  | .iabsI32 g d a => Sys2Proof.Machine.execIabsI32 g d a s
  | .inegI32 g d a => Sys2Proof.Machine.execInegI32 g d a s
  | .mov g d a => Sys2Proof.Machine.execMov g d a s
  | .pand g d a b => Sys2Proof.Machine.execPand g d a b s
  | .por g d a b => Sys2Proof.Machine.execPor g d a b s
  | .pxor g d a b => Sys2Proof.Machine.execPxor g d a b s
  | .pnot g d a => Sys2Proof.Machine.execPnot g d a s
  | .movi g d k => Sys2Proof.Machine.execMovi g d k s
  | .iaddi g d a k => Sys2Proof.Machine.execIaddi g d a k s
  | .andi g d a k => Sys2Proof.Machine.execAndi g d a k s
  | .ori g d a k => Sys2Proof.Machine.execOri g d a k s
  | .xori g d a k => Sys2Proof.Machine.execXori g d a k s
  | .imad g ty d a b c => Sys2Proof.Machine.execImad g ty d a b c s
  | .idiv g ty d a b => Sys2Proof.Machine.execIdiv g ty d a b s
  | .irem g ty d a b => Sys2Proof.Machine.execIrem g ty d a b s
  | .icmp g ty cc d a b => Sys2Proof.Machine.execIcmp g ty cc d a b s
  | .sel g ty d a b c => Sys2Proof.Machine.execSel g ty d a b c s
  | .lea g ty sh d a b => Sys2Proof.Machine.execLea g ty sh d a b s
  | .iaddc g ty d a b c => Sys2Proof.Machine.execIaddc g ty d a b c s
  | .isubb g ty d a b c => Sys2Proof.Machine.execIsubb g ty d a b c s
  | .bfe g ty d a b => Sys2Proof.Machine.execBfe g ty d a b s
  | .bfi g ty d a b c => Sys2Proof.Machine.execBfi g ty d a b c s
  | .iaddL g ty sat d a b => Sys2Proof.Machine.execIaddL g ty sat d a b s
  | .shf g ty right d a b c => Sys2Proof.Machine.execShf g ty right d a b c s
  | .setix g ix a => Sys2Proof.Machine.execSetix g ix a s
  | .movx g ty ix d a => Sys2Proof.Machine.execMovx g ty ix d a s
  | .stx g ty ix a b => Sys2Proof.Machine.execStx g ty ix a b s
  | .pmovTo g d a => Sys2Proof.Machine.execPmovTo g d a s
  | .pmovFrom g d a => Sys2Proof.Machine.execPmovFrom g d a s
  | .icvt g ty sty sat d a => Sys2Proof.Machine.execIcvt g ty sty sat d a s
  | .faddF64 g d a b => Sys2Proof.Machine.execFaddF64 g d a b s
  | .faddF32 g d a b => Sys2Proof.Machine.execFaddF32 g d a b s
  | .fsubF64 g d a b => Sys2Proof.Machine.execFsubF64 g d a b s
  | .fsubF32 g d a b => Sys2Proof.Machine.execFsubF32 g d a b s
  | .fmulF64 g d a b => Sys2Proof.Machine.execFmulF64 g d a b s
  | .fmulF32 g d a b => Sys2Proof.Machine.execFmulF32 g d a b s
  | .fminF64 g d a b => Sys2Proof.Machine.execFminF64 g d a b s
  | .fminF32 g d a b => Sys2Proof.Machine.execFminF32 g d a b s
  | .fmaxF64 g d a b => Sys2Proof.Machine.execFmaxF64 g d a b s
  | .fmaxF32 g d a b => Sys2Proof.Machine.execFmaxF32 g d a b s
  | .fabsF64 g d a => Sys2Proof.Machine.execFabsF64 g d a s
  | .fabsF32 g d a => Sys2Proof.Machine.execFabsF32 g d a s
  | .fnegF64 g d a => Sys2Proof.Machine.execFnegF64 g d a s
  | .fnegF32 g d a => Sys2Proof.Machine.execFnegF32 g d a s
  | .faddH2 g d a b => Sys2Proof.Machine.execFaddH2 g d a b s
  | .fmulH2 g d a b => Sys2Proof.Machine.execFmulH2 g d a b s
  | .faddB2 g d a b => Sys2Proof.Machine.execFaddB2 g d a b s
  | .fmulB2 g d a b => Sys2Proof.Machine.execFmulB2 g d a b s
  | .frcpF32 g d a => Sys2Proof.Machine.execFrcpF32 g d a s
  | .frsqF32 g d a => Sys2Proof.Machine.execFrsqF32 g d a s
  | .fexp2F32 g d a => Sys2Proof.Machine.execFexp2F32 g d a s
  | .flog2F32 g d a => Sys2Proof.Machine.execFlog2F32 g d a s
  | .fsinpiF32 g d a => Sys2Proof.Machine.execFsinpiF32 g d a s
  | .fcospiF32 g d a => Sys2Proof.Machine.execFcospiF32 g d a s
  | .ftanhF32 g d a => Sys2Proof.Machine.execFtanhF32 g d a s
  | .fclassF64 g d a => Sys2Proof.Machine.execFclassF64 g d a s
  | .fclassF32 g d a => Sys2Proof.Machine.execFclassF32 g d a s
  | .fma g ty rm ftz pk d a b c => Sys2Proof.Machine.execFma g ty rm ftz pk d a b c s
  | .faddL g ty rm ftz pk d a b => Sys2Proof.Machine.execFaddL g ty rm ftz pk d a b s
  | .fmulL g ty rm ftz pk d a b => Sys2Proof.Machine.execFmulL g ty rm ftz pk d a b s
  | .fdiv g ty rm ftz d a b => Sys2Proof.Machine.execFdiv g ty rm ftz d a b s
  | .fsqrt g ty rm ftz d a => Sys2Proof.Machine.execFsqrt g ty rm ftz d a s
  | .fcmp g ty cc d a b => Sys2Proof.Machine.execFcmp g ty cc d a b s
  | .fcvt g ty sty rm sat d a => Sys2Proof.Machine.execFcvt g ty sty rm sat d a s
  | .frnd g ty rm d a => Sys2Proof.Machine.execFrnd g ty rm d a s
  | .fcvti g ty sty rm d a => Sys2Proof.Machine.execFcvti g ty sty rm d a s
  | .icvtf g ty sty rm d a => Sys2Proof.Machine.execIcvtf g ty sty rm d a s
  | .fscale g ty rm d a b => Sys2Proof.Machine.execFscale g ty rm d a b s
  | .ffrexp g ty d a c => Sys2Proof.Machine.execFfrexp g ty d a c s
  | .fpack g ty sty rm sat d a b => Sys2Proof.Machine.execFpack g ty sty rm sat d a b s
  | .funpack g ty sty d a b => Sys2Proof.Machine.execFunpack g ty sty d a b s
  | .fdot2 g ty rm d a b c => Sys2Proof.Machine.execFdot2 g ty rm d a b c s
  | .shflIdx g d a b => Sys2Proof.Machine.execShflIdx g d a b s
  | .shflUp g d a b => Sys2Proof.Machine.execShflUp g d a b s
  | .shflDn g d a b => Sys2Proof.Machine.execShflDn g d a b s
  | .shflXor g d a b => Sys2Proof.Machine.execShflXor g d a b s
  | .voteAll g d a => Sys2Proof.Machine.execVoteAll g d a s
  | .voteAny g d a => Sys2Proof.Machine.execVoteAny g d a s
  | .voteBallot g d a => Sys2Proof.Machine.execVoteBallot g d a s
  | .voteEq g d a => Sys2Proof.Machine.execVoteEq g d a s
  | .lbcast g d a b => Sys2Proof.Machine.execLbcast g d a b s
  | .matchLanes g d a => Sys2Proof.Machine.execMatchLanes g d a s
  | .redAddI32 g d a => Sys2Proof.Machine.execRedAddI32 g d a s
  | .redAddF32 g d a => Sys2Proof.Machine.execRedAddF32 g d a s
  | .scanAddI32 g d a => Sys2Proof.Machine.execScanAddI32 g d a s
  | .wadd g d a b => Sys2Proof.Machine.execWadd g d a b s
  | .wsub g d a b => Sys2Proof.Machine.execWsub g d a b s
  | .wneg g d a => Sys2Proof.Machine.execWneg g d a s
  | .wshl g d a b => Sys2Proof.Machine.execWshl g d a b s
  | .wshr g d a b => Sys2Proof.Machine.execWshr g d a b s
  | .wsign g d a => Sys2Proof.Machine.execWsign g d a s
  | .wcmp g d a b => Sys2Proof.Machine.execWcmp g d a b s
  | .wclr g d => Sys2Proof.Machine.execWclr g d s
  | .zip g ty k d a => Sys2Proof.Machine.execZip g ty k d a s
  | .unzip g ty k d a => Sys2Proof.Machine.execUnzip g ty k d a s
  | .bind g ty n => Sys2Proof.Machine.execBind g ty n s
  | .unbind g => Sys2Proof.Machine.execUnbind g s
  | .wmacF64 g d a b => Sys2Proof.Machine.execWmacF64 g d a b s
  | .wnorm g rm d a => Sys2Proof.Machine.execWnorm g rm d a s
  | .wwin g a c => Sys2Proof.Machine.execWwin g a c s
  | .red g op ty rm d a => Sys2Proof.Machine.execRed g op ty rm d a s
  | .scan g op ty rm excl d a => Sys2Proof.Machine.execScan g op ty rm excl d a s
  | .ldW g d a b => Sys2Proof.Machine.execLdW g d a b s
  | .ldD g d a b => Sys2Proof.Machine.execLdD g d a b s
  | .ldQ g d a b => Sys2Proof.Machine.execLdQ g d a b s
  | .stW g x a b => Sys2Proof.Machine.execStW g x a b s
  | .stD g x a b => Sys2Proof.Machine.execStD g x a b s
  | .stQ g x a b => Sys2Proof.Machine.execStQ g x a b s
  | .ldsW g d a b => Sys2Proof.Machine.execLdsW g d a b s
  | .stsW g x a b => Sys2Proof.Machine.execStsW g x a b s
  | .ldiWWg g d a b => Sys2Proof.Machine.execLdiWWg g d a b s
  | .stiWWg g x a b => Sys2Proof.Machine.execStiWWg g x a b s
  | .qpop g d a => Sys2Proof.Machine.execQpop g d a s
  | .qpush g a b => Sys2Proof.Machine.execQpush g a b s
  | .prefetch g a b => Sys2Proof.Machine.execPrefetch g a b s
  | .ldK g wd d a k => Sys2Proof.Machine.execLdK g wd d a k s
  | .stK g wd x a k => Sys2Proof.Machine.execStK g wd x a k s
  | .ldL g ty d a b => Sys2Proof.Machine.execLdL g ty d a b s
  | .stL g ty x a b => Sys2Proof.Machine.execStL g ty x a b s
  | .ldi g ty sc ord d a b => Sys2Proof.Machine.execLdi g ty sc ord d a b s
  | .sti g ty sc ord x a b => Sys2Proof.Machine.execSti g ty sc ord x a b s
  | .atom g op ty sc ord d a b => Sys2Proof.Machine.execAtom g op ty sc ord d a b s
  | .atomcas g ty sc ord d a b => Sys2Proof.Machine.execAtomcas g ty sc ord d a b s
  | .atomf g op ty sc ord d a b => Sys2Proof.Machine.execAtomf g op ty sc ord d a b s
  | .phase sc => Sys2Proof.Machine.execPhase sc s
  | .fence g sc ord => Sys2Proof.Machine.execFence g sc ord s
  | .tfill g t a b => Sys2Proof.Machine.execTfill g t a b s
  | .tdrain g t a b => Sys2Proof.Machine.execTdrain g t a b s
  | .twait g t => Sys2Proof.Machine.execTwait g t s
  | .tstate g t d => Sys2Proof.Machine.execTstate g t d s
  | .tfree g t => Sys2Proof.Machine.execTfree g t s
  | .halloc g tr d a b => Sys2Proof.Machine.execHalloc g tr d a b s
  | .hfree g a b => Sys2Proof.Machine.execHfree g a b s
  | .cinv g l2 a b => Sys2Proof.Machine.execCinv g l2 a b s
  | .cwb g l2 a b => Sys2Proof.Machine.execCwb g l2 a b s
  | .mma g ty x ma mb c => Sys2Proof.Machine.execMma g ty x ma mb c s
  | .mmasc g ty bs k x ma mb c => Sys2Proof.Machine.execMmasc g ty bs k x ma mb c s
  | .accld g ty d a b => Sys2Proof.Machine.execAccld g ty d a b s
  | .accst g x a b => Sys2Proof.Machine.execAccst g x a b s
  | .acczero g a b => Sys2Proof.Machine.execAcczero g a b s
  | .accwin g a b => Sys2Proof.Machine.execAccwin g a b s
  | .opmap g m a => Sys2Proof.Machine.execOpmap g m a s
  | .mwait g => Sys2Proof.Machine.execMwait g s
  | .accldBand g d a b c => Sys2Proof.Machine.execAccldBand g d a b c s
  | .mmaprogRd g q d a => Sys2Proof.Machine.execMmaprogRd g q d a s
  | .mmaprogWr g q a b => Sys2Proof.Machine.execMmaprogWr g q a b s
  | .bra g off => Sys2Proof.Machine.execBra g off s
  | .jmp off => Sys2Proof.Machine.execJmp off s
  | .jmpi g a => Sys2Proof.Machine.execJmpi g a s
  | .call g off => Sys2Proof.Machine.execCall g off s
  | .calli g a => Sys2Proof.Machine.execCalli g a s
  | .ret g => Sys2Proof.Machine.execRet g s
  | .exit g => Sys2Proof.Machine.execExit g s
  | .nop g => Sys2Proof.Machine.execNop g s
  | .dispatch g d a b => Sys2Proof.Machine.execDispatch g d a b s
  | .gpcadd g a => Sys2Proof.Machine.execGpcadd g a s
  | .gpcset g a => Sys2Proof.Machine.execGpcset g a s
  | .loop n k off => Sys2Proof.Machine.execLoop n k off s
  | .barWg => Sys2Proof.Machine.execBarWg s
  | .join => Sys2Proof.Machine.execJoin s
  | .sleep g a => Sys2Proof.Machine.execSleep g a s
  | .wait g a => Sys2Proof.Machine.execWait g a s
  | .spawn g a b => Sys2Proof.Machine.execSpawn g a b s
  | .spawnTry g a b => Sys2Proof.Machine.execSpawnTry g a b s
  | .brk g => Sys2Proof.Machine.execBrk g s
  | .yield g => Sys2Proof.Machine.execYield g s
  | .gmode g m => Sys2Proof.Machine.execGmode g m s
  | .engCopy g q d a => Sys2Proof.Machine.execEngCopy g q d a s
  | .engColl g q d a => Sys2Proof.Machine.execEngColl g q d a s
  | .engPost g qs a => Sys2Proof.Machine.execEngPost g qs a s
  | .engSeq g qs d => Sys2Proof.Machine.execEngSeq g qs d s
  | .reelGo g a b => Sys2Proof.Machine.execReelGo g a b s
  | .reelCondWrite g sc a b => Sys2Proof.Machine.execReelCondWrite g sc a b s
  | .svc g code a => Sys2Proof.Machine.execSvc g code a s
  | .svcwait g d => Sys2Proof.Machine.execSvcwait g d s
  | .trieStep g d a b => Sys2Proof.Machine.execTrieStep g d a b s
  | .trieScan g d a b => Sys2Proof.Machine.execTrieScan g d a b s
  | .trieChild g d a b => Sys2Proof.Machine.execTrieChild g d a b s
  | .trieInfo g d a => Sys2Proof.Machine.execTrieInfo g d a s
  | .covpt g d => Sys2Proof.Machine.execCovpt g d s
  | .covst g a b => Sys2Proof.Machine.execCovst g a b s
  | .mark g a => Sys2Proof.Machine.execMark g a s
  | .ctrTick g d => Sys2Proof.Machine.execCtrTick g d s
  | .ctrMode g d => Sys2Proof.Machine.execCtrMode g d s
  | .ctrSetmode g b => Sys2Proof.Machine.execCtrSetmode g b s
  | .ctrVote g d => Sys2Proof.Machine.execCtrVote g d s
  | .ctrWindsock g k d => Sys2Proof.Machine.execCtrWindsock g k d s
  | .trap g n => Sys2Proof.Machine.execTrap g n s
  | .tretRetry g => Sys2Proof.Machine.execTretRetry g s
  | .tretSkip g => Sys2Proof.Machine.execTretSkip g s
  | .sysr g ty d a => Sys2Proof.Machine.execSysr g ty d a s
  | .sysw g ty a b => Sys2Proof.Machine.execSysw g ty a b s
  | .msig g tgt a => Sys2Proof.Machine.execMsig g tgt a s
  | .mpost g tgt a b => Sys2Proof.Machine.execMpost g tgt a b s
  | .tlbinvPage g a b => Sys2Proof.Machine.execTlbinvPage g a b s
  | .tlbinvAsid g a b => Sys2Proof.Machine.execTlbinvAsid g a b s
  | .tlbinvAll g a b => Sys2Proof.Machine.execTlbinvAll g a b s
  | .cflush g a b => Sys2Proof.Machine.execCflush g a b s
  | .fltrd g d a => Sys2Proof.Machine.execFltrd g d a s
  | .powerGood => Sys2Proof.Machine.execPowerGood s
  | .moduleReset => Sys2Proof.Machine.execModuleReset s
  | .memoryRegionInit => Sys2Proof.Machine.execMemoryRegionInit s
  | .firmwareLoad die => Sys2Proof.Machine.execFirmwareLoad die s
  | .flitCrcRetry link => Sys2Proof.Machine.execFlitCrcRetry link s
  | .linkRetrain link => Sys2Proof.Machine.execLinkRetrain link s
  | .linkFailed link => Sys2Proof.Machine.execLinkFailed link s
  | .fabricRemoteRead pa n acq => Sys2Proof.Machine.execFabricRemoteRead pa n acq s
  | .fabricRemoteWrite pa bytes rel => Sys2Proof.Machine.execFabricRemoteWrite pa bytes rel s
  | .fabricRemoteAtomic op pa n x y ord => Sys2Proof.Machine.execFabricRemoteAtomic op pa n x y ord s
  | .directoryRecall line => Sys2Proof.Machine.execDirectoryRecall line s
  | .directoryUnreachable => Sys2Proof.Machine.execDirectoryUnreachable s
  | .pcieBarRequest r => Sys2Proof.Machine.execPcieBarRequest r s
  | .createAs m => Sys2Proof.Machine.execCreateAs m s
  | .destroyAs m => Sys2Proof.Machine.execDestroyAs m s
  | .registerSq m => Sys2Proof.Machine.execRegisterSq m s
  | .unregisterSq m => Sys2Proof.Machine.execUnregisterSq m s
  | .configWq m => Sys2Proof.Machine.execConfigWq m s
  | .mmioWrite m => Sys2Proof.Machine.execMmioWrite m s
  | .mmioRead m => Sys2Proof.Machine.execMmioRead m s
  | .status m => Sys2Proof.Machine.execStatus m s
  | .setBudget m => Sys2Proof.Machine.execSetBudget m s
  | .mailboxUnknownOp m => Sys2Proof.Machine.execMailboxUnknownOp m s
  | .sqDoorbell sq v => Sys2Proof.Machine.execSqDoorbell sq v s
  | .throttleChange die t => Sys2Proof.Machine.execThrottleChange die t s
  | .thermalShutdown die => Sys2Proof.Machine.execThermalShutdown die s
  | .coreSelfCheckFail core => Sys2Proof.Machine.execCoreSelfCheckFail core s
  | .spareSubstitution die => Sys2Proof.Machine.execSpareSubstitution die s
  | .stopTickWrite v => Sys2Proof.Machine.execStopTickWrite v s
  | .stopTickMatch => Sys2Proof.Machine.execStopTickMatch s
  | .registerWrite core r v => Sys2Proof.Machine.execRegisterWrite core r v s
  | .tileEntryWrite pa v => Sys2Proof.Machine.execTileEntryWrite pa v s
  | .debugWindowAccess pa wr => Sys2Proof.Machine.execDebugWindowAccess pa wr s
  | .l2ModeChange v => Sys2Proof.Machine.execL2ModeChange v s
  | .mpostpopRead core => Sys2Proof.Machine.execMpostpopRead core s
  | .l2Writeback sector => Sys2Proof.Machine.execL2Writeback sector s
  | .replayResolve r => Sys2Proof.Machine.execReplayResolve r s
  | .replayReject r => Sys2Proof.Machine.execReplayReject r s
  | .outstandingResultReturn t => Sys2Proof.Machine.execOutstandingResultReturn t s
  | .sliceIssueTurn core slice => Sys2Proof.Machine.execSliceIssueTurn core slice s
  | .agePromotion entry => Sys2Proof.Machine.execAgePromotion entry s
  | .convergenceHang entry => Sys2Proof.Machine.execConvergenceHang entry s
  | .barrierHang b => Sys2Proof.Machine.execBarrierHang b s
  | .workgroupBoundaryComplete w => Sys2Proof.Machine.execWorkgroupBoundaryComplete w s
  | .phaseBoundaryComplete b => Sys2Proof.Machine.execPhaseBoundaryComplete b s
  | .policyKill t => Sys2Proof.Machine.execPolicyKill t s
  | .policyStop t => Sys2Proof.Machine.execPolicyStop t s
  | .policySkip t => Sys2Proof.Machine.execPolicySkip t s
  | .policyRetry t => Sys2Proof.Machine.execPolicyRetry t s
  | .policyForward t => Sys2Proof.Machine.execPolicyForward t s
  | .engineTakeEntry q => Sys2Proof.Machine.execEngineTakeEntry q s
  | .copyEntry q => Sys2Proof.Machine.execCopyEntry q s
  | .collEntry q => Sys2Proof.Machine.execCollEntry q s
  | .nopEntry q => Sys2Proof.Machine.execNopEntry q s
  | .entryCompletion q => Sys2Proof.Machine.execEntryCompletion q s
  | .reelEnd core cursor => Sys2Proof.Machine.execReelEnd core cursor s
  | .reelCopy core cursor => Sys2Proof.Machine.execReelCopy core cursor s
  | .reelColl core cursor => Sys2Proof.Machine.execReelColl core cursor s
  | .reelWaitseq core cursor => Sys2Proof.Machine.execReelWaitseq core cursor s
  | .reelWake core cursor => Sys2Proof.Machine.execReelWake core cursor s
  | .reelCond core cursor => Sys2Proof.Machine.execReelCond core cursor s
  | .reelWhile core cursor => Sys2Proof.Machine.execReelWhile core cursor s
  | .matrixPass core => Sys2Proof.Machine.execMatrixPass core s
  | .matrixPassComplete core => Sys2Proof.Machine.execMatrixPassComplete core s
  | .launch sq pos => Sys2Proof.Machine.execLaunch sq pos s
  | .feed sq pos => Sys2Proof.Machine.execFeed sq pos s
  | .close sq pos => Sys2Proof.Machine.execClose sq pos s
  | .nopPacket sq pos => Sys2Proof.Machine.execNopPacket sq pos s
  | .workgroupPlace launch => Sys2Proof.Machine.execWorkgroupPlace launch s
  | .workgroupRetire w => Sys2Proof.Machine.execWorkgroupRetire w s
  | .launchComplete launch => Sys2Proof.Machine.execLaunchComplete launch s
  | .preemptMaskWrite launch mask => Sys2Proof.Machine.execPreemptMaskWrite launch mask s
  | .workgroupSave w => Sys2Proof.Machine.execWorkgroupSave w s
  | .workgroupRestore w => Sys2Proof.Machine.execWorkgroupRestore w s
  | .serviceReply die replies => Sys2Proof.Machine.execServiceReply die replies s
  | .serviceReject die => Sys2Proof.Machine.execServiceReject die s
  | .tileReconstruction w => Sys2Proof.Machine.execTileReconstruction w s
  | .auditWindowClose launch => Sys2Proof.Machine.execAuditWindowClose launch s
  | .stopArrival core => Sys2Proof.Machine.execStopArrival core s
  | .dbgHalt die v => Sys2Proof.Machine.execDbgHalt die v s
  | .dbgResume die v => Sys2Proof.Machine.execDbgResume die v s
  | .dbgStep die v => Sys2Proof.Machine.execDbgStep die v s
  | .linkTrainedAgain link => Sys2Proof.Machine.execLinkTrainedAgain link s
  | .fabricPortFailed port => Sys2Proof.Machine.execFabricPortFailed port s

end Sys2Proof.Machine
end

