-- ==== Sys2Proof/Machine/Drive.lean ====
section
/-!
DEFINITION. Machine/Drive.lean: how a step goes on: the slot of the issue group (09 R163 to R166, R180; 17 R316, R317), a group that waits at
its slot, and the events of the module's own units where nothing else is to be done. DESIGN CHOICE, log entry 2.
-/

namespace Sys2Proof.Machine

/-- Is it an operation of the module, and not an instruction of a clause? -/
def isOperation : Instr → Bool
  | .powerGood | .moduleReset | .memoryRegionInit | .firmwareLoad _ | .flitCrcRetry _ | .linkRetrain _ | .linkFailed _
  | .fabricRemoteRead _ _ _ | .fabricRemoteWrite _ _ _ | .fabricRemoteAtomic _ _ _ _ _ _ | .directoryRecall _
  | .directoryUnreachable | .pcieBarRequest _ | .createAs _ | .destroyAs _ | .registerSq _ | .unregisterSq _ | .configWq _
  | .mmioWrite _ | .mmioRead _ | .status _ | .setBudget _ | .mailboxUnknownOp _ | .sqDoorbell _ _ | .throttleChange _ _
  | .thermalShutdown _ | .coreSelfCheckFail _ | .spareSubstitution _ | .stopTickWrite _ | .stopTickMatch | .registerWrite _ _ _
  | .tileEntryWrite _ _ | .debugWindowAccess _ _ | .l2ModeChange _ | .mpostpopRead _ | .l2Writeback _ | .replayResolve _
  | .replayReject _ | .outstandingResultReturn _ | .sliceIssueTurn _ _ | .agePromotion _ | .convergenceHang _ | .barrierHang _
  | .workgroupBoundaryComplete _ | .phaseBoundaryComplete _ | .policyKill _ | .policyStop _ | .policySkip _ | .policyRetry _
  | .policyForward _ | .engineTakeEntry _ | .copyEntry _ | .collEntry _ | .nopEntry _ | .entryCompletion _ | .reelEnd _ _
  | .reelCopy _ _ | .reelColl _ _ | .reelWaitseq _ _ | .reelWake _ _ | .reelCond _ _ | .reelWhile _ _ | .matrixPass _
  | .matrixPassComplete _ | .launch _ _ | .feed _ _ | .close _ _ | .nopPacket _ _ | .workgroupPlace _ | .workgroupRetire _
  | .launchComplete _ | .preemptMaskWrite _ _ | .workgroupSave _ | .workgroupRestore _ | .serviceReply _ _ | .serviceReject _
  | .tileReconstruction _ | .auditWindowClose _ | .stopArrival _ | .dbgHalt _ _ | .dbgResume _ _ | .dbgStep _ _
  | .linkTrainedAgain _ | .fabricPortFailed _ => true
  | _ => false

/-! ## The slot of the issue group -/

/-- Threads whose wait is tried again. -/
def State.retryWaits (s : State) (e : Nat) : State :=
  s.mapTeams (·.mapThreads (fun th => if th.issuing e then { th with hold := (match th.hold with | .at _ => .none | h => h) } else th))

/-- Is the group in privileged mode (R182)? -/
def State.groupPriv (s : State) (e : Nat) : Bool := (s.groupTeams e).any (fun T => (s.launch T.launch).priv)

/-- Does a lane of the group wait at the slot? -/
def State.groupWaits (s : State) (e : Nat) : Bool :=
  s.teams.any (fun T => T.threads.any (fun th => th.issuing e && (match th.hold with | .none | .passed => false | _ => true)))

/-- Lanes whose guard is a predicate with an uncorrectable error take their machine check (R400); w is the first word of the instruction. -/
def State.guardEcc (s : State) (c : Cur) (w : BitVec 32) : State :=
  let p := w.toNat / 2 ^ 28
  if s.teams.all (fun T => T.threads.all (·.ecc.isEmpty)) || 12 ≤ p then s
  else (s.executing c.entry .always).foldl (fun a q => match predTrap [q.2] [p] with
    | some x => a.performLane s c (fun s _ _ => .trap s x) (q.1.ref q.2)
    | none => a) s

/-- Executes the slot that the group stands at, whose clause has been fetched: h is its header, ws are its words. -/
def State.execSlot (s : State) (c : Cur) (h : Header) (ws : List (BitVec 32)) : Host.Outcome State Fault Refusal :=
  let ran := s.groupTeams c.entry
  match slotInstr ws (s.groupPriv c.entry) c.slot with
  | .error x => .next ((s.groupFault x).afterSlot c h ws ran)
  | .ok i =>
    match misplaced h.cnt c.slot i with
    | some x => .next ((s.misplacedFault i x).afterSlot c h ws ran)
    | none =>
      match exec i (s.guardEcc c (ws.getD (slotOffset ws c.slot 1) 0)) with
      | .next s1 => .next (s1.afterSlot c h ws ran)
      | r => r

/-- One slot of the issue group: its clause is fetched first where it is not in the buffer; a slot at which every lane's wait is over is
finished without being executed again. -/
def State.runSlot (s : State) (c : Cur) : Host.Outcome State Fault Refusal :=
  match s.entry? c.entry with
  | none => .next { s with cur := none }
  | some E =>
    let s1 := if E.words.isEmpty then s.fetchGroup c E else s
    match s1.cur, s1.entry? c.entry with
    | some _, some E1 =>
      match decodeHeader (E1.words.headD 0) with
      | none => .next ((s1.groupFaultWith { cause := 0x003 } id false).afterClause E1.core E1.slice (s1.groupTeams c.entry))
      | some h =>
        if h.cnt ≤ c.slot then .next (s1.leaveClause E1 h.cnt E1.words (s1.groupTeams c.entry))
        else if E1.begun && !s1.groupWaits c.entry then .next (s1.afterSlot c h E1.words (s1.groupTeams c.entry))
        else s1.execSlot c h E1.words
    | _, _ => .next s1

/-! ## Groups that wait at their slot (R334, R166) -/

/-- Does an entry wait at its slot for something that is tried again? Threads of a halted team stay where they are, and a group of a workgroup
that is to be saved is saved there once all its threads can be (R419, R334). -/
def State.polls (s : State) (e : Entry) : Bool :=
  let xs := s.members e.id
  e.state == .issuing && xs.any (fun x => match x.2.hold with | .at _ => x.2.issuing e.id | _ => false)
    && xs.all (fun x => x.1.mayIssue e)
    && !(xs.any (fun x => (s.wg x.1.launch x.1.wg).state == .evicting) && xs.all (fun x => s.threadSettled x.1 x.2))

/-- Tries the wait of an entry again; lanes whose wait is over have finished the slot, and the group goes on at its next turn once every lane
has. DEDUCED, log entry 45. -/
def State.poll (s : State) (e : Entry) : Host.Outcome State Fault Refusal :=
  let c : Cur := ⟨e.id, e.slot⟩
  let ran := s.groupTeams e.id
  let s0 := State.retryWaits { s with cur := some c } e.id
  -- a clause that is not in the buffer is fetched before any wait is tried again
  let f0 : State := { s with cur := some c }
  let done := fun (s : State) =>
    if (s.members e.id).isEmpty then s.afterClause e.core e.slice ran else { s with cur := none }
  if e.words.isEmpty then .next (done (f0.fetchGroup c e))
  else if !e.begun then .next (done s0)
  else match slotInstr e.words (s.groupPriv e.id) e.slot with
    | .error x => .next (done (s0.groupFault x))
    | .ok i =>
      match exec i s0 with
      | .next s1 => .next (done (s1.mapTeams (·.slotEnds e.id)))
      | r => r

/-! ## The events of the module's own units -/

/-- What an outcome leaves, for an event whose outcome is always a next state. -/
def nextOr (s : State) (r : Host.Outcome State Fault Refusal) : State :=
  match r with
  | .next s1 => s1
  | _ => s

/-- What an engine entry writes next: everything that is left, or one sector of it, which is free. DESIGN CHOICE, log entry 121. -/
def State.engPart (s : State) (i : InFlight) : Option Nat × State :=
  let (k, s1) := s.pick (i.todo.length + 1)
  (if k = i.todo.length then none else some k, s1)

/-- The queue events of a workgroup: an entry is taken, performed or completed. -/
def State.queueEvents (s : State) (W : Wg) : List (State → State) :=
  if !W.active then []
  else W.queues.filterMap (fun q =>
    match s.flight? W.launch W.id q.sel with
    | none =>
      if q.bad || s.engStalled W.launch W.id q.sel || !newer q.qtail (BitVec.ofNat 32 q.count) then none
      else some (fun (a : State) => a.takeEntry W.launch W.id q.sel)
    | some i =>
      if i.result.isSome then some (fun (a : State) => a.completion W.launch W.id q.sel)
      else if s.engStalled W.launch W.id q.sel then none
      else if entKind i.bits.toNat = 0 then some (fun (a : State) => let (p, b) := a.engPart i; b.copyEntry W.launch W.id q.sel p)
      else if entKind i.bits.toNat = 1 then some (fun (a : State) => let (p, b) := a.engPart i; b.collEntry W.launch W.id q.sel p)
      else some (fun (a : State) => a.nopEntry W.launch W.id q.sel))

/-- The node of a cursor of a core's Reel is executed. -/
def State.cursorNode (s : State) (core c : Nat) : State :=
  let R := (s.core core).reel
  match R.owner, R.cursor? c with
  | some o, some k =>
    let kind := match s.reelRead o ((R.graph &&& ~~~(0x1fff#64)) + BitVec.ofNat 64 (32 * k.node)) 32 with
      | .ok _ n => nodeKind n
      | _ => 0
    nextOr s (match kind with
      | 1 => execReelCopy core c s
      | 2 => execReelColl core c s
      | 3 => execReelWaitseq core c s
      | 4 => execReelWake core c s
      | 5 => execReelCond core c s
      | 6 => execReelWhile core c s
      | _ => execReelEnd core c s)
  | _, _ => s

/-- The events of a core: a stop arrives, a matrix pass moves, a cursor executes its node, a service record leaves the Basket. -/
def State.coreEvents (s : State) (K : Core) : List (State → State) :=
  (if K.stopIn.isEmpty then [] else [fun (a : State) => a.stopArrives K.id])
  ++ (match K.passes with
      | [] => []
      | p :: _ => if p.done then [fun (a : State) => a.matrixEnd K.id] else if s.passStalled K.id then [] else [fun (a : State) => a.matrixStep K.id])
  ++ (match K.reel.owner with
      | none => []
      | some o => (K.reel.cursors.filter (fun c => !c.stopped && !s.cursorStalled o.launch o.wg c.id)).map (fun c => fun (a : State) =>
          a.cursorNode K.id c.id))
  ++ (if (s.nextPush K.id).isSome then [fun (a : State) => a.pushBatch K.id] else [])

/-- The events of a submission queue: words that wait are written; its next packet starts. -/
def State.sqEvents (s : State) (q : SubQueue) : List (State → State) :=
  (if q.packets.any (fun p => p.result.isSome && !p.written) || (q.seqOut != q.seq && !s.asks (.seqWord q.id)) then [fun (a : State) => a.flushSq q.id] else [])
  ++ (match s.nextPacket q with
      | .none => []
      | .miss _ _ => if s.asks (.packet q.id q.taken) then [] else [fun (a : State) => nextOr a (execNopPacket q.id q.taken a)]
      | .fails b _ _ | .ready b =>
        if s.served q.die != some q.id || s.asks (.packet q.id q.taken) then []
        else [fun (a : State) => nextOr a (match pktKind b with
          | 0 => execLaunch q.id q.taken a
          | 1 => execFeed q.id q.taken a
          | 2 => execClose q.id q.taken a
          | _ => execNopPacket q.id q.taken a)])

/-- The events of a launch: a request to pre-empt it is acknowledged, it is killed, its words are written, its next workgroup is placed, it completes, a
window closes, a boundary completes or hangs. -/
def State.launchEvents (s : State) (L : Launch) : List (State → State) :=
  (if L.preempts.isEmpty then [] else [fun (a : State) => a.preemptAck L.id])
  ++ (if L.coverOut.isEmpty then [] else [fun (a : State) => a.flushCover L.id])
  ++ if L.done then []
  else
    (match L.doom with | some r => [fun (a : State) => a.killWith L.id r] | none => [])
    ++ (if L.words.isEmpty || s.asks (.word L.id) then [] else [fun (a : State) => a.flushWords L.id])
    ++ (if s.wantsPlace L then [fun (a : State) => a.place L.id] else [])
    ++ (if L.recd.wgcount ≤ L.retired.length then [fun (a : State) => a.completeLaunch L.id] else [])
    ++ (if L.ctrl.any (fun C => decide (C.window ≤ C.inWin)) then [fun (a : State) => a.windowClose L.id] else [])
    ++ (s.pending L).flatMap (fun i =>
        (if s.boundaryReady L i.1 i.2 then [fun (a : State) => a.passInstance (a.launch L.id) i.1 i.2] else [])
        ++ (match L.bounds.find? (fun k => k.scope == i.1 && k.node == i.2) with
            | some k => if hangLimit L.recd.barlimit ≤ k.count then
                (match (s.participants L i.1 i.2) with
                  | [] => []
                  | W :: _ => [fun (a : State) => a.barHang ⟨L.id, i.1, W.id⟩]) else []
            | none => []))

/-- The events of a workgroup: its boundary completes or hangs, it retires, is saved or restored, its tile is reconstructed. -/
def State.wgEvents (s : State) (W : Wg) : List (State → State) :=
  let r : WgRef := ⟨W.launch, W.id⟩
  s.queueEvents W
  ++ (if s.wgArrived W .wg && !s.wgHalted W then [fun (a : State) => a.wgBoundary W.launch W.id] else [])
  ++ (if W.pend == some .wg && hangLimit (s.launch W.launch).recd.barlimit ≤ W.barCount then [fun (a : State) => a.barHang ⟨W.launch, .wg, W.id⟩] else [])
  ++ (if s.canRetire W then [fun (a : State) => a.retire W] else [])
  ++ (if W.state == .evicting then [fun (a : State) => nextOr a (execWorkgroupSave r a)] else [])
  ++ (if W.state == .saved && !(s.launch W.launch).done then [fun (a : State) => a.restoreWg W] else [])
  ++ (match W.cover with
      | some k => if k.done then [] else [fun (a : State) => a.reconstruction W.launch W.id]
      | none => [])

/-- The events of a thread: a result returns, the policy acts on its fault. -/
def State.threadEvents (s : State) (T : Team) (th : Thread) : List (State → State) :=
  let r := T.ref th
  (if (s.returnable T th).isEmpty then [] else [fun (a : State) => a.returnOne r])
  ++ (match th.record with
      | some q =>
        let L := s.launch T.launch
        if th.status == .parked && s.awaitsAction T th q (L.action q) then [fun (a : State) => a.act (.thread r) (L.action q)] else []
      | none => [])

/-- Every event of the module's own units that can come about now; turns of the slices that have teams among them. -/
def State.events (s : State) : List (State → State) :=
  s.cores.flatMap s.coreEvents
  ++ s.sqs.flatMap s.sqEvents
  ++ s.launches.flatMap s.launchEvents
  ++ s.wgs.flatMap s.wgEvents
  ++ s.teams.flatMap (fun T => T.threads.flatMap (s.threadEvents T))
  ++ (match s.nlRecords with
      | (l, r) :: _ => [fun (a : State) => a.act (.unit 0) ((a.launch l).action r)]
      | [] => [])
  ++ (s.entries.filter (fun e => e.state == .hold && e.counts.any (fun n => decide (hangLimit (s.launch e.launch).recd.holdlimit ≤ n)))).map
      (fun e => fun (a : State) => nextOr a (execConvergenceHang e.id a))
  ++ (if s.env.isEmpty then [] else [State.envStep])
  ++ (s.requests.filter (·.released)).map (fun q => fun (a : State) => a.replayEntry q)
  ++ (if s.bring.stoland && s.bring.regions < s.allRegions then [fun (a : State) => a.regionInit] else [])
  ++ (List.range 8).flatMap (fun d =>
      (if s.bring.gondola.getLsbD d && !s.bring.compute.getLsbD d then [fun (a : State) => a.startCompute d] else [])
      ++ (if s.bring.gondola.getLsbD d && !s.bring.svc.getLsbD d then [fun (a : State) => a.startService d] else [])
      ++ (if (s.die d).traceOut.isEmpty then [] else [fun (a : State) => a.traceFlush d (s.die d).traceOut.length]))
  ++ (((s.teams.filter (fun T => T.core != noCore && !T.live.isEmpty)).map (fun T => (T.core, T.slice))).dedup).map
      (fun c => fun (a : State) => a.sliceTurn c.1 c.2)

/-- What happens where no operation is due and no group issues: one of the events, or a wait that is tried again. Which one is free. -/
def State.idle (s : State) : Host.Outcome State Fault Refusal :=
  let evs : List (State → Host.Outcome State Fault Refusal) :=
    s.events.map (fun f => fun (a : State) => .next (f a)) ++ (s.entries.filter s.polls).map (fun e => fun (a : State) => a.poll e)
  match evs with
  | [] => .next s
  | [f] => f s
  | _ =>
    let (k, s1) := s.pick evs.length
    match evs[k]? with
    | some f => f s1
    | none => .next s1

/-- A tick passes after what has been done. UNVERIFIED, log entry 90. -/
def afterTick (ran : List Team) (r : Host.Outcome State Fault Refusal) : Host.Outcome State Fault Refusal :=
  match r with
  | .next s => .next (if s.bring.powered then s.clock ran else s)
  | r => r

/-- What the module does by itself: the next slot of the issue group, else an event of its units; and a tick. DESIGN CHOICE, log entry 1.
DESIGN CHOICE, log entry 51. -/
def State.ownStep (s : State) : Host.Outcome State Fault Refusal :=
  match s.cur with
  | some c => afterTick (s.groupTeams c.entry) (s.runSlot c)
  | none => afterTick [] s.idle

/-- A step of a module whose clocks run: the operation that heads the agenda; else what the module does by itself, also where an instruction of a
program heads the agenda, which stands for one such step before the operations behind it. An operation that must wait lets the others by, and the
module goes on. DESIGN CHOICE, log entry 2. -/
def State.drive (s : State) : Host.Outcome State Fault Refusal :=
  match s.agenda with
  | i :: rest =>
    if !isOperation i then State.ownStep { s with agenda := rest }
    else if s.mustWait i then State.ownStep { s with agenda := rest ++ [i] }
    else exec i { s with agenda := rest }
  | [] => s.ownStep

/-- A step of a module whose clocks are gated: nothing but a module reset leaves that state (R414). -/
def State.driveGated (s : State) : Host.Outcome State Fault Refusal :=
  match s.agenda with
  | .moduleReset :: rest => exec .moduleReset { s with agenda := rest }
  | _ => .fault .clocksGated

end Sys2Proof.Machine
end

