-- ==== Sys2Proof/Machine/Step.lean ====
section
/-!
DEFINITION. Machine/Step.lean: one step of the module, and the placing of one instruction where the next step fetches.
-/

namespace Sys2Proof.Machine

/-- One step: the next operation of the agenda, else the next slot of the issue group, else an event of the module's own units. -/
def step (s : State) : Host.Outcome State Fault Refusal := if s.gated then s.driveGated else s.drive

/-- The page that holds the placed instruction: its virtual and its physical address. -/
def placedPage : Nat := 0x400000

/-- The bytes of a clause that holds one instruction: its header and its words. -/
def placedClause (nbits w : Nat) : List Byte :=
  let ws := tableWords nbits w
  let cls := ((firstClass ws Cls.all).map (·.1)).getD .int
  ((encodeHeader ⟨cls, 1, 0, 0⟩) :: ws).flatMap (fun x => leBytes 4 x.toNat)

/-- s with one instruction in a clause of its own, and with a team of 16 of firmware on the Gondola core of die 0 (R182) that issues it next: its translation is in
the TLB, its bytes lie in DRAM that can be reached, and nothing comes before it. DESIGN CHOICE, log entry 8. -/
def State.withFetchWord (s : State) (nbits w : Nat) : State :=
  let l := s.nextLaunch
  let e := s.nextEntry
  let va : BitVec 64 := BitVec.ofNat 64 placedPage
  let thread := fun (k : Nat) =>
    ({ lane := k, tid := BitVec.ofNat 32 k, v := List.replicate 256 0, clause := va, inside := true, entry := some e } : Thread)
  { s with
    gated := false, agenda := [], cur := some ⟨e, 0⟩
    bring := { s.bring with powered := true, regions := 48, stoland := true }
    links := List.replicate 48 { state := .up }
    mem := (placedClause nbits w).zipIdx.foldl (fun m b => Memory.write m (placedPage + b.2) b.1) s.mem
    badSeals := [], inflight := []
    tlb := { asid := 0, vpn := placedPage / 4096, bits := 12, ppn := placedPage / 4096, glob := false, w := true, u := true, nx := false, sh := 0 } :: s.tlb
    launches := s.launches ++ [{ id := l, sq := 1024, priv := true, nextWg := 1 }]
    nextLaunch := l + 1
    wgs := s.wgs ++ [{ launch := l, id := 0, state := .running, core := 32 }]
    teams := s.teams ++ [{ launch := l, wg := 0, idx := 0, width := 16, core := 32, slice := 0, span := 0, block := 0, bsize := 256
                           born := s.nextBorn, threads := (List.range 16).map thread }]
    nextBorn := s.nextBorn + 1
    entries := s.entries ++ [{ id := e, core := 32, slice := 0, launch := l, tag := 0, addr := va, team := some (0, 0)
                               mask := List.range 16, state := .issuing }]
    nextEntry := e + 1 }

end Sys2Proof.Machine
end

