-- ==== Sys2Proof/Safety.lean ====
section
/-!
DEFINITION. Safety.lean: the terms in which claims speak of a step: what a safe step is, what an instruction needs to complete
in every lane that executes it, and the state in which it has completed.
-/

namespace Sys2Proof.Machine

/-! ## Safe steps

A step that answers a next state is safe: faults of a program are exceptions and are next states (21 R393 to R399). The one stop
of the machine itself is the gating of every clock at STOP_TICK (23 R414). -/

/-- A step goes on. -/
def goesOn (r : Host.Outcome State Fault Refusal) : Bool :=
  match r with
  | .next _ => true
  | _ => false

/-- A state in which the next step goes on. -/
def State.safe (s : State) : Bool := goesOn (step s)

/-! ## Instructions whose lanes act each on its own registers (00 R9, R10) -/

/-- The team after its executing lanes have each done what h says and have finished the slot. -/
def Team.lanesDone (T : Team) (c : Cur) (g : Guard) (h : Thread → Thread) : Team :=
  T.mapThreads (fun th => if th.issuing c.entry && th.passes g then { h th with hold := .passed } else th)

/-- The team with values in its s registers, each destination once (R100). -/
def Team.writeSs (T : Team) (sd : List (Nat × Nat)) (vs : List Nat) : Team :=
  (sd.zip vs).foldl (fun T q => T.writeS q.1.1 q.1.2 q.2) T

/-- The module after the executing lanes of every team have each done what h says; the s destinations sd of a team that executes
take the values x. Nothing else changes. -/
def State.lanesDone (s : State) (c : Cur) (g : Guard) (sd : List (Nat × Nat)) (x : Team → List Nat)
    (h : Team → Thread → Thread) : State :=
  s.mapTeams (fun T =>
    if (T.executing c.entry g).isEmpty then T else (T.lanesDone c g (h T)).writeSs sd (x T))

/-- What an instruction of the registers does: its guard, its destination and its width, its sources with their widths, the v
registers it names besides, the sources that must be uniform whatever the destination, its s destinations, what a lane needs
besides, the values for the s destinations, and what a lane becomes. -/
structure LaneOp where
  g     : Guard
  d     : Dst := .discard
  w     : Nat := 32
  srcs  : List (Src × Nat) := []
  regs  : List Nat := []
  uni   : List (Src × Nat) := []
  sd    : List (Nat × Nat) := []
  ready : State → Cur → Team → Thread → Bool := fun _ _ _ _ => true
  res   : State → Cur → Team → Thread → List Nat := fun _ _ _ _ => []
  eff   : State → Cur → Team → Thread → Thread

/-- The v registers that an instruction names (R93). -/
def LaneOp.named (o : LaneOp) : List Nat := dstRegs o.w o.d ++ o.srcs.flatMap (fun q => srcRegs q.2 q.1) ++ o.regs

/-- The sources that must be uniform: an s destination makes every per-lane source one (R100). -/
def LaneOp.uniform (o : LaneOp) : List (Src × Nat) :=
  (if (sRegOf o.d).isSome then o.srcs.filter (fun q => perLaneSrc q.1) else []) ++ o.uni

/-- No register that a thread can read holds an uncorrectable error: none of its own or of its team's, and no predicate of its team that a mask
reads (R400). -/
def Team.sound (T : Team) (th : Thread) : Bool := th.ecc.isEmpty && T.ecc.isEmpty && T.threads.all (fun o => o.ecc.all (decide <| · < 0x150))

/-- What an instruction needs to complete in every lane: each register it names lies in the block of each team that issues (R93),
the sources that must be uniform are (R100), no register of an executing lane or its team holds an uncorrectable error (R400), each lane is
ready, and the lanes of a team agree on what goes to an s destination. -/
structure LaneOp.Ready (o : LaneOp) (s : State) (c : Cur) (x : Team → List Nat) : Prop where
  cur    : s.cur = some c
  block  : ∀ T ∈ s.teams, (∃ th ∈ T.threads, th.issuing c.entry = true) → ∀ k ∈ o.named, k < T.bsize
  agree  : ∀ T ∈ s.teams, ∀ th ∈ T.executing c.entry o.g, ∀ th' ∈ T.executing c.entry o.g, ∀ q ∈ o.uniform,
             readSrc (s.tickOf T) .int q.2 T th q.1 = readSrc (s.tickOf T) .int q.2 T th' q.1
  clean  : ∀ T ∈ s.teams, ∀ th ∈ T.executing c.entry o.g, T.sound th = true
  ready  : ∀ T ∈ s.teams, ∀ th ∈ T.executing c.entry o.g, o.ready s c T th = true
  scalar : o.sd ≠ [] → ∀ T ∈ s.teams, ∀ th ∈ T.executing c.entry o.g, o.res s c T th = x T

/-- The state in which an instruction has completed. -/
def LaneOp.done (o : LaneOp) (s : State) (c : Cur) (x : Team → List Nat) : State :=
  s.lanesDone c o.g o.sd x (o.eff s c)

end Sys2Proof.Machine
end

