-- ==== Sys2Proof/Certificates/Slice0/Obligations.lean ====
section
/-!
DEFINITION. Certificates/Slice0/Obligations.lean: the statements for the provers, and the terms in which they are made: what the rules
of the spec give each instruction and each operation of the module, written beside the machine and not from it.
-/

namespace Sys2Proof.Claims
open Sys2Proof Sys2Proof.Machine

/-! ## Instructions of the registers: what the rules give each -/

/-- What a source of w bits delivers to a lane. -/
def rd (s : State) (w : Nat) (T : Team) (th : Thread) (x : Src) : Nat := readSrc (s.tickOf T) .int w T th x

/-- What a source of 32 or 64 bits delivers, in its w bits. -/
def rdw (s : State) (w : Nat) (T : Team) (th : Thread) (x : Src) : Nat := rd s w T th x % 2 ^ w

/-- What a source of a floating type delivers. -/
def rdf (s : State) (t : Ty) (T : Team) (th : Thread) (x : Src) : Nat := readFlt (s.tickOf T) t T th x

/-- An instruction that writes the value v to one destination of w bits and shifts it into the last results, where the destination is no
predicate mask (R9, R98). -/
def writes (g : Guard) (d : Dst) (w : Nat) (srcs : List (Src × Nat)) (v : State → Team → Thread → Nat)
    (ready : State → Cur → Team → Thread → Bool := fun _ _ _ _ => true) : LaneOp :=
  { g := g, d := d, w := w, srcs := srcs, sd := sDest d w, ready := ready
    res := fun s _ T th => (sDest d w).map (fun _ => v s T th)
    eff := fun s _ T th => th.writeDest d w (v s T th) }

/-- One source of w bits. -/
def un (w : Nat) (g : Guard) (d : Dst) (a : Src) (f : Nat → Nat) : LaneOp :=
  writes g d w [(a, w)] (fun s T th => f (rdw s w T th a))

/-- Two sources of w bits. -/
def bin (w : Nat) (g : Guard) (d : Dst) (a b : Src) (f : Nat → Nat → Nat) : LaneOp :=
  writes g d w [(a, w), (b, w)] (fun s T th => f (rdw s w T th a) (rdw s w T th b))

/-- An instruction that changes nothing but the thread, from sources. -/
def sets (g : Guard) (srcs : List (Src × Nat)) (f : State → Team → Thread → Thread)
    (ready : State → Cur → Team → Thread → Bool := fun _ _ _ _ => true) : LaneOp :=
  { g := g, srcs := srcs, ready := ready, eff := fun s _ T th => f s T th }

/-- The shift of the last results when an outstanding result is issued, which takes the next tag; a predicate mask is no destination that
shifts (R98, R99, R184). A mark of an error moves with its value. -/
def shifted (d : Dst) (th : Thread) : Thread :=
  match d with
  | .pm _ => { th with nextTag := th.nextTag + 1 }
  | _ => { th with y1 := th.y0, y0 := { val := th.y0.val, tag := some th.nextTag }, nextTag := th.nextTag + 1, ecc := shiftMarks th.ecc true }

/-- An instruction whose result stays outstanding (R99, R185); the model notes the tick at which the instruction was first tried. -/
def awaits (g : Guard) (d : Dst) (w : Nat) (srcs : List (Src × Nat)) (prod : Producer) (v : State → Team → Thread → Nat)
    (e : State → Team → Thread → Exc := fun _ _ _ => 0) : LaneOp :=
  { g := g, d := d, w := w, srcs := srcs
    eff := fun s c T th =>
      { shifted d th with
        outst := th.outst ++ [{ tag := th.nextTag, dst := d, bits := w, val := v s T th, prod := prod, exc := e s T th
                                clause := th.clause, slot := c.slot, since := s.slotSince }] } }

/-- The number whose bit i, i below n, is f i. -/
def fromBits (n : Nat) (f : Nat → Bool) : Nat := ((List.range n).map (fun i => if f i then 2 ^ i else 0)).sum

/-- The integer class: 10 R186 to R204. -/
def intOp : Instr → Option LaneOp
  | .iaddI32 g d a b => some (bin 32 g d a b (fun x y => (x + y) % 2 ^ 32))
  | .isubI32 g d a b => some (bin 32 g d a b (fun x y => unsigned 32 ((x : Int) - y)))
  | .iaddI64 g d a b => some (bin 64 g d a b (fun x y => (x + y) % 2 ^ 64))
  | .isubI64 g d a b => some (bin 64 g d a b (fun x y => unsigned 64 ((x : Int) - y)))
  | .imulI32 g d a b => some (bin 32 g d a b (fun x y => x * y % 2 ^ 32))
  | .imulhiI32 g d a b => some (bin 32 g d a b (fun x y => unsigned 32 (signed 32 x * signed 32 y / 2 ^ 32)))
  | .imulhiN32 g d a b => some (bin 32 g d a b (fun x y => x * y / 2 ^ 32))
  | .iminI32 g d a b => some (bin 32 g d a b (fun x y => if signed 32 x ≤ signed 32 y then x else y))
  | .imaxI32 g d a b => some (bin 32 g d a b (fun x y => if signed 32 y ≤ signed 32 x then x else y))
  | .iminN32 g d a b => some (bin 32 g d a b min)
  | .imaxN32 g d a b => some (bin 32 g d a b max)
  | .andB32 g d a b => some (bin 32 g d a b (fun x y => fromBits 32 (fun i => x.testBit i && y.testBit i)))
  | .orB32 g d a b => some (bin 32 g d a b (fun x y => fromBits 32 (fun i => x.testBit i || y.testBit i)))
  | .xorB32 g d a b => some (bin 32 g d a b (fun x y => fromBits 32 (fun i => x.testBit i != y.testBit i)))
  | .andnB32 g d a b => some (bin 32 g d a b (fun x y => fromBits 32 (fun i => x.testBit i && !y.testBit i)))
  | .shl g d a b => some (bin 32 g d a b (fun x k => if 32 ≤ k then 0 else x * 2 ^ k % 2 ^ 32))
  | .shr g d a b => some (bin 32 g d a b (fun x k => if 32 ≤ k then 0 else x / 2 ^ k))
  | .sar g d a b => some (bin 32 g d a b (fun x k =>
      if 32 ≤ k then (if signed 32 x < 0 then 2 ^ 32 - 1 else 0) else unsigned 32 (signed 32 x / 2 ^ k)))
  | .rotl g d a b => some (bin 32 g d a b (fun x k => x * 2 ^ (k % 32) % 2 ^ 32 + x / 2 ^ (32 - k % 32)))
  | .popc g d a => some (un 32 g d a (fun x => ((List.range 32).filter x.testBit).length))
  | .clz g d a => some (un 32 g d a (fun x => ((List.range 32).reverse.takeWhile (fun i => !x.testBit i)).length))
  | .ctz g d a => some (un 32 g d a (fun x => ((List.range 32).takeWhile (fun i => !x.testBit i)).length))
  | .brev g d a => some (un 32 g d a (fun x => fromBits 32 (fun i => x.testBit (31 - i))))
  | .iabsI32 g d a => some (un 32 g d a (fun x => (signed 32 x).natAbs))
  | .inegI32 g d a => some (un 32 g d a (fun x => (2 ^ 32 - x) % 2 ^ 32))
  | .mov g d a => some (un 32 g d a id)
  | .pand g d a b => some (sets g [] (fun _ _ th => th.setP d (th.p.getLsbD a && th.p.getLsbD b)))
  | .por g d a b => some (sets g [] (fun _ _ th => th.setP d (th.p.getLsbD a || th.p.getLsbD b)))
  | .pxor g d a b => some (sets g [] (fun _ _ th => th.setP d (th.p.getLsbD a != th.p.getLsbD b)))
  | .pnot g d a => some (sets g [] (fun _ _ th => th.setP d (!th.p.getLsbD a)))
  | .movi g d k => some (writes g d 32 [] (fun _ _ _ => k.toNat))
  | .iaddi g d a k => some (un 32 g d a (fun x => (x + k.toNat) % 2 ^ 32))
  | .andi g d a k => some (un 32 g d a (fun x => fromBits 32 (fun i => x.testBit i && k.getLsbD i)))
  | .ori g d a k => some (un 32 g d a (fun x => fromBits 32 (fun i => x.testBit i || k.getLsbD i)))
  | .xori g d a k => some (un 32 g d a (fun x => fromBits 32 (fun i => x.testBit i != k.getLsbD i)))
  | .imad g ty d a b c => let w := ty.opBits
    some (writes g d w [(a, w), (b, w), (c, w)] (fun s T th => (rdw s w T th a * rdw s w T th b + rdw s w T th c) % 2 ^ w))
  | .idiv g ty d a b => let w := ty.opBits
    some (awaits g d w [(a, w), (b, w)] .arith (fun s T th => (divRem ty (rd s w T th a) (rd s w T th b)).1))
  | .irem g ty d a b => let w := ty.opBits
    some (awaits g d w [(a, w), (b, w)] .arith (fun s T th => (divRem ty (rd s w T th a) (rd s w T th b)).2))
  | .icmp g ty cc d a b => let w := ty.opBits
    some (sets g [(a, w), (b, w)] (fun s T th =>
      let x := intVal ty (rd s w T th a)
      let y := intVal ty (rd s w T th b)
      th.setP d (match cc with
        | .eq => decide (x = y) | .ne => decide (x ≠ y) | .lt => decide (x < y)
        | .le => decide (x ≤ y) | .gt => decide (x > y) | .ge => decide (x ≥ y))))
  | .sel g ty d a b c => let w := ty.opBits
    some (writes g d w [(a, w), (b, w)] (fun s T th => if th.p.getLsbD c then rd s w T th a else rd s w T th b))
  | .lea g ty sh d a b =>
    some (writes g d 64 [(a, 64), (b, 32)] (fun s T th =>
      let y := rdw s 32 T th b
      (rdw s 64 T th a + (if ty = .i32 then unsigned 64 (signed 32 y) else y) * 2 ^ sh) % 2 ^ 64))
  | .iaddc g ty d a b c => let w := ty.opBits
    let v := fun s T (th : Thread) => rdw s w T th a + rdw s w T th b + (th.p.getLsbD c).toNat
    some { writes g d w [(a, w), (b, w)] (fun s T th => v s T th % 2 ^ w) with
           eff := fun s _ T th => (th.setP c (decide (2 ^ w ≤ v s T th))).writeDest d w (v s T th % 2 ^ w) }
  | .isubb g ty d a b c => let w := ty.opBits
    let v := fun s T (th : Thread) => (rdw s w T th a : Int) - rdw s w T th b - (th.p.getLsbD c).toNat
    some { writes g d w [(a, w), (b, w)] (fun s T th => unsigned w (v s T th)) with
           eff := fun s _ T th => (th.setP c (decide (v s T th < 0))).writeDest d w (unsigned w (v s T th)) }
  | .bfe g ty d a b => let w := ty.opBits
    some (writes g d w [(a, w), (b, 32)] (fun s T th => bfeOp (isSigned ty) w (rd s w T th a) (rd s 32 T th b)))
  | .bfi g ty d a b c => let w := ty.opBits
    some (writes g d w [(a, w), (b, w), (c, 32)] (fun s T th => bfiOp w (rd s w T th a) (rd s w T th b) (rd s 32 T th c)))
  | .iaddL g ty sat d a b => let w := ty.opBits
    some (writes g d w [(a, w), (b, w)] (fun s T th =>
      let r := intVal ty (rd s w T th a) + intVal ty (rd s w T th b)
      intReg ty (if sat then max (min r (intMax ty)) (intMin ty) else r)))
  | .shf g ty right d a b c => let w := ty.opBits
    some (writes g d w [(a, w), (b, w), (c, 32)] (fun s T th => shfOp right w (rd s w T th a) (rd s w T th b) (rd s 32 T th c)))
  | .setix g ix a =>
    some (sets g [(a, 32)]
      (fun s T th => { th with ix := setAt th.ix ix (BitVec.ofNat 32 (rd s 32 T th a)) })
      (fun s _ T th =>
        let x := rdw s 32 T th a
        bitsOf x 8 8 == 0 && bitsOf x 25 7 == 0 && decide (bitsOf x 16 9 ≤ 256) && decide (bitsOf x 0 8 + bitsOf x 16 9 ≤ T.bsize)))
  | .movx g ty ix d a => let w := ty.opBits
    let e := fun s T (th : Thread) => ixBase (th.ix.getD ix 0) + rd s 32 T th a
    some (writes g d w [(a, 32)] (fun s T th => regsNat (fun k => th.v.getD k 0) (e s T th) (w / 32))
      (fun s _ T th => !s.ixWaits T th ix && decide (rd s 32 T th a + (w / 32 - 1) < ixLimit (th.ix.getD ix 0))
        && (w == 32 || e s T th % 2 == 0)))
  | .stx g ty ix a b => let w := ty.opBits
    let e := fun s T (th : Thread) => ixBase (th.ix.getD ix 0) + rd s 32 T th a
    some (sets g [(a, 32), (b, w)] (fun s T th => th.writeDest (.v (e s T th)) w (rd s w T th b))
      (fun s _ T th => !s.ixWaits T th ix && decide (rd s 32 T th a + (w / 32 - 1) < ixLimit (th.ix.getD ix 0))
        && (w == 32 || e s T th % 2 == 0)))
  | .pmovTo g d a => some (sets g [(a, 32)] (fun s T th => th.setP d (decide (rd s 32 T th a ≠ 0))))
  | .pmovFrom g d a => some (writes g d 32 [] (fun _ _ th => if th.p.getLsbD a then 1 else 0))
  | .icvt g ty sty sat d a =>
    some (writes g d ty.opBits [(a, sty.opBits)] (fun s T th =>
      let x := intVal sty (rd s sty.opBits T th a)
      intReg ty (if sat then max (min x (intMax ty)) (intMin ty) else x)))
  | _ => none

end Sys2Proof.Claims

namespace Sys2Proof.Claims
open Sys2Proof Sys2Proof.Machine

/-- A floating instruction: the value f, its exceptions added to the sticky flags, none of them enabled (R119). -/
def floats (g : Guard) (d : Dst) (w : Nat) (srcs : List (Src × Nat)) (f : State → Team → Thread → FRes) : LaneOp :=
  { writes g d w srcs (fun s T th => (f s T th).bits) with
    ready := fun s _ T th => (f s T th).exc &&& modeEnables th.mode == 0
    eff := fun s _ T th =>
      { th with mode := th.mode ||| (f s T th).exc.zeroExtend 32 }.writeDest d w (f s T th).bits }

/-- One floating source. -/
def fun1 (t : Ty) (g : Guard) (d : Dst) (a : Src) (f : Nat → FRes) : LaneOp :=
  floats g d t.opBits [(a, t.opBits)] (fun s T th => f (rdf s t T th a))

/-- Two floating sources. -/
def fun2 (t : Ty) (g : Guard) (d : Dst) (a b : Src) (f : Nat → Nat → FRes) : LaneOp :=
  floats g d t.opBits [(a, t.opBits), (b, t.opBits)] (fun s T th => f (rdf s t T th a) (rdf s t T th b))

/-- Element k of a packed source; a constant is every element (R206). -/
def rdh (s : State) (t : Ty) (T : Team) (th : Thread) (x : Src) (k : Nat) : Nat :=
  match x with
  | .one | .zero | .imm _ => rdf s t T th x
  | _ => bitsOf (rd s 32 T th x) (16 * k) 16

/-- A packed result: element by element, the exceptions united (R206). -/
def packed (g : Guard) (d : Dst) (w : Nat) (srcs : List Src) (f : State → Team → Thread → Nat → FRes) : LaneOp :=
  floats g d w (srcs.map (·, w)) (fun s T th =>
    { bits := (f s T th 0).bits + 2 ^ 16 * (f s T th 1).bits, exc := (f s T th 0).exc ||| (f s T th 1).exc })

/-- Two packed sources. -/
def pack2 (t : Ty) (g : Guard) (d : Dst) (a b : Src) (f : Nat → Nat → FRes) : LaneOp :=
  packed g d 32 [a, b] (fun s T th k => f (rdh s t T th a k) (rdh s t T th b k))

/-- a + b and a * b of values read under .ftz, and a * b + c with one rounding (R208, R209). -/
def fsum (t : Ty) (rm : Rm) (ftz : Bool) (a b : Nat) : FRes := faddV t rm ftz (fread t ftz a) (fread t ftz b)
def fprod (t : Ty) (rm : Rm) (ftz : Bool) (a b : Nat) : FRes := fmulV t rm ftz (fread t ftz a) (fread t ftz b)
def fmulsum (t : Ty) (rm : Rm) (ftz : Bool) (a b c : Nat) : FRes := fmaV t rm ftz (fread t ftz a) (fread t ftz b) (fread t ftz c)

/-- The number of the bit that fclass sets (R214). -/
def classBit (t : Ty) (a : Nat) : Nat :=
  match fval t a with
  | .nan sig => if sig then 0 else 1
  | .inf neg => if neg then 2 else 9
  | .fin neg m _ =>
    if m = 0 then (if neg then 5 else 6)
    else if m / 2 ^ (fmtOf t).tbits = 0 then (if neg then 4 else 7)
    else if neg then 3 else 8

/-- Are both destinations predicate masks, so that nothing shifts (R98)? -/
def onlyMasks (d c : Dst) : Bool :=
  match d, c with
  | .pm _, .pm _ => true
  | _, _ => false

/-- The packed source of funpack: a constant is every element, in the packed format (R97, R206, R219). -/
def packedSrc (s : State) (t : Ty) (T : Team) (th : Thread) (x : Src) : Nat :=
  match x with
  | .one | .zero | .imm _ => joinElems (elemBits t) (List.replicate (32 / elemBits t) (rdf s t T th x))
  | _ => rd s 32 T th x

/-- The floating class: 11 R205 to R223. -/
def fltOp : Instr → Option LaneOp
  | .faddF64 g d a b => some (fun2 .f64 g d a b (fsum .f64 .rne false))
  | .faddF32 g d a b => some (fun2 .f32 g d a b (fsum .f32 .rne false))
  | .fsubF64 g d a b => some (fun2 .f64 g d a b (fun x y => faddV .f64 .rne false (fval .f64 x) (fval .f64 y).negate))
  | .fsubF32 g d a b => some (fun2 .f32 g d a b (fun x y => faddV .f32 .rne false (fval .f32 x) (fval .f32 y).negate))
  | .fmulF64 g d a b => some (fun2 .f64 g d a b (fprod .f64 .rne false))
  | .fmulF32 g d a b => some (fun2 .f32 g d a b (fprod .f32 .rne false))
  | .fminF64 g d a b => some (fun2 .f64 g d a b (fminmax .f64 false))
  | .fminF32 g d a b => some (fun2 .f32 g d a b (fminmax .f32 false))
  | .fmaxF64 g d a b => some (fun2 .f64 g d a b (fminmax .f64 true))
  | .fmaxF32 g d a b => some (fun2 .f32 g d a b (fminmax .f32 true))
  | .fabsF64 g d a => some (fun1 .f64 g d a (fun x => ⟨x % 2 ^ 63, 0⟩))
  | .fabsF32 g d a => some (fun1 .f32 g d a (fun x => ⟨x % 2 ^ 31, 0⟩))
  | .fnegF64 g d a => some (fun1 .f64 g d a (fun x => ⟨(x + 2 ^ 63) % 2 ^ 64, 0⟩))
  | .fnegF32 g d a => some (fun1 .f32 g d a (fun x => ⟨(x + 2 ^ 31) % 2 ^ 32, 0⟩))
  | .faddH2 g d a b => some (pack2 .f16 g d a b (fsum .f16 .rne false))
  | .fmulH2 g d a b => some (pack2 .f16 g d a b (fprod .f16 .rne false))
  | .faddB2 g d a b => some (pack2 .bf16 g d a b (fsum .bf16 .rne false))
  | .fmulB2 g d a b => some (pack2 .bf16 g d a b (fprod .bf16 .rne false))
  | .frcpF32 g d a => some (fun1 .f32 g d a frcp)
  | .frsqF32 g d a => some (fun1 .f32 g d a frsq)
  | .fexp2F32 g d a => some (fun1 .f32 g d a fexp2)
  | .flog2F32 g d a => some (fun1 .f32 g d a flog2)
  | .fsinpiF32 g d a => some (fun1 .f32 g d a fsinpi)
  | .fcospiF32 g d a => some (fun1 .f32 g d a fcospi)
  | .ftanhF32 g d a => some (fun1 .f32 g d a ftanh)
  | .fclassF64 g d a => some (writes g d 32 [(a, 64)] (fun s T th => 2 ^ classBit .f64 (rdf s .f64 T th a)))
  | .fclassF32 g d a => some (writes g d 32 [(a, 32)] (fun s T th => 2 ^ classBit .f32 (rdf s .f32 T th a)))
  | .fma g ty rm ftz pk d a b c => some (if pk
      then packed g d ty.opBits [a, b, c]
        (fun s T th k => fmulsum ty rm ftz (rdh s ty T th a k) (rdh s ty T th b k) (rdh s ty T th c k))
      else floats g d ty.opBits [(a, ty.opBits), (b, ty.opBits), (c, ty.opBits)]
        (fun s T th => fmulsum ty rm ftz (rdf s ty T th a) (rdf s ty T th b) (rdf s ty T th c)))
  | .faddL g ty rm ftz pk d a b => some (if pk then pack2 ty g d a b (fsum ty rm ftz) else fun2 ty g d a b (fsum ty rm ftz))
  | .fmulL g ty rm ftz pk d a b => some (if pk then pack2 ty g d a b (fprod ty rm ftz) else fun2 ty g d a b (fprod ty rm ftz))
  | .fdiv g ty rm ftz d a b => let w := ty.opBits
    let q := fun s T th => fdivV ty rm ftz (fread ty ftz (rdf s ty T th a)) (fread ty ftz (rdf s ty T th b))
    some (awaits g d w [(a, w), (b, w)] .arith (fun s T th => (q s T th).bits) (fun s T th => (q s T th).exc))
  | .fsqrt g ty rm ftz d a => let w := ty.opBits
    let q := fun s T th => fsqrtV ty rm ftz (fread ty ftz (rdf s ty T th a))
    some (awaits g d w [(a, w)] .arith (fun s T th => (q s T th).bits) (fun s T th => (q s T th).exc))
  | .fcmp g ty cc d a b => let w := ty.opBits
    let q := fun s T th => fcondHolds cc (fval ty (rdf s ty T th a)) (fval ty (rdf s ty T th b))
    some (sets g [(a, w), (b, w)]
      (fun s T th => { th with mode := th.mode ||| (q s T th).2.zeroExtend 32 }.setP d (q s T th).1)
      (fun s _ T th => (q s T th).2 &&& modeEnables th.mode == 0))
  | .fcvt g ty sty rm sat d a =>
    some (floats g d ty.opBits [(a, sty.opBits)] (fun s T th => fconvert ty rm (sat && !widens sty ty) (fval sty (rdf s sty T th a))))
  | .frnd g ty rm d a => some (fun1 ty g d a (frndBits ty rm))
  | .fcvti g ty sty rm d a =>
    some (floats g d ty.opBits [(a, sty.opBits)] (fun s T th => floatToInt ty sty rm (rdf s sty T th a)))
  | .icvtf g ty sty rm d a =>
    some (floats g d ty.opBits [(a, sty.opBits)] (fun s T th =>
      roundDyadic ty rm false false false (intVal sty (rd s sty.opBits T th a)) 0))
  | .fscale g ty rm d a b => let w := ty.opBits
    some (floats g d w [(a, w), (b, 32)] (fun s T th => fscaleBits ty rm (rdf s ty T th a) (signed 32 (rdw s 32 T th b))))
  | .ffrexp g ty d a c => let w := ty.opBits
    let q := fun s T th => frexpBits ty (rdf s ty T th a)
    some { g := g, d := d, w := w, srcs := [(a, w)], regs := dstRegs 32 c, sd := sDest d w ++ sDest c 32
           uni := if (sRegOf c).isSome then [(a, w)].filter (fun q => perLaneSrc q.1) else []
           ready := fun s _ T th => (q s T th).1.exc &&& modeEnables th.mode == 0
           res := fun s _ T th => (sDest d w).map (fun _ => (q s T th).1.bits) ++ (sDest c 32).map (fun _ => (q s T th).2)
           eff := fun s _ T th =>
             let th1 := ({ th with mode := th.mode ||| (q s T th).1.exc.zeroExtend 32 }.put d w (q s T th).1.bits).put c 32 (q s T th).2
             if onlyMasks d c then th1 else th1.shiftY (q s T th).1.bits }
  | .fpack g ty sty rm sat d a b => let w := packBits ty sty
    some (floats g d 32 [(a, w), (b, 32)] (fun s T th =>
      fpackBits ty sty rm sat (readPack (s.tickOf T) sty w T th a) (rdf s .f32 T th b)))
  | .funpack g ty sty d a b => let w := unpackBits ty sty
    some (floats g d w [(a, 32), (b, 32)] (fun s T th => funpackBits ty sty (packedSrc s sty T th a) (rdf s .f32 T th b)))
  | .fdot2 g ty rm d a b c =>
    some (floats g d 32 [(a, 32), (b, 32), (c, 32)] (fun s T th =>
      fdot2Bits ty rm (rdh s ty T th a 0, rdh s ty T th a 1) (rdh s ty T th b 0, rdh s ty T th b 1) (rdf s .f32 T th c)))
  | _ => none

/-! ## Instructions whose lanes read each other: 12 R224 to R234. G is the lanes of the team that execute. -/

/-- G. -/
def G (c : Cur) (g : Guard) (T : Team) : List Thread := T.executing c.entry g

/-- The lane of G that has a number, if there is one. -/
def laneAt (c : Cur) (g : Guard) (T : Team) (k : Int) : Option Thread := (G c g T).find? (fun o => decide ((o.lane : Int) = k))

/-- A result of 32 bits that depends on G. -/
def fromG (g : Guard) (d : Dst) (w : Nat) (srcs : List (Src × Nat)) (v : State → Cur → Team → Thread → Nat) : LaneOp :=
  { g := g, d := d, w := w, srcs := srcs, sd := sDest d w
    res := fun s c T th => (sDest d w).map (fun _ => v s c T th)
    eff := fun s c T th => th.writeDest d w (v s c T th) }

/-- A shuffle from the lane numbered k of the own number and of B: its A, or the own A where no such lane takes part (R227). -/
def shuffles (g : Guard) (d : Dst) (a b : Src) (k : Nat → Nat → Int) : LaneOp :=
  fromG g d 32 [(a, 32), (b, 32)] (fun s c T th =>
    let n := k th.lane (rd s 32 T th b)
    if 0 ≤ n ∧ n < T.width then rd s 32 T ((laneAt c g T n).getD th) a else rd s 32 T th a)

/-- A predicate of each lane of G (R228). -/
def voteSets (g : Guard) (d : Nat) (srcs : List (Src × Nat)) (v : State → Cur → Team → Bool) : LaneOp :=
  { g := g, srcs := srcs, eff := fun s c T th => th.setP d (v s c T) }

/-- A reduction over the lanes of G that set gives each lane, by the tree of R232, the identity where there is none. -/
def reduces (g : Guard) (op : RedOp) (t : Ty) (rm : Rm) (d : Dst) (a : Src) (set : Nat → Nat → Bool) : LaneOp :=
  let q := fun s c T (th : Thread) =>
    (treeReduce (redCombine op t rm) T.width.log2 ((List.range T.width).map (fun j =>
      if set th.lane j then ((G c g T).find? (·.lane == j)).map (fun o => (⟨redRead (State.tickOf s T) t T a o, 0⟩ : FRes)) else none))).getD
        ⟨redIdentity op t, 0⟩
  { fromG g d t.opBits [(a, t.opBits)] (fun s c T th => redReg t (q s c T th).bits) with
    ready := fun s c T th => (q s c T th).exc &&& modeEnables th.mode == 0
    eff := fun s c T th =>
      { th with mode := th.mode ||| (q s c T th).exc.zeroExtend 32 }.writeDest d t.opBits (redReg t (q s c T th).bits) }

/-- The register group of k registers that zip or unzip writes into a lane: its element i of register r is the element of the
team's source group that zipPlace names (R234). -/
def zips (unzip : Bool) (g : Guard) (ty : Ty) (k : Nat) (d : Dst) (a : Src) : LaneOp :=
  let b := intBits ty
  let e := 32 / b
  let v := fun s T (th : Thread) => joinElems 32 ((List.range k).map (fun r => joinElems b ((List.range e).map (fun i =>
      zipElem (State.tickOf s T) b k T a (zipPlace unzip k (T.width * e) (r * (T.width * e) + th.lane * e + i))))))
  { g := g, d := d, w := 32 * k, srcs := [(a, 32 * k)]
    eff := fun s _ T th => (th.put d (32 * k) (v s T th)).shiftY (v s T th % 2 ^ 32) }

/-- The cross-lane class without the bound-limb instructions: 12 R224 to R234. -/
def xlOp : Instr → Option LaneOp
  | .shflIdx g d a b => some (shuffles g d a b (fun _ k => k))
  | .shflUp g d a b => some (shuffles g d a b (fun l k => (l : Int) - k))
  | .shflDn g d a b => some (shuffles g d a b (fun l k => (l : Int) + k))
  | .shflXor g d a b => some (shuffles g d a b (fun l k => ((l ^^^ k : Nat) : Int)))
  | .voteAll g d a => some (voteSets g d [] (fun _ c T => (G c g T).all (·.p.getLsbD a)))
  | .voteAny g d a => some (voteSets g d [] (fun _ c T => (G c g T).any (·.p.getLsbD a)))
  | .voteBallot g d a => some (fromG g d 32 [] (fun _ c T th =>
      bitsOf (((G c g T).filter (·.p.getLsbD a)).map (fun o => 2 ^ o.lane)).sum (32 * (th.lane / 32)) 32))
  | .voteEq g d a => some (voteSets g d [(a, 32)] (fun s c T =>
      (G c g T).all (fun th => (G c g T).all (fun o => rd s 32 T th a == rd s 32 T o a))))
  | .lbcast g d a b =>
    some { fromG g d 32 [(a, 32), (b, 32)] (fun s c T th => rd s 32 T ((laneAt c g T (rd s 32 T th b)).getD th) a) with
           uni := [(b, 32)], ready := fun s c T th => (laneAt c g T (rd s 32 T th b)).isSome }
  | .matchLanes g d a => some (fromG g d 32 [(a, 32)] (fun s c T th =>
      let same := (G c g T).filter (fun o => rd s 32 T o a == rd s 32 T th a)
      ((same.map (·.lane)).min?.getD 0) + 2 ^ 8 * same.length + 2 ^ 16 * (same.filter (fun o => o.lane < th.lane)).length))
  | .redAddI32 g d a => some (reduces g .add .i32 .rne d a (fun _ _ => true))
  | .redAddF32 g d a => some (reduces g .add .f32 .rne d a (fun _ _ => true))
  | .scanAddI32 g d a => some (reduces g .add .i32 .rne d a (fun l j => decide (j ≤ l)))
  | .red g op ty rm d a => some (reduces g op ty rm d a (fun _ _ => true))
  | .scan g op ty rm excl d a => some (reduces g op ty rm d a (fun l j => if excl then decide (j < l) else decide (j ≤ l)))
  | .zip g ty k d a => some (zips false g ty k d a)
  | .unzip g ty k d a => some (zips true g ty k d a)
  | _ => none

/-- What zip and unzip need of each team of the group: every thread of the team executes (R234). -/
def fullTeams : Instr → Bool
  | .zip .. | .unzip .. => true
  | _ => false

/-! ## The bound-limb instructions: 13 R239 to R247 -/

/-- The limb width b of a team (R235): 64 where BLC bit 23 is set. -/
def limbW (T : Team) : Nat := if T.blc.getLsbD 23 then 64 else 32

/-- WriteLimbs of the number n: the lane's own limb, and the overflow flag of lane 0 where n does not fit N bits (R236). -/
def limbs (T : Team) (th : Thread) (d : Dst) (n : Int) : Thread :=
  let N := T.width * limbW T
  let th1 := if th.lane = 0 ∧ ¬(-(2 ^ (N - 1) : Int) ≤ n ∧ n < 2 ^ (N - 1)) then th.setP 11 true else th
  th1.writeDest d (limbW T) (bitsOf (unsigned N n) (limbW T * th.lane) (limbW T))

/-- An instruction that writes a bound number from bound numbers and other sources. -/
def limbWrites (b : Nat) (g : Guard) (d : Dst) (srcs : List Src) (n : Team → Int) : LaneOp :=
  { g := g, srcs := srcs.map (·, b), regs := srcRegs b (Dst.asSrc d), eff := fun _ _ T th => limbs T th d (n T) }

/-- The limb instructions, for the limb width b. -/
def limbOp (b : Nat) : Instr → Option LaneOp
  | .wadd g d x y => some (limbWrites b g d [x, y] (fun T => T.limbValue x + T.limbValue y))
  | .wsub g d x y => some (limbWrites b g d [x, y] (fun T => T.limbValue x - T.limbValue y))
  | .wneg g d x => some (limbWrites b g d [x] (fun T => -T.limbValue x))
  | .wclr g d => some (limbWrites b g d [] (fun _ => 0))
  | .wshl g d x k => some { limbWrites b g d [x] (fun _ => 0) with
      srcs := [(x, b), (k, 32)], uni := [(k, 32)]
      eff := fun s _ T th => limbs T th d (T.limbValue x * 2 ^ rd s 32 T th k) }
  | .wshr g d x k => some { limbWrites b g d [x] (fun _ => 0) with
      srcs := [(x, b), (k, 32)], uni := [(k, 32)]
      eff := fun s _ T th => limbs T th d (T.limbValue x / 2 ^ rd s 32 T th k) }
  | .wsign g d x => some (writes g d 32 [(x, b)] (fun _ T _ => unsigned 32 (T.limbValue x).sign))
  | .wcmp g d x y => some (writes g d 32 [(x, b), (y, b)] (fun _ T _ =>
      if T.limbValue x < T.limbValue y then 2 ^ 32 - 1 else if T.limbValue x = T.limbValue y then 0 else 1))
  | .wmacF64 g d x y =>
    let p := fun s (T : Team) th => macProduct (T.blc.extractLsb' 0 13).toInt (fval .f64 (rdf s .f64 T th x)) (fval .f64 (rdf s .f64 T th y))
    let v := fun s (T : Team) th => match p s T th with | some (some k) => k | _ => 0
    let sum := fun s (T : Team) th => if macUniform x && macUniform y then v s T th else ((T.live.map (v s T)).sum : Int)
    some { g := g, srcs := [(Dst.asSrc d, b), (x, 64), (y, 64)]
           ready := fun s c T _ => (T.executing c.entry g).all (fun o => match p s T o with | some (some _) => true | _ => false)
             && (T.executing c.entry g).all (fun o => decide ((sum s T o).natAbs < 2 ^ (T.width * limbW T - 1)))
           eff := fun s _ T th => limbs T th d (T.limbValue (Dst.asSrc d) + sum s T th) }
  | .wnorm g rm d x =>
    let q := fun (T : Team) => roundDyadic .f64 rm false false false (T.limbValue x) (T.blc.extractLsb' 0 13).toInt
    some (floats g d 64 [(x, b)] (fun _ T _ => q T))
  | _ => none

/-- The fields of a limb instruction that name bound numbers, which a limb width of 64 wants even (R240). -/
def limbFields : Instr → List Src
  | .wadd _ d x y | .wsub _ d x y => [Dst.asSrc d, x, y]
  | .wneg _ d x => [Dst.asSrc d, x]
  | .wclr _ d => [Dst.asSrc d]
  | .wshl _ d x _ | .wshr _ d x _ => [Dst.asSrc d, x]
  | .wsign _ _ x | .wnorm _ _ _ x => [x]
  | .wcmp _ _ x y => [x, y]
  | .wmacF64 _ d _ _ => [Dst.asSrc d]
  | _ => []

/-- What a limb instruction with guard g and sources srcs needs of the one team of its group (R239 to R241): it is bound, every
live thread executes, the fields that name bound numbers may name them, and nothing it reads is outstanding or has ended in a fault. -/
structure LimbReady (i : Instr) (o : LaneOp) (s : State) (c : Cur) (T : Team) : Prop where
  one   : s.groupTeams c.entry = [T]
  bound : T.blc.getLsbD 31 = true
  all   : (T.executing c.entry o.g).length = T.live.length ∧ T.executing c.entry o.g ≠ []
  named : ∀ x ∈ limbFields i, limbField (limbW T) x = true
  quiet : s.limbWaits T (o.srcs.map (fun q => ⟨0, q.1, q.2⟩)) = false
  whole : T.limbFault (o.srcs.map (fun q => ⟨0, q.1, q.2⟩)) = none

end Sys2Proof.Claims

namespace Sys2Proof.Claims
open Sys2Proof Sys2Proof.Machine

/-! ## Instructions of the CTL, MEM, MAT and SYS classes whose lanes act each on its own thread -/

/-- A taken transfer to t: the loop levels of the present depth that it leaves are removed (17 R317, R326). -/
def jumps (th : Thread) (t : BitVec 64) : Thread :=
  { th with next := some t
            loops := th.loops.dropWhile (fun v => v.depth == th.rstack.length + th.bc
              && !(decide (v.l.toNat ≤ t.toNat) && decide (t.toNat < v.x.toNat))) }

/-- The address of the offset forms: CA + 4 * offset (17 R317). -/
def offsetOf (th : Thread) (off : Int) : BitVec 64 := th.clause + BitVec.ofInt 64 (4 * off)

/-- The tile that a team names, with the V, state and error of its entry (03 R62, R63, R65). -/
def tileHas (s : State) (T : Team) (t : Nat) (f : BitVec 128 → Bool) : Bool :=
  match s.tileOf T t with
  | .ok (_, c, n) => f (s.tile c n)
  | .error _ => false

/-- The accumulator element that a lane names, where it lies in the team's window and no pass owns its row (15 R292, R293). -/
def accFree (s : State) (T : Team) (th : Thread) (a b : Src) : Bool :=
  let r := accBase (s.wg T.launch T.wg).accblk + rd s 32 T th a
  decide (accBase T.accwin ≤ r) && decide (r < accLimit T.accwin) && decide (rd s 32 T th b < 32) && !s.rowOwned T.core r
    && !(s.core T.core).eccRows.contains r

/-- The bits of that element. -/
def accElem (s : State) (T : Team) (th : Thread) (a b : Src) : Nat :=
  ((s.core T.core).accWord ((accBase (s.wg T.launch T.wg).accblk + rd s 32 T th a) * 32 + rd s 32 T th b)).toNat

/-- May a lane of a memory instruction that began in the state s0 issue, as far as other threads go: its core's replay buffer had room then and,
in a bound team, no thread of the team had an access there (02 R45, 13 R239)? -/
def roomAt (s0 : State) (T : Team) : Bool :=
  !s0.replayFull T.core && !(T.blc.getLsbD 31 && T.live.any (fun o => s0.replays (T.ref o)))

/-- May a lane of a memory instruction that is more than one access issue: the same, and no access of its own thread waits, in the buffer or for
its turn (02 R45; log entry 28)? -/
def mayIssue (s0 s : State) (T : Team) (th : Thread) : Bool := roomAt s0 T && !s.replays (T.ref th)

/-- The same for a thread by itself. -/
def memFree (s : State) (T : Team) (th : Thread) : Bool := mayIssue s s T th

/-- The other instructions of single lanes: 14 R263, R265, R266; 15 R288, R289, R292, R293; 17 R317, R327, R328, R330, R338;
20 R384, R391. -/
def laneOp : Instr → Option LaneOp
  | .jmp off => some (sets .always [] (fun _ _ th => jumps th (offsetOf th off)))
  | .jmpi g a => some (sets g [(a, 64)] (fun s T th => jumps th (BitVec.ofNat 64 (rd s 64 T th a))))
  | .nop g => some (sets g [] (fun _ _ th => th))
  | .join => some (sets .always [] (fun _ _ th => th))
  | .gpcadd g a => some (sets g [(a, 32)] (fun s T th => { th with gpc := th.gpc + BitVec.ofNat 32 (rd s 32 T th a) }))
  | .gpcset g a => some (sets g [(a, 32)] (fun s T th => { th with gpc := BitVec.ofNat 32 (rd s 32 T th a) }))
  | .fence g sc _ => some (sets g [] (fun _ _ th => th) (fun s _ T th => memFree s T th && !((s.launch T.launch).recd.det && sc != .wg)))
  | .twait g t => some (sets g [] (fun _ _ th => th) (fun s _ T th => memFree s T th &&
      tileHas s T t (fun e => tileV e && (tileState e == 0 || tileState e == 2))))
  | .tstate g t d => some { awaits g d 32 [] .mem (fun s T _ => match s.tileOf T t with
      | .ok (_, c, n) => let e := s.tile c n
        if tileV e then 8 + (if tileErr e then 4 else 0) + tileState e else 0
      | .error _ => 0) with ready := fun s _ T th => memFree s T th && tileHas s T t (fun _ => true) }
  | .accld g ty d a b => some { awaits g d 32 [(a, 32), (b, 32)] .acc (fun s T th =>
      if ty = .bf16 then (fconvert .bf16 .rne false (fval .f32 (accElem s T th a b))).bits else accElem s T th a b) with
      ready := fun s _ T th => accFree s T th a b }
  | .accldBand g d a b c => some { awaits g d 32 [(a, 32), (b, 32), (c, 32)] .acc (fun s T th =>
      (fmulV .f32 .rne false (fval .f32 (accElem s T th a b)) (fval .bf16 (rdf s .bf16 T th c))).bits) with
      ready := fun s _ T th => accFree s T th a b }
  | .mwait g => some (sets g [] (fun _ _ th => th) (fun s _ T th => (s.core T.core).passes.all (fun p => p.parts.all (fun x =>
      !(x.launch == T.launch && x.wg == T.wg && x.team == T.idx && x.born == T.born && x.quarter == th.lane / 8)))))
  | .mmaprogRd g q d a => some (writes g d 32 [(a, 32)] (fun s T th =>
      match s.targetTeam (dieOf T.core) (rd s 32 T th a) with
      | some U => (U.rowProgNow q).toNat
      | none => 0))
  | .ctrTick g d => some (awaits g d 64 [] .sys (fun s T _ =>
      if (s.launch T.launch).recd.det then T.tickd.toNat else s.tick.toNat))
  | .ctrMode g d => some (awaits g d 32 [] .sys (fun _ _ th => th.mode.toNat))
  | .ctrVote g d => some (awaits g d 32 [] .sys (fun _ _ th => th.vote.toNat))
  | .ctrSetmode g b => some (sets g [(b, 32)] (fun s T th =>
      { th with mode := BitVec.ofNat 32 (rd s 32 T th b) &&& 0x00001f1f#32 }))
  | .ctrWindsock g k d => some { awaits g d 64 [] .sys (fun _ T _ => (T.windsock.getD k 0).toNat) with
      ready := fun s _ T _ => !(s.launch T.launch).recd.det }
  | .fltrd g d a => some (awaits g d 32 [(a, 32)] .sys (fun s T th =>
      match th.delivered with
      | some r => if rd s 32 T th a < 16 then (r.word (rd s 32 T th a)).toNat else 0
      | none => 0))
  | _ => none

/-- What an instruction needs of the group beside its lanes: every thread of a team executes zip and unzip (12 R234); a fence's
rectangle lies in the launch's (07 R127); a quarter that mmaprog names is one of its target (15 R289). -/
def groupReady (i : Instr) (s : State) (c : Cur) : Prop :=
  match i with
  | .zip g .. | .unzip g .. => ∀ T ∈ s.teams, T.group c.entry ≠ [] → (T.executing c.entry g).length = T.width
  | .fence _ sc _ => match sc with
    | .rect a b => ∀ T ∈ s.groupTeams c.entry, 2 ^ a ≤ (s.launch T.launch).recd.h ∧ 2 ^ b ≤ (s.launch T.launch).recd.wd
    | _ => True
  | .mmaprogRd g q _ a => ∀ T ∈ s.teams, ∀ th ∈ T.executing c.entry g,
      ∀ U, s.targetTeam (dieOf T.core) (rd s 32 T th a) = some U → q < U.width / 8
  | .jmpi .. => ∀ T ∈ s.groupTeams c.entry, T.blc.getLsbD 31 = false
  | _ => True

/-! ## Instructions whose lanes act one after another on the module (14 R253) -/

/-- What such an instruction does: its guard, its destination, its sources, those that must be uniform, whether a lane waits as long as a
lower lane of its team does (R253), whether a team's reaches memory and so waits for the replay buffer (02 R45), and what one lane makes, for
an instruction that began in the first state, of the state that it finds, where it completes. -/
structure SeqOp where
  g    : Guard
  d    : Dst := .discard
  w    : Nat := 32
  srcs : List (Src × Nat) := []
  uni  : List (Src × Nat) := []
  ord  : Bool := false
  mem  : Bool := true
  eff  : State → State → Team → Thread → Option State

/-- A lane has finished the slot. -/
def passed (s : State) (c : Cur) (r : ThreadRef) : State :=
  s.updThread r (fun th => if th.issuing c.entry then { th with hold := .passed } else th)

/-- Does a lower lane of the team wait at the slot? -/
def waitsBelow (c : Cur) (T : Team) (th : Thread) : Bool :=
  T.threads.any (fun o => decide (o.lane < th.lane) && o.issuing c.entry && (match o.hold with
    | .at _ => true
    | _ => false))

/-- The lanes in turn, each on the state that the one before left: the state after the last, if each completes. Each reads its team's s registers
and predicate masks as they stood when the instruction began, in the state s0 or, where it is tried again, before (00 R10); where lanes wait, the
entry remembers that. -/
def runLanes (s0 : State) (c : Cur) (ord : Bool) (e : State → Team → Thread → Option State) : State → List (Team × Thread) → Option State
  | s, [] => some (s.noteBefore s0 c)
  | s, q :: qs =>
    match s.thread? (q.1.ref q.2) with
    | some (T, th) =>
      let U := T.readsAs (s0.before c.entry T)
      if th.issuing c.entry && U.sound th && !(ord && waitsBelow c T th) then
        (e s U th).bind (fun s' => runLanes s0 c ord e (passed s' c (T.ref th)) qs)
      else none
    | none => none

/-- What the instruction needs before any lane: its registers lie in the blocks (R93), and what must be uniform is (R100). -/
structure SeqOp.Ready (o : SeqOp) (s : State) (c : Cur) : Prop where
  cur   : s.cur = some c
  block : ∀ T ∈ s.teams, (∃ th ∈ T.threads, th.issuing c.entry = true) →
            ∀ k ∈ dstRegs o.w o.d ++ o.srcs.flatMap (fun q => srcRegs q.2 q.1), k < T.bsize
  agree : ∀ T ∈ s.teams, ∀ th ∈ T.executing c.entry o.g, ∀ th' ∈ T.executing c.entry o.g,
            ∀ q ∈ (if (sRegOf o.d).isSome then o.srcs.filter (fun q => perLaneSrc q.1) else []) ++ o.uni,
              readSrc (s.tickOf T) .int q.2 T th q.1 = readSrc (s.tickOf T) .int q.2 T th' q.1

/-- The slot at which the group stands. -/
def slotOf (s : State) : Nat :=
  match s.cur with
  | some c => c.slot
  | none => 0

/-- A result that a lane awaits: its last results shift, and the value is outstanding (R99). -/
def owes (s : State) (r : ThreadRef) (d : Dst) (w v : Nat) (prod : Producer) (f : Thread → Thread := id) : State :=
  s.updThread r (fun th => f
    { shifted d th with
      outst := th.outst ++ [{ tag := th.nextTag, dst := d, bits := w, val := v, prod := prod, clause := th.clause, slot := slotOf s
                              since := s.slotSince }] })

/-- What an access that is performed brings its thread: a load, an immediate load and an atomic leave their value outstanding, with the deferred
fault that comes back with it; that of a store is noted at once (05 R99; 21 R394; 23 R418). -/
def given (s : State) (T : Team) (th : Thread) (a : Access) (v : Nat) (late : Option Trap) : State :=
  s.updEarlier (T.ref th) a.since (fun t =>
    let r := late.map (s.deferred T t a.clause a.slot)
    if a.kind.returns then
      { t with outst := t.outst ++ [{ tag := a.tag, dst := a.dst, bits := a.bits, val := v, prod := .mem, fault := r
                                      clause := a.clause, slot := a.slot, since := a.since }] }
    else { t with defer := t.defer ++ r.toList })

/-- An access of a lane that issues (14 R252 to R254): it is performed, and its value stays outstanding; or, where nothing orders it with what
comes next, it is performed later, which of the two is free (07 R135, R137; 30 R453; log entry 28). It waits for no miss of its thread, and for no
earlier access that it must follow. -/
def performed (s : State) (T : Team) (th : Thread) (a : Access) : Option State :=
  let r := T.ref th
  let b := { a with tag := th.nextTag, clause := th.clause, slot := slotOf s, since := s.slotSince }
  let shift := fun (s : State) => if a.kind.returns then s.updThread r (shifted a.dst) else s
  if s.missing r || s.mustFollow T r b then none
  else match s.access T r b with
    | .ok s1 v late =>
      if s.mayBeLate T b then
        if s.unordered.headD false || s.lateOf T b.since then some ((shift { s with unordered := s.unordered.tail }).putLate T r b)
        else some (given (shift { s1 with unordered := s.unordered.tail }) T th b v late)
      else some (given (shift s1) T th b v late)
    | _ => none

/-- The same for an instruction that began in the state s0. -/
def accessDone (s0 s : State) (T : Team) (th : Thread) (a : Access) : Option State :=
  if roomAt s0 T then performed s T th a else none

/-- The address A + sign-extended B (14 R251). -/
def addrOf (s : State) (T : Team) (th : Thread) (a b : Src) : BitVec 64 :=
  BitVec.ofNat 64 (rd s 64 T th a + unsigned 64 (signed 32 (rdw s 32 T th b)))

/-- The address A + sign-extended literal. -/
def addrK (s : State) (T : Team) (th : Thread) (a : Src) (k : BitVec 32) : BitVec 64 :=
  BitVec.ofNat 64 (rd s 64 T th a + unsigned 64 k.toInt)

/-- The address of lds.w and sts.w: the local window and an offset below 1 MiB (02 R32, 14 R251, R256). -/
def localAddr (s : State) (T : Team) (th : Thread) (a b : Src) : Option (BitVec 64) :=
  let o : Int := rdw s 32 T th a + signed 32 (rdw s 32 T th b)
  if 0 ≤ o ∧ o < 2 ^ 20 then some (BitVec.ofNat 64 (2 ^ 56 + o.toNat)) else none

/-- A load. -/
def loads (g : Guard) (d : Dst) (w n : Nat) (sext : Bool) (srcs : List (Src × Nat)) (va : State → Team → Thread → Option (BitVec 64)) :
    SeqOp :=
  { g := g, d := d, w := w, srcs := srcs, ord := true
    eff := fun s0 s T th => (va s T th).bind (fun v =>
      accessDone s0 s T th { kind := .load sext, va := v, n := n, dst := d, bits := w }) }

/-- The addresses to which the executing lanes of an instruction store. -/
def storeVas (s : State) (g : Guard) (va : State → Team → Thread → Option (BitVec 64)) : List Nat :=
  match s.cur with
  | none => []
  | some c => (s.executing c.entry g).filterMap (fun q => (va s q.1 q.2).map (·.toNat))

/-- Do aligned stores of n bytes cover the sector of an address among them, each place once or more (01 R16, 03 R56)? -/
def covered (n v : Nat) (vas : List Nat) : Bool :=
  v % n == 0 && ((vas.filter (fun x => x / 64 == v / 64 && x % n == 0)).dedup.length * n == 64)

/-- A store of n bytes of the source x: stores of one instruction that cover a sector are one write of it. -/
def stores (g : Guard) (x : Src) (w n : Nat) (srcs : List (Src × Nat)) (va : State → Team → Thread → Option (BitVec 64)) : SeqOp :=
  { g := g, srcs := (x, w) :: srcs, ord := true
    eff := fun s0 s T th => (va s T th).bind (fun v =>
      accessDone s0 s T th { kind := .store, va := v, n := n, x := rd s w T th x, whole := covered n v.toNat (storeVas s0 g va) }) }

/-- Is a scope one that the lane's launch allows: its rectangle fits, and a deterministic launch has none beyond the workgroup
(07 R127, 22 R409)? -/
def scopeOk (s0 s : State) (T : Team) (sc : Scope) : Bool :=
  !((s.launch T.launch).recd.det && sc != .wg)
    && (match s0.shapeBad sc with
        | none => true
        | some _ => false)

/-- An immediate operation or an atomic at a scope. -/
def atScope (g : Guard) (d : Dst) (w : Nat) (srcs : List (Src × Nat)) (sc : Scope) (a : State → Team → Thread → Access) : SeqOp :=
  { g := g, d := d, w := w, srcs := srcs, ord := true
    eff := fun s0 s T th => if scopeOk s0 s T sc then accessDone s0 s T th (a s T th) else none }

/-- The bytes of a type in memory (14 R255). -/
def bytesOf : Ty → Nat
  | .i8 | .n8 => 1
  | .i16 | .n16 => 2
  | .i64 | .n64 => 8
  | .b128 => 16
  | _ => 4

/-- What an instruction comes to that reaches n bytes at a home for a thread (20 R371): k goes on with their location; a write of whole sectors checks
no seal (01 R16); the watchpoints of reads (rd) or of writes that it meets are noted after it (23 R417, R418). -/
def atHome (s : State) (T : Team) (th : Thread) (va : BitVec 64) (n : Nat) (write : Bool) (k : State → Nat → Option State)
    (noUser : Bool := false) (whole : Bool := false) (rd : Bool := !write) : Option State :=
  if !memFree s T th then none
  else match s.translate (s.agent T) va (if write then .wr else .rd) noUser with
    | (s1, .ok loc pa sh) =>
      if s1.reachAs loc sh = .yes && !s1.engineHolds loc n write && (whole || !s1.sealBadRange loc n) then
        (k (s1.touchL2 (dieOf T.core) (sectorOf loc)) loc).map (fun s2 => s2.noteHit T th va pa loc n rd)
      else none
    | _ => none

/-- The same with n bytes as the issuing core sees them, at an address that is a multiple of n; the seals of what its view does not hold are checked,
and bytes that an engine owns are read where they are the view's own (02 R41; 04 R79, R80). -/
def asSeen (s : State) (T : Team) (th : Thread) (va : BitVec 64) (n : Nat) (k : State → List Byte → Option State) : Option State :=
  if !memFree s T th || va.toNat % n != 0 then none
  else match s.translate (s.agent T) va .rd with
    | (s1, .ok loc pa sh) =>
      let h := s1.holding loc pa sh
      let own := (List.range n).all (fun k => s1.holds T.core T.launch T.wg h (loc + k))
      if s1.reachAs loc sh = .yes && (!s1.engineHolds loc n false || s1.ownBytes T.core T.launch loc n) && (!s1.sealBadRange loc n || own)
          && !s1.slotDamaged T.core T.launch T.wg loc then
        (k (if own then s1 else s1.touchL2 (dieOf T.core) (sectorOf loc)) (s1.viewBytes T.core T.launch T.wg h loc n)).map
          (fun s2 => s2.noteHit T th va pa loc n true)
      else none
    | _ => none

/-- A plain access that an instruction makes at once; the hit of a watchpoint is noted (23 R418). -/
def plainOf (s : State) (T : Team) (th : Thread) (a : Access) : Option (State × Nat) :=
  let b := { a with clause := th.clause, slot := slotOf s, since := s.slotSince }
  if s.replays (T.ref th) || s.replayFull T.core then none
  else match s.access T (T.ref th) b with
    | .ok s1 v none => some (s1, v)
    | .ok s1 v (some x) =>
      if x.cause = 0x182 then
        some (s1.updThread (T.ref th) (fun t => { t with defer := t.defer ++ [s1.deferred T th b.clause b.slot x] }), v)
      else none
    | _ => none

/-- What an instruction comes to that reaches a queue of the lane's workgroup: k goes on with the queue, the location of its descriptor and the
descriptor, which passes its checks (04 R70, R72). -/
def onQueue (s : State) (T : Team) (th : Thread) (sel : QSel) (write : Bool) (k : State → EQueue → Nat → Nat → Option State) : Option State :=
  match (s.wg T.launch T.wg).queue? sel with
  | none => none
  | some q =>
    if q.bad then none
    else atHome s T th (s.descVa T.launch T.wg sel) 64 write (fun s1 loc =>
      let d := s1.homeNat loc 64
      if descBad d then none else k s1 q loc d) false false true

/-- Appending an entry (04 R75): the thread takes the position in RESERVE, which advances; where the ring has room the entry goes
to its slot with the position in bits [511:480], the module notes the source as the core sees it (R79), and k goes on with the position and the
sequence number. -/
def appends (s : State) (T : Team) (th : Thread) (sel : QSel) (e : Nat) (k : State → BitVec 32 → BitVec 64 → Option State) : Option State :=
  onQueue s T th sel true (fun s0 q loc d =>
    let r := T.ref th
    let p : BitVec 32 := th.claim.getD (BitVec.ofNat 32 (bitsAt d 127 96))
    let s1 := match th.claim with
      | some _ => s0
      | none => ((s0.putMarked (dieOf T.core) (loc + 12) (leBytes 4 (p.toNat + 1))).noteHit T th (s0.descVa T.launch T.wg sel + 12)
          (loc % 2 ^ 52 + 12) (loc + 12) 4 false).updThread r (fun t => { t with claim := some p })
    let ahead := (p - BitVec.ofNat 32 q.count).toNat
    if 2 ^ bitsAt d 68 64 ≤ ahead then none
    else
      atHome s1 T th (BitVec.ofNat 64 (bitsAt d 63 0 + 64 * (p.toNat % 2 ^ bitsAt d 68 64))) 64 true (fun s2 slot =>
        let s3 := (s2.writeHome slot (leBytes 64 (e % 2 ^ 480 + p.toNat * 2 ^ 480)) (dieOf T.core)).getD s2
        let (s4, snap) := s3.snapshot T sel (q.count + ahead) (BitVec.ofNat 64 (bitsAt e 63 0)) (bitsAt e 159 128)
        k ({ s4 with snaps := s4.snaps ++ [snap] }.updThread r (fun t => { t with claim := none })) p (seqOf sel (q.count + ahead + 1))) false true)

/-- QTAIL of a queue after a position is posted (04 R76). -/
def posted (s : State) (l w : Nat) (sel : QSel) (v : BitVec 32) : State :=
  match (s.wg l w).queue? sel with
  | none => s
  | some q => s.setWg ((s.wg l w).setQueue { q with qtail := if newer v q.qtail then v else q.qtail })

end Sys2Proof.Claims

namespace Sys2Proof.Claims
open Sys2Proof Sys2Proof.Machine

/-! ## The memory class (14 R255 to R274) -/

/-- One lane of qpop (14 R267): its slots of the queue are released, it takes the position of HEAD where TAIL is newer, and once
the slot holds its own position it gives the slot's address; a closed empty queue gives all ones and makes the guard false. -/
def popped (s : State) (g : Guard) (d : Dst) (T : Team) (th : Thread) (q : Nat) : Option State :=
  let L := s.launch T.launch
  let r := T.ref th
  let s0 := if th.claim.isSome then s else s.releaseSlots L.die r th q
  let Q := s0.workq L.die q
  let take := fun (s : State) (p : BitVec 32) =>
    atHome s T th (Q.slotVa p + 60) 4 false (fun s1 loc =>
      if s1.homeNat loc 4 = p.toNat then
        some (owes s1 r d 64 (Q.slotVa p).toNat .mem (fun t => { t with claim := none, qslots := (q, p) :: t.qslots }))
      else none)
  if !memFree s T th || (L.recd.det && decide (1 < L.recd.wgcount)) || !(decide (q < 64) && L.recd.qcons.getLsbD q) then none
  else match th.claim with
    | some p => take s0 p
    | none =>
      match Q.state with
      | .broken => none
      | st =>
        if newer Q.tail Q.head then
          take ((s0.setWorkq { Q with head := Q.head + 1 }).updThread r (fun t => { t with claim := some Q.head })) Q.head
        else match st with
          | .closed => some (owes s0 r d 64 0xffffffff .mem (fun t => match g with
              | .always => t
              | .on p neg => t.setP p neg))
          | _ => none

/-- One lane of qpush (14 R268): its record's address is checked, it reserves a position, and where the ring has room its record, as the core
sees it, goes to the slot with the position in bytes 60 to 63; then TAIL passes it. -/
def pushed (s : State) (T : Team) (th : Thread) (q : Nat) (va : BitVec 64) : Option State :=
  let L := s.launch T.launch
  let r := T.ref th
  let Q := s.workq L.die q
  let go := fun (s : State) (p : BitVec 32) =>
    if Q.ringlen ≤ (p - Q.free).toNat then none
    else asSeen s T th va 64 (fun s2 bs => atHome s2 T th (Q.slotVa p) 64 true (fun s3 loc =>
      let s4 := (s3.writeHome loc (bs.take 60 ++ leBytes 4 p.toNat) (dieOf T.core)).getD s3
      let Q4 := s4.workq L.die q
      some ((s4.setWorkq { Q4 with tail := if newer (p + 1) Q4.tail then p + 1 else Q4.tail }).updThread r (fun t =>
        { t with claim := none }))) false true)
  if !memFree s T th || (L.recd.det && decide (1 < L.recd.wgcount)) || !(decide (q < 64) && L.recd.qprod.getLsbD q) then none
  else match th.claim with
    | some p => go s p
    | none =>
      if Q.state = .closed ∨ Q.state = .broken then none
      else asSeen s T th va 64 (fun s1 _ =>
        go ((s1.setWorkq { Q with reserve := Q.reserve + 1 }).updThread r (fun t => { t with claim := some Q.reserve })) Q.reserve)

/-- Goes on with the heap whose descriptor stands at an address (14 R270). -/
def onHeap (s : State) (T : Team) (th : Thread) (va : BitVec 64) (k : State → Heap → Option State) : Option State :=
  if va.toNat % 64 ≠ 0 then none
  else atHome s T th va 64 false (fun s1 loc => (heapOf (s1.homeNat loc 64)).bind (k s1))

/-- Goes on with the locations of the metadata of m chunks of a heap from chunk n (14 R270). -/
def onMeta (T : Team) (th : Thread) (h : Heap) (k : State → List Nat → Option State) : Nat → State → Nat → List Nat → Option State
  | 0, s, _, locs => k s locs
  | m + 1, s, n, locs =>
    match s.translate (s.agent T) (h.metaVa n 0) .wr with
    | (s1, .ok loc pa sh) =>
      if s1.reachAs loc sh = .yes && !s1.engineHolds loc 1024 true && (List.range 16).all (fun j => !s1.sealBad (loc + 64 * j)) then
        (onMeta T th h k m ((sectorsOf loc 1024).foldl (fun a sec => a.touchL2 (dieOf T.core) sec) s1) (n + 1) (locs ++ [loc])).map (fun s2 =>
          s2.noteHit T th (h.metaVa n 0) pa loc 1024 true)
      else none
    | _ => none

/-- A byte of a chunk's metadata has been written: the watchpoints of writes that it meets are noted (23 R417). -/
def metaWritten (s : State) (T : Team) (th : Thread) (h : Heap) (n loc off : Nat) : State :=
  s.noteHit T th (h.metaVa n off) (loc % 2 ^ 52 + off) (loc + off) 1 false

/-- One lane of halloc (14 R271): a free slot, the lowest, of a chunk of the class of the size, the least that holds it; else of the
first unused chunk, which takes the class. Which chunk serves is the model's free choice where several could (log entry 30). -/
def allocated (s : State) (g : Guard) (try_ : Bool) (d : Dst) (T : Team) (th : Thread) (size : Nat) (va : BitVec 64) : Option State :=
  onHeap s T th va (fun s1 h =>
    if 65536 < size then none
    else onMeta T th h (fun s2 locs =>
      let c := heapClass size
      let cands := locs.zipIdx.filterMap (fun q =>
        if (s2.homeByte q.1).toNat = c then (s2.freeSlot q.1 c).map (fun i => (q.1, q.2, i)) else none)
      let give := fun (s : State) (loc n i : Nat) =>
        owes (metaWritten (s.setSlot (dieOf T.core) loc i true) T th h n loc (512 + i / 8)) (T.ref th) d 64 (h.base + n * 65536 + i * (16 * 2 ^ c)) .mem
      match cands with
      | [] =>
        match locs.zipIdx.find? (fun q => s2.homeByte q.1 == 0xff#8) with
        | some (loc, n) => some (give (metaWritten (s2.putMarked (dieOf T.core) loc [BitVec.ofNat 8 c]) T th h n loc 0) loc n 0)
        | none => if try_ then some (owes s2 (T.ref th) d 64 0 .mem (fun t => match g with
            | .always => t
            | .on p neg => t.setP p neg)) else none
      | q :: rest =>
        if rest.isEmpty || (s2.launch T.launch).recd.det then some (give s2 q.1 q.2.1 q.2.2)
        else
          let k := Config.freePick s2.freeCount % cands.length
          let q' := cands.getD k q
          some (give { s2 with freeCount := s2.freeCount + 1 } q'.1 q'.2.1 q'.2.2)) h.chunks s1 0 [])

/-- One lane of hfree (14 R272): the slot that begins at the address is free again. -/
def freed (s : State) (T : Team) (th : Thread) (va hv : BitVec 64) : Option State :=
  onHeap s T th hv (fun s1 h =>
    let n := (va.toNat - h.base) / 65536
    if va.toNat < h.base ∨ h.chunks ≤ n then none
    else onMeta T th h (fun s2 locs =>
      let loc := locs.headD 0
      let c := (s2.homeByte loc).toNat
      let off := (va.toNat - h.base) % 65536
      if 12 < c ∨ off % (16 * 2 ^ c) ≠ 0 ∨ (s2.homeByte (loc + 512 + off / (16 * 2 ^ c) / 8)).getLsbD (off / (16 * 2 ^ c) % 8) = false
      then none
      else some (metaWritten (s2.setSlot (dieOf T.core) loc (off / (16 * 2 ^ c)) false) T th h n loc (512 + off / (16 * 2 ^ c) / 8))) 1 s1 n [])

/-! ## Calls, returns, waits and exit (17 R319 to R323, R327, R333, R337) -/

/-- The address of spilled return entry n (17 R323). -/
def spillAt (s : State) (T : Team) (th : Thread) (n : Nat) : BitVec 64 :=
  (s.launch T.launch).recd.ballastBase + BitVec.ofNat 64 (th.tid.toNat * (s.launch T.launch).recd.ballastStride + 16 * n)

/-- One lane of a call (17 R319, R322): the return entry is pushed; with eight on chip the oldest goes to the Ballast first. -/
def called (s : State) (T : Team) (th : Thread) (target : BitVec 64) : Option State :=
  let e : RetEntry := { ret := s.fallNow th, gpc := th.gpc, gop := th.gop }
  let go := fun (s : State) (old : List RetEntry) (bc : Nat) =>
    s.updThread (T.ref th) (fun t => { t with rstack := e :: old, bc := bc, next := some target })
  if th.rstack.length < 8 then some (go s th.rstack th.bc)
  else if (s.launch T.launch).recd.ballastLimit ≤ th.bc then none
  else
    let o := th.rstack.getLastD e
    (plainOf s T th { kind := .store, va := spillAt s T th th.bc, n := 16
                      x := o.gop.toNat + 2 ^ 32 * o.gpc.toNat + 2 ^ 64 * o.ret.toNat }).map (fun x => go x.1 th.rstack.dropLast (th.bc + 1))

/-- One lane of ret (17 R320, R322, R326): the youngest entry is popped, from the Ballast where none is on chip; levels of a greater
depth go. -/
def returned (s : State) (T : Team) (th : Thread) : Option State :=
  let back := fun (s : State) (ret : BitVec 64) (rs : List RetEntry) (bc : Nat) =>
    s.updThread (T.ref th) (fun t =>
      { t with rstack := rs, bc := bc, next := some ret, loops := t.loops.filter (fun v => decide (v.depth ≤ rs.length + bc)) })
  match th.rstack with
  | e :: rs => some (back s e.ret rs th.bc)
  | [] =>
    if th.bc = 0 then none
    else (plainOf s T th { kind := .load false, va := spillAt s T th (th.bc - 1), n := 16 }).map (fun x =>
      back x.1 (BitVec.ofNat 64 (x.2 / 2 ^ 64)) [] (th.bc - 1))

/-- One lane of dispatch (17 R327): the guest word at s[a] + 4 * gpc, the handler from the table at s[b]; gop, gpc and the
immediate of the word follow. An s destination takes the value of the team's first lane, which the others' is (05 R100). -/
def dispatched (s : State) (g : Guard) (d : Dst) (a b : Nat) (T : Team) (th : Thread) : Option State :=
  let pair := fun (n : Nat) => T.sReg (n + 1) ++ T.sReg n
  let before := fun (s : State) => T.threads.any (fun t =>
    t.lane != th.lane && t.entry == s.cur.map (·.entry) && t.passes g && (t.slotDone || t.hold == .passed))
  if !th.skipGbp && (s.gbpHit T th.gpc).isSome then none
  else (plainOf s T th { kind := .load false, va := pair a + BitVec.ofNat 64 (4 * th.gpc.toNat), n := 4 }).bind (fun x =>
    let op := x.2 % 256
    let v := unsigned 32 (signed 24 (x.2 / 256))
    if (T.sReg (b + 2)).toNat ≤ op then none
    else (plainOf x.1 T th { kind := .load false, va := pair b + BitVec.ofNat 64 (8 * op), n := 8 }).bind (fun y =>
      let s1 := y.1.updThread (T.ref th) (fun t => t.writeDest d 32 v)
      let go := fun (s : State) => some (s.updThread (T.ref th) (fun t =>
        jumps { t with gop := BitVec.ofNat 8 op, gpc := t.gpc + 1, skipGbp := false } (BitVec.ofNat 64 y.2)))
      match sRegOf d with
      | none => go s1
      | some n =>
        if !before y.1 then go (s1.updTeam T.launch T.wg T.idx (fun U => U.writeS n 32 v))
        else if (((y.1.team? T.launch T.wg T.idx).getD T).sReg n).toNat = v then go s1
        else none))

/-- One lane of wait (17 R333, 04 R82): the sequence number has come, and no error at or below it is recorded. -/
def awaited (s : State) (T : Team) (th : Thread) (seq : BitVec 64) : Option State :=
  let sel : QSel := ⟨bitsOf seq.toNat 62 2, bitsOf seq.toNat 60 2⟩
  let n := seq.toNat % 2 ^ 60
  match s.countOf T.launch T.wg sel with
  | none => none
  | some c =>
    if c < n then none
    else if sel.eng = 2 then
      match (s.core (s.wg T.launch T.wg).core).reconErr with
      | some (k, _, _) => if k ≤ n then none else some s
      | none => some s
    else atHome s T th (s.descVa T.launch T.wg sel) 64 false (fun s1 loc =>
      let err := bitsAt (s1.homeNat loc 64) 255 192
      if err ≠ 0 ∧ err % 2 ^ 60 ≤ n then none else some s1)

/-- One lane of exit (17 R337): nothing is outstanding and no deferred fault is noted. -/
def exited (s : State) (T : Team) (th : Thread) : Option State :=
  if th.outst.isEmpty && !s.replays (T.ref th) && th.defer.isEmpty then some (s.exitThread T th) else none

/-! ## The system class (20 R372 to R391, 19 R361, R362, 21 R397) -/

/-- One lane of svcwait (20 R379): its reply has come without an error. -/
def replied (s : State) (d : Dst) (T : Team) (th : Thread) : Option State :=
  if !th.svc then none
  else atHome s T th (s.replySlots T + BitVec.ofNat 64 (16 * th.lane)) 16 false (fun s1 loc =>
    let v := s1.homeNat loc 16
    if bitAt v 64 && !bitAt v 65 then
      some (owes (s1.updThread (T.ref th) (fun t => { t with svc := false })) (T.ref th) d 32 (bitsOf v 32 32) .sys)
    else none) true

/-- One lane of covpt (19 R361): the next point of the workgroup's tile; after the last the guard becomes false. -/
def pointed (s : State) (g : Guard) (d : Dst) (T : Team) (th : Thread) : Option State :=
  match (s.wg T.launch T.wg).cover, (s.launch T.launch).ctrl with
  | some k, some C =>
    match (pointSeq k.pattern C.audit)[k.nextPt]? with
    | some (i, aud) =>
      some (owes (s.setWg { s.wg T.launch T.wg with
          cover := some { k with nextPt := k.nextPt + 1, delivered := k.delivered ++ [i] } }) (T.ref th) d 64
        (i + (if aud then 2 ^ 30 else 0) + k.tile * 2 ^ 32) .sys)
    | none => some (owes s (T.ref th) d 64 (2 ^ 31 + k.tile * 2 ^ 32) .sys (fun t => match g with
        | .always => t
        | .on p neg => t.setP p neg))
  | _, _ => none

/-- One lane of covst (19 R362): the value of a point that was delivered and has none yet; with the last value of its stencil the unit takes the
tile's output (04 R85). -/
def staged (s : State) (t : Ty) (v b : Nat) (T : Team) : Option State :=
  match (s.wg T.launch T.wg).cover with
  | none => none
  | some k =>
    if b / 2 ^ 31 = 1 ∨ bitsOf b 12 18 ≠ 0 ∨ k.staged.any (·.1 == b % 4096) ∨ !k.delivered.contains (b % 4096) then none
    else some ((s.setWg { s.wg T.launch T.wg with
      cover := some { k with staged := k.staged ++ [(b % 4096, BitVec.ofNat 64 (v % 2 ^ elBits t))] } }).stencilDone T.launch T.wg)

/-- One lane of tret (21 R397): its frame is given back, and the thread goes on where its fault says; after a matrix fault the first thread of a
quarter discards the quarter's operation, or, where the queue has room, lets it start again (15 R288). -/
def returnedFrom (s : State) (retry : Bool) (T : Team) (th : Thread) : Option State :=
  match th.status, th.frame with
  | .handler, some f =>
    let s1 := s.updThread (T.ref th) (·.leaveHandler f retry)
    let first := (T.live.find? (fun x => x.lane / 8 == th.lane / 8)).map (·.lane) == some th.lane
    let some_ := T.quarters.any (fun q => (T.stoppedOf f.recd q).isSome)
    if th.rstack.length + th.bc < f.depth ∨ (retry = true ∧ f.recd.matrix = true ∧ 16 ≤ (s.core T.core).passes.length ∧ some_ = true) then none
    else match (if f.recd.matrix && first then T.stoppedOf f.recd (th.lane / 8) else none) with
      | some o => some (s1.leaveMatrix T o retry)
      | none => some s1
  | _, _ => none

/-- The physical core of a target: bits [8:6] die, [5:3] row, [2:0] column, a core that the mesh map names (02 R48, 20 R388). -/
def targetCore (s : State) (tgt : Nat) : Option Nat :=
  let core := bitsOf tgt 6 3 * 36 + bitsOf tgt 3 3 * 6 + bitsOf tgt 0 3
  if bitsOf tgt 3 3 < 6 ∧ bitsOf tgt 0 3 < 6 ∧ (List.range 34).any (fun n => s.meshCore (bitsOf tgt 6 3) n == some core) then some core else none

/-- A plain load of a trie instruction (20 R381). -/
def trieByte (s : State) (T : Team) (th : Thread) (va : BitVec 64) (n : Nat) : Option (State × Nat) :=
  plainOf s T th { kind := .load false, va := va, n := n }

/-- A node that passes its checks (20 R380). -/
def trieGet (s : State) (T : Team) (th : Thread) (va : BitVec 64) (child : Bool) : Option (State × TrieNode) :=
  (trieByte s T th va 16).bind (fun x => if (TrieNode.bad ⟨va, x.2⟩ child).isSome then none else some (x.1, ⟨va, x.2⟩))

/-- Symbol i of a node's label (20 R380). -/
def trieSym (s : State) (T : Team) (th : Thread) (n : TrieNode) (i : Nat) : Option (State × Nat) :=
  let side := n.va + BitVec.ofInt 64 (signed 40 (bitsOf n.num 0 40))
  if n.long then (if n.tok then trieByte s T th (side + BitVec.ofNat 64 (4 * i)) 4 else trieByte s T th (side + BitVec.ofNat 64 i) 1)
  else some (s, if n.tok then bitsOf n.num 0 32 else bitsOf n.num 0 48 / 256 ^ i % 256)

/-- The first child index and the number of children of a class (20 R380). -/
def trieClass (s : State) (T : Team) (th : Thread) (n : TrieNode) (c : Nat) : Option (State × Nat × Nat) :=
  (trieByte s T th (n.off n.child + BitVec.ofNat 64 (4 * bmBelow n.bm c)) 4).map (fun x => (x.1, x.2 / 2 ^ 16, bitsOf x.2 0 16))

/-- The lowest of m children from index i whose label begins with a symbol. -/
def trieSeek (T : Team) (th : Thread) (n : TrieNode) (sym : Nat) : Nat → State → Nat → Option (State × Option TrieNode)
  | 0, s, _ => some (s, none)
  | m + 1, s, i =>
    (trieGet s T th (n.childVa i) true).bind (fun x => (trieSym x.1 T th x.2 0).bind (fun y =>
      if y.2 = sym then some (y.1, some x.2) else trieSeek T th n sym m y.1 (i + 1)))

/-- The start of a trie instruction: the node and the position of a state word (20 R380, R381). -/
def trieStart (s : State) (T : Team) (th : Thread) (x : BitVec 64) : Option (State × TrieNode × Nat) :=
  let va := x &&& 0x01fffffffffffff0#64
  let pos := bitsOf x.toNat 57 5
  if va = 0 then none
  else (trieGet s T th va false).bind (fun y => if pos ≠ 0 ∧ y.2.len ≤ pos then none else some (y.1, y.2, pos))

/-- One transition (20 R381): along the label of the node, or to the child whose label begins with the symbol; none for FAIL. -/
def trieNext (s : State) (T : Team) (th : Thread) (n : TrieNode) (pos sym : Nat) : Option (State × Option (BitVec 64)) :=
  if pos ≠ 0 then
    (trieSym s T th n pos).map (fun y => (y.1, if y.2 = sym then some (trieState n.va (if pos + 1 = n.len then 0 else pos + 1)) else none))
  else if !bitAt n.bm (n.cls sym) then some (s, none)
  else (trieClass s T th n (n.cls sym)).bind (fun x =>
    (trieSeek T th n sym x.2.2 x.1 x.2.1).map (fun y => (y.1, y.2.map (fun ch => trieState ch.va (if ch.len = 1 then 0 else 1)))))

/-- One symbol of a scan with at most m nodes tried along the failure links (20 R382). -/
def trieFollow (T : Team) (th : Thread) (sym : Nat) : Nat → State → TrieNode → Option (State × TrieNode)
  | 0, _, _ => none
  | m + 1, s, n =>
    if 1 < n.len then none
    else (trieNext s T th n 0 sym).bind (fun x =>
      match x.2 with
      | some y => (trieGet x.1 T th (y &&& 0x01fffffffffffff0#64) true).bind (fun z => if 1 < z.2.len then none else some z)
      | none =>
        if n.fail = 0 then some (x.1, n)
        else if m = 0 then none
        else (trieGet x.1 T th (n.off n.fail) false).bind (fun z => trieFollow T th sym m z.1 z.2))

/-- The symbols of a scan: the last node, and bit i of the hits where symbol i ends at a terminal node. -/
def trieRun (T : Team) (th : Thread) : List Nat → State → Nat → Nat → TrieNode → Option (State × TrieNode × Nat)
  | [], s, _, hits, n => some (s, n, hits)
  | sym :: syms, s, i, hits, n =>
    (trieFollow T th sym 65 s n).bind (fun x => trieRun T th syms x.1 (i + 1) (hits + (if x.2.term then 2 ^ i else 0)) x.2)

/-- The number of children of a node over some classes. -/
def trieSum (T : Team) (th : Thread) (n : TrieNode) : List Nat → State → Nat → Option (State × Nat)
  | [], s, acc => some (s, acc)
  | c :: cs, s, acc =>
    if bitAt n.bm c then (trieClass s T th n c).bind (fun x => trieSum T th n cs x.1 (acc + x.2.2)) else trieSum T th n cs s acc

/-- VAL and TERM of a node as trie.child and trie.info give them. -/
def trieWord (n : TrieNode) : Nat := n.val + (if n.term then 2 ^ 24 else 0)

/-- One lane of trie.child (20 R382): the symbol and the word of child i, or ones and bit 31 where there is none. -/
def trieKid (s : State) (T : Team) (th : Thread) (x : BitVec 64) (i : Nat) : Option (State × Nat) :=
  let absent : Nat := 0xffffffff + 0x80000000 * 2 ^ 32
  (trieStart s T th x).bind (fun a =>
    let n := a.2.1
    if a.2.2 ≠ 0 then
      (if i = 0 then (trieSym a.1 T th n a.2.2).map (fun y => (y.1, y.2 + trieWord n * 2 ^ 32)) else some (a.1, absent))
    else (trieSum T th n (List.range 8) a.1 0).bind (fun y =>
      if y.2 ≤ i then some (y.1, absent)
      else (trieGet y.1 T th (n.childVa i) true).bind (fun z => (trieSym z.1 T th z.2 0).map (fun v => (v.1, v.2 + trieWord z.2 * 2 ^ 32)))))

end Sys2Proof.Claims

namespace Sys2Proof.Claims
open Sys2Proof Sys2Proof.Machine

/-- What an instruction that answers nothing does where the lane's accesses may issue: 02 R45. -/
def issuing (f : State → Team → Thread → State) (s0 s : State) (T : Team) (th : Thread) : Option State :=
  if mayIssue s0 s T th then some (f s T th) else none

/-- The memory class, lane by lane: 14 R255 to R261, R267 to R274, R257, and reel.cond, an immediate store with release (20 R377). -/
def memOp : Instr → Option SeqOp
  | .ldW g d a b => some (loads g d 32 4 false [(a, 64), (b, 32)] (fun s T th => some (addrOf s T th a b)))
  | .ldD g d a b => some (loads g d 64 8 false [(a, 64), (b, 32)] (fun s T th => some (addrOf s T th a b)))
  | .ldQ g d a b => some (loads g d 128 16 false [(a, 64), (b, 32)] (fun s T th => some (addrOf s T th a b)))
  | .stW g x a b => some (stores g x 32 4 [(a, 64), (b, 32)] (fun s T th => some (addrOf s T th a b)))
  | .stD g x a b => some (stores g x 64 8 [(a, 64), (b, 32)] (fun s T th => some (addrOf s T th a b)))
  | .stQ g x a b => some (stores g x 128 16 [(a, 64), (b, 32)] (fun s T th => some (addrOf s T th a b)))
  | .ldsW g d a b => some (loads g d 32 4 false [(a, 32), (b, 32)] (fun s T th => localAddr s T th a b))
  | .stsW g x a b => some (stores g x 32 4 [(a, 32), (b, 32)] (fun s T th => localAddr s T th a b))
  | .ldK g wd d a k => let w := 32 * 2 ^ min wd 2
    some (loads g d w (w / 8) false [(a, 64)] (fun s T th => some (addrK s T th a k)))
  | .stK g wd x a k => let w := 32 * 2 ^ min wd 2
    some (stores g x w (w / 8) [(a, 64)] (fun s T th => some (addrK s T th a k)))
  | .ldL g ty d a b => some (loads g d ty.opBits (bytesOf ty) (ty = .i8 || ty = .i16) [(a, 64), (b, 32)]
      (fun s T th => some (addrOf s T th a b)))
  | .stL g ty x a b => some (stores g x ty.opBits (bytesOf ty) [(a, 64), (b, 32)] (fun s T th => some (addrOf s T th a b)))
  | .ldiWWg g d a b => some (atScope g d 32 [(a, 64), (b, 32)] .wg (fun s T th =>
      { kind := .ldi .wg .relaxed, va := addrOf s T th a b, n := 4, dst := d, bits := 32 }))
  | .stiWWg g x a b => some (atScope g .discard 32 [(x, 32), (a, 64), (b, 32)] .wg (fun s T th =>
      { kind := .sti .wg .relaxed, va := addrOf s T th a b, n := 4, x := rd s 32 T th x }))
  | .ldi g ty sc ord d a b => some (atScope g d ty.opBits [(a, 64), (b, 32)] sc (fun s T th =>
      { kind := .ldi sc ord, va := addrOf s T th a b, n := bytesOf ty, dst := d, bits := ty.opBits }))
  | .sti g ty sc ord x a b => some (atScope g .discard 32 [(x, ty.opBits), (a, 64), (b, 32)] sc (fun s T th =>
      { kind := .sti sc ord, va := addrOf s T th a b, n := bytesOf ty, x := rd s ty.opBits T th x }))
  | .atom g op ty sc ord d a b => let w := ty.opBits
    some (atScope g d w [(a, 64), (b, w)] sc (fun s T th =>
      { kind := .atom op ty sc ord, va := BitVec.ofNat 64 (rd s 64 T th a), n := w / 8, x := rd s w T th b, dst := d, bits := w }))
  | .atomcas g ty sc ord d a b => let w := ty.opBits
    some (atScope g d w [(a, 64), (b, 2 * w)] sc (fun s T th =>
      { kind := .cas ty sc ord, va := BitVec.ofNat 64 (rd s 64 T th a), n := w / 8
        x := bitsOf (rd s (2 * w) T th b) 0 w, y := bitsOf (rd s (2 * w) T th b) w w, dst := d, bits := w }))
  | .atomf g op ty sc ord d a b => let w := ty.opBits
    some (atScope g d w [(a, 64), (b, w)] sc (fun s T th =>
      { kind := .atomf op ty sc ord, va := BitVec.ofNat 64 (rd s 64 T th a), n := w / 8, x := rdf s ty T th b, dst := d, bits := w }))
  | .reelCondWrite g sc a b =>
    let k : Scope := if sc = 0 then .wg else if sc = 1 then .launch else .sys
    some (atScope g .discard 32 [(a, 64), (b, 32)] k (fun s T th =>
      { kind := .sti k .rel, va := BitVec.ofNat 64 (rd s 64 T th a), n := 8, x := rd s 32 T th b }))
  | .qpop g d a => some { g := g, d := d, w := 64, srcs := [(a, 32)], uni := [(a, 32)], ord := true
                          eff := fun _ s T th => popped s g d T th (rd s 32 T th a) }
  | .qpush g a b => some { g := g, srcs := [(a, 32), (b, 64)], uni := [(a, 32)], ord := true
                           eff := fun _ s T th => pushed s T th (rd s 32 T th a) (BitVec.ofNat 64 (rd s 64 T th b)) }
  | .halloc g tr d a b => some { g := g, d := d, w := 64, srcs := [(a, 32), (b, 64)], uni := [(b, 64)], ord := true
                                 eff := fun _ s T th => allocated s g tr d T th (rd s 32 T th a) (BitVec.ofNat 64 (rd s 64 T th b)) }
  | .hfree g a b => some { g := g, srcs := [(a, 64), (b, 64)], uni := [(b, 64)], ord := true
                           eff := fun _ s T th => freed s T th (BitVec.ofNat 64 (rd s 64 T th a)) (BitVec.ofNat 64 (rd s 64 T th b)) }
  | .prefetch g a b => some { g := g, srcs := [(a, 64), (b, 32)], ord := true
                              eff := issuing (fun s T th => s.prefetchLane T th (addrOf s T th a b)) }
  | .cinv g l2 a b => some { g := g, srcs := [(a, 64), (b, 32)], ord := true
                             eff := issuing (fun s T th => s.maintain T true l2 (BitVec.ofNat 64 (rd s 64 T th a)) (rd s 32 T th b)) }
  | .cwb g l2 a b => some { g := g, srcs := [(a, 64), (b, 32)], ord := true
                            eff := issuing (fun s T th => s.maintain T false l2 (BitVec.ofNat 64 (rd s 64 T th a)) (rd s 32 T th b)) }
  | _ => none

/-- Control transfers and waits, lane by lane: 17 R319 to R323, R327, R333, R337. -/
def ctlOp : Instr → Option SeqOp
  | .call g off => some { g := g, eff := fun _ s T th => called s T th (offsetOf th off) }
  | .calli g a => some { g := g, srcs := [(a, 64)], eff := fun _ s T th => called s T th (BitVec.ofNat 64 (rd s 64 T th a)) }
  | .ret g => some { g := g, eff := fun _ s T th => returned s T th }
  | .exit g => some { g := g, eff := fun _ s T th => exited s T th }
  | .dispatch g d a b => some { g := g, d := d, srcs := [(.gpc, 32), (.s a, 64), (.s b, 96)], eff := fun _ s T th => dispatched s g d a b T th }
  | .wait g a => some { g := g, srcs := [(a, 64)], eff := fun _ s T th => awaited s T th (BitVec.ofNat 64 (rd s 64 T th a)) }
  | _ => none

/-- The system class and the accumulator stores, lane by lane: 20 R372 to R391, 19 R361, R362, 15 R289, R293, 21 R397. -/
def sysOp : Instr → Option SeqOp
  | .engCopy g q d a => some { g := g, d := d, w := 64, srcs := [(a, 256)], ord := true, eff := fun _ s T th => (
      let e := rd s 256 T th a;
      appends s T th ⟨0, q⟩ (e - bitsOf e 160 4 * 2 ^ 160) (fun s1 _ seq => some (owes s1 (T.ref th) d 64 seq.toNat .sys))) }
  | .engColl g q d a => some { g := g, d := d, w := 64, srcs := [(a, 256)], ord := true, eff := fun _ s T th => (
      let e := rd s 256 T th a;
      appends s T th ⟨1, q⟩ (e - bitsOf e 160 4 * 2 ^ 160 + 2 ^ 160) (fun s1 _ seq => some (owes s1 (T.ref th) d 64 seq.toNat .sys))) }
  | .engPost g qs a => some { g := g, srcs := [(a, 32)], ord := true, eff := fun _ s T th => (
      let v := BitVec.ofNat 32 (rd s 32 T th a);
      onQueue s T th qs false (fun s1 _ _ _ => some (posted s1 T.launch T.wg qs v))) }
  | .engSeq g qs d => some { g := g, d := d, w := 64, ord := true, eff := fun _ s T th => (
      let give := fun (s : State) => some (owes s (T.ref th) d 64 (seqOf qs ((s.countOf T.launch T.wg qs).getD 0)).toNat .sys)
      if qs.eng = 2 then give s else onQueue s T th qs false (fun s1 _ _ _ => give s1)) }
  | .svcwait g d => some { g := g, d := d, ord := true, eff := fun _ s T th => replied s d T th }
  | .trieStep g d a b => some { g := g, d := d, w := 64, srcs := [(a, 64), (b, 32)], ord := true, eff := fun _ s T th => (
      (trieStart s T th (BitVec.ofNat 64 (rd s 64 T th a))).bind (fun x =>
        let sym := if x.2.1.tok then rd s 32 T th b else rd s 32 T th b % 256;
        (trieNext x.1 T th x.2.1 x.2.2 sym).map (fun y =>
          owes y.1 (T.ref th) d 64 (match y.2 with | some t => t.toNat | none => 0) .sys))) }
  | .trieScan g d a b => some { g := g, d := d, w := 64, srcs := [(a, 64), (b, 32)], ord := true, eff := fun _ s T th => (
      let x := rd s 64 T th a
      let v := rd s 32 T th b;
      (trieStart s T th (BitVec.ofNat 64 x)).bind (fun y =>
        let cnt := if bitsOf x 62 2 = 0 then 4 else bitsOf x 62 2
        let syms := if y.2.1.tok then [v] else (List.range cnt).map (fun k => v / 256 ^ k % 256);
        (trieRun T th syms y.1 0 0 y.2.1).map (fun z =>
          owes z.1 (T.ref th) d 64 ((trieState z.2.1.va 0).toNat + z.2.2) .sys))) }
  | .trieChild g d a b => some { g := g, d := d, w := 64, srcs := [(a, 64), (b, 32)], ord := true, eff := fun _ s T th => (
      (trieKid s T th (BitVec.ofNat 64 (rd s 64 T th a)) (rd s 32 T th b)).map (fun x => owes x.1 (T.ref th) d 64 x.2 .sys)) }
  | .trieInfo g d a => some { g := g, d := d, srcs := [(a, 64)], ord := true, eff := fun _ s T th => (
      (trieStart s T th (BitVec.ofNat 64 (rd s 64 T th a))).map (fun x =>
        owes x.1 (T.ref th) d 32 (trieWord x.2.1 + (if x.2.1.tok then 2 ^ 25 else 0) + (if x.2.2 ≠ 0 then 2 ^ 26 else 0)) .sys)) }
  | .covpt g d => some { g := g, d := d, w := 64, ord := true, eff := fun _ s T th => pointed s g d T th }
  | .tretRetry g => some { g := g, eff := fun _ s T th => returnedFrom s true T th }
  | .tretSkip g => some { g := g, eff := fun _ s T th => returnedFrom s false T th }
  | .sysr g ty d a => let w := if ty = .n64 then 64 else 32
    some { g := g, d := d, w := w, srcs := [(a, 32)], ord := true, eff := fun _ s T th => (
      let x := s.sysRead T.core (rd s 32 T th a);
      some (owes x.1 (T.ref th) d w (x.2.toNat % 2 ^ w) .sys)) }
  | .sysw g ty a b => let w := if ty = .n64 then 64 else 32
    some { g := g, srcs := [(a, 32), (b, w)], ord := true, eff := fun _ s T th => (
      if s.replays (T.ref th) then none else some (s.sysWrite T.core (rd s 32 T th a) (BitVec.ofNat 64 (rd s w T th b)))) }
  | .msig g tgt a => some { g := g, srcs := [(a, 32)], ord := true, eff := fun _ s T th => (
      (if s.replays (T.ref th) then none else targetCore s tgt).map (fun k =>
        let v := (s.core k).msignal ||| BitVec.ofNat 32 (rd s 32 T th a)
        let s1 := s.setCore { s.core k with msignal := v }
        if v = 0 then s1 else { s1 with notices := s1.notices ++ [(0x400, k)] })) }
  | .mpost g tgt a b => some { g := g, srcs := [(a, 64), (b, 32)], ord := true, eff := fun _ s T th => (
      let va : BitVec 64 := BitVec.ofNat 64 (rd s 64 T th a);
      (if s.replays (T.ref th) then none else targetCore s tgt).bind (fun k =>
        if va.toNat % 4 ≠ 0 ∨ 16 ≤ (s.core k).mpost.length then none
        else some (s.setCore { s.core k with mpost := (s.core k).mpost ++ [(va, BitVec.ofNat 32 (rd s 32 T th b))] }))) }
  | .tlbinvPage g a b => some { g := g, srcs := [(a, 64), (b, 32)], ord := true, eff := fun _ s T th => (
      some { s with
        tlb := s.tlb.filter (fun t => !(t.vpn == rd s 64 T th a / 2 ^ t.bits && (t.asid == rd s 32 T th b % 1024 || t.glob)))
        upper := s.upper.filter (fun x => !(x.asid == rd s 32 T th b % 1024 && x.tag == rd s 64 T th a / 2 ^ (12 + 9 * x.level))) }) }
  | .tlbinvAsid g a b => some { g := g, srcs := [(a, 64), (b, 32)], ord := true, eff := fun _ s T th => (
      some { s with tlb := s.tlb.filter (fun t => t.asid != rd s 32 T th b % 1024)
                    upper := s.upper.filter (fun x => x.asid != rd s 32 T th b % 1024) }) }
  | .tlbinvAll g a b => some { g := g, srcs := [(a, 64), (b, 32)], ord := true, eff := fun _ s _ _ => some { s with tlb := [], upper := [] } }
  | .cflush g a b => some { g := g, srcs := [(a, 64), (b, 32)], ord := true, eff := fun _ s T th => (
      some ((s.maintain T true true (BitVec.ofNat 64 (rd s 64 T th a)) (rd s 32 T th b)).dropFetch
        (s.linesOf T (rd s 64 T th a % 2 ^ 64) (rd s 32 T th b)))) }
  | .accst g x a b => some { g := g, srcs := [(x, 32), (a, 32), (b, 32)], ord := true, eff := fun _ s T th => (
      let r := accBase (s.wg T.launch T.wg).accblk + rd s 32 T th a
      if accBase T.accwin ≤ r ∧ r < accLimit T.accwin ∧ rd s 32 T th b < 32 ∧ s.rowOwned T.core r = false then
        some (s.setCore ((s.core T.core).setAcc (r * 32 + rd s 32 T th b) (BitVec.ofNat 32 (readSrc (s.tickOf T) (.flt .f32) 32 T th x))))
      else none) }
  | .mmaprogWr g q a b => some { g := g, srcs := [(a, 32), (b, 32)], eff := fun _ s T th => (
      some (match s.targetTeam (dieOf T.core) (rd s 32 T th a) with
        | none => s
        | some U => s.rowProgWrite U q (BitVec.ofNat 32 (rd s 32 T th b)))) }
  | _ => none

/-- What an instruction needs of the group, and of the group when its lanes have acted: mmaprog's quarter is one of its target
(15 R289); the threads of a bound team exit and return from the handler together, no deferred fault among them, and go on at one address (13
R239, R249); no lane that waits stands beside one that dispatch gives an s register (00 R10). -/
def seqReady (i : Instr) (s : State) (c : Cur) (t : State) : Prop :=
  let whole := fun (g : Guard) => ∀ T ∈ s.groupTeams c.entry, T.blc.getLsbD 31 = true → T.executing c.entry g ≠ [] →
    (T.executing c.entry g).length = T.live.length
  let together := ∀ T ∈ s.groupTeams c.entry, T.blc.getLsbD 31 = true → ∃ T1, t.team? T.launch T.wg T.idx = some T1
    ∧ (∀ th ∈ T1.live, th.status ≠ .parked) ∧ (∀ th ∈ T1.group c.entry, ∀ n, th.hold ≠ .at n)
    ∧ ∃ a, ∀ th ∈ T1.group c.entry, th.next.getD (s.fallNow th) = a
  match i with
  | .mmaprogWr g q a _ => ∀ T ∈ s.teams, ∀ th ∈ T.executing c.entry g,
      ∀ U, s.targetTeam (dieOf T.core) (rd s 32 T th a) = some U → q < U.width / 8
  | .exit g => whole g ∧ ∀ T ∈ s.groupTeams c.entry, T.blc.getLsbD 31 = true → ∀ th ∈ T.executing c.entry g,
      s.awaits (T.ref th) th = false ∧ th.defer = []
  | .tretRetry g | .tretSkip g => whole g
  | .dispatch _ d _ _ => together ∧ ((sRegOf d).isSome = true → ∀ T ∈ t.groupTeams c.entry, ∀ th ∈ T.group c.entry, ∀ n, th.hold ≠ .at n)
  | .call .. | .calli .. | .ret .. => together
  | _ => True

/-! ## Instructions that the first executing lane of each team performs for its team -/

/-- The executing lanes of a team have finished the slot. -/
def teamPassed (s : State) (c : Cur) (g : Guard) (T : Team) : State :=
  s.updTeam T.launch T.wg T.idx (·.mapThreads (fun th =>
    if th.issuing c.entry && th.passes g then { th with hold := .passed } else th))

/-- The teams in turn, each by its first executing lane; where the instruction reaches memory, no lane that executes has an access that waits, nor any
thread of a bound team, and the replay buffer has room (02 R45; 13 R239). -/
def runTeams (c : Cur) (g : Guard) (mem : Bool) (e : State → Team → Thread → Option State) : State → List Team → Option State
  | s, [] => some s
  | s, q :: qs =>
    match s.team? q.launch q.wg q.idx with
    | none => runTeams c g mem e s qs
    | some T =>
      match T.executing c.entry g with
      | [] => runTeams c g mem e s qs
      | th :: ths =>
        if T.sound th && !(mem && ((th :: ths).any (fun o => s.replays (T.ref o)) || !roomAt s T)) then
          (e s T th).bind (fun s' => runTeams c g mem e (teamPassed s' c g T) qs)
        else none

/-- The teams of the group that execute, by index. -/
def actingTeams (s : State) (c : Cur) (g : Guard) : List Team :=
  sortBy (fun (a b : Team) => decide (a.idx ≤ b.idx)) ((s.groupTeams c.entry).filter (fun T => !(T.executing c.entry g).isEmpty))

/-- tfill and tdrain (03 R64 to R66, 14 R264): the transition, its copy entry appended to the queue that the descriptor names and
posted. -/
def tileMoves (s : State) (T : Team) (th : Thread) (fill : Bool) (t : Nat) (va : BitVec 64) (b : Nat) : Option State :=
  match s.tileOf T t with
  | .error _ => none
  | .ok (p, k, n) =>
    let e := s.tile k n
    let len := bitsAt b 13 0
    let base := bitsAt b 26 14
    let other := fun m => p.tbase + m != n && tileV (s.tile k (p.tbase + m))
      && decide (base < tileBase (s.tile k (p.tbase + m)) + tileLen (s.tile k (p.tbase + m))) && decide (tileBase (s.tile k (p.tbase + m)) < base + len)
    let lo := 2 ^ 56 + base * 128
    if (tileV e && (tileState e = 1 || tileState e = 3)) || (!fill && (!tileV e || tileState e = 0))
        || (fill && tileV e && tileState e = 2 && s.tileRead k T.launch p.home t) || bitsAt b 29 27 != 0
        || (tileV e && !(base == tileBase e && len == tileLen e)) || len = 0 || decide (p.size < base * 128 + len * 128)
        || (fill && (List.range p.tiles).any other) || va.toNat % 4 != 0 then none
    else
      let sel : QSel := ⟨0, bitsAt b 31 30⟩;
      appends s T th sel ((if fill then va.toNat + 2 ^ 64 * lo else lo + 2 ^ 64 * va.toNat) + 2 ^ 128 * (128 * len)) (fun s1 pos seq =>
        some ((posted s1 T.launch T.wg sel (pos + 1)).setTile k n
          (mkTile seq (if fill then 1 else 3) (tileV e && tileErr e) (s1.wg T.launch T.wg).slot len base)))

/-- The instructions that act once for each team: 14 R264 to R266; 15 R279, R294; 20 R375, R383. -/
def teamOp : Instr → Option SeqOp
  | .tfill g t a b => some { g := g, srcs := [(a, 64), (b, 32)], uni := [(a, 64), (b, 32)], eff := fun _ s T th => (
      tileMoves s T th true t (BitVec.ofNat 64 (rd s 64 T th a)) (rd s 32 T th b)) }
  | .tdrain g t a b => some { g := g, srcs := [(a, 64), (b, 32)], uni := [(a, 64), (b, 32)], eff := fun _ s T th => (
      tileMoves s T th false t (BitVec.ofNat 64 (rd s 64 T th a)) (rd s 32 T th b)) }
  | .tfree g t => some { g := g, eff := fun _ s T _ => (
      match s.tileOf T t with
      | .error _ => none
      | .ok (_, k, n) =>
        let e := s.tile k n
        if tileV e && (tileState e == 0 || tileState e == 2) then some (s.setTile k n (e &&& ~~~(1#128 <<< 63))) else none) }
  | .opmap g m a => some { g := g, srcs := [(a, 64)], uni := [(a, 64)], eff := fun _ s T th => (
      performed s T th { kind := .opmap m, va := BitVec.ofNat 64 (rd s 64 T th a), n := 64 }) }
  | .reelGo g a b => some { g := g, srcs := [(a, 64), (b, 32)], uni := [(a, 64), (b, 32)], mem := false, eff := fun _ s T th => (
      let w : BitVec 64 := BitVec.ofNat 64 (rd s 64 T th a)
      let start := rd s 32 T th b
      let R := (s.core T.core).reel
      let mine : Option (List Cursor) := match R.owner with
        | none => some []
        | some o => if o ≠ ⟨T.launch, T.wg⟩ then none else if R.graph = w then some R.cursors else if R.cursors.all (·.stopped) then some [] else none
      if bitsOf w.toNat 8 5 ≠ 0 ∨ w.toNat % 256 < start then none
      else mine.bind (fun cs => ((List.range 4).find? (fun k => cs.all (fun (x : Cursor) => x.id != k || x.stopped))).map (fun k =>
        s.setCore { s.core T.core with reel :=
          { owner := some ⟨T.launch, T.wg⟩, graph := w, cursors := cs.filter (fun x => x.id != k) ++ [{ id := k, node := start }] } }))) }
  | .mark g a => some { g := g, srcs := [(a, 32)], uni := [(a, 32)], mem := false, eff := fun _ s T th => (
      some (s.trace (dieOf T.core) 1 (s.launch T.launch).asid (s.traceCore T.core) (s.traceQ T) (rd s 32 T th a) [])) }
  | _ => none

end Sys2Proof.Claims

namespace Sys2Proof.Claims
open Sys2Proof Sys2Proof.Machine

/-- covst for the element type of its coverage launch: an f64 value is a register pair (19 R362). -/
def covstOp (t : Ty) (g : Guard) (a b : Src) : SeqOp :=
  let w := if t = .f64 then 64 else 32
  { g := g, srcs := [(a, w), (b, 32)], ord := true
    eff := fun _ s T th => staged s t (readSrc (s.tickOf T) (fmtOfTy t) w T th a) (rd s 32 T th b) T }

/-- A thread parked with a record at a slot of its clause (21 R395), or at the clause's boundary; in the handler NEST is set. -/
def parkedWith (slot : Nat) (th : Thread) (r : Record) (inside : Bool := true) : Thread :=
  { th with status := .parked, record := some { r with nest := r.nest || th.frame.isSome }, entry := none, slotDone := false, hold := .none
            slot := slot, inside := inside, next := none, claim := none }

/-- A bound team parks whole: every thread in the group's entry that has not exited, with one record (13 R249). -/
def parkWhole (c : Cur) (r : Record) (T : Team) (inside : Bool := true) : Team :=
  T.mapThreads (fun th => if th.entry = some c.entry ∧ th.status ≠ .exited then parkedWith c.slot th r inside else th)

/-- Every executing lane of a team parks with a record of its own; where the team is bound, the team with the record of the
lowest that executes (21 R393, R395; 13 R249). -/
def parkLanes (s : State) (c : Cur) (g : Guard) (x : Trap) (T : Team) : Team :=
  let rec_ := fun (th : Thread) => s.record T th th.clause c.slot false x
  match T.blc.getLsbD 31, T.executing c.entry g with
  | true, th0 :: _ => parkWhole c (rec_ th0) T
  | _, _ => T.mapThreads (fun th => if th.issuing c.entry && th.passes g then parkedWith c.slot th (rec_ th) else th)

/-- A fault of the group before any effect: every issuing lane parks with a record of its own, GRP set; a bound team with the record of the
lowest issuing lane (00 R10, 21 R393, 13 R249). A clause that has not begun is parked at its boundary (16 R308). -/
def parkGroup (s : State) (c : Cur) (x : Trap) (f : Record → Record := id) (inside : Bool := true) : State :=
  s.mapTeams (fun T =>
    let rec_ := fun (th : Thread) => f (s.record T th th.clause c.slot true x)
    match T.blc.getLsbD 31, T.threads.filter (·.issuing c.entry) with
    | true, th0 :: _ => parkWhole c (rec_ th0) T inside
    | _, _ => T.mapThreads (fun th => if th.issuing c.entry then parkedWith c.slot th (rec_ th) inside else th))

/-- The vote of a guarded branch: 1 all lanes taken, 2 none, 3 some (17 R318). -/
def branchVote (s : State) (c : Cur) (g : Guard) : Nat :=
  let all : Nat := (s.teams.map (fun T => (T.threads.filter (·.issuing c.entry)).length)).sum
  let taken : Nat := (s.teams.map (fun T => (T.executing c.entry g).length)).sum
  if taken = all then 1 else if taken = 0 then 2 else 3

/-- A team after a guarded branch: each lane keeps the vote, those whose guard passes jump, and the team counts the outcome (17
R318). -/
def branched (c : Cur) (g : Guard) (off : Int) (o : Nat) (T : Team) : Team :=
  if T.threads.any (·.issuing c.entry) then
    { T.lanesDone c .always (fun th =>
        let th1 := { th with vote := BitVec.ofNat 2 o }
        if th.passes g then jumps th1 (offsetOf th off) else th1) with
      votes := setAt T.votes (o - 1) (T.votes.getD (o - 1) 0 + 1) }
  else T

/-- A thread after loop: at a count of 0 it goes to X, else a new level stands on its stack (17 R324). -/
def looped (n k : Nat) (f e x : BitVec 64) (T : Team) (th : Thread) : Thread :=
  if T.sReg (8 + k) = 0 then { th with next := some x }
  else { th with lc := setAt th.lc n (T.sReg (8 + k)), next := some f
                 loops := { n := n, l := f, e := e, x := x, depth := th.rstack.length + th.bc } :: th.loops }

/-- An event that a team waits for is set: it is taken; a team that was woken has passed (17 R332). -/
def slept (c : Cur) (g : Guard) (a : Src) (s : State) (T : Team) (th : Thread) : Option State :=
  let e := rd s 32 T th a
  let W := s.wg T.launch T.wg
  if (T.executing c.entry g).all (·.hold == .passed) then some s
  else if !W.ev.getLsbD e then none
  else some (s.setWg { W with ev := W.ev &&& ~~~(1#64 <<< e) })

/-- An arrival at a boundary (07 R129, R130): the first of the workgroup sets its scope, the others find the same. -/
def arrived (sc : Scope) (s : State) (T : Team) (th : Thread) : Option State :=
  let W := s.wg T.launch T.wg
  let go := fun (s : State) => some (s.updThread (T.ref th) (fun th => { th with hold := .arrived }))
  if th.hold = .passed then some s
  else if !memFree s T th then none
  else if sc ≠ .wg ∧ (s.launch T.launch).recd.phased = false then none
  else match W.pend with
    | none => go (s.setWg { W with pend := some sc })
    | some sc' => if sc' = sc then go s else none

/-- The arrivals of the issuing lanes in turn. -/
def runArrivals (c : Cur) (sc : Scope) : State → List (Team × Thread) → Option State
  | s, [] => some s
  | s, q :: qs =>
    match s.thread? (q.1.ref q.2) with
    | none => runArrivals c sc s qs
    | some (T, th) => if th.issuing c.entry then (arrived sc s T th).bind (fun s' => runArrivals c sc s' qs) else runArrivals c sc s qs

/-- The arguments of a service call go to the lanes' slots (20 R378). -/
def svcWrites (a : Src) (T : Team) : State → List Thread → Option State
  | s, [] => some s
  | s, th :: ths =>
    (atHome s T th (s.replySlots T + BitVec.ofNat 64 (16 * th.lane)) 16 true (fun s1 loc =>
      some (s1.putMarked (dieOf T.core) loc (leBytes 4 (rd s 32 T th a) ++ List.replicate 12 0))) true).bind (fun s2 => svcWrites a T s2 ths)

/-- One team's service call: its arguments written, one batch of its lanes in the core's Basket, each lane with a call pending. -/
def served (c : Cur) (g : Guard) (code : Nat) (a : Src) (s : State) (T : Team) : Option State :=
  let lanes := T.executing c.entry g
  if lanes.any (fun th => th.svc || !T.sound th) || decide (16 ≤ s.basket T.core) then none
  else (svcWrites a T s lanes).map (fun s2 =>
    let b : Batch := { core := T.core, launch := T.launch, wg := T.wg, team := T.idx, slots := s2.replySlots T
                       mask := BitVec.ofNat 64 (lanes.map (fun th => 2 ^ th.lane)).sum, code := code
                       slot := (s2.wg T.launch T.wg).slot }
    { s2 with batches := s2.batches ++ [b] }.updTeam T.launch T.wg T.idx (·.mapThreads (fun th =>
      if th.issuing c.entry && th.passes g then { th with svc := true, hold := .passed } else th)))

/-- The service calls of the teams in turn. -/
def runCalls (c : Cur) (g : Guard) (code : Nat) (a : Src) : State → List Team → Option State
  | s, [] => some s
  | s, q :: qs =>
    match s.team? q.launch q.wg q.idx with
    | none => runCalls c g code a s qs
    | some T =>
      if (T.executing c.entry g).isEmpty then none else (served c g code a s T).bind (fun s' => runCalls c g code a s' qs)

/-- The rows that acczero names: the first, relative to the workgroup's block, and how many (15 R294). -/
def zeroRows (s : State) (T : Team) (th : Thread) (a b : Src) : List Nat :=
  (List.range (rd s 32 T th b)).map (fun k => accBase (s.wg T.launch T.wg).accblk + rd s 32 T th a + k)

/-- Every element of a row is +0. -/
def rowZero (s : State) (core r : Nat) : State :=
  (List.range 32).foldl (fun a j => a.setCore ((a.core core).setAcc (r * 32 + j) 0)) s

/-- accwin of a team: a window of the workgroup's block from row a to row b (15 R292). -/
def windowOf (s : State) (T : Team) (th : Thread) (a b : Src) : BitVec 32 :=
  let base := accBase (s.wg T.launch T.wg).accblk + rd s 32 T th a
  let limit := accBase (s.wg T.launch T.wg).accblk + rd s 32 T th b
  BitVec.ofNat 32 ((if rd s 32 T th b ≤ rd s 32 T th a then min limit (min base 4095) else limit) * 2 ^ 16 + min base 4095)

/-- Goes on with the executing lanes of teams and the entry point that each names, which its team reads from ENTRYTAB (17 R335). -/
def withParents (g : Guard) (a : Src) (k : State → List Parent → Option State) : List Team → State → List Parent → Option State
  | [], s, acc => k s acc
  | T :: ts, s, acc =>
    match s.lanesOf T g with
    | [] => withParents g a k ts s acc
    | th :: rest =>
      atHome s T th ((s.launch T.launch).recd.entrytab + BitVec.ofNat 64 (8 * rd s 32 T th a)) 8 false (fun s1 loc =>
        withParents g a k ts s1 (acc ++ (th :: rest).map (fun o => (T, o, BitVec.ofNat 64 (s1.homeNat loc 8)))))

/-- The executing lanes of a workgroup in the order in which they are packed, in chunks of the launch's width (17 R335). -/
def chunksFor (s : State) (ps : List Parent) (l w : Nat) : List (List Parent) :=
  let mine := spawnOrder (s.launch l).recd.det (ps.filter (fun x => x.1.launch == l && x.1.wg == w))
  chunksOf (s.launch l).recd.lanes (mine.length + 1) mine

/-- The children of a workgroup's executing lanes: each chunk becomes a team in a free slot, and the lanes of a chunk for which there is none
take a false guard (17 R335, R336). -/
def spawned (g : Guard) (b : Src) (ps : List Parent) (s : State) (l w : Nat) : State :=
  let chunks := chunksFor s ps l w
  let free := s.freeSpawn (s.wg l w)
  let s1 := (chunks.zip free).foldl (fun a x => a.spawnTeam l w x.2 b x.1) s
  let s2 := chunks.flatten.foldl (fun a x => a.updThread (x.1.ref x.2.1) (fun t => { t with hold := .passed })) s1
  (chunks.drop free.length).flatten.foldl (fun a x => a.updThread (x.1.ref x.2.1) (fun t => match g with
    | .always => t
    | .on p neg => t.setP p neg)) s2

/-- The workgroups that a group's executing lanes belong to. -/
def wgsOf (ts : List Team) : List (Nat × Nat) := (ts.map (fun T => (T.launch, T.wg))).dedup

/-- The parts of a matrix operation by team, with what each finds of its operands when it issues (15 R286). -/
def partsOf (s : State) (c : Cur) (i : Instr) (bs : Option Nat) (k ma mb : Nat) (x y : Src) (ps : List Part) : State × List (Nat × List PassPart) :=
  (s.groupTeams c.entry).foldl (fun (acc : State × List (Nat × List PassPart)) T =>
    match ps.filter (fun p => p.team.is T.launch T.wg T.idx) with
    | [] => acc
    | l =>
      let (a, qs) := acc.1.mkParts (fun s p => s.mkPart i bs k ma mb x y (if bs.isSome then 64 else 32) p c.slot) l
      (a, acc.2 ++ [(T.core, qs)])) (s, [])

/-- What a matrix operation needs: its quarters take part whole (15 R276), no source holds an error, its uniform sources are (R291),
no opmap that it needs is outstanding (R279), its maps, windows and scales pass (R280, R282), its tiles stand (03 R66), and the queue of 16
has room (R284). -/
structure MatReady (s : State) (c : Cur) (i : Instr) (g : Guard) (ty : Ty) (bs : Option Nat) (k : Nat) (x : Src) (ma mb : Nat) (y : Src)
    (ps : List Part) : Prop where
  cur   : s.cur = some c
  block : ∀ T ∈ s.teams, (∃ th ∈ T.threads, th.issuing c.entry = true) →
            ∀ r ∈ srcRegs 32 x ++ srcRegs (if bs.isSome then 64 else 32) y, r < T.bsize
  parts : s.takePart c g = .ok ps
  clean : ∀ p ∈ ps, ∀ th ∈ p.lanes, p.team.sound th = true
  same  : ∀ p ∈ ps, ∀ th ∈ p.lanes, ∀ th' ∈ p.lanes,
            rd s 32 p.team th x = rd s 32 p.team th' x ∧ rd s 32 p.team th y = rd s 32 p.team th' y
  maps  : ∀ p ∈ ps, s.opmapPending p.team ma = false ∧ s.opmapPending p.team mb = false
  right : ∀ n, n < 4 → ∀ p ∈ ps, s.partFault ty bs k ma mb (p.value (s.tickOf p.team) x)
            (lowHalf (s.tickOf p.team) p (if bs.isSome then 64 else 32) y) p.team n = none
  tiles : ∀ p ∈ ps, s.tileUse p.team (mapView (p.team.maps.getD ma 0)) = .ok false ∧ s.tileUse p.team (mapView (p.team.maps.getD mb 0)) = .ok false
  room  : ∀ t ∈ (partsOf s c i bs k ma mb x y ps).2, (s.core t.1).passes.length + (partsOf s c i bs k ma mb x y ps).2.length ≤ 16

end Sys2Proof.Claims

namespace Sys2Proof.Claims
open Sys2Proof Sys2Proof.Machine

/-- The teams in turn, each with its first executing lane, none of them marked. -/
def eachTeam (c : Cur) (g : Guard) (e : State → Team → Thread → State) (s : State) (ts : List Team) : State :=
  ts.foldl (fun a q =>
    match a.team? q.launch q.wg q.idx with
    | none => a
    | some T =>
      match T.executing c.entry g with
      | [] => a
      | th :: _ => e a T th) s

/-- What a uniform instruction with sources srcs, all of them uniform, needs. -/
def uniformOp (g : Guard) (srcs : List (Src × Nat)) : SeqOp := { g := g, srcs := srcs, uni := srcs, eff := fun _ s _ _ => some s }

/-- No register of a lane that executes, or of its team, holds an uncorrectable error (21 R400). -/
def soundLanes (s : State) (c : Cur) (g : Guard) : Prop := ∀ T ∈ s.teams, ∀ th ∈ T.executing c.entry g, T.sound th = true

/-- acczero of one team: its rows take +0 (15 R294). -/
def zeroed (s0 : State) (a b : Src) (s : State) (T : Team) (th : Thread) : Option State :=
  if (zeroRows s0 T th a b).any (s.rowOwned T.core) then none else some ((zeroRows s0 T th a b).foldl (fun x r => rowZero x T.core r) s)

/-- A group entry that passes its next turn (17 R338). -/
def skipping (s : State) (c : Cur) : List Entry :=
  s.entries.map (fun e => if e.id = c.entry then { e with skips := (s.groupTeams c.entry).map (fun T => (T.wg, T.idx)) } else e)

/-- A team bound as one number: 2^n quarters of 16 lanes, limbs of 64 bits where wide; lane 0's overflow flag is false (13 R238). -/
def boundAs (n : Nat) (wide : Bool) (T : Team) : Team :=
  { T.mapThreads (fun th => if th.lane = 0 then th.setP 11 false else th) with
    blc := BitVec.ofNat 32 (2 ^ 31 + 2 ^ 24 * n + (if wide then 2 ^ 23 else 0)) }

end Sys2Proof.Claims

namespace Sys2Proof.Claims
open Sys2Proof Sys2Proof.Machine

/-! ## What the instructions of the registers leave alone -/

/-- A thread after an instruction of the registers, in a team that is bound or not: its place, its control state and what engines and service
blocks know of it stay; one that does not issue is as it was. A bound team parks whole, and with a deferred fault in place of the instruction,
which its threads no longer owe (13 R241, R249). -/
def threadKept (c : Cur) (bound : Bool) (a b : Thread) : Prop :=
  b.lane = a.lane ∧ b.tid = a.tid ∧ b.gpc = a.gpc ∧ b.gop = a.gop ∧ b.vote = a.vote ∧ b.lc = a.lc ∧ b.rstack = a.rstack ∧ b.bc = a.bc ∧ b.loops = a.loops
  ∧ b.clause = a.clause ∧ b.frame = a.frame ∧ b.defer.Sublist a.defer ∧ b.svc = a.svc ∧ b.qslots = a.qslots ∧ b.skipGbp = a.skipGbp
  ∧ (∀ p ∈ a.outst, p ∈ b.outst)
  ∧ (bound = false → b.defer = a.defer ∧ (a.issuing c.entry = false → b = a))
  ∧ (a.entry ≠ some c.entry → b = { a with defer := b.defer })

/-- A team after it: everything but its s registers, the marks of errors in them, and its threads. -/
def teamKept (c : Cur) (a b : Team) : Prop :=
  b = { a with s := b.s, ecc := b.ecc, threads := b.threads } ∧ b.s.length = a.s.length ∧ b.ecc.Sublist a.ecc
  ∧ List.Forall₂ (threadKept c (a.blc.getLsbD 31)) a.threads b.threads

/-- The instruction classes whose instructions act on registers alone: 10, 11, 12 and, for a bound team, 13. -/
def registerOp (i : Instr) : Bool := (intOp i).isSome || (fltOp i).isSome || (xlOp i).isSome || (limbOp 32 i).isSome

/-- An instruction with these registers, of any class (R93). -/
def namedRegs (i : Instr) : Option (List Nat) :=
  match intOp i, fltOp i, xlOp i with
  | some o, _, _ | _, some o, _ | _, _, some o => some o.named
  | _, _, _ =>
    match memOp i with
    | some o => some (dstRegs o.w o.d ++ o.srcs.flatMap (fun q => srcRegs q.2 q.1))
    | none => none

/-! ## The seal, written as 01 R15 writes it -/

/-- One bit: the register is shifted, and the polynomial added where the bit that leaves differs from the one that comes. -/
def sealStep (crc : BitVec 16) (bit : Bool) : BitVec 16 := if (crc.msb != bit) then (crc <<< 1) ^^^ 0x8bb7#16 else crc <<< 1

/-- The seal of bytes in rising order of address, each from its most significant bit down. -/
def sealLoop (bs : List Byte) : BitVec 16 :=
  bs.foldl (fun crc b => (List.range 8).foldl (fun crc j => sealStep crc (b.getLsbD (7 - j))) crc) 0

end Sys2Proof.Claims

section
open Sys2Proof Sys2Proof.Machine Sys2Proof.Claims

/-! ## Encoding, decoding and the step -/

/-- A tick passes after a step of a module that has power. -/
def ticked (ran : List Team) (s : State) : State := if s.bring.powered then s.clock ran else s

/-- Every well-formed instruction of a program has words, and from them it is read back whole, whatever words follow (09 R165, R171 to
R179). -/
def Obligations.DecodeOfEncode : Prop :=
  ∀ i : Instr, i.wellFormed = true →
    (isOperation i = false → ∃ c ws, encode i = some (c, ws))
    ∧ ∀ c ws, encode i = some (c, ws) → ∀ tail, decodeWords c true (ws ++ tail) = .ok (i, ws.length)

/-- A step executes the instruction that the bytes at its place decode to: exec of that instruction, where no guard predicate of a lane holds an
error (21 R400), and the end of the slot (09 R164 to R166; 17 R316). The clause stands in the clause buffer, or is fetched first; a word that is
fetched is the four bytes at the place to which its address translates. That one tick passes with each step of the module's own, and that the issuing
group's next slot is the next step, is the model's choice (log entries 90 and 51); so is the agenda (log entry 2): an operation that is due
comes before, and takes no tick; one that must wait lets the others by; an instruction of a program in the agenda is a step that the
module takes by itself. -/
def Obligations.StepRunsTheDecodedInstruction : Prop :=
  (∀ (s : State) (c : Cur) (E : Entry) (h : Header) (i : Instr) (n : Nat) (t : State),
    s.gated = false → s.agenda = [] → s.cur = some c → s.entry? c.entry = some E → E.begun = false →
    E.words ≠ [] → decodeHeader (E.words.headD 0) = some h → c.slot < h.cnt →
    decodeWords h.cls (s.groupPriv c.entry) ((E.words.take 16).drop (slotOffset E.words c.slot 1)) = .ok (i, n) →
    (isTransfer i = true → c.slot + 1 = h.cnt) → (isFirst i = true → c.slot = 0) →
    exec i (s.guardEcc c (E.words.getD (slotOffset E.words c.slot 1) 0)) = .next t →
    step s = .next (ticked (s.groupTeams c.entry) (t.afterSlot c h E.words (s.groupTeams c.entry))))
  ∧ (∀ (s s1 : State) (c : Cur) (E : Entry) (T : Team) (th : Thread) (ms : List (Team × Thread)) (ws : List (BitVec 32)) (h : Header) (i : Instr)
      (n : Nat) (t : State),
    s.gated = false → s.agenda = [] → s.cur = some c → s.entry? c.entry = some E → E.begun = false →
    E.words = [] → ws ≠ [] → s.members E.id = (T, th) :: ms → s.fetchClause (s.agent T) E.addr = .ok s1 ws →
    (c.slot = 0 → (E.point = true ∨ (clauseKind ws (s.launch T.launch).priv).point = false) ∧ s1.waitsMet E (s1.members E.id) = true) →
    s1.cur = some c → s1.entry? c.entry = some E → decodeHeader (ws.headD 0) = some h → c.slot < h.cnt →
    decodeWords h.cls (s1.groupPriv c.entry) ((ws.take 16).drop (slotOffset ws c.slot 1)) = .ok (i, n) →
    (isTransfer i = true → c.slot + 1 = h.cnt) → (isFirst i = true → c.slot = 0) →
    exec i ((s1.startAges T E (if c.slot = 0 then { E with words := ws, age := 0, promo := none } else { E with words := ws })).guardEcc c
      (ws.getD (slotOffset ws c.slot 1) 0)) = .next t →
    step s = .next (ticked (s.groupTeams c.entry) (t.afterSlot c h ws (s1.groupTeams c.entry))))
  ∧ (∀ (s s1 : State) (a : Agent) (va : BitVec 64) (loc pa sh : Nat),
    s.translate a va .fetch = (s1, .ok loc pa sh) → va.toNat % 4 = 0 → s1.reach loc = .yes → s1.engineHolds loc 4 false = false →
    s1.sealBad loc = false → ByteMap.get? (s1.core a.core).icache loc = none →
    ∃ s2, s.fetchWord a va = .ok s2 [BitVec.ofNat 32 ((s1.homeByte loc).toNat + 2 ^ 8 * (s1.homeByte (loc + 1)).toNat
      + 2 ^ 16 * (s1.homeByte (loc + 2)).toNat + 2 ^ 24 * (s1.homeByte (loc + 3)).toNat)])
  ∧ (∀ (s : State) (c : Cur) (w : BitVec 32), (∀ T ∈ s.teams, ∀ th ∈ T.threads, th.ecc = []) ∨ 12 ≤ w.toNat / 2 ^ 28 → s.guardEcc c w = s)
  ∧ (∀ (s : State) (i : Instr) (rest : List Instr), s.gated = false → s.agenda = i :: rest → isOperation i = true →
    (s.mustWait i = false → step s = exec i { s with agenda := rest })
    ∧ (s.mustWait i = true → step s = State.ownStep { s with agenda := rest ++ [i] }))
  ∧ (∀ (s : State) (i : Instr) (rest : List Instr), s.gated = false → s.agenda = i :: rest → isOperation i = false →
    step s = State.ownStep { s with agenda := rest })

/-- No instruction and no operation is refused or stops the module; a step stops only where every clock is gated, and then unless a
module reset is due; the clock gates at the tick that STOP_TICK names (23 R414). -/
def Obligations.StepStopsOnlyWhenGated : Prop :=
  (∀ (i : Instr) (s : State), ∃ t, exec i s = .next t)
  ∧ (∀ s : State, s.gated = false → ∃ t, step s = .next t)
  ∧ (∀ s : State, s.gated = true → (∀ rest, s.agenda ≠ .moduleReset :: rest) → step s = .fault .clocksGated)
  ∧ (∀ (s : State) (ran : List Team), (s.clock ran).tick = s.tick + 1
      ∧ (s.clock ran).gated = (s.gated || decide (s.stopTick ≠ 0 ∧ s.tick + 1 = s.stopTick)))

/-! ## Instructions whose lanes act each on its own registers -/

/-- The integer class: every executing lane takes the result that 10 R186 to R204 give, and nothing else changes. -/
def Obligations.IntegerInstructions : Prop :=
  ∀ (i : Instr) (o : LaneOp), intOp i = some o → ∀ (s : State) (c : Cur) (x : Team → List Nat), o.Ready s c x →
    exec i s = .next (o.done s c x)

/-- The floating class: every executing lane takes the value and raises the sticky flags that 11 R205 to R223 give. -/
def Obligations.FloatingInstructions : Prop :=
  ∀ (i : Instr) (o : LaneOp), fltOp i = some o → ∀ (s : State) (c : Cur) (x : Team → List Nat), o.Ready s c x →
    exec i s = .next (o.done s c x)

/-- The cross-lane class: every executing lane takes what 12 R224 to R234 give it from the executing lanes of its team. -/
def Obligations.CrossLaneInstructions : Prop :=
  ∀ (i : Instr) (o : LaneOp), xlOp i = some o → ∀ (s : State) (c : Cur) (x : Team → List Nat), o.Ready s c x → groupReady i s c →
    exec i s = .next (o.done s c x)

/-- The bound-limb instructions of a bound team: each limb takes its bits of the number that 13 R239 to R247 give. -/
def Obligations.BoundLimbInstructions : Prop :=
  ∀ (i : Instr) (T : Team) (o : LaneOp), limbOp (limbW T) i = some o → ∀ (s : State) (c : Cur) (x : Team → List Nat),
    o.Ready s c x → LimbReady i o s c T → exec i s = .next (o.done s c x)

/-- bind, unbind and wwin: the bound state of the team (13 R235, R238, R245). -/
def Obligations.BindingOfTeams : Prop :=
  ∀ (s : State) (c : Cur) (T : Team) (g : Guard), s.cur = some c → s.groupTeams c.entry = [T] → T.executing c.entry g ≠ [] →
    (∀ (ty : Ty) (n : Nat), T.width = 16 * 2 ^ n → (T.executing c.entry g).length = T.width → T.blc.getLsbD 31 = false →
      exec (.bind g ty n) s = .next (s.updTeam T.launch T.wg T.idx (boundAs n (ty = .n64))))
    ∧ (T.blc.getLsbD 31 = true → (T.executing c.entry g).length = T.live.length →
      exec (.unbind g) s = .next (s.updTeam T.launch T.wg T.idx (fun U => { U with blc := 0 })))
    ∧ (∀ (a : Src) (k : Int) (th : Thread) (ths : List Thread), (uniformOp g [(a, 32)]).Ready s c → T.executing c.entry g = th :: ths →
      (∀ o ∈ T.executing c.entry g, T.sound o = true) → T.blc.getLsbD 31 = true → (T.executing c.entry g).length = T.live.length →
      s.limbWaits T [⟨2, a, 32⟩] = false → T.limbFault [⟨2, a, 32⟩] = none → -4096 ≤ signed 32 (rd s 32 T th a) + k → signed 32 (rd s 32 T th a) + k ≤ 4095 →
      exec (.wwin g a k) s = .next ((s.lanesDone c g [] (fun _ => []) (fun _ o => o)).updTeam T.launch T.wg T.idx (fun U =>
        { U with blc := U.blc &&& 0xffffe000#32 ||| (BitVec.ofInt 13 (signed 32 (rd s 32 T th a) + k)).zeroExtend 32 })))

/-- The instructions of the CTL, MEM, MAT and SYS classes whose lanes act each on its own thread. -/
def Obligations.LaneInstructions : Prop :=
  ∀ (i : Instr) (o : LaneOp), laneOp i = some o → ∀ (s : State) (c : Cur) (x : Team → List Nat), o.Ready s c x → groupReady i s c →
    exec i s = .next (o.done s c x)

/-! ## Instructions whose lanes act one after another -/

/-- The memory class: the lanes are performed in an order that keeps each team's lane order, each as 14 R251 to R274 say. -/
def Obligations.MemoryInstructions : Prop :=
  ∀ (i : Instr) (o : SeqOp), memOp i = some o → ∀ (s s1 t : State) (c : Cur) (ls : List (Team × Thread)), o.Ready s c →
    s.laneOrder c.entry o.g = (s1, ls) → runLanes s c o.ord (o.eff s) s1 ls = some t → exec i s = .next t

/-- Calls, returns, exit, dispatch and wait, lane by lane: 17 R319 to R323, R327, R333, R337. -/
def Obligations.ControlInstructions : Prop :=
  ∀ (i : Instr) (o : SeqOp), ctlOp i = some o → ∀ (s s1 t : State) (c : Cur) (ls : List (Team × Thread)), o.Ready s c →
    s.laneOrder c.entry o.g = (s1, ls) → runLanes s c o.ord (o.eff s) s1 ls = some t → seqReady i s c t → exec i s = .next t

/-- The system class and the accumulator stores, lane by lane: 20 R372 to R391, 19 R361, 15 R289, R293, 21 R397. That sysw extends a 32-bit source
with zeros, and that sysw, msig and mpost wait behind an access of their own thread that replays, is the model's choice (log entries 33 and 131). -/
def Obligations.SystemInstructions : Prop :=
  ∀ (i : Instr) (o : SeqOp), sysOp i = some o → ∀ (s s1 t : State) (c : Cur) (ls : List (Team × Thread)), o.Ready s c →
    s.laneOrder c.entry o.g = (s1, ls) → runLanes s c o.ord (o.eff s) s1 ls = some t → seqReady i s c t → exec i s = .next t

/-- covst, for the element type of the group's coverage launch (19 R362). -/
def Obligations.CoverageStores : Prop :=
  ∀ (g : Guard) (a b : Src) (T : Team) (C : Controller) (s s1 t : State) (c : Cur) (ls : List (Team × Thread)),
    (s.groupTeams c.entry).head? = some T → (s.launch T.launch).ctrl = some C → (covstOp (tyOf C.etype) g a b).Ready s c →
    a.okIn 64 16 (-16) 15 false (if tyOf C.etype = .f64 then 64 else 32) = true → a.aligned (if tyOf C.etype = .f64 then 64 else 32) = true →
    s.laneOrder c.entry g = (s1, ls) → runLanes s c true ((covstOp (tyOf C.etype) g a b).eff s) s1 ls = some t →
    exec (.covst g a b) s = .next t

/-- The instructions that act once for each team, by its first executing lane: tiles (14 R264), maps, the Reel and marks. That tfree does so too, and
that reel.go takes the number of a stopped cursor, is the model's choice (log entries 120 and 66). -/
def Obligations.TeamInstructions : Prop :=
  ∀ (i : Instr) (o : SeqOp), teamOp i = some o → ∀ (s t : State) (c : Cur), o.Ready s c →
    runTeams c o.g o.mem (o.eff s) s (actingTeams s c o.g) = some t → exec i s = .next t

/-- gmode, sleep on a set event, and yield (16 R303; 17 R332, R338). -/
def Obligations.SchedulingInstructions : Prop :=
  ∀ (s : State) (c : Cur) (g : Guard), s.cur = some c →
    (∀ m, exec (.gmode g m) s = .next (eachTeam c g (fun a T _ => a.updTeam T.launch T.wg T.idx (fun U => { U with tagmode := m })) s (actingTeams s c g)))
    ∧ (∀ (a : Src) (t : State), (uniformOp g [(a, 32)]).Ready s c → soundLanes s c g →
        (∀ T ∈ s.teams, ∀ th ∈ T.executing c.entry g, rd s 32 T th a < 64) →
        runTeams c g false (slept c g a) s (actingTeams s c g) = some t → exec (.sleep g a) s = .next t)
    ∧ (actingTeams s c g ≠ [] → exec (.yield g) s = .next { s.lanesDone c g [] (fun _ => []) (fun _ th => th) with entries := skipping s c })
    ∧ (actingTeams s c g = [] → exec (.yield g) s = .next s)

/-- bra: every lane takes the vote, those whose guard passes jump, each team counts the outcome (17 R318); a vote that a bound team splits
faults before any effect (13 R239); that its record names lane 0 is the model's choice (log entry 25). -/
def Obligations.Branches : Prop :=
  ∀ (s : State) (c : Cur) (off : Int), s.cur = some c →
    exec (.bra .always off) s = .next (s.lanesDone c .always [] (fun _ => []) (fun _ th => jumps th (offsetOf th off)))
    ∧ ∀ (p : Nat) (neg : Bool),
      ((branchVote s c (.on p neg) = 3 → ∀ T ∈ s.groupTeams c.entry, T.blc.getLsbD 31 = false) →
        exec (.bra (.on p neg) off) s = .next (s.mapTeams (branched c (.on p neg) off (branchVote s c (.on p neg)))))
      ∧ (∀ T ∈ s.groupTeams c.entry, branchVote s c (.on p neg) = 3 → T.blc.getLsbD 31 = true →
        exec (.bra (.on p neg) off) s = .next (parkGroup s c { cause := 0x044, sub := 1 } (fun r => { r with lane := 0 })))

/-- loop: with a count of 0 the lanes go to the clause after the loop's last one, else a level opens at the next clause (17 R324). -/
def Obligations.HardwareLoops : Prop :=
  ∀ (n k : Nat) (off : Int) (s s1 : State) (c : Cur) (T : Team) (th : Thread) (rest : List (Team × Thread)) (ws : List (BitVec 32)),
    s.cur = some c → s1.cur = some c → s.executing c.entry .always = (T, th) :: rest → (s.fallNow th).toNat ≤ (offsetOf th off).toNat →
    s.fetchClause (s.agent T) (offsetOf th off) = .ok s1 ws →
    (∀ U ∈ s1.teams, ∀ o ∈ U.executing c.entry .always, U.sound o = true ∧ o.loops.length < 3 ∧ ∀ v ∈ o.loops, v.n ≠ n) →
    exec (.loop n k off) s
      = .next (s1.lanesDone c .always [] (fun _ => []) (looped n k (s.fallNow th) (offsetOf th off) (fallThrough (offsetOf th off) ws)))

/-- spawn and spawn.try: the executing lanes of each workgroup become the parents of child teams whose threads start at the clause that
ENTRYTAB names for their team; every parent's earlier accesses have been performed (17 R335, R336). For a group of several teams, chunks for each
workgroup, an entry point for each team and the s registers of the first parent's team are the model's choice (log entry 102). -/
def Obligations.SpawnInstructions : Prop :=
  ∀ (g : Guard) (a b : Src) (s t : State) (c : Cur),
    { uniformOp g [(a, 32), (b, 32)] with uni := [(a, 32)] }.Ready s c → soundLanes s c g →
    (∀ T ∈ s.groupTeams c.entry, ∀ th ∈ T.executing c.entry g, rd s 32 T th a < (s.launch T.launch).recd.entries ∧ s.replays (T.ref th) = false) →
    let create := fun (x : State) (ps : List Parent) => (wgsOf (s.activeTeams g)).foldl (fun y q => spawned g b ps y q.1 q.2) x
    (withParents g a (fun x ps => some (create x ps)) (s.activeTeams g) s [] = some t → exec (.spawnTry g a b) s = .next t)
    ∧ (withParents g a (fun x ps =>
          if (wgsOf (s.activeTeams g)).all (fun q => decide ((chunksFor x ps q.1 q.2).length ≤ (x.freeSpawn (x.wg q.1 q.2)).length))
          then some (create x ps) else none) (s.activeTeams g) s [] = some t →
        exec (.spawn g a b) s = .next t)

/-- brk and trap: every executing lane parks at its slot with a record of cause 0x180, or 0x1A0 + n (17 R338; 20 R385; 21 R393, R395). -/
def Obligations.BreakpointsAndTraps : Prop :=
  ∀ (s : State) (c : Cur) (g : Guard), s.cur = some c →
    exec (.brk g) s = .next (s.mapTeams (parkLanes s c g { cause := 0x180 }))
    ∧ ∀ n, exec (.trap g n) s = .next (s.mapTeams (parkLanes s c g { cause := 0x1a0 + n }))

/-- bar.wg and phase: every lane arrives at the pending boundary of its workgroup, or sets its scope first (07 R129, R130; 17 R330). -/
def Obligations.BoundaryArrivals : Prop :=
  ∀ (s s1 t : State) (c : Cur) (ls : List (Team × Thread)) (sc : Scope), s.cur = some c → s.laneOrder c.entry .always = (s1, ls) →
    runArrivals c sc s1 ls = some t → s.shapeBad sc = none →
    exec (.phase sc) s = .next t ∧ (sc = .wg → exec .barWg s = .next t)

/-- svc: the arguments go to the lanes' slots, and each team's call is one batch in the Basket of its core (20 R378). -/
def Obligations.ServiceCalls : Prop :=
  ∀ (s t : State) (c : Cur) (g : Guard) (code : Nat) (a : Src), { uniformOp g [(a, 32)] with uni := [] }.Ready s c →
    runCalls c g code a s (actingTeams s c g) = some t → exec (.svc g code a) s = .next t

/-- mma and mmasc: the parts of each team enter the matrix queue of its core as one pass, or join the pass before (15 R276, R280, R284,
R285). One pass for each team of a group, and operand bytes taken at issue where they can be, are the model's choice (log entries 97 and 96). -/
def Obligations.MatrixOperations : Prop :=
  (∀ (g : Guard) (ty : Ty) (x y : Src) (ma mb : Nat) (s : State) (c : Cur) (ps : List Part),
    MatReady s c (.mma g ty x ma mb y) g ty none 0 x ma mb y ps →
    exec (.mma g ty x ma mb y) s
      = .next (((partsOf s c (.mma g ty x ma mb y) none 0 ma mb x y ps).2.foldl (fun a t => a.enqueue t.1 t.2) (partsOf s c (.mma g ty x ma mb y) none 0 ma mb x y ps).1).markGroup c g .passed))
  ∧ (∀ (g : Guard) (ty : Ty) (bs k : Nat) (x y : Src) (ma mb : Nat) (s : State) (c : Cur) (ps : List Part),
    MatReady s c (.mmasc g ty bs k x ma mb y) g ty (some bs) k x ma mb y ps →
    exec (.mmasc g ty bs k x ma mb y) s
      = .next (((partsOf s c (.mmasc g ty bs k x ma mb y) (some bs) k ma mb x y ps).2.foldl (fun a t => a.enqueue t.1 t.2) (partsOf s c (.mmasc g ty bs k x ma mb y) (some bs) k ma mb x y ps).1).markGroup c g .passed))

/-- accwin and acczero: the window of each team in its workgroup's block, and rows of +0 (15 R292, R294). The fields of an empty window are the model's
choice (log entry 98). -/
def Obligations.AccumulatorRows : Prop :=
  ∀ (s : State) (c : Cur) (g : Guard) (a b : Src), (uniformOp g [(a, 32), (b, 32)]).Ready s c → soundLanes s c g →
    ((∀ T ∈ s.teams, ∀ th ∈ T.executing c.entry g,
        rd s 32 T th b ≤ accLimit (s.wg T.launch T.wg).accblk - accBase (s.wg T.launch T.wg).accblk) →
      exec (.accwin g a b) s = .next (eachTeam c g (fun x T th => x.updTeam T.launch T.wg T.idx (fun U => { U with accwin := windowOf s T th a b }))
        s (actingTeams s c g)))
    ∧ ∀ t, (∀ T ∈ s.teams, ∀ th ∈ T.executing c.entry g, rd s 32 T th b ≤ 4096
          ∧ ∀ r ∈ zeroRows s T th a b, accBase T.accwin ≤ r ∧ r < accLimit T.accwin) →
        runTeams c g false (zeroed s a b) s (actingTeams s c g) = some t → exec (.acczero g a b) s = .next t

end

namespace Sys2Proof.Claims
open Sys2Proof Sys2Proof.Machine

/-! ## Operations of the module -/

/-- What bring-up or a reset leaves, with every link trained or one that does not train (24 R426 to R428): nothing that programs could have put
there, the ticks aligned, no region initialised, no core started; without a link no region will be. -/
def broughtUp (s t : State) : Prop :=
  t.tick = 0 ∧ t.stopTick = 0 ∧ t.gated = false ∧ t.mem = [] ∧ t.cores = [] ∧ t.dies = List.replicate 8 {} ∧ t.spaces = [] ∧ t.tlb = [] ∧ t.upper = []
  ∧ t.launches = [] ∧ t.wgs = [] ∧ t.teams = [] ∧ t.queues = [] ∧ t.sqs = [] ∧ t.cur = none
  ∧ (∀ n, n < 48 → s.bring.badLink ≠ some n → (t.link n).state = .up) ∧ (∀ n, s.bring.badLink = some n → (t.link n).state = .untrained)
  ∧ t.bring.powered = true ∧ t.bring.step = (if s.bring.badLink.isSome then 2 else 4) ∧ t.bring.host = true ∧ t.bring.fabric = true
  ∧ t.bring.stoland = s.bring.badLink.isNone
  ∧ t.bring.regions = 0 ∧ t.bring.compute = 0 ∧ t.bring.gondola = 0 ∧ t.bring.svc = 0
  ∧ t.bring.dimm = s.bring.dimm ∧ t.bring.badDimm = s.bring.badDimm ∧ t.bring.badLink = s.bring.badLink ∧ t.agenda = s.agenda

/-- Every other link is as it was. -/
def otherLinks (s t : State) (n : Nat) : Prop := ∀ m, m ≠ n → t.link m = s.link m

/-- Every byte outside a range reads as before. -/
def outside (s t : State) (a n : Nat) : Prop := ∀ k, ¬(a ≤ k ∧ k < a + n) → t.homeByte k = s.homeByte k

/-- A view as the model keeps it: its maps rise, and it holds clean copies of whole sectors. -/
def viewGood (v : View) : Prop :=
  ByteMap.risingFrom 0 v.dirty = true ∧ ByteMap.risingFrom 0 v.clean = true ∧ ByteMap.risingFrom 0 v.uncached = true
  ∧ ∀ a, (ByteMap.get? v.clean a).isSome = (ByteMap.get? v.clean (a / 64 * 64)).isSome

/-- A request of another endpoint for n bytes that can be performed now: the bytes are this module's, their home can be reached and no
engine owns them (01 R20; 24 R429). -/
def remoteNow (s : State) (pa n : Nat) (wr : Bool) : Prop :=
  pa < 2 ^ 52 ∧ s.remoteOk pa n = true ∧ s.reach pa = .yes ∧ s.engineHolds pa n wr = false

/-- The capability registers (24 R430): sysr reads them, and nothing changes; a write is ignored. -/
def capabilities (s : State) (c : Nat) : Prop :=
  s.sysRead c 0 = (s, 0x90001) ∧ s.sysRead c 1 = (s, 0x802008) ∧ s.sysRead c 2 = (s, BitVec.ofNat 64 s.dramTop) ∧ s.sysRead c 3 = (s, 0x1030)
  ∧ s.sysRead c 4 = (s, 1000)
  ∧ (∀ d, d < 64 → (s.sysRead c 5).2.getLsbD d = (decide (d < 8) && ((s.die d).meshMap.take 32).any (fun e => !e.getLsbD 7)))
  ∧ (s.sysRead c 5).1 = s ∧ (∀ n, 6 ≤ n → n < 16 → s.sysRead c n = (s, 0)) ∧ ∀ n v, n < 16 → s.sysWrite c n v = s

/-- MESH_MAP and PEER_MAP of the die of a core (20 R387; 02 R36): MESH_MAP is read-only; of a PEER_MAP entry only the fields are kept. -/
def dieRegisters (s : State) (c : Nat) : Prop :=
  (∀ k, k < 34 → s.sysRead c (0x100 + k) = (s, ((s.die (dieOf c)).meshMap.getD k 0).zeroExtend 64) ∧ ∀ v, s.sysWrite c (0x100 + k) v = s)
  ∧ ∀ k, k < 192 → s.sysRead c (0x200 + k) = (s, (s.die (dieOf c)).peerMap.getD k 0)
      ∧ ∀ v : BitVec 64, dieOf c < s.dies.length → k < (s.die (dieOf c)).peerMap.length →
        (s.sysWrite c (0x200 + k) v).die (dieOf c) = { s.die (dieOf c) with peerMap := (s.die (dieOf c)).peerMap.set k (v &&& 0x800ffc00000003ff#64) }
        ∧ (∀ d, d ≠ dieOf c → (s.sysWrite c (0x200 + k) v).die d = s.die d) ∧ (s.sysWrite c (0x200 + k) v).cores = s.cores
        ∧ ((s.sysWrite c (0x200 + k) v).sysRead c (0x200 + k)).2 = v &&& 0x800ffc00000003ff#64

/-- GBP, the watchpoint registers and MSIGNAL of a core (20 R387, R388; 23 R416, R417): a 32-bit register reads zero-extended; a bit of MSIGNAL is
cleared by writing 1 to it. No other core, and no die, changes. -/
def coreRegisters (s : State) (c : Nat) : Prop :=
  (∀ k, k < 8 → s.sysRead c (0x500 + k) = (s, (s.core c).gbp.getD k 0)
      ∧ ∀ v, s.sysWrite c (0x500 + k) v = s.setCore { s.core c with gbp := (s.core c).gbp.set k (v &&& 0xc00003ffffffffff#64) })
  ∧ (∀ k, k < 4 → s.sysRead c (0x510 + k) = (s, (s.core c).wpBase.getD k 0) ∧ s.sysRead c (0x514 + k) = (s, (s.core c).wpMask.getD k 0)
      ∧ s.sysRead c (0x518 + k) = (s, ((s.core c).wpCtl.getD k 0).zeroExtend 64)
      ∧ ∀ v : BitVec 64, s.sysWrite c (0x510 + k) v = s.setCore { s.core c with wpBase := (s.core c).wpBase.set k v }
        ∧ s.sysWrite c (0x514 + k) v = s.setCore { s.core c with wpMask := (s.core c).wpMask.set k v }
        ∧ s.sysWrite c (0x518 + k) v = s.setCore { s.core c with wpCtl := (s.core c).wpCtl.set k (v.truncate 32 &&& 0xffc003ff#32) })
  ∧ s.sysRead c 0x400 = (s, (s.core c).msignal.zeroExtend 64)
  ∧ (∀ v : BitVec 64, ((s.sysWrite c 0x400 v).core c).msignal = (s.core c).msignal &&& ~~~(v.truncate 32))
  ∧ ∀ n v, 0x400 ≤ n → n < 0x51c → (s.sysWrite c n v).dies = s.dies ∧ ∀ d, d ≠ c → (s.sysWrite c n v).core d = s.core d

end Sys2Proof.Claims
section
open Sys2Proof Sys2Proof.Machine Sys2Proof.Claims

/-- Power-on, a module reset and a thermal shutdown leave the module as 24 R426 to R428 say, with a cause where a link does not train, where
the DIMMs do not match, or of the shutdown (24 R434; 01 R12, R28). That at most one link fails to train and the bring-up then ends at step 2, and the
records' first values of the dies and cores, are the model's choice (log entries 53, 9 and 21). -/
def Obligations.BringUpAndReset : Prop :=
  (∀ (i : Instr) (s : State), i = .powerGood ∨ i = .moduleReset →
    ∃ t, exec i s = .next t ∧ broughtUp s t
      ∧ t.bring.cause = (if s.bring.badLink.isSome then 2 else if s.bring.badDimm.isSome then 1 else 0)
      ∧ (∀ n, s.bring.badLink = some n → t.bring.named = n))
  ∧ (∀ (d : Nat) (s : State), s.bring.badDimm = none → s.bring.badLink = none →
    ∃ t, exec (.thermalShutdown d) s = .next t ∧ broughtUp s t ∧ t.bring.cause = 3 ∧ t.bring.named = d)

/-- Memory initialisation zeroes the next region, with good seals, and touches no other (24 R427). Once all regions are ready, loading firmware starts the
Gondola core of one die, and a load that fails is reported; before, nothing happens (R426; 01 R28). The user cores of a die and its service
blocks start after its Gondola; when they do, and where the ring of the service queue lies, is the model's choice (log entry 142). -/
def Obligations.MemoryAndFirmware : Prop :=
  (∀ s : State, s.bring.stoland = true → s.bring.badDimm = none → s.bring.dimm ≤ 256 → s.bring.regions < s.allRegions →
      Memory.wf s.mem = true →
    ∃ t, exec .memoryRegionInit s = .next t ∧ t.bring.regions = s.bring.regions + 1 ∧ Memory.wf t.mem = true
      ∧ (∀ a, a / 2 ^ 40 = s.bring.regions → t.homeByte a = 0 ∧ t.sealBad a = false)
      ∧ (∀ a, a / 2 ^ 40 ≠ s.bring.regions → t.homeByte a = s.homeByte a ∧ t.sealBad a = s.sealBad a))
  ∧ (∀ (d : Nat) (ok : Bool) (s : State), s.bring.stoland = false ∨ s.bring.regions < s.allRegions → exec (.firmwareLoad ⟨d, ok⟩) s = .next s)
  ∧ (∀ (d : Nat) (s : State), s.bring.host = true → d < 8 → s.bring.stoland = true → s.allRegions ≤ s.bring.regions →
    (∃ t g, exec (.firmwareLoad ⟨d, true⟩) s = .next t ∧ t = { s with bring := { s.bring with gondola := g } }
      ∧ ∀ e, e < 8 → g.getLsbD e = (s.bring.gondola.getLsbD e || decide (e = d)))
    ∧ (s.bring.gondola.getLsbD d = false →
      exec (.firmwareLoad ⟨d, false⟩) s = .next { s with bring := { s.bring with cause := 4, named := d } }))
  ∧ (∀ (d : Nat) (s : State), d < 8 →
    (s.bring.gondola.getLsbD d = false → s.startCompute d = s ∧ s.startService d = s)
    ∧ (s.bring.gondola.getLsbD d = true →
      (∃ g, s.startCompute d = { s with bring := { s.bring with compute := g } }
        ∧ ∀ e, e < 8 → g.getLsbD e = (s.bring.compute.getLsbD e || decide (e = d)))
      ∧ (s.bring.svc.getLsbD d = false →
        (∀ e, e < 8 → (s.startService d).bring.svc.getLsbD e = (s.bring.svc.getLsbD e || decide (e = d)))
        ∧ ((s.startService d).workq d 63).state = .open ∧ ((s.startService d).workq d 63).ringlen = 1024
        ∧ (∀ e q, (e, q) ≠ (d, 63) → (s.startService d).workq e q = s.workq e q) ∧ (s.startService d).mem = s.mem)))

/-- DRAM lies over the links and their channels as 01 R13 says, and no two addresses share a place. A Stoland link counts its retries, retrains,
fails with a request for service, or is up again (01 R14); a fabric port fails, and with it the engine writes over the fabric that are in
progress (24 R431; 04 R78). Memory and every other link stay. -/
def Obligations.LinksAndPorts : Prop :=
  (∀ pa, pa < 2 ^ 51 → (dramPlace pa).link = pa / 2 ^ 12 % 48 ∧ (dramPlace pa).localPage = pa / 2 ^ 12 / 48 ∧ (dramPlace pa).channel = pa / 2 ^ 8 % 4
    ∧ (dramPlace pa).localAddr = (dramPlace pa).localPage * 4096 + pa % 2 ^ 12
    ∧ ∀ pb, pb < 2 ^ 51 → (dramPlace pb).link = (dramPlace pa).link → (dramPlace pb).localAddr = (dramPlace pa).localAddr → pb = pa)
  ∧ dramPlace 0x1234567890 = ⟨7, 0x61172, 0, 0x61172890⟩
  ∧ (∀ (n : Nat) (s : State), n < s.links.length →
    (∃ t, exec (.flitCrcRetry n) s = .next t ∧ t.mem = s.mem ∧ otherLinks s t n
      ∧ t.link n = { s.link n with errors := (s.link n).errors + 1 })
    ∧ ((s.link n).state = .up → ∃ t, exec (.linkRetrain n) s = .next t ∧ t.mem = s.mem ∧ otherLinks s t n
      ∧ (t.link n).state = .retraining ∧ (t.link n).since = s.tick.toNat)
    ∧ ((s.link n).state = .retraining → ∃ t, exec (.linkTrainedAgain n) s = .next t ∧ t.mem = s.mem ∧ otherLinks s t n ∧ (t.link n).state = .up)
    ∧ ((s.link n).state = .retraining → ∃ t, exec (.linkFailed n) s = .next t ∧ t.mem = s.mem ∧ otherLinks s t n ∧ (t.link n).state = .failed
      ∧ t.deviceHealth.getLsbD 63 = true ∧ t.msix = s.msix ++ [0] ∧ (∀ sec ∈ t.l2Dirty, linkOf (sec * 64) ≠ n)
      ∧ ∀ pa, pa < 2 ^ 51 → linkOf pa = n → t.reach pa = .failed n))
  ∧ (∀ (p : Nat) (s : State), p < 16 → s.ports.getD p false = true →
    ∃ t, exec (.fabricPortFailed p) s = .next t ∧ t.mem = s.mem ∧ t.ports.getD p false = false ∧ t.fabricCaps.getLsbD p = false
      ∧ (∀ q, q ≠ p → t.ports.getD q false = s.ports.getD q false ∧ t.fabricCaps.getLsbD q = s.fabricCaps.getLsbD q)
      ∧ (∀ i ∈ s.inflight, i.result = none → (∃ sec ∈ i.owned, 2 ^ 52 ≤ sec * 64) → ∃ k, { i with result := some (0x1e2, k) } ∈ t.inflight)
      ∧ ∀ i ∈ s.inflight, i.result ≠ none ∨ (∀ sec ∈ i.owned, sec * 64 < 2 ^ 52) → i ∈ t.inflight)

/-- What other endpoints ask of this module's memory (01 R20 to R25; 07 R150) and what becomes of its L2 sectors (01 R19; 03 R52). That a read with a
bad seal is answered with no bytes and a notice, and that a module's write with one bad seal stores nothing, is the model's choice (log
entries 56 and 92). -/
def Obligations.RemoteRequests : Prop :=
  (∀ (pa n : Nat) (c : Bool) (s : State), fabricSize pa n = true → remoteNow s pa n false → s.sealBadRange pa n = false →
    exec (.fabricRemoteRead pa n c) s = .next { s with answer := (List.range n).map (fun k => s.homeByte (pa + k)) })
  ∧ (∀ (pa n : Nat) (c : Bool) (s : State), fabricSize pa n = true → remoteNow s pa n false → s.sealBadRange pa n = true →
    ∃ t, exec (.fabricRemoteRead pa n c) s = .next t ∧ t.answer = [] ∧ t = { s with answer := [], notices := t.notices })
  ∧ (∀ (pa : Nat) (bs : List (BitVec 8)) (c : Bool) (s : State), fabricSize pa bs.length = true → remoteNow s pa bs.length true →
    ∃ t, exec (.fabricRemoteWrite pa bs ⟨c, .g9 false⟩) s = .next t ∧ t = { s with notices := t.notices })
  ∧ (∀ (pa : Nat) (bs : List (BitVec 8)) (c : Bool) (x : Sender) (s : State), fabricSize pa bs.length = true → remoteNow s pa bs.length true →
      Memory.wf s.mem = true → x ≠ .g9 false →
    ∃ t, exec (.fabricRemoteWrite pa bs ⟨c, x⟩) s = .next t ∧ Memory.wf t.mem = true ∧ outside s t pa bs.length
      ∧ (∀ k, k < bs.length → t.homeByte (pa + k) = bs.getD k 0) ∧ ∀ k, k < bs.length → t.sealBad (pa + k) = false)
  ∧ (∀ (op : RemoteOp) (pa n : Nat) (x y : BitVec 64) (c : Ord) (s : State), n = 4 ∨ n = 8 → pa % n = 0 → remoteNow s pa n true →
      s.sealBadRange pa n = false → Memory.wf s.mem = true →
    ∃ t, exec (.fabricRemoteAtomic op pa n x y c) s = .next t ∧ Memory.wf t.mem = true ∧ outside s t pa n
      ∧ t.answer = (List.range n).map (fun k => s.homeByte (pa + k))
      ∧ t.homeNat pa n = RemoteOp.newValue op n (s.homeNat pa n) x.toNat y.toNat % 2 ^ (8 * n))
  ∧ (∀ (l : Nat) (down : Bool) (s : State), s.owned (l * 128) 128 = false →
    (s.sealBadRange (l * 128) 128 = false → exec (.directoryRecall ⟨l, down⟩) s = .next { s with
      answer := (List.range 128).map (fun k => s.homeByte (l * 128 + k)), shared := if down then s.shared else s.shared.filter (· != l)
      l2Valid := if down || !s.shared.contains l then s.l2Valid else s.l2Valid.filter (fun x => x.1 / 2 != l)
      l2Dirty := if s.shared.contains l then s.l2Dirty.filter (fun sec => sec / 2 != l) else s.l2Dirty })
    ∧ (s.sealBadRange (l * 128) 128 = true → ∃ t, exec (.directoryRecall ⟨l, down⟩) s = .next t ∧ t.answer = []
        ∧ t = { s with answer := [], notices := t.notices }))
  ∧ (∀ s : State, s.fabricCaps.getLsbD 31 = true →
    (∃ t, exec .directoryUnreachable s = .next t ∧ t.dirLost = true ∧ t.shared = [] ∧ t.mem = s.mem ∧ t.remote = s.remote
      ∧ (∀ sec ∈ t.l2Dirty, sec / 2 ∉ s.shared) ∧ (∀ x ∈ t.l2Valid, x.1 / 2 ∉ s.shared)
      ∧ ((∀ v ∈ s.views, viewGood v) → ∀ v ∈ t.views, ∀ l ∈ s.shared, ∀ k, k < 128 → ByteMap.get? v.clean (l * 128 + k) = none))
    ∧ s.meet .directoryBack = { s with dirLost := false })
  ∧ (∀ s : State, s.fabricCaps.getLsbD 31 = false → exec .directoryUnreachable s = .next s)
  ∧ (∀ (sec : Nat) (s : State), sec ∈ s.l2Dirty → s.reach (sec * 64) = .yes →
    (s.sealBad (sec * 64) = false → exec (.l2Writeback sec) s = .next { s with l2Dirty := s.l2Dirty.filter (· != sec) })
    ∧ (s.badSeals.contains sec = true → s.pinned.contains sec = false → s.poison.contains sec = false → s.pinned.length < 16 →
        ∃ t, exec (.l2Writeback sec) s = .next t ∧ t.pinned = sec :: s.pinned ∧ t.mem = s.mem ∧ t.l2Dirty = s.l2Dirty.filter (· != sec)
          ∧ t.notices = s.notices ++ [(0x090, sec * 64)]))

/-- The BARs of PCIe (01 R27, R28): before the host function is ready nothing answers; BAR2 holds the mailboxes and the firmware staging
area; a doorbell submits a request. -/
def Obligations.PcieRequests : Prop :=
  (∀ (r : PcieReq) (s : State), s.bring.host = false → exec (.pcieBarRequest r) s = .next { s with answer := [] })
  ∧ (∀ (off n : Nat) (s : State), s.bring.host = true → off + n ≤ 2 ^ 25 →
      ∃ t, exec (.pcieBarRequest (.read 0 off n)) s = .next t ∧ t.answer.length = n ∧ t.mem = s.mem)
  ∧ (∀ (off n : Nat) (s : State), s.bring.host = true → 0x1000000 ≤ off → off + n ≤ 2 ^ 28 →
      exec (.pcieBarRequest (.read 2 off n)) s = .next { s with answer := (List.range n).map (fun k => (ByteMap.get? s.staging (off + k)).getD 0) })
  ∧ (∀ (off : Nat) (b : BitVec 8) (s : State), s.bring.host = true → 0x1000000 ≤ off → off < 2 ^ 28 →
      exec (.pcieBarRequest (.write 2 off [b])) s = .next { s with answer := [], staging := ByteMap.put s.staging off b })
  ∧ (∀ (m : Nat) (s : State), s.bring.host = true → m < 16 → s.mailboxes.length = 16 →
      ((s.mailbox m).busy = false → (s.mailbox m).done = false →
        ∃ t, exec (.pcieBarRequest (.write 2 (m * 4096 + 0x200) [1])) s = .next t ∧ (t.mailbox m).busy = true
          ∧ (t.mailbox m).req = (s.mailbox m).req ∧ ∀ k, k ≠ m → t.mailbox k = s.mailbox k)
      ∧ ∃ t, exec (.pcieBarRequest (.write 2 (m * 4096 + 0x208) [2])) s = .next t ∧ (t.mailbox m).done = false)

/-- Registers that are written and read from outside the cores: STOP_TICK (23 R414), system and MMIO registers by number (02 R34, R35, R36;
20 R387; 24 R430), tile entries (03 R64), debug windows (02 R35), L2_CFG (03 R54, R55), the post FIFO and MSIGNAL (20 R388), and a die's
throttle (24 R434). That a write of L2_CFG with GO = 0 stores MODE and PSIZE, and that a change ends at once, is the model's choice (log
entries 117 and 34). -/
def Obligations.RegistersFromOutside : Prop :=
  (∀ (v : BitVec 64) (s : State), exec (.stopTickWrite v) s = .next { s with stopTick := if s.tick.toNat < v.toNat then v else 0 })
  ∧ (∀ s : State, s.stopTick ≠ 0 → s.tick = s.stopTick → exec .stopTickMatch s = .next { s with gated := true })
  ∧ (∀ (c n : Nat) (v : BitVec 64) (r : RegRef) (s : State), r.number = 0x500 + n → n < 8 →
      ∃ t, exec (.registerWrite c r v) s = .next t ∧ (t.core c).gbp = (s.core c).gbp.set n (v &&& 0xc00003ffffffffff#64) ∧ t.mem = s.mem
        ∧ ∀ k, k ≠ c → t.core k = s.core k)
  ∧ (∀ (pa : Nat) (v : BitVec 64) (s : State), placeClass pa = 9 → s.layoutBad 0 pa = none → pa % 8 = 0 →
      (tileV ((s.core (coreOfPa pa)).tiles.getD (pa / 16 % 128) 0) = true →
        tileState ((s.core (coreOfPa pa)).tiles.getD (pa / 16 % 128) 0) = 1 ∨ tileState ((s.core (coreOfPa pa)).tiles.getD (pa / 16 % 128) 0) = 3 →
        exec (.tileEntryWrite pa v) s = .next s)
      ∧ (tileV ((s.core (coreOfPa pa)).tiles.getD (pa / 16 % 128) 0) = false → pa / 8 % 2 = 1 →
        ∃ t, exec (.tileEntryWrite pa v) s = .next t ∧ (t.core (coreOfPa pa)).tiles = (s.core (coreOfPa pa)).tiles.set (pa / 16 % 128)
          (BitVec.ofNat 128 (v.toNat * 2 ^ 64 + ((s.core (coreOfPa pa)).tiles.getD (pa / 16 % 128) 0).toNat % 2 ^ 64))))
  ∧ (∀ (pa : Nat) (v : BitVec 32) (s : State), placeClass pa = 0xa → s.layoutBad 0 pa = none → pa % 4 = 0 → pa / 2 ^ 20 % 2 = 0 →
      s.windowReady (coreOfPa pa) (pa % 2 ^ 21) = true →
      (exec (.debugWindowAccess pa none) s = .next { s with answer := leBytes 4 ((s.core (coreOfPa pa)).accWord (pa % 2 ^ 21 / 4)).toNat })
      ∧ ∃ t, exec (.debugWindowAccess pa (some v)) s = .next t ∧ (t.core (coreOfPa pa)).accWord (pa % 2 ^ 21 / 4) = v)
  ∧ (∀ (v : BitVec 32) (s : State), v.getLsbD 30 = false →
      (v.getLsbD 0 = false → exec (.l2ModeChange v) s = .next { s with l2cfg := s.l2cfg &&& 0x40000000#32 ||| v &&& 0xe#32 })
      ∧ (v.getLsbD 0 = true → (v.getLsbD 1 = true → v.toNat / 4 % 4 ≠ 3) →
        (∀ W ∈ s.wgs, (s.launch W.launch).priv = false → W.state ≠ .placed ∧ W.state ≠ .running ∧ W.state ≠ .evicting) → s.engineBusy = false →
        s.pinned = [] → (∀ sec ∈ s.l2Dirty, s.sealBad (sec * 64) = false) →
        ∃ t, exec (.l2ModeChange v) s = .next t ∧ t.l2Dirty = [] ∧ t.l2Valid = [] ∧ t.shared = [] ∧ (∀ w ∈ t.views, w.clean = []) ∧ t.mem = s.mem
          ∧ t.l2cfg = s.l2cfg &&& 0x40000000#32 ||| v &&& 0xe#32)
      ∧ (v.getLsbD 0 = true → (∃ W ∈ s.wgs, W.state = .running ∧ (s.launch W.launch).priv = false) → exec (.l2ModeChange v) s = .next { s with l2cfg := s.l2cfg ||| 0x40000000#32 }))
  ∧ (∀ (c : Nat) (a : BitVec 64) (v : BitVec 32) (rest : List (BitVec 64 × BitVec 32)) (s : State), (s.core c).mpost = (a, v) :: rest →
      ∃ t, exec (.mpostpopRead c) s = .next t ∧ (t.core c).mpost = rest ∧ (t.core c).mpostval = v ∧ t.answer = leBytes 8 (a ||| 1).toNat)
  ∧ (∀ (c : Nat) (s : State), (s.core c).mpost = [] → exec (.mpostpopRead c) s = .next { s with answer := leBytes 8 0 })
  ∧ (∀ (d : Nat) (x : Throttle) (s : State), d < s.dies.length → (s.die d).traceSize = 0 →
      exec (.throttleChange d x) s = .next (s.setDie d { s.die d with clock := x.clock, voltage := x.voltage, issueLimit := x.limit }))
  ∧ (∀ (c : Nat) (s : State), capabilities s c ∧ dieRegisters s c ∧ coreRegisters s c
      ∧ ∀ n, 2 ^ 16 ≤ n → s.sysRead c n = (s, 0) ∧ ∀ v, s.sysWrite c n v = s)

end

namespace Sys2Proof.Claims
open Sys2Proof Sys2Proof.Machine

/-! ## Mailboxes and submission queues -/

/-- Mailbox m holds a request for an operation on a die, with these words and no other (01 R28). -/
def asks (s : State) (m op die : Nat) (ws : List Nat) : Prop :=
  m < s.mailboxes.length ∧ (s.mailbox m).busy = true ∧ op < 256 ∧ die < 8 ∧ (s.mailbox m).word 0 % 2 ^ 32 = op + 256 * die
  ∧ ∀ n, n < 31 → (s.mailbox m).word (n + 1) = ws.getD n 0

/-- Word n of a response. -/
def rspWord (k : Mailbox) (n : Nat) : Nat := leNat ((List.range 8).map (fun i => (ByteMap.get? k.rsp (8 * n + i)).getD 0))

/-- The mailbox answers: RESULT and the words of RSP, DONE, and its interrupt; nothing else of it changes (01 R28). -/
def answered (s t : State) (m result : Nat) (ws : List Nat) : Prop :=
  (t.mailbox m).done = true ∧ (t.mailbox m).busy = false ∧ (t.mailbox m).result = result ∧ (t.mailbox m).req = (s.mailbox m).req
  ∧ rspWord (t.mailbox m) 0 = (s.mailbox m).word 0 / 2 ^ 32 * 2 ^ 32 + result
  ∧ (∀ n, n < ws.length → rspWord (t.mailbox m) (n + 1) = ws.getD n 0 % 2 ^ 64)
  ∧ t.msix = s.msix ++ [1 + m] ∧ ∀ k, k ≠ m → t.mailbox k = s.mailbox k

/-- The Gondola cores that a request for a die needs have started (01 R28). -/
def gondola (s : State) (d : Nat) : Prop := s.bring.gondola.getLsbD d = true ∧ s.bring.gondola.getLsbD 0 = true

/-- A front end reaches n bytes of a page now: the translation, and nothing in the way (18 R345). -/
def frontNow (s s1 : State) (die asid : Nat) (va : BitVec 64) (n : Nat) (wr : Bool) (loc : Nat) : Prop :=
  (∃ pa sh, s.translate (frontAgent die asid) va (if wr then .wr else .rd) = (s1, .ok loc pa sh) ∧ s1.reachAs loc sh = .yes)
  ∧ s1.engineHolds loc n wr = false ∧ s1.sealBadRange loc n = false

/-- The packet b of a KIND is next on a queue, and its front end serves it (18 R341 to R343). -/
def packetNow (s : State) (q : SubQueue) (b kind : Nat) : Prop :=
  s.sq? q.id = some q ∧ s.nextPacket q = .ready b ∧ pktKind b = kind ∧ s.served q.die = some q.id

/-- The packet at the queue's next position has been taken and has completed with a cause (18 R342). -/
def packetEnds (t : State) (q : SubQueue) (cause : Nat) : Prop :=
  ∃ q', t.sq? q.id = some q' ∧ q'.taken = q.taken + 1 ∧ (q.taken, cause) ∈ q'.causes

/-- The record of a LAUNCH packet at an address is n: it is read now, or has been read before (18 R344). -/
def recordNow (s s1 : State) (q : SubQueue) (va : BitVec 64) (n : Nat) : Prop :=
  (∃ r, q.record = some r ∧ s1 = s ∧ n = r.toNat)
  ∨ (q.record = none ∧ ∃ s0 bs, s.frontRuns q.die q.asid va 4 [] = .ok s0 bs ∧ n = leNat bs
      ∧ s1 = s0.setSq { q with record := some (BitVec.ofNat 2048 n) })

/-- The coverage block of a record with KIND 3, which lies in a DRAM class; no other record has one (19 R357). -/
def blockNow (s s1 : State) (q : SubQueue) (R : LaunchRec) (block : Option Nat) : Prop :=
  (R.kind ≠ 3 ∧ s1 = s ∧ block = none)
  ∨ (R.kind = 3 ∧ R.auxptr.toNat % 64 = 0 ∧ (∀ x loc pa sh, s.translate (frontAgent q.die q.asid) R.auxptr .rd = (x, .ok loc pa sh) → placeClass pa < 8)
      ∧ ∃ bs, s.frontRead q.die q.asid R.auxptr 64 = .ok s1 bs ∧ block = some (leNat bs))

end Sys2Proof.Claims
section
open Sys2Proof Sys2Proof.Machine Sys2Proof.Claims

/-- The requests of the management mailboxes about address spaces, registers, status and the budget, and those that are turned away (01 R28;
02 R42). That STATUS is answered with RESULT 0 whatever is ready is the model's choice (log entry 68). -/
def Obligations.MailboxRequests : Prop :=
  (∀ (m die root : Nat) (s : State), asks s m 1 die [root] → gondola s 0 → root % 4096 = 0 → root < 2 ^ 48 → root < s.dramTop → placeClass root < 8 →
    ((∃ b, b < 1024 ∧ s.asidLive b = false) →
      ∃ t a, exec (.createAs m) s = .next t ∧ a < 1024 ∧ s.asidLive a = false ∧ answered s t m 0 [a] ∧ t.spaces = { asid := a, root := root } :: s.spaces
        ∧ t.mem = s.mem)
    ∧ ((∀ b, b < 1024 → s.asidLive b = true) → ∃ t, exec (.createAs m) s = .next t ∧ answered s t m 3 [] ∧ t.spaces = s.spaces))
  ∧ (∀ (m die a : Nat) (s : State), asks s m 2 die [a] → gondola s 0 → a < 1024 → s.asidLive a = true →
    (s.asidUsed a = false → ∃ t, exec (.destroyAs m) s = .next t ∧ answered s t m 0 [] ∧ t.mem = s.mem
        ∧ t.spaces = s.spaces.filter (·.asid != a) ∧ t.tlb = s.tlb.filter (·.asid != a) ∧ t.upper = s.upper.filter (·.asid != a))
    ∧ (s.asidUsed a = true → ∃ t, exec (.destroyAs m) s = .next t ∧ answered s t m 5 [] ∧ t.spaces = s.spaces))
  ∧ (∀ (m die pa v n : Nat) (s : State), asks s m 6 die [pa, v, n] → gondola s 0 → s.mmioBad pa n = false →
    ∃ t, exec (.mmioWrite m) s = .next t ∧ answered (s.placeStore pa n v) t m 0 [] ∧ t.mem = (s.placeStore pa n v).mem
      ∧ t.dies = (s.placeStore pa n v).dies ∧ t.cores = (s.placeStore pa n v).cores ∧ t.l2cfg = (s.placeStore pa n v).l2cfg)
  ∧ (∀ (m die pa n : Nat) (s : State), asks s m 7 die [pa, n] → gondola s 0 → s.mmioBad pa n = false →
    ∃ t, exec (.mmioRead m) s = .next t ∧ answered s t m 0 [s.placeLoad pa n] ∧ t.mem = s.mem)
  ∧ (∀ (m die : Nat) (s : State), asks s m 8 die [] →
    ∃ t, exec (.status m) s = .next t ∧ answered s t m 0 [s.bringWord, s.funcReady.toNat, s.deviceHealth.toNat] ∧ t.mem = s.mem)
  ∧ (∀ (m die v : Nat) (s : State), asks s m 9 die [v] → v < 2 ^ 64 →
    (gondola s 0 → 1 ≤ v → v ≤ 7000 → ∃ t, exec (.setBudget m) s = .next t ∧ answered s t m 0 [] ∧ t.budget = v)
    ∧ (v = 0 ∨ 7000 < v → ∃ t, exec (.setBudget m) s = .next t ∧ answered s t m 2 [] ∧ t.budget = s.budget)
    ∧ (s.bring.gondola.getLsbD 0 = false → 1 ≤ v → v ≤ 7000 → ∃ t, exec (.setBudget m) s = .next t ∧ answered s t m 4 [] ∧ t.budget = s.budget))
  ∧ (∀ (m op die : Nat) (ws : List Nat) (s : State), asks s m op die ws → op = 0 ∨ 9 < op →
    ∃ t, exec (.mailboxUnknownOp m) s = .next t ∧ answered s t m 1 [] ∧ t.mem = s.mem)

/-- Queues come and go by requests of the mailboxes, and doorbells move their tails (01 R28; 18 R339, R351; 04 R76). That a registration
writes SQID and a SEQ of 0 into the descriptor, and which free number it takes, is the model's choice (log entries 71 and 70). -/
def Obligations.QueueRequests : Prop :=
  (∀ (m die asid va policy ctx len loc : Nat) (s s1 : State), asks s m 3 die [asid, va, policy, ctx, len] → gondola s die →
      asid < 1024 → s.asidLive asid = true → va < 2 ^ 64 → policy < 2 ^ 64 → va % 64 = 0 → ctx % 2 ^ 23 = 0 → len ≠ 0 → len % 2 ^ 23 = 0 → ctx + len ≤ 2 ^ 64 → len < 2 ^ 64 →
      (∀ q ∈ s.sqs, q.asid = asid → rangesMeet q.ctxBase.toNat q.ctxLen.toNat ctx len = false) →
      (∃ k, k < 1024 ∧ ∀ q ∈ s.sqs, q.id ≠ k) →
      frontNow { s with freeCount := s.freeCount + 1 } s1 die asid (BitVec.ofNat 64 va) 64 true loc → loc < 2 ^ 51 → sqDescBad (s1.homeNat loc 64) = false → Memory.wf s1.mem = true →
    ∃ (t : State) (bell : BitVec 64) (q : SubQueue), exec (.registerSq m) s = .next t ∧ answered s t m 0 [q.id, bell.toNat] ∧ t.sqs = s.sqs ++ [q]
      ∧ q.id < 1024 ∧ (∀ x ∈ s.sqs, x.id ≠ q.id) ∧ q.asid = asid ∧ q.die = die ∧ q.desc.toNat = va ∧ q.policy.toNat = policy ∧ q.ctxBase.toNat = ctx ∧ q.ctxLen.toNat = len
      ∧ q.ringbase.toNat = bitsAt (s1.homeNat loc 64) 63 0 ∧ q.loglen = bitsAt (s1.homeNat loc 64) 68 64 ∧ q.prio = bitsAt (s1.homeNat loc 64) 70 69
      ∧ q.taken = 0 ∧ q.seq = 0 ∧ t.homeNat (loc + 12) 4 % 1024 = q.id ∧ t.homeNat (loc + 16) 8 = 0)
  ∧ (∀ (m die id : Nat) (s : State), asks s m 4 die [id] → gondola s 0 → id < 1024 → (∃ q ∈ s.sqs, q.id = id) →
    ((∀ q ∈ s.sqs, q.id = id → ∀ p ∈ q.packets, p.started = true → p.result ≠ none) →
      ∃ t, exec (.unregisterSq m) s = .next t ∧ answered s t m 0 [] ∧ t.sqs = s.sqs.filter (·.id != id))
    ∧ ((∃ q ∈ s.sqs, q.id = id ∧ ∃ p ∈ q.packets, p.started = true ∧ p.result = none) →
      ∃ t, exec (.unregisterSq m) s = .next t ∧ answered s t m 5 [] ∧ t.sqs = s.sqs))
  ∧ (∀ (m die q base k asid : Nat) (s : State), asks s m 5 die [q, base, 64 * 2 ^ k, asid] → gondola s die → q < 63 → base < 2 ^ 64 → k < 11 → asid < 1024 →
      s.asidLive asid = true → (∀ l, l ∈ (s.workq die q).producers ++ (s.workq die q).consumers → (s.launch? l).any (fun L => !L.done) = false) →
    ∃ t, exec (.configWq m) s = .next t ∧ answered s t m 0 [] ∧ t.mem = s.mem
      ∧ t.workq die q = { die := die, q := q, state := .open, ringbase := BitVec.ofNat 64 base, ringlen := 64 * 2 ^ k, asid := asid })
  ∧ (∀ (m die base len asid : Nat) (s : State), asks s m 5 die [63, base, len, asid] → base < 2 ^ 64 → len < 2 ^ 64 → asid < 1024 → s.asidLive asid = true →
    ((s.bring.gondola.getLsbD die && s.bring.gondola.getLsbD 0) = false → ∃ t, exec (.configWq m) s = .next t ∧ answered s t m 4 [] ∧ t.queues = s.queues)
    ∧ (gondola s die → ∃ t, exec (.configWq m) s = .next t ∧ answered s t m 2 [] ∧ t.queues = s.queues))
  ∧ (∀ (v : BitVec 32) (q : SubQueue) (s : State), s.sq? q.id = some q →
    (q.taken ≠ 0 ∨ q.tail ≠ 0 → exec (.sqDoorbell q.id v) s = .next (s.setSq { q with tail := if newer v q.tail then v else q.tail }))
    ∧ ∃ t q', exec (.sqDoorbell q.id v) s = .next t ∧ t.sq? q.id = some q' ∧ q'.tail = (if newer v q.tail then v else q.tail) ∧ q'.taken = q.taken)

/-- The packets of submission queues (18 R340 to R343, R345, R351, R352): each is taken in turn; a NOP completes; CLOSE and FEED act on
a work queue; LAUNCH adds a launch, or completes with the cause that a check gives. 0x04A for CLOSE of a queue that is not configured, and the
append of all records of a FEED in one operation, are the model's choice (log entry 73). -/
def Obligations.Packets : Prop :=
  ∀ (q : SubQueue) (b : Nat) (s : State),
    (packetNow s q b 3 → ∃ t, exec (.nopPacket q.id q.taken) s = .next t ∧ packetEnds t q 0)
    ∧ (packetNow s q b 2 →
      ((s.pktQueue b).usable = true → ∃ t, exec (.close q.id q.taken) s = .next t ∧ packetEnds t q 0
        ∧ (t.workq (bitsAt b 106 104) (bitsAt b 69 64)).state = (if (s.pktQueue b).state = .open then .closed else (s.pktQueue b).state))
      ∧ ((s.pktQueue b).usable = false → ∃ t, exec (.close q.id q.taken) s = .next t ∧ packetEnds t q 0x04a ∧ t.queues = s.queues))
    ∧ (packetNow s q b 1 → (s.pktQueue b).usable = true →
      (bitsAt b 159 128 ≠ 0 → bitsAt b 159 128 ≤ (s.pktQueue b).ringlen →
        ((s.pktQueue b).state = .closed ∨ (s.pktQueue b).state = .broken → ∃ t, exec (.feed q.id q.taken) s = .next t ∧ packetEnds t q 0x141 ∧ t.queues = s.queues)
        ∧ ∀ (s1 s2 : State) (bs : List Byte), (s.pktQueue b).state = .open → pktArg0 b % 64 = 0 →
            s.frontRuns q.die q.asid (BitVec.ofNat 64 (pktArg0 b)) (bitsAt b 159 128) [] = .ok s1 bs →
            s1.feedWrite (s.pktQueue b) (s.pktQueue b).reserve ((List.range (bitsAt b 159 128)).map (fun i => (bs.drop (64 * i)).take 64)) = .ok s2 [] →
            ∃ t, exec (.feed q.id q.taken) s = .next t ∧ packetEnds t q 0
              ∧ (t.workq (bitsAt b 170 168) (bitsAt b 165 160)).reserve = (s.pktQueue b).reserve + BitVec.ofNat 32 (bitsAt b 159 128))
      ∧ (bitsAt b 159 128 = 0 → ∃ t, exec (.feed q.id q.taken) s = .next t ∧ packetEnds t q 0 ∧ t.queues = s.queues))
    ∧ (packetNow s q b 0 →
      (pktArg0 b % 64 ≠ 0 → ∃ t, exec (.launch q.id q.taken) s = .next t ∧ packetEnds t q 0x04a ∧ t.launches = s.launches)
      ∧ ∀ (n : Nat) (block : Option Nat) (s1 s2 s3 s4 : State) (e bs : List Byte), pktArg0 b % 64 = 0 →
          recordNow s s1 q (BitVec.ofNat 64 (pktArg0 b)) n → blockNow s1 s2 q (launchRecOf n) block → (launchRecOf n).entrytab.toNat % 8 = 0 →
          s2.frontRead q.die q.asid (launchRecOf n).entrytab 8 = .ok s3 e →
          (s3.launchCheck q n block = none →
            s3.writeRanges q.die q.asid (BitVec.ofNat 64 (pktArg0 b) + 256) (if (launchRecOf n).kind = 2 then (launchRecOf n).ranges else []) = .ok s4 bs →
            ((launchRecOf n).kind = 3 → ∀ K ∈ s.launches, K.id ≠ s.nextLaunch) →
            ∃ t L, exec (.launch q.id q.taken) s = .next t ∧ t.launches = s.launches ++ [L]
            ∧ L.id = s.nextLaunch ∧ L.recd = launchRecOf n ∧ L.entry0 = BitVec.ofNat 64 (leNat e) ∧ L.asid = q.asid
            ∧ L.mask = (launchRecOf n).cores ∧ L.nextWg = 0 ∧ L.done = false ∧ L.ctrl = block.map controllerOf
            ∧ ∃ q', t.sq? q.id = some q' ∧ q'.taken = q.taken + 1)
          ∧ (s3.launchCheck q n block ≠ none → ∃ t, exec (.launch q.id q.taken) s = .next t ∧ packetEnds t q 0x04a ∧ t.launches = s.launches))

end

namespace Sys2Proof.Claims
open Sys2Proof Sys2Proof.Machine

/-! ## The dispatcher, turns and the policy -/

/-- The teams of a workgroup. -/
def teamsOf (s : State) (l w : Nat) : List Team := s.teams.filter (fun T => T.launch == l && T.wg == w)

/-- A new team as 05 R94 and R101 say: threads at the first clause, every register zero but s0 to s6. -/
def newTeam (L : Launch) (w home : Nat) (T : Team) : Prop :=
  T.width = L.recd.lanes ∧ T.threads.length = L.recd.lanes ∧ T.maps = List.replicate 16 0 ∧ T.blc = 0 ∧ T.accwin = 0
  ∧ T.s = loadS (L.sregs w T.idx home)
  ∧ ∀ th ∈ T.threads, th.clause = L.entry0 ∧ th.status = .running ∧ (∀ r ∈ th.v, r = 0) ∧ th.v.length = T.bsize ∧ th.w = List.replicate 8 0
      ∧ th.p = 0 ∧ th.mode = 0 ∧ th.gpc = 0 ∧ th.entry = none
      ∧ th.tid = BitVec.ofNat 32 ((w * L.recd.teams + T.idx) * L.recd.lanes + th.lane)

/-- An action of the policy or of a debugger on a thread that is not at a matrix fault, and on those that stand or fall with it (21 R395, R398,
R399; 13 R249). -/
def actsOn (s : State) (r : ThreadRef) (T : Team) (th : Thread) (q : Record) (act : Action) : Prop :=
  s.thread? r = some (T, th) ∧ th.record = some q ∧ s.awaitsAction T th q act = true ∧ q.matrix = false

/-- The state in which Gondola has been told of the record of a thread that waits for the policy: one of its privileged threads holds the record
(20 R391; 21 R395). A STOPPED thread's record has been delivered before. -/
def told (s : State) (T : Team) (th : Thread) (q : Record) : State :=
  if th.status = .parked then s.deliver (s.launch T.launch).die q else s

/-- The threads of a unit of a team have changed: the thread, or while the team is bound all its threads that have not exited. -/
def unitChanged (s t : State) (T : Team) (th : Thread) (f : Thread → Thread) : Prop :=
  t.teams = s.teams.map (fun U => if U.launch = T.launch ∧ U.wg = T.wg ∧ U.idx = T.idx then
    U.mapThreads (fun x => if (if T.bound then T.live else [th]).any (fun y => y.lane = x.lane) then f x else x) else U)

end Sys2Proof.Claims
section
open Sys2Proof Sys2Proof.Machine Sys2Proof.Claims

/-- The dispatcher places a workgroup where it finds room and gives it teams as 05 R94 and R101 say; a workgroup whose threads have exited
retires; a launch completes once its workgroups have (18 R342, R346, R347; 16 R311, R313). Placement waits while the descriptor of a queue that is
bound has to be waited for (04 R70, R80); it maps the context area of the workgroup (21 R401). -/
def Obligations.PlacementAndRetirement : Prop :=
  (∀ (l h : Nat) (ctx : BitVec 64) (L : Launch) (r : Room) (s : State), s.launch? l = some L → s.wantsPlace L = true → s.computes L = true →
      L.recd.phased = false → L.recd.kind < 2 → L.ctrl = none → s.ctxRoom L = some ctx → s.findHome L L.nextWg = some (h, r) →
      s.wg? l L.nextWg = none → teamsOf s l L.nextWg = [] →
      (L.recd.cq ≠ 0 ∨ L.recd.kq ≠ 0 → (s.placeAt L L.nextWg h ctx r).isSome = true) →
    ∃ t W, exec (.workgroupPlace l) s = .next t ∧ t.wg? l L.nextWg = some W ∧ W.state = .placed ∧ W.core = r.core ∧ W.home = h ∧ W.ctx = ctx ∧ W.ev = 0
      ∧ (∃ m ∈ t.ctxMaps, m.launch = l ∧ m.wg = L.nextWg ∧ m.asid = L.asid ∧ m.base = ctx.toNat)
      ∧ (t.launch l).nextWg = L.nextWg + 1 ∧ (teamsOf t l L.nextWg).length = L.recd.teams
      ∧ ∀ T ∈ teamsOf t l L.nextWg, T.core = r.core ∧ newTeam L L.nextWg h T)
  ∧ (∀ (W : Wg) (L : Launch) (s : State), s.wg? W.launch W.id = some W → s.launch? W.launch = some L → s.canRetire W = true →
    ∃ t, exec (.workgroupRetire ⟨W.launch, W.id⟩) s = .next t ∧ (t.wg W.launch W.id).state = .retired ∧ teamsOf t W.launch W.id = []
      ∧ W.id ∈ (t.launch W.launch).retired ∧ (1, W.id) ∈ (t.launch W.launch).nodes)
  ∧ (∀ (L : Launch) (s : State), s.launch? L.id = some L → L.done = false → L.doom = none → L.recd.wgcount ≤ L.retired.length →
    ((6, 0) ∉ L.nodes → ∃ t, exec (.launchComplete L.id) s = .next t ∧ (6, 0) ∈ (t.launch L.id).nodes
      ∧ (∀ v ∈ t.views, v.launch ≠ L.id))
    ∧ ((6, 0) ∈ L.nodes → L.words = [] → L.coverOut = [] → L.wordFail = none →
      ∃ t, exec (.launchComplete L.id) s = .next t ∧ (t.launch L.id).done = true ∧ (t.launch L.id).killed = L.killed
        ∧ (∀ Q ∈ t.queues, L.id ∉ Q.producers ∧ L.id ∉ Q.consumers)
        ∧ ∀ q, s.sq? L.sq = some q → (∃ p ∈ q.packets, p.pos = L.pos ∧ p.result = none) → ∃ q', t.sq? L.sq = some q' ∧ (L.pos, 0) ∈ q'.causes))

/-- Pre-emption (18 R353 to R355): after a new mask that Gondola may give no workgroup runs on a core outside it, and its request is acknowledged once no
workgroup that it evicts is still to be saved; a settled workgroup is saved once the bytes of its set's view are put away, which is at once
where there are none, and its context is written; it leaves its core. A saved one comes back to a core of the mask with its teams'
registers, as its area holds them. Which masks Gondola may give, the set for each core, and that a restore leaves no clean copies of the
launch on its core are the model's choice (log entries 133, 79 and 17). -/
def Obligations.Preemption : Prop :=
  (∀ (l : Nat) (mask : List Nat) (L : Launch) (s : State), s.launch? l = some L → L.done = false → (∀ c ∈ mask, c ∈ L.recd.cores) →
      s.mayTake L mask = true →
    ∃ t, exec (.preemptMaskWrite l mask) s = .next t ∧ (t.launch l).mask = mask
      ∧ (∀ W ∈ t.wgs, W.launch = l → W.state = .running → W.core ∈ t.maskCores (t.launch l))
      ∧ ((∀ W ∈ t.wgs, W.launch = l → W.state ≠ .evicting) → (t.launch l).retired.length ≠ (t.launch l).recd.wgcount → (t.launch l).done = false →
          (t.launch l).preempts = []))
  ∧ (∀ (W : Wg) (s : State), s.wg? W.launch W.id = some W → W.state = .evicting →
      (∀ x ∈ s.wgs, x.launch = W.launch → x.core = W.core → x.state = .evicting → s.wgSettled x = true) →
    (∀ s1, s.carryView W.launch W.core = .done s1 →
        ((s1.saveImage W).1.writeContext (s1.wg W.launch W.id) (s1.saveImage W).2).isSome = true →
      ∃ t, exec (.workgroupSave ⟨W.launch, W.id⟩) s = .next t ∧ (t.wg W.launch W.id).state = .saved ∧ (t.wg W.launch W.id).core = noCore
        ∧ ∀ T ∈ teamsOf t W.launch W.id, T.core = noCore ∧ ∀ th ∈ T.threads, th.entry = none)
    ∧ ((s.view W.core W.launch).dirty = [] → (s.view W.core W.launch).uncached = [] → s.storeUsed ≤ Config.carryStore →
      ∃ s1, s.carryView W.launch W.core = .done s1 ∧ s1.mem = s.mem))
  ∧ (∀ (W : Wg) (L : Launch) (c : Nat) (r : Room) (s : State), s.wg? W.launch W.id = some W → W.state = .saved → s.launch? W.launch = some L → L.done = false →
      (∀ x ∈ s.wgs, x.launch = W.launch → x.state = .saved → W.id ≤ x.id) → s.partition? W.launch W.home = none → W.reelSaved = none → s.requests = [] →
      (∀ x ∈ W.image, s.areaBytes W x.1 x.2.length = some x.2 ∨ s.areaBytes W x.1 x.2.length = none) → s.maskCores L = [c] → s.room L c false = some r →
    ∃ t, exec (.workgroupRestore ⟨W.launch, W.id⟩) s = .next t ∧ (t.wg W.launch W.id).state = .running ∧ (t.wg W.launch W.id).core = c
      ∧ (t.wg W.launch W.id).slot = r.slot ∧ (t.view c W.launch).clean = []
      ∧ ∀ T ∈ teamsOf t W.launch W.id, T.core = c ∧ ∃ U ∈ teamsOf s W.launch W.id, T.idx = U.idx ∧ T.s = U.s ∧ T.maps = U.maps)

/-- A slice's turn (16 R301, R302): the entry that its team may issue becomes the issue group; while a group issues, no turn begins; a turn of a
team with nothing to issue is one that an entry which yielded has passed over (17 R338). Age promotes an entry at 64 (R302). -/
def Obligations.SliceTurns : Prop :=
  (∀ (c sl : Nat) (s : State), s.cur ≠ none → exec (.sliceIssueTurn c sl) s = .next s)
  ∧ (∀ (c sl : Nat) (T : Team) (s : State), s.cur = none → s.settle c sl = s → s.sliceTeams c sl = [T] →
      (s.launch T.launch).recd.det = false → (∀ U ∈ s.teams, U.stepping = none) →
    (∀ e others, s.candidate T = some (e, others) →
      ∃ t E, exec (.sliceIssueTurn c sl) s = .next t ∧ t.cur = some ⟨e.id, if e.state = .open then 0 else e.slot⟩ ∧ t.entry? e.id = some E
        ∧ E.state = .issuing ∧ E.age = (if e.state = .open then e.age else 0) ∧ E.skips = [] ∧ t.mem = s.mem
        ∧ ∀ x ∈ others, ∃ y ∈ t.entries, y.id = x.id ∧ y.age = x.age + 1)
    ∧ (s.candidate T = none →
      ∃ t, exec (.sliceIssueTurn c sl) s = .next t ∧ t.cur = none ∧ t.teams = s.teams ∧ t.mem = s.mem
        ∧ t.entries = s.entries.map (fun x => if x.launch = T.launch then { x with skips := x.skips.erase (T.wg, T.idx) } else x)))
  ∧ (∀ (e : Entry) (s : State), s.entry? e.id = some e → 64 ≤ e.age → e.promo = none →
    exec (.agePromotion e.id) s = .next { s.setEntry { e with promo := some s.nextPromo } with nextPromo := s.nextPromo + 1 })
  ∧ (∀ (e : Entry) (s : State), s.entry? e.id = some e → e.age < 64 → exec (.agePromotion e.id) s = .next s)

/-- Boundaries complete, and hangs fault: 07 R129 to R132; 16 R306; 17 R331. -/
def Obligations.BoundariesAndHangs : Prop :=
  (∀ (l w : Nat) (s : State), s.wgArrived (s.wg l w) .wg = true → s.wgHalted (s.wg l w) = false → (s.wg l w).launch = l → (s.wg l w).id = w →
    ∃ t, exec (.workgroupBoundaryComplete ⟨l, w⟩) s = .next t ∧ t.mem = s.mem ∧ (t.wg l w).pend = none
      ∧ t.teams = s.teams.map (fun T => if T.launch = l ∧ T.wg = w then
          T.mapThreads (fun th => if th.hold = .arrived then { th with hold := .passed } else th) else T))
  ∧ (∀ (b : BoundaryRef) (L : Launch) (node : Nat) (s : State), s.launch? b.launch = some L →
      node = L.recd.nodeOf (Scope.instance_ b.scope) (s.wg b.launch b.wg).home → s.boundaryReady L (Scope.instance_ b.scope) node = true →
    ∃ t, exec (.phaseBoundaryComplete b) s = .next t
      ∧ ∀ W ∈ s.participants L (Scope.instance_ b.scope) node, (t.wg L.id W.id).pend = none ∧ (t.wg L.id W.id).carry = []
          ∧ (W.core ≠ noCore → (t.view W.core L.id).dirty = [] ∧ (t.view W.core L.id).uncached = [] ∧ ∀ v ∈ t.views, v.core = W.core → v.clean = [])
          ∧ ∀ T ∈ t.teams, T.launch = L.id → T.wg = W.id → ∀ th ∈ T.threads, th.hold ≠ .arrived)
  ∧ (∀ (e : Entry) (T : Team) (th : Thread) (s : State), s.entry? e.id = some e → e.state = .hold → s.thread? (T.ref th) = some (T, th) →
      (s.kindAt T e.addr).quarter = false → (∀ x ∈ s.members e.id, x.1 = T) → th ∈ T.live → th.entry = some e.id → T.bound = false →
      (∃ m ∈ T.live, m.entry ≠ some e.id) → hangLimit (s.launch T.launch).recd.holdlimit ≤ e.counts.getD 0 0 →
    ∃ t th' r, exec (.convergenceHang e.id) s = .next t ∧ t.mem = s.mem ∧ t.thread? (T.ref th) = some ((t.team? T.launch T.wg T.idx).getD T, th')
      ∧ th'.status = .parked ∧ th'.record = some r ∧ r.cause = 0x151 ∧ th'.clause = th.clause)
  ∧ (∀ (l w : Nat) (T : Team) (th : Thread) (s : State), (s.wg l w).pend = some .wg → (s.wg? l w).isSome = true → hangLimit (s.launch l).recd.barlimit ≤ (s.wg l w).barCount →
      s.missingOf .wg (s.wg l w) ≠ [] → s.thread? (T.ref th) = some (T, th) → T.launch = l → T.wg = w → th.hold = .arrived → th.status ≠ .exited → T.bound = false →
    ∃ t th' r, exec (.barrierHang ⟨l, .wg, w⟩) s = .next t ∧ t.mem = s.mem ∧ (t.wg l w).pend = none
      ∧ t.thread? (T.ref th) = some ((t.team? T.launch T.wg T.idx).getD T, th') ∧ th'.status = .parked ∧ th'.record = some r ∧ r.cause = 0x150)

/-- The actions of the policy on a thread (21 R395, R398, R399), or on a bound team as a whole (13 R249): KILL ends the launch, STOP stops the
thread, SKIP and RETRY let it go on, FORWARD enters the handler. The record is delivered to a privileged thread first, where there is one; which
of several is the model's free choice (log entry 140). -/
def Obligations.PolicyActions : Prop :=
  ∀ (r : ThreadRef) (T : Team) (th : Thread) (q : Record) (s : State),
    (actsOn s r T th q .kill → ∀ L, s.launch? T.launch = some L →
      ∃ t, exec (.policyKill (.thread r)) s = .next t ∧ (t.launch T.launch).done = true ∧ (t.launch T.launch).killed = some (q.cause, q.sub)
        ∧ (∀ W ∈ s.wgs, W.launch = T.launch → W.state ≠ .retired → teamsOf t W.launch W.id = []) ∧ (∀ v ∈ t.views, v.launch ≠ T.launch) ∧ ∀ i ∈ t.inflight, i.launch ≠ T.launch)
    ∧ (actsOn s r T th q .stop → ∃ t U th', exec (.policyStop (.thread r)) s = .next t ∧ t.thread? r = some (U, th') ∧ th'.status = .stopped
        ∧ th'.record = some q ∧ th'.clause = th.clause ∧ th'.slot = th.slot)
    ∧ (actsOn s r T th q .skip → ∃ t, exec (.policySkip (.thread r)) s = .next t ∧ unitChanged (told s T th q) t T th (·.resume false) ∧ t.mem = s.mem)
    ∧ (actsOn s r T th q .retry → ∃ t, exec (.policyRetry (.thread r)) s = .next t ∧ unitChanged (told s T th q) t T th (·.resume true) ∧ t.mem = s.mem)
    ∧ (actsOn s r T th q .forward → ∃ t, exec (.policyForward (.thread r)) s = .next t
        ∧ unitChanged (told s T th q) t T th (·.enterHandler (s.launch T.launch).recd.handler) ∧ t.mem = s.mem)
    ∧ ∀ d : Nat, (∀ U ∈ s.teams, s.meshCore d 32 = some U.core → (s.launch U.launch).priv = false) → s.deliver d q = s

/-- A core that fails its self-check is out of use and is reported; a user core's failure is counted, and the launches that run on it are killed with
0x1E1 (24 R431 to R433), whose sub-code is the core (the model's choice, log entry 130); at a boundary of the device context the next spare that
works takes the position of a failed user core (02 R48, R50), and a leaf that names the old core's scratchpad names the new one's (02 R40);
without a spare the position's VALID bit is cleared. -/
def Obligations.CoreFailures : Prop :=
  (∀ (c : Nat) (s : State), c < 288 → (s.core c).failed = false →
    (∀ W ∈ s.wgs, W.core = c → W.state = .retired ∨ W.state = .saved) →
    ∃ t, exec (.coreSelfCheckFail c) s = .next t ∧ (t.core c).failed = true ∧ (∀ k, k ≠ c → t.core k = s.core k) ∧ t.mem = s.mem
      ∧ t.deviceHealth.getLsbD 63 = true ∧ (0x1e1, c) ∈ t.notices ∧ t.launches = s.launches
      ∧ (dieOf c < s.dies.length → (∃ n, n < 32 ∧ s.meshCore (dieOf c) n = some c) → (t.die (dieOf c)).failures = (s.die (dieOf c)).failures + 1)
      ∧ ((∀ n, n < 32 → s.meshCore (dieOf c) n ≠ some c) → t.dies = s.dies))
  ∧ (∀ (c n : Nat) (W : Wg) (L : Launch) (s : State), (s.core c).failed = false → n < 32 → s.meshCore (dieOf c) n = some c → W ∈ s.wgs → W.core = c → W.state ≠ .retired → W.state ≠ .saved →
      s.launch? W.launch = some L → L.done = false →
    ∃ t, exec (.coreSelfCheckFail c) s = .next t ∧ (t.launch W.launch).done = true ∧ (t.launch W.launch).killed = some (0x1e1, c))
  ∧ (∀ (d n c : Nat) (s : State), d < s.dies.length → (s.die d).meshMap.length = 34 → s.contextBoundary = true → n < 32 → s.meshCore d n = some c → (s.core c).failed = true →
      (∀ k, k < n → ∀ b, s.meshCore d k = some b → (s.core b).failed = false) →
    (∀ j, j < 2 → (s.die d).spares ≤ j → (s.core (spareCore d j)).failed = false →
        (∀ k, k < j → (s.die d).spares ≤ k → (s.core (spareCore d k)).failed = true) →
      ∃ t, exec (.spareSubstitution d) s = .next t ∧ (t.die d).meshMap.getD n 0 = meshEntry (spareCore d j)
        ∧ (t.die d).spares = j + 1 ∧ (∀ k, k ≠ n → (t.die d).meshMap.getD k 0 = (s.die d).meshMap.getD k 0)
        ∧ ∀ (a l : Nat) (x : Int) (pa : Nat), Memory.wf s.mem = true → s.images = [] → d < 8 → a + 8 ≤ 2 ^ 52 → s.scratchLeaves c 0 0x100000 = [(a, l, x)] →
            pa = ((scratchPa (spareCore d j) 0 : Int) + x).toNat → pa % leafBytes l = 0 → pa < 2 ^ 52 → placeClass pa = 8 →
            t.homeNat a 8 % 2 = 1 ∧ leafFrame (t.homeNat a 8) * 4096 = pa ∧ outside s t a 8)
    ∧ ((∀ j, j < 2 → (s.die d).spares ≤ j → (s.core (spareCore d j)).failed = true) →
      ∃ t, exec (.spareSubstitution d) s = .next t ∧ (t.die d).meshMap.getD n 0 = (s.die d).meshMap.getD n 0 &&& 0x7f#8
        ∧ (∀ k, k ≠ n → (t.die d).meshMap.getD k 0 = (s.die d).meshMap.getD k 0) ∧ t.deviceHealth.getLsbD 62 = true ∧ t.mem = s.mem))

end

namespace Sys2Proof.Claims
open Sys2Proof Sys2Proof.Machine

/-! ## Engines, the Reel, the matrix queue and the service blocks -/

/-- The entry of a queue that its engine holds, of a KIND and not yet performed, with no translation request pending (04 R77, R78). -/
def flightNow (s : State) (q : QueueRef) (i : InFlight) (kind : Nat) : Prop :=
  s.flight? q.launch q.wg q.sel = some i ∧ i.result = none ∧ i.read = false ∧ entKind i.bits.toNat = kind ∧ s.engStalled q.launch q.wg q.sel = false

/-- The one sector of a destination has been written as one action: n bytes from its place on, with a good seal, and the entry j is done (04 R78,
R81). -/
def sectorDone (s t : State) (q : QueueRef) (j : InFlight) (x : Spot) (bs : List Byte) : Prop :=
  t.flight? q.launch q.wg q.sel = some { j with read := true, todo := [], result := some (0, 0) }
  ∧ (∀ k, k < x.n → t.homeByte (x.loc + k) = bs.getD k 0) ∧ outside s t x.loc x.n ∧ t.sealBad x.loc = false

/-- A destination of one sector can be written, for an entry j whose sources have been read: its bytes lie in one sector and in no tile that is
drained, its home answers, and where it is covered in part its old seal is good (04 R78; 03 R67). -/
def spotReady (s : State) (q : QueueRef) (j : InFlight) (x : Spot) (bs : List Byte) : Prop :=
  s.flight? q.launch q.wg q.sel = some j ∧ j.result = none ∧ s.drains [x] = false ∧ s.engDest (s.wg q.launch q.wg).core [x] = none ∧ s.reachAs x.loc (if x.own then 2 else 1) = .yes
  ∧ Memory.wf s.mem = true ∧ x.n ≤ bs.length ∧ 0 < x.n ∧ x.loc % 64 + x.n ≤ 64 ∧ x.loc + x.n ≤ 2 ^ 52

/-- An entry is in flight at a position of its queue, ended by a damaged seal (01 R17, R18; 04 R83). -/
def damagedEntry (t : State) (q : QueueRef) (pos : Nat) : Prop :=
  ∃ i c, i ∈ t.inflight ∧ i.launch = q.launch ∧ i.wg = q.wg ∧ i.sel = q.sel ∧ i.pos = pos ∧ i.result = some c ∧ (c.1 = 0x090 ∨ c.1 = 0x091)

/-- Cursor c of a core's Reel stands at the node n of a kind, which its owner's core can read now (04 R86 to R89). -/
def nodeNow (s s1 : State) (core c : Nat) (o : WgRef) (k : Cursor) (n kind : Nat) : Prop :=
  (s.core core).reel.cursor? c = some k ∧ (s.core core).reel.owner = some o ∧ (s.wg o.launch o.wg).active = true
  ∧ s.cursorStalled o.launch o.wg c = false ∧ k.last = false
  ∧ s.reelRead o (((s.core core).reel.graph &&& ~~~(0x1fff#64)) + BitVec.ofNat 64 (32 * k.node)) 32 = .ok s1 n
  ∧ nodeBad n ((s.core core).reel.graph.toNat % 256) = false ∧ nodeKind n = kind

/-- The cursor goes on at a node. -/
def cursorAt (t : State) (core c node : Nat) (counts : List (Nat × Nat)) : Prop :=
  ∃ k, (t.core core).reel.cursor? c = some k ∧ k.node = node ∧ k.inWait = false ∧ k.counts = counts

/-- A byte of an operand, as the operation saw it at its issue (15 R286). -/
def opByte (q : PassPart) (va : Nat) : Nat := ((ByteMap.get? q.seen (va % 2 ^ 64)).getD 0).toNat

/-- Element (r, k) of an operand map (15 R278): of 16, 8 or 4 bits, K contiguous in LAYOUT 0 and rows in LAYOUT 1. -/
def opElement (q : PassPart) (m : BitVec 512) (r k : Nat) : FVal :=
  let v := mapView m
  let a := if v.layout = 0 then (r, k) else (k, r)
  let at_ := v.base + a.1 * v.stride
  if q.ty = .e2m1 then fval .e2m1 (opByte q (at_ + a.2 / 2) / 16 ^ (a.2 % 2) % 16)
  else if q.ty = .bf16 ∨ q.ty = .f16 then fval q.ty (opByte q (at_ + 2 * a.2) + 256 * opByte q (at_ + 2 * a.2 + 1))
  else fval q.ty (opByte q (at_ + a.2))

/-- The scale of a cell of a map's grid: of row r and K block blk, by the geometry (06 R122; 15 R278). -/
def gridOf (q : PassPart) (m : BitVec 512) (r blk : Nat) : Scale :=
  let v := mapView m
  let cell := if v.geom = 2 then (r, blk / 2) else if v.geom = 3 then (r / 16, blk) else (r / 32, blk / 2)
  e8m0 (opByte q (v.scale + cell.1 * v.sstride + cell.2))

/-- The scale of row i of A, and that of column j of B, in block blk, the n-th of the operation (15 R282). -/
def scaleA (q : PassPart) (i blk n : Nat) : Scale :=
  if (mapView q.ma).geom = 0 then some (1, 0)
  else if (mapView q.ma).geom = 1 then e3m5 (((q.ascales.headD []).getD (i / 2) 0).toNat / 2 ^ (16 * (i % 2) + 8 * n) % 256)
  else gridOf q q.ma (q.ao + i) blk
def scaleB (q : PassPart) (j blk n : Nat) : Scale :=
  if (mapView q.mb).geom = 0 then some (1, 0)
  else if (mapView q.mb).geom = 1 then e3m5 (opByte q (q.bscale.toNat + 32 * n + j))
  else gridOf q q.mb j blk

/-- What the checks of an mma or of an mmasc have let through (06 R121; 15 R279 to R282): one operation, not merged. -/
def opShape (q : PassPart) : Prop :=
  mapBad q.ma = false ∧ mapBad q.mb = false ∧ (mapView q.ma).fmt = q.ty.code ∧ (mapView q.mb).fmt = q.ty.code
  ∧ ((q.bs = [] ∧ (q.ty = .bf16 ∨ q.ty = .f16 ∨ q.ty = .e4m3 ∨ q.ty = .e5m2) ∧ (mapView q.ma).geom = 0 ∧ (mapView q.mb).geom = 0
        ∧ (mapView q.ma).klen = (mapView q.mb).klen)
    ∨ (∃ n, q.bs = [n] ∧ (q.ty = .e4m3 ∨ q.ty = .e5m2 ∨ q.ty = .e2m1) ∧ 1 ≤ (mapView q.ma).geom ∧ (mapView q.ma).geom ≤ 4
        ∧ 1 ≤ (mapView q.mb).geom ∧ (mapView q.mb).geom ≤ 4 ∧ q.bscale.toNat % 64 = 0))

/-- The block results that go into word (i, j) of a part, in ascending K blocks: all of an mma, 2N and 2N + 1 of an mmasc (06 R124; 15 R280,
R281). -/
def opResults (q : PassPart) (i j : Nat) : List Nat :=
  let blocks := match q.bs with
    | [] => List.range ((mapView q.ma).klen / 16)
    | n :: _ => [2 * n, 2 * n + 1]
  blocks.zipIdx.map (fun x =>
    blockResult ((List.range 16).map (fun k => opElement q q.ma (q.ao + i) (16 * x.1 + k))) ((List.range 16).map (fun k => opElement q q.mb j (16 * x.1 + k)))
      (scaleA q i x.1 x.2) (scaleB q j x.1 x.2))

/-- The value stored for a point of a tile, and the address of byte j of point i of its output (19 R357, R364). -/
def storedAt (k : Cover) (i : Nat) : Option Nat := (k.staged.find? (·.1 == i)).map (·.2.toNat)
def tileByte (C : Controller) (k : Cover) (i j : Nat) : Nat :=
  C.outbase.toNat + (k.tile * tilePoints k.pattern + i) * (elBits (tyOf C.etype) / 8) + j

/-- A point of a 2D tile that lies on no edge. -/
def interior (i : Nat) : Prop := 1 ≤ i % 16 ∧ i % 16 ≤ 14 ∧ 1 ≤ i / 16 ∧ i / 16 ≤ 14

/-- The team that holds a thread, and the thread as a request left it. -/
def threadIs (t : State) (r : ThreadRef) (f : Thread → Prop) : Prop := ∃ U th, t.thread? r = some (U, th) ∧ f th

end Sys2Proof.Claims
section
open Sys2Proof Sys2Proof.Machine Sys2Proof.Claims

/-- The engines (04 R77 to R83, 03 R66, R67, 01 R29): an entry is taken from its ring, performed, and completes in its sequence register. An entry
whose descriptor or slot is damaged is taken with the seal's cause (01 R17). No sector of a tile that is drained is written, and an entry whose words lie in a tile that another entry drains waits to complete; that
its own drain does not hold it is the model's choice (log entry 61). -/
def Obligations.EngineEntries : Prop :=
  (∀ (q : QueueRef) (W : Wg) (Q : EQueue) (loc : Nat) (s s1 : State), s.wg? q.launch q.wg = some W → W.queue? q.sel = some Q →
      W.active = true → Q.bad = false → s.flight? q.launch q.wg q.sel = none → s.engStalled q.launch q.wg q.sel = false →
      newer Q.qtail (BitVec.ofNat 32 Q.count) = true → s.engDesc q.launch q.wg q.sel = .ok s1 loc →
    (s1.sealBad loc = true → ∃ t, exec (.engineTakeEntry q) s = .next t ∧ damagedEntry t q Q.count)
    ∧ ∀ (slot : Nat) (s2 : State), s1.sealBad loc = false → s1.engSlot q.launch q.wg (s1.homeNat loc 64) Q.count = .ok s2 slot →
      (s2.sealBad slot = true → ∃ t, exec (.engineTakeEntry q) s = .next t ∧ damagedEntry t q Q.count)
      ∧ ∀ (k : Option Nat) (s3 : State), s2.sealBad slot = false → entStamp (s2.homeNat slot 64) = Q.count % 2 ^ 32 →
          s2.entryCheck q.launch q.wg q.sel.eng (s2.homeNat slot 64) = .ok s3 k →
        ∃ t i, exec (.engineTakeEntry q) s = .next t ∧ i ∈ t.inflight ∧ i.launch = q.launch ∧ i.wg = q.wg ∧ i.sel = q.sel ∧ i.pos = Q.count
          ∧ i.bits = BitVec.ofNat 512 (s2.homeNat slot 64) ∧ i.result = k.map (fun x => (0x04a, x)))
  ∧ (∀ (q : QueueRef) (i j : InFlight) (x : Spot) (bs : List Byte) (s s1 s2 : State), flightNow s q i 0 →
      s.engIssue i (entDst i.bits.toNat) (entLen i.bits.toNat) = .ok s1 [x] → s1.engRead i (entSrc i.bits.toNat) (entLen i.bits.toNat) = .ok s2 bs →
      spotReady s2 q j x bs →
    ∃ t, exec (.copyEntry ⟨q, none⟩) s = .next t ∧ sectorDone s2 t q j x bs)
  ∧ (∀ (q : QueueRef) (i j : InFlight) (d : Nat) (x : Spot) (bs : List Byte) (tbl : List Nat) (s s1 s2 s3 : State), flightNow s q i 1 →
      s.collMembers i.bits.toNat = some [(d, i)] → entLogg i.bits.toNat = 0 → entOp i.bits.toNat ≠ 3 →
      s.engIssue i (entDst i.bits.toNat) (entLen i.bits.toNat) = .ok s1 [x] → s1.engRead i (entSrc i.bits.toNat) (entLen i.bits.toNat) = .ok s2 bs →
      s2.groupTable (s2.engineAgent q.launch q.wg) i.bits.toNat = .ok s3 tbl →
      spotReady s3 q j x (s3.collResult i.bits.toNat (tbl.idxOf s3.endpoint) [(d, bs)]) →
    ∃ t, exec (.collEntry ⟨q, none⟩) s = .next t ∧ sectorDone s3 t q j x (s3.collResult i.bits.toNat (tbl.idxOf s3.endpoint) [(d, bs)]))
  ∧ (∀ (q : QueueRef) (i : InFlight) (s : State), flightNow s q i 1 → s.collMembers i.bits.toNat = none → ∀ part, exec (.collEntry ⟨q, part⟩) s = .next s)
  ∧ (∀ (q : QueueRef) (i : InFlight) (k : Nat) (x : Spot) (b : List Byte) (s : State), s.flight? q.launch q.wg q.sel = some i → i.result = none →
      i.read = true → entKind i.bits.toNat < 2 → s.engStalled q.launch q.wg q.sel = false → i.todo[k]? = some (x, b) →
    (s.reachAs x.loc (if x.own then 2 else 1) = .yes → s.drains [x] = true →
      exec (if entKind i.bits.toNat = 0 then .copyEntry ⟨q, some k⟩ else .collEntry ⟨q, some k⟩) s = .next s)
    ∧ (s.reachAs x.loc (if x.own then 2 else 1) = .yes → s.drains [x] = false → Memory.wf s.mem = true → b.length = 64 → x.loc < 2 ^ 52 →
      ∃ t, exec (if entKind i.bits.toNat = 0 then .copyEntry ⟨q, some k⟩ else .collEntry ⟨q, some k⟩) s = .next t
        ∧ t.flight? q.launch q.wg q.sel = some { i with
            todo := i.todo.erase (x, b), result := if i.todo.erase (x, b) = [] then some (0, 0) else none }
        ∧ (∀ n, n < 64 → t.homeByte (sectorOf x.loc * 64 + n) = b.getD n 0) ∧ outside s t (sectorOf x.loc * 64) 64 ∧ t.sealBad x.loc = false)
    ∧ ∀ n, s.reachAs x.loc (if x.own then 2 else 1) = .failed n →
      ∃ t, exec (if entKind i.bits.toNat = 0 then .copyEntry ⟨q, some k⟩ else .collEntry ⟨q, some k⟩) s = .next t
        ∧ t.flight? q.launch q.wg q.sel = some { i with result := some (0x1e2, n) } ∧ t.mem = s.mem ∧ t.remote = s.remote)
  ∧ (∀ (q : QueueRef) (i : InFlight) (s : State), flightNow s q i 2 →
    ∃ t, exec (.nopEntry q) s = .next t ∧ t.flight? q.launch q.wg q.sel = some { i with result := some (0, 0) } ∧ t.mem = s.mem)
  ∧ (∀ (q : QueueRef) (i : InFlight) (W : Wg) (Q : EQueue) (cause sub : Nat) (s : State), s.flight? q.launch q.wg q.sel = some i →
      i.result = some (cause, sub) → s.wg? q.launch q.wg = some W → W.queue? q.sel = some Q →
    (s.wordsHeld q.launch q.wg q.sel = true → exec (.entryCompletion q) s = .next s)
    ∧ (s.wordsHeld q.launch q.wg q.sel = false → ∃ t V, exec (.entryCompletion q) s = .next t ∧ t.flight? q.launch q.wg q.sel = none ∧ t.wg? q.launch q.wg = some V
      ∧ V.queue? q.sel = some { Q with count := i.pos + 1, scope := entScope i.bits.toNat }))

/-- The nodes of the Reel (04 R87 to R90): END, WAITSEQ, WAKE, COND, WHILE, COPY and COLL. -/
def Obligations.ReelNodes : Prop :=
  ∀ (core c n : Nat) (o : WgRef) (k : Cursor) (s s1 : State),
    (nodeNow s s1 core c o k n 0 → ∃ t, exec (.reelEnd core c) s = .next t ∧ (t.core core).reel.cursor? c = none ∧ t.mem = s1.mem)
    ∧ (nodeNow s s1 core c o k n 3 → ∀ m, s1.countOf o.launch o.wg (seqSel (BitVec.ofNat 64 (nodeArg n))) = some m →
        (m < seqCount (BitVec.ofNat 64 (nodeArg n)) → ∃ t k', exec (.reelWaitseq core c) s = .next t
          ∧ (t.core core).reel.cursor? c = some k' ∧ k'.node = k.node ∧ k'.inWait = true)
        ∧ ∀ s2 loc, seqCount (BitVec.ofNat 64 (nodeArg n)) ≤ m → (seqSel (BitVec.ofNat 64 (nodeArg n))).eng ≠ 2 →
            (s1.updCursor core c (fun x => { x with inWait := true })).engDesc o.launch o.wg (seqSel (BitVec.ofNat 64 (nodeArg n))) = .ok s2 loc →
            errMeets (bitsAt (s2.homeNat loc 64) 255 192) (BitVec.ofNat 64 (nodeArg n)) = false →
            ∃ t, exec (.reelWaitseq core c) s = .next t ∧ cursorAt t core c (nodeNext n) k.counts)
    ∧ (nodeNow s s1 core c o k n 4 → ∃ t, exec (.reelWake core c) s = .next t ∧ cursorAt t core c (nodeNext n) k.counts
        ∧ t.teams = (s1.wake o.launch o.wg (nodeArg n % 64)).teams ∧ t.wgs = (s1.wake o.launch o.wg (nodeArg n % 64)).wgs)
    ∧ (nodeNow s s1 core c o k n 5 → ∀ s2 v, s1.reelRead o (BitVec.ofNat 64 (nodeAddr n)) 8 = .ok s2 v →
        ∃ t, exec (.reelCond core c) s = .next t ∧ cursorAt t core c (if v = 0 then nodeNext n else nodeAlt n) k.counts)
    ∧ (nodeNow s s1 core c o k n 6 → ∀ s2 v, s1.reelRead o (BitVec.ofNat 64 (nodeAddr n)) 8 = .ok s2 v →
        (v ≠ 0 → nodeLimit n = 0 ∨ k.countAt k.node < nodeLimit n →
          ∃ t, exec (.reelWhile core c) s = .next t ∧ cursorAt t core c (nodeAlt n) (k.counts.filter (·.1 != k.node) ++ [(k.node, k.countAt k.node + 1)]))
        ∧ (v = 0 ∨ (nodeLimit n ≠ 0 ∧ nodeLimit n ≤ k.countAt k.node) →
          ∃ t, exec (.reelWhile core c) s = .next t ∧ cursorAt t core c (nodeNext n) (k.counts.filter (·.1 != k.node))))
    ∧ ∀ eng, eng < 2 → nodeNow s s1 core c o k n (eng + 1) → ∀ (s2 s3 s4 s5 : State) (e loc slot : Nat) (Q : EQueue),
        s1.reelRead o (BitVec.ofNat 64 (nodeAddr n)) 64 = .ok s2 e → s2.entryCheck o.launch o.wg eng e = .ok s3 none →
        (s3.wg o.launch o.wg).queue? ⟨eng, nodeQueue n⟩ = some Q → Q.bad = false → s3.engDesc o.launch o.wg ⟨eng, nodeQueue n⟩ = .ok s4 loc →
        s4.engineHolds loc 64 true = false → s4.sealBad loc = false → descBad (s4.homeNat loc 64) = false →
        (BitVec.ofNat 32 (bitsAt (s4.homeNat loc 64) 127 96) - BitVec.ofNat 32 Q.count).toNat < 2 ^ bitsAt (s4.homeNat loc 64) 68 64 →
        s4.engSlot o.launch o.wg (s4.homeNat loc 64) (bitsAt (s4.homeNat loc 64) 127 96) = .ok s5 slot → s5.engineHolds slot 64 true = false →
        ∃ t V, exec (if eng = 0 then .reelCopy core c else .reelColl core c) s = .next t ∧ cursorAt t core c (nodeNext n) k.counts
          ∧ (t.wg o.launch o.wg).queue? ⟨eng, nodeQueue n⟩ = some V
          ∧ V.qtail = (let p := BitVec.ofNat 32 (bitsAt (s4.homeNat loc 64) 127 96) + 1; if newer p Q.qtail then p else Q.qtail)
          ∧ (Memory.wf s5.mem = true → loc + 64 ≤ 2 ^ 52 → slot + 64 ≤ 2 ^ 52 → slot % 64 = 0 → loc + 64 ≤ slot ∨ slot + 64 ≤ loc →
              t.homeNat slot 64 = e % 2 ^ 480 + bitsAt (s4.homeNat loc 64) 127 96 * 2 ^ 480
              ∧ t.homeNat (loc + 12) 4 = (bitsAt (s4.homeNat loc 64) 127 96 + 1) % 2 ^ 32)

/-- The front pass of a core's matrix queue is performed as a whole where its operands can be read, and its completion frees its rows and
clears RowProg; one that meets a fault stops at its row, and the threads of its quarters take the fault as a deferred one (15 R280, R284 to
R288); its sub-code for a cause 0x085 is the model's choice (log entry 122). Each of its 16 rows and 32 columns takes the old word and the block
results of the operation's K blocks, one after another (06 R122, R124; 15 R278, R280 to R282), with the examples of 06 R124. -/
def Obligations.MatrixPasses : Prop :=
  (∀ (core : Nat) (p : Pass) (rest : List Pass) (s s1 : State), (s.core core).passes = p :: rest → p.done = false → s.passStalled core = false →
      s.runPass core p.parts = .ok s1 → (s1.core core).passes = p :: rest →
    ∃ t, exec (.matrixPass core) s = .next t ∧ (t.core core).passes = { p with started := true, done := true } :: rest ∧ t.mem = s1.mem
      ∧ ∀ w, (t.core core).accWord w = (s1.core core).accWord w)
  ∧ (∀ (core row qn : Nat) (p : Pass) (q : PassPart) (rest : List Pass) (x : Trap) (T : Team) (s s1 : State), (s.core core).passes = p :: rest →
      p.done = false → p.parts = [q] → s.passStalled core = false → s.runPass core p.parts = .stop s1 row qn x → (s1.core core).passes = p :: rest →
      s1.team? q.launch q.wg q.team = some T → T.born = q.born →
    ∃ t U op, exec (.matrixPass core) s = .next t ∧ (t.core core).passes = rest ∧ t.mem = s1.mem ∧ t.team? q.launch q.wg q.team = some U
      ∧ U.stoppedOps = T.stoppedOps ++ [op] ∧ op.quarter = q.quarter ∧ op.row = max row q.row ∧ op.instr = q.instr
      ∧ ∀ th ∈ U.threads, th.status ≠ .exited → th.lane / 8 = q.quarter → ∃ r ∈ th.defer, r.matrix = true ∧ r.defd = true ∧ r.cause = x.cause
          ∧ r.sub = stopSub x row qn % 2 ^ 16 ∧ r.clause = q.clause ∧ r.slot = q.slot)
  ∧ (∀ (core : Nat) (p : Pass) (rest : List Pass) (s : State), (s.core core).passes = p :: rest → p.done = true →
    ∃ t, exec (.matrixPassComplete core) s = .next t ∧ (t.core core).passes = rest ∧ t.mem = s.mem
      ∧ (∀ w, (t.core core).accWord w = (s.core core).accWord w)
      ∧ ∀ q ∈ p.parts, q.quarter < 8 → ∀ T, t.team? q.launch q.wg q.team = some T → T.born = q.born →
          T.stoppedOps.any (·.quarter == q.quarter) = false → T.rowprog.getD q.quarter 0 = 0)
  ∧ (∀ (core : Nat) (p : Pass) (q : PassPart) (rest : List Pass) (T : Team) (s : State), (s.core core).passes = p :: rest → p.done = false →
      p.parts = [q] → q.row = 0 → s.passStalled core = false → (s.core core).eccRows = [] → s.team? q.launch q.wg q.team = some T →
      (∀ key ∈ q.keys, (ByteMap.get? q.seen key).isSome = true) → opShape q →
    ∃ t, exec (.matrixPass core) s = .next t ∧ t.mem = s.mem
      ∧ (∀ i j, i < 16 → j < 32 → (t.core core).accWord ((accBase (s.wg q.launch q.wg).accblk + q.cb + i) * 32 + j)
          = BitVec.ofNat 32 (matSum ((s.core core).accWord ((accBase (s.wg q.launch q.wg).accblk + q.cb + i) * 32 + j)).toNat (opResults q i j)))
      ∧ ∀ w, w / 32 < accBase (s.wg q.launch q.wg).accblk + q.cb ∨ accBase (s.wg q.launch q.wg).accblk + q.cb + 16 ≤ w / 32 →
          (t.core core).accWord w = (s.core core).accWord w)
  ∧ blockResult ([0x4b80, 0x3f80, 0x3f80] ++ List.replicate 13 0 |>.map (fval .bf16)) (List.replicate 16 (fval .bf16 0x3f80)) (some (1, 0)) (some (1, 0))
      = 0x4b800001
  ∧ matSum 0 [0x4b800001] = 0x4b800001
  ∧ blockResult ([0x3, 0xc] ++ List.replicate 14 0 |>.map (fval .e2m1)) ([0x5, 0x6] ++ List.replicate 14 0 |>.map (fval .e2m1)) (e3m5 0x68) (e3m5 0x80)
      = 0xc10c0000
  ∧ matSum 0x3f800000 [0xc10c0000] = 0xc0f80000

/-- A page's translations have gone, in one address space and of global pages, with the upper-level entries on its path; else only the requests
of the module change (02 R42, R46; 20 R389). -/
def pageGone (s t : State) (asid page : Nat) : Prop :=
  t = { s with tlb := t.tlb, upper := t.upper, requests := t.requests }
  ∧ (∀ e, e ∈ t.tlb ↔ e ∈ s.tlb ∧ ¬(e.vpn * 2 ^ e.bits ≤ page ∧ page < (e.vpn + 1) * 2 ^ e.bits ∧ (e.asid = asid ∨ e.glob = true)))
  ∧ ∀ x, x ∈ t.upper ↔ x ∈ s.upper ∧ ¬(x.asid = asid ∧ x.tag = page / 2 ^ (12 + 9 * x.level))

/-- Outstanding results return (05 R99, R10; 11 R119; 23 R418), and Gondola ends translation requests, those of saved workgroups in the tables alone
(02 R44 to R47; 04 R78). -/
def Obligations.ResultsAndRequests : Prop :=
  (∀ (r : ThreadRef) (T : Team) (th : Thread) (p : Pending) (k : Nat) (s : State), s.thread? r = some (T, th) → th.outst = [p] →
      p.dst = .v k → p.bits = 32 → k < th.v.length →
      ((s.launch T.launch).recd.det = true → s.comes (T.ref th) (fun a => decide (a.tag < p.tag)) = false) →
    (p.fault = none → p.exc &&& modeEnables th.mode = 0 →
      ∃ t, exec (.outstandingResultReturn r) s = .next t ∧ t.mem = s.mem ∧ threadIs t r (fun x => x.outst = [] ∧ x.v = setAt th.v k (BitVec.ofNat 32 p.val)
        ∧ x.mode = th.mode ||| p.exc.zeroExtend 32 ∧ x.y0 = (if th.y0.tag = some p.tag then { val := BitVec.ofNat 64 p.val } else th.y0)
        ∧ x.y1 = (if th.y1.tag = some p.tag then { val := BitVec.ofNat 64 p.val } else th.y1) ∧ x.defer = th.defer ∧ x.clause = th.clause))
    ∧ ∀ q, p.fault = some q →
      ∃ t, exec (.outstandingResultReturn r) s = .next t ∧ t.mem = s.mem ∧ threadIs t r (fun x => x.outst = [] ∧ x.w = th.w
        ∧ x.v = (if q.cause = 0x182 then setAt th.v k (BitVec.ofNat 32 p.val) else th.v)
        ∧ x.defer = th.defer ++ [{ q with
            tick := s.tick, gpc := th.gpc, gop := th.gop, nest := th.status == .handler, bound := T.bound
            dst := if q.cause = 0x182 then q.dst else some (.v k, 32) }]))
  ∧ (∀ (r : ThreadRef) (T : Team) (th : Thread) (s : State), s.thread? r = some (T, th) → (∀ p ∈ th.outst, ∃ n, p.dst = .s n ∧ p.clause = th.clause ∧ p.slot = th.slot) →
      th.slotDone = true → (∃ o ∈ T.threads, o.lane ≠ th.lane ∧ o.entry = th.entry ∧ o.slotDone = false ∧ o.status ≠ .exited
        ∧ o.clause = th.clause ∧ o.slot = th.slot) →
    exec (.outstandingResultReturn r) s = .next s)
  ∧ (∀ (r : ReplayRef) (q : Request) (s : State), s.request? r = some q →
    (q.core = noCore → exec (.replayReject r) s = .next s
      ∧ ∃ t, exec (.replayResolve r) s = .next t ∧ pageGone s t q.asid q.page.toNat ∧ t.requests = s.requests)
    ∧ (q.core ≠ noCore → (∀ a, q.who ≠ .threads a) →
      ∃ t, exec (.replayResolve r) s = .next t ∧ pageGone s t q.asid q.page.toNat ∧ t.requests = s.requests.erase q))
  ∧ (∀ (r : ReplayRef) (q : Request) (x : ThreadRef) (a : Access) (wr : Bool) (T : Team) (th : Thread) (s : State), s.request? r = some q →
      q.core ≠ noCore → q.who = .threads [(x, a)] → a.kind = .again wr → s.thread? x = some (T, th) → T.bound = false → th.status = .running →
    (∃ t, exec (.replayResolve r) s = .next t ∧ pageGone s t q.asid q.page.toNat ∧ t.requests = s.requests.erase q)
    ∧ ∃ t, exec (.replayReject r) s = .next t ∧ t.requests = s.requests.erase q ∧ t.mem = s.mem ∧ threadIs t x (fun y => y.status = .parked
        ∧ y.slot = a.slot ∧ ∃ f, y.record = some f ∧ f.cause = q.cause ∧ (isMemoryCause q.cause = true → f.addr = a.va)))
  ∧ (∀ (r : ReplayRef) (q : Request) (x : ThreadRef) (a : Access) (T : Team) (th : Thread) (s s1 s2 : State), s.request? r = some q →
      q.core ≠ noCore → q.who = .threads [(x, a)] → (∃ b, a.kind = .load b) ∨ a.kind = .store →
      s1 = { s.tlbPage q.asid q.page.toNat with requests := s.requests.erase q } → s1.thread? x = some (T, th) →
    (∀ v, s1.access T x a = .ok s2 v none → ∃ t, exec (.replayResolve r) s = .next t ∧ t = s2.giveResult T x a v none)
    ∧ ∀ n, s1.access T x a = .wait s2 n → ∃ t, exec (.replayResolve r) s = .next t ∧ { q with released := true } ∈ t.requests)
  ∧ (∀ (r : ReplayRef) (q : Request) (l w : Nat) (sel : QSel) (i : InFlight) (s : State), s.request? r = some q → q.core ≠ noCore → q.who = .engine l w sel →
      sel.eng ≠ 2 → s.flight? l w sel = some i → i.result = none →
    ∃ t, exec (.replayReject r) s = .next t ∧ t.requests = s.requests.erase q ∧ t.flight? l w sel = some { i with result := some (q.cause, 0) } ∧ t.mem = s.mem)

/-- The service blocks answer a batch: REPLY and DONE in each calling lane's slot, or REJ (20 R378, R379; 18 R356). A Basket pushes its next batch into
the ring of queue 63 of the home die, as a record of the stated fields (18 R356). -/
def Obligations.ServiceBatches : Prop :=
  (∀ (core loc : Nat) (b : Batch) (Q : WorkQueue) (s : State), s.nextPush core = some b → Q = s.workq (s.launch b.launch).die 63 →
      Q.state ≠ .unconfigured → (Q.reserve - Q.free).toNat < Q.ringlen → loc = Q.ringbase.toNat + 64 * (Q.reserve.toNat % Q.ringlen) →
      s.reach loc = .yes → Memory.wf s.mem = true → loc % 64 = 0 → loc + 64 ≤ 2 ^ 51 →
    let t := s.pushBatch core
    let n := t.homeNat loc 64
    n / 2 ^ 480 = Q.reserve.toNat ∧ n / 2 ^ 416 % 2 ^ 64 = b.slots.toNat ∧ n / 2 ^ 352 % 2 ^ 64 = b.mask.toNat
      ∧ n / 2 ^ 342 % 2 ^ 10 = (s.launch b.launch).asid % 2 ^ 10 ∧ n / 2 ^ 334 % 2 ^ 8 = b.slot % 2 ^ 8 ∧ n / 2 ^ 327 % 2 ^ 7 = b.team % 2 ^ 7
      ∧ n / 2 ^ 7 % 2 ^ 320 = 0 ∧ n % 2 ^ 7 = b.code % 2 ^ 7
      ∧ outside s t loc 64 ∧ t.sealBad loc = false ∧ t.batches = s.batches.erase b ++ [{ b with pushed := true }]
      ∧ (t.workq (s.launch b.launch).die 63).reserve = Q.reserve + 1)
  ∧ ∀ (die : Nat) (b : Batch) (s s1 : State) (loc : Nat), s.serviceQueue die = [b] → b.code ≠ 127 → s.slotLocs b b.lanes [] = some (s1, [loc]) →
    Memory.wf s1.mem = true → loc + 16 ≤ 2 ^ 52 →
    (∀ v : BitVec 32, ∃ t, exec (.serviceReply die [v]) s = .next t ∧ t.batches = s1.batches.erase b ∧ t.homeNat (loc + 4) 4 = v.toNat
      ∧ t.homeNat (loc + 8) 8 = 1 ∧ outside s1 t (loc + 4) 12)
    ∧ ∃ t, exec (.serviceReject die) s = .next t ∧ t.batches = s1.batches.erase b ∧ t.homeNat (loc + 8) 8 = 2 ∧ outside s1 t (loc + 8) 8

/-- A coverage tile completes once every point of its sequence is stored, or its workgroup's last team has exited, with 0x04A then; its output
stands at the tile's place in the launch's output, and no other byte changes where no audit is taken; a full audit window closes (19 R360, R364 to
R367; 04 R85). A point of the sequence has the value stored for it; a skipped one the mean of its neighbours or the interpolation of its corners. It
waits while a tile that it would write to is drained (03 R67). How a deterministic launch closes windows, and that the core keeps the unit's first
error, is the model's choice (log entries 48 and 139). -/
def Obligations.CoverageTiles : Prop :=
  (∀ (l w : Nat) (k : Cover) (C : Controller) (s s0 s1 : State) (W : Wg) (xs ys : List Spot) (secs : List ((Nat × Nat) × List (Option Byte))),
      s.wg? l w = some W → W.cover = some k → (s.launch? l).isSome = true → (s.launch l).ctrl = some C →
      k.full C.audit = true ∨ s.wgExited l w = true → k.done = false → W.active = true → s.engStalled l w ⟨2, 0⟩ = false →
      secs = regionSectors (C.outbase.toNat + k.tile * tilePoints k.pattern * (elBits (tyOf C.etype) / 8))
        (regionBytes (elBits (tyOf C.etype) / 8) (k.output (tyOf C.etype) C.audit)) →
      s0 = s.coverOwn l w → s0.engRange (s0.engineAgent l w) true (secs.map (·.1)) [] = (.ok s1 xs, ys) →
      (xs.zip secs).all (fun p => p.2.2.all (·.isSome) || !s1.sealBad p.1.loc) = true →
    (s1.drains xs = true → exec (.tileReconstruction ⟨l, w⟩) s = .next s1)
    ∧ (s1.drains xs = false → ∃ t, exec (.tileReconstruction ⟨l, w⟩) s = .next t
      ∧ (t.wg l w).cover = some { k with done := true, owned := [] }
      ∧ (t.core W.core).recon = (s.core W.core).recon + 1
      ∧ (t.core W.core).reconErr = (if k.full C.audit = true then (s.core W.core).reconErr
          else (s.core W.core).reconErr.or (some ((s.core W.core).recon + 1, 0x04a, 0x1a)))
      ∧ (∃ D, (t.launch l).ctrl = some D ∧ k.tile ∈ D.tilesDone)
      ∧ (C.audit = 0 → C.queue = [] → C.inWin < C.window → Memory.wf s1.mem = true → C.outbase.toNat % 64 = 0 → (xs.map (·.loc)).Nodup →
          (∀ x ∈ xs, x.loc % 64 = 0 ∧ x.loc + 64 ≤ 2 ^ 52) →
        (∀ (i j v : Nat), j < elBits (tyOf C.etype) / 8 → (k.output (tyOf C.etype) C.audit)[i]? = some (some v) →
          ∃ x ∈ xs, x.va = BitVec.ofNat 64 (tileByte C k i j / 64 * 64) ∧ t.homeByte (x.loc + tileByte C k i j % 64) = BitVec.ofNat 8 (v / 2 ^ (8 * j)))
        ∧ (∀ (i j : Nat), j < elBits (tyOf C.etype) / 8 → (k.output (tyOf C.etype) C.audit)[i]? = some none →
          ∀ x ∈ xs, x.va = BitVec.ofNat 64 (tileByte C k i j / 64 * 64) →
            t.homeByte (x.loc + tileByte C k i j % 64) = s1.homeByte (x.loc + tileByte C k i j % 64))
        ∧ (∀ a, (∀ x ∈ xs, ¬(x.loc ≤ a ∧ a < x.loc + 64)) → t.homeByte a = s1.homeByte a))))
  ∧ (∀ (k : Cover) (ty : Ty) (audit i : Nat), i < tilePoints k.pattern →
      ((pointSeq k.pattern audit).any (·.1 == i) = true → (k.output ty audit)[i]? = some (storedAt k i)))
  ∧ (∀ (k : Cover) (i a b c d : Nat), i < 256 → interior i → storedAt k (i - 1) = some a → storedAt k (i + 1) = some b → storedAt k (i - 16) = some c →
      storedAt k (i + 16) = some d →
    (k.pattern = 1 → (i % 16 + i / 16) % 2 = 1 →
      (k.output .n8 0)[i]? = some (some ((a + b + c + d + 2) / 4)) ∧ (k.output .i32 0)[i]? = some (some c))
    ∧ (k.pattern = 2 → i % 2 = 1 → i / 16 % 2 = 0 → (k.output .n8 0)[i]? = some (some ((a + b + 1) / 2)) ∧ (k.output .i32 0)[i]? = some (some a))
    ∧ (k.pattern = 2 → i % 2 = 0 → i / 16 % 2 = 1 → (k.output .n8 0)[i]? = some (some ((c + d + 1) / 2)) ∧ (k.output .i32 0)[i]? = some (some c)))
  ∧ (∀ (k : Cover) (i a b c d : Nat), i < 256 → interior i → k.pattern = 2 → i % 2 = 1 → i / 16 % 2 = 1 → storedAt k (i - 17) = some a →
      storedAt k (i - 15) = some b → storedAt k (i + 15) = some c → storedAt k (i + 17) = some d →
    (k.output .n8 0)[i]? = some (some ((a + b + c + d + 2) / 4)) ∧ (k.output .i32 0)[i]? = some (some a))
  ∧ (∀ (k : Cover) (i r a b : Nat), i < 256 → interior i → k.pattern = 4 → i % 16 < 12 → i / 16 % 4 = 0 → i % 4 = r → r ≠ 0 →
      storedAt k (i - r) = some a → storedAt k (i - r + 4) = some b →
    (k.output .n8 0)[i]? = some (some (((4 - r) * a + r * b + 2) / 4)))
  ∧ meanOf .f64 [(0, 0x3ff0000000000000), (2, 0x4000000000000000), (4, 0x4008000000000000), (8, 0x4010000000000000)] = 0x4004000000000000
  ∧ meanOf .bf16 [(0, 0x3f80), (2, 0x4000), (4, 0x4080)] = 0x4015
  ∧ (∀ (l : Nat) (C : Controller) (s : State), (s.launch? l).isSome = true → (s.launch l).ctrl = some C → C.inWin = C.window → C.queue = [] →
      0 < C.window →
    ∃ t, exec (.auditWindowClose l) s = .next t ∧ (t.launch l).ctrl
      = some { C with windows := C.windows + 1, sum := 0, inWin := 0, closed := C.closed ++ [(C.lastTile, C.sum)] })

/-- Stops and the debugger's commands (23 R419 to R423): a stop that arrives halts the core's teams at rest; HALT is broadcast to a cluster;
RESUME ends the cluster's halts; STEP lets a halted team issue one clause. -/
def Obligations.StopsAndDebugger : Prop :=
  (∀ (core : Nat) (s : State), (s.core core).stopIn ≠ [] →
    ∃ t, exec (.stopArrival core) s = .next t ∧ (t.core core).halt = true ∧ (t.core core).stopIn = []
      ∧ ∀ T ∈ t.teams, T.core = core → T.halted = true ∨ T.stopReq.isSome = true)
  ∧ (∀ (core : Nat) (s : State), (s.core core).stopIn = [] → exec (.stopArrival core) s = .next s)
  ∧ (∀ (d : Nat) (v : BitVec 64) (s : State),
    (v.toNat / 2 ^ 60 = 1 → ∃ t, exec (.dbgHalt d v) s = .next t ∧ t.teams = s.teams ∧ t.mem = s.mem
      ∧ ∀ c ∈ s.dbgCluster d v, (s.tick, 0x184) ∈ (t.core c).stopIn)
    ∧ (v.toNat / 2 ^ 60 = 2 → ∃ t, exec (.dbgResume d v) s = .next t ∧ t.mem = s.mem
      ∧ (∀ c ∈ s.dbgCluster d v, (t.core c).halt = false ∧ (t.core c).stopIn = [])
      ∧ ∀ T ∈ t.teams, T.core ∈ s.dbgCluster d v → T.halted = false ∧ T.stopReq = none ∧ ∀ th ∈ T.threads, th.status ≠ .stopped)
    ∧ (v.toNat / 2 ^ 60 = 3 → ∀ lc c, dbgCore d v = some lc → s.physOf lc = some c →
      ∃ t, exec (.dbgStep d v) s = .next t ∧ t.mem = s.mem ∧ t.teams = s.teams.map (fun T =>
        if T.core = c ∧ T.halted = true ∧ (s.wg T.launch T.wg).slot = v.toNat / 2 ^ 40 % 256 ∧ T.idx = v.toNat / 2 ^ 32 % 128
        then { T with stepping := some (s.tick, none) } else T))
    ∧ (v.toNat / 2 ^ 60 ≠ 1 → exec (.dbgHalt d v) s = .next s) ∧ (v.toNat / 2 ^ 60 ≠ 2 → exec (.dbgResume d v) s = .next s)
    ∧ (v.toNat / 2 ^ 60 ≠ 3 → exec (.dbgStep d v) s = .next s))

end

namespace Sys2Proof.Claims
open Sys2Proof Sys2Proof.Machine

/-! ## Terms of the statements about single rules -/

/-- The words of one instruction under a class, and the instruction that the spec writes beside them. -/
def reads (c : Cls) (ws : List (BitVec 32)) (i : Instr) : Prop := decodeWords c true ws = .ok (i, ws.length)

/-- The privileged instructions: the L forms of the SYS class and mmaprog (09 R178, R180). -/
def privileged : Instr → Bool
  | .sysr _ _ _ _ | .sysw _ _ _ _ | .msig _ _ _ | .mpost _ _ _ _ | .tlbinvPage _ _ _ | .tlbinvAsid _ _ _ | .tlbinvAll _ _ _ | .cflush _ _ _
  | .fltrd _ _ _ | .mmaprogRd _ _ _ _ | .mmaprogWr _ _ _ _ => true
  | _ => false

/-- The slot at which a group stands in a clause whose words are in the buffer. -/
def atSlot (s : State) (c : Cur) (E : Entry) : Prop :=
  s.gated = false ∧ s.agenda = [] ∧ s.bring.powered = true ∧ s.cur = some c ∧ s.entry? c.entry = some E ∧ E.begun = false ∧ E.words ≠ []

/-- A register lies at or beyond the block of a thread that issues (05 R93). -/
def beyondBlock (s : State) (c : Cur) (k : Nat) : Prop := ∃ T ∈ s.teams, T.bsize ≤ k ∧ ∃ th ∈ T.threads, th.issuing c.entry = true

/-- A sector that n bytes at loc touch, and one that they fill. -/
def touches (loc n sec : Nat) : Prop := loc < sec * 64 + 64 ∧ sec * 64 < loc + n
def fills (loc n sec : Nat) : Prop := loc ≤ sec * 64 ∧ sec * 64 + 64 ≤ loc + n

/-- Every other view is as it was. -/
def otherViews (s t : State) (core l : Nat) : Prop := ∀ c k, ¬(c = core ∧ k = l) → t.view c k = s.view c k

/-- The number in an f64 or an f32 that is neither NaN nor infinite reads as a zero, a finite number other than zero. -/
def isNum (x : FVal) : Prop := ∃ n m e, x = .fin n m e ∧ m ≠ 0

/-- The number that a finite value reads as. -/
def ratOf (x : FVal) : ℚ :=
  match x with
  | .fin n m e => (if n then -1 else 1) * (m : ℚ) * 2 ^ e
  | _ => 0

/-- minimumNumber and maximumNumber (06 R109). -/
def MinMax : Prop :=
  ∀ (t : Ty) (a b : Nat), t = .f64 ∨ t = .f32 ∨ t = .f16 ∨ t = .bf16 →
    (∀ sg mx, fval t a = .nan sg → (fval t b).isNan = false →
      fminmax t mx a b = ⟨b, if sg then excV else 0⟩ ∧ fminmax t mx b a = ⟨b, if sg then excV else 0⟩)
    ∧ (∀ sg sh mx, fval t a = .nan sg → fval t b = .nan sh → fminmax t mx a b = ⟨canonNan t, if sg || sh then excV else 0⟩)
    ∧ (∀ m n k l e f, fval t a = .fin m k e → fval t b = .fin n l f →
        ratOf (fval t a) < ratOf (fval t b) ∨ (k = 0 ∧ l = 0 ∧ m = true ∧ n = false) →
      fminmax t false a b = ⟨a, 0⟩ ∧ fminmax t false b a = ⟨a, 0⟩ ∧ fminmax t true a b = ⟨b, 0⟩ ∧ fminmax t true b a = ⟨b, 0⟩)
    ∧ (fval t a = .inf true → (fval t b).isNan = false → fval t b ≠ .inf true →
      fminmax t false a b = ⟨a, 0⟩ ∧ fminmax t false b a = ⟨a, 0⟩ ∧ fminmax t true a b = ⟨b, 0⟩ ∧ fminmax t true b a = ⟨b, 0⟩)
    ∧ (fval t a = .inf false → (fval t b).isNan = false → fval t b ≠ .inf false →
      fminmax t false a b = ⟨b, 0⟩ ∧ fminmax t false b a = ⟨b, 0⟩ ∧ fminmax t true a b = ⟨a, 0⟩ ∧ fminmax t true b a = ⟨a, 0⟩)

/-- The frozen special functions: their table of special inputs, the values that the rules work out, the exact left ends of their segments, and the
range in which ftanh is 1 (11 R220 to R223). -/
def SpecialFunctions : Prop :=
  (∀ f ∈ [frcp, frsq, fexp2, flog2, fsinpi, fcospi, ftanh], ∀ a sg, fval .f32 a = .nan sg → f a = ⟨0x7fc00000, if sg then excV else 0⟩)
  ∧ frcp 0 = ⟨0x7f800000, excZ⟩ ∧ frcp 0x80000000 = ⟨0xff800000, excZ⟩ ∧ frcp 0x7f800000 = ⟨0, 0⟩ ∧ frcp 0xff800000 = ⟨0x80000000, 0⟩
  ∧ frsq 0 = ⟨0x7f800000, excZ⟩ ∧ frsq 0x80000000 = ⟨0xff800000, excZ⟩ ∧ frsq 0x7f800000 = ⟨0, 0⟩ ∧ frsq 0xff800000 = ⟨0x7fc00000, excV⟩
  ∧ fexp2 0 = ⟨0x3f800000, 0⟩ ∧ fexp2 0x80000000 = ⟨0x3f800000, 0⟩ ∧ fexp2 0x7f800000 = ⟨0x7f800000, 0⟩ ∧ fexp2 0xff800000 = ⟨0, 0⟩
  ∧ flog2 0 = ⟨0xff800000, excZ⟩ ∧ flog2 0x80000000 = ⟨0xff800000, excZ⟩ ∧ flog2 0x7f800000 = ⟨0x7f800000, 0⟩ ∧ flog2 0xff800000 = ⟨0x7fc00000, excV⟩
  ∧ fsinpi 0 = ⟨0, 0⟩ ∧ fsinpi 0x80000000 = ⟨0x80000000, 0⟩ ∧ fsinpi 0x7f800000 = ⟨0x7fc00000, excV⟩ ∧ fsinpi 0xff800000 = ⟨0x7fc00000, excV⟩
  ∧ fcospi 0 = ⟨0x3f800000, 0⟩ ∧ fcospi 0x80000000 = ⟨0x3f800000, 0⟩ ∧ fcospi 0x7f800000 = ⟨0x7fc00000, excV⟩ ∧ fcospi 0xff800000 = ⟨0x7fc00000, excV⟩
  ∧ ftanh 0 = ⟨0, 0⟩ ∧ ftanh 0x80000000 = ⟨0x80000000, 0⟩ ∧ ftanh 0x7f800000 = ⟨0x3f800000, 0⟩ ∧ ftanh 0xff800000 = ⟨0xbf800000, 0⟩
  ∧ (∀ a m e, fval .f32 a = .fin true m e → m ≠ 0 → frsq a = ⟨0x7fc00000, excV⟩ ∧ flog2 a = ⟨0x7fc00000, excV⟩)
  ∧ (∀ a n m e, fval .f32 a = .fin n m e → (8 : ℚ) ≤ m * 2 ^ e → ftanh a = ⟨withSign .f32 n 0x3f800000, excX⟩)
  ∧ (∀ (a : Nat) (k : Int) n m e, fval .f32 a = .fin n m e → m ≠ 0 → ratOf (fval .f32 a) = k → -126 ≤ k → k ≤ 127 →
      fexp2 a = ⟨(k + 127).toNat * 2 ^ 23, excX⟩)
  ∧ (∀ k, 1 ≤ k → k ≤ 253 → frcp (k * 2 ^ 23) = ⟨(254 - k) * 2 ^ 23, excX⟩)
  ∧ frozenEntry .rcp 0 = (0x3fe00ff8, -1044492, 0x3fa) ∧ frcp 0x3f804000 = ⟨0x3f7f8040, excX⟩ ∧ frcp 0x3f800001 = ⟨0x3f7ffffe, excX⟩
  ∧ (fsinpi 0xc0400000).bits = 0x80000000 ∧ (fcospi 0x3f000000).bits = 0 ∧ (fsinpi 0x3f000000).bits = 0x3f800000 ∧ (fcospi 0x3f800000).bits = 0xbf800000
  ∧ (frsq 0x40800000).bits = 0x3f000000 ∧ (flog2 0x41000000).bits = 0x40400000

/-- The exponent of the largest finite value of a format (06 R107). -/
def topExp : Ty → Nat
  | .f64 => 1023 | .f16 | .e5m2 => 15 | .e4m3 => 8 | .e2m1 => 2 | _ => 127

/-- The table of overflow (06 R115). -/
def overflowOf (t : Ty) (rm : Rm) (sat neg : Bool) : Nat :=
  let big := withSign t neg (maxFinite t)
  let beyond := if t = .e4m3 then 0x7f else withSign t neg (infBits t)
  if t = .e2m1 ∨ sat = true then big
  else match rm, neg with
    | .rne, _ => beyond
    | .rtz, _ => big
    | .rup, false => beyond
    | .rup, true => big
    | .rdn, false => big
    | .rdn, true => beyond

/-- Overflow, and the conversions between floats and to integers (06 R115, R120; 11 R217). -/
def Conversions : Prop :=
  (∀ (t : Ty) (rm : Rm) (sat ftz z : Bool) (n e : Int), t = .f64 ∨ t = .f32 ∨ t = .f16 ∨ t = .bf16 ∨ t = .e4m3 ∨ t = .e5m2 ∨ t = .e2m1 →
    (2 : ℚ) ^ (topExp t + 1) ≤ |(n : ℚ)| * 2 ^ e → roundDyadic t rm sat ftz z n e = ⟨overflowOf t rm sat (decide (n < 0)), excO ||| excX⟩)
  ∧ (∀ (d : Ty) (rm : Rm) (sat sg neg : Bool), d = .f64 ∨ d = .f32 ∨ d = .f16 ∨ d = .bf16 ∨ d = .e4m3 ∨ d = .e5m2 →
      fconvert d rm sat (.nan sg) = ⟨canonNan d, if sg then excV else 0⟩
      ∧ fconvert d rm true (.inf neg) = ⟨withSign d neg (maxFinite d), excO ||| excX⟩
      ∧ fconvert d rm false (.inf neg) = if d = .e4m3 then ⟨0x7f, excV⟩ else ⟨withSign d neg (infBits d), 0⟩)
  ∧ (∀ (rm : Rm) (sat sg neg : Bool), fconvert .e2m1 rm sat (.nan sg) = ⟨0, excV⟩
      ∧ fconvert .e2m1 rm sat (.inf neg) = ⟨if neg then 0xf else 7, excO ||| excX⟩)
  ∧ (∀ (d : Ty) (rm : Rm) (sat neg : Bool) (m : Nat) (e : Int), m ≠ 0 →
      fconvert d rm sat (.fin neg m e) = roundDyadic d rm sat false neg (if neg then -(m : Int) else m) e)
  ∧ (∀ (t sty : Ty) (rm : Rm) (a n : Nat) (neg : Bool) (m : Nat) (e : Int), sty = .f64 ∨ sty = .f32 ∨ sty = .f16 ∨ sty = .bf16 →
      fval sty a = .fin neg m e →
    ((t = .n32 ∧ n = 32) ∨ (t = .n64 ∧ n = 64) →
      ((2 : ℚ) ^ n ≤ ratOf (fval sty a) → floatToInt t sty rm a = ⟨2 ^ n - 1, excV⟩)
      ∧ (ratOf (fval sty a) ≤ -1 → floatToInt t sty rm a = ⟨0, excV⟩))
    ∧ ((t = .i32 ∧ n = 32) ∨ (t = .i64 ∧ n = 64) →
      ((2 : ℚ) ^ (n - 1) ≤ ratOf (fval sty a) → floatToInt t sty rm a = ⟨2 ^ (n - 1) - 1, excV⟩)
      ∧ (ratOf (fval sty a) ≤ -(2 : ℚ) ^ (n - 1) - 1 → floatToInt t sty rm a = ⟨2 ^ (n - 1), excV⟩)))
  ∧ (∀ (t sty : Ty) (rm : Rm) (a : Nat) (sg : Bool), fval sty a = .nan sg → floatToInt t sty rm a = ⟨0, excV⟩)
  ∧ fconvert .e2m1 .rne false (fval .f32 0x40a00000) = ⟨0x6, excX⟩ ∧ fconvert .e2m1 .rup false (fval .f32 0x40a00000) = ⟨0x7, excX⟩
  ∧ fconvert .e2m1 .rne false (fval .f32 0x3e800000) = ⟨0, excU ||| excX⟩
  ∧ fconvert .bf16 .rne false (fval .f32 0x3f808000) = ⟨0x3f80, excX⟩ ∧ fconvert .bf16 .rne false (fval .f32 0x3f818000) = ⟨0x3f82, excX⟩
  ∧ fconvert .bf16 .rtz false (fval .f32 0xbf80ffff) = ⟨0xbf80, excX⟩ ∧ fconvert .bf16 .rdn false (fval .f32 0xbf800001) = ⟨0xbf81, excX⟩
  ∧ roundDyadic .f32 .rdn false false false 0 0 = ⟨0, 0⟩

/-- frnd, fscale, ffrexp, fpack, funpack and fdot2 on values that the rules settle (11 R211, R212, R216, R218, R219). -/
def ScalingAndPacking : Prop :=
  (∀ (t : Ty) (rm : Rm) (b m : Nat) (neg : Bool) (e k : Int), t = .f64 ∨ t = .f32 ∨ t = .f16 ∨ t = .bf16 → b < 2 ^ (fmtOf t).bits →
    fval t b = .fin neg m e → ratOf (fval t b) = k → frndBits t rm b = ⟨b, 0⟩)
  ∧ frndBits .f32 .rne 0xbe99999a = ⟨0x80000000, 0⟩ ∧ frndBits .f32 .rup 0x3e99999a = ⟨0x3f800000, 0⟩
  ∧ (∀ (t : Ty) (rm : Rm) (a : Nat) (k : Int), (fval t a).isZero = true ∨ fval t a = .inf true ∨ fval t a = .inf false → fscaleBits t rm a k = ⟨a, 0⟩)
  ∧ fscaleBits .f32 .rne 0x3fc00000 3 = ⟨0x41400000, 0⟩ ∧ fscaleBits .f32 .rne 0x3f800000 2147483647 = ⟨0x7f800000, excO ||| excX⟩
  ∧ frexpBits .f32 0x41400000 = (⟨0x3f400000, 0⟩, 4) ∧ frexpBits .f32 0x00000001 = (⟨0x3f000000, 0⟩, 0xffffff6c)
  ∧ frexpBits .f32 0x80000000 = (⟨0x80000000, 0⟩, 0)
  ∧ (∀ (sty : Ty) (rm : Rm) (sat : Bool) (xs sc : Nat), (∀ m e, fval .f32 sc = .fin false m e → m = 0) →
      fpackBits .e4m3 sty rm sat xs sc = ⟨0x7f7f7f7f, excV⟩ ∧ fpackBits .e5m2 sty rm sat xs sc = ⟨0x7e7e7e7e, excV⟩
      ∧ fpackBits .e2m1 sty rm sat xs sc = ⟨0, excV⟩)
  ∧ fpackBits .e4m3 .bf16 .rne false 0x40803f00bf804000 0x40000000 = ⟨0x4028b038, 0⟩
  ∧ funpackBits .f32 .e4m3 0x7e40b838 0x3f800000 = ⟨joinElems 32 [0x3f800000, 0xbf800000, 0x40000000, 0x43e00000], 0⟩
  ∧ fdot2Bits .f16 .rne (0x3c00, 0x4000) (0x4200, 0x4400) 0x3f000000 = ⟨0x41380000, 0⟩
  ∧ fdot2Bits .f16 .rne (0x0000, 0x4000) (0x7c00, 0x4400) 0x3f000000 = ⟨0x7fc00000, excV⟩

/-- Where a plain fault stands: neither deferred nor of brk or trap (21 R397). -/
def plainFault (r : Record) : Prop := r.defd = false ∧ r.cause ≠ 0x180 ∧ ¬(0x1a0 ≤ r.cause ∧ r.cause ≤ 0x1bf)

end Sys2Proof.Claims
section
open Sys2Proof Sys2Proof.Machine Sys2Proof.Claims

/-! ## Encodings and decode faults -/

/-- Words that the spec writes beside its own examples, family by family, are the instructions it writes them for (08, 10 R196, 11 R205, 12,
13, 15, 17, 19, 20, 25 to 29). -/
def Obligations.WrittenWordsDecode : Prop :=
  decodeHeader 0x00000003#32 = some ⟨.int, 3, 0, 0⟩
  ∧ decodeHeader 0x00020031#32 = some ⟨.mem, 1, 0, 1⟩
  ∧ reads .int [0xf3808102#32] (.pxor .always 2 2 2)
  ∧ reads .int [0xf7e28002#32, 0x060100c0#32] (.iaddc .always .n32 (.v 10) (.v 0) (.v 2) 2)
  ∧ reads .int [0xf7e005a4#32, 0x030016c5#32] (.icmp .always .n32 .ge 0 .lane (.imm 4))
  ∧ reads .int [0xf7e00680#32, 0x0c000000#32] (.setix .always 0 (.v 13))
  ∧ reads .flt [0xf240c080#32] (.frcpF32 .always (.v 3) (.v 1))
  ∧ reads .flt [0xf7e10002#32, 0x00030100#32] (.fma .always .f64 .rne false false (.v 4) (.v 0) (.v 2) (.v 6))
  ∧ reads .xl [0xf0614271#32] (.shflXor .always (.v 5) (.v 4) (.imm 1))
  ∧ reads .xl [0xf7e18100#32, 0x07030120#32] (.red .always .max .f32 .rne (.v 6) (.v 2))
  ∧ reads .xl [0xf7e00000#32, 0x020000c0#32] (.bind .always .n32 0)
  ∧ reads .xl [0xf7e50c1a#32, 0x04001500#32] (.wmacF64 .always (.v 20) (.s 8) (.s 10))
  ∧ reads .mem [0xf7e18104#32, 0x050000c1#32] (.atomcas .always .n32 .wg .acq (.v 6) (.v 2) (.v 4))
  ∧ reads .mem [0xf7e80120#32, 0x030066c2#32] (.sti .always .n32 .wg .rel (.imm 0) (.v 2) (.imm 0))
  ∧ reads .mat [0xf7ea3061#32, 0x00149560#32] (.mma .always .bf16 (.v 40) 0 1 (.v 41))
  ∧ reads .mat [0xf7ea3163#32, 0x011515c9#32] (.mmasc .always .e2m1 1 1 (.v 40) 2 3 (.v 42))
  ∧ reads .ctl [0x01600014#32] (.loop 0 0 20)
  ∧ reads .ctl [0x101ffffa#32] (.bra (.on 1 false) (-6))
  ∧ reads .ctl [0xf1016c5a#32] (.dispatch .always (.v 5) 8 10)
  ∧ reads .sys [0xf1a0020a#32] (.covst .always (.v 4) (.v 10))
  ∧ reads .sys [0xf0400100#32] (.engPost .always ⟨0, 0⟩ (.v 2))

/-- An instruction that does not decode, and a clause whose header does not, park the whole issue group before any effect, with the cause
that 09 R180 gives; a privileged form in user mode is one, whatever else is wrong with it. A transfer that is not last in its clause faults after its
registers' block limit and after 0x041; which of several registers beyond the block a record names is the model's choice (log entry 134). -/
def Obligations.DecodeFaults : Prop :=
  (∀ (s : State) (c : Cur) (E : Entry) (h : Header) (f : DecodeFault), atSlot s c E → decodeHeader (E.words.headD 0) = some h → c.slot < h.cnt →
    decodeWords h.cls (s.groupPriv c.entry) ((E.words.take 16).drop (slotOffset E.words c.slot 1)) = .error f →
    step s = .next (((parkGroup s c { cause := f.cause }).afterSlot c h E.words (s.groupTeams c.entry)).clock (s.groupTeams c.entry)))
  ∧ (∀ (s : State) (c : Cur) (E : Entry), atSlot s c E → decodeHeader (E.words.headD 0) = none →
    step s = .next (((parkGroup s c { cause := 0x003 } id false).afterClause E.core E.slice (s.groupTeams c.entry)).clock (s.groupTeams c.entry)))
  ∧ (∀ (s : State) (c : Cur) (E : Entry) (h : Header) (i : Instr) (n : Nat), atSlot s c E → decodeHeader (E.words.headD 0) = some h →
    c.slot < h.cnt → decodeWords h.cls (s.groupPriv c.entry) ((E.words.take 16).drop (slotOffset E.words c.slot 1)) = .ok (i, n) →
    let goes := fun (x : Trap) (f : Record → Record) => step s
      = .next (((parkGroup s c x f).afterSlot c h E.words (s.groupTeams c.entry)).clock (s.groupTeams c.entry))
    (isTransfer i = true → c.slot + 1 ≠ h.cnt →
      ((∃ k ∈ (transferChecks i).2.1, beyondBlock s c k) → ∃ k ∈ (transferChecks i).2.1, beyondBlock s c k ∧ goes { cause := 0x04b, sub := k } id)
      ∧ ((∀ k ∈ (transferChecks i).2.1, ¬beyondBlock s c k) →
        (s.uniformCheck (transferChecks i).1 (transferChecks i).2.2 = none → goes { cause := 0x04f, sub := 1 } id)
        ∧ ∀ x lane, s.uniformCheck (transferChecks i).1 (transferChecks i).2.2 = some (x, lane) →
          x.cause = 0x041 ∧ goes x (fun r => { r with lane := lane })))
    ∧ (isTransfer i = false ∧ isFirst i = true ∧ c.slot ≠ 0 →
      step s = .next (((parkGroup s c { cause := 0x04f, sub := 2 }).afterSlot c h E.words (s.groupTeams c.entry)).clock (s.groupTeams c.entry))))
  ∧ (∀ (i : Instr) (c : Cls) (ws : List (BitVec 32)), i.wellFormed = true → encode i = some (c, ws) → ∀ tail,
    (privileged i = true → decodeWords c false (ws ++ tail) = .error .privileged)
    ∧ (privileged i = false → decodeWords c false (ws ++ tail) = decodeWords c true (ws ++ tail)))
  ∧ (∀ (w0 w1 : BitVec 32) (tail : List (BitVec 32)), w0.toNat / 2 ^ 21 % 64 = 0x3f → w1.toNat / 2 ^ 24 < 7 →
    decodeWords .sys false (w0 :: w1 :: tail) = .error .privileged)
  ∧ (∀ (c : Cls) (p : Bool) (w0 w1 : BitVec 32) (tail : List (BitVec 32)),
    (0x1e ≤ w0.toNat / 2 ^ 21 % 64 ∧ w0.toNat / 2 ^ 21 % 64 ≤ 0x2f) ∨ (0x35 ≤ w0.toNat / 2 ^ 21 % 64 ∧ w0.toNat / 2 ^ 21 % 64 ≤ 0x3e) →
    decodeWords c p (w0 :: w1 :: tail) = .error .unassigned)
  ∧ DecodeFault.privileged.cause = 0x007 ∧ DecodeFault.unassigned.cause = 0x001

/-! ## Reset -/

/-- What the spec gives the machine at reset (23 R414; 24 R426 to R430), with memory in its canonical form. That every core and die stands at its
record's first values, the raster MESH_MAP among them, is the model's choice (log entries 9 and 21). -/
def Obligations.ResetState : Prop :=
  State.reset.tick = 0 ∧ State.reset.stopTick = 0 ∧ State.reset.gated = false ∧ State.reset.funcReady = 0 ∧ State.reset.deviceHealth = 0
  ∧ State.reset.bring.powered = false ∧ State.reset.bring.regions = 0 ∧ State.reset.mem = [] ∧ Memory.wf State.reset.mem = true
  ∧ State.reset.launches = [] ∧ State.reset.teams = [] ∧ State.reset.queues = [] ∧ State.reset.spaces = [] ∧ State.reset.tlb = []
  ∧ State.reset.cur = none ∧ (∀ c, State.reset.core c = { id := c }) ∧ ∀ d, State.reset.die d = {}

/-! ## Seals and homes -/

/-- The seal of a sector is what the loop of 01 R15 computes, with the values that it names; a region that memory initialisation has
written holds all-zero sectors, whose seals are right. -/
def Obligations.SealCode : Prop :=
  (∀ bs : List Byte, BitVec.ofNat 16 (sealOf bs) = sealLoop bs ∧ sealOf bs < 2 ^ 16)
  ∧ sealOf (List.replicate 64 0) = 0x0000
  ∧ sealOf (List.replicate 63 0 ++ [0x01]) = 0x8bb7
  ∧ sealOf [0x31, 0x32, 0x33, 0x34, 0x35, 0x36, 0x37, 0x38, 0x39] = 0xd0db
  ∧ ∀ s : State, s.bring.stoland = true → s.bring.badDimm = none → s.bring.dimm ≤ 256 → s.bring.regions < s.allRegions → Memory.wf s.mem = true →
      ∃ t, exec .memoryRegionInit s = .next t ∧ ∀ sec, sec * 64 / 2 ^ 40 = s.bring.regions →
        sealOf (t.homeBytes (sec * 64) 64) = 0x0000 ∧ t.sealBad (sec * 64) = false

/-- A write at a home: the bytes are read back, no other byte changes, sectors that it fills have good seals, and it is refused exactly
where a sector that it fills in part has a bad one (01 R16). The sectors of the last line that it touches are valid and dirty in L2 afterwards; those of
an earlier one may have left it (03 R52; which line leaves a full set is free, log entry 115). -/
def Obligations.HomeWrites : Prop :=
  ∀ (s : State) (loc die : Nat) (bs : List Byte), Memory.wf s.mem = true → bs ≠ [] → loc + bs.length ≤ 2 ^ 52 →
    (s.writeHome loc bs die = none ↔ ∃ sec, touches loc bs.length sec ∧ ¬fills loc bs.length sec ∧ s.sealBad (sec * 64) = true)
    ∧ ∀ t, s.writeHome loc bs die = some t →
      Memory.wf t.mem = true ∧ (∀ k, k < bs.length → t.homeByte (loc + k) = bs.getD k 0) ∧ outside s t loc bs.length
      ∧ (∀ sec, fills loc bs.length sec → t.sealBad (sec * 64) = false)
      ∧ (∀ sec, ¬fills loc bs.length sec → t.sealBad (sec * 64) = s.sealBad (sec * 64))
      ∧ (∀ sec, touches loc bs.length sec → sec * 64 < 2 ^ 51 → sec / 2 = (loc + bs.length - 1) / 128 →
          sec ∈ t.l2Dirty ∧ (sec, s.homeSlice die (sec * 64)) ∈ t.l2Valid)
      ∧ t = { s with mem := t.mem, badSeals := t.badSeals, pinned := t.pinned, poison := t.poison, l2Dirty := t.l2Dirty, l2Home := t.l2Home
                     l2Valid := t.l2Valid, freeCount := t.freeCount }

/-- What a plain read of n bytes finds: each is the view's own byte, else what its workgroup carries, else a clean copy or the home; of the module
only clean copies change (07 R133, R136). -/
def plainRead (s t : State) (T : Team) (h : Holding) (loc n : Nat) (bs : List Byte) : Prop :=
  bs.length = n ∧ t.mem = s.mem ∧ t.remote = s.remote ∧ t.teams = s.teams ∧ otherViews s t T.core T.launch
  ∧ (t.view T.core T.launch).dirty = (s.view T.core T.launch).dirty ∧ (t.view T.core T.launch).uncached = (s.view T.core T.launch).uncached
  ∧ ∀ k, k < n →
      bs.getD k 0 = s.viewByte T.core T.launch T.wg h (loc + k)
      ∨ (h = .cached ∧ ByteMap.get? (s.view T.core T.launch).dirty (loc + k) = none
          ∧ ByteMap.get? (s.carried T.launch T.wg).bytes (loc + k) = none ∧ bs.getD k 0 = s.homeByte (loc + k))

/-- The place of the table entry that the walk of an address from a root reads n levels below the root, and the entry (02 R37). -/
def pteAt (s : State) (root va : Nat) : Nat → Nat
  | 0 => root + va / 2 ^ 48 % 512 * 8
  | n + 1 => leafFrame (s.homeNat (pteAt s root va n) 8) * 4096 + va / 2 ^ (39 - 9 * n) % 512 * 8
def pteOf (s : State) (root va n : Nat) : Nat := s.homeNat (pteAt s root va n) 8

/-- The reserved bits of an entry are zero; the entry is a pointer to a table (02 R38, R39). -/
def pteZero (e : Nat) : Prop := e / 2 ^ 8 % 16 = 0 ∧ e / 2 ^ 52 % 64 = 0 ∧ e / 2 ^ 60 % 8 = 0
def tablePtr (e : Nat) : Prop := e % 2 = 1 ∧ pteZero e ∧ e / 64 % 2 = 0 ∧ e / 2 ^ 51 % 2 = 0

/-- The checks that a leaf of a level fails (02 R39, R454). -/
def leafFaults (e l : Nat) : List Nat :=
  let sh := e / 2 ^ 58 % 4
  let cls := e / 2 ^ 48 % 16
  let fabric := decide (0xc ≤ cls ∧ cls ≤ 0xe)
  (if sh = 3 then [0x05] else []) ++ (if sh = 2 ∧ fabric = false then [0x06] else []) ++ (if sh = 0 ∧ fabric = true then [0x07] else [])
    ++ (if leafFrame e % 2 ^ (9 * l) ≠ 0 then [0x08] else []) ++ (if e / 4 % 2 = 1 ∧ 0x9 ≤ cls ∧ cls ≤ 0xb then [0x09] else [])

/-- An address is walked from a root down to n levels below it: nothing of it is cached, and the entries can be read (02 R37, R42). -/
def walked (s : State) (a : Agent) (root va n : Nat) : Prop :=
  s.rootOf a.asid = some root ∧ s.ctxLeaf a va = none ∧ s.tlbFind a va = none ∧ s.upper = [] ∧ n ≤ 4
  ∧ (∀ k, k ≤ n → pteAt s root va k < s.dramTop ∧ s.reach (pteAt s root va k) = .yes ∧ s.sealBad (pteAt s root va k) = false)
  ∧ ∀ k, k < n → tablePtr (pteOf s root va k)

/-- The first fault of a translation (02 R31, R32, R37 to R41, R454): a malformed address, a window, the walk, the leaf, the place. A missing entry
ends a walk before any other check of it, which of a leaf's checks is reported, and where a leaf of a group is used, are the model's
choice (log entry 111). -/
def TranslationFaults : Prop :=
  ∀ (s : State) (a : Agent) (va : BitVec 64) (dir : Dir) (noUser : Bool),
    let out := (s.translate a va dir noUser).2
    let bad := fun (k : Nat) => out = .trap { cause := 0x085, sub := k, addr := va }
    (2 ^ 57 ≤ va.toNat → bad 0x01)
    ∧ (∀ (core o : Nat), (va.toNat = 2 ^ 56 + o ∧ core = a.home ∧ o < 2 ^ 20) ∨ (va.toNat = 0x100000100000000 + core * 2 ^ 20 + o ∧ core < 256 ∧ o < 2 ^ 20) →
        let R := (s.launch a.launch).recd
        let inside := R.orow ≤ core / 32 ∧ core / 32 < R.orow + R.h ∧ R.ocol ≤ core % 32 ∧ core % 32 < R.ocol + R.wd
        (R.splog = 15 → out = .trap { cause := 0x086, sub := 0x02, addr := va })
        ∧ (R.splog ≠ 15 → ¬inside → out = .trap { cause := 0x086, sub := 0x01, addr := va })
        ∧ (R.splog ≠ 15 → inside → s.partition? a.launch core = none → out = .trap { cause := 0x086, sub := 0x02, addr := va })
        ∧ ∀ p, R.splog ≠ 15 → inside → s.partition? a.launch core = some p →
          (p.size ≤ o → out = .trap { cause := 0x086, sub := 0x01, addr := va })
          ∧ (o < p.size → dir = .fetch → out = .trap { cause := 0x082, addr := va })
          ∧ ∀ c, o < p.size → dir ≠ .fetch → p.core = some c → out = .ok (scratchPa c (p.base + o)) (scratchPa c (p.base + o)) 0)
    ∧ (2 ^ 56 ≤ va.toNat → va.toNat < 2 ^ 57 → ¬(va.toNat < 2 ^ 56 + 2 ^ 20) → ¬(0x100000100000000 ≤ va.toNat ∧ va.toNat < 0x100000110000000) →
        out = .trap { cause := 0x086, sub := 0x01, addr := va })
    ∧ (va.toNat < 2 ^ 56 → s.rootOf a.asid = none → s.ctxLeaf a va.toNat = none → s.tlbFind a va.toNat = none → out = .miss 0x080)
    ∧ ∀ (root n e l : Nat), va.toNat < 2 ^ 56 → walked s a root va.toNat n → e = pteOf s root va.toNat n → l = 4 - n →
      (e % 2 = 0 → out = .miss 0x080)
      ∧ (e % 2 = 1 → ¬pteZero e → bad (l * 256 + 0x02))
      ∧ (e % 2 = 1 → pteZero e → (e / 64 % 2 = 1 ∧ 3 ≤ l) ∨ (e / 64 % 2 = 0 ∧ l = 0) → bad (l * 256 + 0x03))
      ∧ (e % 2 = 1 → pteZero e → e / 64 % 2 = 0 → 0 < l → e / 2 ^ 51 % 2 = 1 → bad (l * 256 + 0x04))
      ∧ (e % 2 = 1 → pteZero e → e / 64 % 2 = 1 → l < 3 →
          (leafFaults e l ≠ [] → ∃ k ∈ leafFaults e l, bad (l * 256 + k))
          ∧ (leafFaults e l = [] → (l = 0 → e / 128 % 2 = 0) →
              let pa := leafFrame e * 4096 + va.toNat % 2 ^ (12 + 9 * l)
              (e / 4 % 2 = 0 → a.priv = false → noUser = false → out = .trap { cause := 0x083, addr := va })
              ∧ (e / 4 % 2 = 1 ∨ a.priv = true ∨ noUser = true →
                (dir = .fetch → e / 2 ^ 63 = 1 ∨ 8 ≤ placeClass pa → out = .trap { cause := 0x082, addr := va })
                ∧ (dir = .wr → e / 2 % 2 = 0 → out = .miss 0x081)
                ∧ ((dir = .fetch → e / 2 ^ 63 = 0 ∧ placeClass pa < 8) → (dir = .wr → e / 2 % 2 = 1) →
                  (∀ k, s.placeBad a pa = some k → out = .trap { cause := 0x085, sub := k, addr := va, paddr := BitVec.ofNat 64 pa })
                  ∧ (s.placeBad a pa = none → out = .ok (s.locOf (dieOf a.core) pa) pa (e / 2 ^ 58 % 4))
                  ∧ (pa < 2 ^ 51 → s.placeBad a pa = if s.dramTop ≤ pa then some 0x0b else none)
                  ∧ (placeClass pa = 0xf → s.placeBad a pa = some 0x0c)
                  ∧ (placeClass pa = 8 → s.placeBad a pa = if 36 ≤ pa / 2 ^ 39 % 64 ∨ pa / 2 ^ 20 % 2 ^ 19 ≠ 0 then some 0x0a else none)))))

/-- The faults of an access come from its translation first, and then from its alignment (02 R41; 14 R252). -/
def AlignmentFaults : Prop :=
  ∀ (s s1 : State) (T : Team) (r : ThreadRef) (a : Access), (∀ l sec w, a.kind ≠ .spill l sec w) →
    let at_ := s.translate (s.agent T) a.va (if a.kind.writes then .wr else .rd)
    (∀ x, at_ = (s1, .trap x) → s.access T r a = .trap s1 x)
    ∧ (∀ c, at_ = (s1, .miss c) → s.access T r a = .miss s1 c)
    ∧ ∀ loc pa sh, at_ = (s1, .ok loc pa sh) → ¬(9 ≤ classAt loc pa ∧ classAt loc pa ≤ 0xb) → a.va.toNat % a.n ≠ 0 →
      s.access T r a = .trap s1 { cause := 0x084, addr := a.va, paddr := BitVec.ofNat 64 pa }

/-- What an atomic writes for the old value (14 R259, R260). -/
def atomValue (k : AccKind) (n old x y : Nat) : Option Nat :=
  match k with
  | .atom op ty _ _ =>
    let less := if ty = .i32 ∨ ty = .i64 then signed (8 * n) old ≤ signed (8 * n) x else old ≤ x
    some (match op with
      | .add => (old + x) % 2 ^ (8 * n)
      | .and => old &&& x
      | .or => old ||| x
      | .xor => old ^^^ x
      | .swap => x
      | .min => if less then old else x
      | .max => if less then x else old)
  | .cas _ _ _ => some (if old = x then y else old)
  | .atomf .add ty _ _ => some (faddV ty .rne false (fval ty old) (fval ty x)).bits
  | .atomf .min ty _ _ => some (fminmax ty false old x).bits
  | .atomf .max ty _ _ => some (fminmax ty true old x).bits
  | _ => none

/-- The type of an atomic is one of those it takes, of n bytes (14 R259). -/
def atomTyped (k : AccKind) (n : Nat) : Prop :=
  match k with
  | .atom _ ty _ _ | .cas ty _ _ => ((ty = .i32 ∨ ty = .n32) ∧ n = 4) ∨ ((ty = .i64 ∨ ty = .n64) ∧ n = 8)
  | .atomf _ ty _ _ => (ty = .f32 ∧ n = 4) ∨ (ty = .f64 ∧ n = 8)
  | _ => True

/-- Immediate loads and stores and atomics, at their home (07 R140; 14 R258 to R261): an atomic brings the old value, and the home holds the new one;
a bad seal is a late fault of what returns a value, and a fault of an immediate store (01 R18; 21 R394). -/
def ImmediateAccesses : Prop :=
  ∀ (s : State) (T : Team) (a : Access) (loc pa sh : Nat), Memory.wf s.mem = true → a.n = 4 ∨ a.n = 8 → loc % 64 + a.n ≤ 64 → loc + a.n ≤ 2 ^ 52 →
    a.x < 2 ^ (8 * a.n) → a.y < 2 ^ (8 * a.n) → atomTyped a.kind a.n →
    (∀ o c, a.kind = .ldi o c →
      (s.sealBadRange loc a.n = false → ∃ t, s.perform T a loc pa sh = .ok t (s.homeNat loc a.n) none ∧ t.mem = s.mem ∧ t.remote = s.remote
        ∧ t.views = s.views)
      ∧ (s.sealBadRange loc a.n = true → s.perform T a loc pa sh = .ok s 0 (some (s.sealTrap T.core loc pa a.va))))
    ∧ (∀ o c, a.kind = .sti o c →
      (s.sealBadRange loc a.n = false → ∃ t, s.perform T a loc pa sh = .ok t 0 none ∧ t.homeNat loc a.n = a.x ∧ outside s t loc a.n
        ∧ t.views = s.views)
      ∧ (s.sealBadRange loc a.n = true → s.perform T a loc pa sh = .trap s (s.sealTrap T.core loc pa a.va)))
    ∧ (∀ v, atomValue a.kind a.n (s.homeNat loc a.n) a.x a.y = some v →
      (s.sealBadRange loc a.n = false → ∃ t, s.perform T a loc pa sh = .ok t (s.homeNat loc a.n) none ∧ t.homeNat loc a.n = v
        ∧ outside s t loc a.n ∧ t.views = s.views)
      ∧ (s.sealBadRange loc a.n = true → s.perform T a loc pa sh = .ok s 0 (some (s.sealTrap T.core loc pa a.va))))
    ∧ (s.sealTrap T.core loc pa a.va).cause = 0x090

/-- Plain stores of part of a sector are in their view at once and change no home, and where the stores of their instruction cover the sector no
old seal is checked (03 R56; 01 R16); plain loads and opmap return the view's own bytes, else what a workgroup carries, else a clean copy or
the home (07 R133, R136), and bytes that the view holds are returned whatever the home's seal; a scratchpad holds its bytes itself (03 R60). A
map whose checks fail takes 0x04C (15 R279). That the view's dirty bytes lie over carried bytes, and which of a clean copy and the home is read, are
the model's choice (log entries 23 and 13). Immediate accesses and atomics act at their home (07 R140; 14 R258 to R261), and the faults of an access come
in the order of 02 R41. -/
def Obligations.PlainLoadsAndStores : Prop :=
  (∀ (s : State) (T : Team) (a : Access) (loc pa sh : Nat), viewGood (s.view T.core T.launch) → 0 < a.n → a.n < 64 → loc % 64 + a.n ≤ 64 →
    (a.kind = .store → ∀ t x late, s.perform T a loc pa sh = .ok t x late →
      (s.holding loc pa sh ≠ .scratch →
        late = none ∧ t.mem = s.mem ∧ t.remote = s.remote ∧ otherViews s t T.core T.launch ∧ viewGood (t.view T.core T.launch)
        ∧ ∀ k, t.viewByte T.core T.launch T.wg (s.holding loc pa sh) k
            = if loc ≤ k ∧ k < loc + a.n then BitVec.ofNat 8 (a.x / 2 ^ (8 * (k - loc))) else s.viewByte T.core T.launch T.wg (s.holding loc pa sh) k)
      ∧ (s.holding loc pa sh = .scratch →
          late = none ∧ (if a.whole then s.freshSeal (sectorOf loc) else s).writeHome loc (leBytes a.n a.x) (dieOf T.core) = some t))
    ∧ (a.kind = .store → s.sealBad loc = false ∨ a.whole = true → ∃ t, s.perform T a loc pa sh = .ok t 0 none)
    ∧ (∀ sext, a.kind = .load sext → s.slotDamaged T.core T.launch T.wg loc = false →
      (s.sealBadRange loc a.n = false → ∃ t bs, plainRead s t T (s.holding loc pa sh) loc a.n bs
        ∧ s.perform T a loc pa sh = .ok t (if sext then unsigned 32 (signed (8 * a.n) (leNat bs)) else leNat bs) none)
      ∧ ((∀ k, k < a.n → s.holds T.core T.launch T.wg (s.holding loc pa sh) (loc + k) = true) → ∃ bs,
        plainRead s s T (s.holding loc pa sh) loc a.n bs
        ∧ s.perform T a loc pa sh = .ok s (if sext then unsigned 32 (signed (8 * a.n) (leNat bs)) else leNat bs) none)))
  ∧ (∀ (s : State) (T : Team) (a : Access) (loc pa sh m : Nat), viewGood (s.view T.core T.launch) → a.kind = .opmap m → a.n = 64 → loc % 64 = 0 →
      s.slotDamaged T.core T.launch T.wg loc = false →
      s.sealBadRange loc 64 = false →
    ∃ t bs, plainRead s t T (s.holding loc pa sh) loc 64 bs
      ∧ s.perform T a loc pa sh =
          if mapBad (BitVec.ofNat 512 (leNat bs)) then .trap t { cause := 0x04c, sub := 0x01 }
          else .ok (t.updTeam T.launch T.wg T.idx (fun U => { U with maps := setAt U.maps m (BitVec.ofNat 512 (leNat bs)) })) 0 none)
  ∧ ImmediateAccesses ∧ AlignmentFaults ∧ TranslationFaults

/-- Every step keeps memory in its canonical form: addresses rise, and no listed byte is what an unlisted one reads as. -/
def Obligations.StepKeepsMemoryForm : Prop :=
  ∀ s t : State, Memory.wf s.mem = true → step s = .next t → Memory.wf t.mem = true

/-! ## Instructions of the registers -/

/-- What a register may do to an instruction that names it. One beyond the block of a thread that issues parks every lane of the group before any
effect, with cause 0x04B and the number of a register that is beyond it (05 R93). One with an uncorrectable error parks the lane that reads it
as a source of an integer instruction, with the machine check 0x1E0 and its registers as they were (21 R400). -/
def Obligations.RegisterFaults : Prop :=
  (∀ (i : Instr) (regs : List Nat), i.wellFormed = true → namedRegs i = some regs → ∀ (s : State) (c : Cur), s.cur = some c →
    (∃ k ∈ regs, ∃ T ∈ s.teams, T.bsize ≤ k ∧ ∃ th ∈ T.threads, th.issuing c.entry = true) →
    ∃ k ∈ regs, (∃ T ∈ s.teams, T.bsize ≤ k ∧ ∃ th ∈ T.threads, th.issuing c.entry = true)
      ∧ exec i s = .next (parkGroup s c { cause := 0x04b, sub := k }))
  ∧ (∀ (i : Instr) (o : LaneOp) (s t : State) (c : Cur) (T : Team) (th : Thread) (q : Src × Nat) (k : Nat), i.wellFormed = true → intOp i = some o →
      s.cur = some c → (∀ U ∈ s.teams, (∃ x ∈ U.threads, x.issuing c.entry = true) → ∀ n ∈ o.named, n < U.bsize) →
      (∀ U ∈ s.teams, ∀ x ∈ U.executing c.entry o.g, ∀ y ∈ U.executing c.entry o.g, ∀ p ∈ o.uniform,
        readSrc (s.tickOf U) .int p.2 U x p.1 = readSrc (s.tickOf U) .int p.2 U y p.1) →
      (∀ U ∈ s.teams, ∀ x ∈ U.executing c.entry o.g, ∀ n, s.ixWaits U x n = false) →
      T ∈ s.teams → th ∈ T.executing c.entry o.g → T.blc.getLsbD 31 = false → q ∈ o.srcs → k ∈ srcCodes q.2 q.1 → k ∈ th.ecc ∨ k ∈ T.ecc →
      exec i s = .next t →
    ∃ U ∈ t.teams, U.launch = T.launch ∧ U.wg = T.wg ∧ U.idx = T.idx ∧ ∃ x ∈ U.threads, x.lane = th.lane ∧ x.v = th.v ∧ x.w = th.w ∧ x.p = th.p
      ∧ x.status = .parked ∧ ∃ r, x.record = some r ∧ r.cause = 0x1e0 ∧ r.mc = true ∧ r.clause = th.clause ∧ r.slot = c.slot)

/-- The frame of every instruction of the integer, floating, cross-lane and bound-limb families, completed, faulting or waiting: nothing of
the module changes but the teams and the model's counter of free values; of a team, only its s registers and its threads; of a thread that
issues, not its place among the clauses nor its control state, and nothing of one that does not (00 R9, R10). -/
def Obligations.RegisterInstructionsFrame : Prop :=
  ∀ i : Instr, i.wellFormed = true → registerOp i = true → ∀ (s t : State) (c : Cur), s.cur = some c → exec i s = .next t →
    t = { s with teams := t.teams, freeCount := t.freeCount } ∧ List.Forall₂ (teamKept c) s.teams t.teams

/-- Quotients, remainders and bit fields: what 10 R192, R197, R198 and R200 compute, with the rows of their table and example. -/
def Obligations.DivisionAndBitFields : Prop :=
  (∀ (ty : Ty) (x y : Nat), ty = .i32 ∨ ty = .i64 ∨ ty = .n32 ∨ ty = .n64 → x < 2 ^ ty.opBits → y < 2 ^ ty.opBits →
    (y = 0 → divRem ty x y = (2 ^ ty.opBits - 1, x))
    ∧ (ty = .n32 ∨ ty = .n64 → y ≠ 0 → (divRem ty x y).1 * y + (divRem ty x y).2 = x ∧ (divRem ty x y).2 < y)
    ∧ (ty = .i32 ∨ ty = .i64 → x = 2 ^ (ty.opBits - 1) → y = 2 ^ ty.opBits - 1 → divRem ty x y = (x, 0))
    ∧ (ty = .i32 ∨ ty = .i64 → y ≠ 0 → ¬(x = 2 ^ (ty.opBits - 1) ∧ y = 2 ^ ty.opBits - 1) →
        signed ty.opBits (divRem ty x y).1 * signed ty.opBits y + signed ty.opBits (divRem ty x y).2 = signed ty.opBits x
        ∧ (signed ty.opBits (divRem ty x y).2).natAbs < (signed ty.opBits y).natAbs
        ∧ (signed ty.opBits x < 0 → signed ty.opBits (divRem ty x y).2 ≤ 0) ∧ (0 ≤ signed ty.opBits x → 0 ≤ signed ty.opBits (divRem ty x y).2)))
  ∧ divRem .i32 7 0xfffffffe = (0xfffffffd, 1) ∧ divRem .i32 0xfffffff9 2 = (0xfffffffd, 0xffffffff)
  ∧ divRem .i32 0x80000000 0xffffffff = (0x80000000, 0) ∧ divRem .n32 0x80000000 0xffffffff = (0, 0x80000000)
  ∧ (∀ (w a b ctl i : Nat), w = 32 ∨ w = 64 → a < 2 ^ w → b < 2 ^ w → i < w →
    (w ≤ ctl % 256 ∨ ctl / 256 % 256 = 0 → ∀ sg, bfeOp sg w a ctl = 0 ∧ bfiOp w a b ctl = a)
    ∧ (ctl % 256 < w → ctl / 256 % 256 ≠ 0 →
      (bfeOp false w a ctl).testBit i = (decide (i < min (ctl / 256 % 256) (w - ctl % 256)) && a.testBit (ctl % 256 + i))
      ∧ (bfeOp true w a ctl).testBit i = a.testBit (ctl % 256 + min i (min (ctl / 256 % 256) (w - ctl % 256) - 1))
      ∧ (bfiOp w a b ctl).testBit i
          = if ctl % 256 ≤ i ∧ i < ctl % 256 + min (ctl / 256 % 256) (w - ctl % 256) then b.testBit (i - ctl % 256) else a.testBit i)
    ∧ (shfOp false w a b ctl).testBit i = (if ctl % w ≤ i then a.testBit (i - ctl % w) else b.testBit (w - ctl % w + i))
    ∧ (shfOp true w a b ctl).testBit i = (if i + ctl % w < w then b.testBit (i + ctl % w) else a.testBit (i + ctl % w - w)))
  ∧ bfeOp false 32 0x00000f80 0x0507 = 0x1f ∧ bfeOp true 32 0x00000f80 0x0507 = 0xffffffff

/-! ## Floating point -/

/-- Special values: exact zeros take the signs that 06 R116 gives, in every rounding mode; infinities and NaNs give what 06 R108 and 11 R208
and R210 say; minimum and maximum (06 R109); the special functions (11 R220 to R223). -/
def Obligations.FloatSpecialValues : Prop :=
  (∀ (t : Ty) (rm : Rm) (ftz a b : Bool) (x : FVal), t = .f64 ∨ t = .f32 ∨ t = .f16 ∨ t = .bf16 →
    (∀ (m n : Nat) (e f : Int), m ≠ 0 → (m : ℚ) * 2 ^ e = n * 2 ^ f →
        faddV t rm ftz (.fin a m e) (.fin (!a) n f) = ⟨withSign t (decide (rm = .rdn)) 0, 0⟩)
    ∧ (∀ (m k n : Nat) (e f h : Int), (m : ℚ) * 2 ^ e * (k * 2 ^ f) = n * 2 ^ h → n ≠ 0 →
        fmaV t rm ftz (.fin a m e) (.fin b k f) (.fin (a == b) n h) = ⟨withSign t (decide (rm = .rdn)) 0, 0⟩)
    ∧ (∀ e f, faddV t rm ftz (.fin a 0 e) (.fin b 0 f) = ⟨withSign t (if a = b then a else rm = .rdn) 0, 0⟩
        ∧ fmulV t rm ftz (.fin a 0 e) (.fin b 0 f) = ⟨withSign t (a != b) 0, 0⟩
        ∧ (isNum x → fmulV t rm ftz (.fin a 0 e) x = ⟨withSign t (a != x.neg) 0, 0⟩ ∧ fmulV t rm ftz x (.fin a 0 e) = ⟨withSign t (a != x.neg) 0, 0⟩)
        ∧ (∀ (m : Nat) (g : Bool) (h : Int), fmaV t rm ftz (.fin a 0 e) (.fin b m f) (.fin g 0 h) = ⟨withSign t (if (a != b) = g then g else rm = .rdn) 0, 0⟩)
        ∧ fmulV t rm ftz (.fin a 0 e) (.inf b) = ⟨canonNan t, excV⟩
        ∧ fdivV t rm ftz (.fin a 0 e) (.fin b 0 f) = ⟨canonNan t, excV⟩
        ∧ (isNum x → fdivV t rm ftz x (.fin b 0 f) = ⟨withSign t (x.neg != b) (infBits t), excZ⟩)
        ∧ fsqrtV t rm ftz (.fin a 0 e) = ⟨withSign t a 0, 0⟩)
    ∧ faddV t rm ftz (.inf a) (.inf !a) = ⟨canonNan t, excV⟩
    ∧ faddV t rm ftz (.inf a) (.inf a) = ⟨withSign t a (infBits t), 0⟩
    ∧ (∀ sig, x.isNan = false → faddV t rm ftz (.nan sig) x = ⟨canonNan t, if sig then excV else 0⟩
        ∧ fmulV t rm ftz x (.nan sig) = ⟨canonNan t, if sig then excV else 0⟩)
    ∧ fdivV t rm ftz (.inf a) (.inf b) = ⟨canonNan t, excV⟩
    ∧ (isNum x → fdivV t rm ftz x (.inf b) = ⟨withSign t (x.neg != b) 0, 0⟩)
    ∧ (isNum x → x.neg = true → fsqrtV t rm ftz x = ⟨canonNan t, excV⟩)
    ∧ fsqrtV t rm ftz (.inf true) = ⟨canonNan t, excV⟩ ∧ fsqrtV t rm ftz (.inf false) = ⟨infBits t, 0⟩)
  ∧ fval .f64 0x7ff0000000000000 = .inf false ∧ fval .f64 0xfff0000000000000 = .inf true ∧ fval .f64 0x7ff0000000000001 = .nan true
  ∧ fval .f64 0x7ff8000000000000 = .nan false ∧ fval .f32 0x7f800000 = .inf false ∧ fval .f32 0x7f800001 = .nan true
  ∧ fval .f32 0x7fc00000 = .nan false ∧ fval .f32 0x80000000 = .fin true 0 (-149)
  ∧ MinMax ∧ SpecialFunctions

/-- A value that a format holds is delivered unchanged and without an exception, in every rounding mode (06 R114, R120); e2m1 has no
negative zero (06 R110). A value beyond the largest finite one overflows as the table of 06 R115 says; conversions, scaling and packing give what
06 R120 and 11 R211, R212 and R216 to R219 say. -/
def Obligations.RepresentableValues : Prop :=
  (∀ (t : Ty) (rm : Rm) (sat : Bool) (b m : Nat) (neg : Bool) (e : Int),
    t = .f64 ∨ t = .f32 ∨ t = .f16 ∨ t = .bf16 ∨ t = .e4m3 ∨ t = .e5m2 ∨ t = .e2m1 → b < 2 ^ (fmtOf t).bits → ¬(t = .e2m1 ∧ b = 8) →
    fval t b = .fin neg m e → roundDyadic t rm sat false neg (if neg then -(m : Int) else m) e = ⟨b, 0⟩)
  ∧ Conversions ∧ ScalingAndPacking

/-! ## Exceptions and turns -/

/-- Taking an exception in the kernel's handler, and when a slice lets a parked thread do so (21 R395, R396): record words 0 to 7 are built
by the numbering of 21 R393, and no tick is among them. -/
def Obligations.HandlerEntry : Prop :=
  (∀ (th : Thread) (r : Record) (h : BitVec 64), th.record = some r →
    th.enterHandler h = { th with
      status := .handler
      frame := (th.enterHandler h).frame
      w := [BitVec.ofNat 32 (r.cause + 2 ^ 16 * r.sub),
            BitVec.ofNat 32 (r.slot + 2 ^ 4 * r.lane + 2 ^ 10 * r.team + 2 ^ 17 * r.mc.toNat + 2 ^ 18 * r.bound.toNat + 2 ^ 19 * r.grp.toNat
              + 2 ^ 20 * r.nl.toNat + 2 ^ 21 * r.nest.toNat + 2 ^ 22 * r.defd.toNat),
            BitVec.ofNat 32 (r.clause.toNat % 2 ^ 32), BitVec.ofNat 32 (r.clause.toNat / 2 ^ 32), r.gpc, BitVec.ofNat 32 r.gop.toNat,
            BitVec.ofNat 32 (r.addr.toNat % 2 ^ 32), BitVec.ofNat 32 (r.addr.toNat / 2 ^ 32)]
      clause := h, slot := 0, inside := false, next := none, hold := .none, entry := none, slotDone := false, oneShot := none }
    ∧ ∃ f, (th.enterHandler h).frame = some f ∧ f.w = th.w ∧ f.y0 = th.y0.val ∧ f.y1 = th.y1.val ∧ f.p = th.p
        ∧ f.depth = th.rstack.length + th.bc ∧ f.levels = th.loops.length ∧ f.clause = th.clause ∧ f.slot = th.slot ∧ f.inside = th.inside
        ∧ f.recd = r ∧ f.oneShot = th.oneShot)
  ∧ (∀ (th th' : Thread) (r : Record) (h k j : BitVec 64), th.record = some r → th'.record = some { r with tick := k, hit := j } →
    (th'.enterHandler h).w = (th.enterHandler h).w)
  ∧ (∀ (s : State) (core slice : Nat) (T : Team), T ∈ s.teams → T.core = core → T.slice = slice → T.blc.getLsbD 31 = false →
    (∀ th ∈ T.threads, ∀ r, th.record = some r → r.matrix = false) →
    ∃ T' ∈ (s.enterHandlers core slice).teams, T' = { T with threads := T.threads.map (fun th =>
      match th.record with
      | none => th
      | some r =>
        if th.status = .parked ∧ (s.launch T.launch).recd.handler ≠ 0 ∧ isHandlerClass r.cause = true ∧ r.mc = false ∧ r.nest = false ∧ r.nl = false
        then th.enterHandler (s.launch T.launch).recd.handler else th) })
  ∧ ∀ c, isHandlerClass c = true ↔ (0x040 ≤ c ∧ c ≤ 0x07f) ∨ (0x100 ≤ c ∧ c ≤ 0x13f) ∨ (0x140 ≤ c ∧ c ≤ 0x15f) ∨ (0x1c0 ≤ c ∧ c ≤ 0x1df)

/-- The return from the handler: what the frame restores, what it drops, what the handler left stays, and where the thread goes on (21
R397). That .skip of a fault before a clause has begun goes on at its second slot is the model's choice (log entry 85). A thread that
performed one deferred instruction alone goes on where it had parked. -/
def Obligations.HandlerReturn : Prop :=
  ∀ (th : Thread) (f : Frame) (retry : Bool), f.depth ≤ th.rstack.length + th.bc → f.levels ≤ th.loops.length →
    (th.leaveHandler f retry).w = f.w ∧ (th.leaveHandler f retry).y0.val = f.y0 ∧ (th.leaveHandler f retry).y1.val = f.y1
    ∧ (th.leaveHandler f retry).p = f.p ∧ (th.leaveHandler f retry).status = .running ∧ (th.leaveHandler f retry).frame = none
    ∧ (th.leaveHandler f retry).record = none
    ∧ (th.leaveHandler f retry).rstack.length + (th.leaveHandler f retry).bc = f.depth ∧ (th.leaveHandler f retry).rstack <:+ th.rstack
    ∧ (th.leaveHandler f retry).loops.length = f.levels ∧ (th.leaveHandler f retry).loops <:+ th.loops
    ∧ (th.leaveHandler f retry).v = th.v ∧ (th.leaveHandler f retry).gpc = th.gpc ∧ (th.leaveHandler f retry).gop = th.gop
    ∧ (th.leaveHandler f retry).mode = th.mode ∧ (th.leaveHandler f retry).ix = th.ix ∧ (th.leaveHandler f retry).lc = th.lc
    ∧ (plainFault f.recd → retry = true → (th.leaveHandler f retry).clause = f.clause ∧ (th.leaveHandler f retry).inside = f.inside
        ∧ (th.leaveHandler f retry).slot = f.slot ∧ (th.leaveHandler f retry).oneShot = f.oneShot)
    ∧ (plainFault f.recd → retry = false → f.oneShot = none → (th.leaveHandler f retry).clause = f.clause
        ∧ (th.leaveHandler f retry).inside = true ∧ (th.leaveHandler f retry).slot = f.slot + 1)
    ∧ (∀ p, plainFault f.recd → retry = false → f.oneShot = some p → (th.leaveHandler f retry).clause = p.1
        ∧ (th.leaveHandler f retry).slot = p.2.1 ∧ (th.leaveHandler f retry).inside = p.2.2 ∧ (th.leaveHandler f retry).oneShot = none)
    ∧ (f.recd.defd = false → ¬plainFault f.recd → (th.leaveHandler f retry).clause = f.clause ∧ (th.leaveHandler f retry).slot = f.slot + 1)
    ∧ (f.recd.defd = true → retry = false →
        (th.leaveHandler f retry).clause = f.clause ∧ (th.leaveHandler f retry).slot = f.slot ∧ (th.leaveHandler f retry).inside = f.inside
        ∧ (th.leaveHandler f retry).oneShot = none)
    ∧ (f.recd.defd = true → retry = true → f.recd.cause ≠ 0x182 → f.recd.matrix = false →
        (th.leaveHandler f retry).clause = f.recd.clause ∧ (th.leaveHandler f retry).slot = f.recd.slot
        ∧ (th.leaveHandler f retry).oneShot = some (f.clause, f.slot, f.inside))

/-- Which candidate issues: the one promoted longest; with none promoted, the one of least tag, then of least address, both unsigned, and
among equals the oldest (16 R302, step 2). Candidates stand in order of their allocation. -/
def Obligations.TurnChoice : Prop :=
  ∀ es : List Entry, (bestEntry es = none ↔ es = [])
    ∧ ∀ e, bestEntry es = some e → e ∈ es
      ∧ (∀ p, e.promo = some p → ∀ x ∈ es, ∀ q, x.promo = some q → p ≤ q)
      ∧ (e.promo = none → (∀ x ∈ es, x.promo = none
            ∧ (e.tag.toNat < x.tag.toNat ∨ (e.tag = x.tag ∧ e.addr.toNat ≤ x.addr.toNat)))
          ∧ ∃ pre post, es = pre ++ e :: post
            ∧ ∀ x ∈ pre, e.tag.toNat < x.tag.toNat ∨ (e.tag = x.tag ∧ e.addr.toNat < x.addr.toNat))

end
end

