-- ==== Sys2Proof/Laws/Memory.lean ====
section
/-!
SUPPORT. Laws/Memory.lean: the laws of memory: reading after writing, other addresses left alone, and the canonical form kept.
-/

namespace Sys2Proof.Machine

/-! ## Maps of bytes -/

theorem ByteMap.get?_put (m : ByteMap) (a k : Nat) (b : Byte) (lo : Nat) (h : ByteMap.risingFrom lo m = true) :
    ByteMap.get? (ByteMap.put m a b) k = if k = a then some b else ByteMap.get? m k := by
  induction m generalizing lo with
  | nil =>
    simp only [ByteMap.put, ByteMap.get?]
    split_ifs <;> first | rfl | omega
  | cons x m ih =>
    obtain ⟨i, v⟩ := x
    simp only [ByteMap.risingFrom, Bool.and_eq_true, decide_eq_true_eq] at h
    simp only [ByteMap.put]
    split_ifs with h1 h2 h3 h4 h5 <;> simp only [ByteMap.get?]
    · subst h2; simp
    · split_ifs <;> first | rfl | omega
    · subst h3; subst h4; simp
    · subst h3; split_ifs <;> first | rfl | omega
    · rw [ih (i + 1) h.2]; split_ifs <;> first | rfl | omega
    · rw [ih (i + 1) h.2]; split_ifs <;> rfl

theorem ByteMap.get?_below (m : ByteMap) (k lo : Nat) (h : ByteMap.risingFrom lo m = true) (hk : k < lo) : ByteMap.get? m k = none := by
  cases m with
  | nil => rfl
  | cons x m =>
    obtain ⟨i, v⟩ := x
    simp only [ByteMap.risingFrom, Bool.and_eq_true, decide_eq_true_eq] at h
    simp only [ByteMap.get?]
    rw [if_neg (by omega), if_pos (by omega)]

theorem ByteMap.get?_del (m : ByteMap) (a k : Nat) (lo : Nat) (h : ByteMap.risingFrom lo m = true) :
    ByteMap.get? (ByteMap.del m a) k = if k = a then none else ByteMap.get? m k := by
  induction m generalizing lo with
  | nil => simp [ByteMap.del, ByteMap.get?]
  | cons x m ih =>
    obtain ⟨i, v⟩ := x
    simp only [ByteMap.risingFrom, Bool.and_eq_true, decide_eq_true_eq] at h
    simp only [ByteMap.del]
    split_ifs with h1 h2 h3 h4 h5
    · subst h2; simp only [ByteMap.get?]; rw [if_neg (by omega), if_pos h1]
    · rfl
    · subst h3; subst h4; exact ByteMap.get?_below m _ _ h.2 (by omega)
    · subst h3; simp only [ByteMap.get?]
      rw [if_neg (by omega)]
      split_ifs with h5
      · exact ByteMap.get?_below m _ _ h.2 (by omega)
      · rfl
    · subst h5; simp only [ByteMap.get?]; rw [if_neg (by omega), if_neg (by omega), ih (i + 1) h.2, if_pos rfl]
    · simp only [ByteMap.get?]; rw [ih (i + 1) h.2, if_neg h5]

theorem ByteMap.rising_mono {lo lo' : Nat} {m : ByteMap} (h : ByteMap.risingFrom lo m = true) (hl : lo' ≤ lo) :
    ByteMap.risingFrom lo' m = true := by
  cases m with
  | nil => rfl
  | cons x m =>
    obtain ⟨i, v⟩ := x
    simp only [ByteMap.risingFrom, Bool.and_eq_true, decide_eq_true_eq] at h ⊢
    exact ⟨by omega, h.2⟩

theorem ByteMap.rising_put {lo : Nat} {m : ByteMap} (h : ByteMap.risingFrom lo m = true) {a : Nat} (ha : lo ≤ a) (b : Byte) :
    ByteMap.risingFrom lo (ByteMap.put m a b) = true := by
  induction m generalizing lo with
  | nil => simp [ByteMap.put, ByteMap.risingFrom, ha]
  | cons x m ih =>
    obtain ⟨i, v⟩ := x
    simp only [ByteMap.risingFrom, Bool.and_eq_true, decide_eq_true_eq] at h
    simp only [ByteMap.put]
    split_ifs with h1 h2
    · simp only [ByteMap.risingFrom, Bool.and_eq_true, decide_eq_true_eq]; exact ⟨ha, by omega, h.2⟩
    · subst h2; simp only [ByteMap.risingFrom, Bool.and_eq_true, decide_eq_true_eq]; exact ⟨ha, h.2⟩
    · simp only [ByteMap.risingFrom, Bool.and_eq_true, decide_eq_true_eq]; exact ⟨h.1, ih h.2 (by omega)⟩

theorem ByteMap.rising_del {lo : Nat} {m : ByteMap} (h : ByteMap.risingFrom lo m = true) (a : Nat) :
    ByteMap.risingFrom lo (ByteMap.del m a) = true := by
  induction m generalizing lo with
  | nil => rfl
  | cons x m ih =>
    obtain ⟨i, v⟩ := x
    simp only [ByteMap.risingFrom, Bool.and_eq_true, decide_eq_true_eq] at h
    simp only [ByteMap.del]
    split_ifs with h1 h2
    · simp only [ByteMap.risingFrom, Bool.and_eq_true, decide_eq_true_eq]; exact h
    · exact ByteMap.rising_mono h.2 (by omega)
    · simp only [ByteMap.risingFrom, Bool.and_eq_true, decide_eq_true_eq]; exact ⟨h.1, ih h.2⟩

theorem ByteMap.rising_filter {lo : Nat} {m : ByteMap} (h : ByteMap.risingFrom lo m = true) (p : Host.Cell → Bool) :
    ByteMap.risingFrom lo (m.filter p) = true := by
  induction m generalizing lo with
  | nil => rfl
  | cons x m ih =>
    obtain ⟨i, v⟩ := x
    simp only [ByteMap.risingFrom, Bool.and_eq_true, decide_eq_true_eq] at h
    by_cases hp : p (i, v) = true
    · rw [List.filter_cons_of_pos hp]
      simp only [ByteMap.risingFrom, Bool.and_eq_true, decide_eq_true_eq]
      exact ⟨h.1, ih h.2⟩
    · rw [List.filter_cons_of_neg hp]
      exact ByteMap.rising_mono (ih h.2) (by omega)

/-- What a written map lists: the byte written and bytes of the old one. -/
theorem ByteMap.mem_put {m : ByteMap} {a : Nat} {b : Byte} {x : Host.Cell} (h : x ∈ ByteMap.put m a b) : x = (a, b) ∨ x ∈ m := by
  induction m with
  | nil => simpa [ByteMap.put] using h
  | cons y m ih =>
    obtain ⟨i, v⟩ := y
    simp only [ByteMap.put] at h
    split_ifs at h with h1 h2
    · simpa using h
    · rcases List.mem_cons.mp h with h | h
      · exact .inl h
      · exact .inr (List.mem_cons_of_mem _ h)
    · rcases List.mem_cons.mp h with h | h
      · exact .inr (by rw [h]; exact List.mem_cons_self)
      · exact (ih h).imp_right (List.mem_cons_of_mem _)

theorem ByteMap.mem_del {m : ByteMap} {a : Nat} {x : Host.Cell} (h : x ∈ ByteMap.del m a) : x ∈ m := by
  induction m with
  | nil => exact h
  | cons y m ih =>
    obtain ⟨i, v⟩ := y
    simp only [ByteMap.del] at h
    split_ifs at h with h1 h2
    · exact h
    · exact List.mem_cons_of_mem _ h
    · rcases List.mem_cons.mp h with h | h
      · rw [h]; exact List.mem_cons_self
      · exact List.mem_cons_of_mem _ (ih h)

/-! ## Memory -/

theorem Memory.wf_rising {m : Memory} (h : Memory.wf m = true) : ByteMap.risingFrom 0 m = true := by
  simp only [Memory.wf, Bool.and_eq_true] at h; exact h.1

/-- A write leaves the canonical form. -/
theorem Memory.wf_write {m : Memory} (h : Memory.wf m = true) (a : Nat) (b : Byte) : Memory.wf (Memory.write m a b) = true := by
  simp only [Memory.wf, Bool.and_eq_true, List.all_eq_true] at h ⊢
  unfold Memory.write
  split_ifs with hb
  · exact ⟨ByteMap.rising_del h.1 a, fun x hx => h.2 x (ByteMap.mem_del hx)⟩
  · refine ⟨ByteMap.rising_put h.1 (Nat.zero_le _) b, fun x hx => ?_⟩
    rcases ByteMap.mem_put hx with rfl | hx
    · simpa using hb
    · exact h.2 x hx

/-- Unlisting bytes leaves the canonical form. -/
theorem Memory.wf_filter {m : Memory} (h : Memory.wf m = true) (p : Host.Cell → Bool) : Memory.wf (m.filter p) = true := by
  simp only [Memory.wf, Bool.and_eq_true, List.all_eq_true] at h ⊢
  exact ⟨ByteMap.rising_filter h.1 p, fun x hx => h.2 x (List.mem_of_mem_filter hx)⟩

/-- Reading after writing. -/
theorem Memory.read_write {m : Memory} (h : Memory.wf m = true) (a k : Nat) (b : Byte) :
    Memory.read (Memory.write m a b) k = if k = a then b else Memory.read m k := by
  unfold Memory.read Memory.write
  split_ifs with hb hk hk
  · rw [ByteMap.get?_del m a k 0 (Memory.wf_rising h), if_pos hk]; simpa using hb.symm
  · rw [ByteMap.get?_del m a k 0 (Memory.wf_rising h), if_neg hk]
  · rw [ByteMap.get?_put m a k b 0 (Memory.wf_rising h), if_pos hk]; rfl
  · rw [ByteMap.get?_put m a k b 0 (Memory.wf_rising h), if_neg hk]

theorem Memory.read_write_same {m : Memory} (h : Memory.wf m = true) (a : Nat) (b : Byte) :
    Memory.read (Memory.write m a b) a = b := by rw [Memory.read_write h, if_pos rfl]

theorem Memory.read_write_other {m : Memory} (h : Memory.wf m = true) {a k : Nat} (hk : k ≠ a) (b : Byte) :
    Memory.read (Memory.write m a b) k = Memory.read m k := by rw [Memory.read_write h, if_neg hk]

/-- Memory that lists nothing has the canonical form. -/
theorem State.reset_mem_wf : Memory.wf State.reset.mem = true := rfl

/-- Equal memories are equal data: two memories in the canonical form that read alike are the same list. -/
theorem Memory.ext_of_read {m n : Memory} (hm : Memory.wf m = true) (hn : Memory.wf n = true)
    (h : ∀ a, Memory.read m a = Memory.read n a) : m = n := by
  have key : ∀ (m n : ByteMap) (lo : Nat), ByteMap.risingFrom lo m = true → ByteMap.risingFrom lo n = true →
      (∀ x ∈ m, x.2 ≠ Memory.unlisted) → (∀ x ∈ n, x.2 ≠ Memory.unlisted) → (∀ a, Memory.read m a = Memory.read n a) → m = n := by
    intro m
    induction m with
    | nil =>
      intro n lo _ hn _ hz h
      cases n with
      | nil => rfl
      | cons y n =>
        have := h y.1
        simp [Memory.read, ByteMap.get?] at this
        exact absurd this.symm (hz y List.mem_cons_self)
    | cons x m ih =>
      intro n lo hm hn hz hz' h
      obtain ⟨i, v⟩ := x
      cases n with
      | nil =>
        have := h i
        simp [Memory.read, ByteMap.get?] at this
        exact absurd this (hz (i, v) List.mem_cons_self)
      | cons y n =>
        obtain ⟨j, u⟩ := y
        simp only [ByteMap.risingFrom, Bool.and_eq_true, decide_eq_true_eq] at hm hn
        have hij : i = j := by
          rcases Nat.lt_trichotomy i j with hlt | he | hgt
          · have := h i
            simp only [Memory.read, ByteMap.get?, if_true] at this
            rw [if_neg (by omega), if_pos hlt] at this
            exact absurd this (hz (i, v) List.mem_cons_self)
          · exact he
          · have := h j
            simp only [Memory.read, ByteMap.get?, if_true] at this
            rw [if_neg (by omega), if_pos hgt] at this
            exact absurd this.symm (hz' (j, u) List.mem_cons_self)
        subst hij
        have hv : v = u := by have := h i; simpa [Memory.read, ByteMap.get?] using this
        subst hv
        congr 1
        refine ih n (i + 1) hm.2 hn.2 (fun x hx => hz x (List.mem_cons_of_mem _ hx)) (fun x hx => hz' x (List.mem_cons_of_mem _ hx)) ?_
        intro a
        by_cases ha : a ≤ i
        · simp only [Memory.read, ByteMap.get?_below m a (i + 1) hm.2 (by omega), ByteMap.get?_below n a (i + 1) hn.2 (by omega)]
        · have := h a
          simp only [Memory.read, ByteMap.get?] at this
          rw [if_neg (by omega), if_neg (by omega), if_neg (by omega), if_neg (by omega)] at this
          exact this
  simp only [Memory.wf, Bool.and_eq_true, List.all_eq_true, bne_iff_ne, ne_eq] at hm hn
  exact key m n 0 hm.1 hn.1 hm.2 hn.2 h

end Sys2Proof.Machine
end

