-- ==== Sys2Proof/Laws/State.lean ====
section
/-!
SUPPORT. Laws/State.lean: what each update of the state leaves as it was, one lemma for each field and update, so that no
proof unfolds a record update; and the same for the updates of a team and of a thread.
-/

namespace Sys2Proof.Machine

/-! ### State.setCore -/

@[simp] theorem State.setCore_tick (s : State) (k : Core) : (s.setCore k).tick = s.tick := rfl
@[simp] theorem State.setCore_stopTick (s : State) (k : Core) : (s.setCore k).stopTick = s.stopTick := rfl
@[simp] theorem State.setCore_gated (s : State) (k : Core) : (s.setCore k).gated = s.gated := rfl
@[simp] theorem State.setCore_bring (s : State) (k : Core) : (s.setCore k).bring = s.bring := rfl
@[simp] theorem State.setCore_deviceHealth (s : State) (k : Core) : (s.setCore k).deviceHealth = s.deviceHealth := rfl
@[simp] theorem State.setCore_l2cfg (s : State) (k : Core) : (s.setCore k).l2cfg = s.l2cfg := rfl
@[simp] theorem State.setCore_fabricCaps (s : State) (k : Core) : (s.setCore k).fabricCaps = s.fabricCaps := rfl
@[simp] theorem State.setCore_budget (s : State) (k : Core) : (s.setCore k).budget = s.budget := rfl
@[simp] theorem State.setCore_mem (s : State) (k : Core) : (s.setCore k).mem = s.mem := rfl
@[simp] theorem State.setCore_remote (s : State) (k : Core) : (s.setCore k).remote = s.remote := rfl
@[simp] theorem State.setCore_dirLost (s : State) (k : Core) : (s.setCore k).dirLost = s.dirLost := rfl
@[simp] theorem State.setCore_shared (s : State) (k : Core) : (s.setCore k).shared = s.shared := rfl
@[simp] theorem State.setCore_badSeals (s : State) (k : Core) : (s.setCore k).badSeals = s.badSeals := rfl
@[simp] theorem State.setCore_l2Dirty (s : State) (k : Core) : (s.setCore k).l2Dirty = s.l2Dirty := rfl
@[simp] theorem State.setCore_l2Valid (s : State) (k : Core) : (s.setCore k).l2Valid = s.l2Valid := rfl
@[simp] theorem State.setCore_pinned (s : State) (k : Core) : (s.setCore k).pinned = s.pinned := rfl
@[simp] theorem State.setCore_l2Home (s : State) (k : Core) : (s.setCore k).l2Home = s.l2Home := rfl
@[simp] theorem State.setCore_poison (s : State) (k : Core) : (s.setCore k).poison = s.poison := rfl
@[simp] theorem State.setCore_links (s : State) (k : Core) : (s.setCore k).links = s.links := rfl
@[simp] theorem State.setCore_ports (s : State) (k : Core) : (s.setCore k).ports = s.ports := rfl
@[simp] theorem State.setCore_dies (s : State) (k : Core) : (s.setCore k).dies = s.dies := rfl
@[simp] theorem State.setCore_spaces (s : State) (k : Core) : (s.setCore k).spaces = s.spaces := rfl
@[simp] theorem State.setCore_tlb (s : State) (k : Core) : (s.setCore k).tlb = s.tlb := rfl
@[simp] theorem State.setCore_upper (s : State) (k : Core) : (s.setCore k).upper = s.upper := rfl
@[simp] theorem State.setCore_requests (s : State) (k : Core) : (s.setCore k).requests = s.requests := rfl
@[simp] theorem State.setCore_ctxMaps (s : State) (k : Core) : (s.setCore k).ctxMaps = s.ctxMaps := rfl
@[simp] theorem State.setCore_views (s : State) (k : Core) : (s.setCore k).views = s.views := rfl
@[simp] theorem State.setCore_carries (s : State) (k : Core) : (s.setCore k).carries = s.carries := rfl
@[simp] theorem State.setCore_nextCarry (s : State) (k : Core) : (s.setCore k).nextCarry = s.nextCarry := rfl
@[simp] theorem State.setCore_launches (s : State) (k : Core) : (s.setCore k).launches = s.launches := rfl
@[simp] theorem State.setCore_nextLaunch (s : State) (k : Core) : (s.setCore k).nextLaunch = s.nextLaunch := rfl
@[simp] theorem State.setCore_wgs (s : State) (k : Core) : (s.setCore k).wgs = s.wgs := rfl
@[simp] theorem State.setCore_parts (s : State) (k : Core) : (s.setCore k).parts = s.parts := rfl
@[simp] theorem State.setCore_teams (s : State) (k : Core) : (s.setCore k).teams = s.teams := rfl
@[simp] theorem State.setCore_nextBorn (s : State) (k : Core) : (s.setCore k).nextBorn = s.nextBorn := rfl
@[simp] theorem State.setCore_entries (s : State) (k : Core) : (s.setCore k).entries = s.entries := rfl
@[simp] theorem State.setCore_nextEntry (s : State) (k : Core) : (s.setCore k).nextEntry = s.nextEntry := rfl
@[simp] theorem State.setCore_nextPromo (s : State) (k : Core) : (s.setCore k).nextPromo = s.nextPromo := rfl
@[simp] theorem State.setCore_overflow (s : State) (k : Core) : (s.setCore k).overflow = s.overflow := rfl
@[simp] theorem State.setCore_cur (s : State) (k : Core) : (s.setCore k).cur = s.cur := rfl
@[simp] theorem State.setCore_inflight (s : State) (k : Core) : (s.setCore k).inflight = s.inflight := rfl
@[simp] theorem State.setCore_snaps (s : State) (k : Core) : (s.setCore k).snaps = s.snaps := rfl
@[simp] theorem State.setCore_queues (s : State) (k : Core) : (s.setCore k).queues = s.queues := rfl
@[simp] theorem State.setCore_sqs (s : State) (k : Core) : (s.setCore k).sqs = s.sqs := rfl
@[simp] theorem State.setCore_nextSq (s : State) (k : Core) : (s.setCore k).nextSq = s.nextSq := rfl
@[simp] theorem State.setCore_mailboxes (s : State) (k : Core) : (s.setCore k).mailboxes = s.mailboxes := rfl
@[simp] theorem State.setCore_staging (s : State) (k : Core) : (s.setCore k).staging = s.staging := rfl
@[simp] theorem State.setCore_msix (s : State) (k : Core) : (s.setCore k).msix = s.msix := rfl
@[simp] theorem State.setCore_notices (s : State) (k : Core) : (s.setCore k).notices = s.notices := rfl
@[simp] theorem State.setCore_batches (s : State) (k : Core) : (s.setCore k).batches = s.batches := rfl
@[simp] theorem State.setCore_wpLog (s : State) (k : Core) : (s.setCore k).wpLog = s.wpLog := rfl
@[simp] theorem State.setCore_nlRecords (s : State) (k : Core) : (s.setCore k).nlRecords = s.nlRecords := rfl
@[simp] theorem State.setCore_nlStopped (s : State) (k : Core) : (s.setCore k).nlStopped = s.nlStopped := rfl
@[simp] theorem State.setCore_answer (s : State) (k : Core) : (s.setCore k).answer = s.answer := rfl
@[simp] theorem State.setCore_agenda (s : State) (k : Core) : (s.setCore k).agenda = s.agenda := rfl
@[simp] theorem State.setCore_env (s : State) (k : Core) : (s.setCore k).env = s.env := rfl
@[simp] theorem State.setCore_images (s : State) (k : Core) : (s.setCore k).images = s.images := rfl
@[simp] theorem State.setCore_unordered (s : State) (k : Core) : (s.setCore k).unordered = s.unordered := rfl
@[simp] theorem State.setCore_freeCount (s : State) (k : Core) : (s.setCore k).freeCount = s.freeCount := rfl

/-! ### State.setDie -/

@[simp] theorem State.setDie_tick (s : State) (d : Nat) (k : Die) : (s.setDie d k).tick = s.tick := rfl
@[simp] theorem State.setDie_stopTick (s : State) (d : Nat) (k : Die) : (s.setDie d k).stopTick = s.stopTick := rfl
@[simp] theorem State.setDie_gated (s : State) (d : Nat) (k : Die) : (s.setDie d k).gated = s.gated := rfl
@[simp] theorem State.setDie_bring (s : State) (d : Nat) (k : Die) : (s.setDie d k).bring = s.bring := rfl
@[simp] theorem State.setDie_deviceHealth (s : State) (d : Nat) (k : Die) : (s.setDie d k).deviceHealth = s.deviceHealth := rfl
@[simp] theorem State.setDie_l2cfg (s : State) (d : Nat) (k : Die) : (s.setDie d k).l2cfg = s.l2cfg := rfl
@[simp] theorem State.setDie_fabricCaps (s : State) (d : Nat) (k : Die) : (s.setDie d k).fabricCaps = s.fabricCaps := rfl
@[simp] theorem State.setDie_budget (s : State) (d : Nat) (k : Die) : (s.setDie d k).budget = s.budget := rfl
@[simp] theorem State.setDie_mem (s : State) (d : Nat) (k : Die) : (s.setDie d k).mem = s.mem := rfl
@[simp] theorem State.setDie_remote (s : State) (d : Nat) (k : Die) : (s.setDie d k).remote = s.remote := rfl
@[simp] theorem State.setDie_dirLost (s : State) (d : Nat) (k : Die) : (s.setDie d k).dirLost = s.dirLost := rfl
@[simp] theorem State.setDie_shared (s : State) (d : Nat) (k : Die) : (s.setDie d k).shared = s.shared := rfl
@[simp] theorem State.setDie_badSeals (s : State) (d : Nat) (k : Die) : (s.setDie d k).badSeals = s.badSeals := rfl
@[simp] theorem State.setDie_l2Dirty (s : State) (d : Nat) (k : Die) : (s.setDie d k).l2Dirty = s.l2Dirty := rfl
@[simp] theorem State.setDie_l2Valid (s : State) (d : Nat) (k : Die) : (s.setDie d k).l2Valid = s.l2Valid := rfl
@[simp] theorem State.setDie_pinned (s : State) (d : Nat) (k : Die) : (s.setDie d k).pinned = s.pinned := rfl
@[simp] theorem State.setDie_l2Home (s : State) (d : Nat) (k : Die) : (s.setDie d k).l2Home = s.l2Home := rfl
@[simp] theorem State.setDie_poison (s : State) (d : Nat) (k : Die) : (s.setDie d k).poison = s.poison := rfl
@[simp] theorem State.setDie_links (s : State) (d : Nat) (k : Die) : (s.setDie d k).links = s.links := rfl
@[simp] theorem State.setDie_ports (s : State) (d : Nat) (k : Die) : (s.setDie d k).ports = s.ports := rfl
@[simp] theorem State.setDie_cores (s : State) (d : Nat) (k : Die) : (s.setDie d k).cores = s.cores := rfl
@[simp] theorem State.setDie_spaces (s : State) (d : Nat) (k : Die) : (s.setDie d k).spaces = s.spaces := rfl
@[simp] theorem State.setDie_tlb (s : State) (d : Nat) (k : Die) : (s.setDie d k).tlb = s.tlb := rfl
@[simp] theorem State.setDie_upper (s : State) (d : Nat) (k : Die) : (s.setDie d k).upper = s.upper := rfl
@[simp] theorem State.setDie_requests (s : State) (d : Nat) (k : Die) : (s.setDie d k).requests = s.requests := rfl
@[simp] theorem State.setDie_ctxMaps (s : State) (d : Nat) (k : Die) : (s.setDie d k).ctxMaps = s.ctxMaps := rfl
@[simp] theorem State.setDie_views (s : State) (d : Nat) (k : Die) : (s.setDie d k).views = s.views := rfl
@[simp] theorem State.setDie_carries (s : State) (d : Nat) (k : Die) : (s.setDie d k).carries = s.carries := rfl
@[simp] theorem State.setDie_nextCarry (s : State) (d : Nat) (k : Die) : (s.setDie d k).nextCarry = s.nextCarry := rfl
@[simp] theorem State.setDie_launches (s : State) (d : Nat) (k : Die) : (s.setDie d k).launches = s.launches := rfl
@[simp] theorem State.setDie_nextLaunch (s : State) (d : Nat) (k : Die) : (s.setDie d k).nextLaunch = s.nextLaunch := rfl
@[simp] theorem State.setDie_wgs (s : State) (d : Nat) (k : Die) : (s.setDie d k).wgs = s.wgs := rfl
@[simp] theorem State.setDie_parts (s : State) (d : Nat) (k : Die) : (s.setDie d k).parts = s.parts := rfl
@[simp] theorem State.setDie_teams (s : State) (d : Nat) (k : Die) : (s.setDie d k).teams = s.teams := rfl
@[simp] theorem State.setDie_nextBorn (s : State) (d : Nat) (k : Die) : (s.setDie d k).nextBorn = s.nextBorn := rfl
@[simp] theorem State.setDie_entries (s : State) (d : Nat) (k : Die) : (s.setDie d k).entries = s.entries := rfl
@[simp] theorem State.setDie_nextEntry (s : State) (d : Nat) (k : Die) : (s.setDie d k).nextEntry = s.nextEntry := rfl
@[simp] theorem State.setDie_nextPromo (s : State) (d : Nat) (k : Die) : (s.setDie d k).nextPromo = s.nextPromo := rfl
@[simp] theorem State.setDie_overflow (s : State) (d : Nat) (k : Die) : (s.setDie d k).overflow = s.overflow := rfl
@[simp] theorem State.setDie_cur (s : State) (d : Nat) (k : Die) : (s.setDie d k).cur = s.cur := rfl
@[simp] theorem State.setDie_inflight (s : State) (d : Nat) (k : Die) : (s.setDie d k).inflight = s.inflight := rfl
@[simp] theorem State.setDie_snaps (s : State) (d : Nat) (k : Die) : (s.setDie d k).snaps = s.snaps := rfl
@[simp] theorem State.setDie_queues (s : State) (d : Nat) (k : Die) : (s.setDie d k).queues = s.queues := rfl
@[simp] theorem State.setDie_sqs (s : State) (d : Nat) (k : Die) : (s.setDie d k).sqs = s.sqs := rfl
@[simp] theorem State.setDie_nextSq (s : State) (d : Nat) (k : Die) : (s.setDie d k).nextSq = s.nextSq := rfl
@[simp] theorem State.setDie_mailboxes (s : State) (d : Nat) (k : Die) : (s.setDie d k).mailboxes = s.mailboxes := rfl
@[simp] theorem State.setDie_staging (s : State) (d : Nat) (k : Die) : (s.setDie d k).staging = s.staging := rfl
@[simp] theorem State.setDie_msix (s : State) (d : Nat) (k : Die) : (s.setDie d k).msix = s.msix := rfl
@[simp] theorem State.setDie_notices (s : State) (d : Nat) (k : Die) : (s.setDie d k).notices = s.notices := rfl
@[simp] theorem State.setDie_batches (s : State) (d : Nat) (k : Die) : (s.setDie d k).batches = s.batches := rfl
@[simp] theorem State.setDie_wpLog (s : State) (d : Nat) (k : Die) : (s.setDie d k).wpLog = s.wpLog := rfl
@[simp] theorem State.setDie_nlRecords (s : State) (d : Nat) (k : Die) : (s.setDie d k).nlRecords = s.nlRecords := rfl
@[simp] theorem State.setDie_nlStopped (s : State) (d : Nat) (k : Die) : (s.setDie d k).nlStopped = s.nlStopped := rfl
@[simp] theorem State.setDie_answer (s : State) (d : Nat) (k : Die) : (s.setDie d k).answer = s.answer := rfl
@[simp] theorem State.setDie_agenda (s : State) (d : Nat) (k : Die) : (s.setDie d k).agenda = s.agenda := rfl
@[simp] theorem State.setDie_env (s : State) (d : Nat) (k : Die) : (s.setDie d k).env = s.env := rfl
@[simp] theorem State.setDie_images (s : State) (d : Nat) (k : Die) : (s.setDie d k).images = s.images := rfl
@[simp] theorem State.setDie_unordered (s : State) (d : Nat) (k : Die) : (s.setDie d k).unordered = s.unordered := rfl
@[simp] theorem State.setDie_freeCount (s : State) (d : Nat) (k : Die) : (s.setDie d k).freeCount = s.freeCount := rfl

/-! ### State.setLaunch -/

@[simp] theorem State.setLaunch_tick (s : State) (k : Launch) : (s.setLaunch k).tick = s.tick := rfl
@[simp] theorem State.setLaunch_stopTick (s : State) (k : Launch) : (s.setLaunch k).stopTick = s.stopTick := rfl
@[simp] theorem State.setLaunch_gated (s : State) (k : Launch) : (s.setLaunch k).gated = s.gated := rfl
@[simp] theorem State.setLaunch_bring (s : State) (k : Launch) : (s.setLaunch k).bring = s.bring := rfl
@[simp] theorem State.setLaunch_deviceHealth (s : State) (k : Launch) : (s.setLaunch k).deviceHealth = s.deviceHealth := rfl
@[simp] theorem State.setLaunch_l2cfg (s : State) (k : Launch) : (s.setLaunch k).l2cfg = s.l2cfg := rfl
@[simp] theorem State.setLaunch_fabricCaps (s : State) (k : Launch) : (s.setLaunch k).fabricCaps = s.fabricCaps := rfl
@[simp] theorem State.setLaunch_budget (s : State) (k : Launch) : (s.setLaunch k).budget = s.budget := rfl
@[simp] theorem State.setLaunch_mem (s : State) (k : Launch) : (s.setLaunch k).mem = s.mem := rfl
@[simp] theorem State.setLaunch_remote (s : State) (k : Launch) : (s.setLaunch k).remote = s.remote := rfl
@[simp] theorem State.setLaunch_dirLost (s : State) (k : Launch) : (s.setLaunch k).dirLost = s.dirLost := rfl
@[simp] theorem State.setLaunch_shared (s : State) (k : Launch) : (s.setLaunch k).shared = s.shared := rfl
@[simp] theorem State.setLaunch_badSeals (s : State) (k : Launch) : (s.setLaunch k).badSeals = s.badSeals := rfl
@[simp] theorem State.setLaunch_l2Dirty (s : State) (k : Launch) : (s.setLaunch k).l2Dirty = s.l2Dirty := rfl
@[simp] theorem State.setLaunch_l2Valid (s : State) (k : Launch) : (s.setLaunch k).l2Valid = s.l2Valid := rfl
@[simp] theorem State.setLaunch_pinned (s : State) (k : Launch) : (s.setLaunch k).pinned = s.pinned := rfl
@[simp] theorem State.setLaunch_l2Home (s : State) (k : Launch) : (s.setLaunch k).l2Home = s.l2Home := rfl
@[simp] theorem State.setLaunch_poison (s : State) (k : Launch) : (s.setLaunch k).poison = s.poison := rfl
@[simp] theorem State.setLaunch_links (s : State) (k : Launch) : (s.setLaunch k).links = s.links := rfl
@[simp] theorem State.setLaunch_ports (s : State) (k : Launch) : (s.setLaunch k).ports = s.ports := rfl
@[simp] theorem State.setLaunch_dies (s : State) (k : Launch) : (s.setLaunch k).dies = s.dies := rfl
@[simp] theorem State.setLaunch_cores (s : State) (k : Launch) : (s.setLaunch k).cores = s.cores := rfl
@[simp] theorem State.setLaunch_spaces (s : State) (k : Launch) : (s.setLaunch k).spaces = s.spaces := rfl
@[simp] theorem State.setLaunch_tlb (s : State) (k : Launch) : (s.setLaunch k).tlb = s.tlb := rfl
@[simp] theorem State.setLaunch_upper (s : State) (k : Launch) : (s.setLaunch k).upper = s.upper := rfl
@[simp] theorem State.setLaunch_requests (s : State) (k : Launch) : (s.setLaunch k).requests = s.requests := rfl
@[simp] theorem State.setLaunch_ctxMaps (s : State) (k : Launch) : (s.setLaunch k).ctxMaps = s.ctxMaps := rfl
@[simp] theorem State.setLaunch_views (s : State) (k : Launch) : (s.setLaunch k).views = s.views := rfl
@[simp] theorem State.setLaunch_carries (s : State) (k : Launch) : (s.setLaunch k).carries = s.carries := rfl
@[simp] theorem State.setLaunch_nextCarry (s : State) (k : Launch) : (s.setLaunch k).nextCarry = s.nextCarry := rfl
@[simp] theorem State.setLaunch_nextLaunch (s : State) (k : Launch) : (s.setLaunch k).nextLaunch = s.nextLaunch := rfl
@[simp] theorem State.setLaunch_wgs (s : State) (k : Launch) : (s.setLaunch k).wgs = s.wgs := rfl
@[simp] theorem State.setLaunch_parts (s : State) (k : Launch) : (s.setLaunch k).parts = s.parts := rfl
@[simp] theorem State.setLaunch_teams (s : State) (k : Launch) : (s.setLaunch k).teams = s.teams := rfl
@[simp] theorem State.setLaunch_nextBorn (s : State) (k : Launch) : (s.setLaunch k).nextBorn = s.nextBorn := rfl
@[simp] theorem State.setLaunch_entries (s : State) (k : Launch) : (s.setLaunch k).entries = s.entries := rfl
@[simp] theorem State.setLaunch_nextEntry (s : State) (k : Launch) : (s.setLaunch k).nextEntry = s.nextEntry := rfl
@[simp] theorem State.setLaunch_nextPromo (s : State) (k : Launch) : (s.setLaunch k).nextPromo = s.nextPromo := rfl
@[simp] theorem State.setLaunch_overflow (s : State) (k : Launch) : (s.setLaunch k).overflow = s.overflow := rfl
@[simp] theorem State.setLaunch_cur (s : State) (k : Launch) : (s.setLaunch k).cur = s.cur := rfl
@[simp] theorem State.setLaunch_inflight (s : State) (k : Launch) : (s.setLaunch k).inflight = s.inflight := rfl
@[simp] theorem State.setLaunch_snaps (s : State) (k : Launch) : (s.setLaunch k).snaps = s.snaps := rfl
@[simp] theorem State.setLaunch_queues (s : State) (k : Launch) : (s.setLaunch k).queues = s.queues := rfl
@[simp] theorem State.setLaunch_sqs (s : State) (k : Launch) : (s.setLaunch k).sqs = s.sqs := rfl
@[simp] theorem State.setLaunch_nextSq (s : State) (k : Launch) : (s.setLaunch k).nextSq = s.nextSq := rfl
@[simp] theorem State.setLaunch_mailboxes (s : State) (k : Launch) : (s.setLaunch k).mailboxes = s.mailboxes := rfl
@[simp] theorem State.setLaunch_staging (s : State) (k : Launch) : (s.setLaunch k).staging = s.staging := rfl
@[simp] theorem State.setLaunch_msix (s : State) (k : Launch) : (s.setLaunch k).msix = s.msix := rfl
@[simp] theorem State.setLaunch_notices (s : State) (k : Launch) : (s.setLaunch k).notices = s.notices := rfl
@[simp] theorem State.setLaunch_batches (s : State) (k : Launch) : (s.setLaunch k).batches = s.batches := rfl
@[simp] theorem State.setLaunch_wpLog (s : State) (k : Launch) : (s.setLaunch k).wpLog = s.wpLog := rfl
@[simp] theorem State.setLaunch_nlRecords (s : State) (k : Launch) : (s.setLaunch k).nlRecords = s.nlRecords := rfl
@[simp] theorem State.setLaunch_nlStopped (s : State) (k : Launch) : (s.setLaunch k).nlStopped = s.nlStopped := rfl
@[simp] theorem State.setLaunch_answer (s : State) (k : Launch) : (s.setLaunch k).answer = s.answer := rfl
@[simp] theorem State.setLaunch_agenda (s : State) (k : Launch) : (s.setLaunch k).agenda = s.agenda := rfl
@[simp] theorem State.setLaunch_env (s : State) (k : Launch) : (s.setLaunch k).env = s.env := rfl
@[simp] theorem State.setLaunch_images (s : State) (k : Launch) : (s.setLaunch k).images = s.images := rfl
@[simp] theorem State.setLaunch_unordered (s : State) (k : Launch) : (s.setLaunch k).unordered = s.unordered := rfl
@[simp] theorem State.setLaunch_freeCount (s : State) (k : Launch) : (s.setLaunch k).freeCount = s.freeCount := rfl

/-! ### State.setWg -/

@[simp] theorem State.setWg_tick (s : State) (k : Wg) : (s.setWg k).tick = s.tick := rfl
@[simp] theorem State.setWg_stopTick (s : State) (k : Wg) : (s.setWg k).stopTick = s.stopTick := rfl
@[simp] theorem State.setWg_gated (s : State) (k : Wg) : (s.setWg k).gated = s.gated := rfl
@[simp] theorem State.setWg_bring (s : State) (k : Wg) : (s.setWg k).bring = s.bring := rfl
@[simp] theorem State.setWg_deviceHealth (s : State) (k : Wg) : (s.setWg k).deviceHealth = s.deviceHealth := rfl
@[simp] theorem State.setWg_l2cfg (s : State) (k : Wg) : (s.setWg k).l2cfg = s.l2cfg := rfl
@[simp] theorem State.setWg_fabricCaps (s : State) (k : Wg) : (s.setWg k).fabricCaps = s.fabricCaps := rfl
@[simp] theorem State.setWg_budget (s : State) (k : Wg) : (s.setWg k).budget = s.budget := rfl
@[simp] theorem State.setWg_mem (s : State) (k : Wg) : (s.setWg k).mem = s.mem := rfl
@[simp] theorem State.setWg_remote (s : State) (k : Wg) : (s.setWg k).remote = s.remote := rfl
@[simp] theorem State.setWg_dirLost (s : State) (k : Wg) : (s.setWg k).dirLost = s.dirLost := rfl
@[simp] theorem State.setWg_shared (s : State) (k : Wg) : (s.setWg k).shared = s.shared := rfl
@[simp] theorem State.setWg_badSeals (s : State) (k : Wg) : (s.setWg k).badSeals = s.badSeals := rfl
@[simp] theorem State.setWg_l2Dirty (s : State) (k : Wg) : (s.setWg k).l2Dirty = s.l2Dirty := rfl
@[simp] theorem State.setWg_l2Valid (s : State) (k : Wg) : (s.setWg k).l2Valid = s.l2Valid := rfl
@[simp] theorem State.setWg_pinned (s : State) (k : Wg) : (s.setWg k).pinned = s.pinned := rfl
@[simp] theorem State.setWg_l2Home (s : State) (k : Wg) : (s.setWg k).l2Home = s.l2Home := rfl
@[simp] theorem State.setWg_poison (s : State) (k : Wg) : (s.setWg k).poison = s.poison := rfl
@[simp] theorem State.setWg_links (s : State) (k : Wg) : (s.setWg k).links = s.links := rfl
@[simp] theorem State.setWg_ports (s : State) (k : Wg) : (s.setWg k).ports = s.ports := rfl
@[simp] theorem State.setWg_dies (s : State) (k : Wg) : (s.setWg k).dies = s.dies := rfl
@[simp] theorem State.setWg_cores (s : State) (k : Wg) : (s.setWg k).cores = s.cores := rfl
@[simp] theorem State.setWg_spaces (s : State) (k : Wg) : (s.setWg k).spaces = s.spaces := rfl
@[simp] theorem State.setWg_tlb (s : State) (k : Wg) : (s.setWg k).tlb = s.tlb := rfl
@[simp] theorem State.setWg_upper (s : State) (k : Wg) : (s.setWg k).upper = s.upper := rfl
@[simp] theorem State.setWg_requests (s : State) (k : Wg) : (s.setWg k).requests = s.requests := rfl
@[simp] theorem State.setWg_ctxMaps (s : State) (k : Wg) : (s.setWg k).ctxMaps = s.ctxMaps := rfl
@[simp] theorem State.setWg_views (s : State) (k : Wg) : (s.setWg k).views = s.views := rfl
@[simp] theorem State.setWg_carries (s : State) (k : Wg) : (s.setWg k).carries = s.carries := rfl
@[simp] theorem State.setWg_nextCarry (s : State) (k : Wg) : (s.setWg k).nextCarry = s.nextCarry := rfl
@[simp] theorem State.setWg_launches (s : State) (k : Wg) : (s.setWg k).launches = s.launches := rfl
@[simp] theorem State.setWg_nextLaunch (s : State) (k : Wg) : (s.setWg k).nextLaunch = s.nextLaunch := rfl
@[simp] theorem State.setWg_parts (s : State) (k : Wg) : (s.setWg k).parts = s.parts := rfl
@[simp] theorem State.setWg_teams (s : State) (k : Wg) : (s.setWg k).teams = s.teams := rfl
@[simp] theorem State.setWg_nextBorn (s : State) (k : Wg) : (s.setWg k).nextBorn = s.nextBorn := rfl
@[simp] theorem State.setWg_entries (s : State) (k : Wg) : (s.setWg k).entries = s.entries := rfl
@[simp] theorem State.setWg_nextEntry (s : State) (k : Wg) : (s.setWg k).nextEntry = s.nextEntry := rfl
@[simp] theorem State.setWg_nextPromo (s : State) (k : Wg) : (s.setWg k).nextPromo = s.nextPromo := rfl
@[simp] theorem State.setWg_overflow (s : State) (k : Wg) : (s.setWg k).overflow = s.overflow := rfl
@[simp] theorem State.setWg_cur (s : State) (k : Wg) : (s.setWg k).cur = s.cur := rfl
@[simp] theorem State.setWg_inflight (s : State) (k : Wg) : (s.setWg k).inflight = s.inflight := rfl
@[simp] theorem State.setWg_snaps (s : State) (k : Wg) : (s.setWg k).snaps = s.snaps := rfl
@[simp] theorem State.setWg_queues (s : State) (k : Wg) : (s.setWg k).queues = s.queues := rfl
@[simp] theorem State.setWg_sqs (s : State) (k : Wg) : (s.setWg k).sqs = s.sqs := rfl
@[simp] theorem State.setWg_nextSq (s : State) (k : Wg) : (s.setWg k).nextSq = s.nextSq := rfl
@[simp] theorem State.setWg_mailboxes (s : State) (k : Wg) : (s.setWg k).mailboxes = s.mailboxes := rfl
@[simp] theorem State.setWg_staging (s : State) (k : Wg) : (s.setWg k).staging = s.staging := rfl
@[simp] theorem State.setWg_msix (s : State) (k : Wg) : (s.setWg k).msix = s.msix := rfl
@[simp] theorem State.setWg_notices (s : State) (k : Wg) : (s.setWg k).notices = s.notices := rfl
@[simp] theorem State.setWg_batches (s : State) (k : Wg) : (s.setWg k).batches = s.batches := rfl
@[simp] theorem State.setWg_wpLog (s : State) (k : Wg) : (s.setWg k).wpLog = s.wpLog := rfl
@[simp] theorem State.setWg_nlRecords (s : State) (k : Wg) : (s.setWg k).nlRecords = s.nlRecords := rfl
@[simp] theorem State.setWg_nlStopped (s : State) (k : Wg) : (s.setWg k).nlStopped = s.nlStopped := rfl
@[simp] theorem State.setWg_answer (s : State) (k : Wg) : (s.setWg k).answer = s.answer := rfl
@[simp] theorem State.setWg_agenda (s : State) (k : Wg) : (s.setWg k).agenda = s.agenda := rfl
@[simp] theorem State.setWg_env (s : State) (k : Wg) : (s.setWg k).env = s.env := rfl
@[simp] theorem State.setWg_images (s : State) (k : Wg) : (s.setWg k).images = s.images := rfl
@[simp] theorem State.setWg_unordered (s : State) (k : Wg) : (s.setWg k).unordered = s.unordered := rfl
@[simp] theorem State.setWg_freeCount (s : State) (k : Wg) : (s.setWg k).freeCount = s.freeCount := rfl

/-! ### State.mapTeams -/

@[simp] theorem State.mapTeams_tick (s : State) (f : Team → Team) : (s.mapTeams f).tick = s.tick := rfl
@[simp] theorem State.mapTeams_stopTick (s : State) (f : Team → Team) : (s.mapTeams f).stopTick = s.stopTick := rfl
@[simp] theorem State.mapTeams_gated (s : State) (f : Team → Team) : (s.mapTeams f).gated = s.gated := rfl
@[simp] theorem State.mapTeams_bring (s : State) (f : Team → Team) : (s.mapTeams f).bring = s.bring := rfl
@[simp] theorem State.mapTeams_deviceHealth (s : State) (f : Team → Team) : (s.mapTeams f).deviceHealth = s.deviceHealth := rfl
@[simp] theorem State.mapTeams_l2cfg (s : State) (f : Team → Team) : (s.mapTeams f).l2cfg = s.l2cfg := rfl
@[simp] theorem State.mapTeams_fabricCaps (s : State) (f : Team → Team) : (s.mapTeams f).fabricCaps = s.fabricCaps := rfl
@[simp] theorem State.mapTeams_budget (s : State) (f : Team → Team) : (s.mapTeams f).budget = s.budget := rfl
@[simp] theorem State.mapTeams_mem (s : State) (f : Team → Team) : (s.mapTeams f).mem = s.mem := rfl
@[simp] theorem State.mapTeams_remote (s : State) (f : Team → Team) : (s.mapTeams f).remote = s.remote := rfl
@[simp] theorem State.mapTeams_dirLost (s : State) (f : Team → Team) : (s.mapTeams f).dirLost = s.dirLost := rfl
@[simp] theorem State.mapTeams_shared (s : State) (f : Team → Team) : (s.mapTeams f).shared = s.shared := rfl
@[simp] theorem State.mapTeams_badSeals (s : State) (f : Team → Team) : (s.mapTeams f).badSeals = s.badSeals := rfl
@[simp] theorem State.mapTeams_l2Dirty (s : State) (f : Team → Team) : (s.mapTeams f).l2Dirty = s.l2Dirty := rfl
@[simp] theorem State.mapTeams_l2Valid (s : State) (f : Team → Team) : (s.mapTeams f).l2Valid = s.l2Valid := rfl
@[simp] theorem State.mapTeams_pinned (s : State) (f : Team → Team) : (s.mapTeams f).pinned = s.pinned := rfl
@[simp] theorem State.mapTeams_l2Home (s : State) (f : Team → Team) : (s.mapTeams f).l2Home = s.l2Home := rfl
@[simp] theorem State.mapTeams_poison (s : State) (f : Team → Team) : (s.mapTeams f).poison = s.poison := rfl
@[simp] theorem State.mapTeams_links (s : State) (f : Team → Team) : (s.mapTeams f).links = s.links := rfl
@[simp] theorem State.mapTeams_ports (s : State) (f : Team → Team) : (s.mapTeams f).ports = s.ports := rfl
@[simp] theorem State.mapTeams_dies (s : State) (f : Team → Team) : (s.mapTeams f).dies = s.dies := rfl
@[simp] theorem State.mapTeams_cores (s : State) (f : Team → Team) : (s.mapTeams f).cores = s.cores := rfl
@[simp] theorem State.mapTeams_spaces (s : State) (f : Team → Team) : (s.mapTeams f).spaces = s.spaces := rfl
@[simp] theorem State.mapTeams_tlb (s : State) (f : Team → Team) : (s.mapTeams f).tlb = s.tlb := rfl
@[simp] theorem State.mapTeams_upper (s : State) (f : Team → Team) : (s.mapTeams f).upper = s.upper := rfl
@[simp] theorem State.mapTeams_requests (s : State) (f : Team → Team) : (s.mapTeams f).requests = s.requests := rfl
@[simp] theorem State.mapTeams_ctxMaps (s : State) (f : Team → Team) : (s.mapTeams f).ctxMaps = s.ctxMaps := rfl
@[simp] theorem State.mapTeams_views (s : State) (f : Team → Team) : (s.mapTeams f).views = s.views := rfl
@[simp] theorem State.mapTeams_carries (s : State) (f : Team → Team) : (s.mapTeams f).carries = s.carries := rfl
@[simp] theorem State.mapTeams_nextCarry (s : State) (f : Team → Team) : (s.mapTeams f).nextCarry = s.nextCarry := rfl
@[simp] theorem State.mapTeams_launches (s : State) (f : Team → Team) : (s.mapTeams f).launches = s.launches := rfl
@[simp] theorem State.mapTeams_nextLaunch (s : State) (f : Team → Team) : (s.mapTeams f).nextLaunch = s.nextLaunch := rfl
@[simp] theorem State.mapTeams_wgs (s : State) (f : Team → Team) : (s.mapTeams f).wgs = s.wgs := rfl
@[simp] theorem State.mapTeams_parts (s : State) (f : Team → Team) : (s.mapTeams f).parts = s.parts := rfl
@[simp] theorem State.mapTeams_nextBorn (s : State) (f : Team → Team) : (s.mapTeams f).nextBorn = s.nextBorn := rfl
@[simp] theorem State.mapTeams_entries (s : State) (f : Team → Team) : (s.mapTeams f).entries = s.entries := rfl
@[simp] theorem State.mapTeams_nextEntry (s : State) (f : Team → Team) : (s.mapTeams f).nextEntry = s.nextEntry := rfl
@[simp] theorem State.mapTeams_nextPromo (s : State) (f : Team → Team) : (s.mapTeams f).nextPromo = s.nextPromo := rfl
@[simp] theorem State.mapTeams_overflow (s : State) (f : Team → Team) : (s.mapTeams f).overflow = s.overflow := rfl
@[simp] theorem State.mapTeams_cur (s : State) (f : Team → Team) : (s.mapTeams f).cur = s.cur := rfl
@[simp] theorem State.mapTeams_inflight (s : State) (f : Team → Team) : (s.mapTeams f).inflight = s.inflight := rfl
@[simp] theorem State.mapTeams_snaps (s : State) (f : Team → Team) : (s.mapTeams f).snaps = s.snaps := rfl
@[simp] theorem State.mapTeams_queues (s : State) (f : Team → Team) : (s.mapTeams f).queues = s.queues := rfl
@[simp] theorem State.mapTeams_sqs (s : State) (f : Team → Team) : (s.mapTeams f).sqs = s.sqs := rfl
@[simp] theorem State.mapTeams_nextSq (s : State) (f : Team → Team) : (s.mapTeams f).nextSq = s.nextSq := rfl
@[simp] theorem State.mapTeams_mailboxes (s : State) (f : Team → Team) : (s.mapTeams f).mailboxes = s.mailboxes := rfl
@[simp] theorem State.mapTeams_staging (s : State) (f : Team → Team) : (s.mapTeams f).staging = s.staging := rfl
@[simp] theorem State.mapTeams_msix (s : State) (f : Team → Team) : (s.mapTeams f).msix = s.msix := rfl
@[simp] theorem State.mapTeams_notices (s : State) (f : Team → Team) : (s.mapTeams f).notices = s.notices := rfl
@[simp] theorem State.mapTeams_batches (s : State) (f : Team → Team) : (s.mapTeams f).batches = s.batches := rfl
@[simp] theorem State.mapTeams_wpLog (s : State) (f : Team → Team) : (s.mapTeams f).wpLog = s.wpLog := rfl
@[simp] theorem State.mapTeams_nlRecords (s : State) (f : Team → Team) : (s.mapTeams f).nlRecords = s.nlRecords := rfl
@[simp] theorem State.mapTeams_nlStopped (s : State) (f : Team → Team) : (s.mapTeams f).nlStopped = s.nlStopped := rfl
@[simp] theorem State.mapTeams_answer (s : State) (f : Team → Team) : (s.mapTeams f).answer = s.answer := rfl
@[simp] theorem State.mapTeams_agenda (s : State) (f : Team → Team) : (s.mapTeams f).agenda = s.agenda := rfl
@[simp] theorem State.mapTeams_env (s : State) (f : Team → Team) : (s.mapTeams f).env = s.env := rfl
@[simp] theorem State.mapTeams_images (s : State) (f : Team → Team) : (s.mapTeams f).images = s.images := rfl
@[simp] theorem State.mapTeams_unordered (s : State) (f : Team → Team) : (s.mapTeams f).unordered = s.unordered := rfl
@[simp] theorem State.mapTeams_freeCount (s : State) (f : Team → Team) : (s.mapTeams f).freeCount = s.freeCount := rfl

/-! ### State.updTeam -/

@[simp] theorem State.updTeam_tick (s : State) (l w t : Nat) (f : Team → Team) : (s.updTeam l w t f).tick = s.tick := rfl
@[simp] theorem State.updTeam_stopTick (s : State) (l w t : Nat) (f : Team → Team) : (s.updTeam l w t f).stopTick = s.stopTick := rfl
@[simp] theorem State.updTeam_gated (s : State) (l w t : Nat) (f : Team → Team) : (s.updTeam l w t f).gated = s.gated := rfl
@[simp] theorem State.updTeam_bring (s : State) (l w t : Nat) (f : Team → Team) : (s.updTeam l w t f).bring = s.bring := rfl
@[simp] theorem State.updTeam_deviceHealth (s : State) (l w t : Nat) (f : Team → Team) : (s.updTeam l w t f).deviceHealth = s.deviceHealth := rfl
@[simp] theorem State.updTeam_l2cfg (s : State) (l w t : Nat) (f : Team → Team) : (s.updTeam l w t f).l2cfg = s.l2cfg := rfl
@[simp] theorem State.updTeam_fabricCaps (s : State) (l w t : Nat) (f : Team → Team) : (s.updTeam l w t f).fabricCaps = s.fabricCaps := rfl
@[simp] theorem State.updTeam_budget (s : State) (l w t : Nat) (f : Team → Team) : (s.updTeam l w t f).budget = s.budget := rfl
@[simp] theorem State.updTeam_mem (s : State) (l w t : Nat) (f : Team → Team) : (s.updTeam l w t f).mem = s.mem := rfl
@[simp] theorem State.updTeam_remote (s : State) (l w t : Nat) (f : Team → Team) : (s.updTeam l w t f).remote = s.remote := rfl
@[simp] theorem State.updTeam_dirLost (s : State) (l w t : Nat) (f : Team → Team) : (s.updTeam l w t f).dirLost = s.dirLost := rfl
@[simp] theorem State.updTeam_shared (s : State) (l w t : Nat) (f : Team → Team) : (s.updTeam l w t f).shared = s.shared := rfl
@[simp] theorem State.updTeam_badSeals (s : State) (l w t : Nat) (f : Team → Team) : (s.updTeam l w t f).badSeals = s.badSeals := rfl
@[simp] theorem State.updTeam_l2Dirty (s : State) (l w t : Nat) (f : Team → Team) : (s.updTeam l w t f).l2Dirty = s.l2Dirty := rfl
@[simp] theorem State.updTeam_l2Valid (s : State) (l w t : Nat) (f : Team → Team) : (s.updTeam l w t f).l2Valid = s.l2Valid := rfl
@[simp] theorem State.updTeam_pinned (s : State) (l w t : Nat) (f : Team → Team) : (s.updTeam l w t f).pinned = s.pinned := rfl
@[simp] theorem State.updTeam_l2Home (s : State) (l w t : Nat) (f : Team → Team) : (s.updTeam l w t f).l2Home = s.l2Home := rfl
@[simp] theorem State.updTeam_poison (s : State) (l w t : Nat) (f : Team → Team) : (s.updTeam l w t f).poison = s.poison := rfl
@[simp] theorem State.updTeam_links (s : State) (l w t : Nat) (f : Team → Team) : (s.updTeam l w t f).links = s.links := rfl
@[simp] theorem State.updTeam_ports (s : State) (l w t : Nat) (f : Team → Team) : (s.updTeam l w t f).ports = s.ports := rfl
@[simp] theorem State.updTeam_dies (s : State) (l w t : Nat) (f : Team → Team) : (s.updTeam l w t f).dies = s.dies := rfl
@[simp] theorem State.updTeam_cores (s : State) (l w t : Nat) (f : Team → Team) : (s.updTeam l w t f).cores = s.cores := rfl
@[simp] theorem State.updTeam_spaces (s : State) (l w t : Nat) (f : Team → Team) : (s.updTeam l w t f).spaces = s.spaces := rfl
@[simp] theorem State.updTeam_tlb (s : State) (l w t : Nat) (f : Team → Team) : (s.updTeam l w t f).tlb = s.tlb := rfl
@[simp] theorem State.updTeam_upper (s : State) (l w t : Nat) (f : Team → Team) : (s.updTeam l w t f).upper = s.upper := rfl
@[simp] theorem State.updTeam_requests (s : State) (l w t : Nat) (f : Team → Team) : (s.updTeam l w t f).requests = s.requests := rfl
@[simp] theorem State.updTeam_ctxMaps (s : State) (l w t : Nat) (f : Team → Team) : (s.updTeam l w t f).ctxMaps = s.ctxMaps := rfl
@[simp] theorem State.updTeam_views (s : State) (l w t : Nat) (f : Team → Team) : (s.updTeam l w t f).views = s.views := rfl
@[simp] theorem State.updTeam_carries (s : State) (l w t : Nat) (f : Team → Team) : (s.updTeam l w t f).carries = s.carries := rfl
@[simp] theorem State.updTeam_nextCarry (s : State) (l w t : Nat) (f : Team → Team) : (s.updTeam l w t f).nextCarry = s.nextCarry := rfl
@[simp] theorem State.updTeam_launches (s : State) (l w t : Nat) (f : Team → Team) : (s.updTeam l w t f).launches = s.launches := rfl
@[simp] theorem State.updTeam_nextLaunch (s : State) (l w t : Nat) (f : Team → Team) : (s.updTeam l w t f).nextLaunch = s.nextLaunch := rfl
@[simp] theorem State.updTeam_wgs (s : State) (l w t : Nat) (f : Team → Team) : (s.updTeam l w t f).wgs = s.wgs := rfl
@[simp] theorem State.updTeam_parts (s : State) (l w t : Nat) (f : Team → Team) : (s.updTeam l w t f).parts = s.parts := rfl
@[simp] theorem State.updTeam_nextBorn (s : State) (l w t : Nat) (f : Team → Team) : (s.updTeam l w t f).nextBorn = s.nextBorn := rfl
@[simp] theorem State.updTeam_entries (s : State) (l w t : Nat) (f : Team → Team) : (s.updTeam l w t f).entries = s.entries := rfl
@[simp] theorem State.updTeam_nextEntry (s : State) (l w t : Nat) (f : Team → Team) : (s.updTeam l w t f).nextEntry = s.nextEntry := rfl
@[simp] theorem State.updTeam_nextPromo (s : State) (l w t : Nat) (f : Team → Team) : (s.updTeam l w t f).nextPromo = s.nextPromo := rfl
@[simp] theorem State.updTeam_overflow (s : State) (l w t : Nat) (f : Team → Team) : (s.updTeam l w t f).overflow = s.overflow := rfl
@[simp] theorem State.updTeam_cur (s : State) (l w t : Nat) (f : Team → Team) : (s.updTeam l w t f).cur = s.cur := rfl
@[simp] theorem State.updTeam_inflight (s : State) (l w t : Nat) (f : Team → Team) : (s.updTeam l w t f).inflight = s.inflight := rfl
@[simp] theorem State.updTeam_snaps (s : State) (l w t : Nat) (f : Team → Team) : (s.updTeam l w t f).snaps = s.snaps := rfl
@[simp] theorem State.updTeam_queues (s : State) (l w t : Nat) (f : Team → Team) : (s.updTeam l w t f).queues = s.queues := rfl
@[simp] theorem State.updTeam_sqs (s : State) (l w t : Nat) (f : Team → Team) : (s.updTeam l w t f).sqs = s.sqs := rfl
@[simp] theorem State.updTeam_nextSq (s : State) (l w t : Nat) (f : Team → Team) : (s.updTeam l w t f).nextSq = s.nextSq := rfl
@[simp] theorem State.updTeam_mailboxes (s : State) (l w t : Nat) (f : Team → Team) : (s.updTeam l w t f).mailboxes = s.mailboxes := rfl
@[simp] theorem State.updTeam_staging (s : State) (l w t : Nat) (f : Team → Team) : (s.updTeam l w t f).staging = s.staging := rfl
@[simp] theorem State.updTeam_msix (s : State) (l w t : Nat) (f : Team → Team) : (s.updTeam l w t f).msix = s.msix := rfl
@[simp] theorem State.updTeam_notices (s : State) (l w t : Nat) (f : Team → Team) : (s.updTeam l w t f).notices = s.notices := rfl
@[simp] theorem State.updTeam_batches (s : State) (l w t : Nat) (f : Team → Team) : (s.updTeam l w t f).batches = s.batches := rfl
@[simp] theorem State.updTeam_wpLog (s : State) (l w t : Nat) (f : Team → Team) : (s.updTeam l w t f).wpLog = s.wpLog := rfl
@[simp] theorem State.updTeam_nlRecords (s : State) (l w t : Nat) (f : Team → Team) : (s.updTeam l w t f).nlRecords = s.nlRecords := rfl
@[simp] theorem State.updTeam_nlStopped (s : State) (l w t : Nat) (f : Team → Team) : (s.updTeam l w t f).nlStopped = s.nlStopped := rfl
@[simp] theorem State.updTeam_answer (s : State) (l w t : Nat) (f : Team → Team) : (s.updTeam l w t f).answer = s.answer := rfl
@[simp] theorem State.updTeam_agenda (s : State) (l w t : Nat) (f : Team → Team) : (s.updTeam l w t f).agenda = s.agenda := rfl
@[simp] theorem State.updTeam_env (s : State) (l w t : Nat) (f : Team → Team) : (s.updTeam l w t f).env = s.env := rfl
@[simp] theorem State.updTeam_images (s : State) (l w t : Nat) (f : Team → Team) : (s.updTeam l w t f).images = s.images := rfl
@[simp] theorem State.updTeam_unordered (s : State) (l w t : Nat) (f : Team → Team) : (s.updTeam l w t f).unordered = s.unordered := rfl
@[simp] theorem State.updTeam_freeCount (s : State) (l w t : Nat) (f : Team → Team) : (s.updTeam l w t f).freeCount = s.freeCount := rfl

/-! ### State.updThread -/

@[simp] theorem State.updThread_tick (s : State) (r : ThreadRef) (f : Thread → Thread) : (s.updThread r f).tick = s.tick := rfl
@[simp] theorem State.updThread_stopTick (s : State) (r : ThreadRef) (f : Thread → Thread) : (s.updThread r f).stopTick = s.stopTick := rfl
@[simp] theorem State.updThread_gated (s : State) (r : ThreadRef) (f : Thread → Thread) : (s.updThread r f).gated = s.gated := rfl
@[simp] theorem State.updThread_bring (s : State) (r : ThreadRef) (f : Thread → Thread) : (s.updThread r f).bring = s.bring := rfl
@[simp] theorem State.updThread_deviceHealth (s : State) (r : ThreadRef) (f : Thread → Thread) : (s.updThread r f).deviceHealth = s.deviceHealth := rfl
@[simp] theorem State.updThread_l2cfg (s : State) (r : ThreadRef) (f : Thread → Thread) : (s.updThread r f).l2cfg = s.l2cfg := rfl
@[simp] theorem State.updThread_fabricCaps (s : State) (r : ThreadRef) (f : Thread → Thread) : (s.updThread r f).fabricCaps = s.fabricCaps := rfl
@[simp] theorem State.updThread_budget (s : State) (r : ThreadRef) (f : Thread → Thread) : (s.updThread r f).budget = s.budget := rfl
@[simp] theorem State.updThread_mem (s : State) (r : ThreadRef) (f : Thread → Thread) : (s.updThread r f).mem = s.mem := rfl
@[simp] theorem State.updThread_remote (s : State) (r : ThreadRef) (f : Thread → Thread) : (s.updThread r f).remote = s.remote := rfl
@[simp] theorem State.updThread_dirLost (s : State) (r : ThreadRef) (f : Thread → Thread) : (s.updThread r f).dirLost = s.dirLost := rfl
@[simp] theorem State.updThread_shared (s : State) (r : ThreadRef) (f : Thread → Thread) : (s.updThread r f).shared = s.shared := rfl
@[simp] theorem State.updThread_badSeals (s : State) (r : ThreadRef) (f : Thread → Thread) : (s.updThread r f).badSeals = s.badSeals := rfl
@[simp] theorem State.updThread_l2Dirty (s : State) (r : ThreadRef) (f : Thread → Thread) : (s.updThread r f).l2Dirty = s.l2Dirty := rfl
@[simp] theorem State.updThread_l2Valid (s : State) (r : ThreadRef) (f : Thread → Thread) : (s.updThread r f).l2Valid = s.l2Valid := rfl
@[simp] theorem State.updThread_pinned (s : State) (r : ThreadRef) (f : Thread → Thread) : (s.updThread r f).pinned = s.pinned := rfl
@[simp] theorem State.updThread_l2Home (s : State) (r : ThreadRef) (f : Thread → Thread) : (s.updThread r f).l2Home = s.l2Home := rfl
@[simp] theorem State.updThread_poison (s : State) (r : ThreadRef) (f : Thread → Thread) : (s.updThread r f).poison = s.poison := rfl
@[simp] theorem State.updThread_links (s : State) (r : ThreadRef) (f : Thread → Thread) : (s.updThread r f).links = s.links := rfl
@[simp] theorem State.updThread_ports (s : State) (r : ThreadRef) (f : Thread → Thread) : (s.updThread r f).ports = s.ports := rfl
@[simp] theorem State.updThread_dies (s : State) (r : ThreadRef) (f : Thread → Thread) : (s.updThread r f).dies = s.dies := rfl
@[simp] theorem State.updThread_cores (s : State) (r : ThreadRef) (f : Thread → Thread) : (s.updThread r f).cores = s.cores := rfl
@[simp] theorem State.updThread_spaces (s : State) (r : ThreadRef) (f : Thread → Thread) : (s.updThread r f).spaces = s.spaces := rfl
@[simp] theorem State.updThread_tlb (s : State) (r : ThreadRef) (f : Thread → Thread) : (s.updThread r f).tlb = s.tlb := rfl
@[simp] theorem State.updThread_upper (s : State) (r : ThreadRef) (f : Thread → Thread) : (s.updThread r f).upper = s.upper := rfl
@[simp] theorem State.updThread_requests (s : State) (r : ThreadRef) (f : Thread → Thread) : (s.updThread r f).requests = s.requests := rfl
@[simp] theorem State.updThread_ctxMaps (s : State) (r : ThreadRef) (f : Thread → Thread) : (s.updThread r f).ctxMaps = s.ctxMaps := rfl
@[simp] theorem State.updThread_views (s : State) (r : ThreadRef) (f : Thread → Thread) : (s.updThread r f).views = s.views := rfl
@[simp] theorem State.updThread_carries (s : State) (r : ThreadRef) (f : Thread → Thread) : (s.updThread r f).carries = s.carries := rfl
@[simp] theorem State.updThread_nextCarry (s : State) (r : ThreadRef) (f : Thread → Thread) : (s.updThread r f).nextCarry = s.nextCarry := rfl
@[simp] theorem State.updThread_launches (s : State) (r : ThreadRef) (f : Thread → Thread) : (s.updThread r f).launches = s.launches := rfl
@[simp] theorem State.updThread_nextLaunch (s : State) (r : ThreadRef) (f : Thread → Thread) : (s.updThread r f).nextLaunch = s.nextLaunch := rfl
@[simp] theorem State.updThread_wgs (s : State) (r : ThreadRef) (f : Thread → Thread) : (s.updThread r f).wgs = s.wgs := rfl
@[simp] theorem State.updThread_parts (s : State) (r : ThreadRef) (f : Thread → Thread) : (s.updThread r f).parts = s.parts := rfl
@[simp] theorem State.updThread_nextBorn (s : State) (r : ThreadRef) (f : Thread → Thread) : (s.updThread r f).nextBorn = s.nextBorn := rfl
@[simp] theorem State.updThread_entries (s : State) (r : ThreadRef) (f : Thread → Thread) : (s.updThread r f).entries = s.entries := rfl
@[simp] theorem State.updThread_nextEntry (s : State) (r : ThreadRef) (f : Thread → Thread) : (s.updThread r f).nextEntry = s.nextEntry := rfl
@[simp] theorem State.updThread_nextPromo (s : State) (r : ThreadRef) (f : Thread → Thread) : (s.updThread r f).nextPromo = s.nextPromo := rfl
@[simp] theorem State.updThread_overflow (s : State) (r : ThreadRef) (f : Thread → Thread) : (s.updThread r f).overflow = s.overflow := rfl
@[simp] theorem State.updThread_cur (s : State) (r : ThreadRef) (f : Thread → Thread) : (s.updThread r f).cur = s.cur := rfl
@[simp] theorem State.updThread_inflight (s : State) (r : ThreadRef) (f : Thread → Thread) : (s.updThread r f).inflight = s.inflight := rfl
@[simp] theorem State.updThread_snaps (s : State) (r : ThreadRef) (f : Thread → Thread) : (s.updThread r f).snaps = s.snaps := rfl
@[simp] theorem State.updThread_queues (s : State) (r : ThreadRef) (f : Thread → Thread) : (s.updThread r f).queues = s.queues := rfl
@[simp] theorem State.updThread_sqs (s : State) (r : ThreadRef) (f : Thread → Thread) : (s.updThread r f).sqs = s.sqs := rfl
@[simp] theorem State.updThread_nextSq (s : State) (r : ThreadRef) (f : Thread → Thread) : (s.updThread r f).nextSq = s.nextSq := rfl
@[simp] theorem State.updThread_mailboxes (s : State) (r : ThreadRef) (f : Thread → Thread) : (s.updThread r f).mailboxes = s.mailboxes := rfl
@[simp] theorem State.updThread_staging (s : State) (r : ThreadRef) (f : Thread → Thread) : (s.updThread r f).staging = s.staging := rfl
@[simp] theorem State.updThread_msix (s : State) (r : ThreadRef) (f : Thread → Thread) : (s.updThread r f).msix = s.msix := rfl
@[simp] theorem State.updThread_notices (s : State) (r : ThreadRef) (f : Thread → Thread) : (s.updThread r f).notices = s.notices := rfl
@[simp] theorem State.updThread_batches (s : State) (r : ThreadRef) (f : Thread → Thread) : (s.updThread r f).batches = s.batches := rfl
@[simp] theorem State.updThread_wpLog (s : State) (r : ThreadRef) (f : Thread → Thread) : (s.updThread r f).wpLog = s.wpLog := rfl
@[simp] theorem State.updThread_nlRecords (s : State) (r : ThreadRef) (f : Thread → Thread) : (s.updThread r f).nlRecords = s.nlRecords := rfl
@[simp] theorem State.updThread_nlStopped (s : State) (r : ThreadRef) (f : Thread → Thread) : (s.updThread r f).nlStopped = s.nlStopped := rfl
@[simp] theorem State.updThread_answer (s : State) (r : ThreadRef) (f : Thread → Thread) : (s.updThread r f).answer = s.answer := rfl
@[simp] theorem State.updThread_agenda (s : State) (r : ThreadRef) (f : Thread → Thread) : (s.updThread r f).agenda = s.agenda := rfl
@[simp] theorem State.updThread_env (s : State) (r : ThreadRef) (f : Thread → Thread) : (s.updThread r f).env = s.env := rfl
@[simp] theorem State.updThread_images (s : State) (r : ThreadRef) (f : Thread → Thread) : (s.updThread r f).images = s.images := rfl
@[simp] theorem State.updThread_unordered (s : State) (r : ThreadRef) (f : Thread → Thread) : (s.updThread r f).unordered = s.unordered := rfl
@[simp] theorem State.updThread_freeCount (s : State) (r : ThreadRef) (f : Thread → Thread) : (s.updThread r f).freeCount = s.freeCount := rfl

/-! ### State.setEntry -/

@[simp] theorem State.setEntry_tick (s : State) (k : Entry) : (s.setEntry k).tick = s.tick := rfl
@[simp] theorem State.setEntry_stopTick (s : State) (k : Entry) : (s.setEntry k).stopTick = s.stopTick := rfl
@[simp] theorem State.setEntry_gated (s : State) (k : Entry) : (s.setEntry k).gated = s.gated := rfl
@[simp] theorem State.setEntry_bring (s : State) (k : Entry) : (s.setEntry k).bring = s.bring := rfl
@[simp] theorem State.setEntry_deviceHealth (s : State) (k : Entry) : (s.setEntry k).deviceHealth = s.deviceHealth := rfl
@[simp] theorem State.setEntry_l2cfg (s : State) (k : Entry) : (s.setEntry k).l2cfg = s.l2cfg := rfl
@[simp] theorem State.setEntry_fabricCaps (s : State) (k : Entry) : (s.setEntry k).fabricCaps = s.fabricCaps := rfl
@[simp] theorem State.setEntry_budget (s : State) (k : Entry) : (s.setEntry k).budget = s.budget := rfl
@[simp] theorem State.setEntry_mem (s : State) (k : Entry) : (s.setEntry k).mem = s.mem := rfl
@[simp] theorem State.setEntry_remote (s : State) (k : Entry) : (s.setEntry k).remote = s.remote := rfl
@[simp] theorem State.setEntry_dirLost (s : State) (k : Entry) : (s.setEntry k).dirLost = s.dirLost := rfl
@[simp] theorem State.setEntry_shared (s : State) (k : Entry) : (s.setEntry k).shared = s.shared := rfl
@[simp] theorem State.setEntry_badSeals (s : State) (k : Entry) : (s.setEntry k).badSeals = s.badSeals := rfl
@[simp] theorem State.setEntry_l2Dirty (s : State) (k : Entry) : (s.setEntry k).l2Dirty = s.l2Dirty := rfl
@[simp] theorem State.setEntry_l2Valid (s : State) (k : Entry) : (s.setEntry k).l2Valid = s.l2Valid := rfl
@[simp] theorem State.setEntry_pinned (s : State) (k : Entry) : (s.setEntry k).pinned = s.pinned := rfl
@[simp] theorem State.setEntry_l2Home (s : State) (k : Entry) : (s.setEntry k).l2Home = s.l2Home := rfl
@[simp] theorem State.setEntry_poison (s : State) (k : Entry) : (s.setEntry k).poison = s.poison := rfl
@[simp] theorem State.setEntry_links (s : State) (k : Entry) : (s.setEntry k).links = s.links := rfl
@[simp] theorem State.setEntry_ports (s : State) (k : Entry) : (s.setEntry k).ports = s.ports := rfl
@[simp] theorem State.setEntry_dies (s : State) (k : Entry) : (s.setEntry k).dies = s.dies := rfl
@[simp] theorem State.setEntry_cores (s : State) (k : Entry) : (s.setEntry k).cores = s.cores := rfl
@[simp] theorem State.setEntry_spaces (s : State) (k : Entry) : (s.setEntry k).spaces = s.spaces := rfl
@[simp] theorem State.setEntry_tlb (s : State) (k : Entry) : (s.setEntry k).tlb = s.tlb := rfl
@[simp] theorem State.setEntry_upper (s : State) (k : Entry) : (s.setEntry k).upper = s.upper := rfl
@[simp] theorem State.setEntry_requests (s : State) (k : Entry) : (s.setEntry k).requests = s.requests := rfl
@[simp] theorem State.setEntry_ctxMaps (s : State) (k : Entry) : (s.setEntry k).ctxMaps = s.ctxMaps := rfl
@[simp] theorem State.setEntry_views (s : State) (k : Entry) : (s.setEntry k).views = s.views := rfl
@[simp] theorem State.setEntry_carries (s : State) (k : Entry) : (s.setEntry k).carries = s.carries := rfl
@[simp] theorem State.setEntry_nextCarry (s : State) (k : Entry) : (s.setEntry k).nextCarry = s.nextCarry := rfl
@[simp] theorem State.setEntry_launches (s : State) (k : Entry) : (s.setEntry k).launches = s.launches := rfl
@[simp] theorem State.setEntry_nextLaunch (s : State) (k : Entry) : (s.setEntry k).nextLaunch = s.nextLaunch := rfl
@[simp] theorem State.setEntry_wgs (s : State) (k : Entry) : (s.setEntry k).wgs = s.wgs := rfl
@[simp] theorem State.setEntry_parts (s : State) (k : Entry) : (s.setEntry k).parts = s.parts := rfl
@[simp] theorem State.setEntry_teams (s : State) (k : Entry) : (s.setEntry k).teams = s.teams := rfl
@[simp] theorem State.setEntry_nextBorn (s : State) (k : Entry) : (s.setEntry k).nextBorn = s.nextBorn := rfl
@[simp] theorem State.setEntry_nextEntry (s : State) (k : Entry) : (s.setEntry k).nextEntry = s.nextEntry := rfl
@[simp] theorem State.setEntry_nextPromo (s : State) (k : Entry) : (s.setEntry k).nextPromo = s.nextPromo := rfl
@[simp] theorem State.setEntry_overflow (s : State) (k : Entry) : (s.setEntry k).overflow = s.overflow := rfl
@[simp] theorem State.setEntry_cur (s : State) (k : Entry) : (s.setEntry k).cur = s.cur := rfl
@[simp] theorem State.setEntry_inflight (s : State) (k : Entry) : (s.setEntry k).inflight = s.inflight := rfl
@[simp] theorem State.setEntry_snaps (s : State) (k : Entry) : (s.setEntry k).snaps = s.snaps := rfl
@[simp] theorem State.setEntry_queues (s : State) (k : Entry) : (s.setEntry k).queues = s.queues := rfl
@[simp] theorem State.setEntry_sqs (s : State) (k : Entry) : (s.setEntry k).sqs = s.sqs := rfl
@[simp] theorem State.setEntry_nextSq (s : State) (k : Entry) : (s.setEntry k).nextSq = s.nextSq := rfl
@[simp] theorem State.setEntry_mailboxes (s : State) (k : Entry) : (s.setEntry k).mailboxes = s.mailboxes := rfl
@[simp] theorem State.setEntry_staging (s : State) (k : Entry) : (s.setEntry k).staging = s.staging := rfl
@[simp] theorem State.setEntry_msix (s : State) (k : Entry) : (s.setEntry k).msix = s.msix := rfl
@[simp] theorem State.setEntry_notices (s : State) (k : Entry) : (s.setEntry k).notices = s.notices := rfl
@[simp] theorem State.setEntry_batches (s : State) (k : Entry) : (s.setEntry k).batches = s.batches := rfl
@[simp] theorem State.setEntry_wpLog (s : State) (k : Entry) : (s.setEntry k).wpLog = s.wpLog := rfl
@[simp] theorem State.setEntry_nlRecords (s : State) (k : Entry) : (s.setEntry k).nlRecords = s.nlRecords := rfl
@[simp] theorem State.setEntry_nlStopped (s : State) (k : Entry) : (s.setEntry k).nlStopped = s.nlStopped := rfl
@[simp] theorem State.setEntry_answer (s : State) (k : Entry) : (s.setEntry k).answer = s.answer := rfl
@[simp] theorem State.setEntry_agenda (s : State) (k : Entry) : (s.setEntry k).agenda = s.agenda := rfl
@[simp] theorem State.setEntry_env (s : State) (k : Entry) : (s.setEntry k).env = s.env := rfl
@[simp] theorem State.setEntry_images (s : State) (k : Entry) : (s.setEntry k).images = s.images := rfl
@[simp] theorem State.setEntry_unordered (s : State) (k : Entry) : (s.setEntry k).unordered = s.unordered := rfl
@[simp] theorem State.setEntry_freeCount (s : State) (k : Entry) : (s.setEntry k).freeCount = s.freeCount := rfl

/-! ### State.setPartition -/

@[simp] theorem State.setPartition_tick (s : State) (k : Partition) : (s.setPartition k).tick = s.tick := rfl
@[simp] theorem State.setPartition_stopTick (s : State) (k : Partition) : (s.setPartition k).stopTick = s.stopTick := rfl
@[simp] theorem State.setPartition_gated (s : State) (k : Partition) : (s.setPartition k).gated = s.gated := rfl
@[simp] theorem State.setPartition_bring (s : State) (k : Partition) : (s.setPartition k).bring = s.bring := rfl
@[simp] theorem State.setPartition_deviceHealth (s : State) (k : Partition) : (s.setPartition k).deviceHealth = s.deviceHealth := rfl
@[simp] theorem State.setPartition_l2cfg (s : State) (k : Partition) : (s.setPartition k).l2cfg = s.l2cfg := rfl
@[simp] theorem State.setPartition_fabricCaps (s : State) (k : Partition) : (s.setPartition k).fabricCaps = s.fabricCaps := rfl
@[simp] theorem State.setPartition_budget (s : State) (k : Partition) : (s.setPartition k).budget = s.budget := rfl
@[simp] theorem State.setPartition_mem (s : State) (k : Partition) : (s.setPartition k).mem = s.mem := rfl
@[simp] theorem State.setPartition_remote (s : State) (k : Partition) : (s.setPartition k).remote = s.remote := rfl
@[simp] theorem State.setPartition_dirLost (s : State) (k : Partition) : (s.setPartition k).dirLost = s.dirLost := rfl
@[simp] theorem State.setPartition_shared (s : State) (k : Partition) : (s.setPartition k).shared = s.shared := rfl
@[simp] theorem State.setPartition_badSeals (s : State) (k : Partition) : (s.setPartition k).badSeals = s.badSeals := rfl
@[simp] theorem State.setPartition_l2Dirty (s : State) (k : Partition) : (s.setPartition k).l2Dirty = s.l2Dirty := rfl
@[simp] theorem State.setPartition_l2Valid (s : State) (k : Partition) : (s.setPartition k).l2Valid = s.l2Valid := rfl
@[simp] theorem State.setPartition_pinned (s : State) (k : Partition) : (s.setPartition k).pinned = s.pinned := rfl
@[simp] theorem State.setPartition_l2Home (s : State) (k : Partition) : (s.setPartition k).l2Home = s.l2Home := rfl
@[simp] theorem State.setPartition_poison (s : State) (k : Partition) : (s.setPartition k).poison = s.poison := rfl
@[simp] theorem State.setPartition_links (s : State) (k : Partition) : (s.setPartition k).links = s.links := rfl
@[simp] theorem State.setPartition_ports (s : State) (k : Partition) : (s.setPartition k).ports = s.ports := rfl
@[simp] theorem State.setPartition_dies (s : State) (k : Partition) : (s.setPartition k).dies = s.dies := rfl
@[simp] theorem State.setPartition_cores (s : State) (k : Partition) : (s.setPartition k).cores = s.cores := rfl
@[simp] theorem State.setPartition_spaces (s : State) (k : Partition) : (s.setPartition k).spaces = s.spaces := rfl
@[simp] theorem State.setPartition_tlb (s : State) (k : Partition) : (s.setPartition k).tlb = s.tlb := rfl
@[simp] theorem State.setPartition_upper (s : State) (k : Partition) : (s.setPartition k).upper = s.upper := rfl
@[simp] theorem State.setPartition_requests (s : State) (k : Partition) : (s.setPartition k).requests = s.requests := rfl
@[simp] theorem State.setPartition_ctxMaps (s : State) (k : Partition) : (s.setPartition k).ctxMaps = s.ctxMaps := rfl
@[simp] theorem State.setPartition_views (s : State) (k : Partition) : (s.setPartition k).views = s.views := rfl
@[simp] theorem State.setPartition_carries (s : State) (k : Partition) : (s.setPartition k).carries = s.carries := rfl
@[simp] theorem State.setPartition_nextCarry (s : State) (k : Partition) : (s.setPartition k).nextCarry = s.nextCarry := rfl
@[simp] theorem State.setPartition_launches (s : State) (k : Partition) : (s.setPartition k).launches = s.launches := rfl
@[simp] theorem State.setPartition_nextLaunch (s : State) (k : Partition) : (s.setPartition k).nextLaunch = s.nextLaunch := rfl
@[simp] theorem State.setPartition_wgs (s : State) (k : Partition) : (s.setPartition k).wgs = s.wgs := rfl
@[simp] theorem State.setPartition_teams (s : State) (k : Partition) : (s.setPartition k).teams = s.teams := rfl
@[simp] theorem State.setPartition_nextBorn (s : State) (k : Partition) : (s.setPartition k).nextBorn = s.nextBorn := rfl
@[simp] theorem State.setPartition_entries (s : State) (k : Partition) : (s.setPartition k).entries = s.entries := rfl
@[simp] theorem State.setPartition_nextEntry (s : State) (k : Partition) : (s.setPartition k).nextEntry = s.nextEntry := rfl
@[simp] theorem State.setPartition_nextPromo (s : State) (k : Partition) : (s.setPartition k).nextPromo = s.nextPromo := rfl
@[simp] theorem State.setPartition_overflow (s : State) (k : Partition) : (s.setPartition k).overflow = s.overflow := rfl
@[simp] theorem State.setPartition_cur (s : State) (k : Partition) : (s.setPartition k).cur = s.cur := rfl
@[simp] theorem State.setPartition_inflight (s : State) (k : Partition) : (s.setPartition k).inflight = s.inflight := rfl
@[simp] theorem State.setPartition_snaps (s : State) (k : Partition) : (s.setPartition k).snaps = s.snaps := rfl
@[simp] theorem State.setPartition_queues (s : State) (k : Partition) : (s.setPartition k).queues = s.queues := rfl
@[simp] theorem State.setPartition_sqs (s : State) (k : Partition) : (s.setPartition k).sqs = s.sqs := rfl
@[simp] theorem State.setPartition_nextSq (s : State) (k : Partition) : (s.setPartition k).nextSq = s.nextSq := rfl
@[simp] theorem State.setPartition_mailboxes (s : State) (k : Partition) : (s.setPartition k).mailboxes = s.mailboxes := rfl
@[simp] theorem State.setPartition_staging (s : State) (k : Partition) : (s.setPartition k).staging = s.staging := rfl
@[simp] theorem State.setPartition_msix (s : State) (k : Partition) : (s.setPartition k).msix = s.msix := rfl
@[simp] theorem State.setPartition_notices (s : State) (k : Partition) : (s.setPartition k).notices = s.notices := rfl
@[simp] theorem State.setPartition_batches (s : State) (k : Partition) : (s.setPartition k).batches = s.batches := rfl
@[simp] theorem State.setPartition_wpLog (s : State) (k : Partition) : (s.setPartition k).wpLog = s.wpLog := rfl
@[simp] theorem State.setPartition_nlRecords (s : State) (k : Partition) : (s.setPartition k).nlRecords = s.nlRecords := rfl
@[simp] theorem State.setPartition_nlStopped (s : State) (k : Partition) : (s.setPartition k).nlStopped = s.nlStopped := rfl
@[simp] theorem State.setPartition_answer (s : State) (k : Partition) : (s.setPartition k).answer = s.answer := rfl
@[simp] theorem State.setPartition_agenda (s : State) (k : Partition) : (s.setPartition k).agenda = s.agenda := rfl
@[simp] theorem State.setPartition_env (s : State) (k : Partition) : (s.setPartition k).env = s.env := rfl
@[simp] theorem State.setPartition_images (s : State) (k : Partition) : (s.setPartition k).images = s.images := rfl
@[simp] theorem State.setPartition_unordered (s : State) (k : Partition) : (s.setPartition k).unordered = s.unordered := rfl
@[simp] theorem State.setPartition_freeCount (s : State) (k : Partition) : (s.setPartition k).freeCount = s.freeCount := rfl

/-! ### State.setView -/

@[simp] theorem State.setView_tick (s : State) (v : View) : (s.setView v).tick = s.tick := rfl
@[simp] theorem State.setView_stopTick (s : State) (v : View) : (s.setView v).stopTick = s.stopTick := rfl
@[simp] theorem State.setView_gated (s : State) (v : View) : (s.setView v).gated = s.gated := rfl
@[simp] theorem State.setView_bring (s : State) (v : View) : (s.setView v).bring = s.bring := rfl
@[simp] theorem State.setView_deviceHealth (s : State) (v : View) : (s.setView v).deviceHealth = s.deviceHealth := rfl
@[simp] theorem State.setView_l2cfg (s : State) (v : View) : (s.setView v).l2cfg = s.l2cfg := rfl
@[simp] theorem State.setView_fabricCaps (s : State) (v : View) : (s.setView v).fabricCaps = s.fabricCaps := rfl
@[simp] theorem State.setView_budget (s : State) (v : View) : (s.setView v).budget = s.budget := rfl
@[simp] theorem State.setView_mem (s : State) (v : View) : (s.setView v).mem = s.mem := rfl
@[simp] theorem State.setView_remote (s : State) (v : View) : (s.setView v).remote = s.remote := rfl
@[simp] theorem State.setView_dirLost (s : State) (v : View) : (s.setView v).dirLost = s.dirLost := rfl
@[simp] theorem State.setView_shared (s : State) (v : View) : (s.setView v).shared = s.shared := rfl
@[simp] theorem State.setView_badSeals (s : State) (v : View) : (s.setView v).badSeals = s.badSeals := rfl
@[simp] theorem State.setView_l2Dirty (s : State) (v : View) : (s.setView v).l2Dirty = s.l2Dirty := rfl
@[simp] theorem State.setView_l2Valid (s : State) (v : View) : (s.setView v).l2Valid = s.l2Valid := rfl
@[simp] theorem State.setView_pinned (s : State) (v : View) : (s.setView v).pinned = s.pinned := rfl
@[simp] theorem State.setView_l2Home (s : State) (v : View) : (s.setView v).l2Home = s.l2Home := rfl
@[simp] theorem State.setView_poison (s : State) (v : View) : (s.setView v).poison = s.poison := rfl
@[simp] theorem State.setView_links (s : State) (v : View) : (s.setView v).links = s.links := rfl
@[simp] theorem State.setView_ports (s : State) (v : View) : (s.setView v).ports = s.ports := rfl
@[simp] theorem State.setView_dies (s : State) (v : View) : (s.setView v).dies = s.dies := rfl
@[simp] theorem State.setView_cores (s : State) (v : View) : (s.setView v).cores = s.cores := rfl
@[simp] theorem State.setView_spaces (s : State) (v : View) : (s.setView v).spaces = s.spaces := rfl
@[simp] theorem State.setView_tlb (s : State) (v : View) : (s.setView v).tlb = s.tlb := rfl
@[simp] theorem State.setView_upper (s : State) (v : View) : (s.setView v).upper = s.upper := rfl
@[simp] theorem State.setView_requests (s : State) (v : View) : (s.setView v).requests = s.requests := rfl
@[simp] theorem State.setView_ctxMaps (s : State) (v : View) : (s.setView v).ctxMaps = s.ctxMaps := rfl
@[simp] theorem State.setView_carries (s : State) (v : View) : (s.setView v).carries = s.carries := rfl
@[simp] theorem State.setView_nextCarry (s : State) (v : View) : (s.setView v).nextCarry = s.nextCarry := rfl
@[simp] theorem State.setView_launches (s : State) (v : View) : (s.setView v).launches = s.launches := rfl
@[simp] theorem State.setView_nextLaunch (s : State) (v : View) : (s.setView v).nextLaunch = s.nextLaunch := rfl
@[simp] theorem State.setView_wgs (s : State) (v : View) : (s.setView v).wgs = s.wgs := rfl
@[simp] theorem State.setView_parts (s : State) (v : View) : (s.setView v).parts = s.parts := rfl
@[simp] theorem State.setView_teams (s : State) (v : View) : (s.setView v).teams = s.teams := rfl
@[simp] theorem State.setView_nextBorn (s : State) (v : View) : (s.setView v).nextBorn = s.nextBorn := rfl
@[simp] theorem State.setView_entries (s : State) (v : View) : (s.setView v).entries = s.entries := rfl
@[simp] theorem State.setView_nextEntry (s : State) (v : View) : (s.setView v).nextEntry = s.nextEntry := rfl
@[simp] theorem State.setView_nextPromo (s : State) (v : View) : (s.setView v).nextPromo = s.nextPromo := rfl
@[simp] theorem State.setView_overflow (s : State) (v : View) : (s.setView v).overflow = s.overflow := rfl
@[simp] theorem State.setView_cur (s : State) (v : View) : (s.setView v).cur = s.cur := rfl
@[simp] theorem State.setView_inflight (s : State) (v : View) : (s.setView v).inflight = s.inflight := rfl
@[simp] theorem State.setView_snaps (s : State) (v : View) : (s.setView v).snaps = s.snaps := rfl
@[simp] theorem State.setView_queues (s : State) (v : View) : (s.setView v).queues = s.queues := rfl
@[simp] theorem State.setView_sqs (s : State) (v : View) : (s.setView v).sqs = s.sqs := rfl
@[simp] theorem State.setView_nextSq (s : State) (v : View) : (s.setView v).nextSq = s.nextSq := rfl
@[simp] theorem State.setView_mailboxes (s : State) (v : View) : (s.setView v).mailboxes = s.mailboxes := rfl
@[simp] theorem State.setView_staging (s : State) (v : View) : (s.setView v).staging = s.staging := rfl
@[simp] theorem State.setView_msix (s : State) (v : View) : (s.setView v).msix = s.msix := rfl
@[simp] theorem State.setView_notices (s : State) (v : View) : (s.setView v).notices = s.notices := rfl
@[simp] theorem State.setView_batches (s : State) (v : View) : (s.setView v).batches = s.batches := rfl
@[simp] theorem State.setView_wpLog (s : State) (v : View) : (s.setView v).wpLog = s.wpLog := rfl
@[simp] theorem State.setView_nlRecords (s : State) (v : View) : (s.setView v).nlRecords = s.nlRecords := rfl
@[simp] theorem State.setView_nlStopped (s : State) (v : View) : (s.setView v).nlStopped = s.nlStopped := rfl
@[simp] theorem State.setView_answer (s : State) (v : View) : (s.setView v).answer = s.answer := rfl
@[simp] theorem State.setView_agenda (s : State) (v : View) : (s.setView v).agenda = s.agenda := rfl
@[simp] theorem State.setView_env (s : State) (v : View) : (s.setView v).env = s.env := rfl
@[simp] theorem State.setView_images (s : State) (v : View) : (s.setView v).images = s.images := rfl
@[simp] theorem State.setView_unordered (s : State) (v : View) : (s.setView v).unordered = s.unordered := rfl
@[simp] theorem State.setView_freeCount (s : State) (v : View) : (s.setView v).freeCount = s.freeCount := rfl

/-! ### State.pick -/

@[simp] theorem State.pick_tick (s : State) (n : Nat) : (s.pick n).2.tick = s.tick := rfl
@[simp] theorem State.pick_stopTick (s : State) (n : Nat) : (s.pick n).2.stopTick = s.stopTick := rfl
@[simp] theorem State.pick_gated (s : State) (n : Nat) : (s.pick n).2.gated = s.gated := rfl
@[simp] theorem State.pick_bring (s : State) (n : Nat) : (s.pick n).2.bring = s.bring := rfl
@[simp] theorem State.pick_deviceHealth (s : State) (n : Nat) : (s.pick n).2.deviceHealth = s.deviceHealth := rfl
@[simp] theorem State.pick_l2cfg (s : State) (n : Nat) : (s.pick n).2.l2cfg = s.l2cfg := rfl
@[simp] theorem State.pick_fabricCaps (s : State) (n : Nat) : (s.pick n).2.fabricCaps = s.fabricCaps := rfl
@[simp] theorem State.pick_budget (s : State) (n : Nat) : (s.pick n).2.budget = s.budget := rfl
@[simp] theorem State.pick_mem (s : State) (n : Nat) : (s.pick n).2.mem = s.mem := rfl
@[simp] theorem State.pick_remote (s : State) (n : Nat) : (s.pick n).2.remote = s.remote := rfl
@[simp] theorem State.pick_dirLost (s : State) (n : Nat) : (s.pick n).2.dirLost = s.dirLost := rfl
@[simp] theorem State.pick_shared (s : State) (n : Nat) : (s.pick n).2.shared = s.shared := rfl
@[simp] theorem State.pick_badSeals (s : State) (n : Nat) : (s.pick n).2.badSeals = s.badSeals := rfl
@[simp] theorem State.pick_l2Dirty (s : State) (n : Nat) : (s.pick n).2.l2Dirty = s.l2Dirty := rfl
@[simp] theorem State.pick_l2Valid (s : State) (n : Nat) : (s.pick n).2.l2Valid = s.l2Valid := rfl
@[simp] theorem State.pick_pinned (s : State) (n : Nat) : (s.pick n).2.pinned = s.pinned := rfl
@[simp] theorem State.pick_l2Home (s : State) (n : Nat) : (s.pick n).2.l2Home = s.l2Home := rfl
@[simp] theorem State.pick_poison (s : State) (n : Nat) : (s.pick n).2.poison = s.poison := rfl
@[simp] theorem State.pick_links (s : State) (n : Nat) : (s.pick n).2.links = s.links := rfl
@[simp] theorem State.pick_ports (s : State) (n : Nat) : (s.pick n).2.ports = s.ports := rfl
@[simp] theorem State.pick_dies (s : State) (n : Nat) : (s.pick n).2.dies = s.dies := rfl
@[simp] theorem State.pick_cores (s : State) (n : Nat) : (s.pick n).2.cores = s.cores := rfl
@[simp] theorem State.pick_spaces (s : State) (n : Nat) : (s.pick n).2.spaces = s.spaces := rfl
@[simp] theorem State.pick_tlb (s : State) (n : Nat) : (s.pick n).2.tlb = s.tlb := rfl
@[simp] theorem State.pick_upper (s : State) (n : Nat) : (s.pick n).2.upper = s.upper := rfl
@[simp] theorem State.pick_requests (s : State) (n : Nat) : (s.pick n).2.requests = s.requests := rfl
@[simp] theorem State.pick_ctxMaps (s : State) (n : Nat) : (s.pick n).2.ctxMaps = s.ctxMaps := rfl
@[simp] theorem State.pick_views (s : State) (n : Nat) : (s.pick n).2.views = s.views := rfl
@[simp] theorem State.pick_carries (s : State) (n : Nat) : (s.pick n).2.carries = s.carries := rfl
@[simp] theorem State.pick_nextCarry (s : State) (n : Nat) : (s.pick n).2.nextCarry = s.nextCarry := rfl
@[simp] theorem State.pick_launches (s : State) (n : Nat) : (s.pick n).2.launches = s.launches := rfl
@[simp] theorem State.pick_nextLaunch (s : State) (n : Nat) : (s.pick n).2.nextLaunch = s.nextLaunch := rfl
@[simp] theorem State.pick_wgs (s : State) (n : Nat) : (s.pick n).2.wgs = s.wgs := rfl
@[simp] theorem State.pick_parts (s : State) (n : Nat) : (s.pick n).2.parts = s.parts := rfl
@[simp] theorem State.pick_teams (s : State) (n : Nat) : (s.pick n).2.teams = s.teams := rfl
@[simp] theorem State.pick_nextBorn (s : State) (n : Nat) : (s.pick n).2.nextBorn = s.nextBorn := rfl
@[simp] theorem State.pick_entries (s : State) (n : Nat) : (s.pick n).2.entries = s.entries := rfl
@[simp] theorem State.pick_nextEntry (s : State) (n : Nat) : (s.pick n).2.nextEntry = s.nextEntry := rfl
@[simp] theorem State.pick_nextPromo (s : State) (n : Nat) : (s.pick n).2.nextPromo = s.nextPromo := rfl
@[simp] theorem State.pick_overflow (s : State) (n : Nat) : (s.pick n).2.overflow = s.overflow := rfl
@[simp] theorem State.pick_cur (s : State) (n : Nat) : (s.pick n).2.cur = s.cur := rfl
@[simp] theorem State.pick_inflight (s : State) (n : Nat) : (s.pick n).2.inflight = s.inflight := rfl
@[simp] theorem State.pick_snaps (s : State) (n : Nat) : (s.pick n).2.snaps = s.snaps := rfl
@[simp] theorem State.pick_queues (s : State) (n : Nat) : (s.pick n).2.queues = s.queues := rfl
@[simp] theorem State.pick_sqs (s : State) (n : Nat) : (s.pick n).2.sqs = s.sqs := rfl
@[simp] theorem State.pick_nextSq (s : State) (n : Nat) : (s.pick n).2.nextSq = s.nextSq := rfl
@[simp] theorem State.pick_mailboxes (s : State) (n : Nat) : (s.pick n).2.mailboxes = s.mailboxes := rfl
@[simp] theorem State.pick_staging (s : State) (n : Nat) : (s.pick n).2.staging = s.staging := rfl
@[simp] theorem State.pick_msix (s : State) (n : Nat) : (s.pick n).2.msix = s.msix := rfl
@[simp] theorem State.pick_notices (s : State) (n : Nat) : (s.pick n).2.notices = s.notices := rfl
@[simp] theorem State.pick_batches (s : State) (n : Nat) : (s.pick n).2.batches = s.batches := rfl
@[simp] theorem State.pick_wpLog (s : State) (n : Nat) : (s.pick n).2.wpLog = s.wpLog := rfl
@[simp] theorem State.pick_nlRecords (s : State) (n : Nat) : (s.pick n).2.nlRecords = s.nlRecords := rfl
@[simp] theorem State.pick_nlStopped (s : State) (n : Nat) : (s.pick n).2.nlStopped = s.nlStopped := rfl
@[simp] theorem State.pick_answer (s : State) (n : Nat) : (s.pick n).2.answer = s.answer := rfl
@[simp] theorem State.pick_agenda (s : State) (n : Nat) : (s.pick n).2.agenda = s.agenda := rfl
@[simp] theorem State.pick_env (s : State) (n : Nat) : (s.pick n).2.env = s.env := rfl
@[simp] theorem State.pick_images (s : State) (n : Nat) : (s.pick n).2.images = s.images := rfl
@[simp] theorem State.pick_unordered (s : State) (n : Nat) : (s.pick n).2.unordered = s.unordered := rfl
@[simp] theorem State.pick_freeCount (s : State) (n : Nat) : (s.pick n).2.freeCount = s.freeCount + 1 := rfl

/-! ### Team.mapThreads -/

@[simp] theorem Team.mapThreads_launch (T : Team) (f : Thread → Thread) : (T.mapThreads f).launch = T.launch := rfl
@[simp] theorem Team.mapThreads_wg (T : Team) (f : Thread → Thread) : (T.mapThreads f).wg = T.wg := rfl
@[simp] theorem Team.mapThreads_idx (T : Team) (f : Thread → Thread) : (T.mapThreads f).idx = T.idx := rfl
@[simp] theorem Team.mapThreads_width (T : Team) (f : Thread → Thread) : (T.mapThreads f).width = T.width := rfl
@[simp] theorem Team.mapThreads_core (T : Team) (f : Thread → Thread) : (T.mapThreads f).core = T.core := rfl
@[simp] theorem Team.mapThreads_slice (T : Team) (f : Thread → Thread) : (T.mapThreads f).slice = T.slice := rfl
@[simp] theorem Team.mapThreads_span (T : Team) (f : Thread → Thread) : (T.mapThreads f).span = T.span := rfl
@[simp] theorem Team.mapThreads_block (T : Team) (f : Thread → Thread) : (T.mapThreads f).block = T.block := rfl
@[simp] theorem Team.mapThreads_bsize (T : Team) (f : Thread → Thread) : (T.mapThreads f).bsize = T.bsize := rfl
@[simp] theorem Team.mapThreads_born (T : Team) (f : Thread → Thread) : (T.mapThreads f).born = T.born := rfl
@[simp] theorem Team.mapThreads_s (T : Team) (f : Thread → Thread) : (T.mapThreads f).s = T.s := rfl
@[simp] theorem Team.mapThreads_maps (T : Team) (f : Thread → Thread) : (T.mapThreads f).maps = T.maps := rfl
@[simp] theorem Team.mapThreads_windsock (T : Team) (f : Thread → Thread) : (T.mapThreads f).windsock = T.windsock := rfl
@[simp] theorem Team.mapThreads_rowprog (T : Team) (f : Thread → Thread) : (T.mapThreads f).rowprog = T.rowprog := rfl
@[simp] theorem Team.mapThreads_rowSeen (T : Team) (f : Thread → Thread) : (T.mapThreads f).rowSeen = T.rowSeen := rfl
@[simp] theorem Team.mapThreads_stoppedOps (T : Team) (f : Thread → Thread) : (T.mapThreads f).stoppedOps = T.stoppedOps := rfl
@[simp] theorem Team.mapThreads_blc (T : Team) (f : Thread → Thread) : (T.mapThreads f).blc = T.blc := rfl
@[simp] theorem Team.mapThreads_accwin (T : Team) (f : Thread → Thread) : (T.mapThreads f).accwin = T.accwin := rfl
@[simp] theorem Team.mapThreads_tagmode (T : Team) (f : Thread → Thread) : (T.mapThreads f).tagmode = T.tagmode := rfl
@[simp] theorem Team.mapThreads_tickd (T : Team) (f : Thread → Thread) : (T.mapThreads f).tickd = T.tickd := rfl
@[simp] theorem Team.mapThreads_halted (T : Team) (f : Thread → Thread) : (T.mapThreads f).halted = T.halted := rfl
@[simp] theorem Team.mapThreads_stopReq (T : Team) (f : Thread → Thread) : (T.mapThreads f).stopReq = T.stopReq := rfl
@[simp] theorem Team.mapThreads_recent (T : Team) (f : Thread → Thread) : (T.mapThreads f).recent = T.recent := rfl
@[simp] theorem Team.mapThreads_stepping (T : Team) (f : Thread → Thread) : (T.mapThreads f).stepping = T.stepping := rfl
@[simp] theorem Team.mapThreads_votes (T : Team) (f : Thread → Thread) : (T.mapThreads f).votes = T.votes := rfl
@[simp] theorem Team.mapThreads_ecc (T : Team) (f : Thread → Thread) : (T.mapThreads f).ecc = T.ecc := rfl
@[simp] theorem Team.mapThreads_threads (T : Team) (f : Thread → Thread) : (T.mapThreads f).threads = T.threads.map f := rfl

/-! ### The last-result shift and predicates -/

@[simp] theorem Thread.shiftY_lane (th : Thread) (n : Nat) : (th.shiftY n).lane = th.lane := rfl
@[simp] theorem Thread.shiftTag_lane (th : Thread) (n : Nat) : (th.shiftTag n).lane = th.lane := rfl
@[simp] theorem Thread.setP_lane (th : Thread) (n : Nat) (b : Bool) : (th.setP n b).lane = th.lane := rfl
@[simp] theorem Thread.shiftY_tid (th : Thread) (n : Nat) : (th.shiftY n).tid = th.tid := rfl
@[simp] theorem Thread.shiftTag_tid (th : Thread) (n : Nat) : (th.shiftTag n).tid = th.tid := rfl
@[simp] theorem Thread.setP_tid (th : Thread) (n : Nat) (b : Bool) : (th.setP n b).tid = th.tid := rfl
@[simp] theorem Thread.shiftY_v (th : Thread) (n : Nat) : (th.shiftY n).v = th.v := rfl
@[simp] theorem Thread.shiftTag_v (th : Thread) (n : Nat) : (th.shiftTag n).v = th.v := rfl
@[simp] theorem Thread.setP_v (th : Thread) (n : Nat) (b : Bool) : (th.setP n b).v = th.v := rfl
@[simp] theorem Thread.shiftY_w (th : Thread) (n : Nat) : (th.shiftY n).w = th.w := rfl
@[simp] theorem Thread.shiftTag_w (th : Thread) (n : Nat) : (th.shiftTag n).w = th.w := rfl
@[simp] theorem Thread.setP_w (th : Thread) (n : Nat) (b : Bool) : (th.setP n b).w = th.w := rfl
@[simp] theorem Thread.setP_y0 (th : Thread) (n : Nat) (b : Bool) : (th.setP n b).y0 = th.y0 := rfl
@[simp] theorem Thread.setP_y1 (th : Thread) (n : Nat) (b : Bool) : (th.setP n b).y1 = th.y1 := rfl
@[simp] theorem Thread.shiftY_p (th : Thread) (n : Nat) : (th.shiftY n).p = th.p := rfl
@[simp] theorem Thread.shiftTag_p (th : Thread) (n : Nat) : (th.shiftTag n).p = th.p := rfl
@[simp] theorem Thread.shiftY_ix (th : Thread) (n : Nat) : (th.shiftY n).ix = th.ix := rfl
@[simp] theorem Thread.shiftTag_ix (th : Thread) (n : Nat) : (th.shiftTag n).ix = th.ix := rfl
@[simp] theorem Thread.setP_ix (th : Thread) (n : Nat) (b : Bool) : (th.setP n b).ix = th.ix := rfl
@[simp] theorem Thread.shiftY_lc (th : Thread) (n : Nat) : (th.shiftY n).lc = th.lc := rfl
@[simp] theorem Thread.shiftTag_lc (th : Thread) (n : Nat) : (th.shiftTag n).lc = th.lc := rfl
@[simp] theorem Thread.setP_lc (th : Thread) (n : Nat) (b : Bool) : (th.setP n b).lc = th.lc := rfl
@[simp] theorem Thread.shiftY_gpc (th : Thread) (n : Nat) : (th.shiftY n).gpc = th.gpc := rfl
@[simp] theorem Thread.shiftTag_gpc (th : Thread) (n : Nat) : (th.shiftTag n).gpc = th.gpc := rfl
@[simp] theorem Thread.setP_gpc (th : Thread) (n : Nat) (b : Bool) : (th.setP n b).gpc = th.gpc := rfl
@[simp] theorem Thread.shiftY_gop (th : Thread) (n : Nat) : (th.shiftY n).gop = th.gop := rfl
@[simp] theorem Thread.shiftTag_gop (th : Thread) (n : Nat) : (th.shiftTag n).gop = th.gop := rfl
@[simp] theorem Thread.setP_gop (th : Thread) (n : Nat) (b : Bool) : (th.setP n b).gop = th.gop := rfl
@[simp] theorem Thread.shiftY_mode (th : Thread) (n : Nat) : (th.shiftY n).mode = th.mode := rfl
@[simp] theorem Thread.shiftTag_mode (th : Thread) (n : Nat) : (th.shiftTag n).mode = th.mode := rfl
@[simp] theorem Thread.setP_mode (th : Thread) (n : Nat) (b : Bool) : (th.setP n b).mode = th.mode := rfl
@[simp] theorem Thread.shiftY_vote (th : Thread) (n : Nat) : (th.shiftY n).vote = th.vote := rfl
@[simp] theorem Thread.shiftTag_vote (th : Thread) (n : Nat) : (th.shiftTag n).vote = th.vote := rfl
@[simp] theorem Thread.setP_vote (th : Thread) (n : Nat) (b : Bool) : (th.setP n b).vote = th.vote := rfl
@[simp] theorem Thread.shiftY_rstack (th : Thread) (n : Nat) : (th.shiftY n).rstack = th.rstack := rfl
@[simp] theorem Thread.shiftTag_rstack (th : Thread) (n : Nat) : (th.shiftTag n).rstack = th.rstack := rfl
@[simp] theorem Thread.setP_rstack (th : Thread) (n : Nat) (b : Bool) : (th.setP n b).rstack = th.rstack := rfl
@[simp] theorem Thread.shiftY_bc (th : Thread) (n : Nat) : (th.shiftY n).bc = th.bc := rfl
@[simp] theorem Thread.shiftTag_bc (th : Thread) (n : Nat) : (th.shiftTag n).bc = th.bc := rfl
@[simp] theorem Thread.setP_bc (th : Thread) (n : Nat) (b : Bool) : (th.setP n b).bc = th.bc := rfl
@[simp] theorem Thread.shiftY_loops (th : Thread) (n : Nat) : (th.shiftY n).loops = th.loops := rfl
@[simp] theorem Thread.shiftTag_loops (th : Thread) (n : Nat) : (th.shiftTag n).loops = th.loops := rfl
@[simp] theorem Thread.setP_loops (th : Thread) (n : Nat) (b : Bool) : (th.setP n b).loops = th.loops := rfl
@[simp] theorem Thread.shiftY_clause (th : Thread) (n : Nat) : (th.shiftY n).clause = th.clause := rfl
@[simp] theorem Thread.shiftTag_clause (th : Thread) (n : Nat) : (th.shiftTag n).clause = th.clause := rfl
@[simp] theorem Thread.setP_clause (th : Thread) (n : Nat) (b : Bool) : (th.setP n b).clause = th.clause := rfl
@[simp] theorem Thread.shiftY_slot (th : Thread) (n : Nat) : (th.shiftY n).slot = th.slot := rfl
@[simp] theorem Thread.shiftTag_slot (th : Thread) (n : Nat) : (th.shiftTag n).slot = th.slot := rfl
@[simp] theorem Thread.setP_slot (th : Thread) (n : Nat) (b : Bool) : (th.setP n b).slot = th.slot := rfl
@[simp] theorem Thread.shiftY_inside (th : Thread) (n : Nat) : (th.shiftY n).inside = th.inside := rfl
@[simp] theorem Thread.shiftTag_inside (th : Thread) (n : Nat) : (th.shiftTag n).inside = th.inside := rfl
@[simp] theorem Thread.setP_inside (th : Thread) (n : Nat) (b : Bool) : (th.setP n b).inside = th.inside := rfl
@[simp] theorem Thread.shiftY_next (th : Thread) (n : Nat) : (th.shiftY n).next = th.next := rfl
@[simp] theorem Thread.shiftTag_next (th : Thread) (n : Nat) : (th.shiftTag n).next = th.next := rfl
@[simp] theorem Thread.setP_next (th : Thread) (n : Nat) (b : Bool) : (th.setP n b).next = th.next := rfl
@[simp] theorem Thread.shiftY_entry (th : Thread) (n : Nat) : (th.shiftY n).entry = th.entry := rfl
@[simp] theorem Thread.shiftTag_entry (th : Thread) (n : Nat) : (th.shiftTag n).entry = th.entry := rfl
@[simp] theorem Thread.setP_entry (th : Thread) (n : Nat) (b : Bool) : (th.setP n b).entry = th.entry := rfl
@[simp] theorem Thread.shiftY_slotDone (th : Thread) (n : Nat) : (th.shiftY n).slotDone = th.slotDone := rfl
@[simp] theorem Thread.shiftTag_slotDone (th : Thread) (n : Nat) : (th.shiftTag n).slotDone = th.slotDone := rfl
@[simp] theorem Thread.setP_slotDone (th : Thread) (n : Nat) (b : Bool) : (th.setP n b).slotDone = th.slotDone := rfl
@[simp] theorem Thread.shiftY_hold (th : Thread) (n : Nat) : (th.shiftY n).hold = th.hold := rfl
@[simp] theorem Thread.shiftTag_hold (th : Thread) (n : Nat) : (th.shiftTag n).hold = th.hold := rfl
@[simp] theorem Thread.setP_hold (th : Thread) (n : Nat) (b : Bool) : (th.setP n b).hold = th.hold := rfl
@[simp] theorem Thread.shiftY_status (th : Thread) (n : Nat) : (th.shiftY n).status = th.status := rfl
@[simp] theorem Thread.shiftTag_status (th : Thread) (n : Nat) : (th.shiftTag n).status = th.status := rfl
@[simp] theorem Thread.setP_status (th : Thread) (n : Nat) (b : Bool) : (th.setP n b).status = th.status := rfl
@[simp] theorem Thread.shiftY_record (th : Thread) (n : Nat) : (th.shiftY n).record = th.record := rfl
@[simp] theorem Thread.shiftTag_record (th : Thread) (n : Nat) : (th.shiftTag n).record = th.record := rfl
@[simp] theorem Thread.setP_record (th : Thread) (n : Nat) (b : Bool) : (th.setP n b).record = th.record := rfl
@[simp] theorem Thread.shiftY_frame (th : Thread) (n : Nat) : (th.shiftY n).frame = th.frame := rfl
@[simp] theorem Thread.shiftTag_frame (th : Thread) (n : Nat) : (th.shiftTag n).frame = th.frame := rfl
@[simp] theorem Thread.setP_frame (th : Thread) (n : Nat) (b : Bool) : (th.setP n b).frame = th.frame := rfl
@[simp] theorem Thread.shiftY_outst (th : Thread) (n : Nat) : (th.shiftY n).outst = th.outst := rfl
@[simp] theorem Thread.shiftTag_outst (th : Thread) (n : Nat) : (th.shiftTag n).outst = th.outst := rfl
@[simp] theorem Thread.setP_outst (th : Thread) (n : Nat) (b : Bool) : (th.setP n b).outst = th.outst := rfl
@[simp] theorem Thread.shiftY_defer (th : Thread) (n : Nat) : (th.shiftY n).defer = th.defer := rfl
@[simp] theorem Thread.shiftTag_defer (th : Thread) (n : Nat) : (th.shiftTag n).defer = th.defer := rfl
@[simp] theorem Thread.setP_defer (th : Thread) (n : Nat) (b : Bool) : (th.setP n b).defer = th.defer := rfl
@[simp] theorem Thread.shiftY_nextTag (th : Thread) (n : Nat) : (th.shiftY n).nextTag = th.nextTag := rfl
@[simp] theorem Thread.shiftTag_nextTag (th : Thread) (n : Nat) : (th.shiftTag n).nextTag = th.nextTag := rfl
@[simp] theorem Thread.setP_nextTag (th : Thread) (n : Nat) (b : Bool) : (th.setP n b).nextTag = th.nextTag := rfl
@[simp] theorem Thread.shiftY_svc (th : Thread) (n : Nat) : (th.shiftY n).svc = th.svc := rfl
@[simp] theorem Thread.shiftTag_svc (th : Thread) (n : Nat) : (th.shiftTag n).svc = th.svc := rfl
@[simp] theorem Thread.setP_svc (th : Thread) (n : Nat) (b : Bool) : (th.setP n b).svc = th.svc := rfl
@[simp] theorem Thread.shiftY_skipGbp (th : Thread) (n : Nat) : (th.shiftY n).skipGbp = th.skipGbp := rfl
@[simp] theorem Thread.shiftTag_skipGbp (th : Thread) (n : Nat) : (th.shiftTag n).skipGbp = th.skipGbp := rfl
@[simp] theorem Thread.setP_skipGbp (th : Thread) (n : Nat) (b : Bool) : (th.setP n b).skipGbp = th.skipGbp := rfl
@[simp] theorem Thread.shiftY_qslots (th : Thread) (n : Nat) : (th.shiftY n).qslots = th.qslots := rfl
@[simp] theorem Thread.shiftTag_qslots (th : Thread) (n : Nat) : (th.shiftTag n).qslots = th.qslots := rfl
@[simp] theorem Thread.setP_qslots (th : Thread) (n : Nat) (b : Bool) : (th.setP n b).qslots = th.qslots := rfl
@[simp] theorem Thread.shiftY_claim (th : Thread) (n : Nat) : (th.shiftY n).claim = th.claim := rfl
@[simp] theorem Thread.shiftTag_claim (th : Thread) (n : Nat) : (th.shiftTag n).claim = th.claim := rfl
@[simp] theorem Thread.setP_claim (th : Thread) (n : Nat) (b : Bool) : (th.setP n b).claim = th.claim := rfl
@[simp] theorem Thread.shiftY_oneShot (th : Thread) (n : Nat) : (th.shiftY n).oneShot = th.oneShot := rfl
@[simp] theorem Thread.shiftTag_oneShot (th : Thread) (n : Nat) : (th.shiftTag n).oneShot = th.oneShot := rfl
@[simp] theorem Thread.setP_oneShot (th : Thread) (n : Nat) (b : Bool) : (th.setP n b).oneShot = th.oneShot := rfl
@[simp] theorem Thread.shiftY_delivered (th : Thread) (n : Nat) : (th.shiftY n).delivered = th.delivered := rfl
@[simp] theorem Thread.shiftTag_delivered (th : Thread) (n : Nat) : (th.shiftTag n).delivered = th.delivered := rfl
@[simp] theorem Thread.setP_delivered (th : Thread) (n : Nat) (b : Bool) : (th.setP n b).delivered = th.delivered := rfl
@[simp] theorem Thread.shiftY_age (th : Thread) (n : Nat) : (th.shiftY n).age = th.age := rfl
@[simp] theorem Thread.shiftTag_age (th : Thread) (n : Nat) : (th.shiftTag n).age = th.age := rfl
@[simp] theorem Thread.setP_age (th : Thread) (n : Nat) (b : Bool) : (th.setP n b).age = th.age := rfl
@[simp] theorem Thread.shiftY_promo (th : Thread) (n : Nat) : (th.shiftY n).promo = th.promo := rfl
@[simp] theorem Thread.shiftTag_promo (th : Thread) (n : Nat) : (th.shiftTag n).promo = th.promo := rfl
@[simp] theorem Thread.setP_promo (th : Thread) (n : Nat) (b : Bool) : (th.setP n b).promo = th.promo := rfl
@[simp] theorem Thread.shiftY_regroup (th : Thread) (n : Nat) : (th.shiftY n).regroup = th.regroup := rfl
@[simp] theorem Thread.shiftTag_regroup (th : Thread) (n : Nat) : (th.shiftTag n).regroup = th.regroup := rfl
@[simp] theorem Thread.setP_regroup (th : Thread) (n : Nat) (b : Bool) : (th.setP n b).regroup = th.regroup := rfl
@[simp] theorem Thread.shiftY_y0 (th : Thread) (n : Nat) : (th.shiftY n).y0 = { val := BitVec.ofNat 64 n, tag := none } := rfl
@[simp] theorem Thread.shiftY_y1 (th : Thread) (n : Nat) : (th.shiftY n).y1 = th.y0 := rfl
@[simp] theorem Thread.shiftTag_y1 (th : Thread) (n : Nat) : (th.shiftTag n).y1 = th.y0 := rfl
@[simp] theorem Thread.shiftY_ecc (th : Thread) (n : Nat) : (th.shiftY n).ecc = shiftMarks th.ecc false := rfl
@[simp] theorem Thread.shiftTag_ecc (th : Thread) (n : Nat) : (th.shiftTag n).ecc = shiftMarks th.ecc true := rfl
@[simp] theorem Thread.setP_ecc (th : Thread) (n : Nat) (b : Bool) : (th.setP n b).ecc = th.ecc.filter (· != 0x150 + n) := rfl

end Sys2Proof.Machine
end

