-- ==== Sys2Proof/Laws/Ops.lean ====
section
/-!
SUPPORT. Laws/Ops.lean: what each shared operation on the lanes of the group can do, once: applying an instruction to each lane
(00 R9, R10), its checks, and a fault of the whole group (21 R393, R395).
-/

namespace Sys2Proof.Machine

/-! ## Lists -/

theorem setAt_length {α : Type} (l : List α) (n : Nat) (a : α) : (setAt l n a).length = l.length := by
  induction l generalizing n with
  | nil => rfl
  | cons x l ih => cases n with
    | zero => rfl
    | succ n => simp [setAt, ih]

theorem getD_setAt {α : Type} (l : List α) (n k : Nat) (a d : α) :
    (setAt l n a).getD k d = if k = n ∧ n < l.length then a else l.getD k d := by
  induction l generalizing n k with
  | nil => simp [setAt]
  | cons x l ih =>
    cases n with
    | zero => cases k <;> simp [setAt]
    | succ n => cases k with
      | zero => simp [setAt]
      | succ k => simp only [setAt, List.getD_cons_succ, ih, List.length_cons]; simp only [Nat.add_lt_add_iff_right, Nat.add_right_cancel_iff]

/-! ## Lanes that all complete -/

/-- A team whose executing lanes all complete: each does its own, and nothing else changes. -/
theorem State.runTeam_done {s : State} {c : Cur} {g : Guard} {keep : Bool} {f : Team → Thread → Lane} {T : Team}
    {h : Thread → Thread} {v : Thread → List Nat}
    (hf : ∀ th ∈ T.executing c.entry g, f T th = .done (h th) (v th)) :
    s.runTeam c g keep f T = (T.lanesDone c g h, (T.executing c.entry g).map v) := by
  have hf' : ∀ th ∈ T.threads, (th.issuing c.entry && th.passes g) = true → f T th = .done (h th) (v th) := by
    intro th hth hp; exact hf th (List.mem_filter.mpr ⟨hth, hp⟩)
  unfold State.runTeam
  dsimp only
  split
  · rename_i r _ hr
    obtain ⟨q, hq, hq'⟩ := List.exists_of_findSome?_eq_some hr
    obtain ⟨th, hth, rfl⟩ := List.mem_map.mp hq
    by_cases hp : (th.issuing c.entry && th.passes g) = true
    · simp [hp, hf' th hth hp] at hq'
    · simp [hp] at hq'
  refine Prod.ext ?_ ?_
  · simp only [Team.lanesDone, Team.mapThreads, List.map_map]
    congr 1
    apply List.map_congr_left
    intro th hth
    simp only [Function.comp]
    by_cases hp : (th.issuing c.entry && th.passes g) = true
    · simp only [hp, if_true, hf' th hth hp]
    · simp only [hp]; rfl
  · simp only [Team.executing]
    rw [List.filterMap_map]
    clear hf
    generalize T.threads = l at hf'
    induction l with
    | nil => rfl
    | cons th l ih =>
      have ih := ih (fun th' h' => hf' th' (List.mem_cons_of_mem _ h'))
      by_cases hp : (th.issuing c.entry && th.passes g) = true
      · rw [List.filter_cons, if_pos hp, List.map_cons, ← ih, List.filterMap_cons]
        simp only [Function.comp, hp, if_true, hf' th List.mem_cons_self hp]
      · rw [List.filter_cons, if_neg hp, ← ih, List.filterMap_cons]
        simp only [Function.comp, hp]; rfl

theorem foldl_teams {f : State → Team → State} {k : Team → Team} {l : List Team}
    (hf : ∀ a : State, ∀ T ∈ l, f a T = { a with teams := a.teams ++ [k T] }) (a : State) :
    l.foldl f a = { a with teams := a.teams ++ l.map k } := by
  induction l generalizing a with
  | nil => simp
  | cons T l ih =>
    rw [List.foldl_cons, hf a T List.mem_cons_self, ih (fun a T' h => hf a T' (List.mem_cons_of_mem _ h))]
    simp

theorem Team.lanesDone_empty {T : Team} {c : Cur} {g : Guard} {h : Thread → Thread} (he : T.executing c.entry g = []) :
    T.lanesDone c g h = T := by
  unfold Team.lanesDone Team.mapThreads
  have : T.threads.map (fun th => if th.issuing c.entry && th.passes g then { h th with hold := .passed } else th) = T.threads := by
    conv_rhs => rw [← List.map_id T.threads]
    apply List.map_congr_left
    intro th hth
    have : ¬ ((th.issuing c.entry && th.passes g) = true) := by
      intro hp
      have : th ∈ T.executing c.entry g := List.mem_filter.mpr ⟨hth, hp⟩
      rw [he] at this; exact absurd this (List.not_mem_nil)
    rw [if_neg this]; rfl
  rw [this]

theorem filterMap_get_all {α : Type} {vs : List (List α)} {k : Nat} {v : α} (h : ∀ l ∈ vs, l[k]? = some v) :
    vs.filterMap (·[k]?) = List.replicate vs.length v := by
  induction vs with
  | nil => rfl
  | cons l vs ih =>
    rw [List.filterMap_cons, h l List.mem_cons_self, ih (fun l' h' => h l' (List.mem_cons_of_mem _ h'))]
    rfl

/-- The s destinations of a team whose lanes agree on their values. -/
theorem State.writeSAll_agree {s : State} {vs : List (List Nat)} {x : List Nat} (hne : vs ≠ []) (hv : ∀ l ∈ vs, l = x)
    (sd : List (Nat × Nat)) (k : Nat) (T : Team) (hk : k + sd.length = x.length) :
    s.writeSAll vs sd k T = (s, T.writeSs sd (x.drop k)) := by
  induction sd generalizing k T with
  | nil => simp [State.writeSAll, Team.writeSs]
  | cons q sd ih =>
    obtain ⟨n, bits⟩ := q
    simp only [List.length_cons] at hk
    have hlt : k < x.length := by omega
    have hget : ∀ l ∈ vs, l[k]? = some x[k] := by intro l hl; rw [hv l hl]; simp [hlt]
    have hrep : vs.filterMap (·[k]?) = List.replicate vs.length x[k] := filterMap_get_all hget
    have hone : s.oneOf (s.launch T.launch).recd.det (vs.filterMap (·[k]?)) = (some x[k], s) := by
      rw [hrep]
      cases vs with
      | nil => exact absurd rfl hne
      | cons l vs => simp [State.oneOf, List.replicate_succ]
    simp only [State.writeSAll, hone]
    rw [ih (k + 1) (T.writeS n bits x[k]) (by omega)]
    rw [List.drop_eq_getElem_cons hlt]
    simp only [Team.writeSs, List.zip_cons_cons, List.foldl_cons]

/-- No lane waits where every executing lane completes. -/
theorem State.firstWait_none {s : State} {c : Cur} {g : Guard} {f : Team → Thread → Lane} {h : Team → Thread → Thread}
    {v : Team → Thread → List Nat} (hf : ∀ T ∈ s.teams, ∀ th ∈ T.executing c.entry g, f T th = .done (h T th) (v T th)) :
    s.firstWait c g f = none := by
  unfold State.firstWait
  simp only [List.findSome?_eq_none_iff]
  intro T hT th hth
  rw [hf T hT th hth]

/-- An instruction whose executing lanes all complete, and agree on the values of its s destinations. -/
theorem State.perLane_done {s : State} {c : Cur} {g : Guard} {keep : Bool} {sd : List (Nat × Nat)} {f : Team → Thread → Lane}
    {h : Team → Thread → Thread} {v : Team → Thread → List Nat} {x : Team → List Nat} (hc : s.cur = some c)
    (hf : ∀ T ∈ s.teams, ∀ th ∈ T.executing c.entry g, f T th = .done (h T th) (v T th))
    (hv : sd ≠ [] → ∀ T ∈ s.teams, ∀ th ∈ T.executing c.entry g, v T th = x T ∧ (x T).length = sd.length) :
    s.perLane g sd f keep = s.lanesDone c g sd x h := by
  unfold State.perLane
  simp only [hc, State.firstWait_none hf]
  rw [foldl_teams (k := fun T =>
    if (T.executing c.entry g).isEmpty then T else (T.lanesDone c g (h T)).writeSs sd (x T))]
  · simp [State.lanesDone, State.mapTeams, hc]
  · intro a T hT
    simp only [State.runTeam_done (hf T hT)]
    by_cases hsd : sd = []
    · subst hsd
      simp only [State.writeSAll, Team.writeSs, List.zip_nil_left, List.foldl_nil]
      cases he : T.executing c.entry g with
      | nil => simp [Team.lanesDone_empty he]
      | cons th l => simp
    · cases he : T.executing c.entry g with
      | nil =>
        have hall : ∀ (sd : List (Nat × Nat)) (k : Nat) (T : Team), a.writeSAll [] sd k T = (a, T) := by
          intro sd
          induction sd with
          | nil => intros; rfl
          | cons q sd ih => intro k T; obtain ⟨n, b⟩ := q; simp [State.writeSAll, State.oneOf, ih]
        simp [hall, Team.lanesDone_empty he]
      | cons th l =>
        have hx := hv hsd T hT th (by rw [he]; exact List.mem_cons_self)
        rw [State.writeSAll_agree (x := x T) (by simp) (by
          intro w hw
          obtain ⟨o, ho, rfl⟩ := List.mem_map.mp hw
          exact (hv hsd T hT o (by rw [he]; exact ho)).1) sd 0 _ (by omega)]
        simp

/-! ## The checks before any effect -/

/-- An instruction whose checks all pass does its work. -/
theorem State.checked_pass {s : State} {g : Guard} {regs : List Nat} {uni : List Field} {k : State → State}
    (hb : s.blockCheck regs = none) (hu : s.uniformCheck g uni = none) : s.checked g regs uni k = k s := by
  unfold State.checked; rw [hb, hu]

theorem State.uniformCheck_nil (s : State) (g : Guard) : s.uniformCheck g [] = none := by
  unfold State.uniformCheck
  cases s.cur with
  | none => rfl
  | some c => simp [List.findSome?_eq_none_iff]

/-- A register beyond the block stops the whole group before any effect (R93). -/
theorem State.checked_block {s : State} {g : Guard} {regs : List Nat} {uni : List Field} {k : State → State} {x : Trap}
    (hb : s.blockCheck regs = some x) : s.checked g regs uni k = s.groupFault x := by
  unfold State.checked; rw [hb]

/-- A source that must be uniform and is not stops the whole group before any effect (R100). -/
theorem State.checked_uniform {s : State} {g : Guard} {regs : List Nat} {uni : List Field} {k : State → State} {x : Trap} {lane : Nat}
    (hb : s.blockCheck regs = none) (hu : s.uniformCheck g uni = some (x, lane)) : s.checked g regs uni k = s.groupFaultAt x lane := by
  unfold State.checked; rw [hb, hu]

/-- A lane without errors in its registers reads its sources. -/
theorem withEcc_clean {xs : List Field} {f : Team → Thread → Lane} {T : Team} {th : Thread} (h : th.eccTrap T xs = none) :
    withEcc xs f T th = f T th := by unfold withEcc; rw [h]

theorem Thread.eccTrap_nil {T : Team} {th : Thread} {xs : List Field} (h : T.sound th = true) : th.eccTrap T xs = none := by
  unfold Team.sound at h
  simp only [Bool.and_eq_true, List.isEmpty_iff, List.all_eq_true, decide_eq_true_eq] at h
  obtain ⟨⟨hth, hT⟩, hall⟩ := h
  unfold Thread.eccTrap
  split
  · rfl
  · rw [Option.map_eq_none_iff, List.find?_eq_none]
    intro k _
    simp only [Thread.marked, hth, hT, List.contains_nil, Bool.false_or, Bool.and_eq_true, decide_eq_true_eq, List.any_eq_true, not_and, not_exists]
    intro hk o ho hc
    exact absurd (hall o ho k (by simpa using hc)) (by omega)

/-- A lane whose exceptions are not enabled goes on with its sticky flags set (R119). -/
theorem raising_pass {th : Thread} {e : Exc} {k : Thread → Lane} (h : th.excTrap e = none) : raising th e k = k (th.stick e) := by
  unfold raising; rw [h]

/-- A lane with an enabled exception faults, its sticky flags set (R119). -/
theorem raising_trap {th : Thread} {e : Exc} {k : Thread → Lane} {x : Trap} (h : th.excTrap e = some x) :
    raising th e k = .trap (th.stick e) x := by unfold raising; rw [h]

/-- A fault of the whole group, unbound teams: every issuing lane parks, nothing else changes. -/
theorem State.groupFault_unbound {s : State} {c : Cur} {x : Trap} (hc : s.cur = some c) (hb : ∀ T ∈ s.teams, T.bound = false) :
    s.groupFault x = s.mapTeams (fun T => T.mapThreads (fun th =>
      if th.issuing c.entry then th.park (s.record T th th.clause c.slot true x) c.slot true else th)) := by
  unfold State.groupFault State.groupFaultWith
  simp only [hc]
  unfold State.mapTeams
  congr 1
  apply List.map_congr_left
  intro T hT
  simp only [hb T hT, id]

/-! ## Instructions of the registers that are ready in every lane -/

/-- The block check passes where every register lies in the block of every team that issues. -/
theorem State.blockCheck_none {s : State} {c : Cur} {regs : List Nat} (hc : s.cur = some c)
    (h : ∀ T ∈ s.teams, (∃ th ∈ T.threads, th.issuing c.entry = true) → ∀ k ∈ regs, k < T.bsize) : s.blockCheck regs = none := by
  unfold State.blockCheck
  simp only [hc, List.findSome?_eq_none_iff]
  intro k hk
  rw [if_neg]
  simp only [List.any_eq_true, Bool.and_eq_true, decide_eq_true_eq, not_exists, not_and]
  intro T hT hle th hth his
  exact absurd (h T hT ⟨th, hth, his⟩ k hk) (by omega)

/-- The uniformity check passes where the executing lanes of each team agree on the sources. -/
theorem State.uniformCheck_none {s : State} {c : Cur} {g : Guard} {xs : List Field} (hc : s.cur = some c)
    (h : ∀ T ∈ s.teams, ∀ th ∈ T.executing c.entry g, ∀ th' ∈ T.executing c.entry g, ∀ q ∈ xs,
      readSrc (s.tickOf T) .int q.w T th q.src = readSrc (s.tickOf T) .int q.w T th' q.src) : s.uniformCheck g xs = none := by
  unfold State.uniformCheck
  simp only [hc, List.findSome?_eq_none_iff]
  intro T hT q hq
  have : T.disagree (s.tickOf T) (T.executing c.entry g) q = none := by
    unfold Team.disagree
    cases he : T.executing c.entry g with
    | nil => rfl
    | cons th0 rest =>
      simp only [Option.map_eq_none_iff, List.find?_eq_none]
      intro th hth
      have := h T hT th (by rw [he]; exact List.mem_cons_of_mem _ hth) th0 (by rw [he]; exact List.mem_cons_self) q hq
      simp [this]
  rw [this]; rfl

/-- An instruction whose lanes are ready does its work in each lane. -/
theorem LaneOp.Ready.perLane {o : LaneOp} {s : State} {c : Cur} {x : Team → List Nat} (hr : o.Ready s c x) {keep : Bool}
    {f : Team → Thread → Lane}
    (hf : ∀ T ∈ s.teams, ∀ th ∈ T.executing c.entry o.g, o.ready s c T th = true → T.sound th = true →
      f T th = .done (o.eff s c T th) (o.res s c T th))
    (hl : ∀ T th, (o.res s c T th).length = o.sd.length) :
    s.perLane o.g o.sd f keep = o.done s c x := by
  refine State.perLane_done (v := o.res s c) hr.cur (fun T hT th hth => hf T hT th hth (hr.ready T hT th hth) (hr.clean T hT th hth)) ?_
  intro hsd T hT th hth
  have := hr.scalar hsd T hT th hth
  exact ⟨this, by rw [← this]; exact hl T th⟩

/-- The same for an instruction without s destinations. -/
theorem LaneOp.Ready.perLane_plain {o : LaneOp} {s : State} {c : Cur} {x : Team → List Nat} (hr : o.Ready s c x) {g : Guard}
    {f : Team → Thread → Lane} (hg : g = o.g := by rfl) (hsd : o.sd = [] := by rfl)
    (hf : ∀ T ∈ s.teams, ∀ th ∈ T.executing c.entry o.g, o.ready s c T th = true → T.sound th = true →
      f T th = .done (o.eff s c T th) (o.res s c T th))
    (hl : ∀ T th, (o.res s c T th).length = o.sd.length) : s.perLane g [] f = o.done s c x := by
  subst hg; rw [← hsd]; exact hr.perLane hf hl

/-- The checks before any effect pass for an instruction whose lanes are ready. -/
theorem LaneOp.Ready.checked {o : LaneOp} {s : State} {c : Cur} {x : Team → List Nat} (hr : o.Ready s c x) {regs : List Nat}
    {uni : List Field} {k : State → State} (hn : ∀ r ∈ regs, r ∈ o.named) (hu : ∀ q ∈ uni, (q.src, q.w) ∈ o.uniform) :
    s.checked o.g regs uni k = k s := by
  refine State.checked_pass (State.blockCheck_none hr.cur (fun T hT hth r h => hr.block T hT hth r (hn r h))) ?_
  exact State.uniformCheck_none hr.cur (fun T hT th hth th' hth' q hq => hr.agree T hT th hth th' hth' _ (hu q hq))

/-- The same, with what the instruction then does. -/
theorem LaneOp.Ready.checked_done {o : LaneOp} {s : State} {c : Cur} {x : Team → List Nat} (hr : o.Ready s c x) {g : Guard}
    {regs : List Nat} {uni : List Field} {k : State → State} (hg : g = o.g := by rfl) (hn : ∀ r ∈ regs, r ∈ o.named)
    (hu : ∀ q ∈ uni, (q.src, q.w) ∈ o.uniform) (hk : k s = o.done s c x) : s.checked g regs uni k = o.done s c x := by
  subst hg; rw [hr.checked hn hu]; exact hk

/-- A lane without errors in its registers is not stopped by them. -/
theorem withEcc_ready {xs : List Field} {f : Team → Thread → Lane} {T : Team} {th : Thread} (h : T.sound th = true) :
    withEcc xs f T th = f T th := withEcc_clean (Thread.eccTrap_nil h)

/-- The sources that an s destination asks to be uniform are among those that the instruction asks it of (R100). -/
theorem mem_uniformFor {d : Dst} {xs : List Field} {srcs uni : List (Src × Nat)} (hs : srcs = xs.map (fun q => (q.src, q.w))) :
    ∀ q ∈ uniformFor d xs, (q.src, q.w) ∈ (if (sRegOf d).isSome then srcs.filter (fun q => perLaneSrc q.1) else []) ++ uni := by
  subst hs
  intro q hq
  unfold uniformFor at hq
  split at hq
  · rename_i h
    rw [if_pos h]
    apply List.mem_append_left
    rw [List.mem_filter] at hq ⊢
    exact ⟨List.mem_map.mpr ⟨q, hq.1, rfl⟩, hq.2⟩
  · exact absurd hq (by simp)

/-- An instruction of the common form, with its sources, its destination and its checks, whose lanes are ready: it completes. -/
theorem LaneOp.Ready.issueWith {o : LaneOp} {s : State} {c : Cur} {x : Team → List Nat} (hr : o.Ready s c x) {xs : List Field}
    {f : Team → Thread → Lane} {g : Guard} {d : Dst} {w : Nat} {regs : List Nat}
    (hs : o.srcs = xs.map (fun q => (q.src, q.w)) := by rfl)
    (hd : d = o.d := by rfl) (hw : w = o.w := by rfl) (hg : g = o.g := by rfl) (hsd : o.sd = sDest o.d o.w := by rfl)
    (hregs : regs = o.regs := by rfl)
    (hf : ∀ T ∈ s.teams, ∀ th ∈ T.executing c.entry o.g, o.ready s c T th = true → T.sound th = true →
      f T th = .done (o.eff s c T th) (o.res s c T th))
    (hl : ∀ T th, (o.res s c T th).length = o.sd.length) :
    s.issueWith g d w xs regs f = o.done s c x := by
  subst hg hd hw hregs
  unfold State.issueWith
  rw [hr.checked]
  · rw [← hsd]
    exact hr.perLane (fun T hT th hth hrd he => by rw [withEcc_ready he]; exact hf T hT th hth hrd he) hl
  · intro r h
    simp only [LaneOp.named, List.mem_append, hs, List.flatMap_map] at h ⊢
    exact h
  · exact mem_uniformFor hs

/-- A lane that writes its destination (R98). -/
theorem laneWrite_eq (th : Thread) (d : Dst) (w v : Nat) :
    laneWrite th d w v = .done (th.writeDest d w v) ((sDest d w).map (fun _ => v)) := by
  unfold laneWrite sDest
  cases hd : sRegOf d <;> simp

end Sys2Proof.Machine
end

