-- ==== Sys2Proof/Laws/Words.lean ====
section
/-!
SUPPORT. Laws/Words.lean: the fields of encoded words (09 R167 to R169): each field of a word that the encoder builds reads as
what was put into it, and each operand code names its operand.
-/

namespace Sys2Proof

/-! ## Codes -/

theorem Guard.code_lt {g : Guard} (h : g.ok = true) : g.code < 32 := by
  cases g with
  | always => decide
  | on p n => cases n <;> simp_all [Guard.ok, Guard.code] <;> omega

theorem Src.code7_spec {x : Src} {w : Nat} (h : x.okIn 64 16 (-16) 15 false w = true) : x.code7 < 128 ∧ src7Of x.code7 = x := by
  cases x with
  | v n =>
    simp only [Src.okIn, decide_eq_true_eq] at h
    exact ⟨by simp only [Src.code7]; omega, if_pos h⟩
  | w n => simp only [Src.okIn, Bool.and_eq_true, decide_eq_true_eq] at h; obtain ⟨h, -⟩ := h; interval_cases n <;> decide
  | y n => simp only [Src.okIn, Bool.and_eq_true, decide_eq_true_eq] at h; obtain ⟨h, -⟩ := h; interval_cases n <;> decide
  | s n => simp only [Src.okIn, Bool.and_eq_true, decide_eq_true_eq] at h; obtain ⟨⟨h, -⟩, -⟩ := h; interval_cases n <;> decide
  | pm n => simp [Src.okIn] at h
  | imm k => simp only [Src.okIn, Bool.and_eq_true, decide_eq_true_eq] at h; obtain ⟨⟨h, h'⟩, -⟩ := h; interval_cases k <;> decide
  | tid => decide
  | lane => decide
  | gpc => decide
  | tick => decide
  | one => decide
  | zero => decide

theorem Src.code9_spec {x : Src} {w : Nat} (h : x.okIn 256 64 (-32) 31 true w = true) :
    x.code9 < 512 ∧ src9Of x.code9 = some x := by
  cases x with
  | v n =>
    simp only [Src.okIn, decide_eq_true_eq] at h
    exact ⟨by simp only [Src.code9]; omega, if_pos h⟩
  | w n => simp only [Src.okIn, Bool.and_eq_true, decide_eq_true_eq] at h; obtain ⟨h, -⟩ := h; interval_cases n <;> decide
  | y n => simp only [Src.okIn, Bool.and_eq_true, decide_eq_true_eq] at h; obtain ⟨h, -⟩ := h; interval_cases n <;> decide
  | s n => simp only [Src.okIn, Bool.and_eq_true, decide_eq_true_eq] at h; obtain ⟨⟨h, -⟩, -⟩ := h; interval_cases n <;> decide
  | pm n => simp only [Src.okIn, Bool.and_eq_true, decide_eq_true_eq] at h; obtain ⟨⟨-, h⟩, -⟩ := h; interval_cases n <;> decide
  | imm k => simp only [Src.okIn, Bool.and_eq_true, decide_eq_true_eq] at h; obtain ⟨⟨h, h'⟩, -⟩ := h; interval_cases k <;> decide
  | tid => decide
  | lane => decide
  | gpc => decide
  | tick => decide
  | one => decide
  | zero => decide

theorem Dst.code7_spec {x : Dst} {w : Nat} (h : x.okIn 64 16 false w = true) : x.code7 < 128 ∧ dst7Of x.code7 = some x := by
  cases x with
  | v n =>
    simp only [Dst.okIn, decide_eq_true_eq] at h
    exact ⟨by simp only [Dst.code7]; omega, if_pos h⟩
  | w n => simp only [Dst.okIn, Bool.and_eq_true, decide_eq_true_eq] at h; obtain ⟨h, -⟩ := h; interval_cases n <;> decide
  | s n => simp only [Dst.okIn, Bool.and_eq_true, decide_eq_true_eq] at h; obtain ⟨⟨h, -⟩, -⟩ := h; interval_cases n <;> decide
  | pm n => simp [Dst.okIn] at h
  | discard => decide

theorem Dst.code9_spec {x : Dst} {w : Nat} (h : x.okIn 256 64 true w = true) : x.code9 < 512 ∧ dst9Of x.code9 = some x := by
  cases x with
  | v n =>
    simp only [Dst.okIn, decide_eq_true_eq] at h
    exact ⟨by simp only [Dst.code9]; omega, if_pos h⟩
  | w n => simp only [Dst.okIn, Bool.and_eq_true, decide_eq_true_eq] at h; obtain ⟨h, -⟩ := h; interval_cases n <;> decide
  | s n => simp only [Dst.okIn, Bool.and_eq_true, decide_eq_true_eq] at h; obtain ⟨⟨h, -⟩, -⟩ := h; interval_cases n <;> decide
  | pm n => simp only [Dst.okIn, Bool.and_eq_true, decide_eq_true_eq] at h; obtain ⟨⟨-, h⟩, -⟩ := h; interval_cases n <;> decide
  | discard => decide

theorem tyOf_code (t : Ty) : tyOf t.code = t := by cases t <;> rfl
theorem Ty.code_lt (t : Ty) : t.code < 16 := by cases t <;> decide
theorem rmOf_code (r : Rm) : rmOf r.code = r := by cases r <;> rfl
theorem Rm.code_lt (r : Rm) : r.code < 4 := by cases r <;> decide
theorem fcondOf_code (c : FCond) : fcondOf c.code = c := by cases c <;> rfl
theorem FCond.code_lt (c : FCond) : c.code < 8 := by cases c <;> decide
theorem ICond.code_lt (c : ICond) : c.code < 8 := by cases c <;> decide
theorem Bool.toNat_lt_two (b : Bool) : b.toNat < 2 := by cases b <;> decide

theorem signed_unsigned {n : Nat} {k : Int} (hn : 0 < n) (lo : -(2 ^ (n - 1) : Nat) ≤ k) (hi : k < (2 ^ (n - 1) : Nat)) :
    signed n (unsigned n k) = k := by
  obtain ⟨m, rfl⟩ : ∃ m, n = m + 1 := ⟨n - 1, by omega⟩
  have e : (2 ^ (m + 1) : Nat) = 2 * 2 ^ m := by rw [pow_succ]; omega
  simp only [Nat.add_sub_cancel] at lo hi
  unfold signed unsigned
  rw [e]
  generalize (2 ^ m : Nat) = p at *
  have hp : (0 : Int) < ((2 * p : Nat) : Int) := by omega
  by_cases hk : 0 ≤ k
  · have : k % ((2 * p : Nat) : Int) = k := Int.emod_eq_of_lt hk (by omega)
    rw [this]; split_ifs <;> omega
  · have : k % ((2 * p : Nat) : Int) = k + (2 * p : Nat) := by
      rw [← Int.add_emod_right]; exact Int.emod_eq_of_lt (by omega) (by omega)
    rw [this]; split_ifs <;> omega

theorem unsigned_lt (n : Nat) (k : Int) : unsigned n k < 2 ^ n := by
  unfold unsigned
  have h : (0 : Int) < ((2 ^ n : Nat) : Int) := by exact_mod_cast Nat.two_pow_pos n
  have := Int.emod_lt_of_pos k h
  have := Int.emod_nonneg k (ne_of_gt h)
  omega

/-! ## One-word forms -/

/-- The fields of an encoded one-word instruction, or of word 0 of a K form with its literal. -/
def fieldsS (c : Cls) (g op d a b k : Nat) : Fields := ⟨c, (wordS g op d a b).toNat, k⟩

theorem wordS_toNat {g op d a b : Nat} (hg : g < 32) (ho : op < 64) (hd : d < 128) (ha : a < 128) (hb : b < 128) :
    (wordS g op d a b).toNat = g * 0x8000000 + op * 0x200000 + d * 0x4000 + a * 0x80 + b := by
  simp only [wordS, BitVec.toNat_ofNat]; omega

section S
variable {c : Cls} {g op d a b k : Nat} (hg : g < 32) (ho : op < 64) (hd : d < 128) (ha : a < 128) (hb : b < 128)
include hg ho hd ha hb

theorem fieldsS_op : (fieldsS c g op d a b k).op = op := by
  simp only [fieldsS, Fields.op, wordS_toNat hg ho hd ha hb]; omega
theorem fieldsS_pg : (fieldsS c g op d a b k).pg = g := by
  simp only [fieldsS, Fields.pg, wordS_toNat hg ho hd ha hb]; omega
theorem fieldsS_d : (fieldsS c g op d a b k).d = d := by
  simp only [fieldsS, Fields.d, wordS_toNat hg ho hd ha hb]; omega
theorem fieldsS_a : (fieldsS c g op d a b k).a = a := by
  simp only [fieldsS, Fields.a, wordS_toNat hg ho hd ha hb]; omega
theorem fieldsS_b : (fieldsS c g op d a b k).b = b := by
  simp only [fieldsS, Fields.b, wordS_toNat hg ho hd ha hb]; omega
end S

/-! ## The L form -/

/-- The fields of an encoded instruction of the L form. -/
def fieldsL (cl : Cls) (g xop d a b c ty rm fl : Nat) : Fields :=
  ⟨cl, (wordS g 0x3f (d % 128) (a % 128) (b % 128)).toNat,
    (BitVec.ofNat 32 (xop * 0x1000000 + c * 0x8000 + d / 128 * 0x2000 + a / 128 * 0x800 + b / 128 * 0x200 + ty * 0x20
     + rm * 8 + fl)).toNat⟩

section L
variable {cl : Cls} {g xop d a b c ty rm fl : Nat}

theorem fieldsL_w0 (hg : g < 32) : (fieldsL cl g xop d a b c ty rm fl).w0 =
    g * 0x8000000 + 0x3f * 0x200000 + d % 128 * 0x4000 + a % 128 * 0x80 + b % 128 := by
  simp only [fieldsL]; exact wordS_toNat hg (by decide) (by omega) (by omega) (by omega)
theorem fieldsL_op (hg : g < 32) : (fieldsL cl g xop d a b c ty rm fl).op = 0x3f := by
  simp only [Fields.op, fieldsL_w0 hg]; omega
theorem fieldsL_pg (hg : g < 32) : (fieldsL cl g xop d a b c ty rm fl).pg = g := by
  simp only [Fields.pg, fieldsL_w0 hg]; omega

variable (hx : xop < 256) (hd : d < 512) (ha : a < 512) (hb : b < 512) (hc : c < 512) (ht : ty < 16) (hr : rm < 4) (hf : fl < 8)
include hx hd ha hb hc ht hr hf

theorem fieldsL_w1 : (fieldsL cl g xop d a b c ty rm fl).w1 =
    xop * 0x1000000 + c * 0x8000 + d / 128 * 0x2000 + a / 128 * 0x800 + b / 128 * 0x200 + ty * 0x20 + rm * 8 + fl := by
  simp only [fieldsL, BitVec.toNat_ofNat]; omega
theorem fieldsL_xop : (fieldsL cl g xop d a b c ty rm fl).xop = xop := by
  simp only [Fields.xop, fieldsL_w1 hx hd ha hb hc ht hr hf]; omega
theorem fieldsL_d9 (hg : g < 32) : (fieldsL cl g xop d a b c ty rm fl).d9 = d := by
  have h0 : (g * 0x8000000 + 0x3f * 0x200000 + d % 128 * 0x4000 + a % 128 * 0x80 + b % 128) / 0x4000 % 128 = d % 128 := by omega
  have h1 : (xop * 0x1000000 + c * 0x8000 + d / 128 * 0x2000 + a / 128 * 0x800 + b / 128 * 0x200 + ty * 0x20 + rm * 8 + fl)
      / 0x2000 % 4 = d / 128 := by
    have e : xop * 0x1000000 + c * 0x8000 + d / 128 * 0x2000 + a / 128 * 0x800 + b / 128 * 0x200 + ty * 0x20 + rm * 8 + fl =
        (a / 128 * 0x800 + b / 128 * 0x200 + ty * 0x20 + rm * 8 + fl) + (xop * 0x800 + c * 4 + d / 128) * 0x2000 := by ring
    rw [e, Nat.add_mul_div_right _ _ (by decide), Nat.div_eq_of_lt (by omega)]; omega
  simp only [Fields.d9, Fields.d, fieldsL_w0 hg, fieldsL_w1 hx hd ha hb hc ht hr hf, h0, h1]; omega
theorem fieldsL_a9 (hg : g < 32) : (fieldsL cl g xop d a b c ty rm fl).a9 = a := by
  have h0 : (g * 0x8000000 + 0x3f * 0x200000 + d % 128 * 0x4000 + a % 128 * 0x80 + b % 128) / 0x80 % 128 = a % 128 := by omega
  have h1 : (xop * 0x1000000 + c * 0x8000 + d / 128 * 0x2000 + a / 128 * 0x800 + b / 128 * 0x200 + ty * 0x20 + rm * 8 + fl)
      / 0x800 % 4 = a / 128 := by
    have e : xop * 0x1000000 + c * 0x8000 + d / 128 * 0x2000 + a / 128 * 0x800 + b / 128 * 0x200 + ty * 0x20 + rm * 8 + fl =
        (b / 128 * 0x200 + ty * 0x20 + rm * 8 + fl) + (xop * 0x2000 + c * 16 + d / 128 * 4 + a / 128) * 0x800 := by ring
    rw [e, Nat.add_mul_div_right _ _ (by decide), Nat.div_eq_of_lt (by omega)]; omega
  simp only [Fields.a9, Fields.a, fieldsL_w0 hg, fieldsL_w1 hx hd ha hb hc ht hr hf, h0, h1]; omega
theorem fieldsL_b9 (hg : g < 32) : (fieldsL cl g xop d a b c ty rm fl).b9 = b := by
  have h0 : (g * 0x8000000 + 0x3f * 0x200000 + d % 128 * 0x4000 + a % 128 * 0x80 + b % 128) % 128 = b % 128 := by omega
  have h1 : (xop * 0x1000000 + c * 0x8000 + d / 128 * 0x2000 + a / 128 * 0x800 + b / 128 * 0x200 + ty * 0x20 + rm * 8 + fl)
      / 0x200 % 4 = b / 128 := by
    have e : xop * 0x1000000 + c * 0x8000 + d / 128 * 0x2000 + a / 128 * 0x800 + b / 128 * 0x200 + ty * 0x20 + rm * 8 + fl =
        (ty * 0x20 + rm * 8 + fl) + (xop * 0x8000 + c * 64 + d / 128 * 16 + a / 128 * 4 + b / 128) * 0x200 := by ring
    rw [e, Nat.add_mul_div_right _ _ (by decide), Nat.div_eq_of_lt (by omega)]; omega
  simp only [Fields.b9, Fields.b, fieldsL_w0 hg, fieldsL_w1 hx hd ha hb hc ht hr hf, h0, h1]; omega
theorem fieldsL_c : (fieldsL cl g xop d a b c ty rm fl).c = c := by
  simp only [Fields.c, fieldsL_w1 hx hd ha hb hc ht hr hf]; omega
theorem fieldsL_ty : (fieldsL cl g xop d a b c ty rm fl).ty = ty := by
  simp only [Fields.ty, fieldsL_w1 hx hd ha hb hc ht hr hf]; omega
theorem fieldsL_rm : (fieldsL cl g xop d a b c ty rm fl).rm = rm := by
  simp only [Fields.rm, fieldsL_w1 hx hd ha hb hc ht hr hf]; omega
theorem fieldsL_fl : (fieldsL cl g xop d a b c ty rm fl).fl = fl := by
  simp only [Fields.fl, fieldsL_w1 hx hd ha hb hc ht hr hf]; omega
theorem fieldsL_mod : (fieldsL cl g xop d a b c ty rm fl).mod = ty * 32 + rm * 8 + fl := by
  simp only [Fields.mod, fieldsL_w1 hx hd ha hb hc ht hr hf]; omega
end L

/-! ## Operands read back -/

namespace Fields

theorem guard_spec {f : Fields} {g : Guard} (h : g.ok = true) (e : f.pg = g.code) : f.guard = .ok g := by
  cases g with
  | always => simp [guard, e, Guard.code]
  | on p n =>
    simp only [Guard.ok, decide_eq_true_eq] at h
    simp only [guard, e, Guard.code]
    have hn : n.toNat < 2 := Bool.toNat_lt_two n
    rw [if_pos (by omega)]
    have e1 : (2 * p + n.toNat) / 2 = p := by omega
    have e2 : (2 * p + n.toNat) % 2 = n.toNat := by omega
    rw [e1, e2]; cases n <;> rfl

theorem noGuard_spec {f : Fields} (e : f.pg = 30) : f.noGuard = .ok () := by simp [noGuard, e]

theorem src7_spec {f : Fields} {x : Src} {w : Nat} (h : x.okIn 64 16 (-16) 15 false w = true) : f.src7 w x.code7 = .ok x := by
  simp [src7, (Src.code7_spec h).2, h]

theorem src9_spec {f : Fields} {x : Src} {w : Nat} (h : x.okIn 256 64 (-32) 31 true w = true) : f.src9 w x.code9 = .ok x := by
  simp [src9, (Src.code9_spec h).2, h]

theorem dst7_spec {f : Fields} {x : Dst} {w : Nat} (h : x.okIn 64 16 false w = true) : f.dst7 w x.code7 = .ok x := by
  simp [dst7, (Dst.code7_spec h).2, h]

theorem dst9_spec {f : Fields} {x : Dst} {w : Nat} (h : x.okIn 256 64 true w = true) : f.dst9 w x.code9 = .ok x := by
  simp [dst9, (Dst.code9_spec h).2, h]

theorem pred_spec {f : Fields} {n : Nat} (h : n < 12) : f.pred n = .ok n := by simp [pred, h]

theorem map_spec {f : Fields} {n : Nat} (h : n < 16) : f.map (0x160 + n) = .ok n := by
  unfold map; rw [if_pos (by omega), Nat.add_sub_cancel_left]

theorem tyIn_spec {f : Fields} {t : Ty} {l : List Ty} (h : l.contains t = true) : f.tyIn t.code l = .ok t := by
  simp only [tyIn, tyOf_code, h, if_true]

theorem field_spec {f : Fields} {b : Bool} (h : b = true) : f.field b = .ok () := by simp [field, h]

theorem align_spec {f : Fields} {b : Bool} (h : b = true) : f.align b = .ok () := by simp [align, h]

theorem icond_spec {f : Fields} {c : ICond} (e : f.fl = c.code) : f.icond = .ok c := by
  unfold icond; rw [e]; cases c <;> rfl

theorem redOp_spec {f : Fields} {o : RedOp} (e : f.c = o.code) : f.redOp = .ok o := by
  unfold redOp; rw [e]; cases o <;> rfl

theorem atomOp_spec {f : Fields} {o : AtomOp} {k : Nat} (hk : k % 8 = 0) (e : f.c = o.code + k) : f.atomOp = .ok o := by
  have h : f.c % 8 = o.code := by rw [e]; cases o <;> simp only [AtomOp.code] <;> omega
  unfold atomOp; rw [h]; cases o <;> rfl

theorem atomFOp_spec {f : Fields} {o : AtomFOp} {k : Nat} (hk : k % 8 = 0) (e : f.c = o.code + k) : f.atomFOp = .ok o := by
  have h : f.c % 8 = o.code := by rw [e]; cases o <;> simp only [AtomFOp.code] <;> omega
  unfold atomFOp; rw [h]; cases o <;> rfl

theorem ord_spec {f : Fields} {o : Ord} {l : List Ord} (h : l.contains o = true) (e : f.fl = o.code) : f.ord l = .ok o := by
  unfold ord; rw [e]; cases o <;> simp only [Ord.code, h, if_true]

theorem shape_mod (sc : Scope) : sc.shape % 8 = 0 := by
  cases sc with
  | rect a b => simp only [Scope.shape]; omega
  | _ => rfl
theorem shape_lt {sc : Scope} (h : sc.ok = true) : sc.shape < 256 := by
  cases sc <;> simp only [Scope.ok, decide_eq_true_eq] at h <;> simp only [Scope.shape] <;> omega
theorem scope_code_lt (sc : Scope) : sc.code < 4 := by cases sc <;> simp [Scope.code]

theorem scope_spec {f : Fields} {sc : Scope} {k : Nat} {op : Bool} (h : sc.ok = true) (hr : f.rm = sc.code) (hc : f.c = k + sc.shape)
    (hk : k < 8) (ho : op = false → k = 0) : f.scope op = .ok sc := by
  have hs := shape_lt h
  have hm := shape_mod sc
  have h1 : f.c / 256 = 0 := by omega
  have h2 : ¬ (f.c / 256 ≠ 0 ∨ (op = false ∧ f.c % 8 ≠ 0)) := by
    rintro (h' | ⟨h', h''⟩)
    · exact h' h1
    · have := ho h'; omega
  unfold scope; rw [if_neg h2, hr]
  cases sc with
  | rect a b =>
    simp only [Scope.ok, decide_eq_true_eq] at h
    simp only [Scope.shape] at hc
    simp only [Scope.code, if_true]
    congr 2 <;> omega
  | wg => simp only [Scope.shape] at hc; rw [if_neg (by decide), if_neg (by omega)]; rfl
  | launch => simp only [Scope.shape] at hc; rw [if_neg (by decide), if_neg (by omega)]; rfl
  | sys => simp only [Scope.shape] at hc; rw [if_neg (by decide), if_neg (by omega)]; rfl

theorem ways_spec {f : Fields} {k : Nat} (h : waysOk k = true) (e : f.fl = k - 2) : f.ways = .ok k := by
  simp only [waysOk, decide_eq_true_eq] at h
  unfold ways; rw [e, if_pos (by omega)]; congr 1; omega

theorem dstGroup_spec {f : Fields} {x : Dst} {k : Nat} (hk : waysOk k = true) (h : x.okGroup k = true) (e : f.d9 = x.code9) :
    f.dstGroup k = .ok x := by
  simp only [waysOk, decide_eq_true_eq] at hk
  have h' : x.okIn 256 64 true 32 = true := by
    cases x <;> simp only [Dst.okGroup, Dst.okIn, decide_eq_true_eq, Bool.and_eq_true, Bool.false_eq_true] at h ⊢ <;> omega
  unfold dstGroup; rw [e, (Dst.code9_spec h').2]; simp only [h, if_true]

theorem srcGroup_spec {f : Fields} {x : Src} {k : Nat} (hk : waysOk k = true) (h : x.okGroup k = true) (e : f.a9 = x.code9) :
    f.srcGroup k = .ok x := by
  simp only [waysOk, decide_eq_true_eq] at hk
  have h' : x.okIn 256 64 (-32) 31 true 32 = true := by
    cases x <;> simp only [Src.okGroup, Src.okIn, decide_eq_true_eq, Bool.and_eq_true, Bool.false_eq_true] at h ⊢ <;> omega
  unfold srcGroup; rw [e, (Src.code9_spec h').2]; simp only [h, if_true]

theorem sIdx_lt {n : Nat} {l : List Nat} (hl : l.all (fun k => k % 2 == 0 && decide (k < 16)) = true) (h : l.contains n = true) :
    n % 2 = 0 ∧ n < 16 := by
  have := List.all_eq_true.mp hl n (by simpa using h)
  simpa using this

theorem sIdx_spec {f : Fields} {n : Nat} {l : List Nat} (hl : l.all (fun k => k % 2 == 0 && decide (k < 16)) = true)
    (h : l.contains n = true) : f.sIdx (0x50 + n) l = .ok n := by
  have hn := sIdx_lt hl h
  unfold sIdx
  rw [Nat.add_sub_cancel_left, if_pos ⟨by omega, by omega, h⟩]

end Fields

theorem Dst.code9_group_lt {x : Dst} {k : Nat} (hk : waysOk k = true) (h : x.okGroup k = true) : x.code9 < 512 := by
  simp only [waysOk, decide_eq_true_eq] at hk
  cases x <;> simp only [Dst.okGroup, decide_eq_true_eq, Bool.false_eq_true] at h <;> simp only [Dst.code9] <;> omega

theorem Src.code9_group_lt {x : Src} {k : Nat} (hk : waysOk k = true) (h : x.okGroup k = true) : x.code9 < 512 := by
  simp only [waysOk, decide_eq_true_eq] at hk
  cases x <;> simp only [Src.okGroup, decide_eq_true_eq, Bool.false_eq_true] at h <;> simp only [Src.code9] <;> omega

/-! ## The head of a clause's words -/

theorem decode_S {cl : Cls} {g op d a b : Nat} {i : Instr} {tail : List (BitVec 32)} (hg : g < 32) (hd : d < 128) (ha : a < 128)
    (hb : b < 128) (ho : op < 48)
    (e : ∀ F : Fields, F.cls = cl → F.op = op → F.pg = g → F.d = d → F.a = a → F.b = b → decodeFields true F = .ok i) :
    decodeWords cl true ([wordS g op d a b] ++ tail) = .ok (i, 1) := by
  have ho' : op < 64 := by omega
  have h : wordCount (wordS g op d a b).toNat = 1 := by
    rw [wordS_toNat hg ho' hd ha hb]; unfold wordCount; rw [if_pos (by omega)]
  have e := e (fieldsS cl g op d a b 0) rfl (fieldsS_op hg ho' hd ha hb) (fieldsS_pg hg ho' hd ha hb) (fieldsS_d hg ho' hd ha hb)
    (fieldsS_a hg ho' hd ha hb) (fieldsS_b hg ho' hd ha hb)
  unfold fieldsS at e
  simp only [List.cons_append, List.nil_append, decodeWords, h, if_true, e]; rfl

theorem decode_K {cl : Cls} {g op d a b : Nat} {k : BitVec 32} {i : Instr} {tail : List (BitVec 32)} (hg : g < 32) (hd : d < 128)
    (ha : a < 128) (hb : b < 128) (ho : op < 64) (ho' : 48 ≤ op)
    (e : ∀ F : Fields, F.cls = cl → F.op = op → F.pg = g → F.d = d → F.a = a → F.b = b → BitVec.ofNat 32 F.w1 = k →
      decodeFields true F = .ok i) :
    decodeWords cl true ([wordS g op d a b, BitVec.ofNat 32 k.toNat] ++ tail) = .ok (i, 2) := by
  have h : wordCount (wordS g op d a b).toNat ≠ 1 := by
    rw [wordS_toNat hg ho hd ha hb]; unfold wordCount; rw [if_neg (by omega)]; decide
  have e := e (fieldsS cl g op d a b k.toNat) rfl (fieldsS_op hg ho hd ha hb) (fieldsS_pg hg ho hd ha hb) (fieldsS_d hg ho hd ha hb)
    (fieldsS_a hg ho hd ha hb) (fieldsS_b hg ho hd ha hb)
    (show BitVec.ofNat 32 k.toNat = k by simp)
  unfold fieldsS at e
  have hk : (BitVec.ofNat 32 k.toNat).toNat = k.toNat := by simp
  simp only [List.cons_append, List.nil_append, decodeWords, h, if_false, hk, e]; rfl

theorem decode_L {cl : Cls} {g xop d a b c ty rm fl : Nat} {i : Instr} {tail : List (BitVec 32)} (hg : g < 32) (hd : d < 512)
    (ha : a < 512) (hb : b < 512) (hc : c < 512) (ht : ty < 16) (hr : rm < 4) (hf : fl < 8) (hx : xop < 256)
    (e : ∀ F : Fields, F.cls = cl → F.op = 0x3f → F.xop = xop → F.pg = g → F.d9 = d → F.a9 = a → F.b9 = b → F.c = c → F.ty = ty →
      F.rm = rm → F.fl = fl → F.mod = ty * 32 + rm * 8 + fl → decodeFields true F = .ok i) :
    decodeWords cl true (wordsL g xop d a b c ty rm fl ++ tail) = .ok (i, 2) := by
  have h : wordCount (wordS g 0x3f (d % 128) (a % 128) (b % 128)).toNat ≠ 1 := by
    rw [wordS_toNat hg (by decide) (by omega) (by omega) (by omega)]; unfold wordCount; rw [if_neg (by omega)]; decide
  have e := e (fieldsL cl g xop d a b c ty rm fl) rfl (fieldsL_op hg) (fieldsL_xop hx hd ha hb hc ht hr hf) (fieldsL_pg hg)
    (fieldsL_d9 hx hd ha hb hc ht hr hf hg) (fieldsL_a9 hx hd ha hb hc ht hr hf hg) (fieldsL_b9 hx hd ha hb hc ht hr hf hg)
    (fieldsL_c hx hd ha hb hc ht hr hf) (fieldsL_ty hx hd ha hb hc ht hr hf) (fieldsL_rm hx hd ha hb hc ht hr hf)
    (fieldsL_fl hx hd ha hb hc ht hr hf) (fieldsL_mod hx hd ha hb hc ht hr hf)
  unfold fieldsL at e
  simp only [wordsL, List.cons_append, List.nil_append, decodeWords, h, if_false, e]; rfl

/-- A word with an offset is a word with its digits in D, A and B. -/
theorem offWord_eq (g op : Nat) (off : Int) :
    offWord g op off = wordS g op (unsigned 21 off / 16384) (unsigned 21 off / 128 % 128) (unsigned 21 off % 128) := by
  unfold offWord wordS
  generalize unsigned 21 off = u
  exact congrArg (BitVec.ofNat 32) (by omega)

theorem loopWord_eq (n k : Nat) (off : Int) : loopWord n k off = offWord (n * 8 + k) 0x0b off := by
  unfold loopWord offWord
  generalize unsigned 21 off = u
  exact congrArg (BitVec.ofNat 32) (by omega)

theorem offset_read {off : Int} (h : -1048576 ≤ off ∧ off < 1048576) : signed 21 (unsigned 21 off / 16384 * 16384
    + unsigned 21 off / 128 % 128 * 128 + unsigned 21 off % 128) = off := by
  have e : unsigned 21 off / 16384 * 16384 + unsigned 21 off / 128 % 128 * 128 + unsigned 21 off % 128 = unsigned 21 off := by omega
  rw [e, signed_unsigned (by decide) (by simpa using h.1) (by simpa using h.2)]

theorem offset_lt (off : Int) : unsigned 21 off / 16384 < 128 := by
  have := unsigned_lt 21 off; simp only [Nat.reducePow] at this; omega

theorem Fields.loopN_pg (f : Fields) : f.loopN = f.pg / 8 := by unfold loopN pg; omega
theorem Fields.loopK_pg (f : Fields) : f.loopK = f.pg % 8 := by unfold loopK pg; omega

/-! ## The table of a word -/

section
variable {f : Fields} {n : Nat}

theorem decodeInt_of (hc : f.cls = .int) (ho : f.op = n) (hn : n ≠ 0x3f) (ha : opAssigned .int n = true) :
    decodeFields true f = decodeInt f n := by
  subst ho; simp [decodeFields, hc, ha, hn]
theorem decodeFlt_of (hc : f.cls = .flt) (ho : f.op = n) (hn : n ≠ 0x3f) (ha : opAssigned .flt n = true) :
    decodeFields true f = decodeFlt f n := by
  subst ho; simp [decodeFields, hc, ha, hn]
theorem decodeXl_of (hc : f.cls = .xl) (ho : f.op = n) (hn : n ≠ 0x3f) (ha : opAssigned .xl n = true) :
    decodeFields true f = decodeXl f n := by
  subst ho; simp [decodeFields, hc, ha, hn]
theorem decodeMem_of (hc : f.cls = .mem) (ho : f.op = n) (hn : n ≠ 0x3f) (ha : opAssigned .mem n = true) :
    decodeFields true f = decodeMem f n := by
  subst ho; simp [decodeFields, hc, ha, hn]
theorem decodeCtl_of (hc : f.cls = .ctl) (ho : f.op = n) (hn : n ≠ 0x3f) (ha : opAssigned .ctl n = true) :
    decodeFields true f = decodeCtl f n := by
  subst ho; simp [decodeFields, hc, ha, hn]
theorem decodeSys_of (hc : f.cls = .sys) (ho : f.op = n) (hn : n ≠ 0x3f) (ha : opAssigned .sys n = true) :
    decodeFields true f = decodeSys f n := by
  subst ho; simp [decodeFields, hc, ha, hn]
theorem decodeIntL_of (hc : f.cls = .int) (ho : f.op = 0x3f) (hx : f.xop = n) (ha : xopAssigned .int n = true) :
    decodeFields true f = decodeIntL f n := by
  subst hx; simp [decodeFields, hc, ha, ho]
theorem decodeFltL_of (hc : f.cls = .flt) (ho : f.op = 0x3f) (hx : f.xop = n) (ha : xopAssigned .flt n = true) :
    decodeFields true f = decodeFltL f n := by
  subst hx; simp [decodeFields, hc, ha, ho]
theorem decodeXlL_of (hc : f.cls = .xl) (ho : f.op = 0x3f) (hx : f.xop = n) (ha : xopAssigned .xl n = true) :
    decodeFields true f = decodeXlL f n := by
  subst hx; simp [decodeFields, hc, ha, ho]
theorem decodeMemL_of (hc : f.cls = .mem) (ho : f.op = 0x3f) (hx : f.xop = n) (ha : xopAssigned .mem n = true) :
    decodeFields true f = decodeMemL f n := by
  subst hx; simp [decodeFields, hc, ha, ho]
theorem decodeMatL_of (hc : f.cls = .mat) (ho : f.op = 0x3f) (hx : f.xop = n) (ha : xopAssigned .mat n = true) :
    decodeFields true f = decodeMatL f n := by
  subst hx; simp [decodeFields, hc, ha, ho]
theorem decodeSysL_of (hc : f.cls = .sys) (ho : f.op = 0x3f) (hx : f.xop = n) (ha : xopAssigned .sys n = true) :
    decodeFields true f = decodeSysL f n := by
  subst hx; simp [decodeFields, hc, ha, ho]
end

/-- A step of a decoder that succeeds. -/
theorem ok_bind {α β ε : Type} (a : α) (k : α → Except ε β) : ((Except.ok a : Except ε α) >>= k) = k a := rfl

end Sys2Proof
end

