-- ==== Sys2Proof/Laws/PerInstr.lean ====
section
/-!
SUPPORT. Laws/PerInstr.lean: for each instruction, decoding its encoding gives it back (09 R163 to R178).
-/

set_option linter.unusedSimpArgs false

namespace Sys2Proof.Laws.Codec

/-- Whatever words follow them, the words of a well-formed instruction decode, in a clause of its class, to that instruction and
the number of its words. The operations of the module have no words. -/
def Statement (i : Instr) : Prop :=
  i.wellFormed = true → ∀ c ws, encode i = some (c, ws) → ∀ tail, decodeWords c true (ws ++ tail) = .ok (i, ws.length)

theorem iaddI32 (g : Guard) (d : Dst) (a b : Src) : Statement (.iaddI32 g d a b) := by
  intro h c' ws e tail
  replace h : (g.ok && d.ok7 32 && a.ok7 32 && b.ok7 32) = true := h
  simp only [Bool.and_eq_true] at h
  obtain ⟨⟨⟨h0, h1⟩, h2⟩, h3⟩ := h
  simp only [Dst.ok7, Bool.and_eq_true] at h1
  simp only [Src.ok7, Bool.and_eq_true] at h2
  simp only [Src.ok7, Bool.and_eq_true] at h3
  cases e
  refine decode_S (Guard.code_lt h0) (Dst.code7_spec h1.1).1 (Src.code7_spec h2.1).1 (Src.code7_spec h3.1).1 (by decide) fun
    F hc ho hg hd ha hb => ?_
  refine (decodeInt_of hc ho (by decide) (by decide)).trans ?_
  change (do
    let g ← F.guard
    let d ← F.dst7 32 F.d
    let a ← F.src7 32 F.a
    let b ← F.src7 32 F.b
    pure (Instr.iaddI32 g d a b)) = _
  simp only [hd, ha, hb, Fields.guard_spec h0 hg, Fields.dst7_spec h1.1, Fields.src7_spec h2.1, Fields.src7_spec h3.1,
    true_and, and_true, ok_bind, Fields.field, Fields.align, Bool.and_self, decide_true, if_true, and_self]
  rfl

theorem isubI32 (g : Guard) (d : Dst) (a b : Src) : Statement (.isubI32 g d a b) := by
  intro h c' ws e tail
  replace h : (g.ok && d.ok7 32 && a.ok7 32 && b.ok7 32) = true := h
  simp only [Bool.and_eq_true] at h
  obtain ⟨⟨⟨h0, h1⟩, h2⟩, h3⟩ := h
  simp only [Dst.ok7, Bool.and_eq_true] at h1
  simp only [Src.ok7, Bool.and_eq_true] at h2
  simp only [Src.ok7, Bool.and_eq_true] at h3
  cases e
  refine decode_S (Guard.code_lt h0) (Dst.code7_spec h1.1).1 (Src.code7_spec h2.1).1 (Src.code7_spec h3.1).1 (by decide) fun
    F hc ho hg hd ha hb => ?_
  refine (decodeInt_of hc ho (by decide) (by decide)).trans ?_
  change (do
    let g ← F.guard
    let d ← F.dst7 32 F.d
    let a ← F.src7 32 F.a
    let b ← F.src7 32 F.b
    pure (Instr.isubI32 g d a b)) = _
  simp only [hd, ha, hb, Fields.guard_spec h0 hg, Fields.dst7_spec h1.1, Fields.src7_spec h2.1, Fields.src7_spec h3.1,
    true_and, and_true, ok_bind, Fields.field, Fields.align, Bool.and_self, decide_true, if_true, and_self]
  rfl

theorem iaddI64 (g : Guard) (d : Dst) (a b : Src) : Statement (.iaddI64 g d a b) := by
  intro h c' ws e tail
  replace h : (g.ok && d.ok7 64 && a.ok7 64 && b.ok7 64) = true := h
  simp only [Bool.and_eq_true] at h
  obtain ⟨⟨⟨h0, h1⟩, h2⟩, h3⟩ := h
  simp only [Dst.ok7, Bool.and_eq_true] at h1
  simp only [Src.ok7, Bool.and_eq_true] at h2
  simp only [Src.ok7, Bool.and_eq_true] at h3
  cases e
  refine decode_S (Guard.code_lt h0) (Dst.code7_spec h1.1).1 (Src.code7_spec h2.1).1 (Src.code7_spec h3.1).1 (by decide) fun
    F hc ho hg hd ha hb => ?_
  refine (decodeInt_of hc ho (by decide) (by decide)).trans ?_
  change (do
    let g ← F.guard
    let d ← F.dst7 64 F.d
    let a ← F.src7 64 F.a
    let b ← F.src7 64 F.b
    F.align (d.aligned 64 && a.aligned 64 && b.aligned 64)
    pure (Instr.iaddI64 g d a b)) = _
  simp only [hd, ha, hb, Fields.guard_spec h0 hg, Fields.dst7_spec h1.1, h1.2, Fields.src7_spec h2.1, h2.2, Fields.src7_spec
    h3.1, h3.2, true_and, and_true, ok_bind, Fields.field, Fields.align, Bool.and_self, decide_true, if_true, and_self]
  rfl

theorem isubI64 (g : Guard) (d : Dst) (a b : Src) : Statement (.isubI64 g d a b) := by
  intro h c' ws e tail
  replace h : (g.ok && d.ok7 64 && a.ok7 64 && b.ok7 64) = true := h
  simp only [Bool.and_eq_true] at h
  obtain ⟨⟨⟨h0, h1⟩, h2⟩, h3⟩ := h
  simp only [Dst.ok7, Bool.and_eq_true] at h1
  simp only [Src.ok7, Bool.and_eq_true] at h2
  simp only [Src.ok7, Bool.and_eq_true] at h3
  cases e
  refine decode_S (Guard.code_lt h0) (Dst.code7_spec h1.1).1 (Src.code7_spec h2.1).1 (Src.code7_spec h3.1).1 (by decide) fun
    F hc ho hg hd ha hb => ?_
  refine (decodeInt_of hc ho (by decide) (by decide)).trans ?_
  change (do
    let g ← F.guard
    let d ← F.dst7 64 F.d
    let a ← F.src7 64 F.a
    let b ← F.src7 64 F.b
    F.align (d.aligned 64 && a.aligned 64 && b.aligned 64)
    pure (Instr.isubI64 g d a b)) = _
  simp only [hd, ha, hb, Fields.guard_spec h0 hg, Fields.dst7_spec h1.1, h1.2, Fields.src7_spec h2.1, h2.2, Fields.src7_spec
    h3.1, h3.2, true_and, and_true, ok_bind, Fields.field, Fields.align, Bool.and_self, decide_true, if_true, and_self]
  rfl

theorem imulI32 (g : Guard) (d : Dst) (a b : Src) : Statement (.imulI32 g d a b) := by
  intro h c' ws e tail
  replace h : (g.ok && d.ok7 32 && a.ok7 32 && b.ok7 32) = true := h
  simp only [Bool.and_eq_true] at h
  obtain ⟨⟨⟨h0, h1⟩, h2⟩, h3⟩ := h
  simp only [Dst.ok7, Bool.and_eq_true] at h1
  simp only [Src.ok7, Bool.and_eq_true] at h2
  simp only [Src.ok7, Bool.and_eq_true] at h3
  cases e
  refine decode_S (Guard.code_lt h0) (Dst.code7_spec h1.1).1 (Src.code7_spec h2.1).1 (Src.code7_spec h3.1).1 (by decide) fun
    F hc ho hg hd ha hb => ?_
  refine (decodeInt_of hc ho (by decide) (by decide)).trans ?_
  change (do
    let g ← F.guard
    let d ← F.dst7 32 F.d
    let a ← F.src7 32 F.a
    let b ← F.src7 32 F.b
    pure (Instr.imulI32 g d a b)) = _
  simp only [hd, ha, hb, Fields.guard_spec h0 hg, Fields.dst7_spec h1.1, Fields.src7_spec h2.1, Fields.src7_spec h3.1,
    true_and, and_true, ok_bind, Fields.field, Fields.align, Bool.and_self, decide_true, if_true, and_self]
  rfl

theorem imulhiI32 (g : Guard) (d : Dst) (a b : Src) : Statement (.imulhiI32 g d a b) := by
  intro h c' ws e tail
  replace h : (g.ok && d.ok7 32 && a.ok7 32 && b.ok7 32) = true := h
  simp only [Bool.and_eq_true] at h
  obtain ⟨⟨⟨h0, h1⟩, h2⟩, h3⟩ := h
  simp only [Dst.ok7, Bool.and_eq_true] at h1
  simp only [Src.ok7, Bool.and_eq_true] at h2
  simp only [Src.ok7, Bool.and_eq_true] at h3
  cases e
  refine decode_S (Guard.code_lt h0) (Dst.code7_spec h1.1).1 (Src.code7_spec h2.1).1 (Src.code7_spec h3.1).1 (by decide) fun
    F hc ho hg hd ha hb => ?_
  refine (decodeInt_of hc ho (by decide) (by decide)).trans ?_
  change (do
    let g ← F.guard
    let d ← F.dst7 32 F.d
    let a ← F.src7 32 F.a
    let b ← F.src7 32 F.b
    pure (Instr.imulhiI32 g d a b)) = _
  simp only [hd, ha, hb, Fields.guard_spec h0 hg, Fields.dst7_spec h1.1, Fields.src7_spec h2.1, Fields.src7_spec h3.1,
    true_and, and_true, ok_bind, Fields.field, Fields.align, Bool.and_self, decide_true, if_true, and_self]
  rfl

theorem imulhiN32 (g : Guard) (d : Dst) (a b : Src) : Statement (.imulhiN32 g d a b) := by
  intro h c' ws e tail
  replace h : (g.ok && d.ok7 32 && a.ok7 32 && b.ok7 32) = true := h
  simp only [Bool.and_eq_true] at h
  obtain ⟨⟨⟨h0, h1⟩, h2⟩, h3⟩ := h
  simp only [Dst.ok7, Bool.and_eq_true] at h1
  simp only [Src.ok7, Bool.and_eq_true] at h2
  simp only [Src.ok7, Bool.and_eq_true] at h3
  cases e
  refine decode_S (Guard.code_lt h0) (Dst.code7_spec h1.1).1 (Src.code7_spec h2.1).1 (Src.code7_spec h3.1).1 (by decide) fun
    F hc ho hg hd ha hb => ?_
  refine (decodeInt_of hc ho (by decide) (by decide)).trans ?_
  change (do
    let g ← F.guard
    let d ← F.dst7 32 F.d
    let a ← F.src7 32 F.a
    let b ← F.src7 32 F.b
    pure (Instr.imulhiN32 g d a b)) = _
  simp only [hd, ha, hb, Fields.guard_spec h0 hg, Fields.dst7_spec h1.1, Fields.src7_spec h2.1, Fields.src7_spec h3.1,
    true_and, and_true, ok_bind, Fields.field, Fields.align, Bool.and_self, decide_true, if_true, and_self]
  rfl

theorem iminI32 (g : Guard) (d : Dst) (a b : Src) : Statement (.iminI32 g d a b) := by
  intro h c' ws e tail
  replace h : (g.ok && d.ok7 32 && a.ok7 32 && b.ok7 32) = true := h
  simp only [Bool.and_eq_true] at h
  obtain ⟨⟨⟨h0, h1⟩, h2⟩, h3⟩ := h
  simp only [Dst.ok7, Bool.and_eq_true] at h1
  simp only [Src.ok7, Bool.and_eq_true] at h2
  simp only [Src.ok7, Bool.and_eq_true] at h3
  cases e
  refine decode_S (Guard.code_lt h0) (Dst.code7_spec h1.1).1 (Src.code7_spec h2.1).1 (Src.code7_spec h3.1).1 (by decide) fun
    F hc ho hg hd ha hb => ?_
  refine (decodeInt_of hc ho (by decide) (by decide)).trans ?_
  change (do
    let g ← F.guard
    let d ← F.dst7 32 F.d
    let a ← F.src7 32 F.a
    let b ← F.src7 32 F.b
    pure (Instr.iminI32 g d a b)) = _
  simp only [hd, ha, hb, Fields.guard_spec h0 hg, Fields.dst7_spec h1.1, Fields.src7_spec h2.1, Fields.src7_spec h3.1,
    true_and, and_true, ok_bind, Fields.field, Fields.align, Bool.and_self, decide_true, if_true, and_self]
  rfl

theorem imaxI32 (g : Guard) (d : Dst) (a b : Src) : Statement (.imaxI32 g d a b) := by
  intro h c' ws e tail
  replace h : (g.ok && d.ok7 32 && a.ok7 32 && b.ok7 32) = true := h
  simp only [Bool.and_eq_true] at h
  obtain ⟨⟨⟨h0, h1⟩, h2⟩, h3⟩ := h
  simp only [Dst.ok7, Bool.and_eq_true] at h1
  simp only [Src.ok7, Bool.and_eq_true] at h2
  simp only [Src.ok7, Bool.and_eq_true] at h3
  cases e
  refine decode_S (Guard.code_lt h0) (Dst.code7_spec h1.1).1 (Src.code7_spec h2.1).1 (Src.code7_spec h3.1).1 (by decide) fun
    F hc ho hg hd ha hb => ?_
  refine (decodeInt_of hc ho (by decide) (by decide)).trans ?_
  change (do
    let g ← F.guard
    let d ← F.dst7 32 F.d
    let a ← F.src7 32 F.a
    let b ← F.src7 32 F.b
    pure (Instr.imaxI32 g d a b)) = _
  simp only [hd, ha, hb, Fields.guard_spec h0 hg, Fields.dst7_spec h1.1, Fields.src7_spec h2.1, Fields.src7_spec h3.1,
    true_and, and_true, ok_bind, Fields.field, Fields.align, Bool.and_self, decide_true, if_true, and_self]
  rfl

theorem iminN32 (g : Guard) (d : Dst) (a b : Src) : Statement (.iminN32 g d a b) := by
  intro h c' ws e tail
  replace h : (g.ok && d.ok7 32 && a.ok7 32 && b.ok7 32) = true := h
  simp only [Bool.and_eq_true] at h
  obtain ⟨⟨⟨h0, h1⟩, h2⟩, h3⟩ := h
  simp only [Dst.ok7, Bool.and_eq_true] at h1
  simp only [Src.ok7, Bool.and_eq_true] at h2
  simp only [Src.ok7, Bool.and_eq_true] at h3
  cases e
  refine decode_S (Guard.code_lt h0) (Dst.code7_spec h1.1).1 (Src.code7_spec h2.1).1 (Src.code7_spec h3.1).1 (by decide) fun
    F hc ho hg hd ha hb => ?_
  refine (decodeInt_of hc ho (by decide) (by decide)).trans ?_
  change (do
    let g ← F.guard
    let d ← F.dst7 32 F.d
    let a ← F.src7 32 F.a
    let b ← F.src7 32 F.b
    pure (Instr.iminN32 g d a b)) = _
  simp only [hd, ha, hb, Fields.guard_spec h0 hg, Fields.dst7_spec h1.1, Fields.src7_spec h2.1, Fields.src7_spec h3.1,
    true_and, and_true, ok_bind, Fields.field, Fields.align, Bool.and_self, decide_true, if_true, and_self]
  rfl

theorem imaxN32 (g : Guard) (d : Dst) (a b : Src) : Statement (.imaxN32 g d a b) := by
  intro h c' ws e tail
  replace h : (g.ok && d.ok7 32 && a.ok7 32 && b.ok7 32) = true := h
  simp only [Bool.and_eq_true] at h
  obtain ⟨⟨⟨h0, h1⟩, h2⟩, h3⟩ := h
  simp only [Dst.ok7, Bool.and_eq_true] at h1
  simp only [Src.ok7, Bool.and_eq_true] at h2
  simp only [Src.ok7, Bool.and_eq_true] at h3
  cases e
  refine decode_S (Guard.code_lt h0) (Dst.code7_spec h1.1).1 (Src.code7_spec h2.1).1 (Src.code7_spec h3.1).1 (by decide) fun
    F hc ho hg hd ha hb => ?_
  refine (decodeInt_of hc ho (by decide) (by decide)).trans ?_
  change (do
    let g ← F.guard
    let d ← F.dst7 32 F.d
    let a ← F.src7 32 F.a
    let b ← F.src7 32 F.b
    pure (Instr.imaxN32 g d a b)) = _
  simp only [hd, ha, hb, Fields.guard_spec h0 hg, Fields.dst7_spec h1.1, Fields.src7_spec h2.1, Fields.src7_spec h3.1,
    true_and, and_true, ok_bind, Fields.field, Fields.align, Bool.and_self, decide_true, if_true, and_self]
  rfl

theorem andB32 (g : Guard) (d : Dst) (a b : Src) : Statement (.andB32 g d a b) := by
  intro h c' ws e tail
  replace h : (g.ok && d.ok7 32 && a.ok7 32 && b.ok7 32) = true := h
  simp only [Bool.and_eq_true] at h
  obtain ⟨⟨⟨h0, h1⟩, h2⟩, h3⟩ := h
  simp only [Dst.ok7, Bool.and_eq_true] at h1
  simp only [Src.ok7, Bool.and_eq_true] at h2
  simp only [Src.ok7, Bool.and_eq_true] at h3
  cases e
  refine decode_S (Guard.code_lt h0) (Dst.code7_spec h1.1).1 (Src.code7_spec h2.1).1 (Src.code7_spec h3.1).1 (by decide) fun
    F hc ho hg hd ha hb => ?_
  refine (decodeInt_of hc ho (by decide) (by decide)).trans ?_
  change (do
    let g ← F.guard
    let d ← F.dst7 32 F.d
    let a ← F.src7 32 F.a
    let b ← F.src7 32 F.b
    pure (Instr.andB32 g d a b)) = _
  simp only [hd, ha, hb, Fields.guard_spec h0 hg, Fields.dst7_spec h1.1, Fields.src7_spec h2.1, Fields.src7_spec h3.1,
    true_and, and_true, ok_bind, Fields.field, Fields.align, Bool.and_self, decide_true, if_true, and_self]
  rfl

theorem orB32 (g : Guard) (d : Dst) (a b : Src) : Statement (.orB32 g d a b) := by
  intro h c' ws e tail
  replace h : (g.ok && d.ok7 32 && a.ok7 32 && b.ok7 32) = true := h
  simp only [Bool.and_eq_true] at h
  obtain ⟨⟨⟨h0, h1⟩, h2⟩, h3⟩ := h
  simp only [Dst.ok7, Bool.and_eq_true] at h1
  simp only [Src.ok7, Bool.and_eq_true] at h2
  simp only [Src.ok7, Bool.and_eq_true] at h3
  cases e
  refine decode_S (Guard.code_lt h0) (Dst.code7_spec h1.1).1 (Src.code7_spec h2.1).1 (Src.code7_spec h3.1).1 (by decide) fun
    F hc ho hg hd ha hb => ?_
  refine (decodeInt_of hc ho (by decide) (by decide)).trans ?_
  change (do
    let g ← F.guard
    let d ← F.dst7 32 F.d
    let a ← F.src7 32 F.a
    let b ← F.src7 32 F.b
    pure (Instr.orB32 g d a b)) = _
  simp only [hd, ha, hb, Fields.guard_spec h0 hg, Fields.dst7_spec h1.1, Fields.src7_spec h2.1, Fields.src7_spec h3.1,
    true_and, and_true, ok_bind, Fields.field, Fields.align, Bool.and_self, decide_true, if_true, and_self]
  rfl

theorem xorB32 (g : Guard) (d : Dst) (a b : Src) : Statement (.xorB32 g d a b) := by
  intro h c' ws e tail
  replace h : (g.ok && d.ok7 32 && a.ok7 32 && b.ok7 32) = true := h
  simp only [Bool.and_eq_true] at h
  obtain ⟨⟨⟨h0, h1⟩, h2⟩, h3⟩ := h
  simp only [Dst.ok7, Bool.and_eq_true] at h1
  simp only [Src.ok7, Bool.and_eq_true] at h2
  simp only [Src.ok7, Bool.and_eq_true] at h3
  cases e
  refine decode_S (Guard.code_lt h0) (Dst.code7_spec h1.1).1 (Src.code7_spec h2.1).1 (Src.code7_spec h3.1).1 (by decide) fun
    F hc ho hg hd ha hb => ?_
  refine (decodeInt_of hc ho (by decide) (by decide)).trans ?_
  change (do
    let g ← F.guard
    let d ← F.dst7 32 F.d
    let a ← F.src7 32 F.a
    let b ← F.src7 32 F.b
    pure (Instr.xorB32 g d a b)) = _
  simp only [hd, ha, hb, Fields.guard_spec h0 hg, Fields.dst7_spec h1.1, Fields.src7_spec h2.1, Fields.src7_spec h3.1,
    true_and, and_true, ok_bind, Fields.field, Fields.align, Bool.and_self, decide_true, if_true, and_self]
  rfl

theorem andnB32 (g : Guard) (d : Dst) (a b : Src) : Statement (.andnB32 g d a b) := by
  intro h c' ws e tail
  replace h : (g.ok && d.ok7 32 && a.ok7 32 && b.ok7 32) = true := h
  simp only [Bool.and_eq_true] at h
  obtain ⟨⟨⟨h0, h1⟩, h2⟩, h3⟩ := h
  simp only [Dst.ok7, Bool.and_eq_true] at h1
  simp only [Src.ok7, Bool.and_eq_true] at h2
  simp only [Src.ok7, Bool.and_eq_true] at h3
  cases e
  refine decode_S (Guard.code_lt h0) (Dst.code7_spec h1.1).1 (Src.code7_spec h2.1).1 (Src.code7_spec h3.1).1 (by decide) fun
    F hc ho hg hd ha hb => ?_
  refine (decodeInt_of hc ho (by decide) (by decide)).trans ?_
  change (do
    let g ← F.guard
    let d ← F.dst7 32 F.d
    let a ← F.src7 32 F.a
    let b ← F.src7 32 F.b
    pure (Instr.andnB32 g d a b)) = _
  simp only [hd, ha, hb, Fields.guard_spec h0 hg, Fields.dst7_spec h1.1, Fields.src7_spec h2.1, Fields.src7_spec h3.1,
    true_and, and_true, ok_bind, Fields.field, Fields.align, Bool.and_self, decide_true, if_true, and_self]
  rfl

theorem shl (g : Guard) (d : Dst) (a b : Src) : Statement (.shl g d a b) := by
  intro h c' ws e tail
  replace h : (g.ok && d.ok7 32 && a.ok7 32 && b.ok7 32) = true := h
  simp only [Bool.and_eq_true] at h
  obtain ⟨⟨⟨h0, h1⟩, h2⟩, h3⟩ := h
  simp only [Dst.ok7, Bool.and_eq_true] at h1
  simp only [Src.ok7, Bool.and_eq_true] at h2
  simp only [Src.ok7, Bool.and_eq_true] at h3
  cases e
  refine decode_S (Guard.code_lt h0) (Dst.code7_spec h1.1).1 (Src.code7_spec h2.1).1 (Src.code7_spec h3.1).1 (by decide) fun
    F hc ho hg hd ha hb => ?_
  refine (decodeInt_of hc ho (by decide) (by decide)).trans ?_
  change (do
    let g ← F.guard
    let d ← F.dst7 32 F.d
    let a ← F.src7 32 F.a
    let b ← F.src7 32 F.b
    pure (Instr.shl g d a b)) = _
  simp only [hd, ha, hb, Fields.guard_spec h0 hg, Fields.dst7_spec h1.1, Fields.src7_spec h2.1, Fields.src7_spec h3.1,
    true_and, and_true, ok_bind, Fields.field, Fields.align, Bool.and_self, decide_true, if_true, and_self]
  rfl

theorem shr (g : Guard) (d : Dst) (a b : Src) : Statement (.shr g d a b) := by
  intro h c' ws e tail
  replace h : (g.ok && d.ok7 32 && a.ok7 32 && b.ok7 32) = true := h
  simp only [Bool.and_eq_true] at h
  obtain ⟨⟨⟨h0, h1⟩, h2⟩, h3⟩ := h
  simp only [Dst.ok7, Bool.and_eq_true] at h1
  simp only [Src.ok7, Bool.and_eq_true] at h2
  simp only [Src.ok7, Bool.and_eq_true] at h3
  cases e
  refine decode_S (Guard.code_lt h0) (Dst.code7_spec h1.1).1 (Src.code7_spec h2.1).1 (Src.code7_spec h3.1).1 (by decide) fun
    F hc ho hg hd ha hb => ?_
  refine (decodeInt_of hc ho (by decide) (by decide)).trans ?_
  change (do
    let g ← F.guard
    let d ← F.dst7 32 F.d
    let a ← F.src7 32 F.a
    let b ← F.src7 32 F.b
    pure (Instr.shr g d a b)) = _
  simp only [hd, ha, hb, Fields.guard_spec h0 hg, Fields.dst7_spec h1.1, Fields.src7_spec h2.1, Fields.src7_spec h3.1,
    true_and, and_true, ok_bind, Fields.field, Fields.align, Bool.and_self, decide_true, if_true, and_self]
  rfl

theorem sar (g : Guard) (d : Dst) (a b : Src) : Statement (.sar g d a b) := by
  intro h c' ws e tail
  replace h : (g.ok && d.ok7 32 && a.ok7 32 && b.ok7 32) = true := h
  simp only [Bool.and_eq_true] at h
  obtain ⟨⟨⟨h0, h1⟩, h2⟩, h3⟩ := h
  simp only [Dst.ok7, Bool.and_eq_true] at h1
  simp only [Src.ok7, Bool.and_eq_true] at h2
  simp only [Src.ok7, Bool.and_eq_true] at h3
  cases e
  refine decode_S (Guard.code_lt h0) (Dst.code7_spec h1.1).1 (Src.code7_spec h2.1).1 (Src.code7_spec h3.1).1 (by decide) fun
    F hc ho hg hd ha hb => ?_
  refine (decodeInt_of hc ho (by decide) (by decide)).trans ?_
  change (do
    let g ← F.guard
    let d ← F.dst7 32 F.d
    let a ← F.src7 32 F.a
    let b ← F.src7 32 F.b
    pure (Instr.sar g d a b)) = _
  simp only [hd, ha, hb, Fields.guard_spec h0 hg, Fields.dst7_spec h1.1, Fields.src7_spec h2.1, Fields.src7_spec h3.1,
    true_and, and_true, ok_bind, Fields.field, Fields.align, Bool.and_self, decide_true, if_true, and_self]
  rfl

theorem rotl (g : Guard) (d : Dst) (a b : Src) : Statement (.rotl g d a b) := by
  intro h c' ws e tail
  replace h : (g.ok && d.ok7 32 && a.ok7 32 && b.ok7 32) = true := h
  simp only [Bool.and_eq_true] at h
  obtain ⟨⟨⟨h0, h1⟩, h2⟩, h3⟩ := h
  simp only [Dst.ok7, Bool.and_eq_true] at h1
  simp only [Src.ok7, Bool.and_eq_true] at h2
  simp only [Src.ok7, Bool.and_eq_true] at h3
  cases e
  refine decode_S (Guard.code_lt h0) (Dst.code7_spec h1.1).1 (Src.code7_spec h2.1).1 (Src.code7_spec h3.1).1 (by decide) fun
    F hc ho hg hd ha hb => ?_
  refine (decodeInt_of hc ho (by decide) (by decide)).trans ?_
  change (do
    let g ← F.guard
    let d ← F.dst7 32 F.d
    let a ← F.src7 32 F.a
    let b ← F.src7 32 F.b
    pure (Instr.rotl g d a b)) = _
  simp only [hd, ha, hb, Fields.guard_spec h0 hg, Fields.dst7_spec h1.1, Fields.src7_spec h2.1, Fields.src7_spec h3.1,
    true_and, and_true, ok_bind, Fields.field, Fields.align, Bool.and_self, decide_true, if_true, and_self]
  rfl

theorem popc (g : Guard) (d : Dst) (a : Src) : Statement (.popc g d a) := by
  intro h c' ws e tail
  replace h : (g.ok && d.ok7 32 && a.ok7 32) = true := h
  simp only [Bool.and_eq_true] at h
  obtain ⟨⟨h0, h1⟩, h2⟩ := h
  simp only [Dst.ok7, Bool.and_eq_true] at h1
  simp only [Src.ok7, Bool.and_eq_true] at h2
  cases e
  refine decode_S (Guard.code_lt h0) (Dst.code7_spec h1.1).1 (Src.code7_spec h2.1).1 (by decide) (by decide) fun F hc ho hg
    hd ha hb => ?_
  refine (decodeInt_of hc ho (by decide) (by decide)).trans ?_
  change (do
    let g ← F.guard
    F.field (F.b = 0)
    let d ← F.dst7 32 F.d
    let a ← F.src7 32 F.a
    pure (Instr.popc g d a)) = _
  simp only [hd, ha, hb, Fields.guard_spec h0 hg, Fields.dst7_spec h1.1, Fields.src7_spec h2.1, true_and, and_true, ok_bind,
    Fields.field, Fields.align, Bool.and_self, decide_true, if_true, and_self]
  rfl

theorem clz (g : Guard) (d : Dst) (a : Src) : Statement (.clz g d a) := by
  intro h c' ws e tail
  replace h : (g.ok && d.ok7 32 && a.ok7 32) = true := h
  simp only [Bool.and_eq_true] at h
  obtain ⟨⟨h0, h1⟩, h2⟩ := h
  simp only [Dst.ok7, Bool.and_eq_true] at h1
  simp only [Src.ok7, Bool.and_eq_true] at h2
  cases e
  refine decode_S (Guard.code_lt h0) (Dst.code7_spec h1.1).1 (Src.code7_spec h2.1).1 (by decide) (by decide) fun F hc ho hg
    hd ha hb => ?_
  refine (decodeInt_of hc ho (by decide) (by decide)).trans ?_
  change (do
    let g ← F.guard
    F.field (F.b = 0)
    let d ← F.dst7 32 F.d
    let a ← F.src7 32 F.a
    pure (Instr.clz g d a)) = _
  simp only [hd, ha, hb, Fields.guard_spec h0 hg, Fields.dst7_spec h1.1, Fields.src7_spec h2.1, true_and, and_true, ok_bind,
    Fields.field, Fields.align, Bool.and_self, decide_true, if_true, and_self]
  rfl

theorem ctz (g : Guard) (d : Dst) (a : Src) : Statement (.ctz g d a) := by
  intro h c' ws e tail
  replace h : (g.ok && d.ok7 32 && a.ok7 32) = true := h
  simp only [Bool.and_eq_true] at h
  obtain ⟨⟨h0, h1⟩, h2⟩ := h
  simp only [Dst.ok7, Bool.and_eq_true] at h1
  simp only [Src.ok7, Bool.and_eq_true] at h2
  cases e
  refine decode_S (Guard.code_lt h0) (Dst.code7_spec h1.1).1 (Src.code7_spec h2.1).1 (by decide) (by decide) fun F hc ho hg
    hd ha hb => ?_
  refine (decodeInt_of hc ho (by decide) (by decide)).trans ?_
  change (do
    let g ← F.guard
    F.field (F.b = 0)
    let d ← F.dst7 32 F.d
    let a ← F.src7 32 F.a
    pure (Instr.ctz g d a)) = _
  simp only [hd, ha, hb, Fields.guard_spec h0 hg, Fields.dst7_spec h1.1, Fields.src7_spec h2.1, true_and, and_true, ok_bind,
    Fields.field, Fields.align, Bool.and_self, decide_true, if_true, and_self]
  rfl

theorem brev (g : Guard) (d : Dst) (a : Src) : Statement (.brev g d a) := by
  intro h c' ws e tail
  replace h : (g.ok && d.ok7 32 && a.ok7 32) = true := h
  simp only [Bool.and_eq_true] at h
  obtain ⟨⟨h0, h1⟩, h2⟩ := h
  simp only [Dst.ok7, Bool.and_eq_true] at h1
  simp only [Src.ok7, Bool.and_eq_true] at h2
  cases e
  refine decode_S (Guard.code_lt h0) (Dst.code7_spec h1.1).1 (Src.code7_spec h2.1).1 (by decide) (by decide) fun F hc ho hg
    hd ha hb => ?_
  refine (decodeInt_of hc ho (by decide) (by decide)).trans ?_
  change (do
    let g ← F.guard
    F.field (F.b = 0)
    let d ← F.dst7 32 F.d
    let a ← F.src7 32 F.a
    pure (Instr.brev g d a)) = _
  simp only [hd, ha, hb, Fields.guard_spec h0 hg, Fields.dst7_spec h1.1, Fields.src7_spec h2.1, true_and, and_true, ok_bind,
    Fields.field, Fields.align, Bool.and_self, decide_true, if_true, and_self]
  rfl

theorem iabsI32 (g : Guard) (d : Dst) (a : Src) : Statement (.iabsI32 g d a) := by
  intro h c' ws e tail
  replace h : (g.ok && d.ok7 32 && a.ok7 32) = true := h
  simp only [Bool.and_eq_true] at h
  obtain ⟨⟨h0, h1⟩, h2⟩ := h
  simp only [Dst.ok7, Bool.and_eq_true] at h1
  simp only [Src.ok7, Bool.and_eq_true] at h2
  cases e
  refine decode_S (Guard.code_lt h0) (Dst.code7_spec h1.1).1 (Src.code7_spec h2.1).1 (by decide) (by decide) fun F hc ho hg
    hd ha hb => ?_
  refine (decodeInt_of hc ho (by decide) (by decide)).trans ?_
  change (do
    let g ← F.guard
    F.field (F.b = 0)
    let d ← F.dst7 32 F.d
    let a ← F.src7 32 F.a
    pure (Instr.iabsI32 g d a)) = _
  simp only [hd, ha, hb, Fields.guard_spec h0 hg, Fields.dst7_spec h1.1, Fields.src7_spec h2.1, true_and, and_true, ok_bind,
    Fields.field, Fields.align, Bool.and_self, decide_true, if_true, and_self]
  rfl

theorem inegI32 (g : Guard) (d : Dst) (a : Src) : Statement (.inegI32 g d a) := by
  intro h c' ws e tail
  replace h : (g.ok && d.ok7 32 && a.ok7 32) = true := h
  simp only [Bool.and_eq_true] at h
  obtain ⟨⟨h0, h1⟩, h2⟩ := h
  simp only [Dst.ok7, Bool.and_eq_true] at h1
  simp only [Src.ok7, Bool.and_eq_true] at h2
  cases e
  refine decode_S (Guard.code_lt h0) (Dst.code7_spec h1.1).1 (Src.code7_spec h2.1).1 (by decide) (by decide) fun F hc ho hg
    hd ha hb => ?_
  refine (decodeInt_of hc ho (by decide) (by decide)).trans ?_
  change (do
    let g ← F.guard
    F.field (F.b = 0)
    let d ← F.dst7 32 F.d
    let a ← F.src7 32 F.a
    pure (Instr.inegI32 g d a)) = _
  simp only [hd, ha, hb, Fields.guard_spec h0 hg, Fields.dst7_spec h1.1, Fields.src7_spec h2.1, true_and, and_true, ok_bind,
    Fields.field, Fields.align, Bool.and_self, decide_true, if_true, and_self]
  rfl

theorem mov (g : Guard) (d : Dst) (a : Src) : Statement (.mov g d a) := by
  intro h c' ws e tail
  replace h : (g.ok && d.ok7 32 && a.ok7 32) = true := h
  simp only [Bool.and_eq_true] at h
  obtain ⟨⟨h0, h1⟩, h2⟩ := h
  simp only [Dst.ok7, Bool.and_eq_true] at h1
  simp only [Src.ok7, Bool.and_eq_true] at h2
  cases e
  refine decode_S (Guard.code_lt h0) (Dst.code7_spec h1.1).1 (Src.code7_spec h2.1).1 (by decide) (by decide) fun F hc ho hg
    hd ha hb => ?_
  refine (decodeInt_of hc ho (by decide) (by decide)).trans ?_
  change (do
    let g ← F.guard
    F.field (F.b = 0)
    let d ← F.dst7 32 F.d
    let a ← F.src7 32 F.a
    pure (Instr.mov g d a)) = _
  simp only [hd, ha, hb, Fields.guard_spec h0 hg, Fields.dst7_spec h1.1, Fields.src7_spec h2.1, true_and, and_true, ok_bind,
    Fields.field, Fields.align, Bool.and_self, decide_true, if_true, and_self]
  rfl

theorem pand (g : Guard) (d a b : Nat) : Statement (.pand g d a b) := by
  intro h c' ws e tail
  replace h : (g.ok && decide (d < 12) && decide (a < 12) && decide (b < 12)) = true := h
  simp only [Bool.and_eq_true] at h
  obtain ⟨⟨⟨h0, h1⟩, h2⟩, h3⟩ := h
  simp only [decide_eq_true_eq] at h1
  simp only [decide_eq_true_eq] at h2
  simp only [decide_eq_true_eq] at h3
  cases e
  refine decode_S (Guard.code_lt h0) (by omega) (by omega) (by omega) (by decide) fun F hc ho hg hd ha hb => ?_
  refine (decodeInt_of hc ho (by decide) (by decide)).trans ?_
  change (do
    let g ← F.guard
    let d ← F.pred F.d
    let a ← F.pred F.a
    let b ← F.pred F.b
    pure (Instr.pand g d a b)) = _
  simp only [hd, ha, hb, Fields.guard_spec h0 hg, Fields.pred_spec h1, Fields.pred_spec h2, Fields.pred_spec h3, true_and,
    and_true, ok_bind, Fields.field, Fields.align, Bool.and_self, decide_true, if_true, and_self]
  rfl

theorem por (g : Guard) (d a b : Nat) : Statement (.por g d a b) := by
  intro h c' ws e tail
  replace h : (g.ok && decide (d < 12) && decide (a < 12) && decide (b < 12)) = true := h
  simp only [Bool.and_eq_true] at h
  obtain ⟨⟨⟨h0, h1⟩, h2⟩, h3⟩ := h
  simp only [decide_eq_true_eq] at h1
  simp only [decide_eq_true_eq] at h2
  simp only [decide_eq_true_eq] at h3
  cases e
  refine decode_S (Guard.code_lt h0) (by omega) (by omega) (by omega) (by decide) fun F hc ho hg hd ha hb => ?_
  refine (decodeInt_of hc ho (by decide) (by decide)).trans ?_
  change (do
    let g ← F.guard
    let d ← F.pred F.d
    let a ← F.pred F.a
    let b ← F.pred F.b
    pure (Instr.por g d a b)) = _
  simp only [hd, ha, hb, Fields.guard_spec h0 hg, Fields.pred_spec h1, Fields.pred_spec h2, Fields.pred_spec h3, true_and,
    and_true, ok_bind, Fields.field, Fields.align, Bool.and_self, decide_true, if_true, and_self]
  rfl

theorem pxor (g : Guard) (d a b : Nat) : Statement (.pxor g d a b) := by
  intro h c' ws e tail
  replace h : (g.ok && decide (d < 12) && decide (a < 12) && decide (b < 12)) = true := h
  simp only [Bool.and_eq_true] at h
  obtain ⟨⟨⟨h0, h1⟩, h2⟩, h3⟩ := h
  simp only [decide_eq_true_eq] at h1
  simp only [decide_eq_true_eq] at h2
  simp only [decide_eq_true_eq] at h3
  cases e
  refine decode_S (Guard.code_lt h0) (by omega) (by omega) (by omega) (by decide) fun F hc ho hg hd ha hb => ?_
  refine (decodeInt_of hc ho (by decide) (by decide)).trans ?_
  change (do
    let g ← F.guard
    let d ← F.pred F.d
    let a ← F.pred F.a
    let b ← F.pred F.b
    pure (Instr.pxor g d a b)) = _
  simp only [hd, ha, hb, Fields.guard_spec h0 hg, Fields.pred_spec h1, Fields.pred_spec h2, Fields.pred_spec h3, true_and,
    and_true, ok_bind, Fields.field, Fields.align, Bool.and_self, decide_true, if_true, and_self]
  rfl

theorem pnot (g : Guard) (d a : Nat) : Statement (.pnot g d a) := by
  intro h c' ws e tail
  replace h : (g.ok && decide (d < 12) && decide (a < 12)) = true := h
  simp only [Bool.and_eq_true] at h
  obtain ⟨⟨h0, h1⟩, h2⟩ := h
  simp only [decide_eq_true_eq] at h1
  simp only [decide_eq_true_eq] at h2
  cases e
  refine decode_S (Guard.code_lt h0) (by omega) (by omega) (by decide) (by decide) fun F hc ho hg hd ha hb => ?_
  refine (decodeInt_of hc ho (by decide) (by decide)).trans ?_
  change (do
    let g ← F.guard
    F.field (F.b = 0)
    let d ← F.pred F.d
    let a ← F.pred F.a
    pure (Instr.pnot g d a)) = _
  simp only [hd, ha, hb, Fields.guard_spec h0 hg, Fields.pred_spec h1, Fields.pred_spec h2, true_and, and_true, ok_bind,
    Fields.field, Fields.align, Bool.and_self, decide_true, if_true, and_self]
  rfl

theorem movi (g : Guard) (d : Dst) (k : BitVec 32) : Statement (.movi g d k) := by
  intro h c' ws e tail
  replace h : (g.ok && d.ok7 32) = true := h
  simp only [Bool.and_eq_true] at h
  obtain ⟨h0, h1⟩ := h
  simp only [Dst.ok7, Bool.and_eq_true] at h1
  cases e
  refine decode_K (Guard.code_lt h0) (Dst.code7_spec h1.1).1 (by decide) (by decide) (by decide) (by decide) fun F hc ho hg
    hd ha hb hk => ?_
  refine (decodeInt_of hc ho (by decide) (by decide)).trans ?_
  change (do
    let g ← F.guard
    F.field (F.a = 0 ∧ F.b = 0)
    let k := BitVec.ofNat 32 F.w1
    let d ← F.dst7 32 F.d
    pure (Instr.movi g d k)) = _
  simp only [hd, ha, hb, hk, Fields.guard_spec h0 hg, Fields.dst7_spec h1.1, true_and, and_true, ok_bind, Fields.field,
    Fields.align, Bool.and_self, decide_true, if_true, and_self]
  rfl

theorem iaddi (g : Guard) (d : Dst) (a : Src) (k : BitVec 32) : Statement (.iaddi g d a k) := by
  intro h c' ws e tail
  replace h : (g.ok && d.ok7 32 && a.ok7 32) = true := h
  simp only [Bool.and_eq_true] at h
  obtain ⟨⟨h0, h1⟩, h2⟩ := h
  simp only [Dst.ok7, Bool.and_eq_true] at h1
  simp only [Src.ok7, Bool.and_eq_true] at h2
  cases e
  refine decode_K (Guard.code_lt h0) (Dst.code7_spec h1.1).1 (Src.code7_spec h2.1).1 (by decide) (by decide) (by decide) fun
    F hc ho hg hd ha hb hk => ?_
  refine (decodeInt_of hc ho (by decide) (by decide)).trans ?_
  change (do
    let g ← F.guard
    F.field (F.b = 0)
    let k := BitVec.ofNat 32 F.w1
    let d ← F.dst7 32 F.d
    let a ← F.src7 32 F.a
    pure (Instr.iaddi g d a k)) = _
  simp only [hd, ha, hb, hk, Fields.guard_spec h0 hg, Fields.dst7_spec h1.1, Fields.src7_spec h2.1, true_and, and_true,
    ok_bind, Fields.field, Fields.align, Bool.and_self, decide_true, if_true, and_self]
  rfl

theorem andi (g : Guard) (d : Dst) (a : Src) (k : BitVec 32) : Statement (.andi g d a k) := by
  intro h c' ws e tail
  replace h : (g.ok && d.ok7 32 && a.ok7 32) = true := h
  simp only [Bool.and_eq_true] at h
  obtain ⟨⟨h0, h1⟩, h2⟩ := h
  simp only [Dst.ok7, Bool.and_eq_true] at h1
  simp only [Src.ok7, Bool.and_eq_true] at h2
  cases e
  refine decode_K (Guard.code_lt h0) (Dst.code7_spec h1.1).1 (Src.code7_spec h2.1).1 (by decide) (by decide) (by decide) fun
    F hc ho hg hd ha hb hk => ?_
  refine (decodeInt_of hc ho (by decide) (by decide)).trans ?_
  change (do
    let g ← F.guard
    F.field (F.b = 0)
    let k := BitVec.ofNat 32 F.w1
    let d ← F.dst7 32 F.d
    let a ← F.src7 32 F.a
    pure (Instr.andi g d a k)) = _
  simp only [hd, ha, hb, hk, Fields.guard_spec h0 hg, Fields.dst7_spec h1.1, Fields.src7_spec h2.1, true_and, and_true,
    ok_bind, Fields.field, Fields.align, Bool.and_self, decide_true, if_true, and_self]
  rfl

theorem ori (g : Guard) (d : Dst) (a : Src) (k : BitVec 32) : Statement (.ori g d a k) := by
  intro h c' ws e tail
  replace h : (g.ok && d.ok7 32 && a.ok7 32) = true := h
  simp only [Bool.and_eq_true] at h
  obtain ⟨⟨h0, h1⟩, h2⟩ := h
  simp only [Dst.ok7, Bool.and_eq_true] at h1
  simp only [Src.ok7, Bool.and_eq_true] at h2
  cases e
  refine decode_K (Guard.code_lt h0) (Dst.code7_spec h1.1).1 (Src.code7_spec h2.1).1 (by decide) (by decide) (by decide) fun
    F hc ho hg hd ha hb hk => ?_
  refine (decodeInt_of hc ho (by decide) (by decide)).trans ?_
  change (do
    let g ← F.guard
    F.field (F.b = 0)
    let k := BitVec.ofNat 32 F.w1
    let d ← F.dst7 32 F.d
    let a ← F.src7 32 F.a
    pure (Instr.ori g d a k)) = _
  simp only [hd, ha, hb, hk, Fields.guard_spec h0 hg, Fields.dst7_spec h1.1, Fields.src7_spec h2.1, true_and, and_true,
    ok_bind, Fields.field, Fields.align, Bool.and_self, decide_true, if_true, and_self]
  rfl

theorem xori (g : Guard) (d : Dst) (a : Src) (k : BitVec 32) : Statement (.xori g d a k) := by
  intro h c' ws e tail
  replace h : (g.ok && d.ok7 32 && a.ok7 32) = true := h
  simp only [Bool.and_eq_true] at h
  obtain ⟨⟨h0, h1⟩, h2⟩ := h
  simp only [Dst.ok7, Bool.and_eq_true] at h1
  simp only [Src.ok7, Bool.and_eq_true] at h2
  cases e
  refine decode_K (Guard.code_lt h0) (Dst.code7_spec h1.1).1 (Src.code7_spec h2.1).1 (by decide) (by decide) (by decide) fun
    F hc ho hg hd ha hb hk => ?_
  refine (decodeInt_of hc ho (by decide) (by decide)).trans ?_
  change (do
    let g ← F.guard
    F.field (F.b = 0)
    let k := BitVec.ofNat 32 F.w1
    let d ← F.dst7 32 F.d
    let a ← F.src7 32 F.a
    pure (Instr.xori g d a k)) = _
  simp only [hd, ha, hb, hk, Fields.guard_spec h0 hg, Fields.dst7_spec h1.1, Fields.src7_spec h2.1, true_and, and_true,
    ok_bind, Fields.field, Fields.align, Bool.and_self, decide_true, if_true, and_self]
  rfl

theorem imad (g : Guard) (ty : Ty) (d : Dst) (a b c : Src) : Statement (.imad g ty d a b c) := by
  intro h c' ws e tail
  replace h : (g.ok && ([.i32, .n32, .i64, .n64]).contains ty && d.ok9 ty.opBits && a.ok9 ty.opBits && b.ok9 ty.opBits &&
    c.ok9 ty.opBits) = true := h
  simp only [Bool.and_eq_true] at h
  obtain ⟨⟨⟨⟨⟨h0, h1⟩, h2⟩, h3⟩, h4⟩, h5⟩ := h
  simp only [Dst.ok9, Bool.and_eq_true] at h2
  simp only [Src.ok9, Bool.and_eq_true] at h3
  simp only [Src.ok9, Bool.and_eq_true] at h4
  simp only [Src.ok9, Bool.and_eq_true] at h5
  cases e
  refine decode_L (Guard.code_lt h0) (Dst.code9_spec h2.1).1 (Src.code9_spec h3.1).1 (Src.code9_spec h4.1).1 (Src.code9_spec
    h5.1).1 (Ty.code_lt ty) (by decide) (by decide)
    (by decide) fun F hc ho hx hg hd ha hb hC ht hr hf hm => ?_
  refine (decodeIntL_of hc ho hx (by decide)).trans ?_
  change (do
    let g ← F.guard
    F.field (F.rm = 0 ∧ F.fl = 0)
    let ty ← F.tyIn F.ty [.i32, .n32, .i64, .n64]
    let d ← F.dst9 ty.opBits F.d9
    let a ← F.src9 ty.opBits F.a9
    let b ← F.src9 ty.opBits F.b9
    let c ← F.src9 ty.opBits F.c
    F.align (d.aligned ty.opBits && a.aligned ty.opBits && b.aligned ty.opBits && c.aligned ty.opBits)
    pure (Instr.imad g ty d a b c)) = _
  simp only [hd, ha, hb, hC, ht, hr, hf, hm, Fields.guard_spec h0 hg, Fields.tyIn_spec h1, Fields.dst9_spec h2.1, h2.2,
    Fields.src9_spec h3.1, h3.2, Fields.src9_spec h4.1, h4.2, Fields.src9_spec h5.1, h5.2, true_and, and_true, ok_bind,
      Fields.field, Fields.align, Bool.and_self, decide_true, if_true, and_self]
  rfl

theorem idiv (g : Guard) (ty : Ty) (d : Dst) (a b : Src) : Statement (.idiv g ty d a b) := by
  intro h c' ws e tail
  replace h : (g.ok && ([.i32, .n32, .i64, .n64]).contains ty && d.ok9 ty.opBits && a.ok9 ty.opBits && b.ok9 ty.opBits) =
    true := h
  simp only [Bool.and_eq_true] at h
  obtain ⟨⟨⟨⟨h0, h1⟩, h2⟩, h3⟩, h4⟩ := h
  simp only [Dst.ok9, Bool.and_eq_true] at h2
  simp only [Src.ok9, Bool.and_eq_true] at h3
  simp only [Src.ok9, Bool.and_eq_true] at h4
  cases e
  refine decode_L (Guard.code_lt h0) (Dst.code9_spec h2.1).1 (Src.code9_spec h3.1).1 (Src.code9_spec h4.1).1 (by decide)
    (Ty.code_lt ty) (by decide) (by decide)
    (by decide) fun F hc ho hx hg hd ha hb hC ht hr hf hm => ?_
  refine (decodeIntL_of hc ho hx (by decide)).trans ?_
  change (do
    let g ← F.guard
    F.field (F.c = 0 ∧ F.rm = 0 ∧ F.fl = 0)
    let ty ← F.tyIn F.ty [.i32, .n32, .i64, .n64]
    let d ← F.dst9 ty.opBits F.d9
    let a ← F.src9 ty.opBits F.a9
    let b ← F.src9 ty.opBits F.b9
    F.align (d.aligned ty.opBits && a.aligned ty.opBits && b.aligned ty.opBits)
    pure (Instr.idiv g ty d a b)) = _
  simp only [hd, ha, hb, hC, ht, hr, hf, hm, Fields.guard_spec h0 hg, Fields.tyIn_spec h1, Fields.dst9_spec h2.1, h2.2,
    Fields.src9_spec h3.1, h3.2, Fields.src9_spec h4.1, h4.2, true_and, and_true, ok_bind, Fields.field, Fields.align,
      Bool.and_self, decide_true, if_true, and_self]
  rfl

theorem irem (g : Guard) (ty : Ty) (d : Dst) (a b : Src) : Statement (.irem g ty d a b) := by
  intro h c' ws e tail
  replace h : (g.ok && ([.i32, .n32, .i64, .n64]).contains ty && d.ok9 ty.opBits && a.ok9 ty.opBits && b.ok9 ty.opBits) =
    true := h
  simp only [Bool.and_eq_true] at h
  obtain ⟨⟨⟨⟨h0, h1⟩, h2⟩, h3⟩, h4⟩ := h
  simp only [Dst.ok9, Bool.and_eq_true] at h2
  simp only [Src.ok9, Bool.and_eq_true] at h3
  simp only [Src.ok9, Bool.and_eq_true] at h4
  cases e
  refine decode_L (Guard.code_lt h0) (Dst.code9_spec h2.1).1 (Src.code9_spec h3.1).1 (Src.code9_spec h4.1).1 (by decide)
    (Ty.code_lt ty) (by decide) (by decide)
    (by decide) fun F hc ho hx hg hd ha hb hC ht hr hf hm => ?_
  refine (decodeIntL_of hc ho hx (by decide)).trans ?_
  change (do
    let g ← F.guard
    F.field (F.c = 0 ∧ F.rm = 0 ∧ F.fl = 0)
    let ty ← F.tyIn F.ty [.i32, .n32, .i64, .n64]
    let d ← F.dst9 ty.opBits F.d9
    let a ← F.src9 ty.opBits F.a9
    let b ← F.src9 ty.opBits F.b9
    F.align (d.aligned ty.opBits && a.aligned ty.opBits && b.aligned ty.opBits)
    pure (Instr.irem g ty d a b)) = _
  simp only [hd, ha, hb, hC, ht, hr, hf, hm, Fields.guard_spec h0 hg, Fields.tyIn_spec h1, Fields.dst9_spec h2.1, h2.2,
    Fields.src9_spec h3.1, h3.2, Fields.src9_spec h4.1, h4.2, true_and, and_true, ok_bind, Fields.field, Fields.align,
      Bool.and_self, decide_true, if_true, and_self]
  rfl

theorem icmp (g : Guard) (ty : Ty) (cc : ICond) (d : Nat) (a b : Src) : Statement (.icmp g ty cc d a b) := by
  intro h c' ws e tail
  replace h : (g.ok && ([.i8, .i16, .i32, .i64, .n8, .n16, .n32, .n64]).contains ty && decide (d < 12) && a.ok9 ty.opBits &&
    b.ok9 ty.opBits) = true := h
  simp only [Bool.and_eq_true] at h
  obtain ⟨⟨⟨⟨h0, h1⟩, h2⟩, h3⟩, h4⟩ := h
  simp only [decide_eq_true_eq] at h2
  simp only [Src.ok9, Bool.and_eq_true] at h3
  simp only [Src.ok9, Bool.and_eq_true] at h4
  cases e
  refine decode_L (Guard.code_lt h0) (by omega) (Src.code9_spec h3.1).1 (Src.code9_spec h4.1).1 (by decide) (Ty.code_lt ty)
    (by decide) (ICond.code_lt cc)
    (by decide) fun F hc ho hx hg hd ha hb hC ht hr hf hm => ?_
  refine (decodeIntL_of hc ho hx (by decide)).trans ?_
  change (do
    let g ← F.guard
    F.field (F.c = 0 ∧ F.rm = 0)
    let ty ← F.tyIn F.ty [.i8, .i16, .i32, .i64, .n8, .n16, .n32, .n64]
    let cc ← F.icond
    let d ← F.pred F.d9
    let a ← F.src9 ty.opBits F.a9
    let b ← F.src9 ty.opBits F.b9
    F.align (a.aligned ty.opBits && b.aligned ty.opBits)
    pure (Instr.icmp g ty cc d a b)) = _
  simp only [hd, ha, hb, hC, ht, hr, hf, hm, Fields.guard_spec h0 hg, Fields.tyIn_spec h1, Fields.icond_spec hf,
    Fields.pred_spec h2, Fields.src9_spec h3.1, h3.2, Fields.src9_spec h4.1, h4.2, true_and, and_true, ok_bind, Fields.field,
      Fields.align, Bool.and_self, decide_true, if_true, and_self]
  rfl

theorem sel (g : Guard) (ty : Ty) (d : Dst) (a b : Src) (c : Nat) : Statement (.sel g ty d a b c) := by
  intro h c' ws e tail
  replace h : (g.ok && ([.n32, .n64, .b128]).contains ty && d.ok9 ty.opBits && a.ok9 ty.opBits && b.ok9 ty.opBits && decide
    (c < 12)) = true := h
  simp only [Bool.and_eq_true] at h
  obtain ⟨⟨⟨⟨⟨h0, h1⟩, h2⟩, h3⟩, h4⟩, h5⟩ := h
  simp only [Dst.ok9, Bool.and_eq_true] at h2
  simp only [Src.ok9, Bool.and_eq_true] at h3
  simp only [Src.ok9, Bool.and_eq_true] at h4
  simp only [decide_eq_true_eq] at h5
  cases e
  refine decode_L (Guard.code_lt h0) (Dst.code9_spec h2.1).1 (Src.code9_spec h3.1).1 (Src.code9_spec h4.1).1 (by omega)
    (Ty.code_lt ty) (by decide) (by decide)
    (by decide) fun F hc ho hx hg hd ha hb hC ht hr hf hm => ?_
  refine (decodeIntL_of hc ho hx (by decide)).trans ?_
  change (do
    let g ← F.guard
    F.field (F.rm = 0 ∧ F.fl = 0)
    let ty ← F.tyIn F.ty [.n32, .n64, .b128]
    let d ← F.dst9 ty.opBits F.d9
    let a ← F.src9 ty.opBits F.a9
    let b ← F.src9 ty.opBits F.b9
    let c ← F.pred F.c
    F.align (d.aligned ty.opBits && a.aligned ty.opBits && b.aligned ty.opBits)
    pure (Instr.sel g ty d a b c)) = _
  simp only [hd, ha, hb, hC, ht, hr, hf, hm, Fields.guard_spec h0 hg, Fields.tyIn_spec h1, Fields.dst9_spec h2.1, h2.2,
    Fields.src9_spec h3.1, h3.2, Fields.src9_spec h4.1, h4.2, Fields.pred_spec h5, true_and, and_true, ok_bind, Fields.field,
      Fields.align, Bool.and_self, decide_true, if_true, and_self]
  rfl

theorem lea (g : Guard) (ty : Ty) (sh : Nat) (d : Dst) (a b : Src) : Statement (.lea g ty sh d a b) := by
  intro h c' ws e tail
  replace h : (g.ok && ([.i32, .n32]).contains ty && decide (sh < 5) && d.ok9 64 && a.ok9 64 && b.ok9 32) = true := h
  simp only [Bool.and_eq_true] at h
  obtain ⟨⟨⟨⟨⟨h0, h1⟩, h2⟩, h3⟩, h4⟩, h5⟩ := h
  simp only [decide_eq_true_eq] at h2
  simp only [Dst.ok9, Bool.and_eq_true] at h3
  simp only [Src.ok9, Bool.and_eq_true] at h4
  simp only [Src.ok9, Bool.and_eq_true] at h5
  cases e
  refine decode_L (Guard.code_lt h0) (Dst.code9_spec h3.1).1 (Src.code9_spec h4.1).1 (Src.code9_spec h5.1).1 (by decide)
    (Ty.code_lt ty) (by decide) (by omega)
    (by decide) fun F hc ho hx hg hd ha hb hC ht hr hf hm => ?_
  refine (decodeIntL_of hc ho hx (by decide)).trans ?_
  change (do
    let g ← F.guard
    F.field (F.c = 0 ∧ F.rm = 0 ∧ F.fl < 5)
    let ty ← F.tyIn F.ty [.i32, .n32]
    let sh := F.fl
    let d ← F.dst9 64 F.d9
    let a ← F.src9 64 F.a9
    let b ← F.src9 32 F.b9
    F.align (d.aligned 64 && a.aligned 64)
    pure (Instr.lea g ty sh d a b)) = _
  simp only [hd, ha, hb, hC, ht, hr, hf, hm, Fields.guard_spec h0 hg, Fields.tyIn_spec h1, h2, Fields.dst9_spec h3.1, h3.2,
    Fields.src9_spec h4.1, h4.2, Fields.src9_spec h5.1, true_and, and_true, ok_bind, Fields.field, Fields.align,
      Bool.and_self, decide_true, if_true, and_self]
  rfl

theorem iaddc (g : Guard) (ty : Ty) (d : Dst) (a b : Src) (c : Nat) : Statement (.iaddc g ty d a b c) := by
  intro h c' ws e tail
  replace h : (g.ok && ([.n32, .n64]).contains ty && d.ok9 ty.opBits && a.ok9 ty.opBits && b.ok9 ty.opBits && decide (c <
    12)) = true := h
  simp only [Bool.and_eq_true] at h
  obtain ⟨⟨⟨⟨⟨h0, h1⟩, h2⟩, h3⟩, h4⟩, h5⟩ := h
  simp only [Dst.ok9, Bool.and_eq_true] at h2
  simp only [Src.ok9, Bool.and_eq_true] at h3
  simp only [Src.ok9, Bool.and_eq_true] at h4
  simp only [decide_eq_true_eq] at h5
  cases e
  refine decode_L (Guard.code_lt h0) (Dst.code9_spec h2.1).1 (Src.code9_spec h3.1).1 (Src.code9_spec h4.1).1 (by omega)
    (Ty.code_lt ty) (by decide) (by decide)
    (by decide) fun F hc ho hx hg hd ha hb hC ht hr hf hm => ?_
  refine (decodeIntL_of hc ho hx (by decide)).trans ?_
  change (do
    let g ← F.guard
    F.field (F.rm = 0 ∧ F.fl = 0)
    let ty ← F.tyIn F.ty [.n32, .n64]
    let d ← F.dst9 ty.opBits F.d9
    let a ← F.src9 ty.opBits F.a9
    let b ← F.src9 ty.opBits F.b9
    let c ← F.pred F.c
    F.align (d.aligned ty.opBits && a.aligned ty.opBits && b.aligned ty.opBits)
    pure (Instr.iaddc g ty d a b c)) = _
  simp only [hd, ha, hb, hC, ht, hr, hf, hm, Fields.guard_spec h0 hg, Fields.tyIn_spec h1, Fields.dst9_spec h2.1, h2.2,
    Fields.src9_spec h3.1, h3.2, Fields.src9_spec h4.1, h4.2, Fields.pred_spec h5, true_and, and_true, ok_bind, Fields.field,
      Fields.align, Bool.and_self, decide_true, if_true, and_self]
  rfl

theorem isubb (g : Guard) (ty : Ty) (d : Dst) (a b : Src) (c : Nat) : Statement (.isubb g ty d a b c) := by
  intro h c' ws e tail
  replace h : (g.ok && ([.n32, .n64]).contains ty && d.ok9 ty.opBits && a.ok9 ty.opBits && b.ok9 ty.opBits && decide (c <
    12)) = true := h
  simp only [Bool.and_eq_true] at h
  obtain ⟨⟨⟨⟨⟨h0, h1⟩, h2⟩, h3⟩, h4⟩, h5⟩ := h
  simp only [Dst.ok9, Bool.and_eq_true] at h2
  simp only [Src.ok9, Bool.and_eq_true] at h3
  simp only [Src.ok9, Bool.and_eq_true] at h4
  simp only [decide_eq_true_eq] at h5
  cases e
  refine decode_L (Guard.code_lt h0) (Dst.code9_spec h2.1).1 (Src.code9_spec h3.1).1 (Src.code9_spec h4.1).1 (by omega)
    (Ty.code_lt ty) (by decide) (by decide)
    (by decide) fun F hc ho hx hg hd ha hb hC ht hr hf hm => ?_
  refine (decodeIntL_of hc ho hx (by decide)).trans ?_
  change (do
    let g ← F.guard
    F.field (F.rm = 0 ∧ F.fl = 0)
    let ty ← F.tyIn F.ty [.n32, .n64]
    let d ← F.dst9 ty.opBits F.d9
    let a ← F.src9 ty.opBits F.a9
    let b ← F.src9 ty.opBits F.b9
    let c ← F.pred F.c
    F.align (d.aligned ty.opBits && a.aligned ty.opBits && b.aligned ty.opBits)
    pure (Instr.isubb g ty d a b c)) = _
  simp only [hd, ha, hb, hC, ht, hr, hf, hm, Fields.guard_spec h0 hg, Fields.tyIn_spec h1, Fields.dst9_spec h2.1, h2.2,
    Fields.src9_spec h3.1, h3.2, Fields.src9_spec h4.1, h4.2, Fields.pred_spec h5, true_and, and_true, ok_bind, Fields.field,
      Fields.align, Bool.and_self, decide_true, if_true, and_self]
  rfl

theorem bfe (g : Guard) (ty : Ty) (d : Dst) (a b : Src) : Statement (.bfe g ty d a b) := by
  intro h c' ws e tail
  replace h : (g.ok && ([.i32, .n32, .i64, .n64]).contains ty && d.ok9 ty.opBits && a.ok9 ty.opBits && b.ok9 32) = true := h
  simp only [Bool.and_eq_true] at h
  obtain ⟨⟨⟨⟨h0, h1⟩, h2⟩, h3⟩, h4⟩ := h
  simp only [Dst.ok9, Bool.and_eq_true] at h2
  simp only [Src.ok9, Bool.and_eq_true] at h3
  simp only [Src.ok9, Bool.and_eq_true] at h4
  cases e
  refine decode_L (Guard.code_lt h0) (Dst.code9_spec h2.1).1 (Src.code9_spec h3.1).1 (Src.code9_spec h4.1).1 (by decide)
    (Ty.code_lt ty) (by decide) (by decide)
    (by decide) fun F hc ho hx hg hd ha hb hC ht hr hf hm => ?_
  refine (decodeIntL_of hc ho hx (by decide)).trans ?_
  change (do
    let g ← F.guard
    F.field (F.c = 0 ∧ F.rm = 0 ∧ F.fl = 0)
    let ty ← F.tyIn F.ty [.i32, .n32, .i64, .n64]
    let d ← F.dst9 ty.opBits F.d9
    let a ← F.src9 ty.opBits F.a9
    let b ← F.src9 32 F.b9
    F.align (d.aligned ty.opBits && a.aligned ty.opBits)
    pure (Instr.bfe g ty d a b)) = _
  simp only [hd, ha, hb, hC, ht, hr, hf, hm, Fields.guard_spec h0 hg, Fields.tyIn_spec h1, Fields.dst9_spec h2.1, h2.2,
    Fields.src9_spec h3.1, h3.2, Fields.src9_spec h4.1, true_and, and_true, ok_bind, Fields.field, Fields.align,
      Bool.and_self, decide_true, if_true, and_self]
  rfl

theorem bfi (g : Guard) (ty : Ty) (d : Dst) (a b c : Src) : Statement (.bfi g ty d a b c) := by
  intro h c' ws e tail
  replace h : (g.ok && ([.n32, .n64]).contains ty && d.ok9 ty.opBits && a.ok9 ty.opBits && b.ok9 ty.opBits && c.ok9 32) =
    true := h
  simp only [Bool.and_eq_true] at h
  obtain ⟨⟨⟨⟨⟨h0, h1⟩, h2⟩, h3⟩, h4⟩, h5⟩ := h
  simp only [Dst.ok9, Bool.and_eq_true] at h2
  simp only [Src.ok9, Bool.and_eq_true] at h3
  simp only [Src.ok9, Bool.and_eq_true] at h4
  simp only [Src.ok9, Bool.and_eq_true] at h5
  cases e
  refine decode_L (Guard.code_lt h0) (Dst.code9_spec h2.1).1 (Src.code9_spec h3.1).1 (Src.code9_spec h4.1).1 (Src.code9_spec
    h5.1).1 (Ty.code_lt ty) (by decide) (by decide)
    (by decide) fun F hc ho hx hg hd ha hb hC ht hr hf hm => ?_
  refine (decodeIntL_of hc ho hx (by decide)).trans ?_
  change (do
    let g ← F.guard
    F.field (F.rm = 0 ∧ F.fl = 0)
    let ty ← F.tyIn F.ty [.n32, .n64]
    let d ← F.dst9 ty.opBits F.d9
    let a ← F.src9 ty.opBits F.a9
    let b ← F.src9 ty.opBits F.b9
    let c ← F.src9 32 F.c
    F.align (d.aligned ty.opBits && a.aligned ty.opBits && b.aligned ty.opBits)
    pure (Instr.bfi g ty d a b c)) = _
  simp only [hd, ha, hb, hC, ht, hr, hf, hm, Fields.guard_spec h0 hg, Fields.tyIn_spec h1, Fields.dst9_spec h2.1, h2.2,
    Fields.src9_spec h3.1, h3.2, Fields.src9_spec h4.1, h4.2, Fields.src9_spec h5.1, true_and, and_true, ok_bind,
      Fields.field, Fields.align, Bool.and_self, decide_true, if_true, and_self]
  rfl

theorem iaddL (g : Guard) (ty : Ty) (sat : Bool) (d : Dst) (a b : Src) : Statement (.iaddL g ty sat d a b) := by
  intro h c' ws e tail
  replace h : (g.ok && ([.i8, .i16, .i32, .i64, .n8, .n16, .n32, .n64]).contains ty && d.ok9 ty.opBits && a.ok9 ty.opBits &&
    b.ok9 ty.opBits) = true := h
  simp only [Bool.and_eq_true] at h
  obtain ⟨⟨⟨⟨h0, h1⟩, h2⟩, h3⟩, h4⟩ := h
  simp only [Dst.ok9, Bool.and_eq_true] at h2
  simp only [Src.ok9, Bool.and_eq_true] at h3
  simp only [Src.ok9, Bool.and_eq_true] at h4
  cases e
  refine decode_L (Guard.code_lt h0) (Dst.code9_spec h2.1).1 (Src.code9_spec h3.1).1 (Src.code9_spec h4.1).1 (by decide)
    (Ty.code_lt ty) (by decide) (by cases sat <;> decide)
    (by decide) fun F hc ho hx hg hd ha hb hC ht hr hf hm => ?_
  refine (decodeIntL_of hc ho hx (by decide)).trans ?_
  have f_sat : F.flag 0 = sat := by rw [Fields.flag, hf]; cases sat <;> rfl
  have c2 : (sat.toNat * 1) < 2 := by cases sat <;> decide
  change (do
    let g ← F.guard
    F.field (F.c = 0 ∧ F.rm = 0 ∧ F.fl < 2)
    let ty ← F.tyIn F.ty [.i8, .i16, .i32, .i64, .n8, .n16, .n32, .n64]
    let sat := F.flag 0
    let d ← F.dst9 ty.opBits F.d9
    let a ← F.src9 ty.opBits F.a9
    let b ← F.src9 ty.opBits F.b9
    F.align (d.aligned ty.opBits && a.aligned ty.opBits && b.aligned ty.opBits)
    pure (Instr.iaddL g ty sat d a b)) = _
  simp only [hd, ha, hb, hC, ht, hr, hf, hm, Fields.guard_spec h0 hg, Fields.tyIn_spec h1, f_sat, Fields.dst9_spec h2.1,
    h2.2, Fields.src9_spec h3.1, h3.2, Fields.src9_spec h4.1, h4.2, c2, true_and, and_true, ok_bind, Fields.field,
      Fields.align, Bool.and_self, decide_true, if_true, and_self]
  rfl

theorem shf (g : Guard) (ty : Ty) (right : Bool) (d : Dst) (a b c : Src) : Statement (.shf g ty right d a b c) := by
  intro h c' ws e tail
  replace h : (g.ok && ([.n32, .n64]).contains ty && d.ok9 ty.opBits && a.ok9 ty.opBits && b.ok9 ty.opBits && c.ok9 32) =
    true := h
  simp only [Bool.and_eq_true] at h
  obtain ⟨⟨⟨⟨⟨h0, h1⟩, h2⟩, h3⟩, h4⟩, h5⟩ := h
  simp only [Dst.ok9, Bool.and_eq_true] at h2
  simp only [Src.ok9, Bool.and_eq_true] at h3
  simp only [Src.ok9, Bool.and_eq_true] at h4
  simp only [Src.ok9, Bool.and_eq_true] at h5
  cases e
  refine decode_L (Guard.code_lt h0) (Dst.code9_spec h2.1).1 (Src.code9_spec h3.1).1 (Src.code9_spec h4.1).1 (Src.code9_spec
    h5.1).1 (Ty.code_lt ty) (by decide) (by cases right <;> decide)
    (by decide) fun F hc ho hx hg hd ha hb hC ht hr hf hm => ?_
  refine (decodeIntL_of hc ho hx (by decide)).trans ?_
  have f_right : F.flag 0 = right := by rw [Fields.flag, hf]; cases right <;> rfl
  have c1 : (right.toNat * 1) < 2 := by cases right <;> decide
  change (do
    let g ← F.guard
    F.field (F.rm = 0 ∧ F.fl < 2)
    let ty ← F.tyIn F.ty [.n32, .n64]
    let right := F.flag 0
    let d ← F.dst9 ty.opBits F.d9
    let a ← F.src9 ty.opBits F.a9
    let b ← F.src9 ty.opBits F.b9
    let c ← F.src9 32 F.c
    F.align (d.aligned ty.opBits && a.aligned ty.opBits && b.aligned ty.opBits)
    pure (Instr.shf g ty right d a b c)) = _
  simp only [hd, ha, hb, hC, ht, hr, hf, hm, Fields.guard_spec h0 hg, Fields.tyIn_spec h1, f_right, Fields.dst9_spec h2.1,
    h2.2, Fields.src9_spec h3.1, h3.2, Fields.src9_spec h4.1, h4.2, Fields.src9_spec h5.1, c1, true_and, and_true, ok_bind,
      Fields.field, Fields.align, Bool.and_self, decide_true, if_true, and_self]
  rfl

theorem setix (g : Guard) (ix : Nat) (a : Src) : Statement (.setix g ix a) := by
  intro h c' ws e tail
  replace h : (g.ok && decide (ix < 4) && a.ok9 32) = true := h
  simp only [Bool.and_eq_true] at h
  obtain ⟨⟨h0, h1⟩, h2⟩ := h
  simp only [decide_eq_true_eq] at h1
  simp only [Src.ok9, Bool.and_eq_true] at h2
  cases e
  refine decode_L (Guard.code_lt h0) (by decide) (Src.code9_spec h2.1).1 (by decide) (by omega) (by decide) (by decide) (by
    decide)
    (by decide) fun F hc ho hx hg hd ha hb hC ht hr hf hm => ?_
  refine (decodeIntL_of hc ho hx (by decide)).trans ?_
  change (do
    let g ← F.guard
    F.field (F.d9 = 0 ∧ F.b9 = 0 ∧ F.mod = 0 ∧ F.c < 4)
    let ix := F.c
    let a ← F.src9 32 F.a9
    pure (Instr.setix g ix a)) = _
  simp only [hd, ha, hb, hC, ht, hr, hf, hm, Fields.guard_spec h0 hg, h1, Fields.src9_spec h2.1, true_and, and_true, ok_bind,
    Fields.field, Fields.align, Bool.and_self, decide_true, if_true, and_self]
  rfl

theorem movx (g : Guard) (ty : Ty) (ix : Nat) (d : Dst) (a : Src) : Statement (.movx g ty ix d a) := by
  intro h c' ws e tail
  replace h : (g.ok && ([.n32, .n64]).contains ty && decide (ix < 4) && d.ok9 ty.opBits && a.ok9 32) = true := h
  simp only [Bool.and_eq_true] at h
  obtain ⟨⟨⟨⟨h0, h1⟩, h2⟩, h3⟩, h4⟩ := h
  simp only [decide_eq_true_eq] at h2
  simp only [Dst.ok9, Bool.and_eq_true] at h3
  simp only [Src.ok9, Bool.and_eq_true] at h4
  cases e
  refine decode_L (Guard.code_lt h0) (Dst.code9_spec h3.1).1 (Src.code9_spec h4.1).1 (by decide) (by omega) (Ty.code_lt ty)
    (by decide) (by decide)
    (by decide) fun F hc ho hx hg hd ha hb hC ht hr hf hm => ?_
  refine (decodeIntL_of hc ho hx (by decide)).trans ?_
  change (do
    let g ← F.guard
    F.field (F.b9 = 0 ∧ F.rm = 0 ∧ F.fl = 0 ∧ F.c < 4)
    let ty ← F.tyIn F.ty [.n32, .n64]
    let ix := F.c
    let d ← F.dst9 ty.opBits F.d9
    let a ← F.src9 32 F.a9
    F.align (d.aligned ty.opBits)
    pure (Instr.movx g ty ix d a)) = _
  simp only [hd, ha, hb, hC, ht, hr, hf, hm, Fields.guard_spec h0 hg, Fields.tyIn_spec h1, h2, Fields.dst9_spec h3.1, h3.2,
    Fields.src9_spec h4.1, true_and, and_true, ok_bind, Fields.field, Fields.align, Bool.and_self, decide_true, if_true,
      and_self]
  rfl

theorem stx (g : Guard) (ty : Ty) (ix : Nat) (a b : Src) : Statement (.stx g ty ix a b) := by
  intro h c' ws e tail
  replace h : (g.ok && ([.n32, .n64]).contains ty && decide (ix < 4) && a.ok9 32 && b.ok9 ty.opBits) = true := h
  simp only [Bool.and_eq_true] at h
  obtain ⟨⟨⟨⟨h0, h1⟩, h2⟩, h3⟩, h4⟩ := h
  simp only [decide_eq_true_eq] at h2
  simp only [Src.ok9, Bool.and_eq_true] at h3
  simp only [Src.ok9, Bool.and_eq_true] at h4
  cases e
  refine decode_L (Guard.code_lt h0) (by decide) (Src.code9_spec h3.1).1 (Src.code9_spec h4.1).1 (by omega) (Ty.code_lt ty)
    (by decide) (by decide)
    (by decide) fun F hc ho hx hg hd ha hb hC ht hr hf hm => ?_
  refine (decodeIntL_of hc ho hx (by decide)).trans ?_
  change (do
    let g ← F.guard
    F.field (F.d9 = 0 ∧ F.rm = 0 ∧ F.fl = 0 ∧ F.c < 4)
    let ty ← F.tyIn F.ty [.n32, .n64]
    let ix := F.c
    let a ← F.src9 32 F.a9
    let b ← F.src9 ty.opBits F.b9
    F.align (b.aligned ty.opBits)
    pure (Instr.stx g ty ix a b)) = _
  simp only [hd, ha, hb, hC, ht, hr, hf, hm, Fields.guard_spec h0 hg, Fields.tyIn_spec h1, h2, Fields.src9_spec h3.1,
    Fields.src9_spec h4.1, h4.2, true_and, and_true, ok_bind, Fields.field, Fields.align, Bool.and_self, decide_true,
      if_true, and_self]
  rfl

theorem pmovTo (g : Guard) (d : Nat) (a : Src) : Statement (.pmovTo g d a) := by
  intro h c' ws e tail
  replace h : (g.ok && decide (d < 12) && a.ok9 32) = true := h
  simp only [Bool.and_eq_true] at h
  obtain ⟨⟨h0, h1⟩, h2⟩ := h
  simp only [decide_eq_true_eq] at h1
  simp only [Src.ok9, Bool.and_eq_true] at h2
  cases e
  refine decode_L (Guard.code_lt h0) (by omega) (Src.code9_spec h2.1).1 (by decide) (by decide) (by decide) (by decide) (by
    decide)
    (by decide) fun F hc ho hx hg hd ha hb hC ht hr hf hm => ?_
  refine (decodeIntL_of hc ho hx (by decide)).trans ?_
  change (do
    let g ← F.guard
    F.field (F.b9 = 0 ∧ F.c = 0 ∧ F.mod = 0)
    let d ← F.pred F.d9
    let a ← F.src9 32 F.a9
    pure (Instr.pmovTo g d a)) = _
  simp only [hd, ha, hb, hC, ht, hr, hf, hm, Fields.guard_spec h0 hg, Fields.pred_spec h1, Fields.src9_spec h2.1, true_and,
    and_true, ok_bind, Fields.field, Fields.align, Bool.and_self, decide_true, if_true, and_self]
  rfl

theorem pmovFrom (g : Guard) (d : Dst) (a : Nat) : Statement (.pmovFrom g d a) := by
  intro h c' ws e tail
  replace h : (g.ok && d.ok9 32 && decide (a < 12)) = true := h
  simp only [Bool.and_eq_true] at h
  obtain ⟨⟨h0, h1⟩, h2⟩ := h
  simp only [Dst.ok9, Bool.and_eq_true] at h1
  simp only [decide_eq_true_eq] at h2
  cases e
  refine decode_L (Guard.code_lt h0) (Dst.code9_spec h1.1).1 (by omega) (by decide) (by decide) (by decide) (by decide) (by
    decide)
    (by decide) fun F hc ho hx hg hd ha hb hC ht hr hf hm => ?_
  refine (decodeIntL_of hc ho hx (by decide)).trans ?_
  change (do
    let g ← F.guard
    F.field (F.b9 = 0 ∧ F.c = 0 ∧ F.mod = 0)
    let d ← F.dst9 32 F.d9
    let a ← F.pred F.a9
    pure (Instr.pmovFrom g d a)) = _
  simp only [hd, ha, hb, hC, ht, hr, hf, hm, Fields.guard_spec h0 hg, Fields.dst9_spec h1.1, Fields.pred_spec h2, true_and,
    and_true, ok_bind, Fields.field, Fields.align, Bool.and_self, decide_true, if_true, and_self]
  rfl

theorem icvt (g : Guard) (ty sty : Ty) (sat : Bool) (d : Dst) (a : Src) : Statement (.icvt g ty sty sat d a) := by
  intro h c' ws e tail
  replace h : (g.ok && ([.i8, .i16, .i32, .i64, .n8, .n16, .n32, .n64]).contains ty && ([.i8, .i16, .i32, .i64, .n8, .n16,
    .n32, .n64]).contains sty && d.ok9 ty.opBits && a.ok9 sty.opBits) = true := h
  simp only [Bool.and_eq_true] at h
  obtain ⟨⟨⟨⟨h0, h1⟩, h2⟩, h3⟩, h4⟩ := h
  simp only [Dst.ok9, Bool.and_eq_true] at h3
  simp only [Src.ok9, Bool.and_eq_true] at h4
  cases e
  refine decode_L (Guard.code_lt h0) (Dst.code9_spec h3.1).1 (Src.code9_spec h4.1).1 (by decide) (Nat.lt_trans (Ty.code_lt
    sty) (by decide)) (Ty.code_lt ty) (by decide) (by cases sat <;> decide)
    (by decide) fun F hc ho hx hg hd ha hb hC ht hr hf hm => ?_
  refine (decodeIntL_of hc ho hx (by decide)).trans ?_
  have f_sat : F.flag 0 = sat := by rw [Fields.flag, hf]; cases sat <;> rfl
  have c2 : (sat.toNat * 1) < 2 := by cases sat <;> decide
  change (do
    let g ← F.guard
    F.field (F.b9 = 0 ∧ F.rm = 0 ∧ F.fl < 2 ∧ F.c < 16)
    let ty ← F.tyIn F.ty [.i8, .i16, .i32, .i64, .n8, .n16, .n32, .n64]
    let sty ← F.tyIn (F.c % 16) [.i8, .i16, .i32, .i64, .n8, .n16, .n32, .n64]
    let sat := F.flag 0
    let d ← F.dst9 ty.opBits F.d9
    let a ← F.src9 sty.opBits F.a9
    F.align (d.aligned ty.opBits && a.aligned sty.opBits)
    pure (Instr.icvt g ty sty sat d a)) = _
  simp only [hd, ha, hb, hC, ht, hr, hf, hm, Fields.guard_spec h0 hg, Fields.tyIn_spec h1, Nat.mod_eq_of_lt (Ty.code_lt sty),
    Ty.code_lt sty, Fields.tyIn_spec h2, f_sat, Fields.dst9_spec h3.1, h3.2, Fields.src9_spec h4.1, h4.2, c2, true_and,
      and_true, ok_bind, Fields.field, Fields.align, Bool.and_self, decide_true, if_true, and_self]
  rfl

theorem faddF64 (g : Guard) (d : Dst) (a b : Src) : Statement (.faddF64 g d a b) := by
  intro h c' ws e tail
  replace h : (g.ok && d.ok7 64 && a.ok7 64 && b.ok7 64) = true := h
  simp only [Bool.and_eq_true] at h
  obtain ⟨⟨⟨h0, h1⟩, h2⟩, h3⟩ := h
  simp only [Dst.ok7, Bool.and_eq_true] at h1
  simp only [Src.ok7, Bool.and_eq_true] at h2
  simp only [Src.ok7, Bool.and_eq_true] at h3
  cases e
  refine decode_S (Guard.code_lt h0) (Dst.code7_spec h1.1).1 (Src.code7_spec h2.1).1 (Src.code7_spec h3.1).1 (by decide) fun
    F hc ho hg hd ha hb => ?_
  refine (decodeFlt_of hc ho (by decide) (by decide)).trans ?_
  change (do
    let g ← F.guard
    let d ← F.dst7 64 F.d
    let a ← F.src7 64 F.a
    let b ← F.src7 64 F.b
    F.align (d.aligned 64 && a.aligned 64 && b.aligned 64)
    pure (Instr.faddF64 g d a b)) = _
  simp only [hd, ha, hb, Fields.guard_spec h0 hg, Fields.dst7_spec h1.1, h1.2, Fields.src7_spec h2.1, h2.2, Fields.src7_spec
    h3.1, h3.2, true_and, and_true, ok_bind, Fields.field, Fields.align, Bool.and_self, decide_true, if_true, and_self]
  rfl

theorem faddF32 (g : Guard) (d : Dst) (a b : Src) : Statement (.faddF32 g d a b) := by
  intro h c' ws e tail
  replace h : (g.ok && d.ok7 32 && a.ok7 32 && b.ok7 32) = true := h
  simp only [Bool.and_eq_true] at h
  obtain ⟨⟨⟨h0, h1⟩, h2⟩, h3⟩ := h
  simp only [Dst.ok7, Bool.and_eq_true] at h1
  simp only [Src.ok7, Bool.and_eq_true] at h2
  simp only [Src.ok7, Bool.and_eq_true] at h3
  cases e
  refine decode_S (Guard.code_lt h0) (Dst.code7_spec h1.1).1 (Src.code7_spec h2.1).1 (Src.code7_spec h3.1).1 (by decide) fun
    F hc ho hg hd ha hb => ?_
  refine (decodeFlt_of hc ho (by decide) (by decide)).trans ?_
  change (do
    let g ← F.guard
    let d ← F.dst7 32 F.d
    let a ← F.src7 32 F.a
    let b ← F.src7 32 F.b
    pure (Instr.faddF32 g d a b)) = _
  simp only [hd, ha, hb, Fields.guard_spec h0 hg, Fields.dst7_spec h1.1, Fields.src7_spec h2.1, Fields.src7_spec h3.1,
    true_and, and_true, ok_bind, Fields.field, Fields.align, Bool.and_self, decide_true, if_true, and_self]
  rfl

theorem fsubF64 (g : Guard) (d : Dst) (a b : Src) : Statement (.fsubF64 g d a b) := by
  intro h c' ws e tail
  replace h : (g.ok && d.ok7 64 && a.ok7 64 && b.ok7 64) = true := h
  simp only [Bool.and_eq_true] at h
  obtain ⟨⟨⟨h0, h1⟩, h2⟩, h3⟩ := h
  simp only [Dst.ok7, Bool.and_eq_true] at h1
  simp only [Src.ok7, Bool.and_eq_true] at h2
  simp only [Src.ok7, Bool.and_eq_true] at h3
  cases e
  refine decode_S (Guard.code_lt h0) (Dst.code7_spec h1.1).1 (Src.code7_spec h2.1).1 (Src.code7_spec h3.1).1 (by decide) fun
    F hc ho hg hd ha hb => ?_
  refine (decodeFlt_of hc ho (by decide) (by decide)).trans ?_
  change (do
    let g ← F.guard
    let d ← F.dst7 64 F.d
    let a ← F.src7 64 F.a
    let b ← F.src7 64 F.b
    F.align (d.aligned 64 && a.aligned 64 && b.aligned 64)
    pure (Instr.fsubF64 g d a b)) = _
  simp only [hd, ha, hb, Fields.guard_spec h0 hg, Fields.dst7_spec h1.1, h1.2, Fields.src7_spec h2.1, h2.2, Fields.src7_spec
    h3.1, h3.2, true_and, and_true, ok_bind, Fields.field, Fields.align, Bool.and_self, decide_true, if_true, and_self]
  rfl

theorem fsubF32 (g : Guard) (d : Dst) (a b : Src) : Statement (.fsubF32 g d a b) := by
  intro h c' ws e tail
  replace h : (g.ok && d.ok7 32 && a.ok7 32 && b.ok7 32) = true := h
  simp only [Bool.and_eq_true] at h
  obtain ⟨⟨⟨h0, h1⟩, h2⟩, h3⟩ := h
  simp only [Dst.ok7, Bool.and_eq_true] at h1
  simp only [Src.ok7, Bool.and_eq_true] at h2
  simp only [Src.ok7, Bool.and_eq_true] at h3
  cases e
  refine decode_S (Guard.code_lt h0) (Dst.code7_spec h1.1).1 (Src.code7_spec h2.1).1 (Src.code7_spec h3.1).1 (by decide) fun
    F hc ho hg hd ha hb => ?_
  refine (decodeFlt_of hc ho (by decide) (by decide)).trans ?_
  change (do
    let g ← F.guard
    let d ← F.dst7 32 F.d
    let a ← F.src7 32 F.a
    let b ← F.src7 32 F.b
    pure (Instr.fsubF32 g d a b)) = _
  simp only [hd, ha, hb, Fields.guard_spec h0 hg, Fields.dst7_spec h1.1, Fields.src7_spec h2.1, Fields.src7_spec h3.1,
    true_and, and_true, ok_bind, Fields.field, Fields.align, Bool.and_self, decide_true, if_true, and_self]
  rfl

theorem fmulF64 (g : Guard) (d : Dst) (a b : Src) : Statement (.fmulF64 g d a b) := by
  intro h c' ws e tail
  replace h : (g.ok && d.ok7 64 && a.ok7 64 && b.ok7 64) = true := h
  simp only [Bool.and_eq_true] at h
  obtain ⟨⟨⟨h0, h1⟩, h2⟩, h3⟩ := h
  simp only [Dst.ok7, Bool.and_eq_true] at h1
  simp only [Src.ok7, Bool.and_eq_true] at h2
  simp only [Src.ok7, Bool.and_eq_true] at h3
  cases e
  refine decode_S (Guard.code_lt h0) (Dst.code7_spec h1.1).1 (Src.code7_spec h2.1).1 (Src.code7_spec h3.1).1 (by decide) fun
    F hc ho hg hd ha hb => ?_
  refine (decodeFlt_of hc ho (by decide) (by decide)).trans ?_
  change (do
    let g ← F.guard
    let d ← F.dst7 64 F.d
    let a ← F.src7 64 F.a
    let b ← F.src7 64 F.b
    F.align (d.aligned 64 && a.aligned 64 && b.aligned 64)
    pure (Instr.fmulF64 g d a b)) = _
  simp only [hd, ha, hb, Fields.guard_spec h0 hg, Fields.dst7_spec h1.1, h1.2, Fields.src7_spec h2.1, h2.2, Fields.src7_spec
    h3.1, h3.2, true_and, and_true, ok_bind, Fields.field, Fields.align, Bool.and_self, decide_true, if_true, and_self]
  rfl

theorem fmulF32 (g : Guard) (d : Dst) (a b : Src) : Statement (.fmulF32 g d a b) := by
  intro h c' ws e tail
  replace h : (g.ok && d.ok7 32 && a.ok7 32 && b.ok7 32) = true := h
  simp only [Bool.and_eq_true] at h
  obtain ⟨⟨⟨h0, h1⟩, h2⟩, h3⟩ := h
  simp only [Dst.ok7, Bool.and_eq_true] at h1
  simp only [Src.ok7, Bool.and_eq_true] at h2
  simp only [Src.ok7, Bool.and_eq_true] at h3
  cases e
  refine decode_S (Guard.code_lt h0) (Dst.code7_spec h1.1).1 (Src.code7_spec h2.1).1 (Src.code7_spec h3.1).1 (by decide) fun
    F hc ho hg hd ha hb => ?_
  refine (decodeFlt_of hc ho (by decide) (by decide)).trans ?_
  change (do
    let g ← F.guard
    let d ← F.dst7 32 F.d
    let a ← F.src7 32 F.a
    let b ← F.src7 32 F.b
    pure (Instr.fmulF32 g d a b)) = _
  simp only [hd, ha, hb, Fields.guard_spec h0 hg, Fields.dst7_spec h1.1, Fields.src7_spec h2.1, Fields.src7_spec h3.1,
    true_and, and_true, ok_bind, Fields.field, Fields.align, Bool.and_self, decide_true, if_true, and_self]
  rfl

theorem fminF64 (g : Guard) (d : Dst) (a b : Src) : Statement (.fminF64 g d a b) := by
  intro h c' ws e tail
  replace h : (g.ok && d.ok7 64 && a.ok7 64 && b.ok7 64) = true := h
  simp only [Bool.and_eq_true] at h
  obtain ⟨⟨⟨h0, h1⟩, h2⟩, h3⟩ := h
  simp only [Dst.ok7, Bool.and_eq_true] at h1
  simp only [Src.ok7, Bool.and_eq_true] at h2
  simp only [Src.ok7, Bool.and_eq_true] at h3
  cases e
  refine decode_S (Guard.code_lt h0) (Dst.code7_spec h1.1).1 (Src.code7_spec h2.1).1 (Src.code7_spec h3.1).1 (by decide) fun
    F hc ho hg hd ha hb => ?_
  refine (decodeFlt_of hc ho (by decide) (by decide)).trans ?_
  change (do
    let g ← F.guard
    let d ← F.dst7 64 F.d
    let a ← F.src7 64 F.a
    let b ← F.src7 64 F.b
    F.align (d.aligned 64 && a.aligned 64 && b.aligned 64)
    pure (Instr.fminF64 g d a b)) = _
  simp only [hd, ha, hb, Fields.guard_spec h0 hg, Fields.dst7_spec h1.1, h1.2, Fields.src7_spec h2.1, h2.2, Fields.src7_spec
    h3.1, h3.2, true_and, and_true, ok_bind, Fields.field, Fields.align, Bool.and_self, decide_true, if_true, and_self]
  rfl

theorem fminF32 (g : Guard) (d : Dst) (a b : Src) : Statement (.fminF32 g d a b) := by
  intro h c' ws e tail
  replace h : (g.ok && d.ok7 32 && a.ok7 32 && b.ok7 32) = true := h
  simp only [Bool.and_eq_true] at h
  obtain ⟨⟨⟨h0, h1⟩, h2⟩, h3⟩ := h
  simp only [Dst.ok7, Bool.and_eq_true] at h1
  simp only [Src.ok7, Bool.and_eq_true] at h2
  simp only [Src.ok7, Bool.and_eq_true] at h3
  cases e
  refine decode_S (Guard.code_lt h0) (Dst.code7_spec h1.1).1 (Src.code7_spec h2.1).1 (Src.code7_spec h3.1).1 (by decide) fun
    F hc ho hg hd ha hb => ?_
  refine (decodeFlt_of hc ho (by decide) (by decide)).trans ?_
  change (do
    let g ← F.guard
    let d ← F.dst7 32 F.d
    let a ← F.src7 32 F.a
    let b ← F.src7 32 F.b
    pure (Instr.fminF32 g d a b)) = _
  simp only [hd, ha, hb, Fields.guard_spec h0 hg, Fields.dst7_spec h1.1, Fields.src7_spec h2.1, Fields.src7_spec h3.1,
    true_and, and_true, ok_bind, Fields.field, Fields.align, Bool.and_self, decide_true, if_true, and_self]
  rfl

theorem fmaxF64 (g : Guard) (d : Dst) (a b : Src) : Statement (.fmaxF64 g d a b) := by
  intro h c' ws e tail
  replace h : (g.ok && d.ok7 64 && a.ok7 64 && b.ok7 64) = true := h
  simp only [Bool.and_eq_true] at h
  obtain ⟨⟨⟨h0, h1⟩, h2⟩, h3⟩ := h
  simp only [Dst.ok7, Bool.and_eq_true] at h1
  simp only [Src.ok7, Bool.and_eq_true] at h2
  simp only [Src.ok7, Bool.and_eq_true] at h3
  cases e
  refine decode_S (Guard.code_lt h0) (Dst.code7_spec h1.1).1 (Src.code7_spec h2.1).1 (Src.code7_spec h3.1).1 (by decide) fun
    F hc ho hg hd ha hb => ?_
  refine (decodeFlt_of hc ho (by decide) (by decide)).trans ?_
  change (do
    let g ← F.guard
    let d ← F.dst7 64 F.d
    let a ← F.src7 64 F.a
    let b ← F.src7 64 F.b
    F.align (d.aligned 64 && a.aligned 64 && b.aligned 64)
    pure (Instr.fmaxF64 g d a b)) = _
  simp only [hd, ha, hb, Fields.guard_spec h0 hg, Fields.dst7_spec h1.1, h1.2, Fields.src7_spec h2.1, h2.2, Fields.src7_spec
    h3.1, h3.2, true_and, and_true, ok_bind, Fields.field, Fields.align, Bool.and_self, decide_true, if_true, and_self]
  rfl

theorem fmaxF32 (g : Guard) (d : Dst) (a b : Src) : Statement (.fmaxF32 g d a b) := by
  intro h c' ws e tail
  replace h : (g.ok && d.ok7 32 && a.ok7 32 && b.ok7 32) = true := h
  simp only [Bool.and_eq_true] at h
  obtain ⟨⟨⟨h0, h1⟩, h2⟩, h3⟩ := h
  simp only [Dst.ok7, Bool.and_eq_true] at h1
  simp only [Src.ok7, Bool.and_eq_true] at h2
  simp only [Src.ok7, Bool.and_eq_true] at h3
  cases e
  refine decode_S (Guard.code_lt h0) (Dst.code7_spec h1.1).1 (Src.code7_spec h2.1).1 (Src.code7_spec h3.1).1 (by decide) fun
    F hc ho hg hd ha hb => ?_
  refine (decodeFlt_of hc ho (by decide) (by decide)).trans ?_
  change (do
    let g ← F.guard
    let d ← F.dst7 32 F.d
    let a ← F.src7 32 F.a
    let b ← F.src7 32 F.b
    pure (Instr.fmaxF32 g d a b)) = _
  simp only [hd, ha, hb, Fields.guard_spec h0 hg, Fields.dst7_spec h1.1, Fields.src7_spec h2.1, Fields.src7_spec h3.1,
    true_and, and_true, ok_bind, Fields.field, Fields.align, Bool.and_self, decide_true, if_true, and_self]
  rfl

theorem fabsF64 (g : Guard) (d : Dst) (a : Src) : Statement (.fabsF64 g d a) := by
  intro h c' ws e tail
  replace h : (g.ok && d.ok7 64 && a.ok7 64) = true := h
  simp only [Bool.and_eq_true] at h
  obtain ⟨⟨h0, h1⟩, h2⟩ := h
  simp only [Dst.ok7, Bool.and_eq_true] at h1
  simp only [Src.ok7, Bool.and_eq_true] at h2
  cases e
  refine decode_S (Guard.code_lt h0) (Dst.code7_spec h1.1).1 (Src.code7_spec h2.1).1 (by decide) (by decide) fun F hc ho hg
    hd ha hb => ?_
  refine (decodeFlt_of hc ho (by decide) (by decide)).trans ?_
  change (do
    let g ← F.guard
    F.field (F.b = 0)
    let d ← F.dst7 64 F.d
    let a ← F.src7 64 F.a
    F.align (d.aligned 64 && a.aligned 64)
    pure (Instr.fabsF64 g d a)) = _
  simp only [hd, ha, hb, Fields.guard_spec h0 hg, Fields.dst7_spec h1.1, h1.2, Fields.src7_spec h2.1, h2.2, true_and,
    and_true, ok_bind, Fields.field, Fields.align, Bool.and_self, decide_true, if_true, and_self]
  rfl

theorem fabsF32 (g : Guard) (d : Dst) (a : Src) : Statement (.fabsF32 g d a) := by
  intro h c' ws e tail
  replace h : (g.ok && d.ok7 32 && a.ok7 32) = true := h
  simp only [Bool.and_eq_true] at h
  obtain ⟨⟨h0, h1⟩, h2⟩ := h
  simp only [Dst.ok7, Bool.and_eq_true] at h1
  simp only [Src.ok7, Bool.and_eq_true] at h2
  cases e
  refine decode_S (Guard.code_lt h0) (Dst.code7_spec h1.1).1 (Src.code7_spec h2.1).1 (by decide) (by decide) fun F hc ho hg
    hd ha hb => ?_
  refine (decodeFlt_of hc ho (by decide) (by decide)).trans ?_
  change (do
    let g ← F.guard
    F.field (F.b = 0)
    let d ← F.dst7 32 F.d
    let a ← F.src7 32 F.a
    pure (Instr.fabsF32 g d a)) = _
  simp only [hd, ha, hb, Fields.guard_spec h0 hg, Fields.dst7_spec h1.1, Fields.src7_spec h2.1, true_and, and_true, ok_bind,
    Fields.field, Fields.align, Bool.and_self, decide_true, if_true, and_self]
  rfl

theorem fnegF64 (g : Guard) (d : Dst) (a : Src) : Statement (.fnegF64 g d a) := by
  intro h c' ws e tail
  replace h : (g.ok && d.ok7 64 && a.ok7 64) = true := h
  simp only [Bool.and_eq_true] at h
  obtain ⟨⟨h0, h1⟩, h2⟩ := h
  simp only [Dst.ok7, Bool.and_eq_true] at h1
  simp only [Src.ok7, Bool.and_eq_true] at h2
  cases e
  refine decode_S (Guard.code_lt h0) (Dst.code7_spec h1.1).1 (Src.code7_spec h2.1).1 (by decide) (by decide) fun F hc ho hg
    hd ha hb => ?_
  refine (decodeFlt_of hc ho (by decide) (by decide)).trans ?_
  change (do
    let g ← F.guard
    F.field (F.b = 0)
    let d ← F.dst7 64 F.d
    let a ← F.src7 64 F.a
    F.align (d.aligned 64 && a.aligned 64)
    pure (Instr.fnegF64 g d a)) = _
  simp only [hd, ha, hb, Fields.guard_spec h0 hg, Fields.dst7_spec h1.1, h1.2, Fields.src7_spec h2.1, h2.2, true_and,
    and_true, ok_bind, Fields.field, Fields.align, Bool.and_self, decide_true, if_true, and_self]
  rfl

theorem fnegF32 (g : Guard) (d : Dst) (a : Src) : Statement (.fnegF32 g d a) := by
  intro h c' ws e tail
  replace h : (g.ok && d.ok7 32 && a.ok7 32) = true := h
  simp only [Bool.and_eq_true] at h
  obtain ⟨⟨h0, h1⟩, h2⟩ := h
  simp only [Dst.ok7, Bool.and_eq_true] at h1
  simp only [Src.ok7, Bool.and_eq_true] at h2
  cases e
  refine decode_S (Guard.code_lt h0) (Dst.code7_spec h1.1).1 (Src.code7_spec h2.1).1 (by decide) (by decide) fun F hc ho hg
    hd ha hb => ?_
  refine (decodeFlt_of hc ho (by decide) (by decide)).trans ?_
  change (do
    let g ← F.guard
    F.field (F.b = 0)
    let d ← F.dst7 32 F.d
    let a ← F.src7 32 F.a
    pure (Instr.fnegF32 g d a)) = _
  simp only [hd, ha, hb, Fields.guard_spec h0 hg, Fields.dst7_spec h1.1, Fields.src7_spec h2.1, true_and, and_true, ok_bind,
    Fields.field, Fields.align, Bool.and_self, decide_true, if_true, and_self]
  rfl

theorem faddH2 (g : Guard) (d : Dst) (a b : Src) : Statement (.faddH2 g d a b) := by
  intro h c' ws e tail
  replace h : (g.ok && d.ok7 32 && a.ok7 32 && b.ok7 32) = true := h
  simp only [Bool.and_eq_true] at h
  obtain ⟨⟨⟨h0, h1⟩, h2⟩, h3⟩ := h
  simp only [Dst.ok7, Bool.and_eq_true] at h1
  simp only [Src.ok7, Bool.and_eq_true] at h2
  simp only [Src.ok7, Bool.and_eq_true] at h3
  cases e
  refine decode_S (Guard.code_lt h0) (Dst.code7_spec h1.1).1 (Src.code7_spec h2.1).1 (Src.code7_spec h3.1).1 (by decide) fun
    F hc ho hg hd ha hb => ?_
  refine (decodeFlt_of hc ho (by decide) (by decide)).trans ?_
  change (do
    let g ← F.guard
    let d ← F.dst7 32 F.d
    let a ← F.src7 32 F.a
    let b ← F.src7 32 F.b
    pure (Instr.faddH2 g d a b)) = _
  simp only [hd, ha, hb, Fields.guard_spec h0 hg, Fields.dst7_spec h1.1, Fields.src7_spec h2.1, Fields.src7_spec h3.1,
    true_and, and_true, ok_bind, Fields.field, Fields.align, Bool.and_self, decide_true, if_true, and_self]
  rfl

theorem fmulH2 (g : Guard) (d : Dst) (a b : Src) : Statement (.fmulH2 g d a b) := by
  intro h c' ws e tail
  replace h : (g.ok && d.ok7 32 && a.ok7 32 && b.ok7 32) = true := h
  simp only [Bool.and_eq_true] at h
  obtain ⟨⟨⟨h0, h1⟩, h2⟩, h3⟩ := h
  simp only [Dst.ok7, Bool.and_eq_true] at h1
  simp only [Src.ok7, Bool.and_eq_true] at h2
  simp only [Src.ok7, Bool.and_eq_true] at h3
  cases e
  refine decode_S (Guard.code_lt h0) (Dst.code7_spec h1.1).1 (Src.code7_spec h2.1).1 (Src.code7_spec h3.1).1 (by decide) fun
    F hc ho hg hd ha hb => ?_
  refine (decodeFlt_of hc ho (by decide) (by decide)).trans ?_
  change (do
    let g ← F.guard
    let d ← F.dst7 32 F.d
    let a ← F.src7 32 F.a
    let b ← F.src7 32 F.b
    pure (Instr.fmulH2 g d a b)) = _
  simp only [hd, ha, hb, Fields.guard_spec h0 hg, Fields.dst7_spec h1.1, Fields.src7_spec h2.1, Fields.src7_spec h3.1,
    true_and, and_true, ok_bind, Fields.field, Fields.align, Bool.and_self, decide_true, if_true, and_self]
  rfl

theorem faddB2 (g : Guard) (d : Dst) (a b : Src) : Statement (.faddB2 g d a b) := by
  intro h c' ws e tail
  replace h : (g.ok && d.ok7 32 && a.ok7 32 && b.ok7 32) = true := h
  simp only [Bool.and_eq_true] at h
  obtain ⟨⟨⟨h0, h1⟩, h2⟩, h3⟩ := h
  simp only [Dst.ok7, Bool.and_eq_true] at h1
  simp only [Src.ok7, Bool.and_eq_true] at h2
  simp only [Src.ok7, Bool.and_eq_true] at h3
  cases e
  refine decode_S (Guard.code_lt h0) (Dst.code7_spec h1.1).1 (Src.code7_spec h2.1).1 (Src.code7_spec h3.1).1 (by decide) fun
    F hc ho hg hd ha hb => ?_
  refine (decodeFlt_of hc ho (by decide) (by decide)).trans ?_
  change (do
    let g ← F.guard
    let d ← F.dst7 32 F.d
    let a ← F.src7 32 F.a
    let b ← F.src7 32 F.b
    pure (Instr.faddB2 g d a b)) = _
  simp only [hd, ha, hb, Fields.guard_spec h0 hg, Fields.dst7_spec h1.1, Fields.src7_spec h2.1, Fields.src7_spec h3.1,
    true_and, and_true, ok_bind, Fields.field, Fields.align, Bool.and_self, decide_true, if_true, and_self]
  rfl

theorem fmulB2 (g : Guard) (d : Dst) (a b : Src) : Statement (.fmulB2 g d a b) := by
  intro h c' ws e tail
  replace h : (g.ok && d.ok7 32 && a.ok7 32 && b.ok7 32) = true := h
  simp only [Bool.and_eq_true] at h
  obtain ⟨⟨⟨h0, h1⟩, h2⟩, h3⟩ := h
  simp only [Dst.ok7, Bool.and_eq_true] at h1
  simp only [Src.ok7, Bool.and_eq_true] at h2
  simp only [Src.ok7, Bool.and_eq_true] at h3
  cases e
  refine decode_S (Guard.code_lt h0) (Dst.code7_spec h1.1).1 (Src.code7_spec h2.1).1 (Src.code7_spec h3.1).1 (by decide) fun
    F hc ho hg hd ha hb => ?_
  refine (decodeFlt_of hc ho (by decide) (by decide)).trans ?_
  change (do
    let g ← F.guard
    let d ← F.dst7 32 F.d
    let a ← F.src7 32 F.a
    let b ← F.src7 32 F.b
    pure (Instr.fmulB2 g d a b)) = _
  simp only [hd, ha, hb, Fields.guard_spec h0 hg, Fields.dst7_spec h1.1, Fields.src7_spec h2.1, Fields.src7_spec h3.1,
    true_and, and_true, ok_bind, Fields.field, Fields.align, Bool.and_self, decide_true, if_true, and_self]
  rfl

theorem frcpF32 (g : Guard) (d : Dst) (a : Src) : Statement (.frcpF32 g d a) := by
  intro h c' ws e tail
  replace h : (g.ok && d.ok7 32 && a.ok7 32) = true := h
  simp only [Bool.and_eq_true] at h
  obtain ⟨⟨h0, h1⟩, h2⟩ := h
  simp only [Dst.ok7, Bool.and_eq_true] at h1
  simp only [Src.ok7, Bool.and_eq_true] at h2
  cases e
  refine decode_S (Guard.code_lt h0) (Dst.code7_spec h1.1).1 (Src.code7_spec h2.1).1 (by decide) (by decide) fun F hc ho hg
    hd ha hb => ?_
  refine (decodeFlt_of hc ho (by decide) (by decide)).trans ?_
  change (do
    let g ← F.guard
    F.field (F.b = 0)
    let d ← F.dst7 32 F.d
    let a ← F.src7 32 F.a
    pure (Instr.frcpF32 g d a)) = _
  simp only [hd, ha, hb, Fields.guard_spec h0 hg, Fields.dst7_spec h1.1, Fields.src7_spec h2.1, true_and, and_true, ok_bind,
    Fields.field, Fields.align, Bool.and_self, decide_true, if_true, and_self]
  rfl

theorem frsqF32 (g : Guard) (d : Dst) (a : Src) : Statement (.frsqF32 g d a) := by
  intro h c' ws e tail
  replace h : (g.ok && d.ok7 32 && a.ok7 32) = true := h
  simp only [Bool.and_eq_true] at h
  obtain ⟨⟨h0, h1⟩, h2⟩ := h
  simp only [Dst.ok7, Bool.and_eq_true] at h1
  simp only [Src.ok7, Bool.and_eq_true] at h2
  cases e
  refine decode_S (Guard.code_lt h0) (Dst.code7_spec h1.1).1 (Src.code7_spec h2.1).1 (by decide) (by decide) fun F hc ho hg
    hd ha hb => ?_
  refine (decodeFlt_of hc ho (by decide) (by decide)).trans ?_
  change (do
    let g ← F.guard
    F.field (F.b = 0)
    let d ← F.dst7 32 F.d
    let a ← F.src7 32 F.a
    pure (Instr.frsqF32 g d a)) = _
  simp only [hd, ha, hb, Fields.guard_spec h0 hg, Fields.dst7_spec h1.1, Fields.src7_spec h2.1, true_and, and_true, ok_bind,
    Fields.field, Fields.align, Bool.and_self, decide_true, if_true, and_self]
  rfl

theorem fexp2F32 (g : Guard) (d : Dst) (a : Src) : Statement (.fexp2F32 g d a) := by
  intro h c' ws e tail
  replace h : (g.ok && d.ok7 32 && a.ok7 32) = true := h
  simp only [Bool.and_eq_true] at h
  obtain ⟨⟨h0, h1⟩, h2⟩ := h
  simp only [Dst.ok7, Bool.and_eq_true] at h1
  simp only [Src.ok7, Bool.and_eq_true] at h2
  cases e
  refine decode_S (Guard.code_lt h0) (Dst.code7_spec h1.1).1 (Src.code7_spec h2.1).1 (by decide) (by decide) fun F hc ho hg
    hd ha hb => ?_
  refine (decodeFlt_of hc ho (by decide) (by decide)).trans ?_
  change (do
    let g ← F.guard
    F.field (F.b = 0)
    let d ← F.dst7 32 F.d
    let a ← F.src7 32 F.a
    pure (Instr.fexp2F32 g d a)) = _
  simp only [hd, ha, hb, Fields.guard_spec h0 hg, Fields.dst7_spec h1.1, Fields.src7_spec h2.1, true_and, and_true, ok_bind,
    Fields.field, Fields.align, Bool.and_self, decide_true, if_true, and_self]
  rfl

theorem flog2F32 (g : Guard) (d : Dst) (a : Src) : Statement (.flog2F32 g d a) := by
  intro h c' ws e tail
  replace h : (g.ok && d.ok7 32 && a.ok7 32) = true := h
  simp only [Bool.and_eq_true] at h
  obtain ⟨⟨h0, h1⟩, h2⟩ := h
  simp only [Dst.ok7, Bool.and_eq_true] at h1
  simp only [Src.ok7, Bool.and_eq_true] at h2
  cases e
  refine decode_S (Guard.code_lt h0) (Dst.code7_spec h1.1).1 (Src.code7_spec h2.1).1 (by decide) (by decide) fun F hc ho hg
    hd ha hb => ?_
  refine (decodeFlt_of hc ho (by decide) (by decide)).trans ?_
  change (do
    let g ← F.guard
    F.field (F.b = 0)
    let d ← F.dst7 32 F.d
    let a ← F.src7 32 F.a
    pure (Instr.flog2F32 g d a)) = _
  simp only [hd, ha, hb, Fields.guard_spec h0 hg, Fields.dst7_spec h1.1, Fields.src7_spec h2.1, true_and, and_true, ok_bind,
    Fields.field, Fields.align, Bool.and_self, decide_true, if_true, and_self]
  rfl

theorem fsinpiF32 (g : Guard) (d : Dst) (a : Src) : Statement (.fsinpiF32 g d a) := by
  intro h c' ws e tail
  replace h : (g.ok && d.ok7 32 && a.ok7 32) = true := h
  simp only [Bool.and_eq_true] at h
  obtain ⟨⟨h0, h1⟩, h2⟩ := h
  simp only [Dst.ok7, Bool.and_eq_true] at h1
  simp only [Src.ok7, Bool.and_eq_true] at h2
  cases e
  refine decode_S (Guard.code_lt h0) (Dst.code7_spec h1.1).1 (Src.code7_spec h2.1).1 (by decide) (by decide) fun F hc ho hg
    hd ha hb => ?_
  refine (decodeFlt_of hc ho (by decide) (by decide)).trans ?_
  change (do
    let g ← F.guard
    F.field (F.b = 0)
    let d ← F.dst7 32 F.d
    let a ← F.src7 32 F.a
    pure (Instr.fsinpiF32 g d a)) = _
  simp only [hd, ha, hb, Fields.guard_spec h0 hg, Fields.dst7_spec h1.1, Fields.src7_spec h2.1, true_and, and_true, ok_bind,
    Fields.field, Fields.align, Bool.and_self, decide_true, if_true, and_self]
  rfl

theorem fcospiF32 (g : Guard) (d : Dst) (a : Src) : Statement (.fcospiF32 g d a) := by
  intro h c' ws e tail
  replace h : (g.ok && d.ok7 32 && a.ok7 32) = true := h
  simp only [Bool.and_eq_true] at h
  obtain ⟨⟨h0, h1⟩, h2⟩ := h
  simp only [Dst.ok7, Bool.and_eq_true] at h1
  simp only [Src.ok7, Bool.and_eq_true] at h2
  cases e
  refine decode_S (Guard.code_lt h0) (Dst.code7_spec h1.1).1 (Src.code7_spec h2.1).1 (by decide) (by decide) fun F hc ho hg
    hd ha hb => ?_
  refine (decodeFlt_of hc ho (by decide) (by decide)).trans ?_
  change (do
    let g ← F.guard
    F.field (F.b = 0)
    let d ← F.dst7 32 F.d
    let a ← F.src7 32 F.a
    pure (Instr.fcospiF32 g d a)) = _
  simp only [hd, ha, hb, Fields.guard_spec h0 hg, Fields.dst7_spec h1.1, Fields.src7_spec h2.1, true_and, and_true, ok_bind,
    Fields.field, Fields.align, Bool.and_self, decide_true, if_true, and_self]
  rfl

theorem ftanhF32 (g : Guard) (d : Dst) (a : Src) : Statement (.ftanhF32 g d a) := by
  intro h c' ws e tail
  replace h : (g.ok && d.ok7 32 && a.ok7 32) = true := h
  simp only [Bool.and_eq_true] at h
  obtain ⟨⟨h0, h1⟩, h2⟩ := h
  simp only [Dst.ok7, Bool.and_eq_true] at h1
  simp only [Src.ok7, Bool.and_eq_true] at h2
  cases e
  refine decode_S (Guard.code_lt h0) (Dst.code7_spec h1.1).1 (Src.code7_spec h2.1).1 (by decide) (by decide) fun F hc ho hg
    hd ha hb => ?_
  refine (decodeFlt_of hc ho (by decide) (by decide)).trans ?_
  change (do
    let g ← F.guard
    F.field (F.b = 0)
    let d ← F.dst7 32 F.d
    let a ← F.src7 32 F.a
    pure (Instr.ftanhF32 g d a)) = _
  simp only [hd, ha, hb, Fields.guard_spec h0 hg, Fields.dst7_spec h1.1, Fields.src7_spec h2.1, true_and, and_true, ok_bind,
    Fields.field, Fields.align, Bool.and_self, decide_true, if_true, and_self]
  rfl

theorem fclassF64 (g : Guard) (d : Dst) (a : Src) : Statement (.fclassF64 g d a) := by
  intro h c' ws e tail
  replace h : (g.ok && d.ok7 32 && a.ok7 64) = true := h
  simp only [Bool.and_eq_true] at h
  obtain ⟨⟨h0, h1⟩, h2⟩ := h
  simp only [Dst.ok7, Bool.and_eq_true] at h1
  simp only [Src.ok7, Bool.and_eq_true] at h2
  cases e
  refine decode_S (Guard.code_lt h0) (Dst.code7_spec h1.1).1 (Src.code7_spec h2.1).1 (by decide) (by decide) fun F hc ho hg
    hd ha hb => ?_
  refine (decodeFlt_of hc ho (by decide) (by decide)).trans ?_
  change (do
    let g ← F.guard
    F.field (F.b = 0)
    let d ← F.dst7 32 F.d
    let a ← F.src7 64 F.a
    F.align (a.aligned 64)
    pure (Instr.fclassF64 g d a)) = _
  simp only [hd, ha, hb, Fields.guard_spec h0 hg, Fields.dst7_spec h1.1, Fields.src7_spec h2.1, h2.2, true_and, and_true,
    ok_bind, Fields.field, Fields.align, Bool.and_self, decide_true, if_true, and_self]
  rfl

theorem fclassF32 (g : Guard) (d : Dst) (a : Src) : Statement (.fclassF32 g d a) := by
  intro h c' ws e tail
  replace h : (g.ok && d.ok7 32 && a.ok7 32) = true := h
  simp only [Bool.and_eq_true] at h
  obtain ⟨⟨h0, h1⟩, h2⟩ := h
  simp only [Dst.ok7, Bool.and_eq_true] at h1
  simp only [Src.ok7, Bool.and_eq_true] at h2
  cases e
  refine decode_S (Guard.code_lt h0) (Dst.code7_spec h1.1).1 (Src.code7_spec h2.1).1 (by decide) (by decide) fun F hc ho hg
    hd ha hb => ?_
  refine (decodeFlt_of hc ho (by decide) (by decide)).trans ?_
  change (do
    let g ← F.guard
    F.field (F.b = 0)
    let d ← F.dst7 32 F.d
    let a ← F.src7 32 F.a
    pure (Instr.fclassF32 g d a)) = _
  simp only [hd, ha, hb, Fields.guard_spec h0 hg, Fields.dst7_spec h1.1, Fields.src7_spec h2.1, true_and, and_true, ok_bind,
    Fields.field, Fields.align, Bool.and_self, decide_true, if_true, and_self]
  rfl

theorem fma (g : Guard) (ty : Ty) (rm : Rm) (ftz pk : Bool) (d : Dst) (a b c : Src) : Statement (.fma g ty rm ftz pk d a b c)
  := by
  intro h c' ws e tail
  replace h : (g.ok && ([.f64, .f32, .f16, .bf16]).contains ty && d.ok9 ty.opBits && a.ok9 ty.opBits && b.ok9 ty.opBits &&
    c.ok9 ty.opBits && (!ftz || ty == Ty.f32) && (!pk || (ty == Ty.f16 || ty == Ty.bf16))) = true := h
  simp only [Bool.and_eq_true] at h
  obtain ⟨⟨⟨⟨⟨⟨⟨h0, h1⟩, h2⟩, h3⟩, h4⟩, h5⟩, h6⟩, h7⟩ := h
  simp only [Dst.ok9, Bool.and_eq_true] at h2
  simp only [Src.ok9, Bool.and_eq_true] at h3
  simp only [Src.ok9, Bool.and_eq_true] at h4
  simp only [Src.ok9, Bool.and_eq_true] at h5
  cases e
  refine decode_L (Guard.code_lt h0) (Dst.code9_spec h2.1).1 (Src.code9_spec h3.1).1 (Src.code9_spec h4.1).1 (Src.code9_spec
    h5.1).1 (Ty.code_lt ty) (Rm.code_lt rm) (by cases ftz <;> cases pk <;> decide)
    (by decide) fun F hc ho hx hg hd ha hb hC ht hr hf hm => ?_
  refine (decodeFltL_of hc ho hx (by decide)).trans ?_
  have f_ftz : F.flag 0 = ftz := by rw [Fields.flag, hf]; cases ftz <;> cases pk <;> rfl
  have f_pk : F.flag 2 = pk := by rw [Fields.flag, hf]; cases ftz <;> cases pk <;> rfl
  have c0 : (ftz.toNat * 1 + pk.toNat * 4) / 2 % 2 = 0 := by cases ftz <;> cases pk <;> decide
  change (do
    let g ← F.guard
    F.field (F.fl / 2 % 2 = 0)
    let ty ← F.tyIn F.ty [.f64, .f32, .f16, .bf16]
    let rm := rmOf F.rm
    let ftz := F.flag 0
    let pk := F.flag 2
    F.field ((!ftz || ty == Ty.f32) && (!pk || (ty == Ty.f16 || ty == Ty.bf16)))
    let d ← F.dst9 ty.opBits F.d9
    let a ← F.src9 ty.opBits F.a9
    let b ← F.src9 ty.opBits F.b9
    let c ← F.src9 ty.opBits F.c
    F.align (d.aligned ty.opBits && a.aligned ty.opBits && b.aligned ty.opBits && c.aligned ty.opBits)
    pure (Instr.fma g ty rm ftz pk d a b c)) = _
  simp only [hd, ha, hb, hC, ht, hr, hf, hm, Fields.guard_spec h0 hg, Fields.tyIn_spec h1, rmOf_code rm, f_ftz, f_pk,
    Fields.dst9_spec h2.1, h2.2, Fields.src9_spec h3.1, h3.2, Fields.src9_spec h4.1, h4.2, Fields.src9_spec h5.1, h5.2, c0,
      h6, h7, true_and, and_true, ok_bind, Fields.field, Fields.align, Bool.and_self, decide_true, if_true, and_self]
  rfl

theorem faddL (g : Guard) (ty : Ty) (rm : Rm) (ftz pk : Bool) (d : Dst) (a b : Src) : Statement (.faddL g ty rm ftz pk d a b)
  := by
  intro h c' ws e tail
  replace h : (g.ok && ([.f64, .f32, .f16, .bf16]).contains ty && d.ok9 ty.opBits && a.ok9 ty.opBits && b.ok9 ty.opBits &&
    (!ftz || ty == Ty.f32) && (!pk || (ty == Ty.f16 || ty == Ty.bf16))) = true := h
  simp only [Bool.and_eq_true] at h
  obtain ⟨⟨⟨⟨⟨⟨h0, h1⟩, h2⟩, h3⟩, h4⟩, h5⟩, h6⟩ := h
  simp only [Dst.ok9, Bool.and_eq_true] at h2
  simp only [Src.ok9, Bool.and_eq_true] at h3
  simp only [Src.ok9, Bool.and_eq_true] at h4
  cases e
  refine decode_L (Guard.code_lt h0) (Dst.code9_spec h2.1).1 (Src.code9_spec h3.1).1 (Src.code9_spec h4.1).1 (by decide)
    (Ty.code_lt ty) (Rm.code_lt rm) (by cases ftz <;> cases pk <;> decide)
    (by decide) fun F hc ho hx hg hd ha hb hC ht hr hf hm => ?_
  refine (decodeFltL_of hc ho hx (by decide)).trans ?_
  have f_ftz : F.flag 0 = ftz := by rw [Fields.flag, hf]; cases ftz <;> cases pk <;> rfl
  have f_pk : F.flag 2 = pk := by rw [Fields.flag, hf]; cases ftz <;> cases pk <;> rfl
  have c1 : (ftz.toNat * 1 + pk.toNat * 4) / 2 % 2 = 0 := by cases ftz <;> cases pk <;> decide
  change (do
    let g ← F.guard
    F.field (F.c = 0 ∧ F.fl / 2 % 2 = 0)
    let ty ← F.tyIn F.ty [.f64, .f32, .f16, .bf16]
    let rm := rmOf F.rm
    let ftz := F.flag 0
    let pk := F.flag 2
    F.field ((!ftz || ty == Ty.f32) && (!pk || (ty == Ty.f16 || ty == Ty.bf16)))
    let d ← F.dst9 ty.opBits F.d9
    let a ← F.src9 ty.opBits F.a9
    let b ← F.src9 ty.opBits F.b9
    F.align (d.aligned ty.opBits && a.aligned ty.opBits && b.aligned ty.opBits)
    pure (Instr.faddL g ty rm ftz pk d a b)) = _
  simp only [hd, ha, hb, hC, ht, hr, hf, hm, Fields.guard_spec h0 hg, Fields.tyIn_spec h1, rmOf_code rm, f_ftz, f_pk,
    Fields.dst9_spec h2.1, h2.2, Fields.src9_spec h3.1, h3.2, Fields.src9_spec h4.1, h4.2, c1, h5, h6, true_and, and_true,
      ok_bind, Fields.field, Fields.align, Bool.and_self, decide_true, if_true, and_self]
  rfl

theorem fmulL (g : Guard) (ty : Ty) (rm : Rm) (ftz pk : Bool) (d : Dst) (a b : Src) : Statement (.fmulL g ty rm ftz pk d a b)
  := by
  intro h c' ws e tail
  replace h : (g.ok && ([.f64, .f32, .f16, .bf16]).contains ty && d.ok9 ty.opBits && a.ok9 ty.opBits && b.ok9 ty.opBits &&
    (!ftz || ty == Ty.f32) && (!pk || (ty == Ty.f16 || ty == Ty.bf16))) = true := h
  simp only [Bool.and_eq_true] at h
  obtain ⟨⟨⟨⟨⟨⟨h0, h1⟩, h2⟩, h3⟩, h4⟩, h5⟩, h6⟩ := h
  simp only [Dst.ok9, Bool.and_eq_true] at h2
  simp only [Src.ok9, Bool.and_eq_true] at h3
  simp only [Src.ok9, Bool.and_eq_true] at h4
  cases e
  refine decode_L (Guard.code_lt h0) (Dst.code9_spec h2.1).1 (Src.code9_spec h3.1).1 (Src.code9_spec h4.1).1 (by decide)
    (Ty.code_lt ty) (Rm.code_lt rm) (by cases ftz <;> cases pk <;> decide)
    (by decide) fun F hc ho hx hg hd ha hb hC ht hr hf hm => ?_
  refine (decodeFltL_of hc ho hx (by decide)).trans ?_
  have f_ftz : F.flag 0 = ftz := by rw [Fields.flag, hf]; cases ftz <;> cases pk <;> rfl
  have f_pk : F.flag 2 = pk := by rw [Fields.flag, hf]; cases ftz <;> cases pk <;> rfl
  have c1 : (ftz.toNat * 1 + pk.toNat * 4) / 2 % 2 = 0 := by cases ftz <;> cases pk <;> decide
  change (do
    let g ← F.guard
    F.field (F.c = 0 ∧ F.fl / 2 % 2 = 0)
    let ty ← F.tyIn F.ty [.f64, .f32, .f16, .bf16]
    let rm := rmOf F.rm
    let ftz := F.flag 0
    let pk := F.flag 2
    F.field ((!ftz || ty == Ty.f32) && (!pk || (ty == Ty.f16 || ty == Ty.bf16)))
    let d ← F.dst9 ty.opBits F.d9
    let a ← F.src9 ty.opBits F.a9
    let b ← F.src9 ty.opBits F.b9
    F.align (d.aligned ty.opBits && a.aligned ty.opBits && b.aligned ty.opBits)
    pure (Instr.fmulL g ty rm ftz pk d a b)) = _
  simp only [hd, ha, hb, hC, ht, hr, hf, hm, Fields.guard_spec h0 hg, Fields.tyIn_spec h1, rmOf_code rm, f_ftz, f_pk,
    Fields.dst9_spec h2.1, h2.2, Fields.src9_spec h3.1, h3.2, Fields.src9_spec h4.1, h4.2, c1, h5, h6, true_and, and_true,
      ok_bind, Fields.field, Fields.align, Bool.and_self, decide_true, if_true, and_self]
  rfl

theorem fdiv (g : Guard) (ty : Ty) (rm : Rm) (ftz : Bool) (d : Dst) (a b : Src) : Statement (.fdiv g ty rm ftz d a b) := by
  intro h c' ws e tail
  replace h : (g.ok && ([.f64, .f32]).contains ty && d.ok9 ty.opBits && a.ok9 ty.opBits && b.ok9 ty.opBits && (!ftz || ty ==
    Ty.f32)) = true := h
  simp only [Bool.and_eq_true] at h
  obtain ⟨⟨⟨⟨⟨h0, h1⟩, h2⟩, h3⟩, h4⟩, h5⟩ := h
  simp only [Dst.ok9, Bool.and_eq_true] at h2
  simp only [Src.ok9, Bool.and_eq_true] at h3
  simp only [Src.ok9, Bool.and_eq_true] at h4
  cases e
  refine decode_L (Guard.code_lt h0) (Dst.code9_spec h2.1).1 (Src.code9_spec h3.1).1 (Src.code9_spec h4.1).1 (by decide)
    (Ty.code_lt ty) (Rm.code_lt rm) (by cases ftz <;> decide)
    (by decide) fun F hc ho hx hg hd ha hb hC ht hr hf hm => ?_
  refine (decodeFltL_of hc ho hx (by decide)).trans ?_
  have f_ftz : F.flag 0 = ftz := by rw [Fields.flag, hf]; cases ftz <;> rfl
  have c1 : (ftz.toNat * 1) < 2 := by cases ftz <;> decide
  change (do
    let g ← F.guard
    F.field (F.c = 0 ∧ F.fl < 2)
    let ty ← F.tyIn F.ty [.f64, .f32]
    let rm := rmOf F.rm
    let ftz := F.flag 0
    F.field ((!ftz || ty == Ty.f32))
    let d ← F.dst9 ty.opBits F.d9
    let a ← F.src9 ty.opBits F.a9
    let b ← F.src9 ty.opBits F.b9
    F.align (d.aligned ty.opBits && a.aligned ty.opBits && b.aligned ty.opBits)
    pure (Instr.fdiv g ty rm ftz d a b)) = _
  simp only [hd, ha, hb, hC, ht, hr, hf, hm, Fields.guard_spec h0 hg, Fields.tyIn_spec h1, rmOf_code rm, f_ftz,
    Fields.dst9_spec h2.1, h2.2, Fields.src9_spec h3.1, h3.2, Fields.src9_spec h4.1, h4.2, c1, h5, true_and, and_true,
      ok_bind, Fields.field, Fields.align, Bool.and_self, decide_true, if_true, and_self]
  rfl

theorem fsqrt (g : Guard) (ty : Ty) (rm : Rm) (ftz : Bool) (d : Dst) (a : Src) : Statement (.fsqrt g ty rm ftz d a) := by
  intro h c' ws e tail
  replace h : (g.ok && ([.f64, .f32]).contains ty && d.ok9 ty.opBits && a.ok9 ty.opBits && (!ftz || ty == Ty.f32)) = true := h
  simp only [Bool.and_eq_true] at h
  obtain ⟨⟨⟨⟨h0, h1⟩, h2⟩, h3⟩, h4⟩ := h
  simp only [Dst.ok9, Bool.and_eq_true] at h2
  simp only [Src.ok9, Bool.and_eq_true] at h3
  cases e
  refine decode_L (Guard.code_lt h0) (Dst.code9_spec h2.1).1 (Src.code9_spec h3.1).1 (by decide) (by decide) (Ty.code_lt ty)
    (Rm.code_lt rm) (by cases ftz <;> decide)
    (by decide) fun F hc ho hx hg hd ha hb hC ht hr hf hm => ?_
  refine (decodeFltL_of hc ho hx (by decide)).trans ?_
  have f_ftz : F.flag 0 = ftz := by rw [Fields.flag, hf]; cases ftz <;> rfl
  have c2 : (ftz.toNat * 1) < 2 := by cases ftz <;> decide
  change (do
    let g ← F.guard
    F.field (F.b9 = 0 ∧ F.c = 0 ∧ F.fl < 2)
    let ty ← F.tyIn F.ty [.f64, .f32]
    let rm := rmOf F.rm
    let ftz := F.flag 0
    F.field ((!ftz || ty == Ty.f32))
    let d ← F.dst9 ty.opBits F.d9
    let a ← F.src9 ty.opBits F.a9
    F.align (d.aligned ty.opBits && a.aligned ty.opBits)
    pure (Instr.fsqrt g ty rm ftz d a)) = _
  simp only [hd, ha, hb, hC, ht, hr, hf, hm, Fields.guard_spec h0 hg, Fields.tyIn_spec h1, rmOf_code rm, f_ftz,
    Fields.dst9_spec h2.1, h2.2, Fields.src9_spec h3.1, h3.2, c2, h4, true_and, and_true, ok_bind, Fields.field,
      Fields.align, Bool.and_self, decide_true, if_true, and_self]
  rfl

theorem fcmp (g : Guard) (ty : Ty) (cc : FCond) (d : Nat) (a b : Src) : Statement (.fcmp g ty cc d a b) := by
  intro h c' ws e tail
  replace h : (g.ok && ([.f64, .f32, .f16, .bf16]).contains ty && decide (d < 12) && a.ok9 ty.opBits && b.ok9 ty.opBits) =
    true := h
  simp only [Bool.and_eq_true] at h
  obtain ⟨⟨⟨⟨h0, h1⟩, h2⟩, h3⟩, h4⟩ := h
  simp only [decide_eq_true_eq] at h2
  simp only [Src.ok9, Bool.and_eq_true] at h3
  simp only [Src.ok9, Bool.and_eq_true] at h4
  cases e
  refine decode_L (Guard.code_lt h0) (by omega) (Src.code9_spec h3.1).1 (Src.code9_spec h4.1).1 (by decide) (Ty.code_lt ty)
    (by decide) (FCond.code_lt cc)
    (by decide) fun F hc ho hx hg hd ha hb hC ht hr hf hm => ?_
  refine (decodeFltL_of hc ho hx (by decide)).trans ?_
  change (do
    let g ← F.guard
    F.field (F.c = 0 ∧ F.rm = 0)
    let ty ← F.tyIn F.ty [.f64, .f32, .f16, .bf16]
    let cc := fcondOf F.fl
    let d ← F.pred F.d9
    let a ← F.src9 ty.opBits F.a9
    let b ← F.src9 ty.opBits F.b9
    F.align (a.aligned ty.opBits && b.aligned ty.opBits)
    pure (Instr.fcmp g ty cc d a b)) = _
  simp only [hd, ha, hb, hC, ht, hr, hf, hm, Fields.guard_spec h0 hg, Fields.tyIn_spec h1, fcondOf_code cc, Fields.pred_spec
    h2, Fields.src9_spec h3.1, h3.2, Fields.src9_spec h4.1, h4.2, true_and, and_true, ok_bind, Fields.field, Fields.align,
      Bool.and_self, decide_true, if_true, and_self]
  rfl

theorem fcvt (g : Guard) (ty sty : Ty) (rm : Rm) (sat : Bool) (d : Dst) (a : Src) : Statement (.fcvt g ty sty rm sat d a) := by
  intro h c' ws e tail
  replace h : (g.ok && ([.f64, .f32, .f16, .bf16, .e4m3, .e5m2, .e2m1]).contains ty && ([.f64, .f32, .f16, .bf16, .e4m3,
    .e5m2, .e2m1]).contains sty && d.ok9 ty.opBits && a.ok9 sty.opBits && (ty != sty)) = true := h
  simp only [Bool.and_eq_true] at h
  obtain ⟨⟨⟨⟨⟨h0, h1⟩, h2⟩, h3⟩, h4⟩, h5⟩ := h
  simp only [Dst.ok9, Bool.and_eq_true] at h3
  simp only [Src.ok9, Bool.and_eq_true] at h4
  cases e
  refine decode_L (Guard.code_lt h0) (Dst.code9_spec h3.1).1 (Src.code9_spec h4.1).1 (by decide) (Nat.lt_trans (Ty.code_lt
    sty) (by decide)) (Ty.code_lt ty) (Rm.code_lt rm) (by cases sat <;> decide)
    (by decide) fun F hc ho hx hg hd ha hb hC ht hr hf hm => ?_
  refine (decodeFltL_of hc ho hx (by decide)).trans ?_
  have f_sat : F.flag 1 = sat := by rw [Fields.flag, hf]; cases sat <;> rfl
  have c1 : ((sat.toNat * 2) = 0 ∨ (sat.toNat * 2) = 2) := by cases sat <;> decide
  change (do
    let g ← F.guard
    F.field (F.b9 = 0 ∧ (F.fl = 0 ∨ F.fl = 2) ∧ F.c < 16)
    let ty ← F.tyIn F.ty [.f64, .f32, .f16, .bf16, .e4m3, .e5m2, .e2m1]
    let sty ← F.tyIn (F.c % 16) [.f64, .f32, .f16, .bf16, .e4m3, .e5m2, .e2m1]
    let rm := rmOf F.rm
    let sat := F.flag 1
    F.field ((ty != sty))
    let d ← F.dst9 ty.opBits F.d9
    let a ← F.src9 sty.opBits F.a9
    F.align (d.aligned ty.opBits && a.aligned sty.opBits)
    pure (Instr.fcvt g ty sty rm sat d a)) = _
  simp only [hd, ha, hb, hC, ht, hr, hf, hm, Fields.guard_spec h0 hg, Fields.tyIn_spec h1, Nat.mod_eq_of_lt (Ty.code_lt sty),
    Ty.code_lt sty, Fields.tyIn_spec h2, rmOf_code rm, f_sat, Fields.dst9_spec h3.1, h3.2, Fields.src9_spec h4.1, h4.2, c1,
      h5, true_and, and_true, ok_bind, Fields.field, Fields.align, Bool.and_self, decide_true, if_true, and_self]
  rfl

theorem frnd (g : Guard) (ty : Ty) (rm : Rm) (d : Dst) (a : Src) : Statement (.frnd g ty rm d a) := by
  intro h c' ws e tail
  replace h : (g.ok && ([.f64, .f32, .f16, .bf16]).contains ty && d.ok9 ty.opBits && a.ok9 ty.opBits) = true := h
  simp only [Bool.and_eq_true] at h
  obtain ⟨⟨⟨h0, h1⟩, h2⟩, h3⟩ := h
  simp only [Dst.ok9, Bool.and_eq_true] at h2
  simp only [Src.ok9, Bool.and_eq_true] at h3
  cases e
  refine decode_L (Guard.code_lt h0) (Dst.code9_spec h2.1).1 (Src.code9_spec h3.1).1 (by decide) (by decide) (Ty.code_lt ty)
    (Rm.code_lt rm) (by decide)
    (by decide) fun F hc ho hx hg hd ha hb hC ht hr hf hm => ?_
  refine (decodeFltL_of hc ho hx (by decide)).trans ?_
  change (do
    let g ← F.guard
    F.field (F.b9 = 0 ∧ F.c = 0 ∧ F.fl = 0)
    let ty ← F.tyIn F.ty [.f64, .f32, .f16, .bf16]
    let rm := rmOf F.rm
    let d ← F.dst9 ty.opBits F.d9
    let a ← F.src9 ty.opBits F.a9
    F.align (d.aligned ty.opBits && a.aligned ty.opBits)
    pure (Instr.frnd g ty rm d a)) = _
  simp only [hd, ha, hb, hC, ht, hr, hf, hm, Fields.guard_spec h0 hg, Fields.tyIn_spec h1, rmOf_code rm, Fields.dst9_spec
    h2.1, h2.2, Fields.src9_spec h3.1, h3.2, true_and, and_true, ok_bind, Fields.field, Fields.align, Bool.and_self,
      decide_true, if_true, and_self]
  rfl

theorem fcvti (g : Guard) (ty sty : Ty) (rm : Rm) (d : Dst) (a : Src) : Statement (.fcvti g ty sty rm d a) := by
  intro h c' ws e tail
  replace h : (g.ok && ([.i8, .i16, .i32, .i64, .n8, .n16, .n32, .n64]).contains ty && ([.f64, .f32, .f16, .bf16]).contains
    sty && d.ok9 ty.opBits && a.ok9 sty.opBits) = true := h
  simp only [Bool.and_eq_true] at h
  obtain ⟨⟨⟨⟨h0, h1⟩, h2⟩, h3⟩, h4⟩ := h
  simp only [Dst.ok9, Bool.and_eq_true] at h3
  simp only [Src.ok9, Bool.and_eq_true] at h4
  cases e
  refine decode_L (Guard.code_lt h0) (Dst.code9_spec h3.1).1 (Src.code9_spec h4.1).1 (by decide) (Nat.lt_trans (Ty.code_lt
    sty) (by decide)) (Ty.code_lt ty) (Rm.code_lt rm) (by decide)
    (by decide) fun F hc ho hx hg hd ha hb hC ht hr hf hm => ?_
  refine (decodeFltL_of hc ho hx (by decide)).trans ?_
  change (do
    let g ← F.guard
    F.field (F.b9 = 0 ∧ F.fl = 0 ∧ F.c < 16)
    let ty ← F.tyIn F.ty [.i8, .i16, .i32, .i64, .n8, .n16, .n32, .n64]
    let sty ← F.tyIn (F.c % 16) [.f64, .f32, .f16, .bf16]
    let rm := rmOf F.rm
    let d ← F.dst9 ty.opBits F.d9
    let a ← F.src9 sty.opBits F.a9
    F.align (d.aligned ty.opBits && a.aligned sty.opBits)
    pure (Instr.fcvti g ty sty rm d a)) = _
  simp only [hd, ha, hb, hC, ht, hr, hf, hm, Fields.guard_spec h0 hg, Fields.tyIn_spec h1, Nat.mod_eq_of_lt (Ty.code_lt sty),
    Ty.code_lt sty, Fields.tyIn_spec h2, rmOf_code rm, Fields.dst9_spec h3.1, h3.2, Fields.src9_spec h4.1, h4.2, true_and,
      and_true, ok_bind, Fields.field, Fields.align, Bool.and_self, decide_true, if_true, and_self]
  rfl

theorem icvtf (g : Guard) (ty sty : Ty) (rm : Rm) (d : Dst) (a : Src) : Statement (.icvtf g ty sty rm d a) := by
  intro h c' ws e tail
  replace h : (g.ok && ([.f64, .f32, .f16, .bf16]).contains ty && ([.i8, .i16, .i32, .i64, .n8, .n16, .n32, .n64]).contains
    sty && d.ok9 ty.opBits && a.ok9 sty.opBits) = true := h
  simp only [Bool.and_eq_true] at h
  obtain ⟨⟨⟨⟨h0, h1⟩, h2⟩, h3⟩, h4⟩ := h
  simp only [Dst.ok9, Bool.and_eq_true] at h3
  simp only [Src.ok9, Bool.and_eq_true] at h4
  cases e
  refine decode_L (Guard.code_lt h0) (Dst.code9_spec h3.1).1 (Src.code9_spec h4.1).1 (by decide) (Nat.lt_trans (Ty.code_lt
    sty) (by decide)) (Ty.code_lt ty) (Rm.code_lt rm) (by decide)
    (by decide) fun F hc ho hx hg hd ha hb hC ht hr hf hm => ?_
  refine (decodeFltL_of hc ho hx (by decide)).trans ?_
  change (do
    let g ← F.guard
    F.field (F.b9 = 0 ∧ F.fl = 0 ∧ F.c < 16)
    let ty ← F.tyIn F.ty [.f64, .f32, .f16, .bf16]
    let sty ← F.tyIn (F.c % 16) [.i8, .i16, .i32, .i64, .n8, .n16, .n32, .n64]
    let rm := rmOf F.rm
    let d ← F.dst9 ty.opBits F.d9
    let a ← F.src9 sty.opBits F.a9
    F.align (d.aligned ty.opBits && a.aligned sty.opBits)
    pure (Instr.icvtf g ty sty rm d a)) = _
  simp only [hd, ha, hb, hC, ht, hr, hf, hm, Fields.guard_spec h0 hg, Fields.tyIn_spec h1, Nat.mod_eq_of_lt (Ty.code_lt sty),
    Ty.code_lt sty, Fields.tyIn_spec h2, rmOf_code rm, Fields.dst9_spec h3.1, h3.2, Fields.src9_spec h4.1, h4.2, true_and,
      and_true, ok_bind, Fields.field, Fields.align, Bool.and_self, decide_true, if_true, and_self]
  rfl

theorem fscale (g : Guard) (ty : Ty) (rm : Rm) (d : Dst) (a b : Src) : Statement (.fscale g ty rm d a b) := by
  intro h c' ws e tail
  replace h : (g.ok && ([.f64, .f32]).contains ty && d.ok9 ty.opBits && a.ok9 ty.opBits && b.ok9 32) = true := h
  simp only [Bool.and_eq_true] at h
  obtain ⟨⟨⟨⟨h0, h1⟩, h2⟩, h3⟩, h4⟩ := h
  simp only [Dst.ok9, Bool.and_eq_true] at h2
  simp only [Src.ok9, Bool.and_eq_true] at h3
  simp only [Src.ok9, Bool.and_eq_true] at h4
  cases e
  refine decode_L (Guard.code_lt h0) (Dst.code9_spec h2.1).1 (Src.code9_spec h3.1).1 (Src.code9_spec h4.1).1 (by decide)
    (Ty.code_lt ty) (Rm.code_lt rm) (by decide)
    (by decide) fun F hc ho hx hg hd ha hb hC ht hr hf hm => ?_
  refine (decodeFltL_of hc ho hx (by decide)).trans ?_
  change (do
    let g ← F.guard
    F.field (F.c = 0 ∧ F.fl = 0)
    let ty ← F.tyIn F.ty [.f64, .f32]
    let rm := rmOf F.rm
    let d ← F.dst9 ty.opBits F.d9
    let a ← F.src9 ty.opBits F.a9
    let b ← F.src9 32 F.b9
    F.align (d.aligned ty.opBits && a.aligned ty.opBits)
    pure (Instr.fscale g ty rm d a b)) = _
  simp only [hd, ha, hb, hC, ht, hr, hf, hm, Fields.guard_spec h0 hg, Fields.tyIn_spec h1, rmOf_code rm, Fields.dst9_spec
    h2.1, h2.2, Fields.src9_spec h3.1, h3.2, Fields.src9_spec h4.1, true_and, and_true, ok_bind, Fields.field, Fields.align,
      Bool.and_self, decide_true, if_true, and_self]
  rfl

theorem ffrexp (g : Guard) (ty : Ty) (d : Dst) (a : Src) (c : Dst) : Statement (.ffrexp g ty d a c) := by
  intro h c' ws e tail
  replace h : (g.ok && ([.f64, .f32]).contains ty && d.ok9 ty.opBits && a.ok9 ty.opBits && c.ok9 32) = true := h
  simp only [Bool.and_eq_true] at h
  obtain ⟨⟨⟨⟨h0, h1⟩, h2⟩, h3⟩, h4⟩ := h
  simp only [Dst.ok9, Bool.and_eq_true] at h2
  simp only [Src.ok9, Bool.and_eq_true] at h3
  simp only [Dst.ok9, Bool.and_eq_true] at h4
  cases e
  refine decode_L (Guard.code_lt h0) (Dst.code9_spec h2.1).1 (Src.code9_spec h3.1).1 (by decide) (Dst.code9_spec h4.1).1
    (Ty.code_lt ty) (by decide) (by decide)
    (by decide) fun F hc ho hx hg hd ha hb hC ht hr hf hm => ?_
  refine (decodeFltL_of hc ho hx (by decide)).trans ?_
  change (do
    let g ← F.guard
    F.field (F.b9 = 0 ∧ F.rm = 0 ∧ F.fl = 0)
    let ty ← F.tyIn F.ty [.f64, .f32]
    let d ← F.dst9 ty.opBits F.d9
    let a ← F.src9 ty.opBits F.a9
    let c ← F.dst9 32 F.c
    F.align (d.aligned ty.opBits && a.aligned ty.opBits)
    pure (Instr.ffrexp g ty d a c)) = _
  simp only [hd, ha, hb, hC, ht, hr, hf, hm, Fields.guard_spec h0 hg, Fields.tyIn_spec h1, Fields.dst9_spec h2.1, h2.2,
    Fields.src9_spec h3.1, h3.2, Fields.dst9_spec h4.1, true_and, and_true, ok_bind, Fields.field, Fields.align,
      Bool.and_self, decide_true, if_true, and_self]
  rfl

theorem fpack (g : Guard) (ty sty : Ty) (rm : Rm) (sat : Bool) (d : Dst) (a b : Src) : Statement (.fpack g ty sty rm sat d a
  b) := by
  intro h c' ws e tail
  replace h : (g.ok && ([.e4m3, .e5m2, .e2m1]).contains ty && ([.f32, .bf16]).contains sty && d.ok9 32 && a.ok9 (packBits ty
    sty) && b.ok9 32) = true := h
  simp only [Bool.and_eq_true] at h
  obtain ⟨⟨⟨⟨⟨h0, h1⟩, h2⟩, h3⟩, h4⟩, h5⟩ := h
  simp only [Dst.ok9, Bool.and_eq_true] at h3
  simp only [Src.ok9, Bool.and_eq_true] at h4
  simp only [Src.ok9, Bool.and_eq_true] at h5
  cases e
  refine decode_L (Guard.code_lt h0) (Dst.code9_spec h3.1).1 (Src.code9_spec h4.1).1 (Src.code9_spec h5.1).1 (Nat.lt_trans
    (Ty.code_lt sty) (by decide)) (Ty.code_lt ty) (Rm.code_lt rm) (by cases sat <;> decide)
    (by decide) fun F hc ho hx hg hd ha hb hC ht hr hf hm => ?_
  refine (decodeFltL_of hc ho hx (by decide)).trans ?_
  have f_sat : F.flag 1 = sat := by rw [Fields.flag, hf]; cases sat <;> rfl
  have c0 : ((sat.toNat * 2) = 0 ∨ (sat.toNat * 2) = 2) := by cases sat <;> decide
  change (do
    let g ← F.guard
    F.field ((F.fl = 0 ∨ F.fl = 2) ∧ F.c < 16)
    let ty ← F.tyIn F.ty [.e4m3, .e5m2, .e2m1]
    let sty ← F.tyIn (F.c % 16) [.f32, .bf16]
    let rm := rmOf F.rm
    let sat := F.flag 1
    let d ← F.dst9 32 F.d9
    let a ← F.src9 (packBits ty sty) F.a9
    let b ← F.src9 32 F.b9
    F.align (a.aligned (packBits ty sty))
    pure (Instr.fpack g ty sty rm sat d a b)) = _
  simp only [hd, ha, hb, hC, ht, hr, hf, hm, Fields.guard_spec h0 hg, Fields.tyIn_spec h1, Nat.mod_eq_of_lt (Ty.code_lt sty),
    Ty.code_lt sty, Fields.tyIn_spec h2, rmOf_code rm, f_sat, Fields.dst9_spec h3.1, Fields.src9_spec h4.1, h4.2,
      Fields.src9_spec h5.1, c0, true_and, and_true, ok_bind, Fields.field, Fields.align, Bool.and_self, decide_true,
        if_true, and_self]
  rfl

theorem funpack (g : Guard) (ty sty : Ty) (d : Dst) (a b : Src) : Statement (.funpack g ty sty d a b) := by
  intro h c' ws e tail
  replace h : (g.ok && ([.f32, .bf16]).contains ty && ([.e4m3, .e5m2, .e2m1]).contains sty && d.ok9 (unpackBits ty sty) &&
    a.ok9 32 && b.ok9 32) = true := h
  simp only [Bool.and_eq_true] at h
  obtain ⟨⟨⟨⟨⟨h0, h1⟩, h2⟩, h3⟩, h4⟩, h5⟩ := h
  simp only [Dst.ok9, Bool.and_eq_true] at h3
  simp only [Src.ok9, Bool.and_eq_true] at h4
  simp only [Src.ok9, Bool.and_eq_true] at h5
  cases e
  refine decode_L (Guard.code_lt h0) (Dst.code9_spec h3.1).1 (Src.code9_spec h4.1).1 (Src.code9_spec h5.1).1 (Nat.lt_trans
    (Ty.code_lt sty) (by decide)) (Ty.code_lt ty) (by decide) (by decide)
    (by decide) fun F hc ho hx hg hd ha hb hC ht hr hf hm => ?_
  refine (decodeFltL_of hc ho hx (by decide)).trans ?_
  change (do
    let g ← F.guard
    F.field (F.rm = 0 ∧ F.fl = 0 ∧ F.c < 16)
    let ty ← F.tyIn F.ty [.f32, .bf16]
    let sty ← F.tyIn (F.c % 16) [.e4m3, .e5m2, .e2m1]
    let d ← F.dst9 (unpackBits ty sty) F.d9
    let a ← F.src9 32 F.a9
    let b ← F.src9 32 F.b9
    F.align (d.aligned (unpackBits ty sty))
    pure (Instr.funpack g ty sty d a b)) = _
  simp only [hd, ha, hb, hC, ht, hr, hf, hm, Fields.guard_spec h0 hg, Fields.tyIn_spec h1, Nat.mod_eq_of_lt (Ty.code_lt sty),
    Ty.code_lt sty, Fields.tyIn_spec h2, Fields.dst9_spec h3.1, h3.2, Fields.src9_spec h4.1, Fields.src9_spec h5.1, true_and,
      and_true, ok_bind, Fields.field, Fields.align, Bool.and_self, decide_true, if_true, and_self]
  rfl

theorem fdot2 (g : Guard) (ty : Ty) (rm : Rm) (d : Dst) (a b c : Src) : Statement (.fdot2 g ty rm d a b c) := by
  intro h c' ws e tail
  replace h : (g.ok && ([.f16, .bf16]).contains ty && d.ok9 32 && a.ok9 32 && b.ok9 32 && c.ok9 32) = true := h
  simp only [Bool.and_eq_true] at h
  obtain ⟨⟨⟨⟨⟨h0, h1⟩, h2⟩, h3⟩, h4⟩, h5⟩ := h
  simp only [Dst.ok9, Bool.and_eq_true] at h2
  simp only [Src.ok9, Bool.and_eq_true] at h3
  simp only [Src.ok9, Bool.and_eq_true] at h4
  simp only [Src.ok9, Bool.and_eq_true] at h5
  cases e
  refine decode_L (Guard.code_lt h0) (Dst.code9_spec h2.1).1 (Src.code9_spec h3.1).1 (Src.code9_spec h4.1).1 (Src.code9_spec
    h5.1).1 (Ty.code_lt ty) (Rm.code_lt rm) (by decide)
    (by decide) fun F hc ho hx hg hd ha hb hC ht hr hf hm => ?_
  refine (decodeFltL_of hc ho hx (by decide)).trans ?_
  change (do
    let g ← F.guard
    F.field (F.fl = 0)
    let ty ← F.tyIn F.ty [.f16, .bf16]
    let rm := rmOf F.rm
    let d ← F.dst9 32 F.d9
    let a ← F.src9 32 F.a9
    let b ← F.src9 32 F.b9
    let c ← F.src9 32 F.c
    pure (Instr.fdot2 g ty rm d a b c)) = _
  simp only [hd, ha, hb, hC, ht, hr, hf, hm, Fields.guard_spec h0 hg, Fields.tyIn_spec h1, rmOf_code rm, Fields.dst9_spec
    h2.1, Fields.src9_spec h3.1, Fields.src9_spec h4.1, Fields.src9_spec h5.1, true_and, and_true, ok_bind, Fields.field,
      Fields.align, Bool.and_self, decide_true, if_true, and_self]
  rfl

theorem shflIdx (g : Guard) (d : Dst) (a b : Src) : Statement (.shflIdx g d a b) := by
  intro h c' ws e tail
  replace h : (g.ok && d.ok7 32 && a.ok7 32 && b.ok7 32) = true := h
  simp only [Bool.and_eq_true] at h
  obtain ⟨⟨⟨h0, h1⟩, h2⟩, h3⟩ := h
  simp only [Dst.ok7, Bool.and_eq_true] at h1
  simp only [Src.ok7, Bool.and_eq_true] at h2
  simp only [Src.ok7, Bool.and_eq_true] at h3
  cases e
  refine decode_S (Guard.code_lt h0) (Dst.code7_spec h1.1).1 (Src.code7_spec h2.1).1 (Src.code7_spec h3.1).1 (by decide) fun
    F hc ho hg hd ha hb => ?_
  refine (decodeXl_of hc ho (by decide) (by decide)).trans ?_
  change (do
    let g ← F.guard
    let d ← F.dst7 32 F.d
    let a ← F.src7 32 F.a
    let b ← F.src7 32 F.b
    pure (Instr.shflIdx g d a b)) = _
  simp only [hd, ha, hb, Fields.guard_spec h0 hg, Fields.dst7_spec h1.1, Fields.src7_spec h2.1, Fields.src7_spec h3.1,
    true_and, and_true, ok_bind, Fields.field, Fields.align, Bool.and_self, decide_true, if_true, and_self]
  rfl

theorem shflUp (g : Guard) (d : Dst) (a b : Src) : Statement (.shflUp g d a b) := by
  intro h c' ws e tail
  replace h : (g.ok && d.ok7 32 && a.ok7 32 && b.ok7 32) = true := h
  simp only [Bool.and_eq_true] at h
  obtain ⟨⟨⟨h0, h1⟩, h2⟩, h3⟩ := h
  simp only [Dst.ok7, Bool.and_eq_true] at h1
  simp only [Src.ok7, Bool.and_eq_true] at h2
  simp only [Src.ok7, Bool.and_eq_true] at h3
  cases e
  refine decode_S (Guard.code_lt h0) (Dst.code7_spec h1.1).1 (Src.code7_spec h2.1).1 (Src.code7_spec h3.1).1 (by decide) fun
    F hc ho hg hd ha hb => ?_
  refine (decodeXl_of hc ho (by decide) (by decide)).trans ?_
  change (do
    let g ← F.guard
    let d ← F.dst7 32 F.d
    let a ← F.src7 32 F.a
    let b ← F.src7 32 F.b
    pure (Instr.shflUp g d a b)) = _
  simp only [hd, ha, hb, Fields.guard_spec h0 hg, Fields.dst7_spec h1.1, Fields.src7_spec h2.1, Fields.src7_spec h3.1,
    true_and, and_true, ok_bind, Fields.field, Fields.align, Bool.and_self, decide_true, if_true, and_self]
  rfl

theorem shflDn (g : Guard) (d : Dst) (a b : Src) : Statement (.shflDn g d a b) := by
  intro h c' ws e tail
  replace h : (g.ok && d.ok7 32 && a.ok7 32 && b.ok7 32) = true := h
  simp only [Bool.and_eq_true] at h
  obtain ⟨⟨⟨h0, h1⟩, h2⟩, h3⟩ := h
  simp only [Dst.ok7, Bool.and_eq_true] at h1
  simp only [Src.ok7, Bool.and_eq_true] at h2
  simp only [Src.ok7, Bool.and_eq_true] at h3
  cases e
  refine decode_S (Guard.code_lt h0) (Dst.code7_spec h1.1).1 (Src.code7_spec h2.1).1 (Src.code7_spec h3.1).1 (by decide) fun
    F hc ho hg hd ha hb => ?_
  refine (decodeXl_of hc ho (by decide) (by decide)).trans ?_
  change (do
    let g ← F.guard
    let d ← F.dst7 32 F.d
    let a ← F.src7 32 F.a
    let b ← F.src7 32 F.b
    pure (Instr.shflDn g d a b)) = _
  simp only [hd, ha, hb, Fields.guard_spec h0 hg, Fields.dst7_spec h1.1, Fields.src7_spec h2.1, Fields.src7_spec h3.1,
    true_and, and_true, ok_bind, Fields.field, Fields.align, Bool.and_self, decide_true, if_true, and_self]
  rfl

theorem shflXor (g : Guard) (d : Dst) (a b : Src) : Statement (.shflXor g d a b) := by
  intro h c' ws e tail
  replace h : (g.ok && d.ok7 32 && a.ok7 32 && b.ok7 32) = true := h
  simp only [Bool.and_eq_true] at h
  obtain ⟨⟨⟨h0, h1⟩, h2⟩, h3⟩ := h
  simp only [Dst.ok7, Bool.and_eq_true] at h1
  simp only [Src.ok7, Bool.and_eq_true] at h2
  simp only [Src.ok7, Bool.and_eq_true] at h3
  cases e
  refine decode_S (Guard.code_lt h0) (Dst.code7_spec h1.1).1 (Src.code7_spec h2.1).1 (Src.code7_spec h3.1).1 (by decide) fun
    F hc ho hg hd ha hb => ?_
  refine (decodeXl_of hc ho (by decide) (by decide)).trans ?_
  change (do
    let g ← F.guard
    let d ← F.dst7 32 F.d
    let a ← F.src7 32 F.a
    let b ← F.src7 32 F.b
    pure (Instr.shflXor g d a b)) = _
  simp only [hd, ha, hb, Fields.guard_spec h0 hg, Fields.dst7_spec h1.1, Fields.src7_spec h2.1, Fields.src7_spec h3.1,
    true_and, and_true, ok_bind, Fields.field, Fields.align, Bool.and_self, decide_true, if_true, and_self]
  rfl

theorem voteAll (g : Guard) (d a : Nat) : Statement (.voteAll g d a) := by
  intro h c' ws e tail
  replace h : (g.ok && decide (d < 12) && decide (a < 12)) = true := h
  simp only [Bool.and_eq_true] at h
  obtain ⟨⟨h0, h1⟩, h2⟩ := h
  simp only [decide_eq_true_eq] at h1
  simp only [decide_eq_true_eq] at h2
  cases e
  refine decode_S (Guard.code_lt h0) (by omega) (by omega) (by decide) (by decide) fun F hc ho hg hd ha hb => ?_
  refine (decodeXl_of hc ho (by decide) (by decide)).trans ?_
  change (do
    let g ← F.guard
    F.field (F.b = 0)
    let d ← F.pred F.d
    let a ← F.pred F.a
    pure (Instr.voteAll g d a)) = _
  simp only [hd, ha, hb, Fields.guard_spec h0 hg, Fields.pred_spec h1, Fields.pred_spec h2, true_and, and_true, ok_bind,
    Fields.field, Fields.align, Bool.and_self, decide_true, if_true, and_self]
  rfl

theorem voteAny (g : Guard) (d a : Nat) : Statement (.voteAny g d a) := by
  intro h c' ws e tail
  replace h : (g.ok && decide (d < 12) && decide (a < 12)) = true := h
  simp only [Bool.and_eq_true] at h
  obtain ⟨⟨h0, h1⟩, h2⟩ := h
  simp only [decide_eq_true_eq] at h1
  simp only [decide_eq_true_eq] at h2
  cases e
  refine decode_S (Guard.code_lt h0) (by omega) (by omega) (by decide) (by decide) fun F hc ho hg hd ha hb => ?_
  refine (decodeXl_of hc ho (by decide) (by decide)).trans ?_
  change (do
    let g ← F.guard
    F.field (F.b = 0)
    let d ← F.pred F.d
    let a ← F.pred F.a
    pure (Instr.voteAny g d a)) = _
  simp only [hd, ha, hb, Fields.guard_spec h0 hg, Fields.pred_spec h1, Fields.pred_spec h2, true_and, and_true, ok_bind,
    Fields.field, Fields.align, Bool.and_self, decide_true, if_true, and_self]
  rfl

theorem voteBallot (g : Guard) (d : Dst) (a : Nat) : Statement (.voteBallot g d a) := by
  intro h c' ws e tail
  replace h : (g.ok && d.ok7 32 && decide (a < 12)) = true := h
  simp only [Bool.and_eq_true] at h
  obtain ⟨⟨h0, h1⟩, h2⟩ := h
  simp only [Dst.ok7, Bool.and_eq_true] at h1
  simp only [decide_eq_true_eq] at h2
  cases e
  refine decode_S (Guard.code_lt h0) (Dst.code7_spec h1.1).1 (by omega) (by decide) (by decide) fun F hc ho hg hd ha hb => ?_
  refine (decodeXl_of hc ho (by decide) (by decide)).trans ?_
  change (do
    let g ← F.guard
    F.field (F.b = 0)
    let d ← F.dst7 32 F.d
    let a ← F.pred F.a
    pure (Instr.voteBallot g d a)) = _
  simp only [hd, ha, hb, Fields.guard_spec h0 hg, Fields.dst7_spec h1.1, Fields.pred_spec h2, true_and, and_true, ok_bind,
    Fields.field, Fields.align, Bool.and_self, decide_true, if_true, and_self]
  rfl

theorem voteEq (g : Guard) (d : Nat) (a : Src) : Statement (.voteEq g d a) := by
  intro h c' ws e tail
  replace h : (g.ok && decide (d < 12) && a.ok7 32) = true := h
  simp only [Bool.and_eq_true] at h
  obtain ⟨⟨h0, h1⟩, h2⟩ := h
  simp only [decide_eq_true_eq] at h1
  simp only [Src.ok7, Bool.and_eq_true] at h2
  cases e
  refine decode_S (Guard.code_lt h0) (by omega) (Src.code7_spec h2.1).1 (by decide) (by decide) fun F hc ho hg hd ha hb => ?_
  refine (decodeXl_of hc ho (by decide) (by decide)).trans ?_
  change (do
    let g ← F.guard
    F.field (F.b = 0)
    let d ← F.pred F.d
    let a ← F.src7 32 F.a
    pure (Instr.voteEq g d a)) = _
  simp only [hd, ha, hb, Fields.guard_spec h0 hg, Fields.pred_spec h1, Fields.src7_spec h2.1, true_and, and_true, ok_bind,
    Fields.field, Fields.align, Bool.and_self, decide_true, if_true, and_self]
  rfl

theorem lbcast (g : Guard) (d : Dst) (a b : Src) : Statement (.lbcast g d a b) := by
  intro h c' ws e tail
  replace h : (g.ok && d.ok7 32 && a.ok7 32 && b.ok7 32) = true := h
  simp only [Bool.and_eq_true] at h
  obtain ⟨⟨⟨h0, h1⟩, h2⟩, h3⟩ := h
  simp only [Dst.ok7, Bool.and_eq_true] at h1
  simp only [Src.ok7, Bool.and_eq_true] at h2
  simp only [Src.ok7, Bool.and_eq_true] at h3
  cases e
  refine decode_S (Guard.code_lt h0) (Dst.code7_spec h1.1).1 (Src.code7_spec h2.1).1 (Src.code7_spec h3.1).1 (by decide) fun
    F hc ho hg hd ha hb => ?_
  refine (decodeXl_of hc ho (by decide) (by decide)).trans ?_
  change (do
    let g ← F.guard
    let d ← F.dst7 32 F.d
    let a ← F.src7 32 F.a
    let b ← F.src7 32 F.b
    pure (Instr.lbcast g d a b)) = _
  simp only [hd, ha, hb, Fields.guard_spec h0 hg, Fields.dst7_spec h1.1, Fields.src7_spec h2.1, Fields.src7_spec h3.1,
    true_and, and_true, ok_bind, Fields.field, Fields.align, Bool.and_self, decide_true, if_true, and_self]
  rfl

theorem matchLanes (g : Guard) (d : Dst) (a : Src) : Statement (.matchLanes g d a) := by
  intro h c' ws e tail
  replace h : (g.ok && d.ok7 32 && a.ok7 32) = true := h
  simp only [Bool.and_eq_true] at h
  obtain ⟨⟨h0, h1⟩, h2⟩ := h
  simp only [Dst.ok7, Bool.and_eq_true] at h1
  simp only [Src.ok7, Bool.and_eq_true] at h2
  cases e
  refine decode_S (Guard.code_lt h0) (Dst.code7_spec h1.1).1 (Src.code7_spec h2.1).1 (by decide) (by decide) fun F hc ho hg
    hd ha hb => ?_
  refine (decodeXl_of hc ho (by decide) (by decide)).trans ?_
  change (do
    let g ← F.guard
    F.field (F.b = 0)
    let d ← F.dst7 32 F.d
    let a ← F.src7 32 F.a
    pure (Instr.matchLanes g d a)) = _
  simp only [hd, ha, hb, Fields.guard_spec h0 hg, Fields.dst7_spec h1.1, Fields.src7_spec h2.1, true_and, and_true, ok_bind,
    Fields.field, Fields.align, Bool.and_self, decide_true, if_true, and_self]
  rfl

theorem redAddI32 (g : Guard) (d : Dst) (a : Src) : Statement (.redAddI32 g d a) := by
  intro h c' ws e tail
  replace h : (g.ok && d.ok7 32 && a.ok7 32) = true := h
  simp only [Bool.and_eq_true] at h
  obtain ⟨⟨h0, h1⟩, h2⟩ := h
  simp only [Dst.ok7, Bool.and_eq_true] at h1
  simp only [Src.ok7, Bool.and_eq_true] at h2
  cases e
  refine decode_S (Guard.code_lt h0) (Dst.code7_spec h1.1).1 (Src.code7_spec h2.1).1 (by decide) (by decide) fun F hc ho hg
    hd ha hb => ?_
  refine (decodeXl_of hc ho (by decide) (by decide)).trans ?_
  change (do
    let g ← F.guard
    F.field (F.b = 0)
    let d ← F.dst7 32 F.d
    let a ← F.src7 32 F.a
    pure (Instr.redAddI32 g d a)) = _
  simp only [hd, ha, hb, Fields.guard_spec h0 hg, Fields.dst7_spec h1.1, Fields.src7_spec h2.1, true_and, and_true, ok_bind,
    Fields.field, Fields.align, Bool.and_self, decide_true, if_true, and_self]
  rfl

theorem redAddF32 (g : Guard) (d : Dst) (a : Src) : Statement (.redAddF32 g d a) := by
  intro h c' ws e tail
  replace h : (g.ok && d.ok7 32 && a.ok7 32) = true := h
  simp only [Bool.and_eq_true] at h
  obtain ⟨⟨h0, h1⟩, h2⟩ := h
  simp only [Dst.ok7, Bool.and_eq_true] at h1
  simp only [Src.ok7, Bool.and_eq_true] at h2
  cases e
  refine decode_S (Guard.code_lt h0) (Dst.code7_spec h1.1).1 (Src.code7_spec h2.1).1 (by decide) (by decide) fun F hc ho hg
    hd ha hb => ?_
  refine (decodeXl_of hc ho (by decide) (by decide)).trans ?_
  change (do
    let g ← F.guard
    F.field (F.b = 0)
    let d ← F.dst7 32 F.d
    let a ← F.src7 32 F.a
    pure (Instr.redAddF32 g d a)) = _
  simp only [hd, ha, hb, Fields.guard_spec h0 hg, Fields.dst7_spec h1.1, Fields.src7_spec h2.1, true_and, and_true, ok_bind,
    Fields.field, Fields.align, Bool.and_self, decide_true, if_true, and_self]
  rfl

theorem scanAddI32 (g : Guard) (d : Dst) (a : Src) : Statement (.scanAddI32 g d a) := by
  intro h c' ws e tail
  replace h : (g.ok && d.ok7 32 && a.ok7 32) = true := h
  simp only [Bool.and_eq_true] at h
  obtain ⟨⟨h0, h1⟩, h2⟩ := h
  simp only [Dst.ok7, Bool.and_eq_true] at h1
  simp only [Src.ok7, Bool.and_eq_true] at h2
  cases e
  refine decode_S (Guard.code_lt h0) (Dst.code7_spec h1.1).1 (Src.code7_spec h2.1).1 (by decide) (by decide) fun F hc ho hg
    hd ha hb => ?_
  refine (decodeXl_of hc ho (by decide) (by decide)).trans ?_
  change (do
    let g ← F.guard
    F.field (F.b = 0)
    let d ← F.dst7 32 F.d
    let a ← F.src7 32 F.a
    pure (Instr.scanAddI32 g d a)) = _
  simp only [hd, ha, hb, Fields.guard_spec h0 hg, Fields.dst7_spec h1.1, Fields.src7_spec h2.1, true_and, and_true, ok_bind,
    Fields.field, Fields.align, Bool.and_self, decide_true, if_true, and_self]
  rfl

theorem wadd (g : Guard) (d : Dst) (a b : Src) : Statement (.wadd g d a b) := by
  intro h c' ws e tail
  replace h : (g.ok && d.ok7 32 && a.ok7 32 && b.ok7 32) = true := h
  simp only [Bool.and_eq_true] at h
  obtain ⟨⟨⟨h0, h1⟩, h2⟩, h3⟩ := h
  simp only [Dst.ok7, Bool.and_eq_true] at h1
  simp only [Src.ok7, Bool.and_eq_true] at h2
  simp only [Src.ok7, Bool.and_eq_true] at h3
  cases e
  refine decode_S (Guard.code_lt h0) (Dst.code7_spec h1.1).1 (Src.code7_spec h2.1).1 (Src.code7_spec h3.1).1 (by decide) fun
    F hc ho hg hd ha hb => ?_
  refine (decodeXl_of hc ho (by decide) (by decide)).trans ?_
  change (do
    let g ← F.guard
    let d ← F.dst7 32 F.d
    let a ← F.src7 32 F.a
    let b ← F.src7 32 F.b
    pure (Instr.wadd g d a b)) = _
  simp only [hd, ha, hb, Fields.guard_spec h0 hg, Fields.dst7_spec h1.1, Fields.src7_spec h2.1, Fields.src7_spec h3.1,
    true_and, and_true, ok_bind, Fields.field, Fields.align, Bool.and_self, decide_true, if_true, and_self]
  rfl

theorem wsub (g : Guard) (d : Dst) (a b : Src) : Statement (.wsub g d a b) := by
  intro h c' ws e tail
  replace h : (g.ok && d.ok7 32 && a.ok7 32 && b.ok7 32) = true := h
  simp only [Bool.and_eq_true] at h
  obtain ⟨⟨⟨h0, h1⟩, h2⟩, h3⟩ := h
  simp only [Dst.ok7, Bool.and_eq_true] at h1
  simp only [Src.ok7, Bool.and_eq_true] at h2
  simp only [Src.ok7, Bool.and_eq_true] at h3
  cases e
  refine decode_S (Guard.code_lt h0) (Dst.code7_spec h1.1).1 (Src.code7_spec h2.1).1 (Src.code7_spec h3.1).1 (by decide) fun
    F hc ho hg hd ha hb => ?_
  refine (decodeXl_of hc ho (by decide) (by decide)).trans ?_
  change (do
    let g ← F.guard
    let d ← F.dst7 32 F.d
    let a ← F.src7 32 F.a
    let b ← F.src7 32 F.b
    pure (Instr.wsub g d a b)) = _
  simp only [hd, ha, hb, Fields.guard_spec h0 hg, Fields.dst7_spec h1.1, Fields.src7_spec h2.1, Fields.src7_spec h3.1,
    true_and, and_true, ok_bind, Fields.field, Fields.align, Bool.and_self, decide_true, if_true, and_self]
  rfl

theorem wneg (g : Guard) (d : Dst) (a : Src) : Statement (.wneg g d a) := by
  intro h c' ws e tail
  replace h : (g.ok && d.ok7 32 && a.ok7 32) = true := h
  simp only [Bool.and_eq_true] at h
  obtain ⟨⟨h0, h1⟩, h2⟩ := h
  simp only [Dst.ok7, Bool.and_eq_true] at h1
  simp only [Src.ok7, Bool.and_eq_true] at h2
  cases e
  refine decode_S (Guard.code_lt h0) (Dst.code7_spec h1.1).1 (Src.code7_spec h2.1).1 (by decide) (by decide) fun F hc ho hg
    hd ha hb => ?_
  refine (decodeXl_of hc ho (by decide) (by decide)).trans ?_
  change (do
    let g ← F.guard
    F.field (F.b = 0)
    let d ← F.dst7 32 F.d
    let a ← F.src7 32 F.a
    pure (Instr.wneg g d a)) = _
  simp only [hd, ha, hb, Fields.guard_spec h0 hg, Fields.dst7_spec h1.1, Fields.src7_spec h2.1, true_and, and_true, ok_bind,
    Fields.field, Fields.align, Bool.and_self, decide_true, if_true, and_self]
  rfl

theorem wshl (g : Guard) (d : Dst) (a b : Src) : Statement (.wshl g d a b) := by
  intro h c' ws e tail
  replace h : (g.ok && d.ok7 32 && a.ok7 32 && b.ok7 32) = true := h
  simp only [Bool.and_eq_true] at h
  obtain ⟨⟨⟨h0, h1⟩, h2⟩, h3⟩ := h
  simp only [Dst.ok7, Bool.and_eq_true] at h1
  simp only [Src.ok7, Bool.and_eq_true] at h2
  simp only [Src.ok7, Bool.and_eq_true] at h3
  cases e
  refine decode_S (Guard.code_lt h0) (Dst.code7_spec h1.1).1 (Src.code7_spec h2.1).1 (Src.code7_spec h3.1).1 (by decide) fun
    F hc ho hg hd ha hb => ?_
  refine (decodeXl_of hc ho (by decide) (by decide)).trans ?_
  change (do
    let g ← F.guard
    let d ← F.dst7 32 F.d
    let a ← F.src7 32 F.a
    let b ← F.src7 32 F.b
    pure (Instr.wshl g d a b)) = _
  simp only [hd, ha, hb, Fields.guard_spec h0 hg, Fields.dst7_spec h1.1, Fields.src7_spec h2.1, Fields.src7_spec h3.1,
    true_and, and_true, ok_bind, Fields.field, Fields.align, Bool.and_self, decide_true, if_true, and_self]
  rfl

theorem wshr (g : Guard) (d : Dst) (a b : Src) : Statement (.wshr g d a b) := by
  intro h c' ws e tail
  replace h : (g.ok && d.ok7 32 && a.ok7 32 && b.ok7 32) = true := h
  simp only [Bool.and_eq_true] at h
  obtain ⟨⟨⟨h0, h1⟩, h2⟩, h3⟩ := h
  simp only [Dst.ok7, Bool.and_eq_true] at h1
  simp only [Src.ok7, Bool.and_eq_true] at h2
  simp only [Src.ok7, Bool.and_eq_true] at h3
  cases e
  refine decode_S (Guard.code_lt h0) (Dst.code7_spec h1.1).1 (Src.code7_spec h2.1).1 (Src.code7_spec h3.1).1 (by decide) fun
    F hc ho hg hd ha hb => ?_
  refine (decodeXl_of hc ho (by decide) (by decide)).trans ?_
  change (do
    let g ← F.guard
    let d ← F.dst7 32 F.d
    let a ← F.src7 32 F.a
    let b ← F.src7 32 F.b
    pure (Instr.wshr g d a b)) = _
  simp only [hd, ha, hb, Fields.guard_spec h0 hg, Fields.dst7_spec h1.1, Fields.src7_spec h2.1, Fields.src7_spec h3.1,
    true_and, and_true, ok_bind, Fields.field, Fields.align, Bool.and_self, decide_true, if_true, and_self]
  rfl

theorem wsign (g : Guard) (d : Dst) (a : Src) : Statement (.wsign g d a) := by
  intro h c' ws e tail
  replace h : (g.ok && d.ok7 32 && a.ok7 32) = true := h
  simp only [Bool.and_eq_true] at h
  obtain ⟨⟨h0, h1⟩, h2⟩ := h
  simp only [Dst.ok7, Bool.and_eq_true] at h1
  simp only [Src.ok7, Bool.and_eq_true] at h2
  cases e
  refine decode_S (Guard.code_lt h0) (Dst.code7_spec h1.1).1 (Src.code7_spec h2.1).1 (by decide) (by decide) fun F hc ho hg
    hd ha hb => ?_
  refine (decodeXl_of hc ho (by decide) (by decide)).trans ?_
  change (do
    let g ← F.guard
    F.field (F.b = 0)
    let d ← F.dst7 32 F.d
    let a ← F.src7 32 F.a
    pure (Instr.wsign g d a)) = _
  simp only [hd, ha, hb, Fields.guard_spec h0 hg, Fields.dst7_spec h1.1, Fields.src7_spec h2.1, true_and, and_true, ok_bind,
    Fields.field, Fields.align, Bool.and_self, decide_true, if_true, and_self]
  rfl

theorem wcmp (g : Guard) (d : Dst) (a b : Src) : Statement (.wcmp g d a b) := by
  intro h c' ws e tail
  replace h : (g.ok && d.ok7 32 && a.ok7 32 && b.ok7 32) = true := h
  simp only [Bool.and_eq_true] at h
  obtain ⟨⟨⟨h0, h1⟩, h2⟩, h3⟩ := h
  simp only [Dst.ok7, Bool.and_eq_true] at h1
  simp only [Src.ok7, Bool.and_eq_true] at h2
  simp only [Src.ok7, Bool.and_eq_true] at h3
  cases e
  refine decode_S (Guard.code_lt h0) (Dst.code7_spec h1.1).1 (Src.code7_spec h2.1).1 (Src.code7_spec h3.1).1 (by decide) fun
    F hc ho hg hd ha hb => ?_
  refine (decodeXl_of hc ho (by decide) (by decide)).trans ?_
  change (do
    let g ← F.guard
    let d ← F.dst7 32 F.d
    let a ← F.src7 32 F.a
    let b ← F.src7 32 F.b
    pure (Instr.wcmp g d a b)) = _
  simp only [hd, ha, hb, Fields.guard_spec h0 hg, Fields.dst7_spec h1.1, Fields.src7_spec h2.1, Fields.src7_spec h3.1,
    true_and, and_true, ok_bind, Fields.field, Fields.align, Bool.and_self, decide_true, if_true, and_self]
  rfl

theorem wclr (g : Guard) (d : Dst) : Statement (.wclr g d) := by
  intro h c' ws e tail
  replace h : (g.ok && d.ok7 32) = true := h
  simp only [Bool.and_eq_true] at h
  obtain ⟨h0, h1⟩ := h
  simp only [Dst.ok7, Bool.and_eq_true] at h1
  cases e
  refine decode_S (Guard.code_lt h0) (Dst.code7_spec h1.1).1 (by decide) (by decide) (by decide) fun F hc ho hg hd ha hb => ?_
  refine (decodeXl_of hc ho (by decide) (by decide)).trans ?_
  change (do
    let g ← F.guard
    F.field (F.a = 0 ∧ F.b = 0)
    let d ← F.dst7 32 F.d
    pure (Instr.wclr g d)) = _
  simp only [hd, ha, hb, Fields.guard_spec h0 hg, Fields.dst7_spec h1.1, true_and, and_true, ok_bind, Fields.field,
    Fields.align, Bool.and_self, decide_true, if_true, and_self]
  rfl

theorem zip (g : Guard) (ty : Ty) (k : Nat) (d : Dst) (a : Src) : Statement (.zip g ty k d a) := by
  intro h c' ws e tail
  replace h : (g.ok && ([.n8, .n16, .n32]).contains ty && waysOk k && d.okGroup k && a.okGroup k) = true := h
  simp only [Bool.and_eq_true] at h
  obtain ⟨⟨⟨⟨h0, h1⟩, h2⟩, h3⟩, h4⟩ := h
  cases e
  refine decode_L (Guard.code_lt h0) (Dst.code9_group_lt h2 h3) (Src.code9_group_lt h2 h4) (by decide) (by decide)
    (Ty.code_lt ty) (by decide) (by simp only [waysOk, decide_eq_true_eq] at h2; omega)
    (by decide) fun F hc ho hx hg hd ha hb hC ht hr hf hm => ?_
  refine (decodeXlL_of hc ho hx (by decide)).trans ?_
  change (do
    let g ← F.guard
    F.field (F.b9 = 0 ∧ F.c = 0 ∧ F.rm = 0)
    let ty ← F.tyIn F.ty [.n8, .n16, .n32]
    let k ← F.ways
    let d ← F.dstGroup k
    let a ← F.srcGroup k
    pure (Instr.zip g ty k d a)) = _
  simp only [hd, ha, hb, hC, ht, hr, hf, hm, Fields.guard_spec h0 hg, Fields.tyIn_spec h1, Fields.ways_spec h2 hf,
    Fields.dstGroup_spec h2 h3 hd, Fields.srcGroup_spec h2 h4 ha, true_and, and_true, ok_bind, Fields.field, Fields.align,
      Bool.and_self, decide_true, if_true, and_self]
  rfl

theorem unzip (g : Guard) (ty : Ty) (k : Nat) (d : Dst) (a : Src) : Statement (.unzip g ty k d a) := by
  intro h c' ws e tail
  replace h : (g.ok && ([.n8, .n16, .n32]).contains ty && waysOk k && d.okGroup k && a.okGroup k) = true := h
  simp only [Bool.and_eq_true] at h
  obtain ⟨⟨⟨⟨h0, h1⟩, h2⟩, h3⟩, h4⟩ := h
  cases e
  refine decode_L (Guard.code_lt h0) (Dst.code9_group_lt h2 h3) (Src.code9_group_lt h2 h4) (by decide) (by decide)
    (Ty.code_lt ty) (by decide) (by simp only [waysOk, decide_eq_true_eq] at h2; omega)
    (by decide) fun F hc ho hx hg hd ha hb hC ht hr hf hm => ?_
  refine (decodeXlL_of hc ho hx (by decide)).trans ?_
  change (do
    let g ← F.guard
    F.field (F.b9 = 0 ∧ F.c = 0 ∧ F.rm = 0)
    let ty ← F.tyIn F.ty [.n8, .n16, .n32]
    let k ← F.ways
    let d ← F.dstGroup k
    let a ← F.srcGroup k
    pure (Instr.unzip g ty k d a)) = _
  simp only [hd, ha, hb, hC, ht, hr, hf, hm, Fields.guard_spec h0 hg, Fields.tyIn_spec h1, Fields.ways_spec h2 hf,
    Fields.dstGroup_spec h2 h3 hd, Fields.srcGroup_spec h2 h4 ha, true_and, and_true, ok_bind, Fields.field, Fields.align,
      Bool.and_self, decide_true, if_true, and_self]
  rfl

theorem bind (g : Guard) (ty : Ty) (n : Nat) : Statement (.bind g ty n) := by
  intro h c' ws e tail
  replace h : (g.ok && ([.n32, .n64]).contains ty && decide (n < 3)) = true := h
  simp only [Bool.and_eq_true] at h
  obtain ⟨⟨h0, h1⟩, h2⟩ := h
  simp only [decide_eq_true_eq] at h2
  cases e
  refine decode_L (Guard.code_lt h0) (by decide) (by decide) (by decide) (by omega) (Ty.code_lt ty) (by decide) (by decide)
    (by decide) fun F hc ho hx hg hd ha hb hC ht hr hf hm => ?_
  refine (decodeXlL_of hc ho hx (by decide)).trans ?_
  change (do
    let g ← F.guard
    F.field (F.d9 = 0 ∧ F.a9 = 0 ∧ F.b9 = 0 ∧ F.rm = 0 ∧ F.fl = 0 ∧ F.c < 3)
    let ty ← F.tyIn F.ty [.n32, .n64]
    let n := F.c
    pure (Instr.bind g ty n)) = _
  simp only [hd, ha, hb, hC, ht, hr, hf, hm, Fields.guard_spec h0 hg, Fields.tyIn_spec h1, h2, true_and, and_true, ok_bind,
    Fields.field, Fields.align, Bool.and_self, decide_true, if_true, and_self]
  rfl

theorem unbind (g : Guard) : Statement (.unbind g) := by
  intro h c' ws e tail
  replace h : (g.ok) = true := h
  have h0 := h
  cases e
  refine decode_L (Guard.code_lt h0) (by decide) (by decide) (by decide) (by decide) (by decide) (by decide) (by decide)
    (by decide) fun F hc ho hx hg hd ha hb hC ht hr hf hm => ?_
  refine (decodeXlL_of hc ho hx (by decide)).trans ?_
  change (do
    let g ← F.guard
    F.field (F.d9 = 0 ∧ F.a9 = 0 ∧ F.b9 = 0 ∧ F.c = 0 ∧ F.mod = 0)
    pure (Instr.unbind g)) = _
  simp only [hd, ha, hb, hC, ht, hr, hf, hm, Fields.guard_spec h0 hg, true_and, and_true, ok_bind, Fields.field,
    Fields.align, Bool.and_self, decide_true, if_true, and_self]
  rfl

theorem wmacF64 (g : Guard) (d : Dst) (a b : Src) : Statement (.wmacF64 g d a b) := by
  intro h c' ws e tail
  replace h : (g.ok && d.ok9 32 && a.ok9 64 && b.ok9 64) = true := h
  simp only [Bool.and_eq_true] at h
  obtain ⟨⟨⟨h0, h1⟩, h2⟩, h3⟩ := h
  simp only [Dst.ok9, Bool.and_eq_true] at h1
  simp only [Src.ok9, Bool.and_eq_true] at h2
  simp only [Src.ok9, Bool.and_eq_true] at h3
  cases e
  refine decode_L (Guard.code_lt h0) (Dst.code9_spec h1.1).1 (Src.code9_spec h2.1).1 (Src.code9_spec h3.1).1 (by decide) (by
    decide) (by decide) (by decide)
    (by decide) fun F hc ho hx hg hd ha hb hC ht hr hf hm => ?_
  refine (decodeXlL_of hc ho hx (by decide)).trans ?_
  have t1 : tyOf F.ty = Ty.f64 := by rw [ht]; rfl
  change (do
    let g ← F.guard
    F.field (F.c = 0 ∧ F.rm = 0 ∧ F.fl = 0 ∧ tyOf F.ty = Ty.f64)
    let d ← F.dst9 32 F.d9
    let a ← F.src9 64 F.a9
    let b ← F.src9 64 F.b9
    F.align (a.aligned 64 && b.aligned 64)
    pure (Instr.wmacF64 g d a b)) = _
  simp only [hd, ha, hb, hC, ht, hr, hf, hm, Fields.guard_spec h0 hg, Fields.dst9_spec h1.1, Fields.src9_spec h2.1, h2.2,
    Fields.src9_spec h3.1, h3.2, t1, true_and, and_true, ok_bind, Fields.field, Fields.align, Bool.and_self, decide_true,
      if_true, and_self]
  rfl

theorem wnorm (g : Guard) (rm : Rm) (d : Dst) (a : Src) : Statement (.wnorm g rm d a) := by
  intro h c' ws e tail
  replace h : (g.ok && d.ok9 64 && a.ok9 32) = true := h
  simp only [Bool.and_eq_true] at h
  obtain ⟨⟨h0, h1⟩, h2⟩ := h
  simp only [Dst.ok9, Bool.and_eq_true] at h1
  simp only [Src.ok9, Bool.and_eq_true] at h2
  cases e
  refine decode_L (Guard.code_lt h0) (Dst.code9_spec h1.1).1 (Src.code9_spec h2.1).1 (by decide) (by decide) (by decide)
    (Rm.code_lt rm) (by decide)
    (by decide) fun F hc ho hx hg hd ha hb hC ht hr hf hm => ?_
  refine (decodeXlL_of hc ho hx (by decide)).trans ?_
  have t1 : tyOf F.ty = Ty.f64 := by rw [ht]; rfl
  change (do
    let g ← F.guard
    F.field (F.b9 = 0 ∧ F.c = 0 ∧ F.fl = 0 ∧ tyOf F.ty = Ty.f64)
    let rm := rmOf F.rm
    let d ← F.dst9 64 F.d9
    let a ← F.src9 32 F.a9
    F.align (d.aligned 64)
    pure (Instr.wnorm g rm d a)) = _
  simp only [hd, ha, hb, hC, ht, hr, hf, hm, Fields.guard_spec h0 hg, rmOf_code rm, Fields.dst9_spec h1.1, h1.2,
    Fields.src9_spec h2.1, t1, true_and, and_true, ok_bind, Fields.field, Fields.align, Bool.and_self, decide_true, if_true,
      and_self]
  rfl

theorem wwin (g : Guard) (a : Src) (c : Int) : Statement (.wwin g a c) := by
  intro h c' ws e tail
  replace h : (g.ok && a.ok9 32 && decide (-256 ≤ c ∧ c ≤ 255)) = true := h
  simp only [Bool.and_eq_true] at h
  obtain ⟨⟨h0, h1⟩, h2⟩ := h
  simp only [Src.ok9, Bool.and_eq_true] at h1
  simp only [decide_eq_true_eq] at h2
  have hs : signed 9 (unsigned 9 c) = c := signed_unsigned (by decide) (by simpa using h2.1) (by have := h2.2; simp; omega)
  cases e
  refine decode_L (Guard.code_lt h0) (by decide) (Src.code9_spec h1.1).1 (by decide) (unsigned_lt 9 c) (by decide) (by
    decide) (by decide)
    (by decide) fun F hc ho hx hg hd ha hb hC ht hr hf hm => ?_
  refine (decodeXlL_of hc ho hx (by decide)).trans ?_
  change (do
    let g ← F.guard
    F.field (F.d9 = 0 ∧ F.b9 = 0 ∧ F.mod = 0)
    let c := signed 9 F.c
    let a ← F.src9 32 F.a9
    pure (Instr.wwin g a c)) = _
  simp only [hd, ha, hb, hC, ht, hr, hf, hm, Fields.guard_spec h0 hg, Fields.src9_spec h1.1, hs, true_and, and_true, ok_bind,
    Fields.field, Fields.align, Bool.and_self, decide_true, if_true, and_self]
  rfl

theorem red (g : Guard) (op : RedOp) (ty : Ty) (rm : Rm) (d : Dst) (a : Src) : Statement (.red g op ty rm d a) := by
  intro h c' ws e tail
  replace h : (g.ok && (redTys).contains ty && d.ok9 ty.opBits && a.ok9 ty.opBits && redOk op ty rm) = true := h
  simp only [Bool.and_eq_true] at h
  obtain ⟨⟨⟨⟨h0, h1⟩, h2⟩, h3⟩, h4⟩ := h
  simp only [Dst.ok9, Bool.and_eq_true] at h2
  simp only [Src.ok9, Bool.and_eq_true] at h3
  cases e
  refine decode_L (Guard.code_lt h0) (Dst.code9_spec h2.1).1 (Src.code9_spec h3.1).1 (by decide) (by cases op <;> decide)
    (Ty.code_lt ty) (Rm.code_lt rm) (by decide)
    (by decide) fun F hc ho hx hg hd ha hb hC ht hr hf hm => ?_
  refine (decodeXlL_of hc ho hx (by decide)).trans ?_
  change (do
    let g ← F.guard
    F.field (F.b9 = 0 ∧ F.fl = 0)
    let op ← F.redOp
    let ty ← F.tyIn F.ty redTys
    let rm := rmOf F.rm
    F.field (redOk op ty rm)
    let d ← F.dst9 ty.opBits F.d9
    let a ← F.src9 ty.opBits F.a9
    F.align (d.aligned ty.opBits && a.aligned ty.opBits)
    pure (Instr.red g op ty rm d a)) = _
  simp only [hd, ha, hb, hC, ht, hr, hf, hm, Fields.guard_spec h0 hg, Fields.redOp_spec hC, Fields.tyIn_spec h1, rmOf_code
    rm, Fields.dst9_spec h2.1, h2.2, Fields.src9_spec h3.1, h3.2, h4, true_and, and_true, ok_bind, Fields.field,
      Fields.align, Bool.and_self, decide_true, if_true, and_self]
  rfl

theorem scan (g : Guard) (op : RedOp) (ty : Ty) (rm : Rm) (excl : Bool) (d : Dst) (a : Src) : Statement (.scan g op ty rm
  excl d a) := by
  intro h c' ws e tail
  replace h : (g.ok && (redTys).contains ty && d.ok9 ty.opBits && a.ok9 ty.opBits && redOk op ty rm) = true := h
  simp only [Bool.and_eq_true] at h
  obtain ⟨⟨⟨⟨h0, h1⟩, h2⟩, h3⟩, h4⟩ := h
  simp only [Dst.ok9, Bool.and_eq_true] at h2
  simp only [Src.ok9, Bool.and_eq_true] at h3
  cases e
  refine decode_L (Guard.code_lt h0) (Dst.code9_spec h2.1).1 (Src.code9_spec h3.1).1 (by decide) (by cases op <;> decide)
    (Ty.code_lt ty) (Rm.code_lt rm) (by cases excl <;> decide)
    (by decide) fun F hc ho hx hg hd ha hb hC ht hr hf hm => ?_
  refine (decodeXlL_of hc ho hx (by decide)).trans ?_
  have f_excl : F.flag 0 = excl := by rw [Fields.flag, hf]; cases excl <;> rfl
  have c1 : (excl.toNat * 1) < 2 := by cases excl <;> decide
  change (do
    let g ← F.guard
    F.field (F.b9 = 0 ∧ F.fl < 2)
    let op ← F.redOp
    let ty ← F.tyIn F.ty redTys
    let rm := rmOf F.rm
    let excl := F.flag 0
    F.field (redOk op ty rm)
    let d ← F.dst9 ty.opBits F.d9
    let a ← F.src9 ty.opBits F.a9
    F.align (d.aligned ty.opBits && a.aligned ty.opBits)
    pure (Instr.scan g op ty rm excl d a)) = _
  simp only [hd, ha, hb, hC, ht, hr, hf, hm, Fields.guard_spec h0 hg, Fields.redOp_spec hC, Fields.tyIn_spec h1, rmOf_code
    rm, f_excl, Fields.dst9_spec h2.1, h2.2, Fields.src9_spec h3.1, h3.2, c1, h4, true_and, and_true, ok_bind, Fields.field,
      Fields.align, Bool.and_self, decide_true, if_true, and_self]
  rfl

theorem ldW (g : Guard) (d : Dst) (a b : Src) : Statement (.ldW g d a b) := by
  intro h c' ws e tail
  replace h : (g.ok && d.ok7 32 && a.ok7 64 && b.ok7 32) = true := h
  simp only [Bool.and_eq_true] at h
  obtain ⟨⟨⟨h0, h1⟩, h2⟩, h3⟩ := h
  simp only [Dst.ok7, Bool.and_eq_true] at h1
  simp only [Src.ok7, Bool.and_eq_true] at h2
  simp only [Src.ok7, Bool.and_eq_true] at h3
  cases e
  refine decode_S (Guard.code_lt h0) (Dst.code7_spec h1.1).1 (Src.code7_spec h2.1).1 (Src.code7_spec h3.1).1 (by decide) fun
    F hc ho hg hd ha hb => ?_
  refine (decodeMem_of hc ho (by decide) (by decide)).trans ?_
  change (do
    let g ← F.guard
    let d ← F.dst7 32 F.d
    let a ← F.src7 64 F.a
    let b ← F.src7 32 F.b
    F.align (a.aligned 64)
    pure (Instr.ldW g d a b)) = _
  simp only [hd, ha, hb, Fields.guard_spec h0 hg, Fields.dst7_spec h1.1, Fields.src7_spec h2.1, h2.2, Fields.src7_spec h3.1,
    true_and, and_true, ok_bind, Fields.field, Fields.align, Bool.and_self, decide_true, if_true, and_self]
  rfl

theorem ldD (g : Guard) (d : Dst) (a b : Src) : Statement (.ldD g d a b) := by
  intro h c' ws e tail
  replace h : (g.ok && d.ok7 64 && a.ok7 64 && b.ok7 32) = true := h
  simp only [Bool.and_eq_true] at h
  obtain ⟨⟨⟨h0, h1⟩, h2⟩, h3⟩ := h
  simp only [Dst.ok7, Bool.and_eq_true] at h1
  simp only [Src.ok7, Bool.and_eq_true] at h2
  simp only [Src.ok7, Bool.and_eq_true] at h3
  cases e
  refine decode_S (Guard.code_lt h0) (Dst.code7_spec h1.1).1 (Src.code7_spec h2.1).1 (Src.code7_spec h3.1).1 (by decide) fun
    F hc ho hg hd ha hb => ?_
  refine (decodeMem_of hc ho (by decide) (by decide)).trans ?_
  change (do
    let g ← F.guard
    let d ← F.dst7 64 F.d
    let a ← F.src7 64 F.a
    let b ← F.src7 32 F.b
    F.align (d.aligned 64 && a.aligned 64)
    pure (Instr.ldD g d a b)) = _
  simp only [hd, ha, hb, Fields.guard_spec h0 hg, Fields.dst7_spec h1.1, h1.2, Fields.src7_spec h2.1, h2.2, Fields.src7_spec
    h3.1, true_and, and_true, ok_bind, Fields.field, Fields.align, Bool.and_self, decide_true, if_true, and_self]
  rfl

theorem ldQ (g : Guard) (d : Dst) (a b : Src) : Statement (.ldQ g d a b) := by
  intro h c' ws e tail
  replace h : (g.ok && d.ok7 128 && a.ok7 64 && b.ok7 32) = true := h
  simp only [Bool.and_eq_true] at h
  obtain ⟨⟨⟨h0, h1⟩, h2⟩, h3⟩ := h
  simp only [Dst.ok7, Bool.and_eq_true] at h1
  simp only [Src.ok7, Bool.and_eq_true] at h2
  simp only [Src.ok7, Bool.and_eq_true] at h3
  cases e
  refine decode_S (Guard.code_lt h0) (Dst.code7_spec h1.1).1 (Src.code7_spec h2.1).1 (Src.code7_spec h3.1).1 (by decide) fun
    F hc ho hg hd ha hb => ?_
  refine (decodeMem_of hc ho (by decide) (by decide)).trans ?_
  change (do
    let g ← F.guard
    let d ← F.dst7 128 F.d
    let a ← F.src7 64 F.a
    let b ← F.src7 32 F.b
    F.align (d.aligned 128 && a.aligned 64)
    pure (Instr.ldQ g d a b)) = _
  simp only [hd, ha, hb, Fields.guard_spec h0 hg, Fields.dst7_spec h1.1, h1.2, Fields.src7_spec h2.1, h2.2, Fields.src7_spec
    h3.1, true_and, and_true, ok_bind, Fields.field, Fields.align, Bool.and_self, decide_true, if_true, and_self]
  rfl

theorem stW (g : Guard) (x a b : Src) : Statement (.stW g x a b) := by
  intro h c' ws e tail
  replace h : (g.ok && x.ok7 32 && a.ok7 64 && b.ok7 32) = true := h
  simp only [Bool.and_eq_true] at h
  obtain ⟨⟨⟨h0, h1⟩, h2⟩, h3⟩ := h
  simp only [Src.ok7, Bool.and_eq_true] at h1
  simp only [Src.ok7, Bool.and_eq_true] at h2
  simp only [Src.ok7, Bool.and_eq_true] at h3
  cases e
  refine decode_S (Guard.code_lt h0) (Src.code7_spec h1.1).1 (Src.code7_spec h2.1).1 (Src.code7_spec h3.1).1 (by decide) fun
    F hc ho hg hd ha hb => ?_
  refine (decodeMem_of hc ho (by decide) (by decide)).trans ?_
  change (do
    let g ← F.guard
    let x ← F.src7 32 F.d
    let a ← F.src7 64 F.a
    let b ← F.src7 32 F.b
    F.align (a.aligned 64)
    pure (Instr.stW g x a b)) = _
  simp only [hd, ha, hb, Fields.guard_spec h0 hg, Fields.src7_spec h1.1, Fields.src7_spec h2.1, h2.2, Fields.src7_spec h3.1,
    true_and, and_true, ok_bind, Fields.field, Fields.align, Bool.and_self, decide_true, if_true, and_self]
  rfl

theorem stD (g : Guard) (x a b : Src) : Statement (.stD g x a b) := by
  intro h c' ws e tail
  replace h : (g.ok && x.ok7 64 && a.ok7 64 && b.ok7 32) = true := h
  simp only [Bool.and_eq_true] at h
  obtain ⟨⟨⟨h0, h1⟩, h2⟩, h3⟩ := h
  simp only [Src.ok7, Bool.and_eq_true] at h1
  simp only [Src.ok7, Bool.and_eq_true] at h2
  simp only [Src.ok7, Bool.and_eq_true] at h3
  cases e
  refine decode_S (Guard.code_lt h0) (Src.code7_spec h1.1).1 (Src.code7_spec h2.1).1 (Src.code7_spec h3.1).1 (by decide) fun
    F hc ho hg hd ha hb => ?_
  refine (decodeMem_of hc ho (by decide) (by decide)).trans ?_
  change (do
    let g ← F.guard
    let x ← F.src7 64 F.d
    let a ← F.src7 64 F.a
    let b ← F.src7 32 F.b
    F.align (x.aligned 64 && a.aligned 64)
    pure (Instr.stD g x a b)) = _
  simp only [hd, ha, hb, Fields.guard_spec h0 hg, Fields.src7_spec h1.1, h1.2, Fields.src7_spec h2.1, h2.2, Fields.src7_spec
    h3.1, true_and, and_true, ok_bind, Fields.field, Fields.align, Bool.and_self, decide_true, if_true, and_self]
  rfl

theorem stQ (g : Guard) (x a b : Src) : Statement (.stQ g x a b) := by
  intro h c' ws e tail
  replace h : (g.ok && x.ok7 128 && a.ok7 64 && b.ok7 32) = true := h
  simp only [Bool.and_eq_true] at h
  obtain ⟨⟨⟨h0, h1⟩, h2⟩, h3⟩ := h
  simp only [Src.ok7, Bool.and_eq_true] at h1
  simp only [Src.ok7, Bool.and_eq_true] at h2
  simp only [Src.ok7, Bool.and_eq_true] at h3
  cases e
  refine decode_S (Guard.code_lt h0) (Src.code7_spec h1.1).1 (Src.code7_spec h2.1).1 (Src.code7_spec h3.1).1 (by decide) fun
    F hc ho hg hd ha hb => ?_
  refine (decodeMem_of hc ho (by decide) (by decide)).trans ?_
  change (do
    let g ← F.guard
    let x ← F.src7 128 F.d
    let a ← F.src7 64 F.a
    let b ← F.src7 32 F.b
    F.align (x.aligned 128 && a.aligned 64)
    pure (Instr.stQ g x a b)) = _
  simp only [hd, ha, hb, Fields.guard_spec h0 hg, Fields.src7_spec h1.1, h1.2, Fields.src7_spec h2.1, h2.2, Fields.src7_spec
    h3.1, true_and, and_true, ok_bind, Fields.field, Fields.align, Bool.and_self, decide_true, if_true, and_self]
  rfl

theorem ldsW (g : Guard) (d : Dst) (a b : Src) : Statement (.ldsW g d a b) := by
  intro h c' ws e tail
  replace h : (g.ok && d.ok7 32 && a.ok7 32 && b.ok7 32) = true := h
  simp only [Bool.and_eq_true] at h
  obtain ⟨⟨⟨h0, h1⟩, h2⟩, h3⟩ := h
  simp only [Dst.ok7, Bool.and_eq_true] at h1
  simp only [Src.ok7, Bool.and_eq_true] at h2
  simp only [Src.ok7, Bool.and_eq_true] at h3
  cases e
  refine decode_S (Guard.code_lt h0) (Dst.code7_spec h1.1).1 (Src.code7_spec h2.1).1 (Src.code7_spec h3.1).1 (by decide) fun
    F hc ho hg hd ha hb => ?_
  refine (decodeMem_of hc ho (by decide) (by decide)).trans ?_
  change (do
    let g ← F.guard
    let d ← F.dst7 32 F.d
    let a ← F.src7 32 F.a
    let b ← F.src7 32 F.b
    pure (Instr.ldsW g d a b)) = _
  simp only [hd, ha, hb, Fields.guard_spec h0 hg, Fields.dst7_spec h1.1, Fields.src7_spec h2.1, Fields.src7_spec h3.1,
    true_and, and_true, ok_bind, Fields.field, Fields.align, Bool.and_self, decide_true, if_true, and_self]
  rfl

theorem stsW (g : Guard) (x a b : Src) : Statement (.stsW g x a b) := by
  intro h c' ws e tail
  replace h : (g.ok && x.ok7 32 && a.ok7 32 && b.ok7 32) = true := h
  simp only [Bool.and_eq_true] at h
  obtain ⟨⟨⟨h0, h1⟩, h2⟩, h3⟩ := h
  simp only [Src.ok7, Bool.and_eq_true] at h1
  simp only [Src.ok7, Bool.and_eq_true] at h2
  simp only [Src.ok7, Bool.and_eq_true] at h3
  cases e
  refine decode_S (Guard.code_lt h0) (Src.code7_spec h1.1).1 (Src.code7_spec h2.1).1 (Src.code7_spec h3.1).1 (by decide) fun
    F hc ho hg hd ha hb => ?_
  refine (decodeMem_of hc ho (by decide) (by decide)).trans ?_
  change (do
    let g ← F.guard
    let x ← F.src7 32 F.d
    let a ← F.src7 32 F.a
    let b ← F.src7 32 F.b
    pure (Instr.stsW g x a b)) = _
  simp only [hd, ha, hb, Fields.guard_spec h0 hg, Fields.src7_spec h1.1, Fields.src7_spec h2.1, Fields.src7_spec h3.1,
    true_and, and_true, ok_bind, Fields.field, Fields.align, Bool.and_self, decide_true, if_true, and_self]
  rfl

theorem ldiWWg (g : Guard) (d : Dst) (a b : Src) : Statement (.ldiWWg g d a b) := by
  intro h c' ws e tail
  replace h : (g.ok && d.ok7 32 && a.ok7 64 && b.ok7 32) = true := h
  simp only [Bool.and_eq_true] at h
  obtain ⟨⟨⟨h0, h1⟩, h2⟩, h3⟩ := h
  simp only [Dst.ok7, Bool.and_eq_true] at h1
  simp only [Src.ok7, Bool.and_eq_true] at h2
  simp only [Src.ok7, Bool.and_eq_true] at h3
  cases e
  refine decode_S (Guard.code_lt h0) (Dst.code7_spec h1.1).1 (Src.code7_spec h2.1).1 (Src.code7_spec h3.1).1 (by decide) fun
    F hc ho hg hd ha hb => ?_
  refine (decodeMem_of hc ho (by decide) (by decide)).trans ?_
  change (do
    let g ← F.guard
    let d ← F.dst7 32 F.d
    let a ← F.src7 64 F.a
    let b ← F.src7 32 F.b
    F.align (a.aligned 64)
    pure (Instr.ldiWWg g d a b)) = _
  simp only [hd, ha, hb, Fields.guard_spec h0 hg, Fields.dst7_spec h1.1, Fields.src7_spec h2.1, h2.2, Fields.src7_spec h3.1,
    true_and, and_true, ok_bind, Fields.field, Fields.align, Bool.and_self, decide_true, if_true, and_self]
  rfl

theorem stiWWg (g : Guard) (x a b : Src) : Statement (.stiWWg g x a b) := by
  intro h c' ws e tail
  replace h : (g.ok && x.ok7 32 && a.ok7 64 && b.ok7 32) = true := h
  simp only [Bool.and_eq_true] at h
  obtain ⟨⟨⟨h0, h1⟩, h2⟩, h3⟩ := h
  simp only [Src.ok7, Bool.and_eq_true] at h1
  simp only [Src.ok7, Bool.and_eq_true] at h2
  simp only [Src.ok7, Bool.and_eq_true] at h3
  cases e
  refine decode_S (Guard.code_lt h0) (Src.code7_spec h1.1).1 (Src.code7_spec h2.1).1 (Src.code7_spec h3.1).1 (by decide) fun
    F hc ho hg hd ha hb => ?_
  refine (decodeMem_of hc ho (by decide) (by decide)).trans ?_
  change (do
    let g ← F.guard
    let x ← F.src7 32 F.d
    let a ← F.src7 64 F.a
    let b ← F.src7 32 F.b
    F.align (a.aligned 64)
    pure (Instr.stiWWg g x a b)) = _
  simp only [hd, ha, hb, Fields.guard_spec h0 hg, Fields.src7_spec h1.1, Fields.src7_spec h2.1, h2.2, Fields.src7_spec h3.1,
    true_and, and_true, ok_bind, Fields.field, Fields.align, Bool.and_self, decide_true, if_true, and_self]
  rfl

theorem qpop (g : Guard) (d : Dst) (a : Src) : Statement (.qpop g d a) := by
  intro h c' ws e tail
  replace h : (g.ok && d.ok7 64 && a.ok7 32) = true := h
  simp only [Bool.and_eq_true] at h
  obtain ⟨⟨h0, h1⟩, h2⟩ := h
  simp only [Dst.ok7, Bool.and_eq_true] at h1
  simp only [Src.ok7, Bool.and_eq_true] at h2
  cases e
  refine decode_S (Guard.code_lt h0) (Dst.code7_spec h1.1).1 (Src.code7_spec h2.1).1 (by decide) (by decide) fun F hc ho hg
    hd ha hb => ?_
  refine (decodeMem_of hc ho (by decide) (by decide)).trans ?_
  change (do
    let g ← F.guard
    F.field (F.b = 0)
    let d ← F.dst7 64 F.d
    let a ← F.src7 32 F.a
    F.align (d.aligned 64)
    pure (Instr.qpop g d a)) = _
  simp only [hd, ha, hb, Fields.guard_spec h0 hg, Fields.dst7_spec h1.1, h1.2, Fields.src7_spec h2.1, true_and, and_true,
    ok_bind, Fields.field, Fields.align, Bool.and_self, decide_true, if_true, and_self]
  rfl

theorem qpush (g : Guard) (a b : Src) : Statement (.qpush g a b) := by
  intro h c' ws e tail
  replace h : (g.ok && a.ok7 32 && b.ok7 64) = true := h
  simp only [Bool.and_eq_true] at h
  obtain ⟨⟨h0, h1⟩, h2⟩ := h
  simp only [Src.ok7, Bool.and_eq_true] at h1
  simp only [Src.ok7, Bool.and_eq_true] at h2
  cases e
  refine decode_S (Guard.code_lt h0) (by decide) (Src.code7_spec h1.1).1 (Src.code7_spec h2.1).1 (by decide) fun F hc ho hg
    hd ha hb => ?_
  refine (decodeMem_of hc ho (by decide) (by decide)).trans ?_
  change (do
    let g ← F.guard
    F.field (F.d = 0)
    let a ← F.src7 32 F.a
    let b ← F.src7 64 F.b
    F.align (b.aligned 64)
    pure (Instr.qpush g a b)) = _
  simp only [hd, ha, hb, Fields.guard_spec h0 hg, Fields.src7_spec h1.1, Fields.src7_spec h2.1, h2.2, true_and, and_true,
    ok_bind, Fields.field, Fields.align, Bool.and_self, decide_true, if_true, and_self]
  rfl

theorem prefetch (g : Guard) (a b : Src) : Statement (.prefetch g a b) := by
  intro h c' ws e tail
  replace h : (g.ok && a.ok7 64 && b.ok7 32) = true := h
  simp only [Bool.and_eq_true] at h
  obtain ⟨⟨h0, h1⟩, h2⟩ := h
  simp only [Src.ok7, Bool.and_eq_true] at h1
  simp only [Src.ok7, Bool.and_eq_true] at h2
  cases e
  refine decode_S (Guard.code_lt h0) (by decide) (Src.code7_spec h1.1).1 (Src.code7_spec h2.1).1 (by decide) fun F hc ho hg
    hd ha hb => ?_
  refine (decodeMem_of hc ho (by decide) (by decide)).trans ?_
  change (do
    let g ← F.guard
    F.field (F.d = 0)
    let a ← F.src7 64 F.a
    let b ← F.src7 32 F.b
    F.align (a.aligned 64)
    pure (Instr.prefetch g a b)) = _
  simp only [hd, ha, hb, Fields.guard_spec h0 hg, Fields.src7_spec h1.1, h1.2, Fields.src7_spec h2.1, true_and, and_true,
    ok_bind, Fields.field, Fields.align, Bool.and_self, decide_true, if_true, and_self]
  rfl

theorem ldK (g : Guard) (wd : Nat) (d : Dst) (a : Src) (k : BitVec 32) : Statement (.ldK g wd d a k) := by
  intro h c' ws e tail
  replace h : (g.ok && decide (wd < 3) && d.ok7 (kWidth wd) && a.ok7 64) = true := h
  simp only [Bool.and_eq_true] at h
  obtain ⟨⟨⟨h0, h1⟩, h2⟩, h3⟩ := h
  simp only [decide_eq_true_eq] at h1
  simp only [Dst.ok7, Bool.and_eq_true] at h2
  simp only [Src.ok7, Bool.and_eq_true] at h3
  cases e
  refine decode_K (Guard.code_lt h0) (Dst.code7_spec h2.1).1 (Src.code7_spec h3.1).1 (by omega) (by decide) (by decide) fun F
    hc ho hg hd ha hb hk => ?_
  refine (decodeMem_of hc ho (by decide) (by decide)).trans ?_
  change (do
    let g ← F.guard
    F.field (F.b < 3)
    let wd := F.b
    let k := BitVec.ofNat 32 F.w1
    let d ← F.dst7 (kWidth wd) F.d
    let a ← F.src7 64 F.a
    F.align (d.aligned (kWidth wd) && a.aligned 64)
    pure (Instr.ldK g wd d a k)) = _
  simp only [hd, ha, hb, hk, Fields.guard_spec h0 hg, h1, Fields.dst7_spec h2.1, h2.2, Fields.src7_spec h3.1, h3.2, true_and,
    and_true, ok_bind, Fields.field, Fields.align, Bool.and_self, decide_true, if_true, and_self]
  rfl

theorem stK (g : Guard) (wd : Nat) (x a : Src) (k : BitVec 32) : Statement (.stK g wd x a k) := by
  intro h c' ws e tail
  replace h : (g.ok && decide (wd < 3) && x.ok7 (kWidth wd) && a.ok7 64) = true := h
  simp only [Bool.and_eq_true] at h
  obtain ⟨⟨⟨h0, h1⟩, h2⟩, h3⟩ := h
  simp only [decide_eq_true_eq] at h1
  simp only [Src.ok7, Bool.and_eq_true] at h2
  simp only [Src.ok7, Bool.and_eq_true] at h3
  cases e
  refine decode_K (Guard.code_lt h0) (Src.code7_spec h2.1).1 (Src.code7_spec h3.1).1 (by omega) (by decide) (by decide) fun F
    hc ho hg hd ha hb hk => ?_
  refine (decodeMem_of hc ho (by decide) (by decide)).trans ?_
  change (do
    let g ← F.guard
    F.field (F.b < 3)
    let wd := F.b
    let k := BitVec.ofNat 32 F.w1
    let x ← F.src7 (kWidth wd) F.d
    let a ← F.src7 64 F.a
    F.align (x.aligned (kWidth wd) && a.aligned 64)
    pure (Instr.stK g wd x a k)) = _
  simp only [hd, ha, hb, hk, Fields.guard_spec h0 hg, h1, Fields.src7_spec h2.1, h2.2, Fields.src7_spec h3.1, h3.2, true_and,
    and_true, ok_bind, Fields.field, Fields.align, Bool.and_self, decide_true, if_true, and_self]
  rfl

theorem ldL (g : Guard) (ty : Ty) (d : Dst) (a b : Src) : Statement (.ldL g ty d a b) := by
  intro h c' ws e tail
  replace h : (g.ok && ([.i8, .n8, .i16, .n16, .n32, .n64, .b128]).contains ty && d.ok9 ty.opBits && a.ok9 64 && b.ok9 32) =
    true := h
  simp only [Bool.and_eq_true] at h
  obtain ⟨⟨⟨⟨h0, h1⟩, h2⟩, h3⟩, h4⟩ := h
  simp only [Dst.ok9, Bool.and_eq_true] at h2
  simp only [Src.ok9, Bool.and_eq_true] at h3
  simp only [Src.ok9, Bool.and_eq_true] at h4
  cases e
  refine decode_L (Guard.code_lt h0) (Dst.code9_spec h2.1).1 (Src.code9_spec h3.1).1 (Src.code9_spec h4.1).1 (by decide)
    (Ty.code_lt ty) (by decide) (by decide)
    (by decide) fun F hc ho hx hg hd ha hb hC ht hr hf hm => ?_
  refine (decodeMemL_of hc ho hx (by decide)).trans ?_
  change (do
    let g ← F.guard
    F.field (F.c = 0 ∧ F.rm = 0 ∧ F.fl = 0)
    let ty ← F.tyIn F.ty [.i8, .n8, .i16, .n16, .n32, .n64, .b128]
    let d ← F.dst9 ty.opBits F.d9
    let a ← F.src9 64 F.a9
    let b ← F.src9 32 F.b9
    F.align (d.aligned ty.opBits && a.aligned 64)
    pure (Instr.ldL g ty d a b)) = _
  simp only [hd, ha, hb, hC, ht, hr, hf, hm, Fields.guard_spec h0 hg, Fields.tyIn_spec h1, Fields.dst9_spec h2.1, h2.2,
    Fields.src9_spec h3.1, h3.2, Fields.src9_spec h4.1, true_and, and_true, ok_bind, Fields.field, Fields.align,
      Bool.and_self, decide_true, if_true, and_self]
  rfl

theorem stL (g : Guard) (ty : Ty) (x a b : Src) : Statement (.stL g ty x a b) := by
  intro h c' ws e tail
  replace h : (g.ok && ([.n8, .n16, .n32, .n64, .b128]).contains ty && x.ok9 ty.opBits && a.ok9 64 && b.ok9 32) = true := h
  simp only [Bool.and_eq_true] at h
  obtain ⟨⟨⟨⟨h0, h1⟩, h2⟩, h3⟩, h4⟩ := h
  simp only [Src.ok9, Bool.and_eq_true] at h2
  simp only [Src.ok9, Bool.and_eq_true] at h3
  simp only [Src.ok9, Bool.and_eq_true] at h4
  cases e
  refine decode_L (Guard.code_lt h0) (Src.code9_spec h2.1).1 (Src.code9_spec h3.1).1 (Src.code9_spec h4.1).1 (by decide)
    (Ty.code_lt ty) (by decide) (by decide)
    (by decide) fun F hc ho hx hg hd ha hb hC ht hr hf hm => ?_
  refine (decodeMemL_of hc ho hx (by decide)).trans ?_
  change (do
    let g ← F.guard
    F.field (F.c = 0 ∧ F.rm = 0 ∧ F.fl = 0)
    let ty ← F.tyIn F.ty [.n8, .n16, .n32, .n64, .b128]
    let x ← F.src9 ty.opBits F.d9
    let a ← F.src9 64 F.a9
    let b ← F.src9 32 F.b9
    F.align (x.aligned ty.opBits && a.aligned 64)
    pure (Instr.stL g ty x a b)) = _
  simp only [hd, ha, hb, hC, ht, hr, hf, hm, Fields.guard_spec h0 hg, Fields.tyIn_spec h1, Fields.src9_spec h2.1, h2.2,
    Fields.src9_spec h3.1, h3.2, Fields.src9_spec h4.1, true_and, and_true, ok_bind, Fields.field, Fields.align,
      Bool.and_self, decide_true, if_true, and_self]
  rfl

theorem ldi (g : Guard) (ty : Ty) (sc : Scope) (ord : Ord) (d : Dst) (a b : Src) : Statement (.ldi g ty sc ord d a b) := by
  intro h c' ws e tail
  replace h : (g.ok && ([.n32, .n64]).contains ty && sc.ok && ([.relaxed, .acq, .sc]).contains ord && d.ok9 ty.opBits &&
    a.ok9 64 && b.ok9 32) = true := h
  simp only [Bool.and_eq_true] at h
  obtain ⟨⟨⟨⟨⟨⟨h0, h1⟩, h2⟩, h3⟩, h4⟩, h5⟩, h6⟩ := h
  have cl := Nat.lt_trans (Fields.shape_lt h2) (by decide : 256 < 512)
  simp only [Dst.ok9, Bool.and_eq_true] at h4
  simp only [Src.ok9, Bool.and_eq_true] at h5
  simp only [Src.ok9, Bool.and_eq_true] at h6
  cases e
  refine decode_L (Guard.code_lt h0) (Dst.code9_spec h4.1).1 (Src.code9_spec h5.1).1 (Src.code9_spec h6.1).1 cl (Ty.code_lt
    ty) (Fields.scope_code_lt sc) (by cases ord <;> decide)
    (by decide) fun F hc ho hx hg hd ha hb hC ht hr hf hm => ?_
  refine (decodeMemL_of hc ho hx (by decide)).trans ?_
  change (do
    let g ← F.guard
    let ty ← F.tyIn F.ty [.n32, .n64]
    let sc ← F.scope false
    let ord ← F.ord [.relaxed, .acq, .sc]
    let d ← F.dst9 ty.opBits F.d9
    let a ← F.src9 64 F.a9
    let b ← F.src9 32 F.b9
    F.align (d.aligned ty.opBits && a.aligned 64)
    pure (Instr.ldi g ty sc ord d a b)) = _
  simp only [hd, ha, hb, hC, ht, hr, hf, hm, Fields.guard_spec h0 hg, Fields.tyIn_spec h1, Fields.scope_spec h2 hr (hC.trans
    (Nat.zero_add _).symm) (by decide) (fun _ => rfl), Fields.ord_spec h3 hf, Fields.dst9_spec h4.1, h4.2, Fields.src9_spec
      h5.1, h5.2, Fields.src9_spec h6.1, true_and, and_true, ok_bind, Fields.field, Fields.align, Bool.and_self, decide_true,
        if_true, and_self]
  rfl

theorem sti (g : Guard) (ty : Ty) (sc : Scope) (ord : Ord) (x a b : Src) : Statement (.sti g ty sc ord x a b) := by
  intro h c' ws e tail
  replace h : (g.ok && ([.n32, .n64]).contains ty && sc.ok && ([.relaxed, .rel, .sc]).contains ord && x.ok9 ty.opBits &&
    a.ok9 64 && b.ok9 32) = true := h
  simp only [Bool.and_eq_true] at h
  obtain ⟨⟨⟨⟨⟨⟨h0, h1⟩, h2⟩, h3⟩, h4⟩, h5⟩, h6⟩ := h
  have cl := Nat.lt_trans (Fields.shape_lt h2) (by decide : 256 < 512)
  simp only [Src.ok9, Bool.and_eq_true] at h4
  simp only [Src.ok9, Bool.and_eq_true] at h5
  simp only [Src.ok9, Bool.and_eq_true] at h6
  cases e
  refine decode_L (Guard.code_lt h0) (Src.code9_spec h4.1).1 (Src.code9_spec h5.1).1 (Src.code9_spec h6.1).1 cl (Ty.code_lt
    ty) (Fields.scope_code_lt sc) (by cases ord <;> decide)
    (by decide) fun F hc ho hx hg hd ha hb hC ht hr hf hm => ?_
  refine (decodeMemL_of hc ho hx (by decide)).trans ?_
  change (do
    let g ← F.guard
    let ty ← F.tyIn F.ty [.n32, .n64]
    let sc ← F.scope false
    let ord ← F.ord [.relaxed, .rel, .sc]
    let x ← F.src9 ty.opBits F.d9
    let a ← F.src9 64 F.a9
    let b ← F.src9 32 F.b9
    F.align (x.aligned ty.opBits && a.aligned 64)
    pure (Instr.sti g ty sc ord x a b)) = _
  simp only [hd, ha, hb, hC, ht, hr, hf, hm, Fields.guard_spec h0 hg, Fields.tyIn_spec h1, Fields.scope_spec h2 hr (hC.trans
    (Nat.zero_add _).symm) (by decide) (fun _ => rfl), Fields.ord_spec h3 hf, Fields.src9_spec h4.1, h4.2, Fields.src9_spec
      h5.1, h5.2, Fields.src9_spec h6.1, true_and, and_true, ok_bind, Fields.field, Fields.align, Bool.and_self, decide_true,
        if_true, and_self]
  rfl

theorem atom (g : Guard) (op : AtomOp) (ty : Ty) (sc : Scope) (ord : Ord) (d : Dst) (a b : Src) : Statement (.atom g op ty sc
  ord d a b) := by
  intro h c' ws e tail
  replace h : (g.ok && ([.i32, .n32, .i64, .n64]).contains ty && sc.ok && ([.relaxed, .acq, .rel, .acqrel, .sc]).contains ord
    && d.ok9 ty.opBits && a.ok9 64 && b.ok9 ty.opBits) = true := h
  simp only [Bool.and_eq_true] at h
  obtain ⟨⟨⟨⟨⟨⟨h0, h1⟩, h2⟩, h3⟩, h4⟩, h5⟩, h6⟩ := h
  have sl := Fields.shape_lt h2
  have cl : op.code + sc.shape < 512 := by cases op <;> simp only [AtomOp.code, AtomFOp.code] <;> omega
  simp only [Dst.ok9, Bool.and_eq_true] at h4
  simp only [Src.ok9, Bool.and_eq_true] at h5
  simp only [Src.ok9, Bool.and_eq_true] at h6
  cases e
  refine decode_L (Guard.code_lt h0) (Dst.code9_spec h4.1).1 (Src.code9_spec h5.1).1 (Src.code9_spec h6.1).1 cl (Ty.code_lt
    ty) (Fields.scope_code_lt sc) (by cases ord <;> decide)
    (by decide) fun F hc ho hx hg hd ha hb hC ht hr hf hm => ?_
  refine (decodeMemL_of hc ho hx (by decide)).trans ?_
  change (do
    let g ← F.guard
    let op ← F.atomOp
    let ty ← F.tyIn F.ty [.i32, .n32, .i64, .n64]
    let sc ← F.scope true
    let ord ← F.ord [.relaxed, .acq, .rel, .acqrel, .sc]
    let d ← F.dst9 ty.opBits F.d9
    let a ← F.src9 64 F.a9
    let b ← F.src9 ty.opBits F.b9
    F.align (d.aligned ty.opBits && a.aligned 64 && b.aligned ty.opBits)
    pure (Instr.atom g op ty sc ord d a b)) = _
  simp only [hd, ha, hb, hC, ht, hr, hf, hm, Fields.guard_spec h0 hg, Fields.atomOp_spec (Fields.shape_mod sc) hC,
    Fields.tyIn_spec h1, Fields.scope_spec h2 hr hC (by cases op <;> decide) (fun h => nomatch (h : true = false)),
      Fields.ord_spec h3 hf, Fields.dst9_spec h4.1, h4.2, Fields.src9_spec h5.1, h5.2, Fields.src9_spec h6.1, h6.2, true_and,
        and_true, ok_bind, Fields.field, Fields.align, Bool.and_self, decide_true, if_true, and_self]
  rfl

theorem atomcas (g : Guard) (ty : Ty) (sc : Scope) (ord : Ord) (d : Dst) (a b : Src) : Statement (.atomcas g ty sc ord d a b)
  := by
  intro h c' ws e tail
  replace h : (g.ok && ([.i32, .n32, .i64, .n64]).contains ty && sc.ok && ([.relaxed, .acq, .rel, .acqrel, .sc]).contains ord
    && d.ok9 ty.opBits && a.ok9 64 && b.ok9 (2 * ty.opBits)) = true := h
  simp only [Bool.and_eq_true] at h
  obtain ⟨⟨⟨⟨⟨⟨h0, h1⟩, h2⟩, h3⟩, h4⟩, h5⟩, h6⟩ := h
  have cl := Nat.lt_trans (Fields.shape_lt h2) (by decide : 256 < 512)
  simp only [Dst.ok9, Bool.and_eq_true] at h4
  simp only [Src.ok9, Bool.and_eq_true] at h5
  simp only [Src.ok9, Bool.and_eq_true] at h6
  cases e
  refine decode_L (Guard.code_lt h0) (Dst.code9_spec h4.1).1 (Src.code9_spec h5.1).1 (Src.code9_spec h6.1).1 cl (Ty.code_lt
    ty) (Fields.scope_code_lt sc) (by cases ord <;> decide)
    (by decide) fun F hc ho hx hg hd ha hb hC ht hr hf hm => ?_
  refine (decodeMemL_of hc ho hx (by decide)).trans ?_
  change (do
    let g ← F.guard
    let ty ← F.tyIn F.ty [.i32, .n32, .i64, .n64]
    let sc ← F.scope false
    let ord ← F.ord [.relaxed, .acq, .rel, .acqrel, .sc]
    let d ← F.dst9 ty.opBits F.d9
    let a ← F.src9 64 F.a9
    let b ← F.src9 (2 * ty.opBits) F.b9
    F.align (d.aligned ty.opBits && a.aligned 64 && b.aligned (2 * ty.opBits))
    pure (Instr.atomcas g ty sc ord d a b)) = _
  simp only [hd, ha, hb, hC, ht, hr, hf, hm, Fields.guard_spec h0 hg, Fields.tyIn_spec h1, Fields.scope_spec h2 hr (hC.trans
    (Nat.zero_add _).symm) (by decide) (fun _ => rfl), Fields.ord_spec h3 hf, Fields.dst9_spec h4.1, h4.2, Fields.src9_spec
      h5.1, h5.2, Fields.src9_spec h6.1, h6.2, true_and, and_true, ok_bind, Fields.field, Fields.align, Bool.and_self,
        decide_true, if_true, and_self]
  rfl

theorem atomf (g : Guard) (op : AtomFOp) (ty : Ty) (sc : Scope) (ord : Ord) (d : Dst) (a b : Src) : Statement (.atomf g op ty
  sc ord d a b) := by
  intro h c' ws e tail
  replace h : (g.ok && ([.f64, .f32]).contains ty && sc.ok && ([.relaxed, .acq, .rel, .acqrel, .sc]).contains ord && d.ok9
    ty.opBits && a.ok9 64 && b.ok9 ty.opBits) = true := h
  simp only [Bool.and_eq_true] at h
  obtain ⟨⟨⟨⟨⟨⟨h0, h1⟩, h2⟩, h3⟩, h4⟩, h5⟩, h6⟩ := h
  have sl := Fields.shape_lt h2
  have cl : op.code + sc.shape < 512 := by cases op <;> simp only [AtomOp.code, AtomFOp.code] <;> omega
  simp only [Dst.ok9, Bool.and_eq_true] at h4
  simp only [Src.ok9, Bool.and_eq_true] at h5
  simp only [Src.ok9, Bool.and_eq_true] at h6
  cases e
  refine decode_L (Guard.code_lt h0) (Dst.code9_spec h4.1).1 (Src.code9_spec h5.1).1 (Src.code9_spec h6.1).1 cl (Ty.code_lt
    ty) (Fields.scope_code_lt sc) (by cases ord <;> decide)
    (by decide) fun F hc ho hx hg hd ha hb hC ht hr hf hm => ?_
  refine (decodeMemL_of hc ho hx (by decide)).trans ?_
  change (do
    let g ← F.guard
    let op ← F.atomFOp
    let ty ← F.tyIn F.ty [.f64, .f32]
    let sc ← F.scope true
    let ord ← F.ord [.relaxed, .acq, .rel, .acqrel, .sc]
    let d ← F.dst9 ty.opBits F.d9
    let a ← F.src9 64 F.a9
    let b ← F.src9 ty.opBits F.b9
    F.align (d.aligned ty.opBits && a.aligned 64 && b.aligned ty.opBits)
    pure (Instr.atomf g op ty sc ord d a b)) = _
  simp only [hd, ha, hb, hC, ht, hr, hf, hm, Fields.guard_spec h0 hg, Fields.atomFOp_spec (Fields.shape_mod sc) hC,
    Fields.tyIn_spec h1, Fields.scope_spec h2 hr hC (by cases op <;> decide) (fun h => nomatch (h : true = false)),
      Fields.ord_spec h3 hf, Fields.dst9_spec h4.1, h4.2, Fields.src9_spec h5.1, h5.2, Fields.src9_spec h6.1, h6.2, true_and,
        and_true, ok_bind, Fields.field, Fields.align, Bool.and_self, decide_true, if_true, and_self]
  rfl

theorem phase (sc : Scope) : Statement (.phase sc) := by
  intro h c' ws e tail
  replace h : (sc.ok) = true := h
  have h0 := h
  have cl := Nat.lt_trans (Fields.shape_lt h0) (by decide : 256 < 512)
  cases e
  refine decode_L (by decide) (by decide) (by decide) (by decide) cl (by decide) (Fields.scope_code_lt sc) (by decide)
    (by decide) fun F hc ho hx hg hd ha hb hC ht hr hf hm => ?_
  refine (decodeMemL_of hc ho hx (by decide)).trans ?_
  change (do
    F.noGuard
    F.field (F.d9 = 0 ∧ F.a9 = 0 ∧ F.b9 = 0 ∧ F.ty = 0 ∧ F.fl = 0)
    let sc ← F.scope false
    pure (Instr.phase sc)) = _
  simp only [hd, ha, hb, hC, ht, hr, hf, hm, Fields.noGuard_spec hg, Fields.scope_spec h0 hr (hC.trans (Nat.zero_add _).symm)
    (by decide) (fun _ => rfl), true_and, and_true, ok_bind, Fields.field, Fields.align, Bool.and_self, decide_true, if_true,
      and_self]
  rfl

theorem fence (g : Guard) (sc : Scope) (ord : Ord) : Statement (.fence g sc ord) := by
  intro h c' ws e tail
  replace h : (g.ok && sc.ok && ([.acq, .rel, .acqrel, .sc]).contains ord) = true := h
  simp only [Bool.and_eq_true] at h
  obtain ⟨⟨h0, h1⟩, h2⟩ := h
  have cl := Nat.lt_trans (Fields.shape_lt h1) (by decide : 256 < 512)
  cases e
  refine decode_L (Guard.code_lt h0) (by decide) (by decide) (by decide) cl (by decide) (Fields.scope_code_lt sc) (by cases
    ord <;> decide)
    (by decide) fun F hc ho hx hg hd ha hb hC ht hr hf hm => ?_
  refine (decodeMemL_of hc ho hx (by decide)).trans ?_
  change (do
    let g ← F.guard
    F.field (F.d9 = 0 ∧ F.a9 = 0 ∧ F.b9 = 0 ∧ F.ty = 0)
    let sc ← F.scope false
    let ord ← F.ord [.acq, .rel, .acqrel, .sc]
    pure (Instr.fence g sc ord)) = _
  simp only [hd, ha, hb, hC, ht, hr, hf, hm, Fields.guard_spec h0 hg, Fields.scope_spec h1 hr (hC.trans (Nat.zero_add
    _).symm) (by decide) (fun _ => rfl), Fields.ord_spec h2 hf, true_and, and_true, ok_bind, Fields.field, Fields.align,
      Bool.and_self, decide_true, if_true, and_self]
  rfl

theorem tfill (g : Guard) (t : Nat) (a b : Src) : Statement (.tfill g t a b) := by
  intro h c' ws e tail
  replace h : (g.ok && decide (t < 128) && a.ok9 64 && b.ok9 32) = true := h
  simp only [Bool.and_eq_true] at h
  obtain ⟨⟨⟨h0, h1⟩, h2⟩, h3⟩ := h
  simp only [decide_eq_true_eq] at h1
  simp only [Src.ok9, Bool.and_eq_true] at h2
  simp only [Src.ok9, Bool.and_eq_true] at h3
  cases e
  refine decode_L (Guard.code_lt h0) (by decide) (Src.code9_spec h2.1).1 (Src.code9_spec h3.1).1 (by omega) (by decide) (by
    decide) (by decide)
    (by decide) fun F hc ho hx hg hd ha hb hC ht hr hf hm => ?_
  refine (decodeMemL_of hc ho hx (by decide)).trans ?_
  change (do
    let g ← F.guard
    F.field (F.d9 = 0 ∧ F.mod = 0 ∧ F.c < 128)
    let t := F.c
    let a ← F.src9 64 F.a9
    let b ← F.src9 32 F.b9
    F.align (a.aligned 64)
    pure (Instr.tfill g t a b)) = _
  simp only [hd, ha, hb, hC, ht, hr, hf, hm, Fields.guard_spec h0 hg, h1, Fields.src9_spec h2.1, h2.2, Fields.src9_spec h3.1,
    true_and, and_true, ok_bind, Fields.field, Fields.align, Bool.and_self, decide_true, if_true, and_self]
  rfl

theorem tdrain (g : Guard) (t : Nat) (a b : Src) : Statement (.tdrain g t a b) := by
  intro h c' ws e tail
  replace h : (g.ok && decide (t < 128) && a.ok9 64 && b.ok9 32) = true := h
  simp only [Bool.and_eq_true] at h
  obtain ⟨⟨⟨h0, h1⟩, h2⟩, h3⟩ := h
  simp only [decide_eq_true_eq] at h1
  simp only [Src.ok9, Bool.and_eq_true] at h2
  simp only [Src.ok9, Bool.and_eq_true] at h3
  cases e
  refine decode_L (Guard.code_lt h0) (by decide) (Src.code9_spec h2.1).1 (Src.code9_spec h3.1).1 (by omega) (by decide) (by
    decide) (by decide)
    (by decide) fun F hc ho hx hg hd ha hb hC ht hr hf hm => ?_
  refine (decodeMemL_of hc ho hx (by decide)).trans ?_
  change (do
    let g ← F.guard
    F.field (F.d9 = 0 ∧ F.mod = 0 ∧ F.c < 128)
    let t := F.c
    let a ← F.src9 64 F.a9
    let b ← F.src9 32 F.b9
    F.align (a.aligned 64)
    pure (Instr.tdrain g t a b)) = _
  simp only [hd, ha, hb, hC, ht, hr, hf, hm, Fields.guard_spec h0 hg, h1, Fields.src9_spec h2.1, h2.2, Fields.src9_spec h3.1,
    true_and, and_true, ok_bind, Fields.field, Fields.align, Bool.and_self, decide_true, if_true, and_self]
  rfl

theorem twait (g : Guard) (t : Nat) : Statement (.twait g t) := by
  intro h c' ws e tail
  replace h : (g.ok && decide (t < 128)) = true := h
  simp only [Bool.and_eq_true] at h
  obtain ⟨h0, h1⟩ := h
  simp only [decide_eq_true_eq] at h1
  cases e
  refine decode_L (Guard.code_lt h0) (by decide) (by decide) (by decide) (by omega) (by decide) (by decide) (by decide)
    (by decide) fun F hc ho hx hg hd ha hb hC ht hr hf hm => ?_
  refine (decodeMemL_of hc ho hx (by decide)).trans ?_
  change (do
    let g ← F.guard
    F.field (F.d9 = 0 ∧ F.a9 = 0 ∧ F.b9 = 0 ∧ F.mod = 0 ∧ F.c < 128)
    let t := F.c
    pure (Instr.twait g t)) = _
  simp only [hd, ha, hb, hC, ht, hr, hf, hm, Fields.guard_spec h0 hg, h1, true_and, and_true, ok_bind, Fields.field,
    Fields.align, Bool.and_self, decide_true, if_true, and_self]
  rfl

theorem tstate (g : Guard) (t : Nat) (d : Dst) : Statement (.tstate g t d) := by
  intro h c' ws e tail
  replace h : (g.ok && decide (t < 128) && d.ok9 32) = true := h
  simp only [Bool.and_eq_true] at h
  obtain ⟨⟨h0, h1⟩, h2⟩ := h
  simp only [decide_eq_true_eq] at h1
  simp only [Dst.ok9, Bool.and_eq_true] at h2
  cases e
  refine decode_L (Guard.code_lt h0) (Dst.code9_spec h2.1).1 (by decide) (by decide) (by omega) (by decide) (by decide) (by
    decide)
    (by decide) fun F hc ho hx hg hd ha hb hC ht hr hf hm => ?_
  refine (decodeMemL_of hc ho hx (by decide)).trans ?_
  change (do
    let g ← F.guard
    F.field (F.a9 = 0 ∧ F.b9 = 0 ∧ F.mod = 0 ∧ F.c < 128)
    let t := F.c
    let d ← F.dst9 32 F.d9
    pure (Instr.tstate g t d)) = _
  simp only [hd, ha, hb, hC, ht, hr, hf, hm, Fields.guard_spec h0 hg, h1, Fields.dst9_spec h2.1, true_and, and_true, ok_bind,
    Fields.field, Fields.align, Bool.and_self, decide_true, if_true, and_self]
  rfl

theorem tfree (g : Guard) (t : Nat) : Statement (.tfree g t) := by
  intro h c' ws e tail
  replace h : (g.ok && decide (t < 128)) = true := h
  simp only [Bool.and_eq_true] at h
  obtain ⟨h0, h1⟩ := h
  simp only [decide_eq_true_eq] at h1
  cases e
  refine decode_L (Guard.code_lt h0) (by decide) (by decide) (by decide) (by omega) (by decide) (by decide) (by decide)
    (by decide) fun F hc ho hx hg hd ha hb hC ht hr hf hm => ?_
  refine (decodeMemL_of hc ho hx (by decide)).trans ?_
  change (do
    let g ← F.guard
    F.field (F.d9 = 0 ∧ F.a9 = 0 ∧ F.b9 = 0 ∧ F.mod = 0 ∧ F.c < 128)
    let t := F.c
    pure (Instr.tfree g t)) = _
  simp only [hd, ha, hb, hC, ht, hr, hf, hm, Fields.guard_spec h0 hg, h1, true_and, and_true, ok_bind, Fields.field,
    Fields.align, Bool.and_self, decide_true, if_true, and_self]
  rfl

theorem halloc (g : Guard) (tr : Bool) (d : Dst) (a b : Src) : Statement (.halloc g tr d a b) := by
  intro h c' ws e tail
  replace h : (g.ok && d.ok9 64 && a.ok9 32 && b.ok9 64) = true := h
  simp only [Bool.and_eq_true] at h
  obtain ⟨⟨⟨h0, h1⟩, h2⟩, h3⟩ := h
  simp only [Dst.ok9, Bool.and_eq_true] at h1
  simp only [Src.ok9, Bool.and_eq_true] at h2
  simp only [Src.ok9, Bool.and_eq_true] at h3
  cases e
  refine decode_L (Guard.code_lt h0) (Dst.code9_spec h1.1).1 (Src.code9_spec h2.1).1 (Src.code9_spec h3.1).1 (by decide) (by
    decide) (by decide) (by cases tr <;> decide)
    (by decide) fun F hc ho hx hg hd ha hb hC ht hr hf hm => ?_
  refine (decodeMemL_of hc ho hx (by decide)).trans ?_
  have f_tr : F.flag 0 = tr := by rw [Fields.flag, hf]; cases tr <;> rfl
  have c3 : (tr.toNat * 1) < 2 := by cases tr <;> decide
  change (do
    let g ← F.guard
    F.field (F.c = 0 ∧ F.ty = 0 ∧ F.rm = 0 ∧ F.fl < 2)
    let tr := F.flag 0
    let d ← F.dst9 64 F.d9
    let a ← F.src9 32 F.a9
    let b ← F.src9 64 F.b9
    F.align (d.aligned 64 && b.aligned 64)
    pure (Instr.halloc g tr d a b)) = _
  simp only [hd, ha, hb, hC, ht, hr, hf, hm, Fields.guard_spec h0 hg, f_tr, Fields.dst9_spec h1.1, h1.2, Fields.src9_spec
    h2.1, Fields.src9_spec h3.1, h3.2, c3, true_and, and_true, ok_bind, Fields.field, Fields.align, Bool.and_self,
      decide_true, if_true, and_self]
  rfl

theorem hfree (g : Guard) (a b : Src) : Statement (.hfree g a b) := by
  intro h c' ws e tail
  replace h : (g.ok && a.ok9 64 && b.ok9 64) = true := h
  simp only [Bool.and_eq_true] at h
  obtain ⟨⟨h0, h1⟩, h2⟩ := h
  simp only [Src.ok9, Bool.and_eq_true] at h1
  simp only [Src.ok9, Bool.and_eq_true] at h2
  cases e
  refine decode_L (Guard.code_lt h0) (by decide) (Src.code9_spec h1.1).1 (Src.code9_spec h2.1).1 (by decide) (by decide) (by
    decide) (by decide)
    (by decide) fun F hc ho hx hg hd ha hb hC ht hr hf hm => ?_
  refine (decodeMemL_of hc ho hx (by decide)).trans ?_
  change (do
    let g ← F.guard
    F.field (F.d9 = 0 ∧ F.c = 0 ∧ F.mod = 0)
    let a ← F.src9 64 F.a9
    let b ← F.src9 64 F.b9
    F.align (a.aligned 64 && b.aligned 64)
    pure (Instr.hfree g a b)) = _
  simp only [hd, ha, hb, hC, ht, hr, hf, hm, Fields.guard_spec h0 hg, Fields.src9_spec h1.1, h1.2, Fields.src9_spec h2.1,
    h2.2, true_and, and_true, ok_bind, Fields.field, Fields.align, Bool.and_self, decide_true, if_true, and_self]
  rfl

theorem cinv (g : Guard) (l2 : Bool) (a b : Src) : Statement (.cinv g l2 a b) := by
  intro h c' ws e tail
  replace h : (g.ok && a.ok9 64 && b.ok9 32) = true := h
  simp only [Bool.and_eq_true] at h
  obtain ⟨⟨h0, h1⟩, h2⟩ := h
  simp only [Src.ok9, Bool.and_eq_true] at h1
  simp only [Src.ok9, Bool.and_eq_true] at h2
  cases e
  refine decode_L (Guard.code_lt h0) (by decide) (Src.code9_spec h1.1).1 (Src.code9_spec h2.1).1 (by decide) (by decide) (by
    decide) (by cases l2 <;> decide)
    (by decide) fun F hc ho hx hg hd ha hb hC ht hr hf hm => ?_
  refine (decodeMemL_of hc ho hx (by decide)).trans ?_
  have f_l2 : F.flag 0 = l2 := by rw [Fields.flag, hf]; cases l2 <;> rfl
  have c4 : (l2.toNat * 1) < 2 := by cases l2 <;> decide
  change (do
    let g ← F.guard
    F.field (F.d9 = 0 ∧ F.c = 0 ∧ F.ty = 0 ∧ F.rm = 0 ∧ F.fl < 2)
    let l2 := F.flag 0
    let a ← F.src9 64 F.a9
    let b ← F.src9 32 F.b9
    F.align (a.aligned 64)
    pure (Instr.cinv g l2 a b)) = _
  simp only [hd, ha, hb, hC, ht, hr, hf, hm, Fields.guard_spec h0 hg, f_l2, Fields.src9_spec h1.1, h1.2, Fields.src9_spec
    h2.1, c4, true_and, and_true, ok_bind, Fields.field, Fields.align, Bool.and_self, decide_true, if_true, and_self]
  rfl

theorem cwb (g : Guard) (l2 : Bool) (a b : Src) : Statement (.cwb g l2 a b) := by
  intro h c' ws e tail
  replace h : (g.ok && a.ok9 64 && b.ok9 32) = true := h
  simp only [Bool.and_eq_true] at h
  obtain ⟨⟨h0, h1⟩, h2⟩ := h
  simp only [Src.ok9, Bool.and_eq_true] at h1
  simp only [Src.ok9, Bool.and_eq_true] at h2
  cases e
  refine decode_L (Guard.code_lt h0) (by decide) (Src.code9_spec h1.1).1 (Src.code9_spec h2.1).1 (by decide) (by decide) (by
    decide) (by cases l2 <;> decide)
    (by decide) fun F hc ho hx hg hd ha hb hC ht hr hf hm => ?_
  refine (decodeMemL_of hc ho hx (by decide)).trans ?_
  have f_l2 : F.flag 0 = l2 := by rw [Fields.flag, hf]; cases l2 <;> rfl
  have c4 : (l2.toNat * 1) < 2 := by cases l2 <;> decide
  change (do
    let g ← F.guard
    F.field (F.d9 = 0 ∧ F.c = 0 ∧ F.ty = 0 ∧ F.rm = 0 ∧ F.fl < 2)
    let l2 := F.flag 0
    let a ← F.src9 64 F.a9
    let b ← F.src9 32 F.b9
    F.align (a.aligned 64)
    pure (Instr.cwb g l2 a b)) = _
  simp only [hd, ha, hb, hC, ht, hr, hf, hm, Fields.guard_spec h0 hg, f_l2, Fields.src9_spec h1.1, h1.2, Fields.src9_spec
    h2.1, c4, true_and, and_true, ok_bind, Fields.field, Fields.align, Bool.and_self, decide_true, if_true, and_self]
  rfl

theorem mma (g : Guard) (ty : Ty) (x : Src) (ma mb : Nat) (c : Src) : Statement (.mma g ty x ma mb c) := by
  intro h c' ws e tail
  replace h : (g.ok && ([.bf16, .f16, .e4m3, .e5m2]).contains ty && x.ok9 32 && decide (ma < 16) && decide (mb < 16) && c.ok9
    32) = true := h
  simp only [Bool.and_eq_true] at h
  obtain ⟨⟨⟨⟨⟨h0, h1⟩, h2⟩, h3⟩, h4⟩, h5⟩ := h
  simp only [Src.ok9, Bool.and_eq_true] at h2
  simp only [decide_eq_true_eq] at h3
  simp only [decide_eq_true_eq] at h4
  simp only [Src.ok9, Bool.and_eq_true] at h5
  cases e
  refine decode_L (Guard.code_lt h0) (Src.code9_spec h2.1).1 (by omega) (by omega) (Src.code9_spec h5.1).1 (Ty.code_lt ty)
    (by decide) (by decide)
    (by decide) fun F hc ho hx hg hd ha hb hC ht hr hf hm => ?_
  refine (decodeMatL_of hc ho hx (by decide)).trans ?_
  change (do
    let g ← F.guard
    F.field (F.rm = 0 ∧ F.fl = 0)
    let ty ← F.tyIn F.ty [.bf16, .f16, .e4m3, .e5m2]
    let x ← F.src9 32 F.d9
    let ma ← F.map F.a9
    let mb ← F.map F.b9
    let c ← F.src9 32 F.c
    pure (Instr.mma g ty x ma mb c)) = _
  simp only [hd, ha, hb, hC, ht, hr, hf, hm, Fields.guard_spec h0 hg, Fields.tyIn_spec h1, Fields.src9_spec h2.1,
    Fields.map_spec h3, Fields.map_spec h4, Fields.src9_spec h5.1, true_and, and_true, ok_bind, Fields.field, Fields.align,
      Bool.and_self, decide_true, if_true, and_self]
  rfl

theorem mmasc (g : Guard) (ty : Ty) (bs k : Nat) (x : Src) (ma mb : Nat) (c : Src) : Statement (.mmasc g ty bs k x ma mb c)
  := by
  intro h c' ws e tail
  replace h : (g.ok && ([.e4m3, .e5m2, .e2m1]).contains ty && decide (bs < 4) && decide (k < 8) && x.ok9 32 && decide (ma <
    16) && decide (mb < 16) && c.ok9 64) = true := h
  simp only [Bool.and_eq_true] at h
  obtain ⟨⟨⟨⟨⟨⟨⟨h0, h1⟩, h2⟩, h3⟩, h4⟩, h5⟩, h6⟩, h7⟩ := h
  simp only [decide_eq_true_eq] at h2
  simp only [decide_eq_true_eq] at h3
  simp only [Src.ok9, Bool.and_eq_true] at h4
  simp only [decide_eq_true_eq] at h5
  simp only [decide_eq_true_eq] at h6
  simp only [Src.ok9, Bool.and_eq_true] at h7
  cases e
  refine decode_L (Guard.code_lt h0) (Src.code9_spec h4.1).1 (by omega) (by omega) (Src.code9_spec h7.1).1 (Ty.code_lt ty)
    (by omega) (by omega)
    (by decide) fun F hc ho hx hg hd ha hb hC ht hr hf hm => ?_
  refine (decodeMatL_of hc ho hx (by decide)).trans ?_
  change (do
    let g ← F.guard
    F.field (F.rm < 4 ∧ F.fl < 8)
    let ty ← F.tyIn F.ty [.e4m3, .e5m2, .e2m1]
    let bs := F.rm
    let k := F.fl
    let x ← F.src9 32 F.d9
    let ma ← F.map F.a9
    let mb ← F.map F.b9
    let c ← F.src9 64 F.c
    F.align (c.aligned 64)
    pure (Instr.mmasc g ty bs k x ma mb c)) = _
  simp only [hd, ha, hb, hC, ht, hr, hf, hm, Fields.guard_spec h0 hg, Fields.tyIn_spec h1, h2, h3, Fields.src9_spec h4.1,
    Fields.map_spec h5, Fields.map_spec h6, Fields.src9_spec h7.1, h7.2, true_and, and_true, ok_bind, Fields.field,
      Fields.align, Bool.and_self, decide_true, if_true, and_self]
  rfl

theorem accld (g : Guard) (ty : Ty) (d : Dst) (a b : Src) : Statement (.accld g ty d a b) := by
  intro h c' ws e tail
  replace h : (g.ok && ([.f32, .bf16]).contains ty && d.ok9 32 && a.ok9 32 && b.ok9 32) = true := h
  simp only [Bool.and_eq_true] at h
  obtain ⟨⟨⟨⟨h0, h1⟩, h2⟩, h3⟩, h4⟩ := h
  simp only [Dst.ok9, Bool.and_eq_true] at h2
  simp only [Src.ok9, Bool.and_eq_true] at h3
  simp only [Src.ok9, Bool.and_eq_true] at h4
  cases e
  refine decode_L (Guard.code_lt h0) (Dst.code9_spec h2.1).1 (Src.code9_spec h3.1).1 (Src.code9_spec h4.1).1 (by decide)
    (Ty.code_lt ty) (by decide) (by decide)
    (by decide) fun F hc ho hx hg hd ha hb hC ht hr hf hm => ?_
  refine (decodeMatL_of hc ho hx (by decide)).trans ?_
  change (do
    let g ← F.guard
    F.field (F.c = 0 ∧ F.rm = 0 ∧ F.fl = 0)
    let ty ← F.tyIn F.ty [.f32, .bf16]
    let d ← F.dst9 32 F.d9
    let a ← F.src9 32 F.a9
    let b ← F.src9 32 F.b9
    pure (Instr.accld g ty d a b)) = _
  simp only [hd, ha, hb, hC, ht, hr, hf, hm, Fields.guard_spec h0 hg, Fields.tyIn_spec h1, Fields.dst9_spec h2.1,
    Fields.src9_spec h3.1, Fields.src9_spec h4.1, true_and, and_true, ok_bind, Fields.field, Fields.align, Bool.and_self,
      decide_true, if_true, and_self]
  rfl

theorem accst (g : Guard) (x a b : Src) : Statement (.accst g x a b) := by
  intro h c' ws e tail
  replace h : (g.ok && x.ok9 32 && a.ok9 32 && b.ok9 32) = true := h
  simp only [Bool.and_eq_true] at h
  obtain ⟨⟨⟨h0, h1⟩, h2⟩, h3⟩ := h
  simp only [Src.ok9, Bool.and_eq_true] at h1
  simp only [Src.ok9, Bool.and_eq_true] at h2
  simp only [Src.ok9, Bool.and_eq_true] at h3
  cases e
  refine decode_L (Guard.code_lt h0) (Src.code9_spec h1.1).1 (Src.code9_spec h2.1).1 (Src.code9_spec h3.1).1 (by decide) (by
    decide) (by decide) (by decide)
    (by decide) fun F hc ho hx hg hd ha hb hC ht hr hf hm => ?_
  refine (decodeMatL_of hc ho hx (by decide)).trans ?_
  have t1 : tyOf F.ty = Ty.f32 := by rw [ht]; rfl
  change (do
    let g ← F.guard
    F.field (F.c = 0 ∧ F.rm = 0 ∧ F.fl = 0 ∧ tyOf F.ty = Ty.f32)
    let x ← F.src9 32 F.d9
    let a ← F.src9 32 F.a9
    let b ← F.src9 32 F.b9
    pure (Instr.accst g x a b)) = _
  simp only [hd, ha, hb, hC, ht, hr, hf, hm, Fields.guard_spec h0 hg, Fields.src9_spec h1.1, Fields.src9_spec h2.1,
    Fields.src9_spec h3.1, t1, true_and, and_true, ok_bind, Fields.field, Fields.align, Bool.and_self, decide_true, if_true,
      and_self]
  rfl

theorem acczero (g : Guard) (a b : Src) : Statement (.acczero g a b) := by
  intro h c' ws e tail
  replace h : (g.ok && a.ok9 32 && b.ok9 32) = true := h
  simp only [Bool.and_eq_true] at h
  obtain ⟨⟨h0, h1⟩, h2⟩ := h
  simp only [Src.ok9, Bool.and_eq_true] at h1
  simp only [Src.ok9, Bool.and_eq_true] at h2
  cases e
  refine decode_L (Guard.code_lt h0) (by decide) (Src.code9_spec h1.1).1 (Src.code9_spec h2.1).1 (by decide) (by decide) (by
    decide) (by decide)
    (by decide) fun F hc ho hx hg hd ha hb hC ht hr hf hm => ?_
  refine (decodeMatL_of hc ho hx (by decide)).trans ?_
  change (do
    let g ← F.guard
    F.field (F.d9 = 0 ∧ F.c = 0 ∧ F.mod = 0)
    let a ← F.src9 32 F.a9
    let b ← F.src9 32 F.b9
    pure (Instr.acczero g a b)) = _
  simp only [hd, ha, hb, hC, ht, hr, hf, hm, Fields.guard_spec h0 hg, Fields.src9_spec h1.1, Fields.src9_spec h2.1, true_and,
    and_true, ok_bind, Fields.field, Fields.align, Bool.and_self, decide_true, if_true, and_self]
  rfl

theorem accwin (g : Guard) (a b : Src) : Statement (.accwin g a b) := by
  intro h c' ws e tail
  replace h : (g.ok && a.ok9 32 && b.ok9 32) = true := h
  simp only [Bool.and_eq_true] at h
  obtain ⟨⟨h0, h1⟩, h2⟩ := h
  simp only [Src.ok9, Bool.and_eq_true] at h1
  simp only [Src.ok9, Bool.and_eq_true] at h2
  cases e
  refine decode_L (Guard.code_lt h0) (by decide) (Src.code9_spec h1.1).1 (Src.code9_spec h2.1).1 (by decide) (by decide) (by
    decide) (by decide)
    (by decide) fun F hc ho hx hg hd ha hb hC ht hr hf hm => ?_
  refine (decodeMatL_of hc ho hx (by decide)).trans ?_
  change (do
    let g ← F.guard
    F.field (F.d9 = 0 ∧ F.c = 0 ∧ F.mod = 0)
    let a ← F.src9 32 F.a9
    let b ← F.src9 32 F.b9
    pure (Instr.accwin g a b)) = _
  simp only [hd, ha, hb, hC, ht, hr, hf, hm, Fields.guard_spec h0 hg, Fields.src9_spec h1.1, Fields.src9_spec h2.1, true_and,
    and_true, ok_bind, Fields.field, Fields.align, Bool.and_self, decide_true, if_true, and_self]
  rfl

theorem opmap (g : Guard) (m : Nat) (a : Src) : Statement (.opmap g m a) := by
  intro h c' ws e tail
  replace h : (g.ok && decide (m < 16) && a.ok9 64) = true := h
  simp only [Bool.and_eq_true] at h
  obtain ⟨⟨h0, h1⟩, h2⟩ := h
  simp only [decide_eq_true_eq] at h1
  simp only [Src.ok9, Bool.and_eq_true] at h2
  cases e
  refine decode_L (Guard.code_lt h0) (by omega) (Src.code9_spec h2.1).1 (by decide) (by decide) (by decide) (by decide) (by
    decide)
    (by decide) fun F hc ho hx hg hd ha hb hC ht hr hf hm => ?_
  refine (decodeMatL_of hc ho hx (by decide)).trans ?_
  change (do
    let g ← F.guard
    F.field (F.b9 = 0 ∧ F.c = 0 ∧ F.mod = 0)
    let m ← F.map F.d9
    let a ← F.src9 64 F.a9
    F.align (a.aligned 64)
    pure (Instr.opmap g m a)) = _
  simp only [hd, ha, hb, hC, ht, hr, hf, hm, Fields.guard_spec h0 hg, Fields.map_spec h1, Fields.src9_spec h2.1, h2.2,
    true_and, and_true, ok_bind, Fields.field, Fields.align, Bool.and_self, decide_true, if_true, and_self]
  rfl

theorem mwait (g : Guard) : Statement (.mwait g) := by
  intro h c' ws e tail
  replace h : (g.ok) = true := h
  have h0 := h
  cases e
  refine decode_L (Guard.code_lt h0) (by decide) (by decide) (by decide) (by decide) (by decide) (by decide) (by decide)
    (by decide) fun F hc ho hx hg hd ha hb hC ht hr hf hm => ?_
  refine (decodeMatL_of hc ho hx (by decide)).trans ?_
  change (do
    let g ← F.guard
    F.field (F.d9 = 0 ∧ F.a9 = 0 ∧ F.b9 = 0 ∧ F.c = 0 ∧ F.mod = 0)
    pure (Instr.mwait g)) = _
  simp only [hd, ha, hb, hC, ht, hr, hf, hm, Fields.guard_spec h0 hg, true_and, and_true, ok_bind, Fields.field,
    Fields.align, Bool.and_self, decide_true, if_true, and_self]
  rfl

theorem accldBand (g : Guard) (d : Dst) (a b c : Src) : Statement (.accldBand g d a b c) := by
  intro h c' ws e tail
  replace h : (g.ok && d.ok9 32 && a.ok9 32 && b.ok9 32 && c.ok9 32) = true := h
  simp only [Bool.and_eq_true] at h
  obtain ⟨⟨⟨⟨h0, h1⟩, h2⟩, h3⟩, h4⟩ := h
  simp only [Dst.ok9, Bool.and_eq_true] at h1
  simp only [Src.ok9, Bool.and_eq_true] at h2
  simp only [Src.ok9, Bool.and_eq_true] at h3
  simp only [Src.ok9, Bool.and_eq_true] at h4
  cases e
  refine decode_L (Guard.code_lt h0) (Dst.code9_spec h1.1).1 (Src.code9_spec h2.1).1 (Src.code9_spec h3.1).1 (Src.code9_spec
    h4.1).1 (by decide) (by decide) (by decide)
    (by decide) fun F hc ho hx hg hd ha hb hC ht hr hf hm => ?_
  refine (decodeMatL_of hc ho hx (by decide)).trans ?_
  have t1 : tyOf F.ty = Ty.f32 := by rw [ht]; rfl
  change (do
    let g ← F.guard
    F.field (F.rm = 0 ∧ F.fl = 0 ∧ tyOf F.ty = Ty.f32)
    let d ← F.dst9 32 F.d9
    let a ← F.src9 32 F.a9
    let b ← F.src9 32 F.b9
    let c ← F.src9 32 F.c
    pure (Instr.accldBand g d a b c)) = _
  simp only [hd, ha, hb, hC, ht, hr, hf, hm, Fields.guard_spec h0 hg, Fields.dst9_spec h1.1, Fields.src9_spec h2.1,
    Fields.src9_spec h3.1, Fields.src9_spec h4.1, t1, true_and, and_true, ok_bind, Fields.field, Fields.align, Bool.and_self,
      decide_true, if_true, and_self]
  rfl

theorem mmaprogRd (g : Guard) (q : Nat) (d : Dst) (a : Src) : Statement (.mmaprogRd g q d a) := by
  intro h c' ws e tail
  replace h : (g.ok && decide (q < 8) && d.ok9 32 && a.ok9 32) = true := h
  simp only [Bool.and_eq_true] at h
  obtain ⟨⟨⟨h0, h1⟩, h2⟩, h3⟩ := h
  simp only [decide_eq_true_eq] at h1
  simp only [Dst.ok9, Bool.and_eq_true] at h2
  simp only [Src.ok9, Bool.and_eq_true] at h3
  cases e
  refine decode_L (Guard.code_lt h0) (Dst.code9_spec h2.1).1 (Src.code9_spec h3.1).1 (by decide) (by omega) (by decide) (by
    decide) (by decide)
    (by decide) fun F hc ho hx hg hd ha hb hC ht hr hf hm => ?_
  refine (decodeMatL_of hc ho hx (by decide)).trans ?_
  unfold decodeMatL
  dsimp only
  rw [if_pos hf]
  simp only [hd, ha, hb, hC, ht, hr, hf, hm, Fields.guard_spec h0 hg, h1, Fields.dst9_spec h2.1, Fields.src9_spec h3.1,
    true_and, and_true, ok_bind, Fields.field, Fields.align, Bool.and_self, decide_true, if_true, and_self]
  rfl

theorem mmaprogWr (g : Guard) (q : Nat) (a b : Src) : Statement (.mmaprogWr g q a b) := by
  intro h c' ws e tail
  replace h : (g.ok && decide (q < 8) && a.ok9 32 && b.ok9 32) = true := h
  simp only [Bool.and_eq_true] at h
  obtain ⟨⟨⟨h0, h1⟩, h2⟩, h3⟩ := h
  simp only [decide_eq_true_eq] at h1
  simp only [Src.ok9, Bool.and_eq_true] at h2
  simp only [Src.ok9, Bool.and_eq_true] at h3
  cases e
  refine decode_L (Guard.code_lt h0) (by decide) (Src.code9_spec h2.1).1 (Src.code9_spec h3.1).1 (by omega) (by decide) (by
    decide) (by decide)
    (by decide) fun F hc ho hx hg hd ha hb hC ht hr hf hm => ?_
  refine (decodeMatL_of hc ho hx (by decide)).trans ?_
  unfold decodeMatL
  dsimp only
  rw [if_neg (by rw [hf]; decide)]
  simp only [hd, ha, hb, hC, ht, hr, hf, hm, Fields.guard_spec h0 hg, h1, Fields.src9_spec h2.1, Fields.src9_spec h3.1,
    true_and, and_true, ok_bind, Fields.field, Fields.align, Bool.and_self, decide_true, if_true, and_self]
  rfl

theorem bra (g : Guard) (off : Int) : Statement (.bra g off) := by
  intro h c' ws e tail
  replace h : (g.ok && decide (-1048576 ≤ off ∧ off < 1048576)) = true := h
  simp only [Bool.and_eq_true] at h
  obtain ⟨h0, h1⟩ := h
  simp only [decide_eq_true_eq] at h1
  cases e
  rw [offWord_eq]
  refine decode_S (Guard.code_lt h0) (offset_lt off) (by omega) (by omega) (by decide) fun F hc ho hg hd ha hb => ?_
  refine (decodeCtl_of hc ho (by decide) (by decide)).trans ?_
  change (do
    let g ← F.guard
    let off := signed 21 (F.d * 16384 + F.a * 128 + F.b)
    pure (Instr.bra g off)) = _
  simp only [hd, ha, hb, Fields.guard_spec h0 hg, offset_read h1, true_and, and_true, ok_bind, Fields.field, Fields.align,
    Bool.and_self, decide_true, if_true, and_self]
  rfl

theorem jmp (off : Int) : Statement (.jmp off) := by
  intro h c' ws e tail
  replace h : (decide (-1048576 ≤ off ∧ off < 1048576)) = true := h
  have h0 := h
  simp only [decide_eq_true_eq] at h0
  cases e
  rw [offWord_eq]
  refine decode_S (by decide) (offset_lt off) (by omega) (by omega) (by decide) fun F hc ho hg hd ha hb => ?_
  refine (decodeCtl_of hc ho (by decide) (by decide)).trans ?_
  change (do
    F.noGuard
    let off := signed 21 (F.d * 16384 + F.a * 128 + F.b)
    pure (Instr.jmp off)) = _
  simp only [hd, ha, hb, Fields.noGuard_spec hg, offset_read h0, true_and, and_true, ok_bind, Fields.field, Fields.align,
    Bool.and_self, decide_true, if_true, and_self]
  rfl

theorem jmpi (g : Guard) (a : Src) : Statement (.jmpi g a) := by
  intro h c' ws e tail
  replace h : (g.ok && a.ok7 64) = true := h
  simp only [Bool.and_eq_true] at h
  obtain ⟨h0, h1⟩ := h
  simp only [Src.ok7, Bool.and_eq_true] at h1
  cases e
  refine decode_S (Guard.code_lt h0) (by decide) (Src.code7_spec h1.1).1 (by decide) (by decide) fun F hc ho hg hd ha hb => ?_
  refine (decodeCtl_of hc ho (by decide) (by decide)).trans ?_
  change (do
    let g ← F.guard
    F.field (F.d = 0 ∧ F.b = 0)
    let a ← F.src7 64 F.a
    F.align (a.aligned 64)
    pure (Instr.jmpi g a)) = _
  simp only [hd, ha, hb, Fields.guard_spec h0 hg, Fields.src7_spec h1.1, h1.2, true_and, and_true, ok_bind, Fields.field,
    Fields.align, Bool.and_self, decide_true, if_true, and_self]
  rfl

theorem call (g : Guard) (off : Int) : Statement (.call g off) := by
  intro h c' ws e tail
  replace h : (g.ok && decide (-1048576 ≤ off ∧ off < 1048576)) = true := h
  simp only [Bool.and_eq_true] at h
  obtain ⟨h0, h1⟩ := h
  simp only [decide_eq_true_eq] at h1
  cases e
  rw [offWord_eq]
  refine decode_S (Guard.code_lt h0) (offset_lt off) (by omega) (by omega) (by decide) fun F hc ho hg hd ha hb => ?_
  refine (decodeCtl_of hc ho (by decide) (by decide)).trans ?_
  change (do
    let g ← F.guard
    let off := signed 21 (F.d * 16384 + F.a * 128 + F.b)
    pure (Instr.call g off)) = _
  simp only [hd, ha, hb, Fields.guard_spec h0 hg, offset_read h1, true_and, and_true, ok_bind, Fields.field, Fields.align,
    Bool.and_self, decide_true, if_true, and_self]
  rfl

theorem calli (g : Guard) (a : Src) : Statement (.calli g a) := by
  intro h c' ws e tail
  replace h : (g.ok && a.ok7 64) = true := h
  simp only [Bool.and_eq_true] at h
  obtain ⟨h0, h1⟩ := h
  simp only [Src.ok7, Bool.and_eq_true] at h1
  cases e
  refine decode_S (Guard.code_lt h0) (by decide) (Src.code7_spec h1.1).1 (by decide) (by decide) fun F hc ho hg hd ha hb => ?_
  refine (decodeCtl_of hc ho (by decide) (by decide)).trans ?_
  change (do
    let g ← F.guard
    F.field (F.d = 0 ∧ F.b = 0)
    let a ← F.src7 64 F.a
    F.align (a.aligned 64)
    pure (Instr.calli g a)) = _
  simp only [hd, ha, hb, Fields.guard_spec h0 hg, Fields.src7_spec h1.1, h1.2, true_and, and_true, ok_bind, Fields.field,
    Fields.align, Bool.and_self, decide_true, if_true, and_self]
  rfl

theorem ret (g : Guard) : Statement (.ret g) := by
  intro h c' ws e tail
  replace h : (g.ok) = true := h
  have h0 := h
  cases e
  refine decode_S (Guard.code_lt h0) (by decide) (by decide) (by decide) (by decide) fun F hc ho hg hd ha hb => ?_
  refine (decodeCtl_of hc ho (by decide) (by decide)).trans ?_
  change (do
    let g ← F.guard
    F.field (F.d = 0 ∧ F.a = 0 ∧ F.b = 0)
    pure (Instr.ret g)) = _
  simp only [hd, ha, hb, Fields.guard_spec h0 hg, true_and, and_true, ok_bind, Fields.field, Fields.align, Bool.and_self,
    decide_true, if_true, and_self]
  rfl

theorem exit (g : Guard) : Statement (.exit g) := by
  intro h c' ws e tail
  replace h : (g.ok) = true := h
  have h0 := h
  cases e
  refine decode_S (Guard.code_lt h0) (by decide) (by decide) (by decide) (by decide) fun F hc ho hg hd ha hb => ?_
  refine (decodeCtl_of hc ho (by decide) (by decide)).trans ?_
  change (do
    let g ← F.guard
    F.field (F.d = 0 ∧ F.a = 0 ∧ F.b = 0)
    pure (Instr.exit g)) = _
  simp only [hd, ha, hb, Fields.guard_spec h0 hg, true_and, and_true, ok_bind, Fields.field, Fields.align, Bool.and_self,
    decide_true, if_true, and_self]
  rfl

theorem nop (g : Guard) : Statement (.nop g) := by
  intro h c' ws e tail
  replace h : (g.ok) = true := h
  have h0 := h
  cases e
  refine decode_S (Guard.code_lt h0) (by decide) (by decide) (by decide) (by decide) fun F hc ho hg hd ha hb => ?_
  refine (decodeCtl_of hc ho (by decide) (by decide)).trans ?_
  change (do
    let g ← F.guard
    F.field (F.d = 0 ∧ F.a = 0 ∧ F.b = 0)
    pure (Instr.nop g)) = _
  simp only [hd, ha, hb, Fields.guard_spec h0 hg, true_and, and_true, ok_bind, Fields.field, Fields.align, Bool.and_self,
    decide_true, if_true, and_self]
  rfl

theorem dispatch (g : Guard) (d : Dst) (a b : Nat) : Statement (.dispatch g d a b) := by
  intro h c' ws e tail
  replace h : (g.ok && d.ok7 32 && ([0, 2, 4, 8, 10, 12, 14]).contains a && ([0, 2, 4, 8, 10, 12]).contains b) = true := h
  simp only [Bool.and_eq_true] at h
  obtain ⟨⟨⟨h0, h1⟩, h2⟩, h3⟩ := h
  simp only [Dst.ok7, Bool.and_eq_true] at h1
  cases e
  refine decode_S (Guard.code_lt h0) (Dst.code7_spec h1.1).1 (by have := Fields.sIdx_lt (n := a) (by decide) h2; omega) (by
    have := Fields.sIdx_lt (n := b) (by decide) h3; omega) (by decide) fun F hc ho hg hd ha hb => ?_
  refine (decodeCtl_of hc ho (by decide) (by decide)).trans ?_
  change (do
    let g ← F.guard
    let d ← F.dst7 32 F.d
    let a ← F.sIdx F.a [0, 2, 4, 8, 10, 12, 14]
    let b ← F.sIdx F.b [0, 2, 4, 8, 10, 12]
    pure (Instr.dispatch g d a b)) = _
  simp only [hd, ha, hb, Fields.guard_spec h0 hg, Fields.dst7_spec h1.1, Fields.sIdx_spec (by decide) h2, Fields.sIdx_spec
    (by decide) h3, true_and, and_true, ok_bind, Fields.field, Fields.align, Bool.and_self, decide_true, if_true, and_self]
  rfl

theorem gpcadd (g : Guard) (a : Src) : Statement (.gpcadd g a) := by
  intro h c' ws e tail
  replace h : (g.ok && a.ok7 32) = true := h
  simp only [Bool.and_eq_true] at h
  obtain ⟨h0, h1⟩ := h
  simp only [Src.ok7, Bool.and_eq_true] at h1
  cases e
  refine decode_S (Guard.code_lt h0) (by decide) (Src.code7_spec h1.1).1 (by decide) (by decide) fun F hc ho hg hd ha hb => ?_
  refine (decodeCtl_of hc ho (by decide) (by decide)).trans ?_
  change (do
    let g ← F.guard
    F.field (F.d = 0 ∧ F.b = 0)
    let a ← F.src7 32 F.a
    pure (Instr.gpcadd g a)) = _
  simp only [hd, ha, hb, Fields.guard_spec h0 hg, Fields.src7_spec h1.1, true_and, and_true, ok_bind, Fields.field,
    Fields.align, Bool.and_self, decide_true, if_true, and_self]
  rfl

theorem gpcset (g : Guard) (a : Src) : Statement (.gpcset g a) := by
  intro h c' ws e tail
  replace h : (g.ok && a.ok7 32) = true := h
  simp only [Bool.and_eq_true] at h
  obtain ⟨h0, h1⟩ := h
  simp only [Src.ok7, Bool.and_eq_true] at h1
  cases e
  refine decode_S (Guard.code_lt h0) (by decide) (Src.code7_spec h1.1).1 (by decide) (by decide) fun F hc ho hg hd ha hb => ?_
  refine (decodeCtl_of hc ho (by decide) (by decide)).trans ?_
  change (do
    let g ← F.guard
    F.field (F.d = 0 ∧ F.b = 0)
    let a ← F.src7 32 F.a
    pure (Instr.gpcset g a)) = _
  simp only [hd, ha, hb, Fields.guard_spec h0 hg, Fields.src7_spec h1.1, true_and, and_true, ok_bind, Fields.field,
    Fields.align, Bool.and_self, decide_true, if_true, and_self]
  rfl

theorem loop (n k : Nat) (off : Int) : Statement (.loop n k off) := by
  intro h c' ws e tail
  replace h : (decide (n < 3) && decide (k < 8) && decide (-1048576 ≤ off ∧ off < 1048576)) = true := h
  simp only [Bool.and_eq_true] at h
  obtain ⟨⟨h0, h1⟩, h2⟩ := h
  simp only [decide_eq_true_eq] at h0
  simp only [decide_eq_true_eq] at h1
  simp only [decide_eq_true_eq] at h2
  cases e
  rw [loopWord_eq]
  rw [offWord_eq]
  refine decode_S (by omega) (offset_lt off) (by omega) (by omega) (by decide) fun F hc ho hg hd ha hb => ?_
  refine (decodeCtl_of hc ho (by decide) (by decide)).trans ?_
  have b1 : F.loopN = n := by rw [Fields.loopN_pg, hg]; omega
  have b2 : F.loopK = k := by rw [Fields.loopK_pg, hg]; omega
  change (do
    F.field (F.loopN < 3)
    let n := F.loopN
    let k := F.loopK
    let off := signed 21 (F.d * 16384 + F.a * 128 + F.b)
    pure (Instr.loop n k off)) = _
  simp only [hd, ha, hb, h0, h1, offset_read h2, b1, b2, true_and, and_true, ok_bind, Fields.field, Fields.align,
    Bool.and_self, decide_true, if_true, and_self]
  rfl

theorem barWg : Statement (.barWg) := by
  intro h c' ws e tail
  replace h : (true) = true := h
  cases e
  refine decode_S (by decide) (by decide) (by decide) (by decide) (by decide) fun F hc ho hg hd ha hb => ?_
  refine (decodeCtl_of hc ho (by decide) (by decide)).trans ?_
  change (do
    F.noGuard
    F.field (F.d = 0 ∧ F.a = 0 ∧ F.b = 0)
    pure (Instr.barWg)) = _
  simp only [hd, ha, hb, Fields.noGuard_spec hg, true_and, and_true, ok_bind, Fields.field, Fields.align, Bool.and_self,
    decide_true, if_true, and_self]
  rfl

theorem join : Statement (.join) := by
  intro h c' ws e tail
  replace h : (true) = true := h
  cases e
  refine decode_S (by decide) (by decide) (by decide) (by decide) (by decide) fun F hc ho hg hd ha hb => ?_
  refine (decodeCtl_of hc ho (by decide) (by decide)).trans ?_
  change (do
    F.noGuard
    F.field (F.d = 0 ∧ F.a = 0 ∧ F.b = 0)
    pure (Instr.join)) = _
  simp only [hd, ha, hb, Fields.noGuard_spec hg, true_and, and_true, ok_bind, Fields.field, Fields.align, Bool.and_self,
    decide_true, if_true, and_self]
  rfl

theorem sleep (g : Guard) (a : Src) : Statement (.sleep g a) := by
  intro h c' ws e tail
  replace h : (g.ok && a.ok7 32) = true := h
  simp only [Bool.and_eq_true] at h
  obtain ⟨h0, h1⟩ := h
  simp only [Src.ok7, Bool.and_eq_true] at h1
  cases e
  refine decode_S (Guard.code_lt h0) (by decide) (Src.code7_spec h1.1).1 (by decide) (by decide) fun F hc ho hg hd ha hb => ?_
  refine (decodeCtl_of hc ho (by decide) (by decide)).trans ?_
  change (do
    let g ← F.guard
    F.field (F.d = 0 ∧ F.b = 0)
    let a ← F.src7 32 F.a
    pure (Instr.sleep g a)) = _
  simp only [hd, ha, hb, Fields.guard_spec h0 hg, Fields.src7_spec h1.1, true_and, and_true, ok_bind, Fields.field,
    Fields.align, Bool.and_self, decide_true, if_true, and_self]
  rfl

theorem wait (g : Guard) (a : Src) : Statement (.wait g a) := by
  intro h c' ws e tail
  replace h : (g.ok && a.ok7 64) = true := h
  simp only [Bool.and_eq_true] at h
  obtain ⟨h0, h1⟩ := h
  simp only [Src.ok7, Bool.and_eq_true] at h1
  cases e
  refine decode_S (Guard.code_lt h0) (by decide) (Src.code7_spec h1.1).1 (by decide) (by decide) fun F hc ho hg hd ha hb => ?_
  refine (decodeCtl_of hc ho (by decide) (by decide)).trans ?_
  change (do
    let g ← F.guard
    F.field (F.d = 0 ∧ F.b = 0)
    let a ← F.src7 64 F.a
    F.align (a.aligned 64)
    pure (Instr.wait g a)) = _
  simp only [hd, ha, hb, Fields.guard_spec h0 hg, Fields.src7_spec h1.1, h1.2, true_and, and_true, ok_bind, Fields.field,
    Fields.align, Bool.and_self, decide_true, if_true, and_self]
  rfl

theorem spawn (g : Guard) (a b : Src) : Statement (.spawn g a b) := by
  intro h c' ws e tail
  replace h : (g.ok && a.ok7 32 && b.ok7 32) = true := h
  simp only [Bool.and_eq_true] at h
  obtain ⟨⟨h0, h1⟩, h2⟩ := h
  simp only [Src.ok7, Bool.and_eq_true] at h1
  simp only [Src.ok7, Bool.and_eq_true] at h2
  cases e
  refine decode_S (Guard.code_lt h0) (by decide) (Src.code7_spec h1.1).1 (Src.code7_spec h2.1).1 (by decide) fun F hc ho hg
    hd ha hb => ?_
  refine (decodeCtl_of hc ho (by decide) (by decide)).trans ?_
  unfold decodeCtl
  dsimp only
  rw [if_pos hd]
  simp only [hd, ha, hb, Fields.guard_spec h0 hg, Fields.src7_spec h1.1, Fields.src7_spec h2.1, true_and, and_true, ok_bind,
    Fields.field, Fields.align, Bool.and_self, decide_true, if_true, and_self]
  rfl

theorem spawnTry (g : Guard) (a b : Src) : Statement (.spawnTry g a b) := by
  intro h c' ws e tail
  replace h : (g.ok && g.guarded && a.ok7 32 && b.ok7 32) = true := h
  simp only [Bool.and_eq_true] at h
  obtain ⟨⟨⟨h0, h1⟩, h2⟩, h3⟩ := h
  simp only [Src.ok7, Bool.and_eq_true] at h2
  simp only [Src.ok7, Bool.and_eq_true] at h3
  cases e
  refine decode_S (Guard.code_lt h0) (by decide) (Src.code7_spec h2.1).1 (Src.code7_spec h3.1).1 (by decide) fun F hc ho hg
    hd ha hb => ?_
  refine (decodeCtl_of hc ho (by decide) (by decide)).trans ?_
  unfold decodeCtl
  dsimp only
  rw [if_neg (by rw [hd]; decide)]
  simp only [hd, ha, hb, Fields.guard_spec h0 hg, Fields.src7_spec h2.1, Fields.src7_spec h3.1, h1, true_and, and_true,
    ok_bind, Fields.field, Fields.align, Bool.and_self, decide_true, if_true, and_self]
  rfl

theorem brk (g : Guard) : Statement (.brk g) := by
  intro h c' ws e tail
  replace h : (g.ok) = true := h
  have h0 := h
  cases e
  refine decode_S (Guard.code_lt h0) (by decide) (by decide) (by decide) (by decide) fun F hc ho hg hd ha hb => ?_
  refine (decodeCtl_of hc ho (by decide) (by decide)).trans ?_
  change (do
    let g ← F.guard
    F.field (F.d = 0 ∧ F.a = 0 ∧ F.b = 0)
    pure (Instr.brk g)) = _
  simp only [hd, ha, hb, Fields.guard_spec h0 hg, true_and, and_true, ok_bind, Fields.field, Fields.align, Bool.and_self,
    decide_true, if_true, and_self]
  rfl

theorem yield (g : Guard) : Statement (.yield g) := by
  intro h c' ws e tail
  replace h : (g.ok) = true := h
  have h0 := h
  cases e
  refine decode_S (Guard.code_lt h0) (by decide) (by decide) (by decide) (by decide) fun F hc ho hg hd ha hb => ?_
  refine (decodeCtl_of hc ho (by decide) (by decide)).trans ?_
  change (do
    let g ← F.guard
    F.field (F.d = 0 ∧ F.a = 0 ∧ F.b = 0)
    pure (Instr.yield g)) = _
  simp only [hd, ha, hb, Fields.guard_spec h0 hg, true_and, and_true, ok_bind, Fields.field, Fields.align, Bool.and_self,
    decide_true, if_true, and_self]
  rfl

theorem gmode (g : Guard) (m : Nat) : Statement (.gmode g m) := by
  intro h c' ws e tail
  replace h : (g.ok && decide (m < 3)) = true := h
  simp only [Bool.and_eq_true] at h
  obtain ⟨h0, h1⟩ := h
  simp only [decide_eq_true_eq] at h1
  cases e
  refine decode_S (Guard.code_lt h0) (by decide) (by omega) (by decide) (by decide) fun F hc ho hg hd ha hb => ?_
  refine (decodeCtl_of hc ho (by decide) (by decide)).trans ?_
  change (do
    let g ← F.guard
    F.field (F.d = 0 ∧ F.b = 0 ∧ F.a < 3)
    let m := F.a
    pure (Instr.gmode g m)) = _
  simp only [hd, ha, hb, Fields.guard_spec h0 hg, h1, true_and, and_true, ok_bind, Fields.field, Fields.align, Bool.and_self,
    decide_true, if_true, and_self]
  rfl

theorem engCopy (g : Guard) (q : Nat) (d : Dst) (a : Src) : Statement (.engCopy g q d a) := by
  intro h c' ws e tail
  replace h : (g.ok && decide (q < 4) && d.ok7 64 && a.ok7 256) = true := h
  simp only [Bool.and_eq_true] at h
  obtain ⟨⟨⟨h0, h1⟩, h2⟩, h3⟩ := h
  simp only [decide_eq_true_eq] at h1
  simp only [Dst.ok7, Bool.and_eq_true] at h2
  simp only [Src.ok7, Bool.and_eq_true] at h3
  cases e
  refine decode_S (Guard.code_lt h0) (Dst.code7_spec h2.1).1 (Src.code7_spec h3.1).1 (by omega) (by decide) fun F hc ho hg hd
    ha hb => ?_
  refine (decodeSys_of hc ho (by decide) (by decide)).trans ?_
  have b1 : q % 4 = q := by omega
  have b2 : q / 4 = 0 := by omega
  change (do
    let g ← F.guard
    F.field (F.b / 4 = 0)
    let q := F.b % 4
    let d ← F.dst7 64 F.d
    let a ← F.src7 256 F.a
    F.align (d.aligned 64 && a.aligned 256)
    pure (Instr.engCopy g q d a)) = _
  simp only [hd, ha, hb, Fields.guard_spec h0 hg, b1, b2, Fields.dst7_spec h2.1, h2.2, Fields.src7_spec h3.1, h3.2, true_and,
    and_true, ok_bind, Fields.field, Fields.align, Bool.and_self, decide_true, if_true, and_self]
  rfl

theorem engColl (g : Guard) (q : Nat) (d : Dst) (a : Src) : Statement (.engColl g q d a) := by
  intro h c' ws e tail
  replace h : (g.ok && decide (q < 4) && d.ok7 64 && a.ok7 256) = true := h
  simp only [Bool.and_eq_true] at h
  obtain ⟨⟨⟨h0, h1⟩, h2⟩, h3⟩ := h
  simp only [decide_eq_true_eq] at h1
  simp only [Dst.ok7, Bool.and_eq_true] at h2
  simp only [Src.ok7, Bool.and_eq_true] at h3
  cases e
  refine decode_S (Guard.code_lt h0) (Dst.code7_spec h2.1).1 (Src.code7_spec h3.1).1 (by omega) (by decide) fun F hc ho hg hd
    ha hb => ?_
  refine (decodeSys_of hc ho (by decide) (by decide)).trans ?_
  have b1 : (4 + q) % 4 = q := by omega
  have b2 : (4 + q) / 4 = 1 := by omega
  change (do
    let g ← F.guard
    F.field (F.b / 4 = 1)
    let q := F.b % 4
    let d ← F.dst7 64 F.d
    let a ← F.src7 256 F.a
    F.align (d.aligned 64 && a.aligned 256)
    pure (Instr.engColl g q d a)) = _
  simp only [hd, ha, hb, Fields.guard_spec h0 hg, b1, b2, Fields.dst7_spec h2.1, h2.2, Fields.src7_spec h3.1, h3.2, true_and,
    and_true, ok_bind, Fields.field, Fields.align, Bool.and_self, decide_true, if_true, and_self]
  rfl

theorem engPost (g : Guard) (qs : QSel) (a : Src) : Statement (.engPost g qs a) := by
  intro h c' ws e tail
  replace h : (g.ok && qs.okPost && a.ok7 32) = true := h
  simp only [Bool.and_eq_true] at h
  obtain ⟨⟨h0, h1⟩, h2⟩ := h
  have hq : qs.eng < 3 ∧ qs.q < 4 := by simp only [QSel.okPost, decide_eq_true_eq] at h1; omega
  simp only [Src.ok7, Bool.and_eq_true] at h2
  cases e
  refine decode_S (Guard.code_lt h0) (by decide) (Src.code7_spec h2.1).1 (by omega) (by decide) fun F hc ho hg hd ha hb => ?_
  refine (decodeSys_of hc ho (by decide) (by decide)).trans ?_
  have b1 : (qs.eng * 4 + qs.q) / 4 = qs.eng := by omega
  have b2 : (qs.eng * 4 + qs.q) % 4 = qs.q := by omega
  change (do
    let g ← F.guard
    F.field (F.d = 0)
    let qs : QSel := ⟨F.b / 4, F.b % 4⟩
    F.field (qs.okPost)
    let a ← F.src7 32 F.a
    pure (Instr.engPost g qs a)) = _
  simp only [hd, ha, hb, Fields.guard_spec h0 hg, b1, b2, h1, Fields.src7_spec h2.1, true_and, and_true, ok_bind,
    Fields.field, Fields.align, Bool.and_self, decide_true, if_true, and_self]
  rfl

theorem engSeq (g : Guard) (qs : QSel) (d : Dst) : Statement (.engSeq g qs d) := by
  intro h c' ws e tail
  replace h : (g.ok && qs.okSeq && d.ok7 64) = true := h
  simp only [Bool.and_eq_true] at h
  obtain ⟨⟨h0, h1⟩, h2⟩ := h
  have hq : qs.eng < 3 ∧ qs.q < 4 := by simp only [QSel.okSeq, decide_eq_true_eq] at h1; omega
  simp only [Dst.ok7, Bool.and_eq_true] at h2
  cases e
  refine decode_S (Guard.code_lt h0) (Dst.code7_spec h2.1).1 (by decide) (by omega) (by decide) fun F hc ho hg hd ha hb => ?_
  refine (decodeSys_of hc ho (by decide) (by decide)).trans ?_
  have b1 : (qs.eng * 4 + qs.q) / 4 = qs.eng := by omega
  have b2 : (qs.eng * 4 + qs.q) % 4 = qs.q := by omega
  change (do
    let g ← F.guard
    F.field (F.a = 0)
    let qs : QSel := ⟨F.b / 4, F.b % 4⟩
    F.field (qs.okSeq)
    let d ← F.dst7 64 F.d
    F.align (d.aligned 64)
    pure (Instr.engSeq g qs d)) = _
  simp only [hd, ha, hb, Fields.guard_spec h0 hg, b1, b2, h1, Fields.dst7_spec h2.1, h2.2, true_and, and_true, ok_bind,
    Fields.field, Fields.align, Bool.and_self, decide_true, if_true, and_self]
  rfl

theorem reelGo (g : Guard) (a b : Src) : Statement (.reelGo g a b) := by
  intro h c' ws e tail
  replace h : (g.ok && a.ok7 64 && b.ok7 32) = true := h
  simp only [Bool.and_eq_true] at h
  obtain ⟨⟨h0, h1⟩, h2⟩ := h
  simp only [Src.ok7, Bool.and_eq_true] at h1
  simp only [Src.ok7, Bool.and_eq_true] at h2
  cases e
  refine decode_S (Guard.code_lt h0) (by decide) (Src.code7_spec h1.1).1 (Src.code7_spec h2.1).1 (by decide) fun F hc ho hg
    hd ha hb => ?_
  refine (decodeSys_of hc ho (by decide) (by decide)).trans ?_
  change (do
    let g ← F.guard
    F.field (F.d = 0)
    let a ← F.src7 64 F.a
    let b ← F.src7 32 F.b
    F.align (a.aligned 64)
    pure (Instr.reelGo g a b)) = _
  simp only [hd, ha, hb, Fields.guard_spec h0 hg, Fields.src7_spec h1.1, h1.2, Fields.src7_spec h2.1, true_and, and_true,
    ok_bind, Fields.field, Fields.align, Bool.and_self, decide_true, if_true, and_self]
  rfl

theorem reelCondWrite (g : Guard) (sc : Nat) (a b : Src) : Statement (.reelCondWrite g sc a b) := by
  intro h c' ws e tail
  replace h : (g.ok && decide (sc < 3) && a.ok7 64 && b.ok7 32) = true := h
  simp only [Bool.and_eq_true] at h
  obtain ⟨⟨⟨h0, h1⟩, h2⟩, h3⟩ := h
  simp only [decide_eq_true_eq] at h1
  simp only [Src.ok7, Bool.and_eq_true] at h2
  simp only [Src.ok7, Bool.and_eq_true] at h3
  cases e
  refine decode_S (Guard.code_lt h0) (by omega) (Src.code7_spec h2.1).1 (Src.code7_spec h3.1).1 (by decide) fun F hc ho hg hd
    ha hb => ?_
  refine (decodeSys_of hc ho (by decide) (by decide)).trans ?_
  change (do
    let g ← F.guard
    F.field (F.d < 3)
    let sc := F.d
    let a ← F.src7 64 F.a
    let b ← F.src7 32 F.b
    F.align (a.aligned 64)
    pure (Instr.reelCondWrite g sc a b)) = _
  simp only [hd, ha, hb, Fields.guard_spec h0 hg, h1, Fields.src7_spec h2.1, h2.2, Fields.src7_spec h3.1, true_and, and_true,
    ok_bind, Fields.field, Fields.align, Bool.and_self, decide_true, if_true, and_self]
  rfl

theorem svc (g : Guard) (code : Nat) (a : Src) : Statement (.svc g code a) := by
  intro h c' ws e tail
  replace h : (g.ok && decide (code < 128) && a.ok7 32) = true := h
  simp only [Bool.and_eq_true] at h
  obtain ⟨⟨h0, h1⟩, h2⟩ := h
  simp only [decide_eq_true_eq] at h1
  simp only [Src.ok7, Bool.and_eq_true] at h2
  cases e
  refine decode_S (Guard.code_lt h0) (by omega) (Src.code7_spec h2.1).1 (by decide) (by decide) fun F hc ho hg hd ha hb => ?_
  refine (decodeSys_of hc ho (by decide) (by decide)).trans ?_
  change (do
    let g ← F.guard
    F.field (F.b = 0 ∧ F.d < 128)
    let code := F.d
    let a ← F.src7 32 F.a
    pure (Instr.svc g code a)) = _
  simp only [hd, ha, hb, Fields.guard_spec h0 hg, h1, Fields.src7_spec h2.1, true_and, and_true, ok_bind, Fields.field,
    Fields.align, Bool.and_self, decide_true, if_true, and_self]
  rfl

theorem svcwait (g : Guard) (d : Dst) : Statement (.svcwait g d) := by
  intro h c' ws e tail
  replace h : (g.ok && d.ok7 32) = true := h
  simp only [Bool.and_eq_true] at h
  obtain ⟨h0, h1⟩ := h
  simp only [Dst.ok7, Bool.and_eq_true] at h1
  cases e
  refine decode_S (Guard.code_lt h0) (Dst.code7_spec h1.1).1 (by decide) (by decide) (by decide) fun F hc ho hg hd ha hb => ?_
  refine (decodeSys_of hc ho (by decide) (by decide)).trans ?_
  change (do
    let g ← F.guard
    F.field (F.a = 0 ∧ F.b = 0)
    let d ← F.dst7 32 F.d
    pure (Instr.svcwait g d)) = _
  simp only [hd, ha, hb, Fields.guard_spec h0 hg, Fields.dst7_spec h1.1, true_and, and_true, ok_bind, Fields.field,
    Fields.align, Bool.and_self, decide_true, if_true, and_self]
  rfl

theorem trieStep (g : Guard) (d : Dst) (a b : Src) : Statement (.trieStep g d a b) := by
  intro h c' ws e tail
  replace h : (g.ok && d.ok7 64 && a.ok7 64 && b.ok7 32) = true := h
  simp only [Bool.and_eq_true] at h
  obtain ⟨⟨⟨h0, h1⟩, h2⟩, h3⟩ := h
  simp only [Dst.ok7, Bool.and_eq_true] at h1
  simp only [Src.ok7, Bool.and_eq_true] at h2
  simp only [Src.ok7, Bool.and_eq_true] at h3
  cases e
  refine decode_S (Guard.code_lt h0) (Dst.code7_spec h1.1).1 (Src.code7_spec h2.1).1 (Src.code7_spec h3.1).1 (by decide) fun
    F hc ho hg hd ha hb => ?_
  refine (decodeSys_of hc ho (by decide) (by decide)).trans ?_
  change (do
    let g ← F.guard
    let d ← F.dst7 64 F.d
    let a ← F.src7 64 F.a
    let b ← F.src7 32 F.b
    F.align (d.aligned 64 && a.aligned 64)
    pure (Instr.trieStep g d a b)) = _
  simp only [hd, ha, hb, Fields.guard_spec h0 hg, Fields.dst7_spec h1.1, h1.2, Fields.src7_spec h2.1, h2.2, Fields.src7_spec
    h3.1, true_and, and_true, ok_bind, Fields.field, Fields.align, Bool.and_self, decide_true, if_true, and_self]
  rfl

theorem trieScan (g : Guard) (d : Dst) (a b : Src) : Statement (.trieScan g d a b) := by
  intro h c' ws e tail
  replace h : (g.ok && d.ok7 64 && a.ok7 64 && b.ok7 32) = true := h
  simp only [Bool.and_eq_true] at h
  obtain ⟨⟨⟨h0, h1⟩, h2⟩, h3⟩ := h
  simp only [Dst.ok7, Bool.and_eq_true] at h1
  simp only [Src.ok7, Bool.and_eq_true] at h2
  simp only [Src.ok7, Bool.and_eq_true] at h3
  cases e
  refine decode_S (Guard.code_lt h0) (Dst.code7_spec h1.1).1 (Src.code7_spec h2.1).1 (Src.code7_spec h3.1).1 (by decide) fun
    F hc ho hg hd ha hb => ?_
  refine (decodeSys_of hc ho (by decide) (by decide)).trans ?_
  change (do
    let g ← F.guard
    let d ← F.dst7 64 F.d
    let a ← F.src7 64 F.a
    let b ← F.src7 32 F.b
    F.align (d.aligned 64 && a.aligned 64)
    pure (Instr.trieScan g d a b)) = _
  simp only [hd, ha, hb, Fields.guard_spec h0 hg, Fields.dst7_spec h1.1, h1.2, Fields.src7_spec h2.1, h2.2, Fields.src7_spec
    h3.1, true_and, and_true, ok_bind, Fields.field, Fields.align, Bool.and_self, decide_true, if_true, and_self]
  rfl

theorem trieChild (g : Guard) (d : Dst) (a b : Src) : Statement (.trieChild g d a b) := by
  intro h c' ws e tail
  replace h : (g.ok && d.ok7 64 && a.ok7 64 && b.ok7 32) = true := h
  simp only [Bool.and_eq_true] at h
  obtain ⟨⟨⟨h0, h1⟩, h2⟩, h3⟩ := h
  simp only [Dst.ok7, Bool.and_eq_true] at h1
  simp only [Src.ok7, Bool.and_eq_true] at h2
  simp only [Src.ok7, Bool.and_eq_true] at h3
  cases e
  refine decode_S (Guard.code_lt h0) (Dst.code7_spec h1.1).1 (Src.code7_spec h2.1).1 (Src.code7_spec h3.1).1 (by decide) fun
    F hc ho hg hd ha hb => ?_
  refine (decodeSys_of hc ho (by decide) (by decide)).trans ?_
  change (do
    let g ← F.guard
    let d ← F.dst7 64 F.d
    let a ← F.src7 64 F.a
    let b ← F.src7 32 F.b
    F.align (d.aligned 64 && a.aligned 64)
    pure (Instr.trieChild g d a b)) = _
  simp only [hd, ha, hb, Fields.guard_spec h0 hg, Fields.dst7_spec h1.1, h1.2, Fields.src7_spec h2.1, h2.2, Fields.src7_spec
    h3.1, true_and, and_true, ok_bind, Fields.field, Fields.align, Bool.and_self, decide_true, if_true, and_self]
  rfl

theorem trieInfo (g : Guard) (d : Dst) (a : Src) : Statement (.trieInfo g d a) := by
  intro h c' ws e tail
  replace h : (g.ok && d.ok7 32 && a.ok7 64) = true := h
  simp only [Bool.and_eq_true] at h
  obtain ⟨⟨h0, h1⟩, h2⟩ := h
  simp only [Dst.ok7, Bool.and_eq_true] at h1
  simp only [Src.ok7, Bool.and_eq_true] at h2
  cases e
  refine decode_S (Guard.code_lt h0) (Dst.code7_spec h1.1).1 (Src.code7_spec h2.1).1 (by decide) (by decide) fun F hc ho hg
    hd ha hb => ?_
  refine (decodeSys_of hc ho (by decide) (by decide)).trans ?_
  change (do
    let g ← F.guard
    F.field (F.b = 0)
    let d ← F.dst7 32 F.d
    let a ← F.src7 64 F.a
    F.align (a.aligned 64)
    pure (Instr.trieInfo g d a)) = _
  simp only [hd, ha, hb, Fields.guard_spec h0 hg, Fields.dst7_spec h1.1, Fields.src7_spec h2.1, h2.2, true_and, and_true,
    ok_bind, Fields.field, Fields.align, Bool.and_self, decide_true, if_true, and_self]
  rfl

theorem covpt (g : Guard) (d : Dst) : Statement (.covpt g d) := by
  intro h c' ws e tail
  replace h : (g.ok && d.ok7 64) = true := h
  simp only [Bool.and_eq_true] at h
  obtain ⟨h0, h1⟩ := h
  simp only [Dst.ok7, Bool.and_eq_true] at h1
  cases e
  refine decode_S (Guard.code_lt h0) (Dst.code7_spec h1.1).1 (by decide) (by decide) (by decide) fun F hc ho hg hd ha hb => ?_
  refine (decodeSys_of hc ho (by decide) (by decide)).trans ?_
  change (do
    let g ← F.guard
    F.field (F.a = 0 ∧ F.b = 0)
    let d ← F.dst7 64 F.d
    F.align (d.aligned 64)
    pure (Instr.covpt g d)) = _
  simp only [hd, ha, hb, Fields.guard_spec h0 hg, Fields.dst7_spec h1.1, h1.2, true_and, and_true, ok_bind, Fields.field,
    Fields.align, Bool.and_self, decide_true, if_true, and_self]
  rfl

theorem covst (g : Guard) (a b : Src) : Statement (.covst g a b) := by
  intro h c' ws e tail
  replace h : (g.ok && a.ok7 32 && b.ok7 32) = true := h
  simp only [Bool.and_eq_true] at h
  obtain ⟨⟨h0, h1⟩, h2⟩ := h
  simp only [Src.ok7, Bool.and_eq_true] at h1
  simp only [Src.ok7, Bool.and_eq_true] at h2
  cases e
  refine decode_S (Guard.code_lt h0) (by decide) (Src.code7_spec h1.1).1 (Src.code7_spec h2.1).1 (by decide) fun F hc ho hg
    hd ha hb => ?_
  refine (decodeSys_of hc ho (by decide) (by decide)).trans ?_
  change (do
    let g ← F.guard
    F.field (F.d = 0)
    let a ← F.src7 32 F.a
    let b ← F.src7 32 F.b
    pure (Instr.covst g a b)) = _
  simp only [hd, ha, hb, Fields.guard_spec h0 hg, Fields.src7_spec h1.1, Fields.src7_spec h2.1, true_and, and_true, ok_bind,
    Fields.field, Fields.align, Bool.and_self, decide_true, if_true, and_self]
  rfl

theorem mark (g : Guard) (a : Src) : Statement (.mark g a) := by
  intro h c' ws e tail
  replace h : (g.ok && a.ok7 32) = true := h
  simp only [Bool.and_eq_true] at h
  obtain ⟨h0, h1⟩ := h
  simp only [Src.ok7, Bool.and_eq_true] at h1
  cases e
  refine decode_S (Guard.code_lt h0) (by decide) (Src.code7_spec h1.1).1 (by decide) (by decide) fun F hc ho hg hd ha hb => ?_
  refine (decodeSys_of hc ho (by decide) (by decide)).trans ?_
  change (do
    let g ← F.guard
    F.field (F.d = 0 ∧ F.b = 0)
    let a ← F.src7 32 F.a
    pure (Instr.mark g a)) = _
  simp only [hd, ha, hb, Fields.guard_spec h0 hg, Fields.src7_spec h1.1, true_and, and_true, ok_bind, Fields.field,
    Fields.align, Bool.and_self, decide_true, if_true, and_self]
  rfl

theorem ctrTick (g : Guard) (d : Dst) : Statement (.ctrTick g d) := by
  intro h c' ws e tail
  replace h : (g.ok && d.ok7 64) = true := h
  simp only [Bool.and_eq_true] at h
  obtain ⟨h0, h1⟩ := h
  simp only [Dst.ok7, Bool.and_eq_true] at h1
  cases e
  refine decode_S (Guard.code_lt h0) (Dst.code7_spec h1.1).1 (by decide) (by decide) (by decide) fun F hc ho hg hd ha hb => ?_
  refine (decodeSys_of hc ho (by decide) (by decide)).trans ?_
  unfold decodeSys
  dsimp only
  rw [if_pos ha]
  simp only [hd, ha, hb, Fields.guard_spec h0 hg, Fields.dst7_spec h1.1, h1.2, true_and, and_true, ok_bind, Fields.field,
    Fields.align, Bool.and_self, decide_true, if_true, and_self]
  rfl

theorem ctrMode (g : Guard) (d : Dst) : Statement (.ctrMode g d) := by
  intro h c' ws e tail
  replace h : (g.ok && d.ok7 32) = true := h
  simp only [Bool.and_eq_true] at h
  obtain ⟨h0, h1⟩ := h
  simp only [Dst.ok7, Bool.and_eq_true] at h1
  cases e
  refine decode_S (Guard.code_lt h0) (Dst.code7_spec h1.1).1 (by decide) (by decide) (by decide) fun F hc ho hg hd ha hb => ?_
  refine (decodeSys_of hc ho (by decide) (by decide)).trans ?_
  unfold decodeSys
  dsimp only
  rw [if_neg (by rw [ha]; decide)]
  rw [if_pos ha]
  simp only [hd, ha, hb, Fields.guard_spec h0 hg, Fields.dst7_spec h1.1, true_and, and_true, ok_bind, Fields.field,
    Fields.align, Bool.and_self, decide_true, if_true, and_self]
  rfl

theorem ctrSetmode (g : Guard) (b : Src) : Statement (.ctrSetmode g b) := by
  intro h c' ws e tail
  replace h : (g.ok && b.ok7 32) = true := h
  simp only [Bool.and_eq_true] at h
  obtain ⟨h0, h1⟩ := h
  simp only [Src.ok7, Bool.and_eq_true] at h1
  cases e
  refine decode_S (Guard.code_lt h0) (by decide) (by decide) (Src.code7_spec h1.1).1 (by decide) fun F hc ho hg hd ha hb => ?_
  refine (decodeSys_of hc ho (by decide) (by decide)).trans ?_
  unfold decodeSys
  dsimp only
  rw [if_neg (by rw [ha]; decide)]
  rw [if_neg (by rw [ha]; decide)]
  rw [if_pos ha]
  simp only [hd, ha, hb, Fields.guard_spec h0 hg, Fields.src7_spec h1.1, true_and, and_true, ok_bind, Fields.field,
    Fields.align, Bool.and_self, decide_true, if_true, and_self]
  rfl

theorem ctrVote (g : Guard) (d : Dst) : Statement (.ctrVote g d) := by
  intro h c' ws e tail
  replace h : (g.ok && d.ok7 32) = true := h
  simp only [Bool.and_eq_true] at h
  obtain ⟨h0, h1⟩ := h
  simp only [Dst.ok7, Bool.and_eq_true] at h1
  cases e
  refine decode_S (Guard.code_lt h0) (Dst.code7_spec h1.1).1 (by decide) (by decide) (by decide) fun F hc ho hg hd ha hb => ?_
  refine (decodeSys_of hc ho (by decide) (by decide)).trans ?_
  unfold decodeSys
  dsimp only
  rw [if_neg (by rw [ha]; decide)]
  rw [if_neg (by rw [ha]; decide)]
  rw [if_neg (by rw [ha]; decide)]
  rw [if_pos ha]
  simp only [hd, ha, hb, Fields.guard_spec h0 hg, Fields.dst7_spec h1.1, true_and, and_true, ok_bind, Fields.field,
    Fields.align, Bool.and_self, decide_true, if_true, and_self]
  rfl

theorem ctrWindsock (g : Guard) (k : Nat) (d : Dst) : Statement (.ctrWindsock g k d) := by
  intro h c' ws e tail
  replace h : (g.ok && decide (k < 16) && d.ok7 64) = true := h
  simp only [Bool.and_eq_true] at h
  obtain ⟨⟨h0, h1⟩, h2⟩ := h
  simp only [decide_eq_true_eq] at h1
  simp only [Dst.ok7, Bool.and_eq_true] at h2
  cases e
  refine decode_S (Guard.code_lt h0) (Dst.code7_spec h2.1).1 (by omega) (by decide) (by decide) fun F hc ho hg hd ha hb => ?_
  refine (decodeSys_of hc ho (by decide) (by decide)).trans ?_
  have b1 : 16 + k - 16 = k := by omega
  have b2 : 16 ≤ 16 + k ∧ 16 + k < 32 := by omega
  unfold decodeSys
  dsimp only
  rw [if_neg (by rw [ha]; omega)]
  rw [if_neg (by rw [ha]; omega)]
  rw [if_neg (by rw [ha]; omega)]
  rw [if_neg (by rw [ha]; omega)]
  simp only [hd, ha, hb, Fields.guard_spec h0 hg, b1, b2, Fields.dst7_spec h2.1, h2.2, true_and, and_true, ok_bind,
    Fields.field, Fields.align, Bool.and_self, decide_true, if_true, and_self]
  rfl

theorem trap (g : Guard) (n : Nat) : Statement (.trap g n) := by
  intro h c' ws e tail
  replace h : (g.ok && decide (n < 32)) = true := h
  simp only [Bool.and_eq_true] at h
  obtain ⟨h0, h1⟩ := h
  simp only [decide_eq_true_eq] at h1
  cases e
  refine decode_S (Guard.code_lt h0) (by omega) (by decide) (by decide) (by decide) fun F hc ho hg hd ha hb => ?_
  refine (decodeSys_of hc ho (by decide) (by decide)).trans ?_
  change (do
    let g ← F.guard
    F.field (F.a = 0 ∧ F.b = 0 ∧ F.d < 32)
    let n := F.d
    pure (Instr.trap g n)) = _
  simp only [hd, ha, hb, Fields.guard_spec h0 hg, h1, true_and, and_true, ok_bind, Fields.field, Fields.align, Bool.and_self,
    decide_true, if_true, and_self]
  rfl

theorem tretRetry (g : Guard) : Statement (.tretRetry g) := by
  intro h c' ws e tail
  replace h : (g.ok) = true := h
  have h0 := h
  cases e
  refine decode_S (Guard.code_lt h0) (by decide) (by decide) (by decide) (by decide) fun F hc ho hg hd ha hb => ?_
  refine (decodeSys_of hc ho (by decide) (by decide)).trans ?_
  unfold decodeSys
  dsimp only
  rw [if_pos ha]
  simp only [hd, ha, hb, Fields.guard_spec h0 hg, true_and, and_true, ok_bind, Fields.field, Fields.align, Bool.and_self,
    decide_true, if_true, and_self]
  rfl

theorem tretSkip (g : Guard) : Statement (.tretSkip g) := by
  intro h c' ws e tail
  replace h : (g.ok) = true := h
  have h0 := h
  cases e
  refine decode_S (Guard.code_lt h0) (by decide) (by decide) (by decide) (by decide) fun F hc ho hg hd ha hb => ?_
  refine (decodeSys_of hc ho (by decide) (by decide)).trans ?_
  unfold decodeSys
  dsimp only
  rw [if_neg (by rw [ha]; decide)]
  simp only [hd, ha, hb, Fields.guard_spec h0 hg, true_and, and_true, ok_bind, Fields.field, Fields.align, Bool.and_self,
    decide_true, if_true, and_self]
  rfl

theorem sysr (g : Guard) (ty : Ty) (d : Dst) (a : Src) : Statement (.sysr g ty d a) := by
  intro h c' ws e tail
  replace h : (g.ok && ([.n32, .n64]).contains ty && d.ok9 ty.opBits && a.ok9 32) = true := h
  simp only [Bool.and_eq_true] at h
  obtain ⟨⟨⟨h0, h1⟩, h2⟩, h3⟩ := h
  simp only [Dst.ok9, Bool.and_eq_true] at h2
  simp only [Src.ok9, Bool.and_eq_true] at h3
  cases e
  refine decode_L (Guard.code_lt h0) (Dst.code9_spec h2.1).1 (Src.code9_spec h3.1).1 (by decide) (by decide) (Ty.code_lt ty)
    (by decide) (by decide)
    (by decide) fun F hc ho hx hg hd ha hb hC ht hr hf hm => ?_
  refine (decodeSysL_of hc ho hx (by decide)).trans ?_
  change (do
    let g ← F.guard
    F.field (F.b9 = 0 ∧ F.c = 0 ∧ F.rm = 0 ∧ F.fl = 0)
    let ty ← F.tyIn F.ty [.n32, .n64]
    let d ← F.dst9 ty.opBits F.d9
    let a ← F.src9 32 F.a9
    F.align (d.aligned ty.opBits)
    pure (Instr.sysr g ty d a)) = _
  simp only [hd, ha, hb, hC, ht, hr, hf, hm, Fields.guard_spec h0 hg, Fields.tyIn_spec h1, Fields.dst9_spec h2.1, h2.2,
    Fields.src9_spec h3.1, true_and, and_true, ok_bind, Fields.field, Fields.align, Bool.and_self, decide_true, if_true,
      and_self]
  rfl

theorem sysw (g : Guard) (ty : Ty) (a b : Src) : Statement (.sysw g ty a b) := by
  intro h c' ws e tail
  replace h : (g.ok && ([.n32, .n64]).contains ty && a.ok9 32 && b.ok9 ty.opBits) = true := h
  simp only [Bool.and_eq_true] at h
  obtain ⟨⟨⟨h0, h1⟩, h2⟩, h3⟩ := h
  simp only [Src.ok9, Bool.and_eq_true] at h2
  simp only [Src.ok9, Bool.and_eq_true] at h3
  cases e
  refine decode_L (Guard.code_lt h0) (by decide) (Src.code9_spec h2.1).1 (Src.code9_spec h3.1).1 (by decide) (Ty.code_lt ty)
    (by decide) (by decide)
    (by decide) fun F hc ho hx hg hd ha hb hC ht hr hf hm => ?_
  refine (decodeSysL_of hc ho hx (by decide)).trans ?_
  change (do
    let g ← F.guard
    F.field (F.d9 = 0 ∧ F.c = 0 ∧ F.rm = 0 ∧ F.fl = 0)
    let ty ← F.tyIn F.ty [.n32, .n64]
    let a ← F.src9 32 F.a9
    let b ← F.src9 ty.opBits F.b9
    F.align (b.aligned ty.opBits)
    pure (Instr.sysw g ty a b)) = _
  simp only [hd, ha, hb, hC, ht, hr, hf, hm, Fields.guard_spec h0 hg, Fields.tyIn_spec h1, Fields.src9_spec h2.1,
    Fields.src9_spec h3.1, h3.2, true_and, and_true, ok_bind, Fields.field, Fields.align, Bool.and_self, decide_true,
      if_true, and_self]
  rfl

theorem msig (g : Guard) (tgt : Nat) (a : Src) : Statement (.msig g tgt a) := by
  intro h c' ws e tail
  replace h : (g.ok && decide (tgt < 512) && a.ok9 32) = true := h
  simp only [Bool.and_eq_true] at h
  obtain ⟨⟨h0, h1⟩, h2⟩ := h
  simp only [decide_eq_true_eq] at h1
  simp only [Src.ok9, Bool.and_eq_true] at h2
  cases e
  refine decode_L (Guard.code_lt h0) (by decide) (Src.code9_spec h2.1).1 (by decide) (by omega) (by decide) (by decide) (by
    decide)
    (by decide) fun F hc ho hx hg hd ha hb hC ht hr hf hm => ?_
  refine (decodeSysL_of hc ho hx (by decide)).trans ?_
  change (do
    let g ← F.guard
    F.field (F.d9 = 0 ∧ F.b9 = 0 ∧ F.mod = 0 ∧ F.c < 512)
    let tgt := F.c
    let a ← F.src9 32 F.a9
    pure (Instr.msig g tgt a)) = _
  simp only [hd, ha, hb, hC, ht, hr, hf, hm, Fields.guard_spec h0 hg, h1, Fields.src9_spec h2.1, true_and, and_true, ok_bind,
    Fields.field, Fields.align, Bool.and_self, decide_true, if_true, and_self]
  rfl

theorem mpost (g : Guard) (tgt : Nat) (a b : Src) : Statement (.mpost g tgt a b) := by
  intro h c' ws e tail
  replace h : (g.ok && decide (tgt < 512) && a.ok9 64 && b.ok9 32) = true := h
  simp only [Bool.and_eq_true] at h
  obtain ⟨⟨⟨h0, h1⟩, h2⟩, h3⟩ := h
  simp only [decide_eq_true_eq] at h1
  simp only [Src.ok9, Bool.and_eq_true] at h2
  simp only [Src.ok9, Bool.and_eq_true] at h3
  cases e
  refine decode_L (Guard.code_lt h0) (by decide) (Src.code9_spec h2.1).1 (Src.code9_spec h3.1).1 (by omega) (by decide) (by
    decide) (by decide)
    (by decide) fun F hc ho hx hg hd ha hb hC ht hr hf hm => ?_
  refine (decodeSysL_of hc ho hx (by decide)).trans ?_
  change (do
    let g ← F.guard
    F.field (F.d9 = 0 ∧ F.mod = 0 ∧ F.c < 512)
    let tgt := F.c
    let a ← F.src9 64 F.a9
    let b ← F.src9 32 F.b9
    F.align (a.aligned 64)
    pure (Instr.mpost g tgt a b)) = _
  simp only [hd, ha, hb, hC, ht, hr, hf, hm, Fields.guard_spec h0 hg, h1, Fields.src9_spec h2.1, h2.2, Fields.src9_spec h3.1,
    true_and, and_true, ok_bind, Fields.field, Fields.align, Bool.and_self, decide_true, if_true, and_self]
  rfl

theorem tlbinvPage (g : Guard) (a b : Src) : Statement (.tlbinvPage g a b) := by
  intro h c' ws e tail
  replace h : (g.ok && a.ok9 64 && b.ok9 32) = true := h
  simp only [Bool.and_eq_true] at h
  obtain ⟨⟨h0, h1⟩, h2⟩ := h
  simp only [Src.ok9, Bool.and_eq_true] at h1
  simp only [Src.ok9, Bool.and_eq_true] at h2
  cases e
  refine decode_L (Guard.code_lt h0) (by decide) (Src.code9_spec h1.1).1 (Src.code9_spec h2.1).1 (by decide) (by decide) (by
    decide) (by decide)
    (by decide) fun F hc ho hx hg hd ha hb hC ht hr hf hm => ?_
  refine (decodeSysL_of hc ho hx (by decide)).trans ?_
  unfold decodeSysL
  dsimp only
  rw [if_pos hf]
  simp only [hd, ha, hb, hC, ht, hr, hf, hm, Fields.guard_spec h0 hg, Fields.src9_spec h1.1, h1.2, Fields.src9_spec h2.1,
    true_and, and_true, ok_bind, Fields.field, Fields.align, Bool.and_self, decide_true, if_true, and_self]
  rfl

theorem tlbinvAsid (g : Guard) (a b : Src) : Statement (.tlbinvAsid g a b) := by
  intro h c' ws e tail
  replace h : (g.ok && a.ok9 64 && b.ok9 32) = true := h
  simp only [Bool.and_eq_true] at h
  obtain ⟨⟨h0, h1⟩, h2⟩ := h
  simp only [Src.ok9, Bool.and_eq_true] at h1
  simp only [Src.ok9, Bool.and_eq_true] at h2
  cases e
  refine decode_L (Guard.code_lt h0) (by decide) (Src.code9_spec h1.1).1 (Src.code9_spec h2.1).1 (by decide) (by decide) (by
    decide) (by decide)
    (by decide) fun F hc ho hx hg hd ha hb hC ht hr hf hm => ?_
  refine (decodeSysL_of hc ho hx (by decide)).trans ?_
  unfold decodeSysL
  dsimp only
  rw [if_neg (by rw [hf]; decide)]
  rw [if_pos hf]
  simp only [hd, ha, hb, hC, ht, hr, hf, hm, Fields.guard_spec h0 hg, Fields.src9_spec h1.1, h1.2, Fields.src9_spec h2.1,
    true_and, and_true, ok_bind, Fields.field, Fields.align, Bool.and_self, decide_true, if_true, and_self]
  rfl

theorem tlbinvAll (g : Guard) (a b : Src) : Statement (.tlbinvAll g a b) := by
  intro h c' ws e tail
  replace h : (g.ok && a.ok9 64 && b.ok9 32) = true := h
  simp only [Bool.and_eq_true] at h
  obtain ⟨⟨h0, h1⟩, h2⟩ := h
  simp only [Src.ok9, Bool.and_eq_true] at h1
  simp only [Src.ok9, Bool.and_eq_true] at h2
  cases e
  refine decode_L (Guard.code_lt h0) (by decide) (Src.code9_spec h1.1).1 (Src.code9_spec h2.1).1 (by decide) (by decide) (by
    decide) (by decide)
    (by decide) fun F hc ho hx hg hd ha hb hC ht hr hf hm => ?_
  refine (decodeSysL_of hc ho hx (by decide)).trans ?_
  unfold decodeSysL
  dsimp only
  rw [if_neg (by rw [hf]; decide)]
  rw [if_neg (by rw [hf]; decide)]
  simp only [hd, ha, hb, hC, ht, hr, hf, hm, Fields.guard_spec h0 hg, Fields.src9_spec h1.1, h1.2, Fields.src9_spec h2.1,
    true_and, and_true, ok_bind, Fields.field, Fields.align, Bool.and_self, decide_true, if_true, and_self]
  rfl

theorem cflush (g : Guard) (a b : Src) : Statement (.cflush g a b) := by
  intro h c' ws e tail
  replace h : (g.ok && a.ok9 64 && b.ok9 32) = true := h
  simp only [Bool.and_eq_true] at h
  obtain ⟨⟨h0, h1⟩, h2⟩ := h
  simp only [Src.ok9, Bool.and_eq_true] at h1
  simp only [Src.ok9, Bool.and_eq_true] at h2
  cases e
  refine decode_L (Guard.code_lt h0) (by decide) (Src.code9_spec h1.1).1 (Src.code9_spec h2.1).1 (by decide) (by decide) (by
    decide) (by decide)
    (by decide) fun F hc ho hx hg hd ha hb hC ht hr hf hm => ?_
  refine (decodeSysL_of hc ho hx (by decide)).trans ?_
  change (do
    let g ← F.guard
    F.field (F.d9 = 0 ∧ F.c = 0 ∧ F.mod = 0)
    let a ← F.src9 64 F.a9
    let b ← F.src9 32 F.b9
    F.align (a.aligned 64)
    pure (Instr.cflush g a b)) = _
  simp only [hd, ha, hb, hC, ht, hr, hf, hm, Fields.guard_spec h0 hg, Fields.src9_spec h1.1, h1.2, Fields.src9_spec h2.1,
    true_and, and_true, ok_bind, Fields.field, Fields.align, Bool.and_self, decide_true, if_true, and_self]
  rfl

theorem fltrd (g : Guard) (d : Dst) (a : Src) : Statement (.fltrd g d a) := by
  intro h c' ws e tail
  replace h : (g.ok && d.ok9 32 && a.ok9 32) = true := h
  simp only [Bool.and_eq_true] at h
  obtain ⟨⟨h0, h1⟩, h2⟩ := h
  simp only [Dst.ok9, Bool.and_eq_true] at h1
  simp only [Src.ok9, Bool.and_eq_true] at h2
  cases e
  refine decode_L (Guard.code_lt h0) (Dst.code9_spec h1.1).1 (Src.code9_spec h2.1).1 (by decide) (by decide) (by decide) (by
    decide) (by decide)
    (by decide) fun F hc ho hx hg hd ha hb hC ht hr hf hm => ?_
  refine (decodeSysL_of hc ho hx (by decide)).trans ?_
  change (do
    let g ← F.guard
    F.field (F.b9 = 0 ∧ F.c = 0 ∧ F.mod = 0)
    let d ← F.dst9 32 F.d9
    let a ← F.src9 32 F.a9
    pure (Instr.fltrd g d a)) = _
  simp only [hd, ha, hb, hC, ht, hr, hf, hm, Fields.guard_spec h0 hg, Fields.dst9_spec h1.1, Fields.src9_spec h2.1, true_and,
    and_true, ok_bind, Fields.field, Fields.align, Bool.and_self, decide_true, if_true, and_self]
  rfl

theorem powerGood : Statement .powerGood := fun _ _ _ e => nomatch e

theorem moduleReset : Statement .moduleReset := fun _ _ _ e => nomatch e

theorem memoryRegionInit : Statement (.memoryRegionInit) := fun _ _ _ e => nomatch e

theorem firmwareLoad (die : FirmwareImage) : Statement (.firmwareLoad die) := fun _ _ _ e => nomatch e

theorem flitCrcRetry (link : Nat) : Statement (.flitCrcRetry link) := fun _ _ _ e => nomatch e

theorem linkRetrain (link : Nat) : Statement (.linkRetrain link) := fun _ _ _ e => nomatch e

theorem linkFailed (link : Nat) : Statement (.linkFailed link) := fun _ _ _ e => nomatch e

theorem fabricRemoteRead (pa n : Nat) (acq : Bool) : Statement (.fabricRemoteRead pa n acq) := fun _ _ _ e => nomatch e

theorem fabricRemoteWrite (pa : Nat) (bytes : List (BitVec 8)) (rel : FabricWrite) : Statement (.fabricRemoteWrite pa bytes rel) := fun _ _ _ e => nomatch e

theorem fabricRemoteAtomic (op : RemoteOp) (pa n : Nat) (x y : BitVec 64) (ord : Ord) : Statement (.fabricRemoteAtomic op pa n x y ord) := fun _ _ _ e => nomatch e

theorem directoryRecall (line : Recall) : Statement (.directoryRecall line) := fun _ _ _ e => nomatch e

theorem directoryUnreachable : Statement .directoryUnreachable := fun _ _ _ e => nomatch e

theorem pcieBarRequest (r : PcieReq) : Statement (.pcieBarRequest r) := fun _ _ _ e => nomatch e

theorem createAs (m : Nat) : Statement (.createAs m) := fun _ _ _ e => nomatch e

theorem destroyAs (m : Nat) : Statement (.destroyAs m) := fun _ _ _ e => nomatch e

theorem registerSq (m : Nat) : Statement (.registerSq m) := fun _ _ _ e => nomatch e

theorem unregisterSq (m : Nat) : Statement (.unregisterSq m) := fun _ _ _ e => nomatch e

theorem configWq (m : Nat) : Statement (.configWq m) := fun _ _ _ e => nomatch e

theorem mmioWrite (m : Nat) : Statement (.mmioWrite m) := fun _ _ _ e => nomatch e

theorem mmioRead (m : Nat) : Statement (.mmioRead m) := fun _ _ _ e => nomatch e

theorem status (m : Nat) : Statement (.status m) := fun _ _ _ e => nomatch e

theorem setBudget (m : Nat) : Statement (.setBudget m) := fun _ _ _ e => nomatch e

theorem mailboxUnknownOp (m : Nat) : Statement (.mailboxUnknownOp m) := fun _ _ _ e => nomatch e

theorem sqDoorbell (sq : Nat) (v : BitVec 32) : Statement (.sqDoorbell sq v) := fun _ _ _ e => nomatch e

theorem throttleChange (die : Nat) (t : Throttle) : Statement (.throttleChange die t) := fun _ _ _ e => nomatch e

theorem thermalShutdown (die : Nat) : Statement (.thermalShutdown die) := fun _ _ _ e => nomatch e

theorem coreSelfCheckFail (core : Nat) : Statement (.coreSelfCheckFail core) := fun _ _ _ e => nomatch e

theorem spareSubstitution (die : Nat) : Statement (.spareSubstitution die) := fun _ _ _ e => nomatch e

theorem stopTickWrite (v : BitVec 64) : Statement (.stopTickWrite v) := fun _ _ _ e => nomatch e

theorem stopTickMatch : Statement (.stopTickMatch) := fun _ _ _ e => nomatch e

theorem registerWrite (core : Nat) (r : RegRef) (v : BitVec 64) : Statement (.registerWrite core r v) := fun _ _ _ e => nomatch e

theorem tileEntryWrite (pa : Nat) (v : BitVec 64) : Statement (.tileEntryWrite pa v) := fun _ _ _ e => nomatch e

theorem debugWindowAccess (pa : Nat) (wr : Option (BitVec 32)) : Statement (.debugWindowAccess pa wr) := fun _ _ _ e => nomatch e

theorem l2ModeChange (v : BitVec 32) : Statement (.l2ModeChange v) := fun _ _ _ e => nomatch e

theorem mpostpopRead (core : Nat) : Statement (.mpostpopRead core) := fun _ _ _ e => nomatch e

theorem l2Writeback (sector : Nat) : Statement (.l2Writeback sector) := fun _ _ _ e => nomatch e

theorem replayResolve (r : ReplayRef) : Statement (.replayResolve r) := fun _ _ _ e => nomatch e

theorem replayReject (r : ReplayRef) : Statement (.replayReject r) := fun _ _ _ e => nomatch e

theorem outstandingResultReturn (t : ThreadRef) : Statement (.outstandingResultReturn t) := fun _ _ _ e => nomatch e

theorem sliceIssueTurn (core slice : Nat) : Statement (.sliceIssueTurn core slice) := fun _ _ _ e => nomatch e

theorem agePromotion (entry : Nat) : Statement (.agePromotion entry) := fun _ _ _ e => nomatch e

theorem convergenceHang (entry : Nat) : Statement (.convergenceHang entry) := fun _ _ _ e => nomatch e

theorem barrierHang (b : BoundaryRef) : Statement (.barrierHang b) := fun _ _ _ e => nomatch e

theorem workgroupBoundaryComplete (w : WgRef) : Statement (.workgroupBoundaryComplete w) := fun _ _ _ e => nomatch e

theorem phaseBoundaryComplete (b : BoundaryRef) : Statement (.phaseBoundaryComplete b) := fun _ _ _ e => nomatch e

theorem policyKill (t : PolicyRef) : Statement (.policyKill t) := fun _ _ _ e => nomatch e

theorem policyStop (t : PolicyRef) : Statement (.policyStop t) := fun _ _ _ e => nomatch e

theorem policySkip (t : PolicyRef) : Statement (.policySkip t) := fun _ _ _ e => nomatch e

theorem policyRetry (t : PolicyRef) : Statement (.policyRetry t) := fun _ _ _ e => nomatch e

theorem policyForward (t : PolicyRef) : Statement (.policyForward t) := fun _ _ _ e => nomatch e

theorem engineTakeEntry (q : QueueRef) : Statement (.engineTakeEntry q) := fun _ _ _ e => nomatch e

theorem copyEntry (q : EntryStep) : Statement (.copyEntry q) := fun _ _ _ e => nomatch e

theorem collEntry (q : EntryStep) : Statement (.collEntry q) := fun _ _ _ e => nomatch e

theorem nopEntry (q : QueueRef) : Statement (.nopEntry q) := fun _ _ _ e => nomatch e

theorem entryCompletion (q : QueueRef) : Statement (.entryCompletion q) := fun _ _ _ e => nomatch e

theorem reelEnd (core cursor : Nat) : Statement (.reelEnd core cursor) := fun _ _ _ e => nomatch e

theorem reelCopy (core cursor : Nat) : Statement (.reelCopy core cursor) := fun _ _ _ e => nomatch e

theorem reelColl (core cursor : Nat) : Statement (.reelColl core cursor) := fun _ _ _ e => nomatch e

theorem reelWaitseq (core cursor : Nat) : Statement (.reelWaitseq core cursor) := fun _ _ _ e => nomatch e

theorem reelWake (core cursor : Nat) : Statement (.reelWake core cursor) := fun _ _ _ e => nomatch e

theorem reelCond (core cursor : Nat) : Statement (.reelCond core cursor) := fun _ _ _ e => nomatch e

theorem reelWhile (core cursor : Nat) : Statement (.reelWhile core cursor) := fun _ _ _ e => nomatch e

theorem matrixPass (core : Nat) : Statement (.matrixPass core) := fun _ _ _ e => nomatch e

theorem matrixPassComplete (core : Nat) : Statement (.matrixPassComplete core) := fun _ _ _ e => nomatch e

theorem launch (sq pos : Nat) : Statement (.launch sq pos) := fun _ _ _ e => nomatch e

theorem feed (sq pos : Nat) : Statement (.feed sq pos) := fun _ _ _ e => nomatch e

theorem close (sq pos : Nat) : Statement (.close sq pos) := fun _ _ _ e => nomatch e

theorem nopPacket (sq pos : Nat) : Statement (.nopPacket sq pos) := fun _ _ _ e => nomatch e

theorem workgroupPlace (launch : Nat) : Statement (.workgroupPlace launch) := fun _ _ _ e => nomatch e

theorem workgroupRetire (w : WgRef) : Statement (.workgroupRetire w) := fun _ _ _ e => nomatch e

theorem launchComplete (launch : Nat) : Statement (.launchComplete launch) := fun _ _ _ e => nomatch e

theorem preemptMaskWrite (launch : Nat) (mask : List Nat) : Statement (.preemptMaskWrite launch mask) := fun _ _ _ e => nomatch e

theorem workgroupSave (w : WgRef) : Statement (.workgroupSave w) := fun _ _ _ e => nomatch e

theorem workgroupRestore (w : WgRef) : Statement (.workgroupRestore w) := fun _ _ _ e => nomatch e

theorem serviceReply (die : Nat) (replies : List (BitVec 32)) : Statement (.serviceReply die replies) := fun _ _ _ e => nomatch e

theorem serviceReject (die : Nat) : Statement (.serviceReject die) := fun _ _ _ e => nomatch e

theorem tileReconstruction (w : WgRef) : Statement (.tileReconstruction w) := fun _ _ _ e => nomatch e

theorem auditWindowClose (launch : Nat) : Statement (.auditWindowClose launch) := fun _ _ _ e => nomatch e

theorem stopArrival (core : Nat) : Statement (.stopArrival core) := fun _ _ _ e => nomatch e

theorem dbgHalt (die : Nat) (v : BitVec 64) : Statement (.dbgHalt die v) := fun _ _ _ e => nomatch e

theorem dbgResume (die : Nat) (v : BitVec 64) : Statement (.dbgResume die v) := fun _ _ _ e => nomatch e

theorem dbgStep (die : Nat) (v : BitVec 64) : Statement (.dbgStep die v) := fun _ _ _ e => nomatch e

theorem linkTrainedAgain (link : Nat) : Statement (.linkTrainedAgain link) := fun _ _ _ e => nomatch e

theorem fabricPortFailed (port : Nat) : Statement (.fabricPortFailed port) := fun _ _ _ e => nomatch e

end Sys2Proof.Laws.Codec
end

