-- ==== Sys2Proof/Tests/Slice0.lean ====
section
/-! SUPPORT. Tests/Slice0.lean: the decoding of words written from the encoding tables, ill-formed terms that WellFormed refuses, a state for
each obligation's hypotheses, and values that the spec works out. -/

namespace Sys2Proof.Tests
open Sys2Proof Sys2Proof.Machine Sys2Proof.Claims
set_option Elab.async false

/-! ## Words of every family, written out from the encoding tables (R167 to R178) -/

def decodes (c : Cls) (q : List (BitVec 32) × Instr) : Bool :=
  match decodeWords c true q.1 with
  | .ok (j, n) => j == q.2 && n == q.1.length
  | .error _ => false

theorem test_decode_int_s_1 : [
    ([0xf0167548#32], .iaddI32 .always (.s 9) (.imm (-6)) (.y 0)),
    ([0x10210286#32], .isubI32 (.on 1 false) (.v 4) (.v 5) (.v 6)),
    ([0xf0418448#32], .iaddI64 .always (.v 6) (.v 8) (.y 0)),
    ([0xf062850c#32], .isubI64 .always (.v 10) (.v 10) (.v 12)),
    ([0x48837b48#32], .imulI32 (.on 4 true) (.v 13) (.imm 6) (.y 0)),
    ([0xf0b60892#32], .imulhiI32 .always (.s 8) (.v 17) (.v 18)),
    ([0xf0c4f6c8#32], .imulhiN32 .always (.v 19) (.imm (-3)) (.y 0)),
    ([0x70f3cb98#32], .iminI32 (.on 7 false) .discard (.v 23) (.v 24)),
    ([0xf10679c8#32], .imaxI32 .always (.v 25) (.imm 3) (.y 0)),
    ([0xf1270e9e#32], .iminN32 .always (.v 28) (.v 29) (.v 30)),
    ([0xa957f548#32], .imaxN32 (.on 10 true) (.s 15) (.imm (-6)) (.y 0)),
    ([0xf16891a4#32], .andB32 .always (.v 34) (.v 35) (.v 36)),
    ([0xf193f848#32], .orB32 .always .discard (.imm 0) (.y 0)),
    ([0x11aa14aa#32], .xorB32 (.on 1 false) (.v 40) (.v 41) (.v 42)),
    ([0xf1cafb48#32], .andnB32 .always (.v 43) (.imm 6) (.y 0)),
    ([0xf1f797b0#32], .shl .always (.s 14) (.v 47) (.v 48)),
    ([0x4a0c76c8#32], .shr (.on 4 true) (.v 49) (.imm (-3)) (.y 0)),
    ([0xf233dab6#32], .sar .always .discard (.v 53) (.v 54)),
    ([0xf24df9c8#32], .rotl .always (.v 55) (.imm 3) (.y 0)),
    ([0x726e9d80#32], .popc (.on 7 false) (.v 58) (.v 59)) ].all (decodes .int) = true := by
  decide +kernel

theorem test_decode_int_s_2 : [
    ([0xf2802e80#32], .clz .always (.v 0) (.s 13)),
    ([0xf2b3e400#32], .ctz .always .discard (.y 0)),
    ([0xaac10280#32], .brev (.on 10 true) (.v 4) (.v 5)),
    ([0xf2f6a980#32], .iabsI32 .always (.s 10) (.s 3)),
    ([0xf3022400#32], .inegI32 .always (.v 8) (.y 0)),
    ([0x13228580#32], .mov (.on 1 false) (.v 10) (.v 11)),
    ([0xf3400082#32], .pand .always 0 1 2),
    ([0xf360c205#32], .por .always 3 4 5),
    ([0x4b818388#32], .pxor (.on 4 true) 6 7 8),
    ([0xf3a24500#32], .pnot .always 9 10) ].all (decodes .int) = true := by
  decide +kernel

theorem test_decode_int_k_1 : [
    ([0xf605c000#32, 0x34567888#32], .movi .always (.v 23) 0x34567888#32),
    ([0x76262a80#32, 0x468acf00#32], .iaddi (.on 7 false) (.v 24) (.s 5) 0x468acf00#32),
    ([0xf657a400#32, 0x58bf2578#32], .andi .always (.s 14) (.y 0) 0x58bf2578#32),
    ([0xf6670e80#32, 0x6af37bf0#32], .ori .always (.v 28) (.v 29) 0x6af37bf0#32),
    ([0xae87ad80#32, 0x7d27d268#32], .xori (.on 10 true) (.v 30) (.s 11) 0x7d27d268#32) ].all (decodes .int) = true := by
  decide +kernel

theorem test_decode_int_l_1 : [
    ([0xf7e80422#32, 0x001110e0#32], .imad .always .n64 (.v 32) (.y 0) (.v 34) (.v 34)),
    ([0xf7e608a0#32, 0x01005640#32], .idiv .always .i32 (.s 8) (.s 1) (.imm 0)),
    ([0x17e9d429#32, 0x020000c0#32], .irem (.on 1 false) .n32 (.v 39) (.v 40) (.v 41)),
    ([0xf7e18c26#32, 0x030016c4#32], .icmp .always .n32 .gt 6 (.s 8) (.imm 6)),
    ([0xf7ee572f#32, 0x040020c0#32], .sel .always .n32 (.v 185) (.v 46) (.v 47) 0),
    ([0x4fec1908#32, 0x05000441#32], .lea (.on 4 true) .i32 1 (.v 48) (.v 50) (.y 0)),
    ([0xf7ed1a56#32, 0x060382e0#32], .iaddc .always .n64 (.v 52) (.v 52) (.v 214) 7),
    ([0xf7e7043a#32, 0x0705d0c0#32], .isubb .always .n32 (.s 12) (.y 0) (.v 58) 11),
    ([0x77f20c1a#32, 0x080036e0#32], .bfe (.on 7 false) .n64 (.v 200) (.s 8) (.imm (-6))),
    ([0xf7e0c205#32, 0x097100c0#32], .bfi .always .n32 (.v 3) (.v 4) (.v 5) (.v 226)),
    ([0xf7e3d008#32, 0x0a005ca1#32], .iaddL .always .n16 true .discard (.imm 0) (.y 0)),
    ([0xaff485e8#32, 0x0b8aa2c0#32], .shf (.on 10 true) .n32 false (.v 210) (.v 11) (.v 232) (.s 5)),
    ([0xf7e01300#32, 0x0c009800#32], .setix .always 1 (.imm 6)),
    ([0xf7f5c800#32, 0x0d0120c0#32], .movx .always .n32 2 (.v 215) (.v 16)),
    ([0x17e008ee#32, 0x0e0182e0#32], .stx (.on 1 false) .n64 3 (.v 17) (.v 238)),
    ([0xf7e1ce80#32, 0x0f001800#32], .pmovTo .always 7 (.imm (-3))),
    ([0xf7e74500#32, 0x10004000#32], .pmovFrom .always (.s 13) 10),
    ([0x4fe5fa00#32, 0x11028880#32], .icvt (.on 4 true) .n8 .n16 false (.v 23) (.v 244)) ].all (decodes .int) = true := by
  decide +kernel

theorem test_decode_flt_s_1 : [
    ([0xf0060d48#32], .faddF64 .always (.v 24) (.v 26) (.y 0)),
    ([0xf0270e9e#32], .faddF32 .always (.v 28) (.v 29) (.v 30)),
    ([0x70579048#32], .fsubF64 (.on 7 false) (.s 14) (.v 32) (.y 0)),
    ([0xf06891a4#32], .fsubF32 .always (.v 34) (.v 35) (.v 36)),
    ([0xf0891348#32], .fmulF64 .always (.v 36) (.v 38) (.y 0)),
    ([0xa8aa14aa#32], .fmulF32 (.on 10 true) (.v 40) (.v 41) (.v 42)),
    ([0xf0ca9648#32], .fminF64 .always (.v 42) (.v 44) (.y 0)),
    ([0xf0f797b0#32], .fminF32 .always (.s 14) (.v 47) (.v 48)),
    ([0x110c1948#32], .fmaxF64 (.on 1 false) (.v 48) (.v 50) (.y 0)),
    ([0xf133dab6#32], .fmaxF32 .always .discard (.v 53) (.v 54)),
    ([0xf14d9c00#32], .fabsF64 .always (.v 54) (.v 56)),
    ([0x4973dd00#32], .fabsF32 (.on 4 true) .discard (.v 58)),
    ([0xf18e8000#32], .fnegF64 .always (.v 58) (.v 0)),
    ([0xf1b77500#32], .fnegF32 .always (.s 13) (.imm (-6))),
    ([0x71c0c205#32], .faddH2 (.on 7 false) (.v 3) (.v 4) (.v 5)),
    ([0xf1f6adf0#32], .fmulH2 .always (.s 10) (.s 11) (.imm 0)),
    ([0xf202450b#32], .faddB2 .always (.v 9) (.v 10) (.v 11)),
    ([0xaa33e8f6#32], .fmulB2 (.on 10 true) .discard (.s 1) (.imm 6)),
    ([0xf243c800#32], .frcpF32 .always (.v 15) (.v 16)),
    ([0xf273c900#32], .frsqF32 .always .discard (.v 18)) ].all (decodes .flt) = true := by
  decide +kernel

theorem test_decode_flt_s_2 : [
    ([0x1284f680#32], .fexp2F32 (.on 1 false) (.v 19) (.imm (-3))),
    ([0xf2b64b00#32], .flog2F32 .always (.s 9) (.v 22)),
    ([0xf2c5cc00#32], .fsinpiF32 .always (.v 23) (.v 24)),
    ([0x4ae67980#32], .fcospiF32 (.on 4 true) (.v 25) (.imm 3)),
    ([0xf313ce00#32], .ftanhF32 .always .discard (.v 28)),
    ([0xf3274f00#32], .fclassF64 .always (.v 29) (.v 30)),
    ([0x7356f500#32], .fclassF32 (.on 7 false) (.s 11) (.imm (-6))) ].all (decodes .flt) = true := by
  decide +kernel

theorem test_decode_flt_l_1 : [
    ([0xf7e81122#32, 0x006c0100#32], .fma .always .f64 .rne false false (.v 32) (.v 34) (.v 34) (.v 216)),
    ([0xf7e3d008#32, 0x01005d29#32], .faddL .always .f32 .rtz true false .discard (.imm 0) (.y 0)),
    ([0xaff714de#32, 0x02002350#32], .fmulL (.on 10 true) .f16 .rup false false (.v 220) (.v 41) (.v 222)),
    ([0xf7ead308#32, 0x03001d39#32], .fdiv .always .f32 .rdn true (.v 43) (.imm 6) (.y 0)),
    ([0xf7e69700#32, 0x04004100#32], .fsqrt .always .f64 .rne false (.s 10) (.v 46)),
    ([0x17e00a9d#32, 0x05001726#32], .fcmp (.on 1 false) .f32 .un 0 (.s 5) (.imm (-3))),
    ([0xf7e7da00#32, 0x06064152#32], .fcvt .always .f16 .e4m3 .rup true (.s 15) (.v 52)),
    ([0xf7ed7500#32, 0x07000978#32], .frnd .always .bf16 .rdn (.v 53) (.v 234)),
    ([0x4ffad180#32, 0x0804b800#32], .fcvti (.on 4 true) .i8 .f32 .rne (.v 235) (.imm 3)),
    ([0xf7e3dd00#32, 0x09014128#32], .icvtf .always .f32 .i32 .rtz .discard (.v 58)),
    ([0xf7eeb811#32, 0x0a000d10#32], .fscale .always .f64 .rup (.v 58) (.v 240) (.s 1)),
    ([0x77e3c400#32, 0x0b025120#32], .ffrexp (.on 7 false) .f32 .discard (.y 0) (.v 4)),
    ([0xf7e97a18#32, 0x0c05adc2#32], .fpack .always .e2m1 .bf16 .rne true (.v 165) (.v 244) (.s 8)),
    ([0xf7e2040a#32, 0x0d069160#32], .funpack .always .bf16 .e5m2 (.v 8) (.y 0) (.v 10)),
    ([0xafe6e51d#32, 0x0ed34d50#32], .fdot2 (.on 10 true) .f16 .rup (.s 11) (.v 202) (.s 13) (.imm 6)) ].all (decodes .flt) = true := by
  decide +kernel

theorem test_decode_xl_s_1 : [
    ([0xf003c811#32], .shflIdx .always (.v 15) (.v 16) (.v 17)),
    ([0xf024a9ed#32], .shflUp .always (.v 18) (.s 3) (.imm (-3))),
    ([0x10574b17#32], .shflDn (.on 1 false) (.s 13) (.v 22) (.v 23)),
    ([0xf0662cf3#32], .shflXor .always (.v 24) (.s 9) (.imm 3)),
    ([0xf080c200#32], .voteAll .always 3 4),
    ([0x48a14300#32], .voteAny (.on 4 true) 5 6),
    ([0xf0d7c400#32], .voteBallot .always (.s 15) 8),
    ([0xf0e25100#32], .voteEq .always 9 (.v 34)),
    ([0x7108d255#32], .lbcast (.on 7 false) (.v 35) (.v 36) (.s 5)),
    ([0xf129a400#32], .matchLanes .always (.v 38) (.y 0)),
    ([0xf14a1480#32], .redAddI32 .always (.v 40) (.v 41)),
    ([0xa973ed80#32], .redAddF32 (.on 10 true) .discard (.s 11)),
    ([0xf18b2400#32], .scanAddI32 .always (.v 44) (.y 0)),
    ([0xf2038790#32], .wadd .always (.v 14) (.v 15) (.v 16)),
    ([0x12244913#32], .wsub (.on 1 false) (.v 17) (.v 18) (.v 19)),
    ([0xf2450a80#32], .wneg .always (.v 20) (.v 21)),
    ([0xf2658b98#32], .wshl .always (.v 22) (.v 23) (.v 24)),
    ([0x4a864d1b#32], .wshr (.on 4 true) (.v 25) (.v 26) (.v 27)),
    ([0xf2a02e80#32], .wsign .always (.v 0) (.s 13)),
    ([0xf2c0a404#32], .wcmp .always (.v 2) (.y 0) (.v 4)) ].all (decodes .xl) = true := by
  decide +kernel

theorem test_decode_xl_s_2 : [
    ([0x72e84000#32], .wclr (.on 7 false) (.v 33)) ].all (decodes .xl) = true := by
  decide +kernel

theorem test_decode_xl_l_1 : [
    ([0xf7e51400#32, 0x000000c2#32], .zip .always .n32 4 (.v 20) (.v 40)),
    ([0xf7e51400#32, 0x01000080#32], .unzip .always .n8 2 (.v 20) (.v 40)),
    ([0xafe00000#32, 0x020080c0#32], .bind (.on 10 true) .n32 1),
    ([0xf7e00000#32, 0x03000000#32], .unbind .always),
    ([0xf7f98554#32, 0x04002300#32], .wmacF64 .always (.v 230) (.v 10) (.v 212)),
    ([0x17e31300#32, 0x05001908#32], .wnorm (.on 1 false) .rtz (.v 12) (.imm 6)),
    ([0xf7e00400#32, 0x06d99000#32], .wwin .always (.y 0) (-77)),
    ([0xf7e70800#32, 0x07034060#32], .red .always .max .i64 .rne (.s 12) (.v 16)),
    ([0x4fe48f80#32, 0x08001040#32], .scan (.on 4 true) .add .i32 .rne false (.v 18) (.s 15)) ].all (decodes .xl) = true := by
  decide +kernel

theorem test_decode_mem_s_1 : [
    ([0xf0052416#32], .ldW .always (.v 20) (.y 0) (.v 22)),
    ([0xf0258c55#32], .ldD .always (.v 22) (.v 24) (.s 5)),
    ([0x7046241c#32], .ldQ (.on 7 false) (.v 24) (.y 0) (.v 28)),
    ([0xf0674f5b#32], .stW .always (.v 29) (.v 30) (.s 11)),
    ([0xf0882422#32], .stD .always (.v 32) (.y 0) (.v 34)),
    ([0xa8a81251#32], .stQ (.on 10 true) (.v 32) (.v 36) (.s 1)),
    ([0xf0c9a428#32], .ldsW .always (.v 38) (.y 0) (.v 40)),
    ([0xf0ea5558#32], .stsW .always (.v 41) (.v 42) (.s 8)),
    ([0x110b242e#32], .ldiWWg (.on 1 false) (.v 44) (.y 0) (.v 46)),
    ([0xf12bd85d#32], .stiWWg .always (.v 47) (.v 48) (.s 13)),
    ([0xf14ca400#32], .qpop .always (.v 50) (.y 0)),
    ([0x49601a34#32], .qpush (.on 4 true) (.v 52) (.v 52)),
    ([0xf1801b53#32], .prefetch .always (.v 54) (.s 3)) ].all (decodes .mem) = true := by
  decide +kernel

theorem test_decode_mem_k_1 : [
    ([0xf6172401#32, 0xe26af328#32], .ldK .always 1 (.s 12) (.y 0) 0xe26af328#32),
    ([0x762e1d02#32, 0xf49f49a0#32], .stK (.on 7 false) 2 (.v 56) (.v 58) 0xf49f49a0#32) ].all (decodes .mem) = true := by
  decide +kernel

theorem test_decode_mem_l_1 : [
    ([0xf7f20c1a#32, 0x00003600#32], .ldL .always .i8 (.v 200) (.s 8) (.imm (-6))),
    ([0xf7e20205#32, 0x010040a0#32], .stL .always .n16 (.y 0) (.v 4) (.v 5)),
    ([0xafe78f20#32, 0x020056d1#32], .ldi (.on 10 true) .n32 .launch .acq (.s 14) (.s 14) (.imm 0)),
    ([0xf7e2050b#32, 0x030040fc#32], .sti .always .n64 .sys .sc (.y 0) (.v 10) (.v 11)),
    ([0xf7e3ca26#32, 0x04025654#32], .atom .always .swap .i32 .launch .sc .discard (.s 4) (.imm 6)),
    ([0x17f5c810#32, 0x050020d8#32], .atomcas (.on 1 false) .n32 .sys .relaxed (.v 215) (.v 16) (.v 16)),
    ([0xf7e48d14#32, 0x06031111#32], .atomf .always .max .f64 .launch .acq (.v 18) (.s 10) (.v 20)),
    ([0xf7e00000#32, 0x07000018#32], .phase .sys),
    ([0x4fe00000#32, 0x08000011#32], .fence (.on 4 true) .launch .acq),
    ([0xf7e00416#32, 0x09359000#32], .tfill .always 107 (.y 0) (.v 22)),
    ([0xf7e00b6a#32, 0x0a380200#32], .tdrain .always 112 (.v 22) (.v 234)),
    ([0x77e00000#32, 0x0b3a8000#32], .twait (.on 7 false) 117),
    ([0xf7f84000#32, 0x0c3d2000#32], .tstate .always 122 (.v 225)),
    ([0xf7e00000#32, 0x0d3f8000#32], .tfree .always 127),
    ([0xafe6841c#32, 0x0e005000#32], .halloc (.on 10 true) false (.s 10) (.y 0) (.v 28)),
    ([0xf7e00e70#32, 0x0f000200#32], .hfree .always (.v 28) (.v 240)),
    ([0xf7e00c1a#32, 0x10001600#32], .cinv .always false (.s 8) (.imm (-6))),
    ([0x17e00422#32, 0x11001001#32], .cwb (.on 1 false) true (.y 0) (.v 34)) ].all (decodes .mem) = true := by
  decide +kernel

theorem test_decode_mat_l_1 : [
    ([0xf7e8f66d#32, 0x00d01580#32], .mma .always .e4m3 (.v 35) 12 13 (.imm 0)),
    ([0xf7e23061#32, 0x01655586#32], .mmasc .always .e4m3 0 6 (.y 0) 0 1 (.v 202)),
    ([0x4fead308#32, 0x02001d20#32], .accld (.on 4 true) .f32 (.v 43) (.imm 6) (.y 0)),
    ([0xf7eb97d0#32, 0x03000320#32], .accst .always (.v 46) (.v 47) (.v 208)),
    ([0xf7e00c9d#32, 0x04001600#32], .acczero .always (.s 9) (.imm (-3))),
    ([0x77e00434#32, 0x05001000#32], .accwin (.on 7 false) (.y 0) (.v 52)),
    ([0xf7fb6b00#32, 0x06004800#32], .opmap .always 13 (.v 214)),
    ([0xf7e00000#32, 0x07000000#32], .mwait .always),
    ([0xafebd188#32, 0x081d3d20#32], .accldBand (.on 10 true) (.v 175) (.imm 3) (.y 0) (.v 58)),
    ([0xf7eeee00#32, 0x09028800#32], .mmaprogRd .always 5 (.v 59) (.v 220)),
    ([0xf7e00a9a#32, 0x09011601#32], .mmaprogWr .always 2 (.s 5) (.imm (-6))) ].all (decodes .mat) = true := by
  decide +kernel

theorem test_decode_ctl_s_1 : [
    ([0x101ffb6f#32], .bra (.on 1 false) (-1169)),
    ([0xf0212fd1#32], .jmp (77777)),
    ([0xf0402400#32], .jmpi .always (.y 0)),
    ([0x48612fd1#32], .call (.on 4 true) (77777)),
    ([0xf0800200#32], .calli .always (.v 4)),
    ([0xf0a00000#32], .ret .always),
    ([0x70c00000#32], .exit (.on 7 false)),
    ([0xf0e00000#32], .nop .always),
    ([0xf1016a58#32], .dispatch .always (.v 5) 4 8),
    ([0xa9200300#32], .gpcadd (.on 10 true) (.v 6)),
    ([0xf1402d80#32], .gpcset .always (.s 11)),
    ([0xa9612fd1#32], .loop 2 5 (77777)),
    ([0xf1800000#32], .barWg),
    ([0xf1a00000#32], .join),
    ([0xf1c03800#32], .sleep .always (.imm 0)),
    ([0x49e02400#32], .wait (.on 4 true) (.y 0)),
    ([0xf200050b#32], .spawn .always (.v 10) (.v 11)),
    ([0x62004651#32], .spawnTry (.on 6 false) (.v 12) (.s 1)),
    ([0x72200000#32], .brk (.on 7 false)),
    ([0xf2400000#32], .yield .always) ].all (decodes .ctl) = true := by
  decide +kernel

theorem test_decode_ctl_s_2 : [
    ([0xf2600080#32], .gmode .always 1) ].all (decodes .ctl) = true := by
  decide +kernel

theorem test_decode_sys_s_1 : [
    ([0xa8038403#32], .engCopy (.on 10 true) 3 (.v 14) (.v 8)),
    ([0xf0370806#32], .engColl .always 2 (.s 12) (.v 16)),
    ([0xf0400905#32], .engPost .always ⟨1, 1⟩ (.v 18)),
    ([0x10648008#32], .engSeq (.on 1 false) ⟨2, 0⟩ (.v 18)),
    ([0xf0800a48#32], .reelGo .always (.v 20) (.y 0)),
    ([0xf0a04b17#32], .reelCondWrite .always 1 (.v 22) (.v 23)),
    ([0x48d14c00#32], .svc (.on 4 true) 69 (.v 24)),
    ([0xf0e64000#32], .svcwait .always (.v 25)),
    ([0xf117a41c#32], .trieStep .always (.s 14) (.y 0) (.v 28)),
    ([0x71270f53#32], .trieScan (.on 7 false) (.v 28) (.v 30) (.s 3)),
    ([0xf1682422#32], .trieChild .always (.v 32) (.y 0) (.v 34)),
    ([0xf148d200#32], .trieInfo .always (.v 35) (.v 36)),
    ([0xa9890000#32], .covpt (.on 10 true) (.v 36)),
    ([0xf1a03848#32], .covst .always (.imm 0) (.y 0)),
    ([0xf1c01400#32], .mark .always (.v 40)),
    ([0x11f70000#32], .ctrTick (.on 1 false) (.s 12)),
    ([0xf1f3c080#32], .ctrMode .always .discard),
    ([0xf1e0015f#32], .ctrSetmode .always (.s 15)),
    ([0x49eb0180#32], .ctrVote (.on 4 true) (.v 44)),
    ([0xf1eb0c80#32], .ctrWindsock .always 9 (.v 44)) ].all (decodes .sys) = true := by
  decide +kernel

theorem test_decode_sys_s_2 : [
    ([0xf204c000#32], .trap .always 19),
    ([0x72200000#32], .tretRetry (.on 7 false)),
    ([0xf2200080#32], .tretSkip .always) ].all (decodes .sys) = true := by
  decide +kernel

theorem test_decode_sys_l_1 : [
    ([0xf7e69780#32, 0x000040e0#32], .sysr .always .n64 (.s 10) (.v 47)),
    ([0xafe02d15#32, 0x01000cc0#32], .sysw (.on 10 true) .n32 (.v 218) (.s 5)),
    ([0xf7e00e80#32, 0x021a9800#32], .msig .always 53 (.imm (-3))),
    ([0xf7e00434#32, 0x031d1000#32], .mpost .always 58 (.y 0) (.v 52)),
    ([0x17e01a60#32, 0x04000200#32], .tlbinvPage (.on 1 false) (.v 52) (.v 224)),
    ([0xf7e00d23#32, 0x04001601#32], .tlbinvAsid .always (.s 10) (.imm 3)),
    ([0xf7e0043a#32, 0x04001002#32], .tlbinvAll .always (.y 0) (.v 58)),
    ([0x4fe01d66#32, 0x05000200#32], .cflush (.on 4 true) (.v 58) (.v 230)),
    ([0xf7e64d00#32, 0x06005800#32], .fltrd .always (.s 9) (.imm (-6))) ].all (decodes .sys) = true := by
  decide +kernel

/-! ## Well-formedness: each check refuses a term -/

/-- An instruction with an ill-formed field, one for each check; the field values are those of R167 to R178. -/
theorem test_illFormed : [
    .iaddI32 (.on 12 false) (.v 1) (.v 2) (.v 3), .iaddI32 .always (.v 64) (.v 2) (.v 3), .iaddI32 .always (.v 1) (.v 64) (.v 3),
    .iaddI32 .always (.s 7) (.v 2) (.v 3), .iaddI32 .always (.s 16) (.v 2) (.v 3), .iaddI32 .always (.pm 0) (.v 2) (.v 3),
    .iaddI32 .always (.w 8) (.v 2) (.v 3), .iaddI32 .always (.v 1) (.y 2) (.v 3), .iaddI32 .always (.v 1) (.imm 16) (.v 3),
    .iaddI32 .always (.v 1) (.imm (-17)) (.v 3), .iaddI32 .always (.v 1) (.pm 0) (.v 3), .iaddI64 .always (.v 1) (.v 2) (.v 4),
    .iaddI64 .always (.v 2) (.v 3) (.v 4), .ldQ .always (.v 6) (.v 2) (.imm 0), .ldQ .always .discard (.v 2) (.imm 0),
    .stQ .always (.y 0) (.v 2) (.imm 0), .stQ .always (.tid) (.v 2) (.imm 0), .engCopy .always 0 (.v 2) (.w 0), .engCopy .always 0 (.v 2) (.imm 0),
    .engCopy .always 4 (.v 2) (.v 8), .pand .always 12 0 0, .icmp .always .n32 .eq 12 (.v 1) (.v 2), .imad .always .n8 (.v 1) (.v 2) (.v 3) (.v 4),
    .imad .always .n32 (.v 256) (.v 2) (.v 3) (.v 4), .imad .always .n32 (.v 1) (.imm 32) (.v 3) (.v 4), .imad .always .n32 (.v 1) (.s 64) (.v 3) (.v 4),
    .lea .always .i32 8 (.v 2) (.v 2) (.v 3), .setix .always 4 (.v 1), .fsqrt .always .f64 .rne true (.v 2) (.v 4),
    .red .always .and .f32 .rne (.v 1) (.v 2), .red .always .add .i32 .rtz (.v 1) (.v 2), .zip .always .n32 5 (.v 0) (.v 8),
    .zip .always .n32 2 (.w 7) (.v 8), .unzip .always .n32 2 (.v 0) (.s 8), .bind .always .n32 3, .bind .always .n8 0, .wwin .always (.v 1) 256,
    .ldK .always 3 (.v 1) (.v 2) 0, .ldi .always .n32 .wg .rel (.v 1) (.v 2) (.v 4), .sti .always .n32 .wg .acq (.v 1) (.v 2) (.v 4),
    .sti .always .n32 (.rect 4 0) .rel (.v 1) (.v 2) (.v 4), .fence .always .wg .relaxed, .phase (.rect 0 8), .tfree .always 128,
    .mma .always .f32 (.v 1) 0 1 (.v 2), .mma .always .bf16 (.v 1) 16 1 (.v 2), .mmasc .always .e4m3 4 0 (.v 1) 0 1 (.v 2),
    .mmasc .always .e4m3 0 8 (.v 1) 0 1 (.v 2), .opmap .always 16 (.v 2), .mmaprogRd .always 8 (.v 1) (.v 2), .bra .always 1048576, .jmp (-1048577),
    .dispatch .always (.v 1) 6 8, .loop 3 0 4, .loop 0 8 4, .spawnTry .always (.v 1) (.v 2), .gmode .always 3, .engPost .always ⟨2, 0⟩ (.v 1),
    .engSeq .always ⟨3, 0⟩ (.v 2), .engSeq .always ⟨2, 1⟩ (.v 2), .reelCondWrite .always 3 (.v 2) (.v 1), .svc .always 128 (.v 1), .ctrWindsock .always 16 (.v 2), .trap .always 32,
    .sysr .always .i32 (.v 1) (.v 2), .msig .always 512 (.v 1), .voteAll .always 0 12 ].all (fun (i : Instr) => !i.wellFormed) = true := by
  decide +kernel

/-- The same checks pass at the ends of their ranges. -/
theorem test_wellFormed : [
    .iaddI32 (.on 11 true) (.v 63) (.s 15) (.imm (-16)), .iaddI64 .always (.w 6) (.v 62) (.imm 15), .ldQ .always (.w 4) (.s 14) .one,
    .imad .always .n64 (.pm 11) (.imm 31) (.s 62) (.v 254), .zip .always .n8 4 (.w 4) (.v 255), .bind .always .n64 2, .wwin .always (.v 1) (-256),
    .mmasc .always .e2m1 3 7 (.v 1) 15 15 (.v 254), .bra .always (-1048576), .dispatch .always .discard 14 12, .loop 2 7 1048575,
    .spawnTry (.on 0 true) (.v 1) (.v 2), .msig .always 511 (.v 255) ].all (fun (i : Instr) => i.wellFormed) = true := by
  decide +kernel

/-! ## A small module: one workgroup on core 0, whose one team of width 16 has two threads in the issue group -/

def thr (k : Nat) : Thread :=
  { lane := k, tid := BitVec.ofNat 32 k, v := (List.range 16).map (BitVec.ofNat 32 ·), clause := 0x400000, inside := true, entry := some 0 }

def tm (ths : List Thread) : Team :=
  { launch := 0, wg := 0, idx := 0, width := 16, core := 0, slice := 0, span := 0, block := 0, bsize := 16, threads := ths }

def page : TlbEntry :=
  { asid := 0, vpn := 0x400, bits := 12, ppn := 0x400, glob := false, w := true, u := true, nx := false, sh := 0 }

def ent (ws : List (BitVec 32)) : Entry :=
  { id := 0, core := 0, slice := 0, launch := 0, tag := 0, addr := 0x400000, team := some (0, 0), mask := [0, 1], state := .issuing, words := ws }

def up : State :=
  { State.reset with
    bring := { powered := true, step := 4, regions := 48, compute := 0xff, gondola := 0xff, svc := 0xff, host := true, fabric := true, stoland := true }
    links := List.replicate 48 { state := .up } }

def one (ths : List Thread) (L : Launch) : State :=
  { up with
    tlb := [page], launches := [L], nextLaunch := 1, wgs := [{ launch := 0, id := 0, state := .running }], teams := [tm ths]
    entries := [ent []], nextEntry := 1, cur := some ⟨0, 0⟩ }

def s0 : State := one [thr 0, thr 1] { id := 0 }

def c0 : Cur := ⟨0, 0⟩

/-- The state after an instruction. -/
def after (i : Instr) (s : State) : State :=
  match exec i s with
  | .next t => t
  | _ => s

/-- A lane's view of the state after an instruction. -/
def lane (i : Instr) (s : State) (k : Nat) (f : Thread → α) (d : α) : α :=
  match (after i s).thread? ⟨0, 0, 0, k⟩ with
  | some (_, th) => f th
  | none => d

/-- LaneOp.Ready, as a question that can be decided. -/
def readyB (o : LaneOp) (s : State) (c : Cur) (x : Team → List Nat) : Bool :=
  decide (s.cur = some c
    ∧ (∀ T ∈ s.teams, (∃ th ∈ T.threads, th.issuing c.entry = true) → ∀ k ∈ o.named, k < T.bsize)
    ∧ (∀ T ∈ s.teams, ∀ th ∈ T.executing c.entry o.g, ∀ th' ∈ T.executing c.entry o.g, ∀ q ∈ o.uniform,
        readSrc (s.tickOf T) .int q.2 T th q.1 = readSrc (s.tickOf T) .int q.2 T th' q.1)
    ∧ (∀ T ∈ s.teams, ∀ th ∈ T.executing c.entry o.g, T.sound th = true)
    ∧ (∀ T ∈ s.teams, ∀ th ∈ T.executing c.entry o.g, o.ready s c T th = true)
    ∧ (o.sd ≠ [] → ∀ T ∈ s.teams, ∀ th ∈ T.executing c.entry o.g, o.res s c T th = x T))

theorem ready_of_readyB {o : LaneOp} {s : State} {c : Cur} {x : Team → List Nat} (h : readyB o s c x = true) : o.Ready s c x :=
  have h := of_decide_eq_true h
  ⟨h.1, h.2.1, h.2.2.1, h.2.2.2.1, h.2.2.2.2.1, h.2.2.2.2.2⟩

/-- SeqOp.Ready, as a question that can be decided. -/
def seqB (o : SeqOp) (s : State) (c : Cur) : Bool :=
  decide (s.cur = some c
    ∧ (∀ T ∈ s.teams, (∃ th ∈ T.threads, th.issuing c.entry = true) →
        ∀ k ∈ dstRegs o.w o.d ++ o.srcs.flatMap (fun q => srcRegs q.2 q.1), k < T.bsize)
    ∧ (∀ T ∈ s.teams, ∀ th ∈ T.executing c.entry o.g, ∀ th' ∈ T.executing c.entry o.g,
        ∀ q ∈ (if (sRegOf o.d).isSome then o.srcs.filter (fun q => perLaneSrc q.1) else []) ++ o.uni,
          readSrc (s.tickOf T) .int q.2 T th q.1 = readSrc (s.tickOf T) .int q.2 T th' q.1))

theorem ready_of_seqB {o : SeqOp} {s : State} {c : Cur} (h : seqB o s c = true) : o.Ready s c :=
  have h := of_decide_eq_true h
  ⟨h.1, h.2.1, h.2.2⟩

/-! ## Witnesses: instructions whose lanes act each on its own registers -/

theorem witness_IntegerInstructions : ∃ o, intOp (.iaddI32 (.on 0 true) (.v 15) (.v 2) (.imm (-16))) = some o
    ∧ o.Ready s0 c0 (fun _ => []) := ⟨_, rfl, ready_of_readyB (by decide +kernel)⟩

/-- A register of the team takes what the lanes agree on. -/
theorem witness_IntegerInstructions_s : ∃ o, intOp (.iaddI32 .always (.s 8) (.v 2) (.v 3)) = some o
    ∧ o.Ready s0 c0 (fun _ => [5]) := ⟨_, rfl, ready_of_readyB (by decide +kernel)⟩

theorem witness_FloatingInstructions : ∃ o, fltOp (.fma .always .f32 .rne false false (.v 4) .one .one (.imm 3)) = some o
    ∧ o.Ready s0 c0 (fun _ => []) := ⟨_, rfl, ready_of_readyB (by decide +kernel)⟩

theorem witness_CrossLaneInstructions : ∃ o, xlOp (.red .always .add .i32 .rne (.v 4) .lane) = some o
    ∧ o.Ready s0 c0 (fun _ => []) ∧ groupReady (.red .always .add .i32 .rne (.v 4) .lane) s0 c0 :=
  ⟨_, rfl, ready_of_readyB (by decide +kernel), trivial⟩

/-- Sixteen threads, all of the team. -/
def s16 : State := one ((List.range 16).map thr) { id := 0 }

theorem witness_CrossLaneInstructions_zip : ∃ o, xlOp (.zip .always .n16 2 (.v 4) (.v 0)) = some o
    ∧ o.Ready s16 c0 (fun _ => []) ∧ groupReady (.zip .always .n16 2 (.v 4) (.v 0)) s16 c0 :=
  ⟨_, rfl, ready_of_readyB (by decide +kernel), by unfold groupReady; decide +kernel⟩

/-- The team of s16 bound as one number of 16 limbs of 32 bits, or 64. -/
def bnd (wide : Bool) : State := s16.mapTeams (boundAs 0 wide)

def bT (wide : Bool) : Team := boundAs 0 wide (tm ((List.range 16).map thr))

theorem witness_BoundLimbInstructions : ∃ o, limbOp (limbW (bT true)) (.wadd .always (.v 4) (.v 2) (.v 8)) = some o
    ∧ o.Ready (bnd true) c0 (fun _ => []) ∧ LimbReady (.wadd .always (.v 4) (.v 2) (.v 8)) o (bnd true) c0 (bT true) :=
  ⟨_, rfl, ready_of_readyB (by decide +kernel), rfl, by decide +kernel, by decide +kernel, by decide +kernel, by decide +kernel, by decide +kernel⟩

theorem witness_BoundLimbInstructions_wmac : ∃ o, limbOp (limbW (bT false)) (.wmacF64 .always (.v 4) (.imm 3) .one) = some o
    ∧ o.Ready (bnd false) c0 (fun _ => []) ∧ LimbReady (.wmacF64 .always (.v 4) (.imm 3) .one) o (bnd false) c0 (bT false) :=
  ⟨_, rfl, ready_of_readyB (by decide +kernel), rfl, by decide +kernel, by decide +kernel, by decide +kernel, by decide +kernel, by decide +kernel⟩

theorem witness_BindingOfTeams_bind : s16.cur = some c0 ∧ s16.groupTeams 0 = [tm ((List.range 16).map thr)]
    ∧ (tm ((List.range 16).map thr)).executing 0 .always ≠ [] ∧ (tm ((List.range 16).map thr)).width = 16 * 2 ^ 0
    ∧ ((tm ((List.range 16).map thr)).executing 0 .always).length = (tm ((List.range 16).map thr)).width
    ∧ (tm ((List.range 16).map thr)).blc.getLsbD 31 = false := by decide +kernel

/-- The hypotheses for unbind and wwin: -4096 is the least window base. -/
theorem witness_BindingOfTeams_unbind_wwin : (bnd false).cur = some c0 ∧ (bnd false).groupTeams 0 = [bT false]
    ∧ (bT false).executing 0 .always ≠ [] ∧ (bT false).blc.getLsbD 31 = true
    ∧ ((bT false).executing 0 .always).length = (bT false).live.length ∧ seqB (uniformOp .always [(.zero, 32)]) (bnd false) c0 = true
    ∧ (∀ o ∈ (bT false).executing 0 .always, (bT false).sound o = true) ∧ (bnd false).limbWaits (bT false) [⟨2, .zero, 32⟩] = false
    ∧ (bT false).limbFault [⟨2, .zero, 32⟩] = none
    ∧ -4096 ≤ signed 32 (rd (bnd false) 32 (bT false) (thr 0) .zero) + (-4096) := by decide +kernel

theorem witness_LaneInstructions : ∃ o, laneOp (.ctrTick .always (.v 4)) = some o ∧ o.Ready s0 c0 (fun _ => [])
    ∧ groupReady (.ctrTick .always (.v 4)) s0 c0 := ⟨_, rfl, ready_of_readyB (by decide +kernel), trivial⟩

theorem witness_LaneInstructions_fence : ∃ o, laneOp (.fence .always (.rect 0 0) .sc) = some o ∧ o.Ready s0 c0 (fun _ => [])
    ∧ groupReady (.fence .always (.rect 0 0) .sc) s0 c0 :=
  ⟨_, rfl, ready_of_readyB (by decide +kernel), by unfold groupReady; decide +kernel⟩

theorem witness_LaneInstructions_mmaprog : ∃ o, laneOp (.mmaprogRd .always 1 (.v 4) .zero) = some o ∧ o.Ready s0 c0 (fun _ => [])
    ∧ groupReady (.mmaprogRd .always 1 (.v 4) .zero) s0 c0 :=
  ⟨_, rfl, ready_of_readyB (by decide +kernel), by
    intro T hT th hth U hU
    have : ∀ T ∈ s0.teams, ∀ th ∈ T.executing 0 .always, (s0.targetTeam (dieOf T.core) (rd s0 32 T th .zero)).all (fun U => decide (1 < U.width / 8)) = true := by
      decide +kernel
    simpa [hU] using this T hT th hth⟩

theorem witness_LaneInstructions_jmpi : ∃ o, laneOp (.jmpi .always (.v 4)) = some o ∧ o.Ready s0 c0 (fun _ => [])
    ∧ groupReady (.jmpi .always (.v 4)) s0 c0 := ⟨_, rfl, ready_of_readyB (by decide +kernel), by unfold groupReady; decide +kernel⟩

/-! ## Witnesses: instructions whose lanes act one after another -/

/-- A thread whose v2 and v3 hold an address of its own, v4 and v5 that of a trie node of zeros, v6 and v7 that of a heap descriptor and
v8 to v15 a copy entry. -/
def mthr (k : Nat) : Thread :=
  { thr k with v := [0, 1, BitVec.ofNat 32 (0x400100 + 64 * k), 0, 0x400200, 0, 0x400240, 0, 0x400100, 0, 0x400180, 0, 64, 0, 0, 0]
               rstack := [⟨0x400000, 0, 0⟩], svc := true }

/-- Code, data, a ring of engine entries, heap metadata and a context area: pages that stand at their own addresses. -/
def pages : List TlbEntry := [0x400, 0x401, 0x402, 0x80c].map (fun n => { page with vpn := n, ppn := n })

def coverage : Controller := { etype := 9 }

def sM (ths : List Thread) (f : Team → Team := id) : State :=
  { one ths { id := 0, recd := { qdescBase := 0x400400, entrytab := 0x400900, qcons := 1, qprod := 1, ballastLimit := 1, ballastStride := 16
                                 ballastBase := 0x400c00, accrows := 4, spawnslots := 1, handler := 0x400000 }, ctrl := some coverage } with
    tlb := pages
    mem := [(0x400242, 1), (0x400248, 1), (0x400251, 0x10), (0x400252, 0x40), (0x400401, 0x20), (0x400402, 0x40), (0x400408, 6), (0x40087c, 1)
          , (0x400902, 0x40), (0x401000, 0xff), (0x80c008, 1), (0x80c018, 1)]
    wgs := [{ launch := 0, id := 0, state := .running, ctx := 0x800000, accblk := 0x40000, queues := [{ sel := ⟨0, 0⟩ }]
              cover := some { tile := 0, pattern := 0 } }]
    queues := [{ die := 0, q := 0, state := .open, ringbase := 0x400800, tail := 2, reserve := 2 }]
    parts := [{ launch := 0, home := 0, core := some 0, base := 0, size := 4096, tbase := 0, tiles := 1 }]
    cores := [{ id := 0, tiles := setAt (List.replicate 128 0) 0 (mkTile 0 2 false 0 1 0) }]
    teams := [f { tm ths with s := (List.range 64).map (fun n =>
      if n = 8 then 0x400100 else if n = 10 then 0x400180 else if n = 12 then 1 else 0), accwin := 0x40000 }] }

/-- The hypotheses of a statement about instructions whose lanes act one after another: they are ready, and each lane completes. -/
def runsB (o : SeqOp) (s : State) (c : Cur) : Bool :=
  seqB o s c && (runLanes s c o.ord (o.eff s) (s.laneOrder c.entry o.g).1 (s.laneOrder c.entry o.g).2).isSome

theorem witness_MemoryInstructions_loads : [
    .ldW .always (.v 15) (.v 2) (.imm 12), .ldK .always 2 (.v 0) (.v 2) 0xeb0#32,
    .ldL .always .i8 (.v 0) (.v 2) (.imm (-1)), .ldsW .always (.v 0) .zero .zero, .ldiWWg .always (.v 0) (.v 2) .zero,
    .ldi .always .n64 .sys .sc (.v 0) (.v 2) .zero ].all (fun i => match memOp i with
      | some o => runsB o (sM [mthr 0, mthr 1]) c0
      | none => false) = true := by decide +kernel

theorem witness_MemoryInstructions_stores : [
    .stW .always .lane (.v 2) .zero, .stQ .always (.v 8) (.v 4) .zero, .stsW .always (.v 0) (.imm 4) .zero, .stiWWg .always .lane (.v 2) .zero,
    .sti .always .n32 (.rect 0 0) .rel .lane (.v 2) .zero, .atom .always .add .i32 .wg .relaxed (.v 0) (.v 2) .one,
    .atomcas .always .n64 .launch .acqrel (.v 0) (.v 2) (.v 8), .atomf .always .add .f32 .wg .sc (.v 0) (.v 2) .one,
    .reelCondWrite .always 2 (.v 2) .one, .prefetch .always (.v 2) .zero, .cinv .always true (.v 2) (.imm 4), .cwb .always false (.v 2) (.imm 4) ].all (fun i => match memOp i with
      | some o => runsB o (sM [mthr 0, mthr 1]) c0
      | none => false) = true := by decide +kernel

theorem witness_MemoryInstructions_queues : [
    .qpop .always (.v 0) .zero, .qpush .always .zero (.v 6), .halloc .always false (.v 0) .one (.v 6) ].all (fun i => match memOp i with
      | some o => runsB o (sM [mthr 0, mthr 1]) c0
      | none => false) = true := by decide +kernel

/-- An object that halloc has given is freed by its address, here in v0 and v1. -/
theorem witness_MemoryInstructions_hfree : (match memOp (.hfree .always (.v 0) (.v 6)) with
    | some o => runsB o { sM [{ mthr 0 with v := setAt (setAt (mthr 0).v 0 0x10000) 1 0 }] with
        mem := [(0x400242, 1), (0x400248, 1), (0x400251, 0x10), (0x400252, 0x40), (0x401200, 1)] } c0
    | none => false) = true := by decide +kernel

theorem seqReady_unbound {i : Instr} {s : State} {c : Cur} {t : State} (hi : ∀ g q a b, i ≠ .mmaprogWr g q a b)
    (hd : ∀ g d a b, i = .dispatch g d a b → sRegOf d = none) (h : ∀ T ∈ s.groupTeams c.entry, T.blc.getLsbD 31 = false) : seqReady i s c t := by
  have f : ∀ {P : Team → Prop}, ∀ T ∈ s.groupTeams c.entry, T.blc.getLsbD 31 = true → P T := by
    intro P T hT hb; rw [h T hT] at hb; cases hb
  unfold seqReady
  split
  · exact absurd rfl (hi _ _ _ _)
  · exact ⟨f, f⟩
  · exact f
  · exact f
  · exact ⟨f, fun hs => by rw [hd _ _ _ _ rfl] at hs; cases hs⟩
  · exact f
  · exact f
  · exact f
  · trivial

theorem unbound_sM : ∀ T ∈ (sM [mthr 0, mthr 1]).groupTeams c0.entry, T.blc.getLsbD 31 = false := by decide +kernel

theorem witness_ControlInstructions : ∀ i ∈ ([.call .always (-1), .calli .always (.v 2), .ret .always, .exit (.on 0 true), .wait .always .zero] : List Instr), (match ctlOp i with
      | some o => runsB o (sM [mthr 0, mthr 1]) c0
      | none => false) = true ∧ ∀ t, seqReady i (sM [mthr 0, mthr 1]) c0 t := by
  have h : ([.call .always (-1), .calli .always (.v 2), .ret .always, .exit (.on 0 true), .wait .always .zero]
      : List Instr).all (fun i => match ctlOp i with
      | some o => runsB o (sM [mthr 0, mthr 1]) c0
      | none => false) = true := by decide +kernel
  intro i hi
  refine ⟨List.all_eq_true.1 h i hi, fun t => seqReady_unbound ?_ ?_ unbound_sM⟩ <;> rintro g q a b rfl <;> simp at hi

theorem witness_ControlInstructions_dispatch : (match ctlOp (.dispatch .always (.v 0) 8 10) with
      | some o => runsB o (sM [mthr 0]) c0
      | none => false) = true ∧ ∀ t, seqReady (.dispatch .always (.v 0) 8 10) (sM [mthr 0]) c0 t :=
  ⟨by decide +kernel, fun _ => seqReady_unbound (fun _ _ _ _ h => Instr.noConfusion h)
    (fun _ _ _ _ h => by injection h with _ hd; rw [← hd]; rfl) (by decide +kernel)⟩

/-- A team of one, which gives its s register what its lane has read. -/
theorem witness_ControlInstructions_dispatch_s : (match ctlOp (.dispatch .always (.s 14) 8 10) with
      | some o => runsB o (sM [mthr 0]) c0
      | none => false) = true
    ∧ seqReady (.dispatch .always (.s 14) 8 10) (sM [mthr 0]) c0 (after (.dispatch .always (.s 14) 8 10) (sM [mthr 0])) := by
  refine ⟨by decide +kernel, ?_, fun _ T hT th hth n hn => ?_⟩
  · intro T hT hb
    have : ∀ T ∈ (sM [mthr 0]).groupTeams 0, T.blc.getLsbD 31 = false := by decide +kernel
    rw [this T hT] at hb; cases hb
  · have : ∀ T ∈ (after (.dispatch .always (.s 14) 8 10) (sM [mthr 0])).groupTeams 0, ∀ th ∈ T.group 0, th.hold = .passed := by decide +kernel
    rw [this T hT th hth] at hn; cases hn

/-- With eight return entries on chip the oldest is spilled; with none and one spilled, it comes back. -/
theorem witness_ControlInstructions_ballast : (match ctlOp (.call .always 4), ctlOp (.ret .always) with
    | some o, some p => runsB o (sM [{ mthr 0 with rstack := List.replicate 8 ⟨0x400000, 0, 0⟩ }]) c0
        && runsB p (sM [{ mthr 0 with rstack := [], bc := 1 }]) c0
    | _, _ => false) = true := by decide +kernel

/-- A bound team exits as one. -/
theorem witness_ControlInstructions_bound : runsB { g := .always, eff := fun _ => exited } (bnd false) c0 = true
    ∧ ∀ t, seqReady (.exit .always) (bnd false) c0 t := by
  refine ⟨by decide +kernel, fun t => ⟨?_, ?_⟩⟩
  · show ∀ T ∈ (bnd false).groupTeams 0, T.blc.getLsbD 31 = true → T.executing 0 .always ≠ [] → (T.executing 0 .always).length = T.live.length
    decide +kernel
  · show ∀ T ∈ (bnd false).groupTeams 0, T.blc.getLsbD 31 = true → ∀ th ∈ T.executing 0 .always,
      (bnd false).awaits (T.ref th) th = false ∧ th.defer = []
    decide +kernel

/-- The module for the system class: a second engine queue, whose descriptor is like the first's. -/
def sS (ths : List Thread) : State :=
  { sM ths with
    wgs := [{ launch := 0, id := 0, state := .running, ctx := 0x800000, accblk := 0x40000, queues := [{ sel := ⟨0, 0⟩ }, { sel := ⟨1, 0⟩ }]
              cover := some { tile := 0, pattern := 0 } }]
    mem := [(0x400401, 0x20), (0x400402, 0x40), (0x400408, 6), (0x400501, 0x20), (0x400502, 0x40), (0x400508, 6), (0x80c008, 1), (0x80c048, 1)] }

def sysList : List Instr :=
  [.engCopy .always 0 (.v 0) (.v 8), .engColl .always 0 (.v 0) (.v 8), .engPost .always ⟨0, 0⟩ .one, .engSeq .always ⟨0, 0⟩ (.v 0),
   .engSeq .always ⟨2, 0⟩ (.v 0), .svcwait .always (.v 0), .trieStep .always (.v 0) (.v 4) .one, .trieScan .always (.v 0) (.v 4) .one,
   .trieChild .always (.v 0) (.v 4) .zero, .trieInfo .always (.v 0) (.v 4), .covpt (.on 0 true) (.v 0), .sysr .always .n64 (.v 0) .zero,
   .sysw .always .n32 .zero .one, .msig .always 0 .one, .mpost .always 0 (.v 2) .one, .tlbinvPage .always (.v 2) .zero,
   .tlbinvAsid .always (.v 2) .zero, .tlbinvAll .always (.v 2) .zero, .cflush .always (.v 2) .one, .accst .always .one .zero .lane]

theorem witness_SystemInstructions : ∀ i ∈ sysList, (match sysOp i with
      | some o => runsB o (sS [mthr 0]) c0
      | none => false) = true ∧ ∀ t, seqReady i (sS [mthr 0]) c0 t := by
  have h : sysList.all (fun i => match sysOp i with
      | some o => runsB o (sS [mthr 0]) c0
      | none => false) = true := by decide +kernel
  intro i hi
  refine ⟨List.all_eq_true.1 h i hi, fun t => seqReady_unbound ?_ ?_ (by decide +kernel)⟩ <;> rintro g q a b rfl <;> simp [sysList] at hi

/-- A thread in the handler, whose fault was at the first slot of its clause. -/
def hthr : Thread :=
  { mthr 0 with
    status := .handler
    frame := some { w := List.replicate 8 0, y0 := 0, y1 := 0, p := 0, depth := 1, levels := 0, clause := 0x400000, slot := 0, inside := true
                    recd := { cause := 0x04c } } }

theorem witness_SystemInstructions_tret : ∀ i ∈ ([.tretRetry .always, .tretSkip .always] : List Instr), (match sysOp i with
      | some o => runsB o (sS [hthr]) c0
      | none => false) = true ∧ ∀ t, seqReady i (sS [hthr]) c0 t := by
  have h : ([.tretRetry .always, .tretSkip .always] : List Instr).all (fun i => match sysOp i with
      | some o => runsB o (sS [hthr]) c0
      | none => false) = true := by decide +kernel
  intro i hi
  refine ⟨List.all_eq_true.1 h i hi, fun t => seqReady_unbound ?_ ?_ (by decide +kernel)⟩ <;> rintro g q a b rfl <;> simp at hi

theorem witness_SystemInstructions_mmaprog : (match sysOp (.mmaprogWr .always 1 .zero .one) with
      | some o => runsB o (sS [mthr 0]) c0
      | none => false) = true ∧ ∀ t, seqReady (.mmaprogWr .always 1 .zero .one) (sS [mthr 0]) c0 t := by
  refine ⟨by decide +kernel, fun t => ?_⟩
  intro T hT th hth U hU
  have : ∀ T ∈ (sS [mthr 0]).teams, ∀ th ∈ T.executing 0 .always,
      ((sS [mthr 0]).targetTeam (dieOf T.core) (rd (sS [mthr 0]) 32 T th .zero)).all (fun U => decide (1 < U.width / 8)) = true := by
    decide +kernel
  simpa [hU] using this T hT th hth

/-- The walker has delivered point 0, which has no value yet. -/
def sC (etype : Nat) : State :=
  let s := sM [mthr 0]
  { s with
    launches := s.launches.map (fun L => { L with ctrl := some { etype := etype } })
    wgs := s.wgs.map (fun W => { W with cover := some { tile := 0, pattern := 0, nextPt := 1, delivered := [0] } }) }

theorem witness_CoverageStores : ∀ e ∈ [8, 9], ((sC e).groupTeams 0).head? = (sC e).teams.head? ∧ ((sC e).launch 0).ctrl = some { etype := e }
    ∧ (Src.v 2).okIn 64 16 (-16) 15 false (if tyOf e = .f64 then 64 else 32) = true ∧ (Src.v 2).aligned (if tyOf e = .f64 then 64 else 32) = true
    ∧ runsB (covstOp (tyOf e) .always (.v 2) .zero) (sC e) c0 = true := by decide +kernel

theorem witness_TeamInstructions : ([.tfill .always 0 (.v 2) .one, .tdrain .always 0 (.v 2) .one, .tfree .always 0, .opmap .always 15 (.v 6)
      , .reelGo .always .zero .zero, .mark .always .one] : List Instr).all (fun i => match teamOp i with
      | some o => let s := { sM [mthr 0] with mem := [(0x400260, 16), (0x400262, 1), (0x400401, 0x20), (0x400402, 0x40), (0x400408, 6)] }
        seqB o s c0 && (runTeams c0 o.g o.mem (o.eff s) s (actingTeams s c0 o.g)).isSome
      | none => false) = true := by
  decide +kernel

theorem witness_SchedulingInstructions : (sM [mthr 0]).cur = some c0
    ∧ (∀ T ∈ (sM [mthr 0]).teams, ∀ th ∈ T.executing 0 .always, rd (sM [mthr 0]) 32 T th (.imm 63) < 64) := by decide +kernel

/-- Event 63 is set. -/
def sEv : State := { sM [mthr 0] with wgs := [{ launch := 0, id := 0, state := .running, ev := 1#64 <<< 63 }] }

theorem witness_SchedulingInstructions_sleep : (let s := sEv.mapTeams (·.mapThreads (fun th => { th with v := List.replicate 16 63 }))
    seqB (uniformOp .always [(.v 15, 32)]) s c0
      && s.teams.all (fun T => (T.executing 0 .always).all (fun th => T.sound th && decide (rd s 32 T th (.v 15) < 64)))
     
      && (runTeams c0 .always false (slept c0 .always (.v 15)) s (actingTeams s c0 .always)).isSome) = true := by decide +kernel

theorem witness_SchedulingInstructions_yield : actingTeams s0 c0 .always ≠ [] ∧ actingTeams s0 c0 (.on 0 false) = [] := by decide +kernel

/-- p0 is true in lane 0 only. -/
def sSplit (s : State) : State := s.mapTeams (·.mapThreads (fun th => if th.lane = 0 then th.setP 0 true else th))

theorem witness_Branches : (sSplit s0).cur = some c0 ∧ branchVote (sSplit s0) c0 (.on 0 false) = 3
    ∧ (∀ T ∈ (sSplit s0).groupTeams 0, T.blc.getLsbD 31 = false) := by decide +kernel

theorem witness_Branches_bound : branchVote (sSplit (bnd false)) c0 (.on 0 false) = 3 ∧ (sSplit (bnd false)).groupTeams 0 ≠ []
    ∧ (∀ T ∈ (sSplit (bnd false)).groupTeams 0, T.blc.getLsbD 31 = true) := by decide +kernel

theorem witness_HardwareLoops : (match s0.executing 0 .always with
    | [] => false
    | (T, th) :: _ => decide ((s0.fallNow th).toNat ≤ (offsetOf th 4).toNat) && (match s0.fetchClause (s0.agent T) (offsetOf th 4) with
      | .ok s1 _ => decide (s1.cur = some c0 ∧ ∀ U ∈ s1.teams, ∀ o ∈ U.executing 0 .always, U.sound o = true ∧ o.loops.length < 3 ∧ ∀ v ∈ o.loops, v.n ≠ 2)
      | _ => false)) = true := by decide +kernel

/-- The last entry of a table of one, a slot of the launch and two lanes. -/
theorem witness_SpawnInstructions : (let s := sM [mthr 0, mthr 1]
    seqB { uniformOp .always [(.zero, 32), (.one, 32)] with uni := [(.zero, 32)] } s c0
      && decide (∀ T ∈ s.teams, ∀ th ∈ T.executing 0 .always, T.sound th = true)
      && decide (∀ T ∈ s.groupTeams 0, ∀ th ∈ T.executing 0 .always, rd s 32 T th .zero < (s.launch T.launch).recd.entries ∧ s.replays (T.ref th) = false)
      && (withParents .always .zero (fun x ps => if ps.length = 2 ∧ ∀ q ∈ wgsOf (s.activeTeams .always),
            (chunksFor x ps q.1 q.2).length ≤ (x.freeSpawn (x.wg q.1 q.2)).length then some x else none) (s.activeTeams .always) s []).isSome) = true := by
  decide +kernel

theorem witness_BreakpointsAndTraps : s0.cur = some c0 ∧ s0.executing 0 .always ≠ [] := by decide +kernel

theorem witness_BoundaryArrivals : s0.cur = some c0 ∧ (runArrivals c0 .wg (s0.laneOrder 0 .always).1 (s0.laneOrder 0 .always).2).isSome = true
    ∧ s0.shapeBad .wg = none := by decide +kernel

/-- A phased launch whose rectangle holds the scope's. -/
theorem witness_BoundaryArrivals_phase : (let s := one [thr 0] { id := 0, recd := { phased := true, h := 8, wd := 4 } }
    decide (s.shapeBad (.rect 3 2) = none) && (runArrivals c0 (.rect 3 2) (s.laneOrder 0 .always).1 (s.laneOrder 0 .always).2).isSome) = true := by
  decide +kernel

theorem witness_ServiceCalls : (let s := sM [{ mthr 0 with svc := false }]
    seqB { uniformOp .always [(.one, 32)] with uni := [] } s c0 && (runCalls c0 .always 127 .one s (actingTeams s c0 .always)).isSome) = true := by
  decide +kernel

/-- A map of 32 rows and k elements in a format. -/
def map (k fmt geom : Nat) : BitVec 512 := BitVec.ofNat 512 (32 * 2 ^ 272 + k * 2 ^ 256 + 0x400000 * 2 ^ 320 + 256 * 2 ^ 288 + fmt * 16 + geom * 256)

/-- One quarter of a team, with a window of 16 rows. -/
def sMat (m : BitVec 512) : State :=
  sM ((List.range 8).map mthr) (fun T => { T with maps := List.replicate 16 m, accwin := 0x100000 })

def qT (m : BitVec 512) : Part :=
  { team := (sMat m).teams.headD (tm []), q := 0, lanes := ((sMat m).teams.headD (tm [])).threads }

/-- One team with one part, and an empty queue: there is room. -/
theorem room_one {s : State} {c : Cur} {i : Instr} {bs : Option Nat} {k ma mb : Nat} {x y : Src} {p : Part}
    (h : s.groupTeams c.entry = [p.team]) (hq : (s.core p.team.core).passes = []) :
    ∀ t ∈ (partsOf s c i bs k ma mb x y [p]).2, (s.core t.1).passes.length + (partsOf s c i bs k ma mb x y [p]).2.length ≤ 16 := by
  have e : ∃ q, (partsOf s c i bs k ma mb x y [p]).2 = [(p.team.core, q)] := by
    simp [partsOf, h, Team.is, State.mkParts]
  obtain ⟨q, hq'⟩ := e
  simp [hq', hq]

theorem witness_MatrixOperations_mma : MatReady (sMat (map 16 0xb 0)) c0 (.mma .always .bf16 .zero 0 15 .zero) .always .bf16 none 0 .zero 0 15 .zero
    [qT (map 16 0xb 0)] := by
  refine ⟨by decide +kernel, by decide +kernel, by decide +kernel, by decide +kernel, by decide +kernel, by decide +kernel, by decide +kernel, by decide +kernel,
    room_one (by decide +kernel) (by decide +kernel)⟩

theorem witness_MatrixOperations_mmasc : MatReady (sMat (map 128 0xe 1)) c0 (.mmasc .always .e2m1 3 7 .zero 0 15 .zero) .always .e2m1 (some 3) 7 .zero 0 15
    .zero [qT (map 128 0xe 1)] := by
  refine ⟨by decide +kernel, by decide +kernel, by decide +kernel, by decide +kernel, by decide +kernel, by decide +kernel, by decide +kernel, by decide +kernel,
    room_one (by decide +kernel) (by decide +kernel)⟩

/-- The rows of a block of 4: all of them, from the first. -/
theorem witness_AccumulatorRows : (let s := sM [mthr 0]
    seqB (uniformOp .always [(.zero, 32), (.imm 4, 32)]) s c0
      && s.teams.all (fun T => (T.executing 0 .always).all (fun th =>
        T.sound th && decide (rd s 32 T th (.imm 4) ≤ accLimit (s.wg T.launch T.wg).accblk - accBase (s.wg T.launch T.wg).accblk)
          && decide (rd s 32 T th (.imm 4) ≤ 4096)
          && (zeroRows s T th .zero (.imm 4)).all (fun r => decide (accBase T.accwin ≤ r) && decide (r < accLimit T.accwin))))
      && (runTeams c0 .always false (zeroed s .zero (.imm 4)) s (actingTeams s c0 .always)).isSome) = true := by decide +kernel

/-! ## Witnesses: encoding and the step -/

theorem witness_DecodeOfEncode : (Instr.iaddI32 .always (.v 63) (.s 15) (.imm (-16))).wellFormed = true
    ∧ isOperation (Instr.iaddI32 .always (.v 63) (.s 15) (.imm (-16))) = false
    ∧ encode (Instr.iaddI32 .always (.v 63) (.s 15) (.imm (-16))) ≠ none := by decide +kernel

/-- A clause of one pxor stands in the clause buffer. -/
def sStep : State := { s0 with entries := [ent [0x00000001, 0xf3808102]] }

/-- What a group at a slot decodes. -/
def here (s : State) (h : Header) (ws : List (BitVec 32)) (n : Nat) : Except DecodeFault (Instr × Nat) :=
  decodeWords h.cls (s.groupPriv 0) ((ws.take 16).drop (slotOffset ws n 1))

def isOk (i : Instr) (n : Nat) (r : Except DecodeFault (Instr × Nat)) : Bool :=
  match r with
  | .ok (j, m) => decide (j = i ∧ m = n)
  | .error _ => false

theorem witness_StepRunsTheDecodedInstruction : atSlot sStep c0 (ent [0x00000001, 0xf3808102])
    ∧ decodeHeader 0x00000001 = some ⟨.int, 1, 0, 0⟩ ∧ isOk (.pxor .always 2 2 2) 1 (here sStep ⟨.int, 1, 0, 0⟩ [0x00000001, 0xf3808102] 0) = true
    ∧ isTransfer (.pxor .always 2 2 2) = false ∧ isFirst (.pxor .always 2 2 2) = false ∧ ∃ t, exec (.pxor .always 2 2 2) sStep = .next t :=
  ⟨by unfold atSlot; decide +kernel, by decide +kernel, by decide +kernel, rfl, rfl, _, rfl⟩

/-- The clause is fetched: the state in which a word is placed where the next step fetches. -/
theorem witness_StepRunsTheDecodedInstruction_fetch : (let s := State.reset.withFetchWord 32 0xf3808102
    decide (s.gated = false ∧ s.agenda = [] ∧ s.bring.powered = true ∧ s.cur = some c0) && (match s.entry? 0 with
      | some E => decide (E.begun = false ∧ E.words = []) && (match s.members E.id with
        | (T, _) :: _ => (match s.fetchClause (s.agent T) E.addr with
          | .ok s1 ws => decide (ws ≠ [] ∧ E.team ≠ none ∧ s1.cur = some c0 ∧ s1.entry? 0 = some E
              ∧ (clauseKind ws (s.launch T.launch).priv).point = false ∧ s1.waitsMet E (s1.members E.id) = true ∧ decodeHeader (ws.headD 0) = some ⟨.int, 1, 0, 0⟩)
            && isOk (.pxor .always 2 2 2) 1 (here s1 ⟨.int, 1, 0, 0⟩ ws 0)
          | _ => false)
        | [] => false)
      | none => false)) = true := by decide +kernel

theorem witness_StepRunsTheDecodedInstruction_word : (match s0.translate (s0.agent (tm [])) 0x400ffc .fetch with
    | (s1, .ok loc _ _) => decide (s1.reach loc = .yes ∧ s1.engineHolds loc 4 false = false ∧ s1.sealBad loc = false
        ∧ ByteMap.get? (s1.core 0).icache loc = none)
    | _ => false) = true := by decide +kernel

theorem witness_StepRunsTheDecodedInstruction_agenda : ({ up with agenda := [.powerGood] } : State).gated = false
    ∧ ({ up with agenda := [.powerGood] } : State).agenda = [.powerGood] ∧ isOperation .powerGood = true ∧ isOperation (.nop .always) = false := ⟨rfl, rfl, rfl, rfl⟩

theorem witness_StepStopsOnlyWhenGated : State.reset.gated = false ∧ ({ State.reset with gated := true } : State).gated = true
    ∧ ∀ rest, ({ State.reset with gated := true } : State).agenda ≠ .moduleReset :: rest := ⟨rfl, rfl, fun _ h => nomatch h⟩

/-! ## Witnesses: operations of the module -/

theorem witness_BringUpAndReset : State.reset.bring.badDimm = none ∧ State.reset.bring.badLink = none := ⟨rfl, rfl⟩

/-- The last region of a module of 48 TiB; die 7. -/
theorem witness_MemoryAndFirmware : (let s : State := { up with bring := { up.bring with regions := 47 } }
    decide (s.bring.stoland = true ∧ s.bring.badDimm = none ∧ s.bring.dimm ≤ 256 ∧ s.bring.regions < s.allRegions ∧ Memory.wf s.mem = true
      ∧ s.bring.host = true ∧ ({ s.bring with gondola := 0x7f } : BringUp).gondola.getLsbD 7 = false)) = true := by decide +kernel

/-- Link 46 is up and link 47 retrains; port 15 carries a write of an engine that another one does not share. -/
theorem witness_LinksAndPorts : (let i : InFlight := { launch := 0, wg := 0, sel := ⟨0, 0⟩, pos := 0, bits := 0, owned := [2 ^ 46] }
    let s : State := { up with
      links := setAt up.links 47 { state := .retraining }, ports := List.replicate 16 true, inflight := [i, { i with wg := 1, owned := [0] }] }
    decide (46 < s.links.length ∧ (s.link 46).state = .up ∧ 47 < s.links.length ∧ (s.link 47).state = .retraining ∧ s.ports.getD 15 false = true
      ∧ (∃ i ∈ s.inflight, i.result = none ∧ ∃ sec ∈ i.owned, 2 ^ 52 ≤ sec * 64) ∧ ∃ i ∈ s.inflight, ∀ sec ∈ i.owned, sec * 64 < 2 ^ 52)) = true
    ∧ linkOf (46 * 4096) = 46 := by decide +kernel

/-- The last 256 bytes of a module of 48 TiB. -/
theorem witness_RemoteRequests : fabricSize (48 * 2 ^ 40 - 256) 256 = true ∧ remoteNow up (48 * 2 ^ 40 - 256) 256 false
    ∧ remoteNow up (48 * 2 ^ 40 - 256) 256 true ∧ up.sealBadRange (48 * 2 ^ 40 - 256) 256 = false ∧ (48 * 2 ^ 40 - 8) % 8 = 0
    ∧ remoteNow up (48 * 2 ^ 40 - 8) 8 true ∧ Memory.wf up.mem = true ∧ up.owned 0 128 = false
    ∧ up.sealBadRange 0 128 = false ∧ ({ up with badSeals := [1] } : State).sealBadRange 0 128 = true ∧ up.fabricCaps.getLsbD 31 = false
    ∧ ({ up with fabricCaps := 0x80000000 } : State).fabricCaps.getLsbD 31 = true ∧ Sender.g9 true ≠ .g9 false := by
  unfold remoteNow; decide +kernel

theorem witness_RemoteRequests_writeback : (let s : State := { up with l2Dirty := [0, 1], badSeals := [1] }
    decide (0 ∈ s.l2Dirty ∧ s.reach 0 = .yes ∧ s.sealBad 0 = false ∧ 1 ∈ s.l2Dirty ∧ s.reach 64 = .yes ∧ s.badSeals.contains 1 = true
      ∧ s.pinned.contains 1 = false ∧ s.poison.contains 1 = false ∧ s.pinned.length < 16)) = true := by decide +kernel

theorem witness_PcieRequests : State.reset.bring.host = false ∧ up.bring.host = true ∧ 2 ^ 25 - 8 + 8 ≤ 2 ^ 25 ∧ 0x1000000 + 8 ≤ 2 ^ 28
    ∧ up.mailboxes.length = 16 ∧ (up.mailbox 15).busy = false ∧ (up.mailbox 15).done = false := by decide +kernel

theorem witness_RegistersFromOutside : ({ up with stopTick := 5, tick := 5 } : State).stopTick ≠ 0
    ∧ ({ up with stopTick := 5, tick := 5 } : State).tick = ({ up with stopTick := 5, tick := 5 } : State).stopTick
    ∧ RegRef.number ⟨0x507⟩ = 0x500 + 7 := by decide +kernel

/-- Tile entry 127 of core 287, and tile entry 0 of core 0 in the state FILLING. -/
theorem witness_RegistersFromOutside_tiles : (let pa := 9 * 2 ^ 48 + 7 * 2 ^ 45 + 35 * 2 ^ 39 + 2047 - 7
    let s : State := { up with cores := [{ id := 0, tiles := setAt (List.replicate 128 0) 0 (mkTile 0 1 false 0 1 0) }] }
    decide (placeClass pa = 9 ∧ s.layoutBad 0 pa = none ∧ pa % 8 = 0 ∧ tileV ((s.core (coreOfPa pa)).tiles.getD (pa / 16 % 128) 0) = false ∧ pa / 8 % 2 = 1
      ∧ placeClass (9 * 2 ^ 48) = 9 ∧ s.layoutBad 0 (9 * 2 ^ 48) = none ∧ tileV ((s.core 0).tiles.getD 0 0) = true
      ∧ tileState ((s.core 0).tiles.getD 0 0) = 1)) = true := by decide +kernel

/-- L2_CFG with a good dirty sector, and with a workgroup that runs. -/
theorem witness_RegistersFromOutside_l2 : (let s : State := { up with l2Dirty := [0], wgs := [{ launch := 0, id := 0, state := .saved }] }
    let v : BitVec 32 := 0xb
    decide (v.getLsbD 30 = false ∧ v.getLsbD 0 = true ∧ v.getLsbD 1 = true ∧ v.toNat / 4 % 4 ≠ 3 ∧ s.engineBusy = false ∧ s.pinned = []
      ∧ (∀ W ∈ s.wgs, W.state ≠ .placed ∧ W.state ≠ .running ∧ W.state ≠ .evicting) ∧ (∀ sec ∈ s.l2Dirty, s.sealBad (sec * 64) = false))) = true := by
  decide +kernel

/-- The last accumulator word of a core's window, L2_CFG with an unused module, the post FIFO, and die 7. -/
theorem witness_RegistersFromOutside_rest : (let pa := 0xa * 2 ^ 48 + 0x7fffc
    let s : State := { up with cores := [{ id := 0, mpost := [(8, 1)] }] }
    decide (placeClass pa = 0xa ∧ s.layoutBad 0 pa = none ∧ pa % 4 = 0 ∧ pa / 2 ^ 20 % 2 = 0 ∧ s.windowReady (coreOfPa pa) (pa % 2 ^ 21) = true
      ∧ s.wgs = [] ∧ s.engineBusy = false ∧ s.pinned = [] ∧ s.l2Dirty = [] ∧ (s.core 0).mpost = [(8, 1)] ∧ (s.core 1).mpost = []
      ∧ 7 < s.dies.length ∧ (s.die 7).traceSize = 0 ∧ ∃ W ∈ s0.wgs, W.state = .running)) = true := by decide +kernel

/-! ## Witnesses: mailboxes, submission queues and packets -/

/-- The bytes of a number from an address on, where they are not zero. -/
def spell (a n x : Nat) : ByteMap := ((leBytes n x).zipIdx.filter (fun q => q.1 != 0)).map (fun q => (a + q.2, q.1))

/-- Mailbox 15 holds a request; six address spaces are live. -/
def sBox (ws : List Nat) : State :=
  { up with
    mailboxes := setAt up.mailboxes 15 { busy := true, req := ((ws.flatMap (leBytes 8)).zipIdx).map (fun q => (q.2, q.1)) }
    spaces := (List.range 6).map (fun n => { asid := n, root := 0x1000 })
    tlb := [{ page with asid := 5, place := .die 7 }], mem := [(0x400fc8, 6)] }

theorem witness_MailboxRequests_createAs : (let s := sBox [0x701, 0x1000]
    asks s 15 1 7 [0x1000] ∧ gondola s 0 ∧ 0x1000 % 4096 = 0 ∧ 0x1000 < s.dramTop ∧ placeClass 0x1000 < 8 ∧ s.asidLive 6 = false
      ∧ s.asidLive 5 = true) := by unfold asks gondola; decide +kernel

/-- The first address space of all, and a module whose 1,024 spaces are all live. -/
theorem witness_MailboxRequests_createAs_ends : (let s := { sBox [0x701, 0] with spaces := [] }
    asks s 15 1 7 [0] ∧ gondola s 0 ∧ 0 < s.dramTop ∧ placeClass 0 < 8 ∧ s.asidLive 0 = false)
    ∧ ∀ b, b < 1024 → ({ sBox [] with spaces := (List.range 1024).map (fun n => { asid := n, root := 0x1000 }) } : State).asidLive b = true :=
  ⟨by unfold asks gondola; decide +kernel, fun b hb => by
    unfold State.asidLive
    rw [List.any_map, List.any_eq_true]
    exact ⟨b, List.mem_range.2 hb, by simp⟩⟩

theorem witness_MailboxRequests_destroyAs : asks (sBox [0x702, 5]) 15 2 7 [5] ∧ gondola (sBox [0x702, 5]) 0
    ∧ (sBox [0x702, 5]).asidLive 5 = true ∧ (sBox [0x702, 5]).asidUsed 5 = false := by unfold asks gondola; decide +kernel

/-- An address space that a submission queue uses. -/
theorem witness_MailboxRequests_destroyAs_used : (let s := { sBox [0x702, 0] with sqs := [{ id := 0, asid := 0, die := 0, desc := 0, policy := 0, ctxBase := 0, ctxLen := 0 }] }
    decide (s.asidLive 0 = true ∧ s.asidUsed 0 = true)) = true := by decide +kernel

theorem witness_MailboxRequests_mmio : (let pa := 0xb * 2 ^ 48
    decide ((sBox [0x706, pa, 1, 8]).mmioBad pa 8 = false)) = true ∧ asks (sBox [0x706, 0xb * 2 ^ 48, 1, 8]) 15 6 7 [0xb * 2 ^ 48, 1, 8]
    ∧ asks (sBox [0x707, 0xb * 2 ^ 48, 4]) 15 7 7 [0xb * 2 ^ 48, 4] ∧ (sBox []).mmioBad (0xb * 2 ^ 48) 4 = false := by unfold asks; decide +kernel

theorem witness_MailboxRequests_rest : asks (sBox [0x708]) 15 8 7 [] ∧ asks (sBox [0x709, 7000]) 15 9 7 [7000] ∧ asks (sBox [0x709, 7001]) 15 9 7 [7001]
    ∧ gondola (sBox [0x709, 7000]) 0 ∧ gondola (sBox [0x706, 0xb * 2 ^ 48, 1, 8]) 0 ∧ gondola (sBox [0x707, 0xb * 2 ^ 48, 4]) 0 ∧ asks (sBox [0x70a]) 15 10 7 [] ∧ asks (sBox [0x700]) 15 0 7 [] := by unfold asks gondola; decide +kernel

theorem witness_MailboxRequests_budget : (let s := { sBox [0x709, 1] with bring := { up.bring with gondola := 0xfe } }
    asks s 15 9 7 [1] ∧ s.bring.gondola.getLsbD 0 = false) := by unfold asks; decide +kernel

/-- A front end reaches n bytes of a page now. -/
def frontB (s : State) (die asid : Nat) (va : BitVec 64) (n : Nat) (wr : Bool) (k : State → Nat → Bool) : Bool :=
  match s.translate (frontAgent die asid) va (if wr then .wr else .rd) with
  | (s1, .ok loc _ sh) => decide (s1.reachAs loc sh = .yes ∧ s1.engineHolds loc n wr = false ∧ s1.sealBadRange loc n = false) && k s1 loc
  | _ => false

/-- The last context range of the address space; one queue of another space exists. -/
theorem witness_QueueRequests_registerSq : (let ctx := 2 ^ 64 - 2 ^ 23
    let s := { sBox [0x703, 5, 0x400fc0, 0, ctx, 2 ^ 23] with sqs := [{ id := 0, asid := 4, die := 0, desc := 0, policy := 0, ctxBase := 0, ctxLen := 0x800000 }] }
    asks s 15 3 7 [5, 0x400fc0, 0, ctx, 2 ^ 23] ∧ gondola s 7 ∧ s.asidLive 5 = true
      ∧ frontB { s with freeCount := s.freeCount + 1 } 7 5 0x400fc0 64 true (fun s1 loc => decide (loc < 2 ^ 51 ∧ sqDescBad (s1.homeNat loc 64) = false ∧ Memory.wf s1.mem = true)) = true
      ∧ (∀ q ∈ s.sqs, q.asid = 5 → rangesMeet q.ctxBase.toNat q.ctxLen.toNat ctx (2 ^ 23) = false) ∧ ∀ q ∈ s.sqs, q.id ≠ 1) := by unfold asks gondola; decide +kernel

def sub (tail : BitVec 32) : SubQueue :=
  { id := 1023, asid := 0, die := 7, desc := 0x400f00, policy := 0, ctxBase := 0x800000, ctxLen := 0x800000, prio := 3, ringbase := 0x400000, tail := tail }

theorem witness_QueueRequests_unregisterSq : asks { sBox [0x704, 1023] with sqs := [sub 0] } 15 4 7 [1023]
    ∧ gondola { sBox [0x704, 1023] with sqs := [sub 0] } 7 ∧ (∀ p ∈ (sub 0).packets, p.started = true → p.result ≠ none) := by
  unfold asks gondola; decide +kernel

theorem witness_QueueRequests_unregisterSq_running : (let q := { sub 1 with packets := [{ pos := 0, bits := 0, started := true }] }
    ∃ p ∈ q.packets, p.started = true ∧ p.result = none) := by decide +kernel

theorem witness_QueueRequests_configWq : asks (sBox [0x705, 62, 0x400000, 64 * 2 ^ 10, 0]) 15 5 7 [62, 0x400000, 64 * 2 ^ 10, 0]
    ∧ gondola (sBox [0x705, 62, 0x400000, 64 * 2 ^ 10, 0]) 7 ∧ (sBox [0x705, 62, 0x400000, 64 * 2 ^ 10, 0]).asidLive 0 = true
    ∧ (sBox [0x705, 62, 0x400000, 64 * 2 ^ 10, 0]).workq 7 62 = { die := 7, q := 62 } := by unfold asks gondola; decide +kernel

theorem witness_QueueRequests_sqDoorbell : ({ sBox [] with sqs := [sub 1] } : State).sq? 1023 = some (sub 1) ∧ (sub 1).tail ≠ 0 := by decide +kernel

/-- The packet of one number at the head of a queue of priority 3 of die 7, with other memory and work queue 62 of die 7. -/
def sPkt (n : Nat) (m : ByteMap) (st : WqState) : State :=
  { sM [] with tlb := pages.map (fun t => { t with place := .die 7 }), sqs := [sub 1], mem := spell 0x400000 64 n ++ m, queues := [{ die := 7, q := 62, state := st, ringbase := 0x400c00 }] }

theorem witness_Packets_nop : packetNow (sPkt 3 [] .open) (sub 1) 3 3 := by unfold packetNow; decide +kernel

def closePkt : Nat := 2 + 62 * 2 ^ 64 + 7 * 2 ^ 104

theorem witness_Packets_close : packetNow (sPkt closePkt [] .broken) (sub 1) closePkt 2 ∧ ((sPkt closePkt [] .broken).pktQueue closePkt).usable = true
    ∧ packetNow (sPkt closePkt [] .unconfigured) (sub 1) closePkt 2 ∧ ((sPkt closePkt [] .unconfigured).pktQueue closePkt).usable = false := by
  unfold packetNow; decide +kernel

def feedPkt (n : Nat) : Nat := 1 + 0x400400 * 2 ^ 64 + n * 2 ^ 128 + 62 * 2 ^ 160 + 7 * 2 ^ 168

theorem witness_Packets_feed : packetNow (sPkt (feedPkt 4) [] .open) (sub 1) (feedPkt 4) 1 ∧ ((sPkt (feedPkt 4) [] .open).pktQueue (feedPkt 4)).usable = true
    ∧ bitsAt (feedPkt 4) 159 128 ≠ 0 ∧ bitsAt (feedPkt 4) 159 128 ≤ ((sPkt (feedPkt 4) [] .open).pktQueue (feedPkt 4)).ringlen
    ∧ pktArg0 (feedPkt 4) % 64 = 0
    ∧ (match (sPkt (feedPkt 4) [] .open).frontRuns 7 0 0x400400 4 [] with
      | .ok s1 bs => (match s1.feedWrite (s1.pktQueue (feedPkt 4)) (s1.pktQueue (feedPkt 4)).reserve ((List.range 4).map (fun i => (bs.drop (64 * i)).take 64)) with
        | .ok _ [] => true
        | _ => false)
      | _ => false) = true := by unfold packetNow; decide +kernel

theorem witness_Packets_feed_closed : packetNow (sPkt (feedPkt 64) [] .closed) (sub 1) (feedPkt 64) 1
    ∧ ((sPkt (feedPkt 64) [] .closed).pktQueue (feedPkt 64)).state = .closed ∧ bitsAt (feedPkt 64) 159 128 ≤ ((sPkt (feedPkt 64) [] .closed).pktQueue (feedPkt 64)).ringlen
    ∧ packetNow (sPkt (feedPkt 0) [] .open) (sub 1) (feedPkt 0) 1 ∧ bitsAt (feedPkt 0) 159 128 = 0 := by unfold packetNow; decide +kernel

/-- A launch of one workgroup of one team of 16; teams is its field. -/
def launchBits (teams : Nat) : Nat :=
  0x400800 + 2 ^ 320 + teams * 2 ^ 908 + 16 * 2 ^ 914 + 1 * 2 ^ 944 + 1 * 2 ^ 964 + 1 * 2 ^ 970

def launchPkt : Nat := 0x400400 * 2 ^ 64

theorem witness_Packets_launch : ∀ teams ∈ [0, 1], packetNow (sPkt launchPkt (spell 0x400400 256 (launchBits teams)) .open) (sub 1) launchPkt 0
    ∧ pktArg0 launchPkt % 64 = 0
    ∧ (match (sPkt launchPkt (spell 0x400400 256 (launchBits teams)) .open).frontRuns 7 0 0x400400 4 [] with
      | .ok s1 bs => decide ((launchRecOf (leNat bs)).kind < 2 ∧ (launchRecOf (leNat bs)).entrytab.toNat % 8 = 0)
          && (match s1.frontRead 7 0 (launchRecOf (leNat bs)).entrytab 8 with
            | .ok s2 _ => decide (s2.launchCheck (sub 1) (leNat bs) none = if teams = 1 then none else some 0x10)
            | _ => false)
      | _ => false) = true := by unfold packetNow; decide +kernel

/-- The record has been read before; a coverage block at 0x40_0500 of a record with KIND 3. -/
theorem witness_Packets_recordNow : (let q : SubQueue := { sub 1 with record := some 0#2048 }
    recordNow (sPkt launchPkt [] .open) (sPkt launchPkt [] .open) q 0x400400 0) ∧ (let s := sPkt launchPkt [] .open
    let R : LaunchRec := { kind := 3, auxptr := 0x400500 }
    R.kind = 3 ∧ R.auxptr.toNat % 64 = 0 ∧ (match s.translate (frontAgent 7 0) R.auxptr .rd with
      | (_, .ok _ pa _) => decide (placeClass pa < 8)
      | _ => false) = true
      ∧ (match s.frontRead 7 0 R.auxptr 64 with
        | .ok _ _ => true
        | _ => false) = true) := ⟨Or.inl ⟨0#2048, rfl, rfl, BitVec.toNat_zero.symm⟩, by decide +kernel⟩

theorem witness_Packets_launch_unaligned : packetNow (sPkt (launchPkt + 2 ^ 64) [] .open) (sub 1) (launchPkt + 2 ^ 64) 0
    ∧ pktArg0 (launchPkt + 2 ^ 64) % 64 ≠ 0 := by unfold packetNow; decide +kernel

/-! ## Witnesses: the dispatcher, turns, boundaries, the policy and failures -/

/-- A launch of 2 workgroups of a team each on logical core 0, with a queue whose context range holds one workgroup. -/
def L2 : Launch := { id := 0, sq := 1023, mask := [0], recd := { wgcount := 2, splog := 8 } }

def sPlace : State := { up with launches := [L2], sqs := [sub 0] }

theorem witness_PlacementAndRetirement_place : sPlace.launch? 0 = some L2 ∧ sPlace.wantsPlace L2 = true ∧ sPlace.computes L2 = true
    ∧ L2.recd.phased = false ∧ L2.recd.kind < 2 ∧ L2.ctrl = none ∧ (sPlace.ctxRoom L2).isSome = true ∧ (sPlace.findHome L2 L2.nextWg).isSome = true
    ∧ sPlace.wg? 0 0 = none ∧ teamsOf sPlace 0 0 = [] := by decide +kernel

theorem witness_PlacementAndRetirement_retire : (let s := one [{ thr 0 with status := .exited, entry := none }] { id := 0 }
    (s.wg? 0 0).any (fun W => s.canRetire W)) = true := by decide +kernel

theorem witness_PlacementAndRetirement_complete : (let L : Launch := { id := 0, retired := [0] }
    let s : State := { up with launches := [L] }
    decide (s.launch? 0 = some L ∧ L.done = false ∧ L.doom = none ∧ L.recd.wgcount ≤ L.retired.length ∧ (6, 0) ∉ L.nodes)) = true
  ∧ (let L : Launch := { id := 0, retired := [0], nodes := [(6, 0)] }
    decide (({ up with launches := [L] } : State).launch? 0 = some L ∧ L.recd.wgcount ≤ L.retired.length ∧ (6, 0) ∈ L.nodes ∧ L.words = []
      ∧ L.coverOut = [] ∧ L.wordFail = none)) = true := by decide +kernel

theorem witness_Preemption_mask : s0.launch? 0 = some { id := 0 } ∧ (∀ c ∈ [0], c ∈ ({ id := 0 } : Launch).recd.cores)
    ∧ s0.mayTake { id := 0 } [0] = true := by decide +kernel

theorem witness_Preemption_save : (let s := { one [{ thr 0 with inside := false, entry := none }] { id := 0 } with
      wgs := [{ launch := 0, id := 0, state := .evicting }], entries := [], cur := none }
    (s.wg? 0 0).any (fun W => decide (W.state = .evicting)) && s.wgs.all (fun x => s.wgSettled x)
      && decide ((s.view 0 0).dirty = [] ∧ (s.view 0 0).uncached = [] ∧ s.storeUsed = 0)) = true
  ∧ (let s := { one [{ thr 0 with inside := false, entry := none }] { id := 0 } with
      wgs := [{ launch := 0, id := 0, state := .evicting }], entries := [], cur := none }
    match s.carryView 0 0 with
    | .done s1 => ((s1.saveImage (s1.wg 0 0)).1.writeContext (s1.wg 0 0) (s1.saveImage (s1.wg 0 0)).2).isSome
    | _ => false) = true := by decide +kernel

theorem witness_Preemption_restore : (let W : Wg := { launch := 0, id := 0, state := .saved, core := noCore }
    let s : State := { one [] L2 with wgs := [W], teams := [{ tm [{ thr 0 with entry := none, inside := false }] with core := noCore }], entries := [], cur := none }
    decide (s.wg? 0 0 = some W ∧ s.launch? 0 = some L2 ∧ (∀ x ∈ s.wgs, x.launch = W.launch → x.state = .saved → W.id ≤ x.id)
      ∧ s.partition? W.launch W.home = none ∧ W.reelSaved = none ∧ s.requests = [] ∧ W.image = [] ∧ s.maskCores L2 = [0] ∧ (s.room L2 0 false).isSome = true)) = true := by
  decide +kernel

/-- The group's entry is open, and the thread stands before its clause. -/
def sTurn : State := { one [{ thr 0 with inside := false }] { id := 0 } with entries := [{ ent [] with state := .open, mask := [0] }], cur := none }

theorem witness_SliceTurns : s0.cur ≠ none ∧ sTurn.cur = none ∧ sTurn.settle 0 0 = sTurn ∧ sTurn.sliceTeams 0 0 = [tm [{ thr 0 with inside := false }]]
    ∧ (sTurn.launch 0).recd.det = false ∧ (∀ U ∈ sTurn.teams, U.stepping = none)
    ∧ (sTurn.candidate (tm [{ thr 0 with inside := false }])).isSome = true := by decide +kernel

/-- The team has no entry that it could issue. -/
theorem witness_SliceTurns_none : (let s := { sTurn with entries := [] }
    decide (s.cur = none ∧ s.settle 0 0 = s ∧ s.sliceTeams 0 0 = [tm [{ thr 0 with inside := false }]]
      ∧ s.candidate (tm [{ thr 0 with inside := false }]) = none)) = true := by decide +kernel

theorem witness_SliceTurns_age : ({ s0 with entries := [{ ent [] with age := 64 }] } : State).entry? 0 = some { ent [] with age := 64 }
    ∧ ({ s0 with entries := [{ ent [] with age := 63 }] } : State).entry? 0 = some { ent [] with age := 63 } := by decide +kernel

theorem witness_BoundariesAndHangs_wg : (let s := { one [{ thr 0 with hold := .arrived }] { id := 0 } with
      wgs := [{ launch := 0, id := 0, state := .running, pend := some .wg }] }
    decide (s.wgArrived (s.wg 0 0) .wg = true ∧ s.wgHalted (s.wg 0 0) = false)) = true := by decide +kernel

theorem witness_BoundariesAndHangs_phase : (let L : Launch := { id := 0, recd := { phased := true } }
    let s : State := { one [{ thr 0 with hold := .arrived }] L with wgs := [{ launch := 0, id := 0, state := .running, pend := some .sys }] }
    decide (s.launch? 0 = some L ∧ L.recd.nodeOf (Scope.instance_ .sys) (s.wg 0 0).home = 0 ∧ s.boundaryReady L (Scope.instance_ .sys) 0 = true)) = true := by
  decide +kernel

/-- Lane 0 is held at a boundary of the table, lane 1 has not come; the limit is one tick. -/
theorem witness_BoundariesAndHangs_hang : (let e : Entry := { ent [] with state := .hold, counts := setAt (List.replicate 8 0) 0 1 }
    let T := tm [{ thr 0 with inside := false }, { thr 1 with entry := none }]
    let th : Thread := { thr 0 with inside := false }
    let s : State := { one [] { id := 0, recd := { holdlimit := 1 } } with teams := [T], entries := [e], cur := none }
    decide (s.entry? 0 = some e ∧ e.state = .hold ∧ s.thread? (T.ref th) = some (T, th) ∧ (s.kindAt T e.addr).quarter = false
      ∧ (∀ x ∈ s.members 0, x.1 = T) ∧ th ∈ T.live ∧ th.entry = some 0 ∧ T.bound = false ∧ (∃ m ∈ T.live, m.entry ≠ some 0)
      ∧ hangLimit (s.launch 0).recd.holdlimit ≤ e.counts.getD 0 0)) = true := by decide +kernel

theorem witness_BoundariesAndHangs_barrier : (let th : Thread := { thr 0 with hold := .arrived }
    let T := tm [th, thr 1]
    let s : State := { one [] { id := 0, recd := { barlimit := 1 } } with
      teams := [T], wgs := [{ launch := 0, id := 0, state := .running, pend := some .wg, barCount := 1 }] }
    decide ((s.wg 0 0).pend = some .wg ∧ (s.wg? 0 0).isSome = true ∧ hangLimit (s.launch 0).recd.barlimit ≤ (s.wg 0 0).barCount
      ∧ s.missingOf .wg (s.wg 0 0) ≠ [] ∧ s.thread? (T.ref th) = some (T, th) ∧ th.hold = .arrived ∧ th.status ≠ .exited ∧ T.bound = false)) = true := by
  decide +kernel

/-- A thread parked with a page fault, under a policy that gives the cause an action. -/
def sPol (code : Nat) : State :=
  one [{ thr 0 with status := .parked, record := some { cause := 0x083 }, entry := none }]
    { id := 0, policy := BitVec.ofNat 64 (code * 2 ^ 8), recd := { handler := 0x400000 } }

theorem witness_PolicyActions : ∀ q ∈ [(0, Action.kill), (1, .stop), (2, .skip), (3, .retry), (4, .forward)],
    (match (sPol q.1).thread? ⟨0, 0, 0, 0⟩ with
      | some (T, th) => decide (th.record = some { cause := 0x083 } ∧ (sPol q.1).awaitsAction T th { cause := 0x083 } q.2 = true ∧ T.bound = false
          ∧ ((sPol q.1).launch? T.launch).isSome = true)
      | none => false) = true := by decide +kernel

/-- Core 287 stands at no user position: it is a spare, and no die counts it. -/
theorem witness_CoreFailures : 287 < 288 ∧ (∀ n, n < 32 → up.meshCore (dieOf 287) n ≠ some 287) ∧ (up.core 287).failed = false ∧ (∀ W ∈ up.wgs, W.core = 287 → W.state = .retired ∨ W.state = .saved) := by
  decide +kernel

theorem witness_CoreFailures_running : s0.meshCore (dieOf 0) 0 = some 0 ∧ dieOf 0 < s0.dies.length ∧ (s0.core 0).failed = false ∧ (∃ W ∈ s0.wgs, W.core = 0 ∧ W.state = .running) ∧ (s0.launch? 0).isSome = true
    ∧ (s0.launch 0).done = false := by decide +kernel

/-- The last user position of the last die. -/
theorem witness_CoreFailures_spare : (let s : State := { up with cores := [{ id := 283, failed := true }] }
    decide (7 < s.dies.length ∧ (s.die 7).meshMap.length = 34 ∧ s.contextBoundary = true ∧ s.meshCore 7 31 = some 283 ∧ (s.core 283).failed = true
      ∧ (s.die 7).spares = 0 ∧ (s.core (spareCore 7 0)).failed = false) && (List.range 31).all (fun k => (s.meshCore 7 k).all (fun b => !(s.core b).failed))) = true := by decide +kernel

/-- A walk of five tables ends in a leaf that names the core's scratchpad. -/
theorem witness_CoreFailures_leaf : (let s : State := { up with
      cores := [{ id := 283, failed := true }], spaces := [{ asid := 0, root := 0x1000 }]
      mem := [(0x1000, 1), (0x1001, 0x20), (0x2000, 1), (0x2001, 0x30), (0x3000, 1), (0x3001, 0x40), (0x4000, 1), (0x4001, 0x50)]
        ++ spell 0x5000 8 (scratchPa 283 0x2000 + 1) }
    decide (s.contextBoundary = true ∧ s.meshCore 7 31 = some 283 ∧ Memory.wf s.mem = true ∧ s.images = []
      ∧ s.scratchLeaves 283 0 0x100000 = [(0x5000, 0, 0x2000)]
      ∧ ((scratchPa (spareCore 7 0) 0 : Int) + 0x2000).toNat % leafBytes 0 = 0 ∧ placeClass ((scratchPa (spareCore 7 0) 0 : Int) + 0x2000).toNat = 8)) = true := by decide +kernel

/-! ## Witnesses: engines, the Reel, the matrix queue and what answers later -/

def copyEnt : Nat := 0x400100 + 0x400180 * 2 ^ 64 + 64 * 2 ^ 128

/-- A collective of one endpoint and one die, on the group table at 0x400200. -/
def collEnt (dies : Nat) : Nat :=
  0x400100 + 0x400180 * 2 ^ 64 + 64 * 2 ^ 128 + 2 ^ 160 + 9 * 2 ^ 168 + dies * 2 ^ 180 + 0x400200 * 2 ^ 192

def eqs : List EQueue := [{ sel := ⟨0, 0⟩, qtail := 1 }, { sel := ⟨1, 0⟩, qtail := 1 }]

/-- The small module with an entry in the first slot of its rings, and with an entry in flight. -/
def sE (m : ByteMap) (fl : List InFlight) : State :=
  { sM [mthr 0] with
    wgs := [{ launch := 0, id := 0, state := .running, queues := eqs }], inflight := fl
    mem := [(0x400401, 0x20), (0x400402, 0x40), (0x400408, 6), (0x400501, 0x20), (0x400502, 0x40), (0x400508, 6)] ++ m }

/-- Bytes of an entry's range as an engine reaches them. -/
def got {α : Type} (x : EngOut α) (k : State → α → Bool) : Bool :=
  match x with
  | .ok s a => k s a
  | _ => false

theorem witness_EngineEntries_take : ∀ q ∈ [((⟨0, 0⟩ : QSel), copyEnt), (⟨1, 0⟩, collEnt 1)], (let s := sE (spell 0x402000 64 q.2) []
    (s.wg? 0 0).any (fun W => (W.queue? q.1).any (fun Q => decide (W.active = true ∧ Q.bad = false ∧ s.flight? 0 0 q.1 = none
        ∧ s.engStalled 0 0 q.1 = false ∧ newer Q.qtail (BitVec.ofNat 32 Q.count) = true)
      && got (s.engDesc 0 0 q.1) (fun s1 loc => got (s1.engSlot 0 0 (s1.homeNat loc 64) Q.count) (fun s2 slot =>
        decide (entStamp (s2.homeNat slot 64) = Q.count % 2 ^ 32) && got (s2.entryCheck 0 0 q.1.eng (s2.homeNat slot 64)) (fun _ k => k.isNone)))))) = true := by
  decide +kernel

def fl (sel : QSel) (e : Nat) (r : Option (Nat × Nat) := none) : InFlight :=
  { launch := 0, wg := 0, sel := sel, pos := 0, bits := BitVec.ofNat 512 e, result := r }

/-- spotReady, as a question that can be decided. -/
def spotB (s : State) (q : QueueRef) (x : Spot) (bs : List Byte) : Bool :=
  decide (s.engDest (s.wg q.launch q.wg).core [x] = none ∧ s.reachAs x.loc (if x.own then 2 else 1) = .yes ∧ Memory.wf s.mem = true ∧ x.n ≤ bs.length
    ∧ 0 < x.n ∧ x.loc % 64 + x.n ≤ 64 ∧ x.loc + x.n ≤ 2 ^ 52) && (s.flight? q.launch q.wg q.sel).isSome

theorem witness_EngineEntries_copy : (let i := fl ⟨0, 0⟩ copyEnt
    let s := sE [] [i]
    decide (s.flight? 0 0 ⟨0, 0⟩ = some i ∧ i.result = none ∧ i.read = false ∧ entKind i.bits.toNat = 0 ∧ s.engStalled 0 0 ⟨0, 0⟩ = false)
      && got (s.engIssue i (entDst i.bits.toNat) (entLen i.bits.toNat)) (fun s1 xs => match xs with
        | [x] => got (s1.engRead i (entSrc i.bits.toNat) (entLen i.bits.toNat)) (fun s2 bs => spotB s2 ⟨0, 0, ⟨0, 0⟩⟩ x bs)
        | _ => false)) = true := by decide +kernel

theorem witness_EngineEntries_coll : (let i := fl ⟨1, 0⟩ (collEnt 1)
    let s := sE [] [i]
    decide (s.flight? 0 0 ⟨1, 0⟩ = some i ∧ entKind i.bits.toNat = 1 ∧ s.collMembers i.bits.toNat = some [(0, i)] ∧ entLogg i.bits.toNat = 0
        ∧ entOp i.bits.toNat ≠ 3)
      && got (s.engIssue i (entDst i.bits.toNat) (entLen i.bits.toNat)) (fun s1 xs => match xs with
        | [x] => got (s1.engRead i (entSrc i.bits.toNat) (entLen i.bits.toNat)) (fun s2 bs =>
          got (s2.groupTable (s2.engineAgent 0 0) i.bits.toNat) (fun s3 tbl =>
            spotB s3 ⟨0, 0, ⟨1, 0⟩⟩ x (s3.collResult i.bits.toNat (tbl.idxOf s3.endpoint) [(0, bs)])))
        | _ => false)) = true := by decide +kernel

/-- The source has been read, and one of two sectors is still to be written: in DRAM, and behind a link that has failed. -/
def readFl : InFlight := { fl ⟨0, 0⟩ copyEnt with read := true, todo := [(⟨0x400180, 0x400180, 0x400180, 64, true⟩, List.replicate 64 7)] }

theorem witness_EngineEntries_part : (let s := sE [] [readFl]
    let x : Spot := ⟨0x400180, 0x400180, 0x400180, 64, true⟩
    decide (s.flight? 0 0 ⟨0, 0⟩ = some readFl ∧ readFl.todo[0]? = some (x, List.replicate 64 7) ∧ s.engStalled 0 0 ⟨0, 0⟩ = false ∧ s.reachAs x.loc 2 = .yes
      ∧ ({ s with links := List.replicate 48 { state := .failed } } : State).reachAs x.loc 2 = .failed 16)) = true := by decide +kernel

/-- Die 1's entry of the collective has not come. -/
theorem witness_EngineEntries_coll_waits : (let i := fl ⟨1, 0⟩ (collEnt 3)
    let s := sE [] [i]
    decide (s.flight? 0 0 ⟨1, 0⟩ = some i ∧ entKind i.bits.toNat = 1 ∧ s.collMembers i.bits.toNat = none)) = true := by decide +kernel

theorem witness_EngineEntries_nop : (let i := fl ⟨0, 0⟩ (2 * 2 ^ 160)
    decide ((sE [] [i]).flight? 0 0 ⟨0, 0⟩ = some i ∧ entKind i.bits.toNat = 2)) = true := by decide +kernel

theorem witness_EngineEntries_completion : (let i := fl ⟨0, 0⟩ copyEnt (some (0, 0))
    let s := sE [] [i]
    decide (s.flight? 0 0 ⟨0, 0⟩ = some i ∧ i.result = some (0, 0) ∧ s.wordsHeld 0 0 ⟨0, 0⟩ = false) && (s.wg? 0 0).any (fun W => (W.queue? ⟨0, 0⟩).isSome)
      -- the same with its descriptor in a tile that another entry drains
      && ({ s with
        launches := s.launches.map (fun L => { L with recd := { L.recd with qdescBase := 1#64 <<< 56 } })
        cores := [{ id := 0, tiles := setAt (List.replicate 128 0) 0 (mkTile 0 3 false 0 1 0) }] } : State).wordsHeld 0 0 ⟨0, 0⟩) = true := by decide +kernel

/-- Cursor 3 stands at the last node of a graph of 256, whose bits are n. -/
def sReel (n : Nat) (m : ByteMap) (counts : List (Nat × Nat) := []) : State :=
  { sE (m ++ spell 0x401fe0 32 n) [] with
    cores := [{ id := 0, reel := { owner := some ⟨0, 0⟩, graph := 0x4000ff, cursors := [{ id := 3, node := 255, counts := counts }] } }] }

def nodeB (s : State) (n kind : Nat) (k : State → Bool) : Bool :=
  decide (((s.core 0).reel.cursor? 3).isSome = true ∧ (s.core 0).reel.owner = some ⟨0, 0⟩ ∧ (s.wg 0 0).active = true ∧ s.cursorStalled 0 0 3 = false
      ∧ ((s.core 0).reel.cursor? 3).all (fun c => !c.last) = true ∧ nodeBad n ((s.core 0).reel.graph.toNat % 256) = false ∧ nodeKind n = kind)
    && got (s.reelRead ⟨0, 0⟩ (((s.core 0).reel.graph &&& ~~~(0x1fff#64)) + BitVec.ofNat 64 (32 * 255)) 32) (fun s1 m => decide (m = n) && k s1)

/-- A node of a kind, with its address, its argument, its limit; both successors are the last node. -/
def nodeOf (kind addr arg limit : Nat) : Nat := addr + arg * 2 ^ 64 + kind * 2 ^ 128 + 255 * 2 ^ 144 + 255 * 2 ^ 152 + limit * 2 ^ 160

theorem witness_ReelNodes_end : nodeB (sReel (nodeOf 0 0 0 0) []) (nodeOf 0 0 0 0) 0 (fun _ => true) = true := by decide +kernel

theorem witness_ReelNodes_waitseq : ∀ c ∈ [0, 1], nodeB (sReel (nodeOf 3 0 c 0) []) (nodeOf 3 0 c 0) 3 (fun s1 =>
    (s1.countOf 0 0 (seqSel (BitVec.ofNat 64 (nodeArg (nodeOf 3 0 c 0))))).any (fun m =>
      if c = 1 then decide (m < seqCount (BitVec.ofNat 64 c))
      else decide (seqCount (BitVec.ofNat 64 c) ≤ m) && got (s1.engDesc 0 0 (seqSel (BitVec.ofNat 64 c))) (fun s2 loc =>
        !errMeets (bitsAt (s2.homeNat loc 64) 255 192) (BitVec.ofNat 64 c)))) = true := by decide +kernel

theorem witness_ReelNodes_wake : nodeB (sReel (nodeOf 4 0 63 0) []) (nodeOf 4 0 63 0) 4 (fun _ => true) = true := by decide +kernel

theorem witness_ReelNodes_cond : nodeB (sReel (nodeOf 5 0x400ff8 0 0) []) (nodeOf 5 0x400ff8 0 0) 5 (fun s1 =>
    got (s1.reelRead ⟨0, 0⟩ 0x400ff8 8) (fun _ _ => true)) = true := by decide +kernel

/-- The value is 1 with no limit; the limit of one has been reached; the value is 0. -/
theorem witness_ReelNodes_while : nodeB (sReel (nodeOf 6 0x400ff8 0 0) [(0x400ff8, 1)]) (nodeOf 6 0x400ff8 0 0) 6 (fun s1 =>
      got (s1.reelRead ⟨0, 0⟩ 0x400ff8 8) (fun _ v => v == 1)) = true
    ∧ nodeB (sReel (nodeOf 6 0x400ff8 0 1) [(0x400ff8, 1)] [(255, 1)]) (nodeOf 6 0x400ff8 0 1) 6 (fun s1 =>
      ((s1.core 0).reel.cursor? 3).any (fun k => decide (1 ≤ k.countAt k.node)) && got (s1.reelRead ⟨0, 0⟩ 0x400ff8 8) (fun _ v => v == 1)) = true
    ∧ nodeB (sReel (nodeOf 6 0x400ff0 0 0) []) (nodeOf 6 0x400ff0 0 0) 6 (fun s1 => got (s1.reelRead ⟨0, 0⟩ 0x400ff0 8) (fun _ v => v == 0)) = true := by
  decide +kernel

theorem witness_ReelNodes_append : ∀ q ∈ [(0, copyEnt), (1, collEnt 1)],
    nodeB (sReel (nodeOf (q.1 + 1) 0x400fc0 0 0) (spell 0x400fc0 64 q.2)) (nodeOf (q.1 + 1) 0x400fc0 0 0) (q.1 + 1) (fun s1 =>
      got (s1.reelRead ⟨0, 0⟩ 0x400fc0 64) (fun s2 e => got (s2.entryCheck 0 0 q.1 e) (fun s3 k => k.isNone
        && ((s3.wg 0 0).queue? ⟨q.1, nodeQueue (nodeOf (q.1 + 1) 0x400fc0 0 0)⟩).any (fun Q => !Q.bad
          && got (s3.engDesc 0 0 ⟨q.1, 0⟩) (fun s4 loc => decide (descBad (s4.homeNat loc 64) = false ∧ s4.engineHolds loc 64 true = false ∧ s4.sealBad loc = false
              ∧ (BitVec.ofNat 32 (bitsAt (s4.homeNat loc 64) 127 96) - BitVec.ofNat 32 Q.count).toNat < 2 ^ bitsAt (s4.homeNat loc 64) 68 64)
            && got (s4.engSlot 0 0 (s4.homeNat loc 64) (bitsAt (s4.homeNat loc 64) 127 96)) (fun s5 slot => !s5.engineHolds slot 64 true)))))) = true := by decide +kernel

/-- A pass of quarter 7 whose last row is still to be done. -/
def lastRow : PassPart :=
  { launch := 0, wg := 0, team := 0, quarter := 7, instr := .mma .always .bf16 .zero 0 1 .zero, bs := [], cb := 0, ao := 0, row := 15, bscale := 0
    ascales := [], ma := map 16 0xb 0, mb := map 16 0xb 0, clause := 0x400000, slot := 0 }

def sPass (done : Bool) : State :=
  { sMat (map 16 0xb 0) with cores := [{ id := 0, passes := [{ parts := [lastRow], done := done }] }] }

theorem witness_MatrixPasses_complete : ((sPass true).core 0).passes = [{ parts := [lastRow], done := true }] := by decide +kernel

theorem witness_MatrixPasses : (match (sPass false).runPass 0 [lastRow] with
    | .ok s1 => decide ((s1.core 0).passes = [{ parts := [lastRow] }])
    | _ => false) = true ∧ ((sPass false).core 0).passes = [{ parts := [lastRow] }] ∧ (sPass false).passStalled 0 = false := by decide +kernel

/-- A sector of an operand has a bad seal. -/
theorem witness_MatrixPasses_stop : (match ({ sPass false with badSeals := [0x400f00 / 64] } : State).runPass 0 [lastRow] with
    | .stop s1 _ _ x => decide (x.cause = 0x090 ∧ (s1.core 0).passes = [{ parts := [lastRow] }] ∧ (s1.team? 0 0 0).isSome = true)
    | _ => false) = true := by decide +kernel

/-- A result that comes back with every exception, none of them enabled. -/
def sOut (p : Pending) : State := one [{ thr 0 with outst := [p] }] { id := 0 }

def pend (f : Option Record) : Pending := { tag := 0, dst := .v 15, bits := 32, val := 7, prod := .mem, exc := 31, fault := f, clause := 0x400000, slot := 0 }

theorem witness_ResultsAndRequests_results : (match (sOut (pend none)).thread? ⟨0, 0, 0, 0⟩ with
      | some (_, th) => decide (th.outst = [pend none] ∧ (pend none).fault = none ∧ (pend none).exc &&& modeEnables th.mode = 0 ∧ 15 < th.v.length)
      | none => false) = true
    ∧ (match (sOut (pend (some { cause := 0x090 }))).thread? ⟨0, 0, 0, 0⟩ with
      | some (_, th) => decide (th.outst = [pend (some { cause := 0x090 })] ∧ ({ cause := 0x090 } : Record).cause ≠ 0x182)
      | none => false) = true := by decide +kernel

def req (who : Requester) : Request := { core := 0, asid := 0, page := 0x400000, cause := 0x080, who := who }

theorem witness_ResultsAndRequests_requests : (let e := req (.engine 0 0 ⟨0, 0⟩)
    let a := req (.threads [(⟨0, 0, 0, 0⟩, { kind := .again true, va := 0x400000, n := 1 })])
    let i := fl ⟨0, 0⟩ copyEnt
    let s : State := { sE [] [i] with requests := [e, a] }
    decide (s.request? ⟨0, 0⟩ = some e ∧ s.request? ⟨0, 1⟩ = some a ∧ s.flight? 0 0 ⟨0, 0⟩ = some i)
      && (s.thread? ⟨0, 0, 0, 0⟩).any (fun x => !x.1.bound && x.2.status == .running)) = true := by decide +kernel

/-- Of a saved workgroup. -/
theorem witness_ResultsAndRequests_saved : (let q : Request := { req (.threads []) with core := noCore }
    decide (({ s0 with requests := [q] } : State).request? ⟨noCore, 0⟩ = some q ∧ q.core = noCore)) = true := by decide +kernel

def accOk (x : AccRes) : Bool :=
  match x with
  | .ok _ _ none => true
  | _ => false

def accWaits (x : AccRes) : Bool :=
  match x with
  | .wait _ _ => true
  | _ => false

/-- A load that can be performed, and one whose link retrains. -/
theorem witness_ResultsAndRequests_replay : (let a : Access := { kind := .load false, va := 0x401000, n := 4, dst := .v 0 }
    let q := req (.threads [(⟨0, 0, 0, 0⟩, a)])
    let s : State := { sM [mthr 0] with requests := [{ q with page := 0x402000 }] }
    decide (s.request? ⟨0, 0⟩ = some { q with page := 0x402000 }) && (let s1 := { s.tlbPage 0 0x402000 with requests := [] }
      (s1.thread? ⟨0, 0, 0, 0⟩).any (fun x =>
        accOk (s1.access x.1 ⟨0, 0, 0, 0⟩ a)
          && accWaits (({ s1 with links := List.replicate 48 { state := .retraining } } : State).access x.1 ⟨0, 0, 0, 0⟩ a)))) = true := by decide +kernel

/-- The results of one lane come while another lane has not yet done the slot. -/
theorem witness_ResultsAndRequests_waits : (let p := { pend none with dst := .s 8 }
    let s := one [{ thr 0 with outst := [p], slotDone := true }, thr 1] { id := 0 }
    (s.thread? ⟨0, 0, 0, 0⟩).any (fun x => decide ((∀ p ∈ x.2.outst, p.dst = .s 8 ∧ p.clause = x.2.clause ∧ p.slot = x.2.slot) ∧ x.2.slotDone = true
      ∧ ∃ o ∈ x.1.threads, o.lane ≠ x.2.lane ∧ o.entry = x.2.entry ∧ o.slotDone = false ∧ o.status ≠ .exited ∧ o.clause = x.2.clause
        ∧ o.slot = x.2.slot))) = true := by decide +kernel

theorem witness_ServiceBatches : (let b : Batch := { core := 0, launch := 0, wg := 0, team := 0, slots := 0x80c000, mask := 1#64 <<< 63, code := 126, pushed := true }
    let s : State := { sM [mthr 0] with batches := [b] }
    decide (s.serviceQueue 0 = [b]) && (match s.slotLocs b b.lanes [] with
      | some (s1, [loc]) => decide (Memory.wf s1.mem = true ∧ loc + 16 ≤ 2 ^ 52)
      | _ => false)) = true := by decide +kernel

/-- A tile of the pattern that skips nothing, of bytes, with a value for each of its 256 points. -/
def sTile : State :=
  let s := sM [mthr 0]
  { s with
    launches := [{ id := 0, ctrl := some { outbase := 0x400100, etype := 4, window := 1, inWin := 1 } }]
    wgs := [{ launch := 0, id := 0, state := .running, cover := some { tile := 0, pattern := 0, staged := (List.range 256).map (fun i => (i, 7)) } }] }

theorem witness_CoverageTiles : (match (sTile.wg 0 0).cover, (sTile.launch 0).ctrl with
    | some k, some C => decide ((sTile.wg? 0 0).isSome = true ∧ (sTile.launch? 0).isSome = true ∧ (sTile.launch 0).recd.det = false ∧ k.full C.audit = true
        ∧ k.done = false ∧ (sTile.wg 0 0).active = true ∧ sTile.engStalled 0 0 ⟨2, 0⟩ = false ∧ C.window ≤ C.inWin ∧ C.queue = [])
      && (let secs := regionSectors (C.outbase.toNat + k.tile * tilePoints k.pattern * (elBits (tyOf C.etype) / 8))
            (regionBytes (elBits (tyOf C.etype) / 8) (k.output (tyOf C.etype) C.audit))
        let sO := sTile.coverOwn 0 0
        match sO.engRange (sO.engineAgent 0 0) true (secs.map (·.1)) [] with
        | (.ok s1 xs, _) => (xs.zip secs).all (fun p => p.2.2.all (·.isSome)) && !s1.drains xs
        | _ => false)
    | _, _ => false) = true := by decide +kernel

theorem witness_StopsAndDebugger : (let s : State := { s0 with cores := [{ id := 0, stopIn := [(0, 0x184)] }] }
    decide ((s.core 0).stopIn ≠ [] ∧ (s.core 1).stopIn = [] ∧ (1 * 2 ^ 60 : BitVec 64).toNat / 2 ^ 60 = 1 ∧ (2 * 2 ^ 60 : BitVec 64).toNat / 2 ^ 60 = 2
      ∧ (3 * 2 ^ 60 + 7 * 256 + 31 : BitVec 64).toNat / 2 ^ 60 = 3 ∧ dbgCore 7 (3 * 2 ^ 60 + 7 * 256 + 31) = some 255 ∧ s.physOf 255 = some 283)) = true := by
  decide +kernel

/-! ## Witnesses: single rules -/

theorem isErr {r : Except DecodeFault (Instr × Nat)} (f : DecodeFault) (h : (match r with | .error g => decide (g = f) | .ok _ => false) = true) :
    r = .error f := by
  cases r with
  | ok _ => cases h
  | error g => simp at h; rw [h]

/-- An unassigned opcode, 0x1E, and the L forms, of minor 0, of the system class in user mode. -/
theorem witness_DecodeFaults : atSlot { s0 with entries := [ent [0x00000001, 0xf3c00000, 0]] } c0 (ent [0x00000001, 0xf3c00000, 0])
    ∧ decodeHeader 0x00000001 = some ⟨.int, 1, 0, 0⟩ ∧ here s0 ⟨.int, 1, 0, 0⟩ [0x00000001, 0xf3c00000, 0] 0 = .error .unassigned
    ∧ (0xf3c00000#32).toNat / 2 ^ 21 % 64 = 0x1e ∧ (0xf7e00000#32).toNat / 2 ^ 21 % 64 = 0x3f ∧ (0x06000000#32).toNat / 2 ^ 24 < 7 :=
  ⟨by unfold atSlot; decide +kernel, by decide +kernel, isErr _ (by decide +kernel), by decide, by decide, by decide⟩

/-- A header whose count is 0; a transfer before the last slot; bar.wg after the first. -/
theorem witness_DecodeFaults_places : decodeHeader 0 = none ∧ atSlot { s0 with entries := [ent [0, 0]] } c0 (ent [0, 0])
    ∧ decodeHeader 0x00000052 = some ⟨.ctl, 2, 0, 0⟩
    ∧ (let ws := (encodeHeader ⟨.ctl, 2, 0, 0⟩) :: ((encode (.jmp 4)).map (·.2)).getD [] ++ ((encode .barWg).map (·.2)).getD []
      decodeHeader (ws.headD 0) = some ⟨.ctl, 2, 0, 0⟩ ∧ isOk (.jmp 4) 1 (here s0 ⟨.ctl, 2, 0, 0⟩ ws 0) = true
        ∧ isOk .barWg 1 (here s0 ⟨.ctl, 2, 0, 0⟩ ws 1) = true)
    ∧ isTransfer (.jmp 4) = true ∧ 0 + 1 ≠ 2 ∧ isFirst .barWg = true ∧ isTransfer .barWg = false :=
  ⟨by decide +kernel, by unfold atSlot; decide +kernel, by decide +kernel, by decide +kernel, rfl, by decide, rfl, rfl⟩

theorem witness_DecodeFaults_privileged : ∀ i ∈ ([.sysr .always .n64 (.v 0) .zero, .iaddI32 .always (.v 0) .zero .one] : List Instr),
    i.wellFormed = true ∧ encode i ≠ none := by decide +kernel

theorem witness_HomeWrites : Memory.wf up.mem = true ∧ [(1 : Byte)] ≠ [] ∧ 2 ^ 52 - 1 + 1 ≤ 2 ^ 52 ∧ (up.writeHome (2 ^ 52 - 1) [1]).isSome = true
    ∧ ({ up with badSeals := [0] } : State).writeHome 63 [1] = none := by decide +kernel

theorem witness_PlainLoadsAndStores : viewGood (s0.view 0 0) ∧ (63 : Nat) + 1 % 64 ≤ 64
    ∧ (match s0.perform (tm []) { kind := .store, va := 0x40003f, n := 1, x := 255 } 0x40003f 0x40003f 0 with
      | .ok _ _ _ => true
      | _ => false) = true ∧ s0.sealBad 0x40003f = false ∧ s0.sealBadRange 0x400000 63 = false := by
  refine ⟨⟨by decide +kernel, by decide +kernel, by decide +kernel, fun a => rfl⟩, by decide, by decide +kernel, by decide +kernel, by decide +kernel⟩

/-- A line of which the view holds the first four bytes dirty, whose home seal is bad; and the descriptor of a map. -/
theorem witness_PlainLoadsAndStores_held : (let s := { s0 with badSeals := [0x10000], views := [{ core := 0, launch := 0, dirty := (List.range 4).map (fun k => (0x400000 + k, 7)) }] }
    decide (s.sealBad 0x400000 = true) && (List.range 4).all (fun k => s.holds 0 0 0 (s.holding 0x400000 0x400000 0) (0x400000 + k))) = true
    ∧ s0.sealBadRange 0x400240 64 = false ∧ 0x400240 % 64 = 0 := by decide +kernel

theorem witness_StepKeepsMemoryForm : Memory.wf sStep.mem = true ∧ ∃ t, step sStep = .next t :=
  ⟨rfl, _, rfl⟩

/-- v16 lies beyond the block of 16. -/
theorem witness_RegisterFaults : (Instr.iaddI32 .always (.v 16) (.v 15) .one).wellFormed = true
    ∧ namedRegs (.iaddI32 .always (.v 16) (.v 15) .one) = some [16, 15] ∧ s0.cur = some c0
    ∧ (∃ k ∈ [16, 15], ∃ T ∈ s0.teams, T.bsize ≤ k ∧ ∃ th ∈ T.threads, th.issuing 0 = true) :=
  ⟨by decide +kernel, rfl, rfl, by decide +kernel⟩

/-- v15 of lane 1 holds an uncorrectable error. -/
def sBad : State := one [thr 0, { thr 1 with ecc := [15] }] { id := 0 }

theorem witness_RegisterFaults_ecc : ∃ o, intOp (.iaddI32 .always (.v 0) (.v 15) .one) = some o ∧ sBad.cur = some c0
    ∧ (∀ U ∈ sBad.teams, (∃ x ∈ U.threads, x.issuing 0 = true) → ∀ n ∈ o.named, n < U.bsize) ∧ o.uniform = []
    ∧ (∀ U ∈ sBad.teams, ∀ x ∈ U.executing 0 o.g, ∀ n, sBad.ixWaits U x n = false)
    ∧ (∃ T ∈ sBad.teams, T.blc.getLsbD 31 = false ∧ ∃ th ∈ T.executing 0 o.g, ∃ q ∈ o.srcs, ∃ k ∈ srcCodes q.2 q.1, k ∈ th.ecc)
    ∧ ∃ t, exec (.iaddI32 .always (.v 0) (.v 15) .one) sBad = .next t := by
  refine ⟨_, rfl, rfl, by decide +kernel, by decide +kernel, ?_, by decide +kernel, _, rfl⟩
  have h : ∀ U ∈ sBad.teams, ∀ x ∈ U.executing 0 .always, x.outst = [] := by decide +kernel
  intro U hU x hx n
  have r : sBad.requests = [] := rfl
  simp [State.ixWaits, Thread.ixPending, h U hU x hx, State.replayDsts, r]

theorem witness_RegisterInstructionsFrame : ∀ i ∈ ([.iaddI32 .always (.v 0) .one .one, .faddF32 .always (.v 0) .one .one, .shflIdx .always (.v 0) .one .one
      , .wclr .always (.v 0)] : List Instr), i.wellFormed = true ∧ registerOp i = true ∧ ∃ t, exec i s0 = .next t := by
  intro i hi
  have h : ([.iaddI32 .always (.v 0) .one .one, .faddF32 .always (.v 0) .one .one, .shflIdx .always (.v 0) .one .one, .wclr .always (.v 0)]
    : List Instr).all (fun i => i.wellFormed && registerOp i) = true := by decide +kernel
  have := List.all_eq_true.1 h i hi
  simp only [Bool.and_eq_true] at this
  refine ⟨this.1, this.2, ?_⟩
  simp only [List.mem_cons, List.mem_nil_iff, or_false] at hi
  rcases hi with rfl | rfl | rfl | rfl <;> exact ⟨_, rfl⟩

/-- -7 / 2, the most negative by -1, and the fields of R197's example. -/
theorem witness_DivisionAndBitFields : Ty.i32 = .i32 ∧ 0xfffffff9 < 2 ^ Ty.i32.opBits ∧ 2 < 2 ^ Ty.i32.opBits ∧ 2 ≠ 0
    ∧ 0x80000000 = 2 ^ (Ty.i32.opBits - 1) ∧ 0xffffffff = 2 ^ Ty.i32.opBits - 1 ∧ 0x0f80 < 2 ^ 32 ∧ 31 < 32 ∧ 0x0507 % 256 < 32 ∧ 0x0507 / 256 % 256 ≠ 0 := by
  decide

theorem witness_FloatSpecialValues : isNum (.fin true 1 0) ∧ (1 : Nat) ≠ 0 ∧ ((2 : Nat) : ℚ) * 2 ^ (0 : Int) = ((1 : Nat) : ℚ) * 2 ^ (1 : Int)
    ∧ ((1 : Nat) : ℚ) * 2 ^ (0 : Int) * (((2 : Nat) : ℚ) * 2 ^ (0 : Int)) = ((1 : Nat) : ℚ) * 2 ^ (1 : Int) ∧ (FVal.inf true).isNan = false :=
  ⟨⟨true, 1, 0, rfl, by decide⟩, by decide, by norm_num, by norm_num, rfl⟩

/-- The greatest finite numbers of f64 and e2m1. -/
theorem witness_RepresentableValues : 0x7fefffffffffffff < 2 ^ (fmtOf .f64).bits ∧ fval .f64 0x7fefffffffffffff = .fin false (2 ^ 53 - 1) 971
    ∧ 7 < 2 ^ (fmtOf .e2m1).bits ∧ fval .e2m1 7 = .fin false 3 1 := by decide +kernel

/-- Parked with a fault that a handler takes. -/
theorem witness_HandlerEntry : (let r : Record := { cause := 0x04c }
    let th : Thread := { thr 0 with status := .parked, record := some r, entry := none }
    let T := tm [th]
    let s : State := { one [] { id := 0, recd := { handler := 0x400000 } } with teams := [T] }
    decide (T ∈ s.teams ∧ T.blc.getLsbD 31 = false ∧ (∀ th ∈ T.threads, ∀ r ∈ th.record, r.matrix = false) ∧ th.status = .parked
      ∧ (s.launch 0).recd.handler ≠ 0 ∧ isHandlerClass r.cause = true ∧ r.mc = false ∧ r.nest = false ∧ r.nl = false)) = true := by decide +kernel

/-- The frame of a deferred fault, with a return entry and a level above it. -/
theorem witness_HandlerReturn : (let f (r : Record) : Frame := { w := List.replicate 8 0, y0 := 0, y1 := 0, p := 0, depth := 0, levels := 0, clause := 0
                                                                 slot := 0, inside := true, recd := r }
    let th : Thread := { thr 0 with rstack := [⟨0, 0, 0⟩], loops := [⟨0, 0, 0, 0, 0⟩], status := .handler }
    decide ((f { cause := 0x04c }).depth ≤ th.rstack.length + th.bc ∧ (f { cause := 0x04c }).levels ≤ th.loops.length)) = true
  ∧ plainFault { cause := 0x04c } ∧ ¬plainFault { cause := 0x180 } ∧ ({ cause := 0x180 } : Record).defd = false
  ∧ ({ cause := 0x090, defd := true } : Record).cause ≠ 0x182 := by unfold plainFault; decide +kernel

theorem witness_TurnChoice : bestEntry [{ ent [] with id := 1, tag := 2 }, { ent [] with tag := 1 }] = some { ent [] with tag := 1 }
    ∧ bestEntry [ent [], { ent [] with id := 1, promo := some 0 }] = some { ent [] with id := 1, promo := some 0 } := by decide +kernel

theorem witness_SealCode : (let s : State := { up with bring := { up.bring with regions := 0, dimm := 64 } }
    decide (s.bring.stoland = true ∧ s.bring.badDimm = none ∧ s.bring.dimm ≤ 256 ∧ s.bring.regions < s.allRegions ∧ Memory.wf s.mem = true)) = true := by
  decide +kernel

/-! ## Values that the spec works out -/

/-- The first register that a lane waits for, with its value. -/
def waits (th : Thread) : Nat := (th.outst.head?.map (fun p => p.val)).getD 0

/-- One thread with v0, v1, … given. -/
def with_ (v : List (BitVec 32)) : State := one [{ thr 0 with v := v ++ List.replicate (16 - v.length) 0 }] { id := 0 }

/-- The table of R192. -/
theorem test_idiv_irem : [(Ty.i32, 7#32, 0xfffffffe#32, 0xfffffffd#32, 1#32), (.i32, 0xfffffff9, 2, 0xfffffffd, 0xffffffff), (.i32, 5, 0, 0xffffffff, 5),
    (.i32, 0x80000000, 0xffffffff, 0x80000000, 0), (.n32, 0x80000000, 0xffffffff, 0, 0x80000000)].all (fun (t, a, b, q, m) =>
      divRem t a.toNat b.toNat == (q.toNat, m.toNat)) = true := by decide +kernel

/-- The carry chain of R196: v10:v11 holds 0x4_0000_0000. -/
theorem test_iaddc_low : (fun i => (lane i (with_ [0xffffffff, 1, 1, 2]) 0 (fun th => (th.v.getD 10 0, th.p.getLsbD 2)) (0, false)))
    (.iaddc .always .n32 (.v 10) (.v 0) (.v 2) 2) = (0, true) := by decide +kernel

theorem test_iaddc_high : lane (.iaddc .always .n32 (.v 11) (.v 1) (.v 3) 2) (one [{ thr 0 with v := [0xffffffff, 1, 1, 2] ++ List.replicate 12 0, p := 4 }] { id := 0 })
    0 (fun th => (th.v.getD 11 0, th.p.getLsbD 2, th.y0.val)) (0, false, 0) = (4, false, 4) := by decide +kernel

/-- The field of R197. -/
theorem test_bfe_i32 : lane (.bfe .always .i32 (.v 2) (.v 0) (.v 1)) (with_ [0xf80, 0x507]) 0 (·.v.getD 2 0) 0 = 0xffffffff := by decide +kernel

theorem test_bfe_n32 : lane (.bfe .always .n32 (.v 2) (.v 0) (.v 1)) (with_ [0xf80, 0x507]) 0 (·.v.getD 2 0) 0 = 0x1f := by decide +kernel

/-- iabs.i32 of 0x8000_0000 is 0x8000_0000 (10_integer_and_move). -/
theorem test_iabs_min : lane (.iabsI32 .always (.v 1) (.v 0)) (with_ [0x80000000]) 0 (·.v.getD 1 0) 0 = 0x80000000 := by decide +kernel

/-- 5.0 to e2m1 under RNE and RUP, and 0.25 (R114). -/
theorem test_round_e2m1 : (roundFrac .e2m1 .rne false false false false 5 1).bits = 6 ∧ (roundFrac .e2m1 .rup false false false false 5 1).bits = 7
    ∧ roundFrac .e2m1 .rne false false false false 1 4 = ⟨0, excU ||| excX⟩ := by decide +kernel

/-- fadd.f32 of 1.0 and 2^-24: a tie that goes to even, inexact. -/
theorem test_fadd_tie : lane (.faddF32 .always (.v 2) (.v 0) (.v 1)) (with_ [0x3f800000, 0x33800000]) 0 (fun th => (th.v.getD 2 0, th.mode)) (0, 0)
    = (0x3f800000, 0x10) := by decide +kernel

/-- The worked entry of segment 0 of frcp, and frcp of 1 + 2^-9 (R222). -/
theorem test_frcp : frozenEntry .rcp 0 = (0x3fe00ff8, -1044492, 0x3fa) ∧ (frcp 0x3f804000).bits = 0x3f7f8040 := by decide +kernel

/-- fsinpi of -3.0 is -0, and fcospi of 0.5 is +0 (R223). -/
theorem test_trig_zeros : (fsinpi 0xc0400000).bits = 0x80000000 ∧ (fcospi 0x3f000000).bits = 0 := by decide +kernel

/-- Two lanes that swap by shfl.xor, and one whose partner has a false guard (R227). -/
theorem test_shfl_xor : (fun s => (lane (.shflXor .always (.v 5) (.v 4) (.imm 1)) s 0 (·.v.getD 5 0) 0, lane (.shflXor (.on 0 true) (.v 5) (.v 4) (.imm 1)) s 0 (·.v.getD 5 0) 0))
    (one [{ thr 0 with v := List.replicate 16 7 }, { thr 1 with v := List.replicate 16 9, p := 1 }] { id := 0 }) = (9, 7) := by decide +kernel

/-- Lane 5 of v20 holds z1 and lane 4 holds y1 (12_cross_lane); the arrays stand in v0 to v2 and the result from v3. -/
theorem test_zip_x3 : (fun i => (lane i (one ((List.range 16).map (fun k => { thr k with v := (List.range 16).map (fun n => BitVec.ofNat 32 (16 * n + k)) })) { id := 0 }) 5 (·.v.getD 3 0) 0,
    lane i (one ((List.range 16).map (fun k => { thr k with v := (List.range 16).map (fun n => BitVec.ofNat 32 (16 * n + k)) })) { id := 0 }) 15 (·.v.getD 3 0) 0))
    (.zip .always .n32 3 (.v 3) (.v 0)) = (33, 5) := by decide +kernel

/-- Seals: of zeros, of a last byte 0x01, and the check value of the loop (R15). -/
theorem test_seal : sealOf (List.replicate 64 0) = 0 ∧ sealOf (List.replicate 63 0 ++ [1]) = 0x8bb7
    ∧ sealOf [0x31, 0x32, 0x33, 0x34, 0x35, 0x36, 0x37, 0x38, 0x39] = 0xd0db := by decide +kernel

/-- The link of pa 0x12_3456_7890, and its home slice in shared mode and in partitions of four dies and of one (R12, R52). -/
theorem test_home : linkOf 0x1234567890 = 7 ∧ State.homeSlice { State.reset with l2cfg := 0 } 5 0x1234567890 = 2 * 16 + 11
    ∧ State.homeSlice { State.reset with l2cfg := 0xa } 5 0x1234567890 = 6 * 16 + 11
    ∧ State.homeSlice { State.reset with l2cfg := 2 } 5 0x1234567890 = 5 * 16 + 11 := by decide +kernel

/-- The bf16 example of R124: 2^24 + 1 + 1 in one block. -/
theorem test_mma_block : matSum 0 [blockResult ([0x4b80, 0x3f80, 0x3f80].map (fval .bf16) ++ List.replicate 13 (fval .bf16 0)) (List.replicate 16 (fval .bf16 0x3f80)) scaleOne scaleOne]
    = 0x4b800001 := by decide +kernel

/-- The NATIVE e2m1 example of R124. -/
theorem test_mma_native : (fun t => (t, matSum 0x3f800000 [t])) (blockResult ([3, 12].map (fval .e2m1) ++ List.replicate 14 (fval .e2m1 0))
    ([5, 6].map (fval .e2m1) ++ List.replicate 14 (fval .e2m1 0)) (e3m5 0x68) (e3m5 0x80)) = (0xc10c0000, 0xc0f80000) := by decide +kernel

/-- brk parks with cause 0x180 (R332). -/
theorem test_brk : lane (.brk .always) s0 0 (fun th => th.record.map (·.cause)) none = some 0x180 := by decide +kernel

/-- A taken branch leaves the next clause address that its offset counts from the clause (R318). -/
theorem test_bra : lane (.bra .always 4) s0 1 (·.next) none = some 0x400010 := by decide +kernel

/-- A load of the word 4 bytes below its address, little-endian (R265). -/
theorem test_ld_w : lane (.ldW .always (.v 8) (.v 2) (.imm (-4))) { sM [{ mthr 0 with v := setAt (mthr 0).v 2 0x400244 }] with mem := [(0x400240, 0x78), (0x400241, 0x56), (0x400242, 0x34), (0x400243, 0x12)] }
    0 waits 0 = 0x12345678 := by decide +kernel

/-- The automaton of 20_system_instructions, at 0x40_0000 in place of 0x10_0000, in an uncached page: a scan of "xab". -/
def trieMem : List (Nat × BitVec 8) :=
  (List.zip (List.range 96) [
    0, 0, 0, 0, 0, 0, 0, 0, 0, 0, 8, 1, 0, 0, 0, 0, 2, 0, 0, 0, 0, 0, 0, 0, 0, 0, 0, 0, 0, 0, 0, 0,
    0x61, 0, 0, 0, 0, 0, 0x20, 0, 0, 0, 8, 2, 0, 0xe0, 0xff, 0xff, 0x62, 0, 0, 0, 0, 0, 0x24, 2, 0, 0, 0, 0, 0, 0xd0, 0xff, 0xff,
    1, 0, 0, 0, 0, 0, 0, 0, 0, 0, 0, 0, 0, 0, 0, 0, 0x62, 0, 0, 0, 0, 0, 0x24, 3, 0, 0, 0, 0, 0, 0xe0, 0xff, 0xff]).filterMap
    (fun (k, b) => if b = (0 : BitVec 8) then none else some (0x400000 + k, b))

theorem test_trie_scan : lane (.trieScan .always (.v 10) (.v 4) (.v 6)) { one [{ thr 0 with v := [0, 0, 0, 0, 0x400000, 0xc0000000, 0x626178] ++ List.replicate 9 0 }] { id := 0 } with mem := trieMem, tlb := [{ page with sh := 1 }] }
    0 waits 0 = 0x400054 := by decide +kernel

theorem test_trie_info : lane (.trieInfo .always (.v 12) (.v 10)) { one [{ thr 0 with v := List.replicate 10 0 ++ [0x400054, 0, 0, 0, 0, 0] }] { id := 0 } with mem := trieMem }
    0 waits 0 = 0x01000003 := by decide +kernel

/-! ## Witnesses: clauses about what waits, is damaged, or comes later -/

/-- No guard predicate holds an error; the guard of the word is none. A read of another endpoint waits for a link that retrains. -/
theorem witness_StepRunsTheDecodedInstruction_guard : (∀ T ∈ s0.teams, ∀ th ∈ T.threads, th.ecc = []) ∧ 12 ≤ (0xf3808102#32).toNat / 2 ^ 28
    ∧ ({ up with links := List.replicate 48 { state := .retraining } } : State).mustWait (.fabricRemoteRead 0 256 false) = true
    ∧ up.mustWait .powerGood = false := by decide +kernel

/-- All regions are ready; die 7's Gondola core has started and its service block has not; die 6's Gondola core has not. -/
theorem witness_MemoryAndFirmware_start : (let s : State := { up with bring := { up.bring with gondola := 0xbf, svc := 0x7f } }
    decide (s.bring.stoland = true ∧ s.allRegions ≤ s.bring.regions ∧ s.bring.host = true ∧ s.bring.gondola.getLsbD 7 = true ∧ s.bring.svc.getLsbD 7 = false
      ∧ s.bring.gondola.getLsbD 6 = false)) = true := by decide +kernel

/-- MESH_MAP, PEER_MAP and a user core that runs nothing of a launch that is not privileged. -/
theorem witness_RegistersFromOutside_numbers : dieOf 287 < up.dies.length ∧ 191 < (up.die 7).peerMap.length
    ∧ (∃ W ∈ s0.wgs, W.state = .running ∧ (s0.launch W.launch).priv = false) := by decide +kernel

/-- A queue is bound, and its descriptor is good. -/
theorem witness_PlacementAndRetirement_bound : (let L : Launch := { L2 with recd := { L2.recd with cq := 1, qdescBase := 0x400400 } }
    let s : State := { sM [] with wgs := [], parts := [], launches := [L], sqs := [sub 0] }
    decide (s.launch? 0 = some L ∧ s.wantsPlace L = true ∧ s.computes L = true) && (match s.ctxRoom L, s.findHome L L.nextWg with
      | some ctx, some (h, r) => (s.placeAt L L.nextWg h ctx r).isSome
      | _, _ => false)) = true := by decide +kernel

/-- Core 5 is a user core of die 0 that has failed its check with nothing on it; no other core has failed. -/
theorem witness_CoreFailures_counted : dieOf 5 < up.dies.length ∧ up.meshCore (dieOf 5) 5 = some 5 ∧ (up.core 5).failed = false
    ∧ (∀ W ∈ up.wgs, W.core = 5 → W.state = .retired ∨ W.state = .saved)
    ∧ (let s : State := { up with cores := [{ id := 283, failed := true }, { id := spareCore 7 0, failed := true }, { id := spareCore 7 1, failed := true }] }
      s.contextBoundary = true ∧ s.meshCore 7 31 = some 283 ∧ ∀ j, j < 2 → (s.die 7).spares ≤ j → (s.core (spareCore 7 j)).failed = true) := by decide +kernel

/-- A thread that waits for the policy, in a module whose privileged launches have no team. -/
theorem witness_PolicyActions_told : ∀ U ∈ (sPol 0).teams, (sPol 0).meshCore 0 32 = some U.core → ((sPol 0).launch U.launch).priv = false := by decide +kernel

/-- The seals of the descriptor and of the entry's slot are good, or one is damaged. -/
theorem witness_EngineEntries_seals : (let s := sE (spell 0x402000 64 copyEnt) []
    got (s.engDesc 0 0 ⟨0, 0⟩) (fun s1 loc => !s1.sealBad loc && got (s1.engSlot 0 0 (s1.homeNat loc 64) 0) (fun s2 slot => !s2.sealBad slot))
      && got (({ s with badSeals := [0x400400 / 64] } : State).engDesc 0 0 ⟨0, 0⟩) (fun s1 loc => s1.sealBad loc)
      && got (({ s with badSeals := [0x402000 / 64] } : State).engDesc 0 0 ⟨0, 0⟩) (fun s1 loc => !s1.sealBad loc
        && got (s1.engSlot 0 0 (s1.homeNat loc 64) 0) (fun s2 slot => s2.sealBad slot))) = true := by decide +kernel

/-- A sector that lies in no tile that is drained, and one that does. -/
theorem witness_EngineEntries_drains : (let x : Spot := ⟨0x400180, 0x400180, 0x400180, 64, true⟩
    let y : Spot := ⟨scratchPa 0 0, scratchPa 0 0, scratchPa 0 0, 64, true⟩
    let s := sE [] [readFl]
    let d : State := { sE [] [{ readFl with todo := [(y, List.replicate 64 7)] }] with
      cores := [{ id := 0, tiles := setAt (List.replicate 128 0) 0 (mkTile 0 3 false 0 1 0) }] }
    decide (s.drains [x] = false ∧ y.loc < 2 ^ 52 ∧ d.reachAs y.loc 2 = .yes ∧ d.drains [y] = true)) = true := by decide +kernel

theorem get?_run (v : Byte) : ∀ n lo a, lo ≤ a → a < lo + n → (ByteMap.get? ((List.range' lo n).map (fun k => (k, v))) a).isSome = true
  | 0, lo, a, h, h' => by omega
  | n + 1, lo, a, h, h' => by
    rw [List.range'_succ, List.map_cons, ByteMap.get?]
    by_cases e : lo = a
    · simp [e]
    · rw [if_neg e, if_neg (by omega)]
      exact get?_run v n (lo + 1) a (by omega) (by omega)

/-- An mma and an mmasc of one quarter: every byte of a run was seen. -/
def seenPart (bs : List Nat) (m : BitVec 512) (i : Instr) : PassPart :=
  { lastRow with instr := i, bs := bs, row := 0, bscale := 0x402000, ma := m, mb := m, seen := (List.range' 0x400000 0x2040).map (fun k => (k, 1)) }

def sSeen (q : PassPart) : State := { sMat (map 16 0xb 0) with cores := [{ id := 0, passes := [{ parts := [q] }] }] }

/-- Their operands lie in the run, and their team is as it was at their issue. -/
theorem witness_MatrixPasses_values : ∀ q ∈ [seenPart [] (map 16 0xb 0) (.mma .always .bf16 .zero 0 1 .zero)
      , seenPart [3] (map 128 0xc 1) (.mmasc .always .e4m3 3 0 .zero 0 1 .zero)],
    (∀ key ∈ q.keys, (ByteMap.get? q.seen key).isSome = true)
    ∧ ((sSeen q).core 0).passes = [{ parts := [q] }] := by
  intro q hq
  have h : ∀ key ∈ q.keys, 0x400000 ≤ key ∧ key < 0x400000 + 0x2040 := by
    revert q; decide +kernel
  have e : q.seen = (List.range' 0x400000 0x2040).map (fun k => (k, 1)) := by
    simp only [List.mem_cons, List.mem_nil_iff, or_false] at hq
    rcases hq with rfl | rfl <;> rfl
  exact ⟨fun key hk => by rw [e]; exact get?_run 1 _ _ key (h key hk).1 (h key hk).2, rfl⟩

theorem witness_MatrixPasses_shape : ∀ q ∈ [seenPart [] (map 16 0xb 0) (.mma .always .bf16 .zero 0 1 .zero)
      , seenPart [3] (map 128 0xc 1) (.mmasc .always .e4m3 3 0 .zero 0 1 .zero)],
    (sSeen q).passStalled 0 = false ∧ ((sSeen q).core 0).eccRows = [] ∧ ((sSeen q).team? q.launch q.wg q.team).any (fun T => T.born == q.born) = true
      ∧ mapBad q.ma = false ∧ (mapView q.ma).fmt = q.ty.code ∧ 1 ≤ q.bs.length + 1 - (mapView q.ma).geom ∧ q.bscale.toNat % 64 = 0 := by decide +kernel

/-- In a deterministic launch, with no result of the thread still to come. -/
theorem witness_ResultsAndRequests_det : (let s := one [{ thr 0 with outst := [pend none] }] { id := 0, recd := { det := true } }
    decide ((s.launch 0).recd.det = true ∧ s.comes ⟨0, 0, 0, 0⟩ (fun a => decide (a.tag < 0)) = false)) = true := by decide +kernel

/-- A batch in the Basket of core 0, and an empty ring of queue 63. -/
theorem witness_ServiceBatches_push : (let b : Batch := { core := 0, launch := 0, wg := 0, team := 0, slots := 0x80c000, mask := 1, code := 5 }
    let Q : WorkQueue := { die := 0, q := 63, state := .open, ringbase := 0x402000, ringlen := 64 }
    let s : State := { sM [] with batches := [b], queues := [Q] }
    decide (s.nextPush 0 = some b ∧ s.workq (s.launch 0).die 63 = Q ∧ (Q.reserve - Q.free).toNat < Q.ringlen ∧ s.reach 0x402000 = .yes
      ∧ Memory.wf s.mem = true)) = true := by decide +kernel

/-- The same tile with no audit and a window that is not full: its four sectors are apart, and memory is in its canonical form. -/
theorem witness_CoverageTiles_bytes : (let C : Controller := { outbase := 0x400100, etype := 4, window := 2 }
    let s : State := { sTile with launches := [{ id := 0, ctrl := some C }] }
    (s.wg 0 0).cover.any (fun k => decide (C.audit = 0 ∧ C.inWin < C.window ∧ Memory.wf s.mem = true ∧ C.outbase.toNat % 64 = 0)
      && (let secs := regionSectors C.outbase.toNat (regionBytes 1 (k.output (tyOf C.etype) 0))
        let sO := s.coverOwn 0 0
        match sO.engRange (sO.engineAgent 0 0) true (secs.map (·.1)) [] with
        | (.ok s1 xs, _) => decide ((xs.map (·.loc)).Nodup ∧ Memory.wf s1.mem = true ∧ ∀ x ∈ xs, x.loc % 64 = 0 ∧ x.loc + 64 ≤ 2 ^ 52)
        | _ => false))) = true := by decide +kernel

/-- A tile whose output lies in a tile that is drained. -/
theorem witness_CoverageTiles_drains : (let C : Controller := { outbase := 1#64 <<< 56, etype := 4, window := 2 }
    let s : State := { sTile with
      launches := [{ id := 0, ctrl := some C }]
      parts := [{ launch := 0, home := 0, core := some 0, base := 0, size := 4096, tbase := 0, tiles := 1 }]
      cores := [{ id := 0, tiles := setAt (List.replicate 128 0) 0 (mkTile 0 3 false 0 1 0) }] }
    (s.wg 0 0).cover.any (fun k =>
      let secs := regionSectors C.outbase.toNat (regionBytes 1 (k.output (tyOf C.etype) 0))
      let sO := s.coverOwn 0 0
      match sO.engRange (sO.engineAgent 0 0) true (secs.map (·.1)) [] with
      | (.ok s1 xs, _) => (xs.zip secs).all (fun p => p.2.2.all (·.isSome) || !s1.sealBad p.1.loc) && s1.drains xs
      | _ => false)) = true := by decide +kernel

/-- The workgroup's last team has exited before the tile was full. -/
theorem witness_CoverageTiles_exited : (let s : State := { sTile with teams := [], wgs := [{ launch := 0, id := 0, state := .running, cover := some { tile := 0, pattern := 1 } }] }
    decide (s.wgExited 0 0 = true ∧ (s.wg 0 0).active = true)) = true := by decide +kernel

/-- The four corners of the tile's interior, and points that patterns 1, 2 and 4 skip there; all 256 have values. -/
theorem witness_CoverageTiles_interior : (∀ i ∈ [17, 30, 225, 238], interior i ∧ i < 256) ∧ (17 % 16 + 18 / 16) % 2 = 0 ∧ (18 % 16 + 18 / 16) % 2 = 1
    ∧ 225 % 2 = 1 ∧ 225 / 16 % 2 = 0 ∧ 30 % 2 = 0 ∧ 30 / 16 % 2 = 1 ∧ 17 % 2 = 1 ∧ 17 / 16 % 2 = 1 ∧ interior 67 ∧ 67 % 16 < 12 ∧ 67 / 16 % 4 = 0 ∧ 67 % 4 = 3
    ∧ ∀ p ∈ [1, 2, 4], ∀ j ∈ [0, 255], storedAt { tile := 0, pattern := p, staged := (List.range 256).map (fun i => (i, 7)) } j = some 7 := by
  unfold Claims.interior; decide +kernel

/-- A transfer before the last slot, whose register v16 lies beyond the block or does not. -/
theorem witness_DecodeFaults_misplaced : (transferChecks (.jmpi .always (.v 16))).2.1 = [16, 17] ∧ beyondBlock s0 c0 16 ∧ ¬beyondBlock s0 c0 15
    ∧ s0.uniformCheck (transferChecks (.jmpi .always (.v 14))).1 (transferChecks (.jmpi .always (.v 14))).2.2 = none
    ∧ (let s := sM [mthr 0, mthr 1]
      s.uniformCheck (transferChecks (.dispatch .always (.s 14) 8 10)).1 (transferChecks (.dispatch .always (.s 14) 8 10)).2.2 = none) := by
  unfold beyondBlock; decide +kernel

/-- Immediate accesses of 4 and 8 bytes at the end of a sector, with types that they take. -/
theorem witness_PlainLoadsAndStores_immediate : Memory.wf s0.mem = true ∧ 0x40003c % 64 + 4 ≤ 64 ∧ 0x400038 % 64 + 8 ≤ 64
    ∧ atomTyped (.atom .max .i32 .wg .relaxed) 4 ∧ atomTyped (.cas .n64 .wg .sc) 8 ∧ atomTyped (.atomf .add .f64 .wg .relaxed) 8
    ∧ atomTyped (.sti .wg .rel) 4 ∧ s0.sealBadRange 0x40003c 4 = false ∧ ({ s0 with badSeals := [0x10000] } : State).sealBadRange 0x40003c 4 = true
    ∧ atomValue (.atom .max .i32 .wg .relaxed) 4 0xffffffff 1 0 = some 1 ∧ atomValue (.cas .n64 .wg .sc) 8 5 5 9 = some 9 := by
  refine ⟨by decide +kernel, by decide, by decide, Or.inl ⟨Or.inl rfl, rfl⟩, Or.inr ⟨Or.inr rfl, rfl⟩, Or.inr ⟨rfl, rfl⟩, trivial, by decide +kernel,
    by decide +kernel, by decide +kernel, by decide +kernel⟩

/-- The tables of an address space, whose last entry maps the page 0x5000; a launch that has no partition. -/
def sWalk (leaf : Nat) : State :=
  { s0 with
    tlb := [], spaces := [{ asid := 0, root := 0x1000 }]
    mem := [(0x1000, 1), (0x1001, 0x20), (0x2000, 1), (0x2001, 0x30), (0x3000, 1), (0x3001, 0x40), (0x4000, 1), (0x4001, 0x50)] ++ spell 0x5000 8 leaf }

def aWalk : Agent := (sWalk 0).agent (tm [])

theorem witness_PlainLoadsAndStores_walk : ∀ e ∈ [0, 0x101, 1, 0x5047, 0x5043, 0x5045, 0x5045 + 2 ^ 63], walked (sWalk e) aWalk 0x1000 0x123 4
    ∧ pteOf (sWalk e) 0x1000 0x123 4 = e := by
  unfold walked tablePtr pteZero; decide +kernel

/-- Leaves that pass, and one for each check that a leaf of level 0 or 1 fails; places beyond memory, of a scratchpad that is none, and of no class. -/
theorem witness_PlainLoadsAndStores_leaves : leafFaults 0x5047 0 = [] ∧ leafFaults (0x5047 + 3 * 2 ^ 58) 0 = [5] ∧ leafFaults (0x5047 + 2 * 2 ^ 58) 0 = [6]
    ∧ leafFaults (0x5047 + 0xc * 2 ^ 48) 0 = [7] ∧ leafFaults 0x5047 1 = [8] ∧ leafFaults (0x5047 + 0xa * 2 ^ 48) 0 = [9]
    ∧ pteZero 0x5047 ∧ ¬pteZero 0x5147 ∧ (aWalk.priv = false)
    ∧ (sWalk 0).placeBad aWalk (48 * 2 ^ 40) = some 0x0b ∧ (sWalk 0).placeBad aWalk (48 * 2 ^ 40 - 1) = none ∧ placeClass (0xf * 2 ^ 48) = 0xf
    ∧ placeClass (scratchPa 0 0) = 8 := by unfold pteZero; decide +kernel

/-- The ends of the window of one's own scratchpad and of that of all, of the regions that are none, and of no address. -/
theorem witness_PlainLoadsAndStores_windows : ((one [] { id := 0, recd := { splog := 15 } }).launch 0).recd.splog = 15 ∧ (L2.recd.splog ≠ 15 ∧ L2.recd.orow ≤ 0 ∧ L2.recd.ocol ≤ 0 ∧ 0 < L2.recd.h ∧ 0 < L2.recd.wd)
    ∧ (sM []).partition? 0 0 = some { launch := 0, home := 0, core := some 0, base := 0, size := 4096, tbase := 0, tiles := 1 } ∧ (sM []).partition? 0 1 = none
    ∧ 0x100000100000000 + 255 * 2 ^ 20 + (2 ^ 20 - 1) < 0x100000110000000 ∧ 2 ^ 56 + 2 ^ 20 < 0x100000100000000 := by decide +kernel

/-- A misaligned access of a page of memory. -/
theorem witness_PlainLoadsAndStores_aligned : (match s0.translate (s0.agent (tm [])) 0x400001 .rd with
    | (_, .ok loc pa _) => decide (¬(9 ≤ classAt loc pa ∧ classAt loc pa ≤ 0xb) ∧ (0x400001#64).toNat % 4 ≠ 0)
    | _ => false) = true := by decide +kernel

/-! ## Witnesses: floating-point values -/

/-- A NaN beside a number; the most negative number below the least positive one; -0 below +0. -/
theorem witness_FloatSpecialValues_minmax : fval .f32 0x7f800001 = .nan true ∧ (fval .f32 0xff7fffff).isNan = false ∧ fval .f32 0x80000000 = .fin true 0 (-149)
    ∧ fval .f32 0 = .fin false 0 (-149) ∧ fval .f32 0xff7fffff = .fin true 0xffffff 104 ∧ fval .f32 1 = .fin false 1 (-149) ∧ fval .f32 0x7f800000 = .inf false := by
  decide +kernel

/-- The least input of which ftanh is 1; -126 and 127 as inputs of fexp2; a negative input. -/
theorem witness_FloatSpecialValues_special : fval .f32 0x41000000 = .fin false 0x800000 (-20) ∧ fval .f32 0xc2fc0000 = .fin true 0xfc0000 (-17)
    ∧ fval .f32 0x42fe0000 = .fin false 0xfe0000 (-17) ∧ (8 : ℚ) ≤ (0x800000 : Nat) * 2 ^ (-20 : Int)
    ∧ ratOf (.fin true 0xfc0000 (-17)) = ((-126 : Int) : ℚ) ∧ ratOf (.fin false 0xfe0000 (-17)) = ((127 : Int) : ℚ) := by
  refine ⟨by decide +kernel, by decide +kernel, by decide +kernel, by norm_num, by norm_num [ratOf], by norm_num [ratOf]⟩

/-- The first numbers beyond e2m1, and beyond n32 and i32. -/
theorem witness_RepresentableValues_overflow : (2 : ℚ) ^ (topExp .e2m1 + 1) ≤ |((8 : Int) : ℚ)| * 2 ^ (0 : Int)
    ∧ fval .f64 0x41f0000000000000 = .fin false (2 ^ 52) (-20) ∧ (2 : ℚ) ^ 32 ≤ ratOf (.fin false (2 ^ 52) (-20))
    ∧ fval .f64 0xc1e0000000200000 = .fin true (2 ^ 52 + 2 ^ 21) (-21) ∧ ratOf (.fin true (2 ^ 52 + 2 ^ 21) (-21)) ≤ -(2 : ℚ) ^ (32 - 1) - 1
    ∧ (∀ m e, fval .f32 0 = .fin false m e → m = 0) := by
  refine ⟨by norm_num [topExp, abs_of_pos], by decide +kernel, by norm_num [ratOf], by decide +kernel, by norm_num [ratOf], ?_⟩
  intro m e h
  have h0 : fval .f32 0 = .fin false 0 (-149) := by decide +kernel
  rw [h0] at h
  injection h with _ hm
  exact hm.symm

/-- A thread in its handler that performed a deferred instruction alone when it faulted again. -/
theorem witness_HandlerReturn_oneShot : (let f : Frame := { w := List.replicate 8 0, y0 := 0, y1 := 0, p := 0, depth := 0, levels := 0, clause := 0
                                                            slot := 0, inside := true, recd := { cause := 0x04c }, oneShot := some (0x400040, 3, true) }
    decide (f.depth ≤ (thr 0).rstack.length + (thr 0).bc ∧ f.oneShot = some (0x400040, 3, true))) = true := by decide +kernel

/-- The word of eng.seq on the reconstruction unit with a queue other than 0 is reserved (R374). -/
theorem test_decode_engseq_reserved : ((decodeWords .sys true [0x1064800a#32]).toOption.isNone) = true := by decide +kernel

end Sys2Proof.Tests
end

/-!
The frame of the instructions of the registers (00 R9, R10): what a lane may change of its thread, what an instruction whose lanes act
each on its own thread leaves of the teams, and then each shared form of instruction once. The integer, floating and cross-lane families
have the frame in every state; a bound-limb instruction has it where no two teams have one name.
-/

namespace Sys2Proof.Claims
open Sys2Proof Sys2Proof.Machine

/-! ### What a lane changes of its thread -/

/-- What a lane may make of its thread: registers and the mode word, results that it awaits besides, and where it stands at its slot. -/
structure LaneKept (a b : Thread) : Prop where
  eq    : b = { a with v := b.v, w := b.w, y0 := b.y0, y1 := b.y1, p := b.p, ix := b.ix, mode := b.mode, ecc := b.ecc, outst := b.outst
                       nextTag := b.nextTag, hold := b.hold, status := b.status, record := b.record, entry := b.entry
                       slotDone := b.slotDone, slot := b.slot, inside := b.inside, next := b.next, claim := b.claim }
  outst : ∀ q ∈ a.outst, q ∈ b.outst

theorem LaneKept.refl (a : Thread) : LaneKept a a := ⟨rfl, fun _ h => h⟩

theorem LaneKept.trans {a b d : Thread} (hab : LaneKept a b) (hbd : LaneKept b d) : LaneKept a d :=
  ⟨hbd.eq.trans (by rw [hab.eq]), fun q h => hbd.outst q (hab.outst q h)⟩

theorem laneKept_shiftY (th : Thread) (n : Nat) : LaneKept th (th.shiftY n) := ⟨rfl, fun _ h => h⟩
theorem laneKept_setP (th : Thread) (n : Nat) (b : Bool) : LaneKept th (th.setP n b) := ⟨rfl, fun _ h => h⟩
theorem laneKept_stick (th : Thread) (e : Exc) : LaneKept th (th.stick e) := ⟨rfl, fun _ h => h⟩
theorem laneKept_hold (th : Thread) (h : Hold) : LaneKept th { th with hold := h } := ⟨rfl, fun _ h => h⟩
theorem laneKept_ix (th : Thread) (l : List (BitVec 32)) : LaneKept th { th with ix := l } := ⟨rfl, fun _ h => h⟩
theorem laneKept_park (th : Thread) (r : Record) (slot : Nat) (inside : Bool) : LaneKept th (th.park r slot inside) := ⟨rfl, fun _ h => h⟩

theorem laneKept_put (th : Thread) (d : Dst) (w v : Nat) : LaneKept th (th.put d w v) := by
  cases d with
  | pm n => exact laneKept_setP th n _
  | _ => exact ⟨rfl, fun _ h => h⟩

theorem laneKept_writeDest (th : Thread) (d : Dst) (w v : Nat) : LaneKept th (th.writeDest d w v) := by
  unfold Thread.writeDest
  split
  · exact (laneKept_put th d w v).trans (laneKept_shiftY _ v)
  · exact laneKept_put th d w v

theorem laneKept_await (th : Thread) (d : Dst) (w v : Nat) (prod : Producer) (clause : BitVec 64) (slot : Nat) (since : BitVec 64)
    (exc : Exc) : LaneKept th (th.await d w v prod clause slot since exc) := by
  refine ⟨?_, fun q hq => List.mem_append_left _ hq⟩
  unfold Thread.await Thread.issued
  split <;> rfl

/-! ### What a lane answers -/

/-- Completed, faulting or waiting, a lane keeps what it may not change. -/
def keepsLane (th : Thread) : Lane → Prop
  | .done t _ | .trap t _ | .wait t _ => LaneKept th t

/-- So does each lane of an instruction. -/
def KeepsLanes (f : Team → Thread → Lane) : Prop := ∀ T th, keepsLane th (f T th)

theorem keepsLane_trap (th : Thread) (x : Trap) : keepsLane th (.trap th x) := LaneKept.refl th

theorem keepsLane_wait (th : Thread) (n : Nat) : keepsLane th (.wait th n) := LaneKept.refl th

/-- A check of a lane: it faults as it is, or goes on. -/
theorem keepsLane_trapIf {p : Prop} [Decidable p] {th : Thread} {x : Trap} {l : Lane} (hl : keepsLane th l) :
    keepsLane th (if p then .trap th x else l) := by
  split
  · exact keepsLane_trap th x
  · exact hl

theorem keepsLane_done {a th : Thread} (h : LaneKept a th) (vs : List Nat) : keepsLane a (.done th vs) := h

theorem keepsLane_laneWrite {a th : Thread} (h : LaneKept a th) (d : Dst) (w v : Nat) : keepsLane a (laneWrite th d w v) :=
  h.trans (laneKept_writeDest th d w v)

theorem keepsLane_raising {th : Thread} {e : Exc} {k : Thread → Lane} (hk : ∀ t, LaneKept th t → keepsLane th (k t)) :
    keepsLane th (raising th e k) := by
  unfold raising
  split
  · exact laneKept_stick th e
  · exact hk _ (laneKept_stick th e)

theorem keepsLane_floatWrite (th : Thread) (d : Dst) (w : Nat) (r : FRes) : keepsLane th (floatWrite th d w r) :=
  keepsLane_raising fun _ h => keepsLane_laneWrite h d w r.bits

theorem keepsLane_writeLimb (T : Team) (th : Thread) (d : Dst) (x : Int) : keepsLane th (writeLimb T th d x) := by
  unfold writeLimb
  refine LaneKept.trans ?_ (laneKept_writeDest _ d _ _)
  split
  · exact laneKept_setP th 11 true
  · exact LaneKept.refl th

theorem keepsLanes_withEcc {xs : List Field} {f : Team → Thread → Lane} (hf : KeepsLanes f) : KeepsLanes (withEcc xs f) := by
  intro T th
  unfold withEcc
  split
  · exact keepsLane_trap th _
  · exact hf T th

theorem keepsLanes_withPreds {ps : List Nat} {f : Team → Thread → Lane} (hf : KeepsLanes f) : KeepsLanes (withPreds ps f) := by
  intro T th
  unfold withPreds
  split
  · exact keepsLane_trap th _
  · exact hf T th

theorem keepsLane_afterPreds {ps : List Nat} {f : Team → List Thread → Thread → Lane} {T : Team} {lanes : List Thread} {th : Thread}
    (hf : keepsLane th (f T lanes th)) : keepsLane th (afterPreds ps f T lanes th) := by
  unfold afterPreds
  split
  · exact keepsLane_trap th _
  · exact hf

/-! ### Threads -/

theorem threadKept_refl (c : Cur) (bound : Bool) (a : Thread) : threadKept c bound a a :=
  ⟨rfl, rfl, rfl, rfl, rfl, rfl, rfl, rfl, rfl, rfl, rfl, List.Sublist.refl _, rfl, rfl, rfl, fun _ h => h, fun _ => ⟨rfl, fun _ => rfl⟩,
    fun _ => rfl⟩

/-- A thread of the group's entry that owes d of its faults and has become what a lane may make of it. -/
theorem threadKept_of_laneKept {c : Cur} {bound : Bool} {a b : Thread} {d : List Record} (h : LaneKept { a with defer := d } b)
    (hd : d.Sublist a.defer) (hentry : a.entry = some c.entry) (hbound : bound = false → d = a.defer ∧ a.issuing c.entry = true) :
    threadKept c bound a b := by
  obtain ⟨heq, houtst⟩ := h
  rw [heq]
  refine ⟨rfl, rfl, rfl, rfl, rfl, rfl, rfl, rfl, rfl, rfl, rfl, hd, rfl, rfl, rfl, houtst, fun hb => ?_, fun hne => absurd hentry hne⟩
  obtain ⟨hdefer, hissuing⟩ := hbound hb
  exact ⟨hdefer, fun hidle => absurd hissuing (by simp [hidle])⟩

theorem entry_of_issuing {th : Thread} {e : Nat} (h : th.issuing e = true) : th.entry = some e := by
  simp only [Thread.issuing, Bool.and_eq_true, beq_iff_eq] at h
  exact h.1.1

/-- A thread that issues, after its lane. -/
theorem threadKept_of_issuing {c : Cur} {bound : Bool} {a b : Thread} (ha : a.issuing c.entry = true) (h : LaneKept a b) :
    threadKept c bound a b :=
  threadKept_of_laneKept (d := a.defer) h (List.Sublist.refl _) (entry_of_issuing ha) fun _ => ⟨rfl, ha⟩

/-- What a bound team's threads may become before the team parks whole: each owes no new fault, and one in another entry is as it was. -/
def boundKept (c : Cur) (a b : Thread) : Prop :=
  ∃ d : List Record, d.Sublist a.defer ∧ LaneKept { a with defer := d } b ∧ (a.entry ≠ some c.entry → b = { a with defer := d })

theorem boundKept_refl (c : Cur) (a : Thread) : boundKept c a a := ⟨a.defer, List.Sublist.refl _, LaneKept.refl a, fun _ => rfl⟩

theorem boundKept_of_issuing {c : Cur} {a b : Thread} (ha : a.issuing c.entry = true) (h : LaneKept a b) : boundKept c a b :=
  ⟨a.defer, List.Sublist.refl _, h, fun hne => absurd (entry_of_issuing ha) hne⟩

theorem boundKept_erase (c : Cur) (a : Thread) (r : Record) : boundKept c a { a with defer := a.defer.erase r } :=
  ⟨a.defer.erase r, List.erase_sublist, LaneKept.refl _, fun _ => rfl⟩

/-- A thread of a bound team, parked where it stands in the group's entry. -/
theorem threadKept_parkBound {c : Cur} {a b : Thread} (h : boundKept c a b) (r : Record) (slot : Nat) (inside : Bool) :
    threadKept c true a (if b.entry == some c.entry && b.status != .exited then b.park r slot inside else b) := by
  obtain ⟨d, hd, hlane, hother⟩ := h
  by_cases hentry : a.entry = some c.entry
  · refine threadKept_of_laneKept ?_ hd hentry (by simp)
    split
    · exact hlane.trans (laneKept_park b r slot inside)
    · exact hlane
  · rw [hother hentry, if_neg (by simp [hentry])]
    exact ⟨rfl, rfl, rfl, rfl, rfl, rfl, rfl, rfl, rfl, rfl, rfl, hd, rfl, rfl, rfl, fun _ h => h, by simp, fun _ => rfl⟩

/-! ### Teams -/

theorem teamKept_mapThreads {c : Cur} {T : Team} {f : Thread → Thread} (h : ∀ th ∈ T.threads, threadKept c T.bound th (f th)) :
    teamKept c T (T.mapThreads f) :=
  ⟨rfl, rfl, List.Sublist.refl _, List.forall₂_map_right_iff.2 (List.forall₂_same.2 h)⟩

theorem teamKept_refl (c : Cur) (T : Team) : teamKept c T T :=
  ⟨rfl, rfl, List.Sublist.refl _, List.forall₂_same.2 fun th _ => threadKept_refl c _ th⟩

theorem writeS_s_length (T : Team) (n bits v : Nat) : (T.writeS n bits v).s.length = T.s.length := by
  refine List.foldlRecOn (motive := fun l : List (BitVec 32) => l.length = T.s.length) _ _ rfl fun l hl k _ => ?_
  split
  · exact hl
  · exact (setAt_length ..).trans hl

theorem teamKept_writeS {c : Cur} {T U : Team} (h : teamKept c T U) (n bits v : Nat) : teamKept c T (U.writeS n bits v) := by
  obtain ⟨heq, hs, hecc, hthreads⟩ := h
  exact ⟨by rw [heq]; rfl, (writeS_s_length U n bits v).trans hs, List.filter_sublist.trans hecc, hthreads⟩

/-- The s destinations of a team: of the module at most the counter of free values changes, of the team its s registers. -/
theorem writeSAll_kept {c : Cur} {T : Team} (vs : List (List Nat)) (sd : List (Nat × Nat)) (k : Nat) (s : State) (U : Team)
    (h : teamKept c T U) : ∃ n, (s.writeSAll vs sd k U).1 = { s with freeCount := n } ∧ teamKept c T (s.writeSAll vs sd k U).2 := by
  induction sd generalizing s U k with
  | nil => exact ⟨s.freeCount, rfl, h⟩
  | cons q sd ih =>
    obtain ⟨n, bits⟩ := q
    have hone : ∀ det xs, ∃ n, (s.oneOf det xs).2 = { s with freeCount := n } := by
      intro det xs
      cases xs with
      | nil => exact ⟨s.freeCount, rfl⟩
      | cons x xs =>
        unfold State.oneOf
        dsimp only
        split
        · exact ⟨s.freeCount, rfl⟩
        · cases det
          · exact ⟨s.freeCount + 1, rfl⟩
          · exact ⟨s.freeCount, rfl⟩
    obtain ⟨m, hm⟩ := hone (s.launch U.launch).recd.det (vs.filterMap (·[k]?))
    unfold State.writeSAll
    split
    · rename_i s' hs
      rw [hs] at hm
      subst hm
      exact ih (k + 1) _ U h
    · rename_i v s' hs
      rw [hs] at hm
      subst hm
      exact ih (k + 1) _ _ (teamKept_writeS h n bits v)

/-- A bound team that parks whole. -/
theorem teamKept_parkAll {c : Cur} {T : Team} {f : Thread → Thread} (hb : T.bound = true) (hf : ∀ th ∈ T.threads, boundKept c th (f th))
    (slot : Nat) (r : Record) (inside : Bool) : teamKept c T ((T.mapThreads f).parkAll c.entry slot r inside) := by
  have hpark : (T.mapThreads f).parkAll c.entry slot r inside
      = T.mapThreads fun th => if (f th).entry == some c.entry && (f th).status != .exited then (f th).park r slot inside else f th := by
    simp only [Team.parkAll, Team.mapThreads, List.map_map, Function.comp_def]
  rw [hpark]
  exact teamKept_mapThreads fun th hth => hb ▸ threadKept_parkBound (hf th hth) r slot inside

/-- What one team does in an instruction. -/
theorem runTeam_kept {s : State} {c : Cur} {g : Guard} {keep : Bool} {f : Team → Thread → Lane} (hf : KeepsLanes f) (T : Team) :
    teamKept c T (s.runTeam c g keep f T).1 := by
  unfold State.runTeam
  dsimp only
  split
  · rename_i r hb _
    rw [List.map_map]
    refine teamKept_parkAll hb (fun th _ => ?_) c.slot r true
    dsimp only [Function.comp]
    by_cases hlane : (th.issuing c.entry && th.passes g) = true
    · have hissuing : th.issuing c.entry = true := (Bool.and_eq_true _ _ ▸ hlane).1
      have hkept := hf T th
      rw [if_pos hlane]
      cases hout : f T th with
      | done t vs =>
        rw [hout] at hkept
        cases keep
        · exact boundKept_refl c th
        · exact boundKept_of_issuing hissuing hkept
      | trap t x => rw [hout] at hkept; exact boundKept_of_issuing hissuing hkept
      | wait t n => exact boundKept_refl c th
    · rw [if_neg hlane]
      exact boundKept_refl c th
  · rw [List.map_map]
    refine teamKept_mapThreads (fun th _ => ?_)
    rw [Function.comp_apply]
    by_cases hlane : (th.issuing c.entry && th.passes g) = true
    · have hissuing : th.issuing c.entry = true := (Bool.and_eq_true _ _ ▸ hlane).1
      have hkept := hf T th
      rw [if_pos hlane]
      cases hout : f T th with
      | done t vs => rw [hout] at hkept; exact threadKept_of_issuing hissuing (hkept.trans (laneKept_hold t _))
      | trap t x => rw [hout] at hkept; exact threadKept_of_issuing hissuing (hkept.trans (laneKept_park t _ _ _))
      | wait t n => rw [hout] at hkept; exact threadKept_of_issuing hissuing (hkept.trans (laneKept_hold t _))
    · rw [if_neg hlane]
      exact threadKept_refl c _ th

/-! ### The module -/

/-- Nothing of the module changes but its teams and the counter of free values, and every team is kept. -/
def Framed (c : Cur) (s t : State) : Prop :=
  t = { s with teams := t.teams, freeCount := t.freeCount } ∧ List.Forall₂ (teamKept c) s.teams t.teams

theorem framed_refl (c : Cur) (s : State) : Framed c s s := ⟨rfl, List.forall₂_same.2 fun T _ => teamKept_refl c T⟩

theorem framed_mapTeams {c : Cur} {s : State} {f : Team → Team} (h : ∀ T ∈ s.teams, teamKept c T (f T)) : Framed c s (s.mapTeams f) :=
  ⟨rfl, List.forall₂_map_right_iff.2 (List.forall₂_same.2 h)⟩

/-- The lanes that issue and pass the guard each become what a lane may make of its thread. -/
theorem framed_mapExecuting {c : Cur} {s : State} {g : Guard} {f : Team → Thread → Thread} (hf : ∀ T th, LaneKept th (f T th)) :
    Framed c s (s.mapTeams fun T => T.mapThreads fun th => if th.issuing c.entry && th.passes g then f T th else th) := by
  refine framed_mapTeams fun T _ => teamKept_mapThreads fun th _ => ?_
  split
  · rename_i hlane
    exact threadKept_of_issuing (Bool.and_eq_true _ _ ▸ hlane).1 (hf T th)
  · exact threadKept_refl c _ th

theorem framed_groupFaultWith {c : Cur} {s : State} (hc : s.cur = some c) (x : Trap) (f : Record → Record) (inside : Bool) :
    Framed c s (s.groupFaultWith x f inside) := by
  unfold State.groupFaultWith
  rw [hc]
  refine framed_mapTeams fun T _ => ?_
  split
  · rename_i th0 rest hb _
    have hpark := teamKept_parkAll (f := id) hb (fun th _ => boundKept_refl c th) c.slot (f (s.record T th0 th0.clause c.slot true x)) inside
    rwa [show T.mapThreads id = T by simp [Team.mapThreads]] at hpark
  · refine teamKept_mapThreads fun th _ => ?_
    split
    · rename_i hissuing
      exact threadKept_of_issuing hissuing (laneKept_park th _ _ _)
    · exact threadKept_refl c _ th

theorem framed_markGroup {c : Cur} {s : State} (g : Guard) (h : Hold) : Framed c s (s.markGroup c g h) :=
  framed_mapExecuting (f := fun _ th => { th with hold := h }) fun _ th => laneKept_hold th h

/-- Teams that are put back one after another. -/
theorem foldl_append_teams_kept {c : Cur} {F : State → Team → State} {l : List Team}
    (hF : ∀ a, ∀ T ∈ l, ∃ U n, F a T = { a with teams := a.teams ++ [U], freeCount := n } ∧ teamKept c T U) (a : State) :
    ∃ Us n, l.foldl F a = { a with teams := a.teams ++ Us, freeCount := n } ∧ List.Forall₂ (teamKept c) l Us := by
  induction l generalizing a with
  | nil => exact ⟨[], a.freeCount, by simp, .nil⟩
  | cons T l ih =>
    obtain ⟨U, n, hstep, hU⟩ := hF a T List.mem_cons_self
    obtain ⟨Us, m, hrest, hUs⟩ := ih (fun a' T' h => hF a' T' (List.mem_cons_of_mem _ h)) (F a T)
    exact ⟨U :: Us, m, by rw [List.foldl_cons, hrest, hstep]; simp, .cons hU hUs⟩

/-- A module whose teams are put back one after another. -/
theorem framed_refill {c : Cur} {s : State} {F : State → Team → State}
    (hF : ∀ a, ∀ T ∈ s.teams, ∃ U n, F a T = { a with teams := a.teams ++ [U], freeCount := n } ∧ teamKept c T U) :
    Framed c s (s.teams.foldl F { s with teams := [] }) := by
  obtain ⟨Us, n, hfold, hUs⟩ := foldl_append_teams_kept hF { s with teams := [] }
  rw [hfold]
  exact ⟨rfl, hUs⟩

/-- An instruction whose lanes act each on its own thread. -/
theorem framed_perLane {c : Cur} {s : State} (hc : s.cur = some c) {f : Team → Thread → Lane} (hf : KeepsLanes f) (g : Guard)
    (sd : List (Nat × Nat)) (keep : Bool) : Framed c s (s.perLane g sd f keep) := by
  unfold State.perLane
  split
  · exact framed_refl c s
  · rename_i c' hc'
    obtain rfl : c' = c := Option.some.inj (hc'.symm.trans hc)
    split
    · rename_i n _
      refine framed_mapExecuting (f := fun T th => match f T th with
        | .wait t k => { t with hold := .at k }
        | _ => { th with hold := .at n }) fun T th => ?_
      have hkept := hf T th
      cases hout : f T th with
      | wait t k => rw [hout] at hkept; exact hkept.trans (laneKept_hold t _)
      | done t vs => exact laneKept_hold th _
      | trap t x => exact laneKept_hold th _
    · refine framed_refill fun a T _ => ?_
      have hran := runTeam_kept (s := s) (c := c') (g := g) (keep := keep) hf T
      generalize s.runTeam c' g keep f T = r at hran ⊢
      obtain ⟨U, vs⟩ := r
      obtain ⟨n, hstate, hteam⟩ := writeSAll_kept vs sd 0 a U hran
      exact ⟨_, n, congrArg (fun b : State => { b with teams := b.teams ++ [(a.writeSAll vs sd 0 U).2] }) hstate, hteam⟩

/-- An instruction's checks before any effect. -/
theorem framed_checked {c : Cur} {s : State} (hc : s.cur = some c) {k : State → State} (hk : Framed c s (k s)) (g : Guard) (regs : List Nat)
    (uni : List Field) : Framed c s (s.checked g regs uni k) := by
  unfold State.checked
  split
  · exact framed_groupFaultWith hc _ _ _
  · split
    · exact framed_groupFaultWith hc _ _ _
    · exact hk

theorem framed_issueWith {c : Cur} {s : State} (hc : s.cur = some c) {f : Team → Thread → Lane} (hf : KeepsLanes f) (g : Guard) (d : Dst)
    (w : Nat) (xs : List Field) (regs : List Nat) : Framed c s (s.issueWith g d w xs regs f) := by
  unfold State.issueWith
  exact framed_checked hc (framed_perLane hc (keepsLanes_withEcc hf) g _ false) g _ _

end Sys2Proof.Claims

namespace Sys2Proof.Claims
open Sys2Proof Sys2Proof.Machine

section
variable {c : Cur} {s : State} (hc : s.cur = some c)
include hc

/-! ### The shared forms of the integer family -/

theorem framed_issueWrite (g : Guard) (d : Dst) (w : Nat) (xs : List Field) (v : Team → Thread → Nat) :
    Framed c s (s.issue g d w xs fun T th => laneWrite th d w (v T th)) :=
  framed_issueWith hc (fun _ th => keepsLane_laneWrite (LaneKept.refl th) d w _) g d w xs []

theorem framed_alu1 (w : Nat) (g : Guard) (d : Dst) (a : Src) (f : BitVec w → BitVec w) : Framed c s (s.alu1 w g d a f) :=
  framed_issueWrite hc g d w _ _

theorem framed_alu2 (w : Nat) (g : Guard) (d : Dst) (a b : Src) (f : BitVec w → BitVec w → BitVec w) : Framed c s (s.alu2 w g d a b f) :=
  framed_issueWrite hc g d w _ _

theorem framed_predOp (g : Guard) (ps : List Nat) (n : Nat) (v : Thread → Bool) :
    Framed c s (s.predOp g ps fun th => th.setP n (v th)) := by
  unfold State.predOp
  exact framed_perLane hc (keepsLanes_withPreds fun _ th => keepsLane_done (laneKept_setP th n _) _) g [] false

theorem framed_divOp (g : Guard) (ty : Ty) (d : Dst) (a b : Src) (f : Nat → Nat → Nat) : Framed c s (s.divOp g ty d a b f) := by
  unfold State.divOp
  exact framed_checked hc (framed_perLane hc (keepsLanes_withEcc fun _ th => keepsLane_done (laneKept_await th d _ _ _ _ _ _ _) _) g [] false) g _ _

theorem framed_predFrom (g : Guard) (xs : List Field) (n : Nat) (v : Team → Thread → Bool) :
    Framed c s (s.predFrom g xs fun T th => th.setP n (v T th)) := by
  unfold State.predFrom
  exact framed_checked hc (framed_perLane hc (keepsLanes_withEcc fun _ th => keepsLane_done (laneKept_setP th n _) _) g [] false) g _ _

theorem framed_issuePredWrite (g : Guard) (d : Dst) (w : Nat) (xs : List Field) (ps : List Nat) (v : Team → Thread → Nat) :
    Framed c s (s.issue g d w xs (withPreds ps fun T th => laneWrite th d w (v T th))) := by
  unfold State.issue
  exact framed_issueWith hc (keepsLanes_withPreds fun _ th => keepsLane_laneWrite (LaneKept.refl th) d w _) g d w xs []

theorem framed_carryChain (sub : Bool) (g : Guard) (ty : Ty) (d : Dst) (a b : Src) (n : Nat) :
    Framed c s (s.carryChain sub g ty d a b n) := by
  unfold State.carryChain State.issue
  exact framed_issueWith hc (keepsLanes_withPreds fun _ th => keepsLane_laneWrite (laneKept_setP th n _) d _ _) g d _ _ []

theorem framed_afterIndex (g : Guard) (regs : List Nat) (i : Nat) {k : State → State} (hk : Framed c s (k s)) :
    Framed c s (s.afterIndex g regs i k) := by
  refine framed_checked hc ?_ g regs []
  split
  · exact framed_refl c s
  · rename_i c' hc'
    obtain rfl : c' = c := Option.some.inj (hc'.symm.trans hc)
    split
    · exact framed_markGroup g _
    · exact hk

theorem execSetix_framed (g : Guard) (i : Nat) (a : Src) : ∃ t, execSetix g i a s = .next t ∧ Framed c s t :=
  ⟨_, rfl, framed_checked hc (framed_perLane hc (keepsLanes_withEcc fun _ th =>
    keepsLane_trapIf (keepsLane_trapIf (keepsLane_done (laneKept_ix th _) _))) g [] false) g _ _⟩

theorem execMovx_framed (g : Guard) (ty : Ty) (i : Nat) (d : Dst) (a : Src) : ∃ t, execMovx g ty i d a s = .next t ∧ Framed c s t := by
  refine ⟨_, rfl, framed_afterIndex hc g _ i (framed_issueWith hc (fun T th => ?_) g d _ _ [])⟩
  split
  · exact keepsLane_trap th _
  · exact keepsLanes_withEcc (fun _ th => keepsLane_laneWrite (LaneKept.refl th) d _ _) T th

theorem execStx_framed (g : Guard) (ty : Ty) (i : Nat) (a b : Src) : ∃ t, execStx g ty i a b s = .next t ∧ Framed c s t := by
  refine ⟨_, rfl, framed_afterIndex hc g _ i (framed_perLane hc (keepsLanes_withEcc fun T th => ?_) g [] false)⟩
  split
  · exact keepsLane_trap th _
  · exact laneKept_writeDest th _ _ _

/-! ### The shared forms of the floating family -/

theorem framed_issueFloat (g : Guard) (d : Dst) (w : Nat) (xs : List Field) (r : Team → Thread → FRes) :
    Framed c s (s.issue g d w xs fun T th => floatWrite th d w (r T th)) :=
  framed_issueWith hc (fun _ th => keepsLane_floatWrite th d w _) g d w xs []

theorem framed_flt1 (t : Ty) (g : Guard) (d : Dst) (a : Src) (f : Nat → FRes) : Framed c s (s.flt1 t g d a f) :=
  framed_issueFloat hc g d _ _ _

theorem framed_flt2 (t : Ty) (g : Guard) (d : Dst) (a b : Src) (f : Nat → Nat → FRes) : Framed c s (s.flt2 t g d a b f) :=
  framed_issueFloat hc g d _ _ _

theorem framed_fltPair2 (t : Ty) (g : Guard) (d : Dst) (a b : Src) (f : Nat → Nat → FRes) : Framed c s (s.fltPair2 t g d a b f) :=
  framed_issueFloat hc g d _ _ _

theorem framed_fclass (t : Ty) (g : Guard) (d : Dst) (a : Src) : Framed c s (s.fclass t g d a) :=
  framed_issueWrite hc g d 32 _ _

theorem framed_fltOut (g : Guard) (d : Dst) (w : Nat) (xs : List Field) (r : Team → Thread → FRes) : Framed c s (s.fltOut g d w xs r) := by
  unfold State.fltOut
  exact framed_checked hc (framed_perLane hc (keepsLanes_withEcc fun _ th => keepsLane_done (laneKept_await th d _ _ _ _ _ _ _) _) g [] false) g _ _

theorem execFma_framed (g : Guard) (ty : Ty) (rm : Rm) (ftz pk : Bool) (d : Dst) (x y z : Src) :
    ∃ t, execFma g ty rm ftz pk d x y z s = .next t ∧ Framed c s t := by
  refine ⟨_, rfl, framed_issueWith hc (fun T th => ?_) g d _ _ []⟩
  cases pk <;> exact keepsLane_floatWrite th d _ _

theorem execFaddL_framed (g : Guard) (ty : Ty) (rm : Rm) (ftz pk : Bool) (d : Dst) (a b : Src) :
    ∃ t, execFaddL g ty rm ftz pk d a b s = .next t ∧ Framed c s t := by
  cases pk
  · exact ⟨_, rfl, framed_flt2 hc ty g d a b _⟩
  · exact ⟨_, rfl, framed_fltPair2 hc ty g d a b _⟩

theorem execFmulL_framed (g : Guard) (ty : Ty) (rm : Rm) (ftz pk : Bool) (d : Dst) (a b : Src) :
    ∃ t, execFmulL g ty rm ftz pk d a b s = .next t ∧ Framed c s t := by
  cases pk
  · exact ⟨_, rfl, framed_flt2 hc ty g d a b _⟩
  · exact ⟨_, rfl, framed_fltPair2 hc ty g d a b _⟩

theorem execFcmp_framed (g : Guard) (ty : Ty) (cc : FCond) (n : Nat) (a b : Src) :
    ∃ t, execFcmp g ty cc n a b s = .next t ∧ Framed c s t :=
  ⟨_, rfl, framed_checked hc (framed_perLane hc (keepsLanes_withEcc fun _ _ =>
    keepsLane_raising fun t h => keepsLane_done (h.trans (laneKept_setP t n _)) _) g [] false) g _ _⟩

theorem execFfrexp_framed (g : Guard) (ty : Ty) (d : Dst) (a : Src) (e : Dst) : ∃ t, execFfrexp g ty d a e s = .next t ∧ Framed c s t := by
  refine ⟨_, rfl, framed_checked hc (framed_perLane hc (keepsLanes_withEcc fun T th => keepsLane_raising fun t h => ?_) g _ false) g _ _⟩
  have hput : LaneKept th ((t.put d ty.opBits (frexpBits ty (readFlt (s.tickOf T) ty T th a)).1.bits).put e 32
      (frexpBits ty (readFlt (s.tickOf T) ty T th a)).2) := (h.trans (laneKept_put t d _ _)).trans (laneKept_put _ e _ _)
  dsimp only [keepsLane]
  split
  · exact hput.trans (laneKept_shiftY _ _)
  · exact hput

/-! ### The shared forms of the cross-lane family -/

theorem framed_xl (g : Guard) (d : Dst) (w : Nat) (xs uni : List Field) (pre : Team → List Thread → Option Trap)
    (reads : Team → List Thread → Thread → List (Thread × Field)) {f : Team → List Thread → Thread → Lane}
    (hf : ∀ T lanes th, keepsLane th (f T lanes th)) (keep : Bool) : Framed c s (s.xl g d w xs uni pre reads f keep) := by
  refine framed_checked hc ?_ g _ _
  split
  · exact framed_groupFaultWith hc _ _ _
  · refine framed_perLane hc (fun T th => ?_) g _ keep
    split
    · exact keepsLane_trap th _
    · exact hf T _ th

theorem framed_shuffle (g : Guard) (d : Dst) (a b : Src) (src : Nat → Nat → Int) : Framed c s (s.shuffle g d a b src) := by
  unfold State.shuffle
  exact framed_xl hc g d 32 _ _ _ _ (fun _ _ th => keepsLane_laneWrite (LaneKept.refl th) d 32 _) false

theorem framed_voteP (g : Guard) (n : Nat) (xs : List Field) (ps : List Nat) (f : Team → List Thread → Bool) :
    Framed c s (s.voteP g n xs ps f) := by
  unfold State.voteP
  exact framed_xl hc g _ 32 _ _ _ _ (fun _ _ th => keepsLane_afterPreds (keepsLane_done (laneKept_setP th n _) _)) false

theorem framed_reduce (g : Guard) (op : RedOp) (t : Ty) (rm : Rm) (d : Dst) (a : Src) (set : Nat → Nat → Bool) :
    Framed c s (s.reduce g op t rm d a set) := by
  unfold State.reduce
  exact framed_xl hc g d _ _ _ _ _ (fun _ _ _ => keepsLane_raising fun _ h => keepsLane_laneWrite h d _ _) true

theorem framed_zipOp (unzip : Bool) (g : Guard) (ty : Ty) (k : Nat) (d : Dst) (a : Src) : Framed c s (s.zipOp unzip g ty k d a) := by
  unfold State.zipOp
  exact framed_xl hc g d _ _ _ _ _ (fun _ _ th => keepsLane_done ((laneKept_put th d _ _).trans (laneKept_shiftY _ _)) _) false

end

end Sys2Proof.Claims

namespace Sys2Proof.Claims
open Sys2Proof Sys2Proof.Machine

/-! ### The bound-limb family, where teams have names of their own -/

/-- No two teams have the same launch, workgroup and index, by which the model finds a team. -/
def namesApart (s : State) : Prop := ∀ T ∈ s.teams, ∀ U ∈ s.teams, U.is T.launch T.wg T.idx = true → U = T

/-- A bound team that parks with a deferred fault in place of an instruction (13 R241). -/
theorem framed_parkLimb {c : Cur} {s : State} (hn : namesApart s) {T : Team} (hT : T ∈ s.teams) (hb : T.bound = true) (r : Record) :
    Framed c s (s.parkLimb T c r) := by
  refine framed_mapTeams fun U hU => ?_
  split
  · rename_i hname
    rw [hn T hT U hU hname]
    exact teamKept_parkAll hb (fun th _ => boundKept_erase c th r) c.slot r true
  · exact teamKept_refl c U

theorem bound_of_limbCheck {T : Team} {lanes : List Thread} {named : List Src} (h : limbCheck T lanes named = .ok true) : T.bound = true := by
  unfold limbCheck at h
  split at h
  · simp at h
  · split at h
    · simp at h
    · rename_i hb
      simpa using hb

section
variable {c : Cur} {s : State} (hc : s.cur = some c) (hn : namesApart s)
include hc hn

theorem framed_limb (g : Guard) (dn : List Src) (named : List (Nat × Src)) (others uni : List Field) (d : Dst) (w : Nat)
    {f : Team → Thread → Lane} (hf : KeepsLanes f) (keep : Bool) : Framed c s (s.limb g dn named others uni d w f keep) := by
  unfold State.limb
  refine framed_checked hc ?_ g _ _
  split
  · exact framed_refl c s
  · rename_i c' hc'
    obtain rfl : c' = c := Option.some.inj (hc'.symm.trans hc)
    split
    · exact framed_refl c' s
    · rename_i T rest hgroup
      have hT : T ∈ s.teams := (List.mem_filter.1 (hgroup ▸ List.mem_cons_self : T ∈ s.groupTeams c'.entry)).1
      split
      · exact framed_groupFaultWith hc _ _ _
      · exact framed_refl c' s
      · rename_i hcheck
        split
        · exact framed_perLane hc (fun _ th => keepsLane_wait th 1) g [] false
        · split
          · exact framed_parkLimb hn hT (bound_of_limbCheck hcheck) _
          · exact framed_perLane hc (keepsLanes_withEcc hf) g _ keep

theorem framed_limbWrite (g : Guard) (d : Dst) (srcs : List (Nat × Src)) (f : Team → Int) : Framed c s (s.limbWrite g d srcs f) :=
  framed_limb hc hn g _ srcs _ _ _ _ (fun T th => keepsLane_writeLimb T th d _) false

theorem framed_limbShift (g : Guard) (d : Dst) (a b : Src) (f : Team → Int → Nat → Int) : Framed c s (s.limbShift g d a b f) :=
  framed_limb hc hn g _ _ _ _ _ _ (fun T th => keepsLane_writeLimb T th d _) false

theorem framed_limbSign (g : Guard) (d : Dst) (srcs : List (Nat × Src)) (f : Team → Int) : Framed c s (s.limbSign g d srcs f) :=
  framed_limb hc hn g _ srcs _ _ d 32 (fun _ th => keepsLane_laneWrite (LaneKept.refl th) d 32 _) false

theorem execWmacF64_framed (g : Guard) (d : Dst) (a b : Src) : ∃ t, execWmacF64 g d a b s = .next t ∧ Framed c s t := by
  refine ⟨_, rfl, framed_limb hc hn g _ _ _ _ _ _ (fun T th => ?_) false⟩
  dsimp only
  split
  · exact keepsLane_trap th _
  · exact keepsLane_trap th _
  · exact keepsLane_trapIf (keepsLane_writeLimb T th d _)

theorem execWnorm_framed (g : Guard) (rm : Rm) (d : Dst) (a : Src) : ∃ t, execWnorm g rm d a s = .next t ∧ Framed c s t :=
  ⟨_, rfl, framed_limb hc hn g _ _ _ _ d 64 (fun _ th => keepsLane_floatWrite th d 64 _) true⟩

end

/-! ### The families -/

/-- The frame of the integer family (10 R186 to R204). -/
theorem intOp_framed {i : Instr} (hi : (intOp i).isSome = true) {s : State} {c : Cur} (hc : s.cur = some c) :
    ∃ t, exec i s = .next t ∧ Framed c s t := by
  cases i with
  | iaddI32 g d a b | isubI32 g d a b | iaddI64 g d a b | isubI64 g d a b | imulI32 g d a b | imulhiI32 g d a b | imulhiN32 g d a b
  | iminI32 g d a b | imaxI32 g d a b | iminN32 g d a b | imaxN32 g d a b | andB32 g d a b | orB32 g d a b | xorB32 g d a b
  | andnB32 g d a b | shl g d a b | shr g d a b | sar g d a b | rotl g d a b => exact ⟨_, rfl, framed_alu2 hc _ g d a b _⟩
  | popc g d a | clz g d a | ctz g d a | brev g d a | iabsI32 g d a | inegI32 g d a | mov g d a => exact ⟨_, rfl, framed_alu1 hc 32 g d a _⟩
  | iaddi g d a k | andi g d a k | ori g d a k | xori g d a k => exact ⟨_, rfl, framed_alu1 hc 32 g d a _⟩
  | pand g d a b | por g d a b | pxor g d a b => exact ⟨_, rfl, framed_predOp hc g _ d _⟩
  | pnot g d a => exact ⟨_, rfl, framed_predOp hc g _ d _⟩
  | movi g d k => exact ⟨_, rfl, framed_issueWrite hc g d 32 _ _⟩
  | imad g ty d a b e => exact ⟨_, rfl, framed_issueWrite hc g d _ _ _⟩
  | idiv g ty d a b | irem g ty d a b => exact ⟨_, rfl, framed_divOp hc g ty d a b _⟩
  | icmp g ty cc d a b => exact ⟨_, rfl, framed_predFrom hc g _ d _⟩
  | sel g ty d a b n => exact ⟨_, rfl, framed_issuePredWrite hc g d _ _ _ _⟩
  | lea g ty sh d a b => exact ⟨_, rfl, framed_issueWrite hc g d 64 _ _⟩
  | iaddc g ty d a b n | isubb g ty d a b n => exact ⟨_, rfl, framed_carryChain hc _ g ty d a b n⟩
  | iaddL g ty sat d a b => exact ⟨_, rfl, framed_issueWrite hc g d _ _ _⟩
  | bfe g ty d a b => exact ⟨_, rfl, framed_issueWrite hc g d _ _ _⟩
  | bfi g ty d a b e => exact ⟨_, rfl, framed_issueWrite hc g d _ _ _⟩
  | shf g ty right d a b e => exact ⟨_, rfl, framed_issueWrite hc g d _ _ _⟩
  | setix g n a => exact execSetix_framed hc g n a
  | movx g ty n d a => exact execMovx_framed hc g ty n d a
  | stx g ty n a b => exact execStx_framed hc g ty n a b
  | pmovTo g d a => exact ⟨_, rfl, framed_predFrom hc g _ d _⟩
  | pmovFrom g d a => exact ⟨_, rfl, framed_issuePredWrite hc g d 32 _ _ _⟩
  | icvt g ty sty sat d a => exact ⟨_, rfl, framed_issueWrite hc g d _ _ _⟩
  | _ => nomatch hi

/-- The frame of the floating family (11 R205 to R223). -/
theorem fltOp_framed {i : Instr} (hi : (fltOp i).isSome = true) {s : State} {c : Cur} (hc : s.cur = some c) :
    ∃ t, exec i s = .next t ∧ Framed c s t := by
  cases i with
  | faddF64 g d a b | faddF32 g d a b | fsubF64 g d a b | fsubF32 g d a b | fmulF64 g d a b | fmulF32 g d a b | fminF64 g d a b
  | fminF32 g d a b | fmaxF64 g d a b | fmaxF32 g d a b => exact ⟨_, rfl, framed_flt2 hc _ g d a b _⟩
  | fabsF64 g d a | fabsF32 g d a | fnegF64 g d a | fnegF32 g d a | frcpF32 g d a | frsqF32 g d a | fexp2F32 g d a | flog2F32 g d a
  | fsinpiF32 g d a | fcospiF32 g d a | ftanhF32 g d a => exact ⟨_, rfl, framed_flt1 hc _ g d a _⟩
  | faddH2 g d a b | fmulH2 g d a b | faddB2 g d a b | fmulB2 g d a b => exact ⟨_, rfl, framed_fltPair2 hc _ g d a b _⟩
  | fclassF64 g d a | fclassF32 g d a => exact ⟨_, rfl, framed_fclass hc _ g d a⟩
  | fma g ty rm ftz pk d x y z => exact execFma_framed hc g ty rm ftz pk d x y z
  | faddL g ty rm ftz pk d a b => exact execFaddL_framed hc g ty rm ftz pk d a b
  | fmulL g ty rm ftz pk d a b => exact execFmulL_framed hc g ty rm ftz pk d a b
  | fdiv g ty rm ftz d a b => exact ⟨_, rfl, framed_fltOut hc g d _ _ _⟩
  | fsqrt g ty rm ftz d a => exact ⟨_, rfl, framed_fltOut hc g d _ _ _⟩
  | fcmp g ty cc n a b => exact execFcmp_framed hc g ty cc n a b
  | fcvt g ty sty rm sat d a => exact ⟨_, rfl, framed_issueFloat hc g d _ _ _⟩
  | frnd g ty rm d a => exact ⟨_, rfl, framed_flt1 hc ty g d a _⟩
  | fcvti g ty sty rm d a => exact ⟨_, rfl, framed_issueFloat hc g d _ _ _⟩
  | icvtf g ty sty rm d a => exact ⟨_, rfl, framed_issueFloat hc g d _ _ _⟩
  | fscale g ty rm d a b => exact ⟨_, rfl, framed_issueFloat hc g d _ _ _⟩
  | ffrexp g ty d a e => exact execFfrexp_framed hc g ty d a e
  | fpack g ty sty rm sat d a b => exact ⟨_, rfl, framed_issueFloat hc g d 32 _ _⟩
  | funpack g ty sty d a b => exact ⟨_, rfl, framed_issueFloat hc g d _ _ _⟩
  | fdot2 g ty rm d a b e => exact ⟨_, rfl, framed_issueFloat hc g d 32 _ _⟩
  | _ => nomatch hi

/-- The frame of the cross-lane family (12 R224 to R234). -/
theorem xlOp_framed {i : Instr} (hi : (xlOp i).isSome = true) {s : State} {c : Cur} (hc : s.cur = some c) :
    ∃ t, exec i s = .next t ∧ Framed c s t := by
  cases i with
  | shflIdx g d a b | shflUp g d a b | shflDn g d a b | shflXor g d a b => exact ⟨_, rfl, framed_shuffle hc g d a b _⟩
  | voteAll g d a | voteAny g d a => exact ⟨_, rfl, framed_voteP hc g d _ _ _⟩
  | voteEq g d a => exact ⟨_, rfl, framed_voteP hc g d _ _ _⟩
  | voteBallot g d a => exact ⟨_, rfl, framed_xl hc g d 32 _ _ _ _ (fun _ _ th =>
      keepsLane_afterPreds (keepsLane_laneWrite (LaneKept.refl th) d 32 _)) false⟩
  | lbcast g d a b => exact ⟨_, rfl, framed_xl hc g d 32 _ _ _ _ (fun _ _ th => keepsLane_laneWrite (LaneKept.refl th) d 32 _) false⟩
  | matchLanes g d a => exact ⟨_, rfl, framed_xl hc g d 32 _ _ _ _ (fun _ _ th => keepsLane_laneWrite (LaneKept.refl th) d 32 _) false⟩
  | redAddI32 g d a | redAddF32 g d a | scanAddI32 g d a => exact ⟨_, rfl, framed_reduce hc g _ _ _ d a _⟩
  | red g op ty rm d a => exact ⟨_, rfl, framed_reduce hc g op ty rm d a _⟩
  | scan g op ty rm excl d a => exact ⟨_, rfl, framed_reduce hc g op ty rm d a _⟩
  | zip g ty k d a => exact ⟨_, rfl, framed_zipOp hc false g ty k d a⟩
  | unzip g ty k d a => exact ⟨_, rfl, framed_zipOp hc true g ty k d a⟩
  | _ => nomatch hi

/-- The frame of the bound-limb family (13 R239 to R247). -/
theorem limbOp_framed {i : Instr} (hi : (limbOp 32 i).isSome = true) {s : State} {c : Cur} (hc : s.cur = some c) (hn : namesApart s) :
    ∃ t, exec i s = .next t ∧ Framed c s t := by
  cases i with
  | wadd g d a b | wsub g d a b => exact ⟨_, rfl, framed_limbWrite hc hn g d _ _⟩
  | wneg g d a => exact ⟨_, rfl, framed_limbWrite hc hn g d _ _⟩
  | wclr g d => exact ⟨_, rfl, framed_limbWrite hc hn g d _ _⟩
  | wshl g d a b | wshr g d a b => exact ⟨_, rfl, framed_limbShift hc hn g d a b _⟩
  | wsign g d a => exact ⟨_, rfl, framed_limbSign hc hn g d _ _⟩
  | wcmp g d a b => exact ⟨_, rfl, framed_limbSign hc hn g d _ _⟩
  | wmacF64 g d a b => exact execWmacF64_framed hc hn g d a b
  | wnorm g rm d a => exact execWnorm_framed hc hn g rm d a
  | _ => nomatch hi

/-- The frame that O54 states, in every state for an instruction that is none of the bound-limb family, and for one of that family where
teams have names of their own. -/
theorem registerOp_framed {i : Instr} (hi : registerOp i = true) {s t : State} {c : Cur} (hc : s.cur = some c)
    (hn : (limbOp 32 i).isSome = true → namesApart s) (ht : exec i s = .next t) : Framed c s t := by
  have hframe : ∃ u, exec i s = .next u ∧ Framed c s u := by
    simp only [registerOp, Bool.or_eq_true] at hi
    obtain ((hint | hflt) | hxl) | hlimb := hi
    · exact intOp_framed hint hc
    · exact fltOp_framed hflt hc
    · exact xlOp_framed hxl hc
    · exact limbOp_framed hlimb hc (hn hlimb)
  obtain ⟨u, hu, hframed⟩ := hframe
  obtain rfl : u = t := by injection hu.symm.trans ht
  exact hframed

end Sys2Proof.Claims

/-!
A module in which two teams have one name, the launch, the workgroup and the index by which the model finds a team. No hypothesis
of the frame of the register instructions (O54) excludes it, and there the frame fails.
-/

namespace Sys2Proof.Claims
open Sys2Proof Sys2Proof.Machine

/-- A deferred machine check that came back with an outstanding result for v1. -/
def owedForV1 : Record := { cause := 0x090, mc := true, defd := true, dst := some (.v 1, 32) }

/-- A bound team whose one thread issues and owes that fault. -/
def boundTwin : Team :=
  { launch := 0, wg := 0, idx := 0, width := 16, core := 0, slice := 0, span := 0, block := 0, bsize := 16, blc := 0x80000000
    threads := [{ lane := 0, entry := some 0, defer := [owedForV1] }] }

/-- A team of the same name that is not bound; its one thread stands in no entry and owes a fault of its own, with the same record. -/
def looseTwin : Team := { boundTwin with blc := 0, threads := [{ lane := 0, defer := [owedForV1] }] }

/-- A module with both, the bound one issuing. -/
def twins : State := { State.reset with teams := [boundTwin, looseTwin], cur := some ⟨0, 0⟩ }

/-- The module without the loose team. -/
def boundTwinAlone : State := { twins with teams := [boundTwin] }

/-- Alone, the bound team takes the same fault in the same place, and the frame holds. -/
theorem framed_boundTwinAlone : Framed ⟨0, 0⟩ boundTwinAlone (boundTwinAlone.parkLimb boundTwin ⟨0, 0⟩ owedForV1) := by
  have hnames : namesApart boundTwinAlone := by
    intro T hT U hU _
    exact (List.mem_singleton.1 hU).trans (List.mem_singleton.1 hT).symm
  exact registerOp_framed (i := .wneg .always (.v 0) (.v 1)) rfl rfl (fun _ => hnames) rfl

/-- The loose team once the fault has been taken from it. -/
def looseTwinAfter : Team := { looseTwin with threads := [{ lane := 0 }] }

/-- wneg of v1 parks the bound team with the fault in place of the instruction (13 R241). -/
theorem limbWrite_twins (f : Team → Int) :
    twins.limbWrite .always (.v 0) [(2, .v 1)] f = twins.parkLimb boundTwin ⟨0, 0⟩ owedForV1 := rfl

/-- The fault leaves the threads of every team of the parked one's name, so the loose team's too. -/
theorem parkLimb_twins : (twins.parkLimb boundTwin ⟨0, 0⟩ owedForV1).teams
    = [(boundTwin.mapThreads fun th => { th with defer := [] }).parkAll 0 0 owedForV1, looseTwinAfter] := by decide +kernel

/-- A team that is not bound keeps what its threads owe, so the loose team is not kept. -/
theorem not_teamKept_looseTwin : ¬ teamKept ⟨0, 0⟩ looseTwin looseTwinAfter := by
  rintro ⟨-, -, -, hthreads⟩
  cases hthreads with
  | cons hthread _ =>
    obtain ⟨-, -, -, -, -, -, -, -, -, -, -, -, -, -, -, -, hunbound, -⟩ := hthread
    obtain ⟨hdefer, -⟩ := hunbound (by decide)
    exact absurd hdefer (by decide)

/-- Refutes O54: a bound team that parks with a deferred fault in place of an instruction is found by its name, and the statement
does not say that teams have names of their own; in `twins` an unbound team of that name loses a fault that it owes. -/
theorem not_registerInstructionsFrame : ¬ Obligations.RegisterInstructionsFrame := by
  unfold Obligations.RegisterInstructionsFrame
  intro h
  have hexec : exec (.wneg .always (.v 0) (.v 1)) twins = .next (twins.parkLimb boundTwin ⟨0, 0⟩ owedForV1) :=
    congrArg Host.Outcome.next (limbWrite_twins _)
  obtain ⟨-, hteams⟩ := h (.wneg .always (.v 0) (.v 1)) rfl rfl twins _ ⟨0, 0⟩ rfl hexec
  rw [parkLimb_twins] at hteams
  cases hteams with
  | cons _ hrest =>
    cases hrest with
    | cons hloose _ => exact not_teamKept_looseTwin hloose

end Sys2Proof.Claims

/-!
Every step keeps memory in its canonical form (O52). A state is `Formed` where its memory has the form. Each function of the model gets one
lemma: `f_mem` where it leaves memory alone, `f_formed` where it writes memory only through functions that keep the form. Outcomes of lanes,
accesses, copies, packets and mailbox requests are `Formed` where every state in them is. In this part: the lanes of an instruction and writes at a home.
-/

namespace Sys2Proof.Machine
open Sys2Proof

/-- The module's memory has the canonical form. -/
abbrev Formed (s : State) : Prop := Memory.wf s.mem = true

/-- Every state that a lane of an instruction may leave has the form. -/
def LaneOut.Formed : LaneOut → Prop
  | .done s | .trap s _ | .wait s _ => Machine.Formed s

theorem Formed.of_eq {s t : State} (h : Formed s) (ht : t.mem = s.mem) : Formed t := (congrArg Memory.wf ht).trans h

theorem foldl_mem {α : Type} {f : State → α → State} (hf : ∀ a x, (f a x).mem = a.mem) (l : List α) (s : State) :
    (l.foldl f s).mem = s.mem := by
  induction l generalizing s with
  | nil => rfl
  | cons x l ih => exact (ih (f s x)).trans (hf s x)

theorem foldl_formed {α : Type} {f : State → α → State} (hf : ∀ a x, Formed a → Formed (f a x)) (l : List α) {s : State} (h : Formed s) :
    Formed (l.foldl f s) :=
  List.foldlRecOn (motive := Formed) l f h fun a ha x _ => hf a x ha

@[simp] theorem State.deliver_mem (s : State) (die r) : (s.deliver die r).mem = s.mem := by
  grind [State.deliver, State.pick_mem, State.updThread_mem]

@[simp] theorem State.groupFaultWith_mem (s : State) (x f inside) : (s.groupFaultWith x f inside).mem = s.mem := by
  unfold State.groupFaultWith
  split <;> rfl

@[simp] theorem State.groupFault_mem (s : State) (x) : (s.groupFault x).mem = s.mem := s.groupFaultWith_mem x id true

@[simp] theorem State.groupFaultAt_mem (s : State) (x lane) : (s.groupFaultAt x lane).mem = s.mem := s.groupFaultWith_mem x _ true

@[simp] theorem State.oneOf_mem (s : State) (det vs) : (s.oneOf det vs).2.mem = s.mem := by
  cases vs with
  | nil => rfl
  | cons v vs => cases det <;> grind [State.oneOf, State.pick_mem]

@[simp] theorem State.writeSAll_mem (s : State) (vs sd k T) : (s.writeSAll vs sd k T).1.mem = s.mem := by
  induction sd generalizing s k T with
  | nil => rfl
  | cons q sd ih => grind [State.writeSAll, State.oneOf_mem]

@[simp] theorem State.perLane_mem (s : State) (g sd f keep) : (s.perLane g sd f keep).mem = s.mem := by
  unfold State.perLane
  split
  · rfl
  · split
    · rfl
    · exact foldl_mem (fun a T => by simp) s.teams { s with teams := [] }

@[simp] theorem interleave_mem (n s ls) : (interleave n s ls).1.mem = s.mem := by
  induction n generalizing s ls with
  | zero => rfl
  | succ n ih => grind [interleave, State.pick_mem]

@[simp] theorem State.laneOrder_mem (s : State) (e g) : (s.laneOrder e g).1.mem = s.mem := interleave_mem _ s _

@[simp] theorem State.parkBound_mem (s0 s : State) (c T r inside) : (s0.parkBound s c T r inside).mem = s.mem := rfl

@[simp] theorem State.updEarlier_mem (s : State) (r since f) : (s.updEarlier r since f).mem = s.mem := by
  grind [State.updEarlier, State.updThread_mem]

theorem State.performLane_formed {s : State} (h : Formed s) (s0 c) {f : State → Team → Thread → LaneOut}
    (hf : ∀ t T th, Formed t → (f t T th).Formed) (r ordered) : Formed (s.performLane s0 c f r ordered) := by
  unfold State.performLane
  split
  · exact h
  · rename_i T th _
    split
    · grind [LaneOut.Formed, State.updThread_mem, State.parkBound_mem]
    · exact h

@[simp] theorem State.noteBefore_mem (s s0 : State) (c) : (s.noteBefore s0 c).mem = s.mem := by
  grind [State.noteBefore, State.setEntry_mem]

theorem State.foldLanes_formed {s : State} (h : Formed s) (g) {f : State → Team → Thread → LaneOut}
    (hf : ∀ t T th, Formed t → (f t T th).Formed) (ordered) : Formed (s.foldLanes g f ordered) := by
  unfold State.foldLanes
  split
  · exact h
  · rename_i c _
    exact (foldl_formed (fun a q ha => State.performLane_formed ha s c hf _ ordered) _ (h.of_eq (s.laneOrder_mem c.entry g))).of_eq
      (State.noteBefore_mem _ s c)

theorem State.perTeam_formed {s : State} (h : Formed s) (g) {f : State → Team → List Thread → State}
    (hf : ∀ t T ths, Formed t → Formed (f t T ths)) : Formed (s.perTeam g f) := by
  unfold State.perTeam
  split
  · exact h
  · refine foldl_formed (fun a T ha => ?_) _ h
    split
    · exact ha
    · exact hf _ _ _ ha

@[simp] theorem State.markTeam_mem (s : State) (T e g h) : (s.markTeam T e g h).mem = s.mem := rfl

@[simp] theorem State.markGroup_mem (s : State) (c g h) : (s.markGroup c g h).mem = s.mem := rfl

@[simp] theorem State.trapTeam_mem (s : State) (T c g x) : (s.trapTeam T c g x).mem = s.mem := rfl

theorem State.checked_formed {s : State} (h : Formed s) (g regs uni) {k : State → State} (hk : Formed (k s)) :
    Formed (s.checked g regs uni k) := by
  unfold State.checked
  split
  · exact h.of_eq (s.groupFault_mem _)
  · split
    · exact h.of_eq (s.groupFaultAt_mem _ _)
    · exact hk

theorem State.afterEcc_formed {s : State} (h : Formed s) (g xs) {k : State → State} (hk : ∀ t, Formed t → Formed (k t)) :
    Formed (s.afterEcc g xs k) := by
  unfold State.afterEcc
  split
  · exact hk s h
  · refine hk _ (foldl_formed (fun a q ha => ?_) _ h)
    split
    · exact State.performLane_formed (f := fun s _ _ => .trap s _) ha s _ (fun _ _ _ ht => ht) _ false
    · exact ha

theorem State.issueWith_formed {s : State} (h : Formed s) (g d wd xs regs f) : Formed (s.issueWith g d wd xs regs f) :=
  State.checked_formed h g _ _ (h.of_eq (s.perLane_mem g _ _ false))

theorem State.issueMem_formed {s : State} (h : Formed s) (g d wd xs uni) {f : State → Team → Thread → LaneOut}
    (hf : ∀ t T th, Formed t → (f t T th).Formed) (ordered) : Formed (s.issueMem g d wd xs uni f ordered) := by
  refine State.checked_formed h g _ _ (State.foldLanes_formed h g (fun t T th ht => ?_) ordered)
  split
  · exact ht
  · exact hf t T th ht

theorem State.putHome_formed {s : State} (h : Formed s) (loc b) : Formed (s.putHome loc b) := by
  unfold State.putHome
  split
  · exact Memory.wf_write h loc b
  · exact h

theorem State.putBytes_formed {s : State} (h : Formed s) (loc bs) : Formed (s.putBytes loc bs) := by
  induction bs generalizing s loc with
  | nil => exact h
  | cons b bs ih => exact ih (State.putHome_formed h loc b) (loc + 1)

@[simp] theorem State.freshSeal_mem (s : State) (sector) : (s.freshSeal sector).mem = s.mem := rfl

end Sys2Proof.Machine

/-!
The form of memory: the L2, translation, phases, the system registers, halts and accesses.
-/

namespace Sys2Proof.Machine
open Sys2Proof

@[simp] theorem State.l2Put_mem (s : State) (slice sector) : (s.l2Put slice sector).mem = s.mem := by
  grind [State.l2Put, State.pick_mem]

@[simp] theorem State.touchL2_mem (s : State) (die sector) : (s.touchL2 die sector).mem = s.mem := by
  grind [State.touchL2, State.l2Put_mem]

@[simp] theorem State.markL2_mem (s : State) (die sector) : (s.markL2 die sector).mem = s.mem := by
  unfold State.markL2
  split <;> simp

theorem State.putMarked_formed {s : State} (h : Formed s) (die loc bs) : Formed (s.putMarked die loc bs) :=
  (State.putBytes_formed h loc bs).of_eq (foldl_mem (fun a sec => a.markL2_mem die sec) _ _)

theorem State.writeHome_formed {s t : State} (h : Formed s) (loc bs die) (ht : s.writeHome loc bs die = some t) : Formed t := by
  simp only [State.writeHome] at ht
  split at ht
  · exact nomatch ht
  · obtain rfl := Option.some.inj ht
    refine (State.putBytes_formed h loc bs).of_eq (foldl_mem (fun a sec => ?_) _ _)
    split <;> simp

@[simp] theorem State.upperPut_mem (s : State) (u) : (s.upperPut u).mem = s.mem := rfl

@[simp] theorem State.walkTouch_mem (s : State) (die addr) : (s.walkTouch die addr).mem = s.mem := by
  unfold State.walkTouch
  split <;> simp

/-- A walk with any reading of the table entries. -/
def walkWith (entry : State → Nat → Nat → Except Walk (Nat × Bool)) (s : State) (die asid va : Nat) : Nat → Nat → State × Walk
  | 0, table =>
    let addr := table + va / 2 ^ 12 % 512 * 8
    match entry s 0 addr with
    | .error w => (s.walkTouch die addr, w)
    | .ok (e, _) => (s.walkTouch die addr, .leaf e 0 addr)
  | l + 1, table =>
    let tag := va / 2 ^ (12 + 9 * (l + 1))
    let addr := table + tag % 512 * 8
    let found := entry s (l + 1) addr
    let fresh := fun (s : State) => match found with
      | .error w => (s.walkTouch die addr, w)
      | .ok (e, true) => (s.walkTouch die addr, .leaf e (l + 1) addr)
      | .ok (e, false) =>
        let t := e / 2 ^ 12 % 2 ^ 40 * 4096
        walkWith entry ((s.walkTouch die addr).upperPut { die := die, asid := asid, level := l + 1, tag := tag, table := t }) die asid va l t
    match s.upperFind die asid (l + 1) tag with
    | none => fresh s
    | some t =>
      if found.toOption = some ((found.toOption.map (·.1)).getD 0, false) && (found.toOption.map (·.1)).getD 0 / 2 ^ 12 % 2 ^ 40 * 4096 = t then
        walkWith entry s die asid va l t
      else
        let (k, s1) := s.pick 2
        if k = 0 then walkWith entry s1 die asid va l t else fresh s1

theorem State.walk_eq_walkWith (s : State) (die asid va l table) : s.walk die asid va l table = walkWith State.walkEntry s die asid va l table := by
  delta State.walk walkWith
  rfl

theorem walkWith_mem (entry) (s : State) (die asid va l table) : (walkWith entry s die asid va l table).1.mem = s.mem := by
  induction l generalizing s table with
  | zero =>
    simp only [walkWith]
    split <;> simp
  | succ l ih =>
    unfold walkWith
    grind [State.walkTouch_mem, State.upperPut_mem, State.pick_mem]

@[simp] theorem State.walk_mem (s : State) (die asid va l table) : (s.walk die asid va l table).1.mem = s.mem :=
  (congrArg (fun r => r.1.mem) (s.walk_eq_walkWith die asid va l table)).trans (walkWith_mem State.walkEntry s die asid va l table)

@[simp] theorem State.tlbRoom_mem (s : State) (n set) : (s.tlbRoom n set).mem = s.mem := by
  grind [State.tlbRoom, State.pick_mem]

@[simp] theorem State.tlbPut_mem (s : State) (t) : (s.tlbPut t).mem = s.mem := by
  grind [State.tlbPut, State.tlbRoom_mem]

theorem State.setAD_formed {s : State} (h : Formed s) (a va wr t) : Formed (s.setAD a va wr t) := by
  grind [State.setAD, State.putMarked_formed]

theorem State.useTlb_formed {s : State} (h : Formed s) (a va dir noUser t) : Formed (s.useTlb a va dir noUser t).1 := by
  grind [State.useTlb, State.setAD_formed]

theorem State.translateTable_formed {s : State} (h : Formed s) (a va dir noUser) : Formed (s.translateTable a va dir noUser).1 := by
  grind [State.translateTable, State.walk_mem, State.useTlb_formed, State.tlbPut_mem]

theorem State.translatePage_formed {s : State} (h : Formed s) (a va dir noUser) : Formed (s.translatePage a va dir noUser).1 := by
  grind [State.translatePage, State.translateTable_formed]

theorem State.translate_formed {s : State} (h : Formed s) (a va dir noUser) : Formed (s.translate a va dir noUser).1 := by
  grind [State.translate, State.translatePage_formed]

@[simp] theorem State.tlbDrop_mem (s : State) (p u) : (s.tlbDrop p u).mem = s.mem := rfl

@[simp] theorem State.tlbPage_mem (s : State) (asid va) : (s.tlbPage asid va).mem = s.mem := rfl

@[simp] theorem State.tlbSpace_mem (s : State) (asid) : (s.tlbSpace asid).mem = s.mem := rfl

theorem State.fill_mem {s t : State} (core l loc) (ht : s.fill core l loc = some t) : t.mem = s.mem := by
  grind [State.fill, State.pick_mem, State.setView_mem, State.touchL2_mem]

@[simp] theorem State.noteShared_mem (s : State) (loc) : (s.noteShared loc).mem = s.mem := by
  unfold State.noteShared
  split <;> rfl

@[simp] theorem State.dropClean_mem (s : State) (sec) : (s.dropClean sec).mem = s.mem := rfl

theorem State.viewStore_formed {s t : State} (hs : Formed s) (core l h loc bs whole) (ht : s.viewStore core l h loc bs whole = some t) : Formed t := by
  cases h with
  | scratch => cases whole <;> grind [State.viewStore, State.writeHome_formed, State.freshSeal_mem]
  | uncached => grind [State.viewStore, State.setView_mem]
  | cached => grind [State.viewStore, State.setView_mem, State.touchL2_mem]

@[simp] theorem State.notify_mem (s : State) (cause arg) : (s.notify cause arg).mem = s.mem := rfl

@[simp] theorem State.serviceReq_mem (s : State) : (s.serviceReq).mem = s.mem := rfl

@[simp] theorem State.failLink_mem (s : State) (n) : (s.failLink n).mem = s.mem := rfl

@[simp] theorem State.sealNotice_mem (s : State) (sec core) : (s.sealNotice sec core).mem = s.mem := rfl

@[simp] theorem State.unitFails_mem (s : State) (die sub) : (s.unitFails die sub).mem = s.mem := by
  grind [State.unitFails, State.notify_mem, State.deliver_mem, State.serviceReq_mem]

theorem State.pinSector_formed {s : State} (h : Formed s) (die sec) : Formed (s.pinSector die sec) := by
  grind [State.pinSector, State.failLink_mem, State.putBytes_formed, State.unitFails_mem]

theorem State.writeBackSector_formed {s : State} (h : Formed s) (m core sec bad) : Formed (s.writeBackSector m core sec bad) := by
  grind [State.writeBackSector, State.freshSeal_mem, State.markL2_mem, State.putHome_formed, State.pinSector_formed, State.sealNotice_mem, foldl_formed, State.putHome_formed]

theorem State.writeSectorBacks_formed {s : State} (h : Formed s) (sec n ws) : Formed (s.writeSectorBacks sec n ws) := by
  induction n generalizing s ws with
  | zero => cases ws <;> exact h
  | succ n ih =>
    unfold State.writeSectorBacks
    grind [State.writeBackSector_formed, State.pick_mem]

theorem State.writeBackAll_formed {s : State} (h : Formed s) (ws) : Formed (s.writeBackAll ws) :=
  foldl_formed (fun _ sec ha => State.writeSectorBacks_formed ha sec _ _) _ h

theorem State.bytesHome_formed {s : State} (h : Formed s) (l cores sets) : Formed (s.bytesHome l cores sets) :=
  (State.writeBackAll_formed h _).of_eq (foldl_mem (fun a _ => a.setView_mem _) cores _)

@[simp] theorem shuffle_mem {α : Type} (n s) (l : List α) : (shuffle n s l).1.mem = s.mem := by
  induction n generalizing s l with
  | zero => rfl
  | succ n ih =>
    unfold shuffle
    grind [State.pick_mem]

@[simp] theorem State.cleanCore_mem (s : State) (core) : (s.cleanCore core).mem = s.mem := rfl

theorem State.traceFlush_formed {s : State} (h : Formed s) (d n) : Formed (s.traceFlush d n) := by
  induction n generalizing s with
  | zero => exact h
  | succ n ih =>
    simp only [State.traceFlush]
    split
    · exact h
    · split
      · exact h
      · refine ih (foldl_formed (fun a x ha => ?_) _ h)
        split
        · cases hw : a.writeHome x.1 x.2 d with
          | none => exact ha
          | some t => exact State.writeHome_formed ha _ _ _ hw
        · exact ha

theorem State.tracePut_formed {s : State} (h : Formed s) (d bs) : Formed (s.tracePut d bs) := by
  grind [State.tracePut, State.setDie_mem, State.traceFlush_formed]

theorem State.trace_formed {s : State} (h : Formed s) (d kind asid core q payload extra) : Formed (s.trace d kind asid core q payload extra) := by
  grind [State.trace, State.setDie_mem, State.tracePut_formed]

theorem State.haltRecord_formed {s : State} (h : Formed s) (T tick skid cause held) : Formed (s.haltRecord T tick skid cause held) := by
  grind [State.haltRecord, State.trace_formed]

theorem State.settleHalt_formed {s : State} (h : Formed s) (T) : Formed (s.settleHalt T) := by
  grind [State.settleHalt, State.haltRecord_formed, State.updTeam_mem]

theorem State.settleHalts_formed {s : State} (h : Formed s) : Formed (s.settleHalts) :=
  foldl_formed (fun _ T ha => State.settleHalt_formed ha T) _ h

theorem State.stopArrives_formed {s : State} (h : Formed s) (core) : Formed (s.stopArrives core) := by
  grind [State.stopArrives, State.mapTeams_mem, State.settleHalts_formed, State.setCore_mem]

@[simp] theorem State.broadcastStop_mem (s : State) (cores tick cause) : (s.broadcastStop cores tick cause).mem = s.mem :=
  foldl_mem (fun a _ => a.setCore_mem _) cores s

@[simp] theorem State.dbgHaltCmd_mem (s : State) (die v) : (s.dbgHaltCmd die v).mem = s.mem := s.broadcastStop_mem _ _ _

@[simp] theorem State.dbgResumeCmd_mem (s : State) (die v) : (s.dbgResumeCmd die v).mem = s.mem :=
  foldl_mem (fun a _ => a.setCore_mem _) _ s

@[simp] theorem State.dbgStepCmd_mem (s : State) (die v) : (s.dbgStepCmd die v).mem = s.mem := by
  unfold State.dbgStepCmd
  split <;> rfl

@[simp] theorem State.dbgCommand_mem (s : State) (die v) : (s.dbgCommand die v).mem = s.mem := by
  unfold State.dbgCommand
  split <;> simp

theorem State.l2Write_formed {s : State} (h : Formed s) (v) : Formed (s.l2Write v) := by
  grind [State.l2Write, State.pinSector_formed, State.sealNotice_mem, shuffle_mem]

@[simp] theorem State.mpostPop_mem (s : State) (core) : (s.mpostPop core).1.mem = s.mem := by
  grind [State.mpostPop, State.setCore_mem]

@[simp] theorem State.sysRead_mem (s : State) (core n) : (s.sysRead core n).1.mem = s.mem := by
  simp [State.sysRead, apply_ite Prod.fst, apply_ite State.mem]

@[simp] theorem State.armStop_mem (s : State) (v) : (s.armStop v).mem = s.mem := rfl

@[simp] theorem State.sysWrite_mem (s : State) (core n v) : (s.sysWrite core n v).mem = s.mem := by
  grind [State.sysWrite, State.armStop_mem, State.setCore_mem, State.setDie_mem]

theorem State.mmioPut_formed {s : State} (h : Formed s) (unit off v) : Formed (s.mmioPut unit off v) := by
  grind [State.mmioPut, State.sysWrite_mem, State.dbgCommand_mem, State.setDie_mem, State.l2Write_formed]

theorem State.mmioStore_formed {s : State} (h : Formed s) (unit off n v) : Formed (s.mmioStore unit off n v) := by
  grind [State.mmioStore, State.mmioPut_formed, State.sysRead_mem, State.l2Write_formed, foldl_formed]

@[simp] theorem State.tileStore_mem (s : State) (core entry hi v) : (s.tileStore core entry hi v).mem = s.mem := by
  grind [State.tileStore, State.setCore_mem]

@[simp] theorem State.windowPut_mem (s : State) (core off v) : (s.windowPut core off v).mem = s.mem := by
  grind [State.windowPut, State.setCore_mem, State.updThread_mem]

@[simp] theorem State.windowStore_mem (s : State) (core off n v) : (s.windowStore core off n v).mem = s.mem := by
  grind [State.windowStore, State.windowPut_mem, foldl_mem]

theorem State.placeStore_formed {s : State} (h : Formed s) (pa n v) : Formed (s.placeStore pa n v) := by
  grind [State.placeStore, State.mmioStore_formed, State.windowStore_mem, State.tileStore_mem]

@[simp] theorem State.wpStops_mem (s : State) (hits) : (s.wpStops hits).mem = s.mem := by
  refine foldl_mem (fun a x => ?_) hits s
  grind [State.broadcastStop_mem]

@[simp] theorem State.noteHit_mem (s : State) (T th va pa loc n rd) : (s.noteHit T th va pa loc n rd).mem = s.mem := by
  grind [State.noteHit, State.wpStops_mem, State.updEarlier_mem]

@[simp] theorem State.gondolaHit_mem (s : State) (asid va pa loc n rd) : (s.gondolaHit asid va pa loc n rd).mem = s.mem := by
  grind [State.gondolaHit, State.wpStops_mem]

/-- Every state that an access may leave has the form. -/
def AccRes.Formed : AccRes → Prop
  | .ok s _ _ | .trap s _ | .miss s _ | .wait s _ => Machine.Formed s

theorem State.perform_formed {s : State} (h : Formed s) (T a loc pa sh) : (s.perform T a loc pa sh).Formed := by
  cases hk : a.kind with
  | spill l sec w =>
    simp only [State.perform, hk]
    exact foldl_formed (fun b c hb => State.putMarked_formed hb _ _ _) _ (h.of_eq (s.freshSeal_mem _))
  | load sext => grind [State.perform, AccRes.Formed, State.fill_mem, State.touchL2_mem]
  | opmap m => grind [State.perform, AccRes.Formed, State.fill_mem, State.touchL2_mem, State.updTeam_mem]
  | store => grind [State.perform, AccRes.Formed, State.viewStore_formed]
  | _ => grind [State.perform, AccRes.Formed, State.touchL2_mem, State.writeHome_formed]

@[simp] theorem State.addReplay_mem (s : State) (q x) : (s.addReplay q x).mem = s.mem := by
  grind [State.addReplay]

@[simp] theorem State.enterReplay_mem (s : State) (T r a cause) : (s.enterReplay T r a cause).mem = s.mem := by
  grind [State.enterReplay, State.addReplay_mem]

@[simp] theorem State.areaSlot_mem (s : State) (l) : (s.areaSlot l).1.mem = s.mem := by
  grind [State.areaSlot, State.pick_mem]

/-- Every state in which making room may end has the form. -/
def MoveOut.Formed : MoveOut → Prop
  | .ok s | .trap s _ | .wait s => Machine.Formed s

theorem State.moveSector_formed {s : State} (h : Formed s) (T r a l sec) : (s.moveSector T r a l sec).Formed := by
  unfold State.moveSector
  grind [State.perform_formed, State.enterReplay_mem, State.translate_formed, State.areaSlot_mem, State.setView_mem, MoveOut.Formed, AccRes.Formed]

theorem State.evictLine_formed {s : State} (h : Formed s) (T r a l line) : (s.evictLine T r a l line).Formed := by
  refine List.foldlRecOn (motive := MoveOut.Formed) _ _ h fun o ho sec _ => ?_
  grind [MoveOut.Formed, State.moveSector_formed]

theorem State.l1Room_formed {s : State} (h : Formed s) (T r a loc) : (s.l1Room T r a loc).Formed := by
  grind [State.l1Room, State.evictLine_formed, State.pick_mem, MoveOut.Formed]

theorem State.hitAccess_formed {s2 : State} (h : Formed s2) (s T a loc pa v late) : (State.hitAccess s T a loc pa s2 v late).Formed := by
  grind [State.hitAccess, State.wpStops_mem, AccRes.Formed]

theorem State.accessAt_formed {s : State} (h : Formed s) (T r a loc pa sh) : (s.accessAt T r a loc pa sh).Formed := by
  simp only [State.accessAt]
  refine iteInduction (motive := AccRes.Formed) (fun _ => h) fun _ => ?_
  refine iteInduction (motive := AccRes.Formed) (fun _ => h) fun _ => ?_
  refine iteInduction (motive := AccRes.Formed) (fun _ => h) fun _ => ?_
  refine iteInduction (motive := AccRes.Formed) (fun _ => ?_) fun _ => ?_
  · grind [AccRes.Formed, State.hitAccess_formed, State.placeStore_formed]
  · split
    · exact h
    · exact h
    · refine iteInduction (motive := AccRes.Formed) (fun _ => h) fun _ => ?_
      refine iteInduction (motive := AccRes.Formed) (fun _ => h) fun _ => ?_
      grind [AccRes.Formed, MoveOut.Formed, State.hitAccess_formed, State.l1Room_formed, State.perform_formed, State.noteShared_mem]

theorem State.access_formed {s : State} (h : Formed s) (T r a) : (s.access T r a).Formed := by
  grind [State.access, State.accessAt_formed, State.translate_formed, AccRes.Formed]

end Sys2Proof.Machine

/-!
The form of memory: the work of a lane at memory, fetches, queues and the engines' front.
-/

namespace Sys2Proof.Machine
open Sys2Proof

theorem Formed.ite {s t : State} {p : Prop} [Decidable p] (hs : Formed s) (ht : Formed t) : Formed (if p then s else t) :=
  iteInduction (fun _ => hs) fun _ => ht

theorem LaneOut.formed_ite {a b : LaneOut} {p : Prop} [Decidable p] (ha : a.Formed) (hb : b.Formed) : (if p then a else b).Formed :=
  iteInduction (fun _ => ha) fun _ => hb

theorem State.memLane_formed {s : State} (h : Formed s) (s0 : State) {f T th} (hf : (f s T th : LaneOut).Formed) (access) : (s0.memLane f s T th access).Formed := by
  exact LaneOut.formed_ite h hf

@[simp] theorem State.giveResult_mem (s : State) (T r a val late) : (s.giveResult T r a val late).mem = s.mem := by
  unfold State.giveResult
  split <;> simp

@[simp] theorem State.putLate_mem (s : State) (T r a) : (s.putLate T r a).mem = s.mem := by
  unfold State.putLate
  generalize State.translate s (s.agent T) a.va (if a.kind.writes then Dir.wr else Dir.rd) = q
  simp only [apply_ite State.mem, ite_self]

theorem State.issueAccess_formed {s : State} (h : Formed s) (T th a) : (s.issueAccess T th a).Formed := by
  grind [State.issueAccess, State.enterReplay_mem, State.giveResult_mem, State.putLate_mem, State.access_formed, State.translate_formed, State.updThread_mem, State.updThread_mem, LaneOut.Formed, AccRes.Formed]

theorem State.mustReach_formed {s : State} (h : Formed s) (T th va write cause) : (s.mustReach T th va write cause).Formed :=
  h.of_eq (s.enterReplay_mem _ _ _ _)

theorem LaneOut.hit_formed {o : LaneOut} {f : State → State} (ho : o.Formed) (hf : ∀ t, (f t).mem = t.mem) : (o.hit f).Formed := by
  rcases o with t | ⟨t, x⟩ | ⟨t, r⟩
  · exact Formed.of_eq (s := t) (t := f t) ho (hf t)
  · exact Formed.of_eq (s := t) (t := f t) ho (hf t)
  · exact ho

theorem State.toHome_formed {s : State} (h : Formed s) (T th va n write) {k : State → Nat → LaneOut} (hk : ∀ t loc, Formed t → (k t loc).Formed) (noUser whole rd) : (s.toHome T th va n write k noUser whole rd).Formed := by
  have ht := State.translate_formed h (s.agent T) va (if write then .wr else .rd) noUser
  unfold State.toHome
  refine LaneOut.formed_ite h ?_
  split <;> rename_i he <;> rw [he] at ht
  · exact ht
  · exact State.mustReach_formed ht _ _ _ _ _
  · exact ht
  · split
    · exact ht
    · exact ht
    · refine LaneOut.formed_ite ht ?_
      refine LaneOut.formed_ite ht ?_
      exact LaneOut.hit_formed (hk _ _ (ht.of_eq (State.touchL2_mem _ _ _))) fun t => t.noteHit_mem _ _ _ _ _ _ _

theorem State.withQueue_formed {s : State} (h : Formed s) (T th sel) {k : State → EQueue → Nat → Nat → LaneOut} (hk : ∀ t q loc d, Formed t → (k t q loc d).Formed) (write) : (s.withQueue T th sel k write).Formed := by
  unfold State.withQueue
  split
  · exact h
  · refine LaneOut.formed_ite h ?_
    refine State.toHome_formed h _ _ _ _ _ (fun t loc ht => ?_) _ _ _
    exact LaneOut.formed_ite ht (hk _ _ _ _ ht)

@[simp] theorem State.snapshot_mem (s : State) (T sel pos va len) : (s.snapshot T sel pos va len).1.mem = s.mem := by
  grind [State.snapshot, State.pick_mem, State.translate_formed]

theorem State.writeHomeD_formed {s : State} (h : Formed s) (loc bs die) : Formed ((s.writeHome loc bs die).getD s) := by
  cases hw : s.writeHome loc bs die with
  | none => exact h
  | some t => exact State.writeHome_formed h _ _ _ hw

theorem State.append_formed {s : State} (h : Formed s) (T th sel e) {k : State → BitVec 32 → BitVec 64 → LaneOut} (hk : ∀ t p q, Formed t → (k t p q).Formed) : (s.append T th sel e k).Formed := by
  refine State.withQueue_formed h _ _ _ (fun t q loc d ht => ?_) _
  have hc : Formed (match th.claim with
      | some _ => t
      | none => ((t.putMarked (dieOf T.core) (loc + 12) (leBytes 4 ((th.claim.getD (BitVec.ofNat 32 (bitsAt d 127 96))).toNat + 1))).noteHit T th
          (t.descVa T.launch T.wg sel + 12) (loc % 2 ^ 52 + 12) (loc + 12) 4 false).updThread (T.ref th)
          (fun x => { x with claim := some (th.claim.getD (BitVec.ofNat 32 (bitsAt d 127 96))) })) := by
    split
    · exact ht
    · exact (State.putMarked_formed ht _ _ _).of_eq (by simp; rfl)
  refine LaneOut.formed_ite hc (State.toHome_formed hc _ _ _ _ _ (fun u slot hu => ?_) _ _ _)
  dsimp only
  refine hk _ _ _ ?_
  rw [Formed, State.updThread_mem, State.snapshot_mem]
  exact State.writeHomeD_formed hu _ _ _

@[simp] theorem State.post_mem (s : State) (l wg sel v) : (s.post l wg sel v).mem = s.mem := by
  grind [State.post, State.setWg_mem]

theorem State.waitSeq_formed {s : State} (h : Formed s) (T th seq) {k : State → LaneOut} (hk : ∀ t, Formed t → (k t).Formed) : (s.waitSeq T th seq k).Formed := by
  simp only [State.waitSeq]
  split
  · exact h
  · refine LaneOut.formed_ite h <| LaneOut.formed_ite ?_ ?_
    · split
      · exact LaneOut.formed_ite h <| hk s h
      · exact hk s h
    · refine State.toHome_formed h _ _ _ _ _ (fun t loc ht => ?_) _ _ _
      exact LaneOut.formed_ite ht (hk t ht)

@[simp] theorem State.fetchBytes_mem (s : State) (core loc) : (s.fetchBytes core loc).1.mem = s.mem := by
  grind [State.fetchBytes, State.pick_mem, State.setCore_mem, State.setCore_mem, State.pick_mem]

/-- Every state in which reading words may end has the form. -/
def Fetched.Formed : Fetched → Prop
  | .ok s _ | .trap s _ | .miss s _ _ | .wait s => Machine.Formed s

theorem State.fetchWord_formed {s : State} (h : Formed s) (a va) : (s.fetchWord a va).Formed := by
  grind [State.fetchWord, State.fetchBytes_mem, State.translate_formed, Fetched.Formed]

theorem State.fetchSlots_formed {s : State} (h : Formed s) (a base n acc) : (s.fetchSlots a base n acc).Formed := by
  induction n generalizing s acc with
  | zero => exact h
  | succ n ih =>
    unfold State.fetchSlots
    grind [Fetched.Formed, State.fetchWord_formed]

theorem State.fetchClause_formed {s : State} (h : Formed s) (a base) : (s.fetchClause a base).Formed := by
  grind [State.fetchClause, State.fetchSlots_formed, State.fetchWord_formed, Fetched.Formed]

theorem State.misplacedFault_formed {s : State} (h : Formed s) (i x) : Formed (s.misplacedFault i x) :=
  State.checked_formed h _ _ _ (h.of_eq (s.groupFault_mem x))

@[simp] theorem State.fetchMiss_mem (s : State) (c clause va cause reason) : (s.fetchMiss c clause va cause reason).mem = s.mem :=
  foldl_mem (fun a _ => a.enterReplay_mem _ _ _ _) _ s

theorem State.memory_formed {s : State} (h : Formed s) (g d wd xs sc mk) : Formed (s.memory g d wd xs sc mk) := by
  refine State.checked_formed h _ _ _ ?_
  split
  · exact h.of_eq (s.groupFault_mem _)
  · refine State.foldLanes_formed h _ (fun t T th ht => State.memLane_formed ht _ ?_ _) _
    split
    · exact ht
    · refine LaneOut.formed_ite ht ?_
      split
      · exact ht
      · exact State.issueAccess_formed ht _ _ _

theorem State.loadOp_formed {s : State} (h : Formed s) (g d w n sext a b) : Formed (s.loadOp g d w n sext a b) := State.memory_formed h _ _ _ _ _ _

theorem State.storeOp_formed {s : State} (h : Formed s) (g x w n a b) : Formed (s.storeOp g x w n a b) := State.memory_formed h _ _ _ _ _ _

@[simp] theorem State.fillD_mem (s : State) (core l loc) : ((s.fill core l loc).getD s).mem = s.mem := by
  cases hf : s.fill core l loc with
  | none => rfl
  | some t => exact State.fill_mem _ _ _ hf

theorem State.prefetchLane_formed {s : State} (h : Formed s) (T th va) : Formed (s.prefetchLane T th va) := by
  grind [State.prefetchLane, State.fill_mem, State.noteShared_mem, State.l1Room_formed, State.translate_formed, MoveOut.Formed, State.fillD_mem]

theorem State.arrive_formed {s : State} (h : Formed s) (T th sc) : (s.arrive T th sc).Formed := by
  grind [State.arrive, State.setWg_mem, State.updThread_mem, LaneOut.Formed, State.updThread_mem, State.setWg_mem]

theorem State.arrivals_formed {s : State} (h : Formed s) {f : State → Team → Thread → LaneOut} (hf : ∀ t T th, Formed t → (f t T th).Formed) : Formed (s.arrivals f) := by
  unfold State.arrivals
  split
  · exact h
  · rename_i c _
    refine foldl_formed (fun a q ha => ?_) _ (h.of_eq (s.laneOrder_mem c.entry .always))
    split
    · exact ha
    · rename_i T th _
      refine Formed.ite (?_) <| ha
      have hr : (if th.hold = .passed then f a T th else s.memLane f a T th).Formed :=
        LaneOut.formed_ite (hf a T th ha) <| State.memLane_formed ha s (hf a T th ha) false
      split
      · rename_i hd
        rwa [hd] at hr
      · exact State.performLane_formed ha _ _ (fun _ _ _ _ => hr) _ _

@[simp] theorem State.setTile_mem (s : State) (core n e) : (s.setTile core n e).mem = s.mem := rfl

theorem State.tileMove_formed {s : State} (h : Formed s) (T th fill t va b) : (s.tileMove T th fill t va b).Formed := by
  unfold State.tileMove
  split
  · exact h
  · refine LaneOut.formed_ite h ?_
    refine LaneOut.formed_ite h ?_
    refine LaneOut.formed_ite h ?_
    refine LaneOut.formed_ite h ?_
    refine LaneOut.formed_ite h ?_
    refine LaneOut.formed_ite h ?_
    refine LaneOut.formed_ite h ?_
    refine LaneOut.formed_ite h ?_
    exact State.append_formed h _ _ _ _ fun t p q ht => ht.of_eq (by simp)

theorem State.teamLane_formed {s : State} (h : Formed s) (g xs uni) {f : State → Team → Thread → LaneOut} (hf : ∀ t T th, Formed t → (f t T th).Formed) (mem) : Formed (s.teamLane g xs uni f mem) := by
  refine State.checked_formed h _ _ _ (State.perTeam_formed h g fun t T lanes ht => ?_)
  split
  · split
    · exact State.performLane_formed (f := fun s _ _ => .trap s _) ht _ _ (fun _ _ _ hu => hu) _ _
    · rename_i c th _ _ _ _
      have := hf t T th ht
      grind [LaneOut.Formed, State.markTeam_mem, State.trapTeam_mem]
  · exact ht

theorem State.tileOp_formed {s : State} (h : Formed s) (fill g t a b) : Formed (s.tileOp fill g t a b) :=
  State.teamLane_formed h _ _ _ (fun _ _ _ ht => State.tileMove_formed ht _ _ _ _ _ _) _

@[simp] theorem State.freeFrame_mem (s : State) : (s.freeFrame).2.mem = s.mem := rfl

@[simp] theorem State.setWorkq_mem (s : State) (k) : (s.setWorkq k).mem = s.mem := rfl

@[simp] theorem State.releaseSlots_mem (s : State) (die r th q) : (s.releaseSlots die r th q).mem = s.mem :=
  foldl_mem (fun a _ => a.setWorkq_mem _) _ s

@[simp] theorem State.give64_mem (s : State) (r d v slot f) : (s.give64 r d v slot f).mem = s.mem := rfl

theorem State.qpopLane_formed {s : State} (h : Formed s) (g d T th q) : (s.qpopLane g d T th q).Formed := by
  unfold State.qpopLane
  refine LaneOut.formed_ite h ?_
  refine LaneOut.formed_ite h ?_
  refine LaneOut.formed_ite h ?_
  have hs : Formed (if th.claim.isSome then s else s.releaseSlots (s.launch T.launch).die (T.ref th) th q) :=
    Formed.ite h <| h.of_eq (s.releaseSlots_mem _ _ _ _)
  generalize (if th.claim.isSome then s else s.releaseSlots (s.launch T.launch).die (T.ref th) th q) = s1 at hs ⊢
  have htake {t : State} (ht : Formed t) (p : BitVec 32) (va v) (slot : State → Nat) (f) :
      (t.toHome T th va 4 false fun s loc =>
        if s.homeNat loc 4 = p.toNat then .done (s.give64 (T.ref th) d v (slot s) f) else .wait s 9).Formed := by
    refine State.toHome_formed ht _ _ _ _ _ (fun u loc hu => ?_) _ _ _
    exact LaneOut.formed_ite (hu.of_eq (u.give64_mem _ _ _ _ _)) hu
  dsimp only
  split
  · exact htake hs _ _ _ State.slotNow _
  · refine LaneOut.formed_ite hs (LaneOut.formed_ite ?_ (LaneOut.formed_ite (hs.of_eq (by simp)) hs))
    exact htake (hs.of_eq (by simp)) _ _ _ State.slotNow _

theorem State.readSeen_formed {s : State} (h : Formed s) (T th va n) {k : State → List Byte → LaneOut} (hk : ∀ t bs, Formed t → (k t bs).Formed) : (s.readSeen T th va n k).Formed := by
  have ht := State.translate_formed h (s.agent T) va .rd false
  unfold State.readSeen
  refine LaneOut.formed_ite h ?_
  split <;> rename_i he <;> rw [he] at ht
  · exact ht
  · exact State.mustReach_formed ht _ _ _ _ _
  · exact ht
  · refine LaneOut.formed_ite ht ?_
    split
    · exact ht
    · exact ht
    · refine LaneOut.formed_ite ht ?_
      refine LaneOut.formed_ite ht ?_
      refine LaneOut.hit_formed (hk _ _ ?_) fun t => t.noteHit_mem _ _ _ _ _ _ _
      exact Formed.ite ht <| ht.of_eq (State.touchL2_mem _ _ _)

theorem State.qpushLane_formed {s : State} (h : Formed s) (T th q va) : (s.qpushLane T th q va).Formed := by
  unfold State.qpushLane
  have hgo {t : State} (ht : Formed t) (c : Prop) [Decidable c] (pa p) (f : WorkQueue → WorkQueue) (g : Thread → Thread) (r) :
      (if c then .wait t 15 else t.readSeen T th va 64 fun a bs => a.toHome T th pa 64 true (fun b loc =>
        let b4 := (b.writeHome loc (bs.take 60 ++ leBytes 4 p) (dieOf T.core)).getD b
        .done ((b4.setWorkq (f (b4.workq (s.launch T.launch).die q))).updThread r g)) false true).Formed := by
    refine LaneOut.formed_ite ht (State.readSeen_formed ht _ _ _ _ fun u bs hu => State.toHome_formed hu _ _ _ _ _ (fun w l hw => ?_) _ _ _)
    exact (State.writeHomeD_formed hw _ _ _).of_eq (by simp; rfl)
  refine LaneOut.formed_ite h (LaneOut.formed_ite h (LaneOut.formed_ite h ?_))
  split
  · exact hgo h _ _ _ (fun Q => { Q with tail := mergeTail Q.tail _ }) _ _
  · refine LaneOut.formed_ite h (LaneOut.formed_ite h (State.readSeen_formed h _ _ _ _ fun u _ hu => ?_))
    exact hgo (hu.of_eq (by simp)) _ _ _ (fun Q => { Q with tail := mergeTail Q.tail _ }) _ _

theorem State.withHeap_formed {s : State} (h : Formed s) (T th va) {k : State → Heap → LaneOut} (hk : ∀ t x, Formed t → (k t x).Formed) : (s.withHeap T th va k).Formed := by
  unfold State.withHeap
  refine LaneOut.formed_ite h ?_
  refine LaneOut.formed_ite h ?_
  refine State.toHome_formed h _ _ _ _ _ (fun t loc ht => ?_) _ _ _
  split
  · exact ht
  · exact hk _ _ ht

theorem State.metaLocs_formed {s : State} (hs : Formed s) (T th h m n acc) {k : State → List Nat → LaneOut} (hk : ∀ t x, Formed t → (k t x).Formed) : (s.metaLocs T th h m n acc k).Formed := by
  induction m generalizing s n acc with
  | zero => exact hk _ _ hs
  | succ m ih =>
    have ht := State.translate_formed hs (s.agent T) (h.metaVa n 0) .wr false
    unfold State.metaLocs
    split <;> rename_i he <;> rw [he] at ht
    · exact ht
    · exact State.mustReach_formed ht _ _ _ _ _
    · exact ht
    · split
      · exact ht
      · exact ht
      · refine LaneOut.formed_ite ht ?_
        split
        · exact ht
        · refine LaneOut.hit_formed (ih ?_ _ _) fun t => t.noteHit_mem _ _ _ _ _ _ _
          exact ht.of_eq (foldl_mem (fun a sec => a.touchL2_mem _ sec) _ _)

theorem State.setSlot_formed {s : State} (h : Formed s) (die loc i v) : Formed (s.setSlot die loc i v) := State.putMarked_formed h _ _ _

@[simp] theorem State.metaHit_mem (s : State) (T th h n loc off) : (s.metaHit T th h n loc off).mem = s.mem := s.noteHit_mem _ _ _ _ _ _ _

theorem State.hallocLane_formed {s : State} (h : Formed s) (g try_ d T th size va) : (s.hallocLane g try_ d T th size va).Formed := by
  refine State.withHeap_formed h _ _ _ fun t hp ht => ?_
  refine LaneOut.formed_ite ht ?_
  refine State.metaLocs_formed ht _ _ _ _ _ _ fun u locs hu => ?_
  grind [LaneOut.Formed, State.setSlot_formed, State.putMarked_formed, State.metaHit_mem, State.give64_mem, State.pick_mem]

theorem State.hfreeLane_formed {s : State} (h : Formed s) (T th va hv) : (s.hfreeLane T th va hv).Formed := by
  refine State.withHeap_formed h _ _ _ fun t hp ht => ?_
  refine LaneOut.formed_ite ht ?_
  refine State.metaLocs_formed ht _ _ _ _ _ _ fun u locs hu => ?_
  grind [LaneOut.Formed, State.setSlot_formed, State.metaHit_mem]

theorem State.writeLineL2_formed {s : State} (h : Formed s) (die line) : Formed (s.writeLineL2 die line) := by
  refine foldl_formed (fun a sec ha => ?_) _ h
  grind [State.pinSector_formed, State.sealNotice_mem]

theorem State.maintainLine_formed {s : State} (h : Formed s) (T inv l2 va) : Formed (s.maintainLine T inv l2 va) := by
  grind [State.maintainLine, State.writeLineL2_formed, State.setView_mem, State.writeBackAll_formed, State.translate_formed, State.setView_mem]

theorem State.maintain_formed {s : State} (h : Formed s) (T inv l2 a n) : Formed (s.maintain T inv l2 a n) := by
  grind [State.maintain, State.maintainLine_formed, foldl_formed]

theorem State.maintainOp_formed {s : State} (h : Formed s) (inv g l2 a b) : Formed (s.maintainOp inv g l2 a b) := by
  refine State.issueMem_formed h _ _ _ _ _ (fun _ _ _ ht => State.memLane_formed ht _ ?_ _) _
  exact State.maintain_formed ht _ _ _ _ _

/-- Every state in which an access of the front end may end has the form. -/
def FrontOut.Formed : FrontOut → Prop
  | .ok s _ | .fail s _ | .miss s _ _ | .wait s => Machine.Formed s

theorem FrontOut.formed_ok {s : State} (h : Machine.Formed s) (bs) : (FrontOut.ok s bs).Formed := h

theorem FrontOut.formed_ite {a b : FrontOut} {p : Prop} [Decidable p] (ha : a.Formed) (hb : b.Formed) : (if p then a else b).Formed :=
  iteInduction (fun _ => ha) fun _ => hb

theorem State.frontReach_formed {s : State} (h : Formed s) (die asid va n write) {k : State → Nat → FrontOut} (hk : ∀ t loc, Formed t → (k t loc).Formed) (whole) : (s.frontReach die asid va n write k whole).Formed := by
  have ht := State.translate_formed h (frontAgent die asid) va (if write then .wr else .rd) false
  unfold State.frontReach
  split <;> rename_i he <;> rw [he] at ht
  · exact ht
  · exact ht
  · exact ht
  · split
    · exact ht
    · exact ht
    · refine FrontOut.formed_ite ht ?_
      refine FrontOut.formed_ite ht ?_
      exact hk _ _ (ht.of_eq (by simp))

theorem State.frontRead_formed {s : State} (h : Formed s) (die asid va n) : (s.frontRead die asid va n).Formed :=
  State.frontReach_formed h _ _ _ _ _ (fun _ _ ht => FrontOut.formed_ok ht _) _

theorem State.frontWrite_formed {s : State} (h : Formed s) (die asid va bs) : (s.frontWrite die asid va bs).Formed :=
  State.frontReach_formed h _ _ _ _ _ (fun _ _ ht => FrontOut.formed_ok (State.writeHomeD_formed ht _ _ _) _) _

theorem State.frontRuns_formed {s : State} (h : Formed s) (die asid va n acc) : (s.frontRuns die asid va n acc).Formed := by
  induction n generalizing s va acc with
  | zero => exact h
  | succ n ih =>
    unfold State.frontRuns
    grind [FrontOut.Formed, State.frontRead_formed]

@[simp] theorem State.frontRequest_mem (s : State) (die asid va cause who) : (s.frontRequest die asid va cause who).mem = s.mem := by
  unfold State.frontRequest
  split <;> rfl

theorem State.writeWords_formed {s : State} (h : Formed s) (l ws) : Formed (s.writeWords l ws) := by
  induction ws generalizing s with
  | nil => exact h
  | cons w ws ih =>
    unfold State.writeWords
    grind [FrontOut.Formed, State.frontWrite_formed, State.setLaunch_mem, State.frontRequest_mem]

theorem State.flushWords_formed {s : State} (h : Formed s) (l) : Formed (s.flushWords l) := by
  grind [State.flushWords, State.writeWords_formed]

theorem State.nodeDone_formed {s : State} (h : Formed s) (l level wg n) : Formed (s.nodeDone l level wg n) := by
  grind [State.nodeDone, State.notify_mem, State.flushWords_formed, State.setLaunch_mem, State.setLaunch_mem]

@[simp] theorem State.addTeam_mem (s : State) (T) : (s.addTeam T).mem = s.mem := rfl

@[simp] theorem State.startFirmware_mem (s : State) (core asid clause) : (s.startFirmware core asid clause).mem = s.mem := by
  unfold State.startFirmware
  split <;> rfl

theorem State.teamEnds_formed {s : State} (h : Formed s) (l w t) : Formed (s.teamEnds l w t) := by
  grind [State.teamEnds, State.setCore_mem, State.setWg_mem, State.nodeDone_formed, State.setWg_mem, State.setCore_mem]

theorem State.exitThread_formed {s : State} (h : Formed s) (T th) : Formed (s.exitThread T th) := by
  grind [State.exitThread, State.teamEnds_formed, State.updTeam_mem, State.updThread_mem, State.releaseSlots_mem, foldl_mem, State.updThread_mem, State.updTeam_mem]

end Sys2Proof.Machine

/-!
The form of memory: instructions end in formed states; the matrix unit and rows of accumulators.
-/

namespace Sys2Proof.Machine
open Sys2Proof

/-- Where an instruction has an effect, the state that it leaves has the form. -/
def Ends (o : Host.Outcome State Fault Refusal) : Prop := ∀ t, o = .next t → Formed t

theorem Ends.next {s : State} (h : Formed s) : Ends (.next s) := fun _ ht => Host.Outcome.next.inj ht ▸ h

@[simp] theorem State.accPut_mem (s : State) (core r c v) : (s.accPut core r c v).mem = s.mem := rfl

theorem State.seenBytes_formed {s : State} (h : Formed s) (T keys) : Formed (s.seenBytes T keys).1 := by
  refine List.foldlRecOn (motive := fun acc : State × ByteMap × List (Nat × Nat) => Formed acc.1) keys _ h fun acc hacc key _ => ?_
  obtain ⟨a, m, locs⟩ := acc
  have ht := State.translate_formed hacc (a.matAgent T) (BitVec.ofNat 64 (key % 2 ^ 64)) .rd false
  dsimp only at ht ⊢
  split
  · rename_i he
    rw [he] at ht
    exact Formed.ite (ht.of_eq (State.touchL2_mem _ _ _)) ht
  · rename_i he
    rwa [he] at ht

@[simp] theorem State.enqueue_mem (s : State) (core parts) : (s.enqueue core parts).mem = s.mem := by
  grind [State.enqueue, State.setCore_mem, State.setCore_mem]

theorem State.mkPart_formed {s : State} (h : Formed s) (i bs k ma mb x c w p slot) : Formed (s.mkPart i bs k ma mb x c w p slot).1 :=
  State.seenBytes_formed h _ _

theorem State.mkParts_formed {s : State} (h : Formed s) {mk : State → Part → State × PassPart} (hm : ∀ t p, Formed t → Formed (mk t p).1) (ps) : Formed (s.mkParts mk ps).1 := by
  induction ps generalizing s with
  | nil => exact h
  | cons p ps ih => exact ih (hm s p h)

theorem State.matrixEcc_formed {s : State} (h : Formed s) (c bs k x y mb ps) : Formed (s.matrixEcc c bs k x y mb ps).1 := by
  unfold State.matrixEcc
  split
  · exact h
  · refine foldl_formed (fun a p ha => foldl_formed (fun a th ha => ha.of_eq (a.updThread_mem _ _)) _ ha) _ ?_
    refine foldl_formed (fun a p ha => foldl_formed (fun a th ha => ?_) _ ha) _ h
    split
    · exact State.performLane_formed (f := fun s _ _ => .trap s _) ha _ _ (fun _ _ _ ht => ht) _ _
    · exact ha

theorem State.enqueueAll_mem (s : State) (l : List (Nat × List PassPart)) : (l.foldl (fun a t => a.enqueue t.1 t.2) s).mem = s.mem :=
  foldl_mem (fun a t => a.enqueue_mem t.1 t.2) l s

theorem State.matrixOp_formed {s : State} (h : Formed s) (i g ty bs k x ma mb c) : Formed (s.matrixOp i g ty bs k x ma mb c) := by
  refine State.checked_formed h _ _ _ ?_
  split
  · exact h
  · rename_i cu _
    split
    · exact h.of_eq (s.groupFault_mem _)
    · rename_i ps _
      have he := State.matrixEcc_formed h cu bs k x c mb ps
      dsimp only
      generalize s.matrixEcc cu bs k x c mb ps = q at he ⊢
      split
      · exact he.of_eq (State.groupFaultAt_mem _ _ _)
      · refine Formed.ite (he.of_eq (State.markGroup_mem _ _ _ _)) ?_
        split
        · exact he.of_eq (State.groupFault_mem _ _)
        · split
          · exact he.of_eq (State.groupFault_mem _ _)
          · exact he.of_eq (State.markGroup_mem _ _ _ _)
          · have hp : Formed ((q.1.groupTeams cu.entry).foldl (fun (acc : State × List (Nat × List PassPart)) T =>
              match q.2.filter (fun p => p.team.is T.launch T.wg T.idx) with
              | [] => acc
              | l => ((acc.1.mkParts (fun s p => s.mkPart i bs k ma mb x c (if bs.isSome then 64 else 32) p cu.slot) l).1,
                  acc.2 ++ [(T.core, (acc.1.mkParts (fun s p => s.mkPart i bs k ma mb x c (if bs.isSome then 64 else 32) p cu.slot) l).2)])) (q.1, [])).1 := by
              refine List.foldlRecOn (motive := fun acc : State × List (Nat × List PassPart) => Formed acc.1) _ _ he fun acc hacc T _ => ?_
              split
              · exact hacc
              · exact State.mkParts_formed hacc (fun t p ht => State.mkPart_formed ht _ _ _ _ _ _ _ _ _ _) _
            exact Formed.ite (hp.of_eq ((State.markGroup_mem _ _ _ _).trans (State.enqueueAll_mem _ _))) (he.of_eq (State.markGroup_mem _ _ _ _))

/-- Every state in which reading a byte for a pass may end has the form. -/
def PassRead.Formed : PassRead → Prop
  | .ok s _ | .stop s _ | .stall s _ _ | .wait s => Machine.Formed s

/-- Every state in which reading bytes for a pass may end has the form. -/
def PassBytes.Formed : PassBytes → Prop
  | .ok s _ | .stop s _ | .stall s _ _ | .wait s => Machine.Formed s

/-- Every state in which a pass may end has the form. -/
def PassOut.Formed : PassOut → Prop
  | .ok s | .stop s _ _ _ | .stall s _ _ _ _ | .wait s _ => Machine.Formed s

theorem State.passByte_formed {s : State} (h : Formed s) (T p key) : (s.passByte T p key).Formed := by
  grind [State.passByte, State.touchL2_mem, State.translate_formed, State.sysRead_mem, PassRead.Formed]

theorem State.passBytes_formed {s : State} (h : Formed s) (T p keys m) : (s.passBytes T p keys m).Formed := by
  induction keys generalizing s m with
  | nil => exact h
  | cons key keys ih =>
    unfold State.passBytes
    grind [PassRead.Formed, PassBytes.Formed, State.passByte_formed]

/-- Every state in which reading a row for a pass may end has the form. -/
def RowFormed : PassOut ⊕ (State × List (PassPart × ByteMap)) → Prop
  | .inl r => r.Formed
  | .inr q => Formed q.1

theorem State.rowReads_formed {s : State} (h : Formed s) (T i ps acc) : RowFormed (s.rowReads T i ps acc) := by
  induction ps generalizing s acc with
  | nil => exact h
  | cons p ps ih =>
    unfold State.rowReads
    grind [RowFormed, PassOut.Formed, PassBytes.Formed, State.passBytes_formed]

@[simp] theorem State.rowWrites_mem (s : State) (core i mb ps) : (s.rowWrites core i mb ps).mem = s.mem :=
  foldl_mem (fun a _ => foldl_mem (fun b _ => b.accPut_mem _ _ _ _) _ a) ps s

theorem State.passRows_formed {s : State} (h : Formed s) (core T mb ps is) : (s.passRows core T mb ps is).Formed := by
  induction is generalizing s with
  | nil => exact h
  | cons i is ih =>
    have hr := State.rowReads_formed h T i ps []
    unfold State.passRows
    grind [RowFormed, PassOut.Formed, State.rowWrites_mem]

theorem State.runPass_formed {s : State} (h : Formed s) (core ps) : (s.runPass core ps).Formed := by
  unfold State.runPass
  grind [State.passRows_formed, State.passBytes_formed, PassOut.Formed, PassBytes.Formed]

@[simp] theorem State.stopPass_mem (s : State) (core ps row quarter x) : (s.stopPass core ps row quarter x).mem = s.mem := by
  unfold State.stopPass
  split <;> rfl

@[simp] theorem State.keepPass_mem (s : State) (core p row) : (s.keepPass core p row).mem = s.mem :=
  foldl_mem (fun a _ => a.updTeam_mem _ _ _ _) _ _

theorem State.matrixStep_formed {s : State} (h : Formed s) (core) : Formed (s.matrixStep core) := by
  grind [State.matrixStep, State.keepPass_mem, State.stopPass_mem, State.setCore_mem, State.runPass_formed, PassOut.Formed, State.setCore_mem]

@[simp] theorem State.matrixEnd_mem (s : State) (core) : (s.matrixEnd core).mem = s.mem := by
  unfold State.matrixEnd
  dsimp only
  split
  · rfl
  · split
    · exact foldl_mem (fun a _ => a.updTeam_mem _ _ _ _) _ _
    · rfl

@[simp] theorem State.leaveMatrix_mem (s : State) (T o retry) : (s.leaveMatrix T o retry).mem = s.mem := by
  unfold State.leaveMatrix
  split <;> rfl

theorem execOpmap_formed {s : State} (h : Formed s) (g m a) : Ends (execOpmap g m a s) :=
  .next (State.teamLane_formed h _ _ _ (fun _ _ _ ht => State.issueAccess_formed ht _ _ _) _)

theorem execAccwin_formed {s : State} (h : Formed s) (g a b) : Ends (execAccwin g a b s) := by
  refine .next (State.checked_formed h _ _ _ ?_)
  dsimp only
  split
  · exact h.of_eq (s.groupFault_mem _)
  · exact State.afterEcc_formed h _ _ fun t ht => State.perTeam_formed ht _ fun u _ _ hu => hu

theorem execAcczero_formed {s : State} (h : Formed s) (g a b) : Ends (execAcczero g a b s) := by
  refine .next (State.checked_formed h _ _ _ ?_)
  dsimp only
  split
  · exact h
  · refine Formed.ite (h.of_eq (s.groupFault_mem _)) ?_
    refine State.afterEcc_formed h _ _ fun t ht => State.perTeam_formed ht _ fun u _ _ hu => ?_
    refine Formed.ite hu (hu.of_eq ?_)
    exact foldl_mem (fun a _ => foldl_mem (fun b _ => b.accPut_mem _ _ _ _) _ a) _ u

theorem State.accLoad_formed {s : State} (h : Formed s) (g d xs a b f) : Formed (s.accLoad g d xs a b f) := State.issueWith_formed h _ _ _ _ _ _

theorem execAccst_formed {s : State} (h : Formed s) (g x a b) : Ends (execAccst g x a b s) := by
  refine .next (State.issueMem_formed h _ _ _ _ _ (fun t T th ht => ?_) _)
  split
  · exact ht
  · exact ht
  · exact ht

theorem execMmaprogRd_formed {s : State} (h : Formed s) (g q d a) : Ends (execMmaprogRd g q d a s) :=
  .next (State.checked_formed h _ _ _ (Formed.ite (h.of_eq (s.groupFault_mem _)) (h.of_eq (s.perLane_mem _ _ _ _))))

@[simp] theorem State.rowProgPut_mem (s : State) (T q v) : (s.rowProgPut T q v).mem = s.mem := by
  grind [State.rowProgPut, State.leaveMatrix_mem, State.updTeam_mem, State.updTeam_mem]

@[simp] theorem State.rowProgWrite_mem (s : State) (T q v) : (s.rowProgWrite T q v).mem = s.mem := by
  unfold State.rowProgWrite
  split <;> simp

theorem execMmaprogWr_formed {s : State} (h : Formed s) (g q a b) : Ends (execMmaprogWr g q a b s) := by
  refine .next (State.checked_formed h _ _ _ (Formed.ite (h.of_eq (s.groupFault_mem _)) ?_))
  refine State.foldLanes_formed h _ (fun t T th ht => ?_) _
  split
  · exact ht
  · split
    · exact ht
    · exact ht.of_eq (t.rowProgWrite_mem _ _ _)

end Sys2Proof.Machine

/-!
The form of memory: control flow, allocation, tries, tiles, relocation and scratchpad mappings.
-/

namespace Sys2Proof.Machine
open Sys2Proof

theorem LaneOut.formed_done {s : State} (h : Machine.Formed s) : (LaneOut.done s).Formed := h

theorem State.together_formed {s : State} (h : Formed s) {f : State → State} (hf : ∀ t, Formed t → Formed (f t)) : Formed (s.together f) := by
  unfold State.together
  dsimp only
  split
  · exact hf s h
  · split
    · exact hf s h
    · split
      · exact hf s h
      · exact Formed.ite (hf s h) (Formed.ite (hf s h) (Formed.ite (h.of_eq (s.groupFaultAt_mem _ _)) (hf s h)))

theorem State.atOnce_formed {s : State} (h : Formed s) (d) {f : State → State} (hf : ∀ t, Formed t → Formed (f t)) : Formed (s.atOnce d f) := by
  unfold State.atOnce
  dsimp only
  split
  · split
    · exact hf s h
    · exact hf s h
  · exact hf s h

@[simp] theorem State.branch_mem (s : State) (g off) : (s.branch g off).mem = s.mem := by
  grind [State.branch, State.mapTeams_mem, State.groupFaultAt_mem, State.perLane_mem, State.perLane_mem, State.groupFaultAt_mem, State.mapTeams_mem]

theorem State.plainNow_formed {s : State} (h : Formed s) (T th a reason) {k : State → Nat → LaneOut} (hk : ∀ t v, Formed t → (k t v).Formed) : (s.plainNow T th a reason k).Formed := by
  unfold State.plainNow
  dsimp only
  refine LaneOut.formed_ite h ?_
  generalize hq : s.access T (T.ref th) _ = q
  have ha : q.Formed := hq ▸ State.access_formed h _ _ _
  split
  · exact ha
  · exact ha
  · exact Formed.of_eq ha (State.enterReplay_mem _ _ _ _ _)
  · split
    · exact hk _ _ ha
    · exact LaneOut.formed_ite (hk _ _ (Formed.of_eq ha (State.updThread_mem _ _ _))) ha

theorem State.callLane_formed {s : State} (h : Formed s) (T th target) : (s.callLane T th target).Formed := by
  unfold State.callLane
  dsimp only
  refine LaneOut.formed_ite (h.of_eq (s.updThread_mem _ _)) (LaneOut.formed_ite h ?_)
  refine State.plainNow_formed h _ _ _ _ fun t v ht => ?_
  exact ht.of_eq (t.updThread_mem _ _)

theorem execCall_formed {s : State} (h : Formed s) (g off) : Ends (execCall g off s) :=
  .next (State.together_formed h fun _ ht => State.foldLanes_formed ht _ (fun _ _ _ hu => State.callLane_formed hu _ _ _) _)

theorem execCalli_formed {s : State} (h : Formed s) (g a) : Ends (execCalli g a s) :=
  .next (State.together_formed h fun _ ht => State.issueMem_formed ht _ _ _ _ _ (fun _ _ _ hu => State.callLane_formed hu _ _ _) _)

theorem State.retLane_formed {s : State} (h : Formed s) (T th) : (s.retLane T th).Formed := by
  unfold State.retLane
  dsimp only
  split
  · exact h.of_eq (s.updThread_mem _ _)
  · refine LaneOut.formed_ite h (State.plainNow_formed h _ _ _ _ fun t v ht => ?_)
    exact ht.of_eq (t.updThread_mem _ _)

theorem execRet_formed {s : State} (h : Formed s) (g) : Ends (execRet g s) :=
  .next (State.together_formed h fun _ ht => State.foldLanes_formed ht _ (fun _ _ _ hu => State.retLane_formed hu _ _) _)

theorem State.exitLane_formed {s : State} (h : Formed s) (T th) : (s.exitLane T th).Formed := by
  unfold State.exitLane
  refine LaneOut.formed_ite h ?_
  split
  · exact h.of_eq (s.updThread_mem _ _)
  · exact State.exitThread_formed h _ _

theorem execExit_formed {s : State} (h : Formed s) (g) : Ends (execExit g s) := by
  refine .next ?_
  split
  · exact h
  · refine Formed.ite (h.of_eq (s.groupFaultAt_mem _ _)) (Formed.ite (h.of_eq (s.markGroup_mem _ _ _)) ?_)
    split
    · exact h.of_eq (s.updTeam_mem _ _ _ _)
    · exact State.foldLanes_formed h _ (fun _ _ _ ht => State.exitLane_formed ht _ _) _

@[simp] theorem State.laneDest_mem (s : State) (T r g d w val) : (s.laneDest T r g d w val).mem = s.mem := by
  unfold State.laneDest
  grind [State.pick_mem, State.updTeam_mem, State.updThread_mem, State.updThread_mem, State.updTeam_mem, State.pick_mem]

theorem State.dispatchLane_formed {s : State} (h : Formed s) (g d a b T th) : (s.dispatchLane g d a b T th).Formed := by
  unfold State.dispatchLane
  dsimp only
  split
  · exact h
  · refine State.plainNow_formed h _ _ _ _ fun t v ht => ?_
    refine LaneOut.formed_ite ht (State.plainNow_formed ht _ _ _ _ fun u v hu => ?_)
    exact hu.of_eq ((State.updThread_mem _ _ _).trans (u.laneDest_mem _ _ _ _ _ _))

theorem execDispatch_formed {s : State} (h : Formed s) (g d a b) : Ends (execDispatch g d a b s) :=
  .next (State.together_formed h fun _ ht => State.atOnce_formed ht _ fun _ hu =>
    State.issueMem_formed hu _ _ _ _ _ (fun _ _ _ hv => State.dispatchLane_formed hv _ _ _ _ _ _) _)

theorem State.issue_formed {s : State} (h : Formed s) (g d wd xs f) : Formed (s.issue g d wd xs f) := State.issueWith_formed h _ _ _ _ _ _

theorem execJmpi_formed {s : State} (h : Formed s) (g a) : Ends (execJmpi g a s) :=
  .next (State.together_formed h fun _ ht => State.issue_formed ht _ _ _ _ _)

theorem State.loopOp_formed {s : State} (h : Formed s) (n k off) : Formed (s.loopOp n k off) := by
  grind [State.loopOp, State.perLane_mem, State.markGroup_mem, State.fetchMiss_mem, State.groupFaultWith_mem, State.fetchClause_formed, State.groupFault_mem, State.groupFaultWith_mem, State.groupFault_mem, State.perLane_mem, State.markGroup_mem, Fetched.Formed]

theorem execBarWg_formed {s : State} (h : Formed s) : Ends (execBarWg s) :=
  .next (State.arrivals_formed h fun _ _ _ ht => State.arrive_formed ht _ _ _)

theorem execPhase_formed {s : State} (h : Formed s) (sc) : Ends (execPhase sc s) := by
  refine .next ?_
  split
  · exact h.of_eq (s.groupFault_mem _)
  · exact State.arrivals_formed h fun _ _ _ ht => State.arrive_formed ht _ _ _

theorem execFence_formed {s : State} (h : Formed s) (g sc o) : Ends (execFence g sc o s) := by
  refine .next ?_
  split
  · exact h.of_eq (s.groupFault_mem _)
  · exact h.of_eq (s.perLane_mem _ _ _ _)

theorem execPrefetch_formed {s : State} (h : Formed s) (g a b) : Ends (execPrefetch g a b s) := by
  refine .next (State.issueMem_formed h _ _ _ _ _ (fun _ _ _ ht => State.memLane_formed ht _ ?_ _) _)
  exact State.prefetchLane_formed ht _ _ _

theorem execTfree_formed {s : State} (h : Formed s) (g t) : Ends (execTfree g t s) := by
  refine .next (State.teamLane_formed h _ _ _ (fun u T _ hu => ?_) _)
  split
  · exact hu
  · exact LaneOut.formed_ite hu (LaneOut.formed_ite hu (hu.of_eq (u.setTile_mem _ _ _)))

theorem execTstate_formed {s : State} (h : Formed s) (g t d) : Ends (execTstate g t d s) :=
  .next (State.checked_formed h _ _ _ (h.of_eq (s.perLane_mem _ _ _ _)))

theorem execQpop_formed {s : State} (h : Formed s) (g d a) : Ends (execQpop g d a s) :=
  .next (State.issueMem_formed h _ _ _ _ _ (fun _ _ _ ht => State.qpopLane_formed ht _ _ _ _ _) _)

theorem execQpush_formed {s : State} (h : Formed s) (g a b) : Ends (execQpush g a b s) :=
  .next (State.issueMem_formed h _ _ _ _ _ (fun _ _ _ ht => State.qpushLane_formed ht _ _ _ _) _)

theorem execHalloc_formed {s : State} (h : Formed s) (g tr d a b) : Ends (execHalloc g tr d a b s) :=
  .next (State.issueMem_formed h _ _ _ _ _ (fun _ _ _ ht => State.hallocLane_formed ht _ _ _ _ _ _ _) _)

theorem execHfree_formed {s : State} (h : Formed s) (g a b) : Ends (execHfree g a b s) :=
  .next (State.issueMem_formed h _ _ _ _ _ (fun _ _ _ ht => State.hfreeLane_formed ht _ _ _ _) _)

theorem execGmode_formed {s : State} (h : Formed s) (g m) : Ends (execGmode g m s) :=
  .next (State.perTeam_formed h _ fun t _ _ ht => ht.of_eq (t.updTeam_mem _ _ _ _))

theorem execSleep_formed {s : State} (h : Formed s) (g a) : Ends (execSleep g a s) := by
  refine .next (State.checked_formed h _ _ _ ?_)
  split
  · exact h
  · refine Formed.ite (h.of_eq (s.groupFault_mem _)) ?_
    refine State.afterEcc_formed h _ _ fun t ht => State.perTeam_formed ht _ fun u _ _ hu => ?_
    exact Formed.ite hu (Formed.ite hu hu)

@[simp] theorem State.wake_mem (s : State) (l w e) : (s.wake l w e).mem = s.mem := by
  grind [State.wake, State.setWg_mem, State.mapTeams_mem, State.mapTeams_mem, State.setWg_mem]

theorem execWait_formed {s : State} (h : Formed s) (g a) : Ends (execWait g a s) :=
  .next (State.issueMem_formed h _ _ _ _ _ (fun _ _ _ ht => State.waitSeq_formed ht _ _ _ fun _ hu => LaneOut.formed_done hu) _)

@[simp] theorem State.bankTeam_mem (s : State) (l w t) : (s.bankTeam l w t).mem = s.mem := by
  unfold State.bankTeam
  split <;> rfl

@[simp] theorem State.spawnTeam_mem (s : State) (l w slot b ps) : (s.spawnTeam l w slot b ps).mem = s.mem := by
  unfold State.spawnTeam
  split <;> simp

@[simp] theorem State.spawnWg_mem (s : State) (g b ps l w) : (s.spawnWg g b ps l w).mem = s.mem := by
  have hmark (f : Thread → Thread) (xs : List Parent) (t : State) : (xs.foldl (fun a x => a.updThread (x.1.ref x.2.1) f) t).mem = t.mem :=
    foldl_mem (fun a x => a.updThread_mem _ _) xs t
  unfold State.spawnWg
  dsimp only
  rw [hmark, hmark]
  exact foldl_mem (fun a x => a.spawnTeam_mem _ _ _ _ _) _ s

theorem State.spawnEntries_formed {s : State} (h : Formed s) (g a) {k : State → List Parent → LaneOut} (hk : ∀ t ps, Formed t → (k t ps).Formed) (ts acc) : (State.spawnEntries g a k ts acc s).Formed := by
  induction ts generalizing s acc with
  | nil => exact hk _ _ h
  | cons T ts ih =>
    unfold State.spawnEntries
    split
    · exact ih h _
    · refine State.toHome_formed h _ _ _ _ _ (fun t loc ht => ?_) _ _ _
      exact ih ht _

theorem State.spawnOp_formed {s : State} (h : Formed s) (try_ g a b) : Formed (s.spawnOp try_ g a b) := by
  refine State.checked_formed h _ _ _ ?_
  split
  · exact h
  · refine Formed.ite (h.of_eq (s.groupFault_mem _)) ?_
    refine State.afterEcc_formed h _ _ fun t ht => ?_
    refine Formed.ite (ht.of_eq (t.markGroup_mem _ _ _)) ?_
    generalize hq : State.spawnEntries g a _ (t.activeTeams g) [] t = q
    have ha : q.Formed := by
      rw [← hq]
      refine State.spawnEntries_formed ht _ _ (fun u ps hu => ?_) _ _
      refine LaneOut.formed_ite hu (hu.of_eq ?_)
      exact foldl_mem (fun a q => a.spawnWg_mem _ _ _ _ _) _ u
    split
    · exact ha
    · exact Formed.of_eq ha (State.markGroup_mem _ _ _ _)
    · exact Formed.of_eq ha (State.groupFault_mem _ _)

theorem execYield_formed {s : State} (h : Formed s) (g) : Ends (execYield g s) := by
  refine .next ?_
  split
  · exact h
  · exact Formed.ite h (h.of_eq (s.perLane_mem _ _ _ _))

theorem State.trieLoad_formed {s : State} (h : Formed s) (T th va n) {k : State → Nat → LaneOut} (hk : ∀ t v, Formed t → (k t v).Formed) : (s.trieLoad T th va n k).Formed :=
  State.plainNow_formed h _ _ _ _ hk

theorem State.trieNode_formed {s : State} (h : Formed s) (T th va child) {k : State → TrieNode → LaneOut} (hk : ∀ t n, Formed t → (k t n).Formed) : (s.trieNode T th va child k).Formed := by
  refine State.trieLoad_formed h _ _ _ _ fun t v ht => ?_
  dsimp only
  split
  · exact ht
  · exact hk _ _ ht

theorem State.trieLabel_formed {s : State} (h : Formed s) (T th n i) {k : State → Nat → LaneOut} (hk : ∀ t v, Formed t → (k t v).Formed) : (s.trieLabel T th n i k).Formed := by
  unfold State.trieLabel
  split
  · exact hk _ _ h
  · exact hk _ _ h
  · exact State.trieLoad_formed h _ _ _ _ hk
  · exact State.trieLoad_formed h _ _ _ _ hk

theorem State.trieSlot_formed {s : State} (h : Formed s) (T th n c) {k : State → Nat → Nat → LaneOut} (hk : ∀ t v w, Formed t → (k t v w).Formed) : (s.trieSlot T th n c k).Formed :=
  State.trieLoad_formed h _ _ _ _ fun t _ ht => hk t _ _ ht

theorem State.trieFind_formed {s : State} (h : Formed s) (T th n sym) {k : State → Option TrieNode → LaneOut} (hk : ∀ t v, Formed t → (k t v).Formed) (m i) : (s.trieFind T th n sym k m i).Formed := by
  induction m generalizing s i with
  | zero => exact hk _ _ h
  | succ m ih =>
    exact State.trieNode_formed h _ _ _ _ fun t ch ht => State.trieLabel_formed ht _ _ _ _ fun u v hu => LaneOut.formed_ite (hk _ _ hu) (ih hu _)

theorem State.trieAt_formed {s : State} (h : Formed s) (T th x) {k : State → TrieNode → Nat → LaneOut} (hk : ∀ t n v, Formed t → (k t n v).Formed) : (s.trieAt T th x k).Formed := by
  refine LaneOut.formed_ite h (State.trieNode_formed h _ _ _ _ fun t n ht => ?_)
  exact LaneOut.formed_ite ht (hk _ _ _ ht)

theorem State.trieStep_formed {s : State} (h : Formed s) (T th n pos sym) {k : State → Option (BitVec 64) → LaneOut} (hk : ∀ t v, Formed t → (k t v).Formed) : (s.trieStep T th n pos sym k).Formed := by
  refine LaneOut.formed_ite (State.trieLabel_formed h _ _ _ _ fun t v ht => hk _ _ ht) (LaneOut.formed_ite (hk _ _ h) ?_)
  exact State.trieSlot_formed h _ _ _ _ fun t v w ht => State.trieFind_formed ht _ _ _ _ (fun u ch hu => hk _ _ hu) _ _

@[simp] theorem State.giveSys_mem (s : State) (r d w v f) : (s.giveSys r d w v f).mem = s.mem := rfl

theorem State.trieStepLane_formed {s : State} (h : Formed s) (d T th x b) : (s.trieStepLane d T th x b).Formed := by
  refine State.trieAt_formed h _ _ _ fun t n pos ht => State.trieStep_formed ht _ _ _ _ _ fun u v hu => ?_
  exact hu.of_eq (u.giveSys_mem _ _ _ _ _)

theorem State.trieHops_formed {s : State} (h : Formed s) (T th sym) {k : State → TrieNode → LaneOut} (hk : ∀ t n, Formed t → (k t n).Formed) (m n) : (s.trieHops T th sym k m n).Formed := by
  induction m generalizing s n with
  | zero => exact h
  | succ m ih =>
    unfold State.trieHops
    refine LaneOut.formed_ite h (State.trieStep_formed h _ _ _ _ _ fun t v ht => ?_)
    split
    · exact State.trieNode_formed ht _ _ _ _ fun u ch hu => LaneOut.formed_ite hu (hk _ _ hu)
    · refine LaneOut.formed_ite (hk _ _ ht) ?_
      cases m with
      | zero => exact ht
      | succ m => exact State.trieNode_formed ht _ _ _ _ fun u f hu => ih hu _

theorem State.trieScan_formed {s : State} (h : Formed s) (T th) {k : State → TrieNode → Nat → LaneOut} (hk : ∀ t n v, Formed t → (k t n v).Formed) (syms i hits n) : (s.trieScan T th k syms i hits n).Formed := by
  induction syms generalizing s i hits n with
  | nil => exact hk _ _ _ h
  | cons sym syms ih => exact State.trieHops_formed h _ _ _ (fun t n ht => ih ht _ _ _) _ _

theorem State.trieScanLane_formed {s : State} (h : Formed s) (d T th x b) : (s.trieScanLane d T th x b).Formed := by
  refine State.trieAt_formed h _ _ _ fun t n pos ht => State.trieScan_formed ht _ _ (fun u m v hu => ?_) _ _ _ _
  exact hu.of_eq (u.giveSys_mem _ _ _ _ _)

theorem State.trieCount_formed {s : State} (h : Formed s) (T th n) {k : State → Nat → LaneOut} (hk : ∀ t v, Formed t → (k t v).Formed) (cs acc) : (s.trieCount T th n k cs acc).Formed := by
  induction cs generalizing s acc with
  | nil => exact hk _ _ h
  | cons c cs ih => exact LaneOut.formed_ite (State.trieSlot_formed h _ _ _ _ fun t v w ht => ih ht _) (ih h _)

theorem State.trieChildLane_formed {s : State} (h : Formed s) (d T th x i) : (s.trieChildLane d T th x i).Formed := by
  have hgive (t : State) (v) (ht : Formed t) : (LaneOut.done (t.giveSys (T.ref th) d 64 v)).Formed := ht.of_eq (t.giveSys_mem _ _ _ _ _)
  unfold State.trieChildLane
  refine State.trieAt_formed h _ _ _ fun t n pos ht => ?_
  refine LaneOut.formed_ite (LaneOut.formed_ite (State.trieLabel_formed ht _ _ _ _ fun u v hu => hgive _ _ hu) (hgive _ _ ht)) ?_
  refine State.trieCount_formed ht _ _ _ (fun u v hu => LaneOut.formed_ite (hgive _ _ hu) ?_) _ _
  exact State.trieNode_formed hu _ _ _ _ fun w ch hw => State.trieLabel_formed hw _ _ _ _ fun x v hx => hgive _ _ hx

theorem State.trieInfoLane_formed {s : State} (h : Formed s) (d T th x) : (s.trieInfoLane d T th x).Formed := by
  refine State.trieAt_formed h _ _ _ fun t n pos ht => ?_
  exact ht.of_eq (t.giveSys_mem _ _ _ _ _)

theorem State.trieOp_formed {s : State} (h : Formed s) (g d a b) {f : State → Team → Thread → BitVec 64 → Nat → LaneOut} (hf : ∀ t T th x v, Formed t → (f t T th x v).Formed) : Formed (s.trieOp g d a b f) :=
  State.issueMem_formed h _ _ _ _ _ (fun _ _ _ ht => hf _ _ _ _ _ ht) _

theorem State.engAppend_formed {s : State} (h : Formed s) (g eng q d a) : Formed (s.engAppend g eng q d a) := by
  refine State.issueMem_formed h _ _ _ _ _ (fun t T th ht => State.append_formed ht _ _ _ _ fun u p q hu => ?_) _
  exact hu.of_eq (u.giveSys_mem _ _ _ _ _)

theorem execEngPost_formed {s : State} (h : Formed s) (g qs a) : Ends (execEngPost g qs a s) := by
  refine .next (State.issueMem_formed h _ _ _ _ _ (fun t T th ht => State.withQueue_formed ht _ _ _ (fun u _ _ _ hu => ?_) _) _)
  exact hu.of_eq (u.post_mem _ _ _ _)

theorem execEngSeq_formed {s : State} (h : Formed s) (g qs d) : Ends (execEngSeq g qs d s) := by
  have hgive (t : State) (r v) (ht : Formed t) : (LaneOut.done (t.giveSys r d 64 v)).Formed := ht.of_eq (t.giveSys_mem _ _ _ _ _)
  refine .next (State.issueMem_formed h _ _ _ _ _ (fun t T th ht => LaneOut.formed_ite (hgive _ _ _ ht) ?_) _)
  exact State.withQueue_formed ht _ _ _ (fun u _ _ _ hu => hgive _ _ _ hu) _

theorem execReelGo_formed {s : State} (h : Formed s) (g a b) : Ends (execReelGo g a b s) := by
  refine .next (State.teamLane_formed h _ _ _ (fun t T th ht => ?_) _)
  grind [LaneOut.Formed, State.setCore_mem]

theorem State.svcLane_formed {x : State × List Nat × Option Nat} (h : Formed x.1) (c a T th) : Formed (State.svcLane c a T x th).1 := by
  have hr := State.toHome_formed h T th (x.1.replySlots T + BitVec.ofNat 64 (16 * th.lane)) 16 true
    (k := fun s loc => .done (s.putMarked (dieOf T.core) loc (leBytes 4 (readSrc (x.1.tickOf T) .int 32 T th a) ++ List.replicate 12 0)))
    (fun t loc ht => State.putMarked_formed (die := dieOf T.core) ht loc _) true false (!true)
  unfold State.svcLane
  dsimp only
  split
  · exact h
  · split <;> rename_i he <;> rw [he] at hr
    · exact hr
    · exact hr
    · exact State.performLane_formed (f := fun s _ _ => .trap s _) hr _ _ (fun _ _ _ ht => ht) _ _

theorem State.svcTeam_formed {s : State} (h : Formed s) (c g code a T lanes) : Formed (s.svcTeam c g code a T lanes) := by
  have hbad (bad : Thread → Bool) (x : Thread → Trap) : Formed ((lanes.filter bad).foldl (fun s th => s.performLane s c (fun s _ _ => .trap s (x th)) (T.ref th)) s) :=
    foldl_formed (fun t th ht => State.performLane_formed (f := fun s _ _ => .trap s _) ht _ _ (fun _ _ _ hu => hu) _ _) _ h
  unfold State.svcTeam
  dsimp only
  generalize hs1 : (lanes.filter _).foldl _ s = s1
  have h1 : Formed s1 := hs1 ▸ hbad _ _
  refine Formed.ite h1 (Formed.ite (h1.of_eq (s1.updTeam_mem _ _ _ _)) ?_)
  generalize hq : (lanes.filter _).foldl (State.svcLane c a T) (s1, [], none) = q
  have h2 : Formed q.1 := by
    rw [← hq]
    exact List.foldlRecOn (motive := fun x : State × List Nat × Option Nat => Formed x.1) _ _ h1 fun x hx th _ => State.svcLane_formed hx _ _ _ _
  obtain ⟨s2, acc, w⟩ := q
  cases w with
  | some n => exact Formed.of_eq h2 (State.updTeam_mem _ _ _ _ _)
  | none => exact Formed.ite h2 (Formed.of_eq h2 (State.updTeam_mem _ _ _ _ _))

theorem execSvc_formed {s : State} (h : Formed s) (g code a) : Ends (execSvc g code a s) := by
  refine .next (State.checked_formed h _ _ _ ?_)
  split
  · exact h
  · exact State.perTeam_formed h _ fun t _ _ ht => State.svcTeam_formed ht _ _ _ _ _ _

theorem execSvcwait_formed {s : State} (h : Formed s) (g d) : Ends (execSvcwait g d s) := by
  refine .next (State.issueMem_formed h _ _ _ _ _ (fun t T th ht => ?_) _)
  refine LaneOut.formed_ite ht (State.toHome_formed ht _ _ _ _ _ (fun u loc hu => ?_) _ _ _)
  refine LaneOut.formed_ite (hu.of_eq (u.updThread_mem _ _)) (LaneOut.formed_ite (hu.of_eq ?_) hu)
  exact (State.giveSys_mem _ _ _ _ _ _).trans (u.updThread_mem _ _)

theorem State.covptLane_formed {s : State} (h : Formed s) (g d T th) : (s.covptLane g d T th).Formed := by
  grind [State.covptLane, State.giveSys_mem, State.setWg_mem, LaneOut.Formed, State.setWg_mem]

@[simp] theorem State.coverOwn_mem (s : State) (l w) : (s.coverOwn l w).mem = s.mem := by
  unfold State.coverOwn
  dsimp only
  split
  · exact foldl_mem (fun a sec => a.dropClean_mem sec) _ _
  · rfl

@[simp] theorem State.stencilDone_mem (s : State) (l w) : (s.stencilDone l w).mem = s.mem := by
  grind [State.stencilDone, State.coverOwn_mem]

theorem State.covstLane_formed {s : State} (h : Formed s) (t v b T) : (s.covstLane t v b T).Formed := by
  grind [State.covstLane, State.setWg_mem, State.stencilDone_mem, LaneOut.Formed, State.setWg_mem]

theorem execCovpt_formed {s : State} (h : Formed s) (g d) : Ends (execCovpt g d s) :=
  .next (State.issueMem_formed h _ _ _ _ _ (fun _ _ _ ht => State.covptLane_formed ht _ _ _ _) _)

theorem execCovst_formed {s : State} (h : Formed s) (g a b) : Ends (execCovst g a b s) := by
  refine .next (Formed.ite (h.of_eq (s.groupFault_mem _)) (Formed.ite (h.of_eq (s.groupFault_mem _)) ?_))
  exact State.issueMem_formed h _ _ _ _ _ (fun _ _ _ ht => State.covstLane_formed ht _ _ _ _) _

theorem execMark_formed {s : State} (h : Formed s) (g a) : Ends (execMark g a s) := by
  refine .next (State.teamLane_formed h _ _ _ (fun _ _ _ ht => ?_) _)
  exact State.trace_formed ht _ _ _ _ _ _ _

theorem State.ctrRead_formed {s : State} (h : Formed s) (g d w f) : Formed (s.ctrRead g d w f) := State.issueWith_formed h _ _ _ _ _ _

theorem State.tretLane_formed {s : State} (h : Formed s) (retry T th) : (s.tretLane retry T th).Formed := by
  grind [State.tretLane, State.leaveMatrix_mem, State.updThread_mem, LaneOut.Formed, State.updThread_mem]

theorem State.tret_formed {s : State} (h : Formed s) (g retry) : Formed (s.tret g retry) := by
  unfold State.tret
  split
  · exact h
  · exact Formed.ite (h.of_eq (s.groupFaultAt_mem _ _)) (State.foldLanes_formed h _ (fun _ _ _ ht => State.tretLane_formed ht _ _ _) _)

theorem State.afterOwn_formed {s : State} (h : Formed s) {f : State → Team → Thread → LaneOut} {T th} (hf : (f s T th).Formed) : (State.afterOwn f s T th).Formed :=
  LaneOut.formed_ite h hf

theorem execSysr_formed {s : State} (h : Formed s) (g ty d a) : Ends (execSysr g ty d a s) := by
  refine .next (State.issueMem_formed h _ _ _ _ _ (fun t T th ht => ?_) _)
  exact ht.of_eq ((State.giveSys_mem _ _ _ _ _ _).trans (t.sysRead_mem _ _))

theorem execSysw_formed {s : State} (h : Formed s) (g ty a b) : Ends (execSysw g ty a b s) := by
  refine .next (State.issueMem_formed h _ _ _ _ _ (fun t T th ht => State.afterOwn_formed ht ?_) _)
  exact ht.of_eq (t.sysWrite_mem _ _ _)

theorem execMsig_formed {s : State} (h : Formed s) (g tgt a) : Ends (execMsig g tgt a s) := by
  refine .next (State.issueMem_formed h _ _ _ _ _ (fun t T th ht => State.afterOwn_formed ht ?_) _)
  split
  · exact ht
  · exact Formed.ite (p := _ = _) ht ht

theorem execMpost_formed {s : State} (h : Formed s) (g tgt a b) : Ends (execMpost g tgt a b s) := by
  refine .next (State.issueMem_formed h _ _ _ _ _ (fun t T th ht => State.afterOwn_formed ht ?_) _)
  split
  · exact ht
  · exact LaneOut.formed_ite ht (LaneOut.formed_ite ht (ht.of_eq (t.setCore_mem _)))

theorem State.tlbinvOp_formed {s : State} (h : Formed s) (g a b) {f : State → Nat → Nat → State} (hf : ∀ t x y, (f t x y).mem = t.mem) : Formed (s.tlbinvOp g a b f) := by
  refine State.issueMem_formed h _ _ _ _ _ (fun t T th ht => ?_) _
  exact ht.of_eq (hf _ _ _)

@[simp] theorem State.dropFetch_mem (s : State) (lines) : (s.dropFetch lines).mem = s.mem := rfl

theorem execCflush_formed {s : State} (h : Formed s) (g a b) : Ends (execCflush g a b s) := by
  refine .next (State.issueMem_formed h _ _ _ _ _ (fun t T th ht => ?_) _)
  exact (State.maintain_formed ht _ _ _ _ _).of_eq (State.dropFetch_mem _ _)

theorem State.putLeaf_formed {s : State} (h : Formed s) (core a e) : Formed (s.putLeaf core a e) := State.putMarked_formed h _ _ _

@[simp] theorem State.dropScratch_mem (s : State) (core off n) : (s.dropScratch core off n).mem = s.mem := rfl

theorem State.unmapScratch_formed {s : State} (h : Formed s) (core off n) : Formed (s.unmapScratch core off n) :=
  (foldl_formed (fun _ _ ha => State.putLeaf_formed ha _ _ _) _ h).of_eq (State.dropScratch_mem _ _ _ _)

theorem State.mapScratch_formed {s : State} (h : Formed s) (core off leaves) : Formed (s.mapScratch core off leaves) :=
  foldl_formed (fun _ _ ha => Formed.ite (State.putLeaf_formed ha _ _ _) (State.putLeaf_formed ha _ _ _)) _ h

theorem State.renameScratch_formed {s : State} (h : Formed s) (old new) : Formed (s.renameScratch old new) :=
  (State.mapScratch_formed h _ _ _).of_eq (State.dropScratch_mem _ _ _ _)

theorem State.relocate_formed {s : State} (h : Formed s) (im r) : Formed (s.relocate im r) := by
  unfold State.relocate
  split
  · exact h
  · split
    · exact h
    · exact (foldl_formed (fun _ _ ha => State.putMarked_formed ha _ _ _) _ h).of_eq (State.dropFetch_mem _ _)

theorem State.relocateAll_formed {s : State} (h : Formed s) (im) : Formed (s.relocateAll im) :=
  foldl_formed (fun _ _ ha => State.relocate_formed ha _ _) _ h

theorem State.mapData_formed {s : State} (h : Formed s) (im k) : Formed (s.mapData im k) := by
  unfold State.mapData
  split
  · exact (State.putLeaf_formed h _ _ _).of_eq (State.tlbDrop_mem _ _ _)
  · exact h

theorem State.putLiteral_formed {s : State} (h : Formed s) (im r) : Formed (s.putLiteral im r) := by
  unfold State.putLiteral
  split
  · exact h
  · exact (foldl_formed (fun _ _ ha => State.putMarked_formed ha _ _ _) _ h).of_eq (State.dropFetch_mem _ _)

theorem State.load_formed {s : State} (h : Formed s) (im) : Formed (s.load im) := by
  refine Formed.ite h ?_
  refine Formed.of_eq (State.relocateAll_formed (foldl_formed (fun _ _ ha => State.putLiteral_formed ha _ _) _ ?_) im) rfl
  exact foldl_formed (fun _ _ ha => State.mapData_formed ha _ _) _ h

end Sys2Proof.Machine

/-!
The form of memory: bring-up, the environment, links, the fabric, the engines and the Reel, mailboxes.
-/

namespace Sys2Proof.Machine
open Sys2Proof

/-- The memory that remains when bytes are dropped has the form. -/
theorem Formed.filter {s t : State} (h : Formed s) (p : Nat × Byte → Bool) (ht : t.mem = s.mem.filter p) : Formed t :=
  (congrArg Memory.wf ht).trans (Memory.wf_filter h p)

@[simp] theorem State.train_mem (s : State) : (s.train).mem = s.mem := rfl

theorem State.fresh_formed (s : State) : Formed s.fresh := rfl

theorem execPowerGood_formed (s : State) : Ends (execPowerGood s) := .next (s.fresh_formed.of_eq s.fresh.train_mem)

theorem execModuleReset_formed (s : State) : Ends (execModuleReset s) := .next (s.fresh_formed.of_eq s.fresh.train_mem)

theorem State.regionInit_formed {s : State} (h : Formed s) : Formed (s.regionInit) :=
  Formed.ite h (h.filter _ rfl)

@[simp] theorem State.firmware_mem (s : State) (d ok) : (s.firmware d ok).mem = s.mem := by
  grind [State.firmware]

@[simp] theorem State.startCompute_mem (s : State) (d) : (s.startCompute d).mem = s.mem := by
  unfold State.startCompute
  split <;> rfl

@[simp] theorem State.startService_mem (s : State) (d) : (s.startService d).mem = s.mem := by
  unfold State.startService
  split <;> rfl

theorem execThermalShutdown_formed (s : State) (d) : Ends (execThermalShutdown d s) :=
  .next ((s.fresh_formed.of_eq rfl).of_eq (State.train_mem _))

@[simp] theorem State.setLink_mem (s : State) (n k) : (s.setLink n k).mem = s.mem := rfl

theorem execLinkRetrain_formed {s : State} (h : Formed s) (n) : Ends (execLinkRetrain n s) := .next (Formed.ite h h)

theorem execLinkFailed_formed {s : State} (h : Formed s) (n) : Ends (execLinkFailed n s) := .next (Formed.ite (h.of_eq (s.failLink_mem n)) h)

theorem execLinkTrainedAgain_formed {s : State} (h : Formed s) (n) : Ends (execLinkTrainedAgain n s) := .next (Formed.ite h h)

@[simp] theorem State.hopNotice_mem (s : State) (loc) : (s.hopNotice loc).mem = s.mem := rfl

theorem execFabricRemoteRead_formed {s : State} (h : Formed s) (pa n b) : Ends (execFabricRemoteRead pa n b s) :=
  .next (Formed.ite h (Formed.ite h h))

theorem execFabricRemoteWrite_formed {s : State} (h : Formed s) (pa bs w) : Ends (execFabricRemoteWrite pa bs w s) :=
  .next (Formed.ite h (Formed.ite h (State.writeHomeD_formed h _ _ _)))

theorem execFabricRemoteAtomic_formed {s : State} (h : Formed s) (op pa n x y o) : Ends (execFabricRemoteAtomic op pa n x y o s) :=
  .next (Formed.ite h (Formed.ite h ((State.writeHomeD_formed h _ _ _).of_eq rfl)))

theorem execDirectoryRecall_formed {s : State} (h : Formed s) (r) : Ends (execDirectoryRecall r s) :=
  .next (Formed.ite h (Formed.ite h h))

theorem execDirectoryUnreachable_formed {s : State} (h : Formed s) : Ends (execDirectoryUnreachable s) :=
  .next (Formed.ite h (h.of_eq (foldl_mem (fun a _ => ((a.dropClean _).dropClean_mem _).trans (a.dropClean_mem _)) _ s)))

theorem execFabricPortFailed_formed {s : State} (h : Formed s) (port) : Ends (execFabricPortFailed port s) := .next (Formed.ite h h)

@[simp] theorem State.setMailbox_mem (s : State) (m k) : (s.setMailbox m k).mem = s.mem := rfl

@[simp] theorem State.barPut_mem (s : State) (off b) : (s.barPut off b).mem = s.mem := by
  simp [State.barPut, apply_ite State.mem]

@[simp] theorem State.freeBytes_mem (s : State) (n) : (s.freeBytes n).2.mem = s.mem := rfl

@[simp] theorem State.pcie_mem (s : State) (r) : (s.pcie r).mem = s.mem := by
  have hput (off : Nat) (l : List (Byte × Nat)) (t : State) : (l.foldl (fun a x => a.barPut (off + x.2) x.1) t).mem = t.mem :=
    foldl_mem (fun a x => a.barPut_mem _ _) l t
  unfold State.pcie
  split
  · rfl
  · split
    · split <;> rfl
    · rfl
    · split
      · rfl
      · rw [hput]
    · rfl

@[simp] theorem State.stopMatch_mem (s : State) : (s.stopMatch).mem = s.mem := by
  unfold State.stopMatch
  split <;> rfl

theorem execRegisterWrite_formed {s : State} (h : Formed s) (core r v) : Ends (execRegisterWrite core r v s) :=
  .next (Formed.ite (h.of_eq (s.sysWrite_mem _ _ _)) (Formed.ite (State.mmioPut_formed h _ _ _) h))

theorem execTileEntryWrite_formed {s : State} (h : Formed s) (pa v) : Ends (execTileEntryWrite pa v s) :=
  .next (Formed.ite (State.placeStore_formed h _ _ _) h)

theorem execDebugWindowAccess_formed {s : State} (h : Formed s) (pa wr) : Ends (execDebugWindowAccess pa wr s) := by
  refine .next (Formed.ite h ?_)
  cases wr with
  | none => exact h
  | some v => exact State.placeStore_formed h _ _ _

theorem execMpostpopRead_formed {s : State} (h : Formed s) (core) : Ends (execMpostpopRead core s) :=
  .next (h.of_eq (s.mpostPop_mem core))

theorem State.l2Back_formed {s : State} (h : Formed s) (sec) : Formed (s.l2Back sec) := by
  grind [State.l2Back, State.pinSector_formed, State.sealNotice_mem]

@[simp] theorem State.countCe_mem (s : State) : (s.countCe).mem = s.mem := by
  grind [State.countCe, State.serviceReq_mem]

theorem State.meet_formed {s : State} (h : Formed s) (e) : Formed (s.meet e) := by
  cases e with
  | corrected n => exact h.of_eq s.countCe_mem
  | softError n => exact h.of_eq s.countCe_mem
  | damaged sec => exact h
  | badReg t code => exact Formed.ite (h.of_eq (s.updTeam_mem _ _ _ _)) (h.of_eq (s.updThread_mem _ _))
  | badRow core row => exact h.of_eq (s.setCore_mem _)
  | unitFailed die unit => exact h.of_eq (s.unitFails_mem _ _)
  | loaded im => exact State.load_formed h im
  | firmware core asid clause => exact h.of_eq (s.startFirmware_mem _ _ _)
  | unloaded n => exact h
  | fitted n bad => exact Formed.ite h h
  | badLink n => exact h
  | directoryBack => exact h

theorem State.envStep_formed {s : State} (h : Formed s) : Formed (s.envStep) := by
  unfold State.envStep
  split
  · exact h
  · rename_i rest _
    exact State.meet_formed (s := { s with env := rest }) h _

theorem execThrottleChange_formed {s : State} (h : Formed s) (d t) : Ends (execThrottleChange d t s) :=
  .next (State.trace_formed (h.of_eq (s.setDie_mem _ _)) _ _ _ _ _ _ _)

/-- Every state in which an access of an engine may end has the form. -/
def EngOut.Formed {α : Type} : EngOut α → Prop
  | .ok s _ | .fail s _ | .stall s _ _ | .wait s => Machine.Formed s

theorem EngOut.formed_ok {α : Type} {s : State} (h : Machine.Formed s) (a : α) : (EngOut.ok s a).Formed := h

theorem EngOut.formed_ite {α : Type} {a b : EngOut α} {p : Prop} [Decidable p] (ha : a.Formed) (hb : b.Formed) : (if p then a else b).Formed :=
  iteInduction (fun _ => ha) fun _ => hb

theorem EngOut.then_formed {α β : Type} {x : EngOut α} {k : State → α → EngOut β} (hx : x.Formed) (hk : ∀ t a, Machine.Formed t → (k t a).Formed) : (x.then k).Formed := by
  cases x with
  | ok t a => exact hk t a hx
  | fail t x => exact hx
  | stall t v c => exact hx
  | wait t => exact hx

theorem State.engReach_formed {s : State} (h : Formed s) (a va n write) : (s.engReach a va n write).Formed := by
  have ht := State.translate_formed h a va (if write then .wr else .rd) false
  unfold State.engReach
  split <;> rename_i he <;> rw [he] at ht
  · exact ht
  · exact ht
  · exact ht
  · refine EngOut.formed_ite ht ?_
    split
    · exact ht
    · exact ht
    · exact ht.of_eq (State.touchL2_mem _ _ _)

theorem State.engRange_formed {s : State} (h : Formed s) (a write ps acc) : (s.engRange a write ps acc).1.Formed := by
  induction ps generalizing s acc with
  | nil => exact h
  | cons p ps ih =>
    have hr := State.engReach_formed h a (BitVec.ofNat 64 p.1) p.2 write
    unfold State.engRange
    split <;> rename_i he <;> rw [he] at hr
    · exact ih hr _
    · exact hr
    · exact hr
    · exact hr

@[simp] theorem State.engHit_mem (s : State) (l w x rd) : (s.engHit l w x rd).mem = s.mem := by
  unfold State.engHit
  split <;> simp

theorem State.engPut_formed {s : State} (h : Formed s) (l w x bs) : Formed (s.engPut l w x bs) := by
  grind [State.engPut, State.putBytes_formed, State.freshSeal_mem, State.markL2_mem, State.engHit_mem]

theorem State.groupTable_formed {s : State} (h : Formed s) (a e) : (s.groupTable a e).Formed := by
  have hr := State.engRange_formed h a false (pieces (entAux e) (2 * 2 ^ entLogg e)) []
  unfold State.groupTable
  split <;> rename_i he <;> rw [he] at hr
  · split
    · exact hr
    · exact hr
  · exact hr
  · exact hr
  · exact hr

theorem State.entryCheck_formed {s : State} (h : Formed s) (l w eng e) : (s.entryCheck l w eng e).Formed := by
  unfold State.entryCheck
  dsimp only
  split
  · exact EngOut.formed_ite (EngOut.then_formed (State.groupTable_formed h _ _) fun t a ht => EngOut.formed_ok ht _) h
  · exact h
  · exact EngOut.formed_ite (EngOut.then_formed (State.groupTable_formed h _ _) fun t a ht => EngOut.formed_ok ht _) h

@[simp] theorem State.engRequest_mem (s : State) (l w sel va cause) : (s.engRequest l w sel va cause).mem = s.mem := rfl

@[simp] theorem State.setFlight_mem (s : State) (k) : (s.setFlight k).mem = s.mem := rfl

theorem State.engDesc_formed {s : State} (h : Formed s) (l w sel) : (s.engDesc l w sel).Formed :=
  EngOut.then_formed (State.engReach_formed h _ _ _ _) fun _ _ ht => EngOut.formed_ok ht _

theorem State.engSlot_formed {s : State} (h : Formed s) (l w d pos) : (s.engSlot l w d pos).Formed :=
  EngOut.then_formed (State.engReach_formed h _ _ _ _) fun _ _ ht => EngOut.formed_ok ht _

theorem State.takeEntry_formed {s : State} (h : Formed s) (l w sel) : Formed (s.takeEntry l w sel) := by
  have hreq (t : State) (va c) (ht : Formed t) : Formed (t.engRequest l w sel va c) := ht.of_eq (t.engRequest_mem _ _ _ _ _)
  unfold State.takeEntry
  dsimp only
  split
  · exact h
  · split
    · exact h
    · rename_i q _
      refine Formed.ite h ?_
      have h1 := State.engDesc_formed h l w sel
      split <;> rename_i he <;> rw [he] at h1
      · exact h1
      · exact h1
      · exact hreq _ _ _ h1
      · rename_i s1 loc
        refine Formed.ite h1 ?_
        have h2 := State.engSlot_formed (s := s1) h1 l w (s1.homeNat loc 64) q.count
        split <;> rename_i he <;> rw [he] at h2
        · exact h2
        · exact h2
        · exact hreq _ _ _ h2
        · rename_i s2 slot
          refine Formed.ite h2 (Formed.ite h2 ?_)
          have h3 := State.entryCheck_formed (s := s2) h2 l w sel.eng (s2.homeNat slot 64)
          split <;> rename_i he <;> rw [he] at h3
          · exact h3
          · exact h3
          · exact hreq _ _ _ h3
          · exact h3

@[simp] theorem State.takeOwnership_mem (s : State) (i xs) : (s.takeOwnership i xs).mem = s.mem :=
  foldl_mem (fun a sec => a.dropClean_mem sec) _ _

@[simp] theorem State.endFlight_mem (s : State) (i cause sub) : (s.endFlight i cause sub).mem = s.mem := by
  grind [State.endFlight, State.setFlight_mem]

theorem State.engIssue_formed {s : State} (h : Formed s) (i va len) : (s.engIssue i va len).Formed := by
  have hr := State.engRange_formed h (s.engineAgent i.launch i.wg) true (pieces va len) []
  unfold State.engIssue
  generalize s.engRange (s.engineAgent i.launch i.wg) true (pieces va len) [] = r at hr ⊢
  grind [EngOut.Formed, State.takeOwnership_mem]

theorem State.engRead_formed {s : State} (h : Formed s) (i va len) : (s.engRead i va len).Formed := by
  have hr := State.engRange_formed h (s.engineAgent i.launch i.wg) false (pieces va len) []
  unfold State.engRead
  split <;> rename_i he <;> rw [he] at hr
  · split
    · exact hr
    · exact Formed.of_eq hr (foldl_mem (fun a x => a.engHit_mem _ _ x true) _ _)
  · exact hr
  · exact hr
  · exact hr

theorem State.writeSectors_formed {s : State} (h : Formed s) (i xs) : (s.writeSectors i xs).Formed := by
  induction xs generalizing s with
  | nil => exact h
  | cons x xs ih =>
    unfold State.writeSectors
    split
    · exact h
    · exact h
    · refine EngOut.formed_ite h ?_
      have hp := State.engPut_formed h i.launch i.wg x.1 x.2
      dsimp only
      split
      · exact ih (hp.of_eq (State.setFlight_mem _ _))
      · exact hp

theorem State.writeTodo_formed {s : State} (h : Formed s) (l w sel part) : Formed (s.writeTodo l w sel part) := by
  grind [State.writeTodo, State.endFlight_mem, State.writeSectors_formed, EngOut.Formed]

@[simp] theorem State.setTodo_mem (s : State) (i xs) : (s.setTodo i xs).mem = s.mem := by
  unfold State.setTodo
  split <;> rfl

theorem State.copyRead_formed {s : State} (h : Formed s) (i) : (s.copyRead i).Formed := by
  refine EngOut.then_formed (State.engIssue_formed h _ _ _) fun t ds ht => EngOut.then_formed (State.engRead_formed ht _ _ _) fun u bs hu => ?_
  split
  · exact hu
  · exact hu

theorem State.copyEntry_formed {s : State} (h : Formed s) (l w sel part) : Formed (s.copyEntry l w sel part) := by
  grind [State.copyEntry, State.engRequest_mem, State.endFlight_mem, State.setTodo_mem, State.copyRead_formed, State.writeTodo_formed, EngOut.Formed]

@[simp] theorem State.nopEntry_mem (s : State) (l w sel) : (s.nopEntry l w sel).mem = s.mem := by
  grind [State.nopEntry, State.endFlight_mem]

theorem State.collSources_formed {s : State} (h : Formed s) (ms acc) : (s.collSources ms acc).1.Formed := by
  induction ms generalizing s acc with
  | nil => exact h
  | cons m ms ih =>
    have hr := State.engRead_formed h m.2 (entSrc m.2.bits.toNat) (entLen m.2.bits.toNat)
    unfold State.collSources
    split <;> rename_i he <;> rw [he] at hr
    · exact ih hr _
    · exact hr
    · exact hr
    · exact hr

theorem State.collIssue_formed {s : State} (h : Formed s) (len ms acc) : (s.collIssue len ms acc).1.Formed := by
  induction ms generalizing s acc with
  | nil => exact h
  | cons m ms ih =>
    have hr := State.engIssue_formed h m.2 (entDst m.2.bits.toNat) len
    unfold State.collIssue
    split <;> rename_i he <;> rw [he] at hr
    · exact ih hr _
    · exact hr
    · exact hr
    · exact hr

@[simp] theorem State.collReady_mem (s : State) (bs m) : (s.collReady bs m).mem = s.mem := by
  unfold State.collReady
  split <;> simp

theorem State.collStop_formed {α : Type} (ms) {r : EngOut α × Option InFlight} {k : State → α → State} (hr : r.1.Formed) (hk : ∀ t a, Formed t → Formed (k t a)) : Formed (State.collStop ms r k) := by
  obtain ⟨o, m⟩ := r
  cases o with
  | ok t a => exact hk t a hr
  | fail t x => exact Formed.of_eq hr (foldl_mem (fun a m => a.endFlight_mem _ _ _) ms t)
  | stall t v c =>
    cases m with
    | none => exact hr
    | some m => exact Formed.of_eq hr (State.engRequest_mem _ _ _ _ _ _)
  | wait t => exact hr

theorem State.collEntry_formed {s : State} (h : Formed s) (l w sel part) : Formed (s.collEntry l w sel part) := by
  unfold State.collEntry
  dsimp only
  split
  · exact h
  · refine Formed.ite h (Formed.ite (State.writeTodo_formed h _ _ _ _) ?_)
    split
    · exact h
    · rename_i ms _
      refine State.collStop_formed ms (State.collIssue_formed h _ _ _) fun t ds ht => ?_
      refine State.collStop_formed ms (State.collSources_formed ht _ _) fun u cs hu => ?_
      refine Formed.ite (hu.of_eq (foldl_mem (fun a m => a.endFlight_mem _ _ _) ms u)) ?_
      refine State.collStop_formed ms (State.groupTable_formed hu _ _) fun v tbl hv => ?_
      have h4 (bs : List Byte) : Formed (ds.foldl (fun a m => a.collReady bs m) { v with freeCount := v.freeCount + 2 ^ 30 }) :=
        hv.of_eq (foldl_mem (fun a m => a.collReady_mem bs m) ds _)
      split
      · exact foldl_formed (fun a m ha => State.writeTodo_formed ha _ _ _ _) ms (h4 _)
      · exact State.writeTodo_formed (h4 _) _ _ _ _

@[simp] theorem State.tilesAfter_mem (s : State) (l w seq good) : (s.tilesAfter l w seq good).mem = s.mem := rfl

theorem State.completeEntry_formed {s : State} (h : Formed s) (l w sel) : Formed (s.completeEntry l w sel) := by
  unfold State.completeEntry
  dsimp only
  split
  · split
    · rename_i i W _ _ _ _ cause sub q _ _
      have hw : Formed (match s.engDesc l w sel with
        | .ok s1 loc =>
          let d := s1.homeNat loc 64
          let s2 := match s1.engSlot l w d i.pos with
            | .ok s2 slot => (s2.writeHome (slot + 32) (leBytes 12 ((seqOf sel (i.pos + 1)).toNat + cause * 2 ^ 64 + sub % 2 ^ 16 * 2 ^ 80)) (dieOf W.core)).getD s2
            | _ => s1
          let s3 := if cause ≠ 0 ∧ bitsAt d 255 192 = 0 then
            (s2.writeHome (loc + 24) (leBytes 12 ((seqOf sel (i.pos + 1)).toNat + cause * 2 ^ 64 + sub % 2 ^ 16 * 2 ^ 80)) (dieOf W.core)).getD s2 else s2
          (s3.writeHome (loc + 16) (leBytes 8 (seqOf sel (i.pos + 1)).toNat) (dieOf W.core)).getD s3
        | _ => s) := by
        have h1 := State.engDesc_formed h l w sel
        split
        · rename_i s1 loc he
          rw [he] at h1
          have h2 : Formed (match s1.engSlot l w (s1.homeNat loc 64) i.pos with
            | .ok s2 slot => (s2.writeHome (slot + 32) (leBytes 12 ((seqOf sel (i.pos + 1)).toNat + cause * 2 ^ 64 + sub % 2 ^ 16 * 2 ^ 80)) (dieOf W.core)).getD s2
            | _ => s1) := by
            have h2 := State.engSlot_formed (s := s1) h1 l w (s1.homeNat loc 64) i.pos
            split
            · rename_i he
              rw [he] at h2
              exact State.writeHomeD_formed h2 _ _ _
            · exact h1
          exact State.writeHomeD_formed (Formed.ite (State.writeHomeD_formed h2 _ _ _) h2) _ _ _
        · exact h
      exact Formed.ite (hw.of_eq (State.tilesAfter_mem _ _ _ _ _)) hw
    · exact h
  · exact h

theorem State.completion_formed {s : State} (h : Formed s) (l w sel) : Formed (s.completion l w sel) :=
  Formed.ite h (State.completeEntry_formed h _ _ _)

@[simp] theorem State.updCursor_mem (s : State) (core c f) : (s.updCursor core c f).mem = s.mem := rfl

@[simp] theorem State.settleReel_mem (s : State) (core) : (s.settleReel core).mem = s.mem := by
  grind [State.settleReel, State.setCore_mem]

@[simp] theorem State.endCursor_mem (s : State) (core c) : (s.endCursor core c).mem = s.mem := by
  grind [State.endCursor, State.setCore_mem, State.settleReel_mem]

@[simp] theorem State.moveCursor_mem (s : State) (core c next) : (s.moveCursor core c next).mem = s.mem := by
  grind [State.moveCursor, State.updCursor_mem, State.endCursor_mem]

@[simp] theorem State.stopCursor_mem (s : State) (core c x) : (s.stopCursor core c x).mem = s.mem := by
  unfold State.stopCursor
  split <;> simp

theorem State.reelThen_formed {α : Type} (core c o) {x : EngOut α} {k : State → α → State} (hx : x.Formed) (hk : ∀ t a, Formed t → Formed (k t a)) : Formed (State.reelThen core c o x k) := by
  cases x with
  | ok t a => exact hk t a hx
  | fail t x => exact Formed.of_eq hx (t.stopCursor_mem _ _ _)
  | stall t v c => exact hx
  | wait t => exact hx

theorem State.reelRead_formed {s : State} (h : Formed s) (o va n) : (s.reelRead o va n).Formed := by
  refine EngOut.then_formed (State.engReach_formed h _ _ _ _) fun t x ht => ?_
  exact EngOut.formed_ite ht (EngOut.formed_ite ht (EngOut.formed_ite ht (ht.of_eq (t.engHit_mem _ _ _ _))))

theorem State.reelNode_formed {s : State} (h : Formed s) (core c kind) {k : State → WgRef → Cursor → Nat → State} (hk : ∀ t o cu n, Formed t → Formed (k t o cu n)) : Formed (s.reelNode core c kind k) := by
  unfold State.reelNode
  dsimp only
  split
  · refine Formed.ite h (State.reelThen_formed _ _ _ (State.reelRead_formed h _ _ _) fun t n ht => ?_)
    exact Formed.ite (ht.of_eq (t.stopCursor_mem _ _ _)) (Formed.ite ht (hk _ _ _ _ ht))
  · exact h

theorem execReelEnd_formed {s : State} (h : Formed s) (core c) : Ends (execReelEnd core c s) :=
  .next (State.reelNode_formed h _ _ _ fun t _ _ _ ht => ht.of_eq (t.endCursor_mem _ _))

theorem State.reelAppend_formed {s : State} (h : Formed s) (core c o sel e next) : Formed (s.reelAppend core c o sel e next) := by
  have hstop (t : State) (x) (ht : Formed t) : Formed (t.stopCursor core c x) := ht.of_eq (t.stopCursor_mem _ _ _)
  unfold State.reelAppend
  dsimp only
  split
  · exact hstop _ _ h
  · refine Formed.ite (hstop _ _ h) (State.reelThen_formed _ _ _ (State.engReach_formed h _ _ _ _) fun t x ht => ?_)
    refine Formed.ite ht (Formed.ite (hstop _ _ ht) (Formed.ite (hstop _ _ ht) (Formed.ite ht ?_)))
    refine State.reelThen_formed _ _ _ (State.engSlot_formed ht _ _ _ _) fun u slot hu => Formed.ite hu ?_
    rw [Formed, State.moveCursor_mem, State.post_mem]
    exact State.writeHomeD_formed (State.putMarked_formed hu _ _ _) _ _ _

theorem State.reelEntry_formed {s : State} (h : Formed s) (core c eng) : Formed (s.reelEntry core c eng) := by
  refine State.reelNode_formed h _ _ _ fun t o _ n ht => State.reelThen_formed _ _ _ (State.reelRead_formed ht _ _ _) fun u e hu => ?_
  refine State.reelThen_formed _ _ _ (State.entryCheck_formed hu _ _ _ _) fun v k hv => ?_
  split
  · exact hv.of_eq (v.stopCursor_mem _ _ _)
  · exact State.reelAppend_formed hv _ _ _ _ _ _

theorem State.reelWait_formed {s : State} (h : Formed s) (core c) : Formed (s.reelWait core c) := by
  have hstop (t : State) (x) (ht : Formed t) : Formed (t.stopCursor core c x) := ht.of_eq (t.stopCursor_mem _ _ _)
  have hmove (t : State) (n) (ht : Formed t) : Formed (t.moveCursor core c n) := ht.of_eq (t.moveCursor_mem _ _ _)
  have hupd (t : State) (f) (ht : Formed t) : Formed (t.updCursor core c f) := ht.of_eq (t.updCursor_mem _ _ _)
  refine State.reelNode_formed h _ _ _ fun t o cu n ht => ?_
  refine Formed.ite (ht.of_eq (t.endCursor_mem _ _)) ?_
  split
  · exact hstop _ _ ht
  · refine Formed.ite (hupd _ _ ht) (Formed.ite ?_ ?_)
    · split
      · exact Formed.ite (hstop _ _ ht) (hmove _ _ ht)
      · exact hmove _ _ ht
    · exact State.reelThen_formed _ _ _ (State.engDesc_formed (hupd _ _ ht) _ _ _) fun u loc hu => Formed.ite (hstop _ _ hu) (hmove _ _ hu)

theorem execReelWake_formed {s : State} (h : Formed s) (core c) : Ends (execReelWake core c s) :=
  .next (State.reelNode_formed h _ _ _ fun t _ _ _ ht => ht.of_eq ((State.moveCursor_mem _ _ _ _).trans (t.wake_mem _ _ _)))

theorem execReelCond_formed {s : State} (h : Formed s) (core c) : Ends (execReelCond core c s) :=
  .next (State.reelNode_formed h _ _ _ fun _ _ _ _ ht =>
    State.reelThen_formed _ _ _ (State.reelRead_formed ht _ _ _) fun u _ hu => hu.of_eq (u.moveCursor_mem _ _ _))

theorem execReelWhile_formed {s : State} (h : Formed s) (core c) : Ends (execReelWhile core c s) := by
  refine .next (State.reelNode_formed h _ _ _ fun _ _ _ _ ht => State.reelThen_formed _ _ _ (State.reelRead_formed ht _ _ _) fun u _ hu => ?_)
  have hm (f n) : Formed ((u.updCursor core c f).moveCursor core c n) := hu.of_eq ((State.moveCursor_mem _ _ _ _).trans (u.updCursor_mem _ _ _))
  exact Formed.ite (hm _ _) (hm _ _)

@[simp] theorem State.mailboxDone_mem (s : State) (m result words) : (s.mailboxDone m result words).mem = s.mem := rfl

/-- Every state that an operation of a mailbox may leave has the form. -/
inductive MailOut.Formed : MailOut → Prop
  | result (n : Nat) : MailOut.Formed (.result n)
  | done {s : State} (h : Machine.Formed s) (ws : List Nat) : MailOut.Formed (.done s ws)
  | wait {s : State} (h : Machine.Formed s) : MailOut.Formed (.wait s)

theorem State.serve_formed {s : State} (h : Formed s) (m op fields bad die) {k : State → Mailbox → MailOut} (hk : ∀ b, (k s b).Formed) : Formed (s.serve m op fields bad die k) := by
  have hdone (t : State) (n ws) (ht : Formed t) : Formed (t.mailboxDone m n ws) := ht.of_eq (t.mailboxDone_mem _ _ _)
  unfold State.serve
  dsimp only
  refine Formed.ite h (Formed.ite (hdone _ _ _ h) (Formed.ite (hdone _ _ _ h) (Formed.ite (hdone _ _ _ h) ?_)))
  have hb := hk (s.mailbox m)
  split <;> rename_i he <;> rw [he] at hb
  · exact hdone _ _ _ h
  · cases hb with | done ht => exact hdone _ _ _ ht
  · cases hb with | wait ht => exact ht

theorem MailOut.formed_ite {a b : MailOut} {p : Prop} [Decidable p] (ha : a.Formed) (hb : b.Formed) : (if p then a else b).Formed :=
  iteInduction (fun _ => ha) fun _ => hb

theorem execMailboxUnknownOp_formed {s : State} (h : Formed s) (m) : Ends (execMailboxUnknownOp m s) :=
  .next (Formed.ite h (Formed.ite (h.of_eq (s.mailboxDone_mem _ _ _)) (Formed.ite (h.of_eq (s.mailboxDone_mem _ _ _)) h)))

theorem State.pickFree_mem {s t : State} {bound used a} (ht : s.pickFree bound used = some (a, t)) : t.mem = s.mem := by
  obtain ⟨_, _, hq⟩ := Option.map_eq_some_iff.mp ht
  obtain ⟨rfl, rfl⟩ := Prod.mk.inj hq
  rfl

theorem execCreateAs_formed {s : State} (h : Formed s) (m) : Ends (execCreateAs m s) := by
  refine .next (State.serve_formed h _ _ _ _ _ fun b => ?_)
  split
  · exact .result _
  · rename_i t hp
    refine .done ?_ _
    exact h.of_eq (t := t) (State.pickFree_mem hp)

theorem execDestroyAs_formed {s : State} (h : Formed s) (m) : Ends (execDestroyAs m s) := by
  refine .next (State.serve_formed h _ _ _ _ _ fun b => MailOut.formed_ite (.result _) (.done ?_ _))
  exact h.of_eq (s.tlbSpace_mem (b.word 1))

theorem State.registerSq_formed {s : State} (h : Formed s) (b) : (s.registerSq b).Formed := by
  unfold State.registerSq
  dsimp only
  refine MailOut.formed_ite (.result _) (MailOut.formed_ite (.result _) (MailOut.formed_ite (.result _) ?_))
  split
  · exact .result _
  · rename_i id t hp
    have ht : Formed t := h.of_eq (State.pickFree_mem hp)
    have hf := State.frontReach_formed ht b.dieOf (b.word 1) (BitVec.ofNat 64 (b.word 2)) 64 true (k := fun s loc =>
        if loc < 2 ^ 51 && !sqDescBad (s.homeNat loc 64) then
          .ok (s.putMarked b.dieOf (loc + 12) (leBytes 4 (bitsAt (s.homeNat loc 64) 127 106 * 1024 + id) ++ leBytes 8 0)) (s.homeBytes loc 64)
        else .fail s { cause := 0x04a, sub := 0x02 })
      (fun u loc hu => FrontOut.formed_ite (FrontOut.formed_ok (State.putMarked_formed (die := b.dieOf) hu (loc + 12) _) _) hu) false
    split <;> rename_i he
    · rw [he] at hf
      refine .done ?_ _
      exact hf
    · rw [he] at hf
      exact .wait hf
    · exact .result _

theorem execRegisterSq_formed {s : State} (h : Formed s) (m) : Ends (execRegisterSq m s) :=
  .next (State.serve_formed h _ _ _ _ _ (k := fun s b => s.registerSq b) fun b => State.registerSq_formed h b)

theorem execUnregisterSq_formed {s : State} (h : Formed s) (m) : Ends (execUnregisterSq m s) := by
  refine .next (State.serve_formed h _ _ _ _ _ fun _ => MailOut.formed_ite (.result _) (.done ?_ _))
  exact h

theorem execConfigWq_formed {s : State} (h : Formed s) (m) : Ends (execConfigWq m s) := by
  refine .next (State.serve_formed h _ _ _ _ _ fun b => ?_)
  refine MailOut.formed_ite (.result _) ?_
  refine MailOut.formed_ite (.result _) ?_
  exact .done (h.of_eq (s.setWorkq_mem _)) _

theorem execMmioWrite_formed {s : State} (h : Formed s) (m) : Ends (execMmioWrite m s) :=
  .next (State.serve_formed h _ _ _ _ _ fun _ => .done (State.placeStore_formed h _ _ _) _)

theorem execMmioRead_formed {s : State} (h : Formed s) (m) : Ends (execMmioRead m s) := .next (State.serve_formed h _ _ _ _ _ fun _ => .done h _)

theorem execStatus_formed {s : State} (h : Formed s) (m) : Ends (execStatus m s) := .next (State.serve_formed h _ _ _ _ _ fun _ => .done h _)

theorem execSetBudget_formed {s : State} (h : Formed s) (m) : Ends (execSetBudget m s) := by
  refine .next (State.serve_formed h _ _ _ _ _ fun _ => .done ?_ _)
  exact h

theorem State.doorbell_formed {s : State} (h : Formed s) (sq v) : Formed (s.doorbell sq v) := by
  grind [State.doorbell, State.frontRead_formed, FrontOut.Formed]

end Sys2Proof.Machine

/-!
The form of memory: packets, launches, placement, retirement, kills and tile covers.
-/

namespace Sys2Proof.Machine
open Sys2Proof

@[simp] theorem State.setSq_mem (s : State) (k) : (s.setSq k).mem = s.mem := rfl

@[simp] theorem State.updPacket_mem (s : State) (sq pos f) : (s.updPacket sq pos f).mem = s.mem := by
  unfold State.updPacket
  split <;> rfl

@[simp] theorem State.killSq_mem (s : State) (sq) : (s.killSq sq).mem = s.mem := by
  unfold State.killSq
  split <;> rfl

theorem State.writePacket_formed {s : State} (h : Formed s) (sq pos) : Formed (s.writePacket sq pos) := by
  unfold State.writePacket
  split
  · exact h
  · rename_i q _
    split
    · exact h
    · split
      · exact h
      · rename_i cause sub _
        refine Formed.ite h ?_
        have hw := State.frontWrite_formed h q.die q.asid (q.slotVa pos + 32) (leBytes 12 (sqSeq sq (pos + 1) + cause % 512 * 2 ^ 64 + sub % 2 ^ 16 * 2 ^ 80))
        split <;> rename_i he <;> rw [he] at hw
        · exact Formed.of_eq hw (State.updPacket_mem _ _ _ _)
        · exact Formed.of_eq hw ((State.killSq_mem _ _).trans (State.updPacket_mem _ _ _ _))
        · exact Formed.of_eq hw (State.frontRequest_mem _ _ _ _ _ _)
        · exact hw

theorem State.writeSeq_formed {s : State} (h : Formed s) (sq) : Formed (s.writeSeq sq) := by
  grind [State.writeSeq, State.frontRequest_mem, State.setSq_mem, State.frontWrite_formed, FrontOut.Formed]

theorem State.flushSq_formed {s : State} (h : Formed s) (sq) : Formed (s.flushSq sq) := by
  unfold State.flushSq
  split
  · exact h
  · rename_i q _
    have h1 : Formed (q.packets.foldl (fun a p => a.writePacket sq p.pos) s) := foldl_formed (fun _ _ ha => State.writePacket_formed ha _ _) _ h
    dsimp only
    split
    · exact h1
    · exact State.writeSeq_formed (h1.of_eq (State.setSq_mem _ _)) _

theorem State.endPacket_formed {s : State} (h : Formed s) (sq pos cause sub) : Formed (s.endPacket sq pos cause sub) := by
  grind [State.endPacket, State.setSq_mem, State.flushSq_formed]

@[simp] theorem State.takePacket_mem (s : State) (q b) : (s.takePacket q b).mem = s.mem := rfl

/-- Every state in which the start of a packet may end has the form. -/
inductive StartOut.Formed : StartOut → Prop
  | ends {s : State} (h : Machine.Formed s) (cause sub : Nat) : StartOut.Formed (.ends s cause sub)
  | runs {s : State} (h : Machine.Formed s) : StartOut.Formed (.runs s)
  | ask {s : State} (h : Machine.Formed s) (asid : Nat) (va : BitVec 64) (cause : Nat) : StartOut.Formed (.ask s asid va cause)
  | wait {s : State} (h : Machine.Formed s) : StartOut.Formed (.wait s)

theorem StartOut.formed_ite {a b : StartOut} {p : Prop} [Decidable p] (ha : a.Formed) (hb : b.Formed) : (if p then a else b).Formed :=
  iteInduction (fun _ => ha) fun _ => hb

theorem State.frontOp_formed {s : State} (h : Formed s) (sq pos kind) {k : State → SubQueue → Nat → StartOut} (hk : ∀ q b, (k s q b).Formed) : Formed (s.frontOp sq pos kind k) := by
  unfold State.frontOp
  split
  · exact h
  · rename_i q _
    refine Formed.ite h ?_
    split
    · exact h
    · exact h.of_eq (s.frontRequest_mem _ _ _ _ _)
    · exact Formed.ite (State.endPacket_formed (h.of_eq (s.takePacket_mem _ _)) _ _ _ _) h
    · rename_i b _
      refine Formed.ite h ?_
      have hb := hk q b
      split <;> rename_i he <;> rw [he] at hb
      · cases hb with | ends ht => exact State.endPacket_formed (ht.of_eq (State.takePacket_mem _ _ _)) _ _ _ _
      · cases hb with | runs ht => exact ht.of_eq (State.takePacket_mem _ _ _)
      · cases hb with | ask ht => exact ht.of_eq (State.frontRequest_mem _ _ _ _ _ _)
      · cases hb with | wait ht => exact ht

theorem execNopPacket_formed {s : State} (h : Formed s) (sq pos) : Ends (execNopPacket sq pos s) :=
  .next (State.frontOp_formed h _ _ _ fun _ _ => .ends h _ _)

theorem State.feedWrite_formed {s : State} (h : Formed s) (Q p rs) : (s.feedWrite Q p rs).Formed := by
  induction rs generalizing s p with
  | nil => exact h
  | cons r rs ih =>
    unfold State.feedWrite
    grind [FrontOut.Formed, State.frontWrite_formed]

theorem State.feedStart_formed {s : State} (h : Formed s) (q b) : (s.feedStart q b).Formed := by
  unfold State.feedStart
  dsimp only
  iterate 6 refine StartOut.formed_ite (.ends h _ _) ?_
  have h1 := State.frontRuns_formed h q.die q.asid (BitVec.ofNat 64 (pktArg0 b)) (bitsAt b 159 128) []
  split <;> rename_i he <;> rw [he] at h1
  · exact .ends h1 _ _
  · exact .ask h1 _ _ _
  · exact .wait h1
  · rename_i s1 bs
    have h2 := State.feedWrite_formed (s := s1) h1 (s.pktQueue b) (s.pktQueue b).reserve ((List.range (bitsAt b 159 128)).map (fun i => (bs.drop (64 * i)).take 64))
    split <;> rename_i he <;> rw [he] at h2
    · exact .ends h1 _ _
    · exact .ask h1 _ _ _
    · exact .wait h1
    · exact .ends (Formed.of_eq h2 (State.setWorkq_mem _ _)) _ _

theorem execFeed_formed {s : State} (h : Formed s) (sq pos) : Ends (execFeed sq pos s) :=
  .next (State.frontOp_formed h _ _ _ (k := fun s q b => s.feedStart q b) fun q b => State.feedStart_formed h q b)

theorem execClose_formed {s : State} (h : Formed s) (sq pos) : Ends (execClose sq pos s) :=
  .next (State.frontOp_formed h _ _ _ fun _ _ => StartOut.formed_ite (.ends h _ _) (.ends (h.of_eq (s.setWorkq_mem _)) _ _))

theorem State.flushCover_formed {s : State} (h : Formed s) (l) : Formed (s.flushCover l) := by
  refine Formed.of_eq ?_ (State.setLaunch_mem _ _)
  refine List.foldlRecOn (motive := fun x : State × List (BitVec 64 × List Byte) => Formed x.1) _ _ h fun x hx o _ => ?_
  have hw := State.frontWrite_formed hx (s.launch l).die (s.launch l).asid o.1 o.2
  grind [FrontOut.Formed]

theorem State.coverStore_formed {s : State} (h : Formed s) (l va bs) : Formed (s.coverStore l va bs) :=
  State.flushCover_formed (h.of_eq (s.setLaunch_mem _)) _

theorem State.coverWords_formed {s : State} (h : Formed s) (l) : Formed (s.coverWords l) := by
  grind [State.coverWords, State.coverStore_formed]

theorem State.setCtrl_formed {s : State} (h : Formed s) (l C) : Formed (s.setCtrl l C) := State.coverWords_formed (h.of_eq (s.setLaunch_mem _)) _

theorem State.writeRanges_formed {s : State} (h : Formed s) (die asid va rs) : (s.writeRanges die asid va rs).Formed := by
  induction rs generalizing s va with
  | nil => exact h
  | cons r rs ih =>
    unfold State.writeRanges
    grind [FrontOut.Formed, State.frontWrite_formed]

@[simp] theorem State.registerQueues_mem (s : State) (l R home) : (s.registerQueues l R home).mem = s.mem := by
  refine foldl_mem (fun a n => ?_) _ s
  dsimp only
  split
  · exact a.setWorkq_mem _
  · rfl

theorem State.addLaunch_formed {s : State} (h : Formed s) (q R entry0 block) : Formed (s.addLaunch q R entry0 block) := by
  unfold State.addLaunch
  refine State.coverWords_formed ?_ _
  rw [Formed, State.registerQueues_mem]
  exact h

theorem State.readBlock_formed {s : State} (h : Formed s) (q R) {k : State → Option Nat → StartOut} (hk : ∀ t x, Formed t → (k t x).Formed) : (s.readBlock q R k).Formed := by
  unfold State.readBlock
  refine StartOut.formed_ite (hk _ _ h) (StartOut.formed_ite (hk _ _ h) ?_)
  have hr := State.frontRead_formed h q.die q.asid R.auxptr 64
  split <;> rename_i he <;> rw [he] at hr
  · exact hk _ _ hr
  · exact .ends hr _ _
  · exact .ask hr _ _ _
  · exact .wait hr

theorem State.readEntry0_formed {s : State} (h : Formed s) (q R) {k : State → BitVec 64 → StartOut} (hk : ∀ t x, Formed t → (k t x).Formed) : (s.readEntry0 q R k).Formed := by
  unfold State.readEntry0
  refine StartOut.formed_ite (hk _ _ h) ?_
  have hr := State.frontRead_formed h q.die q.asid R.entrytab 8
  split <;> rename_i he <;> rw [he] at hr
  · exact hk _ _ hr
  · exact .ends hr _ _
  · exact .ask hr _ _ _
  · exact .wait hr

theorem State.readRecord_formed {s : State} (h : Formed s) (q va) {k : State → Nat → StartOut} (hk : ∀ t x, Formed t → (k t x).Formed) : (s.readRecord q va k).Formed := by
  unfold State.readRecord
  split
  · exact hk _ _ h
  · have hr := State.frontRuns_formed h q.die q.asid va 4 []
    split <;> rename_i he <;> rw [he] at hr
    · exact .ends hr _ _
    · exact .ask hr _ _ _
    · exact .wait hr
    · exact hk _ _ (Formed.of_eq hr (State.setSq_mem _ _))

theorem State.launchFrom_formed {s : State} (h : Formed s) (q va n) : (s.launchFrom q va n).Formed := by
  unfold State.launchFrom
  refine State.readBlock_formed h _ _ fun t block ht => State.readEntry0_formed ht _ _ fun u entry0 hu => ?_
  split
  · exact .ends hu _ _
  · have hw := State.writeRanges_formed hu q.die q.asid (va + 256) (if (launchRecOf n).kind = 2 then (launchRecOf n).ranges else [])
    split <;> rename_i he <;> rw [he] at hw
    · exact .runs (State.addLaunch_formed hw _ _ _ _)
    · exact .ends hw _ _
    · exact .ask hu _ _ _
    · exact .wait hu

theorem State.launchStart_formed {s : State} (h : Formed s) (q b) : (s.launchStart q b).Formed :=
  StartOut.formed_ite (.ends h _ _) (State.readRecord_formed h _ _ fun _ _ ht => State.launchFrom_formed ht _ _ _)

theorem execLaunch_formed {s : State} (h : Formed s) (sq pos) : Ends (execLaunch sq pos s) :=
  .next (State.frontOp_formed h _ _ _ (k := fun s q b => s.launchStart q b) fun q b => State.launchStart_formed h q b)

theorem State.tileStart_formed {s : State} (h : Formed s) (l t) : Formed (s.tileStart l t).1 := by
  unfold State.tileStart
  dsimp only
  split
  · exact h
  · have h1 (C1 : Controller) (p : Prop) [Decidable p] (L) : Formed (if p then s.setLaunch L else s.setCtrl l C1) :=
      Formed.ite (h.of_eq (s.setLaunch_mem _)) (State.setCtrl_formed h _ _)
    exact Formed.ite (h1 _ _ _) (State.coverStore_formed (h1 _ _ _) _ _ _)

theorem State.squaresDone_formed {s : State} (h : Formed s) (l) : Formed (s.squaresDone l) :=
  foldl_formed (fun _ _ ha => foldl_formed (fun _ _ hb => Formed.ite (State.nodeDone_formed hb _ _ _ _) hb) _ ha) _ h

theorem State.newPartition_formed {s : State} (h : Formed s) (L home c size base tbase) : Formed (s.newPartition L home c size base tbase) :=
  h.filter _ rfl

theorem State.bindQueue_formed {s : State} (h : Formed s) (l w sel hw r) (hr : s.bindQueue l w sel hw = some r) : Formed r.1 := by
  have he := State.engReach_formed h (s.engineAgent l w) (s.descVa l w sel) 64 true
  unfold State.bindQueue at hr
  split at hr
  · rename_i hq
    rw [hq] at he
    dsimp only at hr
    split at hr
    · obtain rfl := Option.some.inj hr
      exact he
    · obtain rfl := Option.some.inj hr
      exact State.writeHomeD_formed he _ _ _
  · exact nomatch hr
  · obtain rfl := Option.some.inj hr
    exact h

theorem State.bindQueues_formed {s t : State} (h : Formed s) (l w qs) (ht : s.bindQueues l w qs = some t) : Formed t := by
  induction qs generalizing s with
  | nil => exact Option.some.inj ht ▸ h
  | cons q qs ih =>
    obtain ⟨r, hr, hb⟩ := Option.bind_eq_some_iff.mp ht
    exact ih ((State.bindQueue_formed h _ _ _ _ _ hr).of_eq (State.setWg_mem _ _)) hb

@[simp] theorem State.mapContext_mem (s : State) (L w ctx) : (s.mapContext L w ctx).mem = s.mem := s.freeFrame_mem

theorem State.placeAt_formed {s t : State} (h : Formed s) (L w home ctx r) (ht : s.placeAt L w home ctx r = some t) : Formed t := by
  unfold State.placeAt at ht
  dsimp only at ht
  obtain ⟨u, hu, rfl⟩ := Option.map_eq_some_iff.mp ht
  have hpart : Formed (match r.part, L.recd.partSize with
      | some (b, t), some n => s.newPartition L home r.core n b t
      | _, _ => s) := by
    split
    · exact State.newPartition_formed h _ _ _ _ _ _
    · exact h
  have hu4 : Formed u := by
    refine State.bindQueues_formed ?_ _ _ _ hu
    rw [Formed, State.mapContext_mem]
    split
    · exact State.tileStart_formed hpart _ _
    · exact hpart
  rw [Formed, State.setLaunch_mem, foldl_mem (fun a T => a.addTeam_mem T)]
  exact hu4

theorem State.placeNext_formed {s t : State} (h : Formed s) (l) (ht : s.placeNext l = some t) : Formed t := by
  unfold State.placeNext at ht
  split at ht
  · exact nomatch ht
  · dsimp only at ht
    split at ht
    · exact nomatch ht
    · split at ht
      · exact State.placeAt_formed h _ _ _ _ _ ht
      · exact nomatch ht

theorem State.placeMany_formed {s t : State} (h : Formed s) (l n) (ht : s.placeMany l n = some t) : Formed t := by
  induction n generalizing s with
  | zero => exact Option.some.inj ht ▸ h
  | succ n ih =>
    obtain ⟨u, hu, hn⟩ := Option.bind_eq_some_iff.mp ht
    exact ih (State.placeNext_formed h _ hu) hn

theorem State.place_formed {s : State} (h : Formed s) (l) : Formed (s.place l) := by
  unfold State.place
  split
  · exact h
  · rename_i L _
    refine Formed.ite h ?_
    cases hm : s.placeMany l (if L.recd.phased || L.recd.kind = 2 then L.recd.wgcount - L.nextWg else 1) with
    | none => exact h
    | some t => exact State.squaresDone_formed (State.placeMany_formed h _ _ hm) _

@[simp] theorem State.feTick_mem (s : State) : (s.feTick).mem = s.mem := foldl_mem (fun a _ => a.setDie_mem _ _) _ s

theorem State.blockRecords_formed {s : State} (h : Formed s) (W) : Formed (s.blockRecords W) :=
  foldl_formed (fun _ _ ha => State.trace_formed ha _ _ _ _ _ _ _) _ h

theorem State.viewLeaves_formed {s : State} (h : Formed s) (l c) : Formed (s.viewLeaves l c) :=
  Formed.ite h ((State.bytesHome_formed h _ _ _).of_eq (State.cleanCore_mem _ c))

@[simp] theorem State.partLeaves_mem (s : State) (l home) : (s.partLeaves l home).mem = s.mem := by
  unfold State.partLeaves
  split <;> rfl

@[simp] theorem State.dropWg_mem (s : State) (W) : (s.dropWg W).mem = s.mem := rfl

@[simp] theorem State.freeTiles_mem (s : State) (W) : (s.freeTiles W).mem = s.mem := rfl

theorem State.retire_formed {s : State} (h : Formed s) (W) : Formed (s.retire W) := by
  refine State.squaresDone_formed (State.nodeDone_formed (Formed.of_eq ?_ (State.setLaunch_mem _ _)) _ _ _ _) _
  refine Formed.of_eq (State.viewLeaves_formed ?_ _ _) (State.partLeaves_mem _ _ _)
  rw [Formed, State.dropWg_mem, State.setWg_mem, State.freeTiles_mem]
  exact State.blockRecords_formed h W

theorem execWorkgroupRetire_formed {s : State} (h : Formed s) (r) : Ends (execWorkgroupRetire r s) := by
  refine .next ?_
  split
  · exact h
  · exact Formed.ite (State.retire_formed h _) h

@[simp] theorem State.leaveQueues_mem (s : State) (l broken) : (s.leaveQueues l broken).mem = s.mem := rfl

@[simp] theorem State.preemptAck_mem (s : State) (l) : (s.preemptAck l).mem = s.mem := by
  grind [State.preemptAck, State.setLaunch_mem]

theorem State.completeLaunch_formed {s : State} (h : Formed s) (l) : Formed (s.completeLaunch l) := by
  unfold State.completeLaunch
  split
  · exact h
  · rename_i L _
    refine Formed.ite h ?_
    have h1 : Formed (if L.nodes.contains (6, 0) then s.flushWords l else
        State.nodeDone { ((s.views.filter (·.launch == l)).map (·.core)).foldl State.cleanCore
          (s.bytesHome l ((s.views.filter (·.launch == l)).map (·.core)) (s.carries.filter (·.launch == l))) with
          views := (((s.views.filter (·.launch == l)).map (·.core)).foldl State.cleanCore
            (s.bytesHome l ((s.views.filter (·.launch == l)).map (·.core)) (s.carries.filter (·.launch == l)))).views.filter (·.launch != l)
          carries := (((s.views.filter (·.launch == l)).map (·.core)).foldl State.cleanCore
            (s.bytesHome l ((s.views.filter (·.launch == l)).map (·.core)) (s.carries.filter (·.launch == l)))).carries.filter (·.launch != l) } l 6 0 0) := by
      refine Formed.ite (State.flushWords_formed h _) (State.nodeDone_formed ?_ _ _ _ _)
      exact (State.bytesHome_formed h _ _ _).of_eq (foldl_mem (fun a c => a.cleanCore_mem c) _ _)
    dsimp only
    refine Formed.ite h1 ?_
    rw [Formed, State.preemptAck_mem]
    refine State.endPacket_formed ?_ _ _ _ _
    rw [Formed, State.leaveQueues_mem, State.setLaunch_mem]
    exact h1

theorem State.drainEngines_formed {s : State} (h : Formed s) (l) : Formed (s.drainEngines l) := by
  refine foldl_formed (fun a i ha => State.completeEntry_formed ?_ _ _ _) _ h
  have hb : Formed (if entKind i.bits.toNat = 0 then a.copyEntry l i.wg i.sel
      else if entKind i.bits.toNat = 1 then a.collEntry l i.wg i.sel else a.nopEntry l i.wg i.sel) :=
    Formed.ite (State.copyEntry_formed ha _ _ _ _) (Formed.ite (State.collEntry_formed ha _ _ _ _) (ha.of_eq (a.nopEntry_mem _ _ _)))
  split
  · exact Formed.ite (hb.of_eq (State.endFlight_mem _ _ _ _)) hb
  · exact hb

theorem State.kill_formed {s : State} (h : Formed s) (l cause sub) : Formed (s.kill l cause sub) := by
  unfold State.kill
  split
  · exact h
  · rename_i L _
    refine Formed.ite h ?_
    have h0 := State.drainEngines_formed h l
    dsimp only
    rw [Formed, State.preemptAck_mem]
    refine State.endPacket_formed ?_ _ _ _ _
    rw [Formed, State.leaveQueues_mem, State.setLaunch_mem, foldl_mem (fun a W => by
      rw [State.dropWg_mem, State.setWg_mem, State.freeTiles_mem, State.setCore_mem])]
    exact h0.of_eq (foldl_mem (fun a T => foldl_mem (fun a th => foldl_mem (fun a q => a.releaseSlots_mem _ _ _ _) _ a) _ a) _ _)

theorem State.killWith_formed {s : State} (h : Formed s) (l r) : Formed (s.killWith l r) := State.kill_formed (h.of_eq (s.deliver_mem _ _)) _ _ _

theorem State.takeAudits_formed {s : State} (h : Formed s) (l C) : Formed (s.takeAudits l C) :=
  Formed.ite (h.of_eq (s.setLaunch_mem _)) (State.setCtrl_formed h _ _)

theorem State.coverEnd_formed {s : State} (h : Formed s) (l w cause sub) : Formed (s.coverEnd l w cause sub) := by
  grind [State.coverEnd, State.takeAudits_formed, State.setWg_mem, State.setCore_mem, State.setCore_mem, State.setWg_mem]

theorem State.writeSector_formed {s : State} (h : Formed s) (l w x bs) : Formed (s.writeSector l w x bs) :=
  State.engPut_formed (h.of_eq (s.dropClean_mem _)) _ _ _ _

@[simp] theorem State.auditList_mem (s : State) (tile ds) : (s.auditList tile ds).1.mem = s.mem := by
  induction ds generalizing s with
  | nil => rfl
  | cons d ds ih =>
    cases d with
    | none => exact ih _
    | some n => exact ih _

@[simp] theorem State.passAudits_mem (s : State) (l k) : (s.passAudits l k).mem = s.mem := by
  unfold State.passAudits
  split <;> simp

theorem State.windowClose_formed {s : State} (h : Formed s) (l) : Formed (s.windowClose l) := by
  grind [State.windowClose, State.takeAudits_formed]

theorem State.reconstruction_formed {s : State} (h : Formed s) (l w) : Formed (s.reconstruction l w) := by
  unfold State.reconstruction
  dsimp only
  split
  · rename_i k C _ _
    refine Formed.ite h ?_
    have hr := State.engRange_formed (h.of_eq (s.coverOwn_mem l w)) ((s.coverOwn l w).engineAgent l w) true
      ((regionSectors (C.outbase.toNat + k.tile * tilePoints k.pattern * (elBits (tyOf C.etype) / 8))
        (regionBytes (elBits (tyOf C.etype) / 8) (k.output (tyOf C.etype) C.audit))).map (·.1)) []
    split <;> rename_i he <;> rw [he] at hr
    · exact Formed.of_eq hr (State.engRequest_mem _ _ _ _ _ _)
    · exact hr
    · exact State.coverEnd_formed hr _ _ _ _
    · refine Formed.ite hr ?_
      split
      · exact State.coverEnd_formed hr _ _ _ _
      · have hw (ps : List (Spot × (Nat × Nat) × List (Option Byte))) := foldl_formed (fun a p ha => State.writeSector_formed ha l w p.1 p.2.2) ps hr
        exact Formed.ite (State.coverEnd_formed ((hw _).of_eq (State.passAudits_mem _ _ _)) _ _ _ _) (State.coverEnd_formed (hw _) _ _ _ _)
  · exact h

end Sys2Proof.Machine

/-!
The form of memory: outstanding results and the requests that Gondola ends.
-/

namespace Sys2Proof.Machine
open Sys2Proof

theorem execTileReconstruction_formed {s : State} (h : Formed s) (r) : Ends (execTileReconstruction r s) :=
  Ends.next (State.reconstruction_formed h _ _)

theorem execAuditWindowClose_formed {s : State} (h : Formed s) (l) : Ends (execAuditWindowClose l s) := Ends.next (State.windowClose_formed h _)

@[simp] theorem State.writeOnce_mem (s : State) (T n p) : (s.writeOnce T n p).mem = s.mem := rfl

@[simp] theorem State.returnResult_mem (s : State) (r p) : (s.returnResult r p).mem = s.mem := by
  grind [State.returnResult, State.writeOnce_mem, State.updEarlier_mem]

@[simp] theorem State.returnOne_mem (s : State) (r) : (s.returnOne r).mem = s.mem := by
  unfold State.returnOne
  split
  · rfl
  · split
    · rfl
    · exact s.returnResult_mem r _
    · dsimp only
      split
      · simp
      · rw [State.returnResult_mem, State.pick_mem]

theorem execOutstandingResultReturn_formed {s : State} (h : Formed s) (r) : Ends (execOutstandingResultReturn r s) :=
  Ends.next (h.of_eq (s.returnOne_mem r))

@[simp] theorem State.dropRequest_mem (s : State) (q) : (s.dropRequest q).mem = s.mem := rfl

@[simp] theorem State.deferAccess_mem (s : State) (r a x) : (s.deferAccess r a x).mem = s.mem := by
  unfold State.deferAccess
  split <;> simp

@[simp] theorem State.parkAccess_mem (s : State) (r a x) : (s.parkAccess r a x).mem = s.mem := by
  unfold State.parkAccess
  split
  · rfl
  · dsimp only
    split
    · rfl
    · split
      · split <;> simp
      · simp

theorem State.replayAccess_formed {s : State} (h : Formed s) (q x) : Formed (s.replayAccess q x).1 := by
  unfold State.replayAccess
  split
  · exact h
  · rename_i T _ _
    split
    · exact h
    · exact h
    · have hr := State.access_formed h T x.1 x.2
      split <;> rename_i he <;> rw [he] at hr
      · exact Formed.of_eq hr (State.giveResult_mem _ _ _ _ _ _)
      · exact Formed.of_eq hr (State.deferAccess_mem _ _ _ _)
      · exact Formed.of_eq hr (State.addReplay_mem _ _ _)
      · exact hr

theorem State.replayAll_formed {s : State} (h : Formed s) (q xs) : Formed (s.replayAll q xs).1 := by
  induction xs generalizing s with
  | nil => exact h
  | cons x xs ih =>
    have h1 := State.replayAccess_formed h q x
    unfold State.replayAll
    dsimp only
    split
    · exact h1
    · exact ih h1

theorem State.replayEntry_formed {s : State} (h : Formed s) (q) : Formed (s.replayEntry q) := by
  unfold State.replayEntry
  split
  · rename_i accs _
    have h1 := State.replayAll_formed (h.of_eq (s.dropRequest_mem q)) q accs
    dsimp only
    split
    · exact h1
    · exact Formed.of_eq h1 rfl
  · exact h.of_eq (s.dropRequest_mem q)

theorem State.resolve_formed {s : State} (h : Formed s) (q) : Formed (s.resolve q) := State.replayEntry_formed (h.of_eq (s.tlbPage_mem _ _)) _

theorem execReplayResolve_formed {s : State} (h : Formed s) (r) : Ends (execReplayResolve r s) := by
  refine Ends.next ?_
  split
  · exact h
  · exact Formed.ite (h.of_eq (s.tlbPage_mem _ _)) (State.resolve_formed h _)

theorem State.takeFailed_formed {s : State} (h : Formed s) (l w sel cause) : Formed (s.takeFailed l w sel cause) := by
  unfold State.takeFailed
  have hd := State.engDesc_formed h l w sel
  split
  · rename_i q s1 loc _ he
    rw [he] at hd
    have hs := State.engSlot_formed (show Formed s1 from hd) l w (s1.homeNat loc 64) q.count
    split
    · rename_i he2
      rw [he2] at hs
      exact Formed.of_eq hs rfl
    · exact h
  · exact h

theorem State.rejectPacket_formed {s : State} (h : Formed s) (sq pos cause) : Formed (s.rejectPacket sq pos cause) := by
  unfold State.rejectPacket
  split
  · exact h
  · refine Formed.ite (State.flushSq_formed (h.of_eq ?_) _) (Formed.ite ?_ h)
    · rw [State.killSq_mem, State.updPacket_mem]
    · split
      · exact State.endPacket_formed (h.of_eq (State.takePacket_mem _ _ _)) _ _ _ _
      · exact h

theorem State.rejectWord_formed {s : State} (h : Formed s) (l x) : Formed (s.rejectWord l x) := by
  unfold State.rejectWord
  dsimp only
  split
  · exact h
  · exact State.flushWords_formed (h.of_eq (s.setLaunch_mem _)) _

theorem State.reject_formed {s : State} (h : Formed s) (q) : Formed (s.reject q) := by
  have h0 : Formed (s.dropRequest q) := h.of_eq (s.dropRequest_mem q)
  unfold State.reject
  dsimp only
  split
  · refine h0.of_eq (foldl_mem (fun a y => ?_) _ _)
    split <;> simp
  · refine Formed.ite (State.coverEnd_formed h0 _ _ _ _) ?_
    split
    · exact h0.of_eq (State.endFlight_mem _ _ _ _)
    · exact State.takeFailed_formed h0 _ _ _ _
  · exact h0.of_eq (State.stopCursor_mem _ _ _ _)
  · split
    · exact h0.of_eq (State.stopPass_mem _ _ _ _ _ _)
    · exact h0
  · exact State.rejectPacket_formed h0 _ _ _
  · split
    · exact h0.of_eq (State.setSq_mem _ _)
    · exact h0
  · exact State.rejectWord_formed h0 _ _
  · exact h0.of_eq (State.setLaunch_mem _ _)

theorem execReplayReject_formed {s : State} (h : Formed s) (r) : Ends (execReplayReject r s) := by
  refine Ends.next ?_
  split
  · exact h
  · exact Formed.ite h (State.reject_formed h _)

end Sys2Proof.Machine

/-!
The form of memory: the contexts of workgroups, their save and their restore.
-/

namespace Sys2Proof.Machine
open Sys2Proof

theorem State.areaZero_formed {s : State} (h : Formed s) (W) : Formed (s.areaZero W) := by
  unfold State.areaZero
  split
  · exact h
  · dsimp only
    refine foldl_formed (fun a sec ha => ha.of_eq (a.markL2_mem _ sec)) _ ?_
    exact Formed.filter h _ rfl

theorem State.ctxWrite_formed {s t : State} (h : Formed s) (W x) (ht : s.ctxWrite W x = some t) : Formed t := by
  unfold State.ctxWrite at ht
  obtain ⟨r, hr, rfl⟩ := Option.map_eq_some_iff.mp ht
  refine List.foldlRecOn (motive := fun o : Option (State × List Byte) => ∀ r, o = some r → Formed r.1) _ _ ?_ ?_ r hr
  · rintro r ⟨⟩
    exact h
  · intro o ho p _ r hr
    obtain ⟨q, rfl, hq⟩ := Option.bind_eq_some_iff.mp hr
    have h1 := State.engReach_formed (ho q rfl) (q.1.areaAgent W) (BitVec.ofNat 64 p.1) p.2 true
    split at hq
    · rename_i he
      rw [he] at h1
      obtain rfl := Option.some.inj hq
      exact State.writeHomeD_formed h1 _ _ _
    · cases hq
    · obtain rfl := Option.some.inj hq
      exact ho q rfl

theorem State.writeContext_formed {s t : State} (h : Formed s) (W image) (ht : s.writeContext W image = some t) : Formed t := by
  unfold State.writeContext at ht
  obtain ⟨r, hr, rfl⟩ := Option.map_eq_some_iff.mp ht
  have h1 : Formed r := by
    refine List.foldlRecOn (motive := fun o : Option State => ∀ r, o = some r → Formed r) _ _ ?_ ?_ r hr
    · rintro r ⟨⟩
      exact State.areaZero_formed h W
    · intro o ho x _ r hr
      obtain ⟨q, rfl, hq⟩ := Option.bind_eq_some_iff.mp hr
      exact State.ctxWrite_formed (ho q rfl) W x hq
  refine foldl_formed (fun a x ha => ?_) _ h1
  have h2 := State.engReach_formed ha (a.areaAgent W) (W.ctx + BitVec.ofNat 64 x.1) 64 true
  split
  · rename_i he
    rw [he] at h2
    exact Formed.of_eq h2 rfl
  · exact ha

@[simp] theorem State.areaChange_mem (s : State) (W off bs) : (s.areaChange W off bs).mem = s.mem := by
  unfold State.areaChange
  dsimp only
  split
  · simp
  · split
    · simp
    · split
      · split <;> simp
      · split <;> simp

@[simp] theorem State.readContext_mem (s : State) (W) : (s.readContext W).mem = s.mem := by
  refine foldl_mem (fun a x => ?_) _ s
  split
  · split <;> simp
  · rfl

@[simp] theorem State.evictCore_mem (s : State) (l c) : (s.evictCore l c).mem = s.mem := rfl

@[simp] theorem State.evictRemoved_mem (s : State) (l) : (s.evictRemoved l).mem = s.mem := foldl_mem (fun a c => a.evictCore_mem l c) _ s

theorem State.preemptMask_formed {s : State} (h : Formed s) (l mask) : Formed (s.preemptMask l mask) := by
  unfold State.preemptMask
  split
  · exact h
  · rename_i L _
    dsimp only
    split
    · refine h.of_eq ?_
      simp
    · refine Formed.ite h ?_
      rw [Formed, State.preemptAck_mem, State.setLaunch_mem, State.evictRemoved_mem]
      refine foldl_formed (fun a W ha => ?_) _ (h.of_eq (s.setLaunch_mem _))
      split
      · exact Formed.ite (State.retire_formed ha _) ha
      · exact ha

theorem execPreemptMaskWrite_formed {s : State} (h : Formed s) (l mask) : Ends (execPreemptMaskWrite l mask s) :=
  Ends.next (State.preemptMask_formed h _ _)

@[simp] theorem State.giveSlots_mem (s : State) (l c secs) : (s.giveSlots l c secs).mem = s.mem := by
  induction secs generalizing s with
  | nil => rfl
  | cons sec rest ih =>
    have hs := s.areaSlot_mem l
    unfold State.giveSlots
    split
    · exact ih s
    · split <;> rename_i he <;> rw [he] at hs <;> rw [ih]
      · rw [State.setView_mem, hs]
      · exact hs

theorem State.areaWrite_formed {s : State} (h : Formed s) (l c w sec slot) : Formed (s.areaWrite l c w sec slot).1 := by
  unfold State.areaWrite
  have ht := State.translate_formed h { s.engineAgent l w with priv := true, core := c } (s.slotVa l slot) .wr false
  dsimp only
  split <;> rename_i he <;> rw [he] at ht
  · split
    · exact foldl_formed (fun b x hb => State.putMarked_formed hb _ _ _) _ (Formed.of_eq ht (State.freshSeal_mem _ _))
    · exact ht
    · exact Formed.of_eq ht (State.setLaunch_mem _ _)
  · exact Formed.ite ht (Formed.of_eq ht rfl)
  · exact ht
  · exact Formed.of_eq ht (State.setLaunch_mem _ _)

/-- Every state in which an evicted view's bytes are put away has the form. -/
inductive CarryOut.Formed : CarryOut → Prop
  | done {s : State} (h : Machine.Formed s) : CarryOut.Formed (.done s)
  | wait {s : State} (h : Machine.Formed s) : CarryOut.Formed (.wait s)
  | killed {s : State} (h : Machine.Formed s) : CarryOut.Formed (.killed s)

theorem CarryOut.formed_ite {a b : CarryOut} {p : Prop} [Decidable p] (ha : a.Formed) (hb : b.Formed) : (if p then a else b).Formed :=
  iteInduction (motive := CarryOut.Formed) (fun _ => ha) (fun _ => hb)

theorem State.carryView_formed {s : State} (h : Formed s) (l c) : (s.carryView l c).Formed := by
  unfold State.carryView
  dsimp only
  split
  · exact .done h
  · refine CarryOut.formed_ite ?_ (CarryOut.formed_ite ?_ ?_)
    · refine .killed (State.killWith_formed (h.of_eq ?_) _ _)
      rw [State.giveSlots_mem, State.setView_mem]
    · refine .wait (List.foldlRecOn (motive := fun y : State × Bool => Formed y.1) _ _ (h.of_eq ?_) fun y hy sec _ => ?_)
      · rw [State.giveSlots_mem, State.setView_mem]
      · split
        · exact State.areaWrite_formed hy _ _ _ _ _
        · exact hy
    · refine .done (Formed.of_eq (List.foldlRecOn (motive := fun y : State × Bool => Formed y.1) _ _ (h.of_eq ?_) fun y hy sec _ => ?_) rfl)
      · rw [State.giveSlots_mem, State.setView_mem]
      · split
        · exact State.areaWrite_formed hy _ _ _ _ _
        · exact hy

theorem State.partSaved_formed {s : State} (h : Formed s) (W) : Formed (s.partSaved W) := by
  unfold State.partSaved
  split
  · exact h
  · split
    · exact h
    · refine Formed.ite h ?_
      refine Formed.filter (s := (s.unmapScratch _ _ _).gondolaHit _ _ _ _ _ _) ?_ _ rfl
      exact Formed.of_eq (State.unmapScratch_formed h _ _ _) (State.gondolaHit_mem _ _ _ _ _ _ _)

theorem State.leaveWg_formed {s : State} (h : Formed s) (W image) : Formed (s.leaveWg W image) := by
  unfold State.leaveWg
  dsimp only
  rw [Formed, State.preemptAck_mem]
  refine State.partSaved_formed (h.of_eq ?_) _
  rw [State.setWg_mem, State.setCore_mem]

@[simp] theorem State.saveImage_mem (s : State) (W) : (s.saveImage W).1.mem = s.mem := rfl

theorem State.saveWg_formed {s : State} (h : Formed s) (W) : Formed (s.saveWg W) := by
  unfold State.saveWg
  dsimp only
  split
  · exact h.of_eq (s.saveImage_mem W)
  · exact State.leaveWg_formed (State.writeContext_formed (h.of_eq (s.saveImage_mem W)) _ _ (by assumption)) _ _

theorem execWorkgroupSave_formed {s : State} (h : Formed s) (r) : Ends (execWorkgroupSave r s) := by
  refine Ends.next ?_
  split
  · exact h
  · rename_i W _
    refine Formed.ite ?_ h
    have hc := State.carryView_formed h W.launch W.core
    split <;> rename_i he <;> rw [he] at hc <;> obtain h1 | h1 | h1 := hc
    · exact State.saveWg_formed h1 W
    · exact h1
    · exact h1

theorem State.readRowProg_formed {s : State} (h : Formed s) (T) : Formed (s.readRowProg T) := by
  unfold State.readRowProg
  dsimp only
  have h1 := State.engReach_formed h { s.engineAgent (s.wg T.launch T.wg).launch (s.wg T.launch T.wg).id with priv := true }
    ((s.wg T.launch T.wg).ctx + BitVec.ofNat 64 (0x30000 + 0x1000 * T.idx + 0x580)) 32 false
  split
  · rename_i he
    rw [he] at h1
    refine Formed.of_eq h1 (foldl_mem (fun b q => ?_) _ _)
    split
    · split <;> simp
    · rfl
  · exact h

/-- Writing a list of bytes, one after another, keeps memory's form. -/
theorem Memory.wf_writes {α : Type} {m : Memory} (h : Memory.wf m = true) (f : α → Nat) (b : α → Byte) (xs : List α) :
    Memory.wf (xs.foldl (fun m x => Memory.write m (f x) (b x)) m) = true :=
  List.foldlRecOn (motive := fun m => Memory.wf m = true) _ _ h fun _ hm _ _ => Memory.wf_write hm _ _

theorem State.restoreAt_formed {s : State} (h : Formed s) (L W r) : Formed (s.restoreAt L W r) := by
  unfold State.restoreAt
  dsimp only
  rw [Formed, State.setView_mem, State.setWg_mem, State.setCore_mem]
  split
  · rename_i b t p _ _
    rw [State.gondolaHit_mem]
    refine State.mapScratch_formed ?_ _ _ _
    refine Memory.wf_writes ?_ (fun x : Nat × Byte => scratchPa r.core b + x.1) Prod.snd _
    exact State.newPartition_formed (Formed.of_eq h rfl) L W.home r.core p.size b t
  · exact h

theorem State.restoreOn_formed {s t : State} (h : Formed s) (L c ws) (ht : s.restoreOn L c ws = some t) : Formed t := by
  induction ws generalizing s with
  | nil => exact Option.some.inj ht ▸ h
  | cons W ws ih =>
    unfold State.restoreOn at ht
    dsimp only at ht
    split at ht
    · cases ht
    · split at ht
      · cases ht
      · refine ih ?_ ht
        refine foldl_formed (fun a T ha => State.readRowProg_formed ha T) _ ?_
        exact State.restoreAt_formed (h.of_eq (s.readContext_mem W)) _ _ _

theorem State.reissue_formed {s : State} (h : Formed s) (W) : Formed (s.reissue W) := foldl_formed (fun _ q ha => State.replayEntry_formed ha q) _ h

@[simp] theorem State.makeRoom_mem (s : State) (W) : (s.makeRoom W).mem = s.mem := by
  unfold State.makeRoom
  split
  · rfl
  · split <;> rfl

theorem State.restoreWg_formed {s : State} (h : Formed s) (W) : Formed (s.restoreWg W) := by
  unfold State.restoreWg
  dsimp only
  refine Formed.ite h ?_
  have hg (t : State) (ws : List Wg) (ht : Formed t) : Formed (ws.foldl State.reissue t) := foldl_formed (fun _ V ha => State.reissue_formed ha V) _ ht
  split
  · exact h.of_eq (s.makeRoom_mem W)
  · rename_i c t he
    refine hg _ _ ?_
    have hmem : (c, t) ∈ (s.restoreCores W).filterMap (fun c => (s.restoreOn (s.launch W.launch) c (s.restoreGroup W)).map (fun t => (c, t))) :=
      he ▸ List.mem_singleton_self _
    obtain ⟨c', _, hc⟩ := List.mem_filterMap.mp hmem
    obtain ⟨t', ht', hp⟩ := Option.map_eq_some_iff.mp hc
    exact (Prod.mk.inj hp).2 ▸ State.restoreOn_formed h _ _ _ ht'
  · split
    · rename_i ht
      obtain ⟨x, _, hx⟩ := Option.bind_eq_some_iff.mp ht
      exact hg _ _ (State.restoreOn_formed (h.of_eq (s.pick_mem _)) _ _ _ hx)
    · exact h.of_eq (s.pick_mem _)

theorem execWorkgroupRestore_formed {s : State} (h : Formed s) (r) : Ends (execWorkgroupRestore r s) := by
  refine Ends.next ?_
  split
  · exact h
  · exact State.restoreWg_formed h _

end Sys2Proof.Machine

/-!
The form of memory: convergence tables, turns, boundaries, cross-lane and limb instructions, policy, spares and services.
-/

namespace Sys2Proof.Machine
open Sys2Proof

@[simp] theorem State.putIn_mem (s : State) (e T th) : (s.putIn e T th).mem = s.mem := rfl

@[simp] theorem State.allocEntry_mem (s : State) (T th p) : (s.allocEntry T th p).mem = s.mem := State.putIn_mem _ _ _ _

theorem State.enter_mem {s t : State} (T th) (ht : s.enter T th = some t) : t.mem = s.mem := by
  unfold State.enter at ht
  dsimp only at ht
  split at ht
  · exact Option.some.inj ht ▸ s.putIn_mem _ _ _
  · split at ht
    · exact Option.some.inj ht ▸ s.allocEntry_mem _ _ _
    · cases ht

@[simp] theorem State.enterNew_mem (s : State) (core slice) : (s.enterNew core slice).mem = s.mem := by
  refine foldl_mem (fun a x => ?_) _ s
  dsimp only
  split
  · rfl
  · rename_i T th _
    split
    · rfl
    · cases he : a.enter T th with
      | none => rfl
      | some t => exact State.enter_mem T th he

@[simp] theorem State.dropEmpty_mem (s : State) (core slice) : (s.dropEmpty core slice).mem = s.mem := rfl

@[simp] theorem State.serveOverflow_mem (s : State) (core slice n) : (s.serveOverflow core slice n).mem = s.mem := by
  induction n generalizing s with
  | zero => rfl
  | succ n ih =>
    unfold State.serveOverflow
    dsimp only
    split
    · rfl
    · split
      · rfl
      · split
        · rfl
        · rw [ih, foldl_mem (fun a q => ?_), State.allocEntry_mem]
          split
          · rfl
          · split
            · split
              · split <;> simp
              · rfl
            · rfl

@[simp] theorem State.boundary_mem (s : State) (core slice) : (s.boundary core slice).mem = s.mem := by
  simp [State.boundary]

@[simp] theorem State.resolveHold_mem (s : State) (e) : (s.resolveHold e).mem = s.mem := by
  unfold State.resolveHold
  dsimp only
  split
  · rfl
  · split
    · simp
    · split
      · rw [foldl_mem (fun a x => ?_), State.setEntry_mem]
        exact a.updThread_mem (x.1.ref x.2) (fun t => { t with entry := none })
      · rw [foldl_mem (fun a x => a.updThread_mem _ _), State.setEntry_mem]

@[simp] theorem State.resolveHolds_mem (s : State) (core slice) : (s.resolveHolds core slice).mem = s.mem :=
  foldl_mem (fun a e => a.resolveHold_mem e) _ s

@[simp] theorem State.enterHandlers_mem (s : State) (core slice) : (s.enterHandlers core slice).mem = s.mem := rfl

@[simp] theorem State.deferAtMarkers_mem (s : State) (core slice) : (s.deferAtMarkers core slice).mem = s.mem := rfl

@[simp] theorem State.endTurns_mem (s : State) (ran) : (s.endTurns ran).mem = s.mem := by
  refine foldl_mem (fun a q => ?_) _ s
  dsimp only
  split <;> simp

@[simp] theorem State.leaveMarker_mem (s : State) (e) : (s.leaveMarker e).mem = s.mem := by
  unfold State.leaveMarker
  dsimp only
  split
  · rfl
  · split
    · split <;> simp
    · simp

@[simp] theorem State.promote_mem (s : State) (e) : (s.promote e).mem = s.mem := by
  unfold State.promote
  split <;> rfl

theorem execAgePromotion_formed {s : State} (h : Formed s) (entry) : Ends (execAgePromotion entry s) := by
  refine Ends.next ?_
  split
  · exact h.of_eq (s.promote_mem _)
  · exact h

theorem State.settle_formed {s : State} (h : Formed s) (core slice) : Formed (s.settle core slice) := by
  unfold State.settle
  dsimp only
  rw [Formed, foldl_mem (fun a e => a.promote_mem e), State.resolveHolds_mem, State.boundary_mem, foldl_mem (fun a e => a.leaveMarker_mem e)]
  exact State.settleHalts_formed (h.of_eq (by rw [State.deferAtMarkers_mem, State.enterHandlers_mem]))

@[simp] theorem State.passTurns_mem (s : State) (l w) : (s.passTurns l w).mem = s.mem := by
  unfold State.passTurns
  dsimp only
  repeat' split
  all_goals simp

@[simp] theorem State.resetHangs_mem (s : State) (xs) : (s.resetHangs xs).mem = s.mem := rfl

@[simp] theorem State.commit_mem (s : State) (T e others) : (s.commit T e others).mem = s.mem := by
  unfold State.commit
  dsimp only
  rw [foldl_mem (fun a l => a.evictRemoved_mem l), State.mapTeams_mem, State.resetHangs_mem, State.setCore_mem]

theorem State.endStep_formed {s : State} (h : Formed s) (T held) : Formed (s.endStep T held) := by
  unfold State.endStep
  split
  · exact h
  · exact Formed.of_eq (State.haltRecord_formed h _ _ _ _ _) (State.updTeam_mem _ _ _ _ _)

theorem State.endSteps_formed {s : State} (h : Formed s) (T) : Formed (s.endSteps T) := by
  unfold State.endSteps
  split
  · exact h
  · exact Formed.ite h (State.endStep_formed h _ _)
  · exact Formed.ite (State.endStep_formed h _ _) (Formed.ite (State.endStep_formed h _ _) h)

@[simp] theorem State.dropSkips_mem (s : State) (T) : (s.dropSkips T).mem = s.mem := rfl

@[simp] theorem State.choose_mem (s : State) (Ts) : (s.choose Ts).mem = s.mem := by
  induction Ts generalizing s with
  | nil => rfl
  | cons T ts ih =>
    unfold State.choose
    split
    · exact State.commit_mem _ _ _ _
    · exact ih _

/-- The steps of the teams of a turn end in states whose memory has the form. -/
theorem State.endStepsOf_formed {s : State} (h : Formed s) (Ts : List Team) : Formed (Ts.foldl (fun (a : State) T => match a.team? T.launch T.wg T.idx with
    | some T => a.endSteps T
    | none => a) s) := by
  refine foldl_formed (fun a T ha => ?_) _ h
  split
  · exact State.endSteps_formed ha _
  · exact ha

theorem State.sliceTurn_formed {s : State} (h : Formed s) (core slice) : Formed (s.sliceTurn core slice) := by
  unfold State.sliceTurn
  refine Formed.ite h ?_
  rw [Formed, State.choose_mem]
  refine State.endStepsOf_formed (Formed.of_eq (State.settle_formed h core slice) (foldl_mem (fun a q => ?_) _ _)) _
  split <;> simp

theorem execSliceIssueTurn_formed {s : State} (h : Formed s) (core slice) : Ends (execSliceIssueTurn core slice s) :=
  Ends.next (State.sliceTurn_formed h _ _)

@[simp] theorem State.countTeams_mem (s : State) (ran) : (s.countTeams ran).mem = s.mem := rfl

@[simp] theorem State.countSlot_mem (s : State) (e ran) : (s.countSlot e ran).mem = s.mem := by
  unfold State.countSlot
  split
  · split <;> simp
  · simp

theorem State.afterClause_formed {s : State} (h : Formed s) (core slice ran) : Formed (s.afterClause core slice ran) := by
  refine State.endStepsOf_formed (Formed.of_eq (State.settleHalts_formed h) ?_) _
  dsimp only
  rw [State.resolveHolds_mem, State.endTurns_mem, State.boundary_mem]

theorem State.leaveClause_formed {s : State} (h : Formed s) (E cnt ws ran) : Formed (s.leaveClause E cnt ws ran) :=
  State.afterClause_formed (h.of_eq (s.mapTeams_mem _)) _ _ _

theorem State.goOn_formed {s : State} (h : Formed s) (E slot H ws ran) : Formed (s.goOn E slot H ws ran) := by
  unfold State.goOn
  dsimp only
  refine Formed.ite (h.of_eq ?_) (Formed.ite (State.leaveClause_formed h _ _ _ _) (h.of_eq ?_))
  · rw [State.setEntry_mem, State.mapTeams_mem]
  · rw [State.setEntry_mem, State.mapTeams_mem]

theorem State.afterSlot_formed {s : State} (h : Formed s) (c H ws ran) : Formed (s.afterSlot c H ws ran) := by
  have h1 : Formed ((s.countSlot c.entry ran).mapTeams (·.slotEnds c.entry)) := h.of_eq (by rw [State.mapTeams_mem, State.countSlot_mem])
  unfold State.afterSlot
  dsimp only
  split
  · exact Formed.of_eq h1 rfl
  · exact Formed.ite (Formed.of_eq h1 rfl) (Formed.ite (State.afterClause_formed h1 _ _ _) (State.goOn_formed h1 _ _ _ _ _))

@[simp] theorem State.unissue_mem (s : State) (E) : (s.unissue E).mem = s.mem := rfl

@[simp] theorem State.rekey_mem (s : State) (E) : (s.rekey E).mem = s.mem := State.boundary_mem _ _ _

@[simp] theorem State.startAges_mem (s : State) (T E E1) : (s.startAges T E E1).mem = s.mem := rfl

theorem State.fetchGroup_formed {s : State} (h : Formed s) (c E) : Formed (s.fetchGroup c E) := by
  unfold State.fetchGroup
  split
  · exact h.of_eq rfl
  · rename_i T _ _ _
    have hf := State.fetchClause_formed h (s.agent T) E.addr
    split <;> rename_i he <;> rw [he] at hf
    · dsimp only
      refine Formed.ite (Formed.of_eq hf (State.rekey_mem _ _)) (Formed.ite (Formed.of_eq hf ?_) (Formed.of_eq hf (State.startAges_mem _ _ _ _)))
      rw [State.unissue_mem, State.setEntry_mem]
    · exact State.afterClause_formed (Formed.of_eq hf (State.groupFaultWith_mem _ _ _ _)) _ _ _
    · exact Formed.of_eq hf (State.fetchMiss_mem _ _ _ _ _ 0)
    · exact Formed.of_eq hf (State.markGroup_mem _ c .always (.at 0))

@[simp] theorem State.passWg_mem (s : State) (W) : (s.passWg W).mem = s.mem := rfl

@[simp] theorem State.wgBoundary_mem (s : State) (l w) : (s.wgBoundary l w).mem = s.mem := by
  unfold State.wgBoundary
  dsimp only
  split <;> simp

theorem execWorkgroupBoundaryComplete_formed {s : State} (h : Formed s) (w) : Ends (execWorkgroupBoundaryComplete w s) :=
  Ends.next (h.of_eq (s.wgBoundary_mem _ _))

@[simp] theorem State.freeCarries_mem (s : State) : (s.freeCarries).mem = s.mem := rfl

theorem State.passInstance_formed {s : State} (h : Formed s) (L sc node) : Formed (s.passInstance L sc node) := by
  unfold State.passInstance
  dsimp only
  rw [Formed, State.freeCarries_mem, State.setLaunch_mem, foldl_mem (fun a W => ?_), foldl_mem (fun a c => a.cleanCore_mem c)]
  · exact State.bytesHome_formed h _ _ _
  · rw [State.setWg_mem, State.passWg_mem]

theorem State.phaseBoundary_formed {s : State} (h : Formed s) (b) : Formed (s.phaseBoundary b) :=
  Formed.ite (State.passInstance_formed h _ _ _) h

theorem execPhaseBoundaryComplete_formed {s : State} (h : Formed s) (b) : Ends (execPhaseBoundaryComplete b s) :=
  Ends.next (State.phaseBoundary_formed h b)

@[simp] theorem State.tickHangs_mem (s : State) : (s.tickHangs).mem = s.mem := rfl

@[simp] theorem State.convHang_mem (s : State) (e) : (s.convHang e).mem = s.mem := by
  unfold State.convHang
  split
  · rfl
  · refine foldl_mem (fun a x => ?_) _ s
    dsimp only
    split
    · rfl
    · split
      · rfl
      · exact foldl_mem (fun a th => a.updThread_mem _ _) _ a

theorem execConvergenceHang_formed {s : State} (h : Formed s) (entry) : Ends (execConvergenceHang entry s) := by
  refine Ends.next ?_
  split
  · rw [Formed, State.dropEmpty_mem, State.convHang_mem]
    exact h
  · exact h

@[simp] theorem State.barFault_mem (s : State) (sc ws) : (s.barFault sc ws).mem = s.mem := by
  unfold State.barFault
  split
  · rfl
  · refine foldl_mem (fun a W => ?_) _ s
    dsimp only
    rw [State.setWg_mem, foldl_mem (fun a y => a.updThread_mem _ _)]

@[simp] theorem State.barHang_mem (s : State) (b) : (s.barHang b).mem = s.mem := by
  unfold State.barHang
  dsimp only
  repeat' split
  all_goals simp

theorem execBarrierHang_formed {s : State} (h : Formed s) (b) : Ends (execBarrierHang b s) := Ends.next (h.of_eq (s.barHang_mem b))

theorem State.clock_formed {s : State} (h : Formed s) (ran) : Formed (s.clock ran) := by
  refine h.of_eq ?_
  unfold State.clock
  dsimp only
  rw [State.feTick_mem, State.tickHangs_mem, State.mapTeams_mem]

theorem State.xl_formed {s : State} (h : Formed s) (g d wd xs uni pre reads f keep) : Formed (s.xl g d wd xs uni pre reads f keep) := by
  refine State.checked_formed h _ _ _ ?_
  split
  · exact h.of_eq (s.groupFault_mem _)
  · exact h.of_eq (s.perLane_mem _ _ _ _)

theorem State.shuffle_formed {s : State} (h : Formed s) (g d a b src) : Formed (s.shuffle g d a b src) := State.xl_formed h _ _ _ _ _ _ _ _ _

theorem State.voteP_formed {s : State} (h : Formed s) (g d xs ps f) : Formed (s.voteP g d xs ps f) := State.xl_formed h _ _ _ _ _ _ _ _ _

theorem State.reduce_formed {s : State} (h : Formed s) (g op t rm d a set) : Formed (s.reduce g op t rm d a set) :=
  State.xl_formed h _ _ _ _ _ _ _ _ _

theorem State.zipOp_formed {s : State} (h : Formed s) (unzip g ty k d a) : Formed (s.zipOp unzip g ty k d a) := State.xl_formed h _ _ _ _ _ _ _ _ _

@[simp] theorem State.teamOp_mem (s : State) (g f) : (s.teamOp g f).mem = s.mem := by
  unfold State.teamOp
  repeat' split
  all_goals simp

@[simp] theorem State.parkLimb_mem (s : State) (T c r) : (s.parkLimb T c r).mem = s.mem := rfl

theorem State.limb_formed {s : State} (h : Formed s) (g dn named others uni d wd f keep) : Formed (s.limb g dn named others uni d wd f keep) := by
  refine State.checked_formed h _ _ _ ?_
  repeat' split
  all_goals simpa [Formed] using h

theorem State.limbWrite_formed {s : State} (h : Formed s) (g d srcs f) : Formed (s.limbWrite g d srcs f) := State.limb_formed h _ _ _ _ _ _ _ _ _

theorem State.limbShift_formed {s : State} (h : Formed s) (g d a b f) : Formed (s.limbShift g d a b f) := State.limb_formed h _ _ _ _ _ _ _ _ _

theorem State.limbSign_formed {s : State} (h : Formed s) (g d srcs f) : Formed (s.limbSign g d srcs f) := State.limb_formed h _ _ _ _ _ _ _ _ _

theorem execWwin_formed {s : State} (h : Formed s) (g a c) : Ends (execWwin g a c s) := by
  refine Ends.next (State.checked_formed h _ _ _ ?_)
  dsimp only
  repeat' split
  all_goals simpa [Formed] using h

@[simp] theorem State.leaveUnit_mem (s : State) (T xs r retry) : (s.leaveUnit T xs r retry).mem = s.mem := by
  unfold State.leaveUnit
  split
  · rfl
  · refine foldl_mem (fun a q => ?_) _ s
    split <;> simp

theorem State.actThread_formed {s : State} (h : Formed s) (T th r act) : Formed (s.actThread T th r act) := by
  have h0 : Formed (if th.status == .parked then s.deliver (s.launch T.launch).die r else s) := Formed.ite (h.of_eq (s.deliver_mem _ _)) h
  cases act with
  | kill => exact State.kill_formed h0 _ _ _
  | stop => exact State.settleHalts_formed (Formed.of_eq h0 (State.updTeam_mem _ _ _ _ _))
  | skip => exact Formed.of_eq h0 ((State.updTeam_mem _ _ _ _ _).trans (State.leaveUnit_mem _ _ _ _ _))
  | retry => exact Formed.of_eq h0 ((State.updTeam_mem _ _ _ _ _).trans (State.leaveUnit_mem _ _ _ _ _))
  | forward => exact Formed.of_eq h0 (State.updTeam_mem _ _ _ _ _)

theorem State.actUnit_formed {s : State} (h : Formed s) (i act) : Formed (s.actUnit i act) := by
  unfold State.actUnit
  dsimp only
  split
  · exact h
  · rename_i l r _
    have hd : Formed { s.deliver (s.launch l).die r with nlRecords := s.nlRecords.eraseIdx i } := h.of_eq (s.deliver_mem _ _)
    refine Formed.ite (h.of_eq rfl) (Formed.ite (Formed.ite h ?_) (Formed.ite ?_ h))
    rotate_left
    · refine State.kill_formed ?_ _ _ _
      exact h.of_eq rfl
    split
    · exact State.settleHalts_formed (Formed.of_eq hd (State.mapTeams_mem _ _))
    · exact State.kill_formed hd _ _ _

theorem State.act_formed {s : State} (h : Formed s) (t act) : Formed (s.act t act) := by
  unfold State.act
  split
  · exact State.actUnit_formed h _ _
  · split
    · exact h
    · split
      · exact h
      · exact Formed.ite (State.actThread_formed h _ _ _ _) h

theorem State.coreFails_formed {s : State} (h : Formed s) (core) : Formed (s.coreFails core) := by
  have h1 : Formed ((s.setCore { s.core core with failed := true }).unitFails (dieOf core) core) :=
    h.of_eq (by rw [State.unitFails_mem, State.setCore_mem])
  unfold State.coreFails
  dsimp only
  refine Formed.ite h (Formed.ite h1 (foldl_formed (fun a l ha => State.killWith_formed ha _ _) _ (Formed.ite ?_ ?_)))
  · exact Formed.of_eq h1 (by rw [State.serviceReq_mem, State.setDie_mem])
  · exact Formed.of_eq h1 rfl

theorem State.substitute_formed {s : State} (h : Formed s) (die) : Formed (s.substitute die) := by
  unfold State.substitute
  refine Formed.ite h ?_
  dsimp only
  split
  · exact h
  · split
    · refine foldl_formed (fun a im ha => State.relocateAll_formed ha im) _ ?_
      split
      · exact State.renameScratch_formed (h.of_eq (s.setDie_mem _ _)) _ _
      · exact h.of_eq (s.setDie_mem _ _)
    · exact h.of_eq rfl

theorem State.slotLocs_formed {s : State} (h : Formed s) (b js acc r) (hr : s.slotLocs b js acc = some r) : Formed r.1 := by
  induction js generalizing s acc with
  | nil => exact Option.some.inj hr ▸ h
  | cons j js ih =>
    have h1 := State.engReach_formed h { s.engineAgent b.launch b.wg with priv := true } (b.slots + BitVec.ofNat 64 (16 * j)) 16 true
    unfold State.slotLocs at hr
    split at hr
    · rename_i he
      rw [he] at h1
      exact ih h1 _ hr
    · cases hr

theorem State.answerBatch_formed {s : State} (h : Formed s) (b vals) : Formed (s.answerBatch b vals) := by
  unfold State.answerBatch
  split
  · exact h
  · rename_i s1 locs he
    have h1 : Formed s1 := State.slotLocs_formed h _ _ _ _ he
    dsimp only
    have h2 : Formed (locs.zipIdx.foldl (fun a x => match vals with
        | some vs => a.putMarked (s.launch b.launch).die (x.1 + 4) (leBytes 4 (vs.getD x.2 0) ++ leBytes 8 1)
        | none => a.putMarked (s.launch b.launch).die (x.1 + 8) (leBytes 8 2)) s1) := by
      refine foldl_formed (fun a x ha => ?_) _ h1
      split <;> exact State.putMarked_formed ha _ _ _
    change Formed (@ite _ (_ = _) _ _ _)
    exact Formed.ite h2 (Formed.of_eq h2 (State.setWorkq_mem _ _))

@[simp] theorem State.decide1_mem (s : State) (l w) : (s.decide1 l w).1.mem = s.mem := by
  unfold State.decide1
  dsimp only
  repeat' split
  all_goals simp

@[simp] theorem State.decideBatch_mem (s : State) (b n) : (s.decideBatch b n).1.mem = s.mem := by
  induction n with
  | zero => rfl
  | succ n ih =>
    unfold State.decideBatch
    dsimp only
    split
    · rw [State.decide1_mem, ih]
    · exact ih

@[simp] theorem State.decideClaims_mem (s : State) (die) : (s.decideClaims die).mem = s.mem := by
  refine foldl_mem (fun a b => ?_) _ s
  split
  · rfl
  · exact a.decideBatch_mem b _

@[simp] theorem State.decideAll_mem (s : State) (die n) : (s.decideAll die n).mem = s.mem := by
  induction n generalizing s with
  | zero => rfl
  | succ n ih => exact (ih _).trans (s.decideClaims_mem die)

theorem State.serviceReply_formed {s : State} (h : Formed s) (die replies) : Formed (s.serviceReply die replies) := by
  have h1 := h.of_eq (s.decideAll_mem die (((s.serviceQueue die).map (fun b => b.lanes.length)).sum))
  unfold State.serviceReply
  dsimp only
  split
  · exact h1
  · exact Formed.ite (State.answerBatch_formed h1 _ _) (State.answerBatch_formed h1 _ _)

theorem execServiceReject_formed {s : State} (h : Formed s) (die) : Ends (execServiceReject die s) := by
  refine Ends.next ?_
  split
  · exact h
  · exact Formed.ite h (State.answerBatch_formed h _ _)

theorem State.pushBatch_formed {s : State} (h : Formed s) (core) : Formed (s.pushBatch core) := by
  unfold State.pushBatch
  split
  · exact h
  · rename_i b _
    extract_lets die Q loc s1 s2
    clear_value loc Q
    have h1 : Formed s1 := by
      have hw := State.writeHomeD_formed h loc (leBytes 64 (s.batchRecord b Q.reserve)) die
      unfold s1
      split
      · exact hw
      · exact h
    clear_value s1
    exact Formed.ite h (Formed.of_eq h1 rfl)

@[simp] theorem State.retryWaits_mem (s : State) (e) : (s.retryWaits e).mem = s.mem := rfl

theorem State.guardEcc_formed {s : State} (h : Formed s) (c w) : Formed (s.guardEcc c w) := by
  refine Formed.ite h (foldl_formed (fun a q ha => ?_) _ h)
  split
  · exact State.performLane_formed (f := fun s _ _ => .trap s _) ha s _ (fun _ _ _ ht => ht) _ false
  · exact ha

@[simp] theorem State.engPart_mem (s : State) (i) : (s.engPart i).2.mem = s.mem := s.pick_mem (i.todo.length + 1)

end Sys2Proof.Machine

/-!
The form of memory: every instruction and operation, the issue group, the events and the step (O52).
-/

namespace Sys2Proof.Machine
open Sys2Proof

theorem State.afterIndex_formed {s : State} (h : Formed s) (g regs i) {k : State → State} (hk : Formed (k s)) : Formed (s.afterIndex g regs i k) := by
  refine State.checked_formed h _ _ _ ?_
  split
  · exact h
  · exact Formed.ite (h.of_eq (s.markGroup_mem _ _ _)) hk

theorem execTrieInfo_formed {s : State} (h : Formed s) (g d a) : Ends (execTrieInfo g d a s) :=
  Ends.next (State.issueMem_formed (f := fun s T th => s.trieInfoLane d T th (readBv (s.tickOf T) .int 64 T th a)) h g d 32 [⟨2, a, 64⟩] []
    (fun _ T th ht => State.trieInfoLane_formed ht d T th _) true)

/-- The meaning of every instruction and operation ends in a state whose memory has the form. -/
theorem exec_formed {s : State} (h : Formed s) (i) : Ends (exec i s) := by
  cases i with
  | iaddI32 | isubI32 | iaddI64 | isubI64 | imulI32 | imulhiI32 | imulhiN32 | iminI32 | imaxI32 | iminN32 | imaxN32 | andB32 | orB32
  | xorB32 | andnB32 | shl | shr | sar | rotl | popc | clz | ctz | brev | iabsI32 | inegI32 | mov | movi | iaddi | andi | ori | xori
  | imad | sel | lea | iaddc | isubb | bfe | bfi | iaddL | shf | pmovFrom | icvt | faddF64 | faddF32 | fsubF64 | fsubF32 | fmulF64
  | fmulF32 | fminF64 | fminF32 | fmaxF64 | fmaxF32 | fabsF64 | fabsF32 | fnegF64 | fnegF32 | faddH2 | fmulH2 | faddB2 | fmulB2 | frcpF32
  | frsqF32 | fexp2F32 | flog2F32 | fsinpiF32 | fcospiF32 | ftanhF32 | fclassF64 | fclassF32 | fma | fcvt | frnd | fcvti | icvtf | fscale
  | fpack | funpack | fdot2 | gpcadd | gpcset | ctrSetmode => exact Ends.next (State.issue_formed h _ _ _ _ _)
  | pand | por | pxor | pnot | twait | mwait | jmp | nop | join | brk | trap => exact Ends.next (h.of_eq (s.perLane_mem _ _ _ _))
  | idiv | irem | icmp | setix | pmovTo | fdiv | fsqrt | fcmp | ffrexp =>
    exact Ends.next (State.checked_formed h _ _ _ (h.of_eq (s.perLane_mem _ _ _ _)))
  | movx => exact Ends.next (State.afterIndex_formed h _ _ _ (State.issue_formed h _ _ _ _ _))
  | stx => exact Ends.next (State.afterIndex_formed h _ _ _ (h.of_eq (s.perLane_mem _ _ _ _)))
  | faddL | fmulL => exact Ends.next (Formed.ite (State.issue_formed h _ _ _ _ _) (State.issue_formed h _ _ _ _ _))
  | shflIdx | shflUp | shflDn | shflXor => exact Ends.next (State.shuffle_formed h _ _ _ _ _)
  | voteAll | voteAny | voteBallot | voteEq | lbcast | matchLanes | zip | unzip => exact Ends.next (State.xl_formed h _ _ _ _ _ _ _ _ _)
  | redAddI32 | redAddF32 | scanAddI32 | red | scan => exact Ends.next (State.reduce_formed h _ _ _ _ _ _ _)
  | wadd | wsub | wneg | wshl | wshr | wsign | wcmp | wclr | wmacF64 | wnorm => exact Ends.next (State.limb_formed h _ _ _ _ _ _ _ _ _)
  | bind | unbind => exact Ends.next (h.of_eq (s.teamOp_mem _ _))
  | wwin => exact execWwin_formed h _ _ _
  | ldW | ldD | ldQ | stW | stD | stQ | ldsW | stsW | ldiWWg | stiWWg | ldK | stK | ldL | stL | ldi | sti | atom | atomcas | atomf
  | reelCondWrite => exact Ends.next (State.memory_formed h _ _ _ _ _ _)
  | qpop => exact execQpop_formed h _ _ _
  | qpush => exact execQpush_formed h _ _ _
  | prefetch => exact execPrefetch_formed h _ _ _
  | phase => exact execPhase_formed h _
  | fence g sc o => exact execFence_formed h g sc o
  | tfill | tdrain => exact Ends.next (State.tileOp_formed h _ _ _ _ _)
  | tstate => exact execTstate_formed h _ _ _
  | tfree => exact execTfree_formed h _ _
  | halloc => exact execHalloc_formed h _ _ _ _ _
  | hfree => exact execHfree_formed h _ _ _
  | cinv | cwb => exact Ends.next (State.maintainOp_formed h _ _ _ _ _)
  | mma | mmasc => exact Ends.next (State.matrixOp_formed h _ _ _ _ _ _ _ _ _)
  | accld | accldBand => exact Ends.next (State.accLoad_formed h _ _ _ _ _ _)
  | accst => exact execAccst_formed h _ _ _ _
  | acczero => exact execAcczero_formed h _ _ _
  | accwin => exact execAccwin_formed h _ _ _
  | opmap => exact execOpmap_formed h _ _ _
  | mmaprogRd => exact execMmaprogRd_formed h _ _ _ _
  | mmaprogWr => exact execMmaprogWr_formed h _ _ _ _
  | bra => exact Ends.next (h.of_eq (s.branch_mem _ _))
  | jmpi => exact execJmpi_formed h _ _
  | call => exact execCall_formed h _ _
  | calli => exact execCalli_formed h _ _
  | ret => exact execRet_formed h _
  | exit => exact execExit_formed h _
  | dispatch => exact execDispatch_formed h _ _ _ _
  | loop => exact Ends.next (State.loopOp_formed h _ _ _)
  | barWg => exact execBarWg_formed h
  | sleep => exact execSleep_formed h _ _
  | wait => exact execWait_formed h _ _
  | spawn | spawnTry => exact Ends.next (State.spawnOp_formed h _ _ _ _)
  | yield => exact execYield_formed h _
  | gmode => exact execGmode_formed h _ _
  | engCopy | engColl => exact Ends.next (State.engAppend_formed h _ _ _ _ _)
  | engPost => exact execEngPost_formed h _ _ _
  | engSeq => exact execEngSeq_formed h _ _ _
  | reelGo => exact execReelGo_formed h _ _ _
  | svc => exact execSvc_formed h _ _ _
  | svcwait => exact execSvcwait_formed h _ _
  | trieStep => exact Ends.next (State.trieOp_formed h _ _ _ _ fun _ _ _ _ _ ht => State.trieStepLane_formed ht _ _ _ _ _)
  | trieScan => exact Ends.next (State.trieOp_formed h _ _ _ _ fun _ _ _ _ _ ht => State.trieScanLane_formed ht _ _ _ _ _)
  | trieChild => exact Ends.next (State.trieOp_formed h _ _ _ _ fun _ _ _ _ _ ht => State.trieChildLane_formed ht _ _ _ _ _)
  | trieInfo => exact execTrieInfo_formed h _ _ _
  | covpt => exact execCovpt_formed h _ _
  | covst => exact execCovst_formed h _ _ _
  | mark => exact execMark_formed h _ _
  | ctrTick | ctrMode | ctrVote => exact Ends.next (State.ctrRead_formed h _ _ _ _)
  | ctrWindsock | fltrd => exact Ends.next (State.issueWith_formed h _ _ _ _ _ _)
  | tretRetry | tretSkip => exact Ends.next (State.tret_formed h _ _)
  | sysr => exact execSysr_formed h _ _ _ _
  | sysw => exact execSysw_formed h _ _ _ _
  | msig => exact execMsig_formed h _ _ _
  | mpost => exact execMpost_formed h _ _ _ _
  | tlbinvPage => exact Ends.next (State.tlbinvOp_formed h _ _ _ fun t _ _ => t.tlbPage_mem _ _)
  | tlbinvAsid => exact Ends.next (State.tlbinvOp_formed h _ _ _ fun t _ _ => t.tlbSpace_mem _)
  | tlbinvAll => exact Ends.next (State.tlbinvOp_formed h _ _ _ fun t _ _ => t.tlbDrop_mem _ _)
  | cflush => exact execCflush_formed h _ _ _
  | powerGood => exact execPowerGood_formed s
  | moduleReset => exact execModuleReset_formed s
  | memoryRegionInit => exact Ends.next (State.regionInit_formed h)
  | firmwareLoad => exact Ends.next (h.of_eq (s.firmware_mem _ _))
  | flitCrcRetry => exact Ends.next (h.of_eq (s.setLink_mem _ _))
  | linkRetrain => exact execLinkRetrain_formed h _
  | linkFailed => exact execLinkFailed_formed h _
  | fabricRemoteRead pa n acq => exact execFabricRemoteRead_formed h pa n acq
  | fabricRemoteWrite => exact execFabricRemoteWrite_formed h _ _ _
  | fabricRemoteAtomic op pa n x y o => exact execFabricRemoteAtomic_formed h op pa n x y o
  | directoryRecall => exact execDirectoryRecall_formed h _
  | directoryUnreachable => exact execDirectoryUnreachable_formed h
  | pcieBarRequest => exact Ends.next (h.of_eq (s.pcie_mem _))
  | createAs => exact execCreateAs_formed h _
  | destroyAs => exact execDestroyAs_formed h _
  | registerSq => exact execRegisterSq_formed h _
  | unregisterSq => exact execUnregisterSq_formed h _
  | configWq => exact execConfigWq_formed h _
  | mmioWrite => exact execMmioWrite_formed h _
  | mmioRead => exact execMmioRead_formed h _
  | status => exact execStatus_formed h _
  | setBudget => exact execSetBudget_formed h _
  | mailboxUnknownOp => exact execMailboxUnknownOp_formed h _
  | sqDoorbell => exact Ends.next (State.doorbell_formed h _ _)
  | throttleChange => exact execThrottleChange_formed h _ _
  | thermalShutdown => exact execThermalShutdown_formed s _
  | coreSelfCheckFail => exact Ends.next (State.coreFails_formed h _)
  | spareSubstitution => exact Ends.next (State.substitute_formed h _)
  | stopTickWrite => exact Ends.next (h.of_eq (s.armStop_mem _))
  | stopTickMatch => exact Ends.next (h.of_eq (s.stopMatch_mem))
  | registerWrite => exact execRegisterWrite_formed h _ _ _
  | tileEntryWrite => exact execTileEntryWrite_formed h _ _
  | debugWindowAccess => exact execDebugWindowAccess_formed h _ _
  | l2ModeChange => exact Ends.next (State.l2Write_formed h _)
  | mpostpopRead => exact execMpostpopRead_formed h _
  | l2Writeback => exact Ends.next (State.l2Back_formed h _)
  | replayResolve => exact execReplayResolve_formed h _
  | replayReject => exact execReplayReject_formed h _
  | outstandingResultReturn => exact execOutstandingResultReturn_formed h _
  | sliceIssueTurn => exact execSliceIssueTurn_formed h _ _
  | agePromotion => exact execAgePromotion_formed h _
  | convergenceHang => exact execConvergenceHang_formed h _
  | barrierHang => exact execBarrierHang_formed h _
  | workgroupBoundaryComplete => exact execWorkgroupBoundaryComplete_formed h _
  | phaseBoundaryComplete => exact execPhaseBoundaryComplete_formed h _
  | policyKill | policyStop | policySkip | policyRetry | policyForward => exact Ends.next (State.act_formed h _ _)
  | engineTakeEntry => exact Ends.next (State.takeEntry_formed h _ _ _)
  | copyEntry => exact Ends.next (State.copyEntry_formed h _ _ _ _)
  | collEntry => exact Ends.next (State.collEntry_formed h _ _ _ _)
  | nopEntry => exact Ends.next (h.of_eq (s.nopEntry_mem _ _ _))
  | entryCompletion => exact Ends.next (State.completion_formed h _ _ _)
  | reelEnd => exact execReelEnd_formed h _ _
  | reelCopy | reelColl => exact Ends.next (State.reelEntry_formed h _ _ _)
  | reelWaitseq => exact Ends.next (State.reelWait_formed h _ _)
  | reelWake => exact execReelWake_formed h _ _
  | reelCond => exact execReelCond_formed h _ _
  | reelWhile => exact execReelWhile_formed h _ _
  | matrixPass => exact Ends.next (State.matrixStep_formed h _)
  | matrixPassComplete => exact Ends.next (h.of_eq (s.matrixEnd_mem _))
  | launch => exact execLaunch_formed h _ _
  | feed => exact execFeed_formed h _ _
  | close => exact execClose_formed h _ _
  | nopPacket => exact execNopPacket_formed h _ _
  | workgroupPlace => exact Ends.next (State.place_formed h _)
  | workgroupRetire => exact execWorkgroupRetire_formed h _
  | launchComplete => exact Ends.next (State.completeLaunch_formed h _)
  | preemptMaskWrite => exact execPreemptMaskWrite_formed h _ _
  | workgroupSave => exact execWorkgroupSave_formed h _
  | workgroupRestore => exact execWorkgroupRestore_formed h _
  | serviceReply => exact Ends.next (State.serviceReply_formed h _ _)
  | serviceReject => exact execServiceReject_formed h _
  | tileReconstruction => exact execTileReconstruction_formed h _
  | auditWindowClose => exact execAuditWindowClose_formed h _
  | stopArrival => exact Ends.next (State.stopArrives_formed h _)
  | dbgHalt => exact Ends.next (Formed.ite (h.of_eq (s.dbgHaltCmd_mem _ _)) h)
  | dbgResume => exact Ends.next (Formed.ite (h.of_eq (s.dbgResumeCmd_mem _ _)) h)
  | dbgStep => exact Ends.next (Formed.ite (h.of_eq (s.dbgStepCmd_mem _ _)) h)
  | linkTrainedAgain => exact execLinkTrainedAgain_formed h _
  | fabricPortFailed => exact execFabricPortFailed_formed h _

/-! ### The issue group -/

theorem State.execSlot_formed {s : State} (h : Formed s) (c H ws) : Ends (s.execSlot c H ws) := by
  unfold State.execSlot
  dsimp only
  split
  · exact .next (State.afterSlot_formed (h.of_eq (s.groupFault_mem _)) _ _ _ _)
  · split
    · exact .next (State.afterSlot_formed (State.misplacedFault_formed h _ _) _ _ _ _)
    · rename_i i _ _ _
      have he := exec_formed (State.guardEcc_formed h c (ws.getD (slotOffset ws c.slot 1) 0)) i
      revert he
      generalize exec i _ = o
      intro ho
      cases o with
      | next t => exact .next (State.afterSlot_formed (ho t rfl) _ _ _ _)
      | fault r => exact ho
      | refused r => exact ho

theorem State.runSlot_formed {s : State} (h : Formed s) (c) : Ends (s.runSlot c) := by
  unfold State.runSlot
  split
  · exact .next (h.of_eq rfl)
  · rename_i E _
    extract_lets s1
    have h1 : Formed s1 := Formed.ite (State.fetchGroup_formed h _ _) h
    clear_value s1
    split
    · split
      · exact .next (State.afterClause_formed (Formed.of_eq h1 (State.groupFaultWith_mem _ _ _ _)) _ _ _)
      · split
        · exact .next (State.leaveClause_formed h1 _ _ _ _)
        · split
          · exact .next (State.afterSlot_formed h1 _ _ _ _)
          · exact State.execSlot_formed h1 _ _ _
    · exact .next h1

theorem State.poll_formed {s : State} (h : Formed s) (e) : Ends (s.poll e) := by
  have hc : Formed { s with cur := some ⟨e.id, e.slot⟩ } := h.of_eq rfl
  have hdone (t : State) (ht : Formed t) :
      Formed (if (t.members e.id).isEmpty then t.afterClause e.core e.slice (s.groupTeams e.id) else { t with cur := none }) :=
    Formed.ite (State.afterClause_formed ht _ _ _) (ht.of_eq rfl)
  unfold State.poll
  dsimp only
  split
  · exact .next (hdone _ (State.fetchGroup_formed hc _ _))
  · split
    · exact .next (hdone _ (hc.of_eq (State.retryWaits_mem _ _)))
    · split
      · exact .next (hdone _ (hc.of_eq (by rw [State.groupFault_mem, State.retryWaits_mem])))
      · rename_i i _
        have he := exec_formed (hc.of_eq (State.retryWaits_mem _ e.id)) i
        revert he
        generalize exec i _ = o
        intro ho
        cases o with
        | next t => exact .next (hdone _ (Formed.of_eq (ho t rfl) (t.mapTeams_mem _)))
        | fault r => exact ho
        | refused r => exact ho

/-! ### The events of the module's units -/

theorem nextOr_formed {s : State} (h : Formed s) {r : Host.Outcome State Fault Refusal} (hr : Ends r) : Formed (nextOr s r) := by
  cases r with
  | next t => exact hr t rfl
  | _ => exact h

/-- Does every event of a list keep memory's form? -/
def AllKeep (fs : List (State → State)) : Prop := ∀ f ∈ fs, ∀ a, Formed a → Formed (f a)

theorem AllKeep.nil : AllKeep [] := fun _ hf => nomatch hf

theorem AllKeep.single {f : State → State} (hf : ∀ a, Formed a → Formed (f a)) : AllKeep [f] := fun _ hg => List.mem_singleton.mp hg ▸ hf

theorem AllKeep.append {fs gs : List (State → State)} (hf : AllKeep fs) (hg : AllKeep gs) : AllKeep (fs ++ gs) :=
  fun f h => (List.mem_append.mp h).elim (hf f) (hg f)

theorem AllKeep.ite {fs gs : List (State → State)} {p : Prop} [Decidable p] (hf : AllKeep fs) (hg : AllKeep gs) : AllKeep (if p then fs else gs) :=
  iteInduction (motive := AllKeep) (fun _ => hf) (fun _ => hg)

theorem AllKeep.map {α : Type} {f : α → State → State} (hf : ∀ x a, Formed a → Formed (f x a)) (xs : List α) : AllKeep (xs.map f) := by
  intro g hg
  obtain ⟨x, _, rfl⟩ := List.mem_map.mp hg
  exact hf x

theorem AllKeep.flatMap {α : Type} {f : α → List (State → State)} (hf : ∀ x, AllKeep (f x)) (xs : List α) : AllKeep (xs.flatMap f) := by
  intro g hg
  obtain ⟨x, _, hx⟩ := List.mem_flatMap.mp hg
  exact hf x g hx

theorem State.queueEvents_keep (s : State) (W) : AllKeep (s.queueEvents W) := by
  refine AllKeep.ite .nil fun g hg a ha => ?_
  obtain ⟨q, _, hq⟩ := List.mem_filterMap.mp hg
  split at hq
  · split at hq
    · cases hq
    · obtain rfl := Option.some.inj hq
      exact State.takeEntry_formed ha _ _ _
  · rename_i i _
    have hp : Formed (a.engPart i).2 := ha.of_eq (a.engPart_mem i)
    split at hq
    · obtain rfl := Option.some.inj hq
      exact State.completion_formed ha _ _ _
    · split at hq
      · cases hq
      · split at hq
        · obtain rfl := Option.some.inj hq
          exact State.copyEntry_formed hp _ _ _ _
        · split at hq
          · obtain rfl := Option.some.inj hq
            exact State.collEntry_formed hp _ _ _ _
          · obtain rfl := Option.some.inj hq
            exact ha.of_eq (a.nopEntry_mem _ _ _)

theorem State.cursorNode_formed {s : State} (h : Formed s) (core c) : Formed (s.cursorNode core c) := by
  unfold State.cursorNode
  dsimp only
  split
  · refine nextOr_formed h ?_
    split
    · exact exec_formed h (.reelCopy core c)
    · exact exec_formed h (.reelColl core c)
    · exact exec_formed h (.reelWaitseq core c)
    · exact exec_formed h (.reelWake core c)
    · exact exec_formed h (.reelCond core c)
    · exact exec_formed h (.reelWhile core c)
    · exact exec_formed h (.reelEnd core c)
  · exact h

theorem State.coreEvents_keep (s : State) (K) : AllKeep (s.coreEvents K) := by
  refine .append (.append (.append ?_ ?_) ?_) ?_
  · exact .ite .nil (.single fun a ha => State.stopArrives_formed ha _)
  · split
    · exact .nil
    · exact .ite (.single fun a ha => ha.of_eq (a.matrixEnd_mem _)) (.ite .nil (.single fun a ha => State.matrixStep_formed ha _))
  · split
    · exact .nil
    · exact .map (fun c a ha => State.cursorNode_formed ha _ _) _
  · exact .ite (.single fun a ha => State.pushBatch_formed ha _) .nil

theorem State.sqEvents_keep (s : State) (q) : AllKeep (s.sqEvents q) := by
  refine .append ?_ ?_
  · exact .ite (.single fun a ha => State.flushSq_formed ha _) .nil
  · split
    · exact .nil
    · exact .ite .nil (.single fun a ha => nextOr_formed ha (execNopPacket_formed ha _ _))
    all_goals
      refine .ite .nil (.single fun a ha => nextOr_formed ha ?_)
      split
      · exact execLaunch_formed ha _ _
      · exact execFeed_formed ha _ _
      · exact execClose_formed ha _ _
      · exact execNopPacket_formed ha _ _

theorem State.launchEvents_keep (s : State) (L) : AllKeep (s.launchEvents L) := by
  refine .append (.append ?_ ?_) (.ite .nil (.append (.append (.append (.append (.append ?_ ?_) ?_) ?_) ?_) (.flatMap (fun i => .append ?_ ?_) _)))
  · exact .ite .nil (.single fun a ha => ha.of_eq (a.preemptAck_mem _))
  · exact .ite .nil (.single fun a ha => State.flushCover_formed ha _)
  · split
    · exact .single fun a ha => State.killWith_formed ha _ _
    · exact .nil
  · exact .ite .nil (.single fun a ha => State.flushWords_formed ha _)
  · exact .ite (.single fun a ha => State.place_formed ha _) .nil
  · exact .ite (.single fun a ha => State.completeLaunch_formed ha _) .nil
  · exact .ite (.single fun a ha => State.windowClose_formed ha _) .nil
  · exact .ite (.single fun a ha => State.passInstance_formed ha _ _ _) .nil
  · split
    · refine .ite ?_ .nil
      split
      · exact .nil
      · exact .single fun a ha => ha.of_eq (a.barHang_mem _)
    · exact .nil

theorem State.wgEvents_keep (s : State) (W) : AllKeep (s.wgEvents W) := by
  refine .append (.append (.append (.append (.append (.append (s.queueEvents_keep W) ?_) ?_) ?_) ?_) ?_) ?_
  · exact .ite (.single fun a ha => ha.of_eq (a.wgBoundary_mem _ _)) .nil
  · exact .ite (.single fun a ha => ha.of_eq (a.barHang_mem _)) .nil
  · exact .ite (.single fun a ha => State.retire_formed ha _) .nil
  · exact .ite (.single fun a ha => nextOr_formed ha (execWorkgroupSave_formed ha _)) .nil
  · exact .ite (.single fun a ha => State.restoreWg_formed ha _) .nil
  · split
    · exact .ite .nil (.single fun a ha => State.reconstruction_formed ha _ _)
    · exact .nil

theorem State.threadEvents_keep (s : State) (T th) : AllKeep (s.threadEvents T th) := by
  refine .append ?_ ?_
  · exact .ite .nil (.single fun a ha => ha.of_eq (a.returnOne_mem _))
  · split
    · exact .ite (.single fun a ha => State.act_formed ha _ _) .nil
    · exact .nil

theorem State.dieEvents_keep (s : State) (d : Nat) : AllKeep
    ((if s.bring.gondola.getLsbD d && !s.bring.compute.getLsbD d then [fun (a : State) => a.startCompute d] else [])
      ++ (if s.bring.gondola.getLsbD d && !s.bring.svc.getLsbD d then [fun (a : State) => a.startService d] else [])
      ++ (if (s.die d).traceOut.isEmpty then [] else [fun (a : State) => a.traceFlush d (s.die d).traceOut.length])) := by
  refine .append (.append ?_ ?_) ?_
  · exact .ite (.single fun a ha => ha.of_eq (a.startCompute_mem d)) .nil
  · exact .ite (.single fun a ha => ha.of_eq (a.startService_mem d)) .nil
  · exact .ite .nil (.single fun a ha => State.traceFlush_formed ha _ _)

theorem State.events_keep (s : State) : AllKeep s.events := by
  refine .append (.append (.append (.append (.append (.append (.append (.append (.append (.append (.append ?_ ?_) ?_) ?_) ?_) ?_) ?_) ?_) ?_) ?_) ?_) ?_
  · exact .flatMap s.coreEvents_keep _
  · exact .flatMap s.sqEvents_keep _
  · exact .flatMap s.launchEvents_keep _
  · exact .flatMap s.wgEvents_keep _
  · exact .flatMap (fun T => .flatMap (s.threadEvents_keep T) _) _
  · split
    · exact .single fun a ha => State.act_formed ha _ _
    · exact .nil
  · exact .map (fun e a ha => nextOr_formed ha (execConvergenceHang_formed ha _)) _
  · exact .ite .nil (.single fun a ha => State.envStep_formed ha)
  · exact .map (fun q a ha => State.replayEntry_formed ha _) _
  · exact .ite (.single fun a ha => State.regionInit_formed ha) .nil
  · exact .flatMap s.dieEvents_keep _
  · exact .map (fun c a ha => State.sliceTurn_formed ha _ _) _

/-! ### The step -/

theorem State.idle_formed {s : State} (h : Formed s) : Ends s.idle := by
  have hall : ∀ f ∈ s.events.map (fun f => fun (a : State) => .next (f a)) ++ (s.entries.filter s.polls).map (fun e => fun (a : State) => a.poll e),
      ∀ a, Formed a → Ends (f a) := by
    intro f hf a ha
    obtain hf | hf := List.mem_append.mp hf
    · obtain ⟨g, hg, rfl⟩ := List.mem_map.mp hf
      exact .next (s.events_keep g hg a ha)
    · obtain ⟨e, _, rfl⟩ := List.mem_map.mp hf
      exact State.poll_formed ha e
  unfold State.idle
  extract_lets evs
  change ∀ f ∈ evs, ∀ a, Formed a → Ends (f a) at hall
  have hp : Formed (s.pick evs.length).2 := h.of_eq (s.pick_mem _)
  clear_value evs
  match evs, hall, hp with
  | [], _, _ => exact .next h
  | [f], hall, _ => exact hall f (List.mem_singleton_self f) s h
  | f :: g :: fs, hall, hp =>
    dsimp only
    split
    · exact hall _ (List.mem_of_getElem? (by assumption)) _ hp
    · exact .next hp

theorem afterTick_formed {r : Host.Outcome State Fault Refusal} (hr : Ends r) (ran) : Ends (afterTick ran r) := by
  cases r with
  | next t => exact .next (Formed.ite (State.clock_formed (hr t rfl) ran) (hr t rfl))
  | fault r => exact hr
  | refused r => exact hr

theorem State.ownStep_formed {s : State} (h : Formed s) : Ends s.ownStep := by
  unfold State.ownStep
  split
  · exact afterTick_formed (State.runSlot_formed h _) _
  · exact afterTick_formed (State.idle_formed h) _

theorem State.drive_formed {s : State} (h : Formed s) : Ends s.drive := by
  unfold State.drive
  split
  · rename_i i rest _
    have hr : Formed { s with agenda := rest } := h.of_eq rfl
    split
    · exact State.ownStep_formed (h.of_eq rfl)
    · split
      · exact State.ownStep_formed (h.of_eq rfl)
      · exact exec_formed hr i
  · exact State.ownStep_formed h

theorem State.driveGated_formed {s : State} (h : Formed s) : Ends s.driveGated := by
  unfold State.driveGated
  split
  · rename_i rest _
    have hr : Formed { s with agenda := rest } := h.of_eq rfl
    exact exec_formed hr .moduleReset
  · exact fun _ ht => nomatch ht

theorem step_formed {s : State} (h : Formed s) : Ends (step s) := by
  unfold step
  split
  · exact State.driveGated_formed h
  · exact State.drive_formed h

end Sys2Proof.Machine

namespace Sys2Proof.Claims
open Sys2Proof Sys2Proof.Machine

/-- Settles O52: each function that a step calls writes memory through `Memory.write` or filters it, and both keep the form. -/
theorem stepKeepsMemoryForm : Obligations.StepKeepsMemoryForm := by
  unfold Obligations.StepKeepsMemoryForm
  intro s t hs hstep
  exact step_formed hs t hstep

end Sys2Proof.Claims

/-!
The seal of a sector (01 R15): the register as a number and as a bit vector, and what memory initialisation leaves (O49).
-/

namespace Sys2Proof.Claims
open Sys2Proof Sys2Proof.Machine

theorem sealBit_lt (crc bit : Nat) : sealBit crc bit < 2 ^ 16 := by
  have hs : crc * 2 % 0x10000 < 2 ^ 16 := Nat.mod_lt _ (by decide)
  unfold sealBit
  dsimp only
  split
  · exact Nat.xor_lt_two_pow hs (by decide)
  · exact hs

/-- The bit that leaves the register. -/
theorem msb_ofNat_seal {crc : Nat} (h : crc < 2 ^ 16) : (BitVec.ofNat 16 crc).msb = decide (crc / 0x8000 % 2 = 1) := by
  rw [BitVec.msb_eq_decide, BitVec.toNat_ofNat, Nat.mod_eq_of_lt h, decide_eq_decide]
  omega

theorem ofNat_shift_seal (crc : Nat) : BitVec.ofNat 16 (crc * 2 % 0x10000) = BitVec.ofNat 16 crc <<< 1 := by
  apply BitVec.eq_of_toNat_eq
  rw [BitVec.toNat_ofNat, BitVec.toNat_shiftLeft, BitVec.toNat_ofNat, Nat.shiftLeft_eq]
  omega

/-- A bit of the register as a number is the rule's step. -/
theorem ofNat_sealBit {crc : Nat} (h : crc < 2 ^ 16) (bit : Bool) :
    BitVec.ofNat 16 (sealBit crc bit.toNat) = sealStep (BitVec.ofNat 16 crc) bit := by
  have hc : ((crc / 0x8000 % 2 + bit.toNat) % 2 = 1) ↔ ((BitVec.ofNat 16 crc).msb != bit) = true := by
    rw [msb_ofNat_seal h]
    obtain h0 | h1 := Nat.mod_two_eq_zero_or_one (crc / 0x8000)
    · cases bit <;> simp [h0]
    · cases bit <;> simp [h1]
  unfold sealBit sealStep
  dsimp only
  rw [if_congr hc rfl rfl, ← ofNat_shift_seal, apply_ite (BitVec.ofNat 16), BitVec.ofNat_xor]

theorem getLsbD_toNat_div (b : Byte) (j : Nat) : b.toNat / 2 ^ j % 2 = (b.getLsbD j).toNat := by
  rw [BitVec.getLsbD, Nat.testBit_eq_decide_div_mod_eq]
  obtain h | h := Nat.mod_two_eq_zero_or_one (b.toNat / 2 ^ j) <;> simp [h]

/-- A run of bits of a byte keeps the register's width and follows the rule's steps. -/
theorem sealBits_eq (b : Byte) (js : List Nat) {crc : Nat} (h : crc < 2 ^ 16) :
    js.foldl (fun c j => sealBit c (b.toNat / 2 ^ j % 2)) crc < 2 ^ 16
    ∧ BitVec.ofNat 16 (js.foldl (fun c j => sealBit c (b.toNat / 2 ^ j % 2)) crc)
      = js.foldl (fun c j => sealStep c (b.getLsbD j)) (BitVec.ofNat 16 crc) := by
  induction js generalizing crc with
  | nil => exact ⟨h, rfl⟩
  | cons j js ih =>
    rw [List.foldl_cons, List.foldl_cons, getLsbD_toNat_div, ← ofNat_sealBit h]
    exact ih (sealBit_lt _ _)

theorem sealByte_eq (b : Byte) {crc : Nat} (h : crc < 2 ^ 16) :
    sealByte crc b < 2 ^ 16
    ∧ BitVec.ofNat 16 (sealByte crc b) = (List.range 8).foldl (fun crc j => sealStep crc (b.getLsbD (7 - j))) (BitVec.ofNat 16 crc) :=
  sealBits_eq b [7, 6, 5, 4, 3, 2, 1, 0] h

/-- The number of a run's seal fits 16 bits and is what the rule's loop computes. -/
theorem sealBytes_eq (bs : List Byte) {crc : Nat} (h : crc < 2 ^ 16) :
    bs.foldl sealByte crc < 2 ^ 16
    ∧ BitVec.ofNat 16 (bs.foldl sealByte crc)
      = bs.foldl (fun crc b => (List.range 8).foldl (fun crc j => sealStep crc (b.getLsbD (7 - j))) crc) (BitVec.ofNat 16 crc) := by
  induction bs generalizing crc with
  | nil => exact ⟨h, rfl⟩
  | cons b bs ih =>
    obtain ⟨hlt, heq⟩ := sealByte_eq b h
    rw [List.foldl_cons, List.foldl_cons, ← heq]
    exact ih hlt

theorem sealOf_zeros : sealOf (List.replicate 64 0) = 0 := by decide +kernel

/-! ### What memory initialisation leaves -/

theorem ByteMap.get?_eq_none {m : ByteMap} {a : Nat} (h : ∀ x ∈ m, x.1 ≠ a) : ByteMap.get? m a = none := by
  induction m with
  | nil => rfl
  | cons c m ih =>
    obtain ⟨k, v⟩ := c
    have hk : k ≠ a := h (k, v) List.mem_cons_self
    rw [ByteMap.get?, if_neg hk, ih fun x hx => h x (List.mem_cons_of_mem _ hx), ite_self]

/-- An address that a filter takes out reads as nothing has written it. -/
theorem Memory.read_filter_gone {m : Memory} {p : Nat × Byte → Bool} {a : Nat} (h : ∀ b, p (a, b) = false) :
    Memory.read (m.filter p) a = Memory.unlisted := by
  have hnone : ByteMap.get? (m.filter p) a = none := by
    refine ByteMap.get?_eq_none fun x hx hxa => ?_
    obtain ⟨_, hp⟩ := List.mem_filter.mp hx
    subst hxa
    exact absurd hp (by rw [h x.2]; decide)
  rw [Memory.read, hnone, Option.getD_none]

theorem regionInit_eq {s : State} (hst : s.bring.stoland = true) (hbad : s.bring.badDimm = none) (hreg : s.bring.regions < s.allRegions) :
    s.regionInit = { s with
      mem := s.mem.filter (fun c => !(c.1 / 2 ^ 40 == s.bring.regions))
      badSeals := s.badSeals.filter (fun sec => !(sec * 64 / 2 ^ 40 == s.bring.regions))
      pinned := s.pinned.filter (fun sec => !(sec * 64 / 2 ^ 40 == s.bring.regions))
      poison := s.poison.filter (fun sec => !(sec * 64 / 2 ^ 40 == s.bring.regions))
      bring := { s.bring with regions := s.bring.regions + 1, step := if s.bring.regions + 1 = s.allRegions then 5 else s.bring.step } } := by
  unfold State.regionInit
  dsimp only
  rw [if_neg]
  simp [hst, hbad, hreg]

theorem allRegions_le {s : State} (h : s.bring.dimm ≤ 256) : s.allRegions ≤ 48 := by
  unfold State.allRegions State.dramTop
  omega

theorem regionInit_homeByte {s : State} (hst : s.bring.stoland = true) (hbad : s.bring.badDimm = none) (hdimm : s.bring.dimm ≤ 256)
    (hreg : s.bring.regions < s.allRegions) {a : Nat} (ha : a / 2 ^ 40 = s.bring.regions) : s.regionInit.homeByte a = 0 := by
  have hall := allRegions_le hdimm
  rw [regionInit_eq hst hbad hreg, State.homeByte, if_pos (by omega)]
  exact Memory.read_filter_gone fun b => by simpa using ha

theorem regionInit_sealBad {s : State} (hst : s.bring.stoland = true) (hbad : s.bring.badDimm = none)
    (hreg : s.bring.regions < s.allRegions) {sec : Nat} (hsec : sec * 64 / 2 ^ 40 = s.bring.regions) : s.regionInit.sealBad (sec * 64) = false := by
  have hgone (l : List Nat) : (l.filter (fun x => !(x * 64 / 2 ^ 40 == s.bring.regions))).contains sec = false := by
    simpa using fun _ => hsec
  rw [regionInit_eq hst hbad hreg, State.sealBad, sectorOf, Nat.mul_div_cancel _ (by decide), hgone, hgone, hgone]
  rfl

theorem regionInit_homeBytes {s : State} (hst : s.bring.stoland = true) (hbad : s.bring.badDimm = none) (hdimm : s.bring.dimm ≤ 256)
    (hreg : s.bring.regions < s.allRegions) {sec : Nat} (hsec : sec * 64 / 2 ^ 40 = s.bring.regions) :
    s.regionInit.homeBytes (sec * 64) 64 = List.replicate 64 0 := by
  refine List.eq_replicate_iff.mpr ⟨by simp [State.homeBytes], fun b hb => ?_⟩
  obtain ⟨k, hk, rfl⟩ := List.mem_map.mp hb
  have hk64 := List.mem_range.mp hk
  exact regionInit_homeByte hst hbad hdimm hreg (by omega)

/-- Settles O49: the register as a number stays below 2^16 and takes the rule's steps, bit by bit; the region that memory initialisation writes
holds no listed byte. -/
theorem sealCode : Obligations.SealCode := by
  unfold Obligations.SealCode
  refine ⟨fun bs => ?_, sealOf_zeros, by decide +kernel, by decide +kernel, fun s hst hbad hdimm hreg _ => ⟨s.regionInit, rfl, fun sec hsec => ⟨?_, ?_⟩⟩⟩
  · obtain ⟨hlt, heq⟩ := sealBytes_eq bs (crc := 0) (by decide)
    exact ⟨heq, hlt⟩
  · rw [regionInit_homeBytes hst hbad hdimm hreg hsec]
    exact sealOf_zeros
  · exact regionInit_sealBad hst hbad hreg hsec

end Sys2Proof.Claims

/-!
Writes at a home (01 R15 to R17; 03 R52): what one byte, the bytes, the seals and the L2 are afterwards (O50).
-/

namespace Sys2Proof.Claims
open Sys2Proof Sys2Proof.Machine

/-! ### The sectors of a write -/

theorem mem_sectorsOf {loc n sec : Nat} (hn : 0 < n) : sec ∈ sectorsOf loc n ↔ touches loc n sec := by
  unfold sectorsOf touches sectorOf
  rw [List.mem_map]
  constructor
  · rintro ⟨k, hk, rfl⟩
    have := List.mem_range.mp hk
    omega
  · rintro ⟨hlo, hhi⟩
    exact ⟨sec - loc / 64, List.mem_range.mpr (by omega), by omega⟩

theorem sectorsOf_rises (loc n : Nat) : (sectorsOf loc n).Pairwise (· < ·) :=
  List.pairwise_map.mpr (List.pairwise_lt_range.imp fun h => Nat.add_lt_add_left h _)

theorem touches_of_fills {loc n sec : Nat} (h : fills loc n sec) : touches loc n sec := by
  obtain ⟨hlo, hhi⟩ := h
  exact ⟨by omega, by omega⟩

/-- Does a write fill a sector, as `writeHome` asks it? -/
theorem fills_iff {loc n sec : Nat} : (decide (loc ≤ sec * 64) && decide (sec * 64 + 64 ≤ loc + n)) = true ↔ fills loc n sec := by
  rw [Bool.and_eq_true, decide_eq_true_iff, decide_eq_true_iff, fills]

/-! ### The bytes -/

theorem homeByte_putHome {s : State} (h : Formed s) {loc : Nat} (hloc : loc < 2 ^ 52) (b : Byte) (k : Nat) :
    (s.putHome loc b).homeByte k = if k = loc then b else s.homeByte k := by
  unfold State.putHome State.homeByte
  rw [if_pos hloc]
  dsimp only
  rw [Memory.read_write h]
  by_cases hk : k = loc
  · rw [if_pos (hk ▸ hloc), if_pos hk, if_pos hk]
  · rw [if_neg hk, if_neg hk]

theorem homeByte_putBytes {s : State} (h : Formed s) {loc : Nat} {bs : List Byte} (hloc : loc + bs.length ≤ 2 ^ 52) (k : Nat) :
    (s.putBytes loc bs).homeByte k = if loc ≤ k ∧ k < loc + bs.length then bs.getD (k - loc) 0 else s.homeByte k := by
  induction bs generalizing s loc with
  | nil => rw [if_neg (by simp)]; rfl
  | cons b bs ih =>
    rw [List.length_cons] at hloc
    rw [State.putBytes, ih (State.putHome_formed h loc b) (by omega), homeByte_putHome h (by omega), List.length_cons]
    by_cases hk : k = loc
    · subst hk
      rw [if_neg (by omega), if_pos rfl, if_pos (by omega), Nat.sub_self, List.getD_cons_zero]
    · rw [if_neg hk]
      refine if_ctx_congr (by omega) (fun hin => ?_) fun _ => rfl
      rw [show k - loc = k - (loc + 1) + 1 by omega, List.getD_cons_succ]

/-! ### What a write may change of the state -/

/-- The state differs in memory, its seals, the L2 and the free choices alone. -/
def HomeChange (s t : State) : Prop :=
  ∃ m b p q d h v f, t = { s with mem := m, badSeals := b, pinned := p, poison := q, l2Dirty := d, l2Home := h, l2Valid := v, freeCount := f }

theorem HomeChange.refl (s : State) : HomeChange s s := ⟨_, _, _, _, _, _, _, _, rfl⟩

theorem HomeChange.trans {s t u : State} (h₁ : HomeChange s t) (h₂ : HomeChange t u) : HomeChange s u := by
  obtain ⟨_, _, _, _, _, _, _, _, rfl⟩ := h₁
  obtain ⟨_, _, _, _, _, _, _, _, rfl⟩ := h₂
  exact ⟨_, _, _, _, _, _, _, _, rfl⟩

theorem HomeChange.eq {s t : State} (h : HomeChange s t) :
    t = { s with mem := t.mem, badSeals := t.badSeals, pinned := t.pinned, poison := t.poison, l2Dirty := t.l2Dirty, l2Home := t.l2Home
                 l2Valid := t.l2Valid, freeCount := t.freeCount } := by
  obtain ⟨_, _, _, _, _, _, _, _, rfl⟩ := h
  rfl

theorem homeChange_putBytes {s : State} {loc : Nat} {bs : List Byte} (hloc : loc + bs.length ≤ 2 ^ 52) : HomeChange s (s.putBytes loc bs) := by
  induction bs generalizing s loc with
  | nil => exact .refl s
  | cons b bs ih =>
    rw [List.length_cons] at hloc
    refine .trans ?_ (ih (by omega))
    rw [State.putHome, if_pos (by omega)]
    exact ⟨_, _, _, _, _, _, _, _, rfl⟩

theorem homeChange_freshSeal (s : State) (sec : Nat) : HomeChange s (s.freshSeal sec) := ⟨_, _, _, _, _, _, _, _, rfl⟩

theorem homeChange_l2Put (s : State) (slice sec : Nat) : HomeChange s (s.l2Put slice sec) := by
  unfold State.l2Put
  dsimp only
  split
  · exact .refl s
  · split
    · exact ⟨_, _, _, _, _, _, _, _, rfl⟩
    · split
      · exact ⟨_, _, _, _, _, _, _, _, rfl⟩
      · split <;> exact ⟨_, _, _, _, _, _, _, _, rfl⟩

theorem homeChange_markL2 (s : State) (die sec : Nat) : HomeChange s (s.markL2 die sec) := by
  unfold State.markL2
  split
  · refine HomeChange.trans ?_ (homeChange_l2Put _ _ _)
    exact ⟨_, _, _, _, _, _, _, _, rfl⟩
  · exact .refl s

/-! ### Seals -/

@[simp] theorem sealBad_l2Put (s : State) (slice sec loc : Nat) : (s.l2Put slice sec).sealBad loc = s.sealBad loc := by
  unfold State.l2Put
  dsimp only
  split
  · rfl
  · split
    · rfl
    · split
      · rfl
      · split <;> rfl

@[simp] theorem sealBad_markL2 (s : State) (die sec loc : Nat) : (s.markL2 die sec).sealBad loc = s.sealBad loc := by
  unfold State.markL2
  split
  · exact sealBad_l2Put _ _ _ _
  · rfl

theorem sealBad_putBytes (s : State) (loc : Nat) (bs : List Byte) (l : Nat) : (s.putBytes loc bs).sealBad l = s.sealBad l := by
  induction bs generalizing s loc with
  | nil => rfl
  | cons b bs ih =>
    rw [State.putBytes, ih, State.putHome]
    split <;> rfl

theorem sealBad_freshSeal (s : State) (sec k : Nat) : (s.freshSeal sec).sealBad (k * 64) = true ↔ k ≠ sec ∧ s.sealBad (k * 64) = true := by
  unfold State.sealBad State.freshSeal sectorOf
  rw [Nat.mul_div_cancel _ (by decide)]
  by_cases hk : k = sec
  · simp [hk]
  · simp [hk]

/-! ### The L2 -/

theorem homeSlice_line {s : State} {die a b : Nat} (h : a / 128 = b / 128) : s.homeSlice die a = s.homeSlice die b := by
  have hbits (k n : Nat) (hk : 7 ≤ k) : a / 2 ^ k % 2 ^ n = b / 2 ^ k % 2 ^ n := by
    have hsplit : 2 ^ k = 128 * 2 ^ (k - 7) := by
      rw [show (128 : Nat) = 2 ^ 7 from rfl, ← Nat.pow_add, Nat.add_sub_cancel' hk]
    rw [hsplit, ← Nat.div_div_eq_div_mul, ← Nat.div_div_eq_div_mul, h]
  unfold State.homeSlice
  dsimp only
  rw [hbits 7 7 (by decide), hbits 14 7 (by decide), hbits 21 7 (by decide), hbits 28 7 (by decide), hbits 35 7 (by decide),
    hbits 42 7 (by decide), hbits 49 3 (by decide)]

/-- A sector is valid in a slice and dirty. -/
def InL2 (s : State) (slice sec : Nat) : Prop := sec ∈ s.l2Dirty ∧ (sec, slice) ∈ s.l2Valid

/-- The lines of a slice, as `l2Put` finds them. -/
theorem mem_linesOf {s : State} {slice line : Nat} :
    line ∈ ((s.l2Valid.filter (·.2 == slice)).map (·.1 / 2)).dedup ↔ ∃ sec, (sec, slice) ∈ s.l2Valid ∧ sec / 2 = line := by
  rw [List.mem_dedup, List.mem_map]
  constructor
  · rintro ⟨x, hx, rfl⟩
    obtain ⟨hx, hs⟩ := List.mem_filter.mp hx
    exact ⟨x.1, by rw [← beq_iff_eq.mp hs]; exact hx, rfl⟩
  · rintro ⟨sec, hsec, rfl⟩
    exact ⟨(sec, slice), List.mem_filter.mpr ⟨hsec, beq_self_eq_true _⟩, rfl⟩

/-- A sector of a line that the slice holds, or the sector itself, keeps its place: nothing of its line is replaced. -/
theorem inL2_l2Put {s : State} {slice sec k : Nat} (hline : k / 2 = sec / 2) (hd : k ∈ s.l2Dirty) (hv : (k, slice) ∈ s.l2Valid ∨ k = sec) :
    InL2 (s.l2Put slice sec) slice k := by
  have hadd {v : List (Nat × Nat)} (hv' : (k, slice) ∈ s.l2Valid → (k, slice) ∈ v) : (k, slice) ∈ (sec, slice) :: v := by
    obtain hk | rfl := hv
    · exact List.mem_cons_of_mem _ (hv' hk)
    · exact List.mem_cons_self
  unfold State.l2Put
  dsimp only
  split
  · rename_i hin
    obtain hk | rfl := hv
    · exact ⟨hd, hk⟩
    · exact ⟨hd, List.contains_iff_mem.mp hin⟩
  · split
    · exact ⟨hd, hadd id⟩
    · rename_i hnew
      have habsent : ∀ l ∈ ((s.l2Valid.filter (·.2 == slice)).map (·.1 / 2)).dedup, k / 2 ≠ l := by
        rintro l hl rfl
        exact hnew (Bool.or_eq_true_iff.mpr (.inl (List.contains_iff_mem.mpr (hline ▸ hl))))
      split
      · exact ⟨hd, hadd id⟩
      · split
        · exact ⟨hd, hadd id⟩
        · rename_i l hl
          have hkl := habsent l (List.mem_filter.mp (List.mem_of_getElem? hl)).1
          refine ⟨List.mem_filter.mpr ⟨hd, by simp [hkl]⟩, hadd fun hk => List.mem_filter.mpr ⟨hk, by simp [hkl]⟩⟩

theorem inL2_markL2 {s : State} {die sec k : Nat} (hholds : s.l2Holds sec = true) (hline : k / 2 = sec / 2)
    (hk : InL2 s (s.homeSlice die (k * 64)) k ∨ k = sec) : InL2 (s.markL2 die sec) (s.homeSlice die (k * 64)) k := by
  have hslice : s.homeSlice die (k * 64) = s.homeSlice die (sec * 64) := homeSlice_line (by omega)
  unfold State.markL2
  rw [if_pos hholds]
  dsimp only
  rw [hslice] at hk ⊢
  refine inL2_l2Put hline ?_ ?_
  · dsimp only
    obtain ⟨hd, -⟩ | rfl := hk
    · split
      · exact hd
      · exact List.mem_cons_of_mem _ hd
    · split
      · rename_i hc
        exact List.contains_iff_mem.mp hc
      · exact List.mem_cons_self
  · obtain ⟨-, hv⟩ | rfl := hk
    · refine .inl ?_
      dsimp only
      split
      · exact List.mem_filter.mpr ⟨hv, by simp⟩
      · exact hv
    · exact .inr rfl

/-! ### The sectors of a write, one after another -/

/-- What a write does with one of its sectors. -/
def writeSec (loc n die : Nat) (a : State) (sec : Nat) : State :=
  (if decide (loc ≤ sec * 64) && decide (sec * 64 + 64 ≤ loc + n) then a.freshSeal sec else a).markL2 die sec

theorem writeHome_eq (s : State) (loc : Nat) (bs : List Byte) (die : Nat) : s.writeHome loc bs die
    = if (sectorsOf loc bs.length).any (fun sec => !(decide (loc ≤ sec * 64) && decide (sec * 64 + 64 ≤ loc + bs.length)) && s.sealBad (sec * 64))
      then none else some ((sectorsOf loc bs.length).foldl (writeSec loc bs.length die) (s.putBytes loc bs)) := rfl

theorem homeChange_writeSec (loc n die : Nat) (s : State) (sec : Nat) : HomeChange s (writeSec loc n die s sec) := by
  unfold writeSec
  split
  · exact (homeChange_freshSeal s sec).trans (homeChange_markL2 _ _ _)
  · exact homeChange_markL2 _ _ _

theorem homeChange_writeSecs (loc n die : Nat) (secs : List Nat) (s : State) : HomeChange s (secs.foldl (writeSec loc n die) s) :=
  List.foldlRecOn (motive := HomeChange s) _ _ (.refl s) fun a ha sec _ => ha.trans (homeChange_writeSec loc n die a sec)

@[simp] theorem mem_writeSecs (loc n die : Nat) (secs : List Nat) (s : State) : (secs.foldl (writeSec loc n die) s).mem = s.mem := by
  refine foldl_mem (fun a sec => ?_) secs s
  unfold writeSec
  split <;> simp

theorem homeByte_writeSecs (loc n die : Nat) (secs : List Nat) (s : State) (k : Nat) :
    (secs.foldl (writeSec loc n die) s).homeByte k = s.homeByte k := by
  unfold State.homeByte
  obtain ⟨_, _, _, _, _, _, _, _, h⟩ := homeChange_writeSecs loc n die secs s
  rw [mem_writeSecs, h]

theorem sealBad_writeSec (loc n die : Nat) (s : State) (sec k : Nat) :
    (writeSec loc n die s sec).sealBad (k * 64) = true ↔ ¬(k = sec ∧ fills loc n k) ∧ s.sealBad (k * 64) = true := by
  unfold writeSec
  rw [sealBad_markL2]
  split
  · rename_i hf
    rw [sealBad_freshSeal]
    exact and_congr_left' (not_congr ⟨fun hk => ⟨hk, hk ▸ fills_iff.mp hf⟩, And.left⟩)
  · rename_i hf
    refine (and_iff_right ?_).symm
    rintro ⟨rfl, hk⟩
    exact hf (fills_iff.mpr hk)

theorem sealBad_writeSecs (loc n die : Nat) (secs : List Nat) (s : State) (k : Nat) :
    (secs.foldl (writeSec loc n die) s).sealBad (k * 64) = true ↔ ¬(k ∈ secs ∧ fills loc n k) ∧ s.sealBad (k * 64) = true := by
  induction secs generalizing s with
  | nil => simp
  | cons sec secs ih =>
    rw [List.foldl_cons, ih, sealBad_writeSec, List.mem_cons]
    tauto

theorem inL2_writeSec {loc n die : Nat} {s : State} {sec k : Nat} (hdram : sec * 64 < 2 ^ 51) (hline : k / 2 = sec / 2)
    (hk : InL2 s (s.homeSlice die (k * 64)) k ∨ k = sec) : InL2 (writeSec loc n die s sec) (s.homeSlice die (k * 64)) k := by
  have hholds (a : State) : a.l2Holds sec = true := Bool.or_eq_true_iff.mpr (.inl (decide_eq_true hdram))
  unfold writeSec
  split
  · exact inL2_markL2 (s := s.freshSeal sec) (hholds _) hline hk
  · exact inL2_markL2 (hholds s) hline hk

theorem homeSlice_writeSec (loc n die : Nat) (s : State) (sec d pa : Nat) : (writeSec loc n die s sec).homeSlice d pa = s.homeSlice d pa := by
  obtain ⟨_, _, _, _, _, _, _, _, h⟩ := homeChange_writeSec loc n die s sec
  rw [h]
  rfl

/-- A sector of the line that a run of sectors ends in stays. -/
theorem inL2_writeLine {loc n die k : Nat} (secs : List Nat) {s : State} (hdram : ∀ sec ∈ secs, sec * 64 < 2 ^ 51) (hline : ∀ sec ∈ secs, k / 2 = sec / 2)
    (hk : InL2 s (s.homeSlice die (k * 64)) k) : InL2 (secs.foldl (writeSec loc n die) s) (s.homeSlice die (k * 64)) k := by
  induction secs generalizing s with
  | nil => exact hk
  | cons sec secs ih =>
    have h1 := inL2_writeSec (loc := loc) (n := n) (hdram sec List.mem_cons_self) (hline sec List.mem_cons_self) (.inl hk)
    have h2 := ih (fun x hx => hdram x (List.mem_cons_of_mem _ hx)) (fun x hx => hline x (List.mem_cons_of_mem _ hx))
      (by rw [homeSlice_writeSec]; exact h1)
    rw [homeSlice_writeSec] at h2
    exact h2

theorem homeSlice_change {s t : State} (h : HomeChange s t) (d pa : Nat) : t.homeSlice d pa = s.homeSlice d pa := by
  obtain ⟨_, _, _, _, _, _, _, _, rfl⟩ := h
  rfl

/-- The sectors of the last line of a write are valid and dirty once all its sectors have been marked. -/
theorem inL2_writeSecs {loc n die k : Nat} (hn : 0 < n) {s : State} (hk : touches loc n k) (hdram : k * 64 < 2 ^ 51)
    (hlast : k / 2 = (loc + n - 1) / 128) : InL2 ((sectorsOf loc n).foldl (writeSec loc n die) s) (s.homeSlice die (k * 64)) k := by
  obtain ⟨xs, ys, hxy⟩ := List.append_of_mem ((mem_sectorsOf hn).mpr hk)
  have hys : ∀ y ∈ ys, k < y ∧ touches loc n y := by
    intro y hy
    have hp := sectorsOf_rises loc n
    rw [hxy, List.pairwise_append, List.pairwise_cons] at hp
    obtain ⟨-, ⟨hlt, -⟩, -⟩ := hp
    exact ⟨hlt y hy, (mem_sectorsOf hn).mp (hxy ▸ List.mem_append_right xs (List.mem_cons_of_mem k hy))⟩
  have hsame : ∀ y ∈ ys, k / 2 = y / 2 := by
    intro y hy
    obtain ⟨hlt, -, hhi⟩ := hys y hy
    omega
  rw [hxy, List.foldl_append, List.foldl_cons, ← homeSlice_change (homeChange_writeSecs loc n die xs s), ← homeSlice_writeSec loc n die _ k]
  refine inL2_writeLine ys (fun y hy => ?_) hsame ?_
  · have := hsame y hy
    omega
  · rw [homeSlice_writeSec]
    exact inL2_writeSec hdram rfl (.inr rfl)

/-! ### A write at a home -/

theorem writeHome_none_iff {s : State} {loc die : Nat} {bs : List Byte} (hbs : bs ≠ []) : s.writeHome loc bs die = none
    ↔ ∃ sec, touches loc bs.length sec ∧ ¬fills loc bs.length sec ∧ s.sealBad (sec * 64) = true := by
  have hn := List.length_pos_iff.mpr hbs
  rw [writeHome_eq, ite_eq_left_iff, imp_iff_not (by simp), not_not, List.any_eq_true]
  refine exists_congr fun sec => ?_
  rw [mem_sectorsOf hn, Bool.and_eq_true, Bool.not_eq_true', ← Bool.not_eq_true, fills_iff]

/-- The state after a write at a home. -/
theorem writeHome_some {s t : State} {loc die : Nat} {bs : List Byte} (ht : s.writeHome loc bs die = some t) :
    t = (sectorsOf loc bs.length).foldl (writeSec loc bs.length die) (s.putBytes loc bs) := by
  rw [writeHome_eq] at ht
  split at ht
  · cases ht
  · exact (Option.some.inj ht).symm

theorem homeByte_writeHome {s t : State} (h : Formed s) {loc die : Nat} {bs : List Byte} (hloc : loc + bs.length ≤ 2 ^ 52)
    (ht : s.writeHome loc bs die = some t) (k : Nat) :
    t.homeByte k = if loc ≤ k ∧ k < loc + bs.length then bs.getD (k - loc) 0 else s.homeByte k := by
  rw [writeHome_some ht, homeByte_writeSecs, homeByte_putBytes h hloc]

theorem sealBad_writeHome {s t : State} {loc die : Nat} {bs : List Byte} (hbs : bs ≠ []) (ht : s.writeHome loc bs die = some t) (sec : Nat) :
    t.sealBad (sec * 64) = true ↔ ¬fills loc bs.length sec ∧ s.sealBad (sec * 64) = true := by
  have hn := List.length_pos_iff.mpr hbs
  rw [writeHome_some ht, sealBad_writeSecs, sealBad_putBytes]
  exact and_congr_left' (not_congr ⟨And.right, fun hf => ⟨(mem_sectorsOf hn).mpr (touches_of_fills hf), hf⟩⟩)

theorem homeChange_writeHome {s t : State} {loc die : Nat} {bs : List Byte} (hloc : loc + bs.length ≤ 2 ^ 52)
    (ht : s.writeHome loc bs die = some t) : HomeChange s t :=
  writeHome_some ht ▸ (homeChange_putBytes hloc).trans (homeChange_writeSecs _ _ _ _ _)

/-- Settles O50: the bytes go to memory one by one; then each sector in rising order takes its seal and its place in L2, and no sector of the
last line can leave before the end. -/
theorem homeWrites : Obligations.HomeWrites := by
  unfold Obligations.HomeWrites
  intro s loc die bs hwf hbs hloc
  have hn := List.length_pos_iff.mpr hbs
  refine ⟨writeHome_none_iff hbs, fun t ht => ⟨State.writeHome_formed hwf loc bs die ht, fun k hk => ?_, fun k hk => ?_, fun sec hf => ?_, fun sec hf => ?_,
    fun sec htouch hdram hlast => ?_, (homeChange_writeHome hloc ht).eq⟩⟩
  · rw [homeByte_writeHome hwf hloc ht, if_pos (by omega), Nat.add_sub_cancel_left]
  · rw [homeByte_writeHome hwf hloc ht, if_neg hk]
  · exact Bool.eq_false_iff.mpr fun hb => ((sealBad_writeHome hbs ht sec).mp hb).1 hf
  · exact Bool.eq_iff_iff.mpr ((sealBad_writeHome hbs ht sec).trans (and_iff_right hf))
  · rw [writeHome_some ht, ← homeSlice_change (homeChange_putBytes hloc)]
    exact inL2_writeSecs hn htouch hdram hlast

end Sys2Proof.Claims

/-!
A link that fails while L2 holds a line of another endpoint (01 R14; O26).
-/

namespace Sys2Proof.Claims
open Sys2Proof Sys2Proof.Machine

/-! ### A link fails -/

/-- Link 16 is being trained again, and L2 holds the first line of another endpoint under the directory, one sector of it dirty. -/
def retrainingWithRemoteLine : State :=
  { State.reset with links := List.replicate 16 {} ++ [{ state := .retraining }], shared := [2 ^ 45], l2Dirty := [2 ^ 46], l2Valid := [(2 ^ 46, 0)] }

/-- The dirty sector of another endpoint stays in L2 when link 16 fails: it is no byte of DRAM. -/
theorem remoteLine_stays : exec (.linkFailed 16) retrainingWithRemoteLine = .next (retrainingWithRemoteLine.failLink 16)
    ∧ 2 ^ 46 ∈ (retrainingWithRemoteLine.failLink 16).l2Dirty := ⟨rfl, by decide⟩

/-- Refutes O26: when a link fails L2 drops the dirty sectors that lie on it, but the statement asks of every dirty sector that `linkOf` does not
name that link, also of a sector of another endpoint, which lies on no link; in `retrainingWithRemoteLine` one stays of which `linkOf`
says 16. -/
theorem not_linksAndPorts : ¬ Obligations.LinksAndPorts := by
  unfold Obligations.LinksAndPorts
  rintro ⟨-, -, hlinks, -⟩
  obtain ⟨-, -, -, hfailed⟩ := hlinks 16 retrainingWithRemoteLine (by decide)
  obtain ⟨t, hexec, -, -, -, -, -, hdirty, -⟩ := hfailed (by decide)
  obtain ⟨hnext, hstays⟩ := remoteLine_stays
  obtain rfl := Host.Outcome.next.inj (hnext.symm.trans hexec)
  exact hdirty _ hstays (by decide)

end Sys2Proof.Claims

/-!
Requests of other endpoints and L2 write-backs (01 R19 to R25; 03 R52; O27); before them, bytes and the numbers that they stand for (00 R5).
-/

namespace Sys2Proof.Claims
open Sys2Proof Sys2Proof.Machine

@[simp] theorem leBytes_length (n x : Nat) : (leBytes n x).length = n := by
  induction n generalizing x with
  | zero => rfl
  | succ n ih => exact congrArg (· + 1) (ih _)

theorem leNat_leBytes (n x : Nat) : leNat (leBytes n x) = x % 2 ^ (8 * n) := by
  induction n generalizing x with
  | zero => simp [leBytes, leNat, Nat.mod_one]
  | succ n ih =>
    have hpow : 2 ^ (8 * (n + 1)) = 256 * 2 ^ (8 * n) := by rw [Nat.mul_succ, Nat.pow_add, Nat.mul_comm]
    rw [leBytes, leNat, ih, BitVec.toNat_ofNat, hpow, Nat.mod_mul]

theorem leBytes_leNat (bs : List Byte) : leBytes bs.length (leNat bs) = bs := by
  induction bs with
  | nil => rfl
  | cons b bs ih =>
    have hlt := b.isLt
    have hlow : BitVec.ofNat 8 (b.toNat + 256 * leNat bs) = b := by
      apply BitVec.eq_of_toNat_eq
      rw [BitVec.toNat_ofNat]
      omega
    have hhigh : (b.toNat + 256 * leNat bs) / 256 = leNat bs := by omega
    rw [List.length_cons, leBytes, leNat, hlow, hhigh, ih]

@[simp] theorem homeBytes_length (s : State) (loc n : Nat) : (s.homeBytes loc n).length = n := by
  rw [State.homeBytes, List.length_map, List.length_range]

/-- The bytes of the number at a home are the bytes there. -/
theorem leBytes_homeNat (s : State) (loc n : Nat) : leBytes n (s.homeNat loc n) = (List.range n).map (fun k => s.homeByte (loc + k)) := by
  have h := leBytes_leNat (s.homeBytes loc n)
  rw [homeBytes_length] at h
  exact h

/-- A home that holds the bytes of a number reads as it. -/
theorem homeNat_of_bytes {s : State} {loc n x : Nat} (h : ∀ k, k < n → s.homeByte (loc + k) = (leBytes n x).getD k 0) :
    s.homeNat loc n = x % 2 ^ (8 * n) := by
  have hbytes : s.homeBytes loc n = leBytes n x := by
    refine List.ext_getElem (by simp) fun k hk hk' => ?_
    rw [homeBytes_length] at hk
    rw [List.getElem_eq_getD 0 (h := hk'), ← h k hk]
    simp [State.homeBytes]
  rw [State.homeNat, hbytes, leNat_leBytes]

/-! ### Seals of a range -/

theorem sealBad_sector (s : State) (loc : Nat) : s.sealBad (loc / 64 * 64) = s.sealBad loc := by
  unfold State.sealBad sectorOf
  rw [Nat.mul_div_cancel _ (by decide)]

theorem sealBadRange_eq_any (s : State) (loc n : Nat) : s.sealBadRange loc n = (sectorsOf loc n).any (fun sec => s.sealBad (sec * 64)) := by
  rw [sectorsOf, List.any_map]
  rfl

theorem sealBad_of_range {s : State} {loc n : Nat} (hn : 0 < n) (h : s.sealBadRange loc n = false) {sec : Nat} (hsec : touches loc n sec) :
    s.sealBad (sec * 64) = false := by
  rw [sealBadRange_eq_any, List.any_eq_false] at h
  exact Bool.eq_false_iff.mpr (h sec ((mem_sectorsOf hn).mpr hsec))

/-- A write over sectors of which it fills each or finds a good seal is performed. -/
theorem writeHome_isSome {s : State} {loc die : Nat} {bs : List Byte} (hbs : bs ≠ [])
    (h : ∀ sec, touches loc bs.length sec → fills loc bs.length sec ∨ s.sealBad (sec * 64) = false) : ∃ t, s.writeHome loc bs die = some t := by
  refine Option.ne_none_iff_exists'.mp fun hnone => ?_
  obtain ⟨sec, htouch, hfill, hbad⟩ := (writeHome_none_iff hbs).mp hnone
  obtain hf | hg := h sec htouch
  · exact hfill hf
  · exact absurd hbad (Bool.eq_false_iff.mp hg)

/-! ### Requests of other endpoints (R20 to R25) -/

theorem remoteReady_of_now {s : State} {pa n : Nat} {wr : Bool} (h : remoteNow s pa n wr) : s.remoteReady pa n wr = true := by
  obtain ⟨-, -, hreach, hholds⟩ := h
  rw [State.remoteReady, hreach, hholds]
  rfl

/-- Sizes of fabric reads and writes are whole sectors, aligned to them. -/
theorem fabricSize_sectors {pa n : Nat} (h : fabricSize pa n = true) : 0 < n ∧ n ≤ 256 ∧ n % 64 = 0 ∧ pa % 64 = 0 := by
  obtain ⟨hn, hpa⟩ := Bool.and_eq_true_iff.mp h
  have hpa := beq_iff_eq.mp hpa
  simp only [Bool.or_eq_true, beq_iff_eq] at hn
  obtain ((rfl | rfl) | rfl) | rfl := hn <;> omega

/-- The bytes that a remote request reaches lie below the places of other endpoints. -/
theorem remoteNow_below {s : State} {pa n : Nat} {wr : Bool} (hn : 0 < n) (hn' : n ≤ 256) (h : remoteNow s pa n wr) : pa + n ≤ 2 ^ 52 := by
  obtain ⟨hpa, hok, -, -⟩ := h
  simp only [State.remoteOk, Bool.and_eq_true, Bool.or_eq_true, beq_iff_eq, placeClass] at hok
  omega

theorem fabricRemoteRead_good {s : State} {pa n : Nat} {c : Bool} (hsize : fabricSize pa n = true) (hnow : remoteNow s pa n false)
    (hseal : s.sealBadRange pa n = false) :
    exec (.fabricRemoteRead pa n c) s = .next { s with answer := (List.range n).map (fun k => s.homeByte (pa + k)) } := by
  obtain ⟨-, hok, -, -⟩ := id hnow
  refine congrArg Host.Outcome.next ?_
  rw [hsize, hok, remoteReady_of_now hnow, hseal]
  rfl

theorem fabricRemoteRead_bad {s : State} {pa n : Nat} {c : Bool} (hsize : fabricSize pa n = true) (hnow : remoteNow s pa n false)
    (hseal : s.sealBadRange pa n = true) : exec (.fabricRemoteRead pa n c) s = .next (State.hopNotice { s with answer := [] } pa) := by
  obtain ⟨-, hok, -, -⟩ := id hnow
  refine congrArg Host.Outcome.next ?_
  rw [hsize, hok, remoteReady_of_now hnow, hseal]
  rfl

theorem fabricRemoteWrite_module {s : State} {pa : Nat} {bs : List Byte} {c : Bool} (hsize : fabricSize pa bs.length = true)
    (hnow : remoteNow s pa bs.length true) : exec (.fabricRemoteWrite pa bs ⟨c, .g9 false⟩) s = .next (s.hopNotice pa) := by
  obtain ⟨-, hok, -, -⟩ := id hnow
  refine congrArg Host.Outcome.next ?_
  rw [hsize, hok, remoteReady_of_now hnow]
  rfl

theorem fabricRemoteWrite_stores {s : State} {pa : Nat} {bs : List Byte} {c : Bool} {x : Sender} (hsize : fabricSize pa bs.length = true)
    (hnow : remoteNow s pa bs.length true) (hx : x ≠ .g9 false) :
    ∃ t, s.writeHome pa bs 0 = some t ∧ exec (.fabricRemoteWrite pa bs ⟨c, x⟩) s = .next t := by
  obtain ⟨hn, -, hwhole, halign⟩ := fabricSize_sectors hsize
  have hfills : ∀ sec, touches pa bs.length sec → fills pa bs.length sec := by
    rintro sec ⟨hlo, hhi⟩
    exact ⟨by omega, by omega⟩
  obtain ⟨t, ht⟩ := writeHome_isSome (die := 0) (s := s) (List.length_pos_iff.mp hn) fun sec hsec => .inl (hfills sec hsec)
  obtain ⟨-, hok, -, -⟩ := id hnow
  refine ⟨t, ht, congrArg Host.Outcome.next ?_⟩
  rw [hsize, hok, remoteReady_of_now hnow, ht]
  exact if_neg hx

theorem fabricRemoteAtomic_stores {op : RemoteOp} {s : State} {pa n : Nat} {x y : BitVec 64} {c : Ord} (hn : n = 4 ∨ n = 8) (halign : pa % n = 0)
    (hnow : remoteNow s pa n true) (hseal : s.sealBadRange pa n = false) :
    ∃ t, s.writeHome pa (leBytes n (RemoteOp.newValue op n (s.homeNat pa n) x.toNat y.toNat)) 0 = some t
      ∧ exec (.fabricRemoteAtomic op pa n x y c) s = .next { t with answer := leBytes n (s.homeNat pa n) } := by
  have hpos : 0 < n := by omega
  obtain ⟨t, ht⟩ := writeHome_isSome (die := 0) (s := s) (loc := pa) (bs := leBytes n (RemoteOp.newValue op n (s.homeNat pa n) x.toNat y.toNat))
    (List.length_pos_iff.mp (by rwa [leBytes_length])) fun sec hsec => .inr (sealBad_of_range hpos hseal (by rwa [leBytes_length] at hsec))
  have hsize : (n == 4 || n == 8) = true := by simpa using hn
  obtain ⟨-, hok, -, -⟩ := id hnow
  refine ⟨t, ht, congrArg Host.Outcome.next ?_⟩
  rw [hsize, halign, hok, remoteReady_of_now hnow, hseal]
  dsimp only
  rw [ht]
  rfl

/-! ### The directory (R23, R24) -/

theorem directoryRecall_good {s : State} {l : Nat} {down : Bool} (hown : s.owned (l * 128) 128 = false) (hseal : s.sealBadRange (l * 128) 128 = false) :
    exec (.directoryRecall ⟨l, down⟩) s = .next { s with
      answer := (List.range 128).map (fun k => s.homeByte (l * 128 + k)), shared := if down then s.shared else s.shared.filter (· != l)
      l2Valid := if down || !s.shared.contains l then s.l2Valid else s.l2Valid.filter (fun x => x.1 / 2 != l)
      l2Dirty := if s.shared.contains l then s.l2Dirty.filter (fun sec => sec / 2 != l) else s.l2Dirty } := by
  refine congrArg Host.Outcome.next ?_
  dsimp only
  rw [hown, hseal]
  rfl

theorem directoryRecall_bad {s : State} {l : Nat} {down : Bool} (hown : s.owned (l * 128) 128 = false) (hseal : s.sealBadRange (l * 128) 128 = true) :
    exec (.directoryRecall ⟨l, down⟩) s = .next (State.hopNotice { s with answer := [] } (l * 128)) := by
  refine congrArg Host.Outcome.next ?_
  dsimp only
  rw [hown, hseal]
  rfl

/-- A run that is taken out of a map whose keys rise is not listed, and every other byte is as it was. -/
theorem ByteMap.get?_delAll {m : ByteMap} (h : ByteMap.risingFrom 0 m = true) (a n k : Nat) :
    ByteMap.get? (ByteMap.delAll m a n) k = if a ≤ k ∧ k < a + n then none else ByteMap.get? m k := by
  induction n generalizing m a with
  | zero => rw [if_neg (by omega)]; rfl
  | succ n ih =>
    rw [ByteMap.delAll, ih (ByteMap.rising_del h a), ByteMap.get?_del m a k 0 h]
    by_cases hk : k = a
    · rw [if_neg (by omega), if_pos hk, if_pos (by omega)]
    · rw [if_neg hk]
      exact if_congr (by omega) rfl rfl

theorem ByteMap.rising_delAll {m : ByteMap} (h : ByteMap.risingFrom 0 m = true) (a n : Nat) : ByteMap.risingFrom 0 (ByteMap.delAll m a n) = true := by
  induction n generalizing m a with
  | zero => exact h
  | succ n ih => exact ih (ByteMap.rising_del h a) (a + 1)

/-- A view's clean copies without those of a line. -/
def dropLine (m : ByteMap) (l : Nat) : ByteMap := ByteMap.delAll (ByteMap.delAll m (2 * l * 64) 64) ((2 * l + 1) * 64) 64

theorem rising_dropLine {m : ByteMap} (h : ByteMap.risingFrom 0 m = true) (l : Nat) : ByteMap.risingFrom 0 (dropLine m l) = true :=
  ByteMap.rising_delAll (ByteMap.rising_delAll h _ _) _ _

theorem get?_dropLine {m : ByteMap} (h : ByteMap.risingFrom 0 m = true) (l k : Nat) :
    ByteMap.get? (dropLine m l) k = if k / 128 = l then none else ByteMap.get? m k := by
  rw [dropLine, ByteMap.get?_delAll (ByteMap.rising_delAll h _ _), ByteMap.get?_delAll h]
  by_cases hhigh : (2 * l + 1) * 64 ≤ k ∧ k < (2 * l + 1) * 64 + 64
  · rw [if_pos hhigh, if_pos (by omega)]
  · rw [if_neg hhigh]
    exact if_congr (by omega) rfl rfl

theorem get?_dropLines (lines : List Nat) {m : ByteMap} (h : ByteMap.risingFrom 0 m = true) (k : Nat) :
    ByteMap.get? (lines.foldl dropLine m) k = if k / 128 ∈ lines then none else ByteMap.get? m k := by
  induction lines generalizing m with
  | nil => rfl
  | cons l lines ih =>
    rw [List.foldl_cons, ih (rising_dropLine h l), get?_dropLine h]
    by_cases hk : k / 128 = l
    · rw [if_pos hk, ite_self, if_pos (by simp [hk])]
    · rw [if_neg hk]
      exact if_congr (by simp [hk]) rfl rfl

theorem dropClean_line (a : State) (l : Nat) : (a.dropClean (2 * l)).dropClean (2 * l + 1)
    = { a with views := a.views.map (fun v => { v with clean := dropLine v.clean l }) } := by
  simp only [State.dropClean, List.map_map, Function.comp_def, dropLine]

theorem foldl_dropClean (lines : List Nat) (s : State) : lines.foldl (fun a line => (a.dropClean (2 * line)).dropClean (2 * line + 1)) s
    = { s with views := s.views.map (fun v => { v with clean := lines.foldl dropLine v.clean }) } := by
  induction lines generalizing s with
  | nil => exact congrArg (fun vs => { s with views := vs }) (List.map_id' s.views).symm
  | cons l lines ih =>
    rw [List.foldl_cons, ih, dropClean_line]
    simp only [List.map_map, Function.comp_def, List.foldl_cons]

theorem directoryUnreachable_lost {s : State} (h : s.fabricCaps.getLsbD 31 = true) : exec .directoryUnreachable s = .next { s with
    views := s.views.map (fun v => { v with clean := s.shared.foldl dropLine v.clean })
    dirLost := true
    shared := []
    l2Valid := s.l2Valid.filter (fun x => !s.shared.contains (x.1 / 2))
    l2Dirty := s.l2Dirty.filter (fun sec => !s.shared.contains (sec / 2)) } := by
  refine congrArg Host.Outcome.next ?_
  rw [h]
  rw [foldl_dropClean]
  rfl

theorem directoryUnreachable_without {s : State} (h : s.fabricCaps.getLsbD 31 = false) : exec .directoryUnreachable s = .next s := by
  refine congrArg Host.Outcome.next ?_
  rw [h]
  rfl

/-! ### L2 write-backs (R19) -/

theorem l2Writeback_good {s : State} {sec : Nat} (hd : sec ∈ s.l2Dirty) (hreach : s.reach (sec * 64) = .yes) (hseal : s.sealBad (sec * 64) = false) :
    exec (.l2Writeback sec) s = .next { s with l2Dirty := s.l2Dirty.filter (· != sec) } := by
  refine congrArg Host.Outcome.next ?_
  rw [State.l2Back, List.contains_iff_mem.mpr hd, hreach, hseal]
  rfl

/-- A sector of which the slice keeps fewer than 16 bad ones is pinned. -/
theorem pinSector_room {s : State} {die sec : Nat} (hpin : s.pinned.contains sec = false) (hpoison : s.poison.contains sec = false) (hroom : s.pinned.length < 16) :
    s.pinSector die sec
      = { s with l2Dirty := s.l2Dirty.filter (· != sec), pinned := sec :: s.pinned, deviceHealth := bumpHealth s.deviceHealth 0 } := by
  unfold State.pinSector
  dsimp only
  rw [hpin, hpoison, if_neg (by decide), if_pos (lt_of_le_of_lt (List.length_filter_le _ _) hroom)]

theorem l2Writeback_bad {s : State} {sec : Nat} (hd : sec ∈ s.l2Dirty) (hreach : s.reach (sec * 64) = .yes) (hbad : s.badSeals.contains sec = true) :
    exec (.l2Writeback sec) s = .next ((s.pinSector 0 sec).sealNotice sec none) := by
  have hseal : s.sealBad (sec * 64) = true := by
    rw [State.sealBad, sectorOf, Nat.mul_div_cancel _ (by decide), hbad]
    rfl
  refine congrArg Host.Outcome.next ?_
  rw [State.l2Back, List.contains_iff_mem.mpr hd, hreach, hseal]
  rfl

/-! ### The obligation -/

/-- A host's write and a module's good one store their bytes, with good seals, and nothing else. -/
theorem remoteWrite_effect {s : State} {pa : Nat} {bs : List Byte} {c : Bool} {x : Sender} (hsize : fabricSize pa bs.length = true)
    (hnow : remoteNow s pa bs.length true) (hwf : Formed s) (hx : x ≠ .g9 false) :
    ∃ t, exec (.fabricRemoteWrite pa bs ⟨c, x⟩) s = .next t ∧ Formed t ∧ outside s t pa bs.length
      ∧ (∀ k, k < bs.length → t.homeByte (pa + k) = bs.getD k 0) ∧ ∀ k, k < bs.length → t.sealBad (pa + k) = false := by
  obtain ⟨t, ht, hexec⟩ := fabricRemoteWrite_stores (c := c) hsize hnow hx
  obtain ⟨hn, hn', hwhole, halign⟩ := fabricSize_sectors hsize
  have hbelow := remoteNow_below hn hn' hnow
  refine ⟨t, hexec, State.writeHome_formed hwf _ _ _ ht, fun k hk => ?_, fun k hk => ?_, fun k hk => ?_⟩
  · rw [homeByte_writeHome hwf hbelow ht, if_neg hk]
  · rw [homeByte_writeHome hwf hbelow ht, if_pos (by omega), Nat.add_sub_cancel_left]
  · rw [← sealBad_sector]
    exact Bool.eq_false_iff.mpr fun hb => ((sealBad_writeHome (List.length_pos_iff.mp hn) ht _).mp hb).1 ⟨by omega, by omega⟩

theorem homeByte_answer (t : State) (bs : List Byte) (k : Nat) : State.homeByte { t with answer := bs } k = t.homeByte k := rfl

/-- An atomic answers with the old value and stores the new one, and nothing else. -/
theorem remoteAtomic_effect {op : RemoteOp} {s : State} {pa n : Nat} {x y : BitVec 64} {c : Ord} (hn : n = 4 ∨ n = 8) (halign : pa % n = 0)
    (hnow : remoteNow s pa n true) (hseal : s.sealBadRange pa n = false) (hwf : Formed s) :
    ∃ t, exec (.fabricRemoteAtomic op pa n x y c) s = .next t ∧ Formed t ∧ outside s t pa n
      ∧ t.answer = (List.range n).map (fun k => s.homeByte (pa + k))
      ∧ t.homeNat pa n = RemoteOp.newValue op n (s.homeNat pa n) x.toNat y.toNat % 2 ^ (8 * n) := by
  obtain ⟨t, ht, hexec⟩ := fabricRemoteAtomic_stores (op := op) (x := x) (y := y) (c := c) hn halign hnow hseal
  have hbelow := remoteNow_below (by omega) (by omega) hnow
  generalize RemoteOp.newValue op n (s.homeNat pa n) x.toNat y.toNat = v at ht hexec ⊢
  have hbyte := homeByte_writeHome hwf (by rwa [leBytes_length]) ht
  rw [leBytes_length] at hbyte
  refine ⟨_, hexec, Formed.of_eq (State.writeHome_formed hwf _ _ _ ht) rfl, fun k hk => ?_, leBytes_homeNat s pa n, homeNat_of_bytes fun k hk => ?_⟩
  · rw [homeByte_answer, hbyte, if_neg hk]
  · rw [homeByte_answer, hbyte, if_pos (by omega), Nat.add_sub_cancel_left]

/-- A lost directory takes the lines that it held out of L2 and out of the views; memory stays. -/
theorem directoryUnreachable_effect {s : State} (hdir : s.fabricCaps.getLsbD 31 = true) :
    ∃ t, exec .directoryUnreachable s = .next t ∧ t.dirLost = true ∧ t.shared = [] ∧ t.mem = s.mem ∧ t.remote = s.remote
      ∧ (∀ sec ∈ t.l2Dirty, sec / 2 ∉ s.shared) ∧ (∀ x ∈ t.l2Valid, x.1 / 2 ∉ s.shared)
      ∧ ((∀ v ∈ s.views, viewGood v) → ∀ v ∈ t.views, ∀ l ∈ s.shared, ∀ k, k < 128 → ByteMap.get? v.clean (l * 128 + k) = none) := by
  refine ⟨_, directoryUnreachable_lost hdir, rfl, rfl, rfl, rfl, fun sec hsec => ?_, fun x hx => ?_, fun hgood v hv l hl k hk => ?_⟩
  · obtain ⟨-, hgone⟩ := List.mem_filter.mp hsec
    simpa using hgone
  · obtain ⟨-, hgone⟩ := List.mem_filter.mp hx
    simpa using hgone
  · obtain ⟨w, hw, rfl⟩ := List.mem_map.mp hv
    obtain ⟨-, hclean, -, -⟩ := hgood w hw
    dsimp only
    rw [get?_dropLines s.shared hclean, if_pos]
    rwa [show (l * 128 + k) / 128 = l by omega]

theorem sealNotice_of_none (s : State) (sec : Nat) : s.sealNotice sec none = s.notify 0x090 (sec * 64) := by
  simp [State.sealNotice]

theorem l2Writeback_pins {s : State} {sec : Nat} (hd : sec ∈ s.l2Dirty) (hreach : s.reach (sec * 64) = .yes) (hbad : s.badSeals.contains sec = true)
    (hpin : s.pinned.contains sec = false) (hpoison : s.poison.contains sec = false) (hroom : s.pinned.length < 16) :
    ∃ t, exec (.l2Writeback sec) s = .next t ∧ t.pinned = sec :: s.pinned ∧ t.mem = s.mem ∧ t.l2Dirty = s.l2Dirty.filter (· != sec)
      ∧ t.notices = s.notices ++ [(0x090, sec * 64)] := by
  refine ⟨_, l2Writeback_bad hd hreach hbad, ?_⟩
  rw [pinSector_room hpin hpoison hroom, sealNotice_of_none]
  exact ⟨rfl, rfl, rfl, rfl⟩

/-- Settles O27: each request is read off its definition, and what it stores is a write at a home (R16). -/
theorem remoteRequests : Obligations.RemoteRequests := by
  unfold Obligations.RemoteRequests
  exact ⟨fun _ _ _ _ hsize hnow hseal => fabricRemoteRead_good hsize hnow hseal,
    fun _ _ _ _ hsize hnow hseal => ⟨_, fabricRemoteRead_bad hsize hnow hseal, rfl, rfl⟩,
    fun _ _ _ _ hsize hnow => ⟨_, fabricRemoteWrite_module hsize hnow, rfl⟩,
    fun _ _ _ _ _ hsize hnow hwf hx => remoteWrite_effect hsize hnow hwf hx,
    fun _ _ _ _ _ _ _ hn halign hnow hseal hwf => remoteAtomic_effect hn halign hnow hseal hwf,
    fun _ _ _ hown => ⟨fun hseal => directoryRecall_good hown hseal, fun hseal => ⟨_, directoryRecall_bad hown hseal, rfl, rfl⟩⟩,
    fun _ hdir => ⟨directoryUnreachable_effect hdir, rfl⟩,
    fun _ hdir => directoryUnreachable_without hdir,
    fun _ _ hd hreach => ⟨fun hseal => l2Writeback_good hd hreach hseal,
      fun hbad hpin hpoison hroom => l2Writeback_pins hd hreach hbad hpin hpoison hroom⟩⟩

end Sys2Proof.Claims

/-!
Requests at the BARs of PCIe (01 R27, R28; O28).
-/

namespace Sys2Proof.Claims
open Sys2Proof Sys2Proof.Machine

/-! ### Mailboxes -/

theorem mailbox_setMailbox (s : State) (m k : Nat) (x : Mailbox) :
    (s.setMailbox m x).mailbox k = if k = m ∧ m < s.mailboxes.length then x else s.mailbox k := getD_setAt _ _ _ _ _

theorem mailbox_setMailbox_same {s : State} {m : Nat} (h : m < s.mailboxes.length) (x : Mailbox) : (s.setMailbox m x).mailbox m = x := by
  rw [mailbox_setMailbox, if_pos ⟨rfl, h⟩]

theorem mailbox_setMailbox_other (s : State) {m k : Nat} (h : k ≠ m) (x : Mailbox) : (s.setMailbox m x).mailbox k = s.mailbox k := by
  rw [mailbox_setMailbox, if_neg fun hk => h hk.1]

/-! ### BAR2 -/

theorem barByte_staging (s : State) {off : Nat} (h : 0x1000000 ≤ off) : s.barByte off = (ByteMap.get? s.staging off).getD 0 := if_pos h

theorem barBytes_staging (s : State) {off : Nat} (h : 0x1000000 ≤ off) (n : Nat) :
    (List.range n).map (fun k => s.barByte (off + k)) = (List.range n).map (fun k => (ByteMap.get? s.staging (off + k)).getD 0) :=
  List.map_congr_left fun k _ => barByte_staging s (h.trans (Nat.le_add_right off k))

theorem barPut_staging (s : State) {off : Nat} (h : 0x1000000 ≤ off) (b : Byte) :
    s.barPut off b = { s with staging := ByteMap.put s.staging off b } := if_pos h

/-- A write in the page of a mailbox goes to that mailbox. -/
theorem barPut_mailbox (s : State) {m o : Nat} (hm : m < 16) (ho : o < 4096) (b : Byte) : s.barPut (m * 4096 + o) b
    = (let k := s.mailbox m
      if o < 0x100 then s.setMailbox m { k with req := ByteMap.put k.req o b }
      else if o = 0x200 then (if b.getLsbD 0 && !k.busy && !k.done then s.setMailbox m { k with busy := true } else s)
      else if o = 0x208 then (if b.getLsbD 1 then s.setMailbox m { k with done := false } else s)
      else s) := by
  have hpage : (m * 4096 + o) / 4096 = m := by omega
  have hoff : (m * 4096 + o) % 4096 = o := by omega
  rw [State.barPut, if_neg (by omega), if_neg (by omega)]
  dsimp only
  rw [hpage, hoff]

theorem barPut_doorbell (s : State) {m : Nat} (hm : m < 16) (hbusy : (s.mailbox m).busy = false) (hdone : (s.mailbox m).done = false) :
    s.barPut (m * 4096 + 0x200) 1 = s.setMailbox m { s.mailbox m with busy := true } := by
  rw [barPut_mailbox s hm (by decide)]
  dsimp only
  rw [hbusy, hdone]
  rfl

theorem barPut_clearDone (s : State) {m : Nat} (hm : m < 16) :
    s.barPut (m * 4096 + 0x208) 2 = s.setMailbox m { s.mailbox m with done := false } := by
  rw [barPut_mailbox s hm (by decide)]
  rfl

/-! ### Requests -/

theorem freeBytes_length (s : State) (n : Nat) : (s.freeBytes n).1.length = n := by
  have hwords (k : Nat) : ((List.range k).flatMap (fun i => leBytes 8 (Config.freeWord (s.freeCount + i)).toNat)).length = 8 * k := by
    simp [List.length_flatMap, Nat.mul_comm]
  rw [State.freeBytes, List.length_take, hwords]
  omega

theorem pcie_unready {s : State} (h : s.bring.host = false) (r : PcieReq) : exec (.pcieBarRequest r) s = .next { s with answer := [] } := by
  refine congrArg Host.Outcome.next ?_
  unfold State.pcie
  rw [h]
  rfl

theorem pcie_read0 {s : State} (h : s.bring.host = true) {off n : Nat} (hin : off + n ≤ 2 ^ 25) :
    exec (.pcieBarRequest (.read 0 off n)) s = .next { (s.freeBytes n).2 with answer := (s.freeBytes n).1 } := by
  refine congrArg Host.Outcome.next ?_
  unfold State.pcie
  rw [h]
  exact if_neg (not_lt.mpr hin)

theorem pcie_read2 {s : State} (h : s.bring.host = true) {off n : Nat} (hin : off + n ≤ 2 ^ 28) :
    exec (.pcieBarRequest (.read 2 off n)) s = .next { s with answer := (List.range n).map (fun k => s.barByte (off + k)) } := by
  refine congrArg Host.Outcome.next ?_
  unfold State.pcie
  rw [h]
  exact congrArg (fun bs => { s with answer := bs }) (if_neg (not_lt.mpr hin))

theorem pcie_write2 {s : State} (h : s.bring.host = true) {off : Nat} (hin : off < 2 ^ 28) (b : Byte) :
    exec (.pcieBarRequest (.write 2 off [b])) s = .next (State.barPut { s with answer := [] } off b) := by
  refine congrArg Host.Outcome.next ?_
  unfold State.pcie
  rw [h]
  exact if_neg (not_lt.mpr hin)

/-- A doorbell makes a mailbox that is neither busy nor done busy, and changes no other. -/
theorem doorbell_effect {s : State} {m : Nat} (hm : m < 16) (hlen : s.mailboxes.length = 16) (hbusy : (s.mailbox m).busy = false)
    (hdone : (s.mailbox m).done = false) :
    ((s.barPut (m * 4096 + 0x200) 1).mailbox m).busy = true ∧ ((s.barPut (m * 4096 + 0x200) 1).mailbox m).req = (s.mailbox m).req
      ∧ ∀ k, k ≠ m → (s.barPut (m * 4096 + 0x200) 1).mailbox k = s.mailbox k := by
  rw [barPut_doorbell s hm hbusy hdone, mailbox_setMailbox_same (hm.trans_eq hlen.symm)]
  exact ⟨rfl, rfl, fun k hk => mailbox_setMailbox_other _ hk _⟩

theorem clearDone_effect {s : State} {m : Nat} (hm : m < 16) (hlen : s.mailboxes.length = 16) :
    ((s.barPut (m * 4096 + 0x208) 2).mailbox m).done = false := by
  rw [barPut_clearDone s hm, mailbox_setMailbox_same (hm.trans_eq hlen.symm)]

/-- Settles O28: a request is read off `State.pcie`, and a byte of BAR2 lies in the staging area or in the page of its mailbox. -/
theorem pcieRequests : Obligations.PcieRequests := by
  unfold Obligations.PcieRequests
  refine ⟨fun r s h => pcie_unready h r, fun off n s h hin => ⟨_, pcie_read0 h hin, freeBytes_length s n, rfl⟩, fun off n s h hlow hin => ?_,
    fun off b s h hlow hin => ?_, fun m s h hm hlen => ⟨fun hbusy hdone => ⟨_, pcie_write2 h (by omega) 1, ?_⟩, ⟨_, pcie_write2 h (by omega) 2, ?_⟩⟩⟩
  · rw [pcie_read2 h hin, barBytes_staging s hlow]
  · rw [pcie_write2 h hin, barPut_staging _ hlow]
  · exact doorbell_effect (s := { s with answer := [] }) hm hlen hbusy hdone
  · exact clearDone_effect (s := { s with answer := [] }) hm hlen

end Sys2Proof.Claims

/-!
Management mailboxes: address spaces, registers, status, the budget and refusals (01 R28; 02 R42; O30).
-/

namespace Sys2Proof.Claims
open Sys2Proof Sys2Proof.Machine

/-! ### The bytes of a response -/

theorem ByteMap.get?_putAll {m : ByteMap} (h : ByteMap.risingFrom 0 m = true) (a k : Nat) (bs : List Byte) :
    ByteMap.get? (ByteMap.putAll m a bs) k = if a ≤ k ∧ k < a + bs.length then bs[k - a]? else ByteMap.get? m k := by
  induction bs generalizing m a with
  | nil => exact (if_neg (by rw [List.length_nil]; omega)).symm
  | cons b bs ih =>
    rw [ByteMap.putAll, ih (ByteMap.rising_put h (Nat.zero_le a) b), ByteMap.get?_put m a k b 0 h, List.length_cons]
    by_cases hk : k = a
    · subst hk
      simp
    · by_cases hin : a + 1 ≤ k ∧ k < a + 1 + bs.length
      · rw [if_pos hin, if_pos (by omega), show k - a = (k - (a + 1)) + 1 by omega, List.getElem?_cons_succ]
      · rw [if_neg hin, if_neg hk, if_neg (by omega)]

theorem leNat_lt (bs : List Byte) : leNat bs < 2 ^ (8 * bs.length) := by
  have h := leNat_leBytes bs.length (leNat bs)
  rw [leBytes_leNat] at h
  exact h.trans_lt (Nat.mod_lt _ (Nat.two_pow_pos _))

theorem word_lt (k : Mailbox) (n : Nat) : k.word n < 2 ^ 64 := by
  simpa [Mailbox.word] using leNat_lt ((List.range 8).map (fun i => (ByteMap.get? k.req (8 * n + i)).getD 0))

/-- Word n of a run of words lies at byte 8 n of its bytes. -/
theorem flatMap_leBytes_getElem? (ws : List Nat) {n i : Nat} (hn : n < ws.length) (hi : i < 8) :
    (ws.flatMap (leBytes 8))[8 * n + i]? = (leBytes 8 (ws.getD n 0))[i]? := by
  induction ws generalizing n with
  | nil => exact absurd hn (Nat.not_lt_zero n)
  | cons w ws ih =>
    rw [List.flatMap_cons]
    cases n with
    | zero => rw [List.getElem?_append_left (by rw [leBytes_length]; omega), Nat.mul_zero, Nat.zero_add]; rfl
    | succ n =>
      rw [List.getElem?_append_right (by rw [leBytes_length]; omega), leBytes_length, show 8 * (n + 1) + i - 8 = 8 * n + i by omega,
        ih (Nat.lt_of_succ_lt_succ hn)]
      rfl

/-- The words of a response that is the bytes of these words. -/
theorem rspWord_words (k : Mailbox) (ws : List Nat) (h : k.rsp = ByteMap.putAll [] 0 (ws.flatMap (leBytes 8))) {n : Nat} (hn : n < ws.length) :
    rspWord k n = ws.getD n 0 % 2 ^ 64 := by
  have hlen : (ws.flatMap (leBytes 8)).length = 8 * ws.length := by simp [List.length_flatMap, Nat.mul_comm]
  have hbyte (i : Nat) (hi : i < 8) : (ByteMap.get? k.rsp (8 * n + i)).getD 0 = (leBytes 8 (ws.getD n 0)).getD i 0 := by
    rw [h, ByteMap.get?_putAll rfl, if_pos (by omega), Nat.sub_zero, flatMap_leBytes_getElem? ws hn hi]
    exact List.getD_eq_getElem?_getD.symm
  have hbytes : (List.range 8).map (fun i => (ByteMap.get? k.rsp (8 * n + i)).getD 0) = leBytes 8 (ws.getD n 0) := by
    refine List.ext_getElem (by simp) fun i hi _ => ?_
    rw [List.getElem_map, List.getElem_range, hbyte i (by simpa using hi), List.getD_eq_getElem _ _]
  rw [rspWord, hbytes, leNat_leBytes]

/-! ### A request completes -/

theorem mailboxDone_mailbox_same {s : State} {m : Nat} (hm : m < s.mailboxes.length) (result : Nat) (ws : List Nat) :
    (s.mailboxDone m result ws).mailbox m
      = { s.mailbox m with rsp := ByteMap.putAll [] 0 ((((s.mailbox m).word 0 / 2 ^ 32 * 2 ^ 32 + result) :: ws).flatMap (leBytes 8))
                           result := result, done := true, busy := false } :=
  mailbox_setMailbox_same hm _

theorem mailboxDone_mailbox_other (s : State) {m k : Nat} (h : k ≠ m) (result : Nat) (ws : List Nat) :
    (s.mailboxDone m result ws).mailbox k = s.mailbox k := mailbox_setMailbox_other s h _

/-- The state in which a request completes answers it, where its mailboxes and interrupts are those of the request's. -/
theorem answered_mailboxDone {s s1 : State} {m result : Nat} (hboxes : s1.mailboxes = s.mailboxes) (hmsix : s1.msix = s.msix)
    (hm : m < s.mailboxes.length) (hres : result < 2 ^ 32) (ws : List Nat) : answered s (s1.mailboxDone m result ws) m result ws := by
  have hbox (k : Nat) : s1.mailbox k = s.mailbox k := congrArg (fun l => l.getD k {}) hboxes
  have hsame := mailboxDone_mailbox_same (hm.trans_eq (congrArg List.length hboxes).symm) result ws
  rw [hbox m] at hsame
  have hword {n : Nat} := rspWord_words (n := n) ((s1.mailboxDone m result ws).mailbox m)
    (((s.mailbox m).word 0 / 2 ^ 32 * 2 ^ 32 + result) :: ws) (by rw [hsame])
  have hlt := word_lt (s.mailbox m) 0
  refine ⟨by rw [hsame], by rw [hsame], by rw [hsame], by rw [hsame], ?_, fun n hn => hword (Nat.succ_lt_succ hn), congrArg (· ++ [1 + m]) hmsix,
    fun k hk => (mailboxDone_mailbox_other s1 hk result ws).trans (hbox k)⟩
  rw [hword (Nat.zero_lt_succ _), List.getD_cons_zero, Nat.mod_eq_of_lt (by omega)]

/-! ### Serving a request -/

theorem asks.lt {s : State} {m op die : Nat} {ws : List Nat} (h : asks s m op die ws) : m < s.mailboxes.length := h.1

theorem asks.busy {s : State} {m op die : Nat} {ws : List Nat} (h : asks s m op die ws) : (s.mailbox m).busy = true := h.2.1

theorem asks.headerBad {s : State} {m op die : Nat} {ws : List Nat} (h : asks s m op die ws) : (s.mailbox m).headerBad = false := by
  obtain ⟨-, -, hop, hdie, hword, -⟩ := h
  have hzero : (s.mailbox m).word 0 / 2048 % 2 ^ 21 = 0 := by omega
  exact bne_eq_false_iff_eq.mpr hzero

theorem asks.op {s : State} {m op die : Nat} {ws : List Nat} (h : asks s m op die ws) : (s.mailbox m).op = op := by
  obtain ⟨-, -, hop, hdie, hword, -⟩ := h
  rw [Mailbox.op]
  omega

theorem asks.dieOf {s : State} {m op die : Nat} {ws : List Nat} (h : asks s m op die ws) : (s.mailbox m).dieOf = die := by
  obtain ⟨-, -, hop, hdie, hword, -⟩ := h
  rw [Mailbox.dieOf]
  omega

theorem asks.word {s : State} {m op die : Nat} {ws : List Nat} (h : asks s m op die ws) {n : Nat} (hn : n < 31) :
    (s.mailbox m).word (n + 1) = ws.getD n 0 := by
  obtain ⟨-, -, -, -, -, hwords⟩ := h
  exact hwords n hn

theorem and_allBits {x : Nat} (h : x < 2 ^ 64) : x &&& allBits = x := Nat.and_two_pow_sub_one_of_lt_two_pow h
theorem and_asidBits {x : Nat} (h : x < 1024) : x &&& asidBits = x := Nat.and_two_pow_sub_one_of_lt_two_pow (n := 10) h

/-- Do the words of a request stay within the bits that its operation lists? -/
def fits (ws fields : List Nat) : Prop := ∀ n, ws.getD n 0 &&& fields.getD n 0 = ws.getD n 0

theorem fits_nil (fields : List Nat) : fits [] fields := fun _ => Nat.zero_and _

theorem fits_cons {w f : Nat} {ws fields : List Nat} (h : w &&& f = w) (hs : fits ws fields) : fits (w :: ws) (f :: fields)
  | 0 => h
  | n + 1 => hs n

/-- The Gondola cores that an operation needs have not started. -/
def gondolaMissing (s : State) (die : Option Nat) : Bool :=
  match die with
  | some d => !(s.bring.gondola.getLsbD d && s.bring.gondola.getLsbD 0)
  | none => false

/-- How a request ends that has passed its first checks. -/
def finish (s : State) (m : Nat) : MailOut → State
  | .result n => s.mailboxDone m n []
  | .done s1 ws => s1.mailboxDone m 0 ws
  | .wait s1 => s1

section
variable {s : State} {m op die : Nat} {ws fields : List Nat} {bad : Mailbox → Bool} {need : Mailbox → Option Nat}
  {k : State → Mailbox → MailOut}

/-- A request whose words fit goes through the checks in their order (01 R28). -/
theorem serve_of_asks (h : asks s m op die ws) (hfit : fits ws fields) :
    s.serve m op fields bad need k
      = if bad (s.mailbox m) then s.mailboxDone m 2 []
        else if gondolaMissing s (need (s.mailbox m)) then s.mailboxDone m 4 []
        else finish s m (k s (s.mailbox m)) := by
  have hwords : (List.range 31).any (fun n => (s.mailbox m).word (n + 1) &&& fields.getD n 0 != (s.mailbox m).word (n + 1)) = false := by
    refine List.any_eq_false.mpr fun n hn => ?_
    rw [h.word (List.mem_range.mp hn), hfit]
    simp
  unfold State.serve
  dsimp only
  rw [hwords, h.busy, h.headerBad, h.op, bne_self_eq_false]
  rfl

theorem serve_bad (h : asks s m op die ws) (hfit : fits ws fields) (hbad : bad (s.mailbox m) = true) :
    s.serve m op fields bad need k = s.mailboxDone m 2 [] := by
  rw [serve_of_asks h hfit, if_pos hbad]

theorem serve_missing (h : asks s m op die ws) (hfit : fits ws fields) (hbad : bad (s.mailbox m) = false)
    (hmiss : gondolaMissing s (need (s.mailbox m)) = true) : s.serve m op fields bad need k = s.mailboxDone m 4 [] := by
  rw [serve_of_asks h hfit, hbad, if_neg Bool.false_ne_true, if_pos hmiss]

theorem serve_finish (h : asks s m op die ws) (hfit : fits ws fields) (hbad : bad (s.mailbox m) = false)
    (hmiss : gondolaMissing s (need (s.mailbox m)) = false) : s.serve m op fields bad need k = finish s m (k s (s.mailbox m)) := by
  rw [serve_of_asks h hfit, hbad, if_neg Bool.false_ne_true, hmiss, if_neg Bool.false_ne_true]
end

theorem gondola.present {s : State} {d : Nat} (h : gondola s d) : gondolaMissing s (some d) = false := by
  rw [gondolaMissing, h.1, h.2]
  rfl

/-! ### Address spaces -/

theorem pickFree_none {s : State} {bound : Nat} {used : Nat → Bool} (h : ∀ k, k < bound → used k = true) : s.pickFree bound used = none := by
  have hfree : (List.range bound).filter (fun k => !used k) = [] :=
    List.filter_eq_nil_iff.mpr fun k hk => by rw [h k (List.mem_range.mp hk)]; decide
  unfold State.pickFree
  dsimp only
  rw [hfree]
  rfl

/-- Where a number is free, one that is free is taken, and one free choice is spent. -/
theorem pickFree_some (s : State) {bound : Nat} {used : Nat → Bool} (h : ∃ k, k < bound ∧ used k = false) :
    ∃ a, a < bound ∧ used a = false ∧ s.pickFree bound used = some (a, { s with freeCount := s.freeCount + 1 }) := by
  obtain ⟨k, hk, hfree⟩ := h
  have hmem : k ∈ (List.range bound).filter (fun k => !used k) := List.mem_filter.mpr ⟨List.mem_range.mpr hk, by rw [hfree]; rfl⟩
  have hlt : Config.freePick s.freeCount % ((List.range bound).filter (fun k => !used k)).length < ((List.range bound).filter (fun k => !used k)).length :=
    Nat.mod_lt _ (List.length_pos_of_mem hmem)
  obtain ⟨hrange, hunused⟩ := List.mem_filter.mp (List.getElem_mem hlt)
  refine ⟨_, List.mem_range.mp hrange, by simpa using hunused, ?_⟩
  unfold State.pickFree State.pick
  dsimp only
  rw [List.getElem?_eq_getElem hlt]
  rfl

/-- A root that CREATE_AS takes passes its checks. -/
theorem root_ok {s : State} {root : Nat} (halign : root % 4096 = 0) (htop : root < 2 ^ 48) (hdram : root < s.dramTop) (hclass : placeClass root < 8) :
    (root % 4096 != 0 || decide (8 ≤ placeClass root) || decide (2 ^ 52 ≤ root) || decide (s.dramTop ≤ root)) = false := by
  have h52 : ¬ 2 ^ 52 ≤ root := by omega
  rw [halign, decide_eq_false (Nat.not_le.mpr hclass), decide_eq_false h52, decide_eq_false (Nat.not_le.mpr hdram)]
  rfl

/-- How CREATE_AS ends with the number that it has found. -/
def created (root : Nat) : Option (Nat × State) → MailOut
  | none => .result 3
  | some (a, s) => .done { s with spaces := { asid := a, root := root } :: s.spaces } [a]

theorem createAs_serves {s : State} {m die root : Nat} (h : asks s m 1 die [root]) (hg : gondola s 0) (halign : root % 4096 = 0) (htop : root < 2 ^ 48)
    (hdram : root < s.dramTop) (hclass : placeClass root < 8) :
    exec (.createAs m) s = .next (finish s m (created root (s.pickFree 1024 s.asidLive))) := by
  have hword : (s.mailbox m).word 1 = root := h.word (by decide)
  have hfit : fits [root] [allBits] := fits_cons (and_allBits (by omega)) (fits_nil _)
  refine congrArg Host.Outcome.next ((serve_finish h hfit ?_ hg.present).trans ?_)
  · rw [hword]
    exact root_ok halign htop hdram hclass
  · simp only [hword]
    cases s.pickFree 1024 s.asidLive <;> rfl

theorem createAs_free {s : State} {m die root : Nat} (h : asks s m 1 die [root]) (hg : gondola s 0) (halign : root % 4096 = 0) (htop : root < 2 ^ 48)
    (hdram : root < s.dramTop) (hclass : placeClass root < 8) (hfree : ∃ b, b < 1024 ∧ s.asidLive b = false) :
    ∃ t a, exec (.createAs m) s = .next t ∧ a < 1024 ∧ s.asidLive a = false ∧ answered s t m 0 [a]
      ∧ t.spaces = { asid := a, root := root } :: s.spaces ∧ t.mem = s.mem := by
  obtain ⟨a, ha, hlive, hpick⟩ := pickFree_some s hfree
  rw [createAs_serves h hg halign htop hdram hclass, hpick]
  exact ⟨_, a, rfl, ha, hlive, answered_mailboxDone rfl rfl h.lt (by decide) _, rfl, rfl⟩

theorem createAs_full {s : State} {m die root : Nat} (h : asks s m 1 die [root]) (hg : gondola s 0) (halign : root % 4096 = 0) (htop : root < 2 ^ 48)
    (hdram : root < s.dramTop) (hclass : placeClass root < 8) (hfull : ∀ b, b < 1024 → s.asidLive b = true) :
    ∃ t, exec (.createAs m) s = .next t ∧ answered s t m 3 [] ∧ t.spaces = s.spaces := by
  rw [createAs_serves h hg halign htop hdram hclass, pickFree_none hfull]
  exact ⟨_, rfl, answered_mailboxDone rfl rfl h.lt (by decide) _, rfl⟩

theorem destroyAs_serves {s : State} {m die a : Nat} (h : asks s m 2 die [a]) (hg : gondola s 0) (ha : a < 1024) (hlive : s.asidLive a = true) :
    exec (.destroyAs m) s = .next (finish s m
      (if s.asidUsed a then .result 5 else .done { s.tlbSpace a with spaces := s.spaces.filter (·.asid != a) } [])) := by
  have hword : (s.mailbox m).word 1 = a := h.word (by decide)
  refine congrArg Host.Outcome.next ((serve_finish h (fits_cons (and_asidBits ha) (fits_nil _)) ?_ hg.present).trans ?_)
  · rw [hword, hlive]
    rfl
  · dsimp only
    rw [hword]

theorem destroyAs_effect {s : State} {m die a : Nat} (h : asks s m 2 die [a]) (hg : gondola s 0) (ha : a < 1024) (hlive : s.asidLive a = true) :
    (s.asidUsed a = false → ∃ t, exec (.destroyAs m) s = .next t ∧ answered s t m 0 [] ∧ t.mem = s.mem
        ∧ t.spaces = s.spaces.filter (·.asid != a) ∧ t.tlb = s.tlb.filter (·.asid != a) ∧ t.upper = s.upper.filter (·.asid != a))
    ∧ (s.asidUsed a = true → ∃ t, exec (.destroyAs m) s = .next t ∧ answered s t m 5 [] ∧ t.spaces = s.spaces) := by
  rw [destroyAs_serves h hg ha hlive]
  refine ⟨fun hused => ?_, fun hused => ?_⟩
  · rw [hused]
    exact ⟨_, rfl, answered_mailboxDone rfl rfl h.lt (by decide) _, rfl, rfl, rfl, rfl⟩
  · rw [hused]
    exact ⟨_, rfl, answered_mailboxDone rfl rfl h.lt (by decide) _, rfl⟩

/-! ### Registers, status and the budget -/

/-- What a request's words are asked to be fits a word. -/
theorem asks.word_lt {s : State} {m op die : Nat} {ws : List Nat} (h : asks s m op die ws) {n : Nat} (hn : n < 31) : ws.getD n 0 < 2 ^ 64 := by
  rw [← h.word hn]
  exact Claims.word_lt _ _

theorem mmioRead_effect {s : State} {m die pa n : Nat} (h : asks s m 7 die [pa, n]) (hg : gondola s 0) (hok : s.mmioBad pa n = false) :
    ∃ t, exec (.mmioRead m) s = .next t ∧ answered s t m 0 [s.placeLoad pa n] ∧ t.mem = s.mem := by
  have hpa : (s.mailbox m).word 1 = pa := h.word (by decide)
  have hn : (s.mailbox m).word 2 = n := h.word (n := 1) (by decide)
  have hfit : fits [pa, n] [allBits, allBits] :=
    fits_cons (and_allBits (h.word_lt (n := 0) (by decide))) (fits_cons (and_allBits (h.word_lt (n := 1) (by decide))) (fits_nil _))
  refine ⟨s.mailboxDone m 0 [s.placeLoad pa n], congrArg Host.Outcome.next ((serve_finish h hfit ?_ hg.present).trans ?_),
    answered_mailboxDone rfl rfl h.lt (by decide) _, rfl⟩
  · rw [hpa, hn]
    exact hok
  · rw [hpa, hn]
    rfl

theorem status_effect {s : State} {m die : Nat} (h : asks s m 8 die []) :
    ∃ t, exec (.status m) s = .next t ∧ answered s t m 0 [s.bringWord, s.funcReady.toNat, s.deviceHealth.toNat] ∧ t.mem = s.mem :=
  ⟨_, congrArg Host.Outcome.next (serve_finish h (fits_nil _) rfl rfl), answered_mailboxDone rfl rfl h.lt (by decide) _, rfl⟩

/-- SET_BUDGET checks the value before the Gondola cores. -/
theorem setBudget_serves {s : State} {m die v : Nat} (h : asks s m 9 die [v]) (hv : v < 2 ^ 64) :
    exec (.setBudget m) s = .next (if v = 0 ∨ 7000 < v then s.mailboxDone m 2 []
      else if gondolaMissing s (some 0) then s.mailboxDone m 4 [] else State.mailboxDone { s with budget := v } m 0 []) := by
  have hword : (s.mailbox m).word 1 = v := h.word (by decide)
  refine congrArg Host.Outcome.next ((serve_of_asks h (fits_cons (and_allBits hv) (fits_nil _))).trans ?_)
  simp only [hword, Bool.or_eq_true, beq_iff_eq, decide_eq_true_eq]
  rfl

theorem setBudget_effect {s : State} {m die v : Nat} (h : asks s m 9 die [v]) (hv : v < 2 ^ 64) :
    (gondola s 0 → 1 ≤ v → v ≤ 7000 → ∃ t, exec (.setBudget m) s = .next t ∧ answered s t m 0 [] ∧ t.budget = v)
    ∧ (v = 0 ∨ 7000 < v → ∃ t, exec (.setBudget m) s = .next t ∧ answered s t m 2 [] ∧ t.budget = s.budget)
    ∧ (s.bring.gondola.getLsbD 0 = false → 1 ≤ v → v ≤ 7000 → ∃ t, exec (.setBudget m) s = .next t ∧ answered s t m 4 [] ∧ t.budget = s.budget) := by
  rw [setBudget_serves h hv]
  refine ⟨fun hg hlow hhigh => ?_, fun hout => ?_, fun hmiss hlow hhigh => ?_⟩
  · rw [if_neg (by omega), hg.present]
    exact ⟨_, rfl, answered_mailboxDone rfl rfl h.lt (by decide) _, rfl⟩
  · rw [if_pos hout]
    exact ⟨_, rfl, answered_mailboxDone rfl rfl h.lt (by decide) _, rfl⟩
  · have hmissing : gondolaMissing s (some 0) = true := by
      rw [gondolaMissing, hmiss]
      rfl
    rw [if_neg (by omega), hmissing]
    exact ⟨_, rfl, answered_mailboxDone rfl rfl h.lt (by decide) _, rfl⟩

theorem mailboxUnknownOp_effect {s : State} {m op die : Nat} {ws : List Nat} (h : asks s m op die ws) (hop : op = 0 ∨ 9 < op) :
    ∃ t, exec (.mailboxUnknownOp m) s = .next t ∧ answered s t m 1 [] ∧ t.mem = s.mem := by
  have hlisted : opListed op = false := by
    rw [opListed, ← Bool.decide_and]
    exact decide_eq_false (by omega)
  refine ⟨s.mailboxDone m 1 [], congrArg Host.Outcome.next ?_, answered_mailboxDone rfl rfl h.lt (by decide) _, rfl⟩
  dsimp only
  rw [h.busy, h.headerBad, h.op, hlisted]
  rfl

/-! ### Writes of registers -/

theorem foldl_mailboxes {α : Type} {f : State → α → State} (hf : ∀ a x, (f a x).mailboxes = a.mailboxes) (l : List α) (s : State) :
    (l.foldl f s).mailboxes = s.mailboxes :=
  List.foldlRecOn (motive := fun t => t.mailboxes = s.mailboxes) l f rfl fun a ha x _ => (hf a x).trans ha

@[simp] theorem broadcastStop_mailboxes (s : State) (cores tick cause) : (s.broadcastStop cores tick cause).mailboxes = s.mailboxes :=
  foldl_mailboxes (fun a _ => State.setCore_mailboxes a _) cores s

@[simp] theorem dbgCommand_mailboxes (s : State) (die v) : (s.dbgCommand die v).mailboxes = s.mailboxes := by
  unfold State.dbgCommand
  split
  · exact broadcastStop_mailboxes s _ _ _
  · exact foldl_mailboxes (fun a _ => State.setCore_mailboxes a _) _ s
  · unfold State.dbgStepCmd
    split <;> rfl
  · rfl

@[simp] theorem sysWrite_mailboxes (s : State) (core n v) : (s.sysWrite core n v).mailboxes = s.mailboxes := by
  unfold State.sysWrite
  dsimp only
  split_ifs <;> rfl

@[simp] theorem deliver_mailboxes (s : State) (die r) : (s.deliver die r).mailboxes = s.mailboxes := by
  unfold State.deliver
  dsimp only
  split <;> rfl

theorem putHome_mailboxes (s : State) (loc : Nat) (b : Byte) : (s.putHome loc b).mailboxes = s.mailboxes := by
  unfold State.putHome
  split <;> rfl

theorem putBytes_mailboxes (s : State) (loc : Nat) (bs : List Byte) : (s.putBytes loc bs).mailboxes = s.mailboxes := by
  induction bs generalizing s loc with
  | nil => rfl
  | cons b bs ih => exact (ih (s.putHome loc b) (loc + 1)).trans (putHome_mailboxes s loc b)

@[simp] theorem failLink_mailboxes (s : State) (n) : (s.failLink n).mailboxes = s.mailboxes := rfl

@[simp] theorem unitFails_mailboxes (s : State) (die sub) : (s.unitFails die sub).mailboxes = s.mailboxes := deliver_mailboxes _ die _

@[simp] theorem pinSector_mailboxes (s : State) (die sec) : (s.pinSector die sec).mailboxes = s.mailboxes := by
  grind [State.pinSector, putBytes_mailboxes, unitFails_mailboxes, failLink_mailboxes]

@[simp] theorem shuffle_mailboxes {α : Type} (n s) (l : List α) : (shuffle n s l).1.mailboxes = s.mailboxes := by
  induction n generalizing s l with
  | zero => rfl
  | succ n ih =>
    unfold shuffle
    grind [State.pick_mailboxes]

@[simp] theorem sealNotice_mailboxes (s : State) (sec core) : (s.sealNotice sec core).mailboxes = s.mailboxes := rfl

@[simp] theorem l2Write_mailboxes (s : State) (v) : (s.l2Write v).mailboxes = s.mailboxes := by
  grind [State.l2Write, pinSector_mailboxes, sealNotice_mailboxes, shuffle_mailboxes]

@[simp] theorem mmioPut_mailboxes (s : State) (unit off v) : (s.mmioPut unit off v).mailboxes = s.mailboxes := by
  grind [State.mmioPut, l2Write_mailboxes, dbgCommand_mailboxes, sysWrite_mailboxes, State.setDie_mailboxes]

@[simp] theorem mmioStore_mailboxes (s : State) (unit off n v) : (s.mmioStore unit off n v).mailboxes = s.mailboxes := by
  unfold State.mmioStore
  dsimp only
  split_ifs <;> simp

theorem placeStore_mailboxes {s : State} {pa n : Nat} (h : s.mmioBad pa n = false) (v : Nat) : (s.placeStore pa n v).mailboxes = s.mailboxes := by
  have hclass : placeClass pa = 0xb := by
    simp only [State.mmioBad, Bool.or_eq_false_iff, bne_eq_false_iff_eq] at h
    obtain ⟨⟨⟨⟨-, hclass⟩, -⟩, -⟩, -⟩ := h
    exact hclass
  unfold State.placeStore
  rw [hclass]
  exact mmioStore_mailboxes _ _ _ _ _

theorem mmioWrite_effect {s : State} {m die pa v n : Nat} (h : asks s m 6 die [pa, v, n]) (hg : gondola s 0) (hok : s.mmioBad pa n = false) :
    ∃ t, exec (.mmioWrite m) s = .next t ∧ answered (s.placeStore pa n v) t m 0 [] ∧ t.mem = (s.placeStore pa n v).mem
      ∧ t.dies = (s.placeStore pa n v).dies ∧ t.cores = (s.placeStore pa n v).cores ∧ t.l2cfg = (s.placeStore pa n v).l2cfg := by
  have hpa : (s.mailbox m).word 1 = pa := h.word (by decide)
  have hv : (s.mailbox m).word 2 = v := h.word (n := 1) (by decide)
  have hn : (s.mailbox m).word 3 = n := h.word (n := 2) (by decide)
  have hfit : fits [pa, v, n] [allBits, allBits, allBits] :=
    fits_cons (and_allBits (h.word_lt (n := 0) (by decide))) (fits_cons (and_allBits (h.word_lt (n := 1) (by decide)))
      (fits_cons (and_allBits (h.word_lt (n := 2) (by decide))) (fits_nil _)))
  have hm : m < (s.placeStore pa n v).mailboxes.length := h.lt.trans_eq (congrArg List.length (placeStore_mailboxes hok v).symm)
  refine ⟨(s.placeStore pa n v).mailboxDone m 0 [], congrArg Host.Outcome.next ((serve_finish h hfit ?_ hg.present).trans ?_),
    answered_mailboxDone rfl rfl hm (by decide) _, rfl, rfl, rfl, rfl⟩
  · rw [hpa, hn]
    exact hok
  · rw [hpa, hv, hn]
    rfl

/-- Settles O30: each request passes the checks of `State.serve` as far as its clause says, and completes as `answered_mailboxDone` says. -/
theorem mailboxRequests : Obligations.MailboxRequests := by
  unfold Obligations.MailboxRequests
  exact ⟨fun m die root s h hg halign htop hdram hclass =>
      ⟨createAs_free h hg halign htop hdram hclass, createAs_full h hg halign htop hdram hclass⟩,
    fun m die a s h hg ha hlive => destroyAs_effect h hg ha hlive,
    fun m die pa v n s h hg hok => mmioWrite_effect h hg hok,
    fun m die pa n s h hg hok => mmioRead_effect h hg hok,
    fun m die s h => status_effect h,
    fun m die v s h hv => setBudget_effect h hv,
    fun m op die ws s h hop => mailboxUnknownOp_effect h hop⟩

end Sys2Proof.Claims

/-!
Queues come and go by mailbox requests, and doorbells (01 R28; 18 R339, R351; 04 R76; O31).
-/

namespace Sys2Proof.Claims
open Sys2Proof Sys2Proof.Machine

/-! ### What a front end's access leaves unchanged -/

/-- The mailboxes, their interrupts and the submission queues. -/
def hostSide (s : State) : List Mailbox × List Nat × List SubQueue := (s.mailboxes, s.msix, s.sqs)

theorem foldl_hostSide {α : Type} {f : State → α → State} (hf : ∀ a x, hostSide (f a x) = hostSide a) (l : List α) (s : State) :
    hostSide (l.foldl f s) = hostSide s :=
  List.foldlRecOn (motive := fun t => hostSide t = hostSide s) l f rfl fun a ha x _ => (hf a x).trans ha

theorem pick_hostSide (s : State) (n : Nat) : hostSide (s.pick n).2 = hostSide s := rfl

theorem putBytes_hostSide (s : State) (loc : Nat) (bs : List Byte) : hostSide (s.putBytes loc bs) = hostSide s := by
  induction bs generalizing s loc with
  | nil => rfl
  | cons b bs ih =>
    refine (ih (s.putHome loc b) (loc + 1)).trans ?_
    unfold State.putHome
    split <;> rfl

theorem l2Put_hostSide (s : State) (slice sector) : hostSide (s.l2Put slice sector) = hostSide s := by
  unfold State.l2Put
  dsimp only
  split_ifs
  iterate 3 rfl
  split <;> rfl

theorem touchL2_hostSide (s : State) (die sector) : hostSide (s.touchL2 die sector) = hostSide s := by
  unfold State.touchL2
  dsimp only
  split_ifs
  · rfl
  · exact l2Put_hostSide _ _ _
  · exact l2Put_hostSide _ _ _

theorem markL2_hostSide (s : State) (die sector) : hostSide (s.markL2 die sector) = hostSide s := by
  unfold State.markL2
  split
  · exact l2Put_hostSide _ _ _
  · rfl

theorem putMarked_hostSide (s : State) (die loc : Nat) (bs : List Byte) : hostSide (s.putMarked die loc bs) = hostSide s :=
  (foldl_hostSide (fun a sec => markL2_hostSide a die sec) _ _).trans (putBytes_hostSide s loc bs)

theorem walkTouch_hostSide (s : State) (die addr) : hostSide (s.walkTouch die addr) = hostSide s := by
  unfold State.walkTouch
  split
  · exact touchL2_hostSide _ _ _
  · rfl

theorem upperPut_hostSide (s : State) (u) : hostSide (s.upperPut u) = hostSide s := rfl

theorem walkWith_hostSide (entry) (s : State) (die asid va l table) : hostSide (walkWith entry s die asid va l table).1 = hostSide s := by
  induction l generalizing s table with
  | zero =>
    simp only [walkWith]
    split <;> exact walkTouch_hostSide _ _ _
  | succ l ih =>
    unfold walkWith
    grind [walkTouch_hostSide, upperPut_hostSide, pick_hostSide]

theorem walk_hostSide (s : State) (die asid va l table) : hostSide (s.walk die asid va l table).1 = hostSide s :=
  (congrArg (fun r => hostSide r.1) (s.walk_eq_walkWith die asid va l table)).trans (walkWith_hostSide State.walkEntry s die asid va l table)

theorem tlbRoom_hostSide (s : State) (n set) : hostSide (s.tlbRoom n set) = hostSide s := by
  unfold State.tlbRoom State.pick
  dsimp only
  split
  · rfl
  · split <;> rfl

theorem tlb_hostSide (s : State) (l : List TlbEntry) : hostSide { s with tlb := l } = hostSide s := rfl

theorem tlbPut_hostSide (s : State) (t) : hostSide (s.tlbPut t) = hostSide s := by
  unfold State.tlbPut
  dsimp only
  rw [tlb_hostSide]
  grind [tlbRoom_hostSide]

theorem setAD_hostSide (s : State) (a va wr t) : hostSide (s.setAD a va wr t) = hostSide s := by
  unfold State.setAD
  dsimp only
  split
  · rfl
  · exact putMarked_hostSide _ _ _ _

theorem useTlb_hostSide (s : State) (a va dir noUser t) : hostSide (s.useTlb a va dir noUser t).1 = hostSide s := by
  unfold State.useTlb
  dsimp only
  split
  · exact setAD_hostSide _ _ _ _ _
  · rfl

theorem translateTable_hostSide (s : State) (a va dir noUser) : hostSide (s.translateTable a va dir noUser).1 = hostSide s := by
  grind [State.translateTable, walk_hostSide, useTlb_hostSide, tlbPut_hostSide]

theorem translatePage_hostSide (s : State) (a va dir noUser) : hostSide (s.translatePage a va dir noUser).1 = hostSide s := by
  unfold State.translatePage
  split
  · rfl
  · exact translateTable_hostSide _ _ _ _ _

theorem translate_hostSide (s : State) (a va dir noUser) : hostSide (s.translate a va dir noUser).1 = hostSide s := by
  unfold State.translate
  dsimp only
  split_ifs
  iterate 4 rfl
  exact translatePage_hostSide _ _ _ _ _

theorem broadcastStop_hostSide (s : State) (cores tick cause) : hostSide (s.broadcastStop cores tick cause) = hostSide s :=
  foldl_hostSide (f := fun a c => a.setCore { a.core c with stopIn := (a.core c).stopIn ++ [(tick, cause)] }) (fun _ _ => rfl) cores s

theorem wpStops_hostSide (s : State) (hits) : hostSide (s.wpStops hits) = hostSide s := by
  refine foldl_hostSide (fun a x => ?_) hits s
  grind [broadcastStop_hostSide]

theorem gondolaHit_hostSide (s : State) (asid va pa loc n rd) : hostSide (s.gondolaHit asid va pa loc n rd) = hostSide s := by
  unfold State.gondolaHit
  dsimp only
  split
  · rfl
  · exact wpStops_hostSide _ _

/-! ### A front end's access -/

theorem hostSide_eq {s t : State} (h : hostSide t = hostSide s) : t.mailboxes = s.mailboxes ∧ t.msix = s.msix ∧ t.sqs = s.sqs :=
  ⟨congrArg (·.1) h, congrArg (·.2.1) h, congrArg (·.2.2) h⟩

/-- The state in which a front end acts on the bytes that it has reached. -/
def reachedBy (s1 : State) (die asid : Nat) (va : BitVec 64) (pa loc n : Nat) (wr : Bool) : State :=
  (s1.touchL2 die (sectorOf loc)).gondolaHit asid va pa loc n (!wr)

theorem reachedBy_hostSide (s1 : State) (die asid : Nat) (va : BitVec 64) (pa loc n : Nat) (wr : Bool) :
    hostSide (reachedBy s1 die asid va pa loc n wr) = hostSide s1 :=
  (gondolaHit_hostSide _ _ _ _ _ _ _).trans (touchL2_hostSide _ _ _)

theorem reachedBy_mem (s1 : State) (die asid : Nat) (va : BitVec 64) (pa loc n : Nat) (wr : Bool) :
    (reachedBy s1 die asid va pa loc n wr).mem = s1.mem :=
  (State.gondolaHit_mem _ _ _ _ _ _ _).trans (State.touchL2_mem _ _ _)

/-- What a front end reaches now it acts on now. -/
theorem frontReach_now {s s1 : State} {die asid n loc : Nat} {va : BitVec 64} {wr : Bool} (h : frontNow s s1 die asid va n wr loc)
    (k : State → Nat → FrontOut) :
    ∃ u, hostSide u = hostSide s ∧ u.mem = s1.mem ∧ s.frontReach die asid va n wr k = k u loc := by
  obtain ⟨⟨pa, sh, htr, hreach⟩, hholds, hseal⟩ := h
  have hs1 : hostSide s1 = hostSide s := by
    have h := translate_hostSide s (frontAgent die asid) va (if wr then .wr else .rd) false
    rwa [htr] at h
  refine ⟨reachedBy s1 die asid va pa loc n wr, (reachedBy_hostSide _ _ _ _ _ _ _ _).trans hs1, reachedBy_mem _ _ _ _ _ _ _ _, ?_⟩
  unfold State.frontReach
  rw [htr]
  dsimp only
  rw [hreach, hholds, hseal]
  rfl

/-- An access of a front end that ends well is what it does with some state of the same host side. -/
theorem frontReach_ok {s t : State} {die asid n : Nat} {va : BitVec 64} {wr whole : Bool} {k : State → Nat → FrontOut} {bs : List Byte}
    (h : s.frontReach die asid va n wr k whole = .ok t bs) : ∃ u loc, hostSide u = hostSide s ∧ k u loc = .ok t bs := by
  have hs1 := translate_hostSide s (frontAgent die asid) va (if wr then .wr else .rd) false
  unfold State.frontReach at h
  split at h
  iterate 3 exact nomatch h
  next s1 loc pa sh htr =>
    rw [htr] at hs1
    split at h
    iterate 2 exact nomatch h
    split_ifs at h
    exact ⟨_, loc, (reachedBy_hostSide s1 die asid va pa loc n wr).trans hs1, h⟩

theorem frontRead_sqs {s t : State} {die asid n : Nat} {va : BitVec 64} {bs : List Byte} (h : s.frontRead die asid va n = .ok t bs) :
    t.sqs = s.sqs := by
  obtain ⟨u, loc, hside, hu⟩ := frontReach_ok h
  obtain ⟨rfl, -⟩ := FrontOut.ok.inj hu
  exact (hostSide_eq hside).2.2

/-! ### The descriptor that a registration marks -/

theorem homeByte_of_mem {s t : State} (h : t.mem = s.mem) {k : Nat} (hk : k < 2 ^ 52) : t.homeByte k = s.homeByte k := by
  rw [State.homeByte, State.homeByte, if_pos hk, if_pos hk, h]

theorem homeNat_of_mem {s t : State} (h : t.mem = s.mem) {loc n : Nat} (hloc : loc + n ≤ 2 ^ 52) : t.homeNat loc n = s.homeNat loc n := by
  refine congrArg leNat (List.map_congr_left fun k hk => homeByte_of_mem h ?_)
  have := List.mem_range.mp hk
  omega

theorem putMarked_mem (s : State) (die loc : Nat) (bs : List Byte) : (s.putMarked die loc bs).mem = (s.putBytes loc bs).mem :=
  foldl_mem (fun a sec => a.markL2_mem die sec) _ _

/-- A run of bytes within those that are written reads as the number that they spell. -/
theorem homeNat_putMarked {s : State} (h : Formed s) {die loc n i x : Nat} {bs : List Byte} (hloc : loc + bs.length ≤ 2 ^ 52) (hin : i + n ≤ bs.length)
    (hbs : ∀ k, k < n → bs.getD (i + k) 0 = (leBytes n x).getD k 0) : (s.putMarked die loc bs).homeNat (loc + i) n = x % 2 ^ (8 * n) := by
  refine homeNat_of_bytes fun k hk => ?_
  rw [homeByte_of_mem (putMarked_mem s die loc bs) (by omega), homeByte_putBytes h hloc, if_pos (by omega), ← hbs k hk]
  congr 1
  omega

/-- SQID and a SEQ of 0, as a registration writes them from byte 12 of the descriptor on. -/
def descMark (id : Nat) : List Byte := leBytes 4 id ++ leBytes 8 0

theorem descMark_length (id : Nat) : (descMark id).length = 12 := by simp [descMark]

theorem descMark_id (id k : Nat) (hk : k < 4) : (descMark id).getD (0 + k) 0 = (leBytes 4 id).getD k 0 := by
  rw [Nat.zero_add, descMark, List.getD_append _ _ _ _ (by simpa using hk)]

theorem descMark_seq (id k : Nat) : (descMark id).getD (4 + k) 0 = (leBytes 8 0).getD k 0 := by
  rw [descMark, List.getD_append_right _ _ _ _ (by simp), leBytes_length, Nat.add_sub_cancel_left]

/-- The bits above the priority of a descriptor that passes its checks are zero. -/
theorem sqDesc_high {d : Nat} (h : sqDescBad d = false) : bitsAt d 127 106 = 0 := by
  simp only [sqDescBad, Bool.or_eq_false_iff, bne_eq_false_iff_eq] at h
  obtain ⟨⟨⟨⟨⟨-, hhigh⟩, -⟩, -⟩, -⟩, -⟩ := h
  exact hhigh

/-! ### Registration -/

section
variable {s s1 : State} {m die asid va policy ctx len loc : Nat}

/-- The queue that a registration makes, before its ring is known. -/
def newQueue (id die asid va policy ctx len : Nat) : SubQueue :=
  { id := id, asid := asid, die := die, desc := BitVec.ofNat 64 va, policy := BitVec.ofNat 64 policy, ctxBase := BitVec.ofNat 64 ctx
    ctxLen := BitVec.ofNat 64 len }

/-- The state once a queue has been listed and the place of its doorbell chosen. -/
def withQueue (v : State) (q : SubQueue) : State := { v with freeCount := v.freeCount + 1, sqs := v.sqs ++ [q] }

/-- A descriptor that a registration has marked holds SQID and a SEQ of 0. -/
theorem marked_fields {u : State} (hu : Formed u) {die id : Nat} (hid : id < 1024) (hloc : loc < 2 ^ 51) :
    (u.putMarked die (loc + 12) (descMark id)).homeNat (loc + 12) 4 % 1024 = id
      ∧ (u.putMarked die (loc + 12) (descMark id)).homeNat (loc + 16) 8 = 0 := by
  have hrun : loc + 12 + (descMark id).length ≤ 2 ^ 52 := by
    rw [descMark_length]
    omega
  have hsqid := homeNat_putMarked (die := die) (i := 0) hu hrun (by rw [descMark_length]; decide) (descMark_id id)
  have hseq := homeNat_putMarked (die := die) (i := 4) (n := 8) hu hrun (by rw [descMark_length]) fun k _ => descMark_seq id k
  refine ⟨(congrArg (· % 1024) hsqid).trans ?_, hseq⟩
  rw [Nat.mod_mod_of_dvd _ (by decide), Nat.mod_eq_of_lt hid]

/-- The checks of REGISTER_SQ pass, and its descriptor is reached: it is marked with a free number. -/
theorem registerSq_reached (h : asks s m 3 die [asid, va, policy, ctx, len]) (halign : va % 64 = 0) (hctx : ctx % 2 ^ 23 = 0) (hlen : len ≠ 0)
    (hlenAlign : len % 2 ^ 23 = 0) (hend : ctx + len ≤ 2 ^ 64)
    (hapart : ∀ q ∈ s.sqs, q.asid = asid → rangesMeet q.ctxBase.toNat q.ctxLen.toNat ctx len = false) (hfree : ∃ k, k < 1024 ∧ ∀ q ∈ s.sqs, q.id ≠ k)
    (hnow : frontNow { s with freeCount := s.freeCount + 1 } s1 die asid (BitVec.ofNat 64 va) 64 true loc) (hloc : loc < 2 ^ 51)
    (hdesc : sqDescBad (s1.homeNat loc 64) = false) (hform : Formed s1) :
    ∃ v id, id < 1024 ∧ (∀ x ∈ s.sqs, x.id ≠ id) ∧ hostSide v = hostSide s ∧ v.homeNat (loc + 12) 4 % 1024 = id ∧ v.homeNat (loc + 16) 8 = 0
      ∧ s.registerSq (s.mailbox m) = .done (withQueue v ((newQueue id die asid va policy ctx len).takeDesc (s1.homeNat loc 64)))
          [id, (Config.freeWord v.freeCount).toNat] := by
  have hw1 : (s.mailbox m).word 1 = asid := h.word (n := 0) (by decide)
  have hw2 : (s.mailbox m).word 2 = va := h.word (n := 1) (by decide)
  have hw3 : (s.mailbox m).word 3 = policy := h.word (n := 2) (by decide)
  have hw4 : (s.mailbox m).word 4 = ctx := h.word (n := 3) (by decide)
  have hw5 : (s.mailbox m).word 5 = len := h.word (n := 4) (by decide)
  have hslot : ¬(ctx % ctxSlotBytes ≠ 0 ∨ len = 0 ∨ len % ctxSlotBytes ≠ 0 ∨ 2 ^ 64 < ctx + len) := by
    rw [ctxSlotBytes]
    omega
  have hmeet : s.sqs.any (fun q => q.asid == asid && rangesMeet q.ctxBase.toNat q.ctxLen.toNat ctx len) = false := by
    refine List.any_eq_false.mpr fun q hq => ?_
    rw [Bool.and_eq_true, beq_iff_eq]
    rintro ⟨hasid, hr⟩
    rw [hapart q hq hasid] at hr
    exact Bool.false_ne_true hr
  have hunused : ∃ k, k < 1024 ∧ s.sqs.any (·.id == k) = false := by
    obtain ⟨k, hk, hne⟩ := hfree
    exact ⟨k, hk, List.any_eq_false.mpr fun q hq => by simpa using hne q hq⟩
  obtain ⟨id, hid, hnew, hpick⟩ := pickFree_some s hunused
  obtain ⟨u, hside, hmem, hreach⟩ := frontReach_now hnow (fun s loc =>
    if loc < 2 ^ 51 && !sqDescBad (s.homeNat loc 64) then
      .ok (s.putMarked die (loc + 12) (leBytes 4 (bitsAt (s.homeNat loc 64) 127 106 * 1024 + id) ++ leBytes 8 0)) (s.homeBytes loc 64)
    else .fail s { cause := 0x04a, sub := 0x02 })
  have hd : u.homeNat loc 64 = s1.homeNat loc 64 := homeNat_of_mem hmem (by omega)
  obtain ⟨hsqid, hseq⟩ := marked_fields (die := die) (hform.of_eq hmem) hid hloc
  refine ⟨u.putMarked die (loc + 12) (descMark id), id, hid, fun x hx hxid => ?_, (putMarked_hostSide u die _ _).trans hside, hsqid, hseq, ?_⟩
  · exact absurd (beq_iff_eq.mpr hxid) (List.any_eq_false.mp hnew x hx)
  · unfold State.registerSq
    dsimp only
    rw [hw1, hw2, hw3, hw4, hw5, if_neg hslot, hmeet, if_neg Bool.false_ne_true, if_neg (not_not.mpr halign), hpick]
    dsimp only
    rw [h.dieOf, hreach, hd, hdesc, sqDesc_high hdesc, Nat.zero_mul, Nat.zero_add, decide_eq_true hloc]
    rw [← hd]
    rfl

theorem registerSq_serves (h : asks s m 3 die [asid, va, policy, ctx, len]) (hg : gondola s die) (hasid : asid < 1024) (hlive : s.asidLive asid = true) :
    exec (.registerSq m) s = .next (finish s m (s.registerSq (s.mailbox m))) := by
  have hword : (s.mailbox m).word 1 = asid := h.word (n := 0) (by decide)
  have hfit : fits [asid, va, policy, ctx, len] [asidBits, allBits, allBits, allBits, allBits] :=
    fits_cons (and_asidBits hasid) (fits_cons (and_allBits (h.word_lt (n := 1) (by decide))) (fits_cons (and_allBits (h.word_lt (n := 2) (by decide)))
      (fits_cons (and_allBits (h.word_lt (n := 3) (by decide))) (fits_cons (and_allBits (h.word_lt (n := 4) (by decide))) (fits_nil _)))))
  refine congrArg Host.Outcome.next (serve_finish h hfit ?_ ?_)
  · rw [hword, hlive]
    rfl
  · rw [h.dieOf]
    exact hg.present

theorem registerSq_effect (h : asks s m 3 die [asid, va, policy, ctx, len]) (hg : gondola s die) (hasid : asid < 1024) (hlive : s.asidLive asid = true)
    (halign : va % 64 = 0) (hctx : ctx % 2 ^ 23 = 0) (hlen : len ≠ 0) (hlenAlign : len % 2 ^ 23 = 0) (hend : ctx + len ≤ 2 ^ 64)
    (hapart : ∀ q ∈ s.sqs, q.asid = asid → rangesMeet q.ctxBase.toNat q.ctxLen.toNat ctx len = false) (hfree : ∃ k, k < 1024 ∧ ∀ q ∈ s.sqs, q.id ≠ k)
    (hnow : frontNow { s with freeCount := s.freeCount + 1 } s1 die asid (BitVec.ofNat 64 va) 64 true loc) (hloc : loc < 2 ^ 51)
    (hdesc : sqDescBad (s1.homeNat loc 64) = false) (hform : Memory.wf s1.mem = true) :
    ∃ (t : State) (bell : BitVec 64) (q : SubQueue), exec (.registerSq m) s = .next t ∧ answered s t m 0 [q.id, bell.toNat] ∧ t.sqs = s.sqs ++ [q]
      ∧ q.id < 1024 ∧ (∀ x ∈ s.sqs, x.id ≠ q.id) ∧ q.asid = asid ∧ q.die = die ∧ q.desc.toNat = va ∧ q.policy.toNat = policy ∧ q.ctxBase.toNat = ctx
      ∧ q.ctxLen.toNat = len
      ∧ q.ringbase.toNat = bitsAt (s1.homeNat loc 64) 63 0 ∧ q.loglen = bitsAt (s1.homeNat loc 64) 68 64 ∧ q.prio = bitsAt (s1.homeNat loc 64) 70 69
      ∧ q.taken = 0 ∧ q.seq = 0 ∧ t.homeNat (loc + 12) 4 % 1024 = q.id ∧ t.homeNat (loc + 16) 8 = 0 := by
  obtain ⟨v, id, hid, hnew, hside, hsqid, hseq, hreg⟩ := registerSq_reached h halign hctx hlen hlenAlign hend hapart hfree hnow hloc hdesc hform
  obtain ⟨hboxes, hmsix, hsqs⟩ := hostSide_eq hside
  have hword {n : Nat} (hn : n < 31) : (BitVec.ofNat 64 ([asid, va, policy, ctx, len].getD n 0)).toNat = [asid, va, policy, ctx, len].getD n 0 := by
    rw [BitVec.toNat_ofNat, Nat.mod_eq_of_lt (h.word_lt hn)]
  have hring : (BitVec.ofNat 64 (s1.homeNat loc 64)).toNat = bitsAt (s1.homeNat loc 64) 63 0 := by
    rw [bitsAt, Nat.pow_zero, Nat.div_one, BitVec.toNat_ofNat]
  have hexec := (registerSq_serves h hg hasid hlive).trans (congrArg (fun o => Host.Outcome.next (finish s m o)) hreg)
  exact ⟨_, Config.freeWord v.freeCount, (newQueue id die asid va policy ctx len).takeDesc (s1.homeNat loc 64), hexec,
    answered_mailboxDone hboxes hmsix h.lt (by decide) _, congrArg (· ++ [(newQueue id die asid va policy ctx len).takeDesc (s1.homeNat loc 64)]) hsqs,
    hid, hnew, rfl, rfl, hword (n := 1) (by decide), hword (n := 2) (by decide), hword (n := 3) (by decide), hword (n := 4) (by decide), hring,
    rfl, rfl, rfl, rfl, hsqid, hseq⟩
end

/-! ### A queue goes -/

theorem unregisterSq_serves {s : State} {m die id : Nat} (h : asks s m 4 die [id]) (hg : gondola s 0) (hid : id < 1024) (hlisted : ∃ q ∈ s.sqs, q.id = id) :
    exec (.unregisterSq m) s = .next (finish s m
      (if s.sqs.any (fun q => q.id == id && q.packets.any (fun p => p.started && p.result.isNone)) then .result 5
       else .done { s with sqs := s.sqs.filter (·.id != id) } [])) := by
  have hword : (s.mailbox m).word 1 = id := h.word (n := 0) (by decide)
  have hany : s.sqs.any (·.id == id) = true := by
    obtain ⟨q, hq, hqid⟩ := hlisted
    exact List.any_eq_true.mpr ⟨q, hq, beq_iff_eq.mpr hqid⟩
  refine congrArg Host.Outcome.next ((serve_finish h (fits_cons (and_asidBits hid) (fits_nil _)) ?_ hg.present).trans ?_)
  · rw [hword, hany]
    rfl
  · rw [hword]

/-- Some packet of a queue with this number has started and has no result. -/
theorem runs_iff (s : State) (id : Nat) : s.sqs.any (fun q => q.id == id && q.packets.any (fun p => p.started && p.result.isNone)) = true
    ↔ ∃ q ∈ s.sqs, q.id = id ∧ ∃ p ∈ q.packets, p.started = true ∧ p.result = none := by
  simp only [List.any_eq_true, Bool.and_eq_true, beq_iff_eq, Option.isNone_iff_eq_none]

theorem unregisterSq_effect {s : State} {m die id : Nat} (h : asks s m 4 die [id]) (hg : gondola s 0) (hid : id < 1024) (hlisted : ∃ q ∈ s.sqs, q.id = id) :
    ((∀ q ∈ s.sqs, q.id = id → ∀ p ∈ q.packets, p.started = true → p.result ≠ none) →
      ∃ t, exec (.unregisterSq m) s = .next t ∧ answered s t m 0 [] ∧ t.sqs = s.sqs.filter (·.id != id))
    ∧ ((∃ q ∈ s.sqs, q.id = id ∧ ∃ p ∈ q.packets, p.started = true ∧ p.result = none) →
      ∃ t, exec (.unregisterSq m) s = .next t ∧ answered s t m 5 [] ∧ t.sqs = s.sqs) := by
  rw [unregisterSq_serves h hg hid hlisted]
  refine ⟨fun hidle => ?_, fun hruns => ?_⟩
  · rw [if_neg fun hruns => by
      obtain ⟨q, hq, hqid, p, hp, hstarted, hnone⟩ := (runs_iff s id).mp hruns
      exact hidle q hq hqid p hp hstarted hnone]
    exact ⟨_, rfl, answered_mailboxDone rfl rfl h.lt (by decide) _, rfl⟩
  · rw [if_pos ((runs_iff s id).mpr hruns)]
    exact ⟨_, rfl, answered_mailboxDone rfl rfl h.lt (by decide) _, rfl⟩

/-! ### A work queue is configured -/

/-- The first element that a test finds, after every element that passes it has been replaced by one that passes it too. -/
theorem find?_map_replace {α : Type} (p : α → Bool) (k : α) (hk : p k = true) (l : List α) :
    (l.map (fun x => if p x then k else x)).find? p = if l.any p then some k else none := by
  induction l with
  | nil => rfl
  | cons x l ih =>
    rw [List.map_cons, List.any_cons]
    by_cases hx : p x = true
    · rw [if_pos hx, List.find?_cons_of_pos hk, hx]
      rfl
    · rw [if_neg hx, List.find?_cons_of_neg hx, ih, Bool.eq_false_of_not_eq_true hx, Bool.false_or]

theorem workq_setWorkq_same (s : State) (k : WorkQueue) : (s.setWorkq k).workq k.die k.q = k := by
  have hk : (k.die == k.die && k.q == k.q) = true := by simp
  unfold State.setWorkq State.workq
  dsimp only
  split
  next hany => rw [find?_map_replace (fun x => x.die == k.die && x.q == k.q) k hk, if_pos hany]; rfl
  next => rw [List.find?_cons_of_pos (p := fun x : WorkQueue => x.die == k.die && x.q == k.q) hk]; rfl

/-- An open and empty work queue. -/
def openQueue (die q base len asid : Nat) : WorkQueue :=
  { die := die, q := q, state := .open, ringbase := BitVec.ofNat 64 base, ringlen := len, asid := asid }

/-- Is a launch live? -/
def liveLaunch (s : State) (l : Nat) : Bool := (s.launch? l).any (fun L => !L.done)

theorem configWq_serves {s : State} {m die q base len asid : Nat} (h : asks s m 5 die [q, base, len, asid]) (hq : q < 64) (hasid : asid < 1024)
    (hlive : s.asidLive asid = true) :
    exec (.configWq m) s = .next (if gondolaMissing s (some die) then s.mailboxDone m 4 []
      else finish s m (if q = 63 || !((List.range 11).any (fun k => len == 64 * 2 ^ k)) then .result 2
        else if (s.workq die q).producers.any (liveLaunch s) || (s.workq die q).consumers.any (liveLaunch s) then .result 5
        else .done (s.setWorkq (openQueue die q base len asid)) [])) := by
  have hw1 : (s.mailbox m).word 1 = q := h.word (n := 0) (by decide)
  have hw2 : (s.mailbox m).word 2 = base := h.word (n := 1) (by decide)
  have hw3 : (s.mailbox m).word 3 = len := h.word (n := 2) (by decide)
  have hw4 : (s.mailbox m).word 4 = asid := h.word (n := 3) (by decide)
  have hfit : fits [q, base, len, asid] [63, allBits, allBits, asidBits] :=
    fits_cons (Nat.and_two_pow_sub_one_of_lt_two_pow (n := 6) hq) (fits_cons (and_allBits (h.word_lt (n := 1) (by decide)))
      (fits_cons (and_allBits (h.word_lt (n := 2) (by decide))) (fits_cons (and_asidBits hasid) (fits_nil _))))
  refine congrArg Host.Outcome.next ((serve_of_asks h hfit).trans ?_)
  dsimp only
  rw [h.dieOf, hw1, hw2, hw3, hw4, hlive]
  rfl

theorem configWq_effect {s : State} {m die q base k asid : Nat} (h : asks s m 5 die [q, base, 64 * 2 ^ k, asid]) (hg : gondola s die) (hq : q < 63)
    (hk : k < 11) (hasid : asid < 1024) (hlive : s.asidLive asid = true)
    (hidle : ∀ l, l ∈ (s.workq die q).producers ++ (s.workq die q).consumers → (s.launch? l).any (fun L => !L.done) = false) :
    ∃ t, exec (.configWq m) s = .next t ∧ answered s t m 0 [] ∧ t.mem = s.mem
      ∧ t.workq die q = { die := die, q := q, state := .open, ringbase := BitVec.ofNat 64 base, ringlen := 64 * 2 ^ k, asid := asid } := by
  have hlen : (List.range 11).any (fun j => 64 * 2 ^ k == 64 * 2 ^ j) = true :=
    List.any_eq_true.mpr ⟨k, List.mem_range.mpr hk, beq_self_eq_true _⟩
  have hprod : (s.workq die q).producers.any (liveLaunch s) = false :=
    List.any_eq_false.mpr fun l hl => Bool.not_eq_true _ ▸ hidle l (List.mem_append_left _ hl)
  have hcons : (s.workq die q).consumers.any (liveLaunch s) = false :=
    List.any_eq_false.mpr fun l hl => Bool.not_eq_true _ ▸ hidle l (List.mem_append_right _ hl)
  rw [configWq_serves h (by omega) hasid hlive, hg.present, if_neg Bool.false_ne_true, hlen, decide_eq_false (Nat.ne_of_lt hq), hprod, hcons]
  exact ⟨_, rfl, answered_mailboxDone rfl rfl h.lt (by decide) _, rfl, workq_setWorkq_same s (openQueue die q base (64 * 2 ^ k) asid)⟩

theorem configWq_service {s : State} {m die base len asid : Nat} (h : asks s m 5 die [63, base, len, asid]) (hasid : asid < 1024) (hlive : s.asidLive asid = true) :
    ((s.bring.gondola.getLsbD die && s.bring.gondola.getLsbD 0) = false → ∃ t, exec (.configWq m) s = .next t ∧ answered s t m 4 [] ∧ t.queues = s.queues)
    ∧ (gondola s die → ∃ t, exec (.configWq m) s = .next t ∧ answered s t m 2 [] ∧ t.queues = s.queues) := by
  rw [configWq_serves h (by decide) hasid hlive]
  refine ⟨fun hmiss => ?_, fun hg => ?_⟩
  · rw [gondolaMissing, hmiss]
    exact ⟨_, rfl, answered_mailboxDone rfl rfl h.lt (by decide) _, rfl⟩
  · rw [hg.present]
    exact ⟨_, rfl, answered_mailboxDone rfl rfl h.lt (by decide) _, rfl⟩

/-! ### Doorbells -/

/-- A queue whose doorbell has been rung. -/
def rung (q : SubQueue) (v : BitVec 32) : SubQueue := { q with tail := if newer v q.tail then v else q.tail }

theorem sq?_replace {s : State} {q k : SubQueue} (h : s.sq? q.id = some q) (hk : k.id = q.id) :
    (s.sqs.map (fun x => if x.id == q.id then k else x)).find? (·.id == q.id) = some k := by
  have hany : s.sqs.any (·.id == q.id) = true := List.any_eq_true.mpr ⟨q, List.mem_of_find?_eq_some h, beq_self_eq_true _⟩
  rw [find?_map_replace (fun x => x.id == q.id) k (beq_iff_eq.mpr hk), if_pos hany]

/-- A doorbell lists the queue with its tail moved, in a state with the same queues. -/
theorem doorbell_puts (v : BitVec 32) {q : SubQueue} {s : State} (h : s.sq? q.id = some q) :
    ∃ (s1 : State) (k : SubQueue), exec (.sqDoorbell q.id v) s = .next { s1 with sqs := s1.sqs.map (fun x => if x.id == q.id then k else x) } ∧ s1.sqs = s.sqs
      ∧ k.id = q.id ∧ k.tail = (rung q v).tail ∧ k.taken = q.taken := by
  have hexec : exec (.sqDoorbell q.id v) s = .next (s.doorbell q.id v) := rfl
  have hfind : s.sqs.find? (·.id == q.id) = some q := h
  rw [hexec]
  unfold State.doorbell
  rw [hfind]
  dsimp only
  split
  · split
    next s1 bs hread =>
      refine ⟨s1, _, rfl, frontRead_sqs hread, ?_⟩
      split <;> exact ⟨rfl, rfl, rfl⟩
    next => exact ⟨s, _, rfl, rfl, rfl, rfl, rfl⟩
  · exact ⟨s, _, rfl, rfl, rfl, rfl, rfl⟩

theorem doorbell_started (v : BitVec 32) {q : SubQueue} {s : State} (h : s.sq? q.id = some q) (hstarted : q.taken ≠ 0 ∨ q.tail ≠ 0) :
    exec (.sqDoorbell q.id v) s = .next (s.setSq (rung q v)) := by
  have hfind : s.sqs.find? (·.id == q.id) = some q := h
  have hfirst : ¬(decide (q.taken = 0) && decide (q.tail = 0)) = true := by
    rw [Bool.and_eq_true, decide_eq_true_iff, decide_eq_true_iff]
    tauto
  refine congrArg Host.Outcome.next ?_
  unfold State.doorbell
  rw [hfind]
  exact if_neg hfirst

theorem doorbell_tail (v : BitVec 32) {q : SubQueue} {s : State} (h : s.sq? q.id = some q) :
    ∃ t q', exec (.sqDoorbell q.id v) s = .next t ∧ t.sq? q.id = some q' ∧ q'.tail = (if newer v q.tail then v else q.tail) ∧ q'.taken = q.taken := by
  obtain ⟨s1, k, hexec, hsqs, hid, htail, htaken⟩ := doorbell_puts v h
  refine ⟨_, k, hexec, ?_, htail, htaken⟩
  rw [hsqs]
  exact sq?_replace h hid

/-- Settles O31: a registration marks the descriptor that its front end has reached (`registerSq_reached`); the others are read off `State.serve`. -/
theorem queueRequests : Obligations.QueueRequests := by
  unfold Obligations.QueueRequests
  exact ⟨fun m die asid va policy ctx len loc s s1 h hg hasid hlive _ _ halign hctx hlen hlenAlign hend _ hapart hfree hnow hloc hdesc hform =>
      registerSq_effect h hg hasid hlive halign hctx hlen hlenAlign hend hapart hfree hnow hloc hdesc hform,
    fun m die id s h hg hid hlisted => unregisterSq_effect h hg hid hlisted,
    fun m die q base k asid s h hg hq _ hk hasid hlive hidle => configWq_effect h hg hq hk hasid hlive hidle,
    fun m die base len asid s h _ _ hasid hlive => configWq_service h hasid hlive,
    fun v q s h => ⟨doorbell_started v h, doorbell_tail v h⟩⟩

end Sys2Proof.Claims

/-!
What an access of an engine may change (04 R69, R78; 02 R41, R42), and what its watchpoints may (23 R418).
-/

namespace Sys2Proof.Claims
open Sys2Proof Sys2Proof.Machine

/-! ### What an access may change -/

/-- The state differs in its bytes, their seals, the L2, the TLBs, the cached upper-level entries and the free choices alone. -/
def AccessChange (s t : State) : Prop :=
  ∃ m r b p q d h v l u f, t = { s with mem := m, remote := r, badSeals := b, pinned := p, poison := q, l2Dirty := d, l2Home := h, l2Valid := v
                                        tlb := l, upper := u, freeCount := f }

namespace AccessChange

theorem refl (s : State) : AccessChange s s := ⟨_, _, _, _, _, _, _, _, _, _, _, rfl⟩

theorem trans {s t u : State} (h₁ : AccessChange s t) (h₂ : AccessChange t u) : AccessChange s u := by
  obtain ⟨_, _, _, _, _, _, _, _, _, _, _, rfl⟩ := h₁
  obtain ⟨_, _, _, _, _, _, _, _, _, _, _, rfl⟩ := h₂
  exact ⟨_, _, _, _, _, _, _, _, _, _, _, rfl⟩

theorem of_home {s t : State} (h : HomeChange s t) : AccessChange s t := by
  obtain ⟨_, _, _, _, _, _, _, _, rfl⟩ := h
  exact ⟨_, _, _, _, _, _, _, _, _, _, _, rfl⟩

theorem ite {s t u : State} {p : Prop} [Decidable p] (ht : AccessChange s t) (hu : AccessChange s u) : AccessChange s (if p then t else u) :=
  iteInduction (fun _ => ht) fun _ => hu

theorem foldl {α : Type} {f : State → α → State} (hf : ∀ a x, AccessChange a (f a x)) (l : List α) (s : State) : AccessChange s (l.foldl f s) :=
  List.foldlRecOn (motive := AccessChange s) l f (.refl s) fun a ha x _ => ha.trans (hf a x)

theorem wgs {s t : State} (h : AccessChange s t) : t.wgs = s.wgs := by
  obtain ⟨_, _, _, _, _, _, _, _, _, _, _, rfl⟩ := h
  rfl

theorem cores {s t : State} (h : AccessChange s t) : t.cores = s.cores := by
  obtain ⟨_, _, _, _, _, _, _, _, _, _, _, rfl⟩ := h
  rfl

theorem inflight {s t : State} (h : AccessChange s t) : t.inflight = s.inflight := by
  obtain ⟨_, _, _, _, _, _, _, _, _, _, _, rfl⟩ := h
  rfl

end AccessChange

/-! ### Writes -/

theorem accessChange_putBytes (s : State) (loc : Nat) (bs : List Byte) : AccessChange s (s.putBytes loc bs) := by
  induction bs generalizing s loc with
  | nil => exact .refl s
  | cons b bs ih =>
    refine .trans ?_ (ih (s.putHome loc b) (loc + 1))
    unfold State.putHome
    split <;> exact ⟨_, _, _, _, _, _, _, _, _, _, _, rfl⟩

theorem accessChange_putMarked (s : State) (die loc : Nat) (bs : List Byte) : AccessChange s (s.putMarked die loc bs) :=
  (accessChange_putBytes s loc bs).trans (.foldl (fun a sec => .of_home (homeChange_markL2 a die sec)) _ _)

theorem accessChange_writeHome (s : State) (loc : Nat) (bs : List Byte) (die : Nat) : AccessChange s ((s.writeHome loc bs die).getD s) := by
  rcases hw : s.writeHome loc bs die with _ | t
  · exact .refl s
  · rw [Option.getD_some, writeHome_some hw]
    exact (accessChange_putBytes s loc bs).trans (.of_home (homeChange_writeSecs _ _ _ _ _))

/-! ### Translation -/

theorem accessChange_touchL2 (s : State) (die sector : Nat) : AccessChange s (s.touchL2 die sector) := by
  unfold State.touchL2
  refine .ite (.refl s) (.trans (.ite ?_ (.refl s)) (.of_home (homeChange_l2Put _ _ _)))
  exact ⟨_, _, _, _, _, _, _, _, _, _, _, rfl⟩

theorem accessChange_walkTouch (s : State) (die addr : Nat) : AccessChange s (s.walkTouch die addr) :=
  .ite (accessChange_touchL2 _ _ _) (.refl s)

theorem accessChange_upperPut (s : State) (u : Upper) : AccessChange s (s.upperPut u) := ⟨_, _, _, _, _, _, _, _, _, _, _, rfl⟩

theorem accessChange_pick (s : State) (n : Nat) : AccessChange s (s.pick n).2 := ⟨_, _, _, _, _, _, _, _, _, _, _, rfl⟩

theorem accessChange_walkWith (entry) (s : State) (die asid va l table) : AccessChange s (walkWith entry s die asid va l table).1 := by
  induction l generalizing s table with
  | zero =>
    simp only [walkWith]
    split <;> exact accessChange_walkTouch _ _ _
  | succ l ih =>
    unfold walkWith
    grind [accessChange_walkTouch, accessChange_upperPut, accessChange_pick, AccessChange.trans]

theorem accessChange_walk (s : State) (die asid va l table) : AccessChange s (s.walk die asid va l table).1 := by
  rw [State.walk_eq_walkWith]
  exact accessChange_walkWith _ _ _ _ _ _ _

theorem accessChange_tlb (s : State) (l : List TlbEntry) : AccessChange s { s with tlb := l } := ⟨_, _, _, _, _, _, _, _, _, _, _, rfl⟩

theorem accessChange_tlbRoom (s : State) (n set) : AccessChange s (s.tlbRoom n set) := by
  unfold State.tlbRoom
  refine .ite (.refl s) ((accessChange_pick s set.length).trans ?_)
  dsimp only
  split
  · exact accessChange_tlb _ _
  · exact .refl _

theorem accessChange_tlbPut (s : State) (t) : AccessChange s (s.tlbPut t) := by
  unfold State.tlbPut
  refine .trans ?_ (accessChange_tlb _ _)
  split
  · exact accessChange_tlbRoom _ _ _
  · exact .ite (.refl s) (accessChange_tlbRoom _ _ _)

theorem accessChange_setAD (s : State) (a va wr t) : AccessChange s (s.setAD a va wr t) :=
  .ite (.refl s) ((accessChange_putMarked _ _ _ _).trans (accessChange_tlb _ _))

theorem accessChange_useTlb (s : State) (a va dir noUser t) : AccessChange s (s.useTlb a va dir noUser t).1 :=
  .ite (accessChange_setAD _ _ _ _ _) (.refl s)

theorem accessChange_translateTable (s : State) (a va dir noUser) : AccessChange s (s.translateTable a va dir noUser).1 := by
  have hcore (u : State) (t : TlbEntry) : AccessChange u (if a.l1 then u.tlbPut { t with place := .core a.core } else u) :=
    .ite (accessChange_tlbPut _ _) (.refl u)
  unfold State.translateTable
  dsimp only
  split
  · exact .trans (.ite (hcore s _) (.refl s)) (accessChange_useTlb _ _ _ _ _ _)
  · split
    · exact .refl s
    next root _ =>
      have hwalk := accessChange_walk s (dieOf a.core) a.asid va 4 root
      split <;> rename_i he <;> rw [he] at hwalk
      iterate 5 exact hwalk
      refine hwalk.trans ?_
      split
      · exact ((accessChange_tlbPut _ _).trans (hcore _ _)).trans (accessChange_useTlb _ _ _ _ _ _)
      · exact .refl _

theorem accessChange_translate (s : State) (a va dir noUser) : AccessChange s (s.translate a va dir noUser).1 := by
  unfold State.translate
  dsimp only
  split_ifs
  iterate 4 exact .refl s
  unfold State.translatePage
  split
  · exact .refl s
  · exact accessChange_translateTable _ _ _ _ _

/-! ### Accesses of an engine -/

theorem engOut_then_ok {α β : Type} {x : EngOut α} {k : State → α → EngOut β} {t : State} {b : β} (h : x.then k = .ok t b) :
    ∃ s a, x = .ok s a ∧ k s a = .ok t b := by
  cases x with
  | ok s a => exact ⟨s, a, rfl, h⟩
  | fail | stall | wait => exact nomatch h

theorem accessChange_engReach {s t : State} {a : Agent} {va : BitVec 64} {n : Nat} {write : Bool} {x : Spot}
    (h : s.engReach a va n write = .ok t x) : AccessChange s t := by
  have htr := accessChange_translate s a va (if write then .wr else .rd) false
  unfold State.engReach at h
  split at h
  iterate 3 exact nomatch h
  next s1 loc pa sh he =>
    rw [he] at htr
    split at h
    · exact nomatch h
    · split at h
      iterate 2 exact nomatch h
      cases h
      exact htr.trans (accessChange_touchL2 _ _ _)

theorem accessChange_engRange {s t : State} {a : Agent} {write : Bool} {ps : List (Nat × Nat)} {acc xs : List Spot}
    (h : (s.engRange a write ps acc).1 = .ok t xs) : AccessChange s t := by
  induction ps generalizing s acc with
  | nil =>
    cases h
    exact .refl _
  | cons p ps ih =>
    unfold State.engRange at h
    split at h
    · rename_i he
      exact (accessChange_engReach he).trans (ih h)
    iterate 3 exact nomatch h

/-- The descriptor of a queue is where its engine's access has reached it. -/
theorem engDesc_ok {s t : State} {l w loc : Nat} {sel : QSel} (h : s.engDesc l w sel = .ok t loc) :
    ∃ x, s.engReach (s.engineAgent l w) (s.descVa l w sel) 64 true = .ok t x ∧ x.loc = loc := by
  obtain ⟨u, x, hx, hk⟩ := engOut_then_ok h
  cases hk
  exact ⟨x, hx, rfl⟩

theorem accessChange_engDesc {s t : State} {l w loc : Nat} {sel : QSel} (h : s.engDesc l w sel = .ok t loc) : AccessChange s t := by
  obtain ⟨_, hx, -⟩ := engDesc_ok h
  exact accessChange_engReach hx

theorem accessChange_engSlot {s t : State} {l w d pos slot : Nat} (h : s.engSlot l w d pos = .ok t slot) : AccessChange s t := by
  obtain ⟨u, x, hx, hk⟩ := engOut_then_ok h
  cases hk
  exact accessChange_engReach hx

theorem accessChange_groupTable {s t : State} {a : Agent} {e : Nat} {tbl : List Nat} (h : s.groupTable a e = .ok t tbl) : AccessChange s t := by
  unfold State.groupTable at h
  split at h
  · rename_i he
    split at h
    · exact nomatch h
    · cases h
      exact accessChange_engRange he
  iterate 3 exact nomatch h

theorem accessChange_entryCheck {s t : State} {l w eng e : Nat} {k : Option Nat} (h : s.entryCheck l w eng e = .ok t k) : AccessChange s t := by
  have htable {f : State → List Nat → Option Nat} (ht : (s.groupTable (s.engineAgent l w) e).then (fun s t => .ok s (f s t)) = .ok t k) :
      AccessChange s t := by
    obtain ⟨u, tbl, hu, hk⟩ := engOut_then_ok ht
    cases hk
    exact accessChange_groupTable hu
  unfold State.entryCheck at h
  dsimp only at h
  split at h
  · split at h
    · exact htable h
    · cases h
      exact .refl _
  · cases h
    exact .refl _
  · split at h
    · exact htable h
    · cases h
      exact .refl _

/-! ### Parts of the state written back -/

theorem core_of_cores {s t : State} (h : t.cores = s.cores) (c : Nat) : t.core c = s.core c := by rw [State.core, State.core, h]

/-- A test finds the element that has replaced the one it found. -/
theorem find?_map_replace_found {α : Type} {p : α → Bool} {k x : α} {l : List α} (h : l.find? p = some x) (hk : p k = true) :
    (l.map (fun x => if p x then k else x)).find? p = some k :=
  (find?_map_replace p k hk l).trans (if_pos (List.any_eq_true.mpr ⟨x, List.mem_of_find?_eq_some h, List.find?_some h⟩))

theorem core_id (s : State) (c : Nat) : (s.core c).id = c := by
  unfold State.core
  cases hf : s.cores.find? (·.id == c) with
  | none => rfl
  | some K => exact beq_iff_eq.mp (List.find?_some (p := fun K : Core => K.id == c) hf)

/-- Replacing elements that fail a test by one that fails it changes nothing that the test finds. -/
theorem find?_map_replace_other {α : Type} (p q : α → Bool) (k : α) (hk : p k = false) (hpq : ∀ x, q x = true → p x = false) (l : List α) :
    (l.map (fun x => if q x then k else x)).find? p = l.find? p := by
  induction l with
  | nil => rfl
  | cons x l ih =>
    rw [List.map_cons, List.find?_cons, List.find?_cons, ih]
    by_cases hx : q x = true
    · rw [if_pos hx, hk, hpq x hx]
    · rw [if_neg hx]

theorem core_setCore (s : State) (K : Core) (c : Nat) : (s.setCore K).core c = if c = K.id then K else s.core c := by
  unfold State.core State.setCore
  dsimp only
  by_cases hc : c = K.id
  · subst hc
    rw [if_pos rfl]
    split
    · rename_i hany
      rw [find?_map_replace (fun x => x.id == K.id) K (beq_self_eq_true _), if_pos hany]
      rfl
    · rw [List.find?_cons_of_pos (p := fun x : Core => x.id == K.id) (beq_self_eq_true _)]
      rfl
  · have hk : (K.id == c) = false := by simpa using Ne.symm hc
    rw [if_neg hc]
    split
    · rw [find?_map_replace_other (fun x => x.id == c) (fun x => x.id == K.id) K hk fun x hx => by rw [beq_iff_eq.mp hx, hk]]
    · rw [List.find?_cons_of_neg (p := fun x : Core => x.id == c) (by simp [hk])]

theorem wg?_setWg {s : State} {l w : Nat} {V k : Wg} (h : s.wg? l w = some V) (hk : k.launch = l ∧ k.id = w) : (s.setWg k).wg? l w = some k := by
  obtain ⟨rfl, rfl⟩ := hk
  exact find?_map_replace_found (p := fun x : Wg => x.launch == k.launch && x.id == k.id) h (by simp)

theorem wg?_names {s : State} {l w : Nat} {W : Wg} (h : s.wg? l w = some W) : W.launch = l ∧ W.id = w := by
  have hw := List.find?_some (p := fun x : Wg => x.launch == l && x.id == w) h
  simpa using hw

theorem wg?_of_wgs {s t : State} (h : t.wgs = s.wgs) (l w : Nat) : t.wg? l w = s.wg? l w := by
  rw [State.wg?, State.wg?, h]

theorem wg_of_wgs {s t : State} (h : t.wgs = s.wgs) (l w : Nat) : t.wg l w = s.wg l w := by rw [State.wg, State.wg, wg?_of_wgs h]

theorem queue?_sel {W : Wg} {sel : QSel} {Q : EQueue} (h : W.queue? sel = some Q) : Q.sel = sel :=
  beq_iff_eq.mp (List.find?_some (p := fun x : EQueue => x.sel == sel) h)

theorem queue?_setQueue {W : Wg} {sel : QSel} {Q k : EQueue} (h : W.queue? sel = some Q) (hk : k.sel = sel) :
    (W.setQueue k).queue? sel = some k := by
  subst hk
  exact find?_map_replace_found (p := fun x : EQueue => x.sel == k.sel) h (beq_self_eq_true _)

theorem wg?_setQueue {s : State} {l w : Nat} {W : Wg} (h : s.wg? l w = some W) (k : EQueue) :
    (s.setWg (W.setQueue k)).wg? l w = some (W.setQueue k) :=
  wg?_setWg h (wg?_names h :)

/-! ### What watchpoints may change -/

/-- The state differs in its cores and in the records without a thread alone, and the Reel of every core is as it was. -/
def StopChange (s t : State) : Prop :=
  ∃ cs rs, t = { s with cores := cs, nlRecords := rs } ∧ ∀ c, (t.core c).reel = (s.core c).reel

namespace StopChange

theorem refl (s : State) : StopChange s s := ⟨_, _, rfl, fun _ => rfl⟩

theorem trans {s t u : State} (h₁ : StopChange s t) (h₂ : StopChange t u) : StopChange s u := by
  obtain ⟨_, _, rfl, hs⟩ := h₁
  obtain ⟨_, _, rfl, ht⟩ := h₂
  exact ⟨_, _, rfl, fun c => (ht c).trans (hs c)⟩

theorem foldl {α : Type} {f : State → α → State} (hf : ∀ a x, StopChange a (f a x)) (l : List α) (s : State) : StopChange s (l.foldl f s) :=
  List.foldlRecOn (motive := StopChange s) l f (.refl s) fun a ha x _ => ha.trans (hf a x)

end StopChange

theorem stopChange_setCore {s : State} {K : Core} (h : K.reel = (s.core K.id).reel) : StopChange s (s.setCore K) := by
  have hreel (c : Nat) : ((s.setCore K).core c).reel = (s.core c).reel := by
    rw [core_setCore]
    split
    · rename_i hc
      rw [hc, h]
    · rfl
  exact ⟨_, _, rfl, hreel⟩

theorem stopChange_broadcastStop (s : State) (cores : List Nat) (tick : BitVec 64) (cause : Nat) :
    StopChange s (s.broadcastStop cores tick cause) := by
  refine .foldl (fun a c => stopChange_setCore ?_) cores s
  exact congrArg (fun c => (a.core c).reel) (core_id a c).symm

theorem stopChange_wpStops (s : State) (hits : List (Nat × Nat)) : StopChange s (s.wpStops hits) := by
  refine .foldl (fun a h => ?_) hits s
  dsimp only
  split
  · split
    · exact stopChange_broadcastStop _ _ _ _
    · exact .refl a
  · exact .refl a

theorem stopChange_engHit (s : State) (l w : Nat) (x : Spot) (rd : Bool) : StopChange s (s.engHit l w x rd) := by
  unfold State.engHit
  split
  · exact .refl s
  · refine StopChange.trans ?_ (stopChange_wpStops _ _)
    exact ⟨_, _, rfl, fun _ => rfl⟩

end Sys2Proof.Claims

/-!
Entries in flight: the sector that an entry writes, and the steps of the engines (04 R77 to R83; 03 R66, R67; O39).
-/

namespace Sys2Proof.Claims
open Sys2Proof Sys2Proof.Machine

/-! ### The entry that a queue has in flight -/

theorem flight?_names {s : State} {l w : Nat} {sel : QSel} {i : InFlight} (h : s.flight? l w sel = some i) :
    i.launch = l ∧ i.wg = w ∧ i.sel = sel := by
  simpa [and_assoc] using List.find?_some h

/-- A queue that has an entry in flight has the one that is written back. -/
theorem flight?_setFlight {s : State} {l w : Nat} {sel : QSel} {i k : InFlight} (h : s.flight? l w sel = some i)
    (hk : k.launch = l ∧ k.wg = w ∧ k.sel = sel) : (s.setFlight k).flight? l w sel = some k := by
  obtain ⟨rfl, rfl, rfl⟩ := hk
  exact find?_map_replace_found (p := fun i : InFlight => i.launch == k.launch && i.wg == k.wg && i.sel == k.sel) h (by simp)

theorem setFlight_setFlight (s : State) {i k : InFlight} (hl : k.launch = i.launch) (hw : k.wg = i.wg) (hsel : k.sel = i.sel) :
    (s.setFlight i).setFlight k = s.setFlight k := by
  simp only [State.setFlight, List.map_map, hl, hw, hsel]
  congr 2
  funext x
  dsimp only [Function.comp_apply]
  split <;> simp_all

theorem flight?_of_inflight {s t : State} (h : t.inflight = s.inflight) (l w : Nat) (sel : QSel) : t.flight? l w sel = s.flight? l w sel := by
  rw [State.flight?, State.flight?, h]

/-- An entry without a result ends with the cause that it is given. -/
theorem endFlight_eq {s : State} {l w : Nat} {sel : QSel} {i k : InFlight} (h : s.flight? l w sel = some k)
    (hi : i.launch = l ∧ i.wg = w ∧ i.sel = sel) (hk : k.result = none) (cause sub : Nat) :
    s.endFlight i cause sub = s.setFlight { k with result := some (cause, sub) } := by
  obtain ⟨rfl, rfl, rfl⟩ := hi
  unfold State.endFlight
  rw [h]
  dsimp only
  rw [hk]
  rfl

theorem setTodo_eq {s : State} {l w : Nat} {sel : QSel} {i k : InFlight} (h : s.flight? l w sel = some k)
    (hi : i.launch = l ∧ i.wg = w ∧ i.sel = sel) (xs : List (Spot × List Byte)) : s.setTodo i xs = s.setFlight { k with read := true, todo := xs } := by
  obtain ⟨rfl, rfl, rfl⟩ := hi
  rw [State.setTodo, h]

/-! ### Homes that a change leaves as they are -/

theorem homeByte_congr {s t : State} (hm : t.mem = s.mem) (hr : t.remote = s.remote) (k : Nat) : t.homeByte k = s.homeByte k := by
  rw [State.homeByte, State.homeByte, hm, hr]

theorem StopChange.homeByte {s t : State} (h : StopChange s t) (k : Nat) : t.homeByte k = s.homeByte k := by
  obtain ⟨_, _, rfl, -⟩ := h
  rfl

theorem StopChange.sealBad {s t : State} (h : StopChange s t) (k : Nat) : t.sealBad k = s.sealBad k := by
  obtain ⟨_, _, rfl, -⟩ := h
  rfl

theorem StopChange.inflight {s t : State} (h : StopChange s t) : t.inflight = s.inflight := by
  obtain ⟨_, _, rfl, -⟩ := h
  rfl

theorem homeByte_freshMarked (s : State) (die sec k : Nat) : ((s.freshSeal sec).markL2 die sec).homeByte k = s.homeByte k := by
  have hchange := homeChange_markL2 (s.freshSeal sec) die sec
  have hmem := State.markL2_mem (s.freshSeal sec) die sec
  obtain ⟨_, _, _, _, _, _, _, _, h⟩ := hchange
  refine homeByte_congr (hmem.trans (State.freshSeal_mem s sec)) ?_ k
  rw [h]
  rfl

/-! ### The sector of a destination -/

section
variable {s : State} {l w : Nat} {x : Spot} {b : List Byte}

theorem engPut_flight? {q : QueueRef} {i : InFlight} (h : s.flight? q.launch q.wg q.sel = some i) :
    (s.engPut l w x b).flight? q.launch q.wg q.sel = some i := by
  refine (flight?_of_inflight ?_ _ _ _).trans h
  unfold State.engPut
  rw [(stopChange_engHit _ _ _ _ _).inflight, (AccessChange.of_home (homeChange_markL2 _ _ _)).inflight]
  exact (accessChange_putBytes s _ _).inflight

theorem engPut_homeByte (h : Formed s) (hlen : b.length = 64) (hloc : x.loc < 2 ^ 52) (k : Nat) :
    (s.engPut l w x b).homeByte k
      = if sectorOf x.loc * 64 ≤ k ∧ k < sectorOf x.loc * 64 + 64 then b.getD (k - sectorOf x.loc * 64) 0 else s.homeByte k := by
  unfold State.engPut
  have hend : sectorOf x.loc * 64 + b.length ≤ 2 ^ 52 := by
    unfold sectorOf
    omega
  rw [(stopChange_engHit _ _ _ _ _).homeByte, homeByte_freshMarked, homeByte_putBytes h hend, hlen]

theorem engPut_sealBad : (s.engPut l w x b).sealBad x.loc = false := by
  unfold State.engPut
  rw [(stopChange_engHit _ _ _ _ _).sealBad, sealBad_markL2, ← sealBad_sector]
  exact Bool.eq_false_iff.mpr fun h => ((sealBad_freshSeal _ _ _).mp h).1 rfl

end

/-- The sectors that an entry writes now: all that are left, or the one named. -/
def dueSectors (i : InFlight) : Option Nat → List (Spot × List Byte)
  | some k => (i.todo[k]?).toList
  | none => i.todo

/-- What becomes of a queue's entry once its sectors have been written, or one of them could not be. -/
def sectorsEnd (l w : Nat) (sel : QSel) (i : InFlight) : EngOut Unit → State
  | .ok s1 _ => if ((s1.flight? l w sel).map (fun k => k.todo.isEmpty)).getD true then s1.endFlight i 0 0 else s1
  | .fail s1 t => s1.endFlight i t.cause t.sub
  | .stall s1 _ _ => s1
  | .wait s1 => s1

theorem writeTodo_eq {s : State} {l w : Nat} {sel : QSel} {i : InFlight} (h : s.flight? l w sel = some i) (hi : i.result = none) (part : Option Nat) :
    s.writeTodo l w sel part = sectorsEnd l w sel i (s.writeSectors i (dueSectors i part)) := by
  unfold State.writeTodo
  rw [h]
  dsimp only
  rw [hi]
  cases part <;> rfl

/-- An entry after the sector of one of its destinations has been written: it is done where no other is left. -/
def wroteSector (i : InFlight) (x : Spot × List Byte) : InFlight :=
  { i with todo := i.todo.erase x, result := if i.todo.erase x = [] then some (0, 0) else none }

section
variable {s : State} {q : QueueRef} {i : InFlight} {part : Option Nat} {x : Spot} {b : List Byte}
  (hf : s.flight? q.launch q.wg q.sel = some i) (hi : i.result = none)
include hf

theorem writeSectors_one (hreach : s.reachAs x.loc (if x.own then 2 else 1) = .yes) (hdrain : s.drains [x] = false) :
    s.writeSectors i [(x, b)] = .ok ((s.engPut q.launch q.wg x b).setFlight { i with todo := i.todo.erase (x, b) }) () := by
  obtain ⟨hl, hw, hsel⟩ := flight?_names hf
  rw [State.writeSectors]
  simp only [hreach, hdrain, hl, hw, hsel, engPut_flight? hf]
  rfl

include hi

theorem writeTodo_waits (hdue : dueSectors i part = [(x, b)]) (hreach : s.reachAs x.loc (if x.own then 2 else 1) = .yes) (hdrain : s.drains [x] = true) :
    s.writeTodo q.launch q.wg q.sel part = s := by
  rw [writeTodo_eq hf hi, hdue]
  simp [State.writeSectors, sectorsEnd, hreach, hdrain]

theorem writeTodo_fails {n : Nat} (hdue : dueSectors i part = [(x, b)]) (hreach : s.reachAs x.loc (if x.own then 2 else 1) = .failed n) :
    s.writeTodo q.launch q.wg q.sel part = s.setFlight { i with result := some (0x1e2, n) } := by
  rw [writeTodo_eq hf hi, hdue, State.writeSectors]
  dsimp only
  rw [hreach]
  exact endFlight_eq hf (flight?_names hf) hi _ _

/-- One sector is written, and the entry stands at what is left of it. -/
theorem writeTodo_writes (hdue : dueSectors i part = [(x, b)]) (hreach : s.reachAs x.loc (if x.own then 2 else 1) = .yes)
    (hdrain : s.drains [x] = false) :
    s.writeTodo q.launch q.wg q.sel part = (s.engPut q.launch q.wg x b).setFlight (wroteSector i (x, b)) := by
  have hnames := flight?_names hf
  have hkept := flight?_setFlight (k := { i with todo := i.todo.erase (x, b) })
    (engPut_flight? (l := q.launch) (w := q.wg) (x := x) (b := b) hf) hnames
  rw [writeTodo_eq hf hi, hdue, writeSectors_one hf hreach hdrain]
  simp only [sectorsEnd, hkept, Option.map_some, Option.getD_some, List.isEmpty_iff]
  by_cases hlast : i.todo.erase (x, b) = []
  · rw [if_pos hlast, endFlight_eq hkept hnames hi, wroteSector, if_pos hlast]
    exact setFlight_setFlight _ rfl rfl rfl
  · rw [if_neg hlast, wroteSector, if_neg hlast, hi]

theorem writeTodo_flight? (hdue : dueSectors i part = [(x, b)]) (hreach : s.reachAs x.loc (if x.own then 2 else 1) = .yes)
    (hdrain : s.drains [x] = false) :
    (s.writeTodo q.launch q.wg q.sel part).flight? q.launch q.wg q.sel = some (wroteSector i (x, b)) := by
  rw [writeTodo_writes hf hi hdue hreach hdrain]
  exact flight?_setFlight (engPut_flight? hf) (flight?_names hf :)

end

/-! ### Taking an entry -/

/-- The state after an engine has taken an entry: its bits, and the cause with which it ends at once. -/
def tookEntry (s : State) (q : QueueRef) (pos e : Nat) (r : Option (Nat × Nat)) : State :=
  { s with inflight := s.inflight ++ [{ launch := q.launch, wg := q.wg, sel := q.sel, pos := pos, bits := BitVec.ofNat 512 e, result := r }] }

theorem damagedEntry_taken (s : State) (q : QueueRef) (pos e core loc : Nat) :
    damagedEntry (tookEntry s q pos e (some ((s.sealTrap core loc loc 0).cause, (s.sealTrap core loc loc 0).sub))) q pos := by
  refine ⟨_, _, List.mem_append_right _ (List.mem_singleton.mpr rfl), rfl, rfl, rfl, rfl, rfl, ?_⟩
  unfold State.sealTrap
  dsimp only
  split
  · exact .inl rfl
  · exact .inr rfl

section
variable {q : QueueRef} {W : Wg} {Q : EQueue} {loc : Nat} {s s1 : State}
  (hwg : s.wg? q.launch q.wg = some W) (hq : W.queue? q.sel = some Q) (hactive : W.active = true) (hgood : Q.bad = false)
  (hidle : s.flight? q.launch q.wg q.sel = none) (hstall : s.engStalled q.launch q.wg q.sel = false)
  (hposted : newer Q.qtail (BitVec.ofNat 32 Q.count) = true) (hdesc : s.engDesc q.launch q.wg q.sel = .ok s1 loc)
include hwg hq hactive hgood hidle hstall hposted hdesc

theorem engineTakeEntry_descSealed (hseal : s1.sealBad loc = true) : exec (.engineTakeEntry q) s = .next
    (tookEntry s1 q Q.count 0 (some ((s1.sealTrap W.core loc loc 0).cause, (s1.sealTrap W.core loc loc 0).sub))) := by
  refine congrArg Host.Outcome.next ?_
  simp [State.takeEntry, tookEntry, hwg, hq, hactive, hgood, hidle, hstall, hposted, hdesc, hseal]

variable {slot : Nat} {s2 : State} (hseal : s1.sealBad loc = false) (hslot : s1.engSlot q.launch q.wg (s1.homeNat loc 64) Q.count = .ok s2 slot)
include hseal hslot

theorem engineTakeEntry_slotSealed (hbad : s2.sealBad slot = true) : exec (.engineTakeEntry q) s = .next
    (tookEntry s2 q Q.count (s2.homeNat slot 64) (some ((s2.sealTrap W.core slot slot 0).cause, (s2.sealTrap W.core slot slot 0).sub))) := by
  refine congrArg Host.Outcome.next ?_
  simp [State.takeEntry, tookEntry, hwg, hq, hactive, hgood, hidle, hstall, hposted, hdesc, hseal, hslot, hbad]

theorem engineTakeEntry_checked {k : Option Nat} {s3 : State} (hsound : s2.sealBad slot = false) (hstamp : entStamp (s2.homeNat slot 64) = Q.count % 2 ^ 32)
    (hcheck : s2.entryCheck q.launch q.wg q.sel.eng (s2.homeNat slot 64) = .ok s3 k) :
    exec (.engineTakeEntry q) s = .next (tookEntry s3 q Q.count (s2.homeNat slot 64) (k.map (fun x => (0x04a, x)))) := by
  refine congrArg Host.Outcome.next ?_
  simp [State.takeEntry, tookEntry, hwg, hq, hactive, hgood, hidle, hstall, hposted, hdesc, hseal, hslot, hsound, hstamp, hcheck]

end

/-! ### Copies and collectives -/

theorem flightNow_names {s : State} {q : QueueRef} {i : InFlight} {kind : Nat} (h : flightNow s q i kind) :
    i.launch = q.launch ∧ i.wg = q.wg ∧ i.sel = q.sel := flight?_names h.1

/-- What an entry that has been read has to write, where its destination is one sector: the sector's old bytes around its own. -/
def sectorBytes (s : State) (x : Spot) (bs : List Byte) : List Byte :=
  let old := s.homeBytes (sectorOf x.loc * 64) 64
  old.take (x.loc % 64) ++ bs.take x.n ++ old.drop (x.loc % 64 + x.n)

theorem spotBytes_one (s : State) (x : Spot) (bs : List Byte) : s.spotBytes [x] bs = [(x, sectorBytes s x bs)] := rfl

section
variable {s : State} {x : Spot} {bs : List Byte} (hlen : x.n ≤ bs.length)
include hlen

theorem sectorBytes_length (hone : x.loc % 64 + x.n ≤ 64) : (sectorBytes s x bs).length = 64 := by
  simp [sectorBytes]
  omega

theorem sectorBytes_own {k : Nat} (hk : k < x.n) : (sectorBytes s x bs).getD (x.loc % 64 + k) 0 = bs.getD k 0 := by
  have hhead : ((s.homeBytes (sectorOf x.loc * 64) 64).take (x.loc % 64)).length = x.loc % 64 := by simp; omega
  rw [sectorBytes, List.append_assoc, List.getD_append_right _ _ _ _ (by omega), hhead, Nat.add_sub_cancel_left,
    List.getD_append _ _ _ _ (by simp; omega)]
  simp [List.getD_eq_getElem?_getD, hk]

theorem sectorBytes_old {k : Nat} (hk : k < 64) (hout : ¬(x.loc % 64 ≤ k ∧ k < x.loc % 64 + x.n)) :
    (sectorBytes s x bs).getD k 0 = s.homeByte (sectorOf x.loc * 64 + k) := by
  have hold : (s.homeBytes (sectorOf x.loc * 64) 64)[k]? = some (s.homeByte (sectorOf x.loc * 64 + k)) := by
    simp [State.homeBytes, hk]
  have hhead : ((s.homeBytes (sectorOf x.loc * 64) 64).take (x.loc % 64)).length = x.loc % 64 := by simp; omega
  have hown : (bs.take x.n).length = x.n := by simp; omega
  rw [List.getD_eq_getElem?_getD, sectorBytes]
  by_cases hbefore : k < x.loc % 64
  · rw [List.append_assoc, List.getElem?_append_left (by omega), List.getElem?_take_of_lt hbefore, hold]
    rfl
  · rw [List.getElem?_append_right (by rw [List.length_append]; omega), List.getElem?_drop, List.length_append, hhead, hown,
      show x.loc % 64 + x.n + (k - (x.loc % 64 + x.n)) = k by omega, hold]
    rfl

end

/-- The sector of a destination that can be written is written as one action, around the bytes that the entry does not cover. -/
theorem sectorDone_of_ready {s : State} {q : QueueRef} {i j : InFlight} {x : Spot} {bs : List Byte} (h : spotReady s q j x bs)
    (hi : i.launch = q.launch ∧ i.wg = q.wg ∧ i.sel = q.sel) :
    sectorDone s ((s.setTodo i (s.spotBytes [x] bs)).writeTodo q.launch q.wg q.sel none) q j x bs := by
  obtain ⟨hf, hres, hdrain, -, hreach, hwf, hlen, hsome, hone, hend⟩ := h
  have hloc : x.loc < 2 ^ 52 := by omega
  have hsector : sectorOf x.loc * 64 + x.loc % 64 = x.loc := Nat.div_add_mod' x.loc 64
  rw [setTodo_eq hf hi, spotBytes_one]
  have hnow := flight?_setFlight (k := { j with read := true, todo := [(x, sectorBytes s x bs)] }) hf (flight?_names hf :)
  have hbyte := engPut_homeByte (l := q.launch) (w := q.wg) (s := s.setFlight { j with read := true, todo := [(x, sectorBytes s x bs)] }) hwf
    (sectorBytes_length (s := s) hlen hone) hloc
  refine ⟨(writeTodo_flight? hnow hres rfl hreach hdrain).trans (by simp [wroteSector]), ?_⟩
  rw [writeTodo_writes hnow hres rfl hreach hdrain]
  refine ⟨fun k hk => ?_, fun k hk => ?_, engPut_sealBad⟩
  · refine (hbyte _).trans ?_
    rw [if_pos (by omega), show x.loc + k - sectorOf x.loc * 64 = x.loc % 64 + k by omega, sectorBytes_own hlen hk]
  · refine (hbyte k).trans ?_
    split
    · rw [sectorBytes_old hlen (by omega) (by omega)]
      congr 1
      omega
    · rfl

theorem copyEntry_done {s s1 s2 : State} {q : QueueRef} {i j : InFlight} {x : Spot} {bs : List Byte} (hnow : flightNow s q i 0)
    (hissue : s.engIssue i (entDst i.bits.toNat) (entLen i.bits.toNat) = .ok s1 [x])
    (hread : s1.engRead i (entSrc i.bits.toNat) (entLen i.bits.toNat) = .ok s2 bs) (hready : spotReady s2 q j x bs) :
    ∃ t, exec (.copyEntry ⟨q, none⟩) s = .next t ∧ sectorDone s2 t q j x bs := by
  obtain ⟨hf, hres, hunread, hkind, hstall⟩ := id hnow
  obtain ⟨hl, hw, hsel⟩ := flightNow_names hnow
  obtain ⟨-, -, -, hdest, -⟩ := id hready
  have hcopy : s.copyRead i = .ok s2 (s2.spotBytes [x] bs) := by
    simp [State.copyRead, EngOut.then, hissue, hread, hl, hw, hdest]
  refine ⟨_, congrArg Host.Outcome.next ?_, sectorDone_of_ready hready ⟨hl, hw, hsel⟩⟩
  simp [State.copyEntry, hf, hres, hunread, hkind, hstall, hcopy]

/-- The state once the free contributions to a collective have been drawn. -/
def sharesDrawn (s : State) : State := { s with freeCount := s.freeCount + 2 ^ 30 }

theorem collReady_ok {s : State} {i : InFlight} {ds : List Spot} (h : s.engDest (s.wg i.launch i.wg).core ds = none) (bs : List Byte) :
    s.collReady bs (i, ds) = s.setTodo i (s.spotBytes ds bs) := by
  rw [State.collReady, h]

theorem collEntry_done {s s1 s2 s3 : State} {q : QueueRef} {i j : InFlight} {d : Nat} {x : Spot} {bs : List Byte} {tbl : List Nat}
    (hnow : flightNow s q i 1) (hmembers : s.collMembers i.bits.toNat = some [(d, i)]) (hlogg : entLogg i.bits.toNat = 0)
    (hop : entOp i.bits.toNat ≠ 3) (hissue : s.engIssue i (entDst i.bits.toNat) (entLen i.bits.toNat) = .ok s1 [x])
    (hread : s1.engRead i (entSrc i.bits.toNat) (entLen i.bits.toNat) = .ok s2 bs)
    (htable : s2.groupTable (s2.engineAgent q.launch q.wg) i.bits.toNat = .ok s3 tbl)
    (hready : spotReady s3 q j x (s3.collResult i.bits.toNat (tbl.idxOf s3.endpoint) [(d, bs)])) :
    ∃ t, exec (.collEntry ⟨q, none⟩) s = .next t ∧ sectorDone s3 t q j x (s3.collResult i.bits.toNat (tbl.idxOf s3.endpoint) [(d, bs)]) := by
  obtain ⟨hf, hres, hunread, hkind, hstall⟩ := id hnow
  obtain ⟨hl, hw, hsel⟩ := flightNow_names hnow
  obtain ⟨-, -, -, hdest, -⟩ := id hready
  generalize hresult : s3.collResult i.bits.toNat (tbl.idxOf s3.endpoint) [(d, bs)] = result at hready ⊢
  have hlater : spotReady (sharesDrawn s3) q j x result := hready
  refine ⟨_, congrArg Host.Outcome.next ?_, sectorDone_of_ready (s := sharesDrawn s3) hlater ⟨hl, hw, hsel⟩⟩
  rw [← collReady_ok (s := sharesDrawn s3) (by rw [hl, hw]; exact hdest)]
  simp [-Nat.reducePow, sharesDrawn, State.collEntry, State.collIssue, State.collSources, State.collStop, hf, hres, hunread, hkind, hstall, hmembers,
    hlogg, hop, hissue, hread, htable, hresult, hl, hw, hsel]

theorem collEntry_waits {s : State} {q : QueueRef} {i : InFlight} (hnow : flightNow s q i 1) (hmembers : s.collMembers i.bits.toNat = none)
    (part : Option Nat) : exec (.collEntry ⟨q, part⟩) s = .next s := by
  obtain ⟨hf, hres, hunread, hkind, hstall⟩ := hnow
  refine congrArg Host.Outcome.next ?_
  simp [State.collEntry, hf, hres, hunread, hkind, hstall, hmembers]

theorem nopEntry_done {s : State} {q : QueueRef} {i : InFlight} (hnow : flightNow s q i 2) :
    exec (.nopEntry q) s = .next (s.setFlight { i with result := some (0, 0) }) := by
  obtain ⟨hf, hres, -, hkind, -⟩ := id hnow
  refine congrArg Host.Outcome.next ?_
  simp [State.nopEntry, hf, hres, hkind, endFlight_eq hf (flightNow_names hnow) hres]

/-! ### One sector of an entry that has been read -/

section
variable {q : QueueRef} {i : InFlight} {k : Nat} {x : Spot} {b : List Byte} {s : State}
  (hf : s.flight? q.launch q.wg q.sel = some i) (hres : i.result = none) (hread : i.read = true) (hkind : entKind i.bits.toNat < 2)
  (hstall : s.engStalled q.launch q.wg q.sel = false) (hdue : i.todo[k]? = some (x, b))
include hf hres hread hkind hstall

theorem partEntry_eq (k : Nat) : exec (if entKind i.bits.toNat = 0 then .copyEntry ⟨q, some k⟩ else .collEntry ⟨q, some k⟩) s
    = .next (s.writeTodo q.launch q.wg q.sel (some k)) := by
  split
  · rename_i hcopy
    refine congrArg Host.Outcome.next ?_
    simp [State.copyEntry, hf, hres, hread, hcopy, hstall]
  · have hcoll : entKind i.bits.toNat = 1 := by omega
    refine congrArg Host.Outcome.next ?_
    simp [State.collEntry, hf, hres, hread, hcoll, hstall]

include hdue

theorem partEntry_waits (hreach : s.reachAs x.loc (if x.own then 2 else 1) = .yes) (hdrain : s.drains [x] = true) :
    exec (if entKind i.bits.toNat = 0 then .copyEntry ⟨q, some k⟩ else .collEntry ⟨q, some k⟩) s = .next s := by
  rw [partEntry_eq hf hres hread hkind hstall, writeTodo_waits hf hres (by rw [dueSectors, hdue]; rfl) hreach hdrain]

theorem partEntry_writes (hreach : s.reachAs x.loc (if x.own then 2 else 1) = .yes) (hdrain : s.drains [x] = false) (hwf : Memory.wf s.mem = true)
    (hlen : b.length = 64) (hloc : x.loc < 2 ^ 52) :
    ∃ t, exec (if entKind i.bits.toNat = 0 then .copyEntry ⟨q, some k⟩ else .collEntry ⟨q, some k⟩) s = .next t
      ∧ t.flight? q.launch q.wg q.sel = some (wroteSector i (x, b))
      ∧ (∀ n, n < 64 → t.homeByte (sectorOf x.loc * 64 + n) = b.getD n 0) ∧ outside s t (sectorOf x.loc * 64) 64 ∧ t.sealBad x.loc = false := by
  have hbyte := engPut_homeByte (l := q.launch) (w := q.wg) hwf hlen hloc
  have hpart : dueSectors i (some k) = [(x, b)] := by rw [dueSectors, hdue]; rfl
  refine ⟨_, partEntry_eq hf hres hread hkind hstall k, writeTodo_flight? hf hres hpart hreach hdrain, ?_⟩
  rw [writeTodo_writes hf hres hpart hreach hdrain]
  refine ⟨fun n hn => (hbyte _).trans ?_, fun n hn => (hbyte n).trans (if_neg hn), engPut_sealBad⟩
  rw [if_pos (by omega), Nat.add_sub_cancel_left]

theorem partEntry_fails {n : Nat} (hreach : s.reachAs x.loc (if x.own then 2 else 1) = .failed n) :
    exec (if entKind i.bits.toNat = 0 then .copyEntry ⟨q, some k⟩ else .collEntry ⟨q, some k⟩) s
      = .next (s.setFlight { i with result := some (0x1e2, n) }) := by
  rw [partEntry_eq hf hres hread hkind hstall, writeTodo_fails hf hres (by rw [dueSectors, hdue]; rfl) hreach]

end

/-! ### Completion -/

/-- What a completion does once its words have been written: the sequence register moves, the entry leaves, and its tiles move. -/
def entryCompleted (s : State) (q : QueueRef) (i : InFlight) (Q : EQueue) (good : Bool) : State :=
  let s2 := s.setWg ((s.wg q.launch q.wg).setQueue { Q with count := i.pos + 1, scope := entScope i.bits.toNat })
  let s3 := { s2 with
    inflight := s2.inflight.filter (fun k => !(k.launch == q.launch && k.wg == q.wg && k.sel == q.sel))
    snaps := s2.snaps.filter (fun k => !(k.launch == q.launch && k.wg == q.wg && k.sel == q.sel && k.pos == i.pos)) }
  if q.sel.eng = 0 then s3.tilesAfter q.launch q.wg (seqOf q.sel (i.pos + 1)) good else s3

theorem entryCompleted_keeps (s : State) (q : QueueRef) (i : InFlight) (Q : EQueue) (good : Bool) :
    (entryCompleted s q i Q good).flight? q.launch q.wg q.sel = none
      ∧ (entryCompleted s q i Q good).wgs = (s.setWg ((s.wg q.launch q.wg).setQueue { Q with count := i.pos + 1, scope := entScope i.bits.toNat })).wgs := by
  have hgone (l : List InFlight) : (l.filter (fun k => !(k.launch == q.launch && k.wg == q.wg && k.sel == q.sel))).find?
      (fun k => k.launch == q.launch && k.wg == q.wg && k.sel == q.sel) = none :=
    List.find?_eq_none.mpr fun k hk => by simpa only [Bool.not_eq_true, Bool.not_eq_true'] using (List.mem_filter.mp hk).2
  unfold entryCompleted
  dsimp only
  split <;> exact ⟨hgone _, rfl⟩

section
variable {s : State} {q : QueueRef} {i : InFlight} {W : Wg} {Q : EQueue} {cause sub : Nat}
  (hf : s.flight? q.launch q.wg q.sel = some i) (hres : i.result = some (cause, sub)) (hwg : s.wg? q.launch q.wg = some W)
  (hq : W.queue? q.sel = some Q)
include hf hres hwg hq

/-- The words of a completion are accesses of the engine. -/
theorem completeEntry_eq : ∃ a, AccessChange s a ∧ s.completeEntry q.launch q.wg q.sel = entryCompleted a q i Q (cause == 0) := by
  unfold State.completeEntry
  rw [hf, hwg]
  dsimp only
  rw [hres, hq]
  refine ⟨_, ?_, rfl⟩
  split
  · rename_i hdesc
    refine (accessChange_engDesc hdesc).trans (.trans (.trans ?_ (.ite (accessChange_writeHome _ _ _ _) (.refl _))) (accessChange_writeHome _ _ _ _))
    split
    · rename_i hslot
      exact (accessChange_engSlot hslot).trans (accessChange_writeHome _ _ _ _)
    · exact .refl _
  · exact .refl s

/-- The entry has left its queue, whose register stands at its position and has its scope. -/
theorem entryCompletion_done (hfree : s.wordsHeld q.launch q.wg q.sel = false) :
    ∃ t V, exec (.entryCompletion q) s = .next t ∧ t.flight? q.launch q.wg q.sel = none ∧ t.wg? q.launch q.wg = some V
      ∧ V.queue? q.sel = some { Q with count := i.pos + 1, scope := entScope i.bits.toNat } := by
  obtain ⟨a, ha, heq⟩ := completeEntry_eq hf hres hwg hq
  have hexec : exec (.entryCompletion q) s = .next (entryCompleted a q i Q (cause == 0)) := by
    refine congrArg Host.Outcome.next ?_
    rw [State.completion, hfree, ← heq]
    rfl
  have hawg : a.wg? q.launch q.wg = some W := (wg?_of_wgs ha.wgs _ _).trans hwg
  obtain ⟨hflight, hwgs⟩ := entryCompleted_keeps a q i Q (cause == 0)
  refine ⟨_, W.setQueue { Q with count := i.pos + 1, scope := entScope i.bits.toNat }, hexec, hflight, ?_, queue?_setQueue hq (queue?_sel hq :)⟩
  rw [wg?_of_wgs hwgs, State.wg, hawg, Option.getD_some]
  exact wg?_setQueue hawg _

end

/-- Settles O39: an entry is read off `takeEntry`; what it writes of a sector is `engPut` (`writeTodo_writes`), whose bytes are a write at a home;
its completion changes nothing of the workgroups but the register (`completeEntry_eq`). -/
theorem engineEntries : Obligations.EngineEntries := by
  unfold Obligations.EngineEntries
  refine ⟨fun q W Q loc s s1 hwg hq hactive hgood hidle hstall hposted hdesc => ⟨fun hseal => ?_, fun slot s2 hseal hslot => ⟨fun hbad => ?_, ?_⟩⟩,
    fun q i j x bs s s1 s2 hnow hissue hread hready => copyEntry_done hnow hissue hread hready,
    fun q i j d x bs tbl s s1 s2 s3 hnow hmembers hlogg hop hissue hread htable hready =>
      collEntry_done hnow hmembers hlogg hop hissue hread htable hready,
    fun q i s hnow hmembers part => collEntry_waits hnow hmembers part,
    fun q i k x b s hf hres hread hkind hstall hdue => ⟨fun hreach hdrain => partEntry_waits hf hres hread hkind hstall hdue hreach hdrain,
      fun hreach hdrain hwf hlen hloc => partEntry_writes hf hres hread hkind hstall hdue hreach hdrain hwf hlen hloc,
      fun n hreach => ⟨_, partEntry_fails hf hres hread hkind hstall hdue hreach, flight?_setFlight hf (flight?_names hf :), rfl, rfl⟩⟩,
    fun q i s hnow => ⟨_, nopEntry_done hnow, flight?_setFlight hnow.1 (flightNow_names hnow :), rfl⟩,
    fun q i W Q cause sub s hf hres hwg hq => ⟨fun hheld => ?_, fun hfree => entryCompletion_done hf hres hwg hq hfree⟩⟩
  · exact ⟨_, engineTakeEntry_descSealed hwg hq hactive hgood hidle hstall hposted hdesc hseal, damagedEntry_taken _ _ _ _ _ _⟩
  · exact ⟨_, engineTakeEntry_slotSealed hwg hq hactive hgood hidle hstall hposted hdesc hseal hslot hbad, damagedEntry_taken _ _ _ _ _ _⟩
  · intro k s3 hsound hstamp hcheck
    exact ⟨_, _, engineTakeEntry_checked hwg hq hactive hgood hidle hstall hposted hdesc hseal hslot hsound hstamp hcheck,
      List.mem_append_right _ (List.mem_singleton.mpr rfl), rfl, rfl, rfl, rfl, rfl, rfl⟩
  · refine congrArg Host.Outcome.next ?_
    rw [State.completion, hheld]
    rfl

end Sys2Proof.Claims

/-!
The nodes of a Reel: what a cursor does at each of them (04 R86 to R90; O40).
-/

namespace Sys2Proof.Claims
open Sys2Proof Sys2Proof.Machine

/-! ### Workgroups and Reels that a step keeps -/

/-- The workgroups and the Reel of every core are as they were. -/
structure ReelsKept (s t : State) : Prop where
  wgs : t.wgs = s.wgs
  reel : ∀ c, (t.core c).reel = (s.core c).reel

theorem ReelsKept.trans {s t u : State} (h₁ : ReelsKept s t) (h₂ : ReelsKept t u) : ReelsKept s u :=
  ⟨h₂.wgs.trans h₁.wgs, fun c => (h₂.reel c).trans (h₁.reel c)⟩

theorem ReelsKept.cursor {s t : State} (h : ReelsKept s t) {core c : Nat} {k : Cursor} (hk : (s.core core).reel.cursor? c = some k) :
    (t.core core).reel.cursor? c = some k := by rw [h.reel, hk]

theorem AccessChange.reelsKept {s t : State} (h : AccessChange s t) : ReelsKept s t :=
  ⟨h.wgs, fun c => by rw [core_of_cores h.cores]⟩

theorem StopChange.reelsKept {s t : State} (h : StopChange s t) : ReelsKept s t := by
  obtain ⟨_, _, rfl, hreel⟩ := h
  exact ⟨rfl, hreel⟩

theorem reelsKept_reelRead {s t : State} {o : WgRef} {va : BitVec 64} {n v : Nat} (h : s.reelRead o va n = .ok t v) : ReelsKept s t := by
  obtain ⟨u, x, hreach, hk⟩ := engOut_then_ok h
  refine (accessChange_engReach hreach).reelsKept.trans ?_
  split_ifs at hk
  cases hk
  exact (stopChange_engHit _ _ _ _ _).reelsKept

/-! ### A cursor of a Reel -/

theorem reel_setCore (s : State) (core : Nat) (R : Reel) : ((s.setCore { s.core core with reel := R }).core core).reel = R := by
  rw [core_setCore, if_pos (core_id s core).symm]

theorem cursor?_updCursor {s : State} {core c : Nat} {k : Cursor} (h : (s.core core).reel.cursor? c = some k) (f : Cursor → Cursor)
    (hf : ∀ k, (f k).id = k.id ∧ (f k).stopped = k.stopped) : ((s.updCursor core c f).core core).reel.cursor? c = some (f k) := by
  have hsame : ((fun k : Cursor => k.id == c && !k.stopped) ∘ fun k => if k.id == c && !k.stopped then f k else k)
      = fun k : Cursor => k.id == c && !k.stopped := by
    funext k
    obtain ⟨hid, hstop⟩ := hf k
    rw [Function.comp_apply]
    split <;> simp [*]
  have hfind : (s.core core).reel.cursors.find? (fun k => k.id == c && !k.stopped) = some k := h
  unfold State.updCursor
  dsimp only
  rw [reel_setCore, Reel.cursor?, List.find?_map, hsame, hfind]
  have hk := List.find?_some (p := fun k : Cursor => k.id == c && !k.stopped) hfind
  exact congrArg some (if_pos hk)

theorem moveCursor_eq {s : State} {core c : Nat} {k : Cursor} (h : (s.core core).reel.cursor? c = some k) (hlast : k.last = false) (next : Nat) :
    s.moveCursor core c next = s.updCursor core c (fun k => { k with node := next, inWait := false }) := by
  unfold State.moveCursor
  rw [h]
  dsimp only
  rw [hlast]
  rfl

/-- A cursor whose owner has not exited goes on at the node that it is moved to. -/
theorem cursorAt_moveCursor {s : State} {core c : Nat} {k : Cursor} (h : (s.core core).reel.cursor? c = some k) (hlast : k.last = false) (next : Nat) :
    cursorAt (s.moveCursor core c next) core c next k.counts := by
  rw [moveCursor_eq h hlast]
  exact ⟨_, cursor?_updCursor h _ fun _ => ⟨rfl, rfl⟩, rfl, rfl, rfl⟩

theorem cursor?_settleReel {s : State} {core c : Nat} (h : (s.core core).reel.cursor? c = none) :
    ((s.settleReel core).core core).reel.cursor? c = none := by
  unfold State.settleReel
  dsimp only
  split
  · split
    · rw [reel_setCore]
      rfl
    · exact h
  · exact h

theorem cursor?_endCursor (s : State) (core c : Nat) : ((s.endCursor core c).core core).reel.cursor? c = none := by
  refine cursor?_settleReel ?_
  rw [reel_setCore]
  refine List.find?_eq_none.mpr fun k hk => ?_
  have hkept := (List.mem_filter.mp hk).2
  rw [Bool.or_eq_true, bne_iff_ne] at hkept
  simp only [Bool.and_eq_true, beq_iff_eq, Bool.not_eq_true', not_and, Bool.not_eq_false]
  exact fun hid => hkept.resolve_left (not_not_intro hid)

/-- A node that a cursor can execute is executed in the state that its read has left. -/
theorem reelNode_at {s s1 : State} {core c : Nat} {o : WgRef} {k : Cursor} {n kind : Nat} (h : nodeNow s s1 core c o k n kind)
    (f : State → WgRef → Cursor → Nat → State) : s.reelNode core c kind f = f s1 o k n := by
  obtain ⟨hk, ho, hactive, hstall, -, hread, hgood, hkind⟩ := h
  unfold State.reelNode
  dsimp only
  rw [hk, ho]
  dsimp only
  rw [hactive, hstall, hread]
  dsimp only [State.reelThen]
  rw [hgood, hkind]
  simp

theorem nodeNow_cursor {s s1 : State} {core c : Nat} {o : WgRef} {k : Cursor} {n kind : Nat} (h : nodeNow s s1 core c o k n kind) :
    (s1.core core).reel.cursor? c = some k ∧ k.last = false := by
  obtain ⟨hk, -, -, -, hlast, hread, -, -⟩ := h
  exact ⟨(reelsKept_reelRead hread).cursor hk, hlast⟩

/-! ### Nodes that read no template -/

section
variable {s s1 : State} {core c : Nat} {o : WgRef} {k : Cursor} {n : Nat}

theorem reelEnd_ends (h : nodeNow s s1 core c o k n 0) :
    ∃ t, exec (.reelEnd core c) s = .next t ∧ (t.core core).reel.cursor? c = none ∧ t.mem = s1.mem :=
  ⟨_, congrArg Host.Outcome.next (reelNode_at h _), cursor?_endCursor _ _ _, State.endCursor_mem _ _ _⟩

theorem reelWaitseq_waits (h : nodeNow s s1 core c o k n 3) {m : Nat} (hm : s1.countOf o.launch o.wg (seqSel (BitVec.ofNat 64 (nodeArg n))) = some m)
    (hbelow : m < seqCount (BitVec.ofNat 64 (nodeArg n))) :
    ∃ t k', exec (.reelWaitseq core c) s = .next t ∧ (t.core core).reel.cursor? c = some k' ∧ k'.node = k.node ∧ k'.inWait = true := by
  obtain ⟨hk, hlast⟩ := nodeNow_cursor h
  refine ⟨s1.updCursor core c (fun x => { x with inWait := true }), { k with inWait := true }, congrArg Host.Outcome.next ?_,
    cursor?_updCursor hk _ fun _ => ⟨rfl, rfl⟩, rfl, rfl⟩
  simp [State.reelWait, reelNode_at h, hlast, hm, hbelow]

theorem reelWaitseq_passes (h : nodeNow s s1 core c o k n 3) {m : Nat} (hm : s1.countOf o.launch o.wg (seqSel (BitVec.ofNat 64 (nodeArg n))) = some m)
    {s2 : State} {loc : Nat} (hreached : seqCount (BitVec.ofNat 64 (nodeArg n)) ≤ m) (heng : (seqSel (BitVec.ofNat 64 (nodeArg n))).eng ≠ 2)
    (hdesc : (s1.updCursor core c (fun x => { x with inWait := true })).engDesc o.launch o.wg (seqSel (BitVec.ofNat 64 (nodeArg n))) = .ok s2 loc)
    (herr : errMeets (bitsAt (s2.homeNat loc 64) 255 192) (BitVec.ofNat 64 (nodeArg n)) = false) :
    ∃ t, exec (.reelWaitseq core c) s = .next t ∧ cursorAt t core c (nodeNext n) k.counts := by
  obtain ⟨hk, hlast⟩ := nodeNow_cursor h
  have hwait := cursor?_updCursor hk (fun x => { x with inWait := true }) fun _ => ⟨rfl, rfl⟩
  refine ⟨s2.moveCursor core c (nodeNext n), congrArg Host.Outcome.next ?_,
    cursorAt_moveCursor ((accessChange_engDesc hdesc).reelsKept.cursor hwait) hlast _⟩
  simp [State.reelWait, State.reelThen, reelNode_at h, hlast, hm, Nat.not_lt.mpr hreached, heng, hdesc, herr]

theorem wake_cores (s : State) (l w e : Nat) : (s.wake l w e).cores = s.cores := by
  unfold State.wake
  dsimp only
  split <;> rfl

theorem reelWake_wakes (h : nodeNow s s1 core c o k n 4) :
    ∃ t, exec (.reelWake core c) s = .next t ∧ cursorAt t core c (nodeNext n) k.counts
      ∧ t.teams = (s1.wake o.launch o.wg (nodeArg n % 64)).teams ∧ t.wgs = (s1.wake o.launch o.wg (nodeArg n % 64)).wgs := by
  obtain ⟨hk, hlast⟩ := nodeNow_cursor h
  have hwoken : ((s1.wake o.launch o.wg (nodeArg n % 64)).core core).reel.cursor? c = some k := by rw [core_of_cores (wake_cores _ _ _ _), hk]
  refine ⟨_, congrArg Host.Outcome.next (reelNode_at h _), cursorAt_moveCursor hwoken hlast _, ?_⟩
  rw [moveCursor_eq hwoken hlast]
  exact ⟨rfl, rfl⟩

/-! ### Nodes that read a word -/

section
variable {s2 : State} {v : Nat} (hread : s1.reelRead o (BitVec.ofNat 64 (nodeAddr n)) 8 = .ok s2 v)
include hread

theorem reelCond_moves (h : nodeNow s s1 core c o k n 5) :
    ∃ t, exec (.reelCond core c) s = .next t ∧ cursorAt t core c (if v = 0 then nodeNext n else nodeAlt n) k.counts := by
  obtain ⟨hk, hlast⟩ := nodeNow_cursor h
  refine ⟨s2.moveCursor core c (if v = 0 then nodeNext n else nodeAlt n), congrArg Host.Outcome.next ?_,
    cursorAt_moveCursor ((reelsKept_reelRead hread).cursor hk) hlast _⟩
  rw [reelNode_at h, hread]
  simp only [State.reelThen, ite_not]

/-- The count of a node that a WHILE counts is replaced, and the cursor goes on. -/
theorem cursorAt_counted (hk : (s1.core core).reel.cursor? c = some k) (hlast : k.last = false) (cnt next : Nat) :
    cursorAt ((s2.updCursor core c (·.setCount k.node cnt)).moveCursor core c next) core c next
      (k.counts.filter (·.1 != k.node) ++ if cnt = 0 then [] else [(k.node, cnt)]) :=
  cursorAt_moveCursor (cursor?_updCursor ((reelsKept_reelRead hread).cursor hk) (·.setCount k.node cnt) fun _ => ⟨rfl, rfl⟩) hlast next

theorem reelWhile_again (h : nodeNow s s1 core c o k n 6) (hv : v ≠ 0) (hlimit : nodeLimit n = 0 ∨ k.countAt k.node < nodeLimit n) :
    ∃ t, exec (.reelWhile core c) s = .next t
      ∧ cursorAt t core c (nodeAlt n) (k.counts.filter (·.1 != k.node) ++ [(k.node, k.countAt k.node + 1)]) := by
  obtain ⟨hk, hlast⟩ := nodeNow_cursor h
  refine ⟨_, congrArg Host.Outcome.next ?_, cursorAt_counted hread hk hlast (k.countAt k.node + 1) (nodeAlt n)⟩
  rw [reelNode_at h]
  dsimp only
  rw [hread]
  exact if_pos ⟨hv, hlimit⟩

theorem reelWhile_ends (h : nodeNow s s1 core c o k n 6) (hend : v = 0 ∨ (nodeLimit n ≠ 0 ∧ nodeLimit n ≤ k.countAt k.node)) :
    ∃ t, exec (.reelWhile core c) s = .next t ∧ cursorAt t core c (nodeNext n) (k.counts.filter (·.1 != k.node)) := by
  obtain ⟨hk, hlast⟩ := nodeNow_cursor h
  have hat := cursorAt_counted hread hk hlast 0 (nodeNext n)
  rw [if_pos rfl, List.append_nil] at hat
  refine ⟨_, congrArg Host.Outcome.next ?_, hat⟩
  rw [reelNode_at h]
  dsimp only
  rw [hread]
  refine if_neg ?_
  omega

end
end

/-! ### Nodes that append a template -/

/-- The state once a template has been written: the descriptor's claimed position, and the slot with its stamp (R88, R90). -/
def templateWritten (s : State) (die loc slot p e : Nat) : State :=
  let s1 := s.putMarked die (loc + 12) (leBytes 4 (p + 1))
  (s1.writeHome slot (leBytes 64 (e % 2 ^ 480 + p * 2 ^ 480)) die).getD s1

theorem accessChange_templateWritten (s : State) (die loc slot p e : Nat) : AccessChange s (templateWritten s die loc slot p e) :=
  (accessChange_putMarked _ _ _ _).trans (accessChange_writeHome _ _ _ _)

/-- A number above the low b bits of another. -/
theorem fields_lt (x : Nat) {p a b n : Nat} (hp : p < 2 ^ a) (hn : a + b = n) : x % 2 ^ b + p * 2 ^ b < 2 ^ n := calc
  x % 2 ^ b + p * 2 ^ b < 2 ^ b + p * 2 ^ b := Nat.add_lt_add_right (Nat.mod_lt x (Nat.two_pow_pos b)) _
  _ = (p + 1) * 2 ^ b := (Nat.add_comm _ _).trans (Nat.succ_mul _ _).symm
  _ ≤ 2 ^ a * 2 ^ b := Nat.mul_le_mul_right _ hp
  _ = 2 ^ n := by rw [← Nat.pow_add, hn]

section
variable {s : State} {die loc slot p e : Nat} (hwf : Formed s) (hloc : loc + 64 ≤ 2 ^ 52) (hslot : slot + 64 ≤ 2 ^ 52) (halign : slot % 64 = 0)
include hwf hloc hslot halign

theorem templateWritten_homeByte {k : Nat} (hk : k < 2 ^ 52) : (templateWritten s die loc slot p e).homeByte k
    = if slot ≤ k ∧ k < slot + 64 then (leBytes 64 (e % 2 ^ 480 + p * 2 ^ 480)).getD (k - slot) 0
      else if loc + 12 ≤ k ∧ k < loc + 12 + 4 then (leBytes 4 (p + 1)).getD (k - (loc + 12)) 0 else s.homeByte k := by
  obtain ⟨t, ht⟩ := writeHome_isSome (s := s.putMarked die (loc + 12) (leBytes 4 (p + 1))) (die := die) (loc := slot)
    (bs := leBytes 64 (e % 2 ^ 480 + p * 2 ^ 480)) (List.length_pos_iff.mp (by rw [leBytes_length]; decide)) fun sec ⟨hlo, hhi⟩ => by
      rw [leBytes_length] at hhi ⊢
      exact .inl ⟨by omega, by omega⟩
  have hbyte := homeByte_writeHome (State.putMarked_formed hwf die (loc + 12) _) (by rwa [leBytes_length]) ht k
  rw [leBytes_length] at hbyte
  rw [templateWritten, ht, Option.getD_some, hbyte, homeByte_of_mem (putMarked_mem _ _ _ _) hk, homeByte_putBytes hwf (by rw [leBytes_length]; omega),
    leBytes_length]

theorem templateWritten_slot (hp : p < 2 ^ 32) : (templateWritten s die loc slot p e).homeNat slot 64 = e % 2 ^ 480 + p * 2 ^ 480 := by
  refine (homeNat_of_bytes fun k hk => ?_).trans (Nat.mod_eq_of_lt (fields_lt e hp rfl))
  rw [templateWritten_homeByte hwf hloc hslot halign (by omega), if_pos (by omega), Nat.add_sub_cancel_left]

theorem templateWritten_desc (hapart : loc + 64 ≤ slot ∨ slot + 64 ≤ loc) :
    (templateWritten s die loc slot p e).homeNat (loc + 12) 4 = (p + 1) % 2 ^ 32 := by
  refine homeNat_of_bytes fun k hk => ?_
  rw [templateWritten_homeByte hwf hloc hslot halign (by omega), if_neg (by omega), if_pos (by omega), Nat.add_sub_cancel_left]

end

/-- A post moves the tail of its queue and leaves the cores as they are. -/
theorem post_queue {s : State} {l w : Nat} {sel : QSel} {Q : EQueue} (h : (s.wg l w).queue? sel = some Q) (v : BitVec 32) :
    ((s.post l w sel v).wg l w).queue? sel = some { Q with qtail := mergeTail Q.qtail v } ∧ (s.post l w sel v).cores = s.cores := by
  have hpost : s.post l w sel v = s.setWg ((s.wg l w).setQueue { Q with qtail := mergeTail Q.qtail v }) := by
    unfold State.post
    dsimp only
    rw [h]
  cases hwg : s.wg? l w with
  | none =>
    rw [State.wg, hwg] at h
    exact nomatch h
  | some W =>
    rw [State.wg, hwg, Option.getD_some] at h hpost
    rw [hpost, State.wg, wg?_setQueue hwg]
    exact ⟨queue?_setQueue h (queue?_sel h :), rfl⟩

/-- The position that a template takes in its ring, as the descriptor holds it. -/
def claimed (s : State) (loc : Nat) : Nat := bitsAt (s.homeNat loc 64) 127 96

theorem claimed_lt (s : State) (loc : Nat) : claimed s loc < 2 ^ 32 := Nat.mod_lt _ (by decide)

theorem claimed_toNat (s : State) (loc : Nat) : (BitVec.ofNat 32 (claimed s loc)).toNat = claimed s loc := by
  rw [BitVec.toNat_ofNat, Nat.mod_eq_of_lt (claimed_lt s loc)]

theorem reelAppend_eq {s s4 s5 : State} {core c e next loc slot : Nat} {o : WgRef} {sel : QSel} {Q : EQueue}
    (hq : (s.wg o.launch o.wg).queue? sel = some Q) (hgood : Q.bad = false)
    (hdesc : s.engDesc o.launch o.wg sel = .ok s4 loc) (hfree : s4.engineHolds loc 64 true = false) (hseal : s4.sealBad loc = false)
    (hform : descBad (s4.homeNat loc 64) = false)
    (hroom : (BitVec.ofNat 32 (claimed s4 loc) - BitVec.ofNat 32 Q.count).toNat < 2 ^ bitsAt (s4.homeNat loc 64) 68 64)
    (hslot : s4.engSlot o.launch o.wg (s4.homeNat loc 64) (claimed s4 loc) = .ok s5 slot) (hslotFree : s5.engineHolds slot 64 true = false) :
    s.reelAppend core c o sel e next = ((templateWritten s5 (dieOf (s.wg o.launch o.wg).core) loc slot (claimed s4 loc) e).post o.launch o.wg sel
      (BitVec.ofNat 32 (claimed s4 loc) + 1)).moveCursor core c next := by
  obtain ⟨x, hreach, rfl⟩ := engDesc_ok hdesc
  have hp := claimed_toNat s4 x.loc
  unfold claimed at hp hroom hslot ⊢
  unfold State.reelAppend
  rw [hq]
  dsimp only
  rw [hgood, hreach]
  dsimp only [State.reelThen]
  rw [hfree, hseal, hform, hp, hslot]
  dsimp only
  rw [hslotFree, if_neg (Nat.not_le.mpr hroom)]
  rfl

theorem reelEntry_eq {s s1 s2 s3 : State} {core c eng n e : Nat} {o : WgRef} {k : Cursor} (heng : eng < 2) (h : nodeNow s s1 core c o k n (eng + 1))
    (hread : s1.reelRead o (BitVec.ofNat 64 (nodeAddr n)) 64 = .ok s2 e) (hcheck : s2.entryCheck o.launch o.wg eng e = .ok s3 none) :
    exec (if eng = 0 then .reelCopy core c else .reelColl core c) s = .next (s3.reelAppend core c o ⟨eng, nodeQueue n⟩ e (nodeNext n)) := by
  have hentry : s.reelEntry core c eng = s3.reelAppend core c o ⟨eng, nodeQueue n⟩ e (nodeNext n) := by
    have hkind : (if eng = 0 then 1 else 2) = eng + 1 := by split <;> omega
    rw [State.reelEntry, hkind, reelNode_at h, hread]
    dsimp only [State.reelThen]
    rw [hcheck]
  rw [← hentry]
  split
  · subst eng
    rfl
  · obtain rfl : eng = 1 := by omega
    rfl

/-- A template that is whole in a ring with room is written, posted and passed. -/
theorem reelEntry_posts {s s1 s2 s3 s4 s5 : State} {core c eng n e loc slot : Nat} {o : WgRef} {k : Cursor} {Q : EQueue} (heng : eng < 2)
    (h : nodeNow s s1 core c o k n (eng + 1))
    (hread : s1.reelRead o (BitVec.ofNat 64 (nodeAddr n)) 64 = .ok s2 e) (hcheck : s2.entryCheck o.launch o.wg eng e = .ok s3 none)
    (hq : (s3.wg o.launch o.wg).queue? ⟨eng, nodeQueue n⟩ = some Q) (hgood : Q.bad = false)
    (hdesc : s3.engDesc o.launch o.wg ⟨eng, nodeQueue n⟩ = .ok s4 loc) (hfree : s4.engineHolds loc 64 true = false) (hseal : s4.sealBad loc = false)
    (hform : descBad (s4.homeNat loc 64) = false)
    (hroom : (BitVec.ofNat 32 (claimed s4 loc) - BitVec.ofNat 32 Q.count).toNat < 2 ^ bitsAt (s4.homeNat loc 64) 68 64)
    (hslot : s4.engSlot o.launch o.wg (s4.homeNat loc 64) (claimed s4 loc) = .ok s5 slot) (hslotFree : s5.engineHolds slot 64 true = false) :
    ∃ t V, exec (if eng = 0 then .reelCopy core c else .reelColl core c) s = .next t ∧ cursorAt t core c (nodeNext n) k.counts
      ∧ (t.wg o.launch o.wg).queue? ⟨eng, nodeQueue n⟩ = some V ∧ V.qtail = mergeTail Q.qtail (BitVec.ofNat 32 (claimed s4 loc) + 1)
      ∧ (Memory.wf s5.mem = true → loc + 64 ≤ 2 ^ 52 → slot + 64 ≤ 2 ^ 52 → slot % 64 = 0 → loc + 64 ≤ slot ∨ slot + 64 ≤ loc →
          t.homeNat slot 64 = e % 2 ^ 480 + claimed s4 loc * 2 ^ 480 ∧ t.homeNat (loc + 12) 4 = (claimed s4 loc + 1) % 2 ^ 32) := by
  obtain ⟨hk, hlast⟩ := nodeNow_cursor h
  have hwritten := accessChange_templateWritten s5 (dieOf (s3.wg o.launch o.wg).core) loc slot (claimed s4 loc) e
  have hkept := ((accessChange_engDesc hdesc).trans ((accessChange_engSlot hslot).trans hwritten)).reelsKept
  obtain ⟨hqueue, hcores⟩ := post_queue (wg_of_wgs hkept.wgs o.launch o.wg ▸ hq) (BitVec.ofNat 32 (claimed s4 loc) + 1)
  have hcursor := (((reelsKept_reelRead hread).trans (accessChange_entryCheck hcheck).reelsKept).trans hkept).cursor hk
  rw [← core_of_cores hcores] at hcursor
  refine ⟨_, { Q with qtail := mergeTail Q.qtail (BitVec.ofNat 32 (claimed s4 loc) + 1) }, (reelEntry_eq heng h hread hcheck).trans
      (congrArg Host.Outcome.next (reelAppend_eq hq hgood hdesc hfree hseal hform hroom hslot hslotFree)),
    cursorAt_moveCursor hcursor hlast _, ?_, rfl, fun hwf hloc hslotEnd halign hapart => ?_⟩
  · rw [moveCursor_eq hcursor hlast]
    exact hqueue
  · have hmem (a : State) (sel : QSel) (v : BitVec 32) : ((a.post o.launch o.wg sel v).moveCursor core c (nodeNext n)).mem = a.mem :=
      (State.moveCursor_mem _ _ _ _).trans (State.post_mem _ _ _ _ _)
    rw [homeNat_of_mem (hmem _ _ _) hslotEnd, homeNat_of_mem (hmem _ _ _) (by omega)]
    exact ⟨templateWritten_slot hwf hloc hslotEnd halign (claimed_lt s4 loc), templateWritten_desc hwf hloc hslotEnd halign hapart⟩

/-- Settles O40: a node is executed in the state that its read has left (`reelNode_at`), which has the cursor still (`nodeNow_cursor`). -/
theorem reelNodes : Obligations.ReelNodes := by
  unfold Obligations.ReelNodes
  exact fun core c n o k s s1 => ⟨reelEnd_ends,
    fun h m hm => ⟨reelWaitseq_waits h hm, fun s2 loc hreached heng hdesc herr => reelWaitseq_passes h hm hreached heng hdesc herr⟩,
    reelWake_wakes,
    fun h s2 v hread => reelCond_moves hread h,
    fun h s2 v hread => ⟨reelWhile_again hread h, reelWhile_ends hread h⟩,
    fun eng heng h s2 s3 s4 s5 e loc slot Q hread hcheck hq hgood hdesc hfree hseal hform hroom hslot hslotFree =>
      reelEntry_posts heng h hread hcheck hq hgood hdesc hfree hseal hform hroom hslot hslotFree⟩

end Sys2Proof.Claims

/-!
Outstanding results, and the ends of translation requests (05 R99; 06 R119; 21 R394; 23 R418; 02 R44 to R47; O42). A thread is found by its name,
and an update of it, also one that reaches the remembered team, is found by that name again; a result that alone may return is received
or becomes a deferred fault; a request is released or rejected by who waits for it.
-/

namespace Sys2Proof.Claims
open Sys2Proof Sys2Proof.Machine

/-! ### A thread by its name -/

/-- A test finds the element that it found before an update that the test does not see. -/
theorem find?_map_update {α : Type} {p : α → Bool} {f : α → α} (hf : ∀ x, p (f x) = p x) {l : List α} {x : α} (h : l.find? p = some x) :
    (l.map fun x => if p x then f x else x).find? p = some (f x) := by
  have hsame : (p ∘ fun x => if p x then f x else x) = p := by
    funext y
    rw [Function.comp_apply]
    split
    · exact hf y
    · rfl
  rw [List.find?_map, hsame, h, Option.map_some, if_pos (List.find?_some h)]

theorem thread?_of_teams {s t : State} (h : t.teams = s.teams) (r : ThreadRef) : t.thread? r = s.thread? r := by
  rw [State.thread?, State.thread?, State.team?, State.team?, h]

section
variable {s : State} {r : ThreadRef} {T : Team} {th : Thread} (h : s.thread? r = some (T, th))
include h

theorem team?_of_thread? : s.team? r.launch r.wg r.team = some T ∧ T.threads.find? (·.lane == r.lane) = some th := by
  unfold State.thread? at h
  split at h
  · cases h
  · rename_i U hteam
    obtain ⟨x, hlane, hpair⟩ := Option.map_eq_some_iff.mp h
    cases hpair
    exact ⟨hteam, hlane⟩

theorem ref_of_thread? : T.ref th = r := by
  obtain ⟨hteam, hlane⟩ := team?_of_thread? h
  have his : T.is r.launch r.wg r.team = true := List.find?_some (p := fun U : Team => U.is r.launch r.wg r.team) hteam
  have hth : th.lane = r.lane := beq_iff_eq.mp (List.find?_some (p := fun x : Thread => x.lane == r.lane) hlane)
  simp only [Team.is, Bool.and_eq_true, beq_iff_eq] at his
  obtain ⟨⟨hl, hw⟩, ht⟩ := his
  rw [Team.ref, hl, hw, ht, hth]

/-- A thread that an update has changed is found by its name again. -/
theorem threadIs_updThread {f : Thread → Thread} (hf : ∀ x, (f x).lane = x.lane) {P : Thread → Prop} (hP : P (f th)) :
    threadIs (s.updThread r f) r P := by
  obtain ⟨hteam, hlane⟩ := team?_of_thread? h
  have hteam' : (s.updThread r f).team? r.launch r.wg r.team = some (T.mapThreads fun x => if x.lane == r.lane then f x else x) :=
    find?_map_update (p := fun U : Team => U.is r.launch r.wg r.team)
      (f := fun U => U.mapThreads fun x => if x.lane == r.lane then f x else x) (fun _ => rfl) hteam
  have hlane' : (T.threads.map fun x => if x.lane == r.lane then f x else x).find? (·.lane == r.lane) = some (f th) :=
    find?_map_update (p := fun x : Thread => x.lane == r.lane) (fun x => by rw [hf]) hlane
  refine ⟨T.mapThreads fun x => if x.lane == r.lane then f x else x, f th, ?_, hP⟩
  rw [State.thread?, hteam']
  dsimp only [Team.mapThreads]
  rw [hlane', Option.map_some]

/-- So is one that an earlier instruction's result has changed. -/
theorem threadIs_updEarlier {f : Thread → Thread} (hf : ∀ x, (f x).lane = x.lane) (since : BitVec 64) {P : Thread → Prop} (hP : P (f th)) :
    threadIs (s.updEarlier r since f) r P := by
  obtain ⟨U, x, hfound, hx⟩ := threadIs_updThread h hf hP
  have hteams : (s.updEarlier r since f).teams = (s.updThread r f).teams := by
    unfold State.updEarlier
    dsimp only
    split <;> rfl
  exact ⟨U, x, (thread?_of_teams hteams r).trans hfound, hx⟩

end

/-! ### Results that may return -/

/-- Every result of a thread that holds its slot while other lanes of its instruction have not read their sources stays out (00 R10). -/
theorem returnOne_waits {s : State} {r : ThreadRef} {T : Team} {th : Thread} (h : s.thread? r = some (T, th))
    (hwaits : ∀ p ∈ th.outst, T.mayReturn th p = false) : s.returnOne r = s := by
  have hnone : s.returnable T th = [] := List.filter_eq_nil_iff.mpr fun p hp => by rw [hwaits p hp]; exact Bool.false_ne_true
  rw [State.returnOne, h]
  dsimp only
  rw [hnone]

/-- A result for an s register waits for the lanes of its instruction that have still to read. -/
theorem mayReturn_sReg {T : Team} {th o : Thread} {p : Pending} {n : Nat} (hdst : p.dst = .s n) (hplace : p.clause = th.clause ∧ p.slot = th.slot)
    (hdone : th.slotDone = true) (ho : o ∈ T.threads) (hother : o.lane ≠ th.lane ∧ o.entry = th.entry ∧ o.slotDone = false ∧ o.status ≠ .exited
      ∧ o.clause = th.clause ∧ o.slot = th.slot) : T.mayReturn th p = false := by
  obtain ⟨hlane, hentry, hreads, hlive, hclause, hslot⟩ := hother
  obtain ⟨hpc, hps⟩ := hplace
  simp only [Team.mayReturn, hdst, hdone, Bool.true_and, Bool.not_eq_false', List.any_eq_true]
  exact ⟨o, ho, by simp [hlane, hentry, hreads, hlive, hclause, hslot, hpc, hps]⟩

section
variable {s : State} {r : ThreadRef} {T : Team} {th : Thread} {p : Pending} {k : Nat}
  (h : s.thread? r = some (T, th)) (hout : th.outst = [p]) (hdst : p.dst = .v k)
include h hout hdst

/-- A thread's only result, for a register of its own, returns at once; in a deterministic launch, where no access of the thread that brings
an earlier one is still to come (22 R410). -/
theorem returnOne_only (hdet : (s.launch T.launch).recd.det = true → s.comes (T.ref th) (fun a => decide (a.tag < p.tag)) = false) :
    s.returnOne r = s.returnResult r p := by
  have hmay : (T.mayReturn th p && (!(s.launch T.launch).recd.det || s.detReturn T th p)) = true := by
    cases hd : (s.launch T.launch).recd.det with
    | false => simp [Team.mayReturn, hdst]
    | true => simp [Team.mayReturn, State.detReturn, hdst, hout, hdet hd]
  have hone : s.returnable T th = [p] := by
    rw [State.returnable, hout]
    exact List.filter_eq_self.mpr fun x hx => List.mem_singleton.mp hx ▸ hmay
  rw [State.returnOne, h]
  dsimp only
  rw [hone]

end

/-! ### What a result brings -/

/-- A thread that has received a result: its tag is satisfied, its flags are set, and its destination is written (05 R99; 06 R119). -/
def received (p : Pending) (th : Thread) : Thread := ((th.resolveTag p.tag (some p.val)).stick p.exc).put p.dst p.bits p.val

/-- A thread whose result has ended in a fault: no value comes, and the fault is deferred (21 R394). -/
def faulted (p : Pending) (q : Record) (th : Thread) : Thread := ((th.resolveTag p.tag none).stick p.exc).deferFault q

/-- The fault of a result tells of the thread as it stands when it returns (21 R393). -/
def raisedNow (s : State) (T : Team) (th : Thread) (q : Record) : Record :=
  { q with tick := s.tick, gpc := th.gpc, gop := th.gop, nest := th.status == .handler, bound := T.bound }

theorem put_lane (th : Thread) (d : Dst) (w v : Nat) : (th.put d w v).lane = th.lane := by cases d <;> rfl

theorem received_lane (p : Pending) (th : Thread) : (received p th).lane = th.lane := put_lane _ _ _ _

theorem faulted_lane (p : Pending) (q : Record) (th : Thread) : (faulted p q th).lane = th.lane := rfl

/-- A result of 32 bits for a v register changes nothing but the tag's slots, the flags, the register and its marks. -/
theorem received_v {p : Pending} {k : Nat} (hdst : p.dst = .v k) (hbits : p.bits = 32) (th : Thread) :
    received p th = { th.resolveTag p.tag (some p.val) with
      mode := th.mode ||| p.exc.zeroExtend 32, v := setAt th.v k (BitVec.ofNat 32 p.val)
      ecc := th.ecc.filter (fun n => !(k ≤ n && n < k + 1)) } := by
  rw [received, hdst, hbits]
  rfl

theorem deferFault_lane (th : Thread) (q : Record) : (th.deferFault q).lane = th.lane := rfl

/-- The tag of a thread's only result is no tag of another. -/
theorem resolveTag_only {th : Thread} {p : Pending} (hout : th.outst = [p]) (val : Option Nat) : (th.resolveTag p.tag val).outst = [] := by
  simp [Thread.resolveTag, hout]

theorem excTrap_none {th : Thread} {e : Exc} (h : e &&& modeEnables th.mode = 0) : th.excTrap e = none := by
  rw [Thread.excTrap, h, Option.map_eq_none_iff, List.find?_eq_none]
  simp

section
variable {s : State} {r : ThreadRef} {T : Team} {th : Thread} {p : Pending} {k : Nat} (h : s.thread? r = some (T, th)) (hdst : p.dst = .v k)
include h

section
include hdst

/-- A result without a fault and without an enabled exception is received. -/
theorem returnResult_value (hfault : p.fault = none) (hexc : p.exc &&& modeEnables th.mode = 0) :
    s.returnResult r p = s.updEarlier r p.since (received p) := by
  have hsreg : sRegOf p.dst = none := by rw [hdst]; rfl
  rw [State.returnResult, h]
  dsimp only
  rw [hfault, excTrap_none hexc, hsreg]
  rfl

/-- A result with a watchpoint's fault is received, and the fault deferred (23 R418). -/
theorem returnResult_watchpoint {q : Record} (hfault : p.fault = some q) (hcause : q.cause = 0x182) :
    s.returnResult r p = s.updEarlier r p.since (fun x => (received p x).deferFault (raisedNow s T th q)) := by
  have hsreg : sRegOf p.dst = none := by rw [hdst]; rfl
  rw [State.returnResult, h]
  dsimp only
  rw [hfault]
  dsimp only
  rw [if_pos hcause, hsreg]
  rfl

end

/-- A result with any other fault brings the fault alone. -/
theorem returnResult_fault {q : Record} (hfault : p.fault = some q) (hcause : q.cause ≠ 0x182) :
    s.returnResult r p = s.updEarlier r p.since (faulted p ((raisedNow s T th q).forDst p.dst p.bits)) := by
  rw [State.returnResult, h]
  dsimp only
  rw [hfault]
  dsimp only
  rw [if_neg hcause]
  rfl

end

/-! ### A page's translations -/

theorem covers_iff (e : TlbEntry) (va : Nat) : e.covers va = true ↔ e.vpn * 2 ^ e.bits ≤ va ∧ va < (e.vpn + 1) * 2 ^ e.bits := by
  have hpos : 0 < 2 ^ e.bits := Nat.two_pow_pos _
  rw [TlbEntry.covers, beq_iff_eq, eq_comm, Nat.div_eq_iff hpos, Nat.succ_mul]
  omega

/-- The invalidation of a page, whatever becomes of the requests (20 R389). -/
theorem pageGone_tlbPage (s : State) (asid page : Nat) (l : List Request) : pageGone s { s.tlbPage asid page with requests := l } asid page := by
  refine ⟨rfl, fun e => ?_, fun x => ?_⟩
  · rw [← and_assoc, ← covers_iff]
    simp [State.tlbPage, State.tlbDrop, not_and_or, -not_and]
  · simp [State.tlbPage, State.tlbDrop, not_and_or, -not_and]

/-! ### The release of a request -/

/-- A unit's request is released as it is: the unit makes its access again by itself (02 R46). -/
theorem replayEntry_unit {s : State} {q : Request} (hq : ∀ accs, q.who ≠ .threads accs) : s.replayEntry q = s.dropRequest q := by
  unfold State.replayEntry
  split
  · rename_i accs hwho
    exact absurd hwho (hq accs)
  · rfl

/-- A request with one access that has ended in it is gone. -/
theorem replayEntry_performed {s s' : State} {q : Request} {x : ThreadRef × Access} (hq : q.who = .threads [x])
    (hx : (s.dropRequest q).replayAccess q x = (s', [])) : s.replayEntry q = s' := by
  have hall : (s.dropRequest q).replayAll q [x] = (s', []) := by
    rw [State.replayAll, hx]
    simp [State.replayAll]
  rw [State.replayEntry, hq]
  dsimp only
  rw [hall]
  rfl

/-- A request with one access that must wait stays, released. -/
theorem replayEntry_waits {s s' : State} {q : Request} {x : ThreadRef × Access} (hq : q.who = .threads [x])
    (hx : (s.dropRequest q).replayAccess q x = (s', [x])) :
    s.replayEntry q = { s' with requests := s'.requests ++ [{ q with released := true }] } := by
  have hall : (s.dropRequest q).replayAll q [x] = (s', [x]) := by
    rw [State.replayAll, hx]
    cases hlate : q.late <;> simp [State.replayAll]
  rw [State.replayEntry, hq]
  dsimp only
  rw [hall]
  dsimp only [List.isEmpty_cons]
  rw [← hq]
  rfl

/-- An access that its instruction makes again by itself is not performed. -/
theorem replayAccess_again {s : State} {q : Request} {x : ThreadRef} {a : Access} {T : Team} {th : Thread} {wr : Bool}
    (h : s.thread? x = some (T, th)) (ha : a.kind = .again wr) : s.replayAccess q (x, a) = (s, []) := by
  rw [State.replayAccess, h]
  dsimp only
  rw [ha]

section
variable {s s' : State} {q : Request} {x : ThreadRef} {a : Access} {T : Team} {th : Thread} (h : s.thread? x = some (T, th))
  (ha : (∃ b, a.kind = .load b) ∨ a.kind = .store)
include h ha

/-- A plain load or store is performed as if it were issued now. -/
theorem replayAccess_performed {v : Nat} {late : Option Trap} (hacc : s.access T x a = .ok s' v late) :
    s.replayAccess q (x, a) = (s'.giveResult T x a v late, []) := by
  rw [State.replayAccess, h]
  obtain ⟨b, ha⟩ | ha := ha <;> simp only [ha, hacc]

/-- One that must wait is given back. -/
theorem replayAccess_waits {n : Nat} (hacc : s.access T x a = .wait s' n) : s.replayAccess q (x, a) = (s', [(x, a)]) := by
  rw [State.replayAccess, h]
  obtain ⟨b, ha⟩ | ha := ha <;> simp only [ha, hacc]

end

/-! ### The two operations -/

section
variable {s : State} {r : ReplayRef} {q : Request} (hr : s.request? r = some q)
include hr

theorem replayResolve_saved (hcore : q.core = noCore) : exec (.replayResolve r) s = .next (s.tlbPage q.asid q.page.toNat) := by
  change execReplayResolve r s = _
  rw [execReplayResolve, hr]
  dsimp only
  rw [if_pos hcore]

theorem replayResolve_placed (hcore : q.core ≠ noCore) :
    exec (.replayResolve r) s = .next ((s.tlbPage q.asid q.page.toNat).replayEntry q) := by
  change execReplayResolve r s = _
  rw [execReplayResolve, hr]
  dsimp only
  rw [if_neg hcore]
  rfl

theorem replayReject_saved (hcore : q.core = noCore) : exec (.replayReject r) s = .next s := by
  change execReplayReject r s = _
  rw [execReplayReject, hr]
  dsimp only
  rw [if_pos hcore]

theorem replayReject_placed (hcore : q.core ≠ noCore) : exec (.replayReject r) s = .next (s.reject q) := by
  change execReplayReject r s = _
  rw [execReplayReject, hr]
  dsimp only
  rw [if_neg hcore]

end

/-! ### The rejection of a request -/

theorem park_lane (th : Thread) (f : Record) (slot : Nat) (inside : Bool) : (th.park f slot inside).lane = th.lane := rfl

/-- An access that holds its lane at the slot, of a running thread of a team that is not bound, parks the thread there (02 R46). -/
theorem parkAccess_again {s : State} {x : ThreadRef} {a : Access} {t : Trap} {T : Team} {th : Thread} {wr : Bool}
    (h : s.thread? x = some (T, th)) (ha : a.kind = .again wr) (hb : T.bound = false) (hrun : th.status = .running) :
    s.parkAccess x a t = s.updThread x (·.park (s.record T th a.clause a.slot false t) a.slot true) := by
  rw [State.parkAccess, h]
  dsimp only
  rw [ha, hrun, hb]
  cases th.entry <;> rfl

theorem reject_again {s : State} {q : Request} {x : ThreadRef} {a : Access} {wr : Bool} (hq : q.who = .threads [(x, a)])
    (ha : a.kind = .again wr) : s.reject q = (s.dropRequest q).parkAccess x a { cause := q.cause, addr := a.va } := by
  rw [State.reject, hq]
  dsimp only [List.foldl_cons, List.foldl_nil]
  rw [ha]

/-- The request of an engine whose entry has no result ends the entry with the cause (04 R78). -/
theorem reject_engine {s : State} {q : Request} {l w : Nat} {sel : QSel} {i : InFlight} (hq : q.who = .engine l w sel) (hsel : sel.eng ≠ 2)
    (hflight : s.flight? l w sel = some i) (hi : i.result = none) :
    s.reject q = (s.dropRequest q).setFlight { i with result := some (q.cause, 0) } := by
  have hdrop : (s.dropRequest q).flight? l w sel = some i := (flight?_of_inflight rfl l w sel).trans hflight
  rw [State.reject, hq]
  dsimp only
  rw [if_neg hsel, hdrop]
  exact endFlight_eq hdrop (flight?_names hflight) hi q.cause 0

/-! ### The obligation -/

/-- Settles O42: each clause reads one lemma above, a return by `returnOne_only`, a release by the form of its requester, a rejection by `reject_again`
and `reject_engine`. -/
theorem resultsAndRequests : Obligations.ResultsAndRequests := by
  unfold Obligations.ResultsAndRequests
  refine ⟨fun r T th p k s h hout hdst hbits hk hdet => ⟨fun hfault hexc => ?_, fun q hfault => ?_⟩,
    fun r T th s h hplace hdone hother => ?_, fun r q s hr => ⟨fun hcore => ⟨replayReject_saved hr hcore, ?_⟩, fun hcore hwho => ?_⟩,
    fun r q x a wr T th s hr hcore hwho ha h hb hrun => ⟨?_, ?_⟩,
    fun r q x a T th s s1 s2 hr hcore hwho ha hs1 h => ⟨fun v hacc => ?_, fun n hacc => ?_⟩,
    fun r q l w sel i s hr hcore hwho hsel hflight hi => ?_⟩
  · refine ⟨_, rfl, s.returnOne_mem r, ?_⟩
    rw [returnOne_only h hout hdst hdet, returnResult_value h hdst hfault hexc]
    refine threadIs_updEarlier h (received_lane p) _ ?_
    rw [received_v hdst hbits]
    exact ⟨resolveTag_only hout (some p.val), rfl, rfl, rfl, rfl, rfl, rfl⟩
  · refine ⟨_, rfl, s.returnOne_mem r, ?_⟩
    rw [returnOne_only h hout hdst hdet]
    by_cases hcause : q.cause = 0x182
    · rw [returnResult_watchpoint h hdst hfault hcause, if_pos hcause, if_pos hcause]
      refine threadIs_updEarlier h (fun x => (deferFault_lane _ _).trans (received_lane p x)) _ ?_
      rw [received_v hdst hbits]
      exact ⟨resolveTag_only hout (some p.val), rfl, rfl, rfl⟩
    · rw [returnResult_fault h hfault hcause, if_neg hcause, if_neg hcause]
      refine threadIs_updEarlier h (faulted_lane p _) _ ?_
      rw [faulted, hdst, hbits]
      exact ⟨resolveTag_only hout none, rfl, rfl, rfl⟩
  · obtain ⟨o, ho, hother⟩ := hother
    refine congrArg Host.Outcome.next (returnOne_waits h fun p hp => ?_)
    obtain ⟨n, hdst, hat⟩ := hplace p hp
    exact mayReturn_sReg hdst hat hdone ho hother
  · exact ⟨_, replayResolve_saved hr hcore, pageGone_tlbPage s _ _ s.requests, rfl⟩
  · refine ⟨_, replayResolve_placed hr hcore, ?_⟩
    rw [replayEntry_unit hwho]
    exact ⟨pageGone_tlbPage s _ _ _, rfl⟩
  · refine ⟨_, replayResolve_placed hr hcore, ?_⟩
    have hfound : ((s.tlbPage q.asid q.page.toNat).dropRequest q).thread? x = some (T, th) := (thread?_of_teams rfl x).trans h
    rw [replayEntry_performed hwho (replayAccess_again hfound ha)]
    exact ⟨pageGone_tlbPage s _ _ _, rfl⟩
  · have hdrop : (s.dropRequest q).thread? x = some (T, th) := (thread?_of_teams rfl x).trans h
    refine ⟨_, replayReject_placed hr hcore, ?_⟩
    rw [reject_again hwho ha, parkAccess_again hdrop ha hb hrun]
    refine ⟨rfl, rfl, threadIs_updThread hdrop (fun y => park_lane y _ _ _) ⟨rfl, rfl, _, rfl, rfl, fun hcause => ?_⟩⟩
    exact if_pos (by rw [hcause, Bool.true_or, Bool.true_or])
  · subst hs1
    exact ⟨_, replayResolve_placed hr hcore, replayEntry_performed hwho (replayAccess_performed h ha hacc)⟩
  · subst hs1
    refine ⟨_, replayResolve_placed hr hcore, ?_⟩
    rw [replayEntry_waits hwho (replayAccess_waits h ha hacc)]
    exact List.mem_append_right _ (List.mem_singleton.mpr rfl)
  · refine ⟨_, replayReject_placed hr hcore, ?_⟩
    rw [reject_engine hwho hsel hflight hi]
    exact ⟨rfl, flight?_setFlight ((flight?_of_inflight rfl l w sel).trans hflight) (flight?_names hflight :), rfl⟩

end Sys2Proof.Claims

/-!
What a register may do to an instruction that names it (05 R93; 21 R400; O53). One beyond the block: each class's shared form checks the registers
that its instructions name before anything else (`ChecksBlock`). One with an uncorrectable error: past the checks, the lanes of an integer
instruction each read their sources first (`LanesRun`), and a lane whose source is marked parks.
-/

namespace Sys2Proof.Claims
open Sys2Proof Sys2Proof.Machine

/-! ### A register beyond the block -/

/-- The block check names a register that lies beyond the block, where one does. -/
theorem blockCheck_beyond {s : State} {c : Cur} {regs : List Nat} (hc : s.cur = some c) (h : ∃ k ∈ regs, beyondBlock s c k) :
    ∃ k ∈ regs, beyondBlock s c k ∧ s.blockCheck regs = some { cause := 0x04b, sub := k } := by
  have hbeyond (k : Nat) : s.teams.any (fun T => decide (T.bsize ≤ k) && T.threads.any (·.issuing c.entry)) = true ↔ beyondBlock s c k := by
    simp [beyondBlock, List.any_eq_true]
  cases hcheck : s.blockCheck regs with
  | none =>
    obtain ⟨k, hk, hkb⟩ := h
    rw [State.blockCheck, hc] at hcheck
    have hpass := List.findSome?_eq_none_iff.mp hcheck k hk
    rw [if_pos ((hbeyond k).mpr hkb)] at hpass
    cases hpass
  | some x =>
    rw [State.blockCheck, hc] at hcheck
    obtain ⟨k, hk, hx⟩ := List.exists_of_findSome?_eq_some hcheck
    split at hx
    · rename_i hkb
      exact ⟨k, hk, (hbeyond k).mp hkb, hx.symm⟩
    · cases hx

/-- A fault of the group parks it as 00 R10 and 21 R393 say. -/
theorem groupFault_eq_parkGroup {s : State} {c : Cur} (hc : s.cur = some c) (x : Trap) : s.groupFault x = parkGroup s c x := by
  have hwhole (T : Team) (r : Record) : T.parkAll c.entry c.slot r true = parkWhole c r T true := by
    simp only [Team.parkAll, parkWhole, Team.mapThreads, Bool.and_eq_true, beq_iff_eq, bne_iff_ne]
    rfl
  unfold State.groupFault State.groupFaultWith parkGroup
  rw [hc]
  refine congrArg s.mapTeams (funext fun T => ?_)
  dsimp only [Team.bound, Team.group, id]
  cases T.blc.getLsbD 31 with
  | false => rfl
  | true =>
    cases T.threads.filter (·.issuing c.entry) with
    | nil => rfl
    | cons th rest => exact hwhole T _

/-! ### What checks its registers first -/

/-- A state is what an instruction makes that first checks these registers (05 R93). -/
def ChecksBlock (regs : List Nat) (s t : State) : Prop := ∃ g uni k, t = s.checked g regs uni k

theorem ChecksBlock.parks {regs : List Nat} {s t : State} (h : ChecksBlock regs s t) {c : Cur} (hc : s.cur = some c)
    (hbeyond : ∃ k ∈ regs, beyondBlock s c k) : ∃ k ∈ regs, beyondBlock s c k ∧ t = parkGroup s c { cause := 0x04b, sub := k } := by
  obtain ⟨g, uni, k, rfl⟩ := h
  obtain ⟨n, hn, hnb, hcheck⟩ := blockCheck_beyond hc hbeyond
  exact ⟨n, hn, hnb, (State.checked_block hcheck).trans (groupFault_eq_parkGroup hc _)⟩

theorem checksBlock_checked {s : State} {g : Guard} {regs named : List Nat} {uni : List Field} {k : State → State} (h : named = regs) :
    ChecksBlock named s (s.checked g regs uni k) := h ▸ ⟨g, uni, k, rfl⟩

/-- The registers that the fields of an instruction name are those that its sources name. -/
theorem fieldRegs_eq {srcs : List (Src × Nat)} {xs : List Field} (hs : srcs = xs.map (fun q => (q.src, q.w))) :
    srcs.flatMap (fun q => srcRegs q.2 q.1) = xs.flatMap (fun x => srcRegs x.w x.src) := by
  rw [hs, List.flatMap_map]

theorem laneOp_named_eq {o : LaneOp} {d : Dst} {w : Nat} {xs : List Field} {regs : List Nat} (hs : o.srcs = xs.map (fun q => (q.src, q.w)))
    (hd : o.d = d) (hw : o.w = w) (hregs : o.regs = regs) : o.named = dstRegs w d ++ xs.flatMap (fun x => srcRegs x.w x.src) ++ regs := by
  rw [LaneOp.named, fieldRegs_eq hs, hd, hw, hregs]

/-! ### The shared forms of the floating, cross-lane and memory classes -/

section
variable {s : State}

theorem checksBlock_issue {o : LaneOp} {g : Guard} {d : Dst} {w : Nat} {xs : List Field} {f : Team → Thread → Lane}
    (hs : o.srcs = xs.map (fun q => (q.src, q.w)) := by rfl) (hd : o.d = d := by rfl) (hw : o.w = w := by rfl)
    (hregs : o.regs = [] := by rfl) : ChecksBlock o.named s (s.issue g d w xs f) := by
  unfold State.issue State.issueWith
  exact checksBlock_checked (laneOp_named_eq hs hd hw hregs)

theorem checksBlock_fltOut {o : LaneOp} {g : Guard} {d : Dst} {w : Nat} {xs : List Field} {f : Team → Thread → FRes}
    (hs : o.srcs = xs.map (fun q => (q.src, q.w)) := by rfl) (hd : o.d = d := by rfl) (hw : o.w = w := by rfl)
    (hregs : o.regs = [] := by rfl) : ChecksBlock o.named s (s.fltOut g d w xs f) :=
  checksBlock_checked ((laneOp_named_eq hs hd hw hregs).trans (List.append_nil _))

theorem checksBlock_xl {o : LaneOp} {g : Guard} {d : Dst} {w : Nat} {xs uni : List Field} {pre : Team → List Thread → Option Trap}
    {reads : Team → List Thread → Thread → List (Thread × Field)} {f : Team → List Thread → Thread → Lane} {keep : Bool}
    (hs : o.srcs = xs.map (fun q => (q.src, q.w)) := by rfl) (hd : o.d = d := by rfl) (hw : o.w = w := by rfl)
    (hregs : o.regs = [] := by rfl) : ChecksBlock o.named s (s.xl g d w xs uni pre reads f keep) :=
  checksBlock_checked ((laneOp_named_eq hs hd hw hregs).trans (List.append_nil _))

/-- The v registers that an instruction of the memory class names. -/
def SeqOp.named (o : SeqOp) : List Nat := dstRegs o.w o.d ++ o.srcs.flatMap (fun q => srcRegs q.2 q.1)

theorem checksBlock_issueMem {o : SeqOp} {g : Guard} {d : Dst} {w : Nat} {xs uni : List Field} {f : State → Team → Thread → LaneOut}
    {ordered : Bool} (hs : o.srcs = xs.map (fun q => (q.src, q.w)) := by rfl) (hd : o.d = d := by rfl) (hw : o.w = w := by rfl) :
    ChecksBlock o.named s (s.issueMem g d w xs uni f ordered) :=
  checksBlock_checked (by rw [SeqOp.named, fieldRegs_eq hs, hd, hw])

theorem checksBlock_memory {o : SeqOp} {g : Guard} {d : Dst} {w : Nat} {xs : List Field} {sc : Option Scope}
    {mk : State → Team → Thread → Except Trap Access} (hs : o.srcs = xs.map (fun q => (q.src, q.w)) := by rfl) (hd : o.d = d := by rfl)
    (hw : o.w = w := by rfl) : ChecksBlock o.named s (s.memory g d w xs sc mk) :=
  checksBlock_checked (by rw [SeqOp.named, fieldRegs_eq hs, hd, hw])

/-! ### The classes -/

/-- The floating class checks its registers first (11 R205 to R223). -/
theorem fltOp_checksBlock {i : Instr} {o : LaneOp} (hi : fltOp i = some o) : ∃ t, exec i s = .next t ∧ ChecksBlock o.named s t := by
  cases i with
  | faddF64 g d a b | faddF32 g d a b | fsubF64 g d a b | fsubF32 g d a b | fmulF64 g d a b | fmulF32 g d a b | fminF64 g d a b
  | fminF32 g d a b | fmaxF64 g d a b | fmaxF32 g d a b | fabsF64 g d a | fabsF32 g d a | fnegF64 g d a | fnegF32 g d a | frcpF32 g d a
  | frsqF32 g d a | fexp2F32 g d a | flog2F32 g d a | fsinpiF32 g d a | fcospiF32 g d a | ftanhF32 g d a | faddH2 g d a b | fmulH2 g d a b
  | faddB2 g d a b | fmulB2 g d a b | fclassF64 g d a | fclassF32 g d a | fcvt g ty sty rm sat d a | frnd g ty rm d a
  | fcvti g ty sty rm d a | icvtf g ty sty rm d a | fscale g ty rm d a b | fpack g ty sty rm sat d a b | funpack g ty sty d a b
  | fdot2 g ty rm d a b e =>
    cases hi
    exact ⟨_, rfl, checksBlock_issue⟩
  | fma g ty rm ftz pk d a b e | faddL g ty rm ftz pk d a b | fmulL g ty rm ftz pk d a b =>
    cases hi
    cases pk <;> exact ⟨_, rfl, checksBlock_issue⟩
  | fdiv g ty rm ftz d a b | fsqrt g ty rm ftz d a =>
    cases hi
    exact ⟨_, rfl, checksBlock_fltOut⟩
  | fcmp g ty cc n a b | ffrexp g ty d a e =>
    cases hi
    exact ⟨_, rfl, checksBlock_checked (by simp [LaneOp.named, sets, dstRegs])⟩
  | _ => nomatch hi

/-- The cross-lane class checks its registers first (12 R224 to R234). -/
theorem xlOp_checksBlock {i : Instr} {o : LaneOp} (hi : xlOp i = some o) : ∃ t, exec i s = .next t ∧ ChecksBlock o.named s t := by
  cases i with
  | shflIdx g d a b | shflUp g d a b | shflDn g d a b | shflXor g d a b =>
    cases hi
    refine ⟨_, rfl, ?_⟩
    unfold State.shuffle
    exact checksBlock_xl
  | voteAll g d a | voteAny g d a | voteEq g d a =>
    cases hi
    refine ⟨_, rfl, ?_⟩
    unfold State.voteP
    exact checksBlock_xl
  | voteBallot g d a | lbcast g d a b | matchLanes g d a =>
    cases hi
    exact ⟨_, rfl, checksBlock_xl⟩
  | redAddI32 g d a | redAddF32 g d a | scanAddI32 g d a | red g op ty rm d a | scan g op ty rm excl d a =>
    cases hi
    refine ⟨_, rfl, ?_⟩
    unfold State.reduce
    exact checksBlock_xl
  | zip g ty k d a | unzip g ty k d a =>
    cases hi
    refine ⟨_, rfl, ?_⟩
    unfold State.zipOp
    exact checksBlock_xl
  | _ => nomatch hi

theorem kWidth_eq (wd : Nat) : kWidth wd = 32 * 2 ^ min wd 2 := by
  match wd with
  | 0 | 1 => rfl
  | n + 2 => rw [Nat.min_eq_right (by omega)]; rfl

/-- The memory class checks its registers first (14 R252). -/
theorem memOp_checksBlock {i : Instr} {o : SeqOp} (hi : memOp i = some o) : ∃ t, exec i s = .next t ∧ ChecksBlock o.named s t := by
  cases i with
  | ldW g d a b | ldD g d a b | ldQ g d a b | stW g x a b | stD g x a b | stQ g x a b | ldsW g d a b | stsW g x a b | ldL g ty d a b
  | stL g ty x a b | ldiWWg g d a b | stiWWg g x a b | ldi g ty sc ord d a b | sti g ty sc ord x a b | atom g op ty sc ord d a b
  | atomcas g ty sc ord d a b | atomf g op ty sc ord d a b | reelCondWrite g sc a b =>
    cases hi
    exact ⟨_, rfl, checksBlock_memory⟩
  | ldK g wd d a k =>
    cases hi
    exact ⟨_, rfl, checksBlock_memory (hw := (kWidth_eq wd).symm)⟩
  | stK g wd x a k =>
    cases hi
    exact ⟨_, rfl, checksBlock_memory (hs := by rw [kWidth_eq]; rfl)⟩
  | qpop g d a | qpush g a b | halloc g tr d a b | hfree g a b | prefetch g a b | cinv g l2 a b | cwb g l2 a b =>
    cases hi
    exact ⟨_, rfl, checksBlock_issueMem⟩
  | _ => nomatch hi

end

/-! ### Lanes that read their sources -/

/-- A lane completes or faults. -/
def neverWaits (l : Lane) : Prop :=
  match l with
  | .wait _ _ => False
  | _ => True

theorem neverWaits_withPreds {ps : List Nat} {f : Team → Thread → Lane} (hf : ∀ T th, neverWaits (f T th)) (T : Team) (th : Thread) :
    neverWaits (withPreds ps f T th) := by
  unfold withPreds
  split
  · trivial
  · exact hf T th

theorem neverWaits_withEcc {xs : List Field} {f : Team → Thread → Lane} (hf : ∀ T th, neverWaits (f T th)) (T : Team) (th : Thread) :
    neverWaits (withEcc xs f T th) := by
  unfold withEcc
  split
  · trivial
  · exact hf T th

theorem neverWaits_trapIf {p : Prop} [Decidable p] {th : Thread} {x : Trap} {l : Lane} (hl : neverWaits l) :
    neverWaits (if p then .trap th x else l) := by
  split
  · trivial
  · exact hl

/-- What lets the lanes of an instruction read their sources: its registers lie in the blocks, the sources that must be uniform are, and no
lane waits for an index register's range (05 R93, R100; 10 R202). -/
structure Passes (o : LaneOp) (s : State) (c : Cur) : Prop where
  cur   : s.cur = some c
  block : ∀ T ∈ s.teams, (∃ th ∈ T.threads, th.issuing c.entry = true) → ∀ k ∈ o.named, k < T.bsize
  agree : ∀ T ∈ s.teams, ∀ th ∈ T.executing c.entry o.g, ∀ th' ∈ T.executing c.entry o.g, ∀ q ∈ o.uniform,
            readSrc (s.tickOf T) .int q.2 T th q.1 = readSrc (s.tickOf T) .int q.2 T th' q.1
  free  : ∀ T ∈ s.teams, ∀ th ∈ T.executing c.entry o.g, ∀ n, s.ixWaits T th n = false

theorem Passes.checked {o : LaneOp} {s : State} {c : Cur} (h : Passes o s c) {regs : List Nat} {uni : List Field} {k : State → State}
    (hregs : o.named = regs) (hu : ∀ q ∈ uni, (q.src, q.w) ∈ o.uniform) : s.checked o.g regs uni k = k s := by
  obtain ⟨hcur, hblock, hagree, -⟩ := h
  subst hregs
  exact State.checked_pass (State.blockCheck_none hcur hblock)
    (State.uniformCheck_none hcur fun T hT th hth th' hth' q hq => hagree T hT th hth th' hth' _ (hu q hq))

/-- Past the checks, an instruction runs its lanes, and each reads the sources first. -/
def LanesRun (o : LaneOp) (s t : State) : Prop :=
  ∃ sd xs f, xs.map (fun q : Field => (q.src, q.w)) = o.srcs ∧ (∀ T th, neverWaits (f T th))
    ∧ ∀ c, Passes o s c → t = s.perLane o.g sd (withEcc xs f)

/-- An instruction of the integer class checks its registers first, and past its checks runs its lanes. -/
structure ReadsRegisters (o : LaneOp) (s t : State) : Prop where
  checks : ChecksBlock o.named s t
  runs   : LanesRun o s t

/-! ### The shared forms of the integer class -/

section
variable {o : LaneOp} {s : State}

theorem lanesRun_perLane {xs : List Field} {sd : List (Nat × Nat)} {f : Team → Thread → Lane} (hs : o.srcs = xs.map (fun q => (q.src, q.w)))
    (hf : ∀ T th, neverWaits (f T th)) : LanesRun o s (s.perLane o.g sd (withEcc xs f)) :=
  ⟨sd, xs, f, hs.symm, hf, fun _ _ => rfl⟩

theorem readsRegisters_checked {regs : List Nat} {uni : List Field} {k : State → State} (hregs : o.named = regs)
    (hu : ∀ q ∈ uni, (q.src, q.w) ∈ o.uniform) (hk : LanesRun o s (k s)) : ReadsRegisters o s (s.checked o.g regs uni k) := by
  obtain ⟨sd, xs, f, hs, hf, hrun⟩ := hk
  exact ⟨checksBlock_checked hregs, sd, xs, f, hs, hf, fun c hc => (hc.checked hregs hu).trans (hrun c hc)⟩

theorem readsRegisters_issue {g : Guard} {d : Dst} {w : Nat} {xs : List Field} {f : Team → Thread → Lane} (hf : ∀ T th, neverWaits (f T th))
    (hg : o.g = g := by rfl) (hs : o.srcs = xs.map (fun q => (q.src, q.w)) := by rfl) (hd : o.d = d := by rfl) (hw : o.w = w := by rfl)
    (hregs : o.regs = [] := by rfl) : ReadsRegisters o s (s.issue g d w xs f) := by
  subst hg hd
  unfold State.issue State.issueWith
  exact readsRegisters_checked (laneOp_named_eq hs rfl hw hregs) (mem_uniformFor hs) (lanesRun_perLane hs hf)

/-- An instruction that checks its source registers alone, none of which must be uniform. -/
theorem readsRegisters_sources {g : Guard} {regs : List Nat} {xs : List Field} {f : State → Team → Thread → Lane} (hregs : o.named = regs)
    (hf : ∀ a T th, neverWaits (f a T th)) (hg : o.g = g := by rfl) (hs : o.srcs = xs.map (fun q => (q.src, q.w)) := by rfl) :
    ReadsRegisters o s (s.checked g regs [] fun a => a.perLane g [] (withEcc xs (f a))) := by
  subst hg
  exact readsRegisters_checked hregs (by simp) (lanesRun_perLane hs (hf s))

theorem readsRegisters_divOp {g : Guard} {ty : Ty} {d : Dst} {a b : Src} {f : Nat → Nat → Nat} {v : State → Team → Thread → Nat} :
    ReadsRegisters (awaits g d ty.opBits [(a, ty.opBits), (b, ty.opBits)] .arith v) s (s.divOp g ty d a b f) := by
  unfold State.divOp
  exact readsRegisters_checked (o := awaits g d ty.opBits [(a, ty.opBits), (b, ty.opBits)] .arith v) (by simp [LaneOp.named, awaits])
    (mem_uniformFor rfl) (lanesRun_perLane rfl fun _ _ => trivial)

/-- An instruction of predicates names no register. -/
theorem readsRegisters_predOp {g : Guard} {ps : List Nat} {f : Thread → Thread} {e : State → Team → Thread → Thread} :
    ReadsRegisters (sets g [] e) s (s.predOp g ps f) := by
  have hecc (h : Team → Thread → Lane) : withEcc [] h = h := by
    funext T th
    exact withEcc_clean (by unfold Thread.eccTrap; split <;> rfl)
  have hblock : s.blockCheck [] = none := by unfold State.blockCheck; split <;> rfl
  have hchecked : s.predOp g ps f = s.checked g [] [] fun a => a.predOp g ps f :=
    (State.checked_pass (k := fun a => a.predOp g ps f) hblock (s.uniformCheck_nil g)).symm
  rw [hchecked]
  refine readsRegisters_checked (o := sets g [] e) rfl (by simp) ?_
  unfold State.predOp
  rw [← hecc (withPreds ps _)]
  exact lanesRun_perLane rfl (neverWaits_withPreds fun _ _ => trivial)

/-- movx and stx, whose group waits for the range of an index register before any lane reads (10 R202). -/
theorem readsRegisters_afterIndex {g : Guard} {regs : List Nat} {n : Nat} {k : State → State} (hregs : o.named = regs)
    (hk : LanesRun o s (k s)) (hg : o.g = g := by rfl) : ReadsRegisters o s (s.afterIndex g regs n k) := by
  subst hg
  obtain ⟨sd, xs, f, hs, hf, hrun⟩ := hk
  refine readsRegisters_checked hregs (by simp) ⟨sd, xs, f, hs, hf, fun c hc => ?_⟩
  have hfree : (s.executing c.entry o.g).any (fun q => s.ixWaits q.1 q.2 n) = false := by
    simp only [State.executing, List.any_eq_false, List.mem_flatMap, List.mem_map, Bool.not_eq_true]
    rintro _ ⟨T, hT, th, hth, rfl⟩
    exact hc.free T hT th hth n
  rw [hc.cur]
  dsimp only
  rw [hfree]
  exact hrun c hc

end

/-- The integer class (10 R186 to R204). -/
theorem intOp_readsRegisters {i : Instr} {o : LaneOp} (hi : intOp i = some o) (s : State) :
    ∃ t, exec i s = .next t ∧ ReadsRegisters o s t := by
  cases i with
  | iaddI32 g d a b | isubI32 g d a b | iaddI64 g d a b | isubI64 g d a b | imulI32 g d a b | imulhiI32 g d a b | imulhiN32 g d a b
  | iminI32 g d a b | imaxI32 g d a b | iminN32 g d a b | imaxN32 g d a b | andB32 g d a b | orB32 g d a b | xorB32 g d a b
  | andnB32 g d a b | shl g d a b | shr g d a b | sar g d a b | rotl g d a b | popc g d a | clz g d a | ctz g d a | brev g d a
  | iabsI32 g d a | inegI32 g d a | mov g d a | iaddi g d a k | andi g d a k | ori g d a k | xori g d a k | movi g d k
  | imad g ty d a b e | lea g ty sh d a b | iaddL g ty sat d a b | bfe g ty d a b | bfi g ty d a b e | shf g ty right d a b e
  | icvt g ty sty sat d a =>
    cases hi
    exact ⟨_, rfl, readsRegisters_issue fun _ _ => trivial⟩
  | sel g ty d a b n | iaddc g ty d a b n | isubb g ty d a b n | pmovFrom g d a =>
    cases hi
    exact ⟨_, rfl, readsRegisters_issue (neverWaits_withPreds fun _ _ => trivial)⟩
  | pand g d a b | por g d a b | pxor g d a b | pnot g d a =>
    cases hi
    exact ⟨_, rfl, readsRegisters_predOp⟩
  | idiv g ty d a b | irem g ty d a b =>
    cases hi
    exact ⟨_, rfl, readsRegisters_divOp⟩
  | icmp g ty cc d a b | pmovTo g d a =>
    cases hi
    exact ⟨_, rfl, readsRegisters_sources (by simp [LaneOp.named, sets, dstRegs]) (fun _ _ _ => trivial)⟩
  | setix g n a =>
    cases hi
    exact ⟨_, rfl, readsRegisters_sources (by simp [LaneOp.named, sets, dstRegs])
      fun _ _ _ => neverWaits_trapIf (neverWaits_trapIf trivial)⟩
  | movx g ty n d a =>
    cases hi
    refine ⟨_, rfl, readsRegisters_afterIndex (by simp [LaneOp.named, writes]) (readsRegisters_issue fun T th => ?_).runs⟩
    split
    · trivial
    · refine neverWaits_withEcc (fun _ _ => ?_) T th
      trivial
  | stx g ty n a b =>
    cases hi
    refine ⟨_, rfl, readsRegisters_afterIndex (by simp [LaneOp.named, sets, dstRegs]) (lanesRun_perLane rfl fun T th => ?_)⟩
    split <;> trivial
  | _ => nomatch hi

/-- Every instruction of the four classes checks the registers that it names first. -/
theorem namedRegs_checksBlock {i : Instr} {regs : List Nat} (h : namedRegs i = some regs) (s : State) :
    ∃ t, exec i s = .next t ∧ ChecksBlock regs s t := by
  unfold namedRegs at h
  split at h
  · rename_i o hi
    cases h
    obtain ⟨t, ht, hreads⟩ := intOp_readsRegisters hi s
    exact ⟨t, ht, hreads.checks⟩
  · rename_i o hi _
    cases h
    exact fltOp_checksBlock hi
  · rename_i o hi _ _
    cases h
    exact xlOp_checksBlock hi
  · split at h
    · rename_i o hi
      cases h
      exact memOp_checksBlock hi
    · cases h

/-! ### A lane that reads a register with an uncorrectable error -/

/-- A source with a marked register is met (21 R400). -/
theorem eccTrap_marked {xs : List Field} {T : Team} {th : Thread} {q : Src × Nat} {k : Nat} (hq : q ∈ xs.map (fun x => (x.src, x.w)))
    (hk : k ∈ srcCodes q.2 q.1) (hecc : k ∈ th.ecc ∨ k ∈ T.ecc) : ∃ n, th.eccTrap T xs = some { cause := 0x1e0, sub := n } := by
  obtain ⟨x, hx, rfl⟩ := List.mem_map.mp hq
  have hmarked : th.marked T k = true := by
    unfold Thread.marked
    rcases hecc with hecc | hecc <;> simp [hecc]
  have hsome : ((xs.flatMap fun x => srcCodes x.w x.src).find? (th.marked T)).isSome = true :=
    List.find?_isSome.mpr ⟨k, List.mem_flatMap.mpr ⟨x, hx, hk⟩, hmarked⟩
  obtain ⟨n, hn⟩ := Option.isSome_iff_exists.mp hsome
  refine ⟨n, ?_⟩
  unfold Thread.eccTrap
  rw [if_neg, hn, Option.map_some]
  simp only [Bool.and_eq_true, List.isEmpty_iff, not_and]
  rintro ⟨hT, -⟩ hth
  rw [hT, hth] at hecc
  simp at hecc

theorem firstWait_neverWaits {f : Team → Thread → Lane} (hf : ∀ T th, neverWaits (f T th)) (s : State) (c : Cur) (g : Guard) :
    s.firstWait c g f = none := by
  refine List.findSome?_eq_none_iff.mpr fun T _ => List.findSome?_eq_none_iff.mpr fun th _ => ?_
  have hlane := hf T th
  split
  · rename_i heq
    rw [heq] at hlane
    exact hlane.elim
  · rfl

/-- Teams that are put back one after another: one that a step has put back stays, so each has something of its own in the end. -/
theorem foldl_mem_teams {F : State → Team → State} {P : Team → Prop} {l : List Team} {T : Team} (hT : T ∈ l)
    (hkeep : ∀ a, ∀ U ∈ l, a.teams ⊆ (F a U).teams) (hP : ∀ a, ∃ V ∈ (F a T).teams, P V) (a : State) :
    ∃ V ∈ (l.foldl F a).teams, P V := by
  have hrest (l' : List Team) (hl : ∀ U ∈ l', U ∈ l) (b : State) : b.teams ⊆ (l'.foldl F b).teams :=
    List.foldlRecOn (motive := fun d : State => b.teams ⊆ d.teams) l' F (List.Subset.refl _) fun d hd U hU =>
      List.Subset.trans hd (hkeep d U (hl U hU))
  obtain ⟨pre, post, rfl⟩ := List.append_of_mem hT
  rw [List.foldl_append, List.foldl_cons]
  obtain ⟨V, hV, hVP⟩ := hP (pre.foldl F a)
  exact ⟨V, hrest post (fun U hU => by simp [hU]) _ hV, hVP⟩

/-- A team that is not bound parks a lane that faults. -/
theorem runTeam_trap {s : State} {c : Cur} {g : Guard} {keep : Bool} {f : Team → Thread → Lane} {T : Team} {th : Thread} {x : Trap}
    (hb : T.bound = false) (hth : th ∈ T.executing c.entry g) (htrap : f T th = .trap th x) :
    ∃ ths, (s.runTeam c g keep f T).1 = { T with threads := ths } ∧ th.park (s.record T th th.clause c.slot false x) c.slot true ∈ ths := by
  obtain ⟨hmem, hexec⟩ := List.mem_filter.mp hth
  unfold State.runTeam
  dsimp only
  rw [hb]
  refine ⟨_, rfl, ?_⟩
  rw [List.map_map]
  refine List.mem_map.mpr ⟨th, hmem, ?_⟩
  rw [Function.comp_apply, if_pos hexec, htrap]

theorem exists_mem_of_forall₂ {α β : Type} {R : α → β → Prop} {l : List α} {l' : List β} (h : List.Forall₂ R l l') {a : α} (ha : a ∈ l) :
    ∃ b ∈ l', R a b := by
  induction h with
  | nil => cases ha
  | cons hab _ ih =>
    rcases List.mem_cons.mp ha with rfl | ha
    · exact ⟨_, List.mem_cons_self, hab⟩
    · obtain ⟨b, hb, hR⟩ := ih ha
      exact ⟨b, List.mem_cons_of_mem _ hb, hR⟩

/-- What the s destinations of a team that is not bound leave of it: its name, and a thread that does not issue. -/
theorem teamKept_unbound {c : Cur} {T U : Team} (h : teamKept c T U) (hb : T.bound = false) :
    (U.launch = T.launch ∧ U.wg = T.wg ∧ U.idx = T.idx) ∧ ∀ th ∈ T.threads, th.issuing c.entry = false → th ∈ U.threads := by
  obtain ⟨heq, -, -, hthreads⟩ := h
  refine ⟨by rw [heq]; exact ⟨rfl, rfl, rfl⟩, fun th hth hidle => ?_⟩
  obtain ⟨x, hx, hkept⟩ := exists_mem_of_forall₂ hthreads hth
  obtain ⟨-, -, -, -, -, -, -, -, -, -, -, -, -, -, -, -, hunbound, -⟩ := hkept
  obtain ⟨-, hsame⟩ := hunbound hb
  exact hsame hidle ▸ hx

/-- A lane that faults parks, whatever the other lanes do, where its team is not bound. -/
theorem perLane_parks {s : State} {c : Cur} (hc : s.cur = some c) {g : Guard} {sd : List (Nat × Nat)} {f : Team → Thread → Lane} {keep : Bool}
    (hf : ∀ T th, neverWaits (f T th)) {T : Team} {th : Thread} {x : Trap} (hT : T ∈ s.teams) (hb : T.bound = false)
    (hth : th ∈ T.executing c.entry g) (htrap : f T th = .trap th x) :
    ∃ U ∈ (s.perLane g sd f keep).teams, (U.launch = T.launch ∧ U.wg = T.wg ∧ U.idx = T.idx)
      ∧ th.park (s.record T th th.clause c.slot false x) c.slot true ∈ U.threads := by
  unfold State.perLane
  rw [hc]
  dsimp only
  rw [firstWait_neverWaits hf]
  refine foldl_mem_teams hT (fun a U _ => ?_) (fun a => ?_) _
  · obtain ⟨n, hstate, -⟩ := writeSAll_kept (s.runTeam c g keep f U).2 sd 0 a _ (teamKept_refl c (s.runTeam c g keep f U).1)
    dsimp only
    rw [hstate]
    exact List.subset_append_left _ _
  · obtain ⟨ths, hran, hpark⟩ := runTeam_trap (s := s) (keep := keep) hb hth htrap
    obtain ⟨-, -, hteam⟩ := writeSAll_kept (s.runTeam c g keep f T).2 sd 0 a _ (teamKept_refl c (s.runTeam c g keep f T).1)
    obtain ⟨hname, hthreads⟩ := teamKept_unbound hteam (by rw [hran]; exact hb)
    refine ⟨_, List.mem_append_right _ (List.mem_singleton.mpr rfl), ?_, hthreads _ (by rw [hran]; exact hpark) rfl⟩
    rwa [congrArg Team.launch hran, congrArg Team.wg hran, congrArg Team.idx hran] at hname

/-! ### The obligation -/

/-- Settles O53: a register beyond the block by what each class checks first (`namedRegs_checksBlock`), a marked one by what the lanes of
the integer class do past their checks (`intOp_readsRegisters`, `perLane_parks`). -/
theorem registerFaults : Obligations.RegisterFaults := by
  unfold Obligations.RegisterFaults
  refine ⟨fun i regs _ hregs s c hc hbeyond => ?_,
    fun i o s t c T th q k _ hi hc hblock hagree hfree hT hth hb hq hk hecc hexec => ?_⟩
  · obtain ⟨t, ht, hchecks⟩ := namedRegs_checksBlock hregs s
    obtain ⟨k, hk, hkb, hpark⟩ := hchecks.parks hc hbeyond
    exact ⟨k, hk, hkb, ht.trans (congrArg _ hpark)⟩
  · obtain ⟨u, hu, -, sd, xs, f, hs, hf, hrun⟩ := intOp_readsRegisters hi s
    obtain rfl : u = t := by injection hu.symm.trans hexec
    obtain ⟨n, htrap⟩ := eccTrap_marked (hs ▸ hq) hk hecc
    have hlane : withEcc xs f T th = .trap th { cause := 0x1e0, sub := n } := by rw [withEcc, htrap]
    obtain ⟨U, hU, ⟨hl, hw, hidx⟩, hpark⟩ := perLane_parks (sd := sd) (keep := false) hc (neverWaits_withEcc hf) hT hb hth hlane
    rw [← hrun c ⟨hc, hblock, hagree, hfree⟩] at hU
    exact ⟨U, hU, hl, hw, hidx, _, hpark, rfl, rfl, rfl, rfl, rfl, _, rfl, rfl, rfl, rfl, rfl⟩

end Sys2Proof.Claims

/-!
The numbers of the floating formats as rationals (06 R107, R114): what the integer arithmetic of the model computes of a dyadic or a
fraction, what rounding gives for a number that a format holds, and which number an encoding is read as.
-/

namespace Sys2Proof.Claims
open Sys2Proof Sys2Proof.Machine

/-! ### Dyadics and fractions -/

theorem zpow_eq_toNat {k : Int} (hk : 0 ≤ k) : (2 : ℚ) ^ k = ((2 ^ k.toNat : Nat) : ℚ) := by
  rw [Nat.cast_pow, ← zpow_natCast, Int.toNat_of_nonneg hk, Nat.cast_ofNat]

theorem zpow_eq_inv_toNat {k : Int} (hk : ¬0 ≤ k) : (2 : ℚ) ^ k = ((2 ^ (-k).toNat : Nat) : ℚ)⁻¹ := by
  rw [← zpow_eq_toNat (by omega), zpow_neg, inv_inv]

/-- A dyadic on a common, lower exponent. -/
theorem shifted_dyadic (n : Int) {e d : Int} (h : d ≤ e) : ((n * 2 ^ (e - d).toNat : Int) : ℚ) * 2 ^ d = n * 2 ^ e := by
  have hshift : (2 : ℚ) ^ (e - d) = 2 ^ (e - d).toNat := by rw [zpow_eq_toNat (by omega)]; push_cast; rfl
  push_cast
  rw [← hshift, mul_assoc, ← zpow_add₀ (by norm_num), sub_add_cancel]

theorem scaleFrac_snd_ne_zero {num den : Nat} (hd : den ≠ 0) (k : Int) : (scaleFrac num den k).2 ≠ 0 := by
  unfold scaleFrac
  split
  · exact Nat.mul_ne_zero hd (by positivity)
  · exact hd

/-- `scaleFrac` divides the fraction by 2^k. -/
theorem scaleFrac_value (num den : Nat) (k : Int) : ((scaleFrac num den k).1 : ℚ) / (scaleFrac num den k).2 = num / den / 2 ^ k := by
  unfold scaleFrac
  split
  next hk => rw [zpow_eq_toNat hk, Nat.cast_mul, div_div]
  next hk => rw [zpow_eq_inv_toNat hk, Nat.cast_mul, div_inv_eq_mul, div_mul_eq_mul_div]

/-- The test of `ilog2` for an exponent k. -/
theorem zpow_le_iff_scaleFrac (num : Nat) {den : Nat} (hd : den ≠ 0) (k : Int) :
    (2 : ℚ) ^ k ≤ num / den ↔ (scaleFrac num den k).2 ≤ (scaleFrac num den k).1 := by
  have hpos : (0 : ℚ) < (scaleFrac num den k).2 := Nat.cast_pos.mpr (Nat.pos_of_ne_zero (scaleFrac_snd_ne_zero hd k))
  rw [← Nat.cast_le (α := ℚ), ← one_le_div hpos, scaleFrac_value, one_le_div (by positivity)]

theorem ilog2_eq (num den : Nat) : ilog2 num den =
    if (scaleFrac num den (num.log2 - den.log2)).2 ≤ (scaleFrac num den (num.log2 - den.log2)).1 then (num.log2 : Int) - den.log2
    else (num.log2 : Int) - den.log2 - 1 := by
  unfold ilog2 scaleFrac
  by_cases hk : 0 ≤ (num.log2 : Int) - den.log2
  · simp only [if_pos hk, decide_eq_true_iff]
  · simp only [if_neg hk, decide_eq_true_iff]

/-- `ilog2` is the exponent of the greatest power of two that is not above the fraction. -/
theorem le_ilog2_iff {num den : Nat} (hn : num ≠ 0) (hd : den ≠ 0) (k : Int) : k ≤ ilog2 num den ↔ (2 : ℚ) ^ k ≤ num / den := by
  have hdpos : (0 : ℚ) < den := by positivity
  have hn1 : (2 : ℚ) ^ (num.log2 : Int) ≤ num := by exact_mod_cast Nat.log2_self_le hn
  have hn2 : (num : ℚ) < 2 ^ ((num.log2 : Int) + 1) := by exact_mod_cast Nat.lt_log2_self (n := num)
  have hd1 : (2 : ℚ) ^ (den.log2 : Int) ≤ den := by exact_mod_cast Nat.log2_self_le hd
  have hd2 : (den : ℚ) < 2 ^ ((den.log2 : Int) + 1) := by exact_mod_cast Nat.lt_log2_self (n := den)
  have hlow : (2 : ℚ) ^ ((num.log2 : Int) - den.log2 - 1) ≤ num / den := by
    rw [le_div_iff₀ hdpos]
    calc (2 : ℚ) ^ ((num.log2 : Int) - den.log2 - 1) * den ≤ 2 ^ ((num.log2 : Int) - den.log2 - 1) * 2 ^ ((den.log2 : Int) + 1) := by gcongr
      _ = 2 ^ (num.log2 : Int) := by rw [← zpow_add₀ (by norm_num)]; congr 1; ring
      _ ≤ num := hn1
  have hhigh : (num : ℚ) / den < 2 ^ ((num.log2 : Int) - den.log2 + 1) := by
    rw [div_lt_iff₀ hdpos]
    calc (num : ℚ) < 2 ^ ((num.log2 : Int) + 1) := hn2
      _ = 2 ^ ((num.log2 : Int) - den.log2 + 1) * 2 ^ (den.log2 : Int) := by rw [← zpow_add₀ (by norm_num)]; congr 1; ring
      _ ≤ 2 ^ ((num.log2 : Int) - den.log2 + 1) * den := by gcongr
  have hspec : (2 : ℚ) ^ ilog2 num den ≤ num / den ∧ (num : ℚ) / den < 2 ^ (ilog2 num den + 1) := by
    rw [ilog2_eq]
    split
    next hle => exact ⟨(zpow_le_iff_scaleFrac num hd _).mpr hle, hhigh⟩
    next hgt =>
      rw [sub_add_cancel]
      exact ⟨hlow, not_le.mp fun h => hgt ((zpow_le_iff_scaleFrac num hd _).mp h)⟩
  obtain ⟨hl, hu⟩ := hspec
  constructor
  · exact fun hk => (zpow_le_zpow_right₀ (by norm_num) hk).trans hl
  · intro hk
    have := (zpow_lt_zpow_iff_right₀ (by norm_num : (1 : ℚ) < 2)).mp (hk.trans_lt hu)
    omega

/-- The fraction that `roundDyadic` and `finToInt` make of a dyadic. -/
theorem dyadic_eq_scaleFrac (n : Nat) (e : Int) :
    (if 0 ≤ e then (n * 2 ^ e.toNat, 1) else (n, 2 ^ (-e).toNat)) = scaleFrac n 1 (-e) := by
  unfold scaleFrac
  rcases lt_trichotomy e 0 with h | rfl | h
  · rw [if_neg (by omega), if_pos (by omega), one_mul]
  · simp
  · rw [if_pos (by omega), if_neg (by omega), neg_neg]

theorem scaleFrac_dyadic (n : Nat) (e : Int) : ((scaleFrac n 1 (-e)).1 : ℚ) / (scaleFrac n 1 (-e)).2 = n * 2 ^ e := by
  rw [scaleFrac_value, Nat.cast_one, div_one, zpow_neg, div_inv_eq_mul]

/-- The number of a fraction that is a natural number times its denominator. -/
theorem eq_mul_of_div_eq {num den m : Nat} (hd : den ≠ 0) (h : (num : ℚ) / den = m) : num = m * den := by
  rw [div_eq_iff (by positivity)] at h
  exact_mod_cast h

theorem cast_smant (neg : Bool) (m : Nat) : ((smant neg m : Int) : ℚ) = (if neg then -1 else 1) * (m : ℚ) := by
  cases neg <;> simp [smant]

theorem ratOf_fin (neg : Bool) (m : Nat) (e : Int) : ratOf (.fin neg m e) = smant neg m * 2 ^ e := by
  rw [cast_smant, ratOf]

@[simp] theorem smant_natAbs (neg : Bool) (m : Nat) : (smant neg m).natAbs = m := by cases neg <;> simp [smant]
@[simp] theorem smant_zero (neg : Bool) : smant neg 0 = 0 := by cases neg <;> rfl

/-- `addDy` is the exact sum. -/
theorem addDy_value (n1 e1 n2 e2 : Int) : ((addDy n1 e1 n2 e2).1 : ℚ) * 2 ^ (addDy n1 e1 n2 e2).2 = n1 * 2 ^ e1 + n2 * 2 ^ e2 := by
  have h1 := shifted_dyadic n1 (min_le_left e1 e2)
  have h2 := shifted_dyadic n2 (min_le_right e1 e2)
  simp only [addDy, Int.cast_add, add_mul, h1, h2]

theorem addDy_eq_zero {n1 e1 n2 e2 : Int} (h : (n1 : ℚ) * 2 ^ e1 + n2 * 2 ^ e2 = 0) : (addDy n1 e1 n2 e2).1 = 0 := by
  rw [← addDy_value, mul_eq_zero, or_iff_left (by positivity)] at h
  exact_mod_cast h

/-- `FVal.lt` orders finite values as the numbers that they are. -/
theorem lt_fin_iff (n1 n2 : Bool) (m1 m2 : Nat) (e1 e2 : Int) :
    (FVal.fin n1 m1 e1).lt (.fin n2 m2 e2) = true ↔ ratOf (.fin n1 m1 e1) < ratOf (.fin n2 m2 e2) := by
  have hpos : (0 : ℚ) < 2 ^ min e1 e2 := by positivity
  rw [ratOf_fin, ratOf_fin, ← shifted_dyadic _ (min_le_left e1 e2), ← shifted_dyadic _ (min_le_right e1 e2), mul_lt_mul_iff_left₀ hpos,
    Int.cast_lt, FVal.lt, decide_eq_true_iff]

/-- `floorDy` is the floor of x * 2^k. -/
theorem floorDy_eq_floor (n e : Int) (k : Nat) : floorDy n e k = ⌊(n : ℚ) * 2 ^ e * 2 ^ k⌋ := by
  have hsum : (n : ℚ) * 2 ^ e * 2 ^ k = n * 2 ^ (e + k) := by rw [mul_assoc, zpow_add₀ (by norm_num), zpow_natCast]
  rw [hsum, floorDy]
  split
  next h =>
    have hint : (n : ℚ) * (2 ^ (e + k).toNat : Nat) = ((n * 2 ^ (e + k).toNat : Int) : ℚ) := by push_cast; rfl
    rw [zpow_eq_toNat h, hint, Int.floor_intCast]
  next h =>
    rw [zpow_eq_inv_toNat h, ← div_eq_mul_inv, Rat.floor_intCast_div_natCast, Nat.cast_pow, Nat.cast_ofNat]

/-! ### Rounding a magnitude -/

theorem roundMag_exact {num den : Nat} (rm : Rm) (neg : Bool) (h : num % den = 0) : roundMag rm neg false num den = num / den := by
  simp [roundMag, h]

theorem le_roundMag (rm : Rm) (neg more : Bool) (num den : Nat) : num / den ≤ roundMag rm neg more num den := by
  unfold roundMag
  dsimp only
  split
  · exact le_rfl
  · cases rm
    case rtz => exact le_rfl
    all_goals dsimp only; split <;> omega

/-! ### Rounding a number that a format holds -/

/-- The number m * 2^e that a format reads in an encoding c without its sign, subnormal or normal (R107). -/
def Encodes (t : Ty) (c m : Nat) (e : Int) : Prop :=
  c < 2 ^ (fmtOf t).tbits ∧ m = c ∧ e = 1 - ((fmtOf t).bias : Int) - (fmtOf t).tbits
  ∨ 2 ^ (fmtOf t).tbits ≤ c ∧ m = 2 ^ (fmtOf t).tbits + c % 2 ^ (fmtOf t).tbits
    ∧ e = ((c / 2 ^ (fmtOf t).tbits : Nat) : Int) - (fmtOf t).bias - (fmtOf t).tbits

theorem Encodes.eq_zero {t : Ty} {c : Nat} {e : Int} (h : Encodes t c 0 e) : c = 0 := by
  have := Nat.two_pow_pos (fmtOf t).tbits
  obtain ⟨-, hm, -⟩ | ⟨-, hm, -⟩ := h <;> omega

/-- The place of the last bit that `roundFrac` keeps of a number in a format is the exponent that the format reads. -/
theorem Encodes.roundExp {t : Ty} {c m num den : Nat} {q : Int} (henc : Encodes t c m q) (hn : num ≠ 0) (hd : den ≠ 0)
    (hv : (num : ℚ) / den = m * 2 ^ q) : max (ilog2 num den) (1 - ((fmtOf t).bias : Int)) - (fmtOf t).tbits = q := by
  have hlog (k : Int) : k ≤ ilog2 num den ↔ (2 : ℚ) ^ (k - q) ≤ m := by
    rw [le_ilog2_iff hn hd, hv, zpow_sub₀ (by norm_num), div_le_iff₀ (by positivity)]
  have hupper {p : Nat} (hm : m < 2 ^ p) : ilog2 num den < q + p := by
    rw [← not_le, hlog, add_sub_cancel_left, not_le]
    exact_mod_cast hm
  obtain ⟨hc, rfl, hq⟩ | ⟨hc, hm, hq⟩ := henc
  · have := hupper hc
    omega
  · have hlower : q + (fmtOf t).tbits ≤ ilog2 num den := by
      rw [hlog, add_sub_cancel_left]
      exact_mod_cast (show 2 ^ (fmtOf t).tbits ≤ m by omega)
    have := hupper (show m < 2 ^ ((fmtOf t).tbits + 1) by
      have := Nat.mod_lt c (Nat.two_pow_pos (fmtOf t).tbits)
      rw [pow_succ]
      omega)
    have : 1 ≤ c / 2 ^ (fmtOf t).tbits := Nat.div_pos hc (Nat.two_pow_pos _)
    omega

/-- The encoding that `roundFrac` writes for the significand and the exponent of a number. -/
theorem Encodes.write {t : Ty} {c m : Nat} {q : Int} (henc : Encodes t c m q) :
    (if m < 2 ^ (fmtOf t).tbits then m
      else (q + (fmtOf t).tbits - (1 - ((fmtOf t).bias : Int)) + 1).toNat * 2 ^ (fmtOf t).tbits + (m - 2 ^ (fmtOf t).tbits)) = c := by
  obtain ⟨hc, rfl, -⟩ | ⟨-, rfl, rfl⟩ := henc
  · rw [if_pos hc]
  · rw [if_neg (by omega), Nat.add_sub_cancel_left]
    have hexp (x b n : Nat) : ((x : Int) - b - n + n - (1 - (b : Int)) + 1).toNat = x := by omega
    rw [hexp, Nat.div_add_mod']

theorem Encodes.lt_two_pow {t : Ty} {c m : Nat} {q : Int} (henc : Encodes t c m q) : m < 2 ^ ((fmtOf t).tbits + 1) := by
  have := Nat.mod_lt c (Nat.two_pow_pos (fmtOf t).tbits)
  rw [pow_succ]
  obtain ⟨hc, rfl, -⟩ | ⟨-, rfl, -⟩ := henc <;> omega

/-- A fraction that a format holds is delivered without an exception (R114). -/
theorem roundFrac_of_encodes {t : Ty} {c m num den : Nat} {q : Int} (rm : Rm) (sat neg : Bool) (henc : Encodes t c m q)
    (hc : c ≤ maxFinite t) (hm : m ≠ 0) (hd : den ≠ 0) (hv : (num : ℚ) / den = m * 2 ^ q) :
    roundFrac t rm sat false neg false num den = ⟨withSign t neg c, 0⟩ := by
  have hn : num ≠ 0 := by
    rintro rfl
    rw [Nat.cast_zero, zero_div, eq_comm, mul_eq_zero, or_iff_left (by positivity)] at hv
    exact hm (by exact_mod_cast hv)
  have hq := henc.roundExp hn hd hv
  have he : max (ilog2 num den) (1 - ((fmtOf t).bias : Int)) = q + (fmtOf t).tbits := by omega
  have hscaled : (scaleFrac num den q).1 = m * (scaleFrac num den q).2 := by
    refine eq_mul_of_div_eq (scaleFrac_snd_ne_zero hd q) ?_
    rw [scaleFrac_value, hv, mul_div_assoc, div_self (by positivity), mul_one]
  have hmod : (scaleFrac num den q).1 % (scaleFrac num den q).2 = 0 := by rw [hscaled, Nat.mul_mod_left]
  have hmag : roundMag rm neg false (scaleFrac num den q).1 (scaleFrac num den q).2 = m := by
    rw [roundMag_exact rm neg hmod, hscaled, Nat.mul_div_cancel _ (Nat.pos_of_ne_zero (scaleFrac_snd_ne_zero hd q))]
  have hcarry : m ≠ 2 ^ ((fmtOf t).tbits + 1) := henc.lt_two_pow.ne
  unfold roundFrac
  simp only [he, add_sub_cancel_right, hmag, hmod, hcarry, hm, henc.write, not_lt.mpr hc, if_false, Bool.false_and, Bool.not_false, Bool.and_true,
    decide_true, Bool.not_true, Bool.and_false, if_true, Bool.false_eq_true, BitVec.or_self]

theorem roundDyadic_eq (t : Ty) (rm : Rm) (sat ftz z : Bool) {n : Int} (hn : n ≠ 0) (e : Int) : roundDyadic t rm sat ftz z n e
    = roundFrac t rm sat ftz (decide (n < 0)) false (scaleFrac n.natAbs 1 (-e)).1 (scaleFrac n.natAbs 1 (-e)).2 := by
  rw [roundDyadic, if_neg hn, dyadic_eq_scaleFrac]

@[simp] theorem roundDyadic_zero (t : Ty) (rm : Rm) (sat ftz z : Bool) (e : Int) :
    roundDyadic t rm sat ftz z 0 e = ⟨zeroBits t z, 0⟩ := rfl

/-- A dyadic other than zero that a format holds is delivered without an exception, however it is written (R114). -/
theorem roundDyadic_of_encodes {t : Ty} {c m : Nat} {q n e : Int} (rm : Rm) (sat z neg : Bool) (henc : Encodes t c m q)
    (hc : c ≤ maxFinite t) (hm : m ≠ 0) (hv : (n : ℚ) * 2 ^ e = smant neg m * 2 ^ q) :
    roundDyadic t rm sat false z n e = ⟨withSign t neg c, 0⟩ := by
  have hpos : (0 : ℚ) < m * 2 ^ q := by positivity
  have hepos : (0 : ℚ) < 2 ^ e := by positivity
  have habs : ((n.natAbs : Nat) : ℚ) * 2 ^ e = m * 2 ^ q := by
    have := congrArg abs hv
    rwa [abs_mul, abs_mul, abs_zpow, abs_zpow, ← Int.cast_abs, ← Int.cast_abs, Int.abs_eq_natAbs, Int.abs_eq_natAbs, smant_natAbs,
      abs_of_pos (by norm_num : (0 : ℚ) < 2), Int.cast_natCast, Int.cast_natCast] at this
  have hsign : decide (n < 0) = neg := by
    rw [cast_smant] at hv
    cases neg
    · rw [decide_eq_false_iff_not, not_lt]
      have : (0 : ℚ) ≤ n := by
        refine nonneg_of_mul_nonneg_left (b := (2 : ℚ) ^ e) ?_ hepos
        rw [hv]; simpa using hpos.le
      exact_mod_cast this
    · rw [decide_eq_true_iff]
      have : (n : ℚ) < 0 := by
        refine neg_of_mul_neg_left (b := (2 : ℚ) ^ e) ?_ hepos.le
        rw [hv]; simpa using hpos
      exact_mod_cast this
  have hn : n ≠ 0 := by
    rintro rfl
    exact hpos.ne (by simpa using habs)
  rw [roundDyadic_eq t rm sat false z hn, hsign]
  exact roundFrac_of_encodes rm sat neg henc hc hm (scaleFrac_snd_ne_zero one_ne_zero _) ((scaleFrac_dyadic _ e).trans habs)

/-! ### What an encoding reads as -/

theorem signBit_eq (t : Ty) : signBit t = 2 ^ (fmtOf t).tbits * 2 ^ (fmtOf t).ebits := by
  rw [signBit, Fmt.bits, ← pow_add]
  congr 1
  omega

theorem two_pow_bits (t : Ty) : 2 ^ (fmtOf t).bits = signBit t * 2 := by
  rw [signBit, ← pow_succ]
  congr 1
  rw [Fmt.bits]
  omega

/-- The exponent field and the trailing field are those of the encoding without its sign. -/
theorem mod_signBit_div (t : Ty) (b : Nat) : b % signBit t / 2 ^ (fmtOf t).tbits = b / 2 ^ (fmtOf t).tbits % 2 ^ (fmtOf t).ebits := by
  rw [signBit_eq, Nat.mod_mul_right_div_self]

theorem mod_signBit_mod (t : Ty) (b : Nat) : b % signBit t % 2 ^ (fmtOf t).tbits = b % 2 ^ (fmtOf t).tbits :=
  Nat.mod_mod_of_dvd b (Dvd.intro _ (signBit_eq t).symm)

/-- The finite number of an encoding whose fields are neither an infinity's nor a NaN's. -/
def finVal (t : Ty) (b : Nat) : FVal :=
  if b / 2 ^ (fmtOf t).tbits % 2 ^ (fmtOf t).ebits = 0 then
    .fin ((b / signBit t % 2 == 1) && !(t = .e2m1 && b % 2 ^ (fmtOf t).tbits = 0)) (b % 2 ^ (fmtOf t).tbits)
      (1 - ((fmtOf t).bias : Int) - (fmtOf t).tbits)
  else
    .fin (b / signBit t % 2 == 1) (2 ^ (fmtOf t).tbits + b % 2 ^ (fmtOf t).tbits)
      (((b / 2 ^ (fmtOf t).tbits % 2 ^ (fmtOf t).ebits : Nat) : Int) - (fmtOf t).bias - (fmtOf t).tbits)

/-- Of a format whose topmost exponent field holds no number, a lower one holds no more than the largest finite number. -/
theorem le_maxFinite {t : Ty} {b : Nat} (h4 : t ≠ .e4m3) (h1 : t ≠ .e2m1)
    (hexp : b / 2 ^ (fmtOf t).tbits % 2 ^ (fmtOf t).ebits ≠ 2 ^ (fmtOf t).ebits - 1) : b % signBit t ≤ maxFinite t := by
  have hmax : maxFinite t + 1 = (2 ^ (fmtOf t).ebits - 1) * 2 ^ (fmtOf t).tbits := by cases t <;> revert h4 h1 <;> decide
  have hlt := Nat.mod_lt (b / 2 ^ (fmtOf t).tbits) (Nat.two_pow_pos (fmtOf t).ebits)
  rw [← Nat.lt_succ_iff, Nat.succ_eq_add_one, hmax, ← Nat.div_lt_iff_lt_mul (Nat.two_pow_pos _), mod_signBit_div]
  omega

/-- A value that is finite is the finite number of its encoding, which is not above the largest finite one. -/
theorem fval_fin_eq {t : Ty} {b m : Nat} {neg : Bool} {e : Int} (h : fval t b = .fin neg m e) :
    finVal t b = .fin neg m e ∧ b % signBit t ≤ maxFinite t := by
  unfold fval at h
  dsimp only at h
  split at h
  · exact ⟨h, Nat.le_of_lt_succ (Nat.mod_lt b (by decide))⟩
  · split at h
    · cases h
    next hf =>
      rw [Bool.and_eq_true, decide_eq_true_iff, decide_eq_true_iff] at hf
      change ¬(b / 8 % 16 = 15 ∧ b % 8 = 7) at hf
      refine ⟨h, ?_⟩
      change b % 128 ≤ 126
      omega
  next h1 h4 =>
    split at h
    · split at h <;> cases h
    next hexp => exact ⟨h, le_maxFinite (fun ht => h4 ht) (fun ht => h1 ht) hexp⟩

theorem encodes_of_fval {t : Ty} {b m : Nat} {neg : Bool} {e : Int} (h : fval t b = .fin neg m e) : Encodes t (b % signBit t) m e := by
  have hpos := Nat.two_pow_pos (fmtOf t).tbits
  have hfin := (fval_fin_eq h).1
  unfold finVal at hfin
  unfold Encodes
  rw [mod_signBit_div, mod_signBit_mod]
  split at hfin
  next hexp =>
    obtain ⟨-, rfl, rfl⟩ := FVal.fin.inj hfin
    have hlt : b % signBit t < 2 ^ (fmtOf t).tbits := by rwa [← Nat.div_eq_zero_iff_lt hpos, mod_signBit_div]
    exact .inl ⟨hlt, by rw [← mod_signBit_mod, Nat.mod_eq_of_lt hlt], rfl⟩
  next hexp =>
    obtain ⟨-, rfl, rfl⟩ := FVal.fin.inj hfin
    refine .inr ⟨?_, rfl, rfl⟩
    rwa [← not_lt, ← Nat.div_eq_zero_iff_lt hpos, mod_signBit_div]

theorem neg_of_fval {t : Ty} {b m : Nat} {neg : Bool} {e : Int} (h : fval t b = .fin neg m e) :
    neg = ((b / signBit t % 2 == 1) && !(t = .e2m1 && m = 0)) := by
  have hfin := (fval_fin_eq h).1
  unfold finVal at hfin
  split at hfin
  · obtain ⟨rfl, rfl, -⟩ := FVal.fin.inj hfin
    rfl
  · obtain ⟨rfl, rfl, -⟩ := FVal.fin.inj hfin
    simp

/-- The sign and the rest of an encoding of a finite value; e2m1 has no negative zero, so its code 8 is none (R110). -/
theorem withSign_of_fval {t : Ty} {b m : Nat} {neg : Bool} {e : Int} (hb : b < 2 ^ (fmtOf t).bits) (hzero : ¬(t = .e2m1 ∧ b = 8))
    (h : fval t b = .fin neg m e) : withSign t neg (b % signBit t) = b := by
  have hneg := neg_of_fval h
  have hquot : b / signBit t < 2 := Nat.div_lt_of_lt_mul (by rwa [← two_pow_bits])
  have hsplit := Nat.div_add_mod b (signBit t)
  unfold withSign
  interval_cases hq : b / signBit t
  · simp_all
  · cases neg
    · have hcode : t = .e2m1 ∧ m = 0 := by simpa using hneg
      obtain ⟨rfl, rfl⟩ := hcode
      have := (encodes_of_fval h).eq_zero
      exact absurd ⟨rfl, by rw [← hsplit, this]; rfl⟩ hzero
    · simpa using hsplit

theorem zeroBits_eq_withSign {t : Ty} {neg : Bool} (h : t = .e2m1 → neg = false) : zeroBits t neg = withSign t neg 0 := by
  unfold zeroBits
  split
  next ht => rw [h ht]; rfl
  next => rfl

/-- The number that an encoding reads as is delivered as that encoding, however it is written (R114). -/
theorem roundDyadic_of_fval {t : Ty} {b m : Nat} {neg : Bool} {q n e : Int} (rm : Rm) (sat : Bool) (hb : b < 2 ^ (fmtOf t).bits)
    (hzero : ¬(t = .e2m1 ∧ b = 8)) (h : fval t b = .fin neg m q) (hv : (n : ℚ) * 2 ^ e = ratOf (fval t b)) :
    roundDyadic t rm sat false neg n e = ⟨b, 0⟩ := by
  have henc := encodes_of_fval h
  have hsign := withSign_of_fval hb hzero h
  rw [h, ratOf_fin] at hv
  by_cases hm : m = 0
  · subst hm
    rw [smant_zero, Int.cast_zero, zero_mul, mul_eq_zero, or_iff_left (by positivity), Int.cast_eq_zero] at hv
    have hsigned : t = .e2m1 → neg = false := fun ht => by rw [neg_of_fval h]; simp [ht]
    rw [hv, roundDyadic_zero, zeroBits_eq_withSign hsigned, ← henc.eq_zero, hsign]
  · rw [roundDyadic_of_encodes rm sat neg neg henc (fval_fin_eq h).2 hm hv, hsign]

/-! ### Overflow -/

/-- The encodings of a floating format lie below that of the first power of two beyond its largest finite number. -/
theorem maxFinite_lt {t : Ty} (ht : t.isFloat = true) :
    maxFinite t < (topExp t + 1 + (fmtOf t).bias) * 2 ^ (fmtOf t).tbits ∧ 1 ≤ topExp t + 1 + (fmtOf t).bias := by
  cases t <;> revert ht <;> decide

/-- What is rounded of a number in or above the normal range has the leading bit of a significand. -/
theorem two_pow_le_roundMag {num den n : Nat} (rm : Rm) (neg more : Bool) (hn : num ≠ 0) (hd : den ≠ 0) :
    2 ^ n ≤ roundMag rm neg more (scaleFrac num den (ilog2 num den - n)).1 (scaleFrac num den (ilog2 num den - n)).2 := by
  refine le_trans ?_ (le_roundMag rm neg more _ _)
  have hd' := scaleFrac_snd_ne_zero (num := num) hd (ilog2 num den - n)
  rw [Nat.le_div_iff_mul_le (Nat.pos_of_ne_zero hd'), ← Nat.cast_le (α := ℚ), Nat.cast_mul, ← le_div_iff₀ (by positivity),
    scaleFrac_value, le_div_iff₀ (by positivity), Nat.cast_pow, Nat.cast_ofNat, ← zpow_natCast, ← zpow_add₀ (by norm_num),
    add_sub_cancel]
  exact (le_ilog2_iff hn hd _).mp le_rfl

/-- A number beyond the largest finite one overflows (R115). -/
theorem roundFrac_overflow {t : Ty} {num den : Nat} (rm : Rm) (sat ftz neg more : Bool) (ht : t.isFloat = true) (hn : num ≠ 0)
    (hd : den ≠ 0) (htop : (topExp t : Int) + 1 ≤ ilog2 num den) :
    roundFrac t rm sat ftz neg more num den = overflow t rm sat neg := by
  obtain ⟨hmax, hbias⟩ := maxFinite_lt ht
  have hnormal : 1 - ((fmtOf t).bias : Int) ≤ ilog2 num den := by omega
  have hmag := two_pow_le_roundMag (n := (fmtOf t).tbits) rm neg more hn hd
  have hpos := Nat.two_pow_pos (fmtOf t).tbits
  have hbeyond (x : Nat) {e : Int} (he : ilog2 num den ≤ e) :
      maxFinite t < (e - (1 - ((fmtOf t).bias : Int)) + 1).toNat * 2 ^ (fmtOf t).tbits + x :=
    hmax.trans_le ((Nat.mul_le_mul_right _ (by omega)).trans (Nat.le_add_right _ _))
  unfold roundFrac
  dsimp only
  rw [max_eq_left hnormal, if_pos hnormal, Bool.and_false, if_neg Bool.false_ne_true, if_neg (by omega)]
  by_cases hcarry : roundMag rm neg more (scaleFrac num den (ilog2 num den - (fmtOf t).tbits)).1
      (scaleFrac num den (ilog2 num den - (fmtOf t).tbits)).2 = 2 ^ ((fmtOf t).tbits + 1)
  · rw [if_pos hcarry, if_neg (lt_irrefl _), if_pos (hbeyond _ (by omega))]
  · rw [if_neg hcarry]
    dsimp only
    rw [if_neg hmag.not_gt, if_pos (hbeyond _ le_rfl)]

/-- The table of overflow (R115) is the model's. -/
theorem overflow_eq (t : Ty) (rm : Rm) (sat neg : Bool) : overflow t rm sat neg = ⟨overflowOf t rm sat neg, excO ||| excX⟩ := by
  unfold overflow overflowOf
  by_cases hsat : t = .e2m1 ∨ sat = true
  · simp [hsat]
  · cases rm <;> cases neg <;> simp [hsat]

theorem roundDyadic_overflow {t : Ty} {n e : Int} (rm : Rm) (sat ftz z : Bool) (ht : t.isFloat = true)
    (hv : (2 : ℚ) ^ (topExp t + 1) ≤ |(n : ℚ)| * 2 ^ e) :
    roundDyadic t rm sat ftz z n e = ⟨overflowOf t rm sat (decide (n < 0)), excO ||| excX⟩ := by
  have hn : n ≠ 0 := by
    rintro rfl
    rw [Int.cast_zero, abs_zero, zero_mul] at hv
    exact absurd hv (not_le.mpr (by positivity))
  have hfrac := scaleFrac_dyadic n.natAbs e
  have hden := scaleFrac_snd_ne_zero (num := n.natAbs) one_ne_zero (-e)
  have hnum : (scaleFrac n.natAbs 1 (-e)).1 ≠ 0 := by
    intro h0
    rw [h0, Nat.cast_zero, zero_div, eq_comm, mul_eq_zero, or_iff_left (by positivity), Nat.cast_eq_zero, Int.natAbs_eq_zero] at hfrac
    exact hn hfrac
  rw [roundDyadic_eq t rm sat ftz z hn, ← overflow_eq]
  refine roundFrac_overflow rm sat ftz _ false ht hnum hden ?_
  rw [le_ilog2_iff hnum hden, hfrac, Nat.cast_natAbs, Int.cast_abs]
  exact_mod_cast hv

/-! ### Rounding to an integer -/

theorem finToInt_fst (rm : Rm) (neg : Bool) (m : Nat) (e : Int) : (finToInt rm neg m e).1
    = smant neg (roundMag rm neg false (scaleFrac m 1 (-e)).1 (scaleFrac m 1 (-e)).2) := by
  rw [finToInt, dyadic_eq_scaleFrac]

/-- An integer is rounded to itself. -/
theorem finToInt_of_integer {rm : Rm} {neg : Bool} {m : Nat} {e k : Int} (h : ratOf (.fin neg m e) = k) : (finToInt rm neg m e).1 = k := by
  have hden := scaleFrac_snd_ne_zero (num := m) one_ne_zero (-e)
  have hk : smant neg k.natAbs = k ∧ (m : ℚ) * 2 ^ e = k.natAbs := by
    have hpos : (0 : ℚ) ≤ m * 2 ^ e := by positivity
    rw [ratOf_fin, cast_smant] at h
    cases neg
    · have hval : (m : ℚ) * 2 ^ e = k := by simpa using h
      have hk : 0 ≤ k := by rw [hval] at hpos; exact_mod_cast hpos
      rw [hval, Nat.cast_natAbs, abs_of_nonneg hk]
      exact ⟨Int.natAbs_of_nonneg hk, rfl⟩
    · have hval : (m : ℚ) * 2 ^ e = (-k : Int) := by push_cast; rw [← h]; simp
      have hk : 0 ≤ -k := by rw [hval] at hpos; exact_mod_cast hpos
      rw [hval, Nat.cast_natAbs, abs_of_nonpos (by omega)]
      exact ⟨by simp only [smant, if_true]; omega, rfl⟩
  have hnum := eq_mul_of_div_eq hden ((scaleFrac_dyadic m e).trans hk.2)
  rw [finToInt_fst, roundMag_exact rm neg (by rw [hnum, Nat.mul_mod_left]), hnum, Nat.mul_div_cancel _ (Nat.pos_of_ne_zero hden), hk.1]

/-- No magnitude is rounded below an integer that is not above it. -/
theorem finToInt_ge (rm : Rm) (neg : Bool) {m N : Nat} {e : Int} (h : (N : ℚ) ≤ m * 2 ^ e) :
    ∃ K, N ≤ K ∧ (finToInt rm neg m e).1 = smant neg K := by
  have hden := Nat.pos_of_ne_zero (scaleFrac_snd_ne_zero (num := m) one_ne_zero (-e))
  refine ⟨_, le_trans ?_ (le_roundMag rm neg false _ _), finToInt_fst rm neg m e⟩
  rw [Nat.le_div_iff_mul_le hden, ← Nat.cast_le (α := ℚ), Nat.cast_mul, ← le_div_iff₀ (by exact_mod_cast hden), scaleFrac_dyadic]
  exact h

theorem intMin_le_intMax (t : Ty) : intMin t ≤ intMax t := by cases t <;> decide

/-- A number at or beyond an integer that an integer type does not reach is clamped to the greatest value of the type (R120). -/
theorem floatToInt_above {t sty : Ty} {a m N : Nat} {neg : Bool} {e : Int} (rm : Rm) (h : fval sty a = .fin neg m e)
    (hN : (N : ℚ) ≤ ratOf (fval sty a)) (hpos : 0 < N) (hmax : intMax t < N) : floatToInt t sty rm a = ⟨intReg t (intMax t), excV⟩ := by
  rw [h, ratOf] at hN
  have hneg : neg = false := by
    rw [← Bool.not_eq_true]
    rintro rfl
    have : (0 : ℚ) ≤ m * 2 ^ e := by positivity
    have : (0 : ℚ) < N := Nat.cast_pos.mpr hpos
    simp only [if_true] at hN
    linarith
  subst hneg
  obtain ⟨K, hK, hint⟩ := finToInt_ge rm false (by simpa using hN)
  have hclamp : intClamp t (finToInt rm false m e).1 = intMax t := by
    have := intMin_le_intMax t
    rw [hint, intClamp, smant, if_neg Bool.false_ne_true]
    omega
  unfold floatToInt
  rw [h]
  dsimp only
  rw [hclamp, if_pos]
  rw [hint, smant, if_neg Bool.false_ne_true]
  omega

/-- A number at or below an integer that an integer type does not reach is clamped to the least value of the type (R120). -/
theorem floatToInt_below {t sty : Ty} {a m N : Nat} {neg : Bool} {e : Int} (rm : Rm) (h : fval sty a = .fin neg m e)
    (hN : ratOf (fval sty a) ≤ -(N : ℚ)) (hpos : 0 < N) (hmin : -(N : Int) < intMin t) :
    floatToInt t sty rm a = ⟨intReg t (intMin t), excV⟩ := by
  rw [h, ratOf] at hN
  have hneg : neg = true := by
    rw [← Bool.not_eq_false]
    rintro rfl
    have : (0 : ℚ) ≤ m * 2 ^ e := by positivity
    have : (0 : ℚ) < N := Nat.cast_pos.mpr hpos
    simp only [Bool.false_eq_true, if_false] at hN
    linarith
  subst hneg
  obtain ⟨K, hK, hint⟩ := finToInt_ge (N := N) rm true (m := m) (e := e) (by simp only [if_true] at hN; linarith)
  have hclamp : intClamp t (finToInt rm true m e).1 = intMin t := by
    have := intMin_le_intMax t
    rw [hint, intClamp, smant, if_pos rfl]
    omega
  unfold floatToInt
  rw [h]
  dsimp only
  rw [hclamp, if_pos]
  rw [hint, smant, if_pos rfl]
  omega

end Sys2Proof.Claims

/-!
Values that a format holds, overflow, and the conversions, scaling and packing of 06 R115 and R120 and 11 R211 to R219 (O57).
-/

namespace Sys2Proof.Claims
open Sys2Proof Sys2Proof.Machine

/-! ### Conversions (R115, R120, R217) -/

theorem fconvert_nan {d : Ty} (hd : d ≠ .e2m1) (rm : Rm) (sat sg : Bool) :
    fconvert d rm sat (.nan sg) = ⟨canonNan d, if sg then excV else 0⟩ := by
  rw [fconvert, if_neg hd]

theorem fconvert_inf_sat {d : Ty} (hd : d ≠ .e2m1) (rm : Rm) (neg : Bool) :
    fconvert d rm true (.inf neg) = ⟨withSign d neg (maxFinite d), excO ||| excX⟩ := by
  rw [fconvert, if_neg hd, if_pos rfl]

theorem fconvert_inf {d : Ty} (hd : d ≠ .e2m1) (rm : Rm) (neg : Bool) :
    fconvert d rm false (.inf neg) = if d = .e4m3 then ⟨0x7f, excV⟩ else ⟨withSign d neg (infBits d), 0⟩ := by
  rw [fconvert, if_neg hd, if_neg Bool.false_ne_true]

theorem fconvert_fin {m : Nat} (hm : m ≠ 0) (d : Ty) (rm : Rm) (sat neg : Bool) (e : Int) :
    fconvert d rm sat (.fin neg m e) = roundDyadic d rm sat false neg (smant neg m) e := by
  rw [fconvert, if_neg hm]

/-- A float beyond the range of an integer type of a register, at either end (R120, R217). -/
theorem floatToInt_clamps {sty : Ty} {a m : Nat} {neg : Bool} {e : Int} (rm : Rm) (t : Ty) (n : Nat) (h : fval sty a = .fin neg m e) :
    ((t = .n32 ∧ n = 32) ∨ (t = .n64 ∧ n = 64) →
      ((2 : ℚ) ^ n ≤ ratOf (fval sty a) → floatToInt t sty rm a = ⟨2 ^ n - 1, excV⟩)
      ∧ (ratOf (fval sty a) ≤ -1 → floatToInt t sty rm a = ⟨0, excV⟩))
    ∧ ((t = .i32 ∧ n = 32) ∨ (t = .i64 ∧ n = 64) →
      ((2 : ℚ) ^ (n - 1) ≤ ratOf (fval sty a) → floatToInt t sty rm a = ⟨2 ^ (n - 1) - 1, excV⟩)
      ∧ (ratOf (fval sty a) ≤ -(2 : ℚ) ^ (n - 1) - 1 → floatToInt t sty rm a = ⟨2 ^ (n - 1), excV⟩)) := by
  constructor
  · intro ht
    constructor
    · intro hv
      have hout : intMax t < (2 ^ n : Nat) ∧ intReg t (intMax t) = 2 ^ n - 1 := by
        obtain ⟨rfl, rfl⟩ | ⟨rfl, rfl⟩ := ht <;> decide
      rw [← hout.2]
      exact floatToInt_above rm h (by exact_mod_cast hv) (Nat.two_pow_pos n) hout.1
    · intro hv
      have hout : -((1 : Nat) : Int) < intMin t ∧ intReg t (intMin t) = 0 := by
        obtain ⟨rfl, rfl⟩ | ⟨rfl, rfl⟩ := ht <;> decide
      rw [← hout.2]
      exact floatToInt_below rm h (by exact_mod_cast hv) Nat.one_pos hout.1
  · intro ht
    constructor
    · intro hv
      have hout : intMax t < (2 ^ (n - 1) : Nat) ∧ intReg t (intMax t) = 2 ^ (n - 1) - 1 := by
        obtain ⟨rfl, rfl⟩ | ⟨rfl, rfl⟩ := ht <;> decide
      rw [← hout.2]
      exact floatToInt_above rm h (by exact_mod_cast hv) (Nat.two_pow_pos _) hout.1
    · intro hv
      have hout : -((2 ^ (n - 1) + 1 : Nat) : Int) < intMin t ∧ intReg t (intMin t) = 2 ^ (n - 1) := by
        obtain ⟨rfl, rfl⟩ | ⟨rfl, rfl⟩ := ht <;> decide
      rw [← hout.2]
      exact floatToInt_below rm h (by push_cast; linarith) (Nat.succ_pos _) hout.1

theorem conversions : Conversions := by
  unfold Conversions
  refine ⟨fun t rm sat ftz z n e ht hv => ?_,
    fun d rm sat sg neg hd => ?_, fun rm sat sg neg => ?_, fun d rm sat neg m e hm => fconvert_fin hm d rm sat neg e,
    fun t sty rm a n neg m e _ h => floatToInt_clamps rm t n h, fun t sty rm a sg h => ?_, ?_⟩
  · have hfloat : t.isFloat = true := by rcases ht with rfl | rfl | rfl | rfl | rfl | rfl | rfl <;> rfl
    exact roundDyadic_overflow rm sat ftz z hfloat hv
  · have hd' : d ≠ .e2m1 := by rcases hd with rfl | rfl | rfl | rfl | rfl | rfl <;> decide
    exact ⟨fconvert_nan hd' rm sat sg, fconvert_inf_sat hd' rm neg, fconvert_inf hd' rm neg⟩
  · cases neg <;> exact ⟨rfl, rfl⟩
  · rw [floatToInt, h]
  · decide +kernel

/-! ### Integral values, scaling and packing (R211, R212, R216, R218, R219) -/

/-- An integral value is what frnd makes of it, in every rounding mode (R216). -/
theorem frndBits_integral {t : Ty} {b m : Nat} {neg : Bool} {e k : Int} (rm : Rm) (ht : t ≠ .e2m1) (hb : b < 2 ^ (fmtOf t).bits)
    (h : fval t b = .fin neg m e) (hk : ratOf (fval t b) = k) : frndBits t rm b = ⟨b, 0⟩ := by
  have hround := roundDyadic_of_fval (n := k) (e := 0) .rne false hb (fun hz => ht hz.1) h (by rw [hk, zpow_zero, mul_one])
  unfold frndBits
  rw [h] at hk ⊢
  dsimp only
  rw [finToInt_of_integer hk, hround]
  rfl

/-- fscale leaves a zero and an infinity as they are (R212). -/
theorem fscaleBits_zero_inf {t : Ty} {a : Nat} (rm : Rm) (k : Int)
    (h : (fval t a).isZero = true ∨ fval t a = .inf true ∨ fval t a = .inf false) : fscaleBits t rm a k = ⟨a, 0⟩ := by
  unfold fscaleBits
  obtain h | h | h := h
  · cases hv : fval t a with
    | nan sg => rw [hv] at h; exact absurd h (by simp [FVal.isZero])
    | inf neg => rw [hv] at h; exact absurd h (by simp [FVal.isZero])
    | fin neg m e =>
      rw [hv] at h
      exact if_pos (by simpa [FVal.isZero] using h)
  · rw [h]; rfl
  · rw [h]; rfl

theorem scaleOk_eq_false {v : FVal} (h : ∀ m e, v = .fin false m e → m = 0) : scaleOk v = false := by
  cases v with
  | nan sg => rfl
  | inf neg => rfl
  | fin neg m e =>
    cases neg with
    | true => rfl
    | false => rw [h m e rfl]; rfl

/-- A scale that is not positive and finite makes every element of fpack the NaN of its format (R218). -/
theorem fpackBits_badScale (d sty : Ty) (rm : Rm) (sat : Bool) (xs : Nat) {sc : Nat} (h : scaleOk (fval .f32 sc) = false) :
    fpackBits d sty rm sat xs sc = ⟨joinElems (elemBits d) (List.replicate (if d = .e2m1 then 8 else 4) (canonNan d)), excV⟩ := by
  unfold fpackBits
  rw [h]
  by_cases hd : d = .e2m1 <;> simp [hd]

theorem scalingAndPacking : ScalingAndPacking := by
  unfold ScalingAndPacking
  refine ⟨fun t rm b m neg e k ht hb h hk => ?_, by decide +kernel, by decide +kernel, fun t rm a k h => fscaleBits_zero_inf rm k h,
    by decide +kernel, by decide +kernel, by decide +kernel, by decide +kernel, by decide +kernel, fun sty rm sat xs sc h => ?_,
    by decide +kernel⟩
  · have hne : t ≠ .e2m1 := by rcases ht with rfl | rfl | rfl | rfl <;> decide
    exact frndBits_integral rm hne hb h hk
  · have hbad := scaleOk_eq_false h
    exact ⟨fpackBits_badScale .e4m3 sty rm sat xs hbad, fpackBits_badScale .e5m2 sty rm sat xs hbad,
      fpackBits_badScale .e2m1 sty rm sat xs hbad⟩

/-- Settles O57: an encoding is one number on the grid of its format, and rounding that number, however it is written, gives the encoding
(`roundDyadic_of_fval`); a number above the grid overflows (`roundFrac_overflow`), and one beyond an integer type is clamped. -/
theorem representableValues : Obligations.RepresentableValues := by
  unfold Obligations.RepresentableValues
  refine ⟨fun t rm sat b m neg e _ hb hzero h => ?_, conversions, scalingAndPacking⟩
  exact roundDyadic_of_fval rm sat hb hzero h (by rw [h, ratOf_fin]; rfl)

end Sys2Proof.Claims

/-!
Special values: signed zeros, infinities and NaNs (06 R108, R116; 11 R208, R210), minimum and maximum (06 R109), and the special functions
(11 R220 to R223) (O56).
-/

namespace Sys2Proof.Claims
open Sys2Proof Sys2Proof.Machine

/-! ### Signs of exact zeros (R116) -/

theorem zeroSumNeg_eq (rm : Rm) (a b : Bool) : zeroSumNeg rm a b = if a = b then a else decide (rm = .rdn) := by
  cases rm <;> rfl

theorem zeroSumNeg_not (rm : Rm) (a : Bool) : zeroSumNeg rm a (!a) = decide (rm = .rdn) := by
  rw [zeroSumNeg_eq, if_neg (by simp)]

theorem smant_not (a : Bool) (m : Nat) : smant (!a) m = -smant a m := by cases a <;> simp [smant]

/-- Equal numbers of opposite signs add to zero. -/
theorem addDy_cancel (a : Bool) {m n : Nat} {e f : Int} (h : (m : ℚ) * 2 ^ e = n * 2 ^ f) :
    (addDy (smant a m) e (smant (!a) n) f).1 = 0 := by
  refine addDy_eq_zero ?_
  rw [smant_not, Int.cast_neg, cast_smant, cast_smant, mul_assoc, h]
  ring

section
variable {t : Ty} (ht : t ≠ .e2m1)
include ht

/-- An exact zero of a format with a negative one takes the sign that it is given. -/
theorem roundDyadic_eq_zero (rm : Rm) (sat ftz z : Bool) {n : Int} (hn : n = 0) (e : Int) :
    roundDyadic t rm sat ftz z n e = ⟨withSign t z 0, 0⟩ := by
  rw [hn, roundDyadic_zero, zeroBits_eq_withSign fun h => absurd h ht]

theorem faddV_cancel (rm : Rm) (ftz a : Bool) {m n : Nat} {e f : Int} (h : (m : ℚ) * 2 ^ e = n * 2 ^ f) :
    faddV t rm ftz (.fin a m e) (.fin (!a) n f) = ⟨withSign t (decide (rm = .rdn)) 0, 0⟩ := by
  exact (roundDyadic_eq_zero ht _ _ _ _ (addDy_cancel a h) _).trans (by rw [zeroSumNeg_not])

theorem fmaV_cancel (rm : Rm) (ftz a b : Bool) {m k n : Nat} {e f h : Int} (hv : (m : ℚ) * 2 ^ e * (k * 2 ^ f) = n * 2 ^ h) :
    fmaV t rm ftz (.fin a m e) (.fin b k f) (.fin (a == b) n h) = ⟨withSign t (decide (rm = .rdn)) 0, 0⟩ := by
  have hsign : (a == b) = !(a != b) := by cases a <;> cases b <;> rfl
  have hprod : ((m * k : Nat) : ℚ) * 2 ^ (e + f) = n * 2 ^ h := by
    rw [← hv, Nat.cast_mul, zpow_add₀ (by norm_num)]
    ring
  rw [hsign]
  exact (roundDyadic_eq_zero ht _ _ _ _ (addDy_cancel (a != b) hprod) _).trans (by rw [zeroSumNeg_not])

theorem faddV_zeros (rm : Rm) (ftz a b : Bool) (e f : Int) :
    faddV t rm ftz (.fin a 0 e) (.fin b 0 f) = ⟨withSign t (if a = b then a else decide (rm = .rdn)) 0, 0⟩ := by
  have hsum : (addDy (smant a 0) e (smant b 0) f).1 = 0 := addDy_eq_zero (by simp)
  exact (roundDyadic_eq_zero ht _ _ _ _ hsum _).trans (by rw [zeroSumNeg_eq])

theorem fmaV_zeros (rm : Rm) (ftz a b g : Bool) (m : Nat) (e f h : Int) : fmaV t rm ftz (.fin a 0 e) (.fin b m f) (.fin g 0 h)
    = ⟨withSign t (if (a != b) = g then g else decide (rm = .rdn)) 0, 0⟩ := by
  have hsum : (addDy (smant (a != b) (0 * m)) (e + f) (smant g 0) h).1 = 0 := addDy_eq_zero (by simp)
  have hsign : zeroSumNeg rm (a != b) g = if (a != b) = g then g else decide (rm = .rdn) := by
    rw [zeroSumNeg_eq]
    split
    next heq => exact heq
    next => rfl
  exact (roundDyadic_eq_zero ht _ _ _ _ hsum _).trans (by rw [hsign])

theorem fmulV_zero (rm : Rm) (ftz a b : Bool) {m n : Nat} (h : m * n = 0) (e f : Int) :
    fmulV t rm ftz (.fin a m e) (.fin b n f) = ⟨withSign t (a != b) 0, 0⟩ := by
  rw [fmulV, roundDyadic_eq_zero ht _ _ _ _ (by rw [h, smant_zero])]

theorem fsqrtV_zero (rm : Rm) (ftz a : Bool) (e : Int) : fsqrtV t rm ftz (.fin a 0 e) = ⟨withSign t a 0, 0⟩ := by
  rw [fsqrtV, if_pos rfl, zeroBits_eq_withSign fun h => absurd h ht]

theorem fdivV_num_inf (rm : Rm) (ftz a b : Bool) (m : Nat) (e : Int) :
    fdivV t rm ftz (.fin a m e) (.inf b) = ⟨withSign t (a != b) 0, 0⟩ := by
  rw [fdivV, FVal.neg, zeroBits_eq_withSign fun h => absurd h ht]
  all_goals simp

end

theorem fdivV_num_zero (t : Ty) (rm : Rm) (ftz a b : Bool) {m : Nat} (hm : m ≠ 0) (e f : Int) :
    fdivV t rm ftz (.fin a m e) (.fin b 0 f) = ⟨withSign t (a != b) (infBits t), excZ⟩ := by
  rw [fdivV, if_pos rfl, if_neg hm]

theorem fsqrtV_negative (t : Ty) (rm : Rm) (ftz : Bool) {m : Nat} (hm : m ≠ 0) (e : Int) :
    fsqrtV t rm ftz (.fin true m e) = ⟨canonNan t, excV⟩ := by
  rw [fsqrtV, if_neg hm, if_pos rfl, invalidRes]

/-! ### NaNs (R108) -/

@[simp] theorem sig_nan (sg : Bool) : (FVal.nan sg).sig = sg := rfl
@[simp] theorem isNan_nan (sg : Bool) : (FVal.nan sg).isNan = true := rfl

theorem sig_eq_false {x : FVal} (h : x.isNan = false) : x.sig = false := by
  cases x with
  | nan sg => cases h
  | inf neg => rfl
  | fin neg m e => rfl

theorem faddV_nan (t : Ty) (rm : Rm) (ftz sg : Bool) {x : FVal} (h : x.isNan = false) :
    faddV t rm ftz (.nan sg) x = ⟨canonNan t, if sg then excV else 0⟩ := by
  simp [faddV, nanRes, sig_eq_false h]

theorem fmulV_nan (t : Ty) (rm : Rm) (ftz sg : Bool) {x : FVal} (h : x.isNan = false) :
    fmulV t rm ftz x (.nan sg) = ⟨canonNan t, if sg then excV else 0⟩ := by
  have hres : fmulV t rm ftz x (.nan sg) = nanRes t [x, .nan sg] := by cases x <;> rfl
  simp [hres, nanRes, sig_eq_false h]

/-! ### Minimum and maximum (R109) -/

/-- The order of fmin and fmax on values that are no NaN: as numbers, and -0 before +0. -/
def before (x y : FVal) : Bool := x.lt y || (x.isZero && y.isZero && x.neg && !y.neg)

/-- One value is before another, and not the other way round. -/
def Precedes (x y : FVal) : Prop := before x y = true ∧ before y x = false

theorem fminmax_ordered {t : Ty} {a b : Nat} (mx : Bool) (ha : (fval t a).isNan = false) (hb : (fval t b).isNan = false) :
    fminmax t mx a b = ⟨if before (fval t a) (fval t b) != mx then a else b, 0⟩ := by
  simp only [fminmax, ha, hb, sig_eq_false ha, sig_eq_false hb, before, Bool.or_self, Bool.false_eq_true, if_false]
  rfl

/-- Minimum and maximum of two values of which one precedes the other, in either order. -/
theorem fminmax_of_precedes {t : Ty} {a b : Nat} (ha : (fval t a).isNan = false) (hb : (fval t b).isNan = false)
    (h : Precedes (fval t a) (fval t b)) :
    fminmax t false a b = ⟨a, 0⟩ ∧ fminmax t false b a = ⟨a, 0⟩ ∧ fminmax t true a b = ⟨b, 0⟩ ∧ fminmax t true b a = ⟨b, 0⟩ := by
  obtain ⟨hab, hba⟩ := h
  simp [fminmax_ordered, ha, hb, hab, hba]

theorem precedes_of_ratOf_lt {m n : Bool} {k l : Nat} {e f : Int} (h : ratOf (.fin m k e) < ratOf (.fin n l f)) :
    Precedes (.fin m k e) (.fin n l f) := by
  have hlt := (lt_fin_iff m n k l e f).mpr h
  have hgt : (FVal.fin n l f).lt (.fin m k e) = false := by
    rw [← Bool.not_eq_true, lt_fin_iff]
    exact h.asymm
  have hzero : ¬(k = 0 ∧ l = 0) := by
    rintro ⟨rfl, rfl⟩
    simp [ratOf] at h
  constructor
  · rw [before, hlt, Bool.true_or]
  · rw [before, hgt, Bool.false_or]
    simp only [FVal.isZero, Bool.and_eq_false_iff, beq_eq_false_iff_ne]
    omega

theorem precedes_zeros (e f : Int) : Precedes (.fin true 0 e) (.fin false 0 f) := by
  have hgt : ¬(FVal.fin false 0 f).lt (.fin true 0 e) = true := by
    rw [lt_fin_iff]
    simp [ratOf]
  simp [Precedes, before, FVal.isZero, FVal.neg, hgt]

theorem precedes_neg_inf {y : FVal} (hy : y.isNan = false) (hne : y ≠ .inf true) : Precedes (.inf true) y := by
  cases y with
  | nan sg => cases hy
  | inf neg =>
    cases neg with
    | true => exact absurd rfl hne
    | false => exact ⟨rfl, rfl⟩
  | fin neg m e => simp [Precedes, before, FVal.lt, FVal.isZero]

theorem precedes_pos_inf {y : FVal} (hy : y.isNan = false) (hne : y ≠ .inf false) : Precedes y (.inf false) := by
  cases y with
  | nan sg => cases hy
  | inf neg =>
    cases neg with
    | true => exact ⟨rfl, rfl⟩
    | false => exact absurd rfl hne
  | fin neg m e => simp [Precedes, before, FVal.lt, FVal.isZero]

theorem minMax : MinMax := by
  unfold MinMax
  refine fun t a b _ => ⟨fun sg mx ha hb => ?_, fun sg sh mx ha hb => ?_, fun m n k l e f ha hb h => ?_, fun ha hb hne => ?_,
    fun ha hb hne => ?_⟩
  · simp [fminmax, ha, hb, sig_eq_false hb]
  · simp [fminmax, ha, hb]
  · refine fminmax_of_precedes (by rw [ha]; rfl) (by rw [hb]; rfl) ?_
    rw [ha, hb] at h ⊢
    obtain h | ⟨rfl, rfl, rfl, rfl⟩ := h
    · exact precedes_of_ratOf_lt h
    · exact precedes_zeros e f
  · exact fminmax_of_precedes (by rw [ha]; rfl) hb (by rw [ha]; exact precedes_neg_inf hb hne)
  · obtain ⟨hminba, hminab, hmaxba, hmaxab⟩ := fminmax_of_precedes hb (by rw [ha]; rfl) (by rw [ha]; exact precedes_pos_inf hb hne)
    exact ⟨hminab, hminba, hmaxab, hmaxba⟩

/-! ### The special functions (R220 to R223) -/

theorem frozenFunctions_nan {f : Nat → FRes} (hf : f ∈ [frcp, frsq, fexp2, flog2, fsinpi, fcospi, ftanh]) {a : Nat} {sg : Bool}
    (h : fval .f32 a = .nan sg) : f a = ⟨0x7fc00000, if sg then excV else 0⟩ := by
  have hnan : nanRes .f32 [.nan sg] = ⟨0x7fc00000, if sg then excV else 0⟩ := by cases sg <;> rfl
  rw [← hnan]
  simp only [List.mem_cons, List.not_mem_nil, or_false] at hf
  obtain rfl | rfl | rfl | rfl | rfl | rfl | rfl := hf
  · rw [frcp, h]
  · rw [frsq, h]
  · rw [fexp2, h]
  · rw [flog2, h]
  · rw [fsinpi, h]
  · rw [fcospi, h]
  · rw [ftanh, h]

/-! A special function of a finite number other than zero. -/

theorem frcp_fin {a m : Nat} {neg : Bool} {e : Int} (h : fval .f32 a = .fin neg m e) (hm : m ≠ 0) : frcp a
    = frozenRound (smant neg (frozenE .rcp ((normF32 m e).2 / 2 ^ 15) ((normF32 m e).2 % 2 ^ 15 * 2)).toNat) (-(normF32 m e).1 - 30) false := by
  rw [frcp, h]
  cases m with
  | zero => exact absurd rfl hm
  | succ i => rfl

theorem fexp2_fin {a m : Nat} {neg : Bool} {e : Int} (h : fval .f32 a = .fin neg m e) (hm : m ≠ 0) : fexp2 a
    = frozenRound (frozenE .exp2 ((floorDy (smant neg m) e 24 - floorDy (smant neg m) e 0 * 2 ^ 24).toNat / 2 ^ 16)
        ((floorDy (smant neg m) e 24 - floorDy (smant neg m) e 0 * 2 ^ 24).toNat % 2 ^ 16))
      (max (-1000) (min 1000 (floorDy (smant neg m) e 0)) - 30) false := by
  rw [fexp2, h]
  cases m with
  | zero => exact absurd rfl hm
  | succ i => rfl

theorem ftanh_fin {a m : Nat} {neg : Bool} {e : Int} (h : fval .f32 a = .fin neg m e) (hsmall : below m e 5 = false)
    (hlarge : 256 ≤ floorDy m e 5) : ftanh a = ⟨withSign .f32 neg oneF32, excX⟩ := by
  rw [ftanh, h]
  cases m with
  | zero => exact absurd hlarge (by simp [floorDy])
  | succ i => exact (if_neg (by rw [hsmall]; exact Bool.false_ne_true)).trans (if_pos hlarge)

/-- Roots and logarithms of negative numbers are invalid. -/
theorem frsq_flog2_negative {a m : Nat} {e : Int} (h : fval .f32 a = .fin true m e) (hm : m ≠ 0) :
    frsq a = ⟨0x7fc00000, excV⟩ ∧ flog2 a = ⟨0x7fc00000, excV⟩ := by
  obtain ⟨k, rfl⟩ := Nat.exists_eq_succ_of_ne_zero hm
  rw [frsq, flog2, h]
  exact ⟨rfl, rfl⟩

/-- From 8 on ftanh is 1 in magnitude. -/
theorem ftanh_large {a m : Nat} {n : Bool} {e : Int} (h : fval .f32 a = .fin n m e) (hv : (8 : ℚ) ≤ m * 2 ^ e) :
    ftanh a = ⟨withSign .f32 n 0x3f800000, excX⟩ := by
  have hfloor : 256 ≤ floorDy m e 5 := by
    rw [floorDy_eq_floor, Int.le_floor]
    push_cast
    linarith
  have hbelow : below m e 5 = false := by
    rw [below, decide_eq_false_iff_not]
    omega
  exact ftanh_fin h hbelow hfloor

/-- The last rounding of a special function whose table gives 1, which is 2^30 units, scaled by 2^k. -/
theorem frozenRound_power {k : Int} (hlow : -126 ≤ k) (hhigh : k ≤ 127) :
    frozenRound (2 ^ 30) (k - 30) false = ⟨(k + 127).toNat * 2 ^ 23, excX⟩ := by
  have hx : 1 ≤ (k + 127).toNat ∧ (k + 127).toNat ≤ 254 ∧ ((k + 127).toNat : Int) = k + 127 := by omega
  generalize (k + 127).toNat = x at hx
  have henc : Encodes .f32 (x * 2 ^ 23) (2 ^ 23) (k - 23) := by
    refine .inr ⟨Nat.le_mul_of_pos_left _ hx.1, ?_, ?_⟩
    · change 2 ^ 23 = 2 ^ 23 + x * 2 ^ 23 % 2 ^ 23
      omega
    · change k - 23 = ((x * 2 ^ 23 / 2 ^ 23 : Nat) : Int) - 127 - 23
      omega
  have hmax : x * 2 ^ 23 ≤ maxFinite .f32 := by
    change x * 2 ^ 23 ≤ 0x7f7fffff
    omega
  have hvalue : ((2 ^ 30 : Int) : ℚ) * 2 ^ (k - 30) = smant false (2 ^ 23) * 2 ^ (k - 23) := by
    rw [zpow_sub₀ (by norm_num), zpow_sub₀ (by norm_num)]
    norm_num [smant]
    ring
  have hexc : (0 : Exc) ||| excX = excX := by decide
  rw [frozenRound, roundDyadic_of_encodes .rne false false false henc hmax (by positivity) hvalue, withSign,
    if_neg Bool.false_ne_true, hexc]

/-- fexp2 of an integer in the range of f32 is its power of two (R221). -/
theorem fexp2_integer {a m : Nat} {n : Bool} {e k : Int} (h : fval .f32 a = .fin n m e) (hm : m ≠ 0) (hk : ratOf (fval .f32 a) = k)
    (hlow : -126 ≤ k) (hhigh : k ≤ 127) : fexp2 a = ⟨(k + 127).toNat * 2 ^ 23, excX⟩ := by
  have hfloor (j : Nat) : floorDy (smant n m) e j = k * 2 ^ j := by
    rw [h, ratOf_fin] at hk
    have hint : (k : ℚ) * 2 ^ j = ((k * 2 ^ j : Int) : ℚ) := by push_cast; rfl
    rw [floorDy_eq_floor, hk, hint, Int.floor_intCast]
  have hclamp : max (-1000) (min 1000 k) = k := by omega
  have hone : frozenE .exp2 0 0 = 2 ^ 30 := rfl
  rw [fexp2_fin h hm, hfloor 0, hfloor 24, pow_zero, mul_one, sub_self, Int.toNat_zero, Nat.zero_div, Nat.zero_mod, hone, hclamp,
    frozenRound_power hlow hhigh]

theorem fval_power {k : Nat} (hlow : 1 ≤ k) (hhigh : k ≤ 253) : fval .f32 (k * 2 ^ 23) = .fin false (2 ^ 23) ((k : Int) - 150) := by
  have hsign : k * 2 ^ 23 / signBit .f32 % 2 = 0 := by
    change k * 2 ^ 23 / 2 ^ 31 % 2 = 0
    omega
  have hexp : k * 2 ^ 23 / 2 ^ (fmtOf .f32).tbits % 2 ^ (fmtOf .f32).ebits = k := by
    change k * 2 ^ 23 / 2 ^ 23 % 2 ^ 8 = k
    omega
  have hfrac : k * 2 ^ 23 % 2 ^ (fmtOf .f32).tbits = 0 := Nat.mul_mod_left k (2 ^ 23)
  have hexp0 : k ≠ 0 := by omega
  have hexp1 : k ≠ 2 ^ (fmtOf .f32).ebits - 1 := by
    change k ≠ 255
    omega
  unfold fval
  dsimp only
  rw [hsign, hexp, hfrac, if_neg hexp1, if_neg hexp0]
  change FVal.fin false (2 ^ 23) ((k : Int) - 127 - 23) = _
  congr 1
  omega

/-- frcp of a power of two is exact at the left end of its first segment (R221). -/
theorem frcp_power {k : Nat} (hlow : 1 ≤ k) (hhigh : k ≤ 253) : frcp (k * 2 ^ 23) = ⟨(254 - k) * 2 ^ 23, excX⟩ := by
  have hnorm : normF32 (2 ^ 23) ((k : Int) - 150) = ((k : Int) - 127, 0) := by
    rw [normF32, Nat.log2_two_pow]
    congr 1
    push_cast
    ring
  have hone : smant false (frozenE .rcp 0 0).toNat = 2 ^ 30 := rfl
  have hexp : -((k : Int) - 127) - 30 = 127 - k - 30 := by ring
  have hbits : 254 - k = (127 - (k : Int) + 127).toNat := by omega
  rw [frcp_fin (fval_power hlow hhigh) (by positivity), hnorm, Nat.zero_div, Nat.zero_mod, zero_mul, hone, hexp, hbits,
    frozenRound_power (by omega) (by omega)]

theorem specialFunctions : SpecialFunctions := by
  unfold SpecialFunctions
  refine ⟨fun f hf a sg h => frozenFunctions_nan hf h, ?_, ?_, ?_, ?_, ?_, ?_, ?_, ?_, ?_, ?_, ?_, ?_, ?_, ?_, ?_, ?_, ?_, ?_, ?_, ?_, ?_, ?_, ?_, ?_,
    ?_, ?_, ?_, ?_, fun a m e h hm => frsq_flog2_negative h hm, fun a n m e h hv => ftanh_large h hv,
    fun a k n m e h hm hk hlow hhigh => fexp2_integer h hm hk hlow hhigh, fun k hlow hhigh => frcp_power hlow hhigh, ?_⟩
  all_goals decide +kernel

/-! ### The obligation -/

/-- Settles O56: opposite equal numbers have the exact sum 0 (`addDy_cancel`), whose sign R116 gives; minimum and maximum follow the
order of the numbers (`fminmax_of_precedes`); the special functions give a power of two where their table does (`frozenRound_power`). -/
theorem floatSpecialValues : Obligations.FloatSpecialValues := by
  unfold Obligations.FloatSpecialValues
  refine ⟨fun t rm ftz a b x htype => ?_, by decide +kernel, by decide +kernel, by decide +kernel, by decide +kernel, by decide +kernel,
    by decide +kernel, by decide +kernel, by decide +kernel, minMax, specialFunctions⟩
  have ht : t ≠ .e2m1 := by rcases htype with rfl | rfl | rfl | rfl <;> decide
  refine ⟨fun m n e f _ h => faddV_cancel ht rm ftz a h, fun m k n e f h hv _ => fmaV_cancel ht rm ftz a b hv,
    fun e f => ⟨faddV_zeros ht rm ftz a b e f, fmulV_zero ht rm ftz a b rfl e f, ?_,
      fun m g h => fmaV_zeros ht rm ftz a b g m e f h, rfl, rfl, ?_, fsqrtV_zero ht rm ftz a e⟩,
    ?_, if_pos rfl, fun sig hx => ⟨faddV_nan t rm ftz sig hx, fmulV_nan t rm ftz sig hx⟩, rfl, ?_, ?_, rfl, rfl⟩
  · rintro ⟨n, m, g, rfl, -⟩
    exact ⟨fmulV_zero ht rm ftz a n (Nat.zero_mul m) e g, (fmulV_zero ht rm ftz n a (Nat.mul_zero m) g e).trans (by rw [bne_comm]; rfl)⟩
  · rintro ⟨n, m, g, rfl, hm⟩
    exact fdivV_num_zero t rm ftz n b hm g f
  · exact if_neg (by simp)
  · rintro ⟨n, m, g, rfl, -⟩
    exact fdivV_num_inf ht rm ftz n b m g
  · rintro ⟨n, m, g, rfl, hm⟩ rfl
    exact fsqrtV_negative t rm ftz hm g

end Sys2Proof.Claims

/-!
The values of the integer class (O4): what each function of the model gives of two words, as a rule on their numbers (10 R186 to R190, R195).
-/

namespace Sys2Proof.Claims
open Sys2Proof Sys2Proof.Machine

/-! ### Numbers by their bits -/

theorem fromBits_succ (n : Nat) (f : Nat → Bool) : fromBits (n + 1) f = fromBits n f + (if f n then 2 ^ n else 0) := by
  simp [fromBits, List.range_succ]

theorem fromBits_testBit (n x : Nat) : fromBits n x.testBit = x % 2 ^ n := by
  induction n with
  | zero => simp [fromBits, Nat.mod_one]
  | succ n ih =>
    rw [fromBits_succ, ih, Nat.mod_pow_succ, Nat.testBit_eq_decide_div_mod_eq]
    rcases Nat.mod_two_eq_zero_or_one (x / 2 ^ n) with h | h <;> simp [h]

theorem fromBits_congr {n : Nat} {f g : Nat → Bool} (h : ∀ i < n, f i = g i) : fromBits n f = fromBits n g := by
  unfold fromBits
  exact congrArg List.sum (List.map_congr_left fun i hi => by rw [h i (List.mem_range.mp hi)])

theorem toNat_eq_fromBits {w : Nat} {x : BitVec w} {f : Nat → Bool} (h : ∀ i < w, x.getLsbD i = f i) : x.toNat = fromBits w f := by
  rw [← fromBits_congr h]
  exact ((fromBits_testBit w x.toNat).trans (Nat.mod_eq_of_lt x.isLt)).symm

/-! ### Arithmetic and logic (10 R186) -/

theorem signed_toNat {w : Nat} (x : BitVec w) : signed w x.toNat = x.toInt := rfl

theorem toNat_eq_unsigned {w : Nat} {x : BitVec w} {k : Int} (h : x = BitVec.ofInt w k) : x.toNat = unsigned w k := by
  rw [h]; rfl

theorem toNat_sub_eq_unsigned {w : Nat} (x y : BitVec w) : (x - y).toNat = unsigned w ((x.toNat : Int) - y.toNat) := by
  have hsum : ((2 ^ w - y.toNat + x.toNat : Nat) : Int) = (x.toNat : Int) - y.toNat + (2 ^ w : Nat) := by
    have hlt := y.isLt
    omega
  rw [BitVec.toNat_sub, unsigned, ← Int.add_emod_right, ← hsum]
  exact (Int.toNat_natCast _).symm

theorem toNat_mulHiS (x y : BitVec 32) : (mulHiS x y).toNat = unsigned 32 (signed 32 x.toNat * signed 32 y.toNat / 2 ^ 32) := by
  rw [signed_toNat, signed_toNat, mulHiS, BitVec.extractLsb'_toNat, BitVec.toNat_ofInt, Nat.shiftRight_eq_div_pow]
  unfold unsigned
  omega

theorem toNat_mulHiU (x y : BitVec 32) : (mulHiU x y).toNat = x.toNat * y.toNat / 2 ^ 32 := by
  have hlt : x.toNat * y.toNat < 2 ^ 32 * 2 ^ 32 := Nat.mul_lt_mul'' x.isLt y.isLt
  rw [mulHiU, BitVec.extractLsb'_toNat, BitVec.toNat_ofNat, Nat.mod_eq_of_lt (b := 2 ^ 64) hlt, Nat.shiftRight_eq_div_pow]
  exact Nat.mod_eq_of_lt (Nat.div_lt_of_lt_mul hlt)

theorem toNat_minI32 (x y : BitVec 32) : (if x.toInt ≤ y.toInt then x else y).toNat
    = if signed 32 x.toNat ≤ signed 32 y.toNat then x.toNat else y.toNat := by
  rw [signed_toNat, signed_toNat]; split <;> rfl

theorem toNat_maxI32 (x y : BitVec 32) : (if x.toInt ≤ y.toInt then y else x).toNat
    = if signed 32 y.toNat ≤ signed 32 x.toNat then x.toNat else y.toNat := by
  rw [signed_toNat, signed_toNat]
  rcases lt_trichotomy x.toInt y.toInt with h | h | h
  · rw [if_pos h.le, if_neg h.not_ge]
  · rw [if_pos h.le, if_pos h.ge, BitVec.eq_of_toInt_eq h]
  · rw [if_neg h.not_ge, if_pos h.le]

theorem toNat_minN32 (x y : BitVec 32) : (if x.toNat ≤ y.toNat then x else y).toNat = min x.toNat y.toNat := by
  rw [min_def, apply_ite BitVec.toNat]

theorem toNat_maxN32 (x y : BitVec 32) : (if x.toNat ≤ y.toNat then y else x).toNat = max x.toNat y.toNat := by
  rw [max_def, apply_ite BitVec.toNat]

theorem toNat_andn (x y : BitVec 32) : (x &&& ~~~y).toNat = fromBits 32 (fun i => x.toNat.testBit i && !y.toNat.testBit i) :=
  toNat_eq_fromBits fun i hi => by rw [BitVec.getLsbD_and, BitVec.getLsbD_not, decide_eq_true hi, Bool.true_and]; rfl

/-! ### Shifts (10 R187) -/

theorem toNat_shl32 (x k : BitVec 32) : (shl32 x k).toNat = if 32 ≤ k.toNat then 0 else x.toNat * 2 ^ k.toNat % 2 ^ 32 := by
  unfold shl32
  split
  · rfl
  · rw [BitVec.toNat_shiftLeft, Nat.shiftLeft_eq]

theorem toNat_shr32 (x k : BitVec 32) : (shr32 x k).toNat = if 32 ≤ k.toNat then 0 else x.toNat / 2 ^ k.toNat := by
  unfold shr32
  split
  · rfl
  · rw [BitVec.toNat_ushiftRight, Nat.shiftRight_eq_div_pow]

theorem toNat_sar32 (x k : BitVec 32) : (sar32 x k).toNat
    = if 32 ≤ k.toNat then (if signed 32 x.toNat < 0 then 2 ^ 32 - 1 else 0) else unsigned 32 (signed 32 x.toNat / 2 ^ k.toNat) := by
  rw [signed_toNat]
  unfold sar32
  split
  · rw [BitVec.msb_eq_toInt]
    simp only [decide_eq_true_eq]
    split <;> rfl
  · refine toNat_eq_unsigned ?_
    rw [← BitVec.ofInt_toInt (x := x.sshiftRight _), BitVec.toInt_sshiftRight, Int.shiftRight_eq_div_pow]
    norm_cast

/-- The bits that leave at the top come back below those that stay. -/
theorem toNat_rotl32 (x k : BitVec 32) : (rotl32 x k).toNat
    = x.toNat * 2 ^ (k.toNat % 32) % 2 ^ 32 + x.toNat / 2 ^ (32 - k.toNat % 32) := by
  have hk : k.toNat % 32 < 32 := Nat.mod_lt _ (by decide)
  rw [rotl32, BitVec.toNat_rotateLeft, Nat.mod_mod, Nat.shiftLeft_eq, Nat.shiftRight_eq_div_pow]
  generalize k.toNat % 32 = j at hk ⊢
  have hpow : 2 ^ 32 = 2 ^ j * 2 ^ (32 - j) := by rw [← pow_add]; congr 1; omega
  have hlow : x.toNat / 2 ^ (32 - j) < 2 ^ j := Nat.div_lt_of_lt_mul (by rw [mul_comm, ← hpow]; exact x.isLt)
  have hhigh : x.toNat * 2 ^ j % 2 ^ 32 = 2 ^ j * (x.toNat % 2 ^ (32 - j)) := by
    rw [hpow, mul_comm x.toNat, Nat.mul_mod_mul_left]
  rw [hhigh, Nat.two_pow_add_eq_or_of_lt hlow]

/-! ### One operand (10 R188) -/

theorem toNat_popc32 (x : BitVec 32) : (popc32 x).toNat = ((List.range 32).filter x.toNat.testBit).length := by
  have hle : ((List.range 32).filter x.getLsbD).length ≤ 32 := List.length_filter_le x.getLsbD (List.range 32)
  rw [popc32, BitVec.toNat_ofNat, List.countP_eq_length_filter]
  exact Nat.mod_eq_of_lt (by omega)

theorem length_leadingZeros {n x : Nat} (hx : x ≠ 0) (hlt : x < 2 ^ n) :
    ((List.range n).reverse.takeWhile (fun i => !x.testBit i)).length = n - 1 - x.log2 := by
  induction n with
  | zero => omega
  | succ n ih =>
    rw [List.range_succ, List.reverse_append, List.reverse_singleton, List.singleton_append, List.takeWhile_cons]
    have hlog : x.log2 < n + 1 := (Nat.log2_lt hx).mpr hlt
    cases hbit : x.testBit n with
    | true =>
      have hlow : n ≤ x.log2 := (Nat.le_log2 hx).mpr (Nat.ge_two_pow_of_testBit hbit)
      simp only [Bool.not_true, Bool.false_eq_true, if_false, List.length_nil]
      omega
    | false =>
      have hlt' : x < 2 ^ n := Nat.lt_pow_two_of_testBit x fun i hi => by
        rcases Nat.eq_or_lt_of_le hi with rfl | hi
        · exact hbit
        · exact Nat.testBit_lt_two_pow (hlt.trans_le (Nat.pow_le_pow_right (by decide) hi))
      have hlog' : x.log2 < n := (Nat.log2_lt hx).mpr hlt'
      simp only [Bool.not_false, if_true, List.length_cons, ih hlt']
      omega

theorem toNat_clz32 (x : BitVec 32) :
    (clz32 x).toNat = ((List.range 32).reverse.takeWhile (fun i => !x.toNat.testBit i)).length := by
  unfold clz32
  split
  next h => subst h; decide
  next h =>
    have hx : x.toNat ≠ 0 := fun h0 => h (BitVec.eq_of_toNat_eq h0)
    rw [length_leadingZeros hx x.isLt, BitVec.toNat_ofNat]
    omega

/-- The first number of a range that p holds of stands after those that it does not hold of. -/
theorem getD_find?_range' (p : Nat → Bool) (k n : Nat) :
    ((List.range' k n).find? p).getD (k + n) = k + ((List.range' k n).takeWhile (fun i => !p i)).length := by
  induction n generalizing k with
  | zero => rfl
  | succ n ih =>
    rw [List.range'_succ, List.find?_cons, List.takeWhile_cons]
    cases hp : p k with
    | true => rfl
    | false =>
      have hrest := ih (k + 1)
      simp only [Bool.not_false, if_true, List.length_cons]
      rw [show k + (n + 1) = k + 1 + n by omega, hrest]
      omega

theorem toNat_ctz32 (x : BitVec 32) : (ctz32 x).toNat = ((List.range 32).takeWhile (fun i => !x.toNat.testBit i)).length := by
  have hfind := getD_find?_range' x.getLsbD 0 32
  rw [Nat.zero_add, Nat.zero_add, ← List.range_eq_range'] at hfind
  have hle : ((List.range 32).takeWhile (fun i => !x.getLsbD i)).length ≤ 32 := (List.takeWhile_sublist _).length_le
  rw [ctz32, hfind, BitVec.toNat_ofNat]
  exact Nat.mod_eq_of_lt (by omega)

theorem toNat_brev32 (x : BitVec 32) : (brev32 x).toNat = fromBits 32 (fun i => x.toNat.testBit (31 - i)) := by
  refine toNat_eq_fromBits fun i hi => ?_
  rw [brev32, BitVec.getLsbD_reverse, BitVec.getMsbD]
  simp [hi, BitVec.getLsbD]

theorem toNat_neg32 (x : BitVec 32) : (0 - x).toNat = (2 ^ 32 - x.toNat) % 2 ^ 32 :=
  BitVec.toNat_sub 0 x

theorem toNat_iabs32 (x : BitVec 32) : (iabs32 x).toNat = (signed 32 x.toNat).natAbs := by
  have hx := BitVec.toInt_eq_toNat_cond x
  rw [signed_toNat]
  unfold iabs32
  have hlt := x.isLt
  split
  · omega
  · rw [toNat_neg32]
    omega

/-! ### Addresses (10 R195) -/

theorem toNat_lea (ty : Ty) (sh : Nat) (p : BitVec 64) (q : BitVec 32) :
    (p + (if ty = .i32 then q.signExtend 64 else q.zeroExtend 64) <<< sh).toNat
      = (p.toNat + (if ty = .i32 then unsigned 64 (signed 32 q.toNat) else q.toNat) * 2 ^ sh) % 2 ^ 64 := by
  have hext : (if ty = .i32 then q.signExtend 64 else q.zeroExtend 64).toNat
      = if ty = .i32 then unsigned 64 (signed 32 q.toNat) else q.toNat := by
    split
    · rfl
    · exact BitVec.toNat_setWidth_of_le (by decide)
  rw [BitVec.toNat_add, BitVec.toNat_shiftLeft, hext, Nat.shiftLeft_eq, Nat.add_mod_mod]

end Sys2Proof.Claims

/-!
The integer class completes as its rules say (O4): each shared form of instruction once, where its lanes are ready, and then the class.
-/

namespace Sys2Proof.Claims
open Sys2Proof Sys2Proof.Machine

/-! ### What a lane reads -/

theorem toNat_readBv (s : State) (w : Nat) (T : Team) (th : Thread) (a : Src) :
    (readBv (s.tickOf T) .int w T th a).toNat = rdw s w T th a := BitVec.toNat_ofNat ..

theorem predTrap_sound {T : Team} {th : Thread} (h : T.sound th = true) (ps : List Nat) : predTrap [th] ps = none := by
  unfold Team.sound at h
  simp only [Bool.and_eq_true, List.isEmpty_iff] at h
  obtain ⟨⟨hecc, -⟩, -⟩ := h
  simp [predTrap, hecc]

theorem withPreds_sound {T : Team} {th : Thread} (h : T.sound th = true) (ps : List Nat) (f : Team → Thread → Lane) :
    withPreds ps f T th = f T th := by
  unfold withPreds
  rw [predTrap_sound h]

/-! ### The shared forms -/

section
variable {s : State} {c : Cur} {x : Team → List Nat}

/-- An instruction that writes one destination: its lanes, once they may read, write the value that the rule gives. -/
theorem issue_writes {g : Guard} {d : Dst} {w : Nat} {srcs : List (Src × Nat)} {v : State → Team → Thread → Nat}
    {ready : State → Cur → Team → Thread → Bool} {xs : List Field} {f : Team → Thread → Lane}
    (hr : (writes g d w srcs v ready).Ready s c x)
    (hf : ∀ T th, ready s c T th = true → T.sound th = true → f T th = laneWrite th d w (v s T th))
    (hs : srcs = xs.map (fun q => (q.src, q.w)) := by rfl) :
    s.issue g d w xs f = (writes g d w srcs v ready).done s c x :=
  hr.issueWith hs (hf := fun T _ th _ hready hsound => (hf T th hready hsound).trans (laneWrite_eq th d w _))
    (hl := fun _ _ => List.length_map _)

/-- The same of an instruction whose lanes write one value, whatever they read. -/
theorem issueWrite_writes {g : Guard} {d : Dst} {w : Nat} {srcs : List (Src × Nat)} {v : State → Team → Thread → Nat} {xs : List Field}
    {m : Team → Thread → Nat} (hr : (writes g d w srcs v).Ready s c x) (hm : ∀ T th, m T th = v s T th)
    (hs : srcs = xs.map (fun q => (q.src, q.w)) := by rfl) :
    s.issue g d w xs (fun T th => laneWrite th d w (m T th)) = (writes g d w srcs v).done s c x :=
  issue_writes hr (fun T th _ _ => by rw [hm]) hs

/-- The same of an instruction whose lanes first read predicates of their own. -/
theorem issuePredWrite_writes {g : Guard} {d : Dst} {w : Nat} {srcs : List (Src × Nat)} {v : State → Team → Thread → Nat} {xs : List Field}
    {ps : List Nat} {m : Team → Thread → Nat} (hr : (writes g d w srcs v).Ready s c x) (hm : ∀ T th, m T th = v s T th)
    (hs : srcs = xs.map (fun q => (q.src, q.w)) := by rfl) :
    s.issue g d w xs (withPreds ps fun T th => laneWrite th d w (m T th)) = (writes g d w srcs v).done s c x :=
  issue_writes hr (fun T th _ hsound => by rw [withPreds_sound hsound, hm]) hs

theorem alu1_un {w : Nat} {g : Guard} {d : Dst} {a : Src} {f : Nat → Nat} {m : BitVec w → BitVec w}
    (hr : (un w g d a f).Ready s c x) (hm : ∀ p, (m p).toNat = f p.toNat) : s.alu1 w g d a m = (un w g d a f).done s c x :=
  issueWrite_writes hr fun T th => by rw [hm, toNat_readBv]

theorem alu2_bin {w : Nat} {g : Guard} {d : Dst} {a b : Src} {f : Nat → Nat → Nat} {m : BitVec w → BitVec w → BitVec w}
    (hr : (bin w g d a b f).Ready s c x) (hm : ∀ p q, (m p q).toNat = f p.toNat q.toNat) :
    s.alu2 w g d a b m = (bin w g d a b f).done s c x :=
  issueWrite_writes hr fun T th => by rw [hm, toNat_readBv, toNat_readBv]

/-- An instruction that writes the value v to one destination and the carry q to predicate n (10 R196). -/
def carries (g : Guard) (d : Dst) (w : Nat) (srcs : List (Src × Nat)) (n : Nat) (v : State → Team → Thread → Nat)
    (q : State → Team → Thread → Bool) : LaneOp :=
  { writes g d w srcs v with eff := fun s _ T th => (th.setP n (q s T th)).writeDest d w (v s T th) }

theorem carryChain_carries {sub : Bool} {g : Guard} {ty : Ty} {d : Dst} {a b : Src} {n : Nat} {v : State → Team → Thread → Nat}
    {q : State → Team → Thread → Bool} (hr : (carries g d ty.opBits [(a, ty.opBits), (b, ty.opBits)] n v q).Ready s c x)
    (hcarry : ∀ T th, carryOp sub ty.opBits (rdw s ty.opBits T th a) (rdw s ty.opBits T th b) (th.p.getLsbD n) = (v s T th, q s T th)) :
    s.carryChain sub g ty d a b n = (carries g d ty.opBits [(a, ty.opBits), (b, ty.opBits)] n v q).done s c x := by
  refine hr.issueWith (hf := fun T _ th _ _ hsound => ?_) (hl := fun _ _ => List.length_map _)
  have hlane := hcarry T th
  unfold rdw rd at hlane
  rw [withPreds_sound hsound]
  unfold Thread.pred
  dsimp only
  rw [hlane]
  exact laneWrite_eq _ d _ _

/-- An instruction that changes nothing but the thread of each lane. -/
theorem perLane_sets {g : Guard} {srcs : List (Src × Nat)} {e : State → Team → Thread → Thread}
    {ready : State → Cur → Team → Thread → Bool} {f : Team → Thread → Lane} (hr : (sets g srcs e ready).Ready s c x)
    (hf : ∀ T th, ready s c T th = true → T.sound th = true → f T th = .done (e s T th) []) :
    s.perLane g [] f = (sets g srcs e ready).done s c x :=
  hr.perLane_plain (hf := fun T _ th _ => hf T th) (hl := fun _ _ => rfl)

theorem predOp_sets {g : Guard} {ps : List Nat} {m : Thread → Thread} {e : State → Team → Thread → Thread}
    (hr : (sets g [] e).Ready s c x) (hm : ∀ T th, m th = e s T th) :
    s.predOp g ps m = (sets g [] e).done s c x :=
  perLane_sets hr fun T th _ hsound => by rw [withPreds_sound hsound, hm T th]

theorem checked_sets {g : Guard} {srcs : List (Src × Nat)} {e : State → Team → Thread → Thread}
    {ready : State → Cur → Team → Thread → Bool} {regs : List Nat} {xs : List Field} {f : State → Team → Thread → Lane}
    (hr : (sets g srcs e ready).Ready s c x) (hregs : regs = srcs.flatMap (fun q => srcRegs q.2 q.1))
    (hf : ∀ T th, ready s c T th = true → T.sound th = true → f s T th = .done (e s T th) []) :
    s.checked g regs [] (fun a => a.perLane g [] (withEcc xs (f a))) = (sets g srcs e ready).done s c x := by
  subst hregs
  refine hr.checked_done (hn := fun r hmem => ?_) (hu := by simp)
    (hk := perLane_sets hr fun T th hready hsound => (withEcc_ready hsound).trans (hf T th hready hsound))
  exact List.mem_append_left _ (List.mem_append_right _ hmem)

theorem predFrom_sets {g : Guard} {srcs : List (Src × Nat)} {e : State → Team → Thread → Thread} {xs : List Field}
    {m : Team → Thread → Thread}
    (hr : (sets g srcs e).Ready s c x) (hm : ∀ T th, m T th = e s T th) (hs : srcs = xs.map (fun q => (q.src, q.w)) := by rfl) :
    s.predFrom g xs m = (sets g srcs e).done s c x :=
  checked_sets (f := fun _ T th => .done (m T th) []) hr (fieldRegs_eq hs).symm fun T th _ _ => by rw [hm]

theorem divOp_awaits {g : Guard} {ty : Ty} {d : Dst} {a b : Src} {f : Nat → Nat → Nat}
    (hr : (awaits g d ty.opBits [(a, ty.opBits), (b, ty.opBits)] .arith
      (fun s T th => f (rd s ty.opBits T th a) (rd s ty.opBits T th b))).Ready s c x) :
    s.divOp g ty d a b f = (awaits g d ty.opBits [(a, ty.opBits), (b, ty.opBits)] .arith
      (fun s T th => f (rd s ty.opBits T th a) (rd s ty.opBits T th b))).done s c x := by
  unfold State.divOp
  refine hr.checked_done (hn := fun r hmem => ?_) (hu := mem_uniformFor rfl)
    (hk := hr.perLane_plain (hf := fun T _ th _ _ hsound => ?_) (hl := fun _ _ => rfl))
  · simpa [LaneOp.named, awaits] using hmem
  · rw [withEcc_ready hsound, hr.cur]
    cases d <;> rfl

/-! ### Index registers (10 R201, R202) -/

theorem ixLimit_lt (k : BitVec 32) : ixLimit k < 512 := Nat.mod_lt _ (by decide)

/-- A lane of movx or stx that is ready neither waits nor faults: it names the entry at its offset. -/
theorem indexReady_spec {T : Team} {th : Thread} {ty : Ty} {ix off : Nat}
    (h : (!s.ixWaits T th ix && decide (off + (ty.opBits / 32 - 1) < ixLimit (th.ix.getD ix 0))
      && (ty.opBits == 32 || (ixBase (th.ix.getD ix 0) + off) % 2 == 0)) = true) :
    s.ixWaits T th ix = false ∧ th.indexEntry ty ix off = .ok (ixBase (th.ix.getD ix 0) + off) := by
  simp only [Bool.and_eq_true, Bool.not_eq_true', decide_eq_true_eq, Bool.or_eq_true, beq_iff_eq] at h
  obtain ⟨⟨hfree, hoff⟩, heven⟩ := h
  refine ⟨hfree, ?_⟩
  have hlimit := ixLimit_lt (th.ix.getD ix 0)
  have hentry : th.indexed ix off = some (ixBase (th.ix.getD ix 0) + off) := if_neg (by omega)
  unfold Thread.indexEntry
  rw [hentry]
  dsimp only
  split
  next hw =>
    rw [hw] at hoff heven
    have hnext : th.indexed ix ((off + 1) % 2 ^ 32) = some (ixBase (th.ix.getD ix 0) + (off + 1) % 2 ^ 32) := if_neg (by omega)
    rw [if_neg (by omega), hnext]
  next => rfl

theorem afterIndex_ready {o : LaneOp} (hr : o.Ready s c x) {regs : List Nat} {ix : Nat} {k : State → State}
    (hregs : ∀ r ∈ regs, r ∈ o.named) (hfree : ∀ T th, o.ready s c T th = true → s.ixWaits T th ix = false) :
    s.afterIndex o.g regs ix k = k s := by
  have hnone : (s.executing c.entry o.g).any (fun q => s.ixWaits q.1 q.2 ix) = false := by
    simp only [State.executing, List.any_eq_false, List.mem_flatMap, List.mem_map, Bool.not_eq_true]
    rintro _ ⟨T, hT, th, hth, rfl⟩
    exact hfree T th (hr.ready T hT th hth)
  refine (hr.checked hregs (by simp)).trans ?_
  rw [hr.cur]
  dsimp only
  rw [hnone]
  rfl

theorem execMovx_done {g : Guard} {ty : Ty} {ix : Nat} {d : Dst} {a : Src} {o : LaneOp} (ho : intOp (.movx g ty ix d a) = some o)
    (hr : o.Ready s c x) : execMovx g ty ix d a s = .next (o.done s c x) := by
  cases ho
  refine congrArg Host.Outcome.next ((afterIndex_ready hr (fun r hmem => ?_) fun T th h => (indexReady_spec h).1).trans ?_)
  · simpa [LaneOp.named, writes] using hmem
  · refine issue_writes hr fun T th hready hsound => ?_
    have hentry := (indexReady_spec hready).2
    unfold rd at hentry
    dsimp only
    rw [hentry]
    exact withEcc_ready hsound

theorem execStx_done {g : Guard} {ty : Ty} {ix : Nat} {a b : Src} {o : LaneOp} (ho : intOp (.stx g ty ix a b) = some o)
    (hr : o.Ready s c x) : execStx g ty ix a b s = .next (o.done s c x) := by
  cases ho
  refine congrArg Host.Outcome.next ((afterIndex_ready hr (fun r hmem => ?_) fun T th h => (indexReady_spec h).1).trans ?_)
  · simpa [LaneOp.named, sets, dstRegs] using hmem
  · refine perLane_sets hr fun T th hready hsound => ?_
    have hentry := (indexReady_spec hready).2
    unfold rd at hentry
    rw [withEcc_ready hsound, hentry]
    rfl

theorem execSetix_done {g : Guard} {ix : Nat} {a : Src} {o : LaneOp} (ho : intOp (.setix g ix a) = some o)
    (hr : o.Ready s c x) : execSetix g ix a s = .next (o.done s c x) := by
  cases ho
  refine congrArg Host.Outcome.next (checked_sets hr (by simp) fun T th hready _ => ?_)
  simp only [Bool.and_eq_true, beq_iff_eq, decide_eq_true_eq] at hready
  unfold bitsOf at hready
  obtain ⟨⟨⟨hlow, hhigh⟩, hlimit⟩, hblock⟩ := hready
  have hlt : rdw s 32 T th a < 2 ^ 32 := Nat.mod_lt _ (by decide)
  dsimp only
  unfold ixBase ixLimit
  rw [toNat_readBv, if_neg (by omega), if_neg (by omega)]
  rfl

end

/-! ### The class -/

/-- An instruction of the integer class whose lanes are ready completes as its rule says (10 R186 to R204). -/
theorem intOp_done {i : Instr} {o : LaneOp} (ho : intOp i = some o) {s : State} {c : Cur} {x : Team → List Nat} (hr : o.Ready s c x) :
    exec i s = .next (o.done s c x) := by
  cases i with
  | iaddI32 g d a b | iaddI64 g d a b => cases ho; exact congrArg _ (alu2_bin hr BitVec.toNat_add)
  | isubI32 g d a b | isubI64 g d a b => cases ho; exact congrArg _ (alu2_bin hr toNat_sub_eq_unsigned)
  | imulI32 g d a b => cases ho; exact congrArg _ (alu2_bin hr BitVec.toNat_mul)
  | imulhiI32 g d a b => cases ho; exact congrArg _ (alu2_bin hr toNat_mulHiS)
  | imulhiN32 g d a b => cases ho; exact congrArg _ (alu2_bin hr toNat_mulHiU)
  | iminI32 g d a b => cases ho; exact congrArg _ (alu2_bin hr toNat_minI32)
  | imaxI32 g d a b => cases ho; exact congrArg _ (alu2_bin hr toNat_maxI32)
  | iminN32 g d a b => cases ho; exact congrArg _ (alu2_bin hr toNat_minN32)
  | imaxN32 g d a b => cases ho; exact congrArg _ (alu2_bin hr toNat_maxN32)
  | andB32 g d a b => cases ho; exact congrArg _ (alu2_bin hr fun p q => toNat_eq_fromBits fun i _ => BitVec.getLsbD_and)
  | orB32 g d a b => cases ho; exact congrArg _ (alu2_bin hr fun p q => toNat_eq_fromBits fun i _ => BitVec.getLsbD_or)
  | xorB32 g d a b => cases ho; exact congrArg _ (alu2_bin hr fun p q => toNat_eq_fromBits fun i _ => BitVec.getLsbD_xor)
  | andnB32 g d a b => cases ho; exact congrArg _ (alu2_bin hr toNat_andn)
  | shl g d a b => cases ho; exact congrArg _ (alu2_bin hr toNat_shl32)
  | shr g d a b => cases ho; exact congrArg _ (alu2_bin hr toNat_shr32)
  | sar g d a b => cases ho; exact congrArg _ (alu2_bin hr toNat_sar32)
  | rotl g d a b => cases ho; exact congrArg _ (alu2_bin hr toNat_rotl32)
  | popc g d a => cases ho; exact congrArg _ (alu1_un hr toNat_popc32)
  | clz g d a => cases ho; exact congrArg _ (alu1_un hr toNat_clz32)
  | ctz g d a => cases ho; exact congrArg _ (alu1_un hr toNat_ctz32)
  | brev g d a => cases ho; exact congrArg _ (alu1_un hr toNat_brev32)
  | iabsI32 g d a => cases ho; exact congrArg _ (alu1_un hr toNat_iabs32)
  | inegI32 g d a => cases ho; exact congrArg _ (alu1_un hr toNat_neg32)
  | mov g d a => cases ho; exact congrArg _ (alu1_un hr fun _ => rfl)
  | iaddi g d a k => cases ho; exact congrArg _ (alu1_un hr fun p => BitVec.toNat_add p k)
  | andi g d a k => cases ho; exact congrArg _ (alu1_un hr fun p => toNat_eq_fromBits fun i _ => BitVec.getLsbD_and)
  | ori g d a k => cases ho; exact congrArg _ (alu1_un hr fun p => toNat_eq_fromBits fun i _ => BitVec.getLsbD_or)
  | xori g d a k => cases ho; exact congrArg _ (alu1_un hr fun p => toNat_eq_fromBits fun i _ => BitVec.getLsbD_xor)
  | pand g d a b | por g d a b | pxor g d a b => cases ho; exact congrArg _ (predOp_sets hr fun _ _ => rfl)
  | pnot g d a => cases ho; exact congrArg _ (predOp_sets hr fun _ _ => rfl)
  | movi g d k => cases ho; exact congrArg _ (issueWrite_writes hr fun _ _ => rfl)
  | imad g ty d a b e =>
    cases ho
    exact congrArg _ (issueWrite_writes hr fun T th => by
      rw [BitVec.toNat_add, BitVec.toNat_mul, Nat.mod_add_mod, toNat_readBv, toNat_readBv, toNat_readBv])
  | idiv g ty d a b => cases ho; exact congrArg _ (divOp_awaits (f := fun p q => (divRem ty p q).1) hr)
  | irem g ty d a b => cases ho; exact congrArg _ (divOp_awaits (f := fun p q => (divRem ty p q).2) hr)
  | icmp g ty cc d a b =>
    cases ho
    refine congrArg _ (predFrom_sets hr fun T th => congrArg (th.setP d) ?_)
    cases cc with
    | eq => rfl
    | ne => exact (decide_not ..).symm
    | lt | le | gt | ge => rfl
  | sel g ty d a b n =>
    cases ho
    exact congrArg _ (issuePredWrite_writes hr fun T th => apply_ite ..)
  | lea g ty sh d a b =>
    cases ho
    exact congrArg _ (issueWrite_writes hr fun T th => by rw [toNat_lea, toNat_readBv, toNat_readBv])
  | iaddc g ty d a b n =>
    cases ho
    exact congrArg _ (carryChain_carries hr fun _ _ => rfl)
  | isubb g ty d a b n =>
    cases ho
    exact congrArg _ (carryChain_carries hr fun _ _ => rfl)
  | iaddL g ty sat d a b => cases ho; exact congrArg _ (issueWrite_writes hr fun _ _ => rfl)
  | bfe g ty d a b => cases ho; exact congrArg _ (issueWrite_writes hr fun _ _ => rfl)
  | bfi g ty d a b e | shf g ty right d a b e => cases ho; exact congrArg _ (issueWrite_writes hr fun _ _ => rfl)
  | setix g n a => exact execSetix_done ho hr
  | movx g ty n d a => exact execMovx_done ho hr
  | stx g ty n a b => exact execStx_done ho hr
  | pmovTo g d a => cases ho; exact congrArg _ (predFrom_sets hr fun T th => congrArg (th.setP d) (decide_not ..).symm)
  | pmovFrom g d a =>
    cases ho
    exact congrArg _ (issuePredWrite_writes hr fun T th => Bool.cond_eq_ite ..)
  | icvt g ty sty sat d a => cases ho; exact congrArg _ (issueWrite_writes hr fun _ _ => rfl)
  | _ => nomatch ho

/-- Settles O4: each instruction is one of the shared forms, whose lanes write the value that its rule gives. -/
theorem integerInstructions : Obligations.IntegerInstructions := by
  unfold Obligations.IntegerInstructions
  exact fun _ _ hi _ _ _ hready => intOp_done hi hready

end Sys2Proof.Claims

/-!
Quotients, remainders, bit fields and funnel shifts (O55; 10 R192, R197, R198, R200): what the model's arithmetic on numbers gives, for
every width.
-/

namespace Sys2Proof.Claims
open Sys2Proof Sys2Proof.Machine

/-! ### Two's complement -/

theorem signed_bounds {n x : Nat} (hn : 0 < n) (hx : x < 2 ^ n) :
    -(2 ^ (n - 1) : Nat) ≤ signed n x ∧ signed n x < (2 ^ (n - 1) : Nat) := by
  unfold signed
  rw [← Nat.two_pow_pred_mul_two hn] at hx ⊢
  split <;> omega

theorem signed_eq_zero {n x : Nat} (hx : x < 2 ^ n) : signed n x = 0 ↔ x = 0 := by
  unfold signed
  split <;> omega

theorem signed_eq_min {n : Nat} (hn : 0 < n) (x : Nat) : signed n x = -(2 ^ (n - 1) : Nat) ↔ x = 2 ^ (n - 1) := by
  unfold signed
  rw [← Nat.two_pow_pred_mul_two hn]
  split <;> omega

theorem signed_eq_neg_one {n x : Nat} (hn : 0 < n) (hx : x < 2 ^ n) : signed n x = -1 ↔ x = 2 ^ n - 1 := by
  unfold signed
  rw [← Nat.two_pow_pred_mul_two hn] at hx ⊢
  split <;> omega

theorem unsigned_natCast {n x : Nat} (hx : x < 2 ^ n) : unsigned n x = x := by
  unfold unsigned
  rw [← Int.natCast_mod, Int.toNat_natCast, Nat.mod_eq_of_lt hx]

/-! ### Quotient and remainder (10 R192) -/

theorem intVal_of_signed {ty : Ty} {x : Nat} (hs : isSigned ty = true) (hx : x < 2 ^ intBits ty) :
    intVal ty x = signed (intBits ty) x := by
  rw [intVal, if_pos hs, Nat.mod_eq_of_lt hx]

theorem intVal_of_unsigned {ty : Ty} {x : Nat} (hs : isSigned ty = false) (hx : x < 2 ^ intBits ty) : intVal ty x = x := by
  rw [intVal, hs, Nat.mod_eq_of_lt hx]
  rfl

theorem divRem_zero {ty : Ty} {x : Nat} (hx : x < 2 ^ intBits ty) : divRem ty x 0 = (2 ^ intBits ty - 1, x) := by
  have hzero : intVal ty 0 = 0 := by
    cases hs : isSigned ty with
    | true => rw [intVal_of_signed hs (Nat.two_pow_pos _), signed_eq_zero (Nat.two_pow_pos _)]
    | false => exact intVal_of_unsigned hs (Nat.two_pow_pos _)
  unfold divRem
  dsimp only
  rw [if_pos hzero, Nat.mod_eq_of_lt hx]

theorem divRem_unsigned {ty : Ty} {x y : Nat} (hs : isSigned ty = false) (hx : x < 2 ^ intBits ty) (hy : y < 2 ^ intBits ty) (h0 : y ≠ 0) :
    divRem ty x y = (x / y, x % y) := by
  unfold divRem
  rw [intVal_of_unsigned hs hx, intVal_of_unsigned hs hy]
  dsimp only
  rw [if_neg (by exact_mod_cast h0), hs, Bool.false_and, Bool.false_and, if_neg (by decide), ← Int.ofNat_tdiv, ← Int.ofNat_tmod]
  rw [unsigned_natCast ((Nat.div_le_self x y).trans_lt hx), unsigned_natCast ((Nat.mod_le x y).trans_lt hx)]

section
variable {ty : Ty} (hs : isSigned ty = true) (hn : 0 < intBits ty)
include hs hn

theorem divRem_overflow : divRem ty (2 ^ (intBits ty - 1)) (2 ^ intBits ty - 1) = (2 ^ (intBits ty - 1), 0) := by
  have hpow := Nat.two_pow_pos (intBits ty)
  have hmin : 2 ^ (intBits ty - 1) < 2 ^ intBits ty := Nat.pow_lt_pow_right (by decide) (by omega)
  unfold divRem
  rw [intVal_of_signed hs hmin, intVal_of_signed hs (by omega), (signed_eq_min hn _).mpr rfl, (signed_eq_neg_one hn (by omega)).mpr rfl]
  dsimp only
  rw [if_neg (by decide), if_pos (by simp [hs, intMin]), Nat.mod_eq_of_lt hmin]

/-- Where the quotient is in range, idiv and irem give the quotient towards zero and its remainder. -/
theorem signed_divRem {x y : Nat} (hx : x < 2 ^ intBits ty) (hy : y < 2 ^ intBits ty) (h0 : y ≠ 0)
    (hover : ¬(x = 2 ^ (intBits ty - 1) ∧ y = 2 ^ intBits ty - 1)) :
    signed (intBits ty) (divRem ty x y).1 = (signed (intBits ty) x).tdiv (signed (intBits ty) y)
      ∧ signed (intBits ty) (divRem ty x y).2 = (signed (intBits ty) x).tmod (signed (intBits ty) y) := by
  obtain ⟨hxlo, hxhi⟩ := signed_bounds hn hx
  obtain ⟨hylo, hyhi⟩ := signed_bounds hn hy
  have hb0 : signed (intBits ty) y ≠ 0 := mt (signed_eq_zero hy).mp h0
  rw [← signed_eq_min hn x, ← signed_eq_neg_one hn hy] at hover
  unfold divRem
  rw [intVal_of_signed hs hx, intVal_of_signed hs hy]
  generalize signed (intBits ty) x = a at *
  generalize signed (intBits ty) y = b at *
  dsimp only
  rw [if_neg hb0, if_neg (by simpa [hs, intMin] using hover)]
  have hq : (a.tdiv b).natAbs = a.natAbs / b.natAbs := Int.natAbs_tdiv a b
  have hr : (a.tmod b).natAbs < b.natAbs := by rw [Int.natAbs_tmod]; exact Nat.mod_lt _ (by omega)
  have hle : a.natAbs / b.natAbs ≤ a.natAbs := Nat.div_le_self _ _
  refine ⟨signed_unsigned hn (by omega) ?_, signed_unsigned hn (by omega) (by omega)⟩
  by_contra hge
  have hself : a.natAbs / b.natAbs = a.natAbs := by omega
  have hpos := Nat.two_pow_pos (intBits ty - 1)
  rcases Nat.div_eq_self.mp hself with h | h
  · omega
  · rcases Int.natAbs_eq_iff.mp h with rfl | rfl
    · rw [Nat.cast_one, Int.tdiv_one] at hge
      omega
    · exact hover ⟨by omega, rfl⟩

end

theorem tmod_nonpos {a : Int} (b : Int) (ha : a ≤ 0) : a.tmod b ≤ 0 := by
  have := Int.tmod_nonneg b (neg_nonneg.mpr ha)
  rwa [Int.neg_tmod, neg_nonneg] at this

/-! ### Bit fields and funnel shifts (10 R197, R198, R200) -/

section
variable {w ctl : Nat}

theorem bfeOp_empty (h : w ≤ ctl % 256 ∨ ctl / 256 % 256 = 0) (sg : Bool) (a : Nat) : bfeOp sg w a ctl = 0 := if_pos h

theorem bfiOp_empty (h : w ≤ ctl % 256 ∨ ctl / 256 % 256 = 0) (a b : Nat) : bfiOp w a b ctl = a := if_pos h

theorem testBit_bfeOp_zeros (hoff : ctl % 256 < w) (hlen : ctl / 256 % 256 ≠ 0) (a i : Nat) :
    (bfeOp false w a ctl).testBit i = (decide (i < min (ctl / 256 % 256) (w - ctl % 256)) && a.testBit (ctl % 256 + i)) := by
  unfold bfeOp
  dsimp only
  rw [if_neg (by omega), if_neg (by decide), Nat.testBit_mod_two_pow, Nat.testBit_div_two_pow, Nat.add_comm i]

/-- The low n bits of a number, sign-extended. -/
theorem testBit_signExtend {n f i : Nat} (hn : 0 < n) (hf : f < 2 ^ n) (hi : i < w) :
    (unsigned w (signed n f)).testBit i = f.testBit (min i (n - 1)) := by
  have hext : unsigned w (signed n f) = ((BitVec.ofNatLT f hf).signExtend w).toNat := rfl
  rw [hext]
  change ((BitVec.ofNatLT f hf).signExtend w).getLsbD i = _
  rw [BitVec.getLsbD_signExtend, decide_eq_true hi, Bool.true_and, BitVec.msb_eq_getLsbD_last]
  split
  · rw [Nat.min_eq_left (by omega)]; rfl
  · rw [Nat.min_eq_right (by omega)]; rfl

theorem testBit_bfeOp_signs (hoff : ctl % 256 < w) (hlen : ctl / 256 % 256 ≠ 0) (a : Nat) {i : Nat} (hi : i < w) :
    (bfeOp true w a ctl).testBit i = a.testBit (ctl % 256 + min i (min (ctl / 256 % 256) (w - ctl % 256) - 1)) := by
  unfold bfeOp
  dsimp only
  rw [if_neg (by omega), if_pos rfl, testBit_signExtend (by omega) (Nat.mod_lt _ (Nat.two_pow_pos _)) hi, Nat.testBit_mod_two_pow,
    decide_eq_true (by omega), Bool.true_and, Nat.testBit_div_two_pow, Nat.add_comm (ctl % 256)]

theorem testBit_bfiOp (hoff : ctl % 256 < w) (hlen : ctl / 256 % 256 ≠ 0) (a b i : Nat) :
    (bfiOp w a b ctl).testBit i = if ctl % 256 ≤ i ∧ i < ctl % 256 + min (ctl / 256 % 256) (w - ctl % 256) then b.testBit (i - ctl % 256)
      else a.testBit i := by
  unfold bfiOp
  dsimp only
  rw [if_neg (by omega)]
  generalize ctl % 256 = k
  generalize min (ctl / 256 % 256) (w - k) = n
  have hparts : a % 2 ^ k + b % 2 ^ n * 2 ^ k + a / 2 ^ (k + n) * 2 ^ (k + n)
      = 2 ^ k * (2 ^ n * (a / 2 ^ (k + n)) + b % 2 ^ n) + a % 2 ^ k := by ring
  rw [hparts, Nat.testBit_two_pow_mul_add _ (Nat.mod_lt _ (Nat.two_pow_pos _)), Nat.testBit_two_pow_mul_add _ (Nat.mod_lt _ (Nat.two_pow_pos _)),
    Nat.testBit_mod_two_pow, Nat.testBit_mod_two_pow, Nat.testBit_div_two_pow]
  rcases Nat.lt_or_ge i k with hik | hik
  · rw [if_pos hik, if_neg (by omega), decide_eq_true hik, Bool.true_and]
  · rw [if_neg (by omega)]
    rcases Nat.lt_or_ge (i - k) n with hin | hin
    · rw [if_pos hin, if_pos (by omega), decide_eq_true hin, Bool.true_and]
    · rw [if_neg (by omega), if_neg (by omega)]
      congr 1
      omega

/-- A bit of the double word a : b. -/
theorem testBit_doubleWord {a b : Nat} (hb : b < 2 ^ w) (j : Nat) :
    (a * 2 ^ w + b).testBit j = if j < w then b.testBit j else a.testBit (j - w) := by
  rw [Nat.mul_comm, Nat.testBit_two_pow_mul_add a hb]

theorem testBit_shfOp_left {a b i : Nat} (hb : b < 2 ^ w) (hi : i < w) : (shfOp false w a b ctl).testBit i
    = if ctl % w ≤ i then a.testBit (i - ctl % w) else b.testBit (w - ctl % w + i) := by
  have hk : ctl % w < w := Nat.mod_lt _ (by omega)
  unfold shfOp
  dsimp only
  rw [if_neg (by decide), Nat.testBit_mod_two_pow, decide_eq_true hi, Bool.true_and, Nat.testBit_div_two_pow, Nat.testBit_mul_two_pow,
    decide_eq_true (by omega), Bool.true_and, testBit_doubleWord hb]
  split
  · rw [if_neg (by omega)]; congr 1; omega
  · rw [if_pos (by omega)]; congr 1; omega

theorem testBit_shfOp_right {a b i : Nat} (hb : b < 2 ^ w) (hi : i < w) : (shfOp true w a b ctl).testBit i
    = if i + ctl % w < w then b.testBit (i + ctl % w) else a.testBit (i + ctl % w - w) := by
  unfold shfOp
  dsimp only
  rw [if_pos rfl, Nat.testBit_mod_two_pow, decide_eq_true hi, Bool.true_and, Nat.testBit_div_two_pow, testBit_doubleWord hb]

end

/-! ### The obligation -/

/-- The 32- and 64-bit integer types. -/
theorem opBits_eq_intBits {ty : Ty} (h : ty = .i32 ∨ ty = .i64 ∨ ty = .n32 ∨ ty = .n64) : ty.opBits = intBits ty ∧ 0 < intBits ty := by
  rcases h with rfl | rfl | rfl | rfl <;> decide

/-- Settles O55: quotients by `signed_divRem` and `divRem_unsigned`, fields and funnel shifts by a lemma for the bits of each. -/
theorem divisionAndBitFields : Obligations.DivisionAndBitFields := by
  unfold Obligations.DivisionAndBitFields
  refine ⟨fun ty x y hty hx hy => ?_, by decide, by decide, by decide, by decide,
    fun w a b ctl i _ _ hb hi => ⟨fun h sg => ⟨bfeOp_empty h sg a, bfiOp_empty h a b⟩,
      fun hoff hlen => ⟨testBit_bfeOp_zeros hoff hlen a i, testBit_bfeOp_signs hoff hlen a hi, testBit_bfiOp hoff hlen a b i⟩,
      testBit_shfOp_left hb hi, testBit_shfOp_right hb hi⟩, by decide, by decide⟩
  obtain ⟨hw, hn⟩ := opBits_eq_intBits hty
  rw [hw] at hx hy ⊢
  refine ⟨?_, fun hu h0 => ?_, fun hty hxmin hyneg => ?_, fun hty h0 hover => ?_⟩
  · rintro rfl
    exact divRem_zero hx
  · have hs : isSigned ty = false := by rcases hu with rfl | rfl <;> rfl
    rw [divRem_unsigned hs hx hy h0]
    exact ⟨Nat.div_add_mod' x y, Nat.mod_lt x (Nat.pos_of_ne_zero h0)⟩
  · subst hxmin hyneg
    exact divRem_overflow (by rcases hty with rfl | rfl <;> rfl) hn
  · obtain ⟨hq, hr⟩ := signed_divRem (by rcases hty with rfl | rfl <;> rfl) hn hx hy h0 hover
    have hb0 : signed (intBits ty) y ≠ 0 := mt (signed_eq_zero hy).mp h0
    rw [hq, hr, Int.natAbs_tmod]
    exact ⟨Int.tdiv_mul_add_tmod _ _, Nat.mod_lt _ (Int.natAbs_pos.mpr hb0), fun h => tmod_nonpos _ h.le, Int.tmod_nonneg _⟩

end Sys2Proof.Claims

/-!
Words that the spec writes beside its examples (O46): each is what `encode` gives the instruction, so the codec's laws read it back.
-/

namespace Sys2Proof.Claims
open Sys2Proof Sys2Proof.Machine Sys2Proof.Laws

/-- The words that `encode` gives a well-formed instruction are read as that instruction. -/
theorem reads_of_encode {i : Instr} {c : Cls} {ws : List (BitVec 32)} (hcodec : Codec.Statement i)
    (hwf : i.wellFormed = true := by decide) (hwords : encode i = some (c, ws) := by decide) : reads c ws i := by
  have hread := hcodec hwf c ws hwords []
  rwa [List.append_nil] at hread

/-- Settles O46: the two headers by evaluation, the words of each instruction by the law of its encoding. -/
theorem writtenWordsDecode : Obligations.WrittenWordsDecode := by
  unfold Obligations.WrittenWordsDecode
  exact ⟨by decide, by decide,
    reads_of_encode (Codec.pxor _ _ _ _), reads_of_encode (Codec.iaddc _ _ _ _ _ _), reads_of_encode (Codec.icmp _ _ _ _ _ _),
    reads_of_encode (Codec.setix _ _ _), reads_of_encode (Codec.frcpF32 _ _ _), reads_of_encode (Codec.fma _ _ _ _ _ _ _ _ _),
    reads_of_encode (Codec.shflXor _ _ _ _), reads_of_encode (Codec.red _ _ _ _ _ _), reads_of_encode (Codec.bind _ _ _),
    reads_of_encode (Codec.wmacF64 _ _ _ _), reads_of_encode (Codec.atomcas _ _ _ _ _ _ _), reads_of_encode (Codec.sti _ _ _ _ _ _ _),
    reads_of_encode (Codec.mma _ _ _ _ _ _), reads_of_encode (Codec.mmasc _ _ _ _ _ _ _ _), reads_of_encode (Codec.loop _ _ _),
    reads_of_encode (Codec.bra _ _), reads_of_encode (Codec.dispatch _ _ _ _), reads_of_encode (Codec.covst _ _ _),
    reads_of_encode (Codec.engPost _ _ _)⟩

end Sys2Proof.Claims

/-!
The floating class completes as its rules say (O5; 11 R205 to R223): the operands that a lane reads, the values written in other terms than
the machine's, each shared form of instruction once, where its lanes are ready, and then the class.
-/

namespace Sys2Proof.Claims
open Sys2Proof Sys2Proof.Machine

/-! ### Operands (11 R206) -/

theorem rdf_lt (s : State) (t : Ty) (T : Team) (th : Thread) (a : Src) : rdf s t T th a < 2 ^ (fmtOf t).bits :=
  Nat.mod_lt _ (Nat.two_pow_pos _)

/-- A packed source delivers its two elements. -/
theorem readPair_eq_rdh (s : State) (t : Ty) (T : Team) (th : Thread) (a : Src) :
    readPair (s.tickOf T) t T th a = (rdh s t T th a 0, rdh s t T th a 1) := by
  cases a with
  | one | zero | imm _ => rfl
  | _ => exact Prod.ext (congrArg (· % 2 ^ 16) (Nat.div_one _).symm) rfl

theorem readUnpack_eq_packedSrc (s : State) (t : Ty) (T : Team) (th : Thread) (a : Src) :
    readUnpack (s.tickOf T) t T th a = packedSrc s t T th a := by
  cases a <;> rfl

/-! ### Values (11 R208, R214) -/

/-- The sign bit is inverted by adding it, where the carry out of it is dropped. -/
theorem fnegBits_eq {t : Ty} {p n m : Nat} (hn : signBit t = n) (hm : 2 * n = m) (hp : p < m) : fnegBits t p = ⟨(p + n) % m, 0⟩ := by
  subst hn hm
  unfold fnegBits exactRes
  congr 1
  rcases Nat.lt_or_ge p (signBit t) with hlow | hhigh
  · rw [Nat.div_eq_of_lt hlow, if_neg (by decide), Nat.mod_eq_of_lt (by omega)]
  · rw [Nat.div_eq_of_lt_le (k := 1) (by omega) (by omega), if_pos rfl, Nat.mod_eq_sub_mod hhigh, Nat.mod_eq_of_lt (by omega),
      Nat.mod_eq_sub_mod (by omega), Nat.mod_eq_of_lt (by omega)]
    omega

/-- A finite number is below the least normal one where its fraction has no bit beyond the format's. -/
theorem fclassOf_eq_classBit (t : Ty) (a : Nat) : fclassOf t a = classBit t a := by
  unfold fclassOf classBit
  rcases fval t a with sig | neg | ⟨neg, m, e⟩
  · cases sig <;> rfl
  · cases neg <;> rfl
  · have hsub : m / 2 ^ (fmtOf t).tbits = 0 ↔ m < 2 ^ (fmtOf t).tbits := by simp [Nat.div_eq_zero_iff]
    simp only [hsub]

/-! ### Exceptions (06 R119) -/

/-- A lane none of whose exceptions is enabled goes on with its sticky flags set. -/
theorem raising_ready {th : Thread} {e : Exc} {k : Thread → Lane} (h : (e &&& modeEnables th.mode == 0) = true) :
    raising th e k = k (th.stick e) :=
  raising_pass (excTrap_none (eq_of_beq h))

/-- A shift of the last results takes place unless both destinations are predicate masks (05 R98). -/
theorem dstShifts_or_eq (d e : Dst) : (dstShifts d || dstShifts e) = !onlyMasks d e := by
  cases d <;> cases e <;> rfl

/-- An outstanding result: its lane shifts its last results and notes the result (05 R98, R99). -/
theorem await_eq_shifted (th : Thread) (d : Dst) (w v : Nat) (prod : Producer) (clause : BitVec 64) (slot : Nat) (since : BitVec 64)
    (exc : Exc) : th.await d w v prod clause slot since exc
      = { shifted d th with
          outst := th.outst ++ [{ tag := th.nextTag, dst := d, bits := w, val := v, prod := prod, exc := exc, clause := clause
                                  slot := slot, since := since }] } := by
  cases d <;> rfl

/-! ### The shared forms -/

section
variable {s : State} {c : Cur} {x : Team → List Nat}

/-- An instruction that writes one floating result: its lanes, no exception of theirs enabled, write the value that the rule gives. -/
theorem issueFloat_floats {g : Guard} {d : Dst} {w : Nat} {srcs : List (Src × Nat)} {f : State → Team → Thread → FRes} {xs : List Field}
    {m : Team → Thread → FRes} (hr : (floats g d w srcs f).Ready s c x) (hm : ∀ T th, m T th = f s T th)
    (hs : srcs = xs.map (fun q => (q.src, q.w)) := by rfl) :
    s.issue g d w xs (fun T th => floatWrite th d w (m T th)) = (floats g d w srcs f).done s c x :=
  hr.issueWith hs (hl := fun _ _ => List.length_map _) (hf := fun T _ th _ hready _ => by
    rw [hm]
    exact (raising_ready hready).trans (laneWrite_eq _ d w _))

theorem flt1_fun1 {t : Ty} {g : Guard} {d : Dst} {a : Src} {f m : Nat → FRes} (hr : (fun1 t g d a f).Ready s c x)
    (hm : ∀ p < 2 ^ (fmtOf t).bits, m p = f p) : s.flt1 t g d a m = (fun1 t g d a f).done s c x :=
  issueFloat_floats hr fun T th => hm _ (rdf_lt s t T th a)

theorem flt2_fun2 {t : Ty} {g : Guard} {d : Dst} {a b : Src} {f : Nat → Nat → FRes} (hr : (fun2 t g d a b f).Ready s c x) :
    s.flt2 t g d a b f = (fun2 t g d a b f).done s c x :=
  issueFloat_floats hr fun _ _ => rfl

theorem fltPair2_pack2 {t : Ty} {g : Guard} {d : Dst} {a b : Src} {f : Nat → Nat → FRes} (hr : (pack2 t g d a b f).Ready s c x) :
    s.fltPair2 t g d a b f = (pack2 t g d a b f).done s c x :=
  issueFloat_floats hr fun T th => by
    rw [readPair_eq_rdh, readPair_eq_rdh]
    rfl

theorem fclass_writes {t : Ty} {g : Guard} {d : Dst} {a : Src}
    (hr : (writes g d 32 [(a, t.opBits)] (fun s T th => 2 ^ classBit t (rdf s t T th a))).Ready s c x) :
    s.fclass t g d a = (writes g d 32 [(a, t.opBits)] (fun s T th => 2 ^ classBit t (rdf s t T th a))).done s c x :=
  issueWrite_writes hr fun _ _ => congrArg (2 ^ ·) (fclassOf_eq_classBit t _)

/-- A floating result that stays outstanding keeps its exceptions until it returns (R207). -/
theorem fltOut_awaits {g : Guard} {d : Dst} {w : Nat} {srcs : List (Src × Nat)} {r : State → Team → Thread → FRes} {xs : List Field}
    (hr : (awaits g d w srcs .arith (fun s T th => (r s T th).bits) (fun s T th => (r s T th).exc)).Ready s c x)
    (hs : srcs = xs.map (fun q => (q.src, q.w)) := by rfl) :
    s.fltOut g d w xs (r s)
      = (awaits g d w srcs .arith (fun s T th => (r s T th).bits) (fun s T th => (r s T th).exc)).done s c x := by
  refine hr.checked_done (hn := fun k hmem => ?_) (hu := mem_uniformFor hs)
    (hk := hr.perLane_plain (hf := fun T _ th _ _ hsound => ?_) (hl := fun _ _ => rfl))
  · rw [laneOp_named_eq (d := d) (w := w) (regs := []) hs rfl rfl rfl]
    exact List.mem_append_left _ hmem
  · rw [withEcc_ready hsound, hr.cur]
    exact congrArg (Lane.done · []) (await_eq_shifted ..)

/-! ### Forms of one instruction -/

theorem execFma_done {g : Guard} {ty : Ty} {rm : Rm} {ftz pk : Bool} {d : Dst} {a b e : Src} {o : LaneOp}
    (ho : fltOp (.fma g ty rm ftz pk d a b e) = some o) (hr : o.Ready s c x) : execFma g ty rm ftz pk d a b e s = .next (o.done s c x) := by
  cases ho
  cases pk with
  | false => exact congrArg _ (issueFloat_floats hr fun _ _ => rfl)
  | true =>
    refine congrArg Host.Outcome.next (issueFloat_floats hr fun T th => ?_)
    rw [readPair_eq_rdh, readPair_eq_rdh, readPair_eq_rdh]
    rfl

theorem execFcmp_done {g : Guard} {ty : Ty} {cc : FCond} {n : Nat} {a b : Src} {o : LaneOp} (ho : fltOp (.fcmp g ty cc n a b) = some o)
    (hr : o.Ready s c x) : execFcmp g ty cc n a b s = .next (o.done s c x) := by
  cases ho
  exact congrArg Host.Outcome.next (checked_sets hr (by simp) fun T th hready _ => raising_ready hready)

/-- Both destinations of ffrexp ask its source to be uniform where they are s registers, and one shift serves both (R212; 05 R98). -/
theorem execFfrexp_done {g : Guard} {ty : Ty} {d : Dst} {a : Src} {e : Dst} {o : LaneOp} (ho : fltOp (.ffrexp g ty d a e) = some o)
    (hr : o.Ready s c x) : execFfrexp g ty d a e s = .next (o.done s c x) := by
  cases ho
  refine congrArg Host.Outcome.next (hr.checked_done (hn := fun r hmem => ?_) (hu := fun q hq => ?_)
    (hk := hr.perLane (hf := fun T _ th _ hready hsound => ?_) (hl := fun _ _ => by simp)))
  · simpa [LaneOp.named] using hmem
  · rcases List.mem_append.mp hq with hq | hq
    · exact mem_uniformFor rfl q hq
    · exact List.mem_append_right _ (by simpa using mem_uniformFor (srcs := [(a, ty.opBits)]) (uni := []) rfl q hq)
  · rw [withEcc_ready hsound]
    refine (raising_ready hready).trans ?_
    rw [dstShifts_or_eq]
    cases onlyMasks d e <;> rfl

end

/-! ### The class -/

/-- An instruction of the floating class whose lanes are ready completes as its rule says (11 R205 to R223). -/
theorem fltOp_done {i : Instr} {o : LaneOp} (ho : fltOp i = some o) {s : State} {c : Cur} {x : Team → List Nat} (hr : o.Ready s c x) :
    exec i s = .next (o.done s c x) := by
  cases i with
  | faddF64 g d a b | faddF32 g d a b | fsubF64 g d a b | fsubF32 g d a b | fmulF64 g d a b | fmulF32 g d a b | fminF64 g d a b
  | fminF32 g d a b | fmaxF64 g d a b | fmaxF32 g d a b => cases ho; exact congrArg _ (flt2_fun2 hr)
  | fabsF64 g d a | fabsF32 g d a | frcpF32 g d a | frsqF32 g d a | fexp2F32 g d a | flog2F32 g d a | fsinpiF32 g d a | fcospiF32 g d a
  | ftanhF32 g d a | frnd g ty rm d a => cases ho; exact congrArg _ (flt1_fun1 hr fun _ _ => rfl)
  | fnegF64 g d a | fnegF32 g d a => cases ho; exact congrArg _ (flt1_fun1 hr fun _ hp => fnegBits_eq (by decide) (by decide) hp)
  | faddH2 g d a b | fmulH2 g d a b | faddB2 g d a b | fmulB2 g d a b => cases ho; exact congrArg _ (fltPair2_pack2 hr)
  | fclassF64 g d a => cases ho; exact congrArg _ (fclass_writes (t := .f64) hr)
  | fclassF32 g d a => cases ho; exact congrArg _ (fclass_writes (t := .f32) hr)
  | fma g ty rm ftz pk d a b e => exact execFma_done ho hr
  | faddL g ty rm ftz pk d a b | fmulL g ty rm ftz pk d a b =>
    cases ho
    cases pk with
    | false => exact congrArg _ (flt2_fun2 hr)
    | true => exact congrArg _ (fltPair2_pack2 hr)
  | fdiv g ty rm ftz d a b | fsqrt g ty rm ftz d a => cases ho; exact congrArg _ (fltOut_awaits hr)
  | fcmp g ty cc n a b => exact execFcmp_done ho hr
  | fcvt g ty sty rm sat d a | fcvti g ty sty rm d a | icvtf g ty sty rm d a | fpack g ty sty rm sat d a b =>
    cases ho
    exact congrArg _ (issueFloat_floats hr fun _ _ => rfl)
  | fscale g ty rm d a b =>
    cases ho
    exact congrArg _ (issueFloat_floats hr fun T th => by rw [← signed_toNat, toNat_readBv]; rfl)
  | ffrexp g ty d a e => exact execFfrexp_done ho hr
  | funpack g ty sty d a b =>
    cases ho
    exact congrArg _ (issueFloat_floats hr fun T th => by rw [readUnpack_eq_packedSrc]; rfl)
  | fdot2 g ty rm d a b e =>
    cases ho
    exact congrArg _ (issueFloat_floats hr fun T th => by rw [readPair_eq_rdh, readPair_eq_rdh]; rfl)
  | _ => nomatch ho

/-- Settles O5: each instruction is one of the shared forms, whose lanes write the value and set the sticky flags that its rule gives. -/
theorem floatingInstructions : Obligations.FloatingInstructions := by
  unfold Obligations.FloatingInstructions
  exact fun _ _ hi _ _ _ hready => fltOp_done hi hready

end Sys2Proof.Claims

/-!
The cross-lane class completes as its rules say wherever a team has no more threads than lanes (12 R224 to R234): the lanes that an
instruction may read, what it makes of them written in other terms than the machine's, each shared form of instruction once, where its
lanes are ready, and then the class.
-/

namespace Sys2Proof.Claims
open Sys2Proof Sys2Proof.Machine

/-! ### The lanes that are read (12 R224, R225) -/

theorem lanesOf_eq {s : State} {c : Cur} (hc : s.cur = some c) (T : Team) (g : Guard) : s.lanesOf T g = T.executing c.entry g := by
  unfold State.lanesOf
  rw [hc]

/-- Lanes that read registers of sound lanes only take no machine check. -/
theorem readsTrap_sound {T : Team} {rs : List (Thread × Field)} (h : ∀ q ∈ rs, T.sound q.1 = true) : readsTrap T rs = none :=
  List.findSome?_eq_none_iff.mpr fun q hq => Thread.eccTrap_nil (h q hq)

/-- Lanes that have read the predicates of sound lanes go on. -/
theorem afterPreds_sound {T : Team} {lanes : List Thread} (h : ∀ o ∈ lanes, T.sound o = true) (ps : List Nat)
    (f : Team → List Thread → Thread → Lane) (th : Thread) : afterPreds ps f T lanes th = f T lanes th := by
  have hnone : predTrap lanes ps = none := by
    unfold predTrap
    rw [Option.map_eq_none_iff, List.find?_eq_none]
    intro n _ hany
    obtain ⟨o, ho, hmark⟩ := List.any_eq_true.mp hany
    have hsound := h o ho
    simp only [Team.sound, Bool.and_eq_true, List.isEmpty_iff] at hsound
    obtain ⟨⟨hecc, -⟩, -⟩ := hsound
    rw [hecc] at hmark
    exact absurd hmark (by simp)
  unfold afterPreds
  rw [hnone]

/-- A lane that reads a register of its own and one of a lane of G, or a second one of its own where it finds no such lane, reads sound lanes. -/
theorem sound_ownOrFound {T : Team} {lanes : List Thread} (h : ∀ o ∈ lanes, T.sound o = true) {th : Thread} (hth : T.sound th = true)
    (p : Thread → Bool) (y z : Field) : ∀ q ∈ [(th, y), ((lanes.find? p).getD th, z)], T.sound q.1 = true := by
  refine List.forall_mem_cons.mpr ⟨hth, List.forall_mem_singleton.mpr ?_⟩
  cases hfind : lanes.find? p with
  | none => exact hth
  | some o => exact h o (List.mem_of_find?_eq_some hfind)

/-! ### Lanes without values for s destinations -/

theorem writeSAll_noValues {s : State} {vs : List (List Nat)} (hv : ∀ l ∈ vs, l = []) (sd : List (Nat × Nat)) (k : Nat) (T : Team) :
    s.writeSAll vs sd k T = (s, T) := by
  induction sd generalizing k with
  | nil => rfl
  | cons q sd ih =>
    have hnone : vs.filterMap (·[k]?) = [] := List.filterMap_eq_nil_iff.mpr fun l hl => by rw [hv l hl]; rfl
    rw [State.writeSAll, hnone]
    exact ih (k + 1)

/-- Where every executing lane completes without a value, an s destination is as good as none. -/
theorem perLane_noValues {s : State} {c : Cur} (hc : s.cur = some c) {g : Guard} {f : Team → Thread → Lane} {h : Team → Thread → Thread}
    (hf : ∀ T ∈ s.teams, ∀ th ∈ T.executing c.entry g, f T th = .done (h T th) []) (sd : List (Nat × Nat)) (keep : Bool) :
    s.perLane g sd f keep = s.perLane g [] f keep := by
  unfold State.perLane
  simp only [hc, State.firstWait_none hf]
  refine List.foldl_ext _ _ _ fun a T hT => ?_
  simp only [State.runTeam_done (hf T hT)]
  have hnil : ∀ l ∈ (T.executing c.entry g).map (fun _ => ([] : List Nat)), l = [] := by simp
  rw [writeSAll_noValues hnil, writeSAll_noValues hnil]

/-! ### The values (12 R227 to R230) -/

/-- A shuffle reads the lane of G that has the number k, if that number lies in the team, else the own lane. -/
theorem rd_shuffleSource (s : State) (c : Cur) (g : Guard) (T : Team) (th : Thread) (a : Src) (k : Int) :
    rd s 32 T (((G c g T).find? (fun o => 0 ≤ k && k < T.width && (o.lane : Int) == k)).getD th) a
      = if 0 ≤ k ∧ k < T.width then rd s 32 T ((laneAt c g T k).getD th) a else rd s 32 T th a := by
  split
  next hk => simp [laneAt, hk, beq_eq_decide]
  next hk =>
    have hnone : (G c g T).find? (fun o => 0 ≤ k && k < T.width && (o.lane : Int) == k) = none := by
      rw [List.find?_eq_none]
      intro o _ ho
      simp only [Bool.and_eq_true, decide_eq_true_eq] at ho
      exact hk ho.1
    rw [hnone]
    rfl

theorem find?_lane_eq_laneAt (c : Cur) (g : Guard) (T : Team) (n : Nat) :
    (G c g T).find? (·.lane == n) = laneAt c g T n := by
  simp [laneAt, beq_eq_decide]

/-- The mask is the sum of its lanes' bits. -/
theorem ballotMask_eq_sum (lanes : List Thread) (a : Nat) :
    ballotMask lanes a = ((lanes.filter (·.p.getLsbD a)).map (fun o => 2 ^ o.lane)).sum := by
  have hacc : ∀ m : Nat, lanes.foldl (fun m th => if th.pred a then m + 2 ^ th.lane else m) m
      = m + ((lanes.filter (·.p.getLsbD a)).map (fun o => 2 ^ o.lane)).sum := by
    induction lanes with
    | nil => exact fun _ => rfl
    | cons th lanes ih =>
      intro m
      rw [List.foldl_cons, ih, List.filter_cons]
      unfold Thread.pred
      split
      · rw [List.map_cons, List.sum_cons, Nat.add_assoc]
      · rfl
  exact (hacc 0).trans (Nat.zero_add _)

/-- Lanes that all have the first one's value are lanes any two of which agree. -/
theorem allFirst_eq_allPairs (lanes : List Thread) (v : Thread → Nat) :
    (lanes.map v).all (· == (lanes.map v).headD 0) = lanes.all (fun th => lanes.all (fun o => v th == v o)) := by
  cases lanes with
  | nil => rfl
  | cons th lanes =>
    rw [Bool.eq_iff_iff]
    simp only [List.all_eq_true, beq_iff_eq, List.forall_mem_map]
    exact ⟨fun h o ho u hu => (h o ho).trans (h u hu).symm, fun h o ho => h o ho th List.mem_cons_self⟩

/-! ### The shared forms -/

section
variable {s : State} {c : Cur} {x : Team → List Nat}

/-- The lanes of G are sound where an instruction is ready. -/
theorem sound_of_mem_G {o : LaneOp} (hr : o.Ready s c x) {T : Team} (hT : T ∈ s.teams) : ∀ th ∈ G c o.g T, T.sound th = true :=
  hr.clean T hT

/-- An instruction whose lanes read each other: no check of a team fails, no lane reads a marked register, and each lane completes; what
lanes that all complete leave (hlanes) is then what the instruction leaves. -/
theorem xl_done {o : LaneOp} (hr : o.Ready s c x) {d : Dst} {w : Nat} {g : Guard} {xs uni : List Field}
    {pre : Team → List Thread → Option Trap} {reads : Team → List Thread → Thread → List (Thread × Field)}
    {f : Team → List Thread → Thread → Lane} {keep : Bool}
    (hlanes : ∀ f', (∀ T ∈ s.teams, ∀ th ∈ G c o.g T, f' T th = .done (o.eff s c T th) (o.res s c T th)) →
      s.perLane o.g (sDest d w) f' keep = o.done s c x)
    (hpre : ∀ T ∈ s.teams, T.group c.entry ≠ [] → pre T (G c o.g T) = none)
    (hreads : ∀ T ∈ s.teams, ∀ th ∈ G c o.g T, ∀ q ∈ reads T (G c o.g T) th, T.sound q.1 = true)
    (hf : ∀ T ∈ s.teams, ∀ th ∈ G c o.g T, o.ready s c T th = true → f T (G c o.g T) th = .done (o.eff s c T th) (o.res s c T th))
    (hform : g = o.g ∧ o.d = d ∧ o.w = w ∧ o.regs = [] ∧ o.srcs = xs.map (fun q => (q.src, q.w))
      ∧ o.uni = uni.map (fun q => (q.src, q.w))) :
    s.xl g d w xs uni pre reads f keep = o.done s c x := by
  obtain ⟨rfl, hd, hw, hregs, hs, huni⟩ := hform
  unfold State.xl
  rw [hr.checked]
  · have hnone : (s.teams.filter (fun T => (s.cur.map (fun c => !(T.group c.entry).isEmpty)).getD false)).findSome?
        (fun T => pre T (s.lanesOf T o.g)) = none := by
      rw [List.findSome?_eq_none_iff]
      intro T hT
      obtain ⟨hmem, hgroup⟩ := List.mem_filter.mp hT
      rw [lanesOf_eq hr.cur]
      exact hpre T hmem (by simpa [hr.cur] using hgroup)
    rw [hnone]
    refine hlanes _ fun T hT th hth => ?_
    rw [lanesOf_eq hr.cur, ← G, readsTrap_sound (hreads T hT th hth)]
    exact hf T hT th hth (hr.ready T hT th hth)
  · intro r hmem
    rw [laneOp_named_eq hs hd hw hregs, List.append_nil]
    exact hmem
  · intro q hq
    unfold LaneOp.uniform
    rw [hd]
    rcases List.mem_append.mp hq with hq | hq
    · exact mem_uniformFor hs q hq
    · exact List.mem_append_right _ (huni ▸ List.mem_map_of_mem hq)

/-- Lanes that all complete, where the s destinations take their values and they agree on them. -/
theorem perLane_agreed {o : LaneOp} (hr : o.Ready s c x) {d : Dst} {w : Nat} {keep : Bool} {f : Team → Thread → Lane}
    (hsd : o.sd = sDest d w) (hl : ∀ T th, (o.res s c T th).length = o.sd.length)
    (hf : ∀ T ∈ s.teams, ∀ th ∈ G c o.g T, f T th = .done (o.eff s c T th) (o.res s c T th)) :
    s.perLane o.g (sDest d w) f keep = o.done s c x :=
  hsd ▸ hr.perLane (fun T hT th hth _ _ => hf T hT th hth) hl

theorem shuffle_shuffles {g : Guard} {d : Dst} {a b : Src} {k : Nat → Nat → Int} (hr : (shuffles g d a b k).Ready s c x) :
    s.shuffle g d a b k = (shuffles g d a b k).done s c x := by
  unfold State.shuffle
  refine xl_done hr (hform := ⟨rfl, rfl, rfl, rfl, rfl, rfl⟩)
    (hlanes := fun _ => perLane_agreed hr rfl fun _ _ => List.length_map _) (hpre := fun _ _ _ => rfl)
    (hreads := fun T hT th hth => sound_ownOrFound (sound_of_mem_G hr hT) (hr.clean T hT th hth) _ _ _) (hf := fun T _ th _ _ => ?_)
  exact (congrArg (laneWrite th d 32) (rd_shuffleSource s c g T th a _)).trans (laneWrite_eq th d 32 _)

theorem voteP_voteSets {g : Guard} {d : Nat} {srcs : List (Src × Nat)} {v : State → Cur → Team → Bool} {xs : List Field} {ps : List Nat}
    {f : Team → List Thread → Bool} (hr : (voteSets g d srcs v).Ready s c x) (hs : srcs = xs.map (fun q => (q.src, q.w)))
    (hf : ∀ T, f T (G c g T) = v s c T) :
    s.voteP g d xs ps f = (voteSets g d srcs v).done s c x := by
  unfold State.voteP
  refine xl_done hr (hform := ⟨rfl, rfl, rfl, rfl, hs, rfl⟩)
    (hlanes := fun _ => perLane_agreed hr rfl fun _ _ => rfl) (hpre := fun _ _ _ => rfl)
    (hreads := fun T hT th _ q hq => ?_) (hf := fun T hT th _ _ => ?_)
  · obtain ⟨_, _, hq⟩ := List.mem_flatMap.mp hq
    obtain ⟨o, ho, rfl⟩ := List.mem_map.mp hq
    exact sound_of_mem_G hr hT o ho
  · rw [afterPreds_sound (sound_of_mem_G hr hT)]
    exact congrArg (fun q => Lane.done (th.setP d q) []) (hf T)

theorem reduce_reduces {g : Guard} {op : RedOp} {t : Ty} {rm : Rm} {d : Dst} {a : Src} {set : Nat → Nat → Bool}
    (hr : (reduces g op t rm d a set).Ready s c x) : s.reduce g op t rm d a set = (reduces g op t rm d a set).done s c x := by
  unfold State.reduce
  refine xl_done hr (hform := ⟨rfl, rfl, rfl, rfl, rfl, rfl⟩)
    (hlanes := fun _ => perLane_agreed hr rfl fun _ _ => List.length_map _) (hpre := fun _ _ _ => rfl)
    (hreads := fun T hT th _ q hq => ?_) (hf := fun T _ th _ hready => ?_)
  · obtain ⟨o, ho, rfl⟩ := List.mem_map.mp hq
    exact sound_of_mem_G hr hT o (List.mem_of_mem_filter ho)
  · exact (raising_ready hready).trans (laneWrite_eq _ d _ _)

/-! ### Forms of one instruction -/

theorem execVoteBallot_done {g : Guard} {d : Dst} {a : Nat} {o : LaneOp} (ho : xlOp (.voteBallot g d a) = some o) (hr : o.Ready s c x) :
    execVoteBallot g d a s = .next (o.done s c x) := by
  cases ho
  refine congrArg Host.Outcome.next (xl_done hr (hform := ⟨rfl, rfl, rfl, rfl, rfl, rfl⟩)
    (hlanes := fun _ => perLane_agreed hr rfl fun _ _ => List.length_map _) (hpre := fun _ _ _ => rfl)
    (hreads := fun _ _ _ _ q hq => absurd hq List.not_mem_nil) (hf := fun T hT th _ _ => ?_))
  rw [afterPreds_sound (sound_of_mem_G hr hT), ballotMask_eq_sum]
  exact laneWrite_eq th d 32 _

/-- A lane number that every executing lane finds in G passes the check of the team (R226, R229). -/
theorem execLbcast_done {g : Guard} {d : Dst} {a b : Src} {o : LaneOp} (ho : xlOp (.lbcast g d a b) = some o) (hr : o.Ready s c x) :
    execLbcast g d a b s = .next (o.done s c x) := by
  cases ho
  refine congrArg Host.Outcome.next (xl_done hr (hform := ⟨rfl, rfl, rfl, rfl, rfl, rfl⟩)
    (hlanes := fun _ => perLane_agreed hr rfl fun _ _ => List.length_map _) (hpre := fun T hT _ => ?_)
    (hreads := fun T hT th hth => sound_ownOrFound (sound_of_mem_G hr hT) (hr.clean T hT th hth) _ _ _)
    (hf := fun T _ th _ _ => ?_))
  · have hready := hr.ready T hT
    dsimp only [fromG] at hready ⊢
    unfold G
    split
    next => rfl
    next th lanes hlanes =>
      have hsome := hready th (hlanes ▸ List.mem_cons_self)
      rw [← find?_lane_eq_laneAt, List.find?_isSome, G] at hsome
      exact if_pos (List.any_eq_true.mpr hsome)
  · dsimp only [fromG]
    rw [find?_lane_eq_laneAt]
    exact laneWrite_eq th d 32 _

theorem execMatchLanes_done {g : Guard} {d : Dst} {a : Src} {o : LaneOp} (ho : xlOp (.matchLanes g d a) = some o) (hr : o.Ready s c x) :
    execMatchLanes g d a s = .next (o.done s c x) := by
  cases ho
  refine congrArg Host.Outcome.next (xl_done hr (hform := ⟨rfl, rfl, rfl, rfl, rfl, rfl⟩)
    (hlanes := fun _ => perLane_agreed hr rfl fun _ _ => List.length_map _) (hpre := fun _ _ _ => rfl)
    (hreads := fun T hT th _ q hq => ?_) (hf := fun T _ th _ _ => ?_))
  · obtain ⟨o, ho, rfl⟩ := List.mem_map.mp hq
    exact sound_of_mem_G hr hT o ho
  · have hfields : ∀ rank count leader : Nat,
        rank * 0x10000 + count * 0x100 + leader = leader + 2 ^ 8 * count + 2 ^ 16 * rank := by omega
    exact (congrArg (laneWrite th d 32) (hfields _ _ _)).trans (laneWrite_eq th d 32 _)

/-! ### zip and unzip (12 R234) -/

/-- No team has more threads than lanes. -/
def threadsFit (s : State) : Prop := ∀ T ∈ s.teams, T.threads.length ≤ T.width

/-- As many executing lanes as a team is wide are all its threads, where it has no more than that. -/
theorem executing_of_full {T : Team} {g : Guard} (hfit : T.threads.length ≤ T.width) (hfull : (T.executing c.entry g).length = T.width) :
    ∀ th ∈ T.threads, th ∈ G c g T := by
  have hall : T.executing c.entry g = T.threads := List.filter_sublist.eq_of_length_le (hfull ▸ hfit)
  intro th hth
  unfold G
  rwa [hall]

theorem zipOp_zips {unzip : Bool} {g : Guard} {ty : Ty} {k : Nat} {d : Dst} {a : Src} (hr : (zips unzip g ty k d a).Ready s c x)
    (hfull : ∀ T ∈ s.teams, T.group c.entry ≠ [] → (T.executing c.entry g).length = T.width) (hfit : threadsFit s) :
    s.zipOp unzip g ty k d a = (zips unzip g ty k d a).done s c x := by
  unfold State.zipOp
  refine xl_done hr (hform := ⟨rfl, rfl, rfl, rfl, rfl, rfl⟩) (hlanes := fun f' hf' => ?_)
    (hpre := fun T hT hgroup => if_pos (hfull T hT hgroup)) (hreads := fun T hT th hth q hq => ?_) (hf := fun _ _ _ _ _ => rfl)
  · rw [perLane_noValues hr.cur hf']
    exact hr.perLane_plain rfl rfl (fun T hT th hth _ _ => hf' T hT th hth) fun _ _ => rfl
  · obtain ⟨_, _, hq⟩ := List.mem_flatMap.mp hq
    obtain ⟨_, _, hq⟩ := List.mem_filterMap.mp hq
    obtain ⟨o, ho, rfl⟩ := Option.map_eq_some_iff.mp hq
    have hissues : T.group c.entry ≠ [] := by
      obtain ⟨hmem, hexec⟩ := List.mem_filter.mp hth
      exact List.ne_nil_of_mem (List.mem_filter.mpr ⟨hmem, (Bool.and_eq_true _ _ ▸ hexec).1⟩)
    exact sound_of_mem_G hr hT o (executing_of_full (hfit T hT) (hfull T hT hissues) o (List.mem_of_find?_eq_some ho))

end

/-! ### The class -/

/-- What O6 states, of every instruction of the class but zip and unzip in every state, and of those two where no team has more threads
than lanes. -/
theorem xlOp_done {i : Instr} {o : LaneOp} (ho : xlOp i = some o) {s : State} {c : Cur} {x : Team → List Nat} (hr : o.Ready s c x)
    (hgroup : groupReady i s c) (hfit : fullTeams i = true → threadsFit s) : exec i s = .next (o.done s c x) := by
  cases i with
  | shflIdx g d a b | shflUp g d a b | shflDn g d a b | shflXor g d a b => cases ho; exact congrArg _ (shuffle_shuffles hr)
  | voteAll g d a | voteAny g d a => cases ho; exact congrArg _ (voteP_voteSets hr rfl fun _ => rfl)
  | voteBallot g d a => exact execVoteBallot_done ho hr
  | voteEq g d a => cases ho; exact congrArg _ (voteP_voteSets hr rfl fun T => allFirst_eq_allPairs _ _)
  | lbcast g d a b => exact execLbcast_done ho hr
  | matchLanes g d a => exact execMatchLanes_done ho hr
  | redAddI32 g d a | redAddF32 g d a | scanAddI32 g d a | red g op ty rm d a | scan g op ty rm excl d a =>
    cases ho
    exact congrArg _ (reduce_reduces hr)
  | zip g ty k d a | unzip g ty k d a => cases ho; exact congrArg _ (zipOp_zips hr hgroup (hfit rfl))
  | _ => nomatch ho

end Sys2Proof.Claims

/-!
A team of width 16 with a seventeenth thread, which has exited and has the number of another one. No hypothesis of the statement about
the cross-lane class (O6) excludes it: the sixteen others make up the width, and only they have to be sound. There zip reads the register of
the exited thread, and the statement fails.
-/

namespace Sys2Proof.Claims
open Sys2Proof Sys2Proof.Machine

/-- A thread that has exited, with the number 0 and an uncorrectable error in v0. -/
def exitedThread : Thread := { lane := 0, status := .exited, ecc := [0] }

/-- Sixteen threads that issue. -/
def issuingThreads : List Thread := (List.range 16).map (fun k => { lane := k, entry := some 0 })

/-- A module with one team of width 16, whose threads are these. -/
def oneTeam (ths : List Thread) : State :=
  { State.reset with
    teams := [{ launch := 0, wg := 0, idx := 0, width := 16, core := 0, slice := 0, span := 0, block := 0, bsize := 16, threads := ths }]
    cur := some ⟨0, 0⟩ }

/-- zip of v0 and v1 into v4 and v5. -/
def zipPair : Instr := .zip .always .n32 2 (.v 4) (.v 0)

/-- What the rules give for it. -/
def zipPairOp : LaneOp := zips false .always .n32 2 (.v 4) (.v 0)

theorem xlOp_zipPair : xlOp zipPair = some zipPairOp := rfl

/-- A team whose executing lanes are sound is ready for it. -/
theorem ready_zipPair {ths : List Thread}
    (hclean : ∀ T ∈ (oneTeam ths).teams, ∀ th ∈ T.executing 0 .always, T.sound th = true) :
    zipPairOp.Ready (oneTeam ths) ⟨0, 0⟩ (fun _ => []) where
  cur := rfl
  block := by
    intro T hT _
    rw [List.mem_singleton.mp hT]
    exact show ∀ k ∈ [4, 5, 0, 1], k < 16 by decide
  agree := fun _ _ _ _ _ _ _ hq => absurd hq List.not_mem_nil
  clean := hclean
  ready := fun _ _ _ _ => rfl
  scalar := fun h => absurd rfl h

theorem ready_issuingThreads : zipPairOp.Ready (oneTeam issuingThreads) ⟨0, 0⟩ (fun _ => []) := ready_zipPair (by decide)

/-- The exited thread does not execute, so its mark does not matter here. -/
theorem ready_exitedThread : zipPairOp.Ready (oneTeam (exitedThread :: issuingThreads)) ⟨0, 0⟩ (fun _ => []) :=
  ready_zipPair (by decide)

/-- As many lanes execute it as the team is wide, whether or not the exited thread is there. -/
theorem groupReady_zipPair {ths : List Thread}
    (hfull : ∀ T ∈ (oneTeam ths).teams, (T.executing 0 .always).length = T.width) : groupReady zipPair (oneTeam ths) ⟨0, 0⟩ :=
  fun T hT _ => hfull T hT

theorem groupReady_issuingThreads : groupReady zipPair (oneTeam issuingThreads) ⟨0, 0⟩ := groupReady_zipPair (by decide)

theorem groupReady_exitedThread : groupReady zipPair (oneTeam (exitedThread :: issuingThreads)) ⟨0, 0⟩ := groupReady_zipPair (by decide)

theorem threadsFit_issuingThreads : threadsFit (oneTeam issuingThreads) := by
  intro T hT
  rw [List.mem_singleton.mp hT]
  exact show 16 ≤ 16 from Nat.le_refl 16

/-- The sixteen threads alone complete as the rules say. -/
theorem exec_zipPair_issuingThreads :
    exec zipPair (oneTeam issuingThreads) = .next (zipPairOp.done (oneTeam issuingThreads) ⟨0, 0⟩ (fun _ => [])) :=
  xlOp_done xlOp_zipPair ready_issuingThreads groupReady_issuingThreads fun _ => threadsFit_issuingThreads

/-- The numbers of the lanes that have a fault pending. -/
def parkedLanes (s : State) : List Nat := s.teams.flatMap (fun T => (T.threads.filter (·.status == .parked)).map (·.lane))

/-- Lane 0 of v4 takes element 0 of v0, for which the machine reads the exited thread, the first of that number: it takes the machine check. -/
theorem parkedLanes_zipOp :
    parkedLanes ((oneTeam (exitedThread :: issuingThreads)).zipOp false .always .n32 2 (.v 4) (.v 0)) = [0] := by
  decide

/-- The statement has every lane complete. -/
theorem parkedLanes_done : parkedLanes (zipPairOp.done (oneTeam (exitedThread :: issuingThreads)) ⟨0, 0⟩ (fun _ => [])) = [] := by
  decide

/-- Refutes O6: zip finds the threads that it reads by their number, and the statement does not say that a team has no more threads than lanes;
with an exited seventeenth one it reads that thread's marked register, and a lane takes the machine check where the statement has it complete.
`xlOp_done` is the statement with that hypothesis for zip and unzip, and without it for the rest of the class. -/
theorem not_crossLaneInstructions : ¬ Obligations.CrossLaneInstructions := by
  unfold Obligations.CrossLaneInstructions
  intro h
  have hnext := h zipPair zipPairOp xlOp_zipPair _ _ _ ready_exitedThread groupReady_exitedThread
  have hstate := Host.Outcome.next.inj (show Host.Outcome.next
    ((oneTeam (exitedThread :: issuingThreads)).zipOp false .always .n32 2 (.v 4) (.v 0)) = _ from hnext)
  have hparked := congrArg parkedLanes hstate
  rw [parkedLanes_zipOp, parkedLanes_done] at hparked
  exact absurd hparked (by decide)

end Sys2Proof.Claims

/-!
The bound-limb class completes as its rules say (O7; 13 R239 to R247): a limb written in other terms than the machine's, the range of a
bound number and what its shifts leave, the steps of a limb instruction once, where its team is ready, and then the class.
-/

namespace Sys2Proof.Claims
open Sys2Proof Sys2Proof.Machine

/-! ### The limbs that a lane writes (13 R236) -/

/-- Two's complement numbers of n bits. -/
abbrev inBits (n : Nat) (x : Int) : Prop := -(2 ^ (n - 1) : Int) ≤ x ∧ x < 2 ^ (n - 1)

theorem fits_iff_inBits (T : Team) (x : Int) : T.fits x = true ↔ inBits (T.width * limbW T) x := by
  have hcast : ((2 ^ (T.boundBits - 1) : Nat) : Int) = 2 ^ (T.width * limbW T - 1) := by norm_cast
  unfold Team.fits
  rw [hcast, Bool.and_eq_true, decide_eq_true_eq, decide_eq_true_eq]

theorem writeLimb_eq_limbs (T : Team) (th : Thread) (d : Dst) (x : Int) : writeLimb T th d x = .done (limbs T th d x) [] := by
  have hflag : (decide (th.lane = 0) && !T.fits x) = true ↔ th.lane = 0 ∧ ¬ inBits (T.width * limbW T) x := by
    rw [Bool.and_eq_true, decide_eq_true_eq, Bool.not_eq_true', ← fits_iff_inBits, Bool.not_eq_true]
  exact congrArg (fun t : Thread => Lane.done (t.writeDest d (limbW T) _) []) (if_congr hflag rfl rfl)

/-- The limbs of a number are those of any other that has the same low bits and fits where it does. -/
theorem limbs_congr {T : Team} {m n : Int} (hbits : unsigned (T.width * limbW T) m = unsigned (T.width * limbW T) n)
    (hfits : inBits (T.width * limbW T) m ↔ inBits (T.width * limbW T) n) (th : Thread) (d : Dst) : limbs T th d m = limbs T th d n := by
  unfold limbs
  dsimp only
  rw [hbits]
  exact congrArg (fun t : Thread => t.writeDest d (limbW T) _) (if_congr (and_congr_right' (not_congr hfits)) rfl rfl)

/-! ### The range of a bound number -/

theorem regsNat_lt (get : Nat → BitVec 32) (n k : Nat) : regsNat get n k < 2 ^ (32 * k) := by
  induction k generalizing n with
  | zero => exact Nat.one_pos
  | succ k ih =>
    have hhigh := ih (n + 1)
    have hlow := (get n).isLt
    rw [regsNat, Nat.mul_succ, Nat.pow_add]
    omega

theorem joinElems_lt {w : Nat} {l : List Nat} (h : ∀ x ∈ l, x < 2 ^ w) : joinElems w l < 2 ^ (w * l.length) := by
  induction l with
  | nil => exact Nat.one_pos
  | cons x l ih =>
    obtain ⟨hx, hl⟩ := List.forall_mem_cons.mp h
    calc x + 2 ^ w * joinElems w l < 2 ^ w * (joinElems w l + 1) := by rw [Nat.mul_succ]; omega
      _ ≤ 2 ^ w * 2 ^ (w * l.length) := Nat.mul_le_mul_left _ (ih hl)
      _ = 2 ^ (w * (x :: l).length) := by rw [List.length_cons, Nat.mul_succ, Nat.pow_add, Nat.mul_comm]

/-- A limb has the limb width of its team. -/
theorem readSrc_limb_lt {T : Team} {a : Src} (ha : limbField (limbW T) a = true) (tick : BitVec 64) (th : Thread) :
    readSrc tick .int (limbW T) T th a < 2 ^ limbW T := by
  have hw : 32 * (limbW T / 32) = limbW T := by unfold limbW; split <;> rfl
  cases a with
  | v n | w n => exact (regsNat_lt _ n _).trans_eq (by rw [hw])
  | _ => nomatch ha

/-- The number whose two's complement form of n bits is u. -/
theorem inBits_ofForm {n u : Nat} (hu : u < 2 ^ n) : inBits n (if 2 ^ (n - 1) ≤ u then (u : Int) - (2 ^ n : Nat) else u) := by
  have hhalf : 2 ^ n ≤ 2 * 2 ^ (n - 1) := Nat.pow_succ'.symm ▸ Nat.pow_le_pow_right (by decide) (by omega)
  have hcast : ((2 ^ (n - 1) : Nat) : Int) = 2 ^ (n - 1) := by norm_cast
  unfold inBits
  rw [← hcast]
  split <;> omega

theorem inBits_limbValue {T : Team} {a : Src} (ha : limbField (limbW T) a = true) : inBits (T.width * limbW T) (T.limbValue a) := by
  refine inBits_ofForm ((joinElems_lt fun u hu => ?_).trans_eq (by rw [List.length_map, List.length_range, Nat.mul_comm]; rfl))
  obtain ⟨i, -, rfl⟩ := List.mem_map.mp hu
  split
  · exact readSrc_limb_lt ha 0 _
  · exact Nat.two_pow_pos _

/-- A bound number other than zero has bits. -/
theorem bits_pos_of_limbValue_ne_zero {T : Team} {a : Src} (h : T.limbValue a ≠ 0) : 0 < T.width * limbW T := by
  have hlimb : 0 < limbW T := by unfold limbW; split <;> decide
  refine Nat.mul_pos (Nat.pos_of_ne_zero fun hwidth => h ?_) hlimb
  unfold Team.limbValue Team.boundBits
  rw [hwidth, Nat.zero_mul]
  rfl

/-! ### Shifts of a bound number (13 R243) -/

/-- A number other than zero does not fit n bits once it is shifted left by n places or more. -/
theorem not_inBits_mul_two_pow {n k : Nat} {x : Int} (hn : 0 < n) (hx : x ≠ 0) (hk : n ≤ k) : ¬ inBits n (x * 2 ^ k) := by
  have hlt : (2 ^ (n - 1) : Int) < 2 ^ k := pow_lt_pow_right₀ (by decide) (by omega)
  have hpow : (0 : Int) ≤ 2 ^ k := by positivity
  rintro ⟨hlow, hhigh⟩
  rcases Int.lt_or_gt_of_ne hx with hneg | hpos
  · have hle : x * 2 ^ k ≤ -1 * 2 ^ k := Int.mul_le_mul_of_nonneg_right (by omega) hpow
    omega
  · have hle : 1 * 2 ^ k ≤ x * 2 ^ k := Int.mul_le_mul_of_nonneg_right (by omega) hpow
    omega

theorem unsigned_mul_two_pow {n k : Nat} (x : Int) (hk : n ≤ k) : unsigned n (x * 2 ^ k) = 0 := by
  have hdvd : ((2 ^ n : Nat) : Int) ∣ x * 2 ^ k := by
    rw [Nat.cast_pow]
    exact Dvd.dvd.mul_left (pow_dvd_pow 2 hk) x
  unfold unsigned
  rw [Int.emod_eq_zero_of_dvd hdvd]
  rfl

/-- Every shift left by N or more leaves the limbs of one by N (R243). -/
theorem limbs_wshlValue (T : Team) (a : Src) (k : Nat) (th : Thread) (d : Dst) :
    limbs T th d (wshlValue T (T.limbValue a) k) = limbs T th d (T.limbValue a * 2 ^ k) := by
  unfold wshlValue
  split
  next h0 => rw [h0, Int.zero_mul]
  next h0 =>
    change limbs T th d (T.limbValue a * 2 ^ min k (T.width * limbW T)) = _
    have hpos := bits_pos_of_limbValue_ne_zero h0
    rcases Nat.le_total k (T.width * limbW T) with hk | hk
    · rw [Nat.min_eq_left hk]
    · rw [Nat.min_eq_right hk]
      exact limbs_congr ((unsigned_mul_two_pow _ (Nat.le_refl _)).trans (unsigned_mul_two_pow _ hk).symm)
        (iff_of_false (not_inBits_mul_two_pow hpos h0 (Nat.le_refl _)) (not_inBits_mul_two_pow hpos h0 hk)) th d

/-- A number that fits n bits leaves its sign when it is shifted right by n places or more. -/
theorem ediv_two_pow_of_inBits {n k : Nat} {x : Int} (hx : inBits n x) (hk : n ≤ k) : x / 2 ^ k = if x < 0 then -1 else 0 := by
  obtain ⟨hlow, hhigh⟩ := hx
  have hle : (2 ^ (n - 1) : Int) ≤ 2 ^ k := pow_le_pow_right₀ (by decide) (by omega)
  split
  next hneg => exact Int.ediv_eq_neg_one_of_neg_of_le hneg (by omega)
  next hneg => exact Int.ediv_eq_zero_of_lt (by omega) (by omega)

theorem wshrValue_eq_ediv {T : Team} {a : Src} (ha : limbField (limbW T) a = true) (k : Nat) :
    wshrValue T (T.limbValue a) k = T.limbValue a / 2 ^ k := by
  have hx := inBits_limbValue ha
  change T.limbValue a / 2 ^ min k (T.width * limbW T) = _
  rcases Nat.le_total k (T.width * limbW T) with hk | hk
  · rw [Nat.min_eq_left hk]
  · rw [Nat.min_eq_right hk, ediv_two_pow_of_inBits hx (Nat.le_refl _), ediv_two_pow_of_inBits hx hk]

/-- The sign of a difference says how two numbers compare (R244). -/
theorem unsigned_sign_sub (a b : Int) : unsigned 32 (a - b).sign = if a < b then 2 ^ 32 - 1 else if a = b then 0 else 1 := by
  rcases lt_trichotomy a b with h | h | h
  · rw [if_pos h, Int.sign_eq_neg_one_of_neg (Int.sub_neg_of_lt h)]
    rfl
  · rw [h, Int.sub_self, if_neg (Int.lt_irrefl b), if_pos rfl]
    rfl
  · rw [if_neg h.not_gt, if_neg h.ne', Int.sign_eq_one_of_pos (Int.sub_pos_of_lt h)]
    rfl

/-! ### The steps of a limb instruction (13 R239 to R241) -/

/-- What waits depends on the sources and their widths, not on the codes of the fields. -/
theorem limbWaits_codes (s : State) (T : Team) (xs : List Field) :
    s.limbWaits T xs = s.limbWaits T (xs.map fun x => ⟨0, x.src, x.w⟩) := by
  simp only [State.limbWaits, List.any_map, Function.comp_def]

theorem limbFault_codes (T : Team) (xs : List Field) : T.limbFault xs = T.limbFault (xs.map fun x => ⟨0, x.src, x.w⟩) := by
  simp only [Team.limbFault, List.any_map, Function.comp_def]

section
variable {i : Instr} {o : LaneOp} {s : State} {c : Cur} {T : Team} {x : Team → List Nat}

/-- A team with executing lanes is the one team of the group. -/
theorem team_of_executing (hone : s.groupTeams c.entry = [T]) {g : Guard} {U : Team} (hU : U ∈ s.teams) {th : Thread}
    (hth : th ∈ U.executing c.entry g) : U = T := by
  obtain ⟨hmem, hissues⟩ := List.mem_filter.mp hth
  have hgroup : U ∈ s.groupTeams c.entry :=
    List.mem_filter.mpr ⟨hU, List.any_eq_true.mpr ⟨th, hmem, (Bool.and_eq_true _ _ ▸ hissues).1⟩⟩
  exact List.mem_singleton.mp (hone ▸ hgroup)

theorem groupLimbBits_of_one (hc : s.cur = some c) (hone : s.groupTeams c.entry = [T]) : s.groupLimbBits = limbW T := by
  unfold State.groupLimbBits
  rw [hc]
  dsimp only
  rw [hone]
  rfl

theorem limbCheck_ready {g : Guard} {named : List Src} (hb : T.blc.getLsbD 31 = true) (hne : T.executing c.entry g ≠ [])
    (hall : (T.executing c.entry g).length = T.live.length) (hn : ∀ a ∈ named, limbField (limbW T) a = true) :
    limbCheck T (T.executing c.entry g) named = .ok true := by
  have hfields : named.all (limbField T.limbBits) = true := List.all_eq_true.mpr hn
  have hbound : T.bound = true := hb
  unfold limbCheck
  rw [if_neg (by simpa using hne), hbound, hfields, if_neg (by decide), if_neg (by decide), if_neg (by simpa using hall)]

/-- A limb instruction whose team is ready does its work in every lane. -/
theorem limb_done (hr : o.Ready s c x) (hl : LimbReady i o s c T) {g : Guard} {dn : List Src} {named : List (Nat × Src)}
    {others uni : List Field} {d : Dst} {w : Nat} {f : Team → Thread → Lane} {keep : Bool}
    (hform : g = o.g ∧ o.d = d ∧ o.w = w ∧ o.sd = sDest d w ∧ o.regs = dn.flatMap (srcRegs (limbW T))
      ∧ o.srcs = (named.map (fun q => (⟨q.1, q.2, limbW T⟩ : Field)) ++ others).map (fun q => (q.src, q.w))
      ∧ o.uni = uni.map (fun q => (q.src, q.w)) ∧ limbFields i = dn ++ named.map (·.2))
    (hf : ∀ th ∈ T.executing c.entry o.g, o.ready s c T th = true → f T th = .done (o.eff s c T th) (o.res s c T th))
    (hlen : ∀ U th, (o.res s c U th).length = o.sd.length) :
    s.limb g dn named others uni d w f keep = o.done s c x := by
  obtain ⟨rfl, hd, hw, hsd, hregs, hsrcs, huni, hfields⟩ := hform
  obtain ⟨hone, hbound, ⟨hall, hne⟩, hnamed, hquiet, hwhole⟩ := hl
  unfold State.limb
  dsimp only
  rw [groupLimbBits_of_one hr.cur hone]
  refine hr.checked_done (hn := fun r hmem => ?_) (hu := fun q hq => ?_) (hk := ?_)
  · unfold LaneOp.named
    rw [hd, hw, hregs, hsrcs, List.flatMap_map]
    simp only [List.mem_append] at hmem ⊢
    tauto
  · unfold LaneOp.uniform
    rw [hd]
    rcases List.mem_append.mp hq with hq | hq
    · exact mem_uniformFor hsrcs q hq
    · exact List.mem_append_right _ (huni ▸ List.mem_map_of_mem hq)
  · rw [hsrcs, List.map_map] at hquiet hwhole
    rw [hr.cur]
    dsimp only
    rw [hone]
    dsimp only
    rw [limbCheck_ready hbound hne hall (hfields ▸ hnamed)]
    dsimp only
    rw [(limbWaits_codes ..).trans hquiet, (limbFault_codes ..).trans hwhole, ← hsd]
    refine hr.perLane (fun U hU th hth hready hsound => ?_) hlen
    obtain rfl := team_of_executing hone hU hth
    exact (withEcc_ready hsound).trans (hf th hth hready)

/-! ### The shared forms -/

theorem limbWrite_limbWrites {g : Guard} {d : Dst} {named : List (Nat × Src)} {n : Team → Int}
    (hr : (limbWrites (limbW T) g d (named.map (·.2)) n).Ready s c x) (hl : LimbReady i (limbWrites (limbW T) g d (named.map (·.2)) n) s c T)
    (hfields : limbFields i = Dst.asSrc d :: named.map (·.2)) :
    s.limbWrite g d named n = (limbWrites (limbW T) g d (named.map (·.2)) n).done s c x := by
  refine limb_done hr hl (hform := ⟨rfl, rfl, rfl, rfl, ?_, ?_, rfl, hfields⟩) (fun th _ _ => writeLimb_eq_limbs T th d _) fun _ _ => rfl
  · simp [limbWrites]
  · simp [limbWrites, Function.comp_def]

theorem limbSign_writes {g : Guard} {d : Dst} {named : List (Nat × Src)} {v : State → Team → Thread → Nat} {n : Team → Int}
    (hr : (writes g d 32 (named.map (fun q => (q.2, limbW T))) v).Ready s c x)
    (hl : LimbReady i (writes g d 32 (named.map (fun q => (q.2, limbW T))) v) s c T)
    (hfields : limbFields i = named.map (·.2)) (hv : ∀ th, unsigned 32 (n T).sign = v s T th) :
    s.limbSign g d named n = (writes g d 32 (named.map (fun q => (q.2, limbW T))) v).done s c x := by
  refine limb_done hr hl (hform := ⟨rfl, rfl, rfl, rfl, rfl, ?_, rfl, hfields⟩) (fun th _ _ => ?_) fun _ _ => List.length_map _
  · simp [writes, Function.comp_def]
  · rw [hv th]
    exact laneWrite_eq th d 32 _

theorem limbShift_done {g : Guard} {d : Dst} {a b : Src} {m : Team → Int → Nat → Int} {n : Int → Nat → Int} {o : LaneOp}
    (ho : o = { limbWrites (limbW T) g d [a] (fun _ => 0) with
      srcs := [(a, limbW T), (b, 32)], uni := [(b, 32)], eff := fun s _ U th => limbs U th d (n (U.limbValue a) (rd s 32 U th b)) })
    (hr : o.Ready s c x) (hl : LimbReady i o s c T) (hfields : limbFields i = [Dst.asSrc d, a])
    (hm : ∀ th k, limbField (limbW T) a = true → limbs T th d (m T (T.limbValue a) k) = limbs T th d (n (T.limbValue a) k)) :
    s.limbShift g d a b m = o.done s c x := by
  subst ho
  have ha : limbField (limbW T) a = true := hl.named a (hfields ▸ by simp)
  refine limb_done hr hl (hform := ⟨rfl, rfl, rfl, rfl, ?_, rfl, rfl, hfields⟩) (fun th _ _ => ?_) fun _ _ => rfl
  · simp [limbWrites]
  · exact (writeLimb_eq_limbs T th d _).trans (congrArg (Lane.done · []) (hm th _ ha))

/-! ### Forms of one instruction -/

theorem execWnorm_done {g : Guard} {rm : Rm} {d : Dst} {a : Src} (ho : limbOp (limbW T) (.wnorm g rm d a) = some o) (hr : o.Ready s c x)
    (hl : LimbReady (.wnorm g rm d a) o s c T) : execWnorm g rm d a s = .next (o.done s c x) := by
  cases ho
  refine congrArg Host.Outcome.next (limb_done hr hl (hform := ⟨rfl, rfl, rfl, rfl, rfl, rfl, rfl, rfl⟩) (fun th _ hready => ?_)
    fun _ _ => List.length_map _)
  exact (raising_ready hready).trans (laneWrite_eq _ d 64 _)

theorem execWmacF64_done {g : Guard} {d : Dst} {a b : Src} (ho : limbOp (limbW T) (.wmacF64 g d a b) = some o) (hr : o.Ready s c x)
    (hl : LimbReady (.wmacF64 g d a b) o s c T) : execWmacF64 g d a b s = .next (o.done s c x) := by
  cases ho
  refine congrArg Host.Outcome.next (limb_done hr hl (hform := ⟨rfl, rfl, rfl, rfl, rfl, rfl, rfl, rfl⟩) (fun th hth hready => ?_)
    fun _ _ => rfl)
  obtain ⟨hprods, htotals⟩ := Bool.and_eq_true_iff.mp hready
  have hprod := List.all_eq_true.mp hprods th hth
  have htotal := of_decide_eq_true (List.all_eq_true.mp htotals th hth)
  dsimp only [rdf, Team.wexp] at hprod htotal ⊢
  split at hprod
  next own hown =>
    rw [hown] at htotal ⊢
    dsimp only at htotal ⊢
    rw [if_neg fun hover => ?_]
    · exact writeLimb_eq_limbs T th d _
    · obtain ⟨-, hbeyond⟩ := Bool.and_eq_true_iff.mp hover
      exact of_decide_eq_false ((Bool.not_eq_true' _).mp hbeyond) htotal
  next => exact absurd hprod Bool.false_ne_true

end

/-! ### The class -/

/-- A bound-limb instruction whose team is ready completes as its rule says (13 R239 to R247). -/
theorem limbOp_done {i : Instr} {T : Team} {o : LaneOp} (ho : limbOp (limbW T) i = some o) {s : State} {c : Cur} {x : Team → List Nat}
    (hr : o.Ready s c x) (hl : LimbReady i o s c T) : exec i s = .next (o.done s c x) := by
  cases i with
  | wadd g d a b | wsub g d a b => cases ho; exact congrArg _ (limbWrite_limbWrites (named := [(2, a), (3, b)]) hr hl rfl)
  | wneg g d a => cases ho; exact congrArg _ (limbWrite_limbWrites (named := [(2, a)]) hr hl rfl)
  | wclr g d => cases ho; exact congrArg _ (limbWrite_limbWrites (named := []) hr hl rfl)
  | wshl g d a b => cases ho; exact congrArg _ (limbShift_done (n := fun y k => y * 2 ^ k) rfl hr hl rfl fun th k _ => limbs_wshlValue T a k th d)
  | wshr g d a b =>
    cases ho
    exact congrArg _ (limbShift_done (n := fun y k => y / 2 ^ k) rfl hr hl rfl fun th k h => congrArg (limbs T th d) (wshrValue_eq_ediv h k))
  | wsign g d a => cases ho; exact congrArg _ (limbSign_writes (named := [(2, a)]) hr hl rfl fun _ => rfl)
  | wcmp g d a b =>
    cases ho
    exact congrArg _ (limbSign_writes (named := [(2, a), (3, b)]) hr hl rfl fun _ => unsigned_sign_sub _ _)
  | wmacF64 g d a b => exact execWmacF64_done ho hr hl
  | wnorm g rm d a => exact execWnorm_done ho hr hl
  | _ => nomatch ho

/-- Settles O7: each instruction is one of the shared forms, whose lanes take their bits of the number that its rule gives. -/
theorem boundLimbInstructions : Obligations.BoundLimbInstructions := by
  unfold Obligations.BoundLimbInstructions
  exact fun _ _ _ hi _ _ _ hready hlimb => limbOp_done hi hready hlimb

end Sys2Proof.Claims

/-!
The binding state of a team (13 R235 to R238, R245): what bind, unbind and wwin leave, where the number that wwin adds lies in its field, and a
module in which a number outside that field parts the two readings of a lane's number that wwin takes, so that the statement (O8) fails.
-/

namespace Sys2Proof.Claims
open Sys2Proof Sys2Proof.Machine

section
variable {s : State} {c : Cur} {T : Team} {g : Guard}

/-! ### bind and unbind (13 R237, R238) -/

/-- What an instruction for the one team of the group makes of it. -/
theorem teamOp_one (hc : s.cur = some c) (hone : s.groupTeams c.entry = [T]) {f : Team → List Thread → Except Trap (Team → Team)}
    {k : Team → Team} (hf : f T (T.executing c.entry g) = .ok k) : s.teamOp g f = s.updTeam T.launch T.wg T.idx k := by
  unfold State.teamOp
  rw [hc]
  dsimp only
  rw [hone]
  dsimp only
  rw [hf]

/-- What bind makes of a team of the width that it names, all of whose lanes execute. -/
theorem exec_bind (hc : s.cur = some c) (hone : s.groupTeams c.entry = [T]) (hne : T.executing c.entry g ≠ []) (ty : Ty) {n : Nat}
    (hwidth : T.width = 16 * 2 ^ n) (hall : (T.executing c.entry g).length = T.width) (hfree : T.blc.getLsbD 31 = false) :
    exec (.bind g ty n) s = .next (s.updTeam T.launch T.wg T.idx (boundAs n (ty = .n64))) := by
  refine congrArg Host.Outcome.next (teamOp_one hc hone ?_)
  have hbound : T.bound = false := hfree
  rw [if_neg (by simpa using hne), if_neg (not_not_intro hwidth.symm), hbound, hall, if_neg (by simp)]
  unfold boundAs
  simp only [decide_eq_true_eq, Nat.mul_comm]

/-- What unbind makes of a bound team whose live threads all execute. -/
theorem exec_unbind (hc : s.cur = some c) (hone : s.groupTeams c.entry = [T]) (hne : T.executing c.entry g ≠ [])
    (hbound : T.blc.getLsbD 31 = true) (hall : (T.executing c.entry g).length = T.live.length) :
    exec (.unbind g) s = .next (s.updTeam T.launch T.wg T.idx fun U => { U with blc := 0 }) := by
  refine congrArg Host.Outcome.next (teamOp_one hc hone ?_)
  have hb : T.bound = true := hbound
  rw [hb, if_neg (by simpa using hne), if_neg (not_not_intro hall)]

/-! ### wwin (13 R245) -/

/-- The 32 bits of a number and the number itself read alike as signed where the latter reads as a number of 32 bits. -/
theorem toInt_ofNat_of_signed {x : Nat} (hlow : -2 ^ 31 ≤ signed 32 x) (hhigh : signed 32 x < 2 ^ 31) :
    (BitVec.ofNat 32 x).toInt = signed 32 x := by
  unfold signed at hlow hhigh ⊢
  rw [BitVec.toInt_eq_toNat_cond, BitVec.toNat_ofNat]
  omega

/-- The window exponent of a binding state is its low 13 bits (R235). -/
theorem withExponent_eq (blc : BitVec 32) (e : Int) :
    BitVec.ofNat 32 (blc.toNat / 2 ^ 13 * 2 ^ 13 + unsigned 13 e) = blc &&& 0xffffe000#32 ||| (BitVec.ofInt 13 e).zeroExtend 32 := by
  refine BitVec.eq_of_getLsbD_eq fun i hi => ?_
  have hmask : ∀ j < 32, (0xffffe000#32).getLsbD j = decide (13 ≤ j) := by decide
  rw [BitVec.getLsbD_ofNat, decide_eq_true hi, Bool.true_and, Nat.mul_comm, Nat.testBit_two_pow_mul_add _ (unsigned_lt 13 e),
    BitVec.getLsbD_or, BitVec.getLsbD_and, hmask i hi, BitVec.getLsbD_setWidth, decide_eq_true hi, Bool.true_and]
  split
  next hlow =>
    rw [decide_eq_false (by omega), Bool.and_false, Bool.false_or]
    rfl
  next hhigh =>
    rw [decide_eq_true (by omega), Bool.and_true, BitVec.getLsbD_of_ge (BitVec.ofInt 13 e) i (by omega), Bool.or_false,
      Nat.testBit_div_two_pow, Nat.sub_add_cancel (by omega)]
    rfl

/-- The checks before any effect pass where the sources are uniform and their registers lie in the blocks. -/
theorem checked_uniformOp {srcs : List (Src × Nat)} (hr : (uniformOp g srcs).Ready s c) {regs : List Nat} {uni : List Field}
    {k : State → State} (hregs : ∀ r ∈ regs, r ∈ srcs.flatMap (fun q => srcRegs q.2 q.1)) (huni : ∀ q ∈ uni, (q.src, q.w) ∈ srcs) :
    s.checked g regs uni k = k s :=
  State.checked_pass (State.blockCheck_none hr.cur fun U hU hissues r hmem => hr.block U hU hissues r (hregs r hmem))
    (State.uniformCheck_none hr.cur fun U hU th hth th' hth' q hq => hr.agree U hU th hth th' hth' _ (huni q hq))

/-- What wwin makes of a bound team whose live threads all execute, where the number that it adds lies in its field. -/
theorem exec_wwin (hone : s.groupTeams c.entry = [T]) {a : Src} {k : Int} {th : Thread} {ths : List Thread}
    (hr : (uniformOp g [(a, 32)]).Ready s c) (hlanes : T.executing c.entry g = th :: ths)
    (hsound : ∀ o ∈ T.executing c.entry g, T.sound o = true) (hbound : T.blc.getLsbD 31 = true)
    (hall : (T.executing c.entry g).length = T.live.length) (hquiet : s.limbWaits T [⟨2, a, 32⟩] = false)
    (hwhole : T.limbFault [⟨2, a, 32⟩] = none) (hlow : -4096 ≤ signed 32 (rd s 32 T th a) + k)
    (hhigh : signed 32 (rd s 32 T th a) + k ≤ 4095) (hfield : -256 ≤ k ∧ k ≤ 255) :
    exec (.wwin g a k) s = .next ((s.lanesDone c g [] (fun _ => []) (fun _ o => o)).updTeam T.launch T.wg T.idx fun U =>
      { U with blc := U.blc &&& 0xffffe000#32 ||| (BitVec.ofInt 13 (signed 32 (rd s 32 T th a) + k)).zeroExtend 32 }) := by
  have hcheck : limbCheck T (T.executing c.entry g) [] = .ok true :=
    limbCheck_ready hbound (hlanes ▸ List.cons_ne_nil _ _) hall (fun _ h => absurd h List.not_mem_nil)
  have hread : (readBv (s.tickOf T) .int 32 T th a).toInt = signed 32 (rd s 32 T th a) :=
    toInt_ofNat_of_signed (x := rd s 32 T th a) (by omega) (by omega)
  have hfirst : ((T.executing c.entry g).head?.map fun o => (readBv (s.tickOf T) .int 32 T o a).toInt).getD 0 = signed 32 (rd s 32 T th a) := by
    rw [hlanes]
    exact hread
  have hclean : (T.executing c.entry g).any (fun o => (o.eccTrap T [⟨2, a, 32⟩]).isSome) = false :=
    List.any_eq_false.mpr fun o ho => by rw [Thread.eccTrap_nil (hsound o ho)]; exact Bool.false_ne_true
  have hdone : s.perLane g [] (withEcc [⟨2, a, 32⟩] fun _ o => .done o []) = s.lanesDone c g [] (fun _ => []) fun _ o => o :=
    State.perLane_done (v := fun _ _ => []) hr.cur (fun U hU o ho => by
      obtain rfl := team_of_executing hone hU ho
      exact withEcc_ready (hsound o ho)) fun h => absurd rfl h
  refine congrArg Host.Outcome.next ((checked_uniformOp hr (by simp) (by simp)).trans ?_)
  rw [hr.cur]
  dsimp only
  rw [hone]
  dsimp only
  rw [hcheck]
  dsimp only
  rw [hquiet, hwhole, hfirst, decide_eq_false (Int.not_lt.mpr hlow), decide_eq_false (Int.not_lt.mpr hhigh), hclean]
  exact congr (congrArg (State.updTeam · T.launch T.wg T.idx) hdone) (funext fun U => by rw [withExponent_eq])

end

/-! ### A number outside the field of wwin -/

/-- A thread that issues and whose number is no 32-bit one. -/
def farThread : Thread := { lane := 2 ^ 33, entry := some 0 }

/-- A bound team with that thread alone. -/
def farTeam : Team := { boundTwin with threads := [farThread] }

/-- A module with that team alone. -/
def farModule : State := { State.reset with teams := [farTeam], cur := some ⟨0, 0⟩ }

theorem groupTeams_farModule : farModule.groupTeams 0 = [farTeam] := rfl

theorem executing_farTeam : farTeam.executing 0 .always = [farThread] := rfl

theorem ready_farModule : (uniformOp .always [(.lane, 32)]).Ready farModule ⟨0, 0⟩ where
  cur := rfl
  block := fun _ _ _ _ hk => absurd hk List.not_mem_nil
  agree := by
    intro U hU th hth th' hth' _ _
    obtain rfl := List.mem_singleton.mp hU
    obtain rfl : th = farThread := List.mem_singleton.mp hth
    obtain rfl : th' = farThread := List.mem_singleton.mp hth'
    rfl

/-- Read as a 32-bit number with a sign, the thread's number is 2^32: with -2^32 the exponent is 0. -/
theorem exponent_farThread : signed 32 (rd farModule 32 farTeam farThread .lane) + -2 ^ 32 = 0 := by decide

/-- The numbers of the lanes that have a fault pending after an instruction. -/
def parkedAfter : Host.Outcome State Fault Refusal → List Nat
  | .next t => parkedLanes t
  | _ => []

/-- The machine reads the number's low 32 bits, which are 0: the exponent is -2^32, and the thread parks (R245). -/
theorem parkedAfter_wwin : parkedAfter (exec (.wwin .always .lane (-2 ^ 32)) farModule) = [2 ^ 33] := by decide +kernel

/-- The statement has the thread complete, whatever the binding state is to be. -/
theorem parkedLanes_bindingState (b : Team → BitVec 32) :
    parkedLanes ((farModule.lanesDone ⟨0, 0⟩ .always [] (fun _ => []) fun _ o => o).updTeam farTeam.launch farTeam.wg farTeam.idx
      fun U => { U with blc := b U }) = [] := rfl

/-- Refutes O8: the statement adds the number in wwin's field to the signed reading of its whole source, and the machine to that of the source's
32 bits; the statement bounds neither that number by its field nor a thread's number by 32 bits, and in `farModule` the thread with the number
2^33 parks where the statement has it complete. `exec_bind`, `exec_unbind` and `exec_wwin` are the statement with the number in its field. -/
theorem not_bindingOfTeams : ¬ Obligations.BindingOfTeams := by
  unfold Obligations.BindingOfTeams
  intro h
  obtain ⟨-, -, hwwin⟩ := h farModule ⟨0, 0⟩ farTeam .always rfl groupTeams_farModule (executing_farTeam ▸ List.cons_ne_nil _ _)
  have hnext := hwwin .lane (-2 ^ 32) farThread [] ready_farModule executing_farTeam (by decide) (by decide) (by decide) (by decide)
    (by decide) (by rw [exponent_farThread]; decide) (by rw [exponent_farThread]; decide)
  have hparked := congrArg parkedAfter hnext
  rw [parkedAfter_wwin] at hparked
  exact absurd (hparked.trans (parkedLanes_bindingState _)) (by decide)

end Sys2Proof.Claims
